-- ==== Sys2Proof/Word.lean ====
section
/-! DEFINITION. The word types of the NX840: 64-bit general registers and addresses, 32-bit instruction words,
bytes (spec/02_encoding.md R20, R35; spec/00_scope.md R3), and the sparse table in which the state keeps what is
indexed by a number. -/

namespace Sys2Proof

/-- A 64-bit value: a general register, an address, a counter (R35, R175). -/
abbrev Word := BitVec 64

/-- One byte of memory (R3). -/
abbrev Byte := BitVec 8

/-- A 32-bit instruction word (R20). -/
abbrev IWord := BitVec 32

/-- A sparse table indexed by a number: keys rise, and an absent key stands for the table's default. -/
abbrev Tab (α : Type) := List (Nat × α)

/-- Bits `hi` to `lo` of a number, both included (R3). -/
def fld (w hi lo : Nat) : Nat := w / 2 ^ lo % 2 ^ (hi + 1 - lo)

end Sys2Proof
end

