-- ==== Sys2Proof/Config.lean ====
section
/-! DEFINITION. What an implementation of the NX840 fixes and the spec does not: free values and choices of the device,
each an opaque constant with no body (log 4, log 5), so that nothing can be proved about which value it takes. -/

namespace Sys2Proof.Config

/-- A value that the spec leaves open, by the free-value counter of the state (log 4). -/
opaque freeWord : Nat → Word

/-- The fixed hash of a line address that spreads the lines of a granule in modes 0, 1 and 2 over its home slices:
mode, die or stack, line (R306). -/
opaque sliceHash : Nat → Nat → Nat → Nat

/-- The private halves of the package's attestation and sealing keys, and the secret number that a signature of a message
takes (R341, R344, R348). -/
opaque attestSecret : BitVec 256
opaque sealSecret : BitVec 256
opaque signNonce : List Byte → BitVec 256

/-- The secret of the lineages of this package as their home (R341). -/
opaque lineageSecret : BitVec 256

/-- Fealman's root key, under which firmware is verified (R392). -/
opaque rootKey : BitVec 512

/-- 32 bytes drawn at random, by the free-value counter of the state: LINID, nonces, ephemeral keys (R340, R341). -/
opaque randomWord : Nat → BitVec 256

/-- The package's serial number (R348) and its attestation key's certificate chain (R381). -/
opaque serial : Word
opaque certChain : List Byte

/-- The body of an SPDM or MCTP control response whose content the cited standards give: request code and request
bytes (R381). -/
opaque spdmBody : Nat → List Byte → List Byte

/-- Does the home accept a job's firmware measurement against the lineage's recorded one (R341)? The succession lists
installed with firmware are the implementation's. -/
opaque fwSucceeds : (recorded offered : List Byte) → Bool

/-- Does a quote's signature verify against the Fealman certificate chain (R341)? -/
opaque quoteOk : (quote : List Byte) → Bool

/-- The public sealing key of the package that a quote names (R340). -/
opaque sealKeyOf : (quote : List Byte) → BitVec 512

end Sys2Proof.Config
end

