-- ==== Sys2Proof/Syntax.lean ====
section
/-! DEFINITION. The instructions of the NX840: one constructor per row of spec/opcode_table.json. The first 121 are the
table's events, which no word encodes: what the device does on its own or what reaches it from outside. Their operands
name the subject (a thread identifier, a core, a bench, a place in a queue) and carry what comes from outside (bytes,
values). The 267 after them are the instruction words (R20-R34); their operands are the bit fields of the word, named
as the formats of R26 name them (`p` the pair bit of a class C word, `la`/`q` the lookahead count, `k` a mask, `sb` the
scalar bit S, `sc` a scope, `ew` an element width, `t` a type code, `y` TQ, `c` the counter bit C). The events stand
first because Lean's compiled code cannot build a constructor with operands past the 245th: only the decoder builds
words, and it is marked noncomputable for that reason alone (the kernel evaluates it). -/

namespace Sys2Proof

/-- An instruction word of the NX840, or an event of the device (spec/opcode_table.json). -/
inductive Instr where
  /-- LONG_RESULT_WRITE (R58). A long instruction's result arrives and is written to gd, releasing the held bundle; an
  uncorrectable read raises the trap of R59 instead. -/
  | longResultWrite (tid n : Nat)
  /-- PAUSE_EXPIRY (R60). A pause count runs out and the thread issues again. -/
  | pauseExpiry (tid : Nat)
  /-- TIMER_COMPARE (R81). CYCLE reaches SCMP and the timer interrupt becomes pending. -/
  | timerCompare (tid : Nat)
  /-- INTERRUPT_TAKE (R82). A pending enabled interrupt is taken between bundles, after pending long results and
  vector cuts. -/
  | interruptTake (tid : Nat)
  /-- ASYNC_FAULT_TRAP (R84). The owner of a reported copy or tile fault takes cause 15 or 16 at its next issue. -/
  | asyncFaultTrap (tid : Nat)
  /-- STORE_FAULT_TRAP (R246). A thread with a written or pending store-fault record takes cause 8 at its next issue. -/
  | storeFaultTrap (tid : Nat)
  /-- STOP_COMPLETE (R77). A marked thread reaches its stop point, drains its queues and becomes Stopped; a grp.stop
  counter add follows. -/
  | stopComplete (tid : Nat)
  /-- THR_END_COMPLETE (R75). After its holds end, the thread ORs its flags, leaves its group, frees its resources and
  is counted as ended. -/
  | thrEndComplete (tid : Nat)
  /-- GAFFER_SPAWN (R328). The Gaffer spawns an admitted kernel's threads, writing argument copies and zeroing near
  ranges. -/
  | gafferSpawn (num : Nat) (places : List Nat)
  /-- LANE_BEAT (R119). The lane array performs one beat for the next eligible slot. -/
  | laneBeat (core : Nat)
  /-- VECTOR_ELEMENT_ACCESS (R129). The memory-request port serves a vector element access, which may commit, fault,
  drop or park. -/
  | vectorElementAccess (tid : Nat)
  /-- MARVER_GRANT (R150). The Marver arbiter starts the next command by weighted round robin. -/
  | marverGrant (bench : Nat)
  /-- MARVER_STEP (R152). A Marver command performs one step. -/
  | marverStep (bench : Nat)
  /-- MARVER_COMMAND_COMPLETE (R161). A command completes, ORs its flags and, with C = 1, adds 1 to the TCC counter. -/
  | marverCommandComplete (bench : Nat)
  /-- COUNTER_OP_AT_HOME (R179). A counter operation is performed at its home in the total order, and wakes are sent. -/
  | counterOpAtHome (n : Nat)
  /-- WAKE_MESSAGE (R194). A wake message reaches a listed waiter, which re-reads at the home. -/
  | wakeMessage (n : Nat)
  /-- WAIT_REREAD (R195). The value re-read at the home completes the wait or re-parks the thread. -/
  | waitReread (tid : Nat)
  /-- WAITER_POLL (R196). Every 1,024 cycles a polling waiter reads the home and tries to be listed. -/
  | waiterPoll (tid : Nat)
  /-- WAITER_EVICT (R194). The device evicts a thread or guard waiter entry and wakes it. -/
  | waiterEvict (n : Nat)
  /-- WAIT_TIMEOUT (R198). WLIM runs out for a parked wait and a precise wait-timeout trap is raised. -/
  | waitTimeout (tid : Nat)
  /-- STORE_CHECK (R244). A queued store completes its checks and is sent towards its home or recorded. -/
  | storeCheck (tid : Nat)
  /-- PENDING_RECORD_WRITE (R247). A pending store-fault record is written once CONS makes room. -/
  | pendingRecordWrite (tid : Nat)
  /-- STORE_ARRIVE_HOME (R229). A store is performed at its home, waking counter waiters and invalidating translations
  built from the line. -/
  | storeArriveHome (tid n : Nat)
  /-- AMO_AT_HOME (R255). An AMO is performed indivisibly at its home and its old value returned. -/
  | amoAtHome (n : Nat)
  /-- RED_AT_HOME (R257). A RED or scatter-add element is performed at its home, or dropped on an uncorrectable error. -/
  | redAtHome (tid n : Nat)
  /-- LINE_EVICT (R232). The device evicts a cached line, writing back a dirty peer-homed copy. -/
  | lineEvict (core line : Nat)
  /-- HOST_CXL_SNOOP (R233). A host snoop acts on the device's CXL.cache copies. -/
  | hostCxlSnoop (line : Nat) (inval : Bool) (data : List Byte)
  /-- HOST_CXL_MEM_ACCESS (R234). A host CXL.mem access is performed at the line's L2 home. -/
  | hostCxlMemAccess (pa : Nat) (write : Bool) (data : List Byte)
  /-- COPY_CHUNK (R269). The copy channel writes one chunk and adds its units to the progress counter; the last chunk
  returns the channel to Idle. -/
  | copyChunk (core : Nat)
  /-- MCAST_STREAM_JOIN (R277). A multicast request reaches the home slice and joins a stream in flight or opens one. -/
  | mcastStreamJoin (core : Nat)
  /-- MCAST_RECEIVER_CHUNK (R277). A multicast receiver writes a chunk once all of its lines arrive, and advances its
  counter. `rcv` is the receiver's place in the request's list of receivers. -/
  | mcastReceiverChunk (core rcv : Nat)
  /-- GRP_MCAST_DELIVERY (R214). A grp.mcast receiver's rows land and its near counter advances; the source counter
  advances when the panel is read. `n` is the delivery's place in the list of deliveries, `rcv` the receiver's in the
  list of those left. -/
  | grpMcastDelivery (n rcv : Nat)
  /-- REDUCTION_RESULT (R369). The switch's round result arrives, is written over the source range and one progress
  add is made. -/
  | reductionResult (core : Nat) (data : List Byte)
  /-- ROUND_ABANDON (R371). The switch abandons a reduction round on TMO or a failure, and every contributor takes
  copy fault 32. -/
  | roundAbandon (core : Nat)
  /-- PAGE_WALK (R289). A two-stage translation walk ends in a translation, a miss or a refusal. -/
  | pageWalk (tid : Nat) (va : Word) (kind : Nat)
  /-- PAGE_REQUEST_RECORD_WRITE (R299). A page-request record is written to its ring when there is room, and PROD is
  advanced. -/
  | pageRequestRecordWrite (ent : Nat)
  /-- PAGE_ANSWER_RETRY (R300). An answer with REFUSE 0 through SPRA, HPRA or HANS frees the entry and wakes every
  requester. -/
  | pageAnswerRetry (own ring : Nat) (ans : Word)
  /-- PAGE_ANSWER_REFUSE (R300). An answer with REFUSE 1 frees the entry and faults every requester. -/
  | pageAnswerRefuse (own ring : Nat) (ans : Word)
  /-- HOST_FENCE_MESSAGE (R376). A host fence message is accepted when bytes 56 to 63 are written, and matching
  translations are invalidated. -/
  | hostFenceMessage (vf off : Nat) (data : List Byte)
  /-- HOST_FENCE_ACK (R296). Once the affected walks and accesses end, the acknowledgement value is stored with
  release at system scope. -/
  | hostFenceAck (n : Nat)
  /-- HOST_QUEUE_WINDOW_WRITE (R312). A host write of bytes 56 to 63 of a queue window accepts or drops a launch
  record. -/
  | hostQueueWindowWrite (vf q off : Nat) (data : List Byte)
  /-- FRAME_RECEIVE (R313). An Ethernet frame is filtered and classified into a launch queue, or dropped. -/
  | frameReceive (port : Nat) (data : List Byte)
  /-- KERNEL_BIND (R426). The Gaffer binds a received record to a model slot, or ends it Faulted. -/
  | kernelBind (num : Nat)
  /-- KERNEL_ADMIT (R327). The Gaffer admits a fitting Queued kernel by priority, weight and reserved head. -/
  | kernelAdmit (num : Nat)
  /-- KERNEL_END_SEQUENCE (R330). A Draining or failed kernel frees its resources, stores its status word and adds
  CINC to CCTR. -/
  | kernelEndSequence (num : Nat)
  /-- CREATE (R335). CTXC command 1 creates a Loading context bound to a VMID, partition, virtual function and QoS
  class. -/
  | create (arg : Word)
  /-- READY (R335). CTXC command 2 freezes the measurement of a Loading context. -/
  | ready (arg : Word)
  /-- START (R335). CTXC command 3 reserves 16 page-request entries and makes the context Running. -/
  | start (arg : Word)
  /-- SUSPEND (R336). CTXC command 4 stops every thread and gang of the context and drains its state. -/
  | suspend (arg : Word)
  /-- SUSPEND_COMPLETE (R336). Once stops, stores, halo ends and channel pauses finish, the context becomes Suspended. -/
  | suspendComplete (ctx : Nat)
  /-- RESUME (R335). CTXC command 5 returns a Suspended context to Running. -/
  | resume (arg : Word)
  /-- DESTROY (R335). CTXC command 6 ends every thread, closes queues and starts the scrub. -/
  | destroy (arg : Word)
  /-- SCRUB_COMPLETE (R335). The scrub of a Destroyed context ends and the context becomes Empty. -/
  | scrubComplete (ctx : Nat)
  /-- SEAL_JOB_START (R342). The seal engine starts the next queued seal job. -/
  | sealJobStart (job : Nat)
  /-- RESTORE_JOB_START (R345). The seal engine starts the next queued restore job. -/
  | restoreJobStart (job : Nat)
  /-- LEASE_REQUEST (R341). A lineage home receives a job's quote, checks it and grants a lease or refuses. -/
  | leaseRequest (job lin lctr : Nat) (restore : Bool) (quote : List Byte)
  /-- KEY_RELEASE (R341). The job's Lehr receives the wrapped image key and the job proceeds through its chunks. -/
  | keyRelease (job : Nat) (key sealer : List Byte)
  /-- COMMIT_REQUEST (R341). The home writes the lineage counter, acknowledges and clears the lease. -/
  | commitRequest (job lin lctr : Nat)
  /-- COMMIT_ACK (R343). The job receives the commit outcome, writes its result record and adds 1 to DONE. -/
  | commitAck (job : Nat) (ok : Bool)
  /-- LEASE_EXPIRY (R341). A 60-second lease expires and counts as an abort. -/
  | leaseExpiry (lin : Nat)
  /-- HOME_ANSWER_TIMEOUT (R343). A job's lineage home fails to answer and the job fails with -6. -/
  | homeAnswerTimeout (job : Nat)
  /-- UPDATE (R356). A signed UPDATE request is checked and its entries written in body order. -/
  | update
  /-- RESHAPE (R356). A signed RESHAPE request is checked and the affected partitions enter Quiescing. -/
  | reshape
  /-- RESHAPE_DRAIN_COMPLETE (R357). After the drain, the Lehr moves granules, writes tables, shoots down translations
  and returns the partitions to Active. -/
  | reshapeDrainComplete
  /-- SPSZ_WRITE (R81). A write to SPSZ holds until the core array is rebuilt. -/
  | spszWrite (val : Word)
  /-- SDEPTH_WRITE (R113). A write of SDEPTH.ROWS waits for the vector queue and reassigns depth rows. -/
  | sdepthWrite (val : Word)
  /-- VT_WRITE (R114). A write to VT sets the type and clamps VL to the new MVL. -/
  | vtWrite (val : Word)
  /-- VECTOR_STATE_ACCESS (R114). An SREG access to VRS or VDM waits until the vector queue is empty. -/
  | vectorStateAccess (idx : Nat) (val : Word)
  /-- TSTAT_TAKE_HOLD (R147). Writing TSTAT.TS to a value other than Off takes the core's tile hold. -/
  | tstatTakeHold (val : Word)
  /-- TSTAT_WRITE_OFF (R147). Writing TSTAT.TS to Off sets the slot's TS to Off and leaves the holder record
  unchanged. -/
  | tstatWriteOff
  /-- TILE_CONFIG_WRITE (R148). A write of TM to TCC waits until the core's command queue is empty. -/
  | tileConfigWrite (idx : Nat) (val : Word)
  /-- AFCODE_CLEAR (R84). Writing 1 to AFCODE.V ends a fault report and frees a Faulted copy channel. -/
  | afcodeClear
  /-- XCTR_ENABLE (R265). Writing XCTR.EN := 1 enables the copy channel and reserves slot 15. -/
  | xctrEnable (val : Word)
  /-- XCTR_DISABLE (R267). Writing XCTR.EN := 0 waits for any running request and turns the channel Off. -/
  | xctrDisable (val : Word)
  /-- HOST_COUNTER_WINDOW_WRITE (R203). A host 8-byte write to a counter window entry adds its value as a system-scope
  release. -/
  | hostCounterWindowWrite (vf ent : Nat) (val : Word)
  /-- HOST_ARM_WRITE (R373). A host write to an arm entry arms that entry's counter on a threshold, with MSI-X on
  firing. -/
  | hostArmWrite (vf ent : Nat) (val : Word)
  /-- HOST_DOORBELL (R377). A host doorbell write stores HMSG and raises interrupt code 3. -/
  | hostDoorbell (vf : Nat) (val : Word)
  /-- COUNTER_TABLE_WRITE (R374). The host driver writes a virtual function's counter-table entry. -/
  | counterTableWrite (vf ent : Nat) (val : Word)
  /-- HOST_REGISTER_WRITE (R385). A host write to a BAR register that has no row of its own, such as LPCAP, LEVB or
  HPRB. -/
  | hostRegisterWrite (fn off : Nat) (val : Word)
  /-- PORT_ENABLE (R361). Management PORT action 0 moves a Down port to Training. -/
  | portEnable (data : List Byte)
  /-- PORT_FENCE (R361). Management PORT action 1 fences a port and resends its requests on other ports. -/
  | portFence (data : List Byte)
  /-- PORT_UNFENCE (R361). Management PORT action 2 returns a Fenced port to Down. -/
  | portUnfence (data : List Byte)
  /-- PORT_RESET (R361). Management PORT action 3 resets a Failed or Fenced port to Down. -/
  | portReset (data : List Byte)
  /-- LANE_LOCK (R361). A training or retraining port locks 8 or 4 lanes and becomes Up or Degraded. -/
  | laneLock (port lanes : Nat)
  /-- TRAINING_TIMEOUT (R361). A training attempt fails to lock in time, and after 3 attempts the port is Failed. -/
  | trainingTimeout (port : Nat)
  /-- RETRAIN_TRIGGER (R361). A flit replayed 8 times, a lost lane or a management request moves the port to
  Retraining. -/
  | retrainTrigger (port : Nat) (lost : Bool)
  /-- FLIT_CRC_FAIL (R360). A flit fails its CRC after FEC and is replayed from the sender's buffer. -/
  | flitCrcFail (port copies : Nat)
  /-- PATH_TIMEOUT (R363). A request finds no reachable path for 2 ms and is ended as unreachable. -/
  | pathTimeout (n : Nat)
  /-- REMOTE_ACCESS_RECEIVE (R365). A target package admits a remote access by its domain table and performs it, or
  refuses it. -/
  | remoteAccessReceive (src spart kind pa : Nat) (data : List Byte)
  /-- MCTP_CONTROL (R381). An MCTP control message over I3C or PCIe vendor-defined messages. -/
  | mctpControl (data : List Byte)
  /-- GET_VERSION (R381). SPDM GET_VERSION request. -/
  | getVersion
  /-- GET_CAPABILITIES (R381). SPDM GET_CAPABILITIES request. -/
  | getCapabilities (data : List Byte)
  /-- NEGOTIATE_ALGORITHMS (R381). SPDM NEGOTIATE_ALGORITHMS request. -/
  | negotiateAlgorithms (data : List Byte)
  /-- GET_DIGESTS (R381). SPDM GET_DIGESTS request. -/
  | getDigests
  /-- GET_CERTIFICATE (R381). SPDM GET_CERTIFICATE request for the attestation chain. -/
  | getCertificate (slot off len : Nat)
  /-- CHALLENGE (R381). SPDM CHALLENGE request. -/
  | challenge (slot : Nat) (nonce : List Byte)
  /-- GET_MEASUREMENTS (R381). Returns the firmware measurement, partition configuration hashes and optionally a
  context quote. -/
  | getMeasurements (blk : Nat) (nonce : List Byte) (ctx : Nat)
  /-- FW_OPEN (R382). Opens a firmware staging buffer. -/
  | fwOpen (data : List Byte)
  /-- FW_DATA (R382). Writes bytes into the firmware staging buffer: the message's first 12 bytes, which end with the
  offset, and the bytes after them. -/
  | fwData (head data : List Byte)
  /-- FW_COMMIT (R382). Verifies the staged firmware image and schedules it. -/
  | fwCommit (data : List Byte)
  /-- AUTH_KEY (R359). Installs or replaces the partition-authority key; the message stands
  beside the flag that it came over the I3C target. -/
  | authKey (data : Bool × List Byte)
  /-- PLAN (R359). Sets the administering partition of each partition. -/
  | plan (data : List Byte)
  /-- PKG_NUM (R382). Sets the package number in the domain. -/
  | pkgNum (data : List Byte)
  /-- ROUTE (R382). Sets or removes a route-table entry. -/
  | route (data : List Byte)
  /-- DOMAIN (R382). Sets which source partitions may reach a local partition. -/
  | domain (data : List Byte)
  /-- XGROUP (R382). Sets which local partitions may use a reduction or multicast group. -/
  | xgroup (data : List Byte)
  /-- ETH_ADDR (R382). Sets an Ethernet port's MAC address and one IP address. -/
  | ethAddr (data : List Byte)
  /-- ETH_RULE (R382). Sets one Ethernet classifier rule. -/
  | ethRule (data : List Byte)
  /-- PART_RESET (R393). Resets a partition: its contexts are destroyed and its queues Unbound. -/
  | partReset (data : List Byte)
  /-- CORE_RESET (R393). Resets a core: slots Free, tile state reset and copy channel Off. -/
  | coreReset (data : List Byte)
  /-- PACKAGE_RESET (R393). A PCIe fundamental reset or a thermal trip resets the package and verifies firmware. -/
  | packageReset (verified : Bool)
  /-- POWER_UP (R387). The Lehr sequences power and sets LSTAT.RDY after firmware and stack training. -/
  | powerUp (verified : Bool)
  /-- POWER_CAP_TICK (R387). Every 1 ms the Lehr compares power with the cap and steps the core clock. -/
  | powerCapTick (watts : Nat)
  /-- THERMAL_SAMPLE (R388). The Lehr reads its sensors and throttles or resets at the temperature thresholds. -/
  | thermalSample (bench benchT stack stackT : Nat)
  /-- MARGIN_REPLAN (R389). Every 1,000 powered hours the Lehr re-plans voltage and frequency margins. -/
  | marginReplan (bench mv : Nat)
  /-- ERROR_DETECT (R390). A detected soft error is retried and classified as transient or lasting. -/
  | errorDetect (kind addr : Nat) (lasting : Bool)
  /-- LEHR_RESTART (R384). The lock-stepped Lehr cores disagree and the Lehr restarts from verified firmware. -/
  | lehrRestart
  /-- POWER_LOSS (R340). The module loses its supply, and a lineage home's counter is left at its old or its new
  value. -/
  | powerLoss (lin : Nat) (new : Bool)
  /-- BLOCK_DEVICE_ACKNOWLEDGE (R340). The Replay Protected Memory Block acknowledges a lineage-counter write, and
  only then is the write complete. -/
  | blockDeviceAcknowledge (lin : Nat)
  /-- LEASE_REFUSED (R341). A seal or restore job's Lehr receives the home's refusal or busy answer and the job fails
  with -7, -8, -9, -11 or -14. -/
  | leaseRefused (job code : Nat)
  /-- TRANSLATION_DROP (R293). The device drops a cached translation or walk-cache entry at a moment of its choosing. -/
  | translationDrop (n : Nat)
  /-- SVC (R60). Raises a service-call trap (cause 17) with SEPC set to its own address and SVAL set to 0. -/
  | svc
  /-- BRK (R60). Raises a breakpoint trap (cause 18) with SEPC set to its own address and SVAL set to 0. -/
  | brk
  /-- TRET (R82). Returns from a trap: restores pc, privilege and IE from the current level's trap registers. -/
  | tret
  /-- PAUSE (R60). Holds the thread for between 1 and 1,024 rotations, as given by ga. -/
  | pause (a : BitVec 5)
  /-- SREAD (R61). Reads a system register into gd after the privilege and index checks. -/
  | sread (p : BitVec 1) (d : BitVec 5) (imm : BitVec 12)
  /-- SWRITE (R61). Writes ga to a system register and returns the old value in gd; this row also covers every
  register write that has no row of its own. -/
  | swrite (p : BitVec 1) (d a : BitVec 5) (imm : BitVec 12)
  /-- SSET (R61). ORs ga into a system register and returns the old value. -/
  | sset (p : BitVec 1) (d a : BitVec 5) (imm : BitVec 12)
  /-- SCLR (R61). Clears the bits of ga in a system register and returns the old value. -/
  | sclr (p : BitVec 1) (d a : BitVec 5) (imm : BitVec 12)
  /-- BEQ (R62). Branches when ga equals gb. -/
  | beq (p : BitVec 1) (a b : BitVec 5) (off : BitVec 12)
  /-- BNE (R62). Branches when ga differs from gb. -/
  | bne (p : BitVec 1) (a b : BitVec 5) (off : BitVec 12)
  /-- BLT (R62). Branches when ga is less than gb, compared as signed values. -/
  | blt (p : BitVec 1) (a b : BitVec 5) (off : BitVec 12)
  /-- BGE (R62). Branches when ga is greater than or equal to gb, compared as signed values. -/
  | bge (p : BitVec 1) (a b : BitVec 5) (off : BitVec 12)
  /-- BLTU (R62). Branches when ga is less than gb, compared as unsigned values. -/
  | bltu (p : BitVec 1) (a b : BitVec 5) (off : BitVec 12)
  /-- BGEU (R62). Branches when ga is greater than or equal to gb, compared as unsigned values. -/
  | bgeu (p : BitVec 1) (a b : BitVec 5) (off : BitVec 12)
  /-- JAL (R63). Writes the link value to gd and jumps PC-relative. -/
  | jal (p : BitVec 1) (d : BitVec 5) (off : BitVec 20)
  /-- JALR (R63). Writes the link value to gd and jumps to ga plus imm12. -/
  | jalr (p : BitVec 1) (d a : BitVec 5) (imm : BitVec 12)
  /-- LDB (R64). Loads a sign-extended byte as a long result. -/
  | ldb (p : BitVec 1) (d a : BitVec 5) (la : BitVec 4) (imm : BitVec 8)
  /-- LDH (R64). Loads a sign-extended halfword as a long result. -/
  | ldh (p : BitVec 1) (d a : BitVec 5) (la : BitVec 4) (imm : BitVec 8)
  /-- LDW (R64). Loads a sign-extended word as a long result. -/
  | ldw (p : BitVec 1) (d a : BitVec 5) (la : BitVec 4) (imm : BitVec 8)
  /-- LDD (R64). Loads a doubleword as a long result. -/
  | ldd (p : BitVec 1) (d a : BitVec 5) (la : BitVec 4) (imm : BitVec 8)
  /-- LDBU (R64). Loads a zero-extended byte as a long result. -/
  | ldbu (p : BitVec 1) (d a : BitVec 5) (la : BitVec 4) (imm : BitVec 8)
  /-- LDHU (R64). Loads a zero-extended halfword as a long result. -/
  | ldhu (p : BitVec 1) (d a : BitVec 5) (la : BitVec 4) (imm : BitVec 8)
  /-- LDWU (R64). Loads a zero-extended word as a long result. -/
  | ldwu (p : BitVec 1) (d a : BitVec 5) (la : BitVec 4) (imm : BitVec 8)
  /-- STB (R64). Enters a byte store into the store queue. -/
  | stb (p : BitVec 1) (d a : BitVec 5) (imm : BitVec 8)
  /-- STH (R64). Enters a halfword store into the store queue. -/
  | sth (p : BitVec 1) (d a : BitVec 5) (imm : BitVec 8)
  /-- STW (R64). Enters a word store into the store queue. -/
  | stw (p : BitVec 1) (d a : BitVec 5) (imm : BitVec 8)
  /-- STD (R64). Enters a doubleword store into the store queue. -/
  | std (p : BitVec 1) (d a : BitVec 5) (imm : BitVec 8)
  /-- PCADD (R65). Writes the bundle address plus the shifted imm20. -/
  | pcadd (p : BitVec 1) (d : BitVec 5) (imm : BitVec 20)
  /-- LDHI (R65). Writes sext(imm20) shifted left by 12. -/
  | ldhi (d : BitVec 5) (imm : BitVec 20)
  /-- ADD (R66). Integer add. -/
  | add (d a b : BitVec 5)
  /-- SUB (R66). Integer subtract. -/
  | sub (d a b : BitVec 5)
  /-- AND (R66). Bitwise and. -/
  | and (d a b : BitVec 5)
  /-- OR (R66). Bitwise or. -/
  | or (d a b : BitVec 5)
  /-- XOR (R66). Bitwise exclusive or. -/
  | xor (d a b : BitVec 5)
  /-- ANDN (R66). A and not B. -/
  | andn (d a b : BitVec 5)
  /-- ORN (R66). A or not B. -/
  | orn (d a b : BitVec 5)
  /-- SLL (R66). Logical left shift. -/
  | sll (d a b : BitVec 5)
  /-- SRL (R66). Logical right shift. -/
  | srl (d a b : BitVec 5)
  /-- SRA (R66). Arithmetic right shift. -/
  | sra (d a b : BitVec 5)
  /-- SLT (R66). Signed set-less-than. -/
  | slt (d a b : BitVec 5)
  /-- SLTU (R66). Unsigned set-less-than. -/
  | sltu (d a b : BitVec 5)
  /-- MIN (R66). Signed minimum. -/
  | min (d a b : BitVec 5)
  /-- MAX (R66). Signed maximum. -/
  | max (d a b : BitVec 5)
  /-- MINU (R66). Unsigned minimum. -/
  | minu (d a b : BitVec 5)
  /-- MAXU (R66). Unsigned maximum. -/
  | maxu (d a b : BitVec 5)
  /-- MUL (R66). Low 64 bits of the product. -/
  | mul (d a b : BitVec 5)
  /-- MULH (R66). High 64 bits of the signed product, as a long result. -/
  | mulh (d a b : BitVec 5) (q : BitVec 4)
  /-- MULHU (R66). High 64 bits of the unsigned product, as a long result. -/
  | mulhu (d a b : BitVec 5) (q : BitVec 4)
  /-- DIV (R67). Signed divide, as a long result, with the fixed results of R67 for division by zero and overflow. -/
  | div (d a b : BitVec 5) (q : BitVec 4)
  /-- DIVU (R67). Unsigned divide, as a long result. -/
  | divu (d a b : BitVec 5) (q : BitVec 4)
  /-- REM (R67). Signed remainder, as a long result. -/
  | rem (d a b : BitVec 5) (q : BitVec 4)
  /-- REMU (R67). Unsigned remainder, as a long result. -/
  | remu (d a b : BitVec 5) (q : BitVec 4)
  /-- ADDW (R66). 32-bit add, sign-extended. -/
  | addw (d a b : BitVec 5)
  /-- SUBW (R66). 32-bit subtract, sign-extended. -/
  | subw (d a b : BitVec 5)
  /-- CLZ (R66). Counts leading zero bits. -/
  | clz (d a : BitVec 5)
  /-- CTZ (R66). Counts trailing zero bits. -/
  | ctz (d a : BitVec 5)
  /-- CPOP (R66). Counts one bits. -/
  | cpop (d a : BitVec 5)
  /-- ROL (R66). Rotate left. -/
  | rol (d a b : BitVec 5)
  /-- ROR (R66). Rotate right. -/
  | ror (d a b : BitVec 5)
  /-- ADDI (R68). Adds a sign-extended immediate. -/
  | addi (d a : BitVec 5) (imm : BitVec 12)
  /-- SLTI (R68). Signed comparison with an immediate. -/
  | slti (d a : BitVec 5) (imm : BitVec 12)
  /-- SLTIU (R68). Unsigned comparison with an immediate. -/
  | sltiu (d a : BitVec 5) (imm : BitVec 12)
  /-- XORI (R68). Exclusive or with an immediate. -/
  | xori (d a : BitVec 5) (imm : BitVec 12)
  /-- ORI (R68). Or with an immediate. -/
  | ori (d a : BitVec 5) (imm : BitVec 12)
  /-- ANDI (R68). And with an immediate. -/
  | andi (d a : BitVec 5) (imm : BitVec 12)
  /-- SLLI (R28). shi with KIND 0b00: logical left shift by an immediate. -/
  | slli (d a : BitVec 5) (sh : BitVec 6)
  /-- SRLI (R28). shi with KIND 0b01: logical right shift by an immediate. -/
  | srli (d a : BitVec 5) (sh : BitVec 6)
  /-- SRAI (R28). shi with KIND 0b10: arithmetic right shift by an immediate. -/
  | srai (d a : BitVec 5) (sh : BitVec 6)
  /-- ADDIW (R68). 32-bit add of an immediate, sign-extended. -/
  | addiw (d a : BitVec 5) (imm : BitVec 12)
  /-- FADD_S (R69). Single-precision add. -/
  | faddS (d a b : BitVec 5)
  /-- FSUB_S (R69). Single-precision subtract. -/
  | fsubS (d a b : BitVec 5)
  /-- FMUL_S (R69). Single-precision multiply. -/
  | fmulS (d a b : BitVec 5)
  /-- FDIV_S (R69). Single-precision divide, as a long result. -/
  | fdivS (d a b : BitVec 5) (q : BitVec 4)
  /-- FSQRT_S (R69). Single-precision square root, as a long result. -/
  | fsqrtS (d a : BitVec 5) (q : BitVec 4)
  /-- FMIN_S (R69). Single-precision minimum. -/
  | fminS (d a b : BitVec 5)
  /-- FMAX_S (R69). Single-precision maximum. -/
  | fmaxS (d a b : BitVec 5)
  /-- FMADD_S (R69). Single-precision fused multiply-add into gd. -/
  | fmaddS (d a b : BitVec 5)
  /-- FEQ_S (R69). Single-precision equality compare. -/
  | feqS (d a b : BitVec 5)
  /-- FLT_S (R69). Single-precision less-than compare. -/
  | fltS (d a b : BitVec 5)
  /-- FLE_S (R69). Single-precision less-or-equal compare. -/
  | fleS (d a b : BitVec 5)
  /-- FCLASS_S (R69). Classifies a single-precision value. -/
  | fclassS (d a : BitVec 5)
  /-- FCVT_SD (R69). Converts f64 to f32. -/
  | fcvtSd (d a : BitVec 5)
  /-- FCVT_DS (R69). Widens f32 to f64. -/
  | fcvtDs (d a : BitVec 5)
  /-- FCVT_SL (R69). Converts s64 to f32. -/
  | fcvtSl (d a : BitVec 5)
  /-- FCVT_LS (R70). Converts f32 to s64, saturating. -/
  | fcvtLs (d a : BitVec 5)
  /-- FCVT_DL (R69). Converts s64 to f64. -/
  | fcvtDl (d a : BitVec 5)
  /-- FCVT_LD (R70). Converts f64 to s64, saturating. -/
  | fcvtLd (d a : BitVec 5)
  /-- FADD_D (R69). Double-precision add. -/
  | faddD (d a b : BitVec 5)
  /-- FSUB_D (R69). Double-precision subtract. -/
  | fsubD (d a b : BitVec 5)
  /-- FMUL_D (R69). Double-precision multiply. -/
  | fmulD (d a b : BitVec 5)
  /-- FDIV_D (R69). Double-precision divide, as a long result. -/
  | fdivD (d a b : BitVec 5) (q : BitVec 4)
  /-- FSQRT_D (R69). Double-precision square root, as a long result. -/
  | fsqrtD (d a : BitVec 5) (q : BitVec 4)
  /-- FMIN_D (R69). Double-precision minimum. -/
  | fminD (d a b : BitVec 5)
  /-- FMAX_D (R69). Double-precision maximum. -/
  | fmaxD (d a b : BitVec 5)
  /-- FMADD_D (R69). Double-precision fused multiply-add into gd. -/
  | fmaddD (d a b : BitVec 5)
  /-- FEQ_D (R69). Double-precision equality compare. -/
  | feqD (d a b : BitVec 5)
  /-- FLT_D (R69). Double-precision less-than compare. -/
  | fltD (d a b : BitVec 5)
  /-- FLE_D (R69). Double-precision less-or-equal compare. -/
  | fleD (d a b : BitVec 5)
  /-- FCLASS_D (R69). Classifies a double-precision value. -/
  | fclassD (d a : BitVec 5)
  /-- THR_SPAWN (R71). Reads a spawn block and creates a thread, returning its identifier or a negative status. -/
  | thrSpawn (p : BitVec 1) (d a b : BitVec 5)
  /-- THR_END (R75). Begins ending the issuing thread and holds until its drains complete. -/
  | thrEnd (p : BitVec 1)
  /-- THR_SELF (R75). Writes the issuing thread's identifier to gd. -/
  | thrSelf (p : BitVec 1) (d : BitVec 5)
  /-- THR_STOP (R77). Marks a target thread for stopping and returns its prior state code. -/
  | thrStop (p : BitVec 1) (d a : BitVec 5)
  /-- THR_GO (R77). Returns a Stopped target thread to the state it held before the stop. -/
  | thrGo (p : BitVec 1) (d a : BitVec 5)
  /-- THR_SAVE (R78). Writes a Stopped thread's state to a save area. -/
  | thrSave (p : BitVec 1) (d a b : BitVec 5)
  /-- THR_LOAD (R80). Builds a Stopped thread from a save area in a Free or Stopped slot. -/
  | thrLoad (p : BitVec 1) (d a b : BitVec 5)
  /-- VSET (R126). Sets VT.TYPE and VL, clamped to MVL, and returns VL. -/
  | vset (p : BitVec 1) (d a : BitVec 5) (t : BitVec 4)
  /-- VSETMT (R126). Sets VMT.TYPE and returns its old value. -/
  | vsetmt (p : BitVec 1) (d : BitVec 5) (t : BitVec 3)
  /-- VLD (R129). Unit-stride vector load; holding and may be cut. -/
  | vld (p : BitVec 1) (d a : BitVec 5) (ew : BitVec 2) (k : BitVec 3)
  /-- VLDS (R129). Strided vector load. -/
  | vlds (p : BitVec 1) (d a b : BitVec 5) (ew : BitVec 2) (k : BitVec 3)
  /-- VLDX (R129). Indexed (gather) vector load. -/
  | vldx (p : BitVec 1) (d a b : BitVec 5) (ew : BitVec 2) (k : BitVec 3)
  /-- VLDFF (R130). Fault-first vector load that shortens VL at a later refusal or miss. -/
  | vldff (p : BitVec 1) (d a : BitVec 5) (ew : BitVec 2) (k : BitVec 3)
  /-- VLDG (R131). Guarded vector load: each element waits on the WCTR counter. -/
  | vldg (p : BitVec 1) (d a b : BitVec 5) (ew : BitVec 2) (k : BitVec 3)
  /-- VLDB (R129). Broadcast vector load of one element. -/
  | vldb (p : BitVec 1) (d a : BitVec 5) (ew : BitVec 2) (k : BitVec 3)
  /-- VST (R132). Unit-stride vector store; streaming. -/
  | vst (p : BitVec 1) (d a : BitVec 5) (ew : BitVec 2) (k : BitVec 3)
  /-- VSTS (R132). Strided vector store. -/
  | vsts (p : BitVec 1) (d a b : BitVec 5) (ew : BitVec 2) (k : BitVec 3)
  /-- VSTX (R132). Indexed (scatter) vector store. -/
  | vstx (p : BitVec 1) (d a b : BitVec 5) (ew : BitVec 2) (k : BitVec 3)
  /-- VSTXA (R133). Indexed integer scatter-add at the home. -/
  | vstxa (p : BitVec 1) (d a b : BitVec 5) (ew : BitVec 2) (k : BitVec 3)
  /-- VSTXF (R133). Indexed floating-point scatter-add at the home. -/
  | vstxf (p : BitVec 1) (d a b : BitVec 5) (ew : BitVec 2) (k : BitVec 3)
  /-- VADD (R134). Vector integer add. -/
  | vadd (d a b : BitVec 5) (k : BitVec 3) (sb : BitVec 1)
  /-- VSUB (R134). Vector integer subtract. -/
  | vsub (d a b : BitVec 5) (k : BitVec 3) (sb : BitVec 1)
  /-- VMUL (R134). Vector multiply, low bits. -/
  | vmul (d a b : BitVec 5) (k : BitVec 3) (sb : BitVec 1)
  /-- VMULH (R134). Vector signed multiply, high bits. -/
  | vmulh (d a b : BitVec 5) (k : BitVec 3) (sb : BitVec 1)
  /-- VMIN (R134). Vector signed minimum. -/
  | vmin (d a b : BitVec 5) (k : BitVec 3) (sb : BitVec 1)
  /-- VMAX (R134). Vector signed maximum. -/
  | vmax (d a b : BitVec 5) (k : BitVec 3) (sb : BitVec 1)
  /-- VMINU (R134). Vector unsigned minimum. -/
  | vminu (d a b : BitVec 5) (k : BitVec 3) (sb : BitVec 1)
  /-- VMAXU (R134). Vector unsigned maximum. -/
  | vmaxu (d a b : BitVec 5) (k : BitVec 3) (sb : BitVec 1)
  /-- VAND (R134). Vector bitwise and. -/
  | vand (d a b : BitVec 5) (k : BitVec 3) (sb : BitVec 1)
  /-- VOR (R134). Vector bitwise or. -/
  | vor (d a b : BitVec 5) (k : BitVec 3) (sb : BitVec 1)
  /-- VXOR (R134). Vector bitwise exclusive or. -/
  | vxor (d a b : BitVec 5) (k : BitVec 3) (sb : BitVec 1)
  /-- VSLL (R134). Vector logical left shift. -/
  | vsll (d a b : BitVec 5) (k : BitVec 3) (sb : BitVec 1)
  /-- VSRL (R134). Vector logical right shift. -/
  | vsrl (d a b : BitVec 5) (k : BitVec 3) (sb : BitVec 1)
  /-- VSRA (R134). Vector arithmetic right shift. -/
  | vsra (d a b : BitVec 5) (k : BitVec 3) (sb : BitVec 1)
  /-- VSADD (R134). Vector saturating add. -/
  | vsadd (d a b : BitVec 5) (k : BitVec 3) (sb : BitVec 1)
  /-- VSSUB (R134). Vector saturating subtract. -/
  | vssub (d a b : BitVec 5) (k : BitVec 3) (sb : BitVec 1)
  /-- VMACC (R134). Vector multiply-accumulate. -/
  | vmacc (d a b : BitVec 5) (k : BitVec 3) (sb : BitVec 1)
  /-- VDOT4 (R134). Vector int8 dot-4 accumulated into int32. -/
  | vdot4 (d a b : BitVec 5) (k : BitVec 3) (sb : BitVec 1)
  /-- VFADD (R135). Vector floating-point add. -/
  | vfadd (d a b : BitVec 5) (k : BitVec 3) (sb : BitVec 1)
  /-- VFSUB (R135). Vector floating-point subtract. -/
  | vfsub (d a b : BitVec 5) (k : BitVec 3) (sb : BitVec 1)
  /-- VFMUL (R135). Vector floating-point multiply. -/
  | vfmul (d a b : BitVec 5) (k : BitVec 3) (sb : BitVec 1)
  /-- VFDIV (R135). Vector floating-point divide. -/
  | vfdiv (d a b : BitVec 5) (k : BitVec 3) (sb : BitVec 1)
  /-- VFSQRT (R135). Vector floating-point square root. -/
  | vfsqrt (d a : BitVec 5) (k : BitVec 3)
  /-- VFMIN (R135). Vector floating-point minimum. -/
  | vfmin (d a b : BitVec 5) (k : BitVec 3) (sb : BitVec 1)
  /-- VFMAX (R135). Vector floating-point maximum. -/
  | vfmax (d a b : BitVec 5) (k : BitVec 3) (sb : BitVec 1)
  /-- VFMA (R135). Vector fused multiply-add. -/
  | vfma (d a b : BitVec 5) (k : BitVec 3) (sb : BitVec 1)
  /-- VFNMA (R135). Vector fused negative multiply-add. -/
  | vfnma (d a b : BitVec 5) (k : BitVec 3) (sb : BitVec 1)
  /-- VFABS (R135). Vector absolute value. -/
  | vfabs (d a : BitVec 5) (k : BitVec 3)
  /-- VFNEG (R135). Vector negation. -/
  | vfneg (d a : BitVec 5) (k : BitVec 3)
  /-- VCEQ (R136). Vector compare: codes equal. -/
  | vceq (d a b : BitVec 5) (k : BitVec 3) (sb : BitVec 1)
  /-- VCNE (R136). Vector compare: codes not equal. -/
  | vcne (d a b : BitVec 5) (k : BitVec 3) (sb : BitVec 1)
  /-- VCLT (R136). Vector signed less-than compare. -/
  | vclt (d a b : BitVec 5) (k : BitVec 3) (sb : BitVec 1)
  /-- VCLE (R136). Vector signed less-or-equal compare. -/
  | vcle (d a b : BitVec 5) (k : BitVec 3) (sb : BitVec 1)
  /-- VCLTU (R136). Vector unsigned less-than compare. -/
  | vcltu (d a b : BitVec 5) (k : BitVec 3) (sb : BitVec 1)
  /-- VCLEU (R136). Vector unsigned less-or-equal compare. -/
  | vcleu (d a b : BitVec 5) (k : BitVec 3) (sb : BitVec 1)
  /-- VFCEQ (R136). Vector floating-point equality compare. -/
  | vfceq (d a b : BitVec 5) (k : BitVec 3) (sb : BitVec 1)
  /-- VFCLT (R136). Vector floating-point less-than compare. -/
  | vfclt (d a b : BitVec 5) (k : BitVec 3) (sb : BitVec 1)
  /-- VFCLE (R136). Vector floating-point less-or-equal compare. -/
  | vfcle (d a b : BitVec 5) (k : BitVec 3) (sb : BitVec 1)
  /-- VFCUN (R136). Vector unordered (NaN) compare. -/
  | vfcun (d a b : BitVec 5) (k : BitVec 3) (sb : BitVec 1)
  /-- MAND (R137). Mask and. -/
  | mand (d a b : BitVec 5)
  /-- MOR (R137). Mask or. -/
  | mor (d a b : BitVec 5)
  /-- MXOR (R137). Mask exclusive or. -/
  | mxor (d a b : BitVec 5)
  /-- MANDN (R137). Mask and-not. -/
  | mandn (d a b : BitVec 5)
  /-- MNOT (R137). Mask not. -/
  | mnot (d a : BitVec 5)
  /-- MPOP (R137). Counts the active set bits of a mask into gd; holding. -/
  | mpop (d a : BitVec 5) (k : BitVec 3)
  /-- MFIRST (R137). Writes the lowest active set bit of a mask to gd; holding. -/
  | mfirst (d a : BitVec 5) (k : BitVec 3)
  /-- MIOTA (R137). Writes the prefix counts of a mask into a vector. -/
  | miota (d a : BitVec 5) (k : BitVec 3)
  /-- MSET (R137). Sets mask bits below ga. -/
  | mset (d a : BitVec 5)
  /-- VREDSUM (R138). Integer sum reduction into vd[0]; holding. -/
  | vredsum (d a b : BitVec 5) (k : BitVec 3) (sb : BitVec 1)
  /-- VREDMIN (R138). Integer minimum reduction. -/
  | vredmin (d a b : BitVec 5) (k : BitVec 3) (sb : BitVec 1)
  /-- VREDMAX (R138). Integer maximum reduction. -/
  | vredmax (d a b : BitVec 5) (k : BitVec 3) (sb : BitVec 1)
  /-- VFREDO (R105). Ordered floating-point sum reduction. -/
  | vfredo (d a b : BitVec 5) (k : BitVec 3) (sb : BitVec 1)
  /-- VFREDT (R139). Fixed-tree floating-point sum reduction. -/
  | vfredt (d a b : BitVec 5) (k : BitVec 3) (sb : BitVec 1)
  /-- VFREDMIN (R138). Floating-point minimum reduction. -/
  | vfredmin (d a b : BitVec 5) (k : BitVec 3) (sb : BitVec 1)
  /-- VFREDMAX (R138). Floating-point maximum reduction. -/
  | vfredmax (d a b : BitVec 5) (k : BitVec 3) (sb : BitVec 1)
  /-- VSLUP (R140). Slides elements up by gb. -/
  | vslup (d a b : BitVec 5) (k : BitVec 3)
  /-- VSLDN (R140). Slides elements down by gb. -/
  | vsldn (d a b : BitVec 5) (k : BitVec 3)
  /-- VRGATHER (R140). Register gather by an index vector. -/
  | vrgather (d a b : BitVec 5) (k : BitVec 3)
  /-- VCOMPRESS (R140). Compresses the active elements to the front of vd. -/
  | vcompress (d a : BitVec 5) (k : BitVec 3)
  /-- VBCAST (R140). Broadcasts element gb of va. -/
  | vbcast (d a b : BitVec 5) (k : BitVec 3)
  /-- VMVGV (R140). Moves a general register into vector element gb. -/
  | vmvgv (d a b : BitVec 5)
  /-- VMVVG (R140). Moves vector element gb into a general register; holding. -/
  | vmvvg (d a b : BitVec 5)
  /-- VID (R140). Writes element indices. -/
  | vid (d : BitVec 5) (k : BitVec 3)
  /-- VMERGE (R140). Merges va and vb under a mask. -/
  | vmerge (d a b : BitVec 5) (k : BitVec 3) (sb : BitVec 1)
  /-- VMV (R140). Vector or scalar move. -/
  | vmv (d b : BitVec 5) (k : BitVec 3) (sb : BitVec 1)
  /-- VCVT_N (R141). Narrowing conversion. -/
  | vcvtN (d a t : BitVec 5) (k : BitVec 3)
  /-- VCVT_W (R141). Widening conversion. -/
  | vcvtW (d a t : BitVec 5) (k : BitVec 3)
  /-- VCVT_FI (R141). Float-to-integer conversion. -/
  | vcvtFi (d a t : BitVec 5) (k : BitVec 3)
  /-- VCVT_IF (R141). Integer-to-float conversion. -/
  | vcvtIf (d a t : BitVec 5) (k : BitVec 3)
  /-- VCVT_Q4 (R142). Quantises fp32 blocks to scaled e2m1 codes and scales. -/
  | vcvtQ4 (d a b : BitVec 5)
  /-- VCVT_Q8 (R142). Quantises fp32 blocks to scaled e4m3 codes and scales. -/
  | vcvtQ8 (d a b : BitVec 5)
  /-- TILE_ZERO (R162). Queues a command that clears every cell of Td. -/
  | tileZero (p : BitVec 1) (t : BitVec 2) (c : BitVec 1)
  /-- TILE_LD (R164). Loads the tile window from memory in two phases; holding. -/
  | tileLd (p : BitVec 1) (t : BitVec 2) (c : BitVec 1) (a b : BitVec 5) (y : BitVec 4)
  /-- TILE_ST (R165). Enters one store per window cell into the store queue; holding. -/
  | tileSt (p : BitVec 1) (t : BitVec 2) (c : BitVec 1) (a b : BitVec 5) (y : BitVec 4)
  /-- TILE_LDX (R164). Indexed tile load through a row-offset list. -/
  | tileLdx (p : BitVec 1) (t : BitVec 2) (c : BitVec 1) (a b : BitVec 5) (y : BitVec 4)
  /-- TILE_STX (R165). Indexed tile store. -/
  | tileStx (p : BitVec 1) (t : BitVec 2) (c : BitVec 1) (a b : BitVec 5) (y : BitVec 4)
  /-- TILE_STXA (R165). Indexed tile scatter-add at the home. -/
  | tileStxa (p : BitVec 1) (t : BitVec 2) (c : BitVec 1) (a b : BitVec 5) (y : BitVec 4)
  /-- TILE_MMA (R166). Queues a matrix multiply-accumulate of scratchpad operands into Td. -/
  | tileMma (p : BitVec 1) (t : BitVec 2) (c : BitVec 1) (a b : BitVec 5) (y : BitVec 4)
  /-- TILE_MMAX (R166). Matrix multiply with A rows gathered through a row list. -/
  | tileMmax (p : BitVec 1) (t : BitVec 2) (c : BitVec 1) (a b : BitVec 5) (y : BitVec 4)
  /-- TILE_GMMA (R167). Co-operative matrix multiply with peer operands in a pinned gang. -/
  | tileGmma (p : BitVec 1) (t : BitVec 2) (c : BitVec 1) (a b : BitVec 5) (y : BitVec 4)
  /-- TILE_ROWV (R168). Copies a tile row into a vector register; holding. -/
  | tileRowv (p : BitVec 1) (t : BitVec 2) (c : BitVec 1) (a v : BitVec 5) (y : BitVec 4)
  /-- TILE_VROW (R168). Copies a vector register into a tile row; holding. -/
  | tileVrow (p : BitVec 1) (t : BitVec 2) (c : BitVec 1) (a v : BitVec 5) (y : BitVec 4)
  /-- TILE_Q (R169). Quantises the tile window into scratchpad codes and scales. -/
  | tileQ (p : BitVec 1) (t : BitVec 2) (c : BitVec 1) (a b : BitVec 5) (y : BitVec 4)
  /-- TILE_CHOL (R170). Cholesky factorisation of the leading TN by TN block of Td. -/
  | tileChol (p : BitVec 1) (t : BitVec 2) (c : BitVec 1)
  /-- TILE_TRSM (R170). Triangular solve of Td against the lower triangle of Ts. -/
  | tileTrsm (p : BitVec 1) (t : BitVec 2) (c : BitVec 1) (ts : BitVec 2)
  /-- TILE_REL (R171). Waits for the command queue, then releases the slot's tile hold. -/
  | tileRel (p : BitVec 1)
  /-- CTR_ADD (R185). Posts an add to a counter with release at the given scope. -/
  | ctrAdd (p : BitVec 1) (a b : BitVec 5) (sc : BitVec 3)
  /-- CTR_FADD (R185). Adds to a counter and returns the old value as a long result. -/
  | ctrFadd (p : BitVec 1) (d a b : BitVec 5) (la : BitVec 4) (sc : BitVec 3)
  /-- CTR_WAIT (R186). Completes with acquire when the threshold is met, otherwise parks the thread. -/
  | ctrWait (p : BitVec 1) (a b : BitVec 5) (sc : BitVec 3)
  /-- CTR_TEST (R186). Tests a threshold and returns 1 (with acquire) or 0. -/
  | ctrTest (p : BitVec 1) (d a b : BitVec 5) (la : BitVec 4) (sc : BitVec 3)
  /-- CTR_READ (R186). Reads the value at the counter's home, with no ordering. -/
  | ctrRead (p : BitVec 1) (d a : BitVec 5) (la : BitVec 4)
  /-- CTR_ARRIVE (R187). Adds the count of mask ones below VL to the counter, posted. -/
  | ctrArrive (p : BitVec 1) (k a : BitVec 5) (sc : BitVec 3)
  /-- CTR_AW (R188). Arrives once, as WSTAT.ARR records, and then waits on the threshold. -/
  | ctrAw (p : BitVec 1) (k a b : BitVec 5) (sc : BitVec 3)
  /-- CTR_RESET (R189). Sets a counter to 0 with release, refused at user privilege when waiters are listed. -/
  | ctrReset (p : BitVec 1) (a : BitVec 5) (sc : BitVec 3)
  /-- CTR_VADD (R190). Adds a vector of amounts to a vector of counters, recording out-of-scope elements in md. -/
  | ctrVadd (p : BitVec 1) (k a b : BitVec 5) (sc : BitVec 3)
  /-- CTR_ARM (R191). Arms a one-shot code-2 interrupt on a counter threshold. -/
  | ctrArm (p : BitVec 1) (d a b : BitVec 5)
  /-- CTR_HOME (R192). Returns a counter's home descriptor, or a window address for a near-counter selection. -/
  | ctrHome (p : BitVec 1) (d a b : BitVec 5) (la : BitVec 4)
  /-- GRP_NEW (R209). Takes a Free group-table entry, optionally joining as rank 0. -/
  | grpNew (p : BitVec 1) (d a : BitVec 5)
  /-- GRP_JOIN (R210). Adds the issuer, or a Stopped target thread, to a group. -/
  | grpJoin (p : BitVec 1) (d a b : BitVec 5)
  /-- GRP_LEAVE (R211). Removes the issuer from its group and frees its rank. -/
  | grpLeave (p : BitVec 1) (d : BitVec 5)
  /-- GRP_SIZE (R212). Returns a group's member count. -/
  | grpSize (p : BitVec 1) (d a : BitVec 5)
  /-- GRP_RANK (R212). Returns the issuer's rank. -/
  | grpRank (p : BitVec 1) (d : BitVec 5)
  /-- GRP_PIN (R213). Makes a group a gang, Pinned or Held. -/
  | grpPin (p : BitVec 1) (d a : BitVec 5)
  /-- GRP_UNPIN (R213). Returns a gang to Open. -/
  | grpUnpin (p : BitVec 1) (d a : BitVec 5)
  /-- GRP_MCAST (R214). Reads a descriptor and starts a scratchpad panel multicast to gang members. -/
  | grpMcast (p : BitVec 1) (d a b : BitVec 5)
  /-- GRP_STOP (R215). Marks the group's members for stopping. -/
  | grpStop (p : BitVec 1) (d a b : BitVec 5)
  /-- GRP_GO (R216). Resumes every Stopped member once no stop of the group is in progress. -/
  | grpGo (p : BitVec 1) (d a : BitVec 5)
  /-- GRP_KILL (R217). Ends every member of a group and frees the group. -/
  | grpKill (p : BitVec 1) (d a : BitVec 5)
  /-- XFER_COPY (R271). Starts a copy request on the copy channel. -/
  | xferCopy (p : BitVec 1) (d a b : BitVec 5)
  /-- XFER_TENSOR (R273). Starts a tensor box transfer from a shape record. -/
  | xferTensor (p : BitVec 1) (d a b : BitVec 5)
  /-- XFER_MCAST (R276). Starts a multicast read into up to 32 scratchpads. -/
  | xferMcast (p : BitVec 1) (d a b : BitVec 5)
  /-- XFER_FILL (R271). Starts a pattern fill. -/
  | xferFill (p : BitVec 1) (d a b : BitVec 5)
  /-- XFER_SEND (R272). Starts a copy with format conversion across the links. -/
  | xferSend (p : BitVec 1) (d a b : BitVec 5)
  /-- Q_LAUNCH (R319). Places a launch record in a launch queue. -/
  | qLaunch (p : BitVec 1) (d a b : BitVec 5)
  /-- Q_CALL (R319). Places a call packet in the caller's lane of a call queue. -/
  | qCall (p : BitVec 1) (d a b : BitVec 5)
  /-- Q_TAKE (R319). Takes one eligible call by deficit round robin. -/
  | qTake (p : BitVec 1) (d a b : BitVec 5)
  /-- Q_DONE (R319). Writes a call's reply, adds to NOTIFY and advances DONE. -/
  | qDone (p : BitVec 1) (d a b : BitVec 5)
  /-- AMO_ADD (R254). Atomic add at the home, returning the old value. -/
  | amoAdd (p : BitVec 1) (d a b : BitVec 5) (q : BitVec 4)
  /-- AMO_AND (R254). Atomic and. -/
  | amoAnd (p : BitVec 1) (d a b : BitVec 5) (q : BitVec 4)
  /-- AMO_OR (R254). Atomic or. -/
  | amoOr (p : BitVec 1) (d a b : BitVec 5) (q : BitVec 4)
  /-- AMO_XOR (R254). Atomic exclusive or. -/
  | amoXor (p : BitVec 1) (d a b : BitVec 5) (q : BitVec 4)
  /-- AMO_MIN (R254). Atomic signed minimum. -/
  | amoMin (p : BitVec 1) (d a b : BitVec 5) (q : BitVec 4)
  /-- AMO_MAX (R254). Atomic signed maximum. -/
  | amoMax (p : BitVec 1) (d a b : BitVec 5) (q : BitVec 4)
  /-- AMO_MINU (R254). Atomic unsigned minimum. -/
  | amoMinu (p : BitVec 1) (d a b : BitVec 5) (q : BitVec 4)
  /-- AMO_MAXU (R254). Atomic unsigned maximum. -/
  | amoMaxu (p : BitVec 1) (d a b : BitVec 5) (q : BitVec 4)
  /-- AMO_SWAP (R254). Atomic swap. -/
  | amoSwap (p : BitVec 1) (d a b : BitVec 5) (q : BitVec 4)
  /-- AMO_CAS (R254). Atomic compare-and-swap against gd. -/
  | amoCas (p : BitVec 1) (d a b : BitVec 5) (q : BitVec 4)
  /-- AMO_FADD (R254). Atomic fp64 add. -/
  | amoFadd (p : BitVec 1) (d a b : BitVec 5) (q : BitVec 4)
  /-- RED_ADD (R257). Posted remote integer add. -/
  | redAdd (p : BitVec 1) (a b : BitVec 5) (q : BitVec 4)
  /-- RED_FADD (R257). Posted remote fp64 add. -/
  | redFadd (p : BitVec 1) (a b : BitVec 5) (q : BitVec 4)
  /-- RED_MIN (R257). Posted remote signed minimum. -/
  | redMin (p : BitVec 1) (a b : BitVec 5) (q : BitVec 4)
  /-- RED_MAX (R257). Posted remote signed maximum. -/
  | redMax (p : BitVec 1) (a b : BitVec 5) (q : BitVec 4)
  /-- FENCE (R259). Acts as a release and an acquire at the given scope. -/
  | fence (p : BitVec 1) (b : BitVec 5)
  /-- ST_DRAIN (R248). Holds until every earlier store is checked. -/
  | stDrain (p : BitVec 1)
  /-- LINE_INV (R261). Writes back and invalidates copies of a line narrower than the scope. -/
  | lineInv (p : BitVec 1) (a b : BitVec 5)
  /-- LINE_WB (R261). Writes back dirty copies of a line narrower than the scope. -/
  | lineWb (p : BitVec 1) (a b : BitVec 5)
  /-- PREF (R261). Requests a fill; has no architectural effect. -/
  | pref (p : BitVec 1) (a b : BitVec 5)
  /-- HALO_DECL (R262). Declares a halo region for the issuer's gang. -/
  | haloDecl (p : BitVec 1) (d a : BitVec 5)
  /-- HALO_DROP (R262). Ends a halo region, pushing and writing back first. -/
  | haloDrop (p : BitVec 1) (a : BitVec 5)
  /-- HALO_PUSH (R262). Pushes the issuer's strips to every replica, without a release. -/
  | haloPush (p : BitVec 1) (a : BitVec 5)
  /-- VM_FENCE (R302). Waits for the thread's writes and the translations they invalidate, then translates afresh. -/
  | vmFence (p : BitVec 1)
  /-- VM_INV (R303). Invalidates first-stage and combined translations in the partition. -/
  | vmInv (p : BitVec 1) (a b : BitVec 5)
  /-- VM_GINV (R304). Invalidates second-stage translations in the partition. -/
  | vmGinv (p : BitVec 1) (a b : BitVec 5)
  /-- VM_PROBE (R305). Translates an address without faulting and returns a descriptor. -/
  | vmProbe (p : BitVec 1) (d a b : BitVec 5)
  /-- CTX_SEAL (R342). Queues a seal job for a Suspended context. -/
  | ctxSeal (p : BitVec 1) (d a : BitVec 5)
  /-- CTX_UNSEAL (R345). Queues a restore job into a Loading context. -/
  | ctxUnseal (p : BitVec 1) (d a : BitVec 5)
  /-- CTX_EXTEND (R339). Hashes a physical region into a Loading context's measurement. -/
  | ctxExtend (p : BitVec 1) (d a b : BitVec 5)
  /-- CTX_QUOTE (R348). Writes a signed 320-byte report of a context. -/
  | ctxQuote (p : BitVec 1) (d a b : BitVec 5)
  deriving DecidableEq, Repr

end Sys2Proof
end

