-- ==== Sys2Proof/Decode.lean ====
section
/-! DEFINITION. From bytes to an instruction and back. `decode` is total on any bytes: it takes the four bytes of one
word (R3, R20), and answers the instruction or the name of what is wrong with the word (R29, R31-R34); every such
word raises the illegal-instruction trap (cause 0) when a thread issues it. A value that a rule of an instruction's own
chapter refuses in a field (a scope of 7, a TQ outside the set) decodes, is not well-formed, and its meaning raises
the trap. `encode`, after it, is written from the same tables. -/

namespace Sys2Proof

/-- Why four bytes are not an instruction word. -/
inductive Reject where
  /-- Fewer than four bytes. -/
  | tooShort
  /-- A major opcode of 22 to 31 or 43 to 63 (R31, R32). -/
  | reservedMajor
  /-- A minor that the majors' tables do not list (R31, R32, R33). -/
  | reservedMinor
  /-- A field that the instruction does not use is not zero (R29, R30). -/
  | unusedField
  /-- `shi` with KIND 0b11 (R28, R29). -/
  | reservedKind
  deriving DecidableEq, Repr

/-- Major 0, format R (R31). -/
def decodeSys (w : Nat) : Except Reject Instr :=
  match fld w 9 4 with
  | 0 => if fld w 31 31 = 0 ∧ fld w 24 20 = 0 ∧ fld w 19 15 = 0 ∧ fld w 14 10 = 0 ∧ fld w 3 0 = 0
    then .ok (.svc) else .error .unusedField
  | 1 => if fld w 31 31 = 0 ∧ fld w 24 20 = 0 ∧ fld w 19 15 = 0 ∧ fld w 14 10 = 0 ∧ fld w 3 0 = 0
    then .ok (.brk) else .error .unusedField
  | 2 => if fld w 31 31 = 0 ∧ fld w 24 20 = 0 ∧ fld w 19 15 = 0 ∧ fld w 14 10 = 0 ∧ fld w 3 0 = 0
    then .ok (.tret) else .error .unusedField
  | 3 => if fld w 31 31 = 0 ∧ fld w 24 20 = 0 ∧ fld w 14 10 = 0 ∧ fld w 3 0 = 0
    then .ok (.pause (.ofNat 5 (fld w 19 15))) else .error .unusedField
  | _ => .error .reservedMinor

/-- Major 1, format I (R31). -/
def decodeSreg (w : Nat) : Except Reject Instr :=
  match fld w 14 12 with
  | 0 => if fld w 19 15 = 0
    then .ok (.sread (.ofNat 1 (fld w 31 31)) (.ofNat 5 (fld w 24 20)) (.ofNat 12 (fld w 11 0))) else .error .unusedField
  | 1 => .ok (.swrite (.ofNat 1 (fld w 31 31)) (.ofNat 5 (fld w 24 20)) (.ofNat 5 (fld w 19 15)) (.ofNat 12 (fld w 11 0)))
  | 2 => .ok (.sset (.ofNat 1 (fld w 31 31)) (.ofNat 5 (fld w 24 20)) (.ofNat 5 (fld w 19 15)) (.ofNat 12 (fld w 11 0)))
  | 3 => .ok (.sclr (.ofNat 1 (fld w 31 31)) (.ofNat 5 (fld w 24 20)) (.ofNat 5 (fld w 19 15)) (.ofNat 12 (fld w 11 0)))
  | _ => .error .reservedMinor

/-- Major 2, format B (R31). -/
def decodeBr (w : Nat) : Except Reject Instr :=
  match fld w 14 12 with
  | 0 => .ok (.beq (.ofNat 1 (fld w 31 31)) (.ofNat 5 (fld w 24 20)) (.ofNat 5 (fld w 19 15)) (.ofNat 12 (fld w 11 0)))
  | 1 => .ok (.bne (.ofNat 1 (fld w 31 31)) (.ofNat 5 (fld w 24 20)) (.ofNat 5 (fld w 19 15)) (.ofNat 12 (fld w 11 0)))
  | 2 => .ok (.blt (.ofNat 1 (fld w 31 31)) (.ofNat 5 (fld w 24 20)) (.ofNat 5 (fld w 19 15)) (.ofNat 12 (fld w 11 0)))
  | 3 => .ok (.bge (.ofNat 1 (fld w 31 31)) (.ofNat 5 (fld w 24 20)) (.ofNat 5 (fld w 19 15)) (.ofNat 12 (fld w 11 0)))
  | 4 => .ok (.bltu (.ofNat 1 (fld w 31 31)) (.ofNat 5 (fld w 24 20)) (.ofNat 5 (fld w 19 15)) (.ofNat 12 (fld w 11 0)))
  | 5 => .ok (.bgeu (.ofNat 1 (fld w 31 31)) (.ofNat 5 (fld w 24 20)) (.ofNat 5 (fld w 19 15)) (.ofNat 12 (fld w 11 0)))
  | _ => .error .reservedMinor

/-- Major 3, format J (R31). -/
def decodeJal (w : Nat) : Except Reject Instr :=
  .ok (.jal (.ofNat 1 (fld w 31 31)) (.ofNat 5 (fld w 24 20)) (.ofNat 20 (fld w 19 0)))

/-- Major 4, format I (R31). -/
def decodeJalr (w : Nat) : Except Reject Instr :=
  match fld w 14 12 with
  | 0 => .ok (.jalr (.ofNat 1 (fld w 31 31)) (.ofNat 5 (fld w 24 20)) (.ofNat 5 (fld w 19 15)) (.ofNat 12 (fld w 11 0)))
  | _ => .error .reservedMinor

/-- Major 5, format M (R31). -/
def decodeLd (w : Nat) : Except Reject Instr :=
  match fld w 14 12 with
  | 0 => .ok (.ldb (.ofNat 1 (fld w 31 31)) (.ofNat 5 (fld w 24 20)) (.ofNat 5 (fld w 19 15)) (.ofNat 4 (fld w 11 8)) (.ofNat 8 (fld w 7 0)))
  | 1 => .ok (.ldh (.ofNat 1 (fld w 31 31)) (.ofNat 5 (fld w 24 20)) (.ofNat 5 (fld w 19 15)) (.ofNat 4 (fld w 11 8)) (.ofNat 8 (fld w 7 0)))
  | 2 => .ok (.ldw (.ofNat 1 (fld w 31 31)) (.ofNat 5 (fld w 24 20)) (.ofNat 5 (fld w 19 15)) (.ofNat 4 (fld w 11 8)) (.ofNat 8 (fld w 7 0)))
  | 3 => .ok (.ldd (.ofNat 1 (fld w 31 31)) (.ofNat 5 (fld w 24 20)) (.ofNat 5 (fld w 19 15)) (.ofNat 4 (fld w 11 8)) (.ofNat 8 (fld w 7 0)))
  | 4 => .ok (.ldbu (.ofNat 1 (fld w 31 31)) (.ofNat 5 (fld w 24 20)) (.ofNat 5 (fld w 19 15)) (.ofNat 4 (fld w 11 8)) (.ofNat 8 (fld w 7 0)))
  | 5 => .ok (.ldhu (.ofNat 1 (fld w 31 31)) (.ofNat 5 (fld w 24 20)) (.ofNat 5 (fld w 19 15)) (.ofNat 4 (fld w 11 8)) (.ofNat 8 (fld w 7 0)))
  | 6 => .ok (.ldwu (.ofNat 1 (fld w 31 31)) (.ofNat 5 (fld w 24 20)) (.ofNat 5 (fld w 19 15)) (.ofNat 4 (fld w 11 8)) (.ofNat 8 (fld w 7 0)))
  | _ => .error .reservedMinor

/-- Major 6, format M (R31). -/
def decodeSt (w : Nat) : Except Reject Instr :=
  match fld w 14 12 with
  | 0 => if fld w 11 10 = 0 ∧ fld w 9 8 = 0
    then .ok (.stb (.ofNat 1 (fld w 31 31)) (.ofNat 5 (fld w 24 20)) (.ofNat 5 (fld w 19 15)) (.ofNat 8 (fld w 7 0))) else .error .unusedField
  | 1 => if fld w 11 10 = 0 ∧ fld w 9 8 = 0
    then .ok (.sth (.ofNat 1 (fld w 31 31)) (.ofNat 5 (fld w 24 20)) (.ofNat 5 (fld w 19 15)) (.ofNat 8 (fld w 7 0))) else .error .unusedField
  | 2 => if fld w 11 10 = 0 ∧ fld w 9 8 = 0
    then .ok (.stw (.ofNat 1 (fld w 31 31)) (.ofNat 5 (fld w 24 20)) (.ofNat 5 (fld w 19 15)) (.ofNat 8 (fld w 7 0))) else .error .unusedField
  | 3 => if fld w 11 10 = 0 ∧ fld w 9 8 = 0
    then .ok (.std (.ofNat 1 (fld w 31 31)) (.ofNat 5 (fld w 24 20)) (.ofNat 5 (fld w 19 15)) (.ofNat 8 (fld w 7 0))) else .error .unusedField
  | _ => .error .reservedMinor

/-- Major 7, format U (R31). -/
def decodePcadd (w : Nat) : Except Reject Instr :=
  .ok (.pcadd (.ofNat 1 (fld w 31 31)) (.ofNat 5 (fld w 24 20)) (.ofNat 20 (fld w 19 0)))

/-- Major 34, format U (R32). -/
def decodeLdhi (w : Nat) : Except Reject Instr :=
  if fld w 31 31 = 0
    then .ok (.ldhi (.ofNat 5 (fld w 24 20)) (.ofNat 20 (fld w 19 0))) else .error .unusedField

/-- Major 32, format R (R32). -/
def decodeIalu (w : Nat) : Except Reject Instr :=
  match fld w 9 4 with
  | 0 => if fld w 31 31 = 0 ∧ fld w 3 0 = 0
    then .ok (.add (.ofNat 5 (fld w 24 20)) (.ofNat 5 (fld w 19 15)) (.ofNat 5 (fld w 14 10))) else .error .unusedField
  | 1 => if fld w 31 31 = 0 ∧ fld w 3 0 = 0
    then .ok (.sub (.ofNat 5 (fld w 24 20)) (.ofNat 5 (fld w 19 15)) (.ofNat 5 (fld w 14 10))) else .error .unusedField
  | 2 => if fld w 31 31 = 0 ∧ fld w 3 0 = 0
    then .ok (.and (.ofNat 5 (fld w 24 20)) (.ofNat 5 (fld w 19 15)) (.ofNat 5 (fld w 14 10))) else .error .unusedField
  | 3 => if fld w 31 31 = 0 ∧ fld w 3 0 = 0
    then .ok (.or (.ofNat 5 (fld w 24 20)) (.ofNat 5 (fld w 19 15)) (.ofNat 5 (fld w 14 10))) else .error .unusedField
  | 4 => if fld w 31 31 = 0 ∧ fld w 3 0 = 0
    then .ok (.xor (.ofNat 5 (fld w 24 20)) (.ofNat 5 (fld w 19 15)) (.ofNat 5 (fld w 14 10))) else .error .unusedField
  | 5 => if fld w 31 31 = 0 ∧ fld w 3 0 = 0
    then .ok (.andn (.ofNat 5 (fld w 24 20)) (.ofNat 5 (fld w 19 15)) (.ofNat 5 (fld w 14 10))) else .error .unusedField
  | 6 => if fld w 31 31 = 0 ∧ fld w 3 0 = 0
    then .ok (.orn (.ofNat 5 (fld w 24 20)) (.ofNat 5 (fld w 19 15)) (.ofNat 5 (fld w 14 10))) else .error .unusedField
  | 7 => if fld w 31 31 = 0 ∧ fld w 3 0 = 0
    then .ok (.sll (.ofNat 5 (fld w 24 20)) (.ofNat 5 (fld w 19 15)) (.ofNat 5 (fld w 14 10))) else .error .unusedField
  | 8 => if fld w 31 31 = 0 ∧ fld w 3 0 = 0
    then .ok (.srl (.ofNat 5 (fld w 24 20)) (.ofNat 5 (fld w 19 15)) (.ofNat 5 (fld w 14 10))) else .error .unusedField
  | 9 => if fld w 31 31 = 0 ∧ fld w 3 0 = 0
    then .ok (.sra (.ofNat 5 (fld w 24 20)) (.ofNat 5 (fld w 19 15)) (.ofNat 5 (fld w 14 10))) else .error .unusedField
  | 10 => if fld w 31 31 = 0 ∧ fld w 3 0 = 0
    then .ok (.slt (.ofNat 5 (fld w 24 20)) (.ofNat 5 (fld w 19 15)) (.ofNat 5 (fld w 14 10))) else .error .unusedField
  | 11 => if fld w 31 31 = 0 ∧ fld w 3 0 = 0
    then .ok (.sltu (.ofNat 5 (fld w 24 20)) (.ofNat 5 (fld w 19 15)) (.ofNat 5 (fld w 14 10))) else .error .unusedField
  | 12 => if fld w 31 31 = 0 ∧ fld w 3 0 = 0
    then .ok (.min (.ofNat 5 (fld w 24 20)) (.ofNat 5 (fld w 19 15)) (.ofNat 5 (fld w 14 10))) else .error .unusedField
  | 13 => if fld w 31 31 = 0 ∧ fld w 3 0 = 0
    then .ok (.max (.ofNat 5 (fld w 24 20)) (.ofNat 5 (fld w 19 15)) (.ofNat 5 (fld w 14 10))) else .error .unusedField
  | 14 => if fld w 31 31 = 0 ∧ fld w 3 0 = 0
    then .ok (.minu (.ofNat 5 (fld w 24 20)) (.ofNat 5 (fld w 19 15)) (.ofNat 5 (fld w 14 10))) else .error .unusedField
  | 15 => if fld w 31 31 = 0 ∧ fld w 3 0 = 0
    then .ok (.maxu (.ofNat 5 (fld w 24 20)) (.ofNat 5 (fld w 19 15)) (.ofNat 5 (fld w 14 10))) else .error .unusedField
  | 16 => if fld w 31 31 = 0 ∧ fld w 3 0 = 0
    then .ok (.mul (.ofNat 5 (fld w 24 20)) (.ofNat 5 (fld w 19 15)) (.ofNat 5 (fld w 14 10))) else .error .unusedField
  | 17 => if fld w 31 31 = 0
    then .ok (.mulh (.ofNat 5 (fld w 24 20)) (.ofNat 5 (fld w 19 15)) (.ofNat 5 (fld w 14 10)) (.ofNat 4 (fld w 3 0))) else .error .unusedField
  | 18 => if fld w 31 31 = 0
    then .ok (.mulhu (.ofNat 5 (fld w 24 20)) (.ofNat 5 (fld w 19 15)) (.ofNat 5 (fld w 14 10)) (.ofNat 4 (fld w 3 0))) else .error .unusedField
  | 19 => if fld w 31 31 = 0
    then .ok (.div (.ofNat 5 (fld w 24 20)) (.ofNat 5 (fld w 19 15)) (.ofNat 5 (fld w 14 10)) (.ofNat 4 (fld w 3 0))) else .error .unusedField
  | 20 => if fld w 31 31 = 0
    then .ok (.divu (.ofNat 5 (fld w 24 20)) (.ofNat 5 (fld w 19 15)) (.ofNat 5 (fld w 14 10)) (.ofNat 4 (fld w 3 0))) else .error .unusedField
  | 21 => if fld w 31 31 = 0
    then .ok (.rem (.ofNat 5 (fld w 24 20)) (.ofNat 5 (fld w 19 15)) (.ofNat 5 (fld w 14 10)) (.ofNat 4 (fld w 3 0))) else .error .unusedField
  | 22 => if fld w 31 31 = 0
    then .ok (.remu (.ofNat 5 (fld w 24 20)) (.ofNat 5 (fld w 19 15)) (.ofNat 5 (fld w 14 10)) (.ofNat 4 (fld w 3 0))) else .error .unusedField
  | 23 => if fld w 31 31 = 0 ∧ fld w 3 0 = 0
    then .ok (.addw (.ofNat 5 (fld w 24 20)) (.ofNat 5 (fld w 19 15)) (.ofNat 5 (fld w 14 10))) else .error .unusedField
  | 24 => if fld w 31 31 = 0 ∧ fld w 3 0 = 0
    then .ok (.subw (.ofNat 5 (fld w 24 20)) (.ofNat 5 (fld w 19 15)) (.ofNat 5 (fld w 14 10))) else .error .unusedField
  | 25 => if fld w 31 31 = 0 ∧ fld w 14 10 = 0 ∧ fld w 3 0 = 0
    then .ok (.clz (.ofNat 5 (fld w 24 20)) (.ofNat 5 (fld w 19 15))) else .error .unusedField
  | 26 => if fld w 31 31 = 0 ∧ fld w 14 10 = 0 ∧ fld w 3 0 = 0
    then .ok (.ctz (.ofNat 5 (fld w 24 20)) (.ofNat 5 (fld w 19 15))) else .error .unusedField
  | 27 => if fld w 31 31 = 0 ∧ fld w 14 10 = 0 ∧ fld w 3 0 = 0
    then .ok (.cpop (.ofNat 5 (fld w 24 20)) (.ofNat 5 (fld w 19 15))) else .error .unusedField
  | 28 => if fld w 31 31 = 0 ∧ fld w 3 0 = 0
    then .ok (.rol (.ofNat 5 (fld w 24 20)) (.ofNat 5 (fld w 19 15)) (.ofNat 5 (fld w 14 10))) else .error .unusedField
  | 29 => if fld w 31 31 = 0 ∧ fld w 3 0 = 0
    then .ok (.ror (.ofNat 5 (fld w 24 20)) (.ofNat 5 (fld w 19 15)) (.ofNat 5 (fld w 14 10))) else .error .unusedField
  | _ => .error .reservedMinor

/-- Major 33, format I (R32). -/
def decodeIalui (w : Nat) : Except Reject Instr :=
  match fld w 14 12 with
  | 0 => if fld w 31 31 = 0
    then .ok (.addi (.ofNat 5 (fld w 24 20)) (.ofNat 5 (fld w 19 15)) (.ofNat 12 (fld w 11 0))) else .error .unusedField
  | 1 => if fld w 31 31 = 0
    then .ok (.slti (.ofNat 5 (fld w 24 20)) (.ofNat 5 (fld w 19 15)) (.ofNat 12 (fld w 11 0))) else .error .unusedField
  | 2 => if fld w 31 31 = 0
    then .ok (.sltiu (.ofNat 5 (fld w 24 20)) (.ofNat 5 (fld w 19 15)) (.ofNat 12 (fld w 11 0))) else .error .unusedField
  | 3 => if fld w 31 31 = 0
    then .ok (.xori (.ofNat 5 (fld w 24 20)) (.ofNat 5 (fld w 19 15)) (.ofNat 12 (fld w 11 0))) else .error .unusedField
  | 4 => if fld w 31 31 = 0
    then .ok (.ori (.ofNat 5 (fld w 24 20)) (.ofNat 5 (fld w 19 15)) (.ofNat 12 (fld w 11 0))) else .error .unusedField
  | 5 => if fld w 31 31 = 0
    then .ok (.andi (.ofNat 5 (fld w 24 20)) (.ofNat 5 (fld w 19 15)) (.ofNat 12 (fld w 11 0))) else .error .unusedField
  | 6 =>
    if fld w 9 6 = 0 then
      match fld w 11 10 with
      | 0 => .ok (.slli (.ofNat 5 (fld w 24 20)) (.ofNat 5 (fld w 19 15)) (.ofNat 6 (fld w 5 0)))
      | 1 => .ok (.srli (.ofNat 5 (fld w 24 20)) (.ofNat 5 (fld w 19 15)) (.ofNat 6 (fld w 5 0)))
      | 2 => .ok (.srai (.ofNat 5 (fld w 24 20)) (.ofNat 5 (fld w 19 15)) (.ofNat 6 (fld w 5 0)))
      | _ => .error .reservedKind
    else .error .unusedField
  | 7 => if fld w 31 31 = 0
    then .ok (.addiw (.ofNat 5 (fld w 24 20)) (.ofNat 5 (fld w 19 15)) (.ofNat 12 (fld w 11 0))) else .error .unusedField
  | _ => .error .reservedMinor

/-- Major 35, format R (R33). -/
def decodeFp (w : Nat) : Except Reject Instr :=
  match fld w 9 4 with
  | 0 => if fld w 31 31 = 0 ∧ fld w 3 0 = 0
    then .ok (.faddS (.ofNat 5 (fld w 24 20)) (.ofNat 5 (fld w 19 15)) (.ofNat 5 (fld w 14 10))) else .error .unusedField
  | 1 => if fld w 31 31 = 0 ∧ fld w 3 0 = 0
    then .ok (.fsubS (.ofNat 5 (fld w 24 20)) (.ofNat 5 (fld w 19 15)) (.ofNat 5 (fld w 14 10))) else .error .unusedField
  | 2 => if fld w 31 31 = 0 ∧ fld w 3 0 = 0
    then .ok (.fmulS (.ofNat 5 (fld w 24 20)) (.ofNat 5 (fld w 19 15)) (.ofNat 5 (fld w 14 10))) else .error .unusedField
  | 3 => if fld w 31 31 = 0
    then .ok (.fdivS (.ofNat 5 (fld w 24 20)) (.ofNat 5 (fld w 19 15)) (.ofNat 5 (fld w 14 10)) (.ofNat 4 (fld w 3 0))) else .error .unusedField
  | 4 => if fld w 31 31 = 0 ∧ fld w 14 10 = 0
    then .ok (.fsqrtS (.ofNat 5 (fld w 24 20)) (.ofNat 5 (fld w 19 15)) (.ofNat 4 (fld w 3 0))) else .error .unusedField
  | 5 => if fld w 31 31 = 0 ∧ fld w 3 0 = 0
    then .ok (.fminS (.ofNat 5 (fld w 24 20)) (.ofNat 5 (fld w 19 15)) (.ofNat 5 (fld w 14 10))) else .error .unusedField
  | 6 => if fld w 31 31 = 0 ∧ fld w 3 0 = 0
    then .ok (.fmaxS (.ofNat 5 (fld w 24 20)) (.ofNat 5 (fld w 19 15)) (.ofNat 5 (fld w 14 10))) else .error .unusedField
  | 7 => if fld w 31 31 = 0 ∧ fld w 3 0 = 0
    then .ok (.fmaddS (.ofNat 5 (fld w 24 20)) (.ofNat 5 (fld w 19 15)) (.ofNat 5 (fld w 14 10))) else .error .unusedField
  | 8 => if fld w 31 31 = 0 ∧ fld w 3 0 = 0
    then .ok (.feqS (.ofNat 5 (fld w 24 20)) (.ofNat 5 (fld w 19 15)) (.ofNat 5 (fld w 14 10))) else .error .unusedField
  | 9 => if fld w 31 31 = 0 ∧ fld w 3 0 = 0
    then .ok (.fltS (.ofNat 5 (fld w 24 20)) (.ofNat 5 (fld w 19 15)) (.ofNat 5 (fld w 14 10))) else .error .unusedField
  | 10 => if fld w 31 31 = 0 ∧ fld w 3 0 = 0
    then .ok (.fleS (.ofNat 5 (fld w 24 20)) (.ofNat 5 (fld w 19 15)) (.ofNat 5 (fld w 14 10))) else .error .unusedField
  | 11 => if fld w 31 31 = 0 ∧ fld w 14 10 = 0 ∧ fld w 3 0 = 0
    then .ok (.fclassS (.ofNat 5 (fld w 24 20)) (.ofNat 5 (fld w 19 15))) else .error .unusedField
  | 12 => if fld w 31 31 = 0 ∧ fld w 14 10 = 0 ∧ fld w 3 0 = 0
    then .ok (.fcvtSd (.ofNat 5 (fld w 24 20)) (.ofNat 5 (fld w 19 15))) else .error .unusedField
  | 13 => if fld w 31 31 = 0 ∧ fld w 14 10 = 0 ∧ fld w 3 0 = 0
    then .ok (.fcvtDs (.ofNat 5 (fld w 24 20)) (.ofNat 5 (fld w 19 15))) else .error .unusedField
  | 14 => if fld w 31 31 = 0 ∧ fld w 14 10 = 0 ∧ fld w 3 0 = 0
    then .ok (.fcvtSl (.ofNat 5 (fld w 24 20)) (.ofNat 5 (fld w 19 15))) else .error .unusedField
  | 15 => if fld w 31 31 = 0 ∧ fld w 14 10 = 0 ∧ fld w 3 0 = 0
    then .ok (.fcvtLs (.ofNat 5 (fld w 24 20)) (.ofNat 5 (fld w 19 15))) else .error .unusedField
  | 16 => if fld w 31 31 = 0 ∧ fld w 14 10 = 0 ∧ fld w 3 0 = 0
    then .ok (.fcvtDl (.ofNat 5 (fld w 24 20)) (.ofNat 5 (fld w 19 15))) else .error .unusedField
  | 17 => if fld w 31 31 = 0 ∧ fld w 14 10 = 0 ∧ fld w 3 0 = 0
    then .ok (.fcvtLd (.ofNat 5 (fld w 24 20)) (.ofNat 5 (fld w 19 15))) else .error .unusedField
  | 32 => if fld w 31 31 = 0 ∧ fld w 3 0 = 0
    then .ok (.faddD (.ofNat 5 (fld w 24 20)) (.ofNat 5 (fld w 19 15)) (.ofNat 5 (fld w 14 10))) else .error .unusedField
  | 33 => if fld w 31 31 = 0 ∧ fld w 3 0 = 0
    then .ok (.fsubD (.ofNat 5 (fld w 24 20)) (.ofNat 5 (fld w 19 15)) (.ofNat 5 (fld w 14 10))) else .error .unusedField
  | 34 => if fld w 31 31 = 0 ∧ fld w 3 0 = 0
    then .ok (.fmulD (.ofNat 5 (fld w 24 20)) (.ofNat 5 (fld w 19 15)) (.ofNat 5 (fld w 14 10))) else .error .unusedField
  | 35 => if fld w 31 31 = 0
    then .ok (.fdivD (.ofNat 5 (fld w 24 20)) (.ofNat 5 (fld w 19 15)) (.ofNat 5 (fld w 14 10)) (.ofNat 4 (fld w 3 0))) else .error .unusedField
  | 36 => if fld w 31 31 = 0 ∧ fld w 14 10 = 0
    then .ok (.fsqrtD (.ofNat 5 (fld w 24 20)) (.ofNat 5 (fld w 19 15)) (.ofNat 4 (fld w 3 0))) else .error .unusedField
  | 37 => if fld w 31 31 = 0 ∧ fld w 3 0 = 0
    then .ok (.fminD (.ofNat 5 (fld w 24 20)) (.ofNat 5 (fld w 19 15)) (.ofNat 5 (fld w 14 10))) else .error .unusedField
  | 38 => if fld w 31 31 = 0 ∧ fld w 3 0 = 0
    then .ok (.fmaxD (.ofNat 5 (fld w 24 20)) (.ofNat 5 (fld w 19 15)) (.ofNat 5 (fld w 14 10))) else .error .unusedField
  | 39 => if fld w 31 31 = 0 ∧ fld w 3 0 = 0
    then .ok (.fmaddD (.ofNat 5 (fld w 24 20)) (.ofNat 5 (fld w 19 15)) (.ofNat 5 (fld w 14 10))) else .error .unusedField
  | 40 => if fld w 31 31 = 0 ∧ fld w 3 0 = 0
    then .ok (.feqD (.ofNat 5 (fld w 24 20)) (.ofNat 5 (fld w 19 15)) (.ofNat 5 (fld w 14 10))) else .error .unusedField
  | 41 => if fld w 31 31 = 0 ∧ fld w 3 0 = 0
    then .ok (.fltD (.ofNat 5 (fld w 24 20)) (.ofNat 5 (fld w 19 15)) (.ofNat 5 (fld w 14 10))) else .error .unusedField
  | 42 => if fld w 31 31 = 0 ∧ fld w 3 0 = 0
    then .ok (.fleD (.ofNat 5 (fld w 24 20)) (.ofNat 5 (fld w 19 15)) (.ofNat 5 (fld w 14 10))) else .error .unusedField
  | 43 => if fld w 31 31 = 0 ∧ fld w 14 10 = 0 ∧ fld w 3 0 = 0
    then .ok (.fclassD (.ofNat 5 (fld w 24 20)) (.ofNat 5 (fld w 19 15))) else .error .unusedField
  | _ => .error .reservedMinor

/-- Major 15, format R (R31). -/
def decodeThr (w : Nat) : Except Reject Instr :=
  match fld w 9 4 with
  | 0 => if fld w 3 0 = 0
    then .ok (.thrSpawn (.ofNat 1 (fld w 31 31)) (.ofNat 5 (fld w 24 20)) (.ofNat 5 (fld w 19 15)) (.ofNat 5 (fld w 14 10))) else .error .unusedField
  | 1 => if fld w 24 20 = 0 ∧ fld w 19 15 = 0 ∧ fld w 14 10 = 0 ∧ fld w 3 0 = 0
    then .ok (.thrEnd (.ofNat 1 (fld w 31 31))) else .error .unusedField
  | 2 => if fld w 19 15 = 0 ∧ fld w 14 10 = 0 ∧ fld w 3 0 = 0
    then .ok (.thrSelf (.ofNat 1 (fld w 31 31)) (.ofNat 5 (fld w 24 20))) else .error .unusedField
  | 3 => if fld w 14 10 = 0 ∧ fld w 3 0 = 0
    then .ok (.thrStop (.ofNat 1 (fld w 31 31)) (.ofNat 5 (fld w 24 20)) (.ofNat 5 (fld w 19 15))) else .error .unusedField
  | 4 => if fld w 14 10 = 0 ∧ fld w 3 0 = 0
    then .ok (.thrGo (.ofNat 1 (fld w 31 31)) (.ofNat 5 (fld w 24 20)) (.ofNat 5 (fld w 19 15))) else .error .unusedField
  | 5 => if fld w 3 0 = 0
    then .ok (.thrSave (.ofNat 1 (fld w 31 31)) (.ofNat 5 (fld w 24 20)) (.ofNat 5 (fld w 19 15)) (.ofNat 5 (fld w 14 10))) else .error .unusedField
  | 6 => if fld w 3 0 = 0
    then .ok (.thrLoad (.ofNat 1 (fld w 31 31)) (.ofNat 5 (fld w 24 20)) (.ofNat 5 (fld w 19 15)) (.ofNat 5 (fld w 14 10))) else .error .unusedField
  | _ => .error .reservedMinor

/-- Major 8, format I (R31). -/
def decodeVcfg (w : Nat) : Except Reject Instr :=
  match fld w 14 12 with
  | 0 => if fld w 11 10 = 0 ∧ fld w 9 4 = 0
    then .ok (.vset (.ofNat 1 (fld w 31 31)) (.ofNat 5 (fld w 24 20)) (.ofNat 5 (fld w 19 15)) (.ofNat 4 (fld w 3 0))) else .error .unusedField
  | 1 => if fld w 19 15 = 0 ∧ fld w 11 10 = 0 ∧ fld w 9 3 = 0
    then .ok (.vsetmt (.ofNat 1 (fld w 31 31)) (.ofNat 5 (fld w 24 20)) (.ofNat 3 (fld w 2 0))) else .error .unusedField
  | _ => .error .reservedMinor

/-- Major 9, format VM (R31). -/
def decodeVld (w : Nat) : Except Reject Instr :=
  match fld w 2 0 with
  | 0 => if fld w 14 10 = 0 ∧ fld w 7 6 = 0
    then .ok (.vld (.ofNat 1 (fld w 31 31)) (.ofNat 5 (fld w 24 20)) (.ofNat 5 (fld w 19 15)) (.ofNat 2 (fld w 9 8)) (.ofNat 3 (fld w 5 3))) else .error .unusedField
  | 1 => if fld w 7 6 = 0
    then .ok (.vlds (.ofNat 1 (fld w 31 31)) (.ofNat 5 (fld w 24 20)) (.ofNat 5 (fld w 19 15)) (.ofNat 5 (fld w 14 10)) (.ofNat 2 (fld w 9 8)) (.ofNat 3 (fld w 5 3))) else .error .unusedField
  | 2 => if fld w 7 6 = 0
    then .ok (.vldx (.ofNat 1 (fld w 31 31)) (.ofNat 5 (fld w 24 20)) (.ofNat 5 (fld w 19 15)) (.ofNat 5 (fld w 14 10)) (.ofNat 2 (fld w 9 8)) (.ofNat 3 (fld w 5 3))) else .error .unusedField
  | 3 => if fld w 14 10 = 0 ∧ fld w 7 6 = 0
    then .ok (.vldff (.ofNat 1 (fld w 31 31)) (.ofNat 5 (fld w 24 20)) (.ofNat 5 (fld w 19 15)) (.ofNat 2 (fld w 9 8)) (.ofNat 3 (fld w 5 3))) else .error .unusedField
  | 4 => if fld w 7 6 = 0
    then .ok (.vldg (.ofNat 1 (fld w 31 31)) (.ofNat 5 (fld w 24 20)) (.ofNat 5 (fld w 19 15)) (.ofNat 5 (fld w 14 10)) (.ofNat 2 (fld w 9 8)) (.ofNat 3 (fld w 5 3))) else .error .unusedField
  | 5 => if fld w 14 10 = 0 ∧ fld w 7 6 = 0
    then .ok (.vldb (.ofNat 1 (fld w 31 31)) (.ofNat 5 (fld w 24 20)) (.ofNat 5 (fld w 19 15)) (.ofNat 2 (fld w 9 8)) (.ofNat 3 (fld w 5 3))) else .error .unusedField
  | _ => .error .reservedMinor

/-- Major 10, format VM (R31). -/
def decodeVst (w : Nat) : Except Reject Instr :=
  match fld w 2 0 with
  | 0 => if fld w 14 10 = 0 ∧ fld w 7 6 = 0
    then .ok (.vst (.ofNat 1 (fld w 31 31)) (.ofNat 5 (fld w 24 20)) (.ofNat 5 (fld w 19 15)) (.ofNat 2 (fld w 9 8)) (.ofNat 3 (fld w 5 3))) else .error .unusedField
  | 1 => if fld w 7 6 = 0
    then .ok (.vsts (.ofNat 1 (fld w 31 31)) (.ofNat 5 (fld w 24 20)) (.ofNat 5 (fld w 19 15)) (.ofNat 5 (fld w 14 10)) (.ofNat 2 (fld w 9 8)) (.ofNat 3 (fld w 5 3))) else .error .unusedField
  | 2 => if fld w 7 6 = 0
    then .ok (.vstx (.ofNat 1 (fld w 31 31)) (.ofNat 5 (fld w 24 20)) (.ofNat 5 (fld w 19 15)) (.ofNat 5 (fld w 14 10)) (.ofNat 2 (fld w 9 8)) (.ofNat 3 (fld w 5 3))) else .error .unusedField
  | 3 => if fld w 7 6 = 0
    then .ok (.vstxa (.ofNat 1 (fld w 31 31)) (.ofNat 5 (fld w 24 20)) (.ofNat 5 (fld w 19 15)) (.ofNat 5 (fld w 14 10)) (.ofNat 2 (fld w 9 8)) (.ofNat 3 (fld w 5 3))) else .error .unusedField
  | 4 => if fld w 7 6 = 0
    then .ok (.vstxf (.ofNat 1 (fld w 31 31)) (.ofNat 5 (fld w 24 20)) (.ofNat 5 (fld w 19 15)) (.ofNat 5 (fld w 14 10)) (.ofNat 2 (fld w 9 8)) (.ofNat 3 (fld w 5 3))) else .error .unusedField
  | _ => .error .reservedMinor

/-- Major 36, format V (R32). -/
noncomputable def decodeVint (w : Nat) : Except Reject Instr :=
  match fld w 9 4 with
  | 0 => if fld w 31 31 = 0
    then .ok (.vadd (.ofNat 5 (fld w 24 20)) (.ofNat 5 (fld w 19 15)) (.ofNat 5 (fld w 14 10)) (.ofNat 3 (fld w 3 1)) (.ofNat 1 (fld w 0 0))) else .error .unusedField
  | 1 => if fld w 31 31 = 0
    then .ok (.vsub (.ofNat 5 (fld w 24 20)) (.ofNat 5 (fld w 19 15)) (.ofNat 5 (fld w 14 10)) (.ofNat 3 (fld w 3 1)) (.ofNat 1 (fld w 0 0))) else .error .unusedField
  | 2 => if fld w 31 31 = 0
    then .ok (.vmul (.ofNat 5 (fld w 24 20)) (.ofNat 5 (fld w 19 15)) (.ofNat 5 (fld w 14 10)) (.ofNat 3 (fld w 3 1)) (.ofNat 1 (fld w 0 0))) else .error .unusedField
  | 3 => if fld w 31 31 = 0
    then .ok (.vmulh (.ofNat 5 (fld w 24 20)) (.ofNat 5 (fld w 19 15)) (.ofNat 5 (fld w 14 10)) (.ofNat 3 (fld w 3 1)) (.ofNat 1 (fld w 0 0))) else .error .unusedField
  | 4 => if fld w 31 31 = 0
    then .ok (.vmin (.ofNat 5 (fld w 24 20)) (.ofNat 5 (fld w 19 15)) (.ofNat 5 (fld w 14 10)) (.ofNat 3 (fld w 3 1)) (.ofNat 1 (fld w 0 0))) else .error .unusedField
  | 5 => if fld w 31 31 = 0
    then .ok (.vmax (.ofNat 5 (fld w 24 20)) (.ofNat 5 (fld w 19 15)) (.ofNat 5 (fld w 14 10)) (.ofNat 3 (fld w 3 1)) (.ofNat 1 (fld w 0 0))) else .error .unusedField
  | 6 => if fld w 31 31 = 0
    then .ok (.vminu (.ofNat 5 (fld w 24 20)) (.ofNat 5 (fld w 19 15)) (.ofNat 5 (fld w 14 10)) (.ofNat 3 (fld w 3 1)) (.ofNat 1 (fld w 0 0))) else .error .unusedField
  | 7 => if fld w 31 31 = 0
    then .ok (.vmaxu (.ofNat 5 (fld w 24 20)) (.ofNat 5 (fld w 19 15)) (.ofNat 5 (fld w 14 10)) (.ofNat 3 (fld w 3 1)) (.ofNat 1 (fld w 0 0))) else .error .unusedField
  | 8 => if fld w 31 31 = 0
    then .ok (.vand (.ofNat 5 (fld w 24 20)) (.ofNat 5 (fld w 19 15)) (.ofNat 5 (fld w 14 10)) (.ofNat 3 (fld w 3 1)) (.ofNat 1 (fld w 0 0))) else .error .unusedField
  | 9 => if fld w 31 31 = 0
    then .ok (.vor (.ofNat 5 (fld w 24 20)) (.ofNat 5 (fld w 19 15)) (.ofNat 5 (fld w 14 10)) (.ofNat 3 (fld w 3 1)) (.ofNat 1 (fld w 0 0))) else .error .unusedField
  | 10 => if fld w 31 31 = 0
    then .ok (.vxor (.ofNat 5 (fld w 24 20)) (.ofNat 5 (fld w 19 15)) (.ofNat 5 (fld w 14 10)) (.ofNat 3 (fld w 3 1)) (.ofNat 1 (fld w 0 0))) else .error .unusedField
  | 11 => if fld w 31 31 = 0
    then .ok (.vsll (.ofNat 5 (fld w 24 20)) (.ofNat 5 (fld w 19 15)) (.ofNat 5 (fld w 14 10)) (.ofNat 3 (fld w 3 1)) (.ofNat 1 (fld w 0 0))) else .error .unusedField
  | 12 => if fld w 31 31 = 0
    then .ok (.vsrl (.ofNat 5 (fld w 24 20)) (.ofNat 5 (fld w 19 15)) (.ofNat 5 (fld w 14 10)) (.ofNat 3 (fld w 3 1)) (.ofNat 1 (fld w 0 0))) else .error .unusedField
  | 13 => if fld w 31 31 = 0
    then .ok (.vsra (.ofNat 5 (fld w 24 20)) (.ofNat 5 (fld w 19 15)) (.ofNat 5 (fld w 14 10)) (.ofNat 3 (fld w 3 1)) (.ofNat 1 (fld w 0 0))) else .error .unusedField
  | 14 => if fld w 31 31 = 0
    then .ok (.vsadd (.ofNat 5 (fld w 24 20)) (.ofNat 5 (fld w 19 15)) (.ofNat 5 (fld w 14 10)) (.ofNat 3 (fld w 3 1)) (.ofNat 1 (fld w 0 0))) else .error .unusedField
  | 15 => if fld w 31 31 = 0
    then .ok (.vssub (.ofNat 5 (fld w 24 20)) (.ofNat 5 (fld w 19 15)) (.ofNat 5 (fld w 14 10)) (.ofNat 3 (fld w 3 1)) (.ofNat 1 (fld w 0 0))) else .error .unusedField
  | 16 => if fld w 31 31 = 0
    then .ok (.vmacc (.ofNat 5 (fld w 24 20)) (.ofNat 5 (fld w 19 15)) (.ofNat 5 (fld w 14 10)) (.ofNat 3 (fld w 3 1)) (.ofNat 1 (fld w 0 0))) else .error .unusedField
  | 17 => if fld w 31 31 = 0
    then .ok (.vdot4 (.ofNat 5 (fld w 24 20)) (.ofNat 5 (fld w 19 15)) (.ofNat 5 (fld w 14 10)) (.ofNat 3 (fld w 3 1)) (.ofNat 1 (fld w 0 0))) else .error .unusedField
  | _ => .error .reservedMinor

/-- Major 37, format V (R32). -/
noncomputable def decodeVfp (w : Nat) : Except Reject Instr :=
  match fld w 9 4 with
  | 0 => if fld w 31 31 = 0
    then .ok (.vfadd (.ofNat 5 (fld w 24 20)) (.ofNat 5 (fld w 19 15)) (.ofNat 5 (fld w 14 10)) (.ofNat 3 (fld w 3 1)) (.ofNat 1 (fld w 0 0))) else .error .unusedField
  | 1 => if fld w 31 31 = 0
    then .ok (.vfsub (.ofNat 5 (fld w 24 20)) (.ofNat 5 (fld w 19 15)) (.ofNat 5 (fld w 14 10)) (.ofNat 3 (fld w 3 1)) (.ofNat 1 (fld w 0 0))) else .error .unusedField
  | 2 => if fld w 31 31 = 0
    then .ok (.vfmul (.ofNat 5 (fld w 24 20)) (.ofNat 5 (fld w 19 15)) (.ofNat 5 (fld w 14 10)) (.ofNat 3 (fld w 3 1)) (.ofNat 1 (fld w 0 0))) else .error .unusedField
  | 3 => if fld w 31 31 = 0
    then .ok (.vfdiv (.ofNat 5 (fld w 24 20)) (.ofNat 5 (fld w 19 15)) (.ofNat 5 (fld w 14 10)) (.ofNat 3 (fld w 3 1)) (.ofNat 1 (fld w 0 0))) else .error .unusedField
  | 4 => if fld w 31 31 = 0 ∧ fld w 14 10 = 0 ∧ fld w 0 0 = 0
    then .ok (.vfsqrt (.ofNat 5 (fld w 24 20)) (.ofNat 5 (fld w 19 15)) (.ofNat 3 (fld w 3 1))) else .error .unusedField
  | 5 => if fld w 31 31 = 0
    then .ok (.vfmin (.ofNat 5 (fld w 24 20)) (.ofNat 5 (fld w 19 15)) (.ofNat 5 (fld w 14 10)) (.ofNat 3 (fld w 3 1)) (.ofNat 1 (fld w 0 0))) else .error .unusedField
  | 6 => if fld w 31 31 = 0
    then .ok (.vfmax (.ofNat 5 (fld w 24 20)) (.ofNat 5 (fld w 19 15)) (.ofNat 5 (fld w 14 10)) (.ofNat 3 (fld w 3 1)) (.ofNat 1 (fld w 0 0))) else .error .unusedField
  | 7 => if fld w 31 31 = 0
    then .ok (.vfma (.ofNat 5 (fld w 24 20)) (.ofNat 5 (fld w 19 15)) (.ofNat 5 (fld w 14 10)) (.ofNat 3 (fld w 3 1)) (.ofNat 1 (fld w 0 0))) else .error .unusedField
  | 8 => if fld w 31 31 = 0
    then .ok (.vfnma (.ofNat 5 (fld w 24 20)) (.ofNat 5 (fld w 19 15)) (.ofNat 5 (fld w 14 10)) (.ofNat 3 (fld w 3 1)) (.ofNat 1 (fld w 0 0))) else .error .unusedField
  | 9 => if fld w 31 31 = 0 ∧ fld w 14 10 = 0 ∧ fld w 0 0 = 0
    then .ok (.vfabs (.ofNat 5 (fld w 24 20)) (.ofNat 5 (fld w 19 15)) (.ofNat 3 (fld w 3 1))) else .error .unusedField
  | 10 => if fld w 31 31 = 0 ∧ fld w 14 10 = 0 ∧ fld w 0 0 = 0
    then .ok (.vfneg (.ofNat 5 (fld w 24 20)) (.ofNat 5 (fld w 19 15)) (.ofNat 3 (fld w 3 1))) else .error .unusedField
  | _ => .error .reservedMinor

/-- Major 38, format V (R32). -/
noncomputable def decodeVcmp (w : Nat) : Except Reject Instr :=
  match fld w 9 4 with
  | 0 => if fld w 31 31 = 0
    then .ok (.vceq (.ofNat 5 (fld w 24 20)) (.ofNat 5 (fld w 19 15)) (.ofNat 5 (fld w 14 10)) (.ofNat 3 (fld w 3 1)) (.ofNat 1 (fld w 0 0))) else .error .unusedField
  | 1 => if fld w 31 31 = 0
    then .ok (.vcne (.ofNat 5 (fld w 24 20)) (.ofNat 5 (fld w 19 15)) (.ofNat 5 (fld w 14 10)) (.ofNat 3 (fld w 3 1)) (.ofNat 1 (fld w 0 0))) else .error .unusedField
  | 2 => if fld w 31 31 = 0
    then .ok (.vclt (.ofNat 5 (fld w 24 20)) (.ofNat 5 (fld w 19 15)) (.ofNat 5 (fld w 14 10)) (.ofNat 3 (fld w 3 1)) (.ofNat 1 (fld w 0 0))) else .error .unusedField
  | 3 => if fld w 31 31 = 0
    then .ok (.vcle (.ofNat 5 (fld w 24 20)) (.ofNat 5 (fld w 19 15)) (.ofNat 5 (fld w 14 10)) (.ofNat 3 (fld w 3 1)) (.ofNat 1 (fld w 0 0))) else .error .unusedField
  | 4 => if fld w 31 31 = 0
    then .ok (.vcltu (.ofNat 5 (fld w 24 20)) (.ofNat 5 (fld w 19 15)) (.ofNat 5 (fld w 14 10)) (.ofNat 3 (fld w 3 1)) (.ofNat 1 (fld w 0 0))) else .error .unusedField
  | 5 => if fld w 31 31 = 0
    then .ok (.vcleu (.ofNat 5 (fld w 24 20)) (.ofNat 5 (fld w 19 15)) (.ofNat 5 (fld w 14 10)) (.ofNat 3 (fld w 3 1)) (.ofNat 1 (fld w 0 0))) else .error .unusedField
  | 6 => if fld w 31 31 = 0
    then .ok (.vfceq (.ofNat 5 (fld w 24 20)) (.ofNat 5 (fld w 19 15)) (.ofNat 5 (fld w 14 10)) (.ofNat 3 (fld w 3 1)) (.ofNat 1 (fld w 0 0))) else .error .unusedField
  | 7 => if fld w 31 31 = 0
    then .ok (.vfclt (.ofNat 5 (fld w 24 20)) (.ofNat 5 (fld w 19 15)) (.ofNat 5 (fld w 14 10)) (.ofNat 3 (fld w 3 1)) (.ofNat 1 (fld w 0 0))) else .error .unusedField
  | 8 => if fld w 31 31 = 0
    then .ok (.vfcle (.ofNat 5 (fld w 24 20)) (.ofNat 5 (fld w 19 15)) (.ofNat 5 (fld w 14 10)) (.ofNat 3 (fld w 3 1)) (.ofNat 1 (fld w 0 0))) else .error .unusedField
  | 9 => if fld w 31 31 = 0
    then .ok (.vfcun (.ofNat 5 (fld w 24 20)) (.ofNat 5 (fld w 19 15)) (.ofNat 5 (fld w 14 10)) (.ofNat 3 (fld w 3 1)) (.ofNat 1 (fld w 0 0))) else .error .unusedField
  | _ => .error .reservedMinor

/-- Major 39, format V (R32). -/
noncomputable def decodeVmsk (w : Nat) : Except Reject Instr :=
  match fld w 9 4 with
  | 0 => if fld w 31 31 = 0 ∧ fld w 3 0 = 0
    then .ok (.mand (.ofNat 5 (fld w 24 20)) (.ofNat 5 (fld w 19 15)) (.ofNat 5 (fld w 14 10))) else .error .unusedField
  | 1 => if fld w 31 31 = 0 ∧ fld w 3 0 = 0
    then .ok (.mor (.ofNat 5 (fld w 24 20)) (.ofNat 5 (fld w 19 15)) (.ofNat 5 (fld w 14 10))) else .error .unusedField
  | 2 => if fld w 31 31 = 0 ∧ fld w 3 0 = 0
    then .ok (.mxor (.ofNat 5 (fld w 24 20)) (.ofNat 5 (fld w 19 15)) (.ofNat 5 (fld w 14 10))) else .error .unusedField
  | 3 => if fld w 31 31 = 0 ∧ fld w 3 0 = 0
    then .ok (.mandn (.ofNat 5 (fld w 24 20)) (.ofNat 5 (fld w 19 15)) (.ofNat 5 (fld w 14 10))) else .error .unusedField
  | 4 => if fld w 31 31 = 0 ∧ fld w 14 10 = 0 ∧ fld w 3 0 = 0
    then .ok (.mnot (.ofNat 5 (fld w 24 20)) (.ofNat 5 (fld w 19 15))) else .error .unusedField
  | 5 => if fld w 31 31 = 0 ∧ fld w 14 10 = 0 ∧ fld w 0 0 = 0
    then .ok (.mpop (.ofNat 5 (fld w 24 20)) (.ofNat 5 (fld w 19 15)) (.ofNat 3 (fld w 3 1))) else .error .unusedField
  | 6 => if fld w 31 31 = 0 ∧ fld w 14 10 = 0 ∧ fld w 0 0 = 0
    then .ok (.mfirst (.ofNat 5 (fld w 24 20)) (.ofNat 5 (fld w 19 15)) (.ofNat 3 (fld w 3 1))) else .error .unusedField
  | 7 => if fld w 31 31 = 0 ∧ fld w 14 10 = 0 ∧ fld w 0 0 = 0
    then .ok (.miota (.ofNat 5 (fld w 24 20)) (.ofNat 5 (fld w 19 15)) (.ofNat 3 (fld w 3 1))) else .error .unusedField
  | 8 => if fld w 31 31 = 0 ∧ fld w 14 10 = 0 ∧ fld w 3 0 = 0
    then .ok (.mset (.ofNat 5 (fld w 24 20)) (.ofNat 5 (fld w 19 15))) else .error .unusedField
  | _ => .error .reservedMinor

/-- Major 40, format V (R32). -/
noncomputable def decodeVred (w : Nat) : Except Reject Instr :=
  match fld w 9 4 with
  | 0 => if fld w 31 31 = 0
    then .ok (.vredsum (.ofNat 5 (fld w 24 20)) (.ofNat 5 (fld w 19 15)) (.ofNat 5 (fld w 14 10)) (.ofNat 3 (fld w 3 1)) (.ofNat 1 (fld w 0 0))) else .error .unusedField
  | 1 => if fld w 31 31 = 0
    then .ok (.vredmin (.ofNat 5 (fld w 24 20)) (.ofNat 5 (fld w 19 15)) (.ofNat 5 (fld w 14 10)) (.ofNat 3 (fld w 3 1)) (.ofNat 1 (fld w 0 0))) else .error .unusedField
  | 2 => if fld w 31 31 = 0
    then .ok (.vredmax (.ofNat 5 (fld w 24 20)) (.ofNat 5 (fld w 19 15)) (.ofNat 5 (fld w 14 10)) (.ofNat 3 (fld w 3 1)) (.ofNat 1 (fld w 0 0))) else .error .unusedField
  | 3 => if fld w 31 31 = 0
    then .ok (.vfredo (.ofNat 5 (fld w 24 20)) (.ofNat 5 (fld w 19 15)) (.ofNat 5 (fld w 14 10)) (.ofNat 3 (fld w 3 1)) (.ofNat 1 (fld w 0 0))) else .error .unusedField
  | 4 => if fld w 31 31 = 0
    then .ok (.vfredt (.ofNat 5 (fld w 24 20)) (.ofNat 5 (fld w 19 15)) (.ofNat 5 (fld w 14 10)) (.ofNat 3 (fld w 3 1)) (.ofNat 1 (fld w 0 0))) else .error .unusedField
  | 5 => if fld w 31 31 = 0
    then .ok (.vfredmin (.ofNat 5 (fld w 24 20)) (.ofNat 5 (fld w 19 15)) (.ofNat 5 (fld w 14 10)) (.ofNat 3 (fld w 3 1)) (.ofNat 1 (fld w 0 0))) else .error .unusedField
  | 6 => if fld w 31 31 = 0
    then .ok (.vfredmax (.ofNat 5 (fld w 24 20)) (.ofNat 5 (fld w 19 15)) (.ofNat 5 (fld w 14 10)) (.ofNat 3 (fld w 3 1)) (.ofNat 1 (fld w 0 0))) else .error .unusedField
  | _ => .error .reservedMinor

/-- Major 41, format V (R32). -/
noncomputable def decodeVperm (w : Nat) : Except Reject Instr :=
  match fld w 9 4 with
  | 0 => if fld w 31 31 = 0 ∧ fld w 0 0 = 1
    then .ok (.vslup (.ofNat 5 (fld w 24 20)) (.ofNat 5 (fld w 19 15)) (.ofNat 5 (fld w 14 10)) (.ofNat 3 (fld w 3 1))) else .error .unusedField
  | 1 => if fld w 31 31 = 0 ∧ fld w 0 0 = 1
    then .ok (.vsldn (.ofNat 5 (fld w 24 20)) (.ofNat 5 (fld w 19 15)) (.ofNat 5 (fld w 14 10)) (.ofNat 3 (fld w 3 1))) else .error .unusedField
  | 2 => if fld w 31 31 = 0 ∧ fld w 0 0 = 0
    then .ok (.vrgather (.ofNat 5 (fld w 24 20)) (.ofNat 5 (fld w 19 15)) (.ofNat 5 (fld w 14 10)) (.ofNat 3 (fld w 3 1))) else .error .unusedField
  | 3 => if fld w 31 31 = 0 ∧ fld w 14 10 = 0 ∧ fld w 0 0 = 0
    then .ok (.vcompress (.ofNat 5 (fld w 24 20)) (.ofNat 5 (fld w 19 15)) (.ofNat 3 (fld w 3 1))) else .error .unusedField
  | 4 => if fld w 31 31 = 0 ∧ fld w 0 0 = 1
    then .ok (.vbcast (.ofNat 5 (fld w 24 20)) (.ofNat 5 (fld w 19 15)) (.ofNat 5 (fld w 14 10)) (.ofNat 3 (fld w 3 1))) else .error .unusedField
  | 5 => if fld w 31 31 = 0 ∧ fld w 3 0 = 0
    then .ok (.vmvgv (.ofNat 5 (fld w 24 20)) (.ofNat 5 (fld w 19 15)) (.ofNat 5 (fld w 14 10))) else .error .unusedField
  | 6 => if fld w 31 31 = 0 ∧ fld w 3 0 = 0
    then .ok (.vmvvg (.ofNat 5 (fld w 24 20)) (.ofNat 5 (fld w 19 15)) (.ofNat 5 (fld w 14 10))) else .error .unusedField
  | 7 => if fld w 31 31 = 0 ∧ fld w 19 15 = 0 ∧ fld w 14 10 = 0 ∧ fld w 0 0 = 0
    then .ok (.vid (.ofNat 5 (fld w 24 20)) (.ofNat 3 (fld w 3 1))) else .error .unusedField
  | 8 => if fld w 31 31 = 0
    then .ok (.vmerge (.ofNat 5 (fld w 24 20)) (.ofNat 5 (fld w 19 15)) (.ofNat 5 (fld w 14 10)) (.ofNat 3 (fld w 3 1)) (.ofNat 1 (fld w 0 0))) else .error .unusedField
  | 9 => if fld w 31 31 = 0 ∧ fld w 19 15 = 0
    then .ok (.vmv (.ofNat 5 (fld w 24 20)) (.ofNat 5 (fld w 14 10)) (.ofNat 3 (fld w 3 1)) (.ofNat 1 (fld w 0 0))) else .error .unusedField
  | _ => .error .reservedMinor

/-- Major 42, format V (R32). -/
noncomputable def decodeVcvt (w : Nat) : Except Reject Instr :=
  match fld w 9 4 with
  | 0 => if fld w 31 31 = 0 ∧ fld w 0 0 = 0
    then .ok (.vcvtN (.ofNat 5 (fld w 24 20)) (.ofNat 5 (fld w 19 15)) (.ofNat 5 (fld w 14 10)) (.ofNat 3 (fld w 3 1))) else .error .unusedField
  | 1 => if fld w 31 31 = 0 ∧ fld w 0 0 = 0
    then .ok (.vcvtW (.ofNat 5 (fld w 24 20)) (.ofNat 5 (fld w 19 15)) (.ofNat 5 (fld w 14 10)) (.ofNat 3 (fld w 3 1))) else .error .unusedField
  | 2 => if fld w 31 31 = 0 ∧ fld w 0 0 = 0
    then .ok (.vcvtFi (.ofNat 5 (fld w 24 20)) (.ofNat 5 (fld w 19 15)) (.ofNat 5 (fld w 14 10)) (.ofNat 3 (fld w 3 1))) else .error .unusedField
  | 3 => if fld w 31 31 = 0 ∧ fld w 0 0 = 0
    then .ok (.vcvtIf (.ofNat 5 (fld w 24 20)) (.ofNat 5 (fld w 19 15)) (.ofNat 5 (fld w 14 10)) (.ofNat 3 (fld w 3 1))) else .error .unusedField
  | 4 => if fld w 31 31 = 0 ∧ fld w 3 0 = 0
    then .ok (.vcvtQ4 (.ofNat 5 (fld w 24 20)) (.ofNat 5 (fld w 19 15)) (.ofNat 5 (fld w 14 10))) else .error .unusedField
  | 5 => if fld w 31 31 = 0 ∧ fld w 3 0 = 0
    then .ok (.vcvtQ8 (.ofNat 5 (fld w 24 20)) (.ofNat 5 (fld w 19 15)) (.ofNat 5 (fld w 14 10))) else .error .unusedField
  | _ => .error .reservedMinor

/-- Major 11, format T (R31). -/
noncomputable def decodeTile (w : Nat) : Except Reject Instr :=
  match fld w 9 4 with
  | 0 => if fld w 21 20 = 0 ∧ fld w 19 15 = 0 ∧ fld w 14 10 = 0 ∧ fld w 3 0 = 0
    then .ok (.tileZero (.ofNat 1 (fld w 31 31)) (.ofNat 2 (fld w 24 23)) (.ofNat 1 (fld w 22 22))) else .error .unusedField
  | 1 => if fld w 21 20 = 0
    then .ok (.tileLd (.ofNat 1 (fld w 31 31)) (.ofNat 2 (fld w 24 23)) (.ofNat 1 (fld w 22 22)) (.ofNat 5 (fld w 19 15)) (.ofNat 5 (fld w 14 10)) (.ofNat 4 (fld w 3 0))) else .error .unusedField
  | 2 => if fld w 21 20 = 0
    then .ok (.tileSt (.ofNat 1 (fld w 31 31)) (.ofNat 2 (fld w 24 23)) (.ofNat 1 (fld w 22 22)) (.ofNat 5 (fld w 19 15)) (.ofNat 5 (fld w 14 10)) (.ofNat 4 (fld w 3 0))) else .error .unusedField
  | 3 => if fld w 21 20 = 0
    then .ok (.tileLdx (.ofNat 1 (fld w 31 31)) (.ofNat 2 (fld w 24 23)) (.ofNat 1 (fld w 22 22)) (.ofNat 5 (fld w 19 15)) (.ofNat 5 (fld w 14 10)) (.ofNat 4 (fld w 3 0))) else .error .unusedField
  | 4 => if fld w 21 20 = 0
    then .ok (.tileStx (.ofNat 1 (fld w 31 31)) (.ofNat 2 (fld w 24 23)) (.ofNat 1 (fld w 22 22)) (.ofNat 5 (fld w 19 15)) (.ofNat 5 (fld w 14 10)) (.ofNat 4 (fld w 3 0))) else .error .unusedField
  | 5 => if fld w 21 20 = 0
    then .ok (.tileStxa (.ofNat 1 (fld w 31 31)) (.ofNat 2 (fld w 24 23)) (.ofNat 1 (fld w 22 22)) (.ofNat 5 (fld w 19 15)) (.ofNat 5 (fld w 14 10)) (.ofNat 4 (fld w 3 0))) else .error .unusedField
  | 6 => if fld w 21 20 = 0
    then .ok (.tileMma (.ofNat 1 (fld w 31 31)) (.ofNat 2 (fld w 24 23)) (.ofNat 1 (fld w 22 22)) (.ofNat 5 (fld w 19 15)) (.ofNat 5 (fld w 14 10)) (.ofNat 4 (fld w 3 0))) else .error .unusedField
  | 7 => if fld w 21 20 = 0
    then .ok (.tileMmax (.ofNat 1 (fld w 31 31)) (.ofNat 2 (fld w 24 23)) (.ofNat 1 (fld w 22 22)) (.ofNat 5 (fld w 19 15)) (.ofNat 5 (fld w 14 10)) (.ofNat 4 (fld w 3 0))) else .error .unusedField
  | 8 => if fld w 21 20 = 0
    then .ok (.tileGmma (.ofNat 1 (fld w 31 31)) (.ofNat 2 (fld w 24 23)) (.ofNat 1 (fld w 22 22)) (.ofNat 5 (fld w 19 15)) (.ofNat 5 (fld w 14 10)) (.ofNat 4 (fld w 3 0))) else .error .unusedField
  | 9 => if fld w 21 20 = 0
    then .ok (.tileRowv (.ofNat 1 (fld w 31 31)) (.ofNat 2 (fld w 24 23)) (.ofNat 1 (fld w 22 22)) (.ofNat 5 (fld w 19 15)) (.ofNat 5 (fld w 14 10)) (.ofNat 4 (fld w 3 0))) else .error .unusedField
  | 10 => if fld w 21 20 = 0
    then .ok (.tileVrow (.ofNat 1 (fld w 31 31)) (.ofNat 2 (fld w 24 23)) (.ofNat 1 (fld w 22 22)) (.ofNat 5 (fld w 19 15)) (.ofNat 5 (fld w 14 10)) (.ofNat 4 (fld w 3 0))) else .error .unusedField
  | 11 => if fld w 21 20 = 0
    then .ok (.tileQ (.ofNat 1 (fld w 31 31)) (.ofNat 2 (fld w 24 23)) (.ofNat 1 (fld w 22 22)) (.ofNat 5 (fld w 19 15)) (.ofNat 5 (fld w 14 10)) (.ofNat 4 (fld w 3 0))) else .error .unusedField
  | 12 => if fld w 21 20 = 0 ∧ fld w 19 15 = 0 ∧ fld w 14 10 = 0 ∧ fld w 3 0 = 0
    then .ok (.tileChol (.ofNat 1 (fld w 31 31)) (.ofNat 2 (fld w 24 23)) (.ofNat 1 (fld w 22 22))) else .error .unusedField
  | 13 => if fld w 19 15 = 0 ∧ fld w 14 10 = 0 ∧ fld w 3 0 = 0
    then .ok (.tileTrsm (.ofNat 1 (fld w 31 31)) (.ofNat 2 (fld w 24 23)) (.ofNat 1 (fld w 22 22)) (.ofNat 2 (fld w 21 20))) else .error .unusedField
  | 14 => if fld w 24 20 = 0 ∧ fld w 19 15 = 0 ∧ fld w 14 10 = 0 ∧ fld w 3 0 = 0
    then .ok (.tileRel (.ofNat 1 (fld w 31 31))) else .error .unusedField
  | _ => .error .reservedMinor

/-- Major 12, format K (R31). -/
noncomputable def decodeCtr (w : Nat) : Except Reject Instr :=
  match fld w 2 0 with
  | 0 => if fld w 24 20 = 0 ∧ fld w 9 6 = 0
    then .ok (.ctrAdd (.ofNat 1 (fld w 31 31)) (.ofNat 5 (fld w 19 15)) (.ofNat 5 (fld w 14 10)) (.ofNat 3 (fld w 5 3))) else .error .unusedField
  | 1 => .ok (.ctrFadd (.ofNat 1 (fld w 31 31)) (.ofNat 5 (fld w 24 20)) (.ofNat 5 (fld w 19 15)) (.ofNat 5 (fld w 14 10)) (.ofNat 4 (fld w 9 6)) (.ofNat 3 (fld w 5 3)))
  | 2 => if fld w 24 20 = 0 ∧ fld w 9 6 = 0
    then .ok (.ctrWait (.ofNat 1 (fld w 31 31)) (.ofNat 5 (fld w 19 15)) (.ofNat 5 (fld w 14 10)) (.ofNat 3 (fld w 5 3))) else .error .unusedField
  | 3 => .ok (.ctrTest (.ofNat 1 (fld w 31 31)) (.ofNat 5 (fld w 24 20)) (.ofNat 5 (fld w 19 15)) (.ofNat 5 (fld w 14 10)) (.ofNat 4 (fld w 9 6)) (.ofNat 3 (fld w 5 3)))
  | 4 => if fld w 14 10 = 0 ∧ fld w 5 3 = 0
    then .ok (.ctrRead (.ofNat 1 (fld w 31 31)) (.ofNat 5 (fld w 24 20)) (.ofNat 5 (fld w 19 15)) (.ofNat 4 (fld w 9 6))) else .error .unusedField
  | 5 => if fld w 14 10 = 0 ∧ fld w 9 6 = 0
    then .ok (.ctrArrive (.ofNat 1 (fld w 31 31)) (.ofNat 5 (fld w 24 20)) (.ofNat 5 (fld w 19 15)) (.ofNat 3 (fld w 5 3))) else .error .unusedField
  | 6 => if fld w 9 6 = 0
    then .ok (.ctrAw (.ofNat 1 (fld w 31 31)) (.ofNat 5 (fld w 24 20)) (.ofNat 5 (fld w 19 15)) (.ofNat 5 (fld w 14 10)) (.ofNat 3 (fld w 5 3))) else .error .unusedField
  | 7 => if fld w 24 20 = 0 ∧ fld w 14 10 = 0 ∧ fld w 9 6 = 0
    then .ok (.ctrReset (.ofNat 1 (fld w 31 31)) (.ofNat 5 (fld w 19 15)) (.ofNat 3 (fld w 5 3))) else .error .unusedField
  | _ => .error .reservedMinor

/-- Major 13, format K (R31). -/
noncomputable def decodeCtrx (w : Nat) : Except Reject Instr :=
  match fld w 2 0 with
  | 0 => if fld w 9 6 = 0
    then .ok (.ctrVadd (.ofNat 1 (fld w 31 31)) (.ofNat 5 (fld w 24 20)) (.ofNat 5 (fld w 19 15)) (.ofNat 5 (fld w 14 10)) (.ofNat 3 (fld w 5 3))) else .error .unusedField
  | 1 => if fld w 9 3 = 0
    then .ok (.ctrArm (.ofNat 1 (fld w 31 31)) (.ofNat 5 (fld w 24 20)) (.ofNat 5 (fld w 19 15)) (.ofNat 5 (fld w 14 10))) else .error .unusedField
  | 2 => if fld w 5 3 = 0
    then .ok (.ctrHome (.ofNat 1 (fld w 31 31)) (.ofNat 5 (fld w 24 20)) (.ofNat 5 (fld w 19 15)) (.ofNat 5 (fld w 14 10)) (.ofNat 4 (fld w 9 6))) else .error .unusedField
  | _ => .error .reservedMinor

/-- Major 14, format R (R31). -/
noncomputable def decodeGrp (w : Nat) : Except Reject Instr :=
  match fld w 9 4 with
  | 0 => if fld w 14 10 = 0 ∧ fld w 3 0 = 0
    then .ok (.grpNew (.ofNat 1 (fld w 31 31)) (.ofNat 5 (fld w 24 20)) (.ofNat 5 (fld w 19 15))) else .error .unusedField
  | 1 => if fld w 3 0 = 0
    then .ok (.grpJoin (.ofNat 1 (fld w 31 31)) (.ofNat 5 (fld w 24 20)) (.ofNat 5 (fld w 19 15)) (.ofNat 5 (fld w 14 10))) else .error .unusedField
  | 2 => if fld w 19 15 = 0 ∧ fld w 14 10 = 0 ∧ fld w 3 0 = 0
    then .ok (.grpLeave (.ofNat 1 (fld w 31 31)) (.ofNat 5 (fld w 24 20))) else .error .unusedField
  | 3 => if fld w 14 10 = 0 ∧ fld w 3 0 = 0
    then .ok (.grpSize (.ofNat 1 (fld w 31 31)) (.ofNat 5 (fld w 24 20)) (.ofNat 5 (fld w 19 15))) else .error .unusedField
  | 4 => if fld w 19 15 = 0 ∧ fld w 14 10 = 0 ∧ fld w 3 0 = 0
    then .ok (.grpRank (.ofNat 1 (fld w 31 31)) (.ofNat 5 (fld w 24 20))) else .error .unusedField
  | 5 => if fld w 14 10 = 0 ∧ fld w 3 0 = 0
    then .ok (.grpPin (.ofNat 1 (fld w 31 31)) (.ofNat 5 (fld w 24 20)) (.ofNat 5 (fld w 19 15))) else .error .unusedField
  | 6 => if fld w 14 10 = 0 ∧ fld w 3 0 = 0
    then .ok (.grpUnpin (.ofNat 1 (fld w 31 31)) (.ofNat 5 (fld w 24 20)) (.ofNat 5 (fld w 19 15))) else .error .unusedField
  | 7 => if fld w 3 0 = 0
    then .ok (.grpMcast (.ofNat 1 (fld w 31 31)) (.ofNat 5 (fld w 24 20)) (.ofNat 5 (fld w 19 15)) (.ofNat 5 (fld w 14 10))) else .error .unusedField
  | 8 => if fld w 3 0 = 0
    then .ok (.grpStop (.ofNat 1 (fld w 31 31)) (.ofNat 5 (fld w 24 20)) (.ofNat 5 (fld w 19 15)) (.ofNat 5 (fld w 14 10))) else .error .unusedField
  | 9 => if fld w 14 10 = 0 ∧ fld w 3 0 = 0
    then .ok (.grpGo (.ofNat 1 (fld w 31 31)) (.ofNat 5 (fld w 24 20)) (.ofNat 5 (fld w 19 15))) else .error .unusedField
  | 10 => if fld w 14 10 = 0 ∧ fld w 3 0 = 0
    then .ok (.grpKill (.ofNat 1 (fld w 31 31)) (.ofNat 5 (fld w 24 20)) (.ofNat 5 (fld w 19 15))) else .error .unusedField
  | _ => .error .reservedMinor

/-- Major 16, format R (R31). -/
noncomputable def decodeXfer (w : Nat) : Except Reject Instr :=
  match fld w 9 4 with
  | 0 => if fld w 3 0 = 0
    then .ok (.xferCopy (.ofNat 1 (fld w 31 31)) (.ofNat 5 (fld w 24 20)) (.ofNat 5 (fld w 19 15)) (.ofNat 5 (fld w 14 10))) else .error .unusedField
  | 1 => if fld w 3 0 = 0
    then .ok (.xferTensor (.ofNat 1 (fld w 31 31)) (.ofNat 5 (fld w 24 20)) (.ofNat 5 (fld w 19 15)) (.ofNat 5 (fld w 14 10))) else .error .unusedField
  | 2 => if fld w 3 0 = 0
    then .ok (.xferMcast (.ofNat 1 (fld w 31 31)) (.ofNat 5 (fld w 24 20)) (.ofNat 5 (fld w 19 15)) (.ofNat 5 (fld w 14 10))) else .error .unusedField
  | 3 => if fld w 3 0 = 0
    then .ok (.xferFill (.ofNat 1 (fld w 31 31)) (.ofNat 5 (fld w 24 20)) (.ofNat 5 (fld w 19 15)) (.ofNat 5 (fld w 14 10))) else .error .unusedField
  | 4 => if fld w 3 0 = 0
    then .ok (.xferSend (.ofNat 1 (fld w 31 31)) (.ofNat 5 (fld w 24 20)) (.ofNat 5 (fld w 19 15)) (.ofNat 5 (fld w 14 10))) else .error .unusedField
  | _ => .error .reservedMinor

/-- Major 17, format R (R31). -/
noncomputable def decodeQue (w : Nat) : Except Reject Instr :=
  match fld w 9 4 with
  | 0 => if fld w 3 0 = 0
    then .ok (.qLaunch (.ofNat 1 (fld w 31 31)) (.ofNat 5 (fld w 24 20)) (.ofNat 5 (fld w 19 15)) (.ofNat 5 (fld w 14 10))) else .error .unusedField
  | 1 => if fld w 3 0 = 0
    then .ok (.qCall (.ofNat 1 (fld w 31 31)) (.ofNat 5 (fld w 24 20)) (.ofNat 5 (fld w 19 15)) (.ofNat 5 (fld w 14 10))) else .error .unusedField
  | 2 => if fld w 3 0 = 0
    then .ok (.qTake (.ofNat 1 (fld w 31 31)) (.ofNat 5 (fld w 24 20)) (.ofNat 5 (fld w 19 15)) (.ofNat 5 (fld w 14 10))) else .error .unusedField
  | 3 => if fld w 3 0 = 0
    then .ok (.qDone (.ofNat 1 (fld w 31 31)) (.ofNat 5 (fld w 24 20)) (.ofNat 5 (fld w 19 15)) (.ofNat 5 (fld w 14 10))) else .error .unusedField
  | _ => .error .reservedMinor

/-- Major 18, format R (R31). -/
noncomputable def decodeAmo (w : Nat) : Except Reject Instr :=
  match fld w 9 4 with
  | 0 => .ok (.amoAdd (.ofNat 1 (fld w 31 31)) (.ofNat 5 (fld w 24 20)) (.ofNat 5 (fld w 19 15)) (.ofNat 5 (fld w 14 10)) (.ofNat 4 (fld w 3 0)))
  | 1 => .ok (.amoAnd (.ofNat 1 (fld w 31 31)) (.ofNat 5 (fld w 24 20)) (.ofNat 5 (fld w 19 15)) (.ofNat 5 (fld w 14 10)) (.ofNat 4 (fld w 3 0)))
  | 2 => .ok (.amoOr (.ofNat 1 (fld w 31 31)) (.ofNat 5 (fld w 24 20)) (.ofNat 5 (fld w 19 15)) (.ofNat 5 (fld w 14 10)) (.ofNat 4 (fld w 3 0)))
  | 3 => .ok (.amoXor (.ofNat 1 (fld w 31 31)) (.ofNat 5 (fld w 24 20)) (.ofNat 5 (fld w 19 15)) (.ofNat 5 (fld w 14 10)) (.ofNat 4 (fld w 3 0)))
  | 4 => .ok (.amoMin (.ofNat 1 (fld w 31 31)) (.ofNat 5 (fld w 24 20)) (.ofNat 5 (fld w 19 15)) (.ofNat 5 (fld w 14 10)) (.ofNat 4 (fld w 3 0)))
  | 5 => .ok (.amoMax (.ofNat 1 (fld w 31 31)) (.ofNat 5 (fld w 24 20)) (.ofNat 5 (fld w 19 15)) (.ofNat 5 (fld w 14 10)) (.ofNat 4 (fld w 3 0)))
  | 6 => .ok (.amoMinu (.ofNat 1 (fld w 31 31)) (.ofNat 5 (fld w 24 20)) (.ofNat 5 (fld w 19 15)) (.ofNat 5 (fld w 14 10)) (.ofNat 4 (fld w 3 0)))
  | 7 => .ok (.amoMaxu (.ofNat 1 (fld w 31 31)) (.ofNat 5 (fld w 24 20)) (.ofNat 5 (fld w 19 15)) (.ofNat 5 (fld w 14 10)) (.ofNat 4 (fld w 3 0)))
  | 8 => .ok (.amoSwap (.ofNat 1 (fld w 31 31)) (.ofNat 5 (fld w 24 20)) (.ofNat 5 (fld w 19 15)) (.ofNat 5 (fld w 14 10)) (.ofNat 4 (fld w 3 0)))
  | 9 => .ok (.amoCas (.ofNat 1 (fld w 31 31)) (.ofNat 5 (fld w 24 20)) (.ofNat 5 (fld w 19 15)) (.ofNat 5 (fld w 14 10)) (.ofNat 4 (fld w 3 0)))
  | 10 => .ok (.amoFadd (.ofNat 1 (fld w 31 31)) (.ofNat 5 (fld w 24 20)) (.ofNat 5 (fld w 19 15)) (.ofNat 5 (fld w 14 10)) (.ofNat 4 (fld w 3 0)))
  | 11 => if fld w 24 20 = 0
    then .ok (.redAdd (.ofNat 1 (fld w 31 31)) (.ofNat 5 (fld w 19 15)) (.ofNat 5 (fld w 14 10)) (.ofNat 4 (fld w 3 0))) else .error .unusedField
  | 12 => if fld w 24 20 = 0
    then .ok (.redFadd (.ofNat 1 (fld w 31 31)) (.ofNat 5 (fld w 19 15)) (.ofNat 5 (fld w 14 10)) (.ofNat 4 (fld w 3 0))) else .error .unusedField
  | 13 => if fld w 24 20 = 0
    then .ok (.redMin (.ofNat 1 (fld w 31 31)) (.ofNat 5 (fld w 19 15)) (.ofNat 5 (fld w 14 10)) (.ofNat 4 (fld w 3 0))) else .error .unusedField
  | 14 => if fld w 24 20 = 0
    then .ok (.redMax (.ofNat 1 (fld w 31 31)) (.ofNat 5 (fld w 19 15)) (.ofNat 5 (fld w 14 10)) (.ofNat 4 (fld w 3 0))) else .error .unusedField
  | _ => .error .reservedMinor

/-- Major 19, format R (R31). -/
noncomputable def decodeMem (w : Nat) : Except Reject Instr :=
  match fld w 9 4 with
  | 0 => if fld w 24 20 = 0 ∧ fld w 19 15 = 0 ∧ fld w 3 0 = 0
    then .ok (.fence (.ofNat 1 (fld w 31 31)) (.ofNat 5 (fld w 14 10))) else .error .unusedField
  | 1 => if fld w 24 20 = 0 ∧ fld w 19 15 = 0 ∧ fld w 14 10 = 0 ∧ fld w 3 0 = 0
    then .ok (.stDrain (.ofNat 1 (fld w 31 31))) else .error .unusedField
  | 2 => if fld w 24 20 = 0 ∧ fld w 3 0 = 0
    then .ok (.lineInv (.ofNat 1 (fld w 31 31)) (.ofNat 5 (fld w 19 15)) (.ofNat 5 (fld w 14 10))) else .error .unusedField
  | 3 => if fld w 24 20 = 0 ∧ fld w 3 0 = 0
    then .ok (.lineWb (.ofNat 1 (fld w 31 31)) (.ofNat 5 (fld w 19 15)) (.ofNat 5 (fld w 14 10))) else .error .unusedField
  | 4 => if fld w 24 20 = 0 ∧ fld w 3 0 = 0
    then .ok (.pref (.ofNat 1 (fld w 31 31)) (.ofNat 5 (fld w 19 15)) (.ofNat 5 (fld w 14 10))) else .error .unusedField
  | 5 => if fld w 14 10 = 0 ∧ fld w 3 0 = 0
    then .ok (.haloDecl (.ofNat 1 (fld w 31 31)) (.ofNat 5 (fld w 24 20)) (.ofNat 5 (fld w 19 15))) else .error .unusedField
  | 6 => if fld w 24 20 = 0 ∧ fld w 14 10 = 0 ∧ fld w 3 0 = 0
    then .ok (.haloDrop (.ofNat 1 (fld w 31 31)) (.ofNat 5 (fld w 19 15))) else .error .unusedField
  | 7 => if fld w 24 20 = 0 ∧ fld w 14 10 = 0 ∧ fld w 3 0 = 0
    then .ok (.haloPush (.ofNat 1 (fld w 31 31)) (.ofNat 5 (fld w 19 15))) else .error .unusedField
  | _ => .error .reservedMinor

/-- Major 20, format R (R31). -/
noncomputable def decodeXlat (w : Nat) : Except Reject Instr :=
  match fld w 9 4 with
  | 0 => if fld w 24 20 = 0 ∧ fld w 19 15 = 0 ∧ fld w 14 10 = 0 ∧ fld w 3 0 = 0
    then .ok (.vmFence (.ofNat 1 (fld w 31 31))) else .error .unusedField
  | 1 => if fld w 24 20 = 0 ∧ fld w 3 0 = 0
    then .ok (.vmInv (.ofNat 1 (fld w 31 31)) (.ofNat 5 (fld w 19 15)) (.ofNat 5 (fld w 14 10))) else .error .unusedField
  | 2 => if fld w 24 20 = 0 ∧ fld w 3 0 = 0
    then .ok (.vmGinv (.ofNat 1 (fld w 31 31)) (.ofNat 5 (fld w 19 15)) (.ofNat 5 (fld w 14 10))) else .error .unusedField
  | 3 => if fld w 3 0 = 0
    then .ok (.vmProbe (.ofNat 1 (fld w 31 31)) (.ofNat 5 (fld w 24 20)) (.ofNat 5 (fld w 19 15)) (.ofNat 5 (fld w 14 10))) else .error .unusedField
  | _ => .error .reservedMinor

/-- Major 21, format R (R31). -/
noncomputable def decodeCtx (w : Nat) : Except Reject Instr :=
  match fld w 9 4 with
  | 0 => if fld w 14 10 = 0 ∧ fld w 3 0 = 0
    then .ok (.ctxSeal (.ofNat 1 (fld w 31 31)) (.ofNat 5 (fld w 24 20)) (.ofNat 5 (fld w 19 15))) else .error .unusedField
  | 1 => if fld w 14 10 = 0 ∧ fld w 3 0 = 0
    then .ok (.ctxUnseal (.ofNat 1 (fld w 31 31)) (.ofNat 5 (fld w 24 20)) (.ofNat 5 (fld w 19 15))) else .error .unusedField
  | 2 => if fld w 3 0 = 0
    then .ok (.ctxExtend (.ofNat 1 (fld w 31 31)) (.ofNat 5 (fld w 24 20)) (.ofNat 5 (fld w 19 15)) (.ofNat 5 (fld w 14 10))) else .error .unusedField
  | 3 => if fld w 3 0 = 0
    then .ok (.ctxQuote (.ofNat 1 (fld w 31 31)) (.ofNat 5 (fld w 24 20)) (.ofNat 5 (fld w 19 15)) (.ofNat 5 (fld w 14 10))) else .error .unusedField
  | _ => .error .reservedMinor

/-- The instruction of a 32-bit word, by its major opcode in bits [30:25] (R20, R31, R32). -/
noncomputable def decodeWord (w : Nat) : Except Reject Instr :=
  match fld w 30 25 with
  | 0 => decodeSys w
  | 1 => decodeSreg w
  | 2 => decodeBr w
  | 3 => decodeJal w
  | 4 => decodeJalr w
  | 5 => decodeLd w
  | 6 => decodeSt w
  | 7 => decodePcadd w
  | 34 => decodeLdhi w
  | 32 => decodeIalu w
  | 33 => decodeIalui w
  | 35 => decodeFp w
  | 15 => decodeThr w
  | 8 => decodeVcfg w
  | 9 => decodeVld w
  | 10 => decodeVst w
  | 36 => decodeVint w
  | 37 => decodeVfp w
  | 38 => decodeVcmp w
  | 39 => decodeVmsk w
  | 40 => decodeVred w
  | 41 => decodeVperm w
  | 42 => decodeVcvt w
  | 11 => decodeTile w
  | 12 => decodeCtr w
  | 13 => decodeCtrx w
  | 14 => decodeGrp w
  | 16 => decodeXfer w
  | 17 => decodeQue w
  | 18 => decodeAmo w
  | 19 => decodeMem w
  | 20 => decodeXlat w
  | 21 => decodeCtx w
  | _ => .error .reservedMajor

/-- Bytes as a number, the least significant byte first (R3). -/
def leNat : List Byte → Nat
  | [] => 0
  | b :: bs => b.toNat + 256 * leNat bs

/-- The low `n` bytes of a number, the least significant byte first (R3). -/
def natLe : Nat → Nat → List Byte
  | 0, _ => []
  | n + 1, w => BitVec.ofNat 8 w :: natLe n (w / 256)

/-- One instruction from the front of a list of bytes, with the bytes after it. -/
noncomputable def decode : List Byte → Except Reject (Instr × List Byte)
  | b0 :: b1 :: b2 :: b3 :: rest =>
    match decodeWord (leNat [b0, b1, b2, b3]) with
    | .ok i => .ok (i, rest)
    | .error e => .error e
  | _ => .error .tooShort

/-- The instruction that the decoder reads from the table's number `w` of `nbits` bits, bit 0 the least significant
bit of the word: the word is laid out in memory order and decoded. -/
noncomputable def decodeTableWord (nbits w : Nat) : Option Instr :=
  match decode (natLe 4 (w % 2 ^ nbits)) with
  | .ok (i, _) => some i
  | .error _ => none


/-! ### The encoder: the word of each instruction, from the fields of its format (R26) and the opcode tables (R31-R33) -/

def wordSvc : Nat := 0x0
def wordBrk : Nat := 0x10
def wordTret : Nat := 0x20
def wordPause (a : BitVec 5) : Nat := 0x30 + a.toNat * 0x8000
def wordSread (p : BitVec 1) (d : BitVec 5) (imm : BitVec 12) : Nat :=
  0x2000000 + p.toNat * 0x80000000 + d.toNat * 0x100000 + imm.toNat
def wordSwrite (p : BitVec 1) (d a : BitVec 5) (imm : BitVec 12) : Nat :=
  0x2001000 + p.toNat * 0x80000000 + d.toNat * 0x100000 + a.toNat * 0x8000 + imm.toNat
def wordSset (p : BitVec 1) (d a : BitVec 5) (imm : BitVec 12) : Nat :=
  0x2002000 + p.toNat * 0x80000000 + d.toNat * 0x100000 + a.toNat * 0x8000 + imm.toNat
def wordSclr (p : BitVec 1) (d a : BitVec 5) (imm : BitVec 12) : Nat :=
  0x2003000 + p.toNat * 0x80000000 + d.toNat * 0x100000 + a.toNat * 0x8000 + imm.toNat
def wordBeq (p : BitVec 1) (a b : BitVec 5) (off : BitVec 12) : Nat :=
  0x4000000 + p.toNat * 0x80000000 + a.toNat * 0x100000 + b.toNat * 0x8000 + off.toNat
def wordBne (p : BitVec 1) (a b : BitVec 5) (off : BitVec 12) : Nat :=
  0x4001000 + p.toNat * 0x80000000 + a.toNat * 0x100000 + b.toNat * 0x8000 + off.toNat
def wordBlt (p : BitVec 1) (a b : BitVec 5) (off : BitVec 12) : Nat :=
  0x4002000 + p.toNat * 0x80000000 + a.toNat * 0x100000 + b.toNat * 0x8000 + off.toNat
def wordBge (p : BitVec 1) (a b : BitVec 5) (off : BitVec 12) : Nat :=
  0x4003000 + p.toNat * 0x80000000 + a.toNat * 0x100000 + b.toNat * 0x8000 + off.toNat
def wordBltu (p : BitVec 1) (a b : BitVec 5) (off : BitVec 12) : Nat :=
  0x4004000 + p.toNat * 0x80000000 + a.toNat * 0x100000 + b.toNat * 0x8000 + off.toNat
def wordBgeu (p : BitVec 1) (a b : BitVec 5) (off : BitVec 12) : Nat :=
  0x4005000 + p.toNat * 0x80000000 + a.toNat * 0x100000 + b.toNat * 0x8000 + off.toNat
def wordJal (p : BitVec 1) (d : BitVec 5) (off : BitVec 20) : Nat :=
  0x6000000 + p.toNat * 0x80000000 + d.toNat * 0x100000 + off.toNat
def wordJalr (p : BitVec 1) (d a : BitVec 5) (imm : BitVec 12) : Nat :=
  0x8000000 + p.toNat * 0x80000000 + d.toNat * 0x100000 + a.toNat * 0x8000 + imm.toNat
def wordLdb (p : BitVec 1) (d a : BitVec 5) (la : BitVec 4) (imm : BitVec 8) : Nat :=
  0xa000000 + p.toNat * 0x80000000 + d.toNat * 0x100000 + a.toNat * 0x8000 + la.toNat * 0x100 + imm.toNat
def wordLdh (p : BitVec 1) (d a : BitVec 5) (la : BitVec 4) (imm : BitVec 8) : Nat :=
  0xa001000 + p.toNat * 0x80000000 + d.toNat * 0x100000 + a.toNat * 0x8000 + la.toNat * 0x100 + imm.toNat
def wordLdw (p : BitVec 1) (d a : BitVec 5) (la : BitVec 4) (imm : BitVec 8) : Nat :=
  0xa002000 + p.toNat * 0x80000000 + d.toNat * 0x100000 + a.toNat * 0x8000 + la.toNat * 0x100 + imm.toNat
def wordLdd (p : BitVec 1) (d a : BitVec 5) (la : BitVec 4) (imm : BitVec 8) : Nat :=
  0xa003000 + p.toNat * 0x80000000 + d.toNat * 0x100000 + a.toNat * 0x8000 + la.toNat * 0x100 + imm.toNat
def wordLdbu (p : BitVec 1) (d a : BitVec 5) (la : BitVec 4) (imm : BitVec 8) : Nat :=
  0xa004000 + p.toNat * 0x80000000 + d.toNat * 0x100000 + a.toNat * 0x8000 + la.toNat * 0x100 + imm.toNat
def wordLdhu (p : BitVec 1) (d a : BitVec 5) (la : BitVec 4) (imm : BitVec 8) : Nat :=
  0xa005000 + p.toNat * 0x80000000 + d.toNat * 0x100000 + a.toNat * 0x8000 + la.toNat * 0x100 + imm.toNat
def wordLdwu (p : BitVec 1) (d a : BitVec 5) (la : BitVec 4) (imm : BitVec 8) : Nat :=
  0xa006000 + p.toNat * 0x80000000 + d.toNat * 0x100000 + a.toNat * 0x8000 + la.toNat * 0x100 + imm.toNat
def wordStb (p : BitVec 1) (d a : BitVec 5) (imm : BitVec 8) : Nat :=
  0xc000000 + p.toNat * 0x80000000 + d.toNat * 0x100000 + a.toNat * 0x8000 + imm.toNat
def wordSth (p : BitVec 1) (d a : BitVec 5) (imm : BitVec 8) : Nat :=
  0xc001000 + p.toNat * 0x80000000 + d.toNat * 0x100000 + a.toNat * 0x8000 + imm.toNat
def wordStw (p : BitVec 1) (d a : BitVec 5) (imm : BitVec 8) : Nat :=
  0xc002000 + p.toNat * 0x80000000 + d.toNat * 0x100000 + a.toNat * 0x8000 + imm.toNat
def wordStd (p : BitVec 1) (d a : BitVec 5) (imm : BitVec 8) : Nat :=
  0xc003000 + p.toNat * 0x80000000 + d.toNat * 0x100000 + a.toNat * 0x8000 + imm.toNat
def wordPcadd (p : BitVec 1) (d : BitVec 5) (imm : BitVec 20) : Nat :=
  0xe000000 + p.toNat * 0x80000000 + d.toNat * 0x100000 + imm.toNat
def wordLdhi (d : BitVec 5) (imm : BitVec 20) : Nat := 0x44000000 + d.toNat * 0x100000 + imm.toNat
def wordAdd (d a b : BitVec 5) : Nat := 0x40000000 + d.toNat * 0x100000 + a.toNat * 0x8000 + b.toNat * 0x400
def wordSub (d a b : BitVec 5) : Nat := 0x40000010 + d.toNat * 0x100000 + a.toNat * 0x8000 + b.toNat * 0x400
def wordAnd (d a b : BitVec 5) : Nat := 0x40000020 + d.toNat * 0x100000 + a.toNat * 0x8000 + b.toNat * 0x400
def wordOr (d a b : BitVec 5) : Nat := 0x40000030 + d.toNat * 0x100000 + a.toNat * 0x8000 + b.toNat * 0x400
def wordXor (d a b : BitVec 5) : Nat := 0x40000040 + d.toNat * 0x100000 + a.toNat * 0x8000 + b.toNat * 0x400
def wordAndn (d a b : BitVec 5) : Nat := 0x40000050 + d.toNat * 0x100000 + a.toNat * 0x8000 + b.toNat * 0x400
def wordOrn (d a b : BitVec 5) : Nat := 0x40000060 + d.toNat * 0x100000 + a.toNat * 0x8000 + b.toNat * 0x400
def wordSll (d a b : BitVec 5) : Nat := 0x40000070 + d.toNat * 0x100000 + a.toNat * 0x8000 + b.toNat * 0x400
def wordSrl (d a b : BitVec 5) : Nat := 0x40000080 + d.toNat * 0x100000 + a.toNat * 0x8000 + b.toNat * 0x400
def wordSra (d a b : BitVec 5) : Nat := 0x40000090 + d.toNat * 0x100000 + a.toNat * 0x8000 + b.toNat * 0x400
def wordSlt (d a b : BitVec 5) : Nat := 0x400000a0 + d.toNat * 0x100000 + a.toNat * 0x8000 + b.toNat * 0x400
def wordSltu (d a b : BitVec 5) : Nat := 0x400000b0 + d.toNat * 0x100000 + a.toNat * 0x8000 + b.toNat * 0x400
def wordMin (d a b : BitVec 5) : Nat := 0x400000c0 + d.toNat * 0x100000 + a.toNat * 0x8000 + b.toNat * 0x400
def wordMax (d a b : BitVec 5) : Nat := 0x400000d0 + d.toNat * 0x100000 + a.toNat * 0x8000 + b.toNat * 0x400
def wordMinu (d a b : BitVec 5) : Nat := 0x400000e0 + d.toNat * 0x100000 + a.toNat * 0x8000 + b.toNat * 0x400
def wordMaxu (d a b : BitVec 5) : Nat := 0x400000f0 + d.toNat * 0x100000 + a.toNat * 0x8000 + b.toNat * 0x400
def wordMul (d a b : BitVec 5) : Nat := 0x40000100 + d.toNat * 0x100000 + a.toNat * 0x8000 + b.toNat * 0x400
def wordMulh (d a b : BitVec 5) (q : BitVec 4) : Nat :=
  0x40000110 + d.toNat * 0x100000 + a.toNat * 0x8000 + b.toNat * 0x400 + q.toNat
def wordMulhu (d a b : BitVec 5) (q : BitVec 4) : Nat :=
  0x40000120 + d.toNat * 0x100000 + a.toNat * 0x8000 + b.toNat * 0x400 + q.toNat
def wordDiv (d a b : BitVec 5) (q : BitVec 4) : Nat :=
  0x40000130 + d.toNat * 0x100000 + a.toNat * 0x8000 + b.toNat * 0x400 + q.toNat
def wordDivu (d a b : BitVec 5) (q : BitVec 4) : Nat :=
  0x40000140 + d.toNat * 0x100000 + a.toNat * 0x8000 + b.toNat * 0x400 + q.toNat
def wordRem (d a b : BitVec 5) (q : BitVec 4) : Nat :=
  0x40000150 + d.toNat * 0x100000 + a.toNat * 0x8000 + b.toNat * 0x400 + q.toNat
def wordRemu (d a b : BitVec 5) (q : BitVec 4) : Nat :=
  0x40000160 + d.toNat * 0x100000 + a.toNat * 0x8000 + b.toNat * 0x400 + q.toNat
def wordAddw (d a b : BitVec 5) : Nat := 0x40000170 + d.toNat * 0x100000 + a.toNat * 0x8000 + b.toNat * 0x400
def wordSubw (d a b : BitVec 5) : Nat := 0x40000180 + d.toNat * 0x100000 + a.toNat * 0x8000 + b.toNat * 0x400
def wordClz (d a : BitVec 5) : Nat := 0x40000190 + d.toNat * 0x100000 + a.toNat * 0x8000
def wordCtz (d a : BitVec 5) : Nat := 0x400001a0 + d.toNat * 0x100000 + a.toNat * 0x8000
def wordCpop (d a : BitVec 5) : Nat := 0x400001b0 + d.toNat * 0x100000 + a.toNat * 0x8000
def wordRol (d a b : BitVec 5) : Nat := 0x400001c0 + d.toNat * 0x100000 + a.toNat * 0x8000 + b.toNat * 0x400
def wordRor (d a b : BitVec 5) : Nat := 0x400001d0 + d.toNat * 0x100000 + a.toNat * 0x8000 + b.toNat * 0x400
def wordAddi (d a : BitVec 5) (imm : BitVec 12) : Nat :=
  0x42000000 + d.toNat * 0x100000 + a.toNat * 0x8000 + imm.toNat
def wordSlti (d a : BitVec 5) (imm : BitVec 12) : Nat :=
  0x42001000 + d.toNat * 0x100000 + a.toNat * 0x8000 + imm.toNat
def wordSltiu (d a : BitVec 5) (imm : BitVec 12) : Nat :=
  0x42002000 + d.toNat * 0x100000 + a.toNat * 0x8000 + imm.toNat
def wordXori (d a : BitVec 5) (imm : BitVec 12) : Nat :=
  0x42003000 + d.toNat * 0x100000 + a.toNat * 0x8000 + imm.toNat
def wordOri (d a : BitVec 5) (imm : BitVec 12) : Nat := 0x42004000 + d.toNat * 0x100000 + a.toNat * 0x8000 + imm.toNat
def wordAndi (d a : BitVec 5) (imm : BitVec 12) : Nat :=
  0x42005000 + d.toNat * 0x100000 + a.toNat * 0x8000 + imm.toNat
def wordSlli (d a : BitVec 5) (sh : BitVec 6) : Nat := 0x42006000 + d.toNat * 0x100000 + a.toNat * 0x8000 + sh.toNat
def wordSrli (d a : BitVec 5) (sh : BitVec 6) : Nat := 0x42006400 + d.toNat * 0x100000 + a.toNat * 0x8000 + sh.toNat
def wordSrai (d a : BitVec 5) (sh : BitVec 6) : Nat := 0x42006800 + d.toNat * 0x100000 + a.toNat * 0x8000 + sh.toNat
def wordAddiw (d a : BitVec 5) (imm : BitVec 12) : Nat :=
  0x42007000 + d.toNat * 0x100000 + a.toNat * 0x8000 + imm.toNat
def wordFaddS (d a b : BitVec 5) : Nat := 0x46000000 + d.toNat * 0x100000 + a.toNat * 0x8000 + b.toNat * 0x400
def wordFsubS (d a b : BitVec 5) : Nat := 0x46000010 + d.toNat * 0x100000 + a.toNat * 0x8000 + b.toNat * 0x400
def wordFmulS (d a b : BitVec 5) : Nat := 0x46000020 + d.toNat * 0x100000 + a.toNat * 0x8000 + b.toNat * 0x400
def wordFdivS (d a b : BitVec 5) (q : BitVec 4) : Nat :=
  0x46000030 + d.toNat * 0x100000 + a.toNat * 0x8000 + b.toNat * 0x400 + q.toNat
def wordFsqrtS (d a : BitVec 5) (q : BitVec 4) : Nat := 0x46000040 + d.toNat * 0x100000 + a.toNat * 0x8000 + q.toNat
def wordFminS (d a b : BitVec 5) : Nat := 0x46000050 + d.toNat * 0x100000 + a.toNat * 0x8000 + b.toNat * 0x400
def wordFmaxS (d a b : BitVec 5) : Nat := 0x46000060 + d.toNat * 0x100000 + a.toNat * 0x8000 + b.toNat * 0x400
def wordFmaddS (d a b : BitVec 5) : Nat := 0x46000070 + d.toNat * 0x100000 + a.toNat * 0x8000 + b.toNat * 0x400
def wordFeqS (d a b : BitVec 5) : Nat := 0x46000080 + d.toNat * 0x100000 + a.toNat * 0x8000 + b.toNat * 0x400
def wordFltS (d a b : BitVec 5) : Nat := 0x46000090 + d.toNat * 0x100000 + a.toNat * 0x8000 + b.toNat * 0x400
def wordFleS (d a b : BitVec 5) : Nat := 0x460000a0 + d.toNat * 0x100000 + a.toNat * 0x8000 + b.toNat * 0x400
def wordFclassS (d a : BitVec 5) : Nat := 0x460000b0 + d.toNat * 0x100000 + a.toNat * 0x8000
def wordFcvtSd (d a : BitVec 5) : Nat := 0x460000c0 + d.toNat * 0x100000 + a.toNat * 0x8000
def wordFcvtDs (d a : BitVec 5) : Nat := 0x460000d0 + d.toNat * 0x100000 + a.toNat * 0x8000
def wordFcvtSl (d a : BitVec 5) : Nat := 0x460000e0 + d.toNat * 0x100000 + a.toNat * 0x8000
def wordFcvtLs (d a : BitVec 5) : Nat := 0x460000f0 + d.toNat * 0x100000 + a.toNat * 0x8000
def wordFcvtDl (d a : BitVec 5) : Nat := 0x46000100 + d.toNat * 0x100000 + a.toNat * 0x8000
def wordFcvtLd (d a : BitVec 5) : Nat := 0x46000110 + d.toNat * 0x100000 + a.toNat * 0x8000
def wordFaddD (d a b : BitVec 5) : Nat := 0x46000200 + d.toNat * 0x100000 + a.toNat * 0x8000 + b.toNat * 0x400
def wordFsubD (d a b : BitVec 5) : Nat := 0x46000210 + d.toNat * 0x100000 + a.toNat * 0x8000 + b.toNat * 0x400
def wordFmulD (d a b : BitVec 5) : Nat := 0x46000220 + d.toNat * 0x100000 + a.toNat * 0x8000 + b.toNat * 0x400
def wordFdivD (d a b : BitVec 5) (q : BitVec 4) : Nat :=
  0x46000230 + d.toNat * 0x100000 + a.toNat * 0x8000 + b.toNat * 0x400 + q.toNat
def wordFsqrtD (d a : BitVec 5) (q : BitVec 4) : Nat := 0x46000240 + d.toNat * 0x100000 + a.toNat * 0x8000 + q.toNat
def wordFminD (d a b : BitVec 5) : Nat := 0x46000250 + d.toNat * 0x100000 + a.toNat * 0x8000 + b.toNat * 0x400
def wordFmaxD (d a b : BitVec 5) : Nat := 0x46000260 + d.toNat * 0x100000 + a.toNat * 0x8000 + b.toNat * 0x400
def wordFmaddD (d a b : BitVec 5) : Nat := 0x46000270 + d.toNat * 0x100000 + a.toNat * 0x8000 + b.toNat * 0x400
def wordFeqD (d a b : BitVec 5) : Nat := 0x46000280 + d.toNat * 0x100000 + a.toNat * 0x8000 + b.toNat * 0x400
def wordFltD (d a b : BitVec 5) : Nat := 0x46000290 + d.toNat * 0x100000 + a.toNat * 0x8000 + b.toNat * 0x400
def wordFleD (d a b : BitVec 5) : Nat := 0x460002a0 + d.toNat * 0x100000 + a.toNat * 0x8000 + b.toNat * 0x400
def wordFclassD (d a : BitVec 5) : Nat := 0x460002b0 + d.toNat * 0x100000 + a.toNat * 0x8000
def wordThrSpawn (p : BitVec 1) (d a b : BitVec 5) : Nat :=
  0x1e000000 + p.toNat * 0x80000000 + d.toNat * 0x100000 + a.toNat * 0x8000 + b.toNat * 0x400
def wordThrEnd (p : BitVec 1) : Nat := 0x1e000010 + p.toNat * 0x80000000
def wordThrSelf (p : BitVec 1) (d : BitVec 5) : Nat := 0x1e000020 + p.toNat * 0x80000000 + d.toNat * 0x100000
def wordThrStop (p : BitVec 1) (d a : BitVec 5) : Nat :=
  0x1e000030 + p.toNat * 0x80000000 + d.toNat * 0x100000 + a.toNat * 0x8000
def wordThrGo (p : BitVec 1) (d a : BitVec 5) : Nat :=
  0x1e000040 + p.toNat * 0x80000000 + d.toNat * 0x100000 + a.toNat * 0x8000
def wordThrSave (p : BitVec 1) (d a b : BitVec 5) : Nat :=
  0x1e000050 + p.toNat * 0x80000000 + d.toNat * 0x100000 + a.toNat * 0x8000 + b.toNat * 0x400
def wordThrLoad (p : BitVec 1) (d a b : BitVec 5) : Nat :=
  0x1e000060 + p.toNat * 0x80000000 + d.toNat * 0x100000 + a.toNat * 0x8000 + b.toNat * 0x400
def wordVset (p : BitVec 1) (d a : BitVec 5) (t : BitVec 4) : Nat :=
  0x10000000 + p.toNat * 0x80000000 + d.toNat * 0x100000 + a.toNat * 0x8000 + t.toNat
def wordVsetmt (p : BitVec 1) (d : BitVec 5) (t : BitVec 3) : Nat :=
  0x10001000 + p.toNat * 0x80000000 + d.toNat * 0x100000 + t.toNat
def wordVld (p : BitVec 1) (d a : BitVec 5) (ew : BitVec 2) (k : BitVec 3) : Nat :=
  0x12000000 + p.toNat * 0x80000000 + d.toNat * 0x100000 + a.toNat * 0x8000 + ew.toNat * 0x100 + k.toNat * 0x8
def wordVlds (p : BitVec 1) (d a b : BitVec 5) (ew : BitVec 2) (k : BitVec 3) : Nat :=
  0x12000001 + p.toNat * 0x80000000 + d.toNat * 0x100000 + a.toNat * 0x8000 + b.toNat * 0x400 + ew.toNat * 0x100 + k.toNat * 0x8
def wordVldx (p : BitVec 1) (d a b : BitVec 5) (ew : BitVec 2) (k : BitVec 3) : Nat :=
  0x12000002 + p.toNat * 0x80000000 + d.toNat * 0x100000 + a.toNat * 0x8000 + b.toNat * 0x400 + ew.toNat * 0x100 + k.toNat * 0x8
def wordVldff (p : BitVec 1) (d a : BitVec 5) (ew : BitVec 2) (k : BitVec 3) : Nat :=
  0x12000003 + p.toNat * 0x80000000 + d.toNat * 0x100000 + a.toNat * 0x8000 + ew.toNat * 0x100 + k.toNat * 0x8
def wordVldg (p : BitVec 1) (d a b : BitVec 5) (ew : BitVec 2) (k : BitVec 3) : Nat :=
  0x12000004 + p.toNat * 0x80000000 + d.toNat * 0x100000 + a.toNat * 0x8000 + b.toNat * 0x400 + ew.toNat * 0x100 + k.toNat * 0x8
def wordVldb (p : BitVec 1) (d a : BitVec 5) (ew : BitVec 2) (k : BitVec 3) : Nat :=
  0x12000005 + p.toNat * 0x80000000 + d.toNat * 0x100000 + a.toNat * 0x8000 + ew.toNat * 0x100 + k.toNat * 0x8
def wordVst (p : BitVec 1) (d a : BitVec 5) (ew : BitVec 2) (k : BitVec 3) : Nat :=
  0x14000000 + p.toNat * 0x80000000 + d.toNat * 0x100000 + a.toNat * 0x8000 + ew.toNat * 0x100 + k.toNat * 0x8
def wordVsts (p : BitVec 1) (d a b : BitVec 5) (ew : BitVec 2) (k : BitVec 3) : Nat :=
  0x14000001 + p.toNat * 0x80000000 + d.toNat * 0x100000 + a.toNat * 0x8000 + b.toNat * 0x400 + ew.toNat * 0x100 + k.toNat * 0x8
def wordVstx (p : BitVec 1) (d a b : BitVec 5) (ew : BitVec 2) (k : BitVec 3) : Nat :=
  0x14000002 + p.toNat * 0x80000000 + d.toNat * 0x100000 + a.toNat * 0x8000 + b.toNat * 0x400 + ew.toNat * 0x100 + k.toNat * 0x8
def wordVstxa (p : BitVec 1) (d a b : BitVec 5) (ew : BitVec 2) (k : BitVec 3) : Nat :=
  0x14000003 + p.toNat * 0x80000000 + d.toNat * 0x100000 + a.toNat * 0x8000 + b.toNat * 0x400 + ew.toNat * 0x100 + k.toNat * 0x8
def wordVstxf (p : BitVec 1) (d a b : BitVec 5) (ew : BitVec 2) (k : BitVec 3) : Nat :=
  0x14000004 + p.toNat * 0x80000000 + d.toNat * 0x100000 + a.toNat * 0x8000 + b.toNat * 0x400 + ew.toNat * 0x100 + k.toNat * 0x8
def wordVadd (d a b : BitVec 5) (k : BitVec 3) (sb : BitVec 1) : Nat :=
  0x48000000 + d.toNat * 0x100000 + a.toNat * 0x8000 + b.toNat * 0x400 + k.toNat * 0x2 + sb.toNat
def wordVsub (d a b : BitVec 5) (k : BitVec 3) (sb : BitVec 1) : Nat :=
  0x48000010 + d.toNat * 0x100000 + a.toNat * 0x8000 + b.toNat * 0x400 + k.toNat * 0x2 + sb.toNat
def wordVmul (d a b : BitVec 5) (k : BitVec 3) (sb : BitVec 1) : Nat :=
  0x48000020 + d.toNat * 0x100000 + a.toNat * 0x8000 + b.toNat * 0x400 + k.toNat * 0x2 + sb.toNat
def wordVmulh (d a b : BitVec 5) (k : BitVec 3) (sb : BitVec 1) : Nat :=
  0x48000030 + d.toNat * 0x100000 + a.toNat * 0x8000 + b.toNat * 0x400 + k.toNat * 0x2 + sb.toNat
def wordVmin (d a b : BitVec 5) (k : BitVec 3) (sb : BitVec 1) : Nat :=
  0x48000040 + d.toNat * 0x100000 + a.toNat * 0x8000 + b.toNat * 0x400 + k.toNat * 0x2 + sb.toNat
def wordVmax (d a b : BitVec 5) (k : BitVec 3) (sb : BitVec 1) : Nat :=
  0x48000050 + d.toNat * 0x100000 + a.toNat * 0x8000 + b.toNat * 0x400 + k.toNat * 0x2 + sb.toNat
def wordVminu (d a b : BitVec 5) (k : BitVec 3) (sb : BitVec 1) : Nat :=
  0x48000060 + d.toNat * 0x100000 + a.toNat * 0x8000 + b.toNat * 0x400 + k.toNat * 0x2 + sb.toNat
def wordVmaxu (d a b : BitVec 5) (k : BitVec 3) (sb : BitVec 1) : Nat :=
  0x48000070 + d.toNat * 0x100000 + a.toNat * 0x8000 + b.toNat * 0x400 + k.toNat * 0x2 + sb.toNat
def wordVand (d a b : BitVec 5) (k : BitVec 3) (sb : BitVec 1) : Nat :=
  0x48000080 + d.toNat * 0x100000 + a.toNat * 0x8000 + b.toNat * 0x400 + k.toNat * 0x2 + sb.toNat
def wordVor (d a b : BitVec 5) (k : BitVec 3) (sb : BitVec 1) : Nat :=
  0x48000090 + d.toNat * 0x100000 + a.toNat * 0x8000 + b.toNat * 0x400 + k.toNat * 0x2 + sb.toNat
def wordVxor (d a b : BitVec 5) (k : BitVec 3) (sb : BitVec 1) : Nat :=
  0x480000a0 + d.toNat * 0x100000 + a.toNat * 0x8000 + b.toNat * 0x400 + k.toNat * 0x2 + sb.toNat
def wordVsll (d a b : BitVec 5) (k : BitVec 3) (sb : BitVec 1) : Nat :=
  0x480000b0 + d.toNat * 0x100000 + a.toNat * 0x8000 + b.toNat * 0x400 + k.toNat * 0x2 + sb.toNat
def wordVsrl (d a b : BitVec 5) (k : BitVec 3) (sb : BitVec 1) : Nat :=
  0x480000c0 + d.toNat * 0x100000 + a.toNat * 0x8000 + b.toNat * 0x400 + k.toNat * 0x2 + sb.toNat
def wordVsra (d a b : BitVec 5) (k : BitVec 3) (sb : BitVec 1) : Nat :=
  0x480000d0 + d.toNat * 0x100000 + a.toNat * 0x8000 + b.toNat * 0x400 + k.toNat * 0x2 + sb.toNat
def wordVsadd (d a b : BitVec 5) (k : BitVec 3) (sb : BitVec 1) : Nat :=
  0x480000e0 + d.toNat * 0x100000 + a.toNat * 0x8000 + b.toNat * 0x400 + k.toNat * 0x2 + sb.toNat
def wordVssub (d a b : BitVec 5) (k : BitVec 3) (sb : BitVec 1) : Nat :=
  0x480000f0 + d.toNat * 0x100000 + a.toNat * 0x8000 + b.toNat * 0x400 + k.toNat * 0x2 + sb.toNat
def wordVmacc (d a b : BitVec 5) (k : BitVec 3) (sb : BitVec 1) : Nat :=
  0x48000100 + d.toNat * 0x100000 + a.toNat * 0x8000 + b.toNat * 0x400 + k.toNat * 0x2 + sb.toNat
def wordVdot4 (d a b : BitVec 5) (k : BitVec 3) (sb : BitVec 1) : Nat :=
  0x48000110 + d.toNat * 0x100000 + a.toNat * 0x8000 + b.toNat * 0x400 + k.toNat * 0x2 + sb.toNat
def wordVfadd (d a b : BitVec 5) (k : BitVec 3) (sb : BitVec 1) : Nat :=
  0x4a000000 + d.toNat * 0x100000 + a.toNat * 0x8000 + b.toNat * 0x400 + k.toNat * 0x2 + sb.toNat
def wordVfsub (d a b : BitVec 5) (k : BitVec 3) (sb : BitVec 1) : Nat :=
  0x4a000010 + d.toNat * 0x100000 + a.toNat * 0x8000 + b.toNat * 0x400 + k.toNat * 0x2 + sb.toNat
def wordVfmul (d a b : BitVec 5) (k : BitVec 3) (sb : BitVec 1) : Nat :=
  0x4a000020 + d.toNat * 0x100000 + a.toNat * 0x8000 + b.toNat * 0x400 + k.toNat * 0x2 + sb.toNat
def wordVfdiv (d a b : BitVec 5) (k : BitVec 3) (sb : BitVec 1) : Nat :=
  0x4a000030 + d.toNat * 0x100000 + a.toNat * 0x8000 + b.toNat * 0x400 + k.toNat * 0x2 + sb.toNat
def wordVfsqrt (d a : BitVec 5) (k : BitVec 3) : Nat :=
  0x4a000040 + d.toNat * 0x100000 + a.toNat * 0x8000 + k.toNat * 0x2
def wordVfmin (d a b : BitVec 5) (k : BitVec 3) (sb : BitVec 1) : Nat :=
  0x4a000050 + d.toNat * 0x100000 + a.toNat * 0x8000 + b.toNat * 0x400 + k.toNat * 0x2 + sb.toNat
def wordVfmax (d a b : BitVec 5) (k : BitVec 3) (sb : BitVec 1) : Nat :=
  0x4a000060 + d.toNat * 0x100000 + a.toNat * 0x8000 + b.toNat * 0x400 + k.toNat * 0x2 + sb.toNat
def wordVfma (d a b : BitVec 5) (k : BitVec 3) (sb : BitVec 1) : Nat :=
  0x4a000070 + d.toNat * 0x100000 + a.toNat * 0x8000 + b.toNat * 0x400 + k.toNat * 0x2 + sb.toNat
def wordVfnma (d a b : BitVec 5) (k : BitVec 3) (sb : BitVec 1) : Nat :=
  0x4a000080 + d.toNat * 0x100000 + a.toNat * 0x8000 + b.toNat * 0x400 + k.toNat * 0x2 + sb.toNat
def wordVfabs (d a : BitVec 5) (k : BitVec 3) : Nat :=
  0x4a000090 + d.toNat * 0x100000 + a.toNat * 0x8000 + k.toNat * 0x2
def wordVfneg (d a : BitVec 5) (k : BitVec 3) : Nat :=
  0x4a0000a0 + d.toNat * 0x100000 + a.toNat * 0x8000 + k.toNat * 0x2
def wordVceq (d a b : BitVec 5) (k : BitVec 3) (sb : BitVec 1) : Nat :=
  0x4c000000 + d.toNat * 0x100000 + a.toNat * 0x8000 + b.toNat * 0x400 + k.toNat * 0x2 + sb.toNat
def wordVcne (d a b : BitVec 5) (k : BitVec 3) (sb : BitVec 1) : Nat :=
  0x4c000010 + d.toNat * 0x100000 + a.toNat * 0x8000 + b.toNat * 0x400 + k.toNat * 0x2 + sb.toNat
def wordVclt (d a b : BitVec 5) (k : BitVec 3) (sb : BitVec 1) : Nat :=
  0x4c000020 + d.toNat * 0x100000 + a.toNat * 0x8000 + b.toNat * 0x400 + k.toNat * 0x2 + sb.toNat
def wordVcle (d a b : BitVec 5) (k : BitVec 3) (sb : BitVec 1) : Nat :=
  0x4c000030 + d.toNat * 0x100000 + a.toNat * 0x8000 + b.toNat * 0x400 + k.toNat * 0x2 + sb.toNat
def wordVcltu (d a b : BitVec 5) (k : BitVec 3) (sb : BitVec 1) : Nat :=
  0x4c000040 + d.toNat * 0x100000 + a.toNat * 0x8000 + b.toNat * 0x400 + k.toNat * 0x2 + sb.toNat
def wordVcleu (d a b : BitVec 5) (k : BitVec 3) (sb : BitVec 1) : Nat :=
  0x4c000050 + d.toNat * 0x100000 + a.toNat * 0x8000 + b.toNat * 0x400 + k.toNat * 0x2 + sb.toNat
def wordVfceq (d a b : BitVec 5) (k : BitVec 3) (sb : BitVec 1) : Nat :=
  0x4c000060 + d.toNat * 0x100000 + a.toNat * 0x8000 + b.toNat * 0x400 + k.toNat * 0x2 + sb.toNat
def wordVfclt (d a b : BitVec 5) (k : BitVec 3) (sb : BitVec 1) : Nat :=
  0x4c000070 + d.toNat * 0x100000 + a.toNat * 0x8000 + b.toNat * 0x400 + k.toNat * 0x2 + sb.toNat
def wordVfcle (d a b : BitVec 5) (k : BitVec 3) (sb : BitVec 1) : Nat :=
  0x4c000080 + d.toNat * 0x100000 + a.toNat * 0x8000 + b.toNat * 0x400 + k.toNat * 0x2 + sb.toNat
def wordVfcun (d a b : BitVec 5) (k : BitVec 3) (sb : BitVec 1) : Nat :=
  0x4c000090 + d.toNat * 0x100000 + a.toNat * 0x8000 + b.toNat * 0x400 + k.toNat * 0x2 + sb.toNat
def wordMand (d a b : BitVec 5) : Nat := 0x4e000000 + d.toNat * 0x100000 + a.toNat * 0x8000 + b.toNat * 0x400
def wordMor (d a b : BitVec 5) : Nat := 0x4e000010 + d.toNat * 0x100000 + a.toNat * 0x8000 + b.toNat * 0x400
def wordMxor (d a b : BitVec 5) : Nat := 0x4e000020 + d.toNat * 0x100000 + a.toNat * 0x8000 + b.toNat * 0x400
def wordMandn (d a b : BitVec 5) : Nat := 0x4e000030 + d.toNat * 0x100000 + a.toNat * 0x8000 + b.toNat * 0x400
def wordMnot (d a : BitVec 5) : Nat := 0x4e000040 + d.toNat * 0x100000 + a.toNat * 0x8000
def wordMpop (d a : BitVec 5) (k : BitVec 3) : Nat :=
  0x4e000050 + d.toNat * 0x100000 + a.toNat * 0x8000 + k.toNat * 0x2
def wordMfirst (d a : BitVec 5) (k : BitVec 3) : Nat :=
  0x4e000060 + d.toNat * 0x100000 + a.toNat * 0x8000 + k.toNat * 0x2
def wordMiota (d a : BitVec 5) (k : BitVec 3) : Nat :=
  0x4e000070 + d.toNat * 0x100000 + a.toNat * 0x8000 + k.toNat * 0x2
def wordMset (d a : BitVec 5) : Nat := 0x4e000080 + d.toNat * 0x100000 + a.toNat * 0x8000
def wordVredsum (d a b : BitVec 5) (k : BitVec 3) (sb : BitVec 1) : Nat :=
  0x50000000 + d.toNat * 0x100000 + a.toNat * 0x8000 + b.toNat * 0x400 + k.toNat * 0x2 + sb.toNat
def wordVredmin (d a b : BitVec 5) (k : BitVec 3) (sb : BitVec 1) : Nat :=
  0x50000010 + d.toNat * 0x100000 + a.toNat * 0x8000 + b.toNat * 0x400 + k.toNat * 0x2 + sb.toNat
def wordVredmax (d a b : BitVec 5) (k : BitVec 3) (sb : BitVec 1) : Nat :=
  0x50000020 + d.toNat * 0x100000 + a.toNat * 0x8000 + b.toNat * 0x400 + k.toNat * 0x2 + sb.toNat
def wordVfredo (d a b : BitVec 5) (k : BitVec 3) (sb : BitVec 1) : Nat :=
  0x50000030 + d.toNat * 0x100000 + a.toNat * 0x8000 + b.toNat * 0x400 + k.toNat * 0x2 + sb.toNat
def wordVfredt (d a b : BitVec 5) (k : BitVec 3) (sb : BitVec 1) : Nat :=
  0x50000040 + d.toNat * 0x100000 + a.toNat * 0x8000 + b.toNat * 0x400 + k.toNat * 0x2 + sb.toNat
def wordVfredmin (d a b : BitVec 5) (k : BitVec 3) (sb : BitVec 1) : Nat :=
  0x50000050 + d.toNat * 0x100000 + a.toNat * 0x8000 + b.toNat * 0x400 + k.toNat * 0x2 + sb.toNat
def wordVfredmax (d a b : BitVec 5) (k : BitVec 3) (sb : BitVec 1) : Nat :=
  0x50000060 + d.toNat * 0x100000 + a.toNat * 0x8000 + b.toNat * 0x400 + k.toNat * 0x2 + sb.toNat
def wordVslup (d a b : BitVec 5) (k : BitVec 3) : Nat :=
  0x52000001 + d.toNat * 0x100000 + a.toNat * 0x8000 + b.toNat * 0x400 + k.toNat * 0x2
def wordVsldn (d a b : BitVec 5) (k : BitVec 3) : Nat :=
  0x52000011 + d.toNat * 0x100000 + a.toNat * 0x8000 + b.toNat * 0x400 + k.toNat * 0x2
def wordVrgather (d a b : BitVec 5) (k : BitVec 3) : Nat :=
  0x52000020 + d.toNat * 0x100000 + a.toNat * 0x8000 + b.toNat * 0x400 + k.toNat * 0x2
def wordVcompress (d a : BitVec 5) (k : BitVec 3) : Nat :=
  0x52000030 + d.toNat * 0x100000 + a.toNat * 0x8000 + k.toNat * 0x2
def wordVbcast (d a b : BitVec 5) (k : BitVec 3) : Nat :=
  0x52000041 + d.toNat * 0x100000 + a.toNat * 0x8000 + b.toNat * 0x400 + k.toNat * 0x2
def wordVmvgv (d a b : BitVec 5) : Nat := 0x52000050 + d.toNat * 0x100000 + a.toNat * 0x8000 + b.toNat * 0x400
def wordVmvvg (d a b : BitVec 5) : Nat := 0x52000060 + d.toNat * 0x100000 + a.toNat * 0x8000 + b.toNat * 0x400
def wordVid (d : BitVec 5) (k : BitVec 3) : Nat := 0x52000070 + d.toNat * 0x100000 + k.toNat * 0x2
def wordVmerge (d a b : BitVec 5) (k : BitVec 3) (sb : BitVec 1) : Nat :=
  0x52000080 + d.toNat * 0x100000 + a.toNat * 0x8000 + b.toNat * 0x400 + k.toNat * 0x2 + sb.toNat
def wordVmv (d b : BitVec 5) (k : BitVec 3) (sb : BitVec 1) : Nat :=
  0x52000090 + d.toNat * 0x100000 + b.toNat * 0x400 + k.toNat * 0x2 + sb.toNat
def wordVcvtN (d a t : BitVec 5) (k : BitVec 3) : Nat :=
  0x54000000 + d.toNat * 0x100000 + a.toNat * 0x8000 + t.toNat * 0x400 + k.toNat * 0x2
def wordVcvtW (d a t : BitVec 5) (k : BitVec 3) : Nat :=
  0x54000010 + d.toNat * 0x100000 + a.toNat * 0x8000 + t.toNat * 0x400 + k.toNat * 0x2
def wordVcvtFi (d a t : BitVec 5) (k : BitVec 3) : Nat :=
  0x54000020 + d.toNat * 0x100000 + a.toNat * 0x8000 + t.toNat * 0x400 + k.toNat * 0x2
def wordVcvtIf (d a t : BitVec 5) (k : BitVec 3) : Nat :=
  0x54000030 + d.toNat * 0x100000 + a.toNat * 0x8000 + t.toNat * 0x400 + k.toNat * 0x2
def wordVcvtQ4 (d a b : BitVec 5) : Nat := 0x54000040 + d.toNat * 0x100000 + a.toNat * 0x8000 + b.toNat * 0x400
def wordVcvtQ8 (d a b : BitVec 5) : Nat := 0x54000050 + d.toNat * 0x100000 + a.toNat * 0x8000 + b.toNat * 0x400
def wordTileZero (p : BitVec 1) (t : BitVec 2) (c : BitVec 1) : Nat :=
  0x16000000 + p.toNat * 0x80000000 + t.toNat * 0x800000 + c.toNat * 0x400000
def wordTileLd (p : BitVec 1) (t : BitVec 2) (c : BitVec 1) (a b : BitVec 5) (y : BitVec 4) : Nat :=
  0x16000010 + p.toNat * 0x80000000 + t.toNat * 0x800000 + c.toNat * 0x400000 + a.toNat * 0x8000 + b.toNat * 0x400 + y.toNat
def wordTileSt (p : BitVec 1) (t : BitVec 2) (c : BitVec 1) (a b : BitVec 5) (y : BitVec 4) : Nat :=
  0x16000020 + p.toNat * 0x80000000 + t.toNat * 0x800000 + c.toNat * 0x400000 + a.toNat * 0x8000 + b.toNat * 0x400 + y.toNat
def wordTileLdx (p : BitVec 1) (t : BitVec 2) (c : BitVec 1) (a b : BitVec 5) (y : BitVec 4) : Nat :=
  0x16000030 + p.toNat * 0x80000000 + t.toNat * 0x800000 + c.toNat * 0x400000 + a.toNat * 0x8000 + b.toNat * 0x400 + y.toNat
def wordTileStx (p : BitVec 1) (t : BitVec 2) (c : BitVec 1) (a b : BitVec 5) (y : BitVec 4) : Nat :=
  0x16000040 + p.toNat * 0x80000000 + t.toNat * 0x800000 + c.toNat * 0x400000 + a.toNat * 0x8000 + b.toNat * 0x400 + y.toNat
def wordTileStxa (p : BitVec 1) (t : BitVec 2) (c : BitVec 1) (a b : BitVec 5) (y : BitVec 4) : Nat :=
  0x16000050 + p.toNat * 0x80000000 + t.toNat * 0x800000 + c.toNat * 0x400000 + a.toNat * 0x8000 + b.toNat * 0x400 + y.toNat
def wordTileMma (p : BitVec 1) (t : BitVec 2) (c : BitVec 1) (a b : BitVec 5) (y : BitVec 4) : Nat :=
  0x16000060 + p.toNat * 0x80000000 + t.toNat * 0x800000 + c.toNat * 0x400000 + a.toNat * 0x8000 + b.toNat * 0x400 + y.toNat
def wordTileMmax (p : BitVec 1) (t : BitVec 2) (c : BitVec 1) (a b : BitVec 5) (y : BitVec 4) : Nat :=
  0x16000070 + p.toNat * 0x80000000 + t.toNat * 0x800000 + c.toNat * 0x400000 + a.toNat * 0x8000 + b.toNat * 0x400 + y.toNat
def wordTileGmma (p : BitVec 1) (t : BitVec 2) (c : BitVec 1) (a b : BitVec 5) (y : BitVec 4) : Nat :=
  0x16000080 + p.toNat * 0x80000000 + t.toNat * 0x800000 + c.toNat * 0x400000 + a.toNat * 0x8000 + b.toNat * 0x400 + y.toNat
def wordTileRowv (p : BitVec 1) (t : BitVec 2) (c : BitVec 1) (a v : BitVec 5) (y : BitVec 4) : Nat :=
  0x16000090 + p.toNat * 0x80000000 + t.toNat * 0x800000 + c.toNat * 0x400000 + a.toNat * 0x8000 + v.toNat * 0x400 + y.toNat
def wordTileVrow (p : BitVec 1) (t : BitVec 2) (c : BitVec 1) (a v : BitVec 5) (y : BitVec 4) : Nat :=
  0x160000a0 + p.toNat * 0x80000000 + t.toNat * 0x800000 + c.toNat * 0x400000 + a.toNat * 0x8000 + v.toNat * 0x400 + y.toNat
def wordTileQ (p : BitVec 1) (t : BitVec 2) (c : BitVec 1) (a b : BitVec 5) (y : BitVec 4) : Nat :=
  0x160000b0 + p.toNat * 0x80000000 + t.toNat * 0x800000 + c.toNat * 0x400000 + a.toNat * 0x8000 + b.toNat * 0x400 + y.toNat
def wordTileChol (p : BitVec 1) (t : BitVec 2) (c : BitVec 1) : Nat :=
  0x160000c0 + p.toNat * 0x80000000 + t.toNat * 0x800000 + c.toNat * 0x400000
def wordTileTrsm (p : BitVec 1) (t : BitVec 2) (c : BitVec 1) (ts : BitVec 2) : Nat :=
  0x160000d0 + p.toNat * 0x80000000 + t.toNat * 0x800000 + c.toNat * 0x400000 + ts.toNat * 0x100000
def wordTileRel (p : BitVec 1) : Nat := 0x160000e0 + p.toNat * 0x80000000
def wordCtrAdd (p : BitVec 1) (a b : BitVec 5) (sc : BitVec 3) : Nat :=
  0x18000000 + p.toNat * 0x80000000 + a.toNat * 0x8000 + b.toNat * 0x400 + sc.toNat * 0x8
def wordCtrFadd (p : BitVec 1) (d a b : BitVec 5) (la : BitVec 4) (sc : BitVec 3) : Nat :=
  0x18000001 + p.toNat * 0x80000000 + d.toNat * 0x100000 + a.toNat * 0x8000 + b.toNat * 0x400 + la.toNat * 0x40 + sc.toNat * 0x8
def wordCtrWait (p : BitVec 1) (a b : BitVec 5) (sc : BitVec 3) : Nat :=
  0x18000002 + p.toNat * 0x80000000 + a.toNat * 0x8000 + b.toNat * 0x400 + sc.toNat * 0x8
def wordCtrTest (p : BitVec 1) (d a b : BitVec 5) (la : BitVec 4) (sc : BitVec 3) : Nat :=
  0x18000003 + p.toNat * 0x80000000 + d.toNat * 0x100000 + a.toNat * 0x8000 + b.toNat * 0x400 + la.toNat * 0x40 + sc.toNat * 0x8
def wordCtrRead (p : BitVec 1) (d a : BitVec 5) (la : BitVec 4) : Nat :=
  0x18000004 + p.toNat * 0x80000000 + d.toNat * 0x100000 + a.toNat * 0x8000 + la.toNat * 0x40
def wordCtrArrive (p : BitVec 1) (k a : BitVec 5) (sc : BitVec 3) : Nat :=
  0x18000005 + p.toNat * 0x80000000 + k.toNat * 0x100000 + a.toNat * 0x8000 + sc.toNat * 0x8
def wordCtrAw (p : BitVec 1) (k a b : BitVec 5) (sc : BitVec 3) : Nat :=
  0x18000006 + p.toNat * 0x80000000 + k.toNat * 0x100000 + a.toNat * 0x8000 + b.toNat * 0x400 + sc.toNat * 0x8
def wordCtrReset (p : BitVec 1) (a : BitVec 5) (sc : BitVec 3) : Nat :=
  0x18000007 + p.toNat * 0x80000000 + a.toNat * 0x8000 + sc.toNat * 0x8
def wordCtrVadd (p : BitVec 1) (k a b : BitVec 5) (sc : BitVec 3) : Nat :=
  0x1a000000 + p.toNat * 0x80000000 + k.toNat * 0x100000 + a.toNat * 0x8000 + b.toNat * 0x400 + sc.toNat * 0x8
def wordCtrArm (p : BitVec 1) (d a b : BitVec 5) : Nat :=
  0x1a000001 + p.toNat * 0x80000000 + d.toNat * 0x100000 + a.toNat * 0x8000 + b.toNat * 0x400
def wordCtrHome (p : BitVec 1) (d a b : BitVec 5) (la : BitVec 4) : Nat :=
  0x1a000002 + p.toNat * 0x80000000 + d.toNat * 0x100000 + a.toNat * 0x8000 + b.toNat * 0x400 + la.toNat * 0x40
def wordGrpNew (p : BitVec 1) (d a : BitVec 5) : Nat :=
  0x1c000000 + p.toNat * 0x80000000 + d.toNat * 0x100000 + a.toNat * 0x8000
def wordGrpJoin (p : BitVec 1) (d a b : BitVec 5) : Nat :=
  0x1c000010 + p.toNat * 0x80000000 + d.toNat * 0x100000 + a.toNat * 0x8000 + b.toNat * 0x400
def wordGrpLeave (p : BitVec 1) (d : BitVec 5) : Nat := 0x1c000020 + p.toNat * 0x80000000 + d.toNat * 0x100000
def wordGrpSize (p : BitVec 1) (d a : BitVec 5) : Nat :=
  0x1c000030 + p.toNat * 0x80000000 + d.toNat * 0x100000 + a.toNat * 0x8000
def wordGrpRank (p : BitVec 1) (d : BitVec 5) : Nat := 0x1c000040 + p.toNat * 0x80000000 + d.toNat * 0x100000
def wordGrpPin (p : BitVec 1) (d a : BitVec 5) : Nat :=
  0x1c000050 + p.toNat * 0x80000000 + d.toNat * 0x100000 + a.toNat * 0x8000
def wordGrpUnpin (p : BitVec 1) (d a : BitVec 5) : Nat :=
  0x1c000060 + p.toNat * 0x80000000 + d.toNat * 0x100000 + a.toNat * 0x8000
def wordGrpMcast (p : BitVec 1) (d a b : BitVec 5) : Nat :=
  0x1c000070 + p.toNat * 0x80000000 + d.toNat * 0x100000 + a.toNat * 0x8000 + b.toNat * 0x400
def wordGrpStop (p : BitVec 1) (d a b : BitVec 5) : Nat :=
  0x1c000080 + p.toNat * 0x80000000 + d.toNat * 0x100000 + a.toNat * 0x8000 + b.toNat * 0x400
def wordGrpGo (p : BitVec 1) (d a : BitVec 5) : Nat :=
  0x1c000090 + p.toNat * 0x80000000 + d.toNat * 0x100000 + a.toNat * 0x8000
def wordGrpKill (p : BitVec 1) (d a : BitVec 5) : Nat :=
  0x1c0000a0 + p.toNat * 0x80000000 + d.toNat * 0x100000 + a.toNat * 0x8000
def wordXferCopy (p : BitVec 1) (d a b : BitVec 5) : Nat :=
  0x20000000 + p.toNat * 0x80000000 + d.toNat * 0x100000 + a.toNat * 0x8000 + b.toNat * 0x400
def wordXferTensor (p : BitVec 1) (d a b : BitVec 5) : Nat :=
  0x20000010 + p.toNat * 0x80000000 + d.toNat * 0x100000 + a.toNat * 0x8000 + b.toNat * 0x400
def wordXferMcast (p : BitVec 1) (d a b : BitVec 5) : Nat :=
  0x20000020 + p.toNat * 0x80000000 + d.toNat * 0x100000 + a.toNat * 0x8000 + b.toNat * 0x400
def wordXferFill (p : BitVec 1) (d a b : BitVec 5) : Nat :=
  0x20000030 + p.toNat * 0x80000000 + d.toNat * 0x100000 + a.toNat * 0x8000 + b.toNat * 0x400
def wordXferSend (p : BitVec 1) (d a b : BitVec 5) : Nat :=
  0x20000040 + p.toNat * 0x80000000 + d.toNat * 0x100000 + a.toNat * 0x8000 + b.toNat * 0x400
def wordQLaunch (p : BitVec 1) (d a b : BitVec 5) : Nat :=
  0x22000000 + p.toNat * 0x80000000 + d.toNat * 0x100000 + a.toNat * 0x8000 + b.toNat * 0x400
def wordQCall (p : BitVec 1) (d a b : BitVec 5) : Nat :=
  0x22000010 + p.toNat * 0x80000000 + d.toNat * 0x100000 + a.toNat * 0x8000 + b.toNat * 0x400
def wordQTake (p : BitVec 1) (d a b : BitVec 5) : Nat :=
  0x22000020 + p.toNat * 0x80000000 + d.toNat * 0x100000 + a.toNat * 0x8000 + b.toNat * 0x400
def wordQDone (p : BitVec 1) (d a b : BitVec 5) : Nat :=
  0x22000030 + p.toNat * 0x80000000 + d.toNat * 0x100000 + a.toNat * 0x8000 + b.toNat * 0x400
def wordAmoAdd (p : BitVec 1) (d a b : BitVec 5) (q : BitVec 4) : Nat :=
  0x24000000 + p.toNat * 0x80000000 + d.toNat * 0x100000 + a.toNat * 0x8000 + b.toNat * 0x400 + q.toNat
def wordAmoAnd (p : BitVec 1) (d a b : BitVec 5) (q : BitVec 4) : Nat :=
  0x24000010 + p.toNat * 0x80000000 + d.toNat * 0x100000 + a.toNat * 0x8000 + b.toNat * 0x400 + q.toNat
def wordAmoOr (p : BitVec 1) (d a b : BitVec 5) (q : BitVec 4) : Nat :=
  0x24000020 + p.toNat * 0x80000000 + d.toNat * 0x100000 + a.toNat * 0x8000 + b.toNat * 0x400 + q.toNat
def wordAmoXor (p : BitVec 1) (d a b : BitVec 5) (q : BitVec 4) : Nat :=
  0x24000030 + p.toNat * 0x80000000 + d.toNat * 0x100000 + a.toNat * 0x8000 + b.toNat * 0x400 + q.toNat
def wordAmoMin (p : BitVec 1) (d a b : BitVec 5) (q : BitVec 4) : Nat :=
  0x24000040 + p.toNat * 0x80000000 + d.toNat * 0x100000 + a.toNat * 0x8000 + b.toNat * 0x400 + q.toNat
def wordAmoMax (p : BitVec 1) (d a b : BitVec 5) (q : BitVec 4) : Nat :=
  0x24000050 + p.toNat * 0x80000000 + d.toNat * 0x100000 + a.toNat * 0x8000 + b.toNat * 0x400 + q.toNat
def wordAmoMinu (p : BitVec 1) (d a b : BitVec 5) (q : BitVec 4) : Nat :=
  0x24000060 + p.toNat * 0x80000000 + d.toNat * 0x100000 + a.toNat * 0x8000 + b.toNat * 0x400 + q.toNat
def wordAmoMaxu (p : BitVec 1) (d a b : BitVec 5) (q : BitVec 4) : Nat :=
  0x24000070 + p.toNat * 0x80000000 + d.toNat * 0x100000 + a.toNat * 0x8000 + b.toNat * 0x400 + q.toNat
def wordAmoSwap (p : BitVec 1) (d a b : BitVec 5) (q : BitVec 4) : Nat :=
  0x24000080 + p.toNat * 0x80000000 + d.toNat * 0x100000 + a.toNat * 0x8000 + b.toNat * 0x400 + q.toNat
def wordAmoCas (p : BitVec 1) (d a b : BitVec 5) (q : BitVec 4) : Nat :=
  0x24000090 + p.toNat * 0x80000000 + d.toNat * 0x100000 + a.toNat * 0x8000 + b.toNat * 0x400 + q.toNat
def wordAmoFadd (p : BitVec 1) (d a b : BitVec 5) (q : BitVec 4) : Nat :=
  0x240000a0 + p.toNat * 0x80000000 + d.toNat * 0x100000 + a.toNat * 0x8000 + b.toNat * 0x400 + q.toNat
def wordRedAdd (p : BitVec 1) (a b : BitVec 5) (q : BitVec 4) : Nat :=
  0x240000b0 + p.toNat * 0x80000000 + a.toNat * 0x8000 + b.toNat * 0x400 + q.toNat
def wordRedFadd (p : BitVec 1) (a b : BitVec 5) (q : BitVec 4) : Nat :=
  0x240000c0 + p.toNat * 0x80000000 + a.toNat * 0x8000 + b.toNat * 0x400 + q.toNat
def wordRedMin (p : BitVec 1) (a b : BitVec 5) (q : BitVec 4) : Nat :=
  0x240000d0 + p.toNat * 0x80000000 + a.toNat * 0x8000 + b.toNat * 0x400 + q.toNat
def wordRedMax (p : BitVec 1) (a b : BitVec 5) (q : BitVec 4) : Nat :=
  0x240000e0 + p.toNat * 0x80000000 + a.toNat * 0x8000 + b.toNat * 0x400 + q.toNat
def wordFence (p : BitVec 1) (b : BitVec 5) : Nat := 0x26000000 + p.toNat * 0x80000000 + b.toNat * 0x400
def wordStDrain (p : BitVec 1) : Nat := 0x26000010 + p.toNat * 0x80000000
def wordLineInv (p : BitVec 1) (a b : BitVec 5) : Nat :=
  0x26000020 + p.toNat * 0x80000000 + a.toNat * 0x8000 + b.toNat * 0x400
def wordLineWb (p : BitVec 1) (a b : BitVec 5) : Nat :=
  0x26000030 + p.toNat * 0x80000000 + a.toNat * 0x8000 + b.toNat * 0x400
def wordPref (p : BitVec 1) (a b : BitVec 5) : Nat :=
  0x26000040 + p.toNat * 0x80000000 + a.toNat * 0x8000 + b.toNat * 0x400
def wordHaloDecl (p : BitVec 1) (d a : BitVec 5) : Nat :=
  0x26000050 + p.toNat * 0x80000000 + d.toNat * 0x100000 + a.toNat * 0x8000
def wordHaloDrop (p : BitVec 1) (a : BitVec 5) : Nat := 0x26000060 + p.toNat * 0x80000000 + a.toNat * 0x8000
def wordHaloPush (p : BitVec 1) (a : BitVec 5) : Nat := 0x26000070 + p.toNat * 0x80000000 + a.toNat * 0x8000
def wordVmFence (p : BitVec 1) : Nat := 0x28000000 + p.toNat * 0x80000000
def wordVmInv (p : BitVec 1) (a b : BitVec 5) : Nat :=
  0x28000010 + p.toNat * 0x80000000 + a.toNat * 0x8000 + b.toNat * 0x400
def wordVmGinv (p : BitVec 1) (a b : BitVec 5) : Nat :=
  0x28000020 + p.toNat * 0x80000000 + a.toNat * 0x8000 + b.toNat * 0x400
def wordVmProbe (p : BitVec 1) (d a b : BitVec 5) : Nat :=
  0x28000030 + p.toNat * 0x80000000 + d.toNat * 0x100000 + a.toNat * 0x8000 + b.toNat * 0x400
def wordCtxSeal (p : BitVec 1) (d a : BitVec 5) : Nat :=
  0x2a000000 + p.toNat * 0x80000000 + d.toNat * 0x100000 + a.toNat * 0x8000
def wordCtxUnseal (p : BitVec 1) (d a : BitVec 5) : Nat :=
  0x2a000010 + p.toNat * 0x80000000 + d.toNat * 0x100000 + a.toNat * 0x8000
def wordCtxExtend (p : BitVec 1) (d a b : BitVec 5) : Nat :=
  0x2a000020 + p.toNat * 0x80000000 + d.toNat * 0x100000 + a.toNat * 0x8000 + b.toNat * 0x400
def wordCtxQuote (p : BitVec 1) (d a b : BitVec 5) : Nat :=
  0x2a000030 + p.toNat * 0x80000000 + d.toNat * 0x100000 + a.toNat * 0x8000 + b.toNat * 0x400

/-- The word of an instruction; `none` for an event, which no word encodes. -/
def encode : Instr → Option Nat
  | .svc => some wordSvc
  | .brk => some wordBrk
  | .tret => some wordTret
  | .pause a => some (wordPause a)
  | .sread p d imm => some (wordSread p d imm)
  | .swrite p d a imm => some (wordSwrite p d a imm)
  | .sset p d a imm => some (wordSset p d a imm)
  | .sclr p d a imm => some (wordSclr p d a imm)
  | .beq p a b off => some (wordBeq p a b off)
  | .bne p a b off => some (wordBne p a b off)
  | .blt p a b off => some (wordBlt p a b off)
  | .bge p a b off => some (wordBge p a b off)
  | .bltu p a b off => some (wordBltu p a b off)
  | .bgeu p a b off => some (wordBgeu p a b off)
  | .jal p d off => some (wordJal p d off)
  | .jalr p d a imm => some (wordJalr p d a imm)
  | .ldb p d a la imm => some (wordLdb p d a la imm)
  | .ldh p d a la imm => some (wordLdh p d a la imm)
  | .ldw p d a la imm => some (wordLdw p d a la imm)
  | .ldd p d a la imm => some (wordLdd p d a la imm)
  | .ldbu p d a la imm => some (wordLdbu p d a la imm)
  | .ldhu p d a la imm => some (wordLdhu p d a la imm)
  | .ldwu p d a la imm => some (wordLdwu p d a la imm)
  | .stb p d a imm => some (wordStb p d a imm)
  | .sth p d a imm => some (wordSth p d a imm)
  | .stw p d a imm => some (wordStw p d a imm)
  | .std p d a imm => some (wordStd p d a imm)
  | .pcadd p d imm => some (wordPcadd p d imm)
  | .ldhi d imm => some (wordLdhi d imm)
  | .add d a b => some (wordAdd d a b)
  | .sub d a b => some (wordSub d a b)
  | .and d a b => some (wordAnd d a b)
  | .or d a b => some (wordOr d a b)
  | .xor d a b => some (wordXor d a b)
  | .andn d a b => some (wordAndn d a b)
  | .orn d a b => some (wordOrn d a b)
  | .sll d a b => some (wordSll d a b)
  | .srl d a b => some (wordSrl d a b)
  | .sra d a b => some (wordSra d a b)
  | .slt d a b => some (wordSlt d a b)
  | .sltu d a b => some (wordSltu d a b)
  | .min d a b => some (wordMin d a b)
  | .max d a b => some (wordMax d a b)
  | .minu d a b => some (wordMinu d a b)
  | .maxu d a b => some (wordMaxu d a b)
  | .mul d a b => some (wordMul d a b)
  | .mulh d a b q => some (wordMulh d a b q)
  | .mulhu d a b q => some (wordMulhu d a b q)
  | .div d a b q => some (wordDiv d a b q)
  | .divu d a b q => some (wordDivu d a b q)
  | .rem d a b q => some (wordRem d a b q)
  | .remu d a b q => some (wordRemu d a b q)
  | .addw d a b => some (wordAddw d a b)
  | .subw d a b => some (wordSubw d a b)
  | .clz d a => some (wordClz d a)
  | .ctz d a => some (wordCtz d a)
  | .cpop d a => some (wordCpop d a)
  | .rol d a b => some (wordRol d a b)
  | .ror d a b => some (wordRor d a b)
  | .addi d a imm => some (wordAddi d a imm)
  | .slti d a imm => some (wordSlti d a imm)
  | .sltiu d a imm => some (wordSltiu d a imm)
  | .xori d a imm => some (wordXori d a imm)
  | .ori d a imm => some (wordOri d a imm)
  | .andi d a imm => some (wordAndi d a imm)
  | .slli d a sh => some (wordSlli d a sh)
  | .srli d a sh => some (wordSrli d a sh)
  | .srai d a sh => some (wordSrai d a sh)
  | .addiw d a imm => some (wordAddiw d a imm)
  | .faddS d a b => some (wordFaddS d a b)
  | .fsubS d a b => some (wordFsubS d a b)
  | .fmulS d a b => some (wordFmulS d a b)
  | .fdivS d a b q => some (wordFdivS d a b q)
  | .fsqrtS d a q => some (wordFsqrtS d a q)
  | .fminS d a b => some (wordFminS d a b)
  | .fmaxS d a b => some (wordFmaxS d a b)
  | .fmaddS d a b => some (wordFmaddS d a b)
  | .feqS d a b => some (wordFeqS d a b)
  | .fltS d a b => some (wordFltS d a b)
  | .fleS d a b => some (wordFleS d a b)
  | .fclassS d a => some (wordFclassS d a)
  | .fcvtSd d a => some (wordFcvtSd d a)
  | .fcvtDs d a => some (wordFcvtDs d a)
  | .fcvtSl d a => some (wordFcvtSl d a)
  | .fcvtLs d a => some (wordFcvtLs d a)
  | .fcvtDl d a => some (wordFcvtDl d a)
  | .fcvtLd d a => some (wordFcvtLd d a)
  | .faddD d a b => some (wordFaddD d a b)
  | .fsubD d a b => some (wordFsubD d a b)
  | .fmulD d a b => some (wordFmulD d a b)
  | .fdivD d a b q => some (wordFdivD d a b q)
  | .fsqrtD d a q => some (wordFsqrtD d a q)
  | .fminD d a b => some (wordFminD d a b)
  | .fmaxD d a b => some (wordFmaxD d a b)
  | .fmaddD d a b => some (wordFmaddD d a b)
  | .feqD d a b => some (wordFeqD d a b)
  | .fltD d a b => some (wordFltD d a b)
  | .fleD d a b => some (wordFleD d a b)
  | .fclassD d a => some (wordFclassD d a)
  | .thrSpawn p d a b => some (wordThrSpawn p d a b)
  | .thrEnd p => some (wordThrEnd p)
  | .thrSelf p d => some (wordThrSelf p d)
  | .thrStop p d a => some (wordThrStop p d a)
  | .thrGo p d a => some (wordThrGo p d a)
  | .thrSave p d a b => some (wordThrSave p d a b)
  | .thrLoad p d a b => some (wordThrLoad p d a b)
  | .vset p d a t => some (wordVset p d a t)
  | .vsetmt p d t => some (wordVsetmt p d t)
  | .vld p d a ew k => some (wordVld p d a ew k)
  | .vlds p d a b ew k => some (wordVlds p d a b ew k)
  | .vldx p d a b ew k => some (wordVldx p d a b ew k)
  | .vldff p d a ew k => some (wordVldff p d a ew k)
  | .vldg p d a b ew k => some (wordVldg p d a b ew k)
  | .vldb p d a ew k => some (wordVldb p d a ew k)
  | .vst p d a ew k => some (wordVst p d a ew k)
  | .vsts p d a b ew k => some (wordVsts p d a b ew k)
  | .vstx p d a b ew k => some (wordVstx p d a b ew k)
  | .vstxa p d a b ew k => some (wordVstxa p d a b ew k)
  | .vstxf p d a b ew k => some (wordVstxf p d a b ew k)
  | .vadd d a b k sb => some (wordVadd d a b k sb)
  | .vsub d a b k sb => some (wordVsub d a b k sb)
  | .vmul d a b k sb => some (wordVmul d a b k sb)
  | .vmulh d a b k sb => some (wordVmulh d a b k sb)
  | .vmin d a b k sb => some (wordVmin d a b k sb)
  | .vmax d a b k sb => some (wordVmax d a b k sb)
  | .vminu d a b k sb => some (wordVminu d a b k sb)
  | .vmaxu d a b k sb => some (wordVmaxu d a b k sb)
  | .vand d a b k sb => some (wordVand d a b k sb)
  | .vor d a b k sb => some (wordVor d a b k sb)
  | .vxor d a b k sb => some (wordVxor d a b k sb)
  | .vsll d a b k sb => some (wordVsll d a b k sb)
  | .vsrl d a b k sb => some (wordVsrl d a b k sb)
  | .vsra d a b k sb => some (wordVsra d a b k sb)
  | .vsadd d a b k sb => some (wordVsadd d a b k sb)
  | .vssub d a b k sb => some (wordVssub d a b k sb)
  | .vmacc d a b k sb => some (wordVmacc d a b k sb)
  | .vdot4 d a b k sb => some (wordVdot4 d a b k sb)
  | .vfadd d a b k sb => some (wordVfadd d a b k sb)
  | .vfsub d a b k sb => some (wordVfsub d a b k sb)
  | .vfmul d a b k sb => some (wordVfmul d a b k sb)
  | .vfdiv d a b k sb => some (wordVfdiv d a b k sb)
  | .vfsqrt d a k => some (wordVfsqrt d a k)
  | .vfmin d a b k sb => some (wordVfmin d a b k sb)
  | .vfmax d a b k sb => some (wordVfmax d a b k sb)
  | .vfma d a b k sb => some (wordVfma d a b k sb)
  | .vfnma d a b k sb => some (wordVfnma d a b k sb)
  | .vfabs d a k => some (wordVfabs d a k)
  | .vfneg d a k => some (wordVfneg d a k)
  | .vceq d a b k sb => some (wordVceq d a b k sb)
  | .vcne d a b k sb => some (wordVcne d a b k sb)
  | .vclt d a b k sb => some (wordVclt d a b k sb)
  | .vcle d a b k sb => some (wordVcle d a b k sb)
  | .vcltu d a b k sb => some (wordVcltu d a b k sb)
  | .vcleu d a b k sb => some (wordVcleu d a b k sb)
  | .vfceq d a b k sb => some (wordVfceq d a b k sb)
  | .vfclt d a b k sb => some (wordVfclt d a b k sb)
  | .vfcle d a b k sb => some (wordVfcle d a b k sb)
  | .vfcun d a b k sb => some (wordVfcun d a b k sb)
  | .mand d a b => some (wordMand d a b)
  | .mor d a b => some (wordMor d a b)
  | .mxor d a b => some (wordMxor d a b)
  | .mandn d a b => some (wordMandn d a b)
  | .mnot d a => some (wordMnot d a)
  | .mpop d a k => some (wordMpop d a k)
  | .mfirst d a k => some (wordMfirst d a k)
  | .miota d a k => some (wordMiota d a k)
  | .mset d a => some (wordMset d a)
  | .vredsum d a b k sb => some (wordVredsum d a b k sb)
  | .vredmin d a b k sb => some (wordVredmin d a b k sb)
  | .vredmax d a b k sb => some (wordVredmax d a b k sb)
  | .vfredo d a b k sb => some (wordVfredo d a b k sb)
  | .vfredt d a b k sb => some (wordVfredt d a b k sb)
  | .vfredmin d a b k sb => some (wordVfredmin d a b k sb)
  | .vfredmax d a b k sb => some (wordVfredmax d a b k sb)
  | .vslup d a b k => some (wordVslup d a b k)
  | .vsldn d a b k => some (wordVsldn d a b k)
  | .vrgather d a b k => some (wordVrgather d a b k)
  | .vcompress d a k => some (wordVcompress d a k)
  | .vbcast d a b k => some (wordVbcast d a b k)
  | .vmvgv d a b => some (wordVmvgv d a b)
  | .vmvvg d a b => some (wordVmvvg d a b)
  | .vid d k => some (wordVid d k)
  | .vmerge d a b k sb => some (wordVmerge d a b k sb)
  | .vmv d b k sb => some (wordVmv d b k sb)
  | .vcvtN d a t k => some (wordVcvtN d a t k)
  | .vcvtW d a t k => some (wordVcvtW d a t k)
  | .vcvtFi d a t k => some (wordVcvtFi d a t k)
  | .vcvtIf d a t k => some (wordVcvtIf d a t k)
  | .vcvtQ4 d a b => some (wordVcvtQ4 d a b)
  | .vcvtQ8 d a b => some (wordVcvtQ8 d a b)
  | .tileZero p t c => some (wordTileZero p t c)
  | .tileLd p t c a b y => some (wordTileLd p t c a b y)
  | .tileSt p t c a b y => some (wordTileSt p t c a b y)
  | .tileLdx p t c a b y => some (wordTileLdx p t c a b y)
  | .tileStx p t c a b y => some (wordTileStx p t c a b y)
  | .tileStxa p t c a b y => some (wordTileStxa p t c a b y)
  | .tileMma p t c a b y => some (wordTileMma p t c a b y)
  | .tileMmax p t c a b y => some (wordTileMmax p t c a b y)
  | .tileGmma p t c a b y => some (wordTileGmma p t c a b y)
  | .tileRowv p t c a v y => some (wordTileRowv p t c a v y)
  | .tileVrow p t c a v y => some (wordTileVrow p t c a v y)
  | .tileQ p t c a b y => some (wordTileQ p t c a b y)
  | .tileChol p t c => some (wordTileChol p t c)
  | .tileTrsm p t c ts => some (wordTileTrsm p t c ts)
  | .tileRel p => some (wordTileRel p)
  | .ctrAdd p a b sc => some (wordCtrAdd p a b sc)
  | .ctrFadd p d a b la sc => some (wordCtrFadd p d a b la sc)
  | .ctrWait p a b sc => some (wordCtrWait p a b sc)
  | .ctrTest p d a b la sc => some (wordCtrTest p d a b la sc)
  | .ctrRead p d a la => some (wordCtrRead p d a la)
  | .ctrArrive p k a sc => some (wordCtrArrive p k a sc)
  | .ctrAw p k a b sc => some (wordCtrAw p k a b sc)
  | .ctrReset p a sc => some (wordCtrReset p a sc)
  | .ctrVadd p k a b sc => some (wordCtrVadd p k a b sc)
  | .ctrArm p d a b => some (wordCtrArm p d a b)
  | .ctrHome p d a b la => some (wordCtrHome p d a b la)
  | .grpNew p d a => some (wordGrpNew p d a)
  | .grpJoin p d a b => some (wordGrpJoin p d a b)
  | .grpLeave p d => some (wordGrpLeave p d)
  | .grpSize p d a => some (wordGrpSize p d a)
  | .grpRank p d => some (wordGrpRank p d)
  | .grpPin p d a => some (wordGrpPin p d a)
  | .grpUnpin p d a => some (wordGrpUnpin p d a)
  | .grpMcast p d a b => some (wordGrpMcast p d a b)
  | .grpStop p d a b => some (wordGrpStop p d a b)
  | .grpGo p d a => some (wordGrpGo p d a)
  | .grpKill p d a => some (wordGrpKill p d a)
  | .xferCopy p d a b => some (wordXferCopy p d a b)
  | .xferTensor p d a b => some (wordXferTensor p d a b)
  | .xferMcast p d a b => some (wordXferMcast p d a b)
  | .xferFill p d a b => some (wordXferFill p d a b)
  | .xferSend p d a b => some (wordXferSend p d a b)
  | .qLaunch p d a b => some (wordQLaunch p d a b)
  | .qCall p d a b => some (wordQCall p d a b)
  | .qTake p d a b => some (wordQTake p d a b)
  | .qDone p d a b => some (wordQDone p d a b)
  | .amoAdd p d a b q => some (wordAmoAdd p d a b q)
  | .amoAnd p d a b q => some (wordAmoAnd p d a b q)
  | .amoOr p d a b q => some (wordAmoOr p d a b q)
  | .amoXor p d a b q => some (wordAmoXor p d a b q)
  | .amoMin p d a b q => some (wordAmoMin p d a b q)
  | .amoMax p d a b q => some (wordAmoMax p d a b q)
  | .amoMinu p d a b q => some (wordAmoMinu p d a b q)
  | .amoMaxu p d a b q => some (wordAmoMaxu p d a b q)
  | .amoSwap p d a b q => some (wordAmoSwap p d a b q)
  | .amoCas p d a b q => some (wordAmoCas p d a b q)
  | .amoFadd p d a b q => some (wordAmoFadd p d a b q)
  | .redAdd p a b q => some (wordRedAdd p a b q)
  | .redFadd p a b q => some (wordRedFadd p a b q)
  | .redMin p a b q => some (wordRedMin p a b q)
  | .redMax p a b q => some (wordRedMax p a b q)
  | .fence p b => some (wordFence p b)
  | .stDrain p => some (wordStDrain p)
  | .lineInv p a b => some (wordLineInv p a b)
  | .lineWb p a b => some (wordLineWb p a b)
  | .pref p a b => some (wordPref p a b)
  | .haloDecl p d a => some (wordHaloDecl p d a)
  | .haloDrop p a => some (wordHaloDrop p a)
  | .haloPush p a => some (wordHaloPush p a)
  | .vmFence p => some (wordVmFence p)
  | .vmInv p a b => some (wordVmInv p a b)
  | .vmGinv p a b => some (wordVmGinv p a b)
  | .vmProbe p d a b => some (wordVmProbe p d a b)
  | .ctxSeal p d a => some (wordCtxSeal p d a)
  | .ctxUnseal p d a => some (wordCtxUnseal p d a)
  | .ctxExtend p d a b => some (wordCtxExtend p d a b)
  | .ctxQuote p d a b => some (wordCtxQuote p d a b)
  | .longResultWrite _ _ => none
  | .pauseExpiry _ => none
  | .timerCompare _ => none
  | .interruptTake _ => none
  | .asyncFaultTrap _ => none
  | .storeFaultTrap _ => none
  | .stopComplete _ => none
  | .thrEndComplete _ => none
  | .gafferSpawn _ _ => none
  | .laneBeat _ => none
  | .vectorElementAccess _ => none
  | .marverGrant _ => none
  | .marverStep _ => none
  | .marverCommandComplete _ => none
  | .counterOpAtHome _ => none
  | .wakeMessage _ => none
  | .waitReread _ => none
  | .waiterPoll _ => none
  | .waiterEvict _ => none
  | .waitTimeout _ => none
  | .storeCheck _ => none
  | .pendingRecordWrite _ => none
  | .storeArriveHome _ _ => none
  | .amoAtHome _ => none
  | .redAtHome _ _ => none
  | .lineEvict _ _ => none
  | .hostCxlSnoop _ _ _ => none
  | .hostCxlMemAccess _ _ _ => none
  | .copyChunk _ => none
  | .mcastStreamJoin _ => none
  | .mcastReceiverChunk _ _ => none
  | .grpMcastDelivery _ _ => none
  | .reductionResult _ _ => none
  | .roundAbandon _ => none
  | .pageWalk _ _ _ => none
  | .pageRequestRecordWrite _ => none
  | .pageAnswerRetry _ _ _ => none
  | .pageAnswerRefuse _ _ _ => none
  | .hostFenceMessage _ _ _ => none
  | .hostFenceAck _ => none
  | .hostQueueWindowWrite _ _ _ _ => none
  | .frameReceive _ _ => none
  | .kernelBind _ => none
  | .kernelAdmit _ => none
  | .kernelEndSequence _ => none
  | .create _ => none
  | .ready _ => none
  | .start _ => none
  | .suspend _ => none
  | .suspendComplete _ => none
  | .resume _ => none
  | .destroy _ => none
  | .scrubComplete _ => none
  | .sealJobStart _ => none
  | .restoreJobStart _ => none
  | .leaseRequest _ _ _ _ _ => none
  | .keyRelease _ _ _ => none
  | .commitRequest _ _ _ => none
  | .commitAck _ _ => none
  | .leaseExpiry _ => none
  | .homeAnswerTimeout _ => none
  | .update => none
  | .reshape => none
  | .reshapeDrainComplete => none
  | .spszWrite _ => none
  | .sdepthWrite _ => none
  | .vtWrite _ => none
  | .vectorStateAccess _ _ => none
  | .tstatTakeHold _ => none
  | .tstatWriteOff => none
  | .tileConfigWrite _ _ => none
  | .afcodeClear => none
  | .xctrEnable _ => none
  | .xctrDisable _ => none
  | .hostCounterWindowWrite _ _ _ => none
  | .hostArmWrite _ _ _ => none
  | .hostDoorbell _ _ => none
  | .counterTableWrite _ _ _ => none
  | .hostRegisterWrite _ _ _ => none
  | .portEnable _ => none
  | .portFence _ => none
  | .portUnfence _ => none
  | .portReset _ => none
  | .laneLock _ _ => none
  | .trainingTimeout _ => none
  | .retrainTrigger _ _ => none
  | .flitCrcFail _ _ => none
  | .pathTimeout _ => none
  | .remoteAccessReceive _ _ _ _ _ => none
  | .mctpControl _ => none
  | .getVersion => none
  | .getCapabilities _ => none
  | .negotiateAlgorithms _ => none
  | .getDigests => none
  | .getCertificate _ _ _ => none
  | .challenge _ _ => none
  | .getMeasurements _ _ _ => none
  | .fwOpen _ => none
  | .fwData _ _ => none
  | .fwCommit _ => none
  | .authKey _ => none
  | .plan _ => none
  | .pkgNum _ => none
  | .route _ => none
  | .domain _ => none
  | .xgroup _ => none
  | .ethAddr _ => none
  | .ethRule _ => none
  | .partReset _ => none
  | .coreReset _ => none
  | .packageReset _ => none
  | .powerUp _ => none
  | .powerCapTick _ => none
  | .thermalSample _ _ _ _ => none
  | .marginReplan _ _ => none
  | .errorDetect _ _ _ => none
  | .lehrRestart => none
  | .powerLoss _ _ => none
  | .blockDeviceAcknowledge _ => none
  | .leaseRefused _ _ => none
  | .translationDrop _ => none

/-- The word of an instruction as a number; 0 for an event. -/
def wordOf (i : Instr) : Nat := (encode i).getD 0

end Sys2Proof
end

