-- ==== Sys2Proof/Machine/State.lean ====
section
/-! DEFINITION. The state of one NX840 package: everything the spec gives the machine, as plain data (INVENTORY.md
lists it with the rules), and the machine right after package reset. Sparse tables (`Tab`) hold what is indexed by a
number; an absent key stands for the reset record. Fields that are the model's own (the agenda, the store-order and
free-value counters, the time of the package) say so. -/

namespace Sys2Proof.Machine

/-- Bytes by address, in one canonical form: addresses rise strictly and no listed byte is 0; an unlisted byte reads
0 (log 2: the spec gives no contents after reset). -/
abbrev Memory := List Host.Cell

/-- Why a run stops with a fault. -/
inductive Fault where
  /-- Raised by `step` when the agenda names a thread slot that the package does not have (R51: 0 to 16,383); the
  agenda is the model's own, so this is safe. -/
  | noSubject
  deriving DecidableEq, Repr

/-- Why a run stops with a refusal. -/
inductive Refusal where
  /-- Raised by `exec` for an instruction that has no meaning yet; safe. -/
  | notModelled (mnemonic : String)
  deriving DecidableEq, Repr

/-- Privilege levels (R17), coded 0b00, 0b10, 0b11 (R36). -/
inductive Priv where
  | user
  | sup
  | hyp
  deriving DecidableEq, Repr

/-- Slot states (R52). -/
inductive SlotState where
  | free
  | ready
  | parked
  | dropped
  | stopped
  deriving DecidableEq, Repr

/-- A location where bytes have their home (R175, R228): a byte of memory by its key (own device memory by its
package-local offset, peer memory at 2^48 + PKG·2^40 + offset, host memory at 2^55 + address: R364), a byte of a
core's scratchpad, or an entry of a near-counter file. -/
inductive Loc where
  | mem (key : Nat)
  | spad (core off : Nat)
  | near (core entry : Nat)
  deriving DecidableEq, Repr

/-- How the effect of the last word ended; the model's own, read by the bundle's composition (R22-R24). -/
inductive Ended where
  /-- The word took its effect. -/
  | done
  /-- The thread issues nothing and the bundle is issued again (R52 held). -/
  | held
  /-- A precise trap (R24, R82). -/
  | trapped (cause : Nat) (val : Word)
  /-- The thread parked (R53). -/
  | parked
  /-- The thread dropped, with a page request posted (R53). -/
  | dropped
  deriving DecidableEq, Repr

/-- Kinds of access (R287). -/
inductive Acc where
  | load
  | store
  | fetch
  deriving DecidableEq, Repr

/-- What an operation at a home does to a word of memory: a plain store, or a RED, AMO or scatter-add (R133, R254). -/
inductive Rmw where
  | put
  | add
  | and
  | or
  | xor
  | min
  | max
  | minu
  | maxu
  | swap
  | cas
  | fadd
  deriving DecidableEq, Repr

/-- A long result that is not yet written (R58). -/
inductive LongRes where
  /-- The operation has not been performed at its home. -/
  | waiting
  /-- The value is known and arrives next. -/
  | ready (v : Word)
  /-- The register is written; the entry stands until its window ends (R58). -/
  | written
  /-- The read met an uncorrectable error, or is unreachable or refused: a trap of cause `cause % 64` with the data
  address; for a counter fault `cause / 64` is the reason (R59, R177, R363). -/
  | failed (cause : Nat) (addr : Word)
  deriving DecidableEq, Repr

/-- A pending long result of a thread: destination, bundles left in its window, outcome, bundle address (R58, R59). -/
structure Long where
  d : Nat
  left : Nat
  res : LongRes
  pc : Word
  deriving DecidableEq, Repr

/-- The address form of a store as issued (R64, R128, R132). -/
inductive Space where
  /-- Virtual address, translated. -/
  | global
  /-- Offset in the issuing core's scratchpad. -/
  | scratch
  /-- A group member's scratchpad by rank and offset (R128). -/
  | peer
  /-- An address of the near window (R176). -/
  | near
  deriving DecidableEq, Repr

/-- Translation caches (R291). -/
inductive TCache where
  | core (n : Nat)
  | gather (n : Nat)
  | bench (n : Nat)
  deriving DecidableEq, Repr

/-- A cached combined translation of one 4 KiB page, with its tags and the page-table lines it was built from
(R291, R292). -/
structure TEntry where
  cache : TCache
  vmid : Nat
  asid : Nat
  glob : Bool
  mode1 : Nat
  mode2 : Nat
  host : Bool
  vpn : Nat
  gpn : Nat
  ppn : Nat
  /-- Permission of the first stage: R, W, X, U, D. -/
  r1 : Bool
  w1 : Bool
  x1 : Bool
  u1 : Bool
  d1 : Bool
  /-- Permission of the second stage: R, W, X, D. -/
  r2 : Bool
  w2 : Bool
  x2 : Bool
  d2 : Bool
  pbmt : Nat
  lines : List Nat
  /-- Level of the first-stage leaf, whose page the entry is a part of. -/
  lvl1 : Nat := 0
  /-- The second-stage leaves used: level, and the guest physical page of that level which it maps. -/
  gmaps : List (Nat × Nat) := []
  deriving DecidableEq, Repr

/-- A walk-cache entry (R291): where the walk of an address goes on after the non-leaf entries read, with its tags. -/
structure WEntry where
  bench : Nat
  /-- Stage: false first, true second. -/
  second : Bool
  vmid : Nat
  asid : Nat := 0
  glob : Bool := false
  mode1 : Nat := 0
  mode2 : Nat
  host : Bool := false
  /-- Level of the table that the entry names. -/
  lvl : Nat
  /-- The address bits above what that table maps. -/
  tag : Nat
  base : Nat
  lines : List Nat
  gmaps : List (Nat × Nat) := []
  deriving DecidableEq, Repr

/-- The translation that a store or posted operation on its way uses, by its thread and order number, and whether a write
has invalidated it since (R292, R302). -/
structure Use where
  tid : Nat
  seq : Nat
  tr : TEntry
  stale : Bool := false
  deriving DecidableEq, Repr

/-- A store in a store queue, or one that is checked and on its way (R244, R245). `seq` is the model's own order. -/
structure Store where
  seq : Nat
  op : Rmw := .put
  float : Bool := false
  space : Space := .global
  addr : Word
  off : Nat := 0
  width : Nat
  data : Word
  elem : Nat := 0
  /-- How many elements of a vector or tile store it writes; 0 for a scalar store. -/
  nelem : Nat := 0
  /-- An element of a vector store, and one of a scatter, which the gather TLB serves (R291). -/
  vec : Bool := false
  gather : Bool := false
  pc : Word := 0
  slot : Nat := 0
  word : Nat := 0
  priv : Priv := .user
  loc : Option Loc := none
  /-- Effective attribute of the page: 0 PMA, 1 NC, 2 IO (R287). -/
  pbmt : Nat := 0
  deriving DecidableEq, Repr

/-- A store-fault record that waits for room in its ring (R247), with the guest address of a second-stage refusal. -/
structure PendRec where
  st : Store
  code : Nat
  gpa : Word
  deriving DecidableEq, Repr

/-- The parked-wait record and how the waiter stands at the home (R193, R199, R200). -/
structure Wait where
  addr : Word
  thr : Word
  scope : Nat
  loc : Loc
  /-- Cycle at which `WLIM` runs out; none for no limit (R198). -/
  due : Option Nat
  /-- The wait of a `vldg` element (R131). -/
  guard : Bool := false
  listed : Bool := false
  /-- Cycle of the next poll when it is not listed (R196). -/
  poll : Nat := 0
  /-- A wake message reached the waiter, which re-reads next (R195). -/
  woken : Bool := false
  /-- The value last read at the home (R198). -/
  seen : Word := 0
  /-- How the waiting bundle completes: 0 a lone `ctr.wait`, 1 a lone `ctr.aw`, 2 by its reissue. -/
  how : Nat := 2
  deriving DecidableEq, Repr

/-- The parked-wait record of a Stopped thread (R200). -/
structure SavedWait where
  addr : Word := 0
  thr : Word := 0
  remain : Nat := 0
  scope : Nat := 0
  sel : Nat := 0
  guard : Bool := false
  how : Nat := 2
  deriving DecidableEq, Repr

/-- The vector instructions of a thread's queue (R115). -/
inductive VOp where
  | vld | vlds | vldx | vldff | vldg | vldb | vst | vsts | vstx | vstxa | vstxf | vadd | vsub | vmul | vmulh |
  vmin | vmax | vminu | vmaxu | vand | vor | vxor | vsll | vsrl | vsra | vsadd | vssub | vmacc | vdot4 | vfadd
  | vfsub | vfmul | vfdiv | vfsqrt | vfmin | vfmax | vfma | vfnma | vfabs | vfneg | vceq | vcne | vclt | vcle
  | vcltu | vcleu | vfceq | vfclt | vfcle | vfcun | mand | mor | mxor | mandn | mnot | mpop | mfirst | miota |
  mset | vredsum | vredmin | vredmax | vfredo | vfredt | vfredmin | vfredmax | vslup | vsldn | vrgather |
  vcompress | vbcast | vmvgv | vmvvg | vid | vmerge | vmv | vcvtN | vcvtW | vcvtFi | vcvtIf | vcvtQ4 | vcvtQ8
  deriving DecidableEq, Repr

/-- A vector instruction in a thread's queue with what it captured (R115). `elem` counts the elements or additions
performed. -/
structure VEntry where
  op : VOp
  d : Nat
  a : Nat
  b : Nat
  /-- Mask register, 0 for none. -/
  k : Nat
  sb : Bool := false
  /-- Element width of a memory instruction: 8 · 2^ew bits. -/
  ew : Nat := 0
  pc : Word
  slot : Nat
  vl : Nat
  vt : Nat
  vmt : Nat
  frm : Nat
  wbase : Word
  wctr : Word
  ga : Word
  gb : Word
  /-- Next element, from `VRS.ELEM` when the entry continues a cut instruction (R122). -/
  elem : Nat
  /-- The entry continues a cut instruction. -/
  cont : Bool := false
  /-- Lane beats already given (R119). -/
  beats : Nat := 0
  priv : Priv
  word : Nat
  /-- Place in the order of the thread's stores and posted operations (R236). -/
  seq : Nat := 0
  deriving DecidableEq, Repr

/-- A trap that waits until the thread's pending long results and queued vector work are done (R59, R123). -/
structure Due where
  cause : Nat
  val : Word
  slot : Nat
  epc : Word
  /-- Guest address, IMP and GVA of a second-stage fault (R290). -/
  guest : Option (Word × Bool × Bool) := none
  deriving DecidableEq, Repr

/-- Supervisor trap registers (R81). -/
structure SupRegs where
  status : Word := 0
  cause : Word := 0
  epc : Word := 0
  val : Word := 0
  vec : Word := 0
  scratch : Word := 0
  /-- `SIR.EN`. -/
  en : BitVec 5 := 0
  /-- `SIR.PEND`; bit 1 is computed from `CYCLE` and `SCMP` and is held 0 here. -/
  pend : BitVec 5 := 0
  cmp : Word := BitVec.allOnes 64
  deriving DecidableEq, Repr

/-- Hypervisor trap registers (R81). -/
structure HypRegs where
  status : Word := 0
  cause : Word := 0
  epc : Word := 0
  val : Word := 0
  gpa : Word := 0
  deleg : Word := 0
  vec : Word := 0
  scratch : Word := 0
  deriving DecidableEq, Repr

/-- The thread's own system registers of the user band (R81, R178). -/
structure UserRegs where
  flags : BitVec 5 := 0
  frm : Nat := 0
  wlim : Word := 0
  fmt : BitVec 12 := 0
  scb : Word := 0
  /-- `FMT` and `SCB` are locked. -/
  lock : Bool := false
  lwb : Word := 0
  afpc : Word := 0
  afop : Word := 0
  afcode : Word := 0
  lapc : Word := 0
  wval : Word := 0
  /-- `WSTAT.ARR`. -/
  arr : Bool := false
  deriving DecidableEq, Repr

/-- Vector state of a slot but for the register contents (R110-R115). -/
structure VecRegs where
  vl : Nat := 0
  vt : Nat := 0
  vmt : Nat := 0
  vrs : Word := 0
  vdm : BitVec 32 := 0
  /-- `VDEPTH.ROWS`, the depth rows owned. -/
  rows : Nat := 0
  wbase : Word := 0
  wctr : Word := 0
  sdepth : Word := 0
  /-- m1 to m7. -/
  masks : Tab (BitVec 8192) := []
  queue : List VEntry := []
  deriving DecidableEq, Repr

/-- Stages of an instruction that holds its thread over several issues (R52); the model's own record of what its
earlier issues have already done. -/
structure Hold where
  pc : Word
  stage : Nat
  a : Word := 0
  b : Word := 0
  n : Nat := 0
  deriving DecidableEq, Repr

/-- A stop that a thread is marked for (R76, R215): the counter of `grp.stop`, when it has one. -/
structure StopMark where
  ctr : Option Loc := none
  addr : Word := 0
  deriving DecidableEq, Repr

/-- An access that met a resolvable miss: address, kind, stage, implicit, guest address, and the word's place in its
bundle (R53, R290). -/
structure Miss where
  va : Word
  kind : Acc
  second : Bool
  imp : Bool
  gpa : Word
  slot : Nat := 0
  deriving DecidableEq, Repr

/-- One thread slot (R51-R53, R79). -/
structure Thread where
  state : SlotState := .free
  /-- State held before the stop (R53). -/
  prior : SlotState := .ready
  priv : Priv := .user
  pc : Word := 0
  g : Tab Word := []
  u : UserRegs := {}
  sr : SupRegs := {}
  hr : HypRegs := {}
  v : VecRegs := {}
  /-- `TSTAT.TS` (R148). -/
  ts : Nat := 0
  /-- VMID of the last thread held (R86). -/
  vmid : Nat := 0
  /-- The slot has held a thread (R86). -/
  used : Bool := false
  /-- Context of the thread (R51). -/
  ctx : Nat := 0
  /-- Kernel number, 0 for none (R73, R325). -/
  kernel : Nat := 0
  longs : List Long := []
  stores : List Store := []
  sent : List Store := []
  precs : List PendRec := []
  /-- SEQ of the first store-fault record not yet reported (R246). -/
  sfSeq : Option Nat := none
  /-- Guest physical address of a first unreported record of code 20 (R246). -/
  sfHyp : Option Word := none
  /-- A pending record has not yet been reported (R247). -/
  sfPend : Bool := false
  /-- A store was discarded for want of a ring (R247). -/
  sfNone : Bool := false
  /-- Guest address of a ring write refused at the second stage (R247, cause 20). -/
  sfRing : Option Word := none
  /-- `pause` holds the thread until this cycle (R60). -/
  pauseUntil : Option Nat := none
  due : Option Due := none
  hold : Option Hold := none
  /-- The fetched words of the bundle that the thread is in the middle of, with its address; the model's own (R53, R160). -/
  unit : Option (Word × Nat) := none
  wait : Option Wait := none
  saved : Option SavedWait := none
  /-- The wait of the bundle at the pc is satisfied and has acquired; its reissue completes it (R195). -/
  waitMet : Bool := false
  /-- REISSUE of the save area (R79). -/
  reissue : Bool := false
  stop : Option StopMark := none
  /-- The kernel whose killed thread left what is still on its way from the slot (R330). -/
  was : Nat := 0
  /-- The access that the Dropped thread waits for (R53). -/
  miss : Option Miss := none
  /-- Its page request was refused: the fault at the bundle (R300). -/
  refused : Option Miss := none
  /-- A transfer brought the thread to the pc: address of that bundle (R23). -/
  from_ : Option Word := none
  /-- Cause of an asynchronous fault that is reported and whose trap is not yet taken (R84): 15 or 16. -/
  asyncDue : Option Nat := none
  deriving DecidableEq, Repr

/-- The thread slot after package reset: Free, registers as the maps' Reset columns give them (R81, R114, R178,
R393). The general registers, the pc and the privilege have no reset value in the spec: 0 and user (log 1). -/
def Thread.reset : Thread := {}

/-- A line held in the L1 part of a core array, with the bench version at its fill (R230). -/
structure L1Line where
  ver : Nat
  data : Memory
  deriving DecidableEq, Repr

/-- A line of peer memory held in this package's L2, tagged with the domain version (R230, R232). -/
structure PeerLine where
  ver : Nat
  dirty : Bool
  /-- The contexts whose threads made it dirty (R232). -/
  ctxs : List Nat
  data : Memory
  deriving DecidableEq, Repr

/-- Configuration of the tile state that a command captures (R148, R151). -/
structure TileCfg where
  tm : Nat := 128
  tn : Nat := 64
  tk : Nat := 32
  tsa : Nat := 0
  tsb : Nat := 0
  tsca : Nat := 0
  tscb : Nat := 0
  tcc : Word := 0
  deriving DecidableEq, Repr

/-- The commands of a core's Marver queue (R149). -/
inductive TOp where
  | tileZero | tileLd | tileSt | tileLdx | tileStx | tileStxa | tileMma | tileMmax | tileGmma | tileRowv |
  tileVrow | tileQ | tileChol | tileTrsm | tileRel
  deriving DecidableEq, Repr

/-- A command in a core's Marver queue with what it captured (R149, R151). -/
structure TileCmd where
  op : TOp
  t : Nat
  /-- `C`: the command counts or adds (R151). -/
  c : Bool := false
  a : Nat := 0
  b : Nat := 0
  y : Nat := 0
  tid : Nat
  /-- Place in the order of the thread's stores and posted operations (R243). -/
  seq : Nat := 0
  pc : Word
  ga : Word
  gb : Word
  cfg : TileCfg
  fmt : BitVec 12
  scb : Word
  vt : Nat
  step : Nat := 0
  flags : BitVec 5 := 0
  started : Bool := false
  /-- Row offsets or index entries, read as the command starts (R163, R166). -/
  latch : List Nat := []
  /-- Elements of A and B that the steps of a block of a scaled product have read, row by row (R154). -/
  opA : List (List Nat) := []
  opB : List (List Nat) := []
  priv : Priv := .user
  ctx : Nat := 0
  word : Nat := 0
  /-- The page request of the completion counter was refused. -/
  refused : Bool := false
  /-- The thread was ended while the command ran (R174). -/
  orphan : Bool := false
  /-- Of a running `tile.gmma` whose thread is ended: the cores of the ranks of A and of B, as they were then (R167, R174). -/
  peers : Option (Option Nat × Option Nat) := none
  /-- The thread whose `grp.kill` waits for this command (R217). -/
  killer : Option Nat := none
  deriving DecidableEq, Repr

/-- The holder record of a core's tile state (R144, R148). -/
structure Town where
  hv : Bool := false
  hold : Nat := 0
  hts : Nat := 0
  vmid : Nat := 0
  deriving DecidableEq, Repr

/-- Kinds of copy-channel request (R268). -/
inductive XKind where
  | copy
  | fill
  | tensor
  | mcast
  | send
  | reduce
  deriving DecidableEq, Repr

/-- A copy-channel request with what it captured (R268, R279). -/
structure XReq where
  kind : XKind
  desc : List Byte
  pc : Word
  word : Nat
  ga : Word
  gb : Word
  gd : Word
  scope : Nat
  counted : Nat := 0
  chunk : Nat := 0
  skipped : Nat := 0
  ctx : Nat
  priv : Priv
  tid : Nat
  /-- Place in the order of the thread's stores and posted operations (R243). -/
  seq : Nat := 0
  /-- Chunks written at each multicast receiver (R276). -/
  rcv : List (Nat × Nat) := []
  /-- The request joined or opened a stream (R277); of a reduction, its last source chunk is sent (R369). -/
  joined : Bool := false
  /-- Access whose translation waits for an answer (R270, R300). -/
  waits : Option (Acc × Word) := none
  /-- Accesses whose page request was refused: kind and page (R300). -/
  refused : List (Acc × Nat) := []
  /-- A multicast's fault, reported when every receiver has the chunks below it: the first chunk not written, code, address
  (R278). -/
  bad : Option (Nat × Nat × Word) := none
  /-- The reduction address of the first chunk (R369). -/
  round : Nat := 0
  /-- Source lines of a multicast that a stream has sent and no chunk has used up, by place of the receiver × 4096 + line
  number (R277). -/
  lines : Tab (List Byte) := []
  deriving DecidableEq, Repr

/-- The copy channel of a core (R265-R267). -/
structure Channel where
  en : Bool := false
  scope : Nat := 0
  state : Nat := 0
  done : Nat := 0
  sh : Bool := false
  req : Option XReq := none
  /-- A fault waits until `AFCODE.V` of the owner is 0 (R84): code, faulting address. -/
  fault : Option (Nat × Word) := none
  deriving DecidableEq, Repr

/-- One core (R7): its own registers, array split, copies of lines, tile state and channel. -/
structure Core where
  /-- Package cycle of the last core reset (R57). -/
  base : Nat := 0
  /-- `SPSZ.SP` (R81). -/
  sp : Nat := 0
  /-- `NCBASE` (R178). -/
  ncbase : Word := 0
  /-- Bench version (R230). -/
  bv : Nat := 0
  l1 : Tab L1Line := []
  /-- Slot granted the last lane beat (R119). -/
  lane : Nat := 15
  cfg : TileCfg := {}
  town : Town := {}
  tq : List TileCmd := []
  /-- Marver weight of the core (R150). -/
  weight : Nat := 1
  ch : Channel := {}
  /-- Tile fault of the running command that waits for `AFCODE.V` (R84): thread, code, address, progress, index. -/
  tfault : Option (TileCmd × Nat × Word × Nat × Nat) := none
  /-- The tile state of an ended thread is released once the command queue is empty (R147, R174). -/
  relPending : Bool := false
  deriving DecidableEq, Repr

/-- The arbiter of a bench's Marver (R150): position served last, grants it has left, core whose command runs. -/
structure Bench where
  last : Nat := 7
  left : Nat := 0
  running : Option Nat := none
  deriving DecidableEq, Repr

/-- A posted or long counter operation, an AMO or a RED on its way to its home (R183, R255, R257). -/
inductive PostKind where
  | add
  | fadd
  | test
  | read
  | amo (op : Rmw)
  | red (op : Rmw)
  deriving DecidableEq, Repr

/-- An operation on its way to its home. `seq` is the model's own order with the thread's stores (R236). -/
structure Post where
  kind : PostKind
  seq : Nat
  tid : Nat
  ctx : Nat
  addr : Word
  loc : Loc
  amount : Word
  /-- Second operand of `amo.cas`. -/
  cmp : Word := 0
  scope : Nat := 0
  /-- Destination of a long form. -/
  d : Nat := 0
  pc : Word := 0
  /-- Effective attribute of the page: 0 PMA, 1 NC, 2 IO (R287). -/
  pbmt : Nat := 0
  /-- An add of the device for a queue or a host window: the partition told of a dropped one (R202, R308). -/
  engine : Option Nat := none
  deriving DecidableEq, Repr

/-- A wake message on its way to a thread for a counter (R194). -/
structure Wake where
  tid : Nat
  loc : Loc
  deriving DecidableEq, Repr

/-- An arm entry at a home (R191, R373): the slot to interrupt, or the counter-window entry of a virtual function (`vf`
from 0 to 127), or the peer package `vf - 128` whose thread waits (R366). -/
structure Arm where
  loc : Loc
  thr : Word
  tid : Option Nat
  vf : Nat := 0
  ent : Nat := 0
  /-- The counter address as the arming thread gave it. -/
  addr : Word := 0
  deriving DecidableEq, Repr

/-- Group states (R206); Free is the absent group. -/
inductive GroupState where
  | empty
  | opened
  | pinned
  | stopping
  | held
  deriving DecidableEq, Repr

/-- A group-table entry (R204-R206). -/
structure Group where
  gen : Nat := 1
  used : Bool := false
  state : GroupState := .empty
  ctx : Nat := 0
  /-- (rank, thread), ranks rising. -/
  members : List (Nat × Nat) := []
  deriving DecidableEq, Repr

/-- A halo region of a gang (R249-R253): the gang, its handle and the descriptor's fields. -/
structure Halo where
  gid : Nat
  handle : Nat
  ctx : Nat
  base : Word
  rows : Nat
  cols : Nat
  stride : Nat
  es : Nat
  h : Nat
  gx : Nat
  gy : Nat
  rbase : Nat
  /-- Virtual page number and the memory page it translated to when the region was declared. -/
  pages : List (Nat × Nat)
  deriving DecidableEq, Repr

/-- A `grp.mcast` under delivery (R214). -/
structure Mcast where
  tid : Nat
  ctx : Nat
  panel : List (List Byte)
  /-- Row and byte of panel bytes that were read with an uncorrectable error. -/
  bad : List (Nat × Nat) := []
  dst : Nat
  dstride : Nat
  ctrEnt : Option Nat
  scope : Nat
  /-- Cores still to be delivered. -/
  left : List Nat
  /-- Source counter, with its address. -/
  src : Option (Loc × Word)
  read : Bool := false
  /-- Order of the issuer's earlier accesses. -/
  seq : Nat
  srcOff : Nat
  rowb : Nat
  sstride : Nat
  rows : Nat
  deriving DecidableEq, Repr

/-- A multicast stream in flight at a home slice: the memory pages of its source range, the offset in the first, and the
next line (R277). -/
structure Stream where
  src : List Nat
  off : Nat
  len : Nat
  line : Nat
  cores : List Nat
  deriving DecidableEq, Repr

/-- Who waits for a page request (R298, R300). -/
inductive Requester where
  | thread (tid : Nat)
  | store (tid : Nat)
  /-- A core's channel, in the request of this number, for an access at an address. -/
  | channel (core seq : Nat) (va : Word)
  /-- The Gaffer, for an access of a kernel at an address. -/
  | kernel (num : Nat) (addr : Word)
  /-- The command that a core has in the Marver, for its completion counter. -/
  | marver (core : Nat)
  /-- The ring record of another entry (R299). -/
  | ring (ent : Nat)
  /-- A call that completes, for what is written in its caller's context: its lane and its number (R319). -/
  | call (key seq : Nat)
  deriving DecidableEq, Repr

/-- An entry of the page-request queue, or a request that waits for one (R297-R299). -/
structure PageReq where
  ctx : Nat
  /-- Stage of the owner: false first, true second. -/
  second : Bool
  kind : Acc
  imp : Bool
  priv : Priv
  src : Nat
  va : Word
  gpa : Word
  asid : Nat
  tid : Nat
  gen : Nat := 0
  reqs : List Requester
  /-- The record is in its ring. -/
  written : Bool := false
  /-- The entry taken is a shared one, not one of the context's reserved ones (R297). -/
  shared : Bool := false
  deriving DecidableEq, Repr

/-- A call in a lane of a call queue (R314-R317). -/
structure Call where
  seq : Nat
  packet : List Byte
  strong : Bool
  cost : Nat
  reply : Word
  notify : Word
  tid : Nat
  ctx : Nat := 0
  priv : Priv := .user
  /-- The taker: 16384 for the device, which completes the call of a closed queue. -/
  taken : Option Nat := none
  /-- The address whose page request the completion waits for, and those whose request was refused (R319). -/
  pend : Option Word := none
  dead : List Word := []
  deriving DecidableEq, Repr

/-- A lane of a call queue (R309, R315, R317). -/
structure Lane where
  done : Word := 0
  vmid : Nat := 0
  quantum : Nat := 1
  seq : Nat := 0
  /-- Largest s with every call up to s completed. -/
  prefix_ : Nat := 0
  deficit : Nat := 0
  /-- The calls that are not completed, in order of number. -/
  calls : List Call := []
  deriving DecidableEq, Repr

/-- Where a launch record came from (R311, R330, R331). -/
inductive Source where
  /-- Context 256 stands for one that is gone. -/
  | thread (tid ctx : Nat)
  | host (vf : Nat)
  | eth (port : Nat) (frame : List Byte)
  deriving DecidableEq, Repr

/-- A source whose context is no longer the one that launched (R330, R335). -/
def Source.without (x : Source) (n : Nat) : Source :=
  match x with
  | .thread t c => .thread t (if c = n then 256 else c)
  | x => x

/-- A queue-table entry with what the queue holds (R308-R311). -/
structure Queue where
  kind : Nat := 0
  part : Nat := 0
  scope : Nat := 6
  log2d : Nat := 4
  svc : Nat := 0
  arrive : Nat := 0
  closed : Bool := false
  /-- Closed by a reconfiguration, to be reopened by it (R356). -/
  quiesced : Bool := false
  /-- Lane visited last, and whether it may still give out calls of this turn (R317). -/
  last : Nat := 15
  turn : Bool := false
  deriving DecidableEq, Repr

/-- A model-slot descriptor (R321). -/
structure Model where
  state : Nat := 0
  part : Nat := 0
  vmid : Nat := 0
  qos : Nat := 0
  weight : Nat := 1
  minth : Nat := 0
  etab : Word := 0
  nent : Nat := 1
  nclo : Nat := 0
  argoff : Nat := 0
  stksz : Nat := 0
  stkbase : Word := 0
  lwb : Word := 0
  deriving DecidableEq, Repr

/-- Kernel states that are not ends (R325), and ended. -/
inductive KState where
  | received
  | queued
  | admitted
  | running
  | draining
  /-- Received, Queued or failed binding that is owed an end sequence with this CODE (R329). -/
  | failed (code : Nat)
  | ended (code : Nat)
  deriving DecidableEq, Repr

/-- A kernel (R325, R328-R330). -/
structure Kernel where
  q : Nat
  src : Source
  rec_ : List Byte
  state : KState := .received
  model : Nat := 0
  ctx : Nat := 0
  entry : Word := 0
  rows : Nat := 0
  tiles : Nat := 0
  ncounters : Nat := 0
  threads : Nat := 1
  /-- Threads counted, ended and killed (R329). -/
  count : Nat := 0
  ended : Nat := 0
  killed : Nat := 0
  flags : BitVec 5 := 0
  gid : Nat := 0
  /-- Partition of the queue that took the record. -/
  part : Nat := 0
  /-- The address whose page request the Gaffer waits for, and those whose request was refused (R330, R426). -/
  pend : Option Word := none
  dead : List Word := []
  /-- Binding has read the kernel record and stands at CCTR (R426). -/
  atCctr : Bool := false
  /-- `STATUS` := 0 of the admission is still to be stored (R325). -/
  zeroDue : Bool := false
  /-- Cores on which the kernel holds its near range, until its end sequence (R322, R330). -/
  cores : List Nat := []
  /-- Slots reserved for its threads at admission (R325). -/
  places : List Nat := []
  /-- The status word as last stored. -/
  status : Word := 0
  deriving DecidableEq, Repr

/-- Context states by code (R334). -/
inductive CState where
  | empty
  | loading
  | ready
  | running
  | suspended
  | sealing
  | sealed
  | restoring
  | destroyed
  deriving DecidableEq, Repr

/-- A context with its registers (R285, R334, R338, R340). -/
structure Ctx where
  state : CState := .empty
  vmid : Nat := 0
  part : Nat := 0
  vf : Option Nat := none
  qos : Nat := 0
  measure : List Byte := List.replicate 32 0
  /-- LINID and HOME (R340). -/
  lineage : Option (List Byte × Nat) := none
  sxlat : Word := 0
  sfqb : Word := 0
  sfqn : Nat := 16
  sprq : Word := 0
  spra : Word := 0
  hgxlat : Word := 0
  hprq : Word := 0
  hpra : Word := 0
  hostpt : Bool := false
  cap : Nat := 0
  celb : Word := 0
  celn : Nat := 16
  hmsg : Word := 0
  lupd : Word := 0
  /-- `OVF` of an error log that has no base: records lost with no ring to hold the count (R338). -/
  ovf : Word := 0
  /-- Thread whose SUSPEND command is under way (R336). -/
  suspending : Option Nat := none
  /-- DESTROY waits for a job (R335). -/
  destroying : Bool := false
  /-- Near ranges of its kernels when it was destroyed, which the scrub clears: core, first entry, count (R335). -/
  nears : List (Nat × Nat × Nat) := []
  deriving DecidableEq, Repr

/-- A lineage at its home (R340, R341). -/
structure Lineage where
  linid : List Byte
  counter : Nat
  fw : List Byte
  measure : List Byte
  sealer : List Byte := []
  /-- Job that holds the lease. -/
  lease : Option Nat := none
  /-- Sealing key that a commit of the leased job records: a seal's; none for a restore. -/
  nextSealer : Option (List Byte) := none
  /-- A counter write that the block device has not acknowledged (R340). -/
  pendingWrite : Option Nat := none
  deriving DecidableEq, Repr

/-- Phases of a seal or restore job (R341). -/
inductive JPhase where
  | queued
  /-- It waits for the nonce of a home of another package (R341). -/
  | asked
  | quoted
  | leased
  | keyed
  | committing
  | done
  deriving DecidableEq, Repr

/-- A job of the seal engine (R342-R346). -/
structure Job where
  id : Nat
  restore : Bool
  ctx : Nat
  desc : List Byte
  phase : JPhase := .queued
  linid : List Byte := []
  home : Nat := 0
  lctr : Nat := 0
  /-- The nonce of the job's quote and its ephemeral private key, 32 random bytes (R341). -/
  nonce : List Byte := []
  eph : List Byte := []
  /-- A restore job: the header of the image, read once (R345). -/
  header : List Byte := []
  bytes : Nat := 0
  tid : Nat
  deriving DecidableEq, Repr

/-- A granule's owner and interleave register (R306, R351). -/
structure Granule where
  part : Nat := 0
  mode : Nat := 0
  unit : Nat := 0
  deriving DecidableEq, Repr

/-- Partition states (R356). -/
inductive PState where
  | unused
  | active
  | quiescing
  | reconfiguring
  deriving DecidableEq, Repr

/-- The partition tables (R350-R359). Partition 24 stands for NONE. -/
structure Parts where
  bench : Tab Nat := []
  granule : Tab Granule := []
  qos : Tab (Nat × Nat) := []
  vf : Tab Nat := []
  route : Tab (Nat × Bool) := []
  state : Tab PState := [(0, .active)]
  adm : Tab Nat := []
  preq : Word := 0
  /-- `PSTAT`. -/
  busy : Bool := false
  status : BitVec 16 := 0
  /-- `CTXC`. -/
  ctxc : Word := 0
  /-- Partition-authority key, last SEQ of requests and of signed commands (R359). -/
  key : Option (List Byte) := none
  seqReq : Nat := 0
  seqCmd : Nat := 0
  /-- Request under way: header bytes, body bytes, and the posting core's partition. -/
  req : Option (List Byte × List Byte × Nat) := none
  /-- Benches withdrawn when its checks passed (R357). -/
  wdn0 : Nat := 0
  /-- Plans that wait for the end of a request, as they were signed (R359). -/
  plans : List (List Byte) := []
  deriving DecidableEq, Repr

/-- Link-port states (R361). -/
inductive LState where
  | down
  | training
  | up
  | degraded
  | retraining
  | failed
  | fenced
  deriving DecidableEq, Repr

/-- A link port (R360-R362). -/
structure Port where
  state : LState := .down
  lanes : Nat := 0
  replay : Nat := 0
  retrain : Nat := 0
  attempts : Nat := 0
  deriving DecidableEq, Repr

/-- A request to a peer that has found no reachable path and waits (R363). -/
structure Stuck where
  tid : Nat
  /-- 0 a load, fetch or wait of the thread, 1 a posted or long operation, 2 a store, 3 an add of an engine, 4 an access of
  its copy channel, 5 a listed arm, 6 a store of the device, 7 the write-back of the dirty line `addr`; the operation is named
  by `seq`. -/
  kind : Nat
  addr : Word
  seq : Nat
  /-- Package of the home, 256 when the path is the switch's. -/
  pkg : Nat := 256
  /-- The path timeout has passed. -/
  expired : Bool := false
  deriving DecidableEq, Repr

/-- A virtual function (R373-R378). -/
structure Vf where
  window : Memory := []
  fence : Memory := []
  table : Tab Word := []
  /-- Arm status of each entry: 1 armed, 2 refused for a full table. -/
  arms : Tab Nat := []
  hprb : Word := 0
  hans : Word := 0
  errcnt : Nat := 0
  errlast : List Byte := List.replicate 32 0
  deriving DecidableEq, Repr

/-- An Ethernet port (R313, R379, R380). -/
structure Eth where
  mac : List Byte := List.replicate 6 0
  ips : Tab (List Byte) := []
  /-- rule number ↦ UDP port, key, queue, EN. -/
  rules : Tab (Nat × Nat × Nat × Bool) := []
  rxdrop : Nat := 0
  txdrop : Nat := 0
  /-- The port cannot send (R331). -/
  mute : Bool := false
  deriving DecidableEq, Repr

/-- The Lehr's registers and records (R382, R385-R392). -/
structure Lehr where
  pwr : Nat := 0
  tmax : Nat := 0
  wdn : Nat := 0
  freq : Nat := 0
  capt : Bool := false
  thrt : Bool := false
  /-- The Marver issue limit of R387 acts. -/
  slowMarver : Bool := false
  /-- A bench at 105 °C or above lowers the clock (R388). -/
  hotBench : Bool := false
  /-- Stacks whose request rate is halved (R388). -/
  slowStacks : List Nat := []
  fwok : Bool := false
  rdy : Bool := false
  lpcap : Nat := 3000
  levb : Word := 0
  levp : Nat := 0
  withdrawn : List Nat := []
  transients : Nat := 0
  /-- Planned margins of the benches, in mV (R389). -/
  margins : Tab Nat := []
  /-- Cycle at which the clock last changed, and the nanoseconds since package reset by then; the model's own, for the time
  of an event record (R386). -/
  tick0 : Nat := 0
  ns0 : Nat := 0
  /-- The stacks pass training (R387). -/
  trained : Bool := true
  /-- The image held does not verify: the package waits for another (R392). -/
  fwBad : Bool := false
  /-- Staging buffer: size and bytes (R382). -/
  staging : Option (Nat × Memory) := none
  /-- Image verified for the next package reset. -/
  next : Option (List Byte) := none
  fwMeasure : List Byte := List.replicate 32 0
  /-- The protected store is mounted: an NX840-P may have none (R1, R340). -/
  store : Bool := true
  deriving DecidableEq, Repr

/-- What leaves the package: MSI-X (function, vector), frames sent, management responses, results pushed on links. -/
structure Outbox where
  msix : List (Nat × Nat) := []
  frames : List (Nat × List Byte) := []
  replies : List (List Byte) := []
  /-- Bytes sent to the reduction switch and multicast windows (R367, R369): (address, bytes). -/
  switch : List (Nat × List Byte) := []
  /-- Answers of this package as a lineage home to jobs of other packages: job, status, and with a lease the wrapped key,
  its tag, the home's ephemeral key, and the sealer's key or the home's counter (R341). -/
  answers : List (Nat × Int × List Byte) := []
  /-- What this package's jobs send to homes of other packages: job, home, and a zero byte for a nonce, a quote, the counter of
  a commit, or nothing for an abort (R341; log 68). -/
  asks : List (Nat × Nat × List Byte) := []
  /-- Answers to accesses of peer packages: package, a code (log 44) and bytes (R365, R366). -/
  remote : List (Nat × Nat × List Byte) := []
  /-- Completions of the host's CXL.mem accesses: address, 0 for the bytes of a read, 1 for an unsupported request (R234,
  R252). -/
  cxl : List (Nat × Nat × List Byte) := []
  /-- What reads of the host return: function, offset, bytes (R362, R373, R380, R385). -/
  reads : List (Nat × Nat × List Byte) := []
  deriving DecidableEq, Repr

/-- A host fence message under way (R296, R376). -/
structure Fence where
  vf : Nat
  asid : Option Nat
  range : Option (Nat × Nat)
  ack : Nat
  val : Word
  deriving DecidableEq, Repr

/-- What a partner word reads in place of what its control word has just written (R22). -/
structure Snap where
  g : Tab Word
  /-- How many long results were pending before the bundle (R58). -/
  longs : Nat
  /-- Depth rows before the bundle. -/
  rows : Nat
  frm : Nat
  vl : Nat
  vt : Nat
  vmt : Nat
  vrs : Word
  deriving DecidableEq, Repr

/-- What the package does next; the model's own (which agent moves is not fixed by the spec). -/
inductive Act where
  /-- The thread of this slot issues at its next issue cycle (R55). -/
  | issue (tid : Nat)
  /-- A device or outside event happens. -/
  | event (i : Instr)
  /-- Time passes. -/
  | pass (cycles : Nat)
  /-- The hypervisor closes or opens a queue of the queue table, launch or call (R310). -/
  | close (q : Nat) (closed : Bool)
  /-- The device goes on with the calls of a call queue that it took as the queue was closed (R310, R319). -/
  | calls (q : Nat)
  /-- The hypervisor sets a Resident model slot to Closing (R325). -/
  | closing (slot : Nat)
  /-- An Ethernet port becomes unable to send, or able again (R331). -/
  | mute (port : Nat) (on : Bool)
  /-- The host maps the device's CXL.mem range at a host physical address (R288). -/
  | hdm (base : Nat)
  /-- The home of a job of this package, in another package, gives the job its nonce (R341). -/
  | nonce (job : Nat) (bytes : List Byte)
  /-- A peer package asks this one, a lineage home, for a nonce for its job (R341). -/
  | nonceAsk (job : Nat)
  /-- A job of a peer package aborts its lease at this package, its home (R341). -/
  | leaseAbort (lin job : Nat)
  /-- A late record is written as its ring has room (R247). -/
  | lateRecord (n : Nat)
  /-- The host reads bytes of a function's BAR0 (R362, R373, R380, R385). -/
  | hostRead (fn off n : Nat)
  /-- The host writes fewer than 8 bytes to a place of a function's BAR0 that takes 8 (R373, R377). -/
  | hostNarrow (fn off : Nat) (data : List Byte)
  /-- A Fealman message whose CMD is none of R382's. -/
  | message (m : List Byte)
  /-- The droop monitor of a bench finds a droop below the planned margin, which recurs at the retry or not (R388). -/
  | droop (bench : Nat) (again : Bool)
  /-- The stacks pass their training, or do not (R387). -/
  | train (ok : Bool)
  deriving DecidableEq, Repr

/-- The state of a package. -/
structure State where
  /-- What happens next; the model's own. When it is empty, `step` follows its default order (log 3). -/
  agenda : List Act := []
  /-- Turn of the default order; the model's own. -/
  turn : Nat := 0
  /-- Cycles since package reset. -/
  cycle : Nat := 0
  /-- Thread whose word is being performed; the model's own. -/
  cur : Nat := 0
  /-- Word of the bundle being performed: 0 control or lone, 1 partner (R22). -/
  slot : Nat := 0
  snap : Option Snap := none
  last : Ended := .done
  /-- Next free value; the model's own counter (log 4). -/
  fresh : Nat := 0
  /-- Order of stores and posted operations; the model's own. -/
  order : Nat := 0
  threads : Tab Thread := []
  cores : Tab Core := []
  benches : Tab Bench := []
  mem : Memory := []
  spads : Memory := []
  vregs : Memory := []
  tiles : Tab (BitVec 32) := []
  near : Tab Word := []
  /-- Aligned 8-byte units of a home that hold an uncorrectable error. -/
  poison : List Loc := []
  peerLines : Tab PeerLine := []
  /-- Domain version (R230). -/
  dv : Nat := 0
  posts : List Post := []
  /-- Listed waiters (R193): thread and counter; the rest of an entry is the thread's `wait`. -/
  waiters : List (Nat × Loc) := []
  arms : List Arm := []
  wakes : List Wake := []
  groups : Tab Group := []
  halos : List Halo := []
  /-- Dirty interior bytes, by owner thread × 2^57 + memory key (R251). -/
  haloDirty : Tab Byte := []
  /-- Replica bytes that differ from what an unlisted one has, the home's, by holder thread × 2^57 + key (R250). -/
  haloRep : Tab Byte := []
  mcasts : List Mcast := []
  streams : List Stream := []
  /-- CXL.cache copies of host lines in L2, by the number of the 64-byte line (R228, R233, R372). -/
  hostLines : Tab PeerLine := []
  tlb : List TEntry := []
  wcache : List WEntry := []
  uses : List Use := []
  pages : Tab PageReq := []
  /-- Generations of freed page-request entries. -/
  pageGens : Tab Nat := []
  pageWaits : List PageReq := []
  queues : Tab Queue := []
  lanes : Tab Lane := []
  models : Tab Model := []
  kernels : Tab Kernel := []
  /-- Kernel number of the next record (R325). -/
  kernelNext : Nat := 1
  /-- Slot served last and admissions it has left, by partition × 4 + PRIO (R327). -/
  served : Tab (Nat × Nat) := []
  /-- Reserved head, by partition × 4 + PRIO (R327). -/
  heads : Tab Nat := []
  ctxs : Tab Ctx := []
  jobs : List Job := []
  jobNext : Nat := 0
  lineages : Tab Lineage := []
  /-- Nonces that this package, as a home, gave to jobs of peer packages (R341). -/
  nonces : Tab (List Byte) := []
  parts : Parts := {}
  pkg : Nat := 0
  ports : Tab Port := []
  routes : Tab Nat := []
  domains : Tab Nat := []
  xgroups : Tab Nat := []
  stuck : List Stuck := []
  /-- Store-fault records of callers whose slots are gone, which wait for room in their rings: context, thread (R247, R319). -/
  lateRecs : List (Nat × Nat × PendRec) := []
  /-- What the domain tables of peer packages refuse: package ↦ bits of this package's partitions (R365). -/
  denied : Tab Nat := []
  vfs : Tab Vf := []
  fences : List Fence := []
  /-- Host physical address of the device's CXL.mem range, once the host has mapped it (R288). -/
  hdm : Option Nat := none
  eths : Tab Eth := []
  lehr : Lehr := {}
  out : Outbox := {}
  deriving DecidableEq, Repr

/-- The package right after package reset: every table at its reset records, every slot Free (R204, R263, R325, R327,
R359, R393), memory with nothing listed. -/
def State.reset : State := {}

end Sys2Proof.Machine
end

