-- ==== Sys2Proof/Machine/Mem.lean ====
section
/-! DEFINITION. Reading and writing sparse tables and memories. Every wider access is built here from bytes, so the
byte order is decided once: the least significant byte lies at the lowest address (R3). -/

namespace Sys2Proof.Machine

/-- The entry of a table at a key, or the default. -/
def tget {α : Type} (t : Tab α) (k : Nat) (d : α) : α :=
  match t with
  | [] => d
  | (i, v) :: r => if i = k then v else tget r k d

/-- A table with one entry written, keys rising. -/
def tput {α : Type} (t : Tab α) (k : Nat) (v : α) : Tab α :=
  match t with
  | [] => [(k, v)]
  | (i, w) :: r => if k < i then (k, v) :: (i, w) :: r else if k = i then (k, v) :: r else (i, w) :: tput r k v

/-- A table without a key. -/
def tdel {α : Type} (t : Tab α) (k : Nat) : Tab α := t.filter fun e => e.1 ≠ k

/-- The canonical form of a memory: addresses rise strictly, and no listed byte is 0, what an unlisted one reads as. -/
def Memory.wf : Memory → Bool
  | [] => true
  | [(_, b)] => b ≠ 0
  | (a, b) :: (c, d) :: r => b ≠ 0 && a < c && Memory.wf ((c, d) :: r)

/-- The byte at an address; 0 where nothing is listed (log 2). -/
def mget : Memory → Nat → Byte
  | [], _ => 0
  | (i, c) :: r, a => if a < i then 0 else if a = i then c else mget r a

/-- A memory with one byte written, in the canonical form. -/
def mput : Memory → Nat → Byte → Memory
  | [], a, b => if b = 0 then [] else [(a, b)]
  | (i, c) :: r, a, b =>
    if a < i then (if b = 0 then (i, c) :: r else (a, b) :: (i, c) :: r)
    else if a = i then (if b = 0 then r else (a, b) :: r)
    else (i, c) :: mput r a b

/-- `n` bytes from an address as a number, little-endian (R3). -/
def mrd (m : Memory) (a : Nat) : Nat → Nat
  | 0 => 0
  | n + 1 => (mget m a).toNat + 256 * mrd m (a + 1) n

/-- A memory with the low `n` bytes of a number written at an address, little-endian (R3). -/
def mwr (m : Memory) (a : Nat) : Nat → Nat → Memory
  | 0, _ => m
  | n + 1, v => mwr (mput m a (BitVec.ofNat 8 v)) (a + 1) n (v / 256)

/-- `n` bytes from an address. -/
def mbytes (m : Memory) (a : Nat) : Nat → List Byte
  | 0 => []
  | n + 1 => mget m a :: mbytes m (a + 1) n

/-- A memory with a list of bytes written from an address on. -/
def mputs (m : Memory) (a : Nat) : List Byte → Memory
  | [] => m
  | b :: bs => mputs (mput m a b) (a + 1) bs

/-- A memory with `n` bytes from an address on set to 0. -/
def mzero (m : Memory) (a n : Nat) : Memory := m.filter fun e => ¬(a ≤ e.1 ∧ e.1 < a + n)

/-- Bytes as a number, the least significant first (R3). -/
def bytesNat : List Byte → Nat
  | [] => 0
  | b :: bs => b.toNat + 256 * bytesNat bs

/-- The low `n` bytes of a number (R3). -/
def natBytes : Nat → Nat → List Byte
  | 0, _ => []
  | n + 1, v => BitVec.ofNat 8 v :: natBytes n (v / 256)

/-- `n` bytes at an offset of a byte string as a number (R3); absent bytes read 0. -/
def field (bs : List Byte) (off n : Nat) : Nat := bytesNat ((bs.drop off).take n)

/-- Is every byte of a run zero? -/
def zeros (bs : List Byte) (off n : Nat) : Bool := ((bs.drop off).take n).all (· == 0)

/-- A list with its n-th element replaced. -/
def lput {α : Type} (l : List α) (n : Nat) (v : α) : List α :=
  match l, n with
  | [], _ => []
  | _ :: r, 0 => v :: r
  | x :: r, n + 1 => x :: lput r n v

/-- A list without its n-th element. -/
def ldel {α : Type} (l : List α) (n : Nat) : List α :=
  match l, n with
  | [], _ => []
  | _ :: r, 0 => r
  | x :: r, n + 1 => x :: ldel r n

/-- Fold over 0 to n − 1, in order. -/
def upto {α : Type} (n : Nat) (f : Nat → α → α) (x : α) : α :=
  match n with
  | 0 => x
  | k + 1 => f k (upto k f x)

/-- The least number below `n` (from `k` on) that has a property. -/
def leastFrom (p : Nat → Bool) (k : Nat) : Nat → Option Nat
  | 0 => none
  | n + 1 => if p k then some k else leastFrom p (k + 1) n

end Sys2Proof.Machine
end

