-- ==== Sys2Proof/Machine/Ops.lean ====
section
/-! DEFINITION. The named operations over the state: threads, cores, contexts, registers, the end of a word, taking an
exception and returning from one, groups and partitions. Meanings and events are written over these. -/

namespace Sys2Proof.Machine

/-- The outcome type of a word or an event. -/
abbrev Out := Host.Outcome State Fault Refusal

/-! ### The fields of registers (R4, R38, R81, R114, R178): reserved bits of a value written are ignored -/

/-- The bits of a value that a mask selects. -/
def masked (v : Word) (m : Nat) : Word := v &&& BitVec.ofNat 64 m

def lwbFields (v : Word) : Word := masked v 0xFFFFFFFFFFF80001
def afopFields (v : Word) : Word := masked v 0xFFFFFFFFFFFFFFC0
def afcodeFields (v : Word) : Word := masked v 0x80000000000001FF
def vrsFields (v : Word) : Word := masked v 0xC000000000001FFF
def sstatusFields (v : Word) : Word := masked v 0x103
def hstatusFields (v : Word) : Word := masked v 0xF03
def causeFields (v : Word) : Word := masked v 0xC00000000000003F
def vecFields (v : Word) : Word := masked v 0xFFFFFFFFFFFFFFF8
def sfqbFields (v : Word) : Word := masked v 0xFFFFFFFFFFFFFFC0
def prqFields (v : Word) : Word := masked v 0xFFFFFFFFFFFFFFCF
def celbFields (v : Word) : Word := masked v 0xFFFFFFFFFFFFFFC0

/-! ### Records of the state -/

def th (s : State) (t : Nat) : Thread := tget s.threads t Thread.reset
def setTh (s : State) (t : Nat) (x : Thread) : State := { s with threads := tput s.threads t x }
/-- The thread whose word is being performed. -/
def me (s : State) : Thread := th s s.cur
def setMe (s : State) (x : Thread) : State := setTh s s.cur x
def co (s : State) (c : Nat) : Core := tget s.cores c {}
def setCo (s : State) (c : Nat) (x : Core) : State := { s with cores := tput s.cores c x }
def cx (s : State) (n : Nat) : Ctx := tget s.ctxs n {}
def setCx (s : State) (n : Nat) (x : Ctx) : State := { s with ctxs := tput s.ctxs n x }
def kn (s : State) (n : Nat) : Kernel := tget s.kernels n { q := 0, src := .host 0, rec_ := [] }
def setKn (s : State) (n : Nat) (x : Kernel) : State := { s with kernels := tput s.kernels n x }
def qu (s : State) (n : Nat) : Queue := tget s.queues n {}
def setQu (s : State) (n : Nat) (x : Queue) : State := { s with queues := tput s.queues n x }
def vfn (s : State) (n : Nat) : Vf := tget s.vfs n {}
def setVf (s : State) (n : Nat) (x : Vf) : State := { s with vfs := tput s.vfs n x }

/-- Core, slot, bench, die and bench position of a thread identifier or core number (R6, R51). -/
def coreOf (tid : Nat) : Nat := tid / 16
def slotOf (tid : Nat) : Nat := tid % 16
def dieOf (core : Nat) : Nat := core / 256
def benchOf (core : Nat) : Nat := core / 256 * 32 + core % 256 / 16 / 4 * 8 + core % 16 / 2
def posOf (core : Nat) : Nat := core % 256 / 16 % 4 * 2 + core % 2
/-- The core at a position of a bench (R6). -/
def coreAt (bench pos : Nat) : Nat :=
  bench / 32 * 256 + (bench % 32 / 8 * 4 + pos / 2) * 16 + bench % 8 * 2 + pos % 2

/-- Partition of a bench, core, granule; 24 for none (R350). -/
def partOfBench (s : State) (b : Nat) : Nat := tget s.parts.bench b 0
def partOfCore (s : State) (c : Nat) : Nat := partOfBench s (benchOf c)

/-- Does the mesh carry packets between two cores: both are of one partition, or the first is none of a bench, so that the traffic
is of the device beside the benches (R350)? -/
def meshOk (s : State) (a b : Nat) : Bool := 1024 ≤ a || partOfCore s a == partOfCore s b
def granule (s : State) (g : Nat) : Granule := tget s.parts.granule g {}

/-- Partition of the context of a thread. -/
def partOf (s : State) (tid : Nat) : Nat := (cx s (th s tid).ctx).part

/-- Does a hypervisor thread's core administer a partition (R352, R359)? -/
def administers (s : State) (core p : Nat) : Bool :=
  p < 24 && tget s.parts.adm p 0 == partOfCore s core && partOfCore s core < 24

/-- `PADM.PARTS` as read on a core (R352). -/
def padm (s : State) (core : Nat) : Nat := upto 24 (fun p n => if administers s core p then n + 2 ^ p else n) 0

/-- `CYCLE` of a core (R57). -/
def cycleOf (s : State) (core : Nat) : Nat := s.cycle - (co s core).base

/-- The scratchpad size of a core in bytes (R81). -/
def spSize (s : State) (core : Nat) : Nat := (co s core).sp * 0x10000

/-- A fresh number in the order of stores and posted operations. -/
def tick (s : State) : State := { s with order := s.order + 1 }

/-- The next free value, and the state with the counter advanced (log 4). -/
def free (s : State) : Word × State := (Config.freeWord s.fresh, { s with fresh := s.fresh + 1 })

/-! ### General registers (R35) -/

/-- The value of a general register as a word reads it: g0 is zero, and a partner reads what stood before its bundle
(R22). -/
def rd (s : State) (r : BitVec 5) : Word :=
  if r = 0 then 0
  else match s.snap with
    | some n => tget n.g r.toNat 0
    | none => tget (me s).g r.toNat 0

/-- A general register written; g0 discards (R35). -/
def wr (s : State) (r : BitVec 5) (v : Word) : State :=
  if r = 0 then s else setMe s { me s with g := tput (me s).g r.toNat v }

/-- A register of any thread written, for results that arrive later. -/
def wrOf (s : State) (tid r : Nat) (v : Word) : State :=
  if r = 0 then s else setTh s tid { th s tid with g := tput (th s tid).g r v }

/-! ### The end of a word -/

/-- Bundle length of a word with pair bit `p` (R21). -/
def bundleLen (p : BitVec 1) : Word := if p = 1 then 8 else 4

/-- The address of the next sequential bundle, which is also the link value (R22). -/
def nextPc (s : State) (p : BitVec 1) : Word := (me s).pc + bundleLen p

/-- The word has taken its effect and control goes to `pc`; a partner leaves the program counter to its control word
(R21, R22). -/
def goto (s : State) (pc : Word) (from_ : Option Word) : State :=
  if s.slot = 0 then
    { setMe s { me s with pc := pc, hold := none, waitMet := false, from_ := from_ } with last := .done }
  else { s with last := .done }

/-- The word has taken its effect; the next sequential bundle follows. -/
def finish (s : State) (p : BitVec 1) : State := goto s (nextPc s p) none

/-- The word holds its thread: nothing is changed and the bundle is issued again (R52). -/
def held (s : State) : State := { s with last := .held }

/-- The word holds its thread after a stage of its work, which the record keeps. -/
def holdAt (s : State) (stage : Nat) (a b : Word) (n : Nat) : State :=
  { setMe s { me s with hold := some { pc := (me s).pc, stage, a, b, n } } with last := .held }

/-- Stage numbers of a thread held in `st.drain` (R248), in `thr.save` (R78) and in `fence` (R259). -/
def drainStage : Nat := 8
def saveStage : Nat := 10
def fenceStage : Nat := 11

/-- Stage number of a thread held in `grp.kill` after its kills (R217). -/
def killStage : Nat := 12

/-- Is a thread held in a `grp.kill` whose kills are made? -/
def killHolds (t : Thread) : Bool :=
  match t.hold with
  | some h => h.stage == killStage && h.pc == t.pc
  | none => false

/-- The stage that earlier issues of the bundle have reached, 0 at the first. -/
def stageOf (s : State) : Nat :=
  match (me s).hold with
  | some h => if h.pc = (me s).pc then h.stage else 0
  | none => 0

/-! ### Taking an exception, and returning from one (R82) -/

/-- The cause registers' layout (R38). -/
def causeWord (int : Bool) (slot code : Nat) : Word :=
  BitVec.ofNat 64 ((if int then 2 ^ 63 else 0) + (if slot = 1 then 2 ^ 62 else 0) + code)

/-- A bit of a register. -/
def bit (w : Word) (k : Nat) : Bool := w.getLsbD k

/-- A field of a register as a number. -/
def bits (w : Word) (hi lo : Nat) : Nat := fld w.toNat hi lo

def b2n (b : Bool) : Nat := if b then 1 else 0

/-- Is the trap of a cause (or interrupt code) at this thread taken to the hypervisor (R82)? -/
def toHyp (t : Thread) (int : Bool) (code : Nat) : Bool :=
  t.priv = .hyp || !(bit t.hr.deleg (if int then 32 + code else code))

/-- A long result whose operation failed (R59). -/
def Long.bad (l : Long) : Bool :=
  match l.res with
  | .failed _ _ => true
  | _ => false

/-- A long result that is neither written nor failed. -/
def Long.open_ (l : Long) : Bool := !l.bad && l.res != .written

/-- Entry to a trap handler of a thread: the saved registers, status, privilege and pc of the target level (R82).
`guest` gives `HGPA` and the IMP and GVA bits of a second-stage fault (R290). -/
def enterTrap (s : State) (tid : Nat) (hyp int : Bool) (slot code : Nat) (epc val : Word)
    (guest : Option (Word × Bool × Bool)) : State :=
  let t := th s tid
  let t := { t with due := none, hold := none, waitMet := false, from_ := none, pauseUntil := none, refused := none, miss := none,
                    longs := t.longs.filter fun l => l.bad || l.d == 0 }
  if hyp then
    let ppl := match t.priv with | .user => 0 | .sup => 2 | .hyp => 3
    let g := match guest with | some (_, i, v) => 2048 * b2n i + 1024 * b2n v | none => 0
    let st := BitVec.ofNat 64 (g + 256 * ppl + 2 * b2n (bit t.hr.status 0))
    setTh s tid { t with
      hr := { t.hr with cause := causeWord int slot code, epc := epc, val := val, status := st,
                        gpa := match guest with | some (a, _, _) => a | none => t.hr.gpa },
      pc := t.hr.vec, priv := .hyp }
  else
    let st := BitVec.ofNat 64 (256 * b2n (t.priv = .sup) + 2 * b2n (bit t.sr.status 0))
    setTh s tid { t with
      sr := { t.sr with cause := causeWord int slot code, epc := epc, val := val, status := st },
      pc := t.sr.vec, priv := .sup }

/-- Has every long result of the thread been written, and is its vector queue empty (R59, R123)? Long results with
destination g0 hold nothing (R59). -/
def drained (t : Thread) : Bool := t.longs.all (fun l => l.d == 0 || !l.open_) && t.v.queue.isEmpty

/-- The windows count a bundle: the first `n` pending results were there before it; a written one whose window has
ended goes (R58). -/
def ageLongs (l : List Long) (n : Nat) : List Long :=
  (((l.take n).map fun x => { x with left := x.left - 1 }).filter fun x => x.left ≠ 0 || x.res != .written) ++ l.drop n

/-- A precise trap of the word being performed: entered at once, or recorded until the thread's pending long results
and queued vector work are done (R24, R59, R82, R123). -/
def raiseWith (s : State) (c : Nat) (v : Word) (guest : Option (Word × Bool × Bool)) : State :=
  let t := me s
  let s' :=
    if drained t then enterTrap s s.cur (toHyp t false c) false s.slot c t.pc v guest
    else setMe s { t with due := some { cause := c, val := v, slot := s.slot, epc := t.pc, guest } }
  { s' with last := .trapped c v }

/-- A precise trap with its trap value (R24, R83). -/
def raise (s : State) (c : Nat) (v : Word) : State := raiseWith s c v none

/-- The illegal-instruction trap, with the offending word as trap value (R29, R83). -/
def illegal (s : State) (w : Nat) : State := raise s 0 (BitVec.ofNat 64 w)

/-- A privilege violation (cause 3), or at supervisor privilege a virtual-instruction trap (cause 4), with the
offending word (R36, R83). -/
def privFault (s : State) (w : Nat) : State :=
  raise s (if (me s).priv = .user then 3 else 4) (BitVec.ofNat 64 w)

/-- `tret`: the return from a trap at supervisor or hypervisor privilege (R82); at user privilege a privilege
violation (R60); a misaligned return address traps (R82). -/
def trapReturn (s : State) (w : Nat) : State :=
  let t := me s
  match t.priv with
  | .user => raise s 3 (BitVec.ofNat 64 w)
  | .sup =>
    if t.sr.epc.toNat % 4 ≠ 0 then raise s 5 t.sr.epc
    else
      let st := BitVec.ofNat 64 (256 * b2n (bit t.sr.status 8) + 2 + b2n (bit t.sr.status 1))
      let s := setMe s { t with priv := if bit t.sr.status 8 then .sup else .user, sr := { t.sr with status := st } }
      goto s t.sr.epc (some t.pc)
  | .hyp =>
    if t.hr.epc.toNat % 4 ≠ 0 then raise s 5 t.hr.epc
    else
      let st := BitVec.ofNat 64 (1024 * bits t.hr.status 11 10 + 256 * bits t.hr.status 9 8 + 2 +
        b2n (bit t.hr.status 1))
      let p := match bits t.hr.status 9 8 with | 0 => Priv.user | 2 => Priv.sup | _ => Priv.hyp
      let s := setMe s { t with priv := p, hr := { t.hr with status := st } }
      goto s t.hr.epc (some t.pc)

/-- An operation for another thread than the one that issued last. -/
def asThread (s : State) (tid : Nat) : State := { s with cur := tid, slot := 0, snap := none }

/-- Sticky flags ORed into `FLAGS` of a thread (R108, R109). -/
def orFlags (s : State) (tid : Nat) (f : BitVec 5) : State :=
  let t := th s tid
  setTh s tid { t with u := { t.u with flags := t.u.flags ||| f } }

/-! ### Interrupts -/

/-- Is the timer interrupt of a thread pending (R81)? -/
def timerPending (s : State) (tid : Nat) : Bool := (th s tid).sr.cmp.toNat ≤ cycleOf s (coreOf tid)

/-- `SIR.PEND` as read (R81). -/
def pendOf (s : State) (tid : Nat) : BitVec 5 :=
  ((th s tid).sr.pend &&& 0b11101#5) ||| (if timerPending s tid then 0b00010#5 else 0)

/-- An interrupt code made pending for a slot (R81). -/
def setPend (s : State) (tid code : Nat) : State :=
  let t := th s tid
  setTh s tid { t with sr := { t.sr with pend := t.sr.pend ||| BitVec.ofNat 5 (2 ^ code) } }

/-- Interrupt `code` raised through a partition's route (R354). -/
def routed (s : State) (part code : Nat) : State :=
  match tget s.parts.route (part * 8 + code) (0, false) with
  | (tid, true) => setPend s tid code
  | (_, false) => s

/-- May the interrupt be taken at the thread's privilege: pending, enabled, and below its target, or at it with IE
(R82)? -/
def qualifies (s : State) (tid code : Nat) : Bool :=
  let t := th s tid
  let h := !(bit t.hr.deleg (32 + code))
  (pendOf s tid).getLsbD code && t.sr.en.getLsbD code &&
    (match t.priv with
     | .user => true
     | .sup => h || bit t.sr.status 0
     | .hyp => h && bit t.hr.status 0)

/-- The lowest interrupt code that qualifies (R82). -/
def nextInt (s : State) (tid : Nat) : Option Nat := leastFrom (qualifies s tid) 0 5

/-! ### Groups (R204-R207) -/

/-- The group identifier of table entry `idx` of a partition (R204). -/
def gidOf (part idx gen : Nat) : Nat := gen * 2 ^ 20 + part * 2 ^ 15 + idx

def gr (s : State) (k : Nat) : Group := tget s.groups k {}
def setGr (s : State) (k : Nat) (x : Group) : State := { s with groups := tput s.groups k x }

/-- The table key (partition × 4,096 + entry) that an identifier names, when it names a group (R204). -/
def groupKey (s : State) (gid : Nat) : Option Nat :=
  let part := gid / 2 ^ 15 % 32
  let idx := gid % 4096
  let k := part * 4096 + idx
  if gid < 2 ^ 32 ∧ part < 24 ∧ gid / 2 ^ 12 % 8 = 0 ∧ (gr s k).used ∧ (gr s k).gen = gid / 2 ^ 20 then some k else none

/-- The group (table key) and rank of a thread (R205). -/
def memberOf (s : State) (tid : Nat) : Option (Nat × Nat) :=
  s.groups.findSome? fun e =>
    if e.2.used then (e.2.members.find? (fun m => m.2 = tid)).map (fun m => (e.1, m.1)) else none

/-- `GRPID` of a thread (R207). -/
def grpid (s : State) (tid : Nat) : Nat :=
  match memberOf s tid with
  | some (k, _) => gidOf (k / 4096) (k % 4096) (gr s k).gen
  | none => 0

/-- The thread of a rank of a group. -/
def rankThread (g : Group) (r : Nat) : Option Nat := (g.members.find? (fun m => m.1 = r)).map (·.2)

/-- Is a group a gang (R206)? -/
def isGang (g : Group) : Bool := g.used && (g.state = .pinned || g.state = .stopping || g.state = .held)

/-- Is a thread a member of a gang (R206)? -/
def inGang (s : State) (tid : Nat) : Bool :=
  match memberOf s tid with
  | some (k, _) => isGang (gr s k)
  | none => false

/-- The core of a group member by rank, seen from a thread, where the mesh carries packets to it (R128, R350). -/
def rankCore (s : State) (tid r : Nat) : Option Nat :=
  match memberOf s tid with
  | some (k, _) => ((rankThread (gr s k) r).map coreOf).filter (meshOk s (coreOf tid))
  | none => none

/-- Members inserted in rank order. -/
def insertMember (l : List (Nat × Nat)) (r tid : Nat) : List (Nat × Nat) :=
  match l with
  | [] => [(r, tid)]
  | m :: rest => if r < m.1 then (r, tid) :: m :: rest else m :: insertMember rest r tid

/-- The lowest free rank (R205). -/
def freeRank (g : Group) : Nat :=
  match leastFrom (fun r => (rankThread g r).isNone) 0 4097 with
  | some r => r
  | none => 4096

end Sys2Proof.Machine
end

