-- ==== Sys2Proof/Machine/Operands.lean ====
section
/-! DEFINITION. The operand forms of the words: immediates, addresses, targets, extensions (R25, R28, R64). -/

namespace Sys2Proof.Machine

/-- imm12, sign-extended (R28). -/
def imm12 (i : BitVec 12) : Word := i.signExtend 64

/-- imm20 of `ldhi` and `pcadd`: sign-extended, shifted left by 12 (R28, R65). -/
def imm20 (i : BitVec 20) : Word := i.signExtend 64 <<< 12

/-- imm8 of format M: sign-extended, times the access size (R28). -/
def imm8 (i : BitVec 8) (size : Nat) : Word := i.signExtend 64 * BitVec.ofNat 64 size

/-- The target of a branch: bundle address + 4 × offset (R25). -/
def branchTo (s : State) (off : BitVec 12) : Word := (me s).pc + off.signExtend 64 * 4

/-- The target of `jal` (R25). -/
def jumpTo (s : State) (off : BitVec 20) : Word := (me s).pc + off.signExtend 64 * 4

/-- The effective address of a scalar load or store (R64). -/
def memAddr (s : State) (a : BitVec 5) (imm : BitVec 8) (size : Nat) : Word := rd s a + imm8 imm size

/-- Loaded data of `size` bytes, sign- or zero-extended (R64). -/
def extend (size : Nat) (signed : Bool) (v : Nat) : Word :=
  if signed then
    match size with
    | 1 => (BitVec.ofNat 8 v).signExtend 64
    | 2 => (BitVec.ofNat 16 v).signExtend 64
    | 4 => (BitVec.ofNat 32 v).signExtend 64
    | _ => BitVec.ofNat 64 v
  else BitVec.ofNat 64 v

/-- The low 32 bits of a value, sign-extended (R66). -/
def sext32 (w : Word) : Word := (w.truncate 32).signExtend 64

/-- A comparison's result. -/
def ofBool (b : Bool) : Word := if b then 1 else 0

/-- A result of a long instruction: the register is written later, under the lookahead rule (R58). With destination g0
only a failed read is kept, which the thread still reports (R59). -/
def longResult (s : State) (d : BitVec 5) (la : BitVec 4) (r : LongRes) : State :=
  let t := me s
  let e : Long := { d := d.toNat, left := la.toNat, res := r, pc := t.pc }
  match r with
  | .waiting => setMe s { t with longs := t.longs ++ [e] }
  | .failed _ _ => setMe s { t with longs := t.longs ++ [e] }
  | _ => if d = 0 then s else setMe s { t with longs := t.longs ++ [e] }

/-- A status that an instruction gives in its destination: 0, a count, or a negative code. -/
def statusOf (n : Int) : Word := BitVec.ofInt 64 n

end Sys2Proof.Machine
end

