-- ==== Sys2Proof/Machine/Home.lean ====
section
/-! DEFINITION. Homes of bytes and counters: where a line has its home, what an operation performed there does, who is
woken by it, the copies of lines in core arrays and L2, and the version tags (R175-R203, R228-R233, R306). -/

namespace Sys2Proof.Machine

/-! ### Locations -/

/-- Key of a scratchpad byte. -/
def spKey (core off : Nat) : Nat := core * 0x80000 + off

/-- Is a memory key in this package's device memory, in a peer's memory, in host memory (R364)? -/
def isOwn (key : Nat) : Bool := key < 2 ^ 40
def isPeer (key : Nat) : Bool := 2 ^ 48 ≤ key && key < 2 ^ 55
def isHost (key : Nat) : Bool := 2 ^ 55 ≤ key
/-- Package number of a peer key. -/
def pkgOf (key : Nat) : Nat := key / 2 ^ 40 % 256

/-- The location `n` bytes further on. -/
def Loc.plus (l : Loc) (n : Nat) : Loc :=
  match l with
  | .mem k => .mem (k + n)
  | .spad c o => .spad c (o + n)
  | .near c e => .near c e

/-- The aligned 8-byte unit of a location. -/
def Loc.unit (l : Loc) : Loc :=
  match l with
  | .mem k => .mem (k / 8 * 8)
  | .spad c o => .spad c (o / 8 * 8)
  | .near c e => .near c e

/-- Do two runs of bytes overlap? -/
def overlap (a : Loc) (n : Nat) (b : Loc) (m : Nat) : Bool :=
  match a, b with
  | .mem x, .mem y => x < y + m && y < x + n
  | .spad c x, .spad d y => c == d && x < y + m && y < x + n
  | .near c x, .near d y => c == d && x == y
  | _, _ => false

/-- Do two runs of bytes overlap, or lie in one line of a peer package, whose operations of one thread are performed in program
order (R366)? -/
def clash (a : Loc) (n : Nat) (b : Loc) (m : Nat) : Bool :=
  overlap a n b m || (match a, b with | .mem x, .mem y => isPeer x && x / 128 == y / 128 | _, _ => false)

/-- `n` bytes at a home, as a number. A near counter is read whole. -/
def rdLoc (s : State) (l : Loc) (n : Nat) : Nat :=
  match l with
  | .mem k => mrd s.mem k n
  | .spad c o => mrd s.spads (spKey c o) n
  | .near c e => (tget s.near (c * 256 + e) 0).toNat % 2 ^ (8 * n)

/-- Does a run of bytes touch an uncorrectable error? -/
def poisoned (s : State) (l : Loc) (n : Nat) : Bool := s.poison.any fun u => overlap u 8 l n

/-! ### Home slices and scopes (R18, R306) -/

/-- The core number of tile `i` of the quadrant next to a stack (R306). -/
def quadTile (stack i : Nat) : Nat :=
  stack / 4 * 256 + (8 * (stack % 4 / 2) + i / 8) * 16 + 8 * (stack % 2) + i % 8

/-- Home slice of a package-local offset (R306). -/
def homeSlice (s : State) (off : Nat) : Nat :=
  let g := granule s (off / 2 ^ 30)
  let h := Config.sliceHash g.mode g.unit (off / 128)
  match g.mode with
  | 0 => h % 1024
  | 1 => g.unit % 4 * 256 + h % 256
  | 2 => quadTile (g.unit % 16) (h % 64)
  | _ => quadTile (g.unit % 16) (off / 2 ^ 12 % 64)

/-- The narrowest scope that contains a home, seen from a core (R18, R190). -/
def homeScope (s : State) (core : Nat) (l : Loc) : Nat :=
  let tile (c : Nat) : Nat := if benchOf c = benchOf core then 2 else if dieOf c = dieOf core then 3 else 4
  match l with
  | .near c _ => if c = core then 1 else tile c
  | .spad c _ => if c = core then 1 else tile c
  | .mem k => if isHost k then 6 else if isPeer k then 5 else tile (homeSlice s k)

/-- The home slice of a peer line in its package (log 7). -/
def peerSlice (key : Nat) : Nat := Config.sliceHash 4 (pkgOf key) (key / 128) % 1024

/-- The waiter table of a home (R175): which one, and how many entries it has. A peer-memory counter has the table of its
peer slice (R193). -/
def tableOf (s : State) (l : Loc) : Nat × Nat :=
  match l with
  | .near c _ => (c, 64)
  | .spad c _ => (c, 64)
  | .mem k => if isPeer k then (4096 + pkgOf k * 1024 + peerSlice k, 1024) else (2048 + homeSlice s k, 1024)

/-- Entries listed in the table of a home: waiters and arms (R193). -/
def tableUse (s : State) (l : Loc) : Nat :=
  let t := (tableOf s l).1
  (s.waiters.filter fun w => (tableOf s w.2).1 = t).length + (s.arms.filter fun a => (tableOf s a.loc).1 = t).length

def tableFull (s : State) (l : Loc) : Bool := (tableOf s l).2 ≤ tableUse s l

/-! ### Waking (R180, R191, R194) -/

/-- Is a threshold met by a value (R180)? -/
def met (v t : Word) : Bool := !(v - t).msb

/-- Wake messages sent to the listed waiters of a location that `p` selects by threshold; their entries go (R194). -/
def wakeIf (s : State) (l : Loc) (p : Word → Bool) : State :=
  let hit (w : Nat × Loc) : Bool :=
    w.2 == l && (match (th s w.1).wait with | some x => p x.thr | none => true)
  { s with waiters := s.waiters.filter (fun w => !(hit w)),
           wakes := s.wakes ++ (s.waiters.filter hit).map (fun w => { tid := w.1, loc := w.2 }) }

/-- An arm entry fires: `SIR.PEND[2]` of its slot, or MSI-X of its function (R191, R373). -/
def fireArm (s : State) (a : Arm) : State :=
  match a.tid with
  | some t => setPend s t 2
  | none =>
    if 128 ≤ a.vf then { s with out := { s.out with remote := s.out.remote ++ [(a.vf - 128, 2, natBytes 8 a.addr.toNat)] } }
    else
      let v := vfn s a.vf
      let s := setVf s a.vf { v with arms := tput v.arms a.ent 0 }
      { s with out := { s.out with msix := s.out.msix ++ [(2 + a.vf, a.ent % 16)] } }

/-- After an operation on a counter, every arm whose threshold the value meets fires (R191, R194). -/
def fireArms (s : State) (l : Loc) (v : Word) : State :=
  let hit (a : Arm) : Bool := a.loc == l && met v a.thr
  (s.arms.filter hit).foldl fireArm { s with arms := s.arms.filter (fun a => !(hit a)) }

/-- A store, AMO or RED reached the bytes of `l`: every waiter of a counter word it touches is woken, and arms are
checked (R181, R194). -/
def touched (s : State) (l : Loc) (n : Nat) : State :=
  let ls := (s.waiters.map (·.2) ++ s.arms.map (·.loc)).eraseDups.filter fun x => overlap x 8 l n
  ls.foldl (fun s x => fireArms (wakeIf s x (fun _ => true)) x (BitVec.ofNat 64 (rdLoc s x 8))) s

/-- Translations built from a page-table line that is written are invalidated, and accesses that use one are marked
(R292). -/
def dropBuilt (s : State) (l : Loc) (n : Nat) : State :=
  match l with
  | .mem k =>
    let hit (ls : List Nat) : Bool := ls.any fun x => x * 128 < k + n && k < x * 128 + 128
    { s with tlb := s.tlb.filter fun e => !(hit e.lines), wcache := s.wcache.filter fun e => !(hit e.lines),
             uses := s.uses.map fun u => if hit u.tr.lines then { u with stale := true } else u }
  | _ => s

/-! ### Writing at a home -/

/-- Bytes changed at a home, with nothing else. -/
def pokeLoc (s : State) (l : Loc) (n v : Nat) : State :=
  match l with
  | .mem k => { s with mem := mwr s.mem k n v }
  | .spad c o => { s with spads := mwr s.spads (spKey c o) n v }
  | .near c e => { s with near := tput s.near (c * 256 + e) (BitVec.ofNat 64 v) }

/-- Does a run of bytes cover an aligned 8-byte unit? -/
def covers (l : Loc) (n : Nat) (u : Loc) : Bool :=
  match l, u with
  | .mem x, .mem y => x ≤ y && y + 8 ≤ x + n
  | .spad c x, .spad d y => c == d && x ≤ y && y + 8 ≤ x + n
  | .near c x, .near d y => c == d && x == y && 8 ≤ n
  | _, _ => false

/-- A store of `n` bytes performed at its home (R181, R229, R292). A whole 8-byte unit written is correct again
(log 6). -/
def storeAt (s : State) (l : Loc) (n v : Nat) : State :=
  let s := dropBuilt s l n
  let s := pokeLoc s l n v
  let s := if n = 8 then { s with poison := s.poison.filter (· ≠ l) } else s
  touched s l n

/-- A list of bytes stored at a home; whole 8-byte units written are correct again (log 6). -/
def storeBytes (s : State) (l : Loc) (bs : List Byte) : State :=
  let s := dropBuilt s l bs.length
  let s := match l with
    | .mem k => { s with mem := mputs s.mem k bs }
    | .spad c o => { s with spads := mputs s.spads (spKey c o) bs }
    | .near c e => { s with near := tput s.near (c * 256 + e) (BitVec.ofNat 64 (bytesNat bs)) }
  touched { s with poison := s.poison.filter fun u => !(covers l bs.length u) } l bs.length

/-- `n` bytes read at a home. -/
def bytesAt (s : State) (l : Loc) (n : Nat) : List Byte :=
  match l with
  | .mem k => mbytes s.mem k n
  | .spad c o => mbytes s.spads (spKey c o) n
  | .near c e => natBytes n (tget s.near (c * 256 + e) 0).toNat

/-- An add performed at a counter's home: `v := (v + n) mod 2^64`, then wakes and arms (R179, R194). -/
def addAt (s : State) (l : Loc) (n : Word) : State :=
  let v := BitVec.ofNat 64 (rdLoc s l 8) + n
  let s := dropBuilt s l 8
  let s := pokeLoc s l 8 v.toNat
  fireArms (wakeIf s l (met v)) l v

/-- A counter set to 0 by `ctr.reset`: every listed waiter is woken to re-check (R189, R194). -/
def resetAt (s : State) (l : Loc) : State :=
  let s := dropBuilt s l 8
  let s := pokeLoc s l 8 0
  fireArms (wakeIf s l (fun _ => true)) l 0

/-! ### Reachability of peers (R363) -/

/-- Is a link port carrying traffic? -/
def portUp (s : State) (p : Nat) : Bool :=
  match (tget s.ports p {}).state with
  | .up => true
  | .degraded => true
  | _ => false

/-- Is a peer package reachable: some port of its route is Up or Degraded? -/
def reachable (s : State) (pkg : Nat) : Bool :=
  (List.range 24).any fun p => tget s.routes pkg 0 / 2 ^ p % 2 == 1 && portUp s p

/-- Can an operation reach the home of a location? -/
def homeReach (s : State) (l : Loc) : Bool :=
  match l with
  | .mem k => !(isPeer k) || reachable s (pkgOf k)
  | _ => true

/-- Does the domain table of a peer package refuse the accesses of a partition (R365)? -/
def homeDenied (s : State) (part : Nat) (l : Loc) : Bool :=
  match l with
  | .mem k => isPeer k && tget s.denied (pkgOf k) 0 / 2 ^ part % 2 == 1
  | _ => false

/-- Has the bench of a location's home been withdrawn (R201)? Every word homed at its slices counts as lost, whatever copies
stand elsewhere (DESIGN CHOICE, log 74). -/
def homeGone (s : State) (l : Loc) : Bool :=
  match l with
  | .near c _ => s.lehr.withdrawn.contains (benchOf c)
  | .spad c _ => s.lehr.withdrawn.contains (benchOf c)
  | .mem k => isOwn k && s.lehr.withdrawn.contains (benchOf (homeSlice s k))

/-- An operation that finds no path to its home waits for its timeout (R363); once. -/
def stick (s : State) (tid kind : Nat) (addr : Word) (seq : Nat) (l : Loc) : State :=
  if s.stuck.any fun x => x.tid == tid && x.kind == kind && x.seq == seq && x.addr == addr then s
  else { s with stuck := s.stuck ++ [{ tid, kind, addr, seq, pkg := match l with | .mem k => pkgOf k | _ => 256 }] }

def unstick (s : State) (tid kind : Nat) (addr : Word) (seq : Nat) : State :=
  { s with stuck := s.stuck.filter fun x => !(x.tid == tid && x.kind == kind && x.seq == seq && x.addr == addr) }

def stuckOut (s : State) (tid kind : Nat) (addr : Word) (seq : Nat) : Bool :=
  s.stuck.any fun x => x.tid == tid && x.kind == kind && x.seq == seq && x.addr == addr && x.expired

/-! ### Copies of peer and host lines in L2 (R9, R228, R230, R232, R233, R372) -/

/-- The bytes of a memory within a run, at offsets from its start. -/
def slice (m : Memory) (a n : Nat) : Memory :=
  (m.filter fun e => a ≤ e.1 ∧ e.1 < a + n).map fun e => (e.1 - a, e.2)

/-- A run of a memory replaced by the bytes of a slice. -/
def unslice (m : Memory) (a n : Nat) (d : Memory) : Memory :=
  d.foldl (fun m e => mput m (a + e.1) e.2) (mzero m a n)

/-- Bytes of a run of memory replaced at its home by those of a copy, as a store of them performed there. -/
def homePut (s : State) (key n : Nat) (d : Memory) : State :=
  touched (dropBuilt { s with mem := unslice s.mem key n d } (.mem key) n) (.mem key) n

/-- A dirty copy of a peer-homed line written back to its home; the copy stays, clean, while its version is the current
one. Without a path it stays dirty, and waits for one (R230, R232, R363). -/
def backPeer (s : State) (line : Nat) : State :=
  match s.peerLines.find? fun e => e.1 = line with
  | some (_, p) =>
    if !p.dirty then s
    else if !(homeReach s (.mem (line * 128))) then stick s 0 7 (BitVec.ofNat 64 line) 0 (.mem (line * 128))
    else
      homePut { s with peerLines :=
        if p.ver = s.dv then tput s.peerLines line { p with dirty := false, ctxs := [] } else tdel s.peerLines line }
        (line * 128) 128 p.data
  | none => s

/-- Every dirty peer-homed line that `p` selects written back (R232). -/
def backPeers (s : State) (p : PeerLine → Bool) : State :=
  (s.peerLines.filter fun e => e.2.dirty && p e.2).foldl (fun s e => backPeer s e.1) s

/-- The dirty peer-homed lines of a context that a release at a scope is to write back and that have no path: the release
waits for them (R232, R363). -/
def backWaits (s : State) (ctx scope : Nat) : List Nat :=
  if 5 ≤ scope then
    (s.peerLines.filter fun e => e.2.dirty && e.2.ctxs.contains ctx && !(homeReach s (.mem (e.1 * 128)))).map (·.1)
  else []

/-- The valid L2 copy of a peer-homed line, when there is one (R230). -/
def peerCopy (s : State) (line : Nat) : Option PeerLine :=
  match s.peerLines.find? fun e => e.1 = line with
  | some (_, p) => if p.ver = s.dv ∨ p.dirty then some p else none
  | none => none

/-- Can an access of an attribute be made of a location: it finds a valid copy in L2, or its home can be reached (R232,
R363)? -/
def pathFor (s : State) (l : Loc) (pbmt : Nat) : Bool :=
  homeReach s l || (match l with | .mem k => pbmt == 0 && (peerCopy s (k / 128)).isSome | _ => false)

/-- A release at a scope that cannot write back all that it must: it waits for the paths of those lines (R232, R363). -/
def releaseWait (s : State) (ctx scope : Nat) : Option State :=
  match backWaits s ctx scope with
  | [] => none
  | ls => some (ls.foldl backPeer s)

/-- The CXL.cache copy of the 64-byte host line of a key, when there is one (R228, R372). -/
def hostCopy (s : State) (key : Nat) : Option PeerLine := (s.hostLines.find? fun e => e.1 = key / 64).map (·.2)

/-- The byte of memory at a key as this package's L2 gives it: of a valid copy of a peer-homed or host line, else of the
home. -/
def l2byte (s : State) (key : Nat) : Byte :=
  if isPeer key then
    match peerCopy s (key / 128) with
    | some p => mget p.data (key % 128)
    | none => mget s.mem key
  else if isHost key then
    match hostCopy s key with
    | some p => mget p.data (key % 64)
    | none => mget s.mem key
  else mget s.mem key

/-- `n` bytes of memory as this package's L2 gives them. -/
def l2rd (s : State) (key n : Nat) : Nat :=
  if isPeer key ∨ isHost key then bytesNat ((List.range n).map fun i => l2byte s (key + i)) else mrd s.mem key n

/-- The whole line of a key as L2 gives it. -/
def l2line (s : State) (line : Nat) : Memory :=
  if isPeer (line * 128) ∨ isHost (line * 128) then mputs [] 0 ((List.range 128).map fun i => l2byte s (line * 128 + i))
  else slice s.mem (line * 128) 128

/-- A dirty CXL.cache copy of a 64-byte host line written back to host memory (R233, R372). -/
def backHost (s : State) (half : Nat) : State :=
  match s.hostLines.find? fun e => e.1 = half with
  | some (_, p) =>
    if p.dirty then
      dropBuilt { s with mem := unslice s.mem (half * 64) 64 p.data,
                         hostLines := tput s.hostLines half { p with dirty := false } } (.mem (half * 64)) 64
    else s
  | none => s

/-- A copy of a 64-byte host line given up, a dirty one after its write-back (R233). -/
def dropHost (s : State) (half : Nat) : State :=
  { backHost s half with hostLines := tdel (backHost s half).hostLines half }

/-- A copy of a line leaves L2, a dirty one after its write-back; one that has no path for that stays (R228, R232, R363). -/
def l2drop (s : State) (line : Nat) : State :=
  if isHost (line * 128) then dropHost (dropHost s (line * 2)) (line * 2 + 1)
  else
    let s := backPeer s line
    { s with peerLines := s.peerLines.filter fun e => !(e.1 == line && !e.2.dirty) }

/-- An operation at a peer or host home meets no copy of this package: a dirty one is written back and the copy goes (R232,
R235). -/
def toHome (s : State) (l : Loc) : State :=
  match l with
  | .mem k => if isPeer k ∨ isHost k then l2drop s (k / 128) else s
  | _ => s

/-! A slice of this package's L2 holds 4,096 lines (R9); which slice a copy of a peer or host line stands in is the package's
choice, and so is the copy that gives way in a full one: the first of the slice that can (DESIGN CHOICE, log 72). -/

/-- The slice that a copy of a peer or host line stands in. -/
def copySlice (line : Nat) : Nat := if isHost (line * 128) then Config.sliceHash 5 0 line % 1024 else peerSlice (line * 128)

/-- The lines of which L2 holds a copy. -/
def l2Lines (s : State) : List Nat := s.peerLines.map (·.1) ++ (s.hostLines.map fun e => e.1 / 2).eraseDups

/-- Has the slice of a line room for a copy of it (R9)? -/
def l2Room (s : State) (line : Nat) : Bool :=
  (l2Lines s).length < 4096 || ((l2Lines s).filter fun x => copySlice x == copySlice line).length < 4096

/-- May a copy leave L2: it is of a host line, is clean, or has a path home? -/
def l2Free (s : State) (line : Nat) : Bool :=
  match s.peerLines.find? fun e => e.1 = line with
  | some (_, p) => !p.dirty || homeReach s (.mem (line * 128))
  | none => true

/-- Room made in the slice of a line. -/
def l2Make (s : State) (line : Nat) : State :=
  if l2Room s line then s
  else match (l2Lines s).find? fun x => copySlice x == copySlice line && l2Free s x with
    | some x => l2drop s x
    | none => s

/-- One 64-byte host line taken into L2. -/
def hostFill (s : State) (half : Nat) : State :=
  match hostCopy s (half * 64) with
  | some _ => s
  | none => { s with hostLines := tput s.hostLines half
                      { ver := 0, dirty := false, ctxs := [], data := slice s.mem (half * 64) 64 } }

/-- A peer-homed or host line taken into L2 by a read, where its slice has room (R9, R228, R232); a host line is held as two
lines of 64 bytes (R372). -/
def l2fill (s : State) (line : Nat) : State :=
  if isPeer (line * 128) then
    match peerCopy s line with
    | some _ => s
    | none =>
      let s := l2Make s line
      if l2Room s line then
        { s with peerLines := tput s.peerLines line
                  { ver := s.dv, dirty := false, ctxs := [], data := slice s.mem (line * 128) 128 } }
      else s
  else if isHost (line * 128) then
    let s := if (l2Lines s).contains line then s else l2Make s line
    if (l2Lines s).contains line ∨ l2Room s line then hostFill (hostFill s (line * 2)) (line * 2 + 1) else s
  else s

/-- A store performed at package scope: at the home of an own line, into the L2 copy of a peer-homed or host line
(R229, R232, R233), or at the home of one that finds no room in L2. -/
def l2store (s : State) (l : Loc) (n v ctx : Nat) : State :=
  match l with
  | .mem k =>
    let s := l2fill s (k / 128)
    if isPeer k then
      match peerCopy s (k / 128) with
      | some p =>
        { s with peerLines := tput s.peerLines (k / 128)
                  { p with dirty := true, ctxs := (ctx :: p.ctxs).eraseDups, data := mwr p.data (k % 128) n v } }
      | none => storeAt s l n v
    else if isHost k then
      match hostCopy s k with
      | some p => { s with hostLines := tput s.hostLines (k / 64) { p with dirty := true, data := mwr p.data (k % 64) n v } }
      | none => storeAt s l n v
    else storeAt s l n v
  | _ => storeAt s l n v

/-! ### L1 copies and version tags (R228, R230, R231) -/

/-- Lines that the L1 part of a core array can hold (R7, R64). -/
def l1Room (c : Core) : Nat := (8 - c.sp) * 512

/-- The valid L1 copy of a line in a core array (R230). -/
def l1Copy (c : Core) (line : Nat) : Option Memory :=
  match c.l1.find? fun e => e.1 = line with
  | some (_, x) => if x.ver = c.bv then some x.data else none
  | none => none

/-- Does a core array hold a valid copy of the line of a location? -/
def lineHeld (s : State) (core : Nat) (l : Loc) : Bool :=
  match l with
  | .mem k => (l1Copy (co s core) (k / 128)).isSome
  | _ => false

/-- The lines of a halo region that its owner number `n` keeps: interior and replica, row by row (R249, R250). -/
def haloLines (h : Halo) (n : Nat) : Nat :=
  let ih := h.rows / h.gy
  let iw := h.cols / h.gx
  let i := n / h.gx
  let j := n % h.gx
  let es := 2 ^ h.es
  let lo := (j * iw - h.h) * es / 128
  let hi := (min h.cols (j * iw + iw + h.h) * es + 127) / 128
  (min h.rows (i * ih + ih + h.h) - (i * ih - h.h)) * (hi - lo)

/-- The cores of a region's owners, in the order of their numbers. -/
def haloCores (s : State) (h : Halo) : List (Option Nat) :=
  (List.range (h.gx * h.gy)).map fun n =>
    (groupKey s h.gid).bind fun k => (rankThread (gr s k) (h.rbase + n)).map coreOf

/-- Halo lines that a region keeps in a core array (R250). -/
def haloLinesIn (s : State) (h : Halo) (core : Nat) : Nat :=
  (((haloCores s h).mapIdx fun n c => if c = some core then haloLines h n else 0)).sum

/-- Halo lines that a core array holds. -/
def haloUse (s : State) (core : Nat) : Nat := (s.halos.map fun h => haloLinesIn s h core).sum

/-- A line filled into the L1 part with the core's bench version, when there is room (R230). -/
def l1fill (s : State) (core line : Nat) : State :=
  let c := co s core
  if c.l1.length + haloUse s core < l1Room c ∨ (c.l1.any fun e => e.1 = line) then
    setCo s core { c with l1 := tput c.l1 line { ver := c.bv, data := l2line s line } }
  else s

/-- A core's own store updates its L1 copy as it passes (R228, write-through). -/
def l1pass (s : State) (core : Nat) (l : Loc) (n v : Nat) : State :=
  match l with
  | .mem k =>
    let c := co s core
    match c.l1.find? fun e => e.1 = k / 128 with
    | some (_, x) => setCo s core { c with l1 := tput c.l1 (k / 128) { x with data := mwr x.data (k % 128) n v } }
    | none => s
  | _ => s

/-- The bench version of a core advances; lines that still carry the new value are invalidated first (R230, R231). -/
def bumpBench (s : State) (core : Nat) : State :=
  let c := co s core
  let v := (c.bv + 1) % 16
  setCo s core { c with bv := v, l1 := c.l1.filter fun e => e.2.ver ≠ v }

/-- The domain version advances: dirty copies are written back first, and every L2 copy of a peer-homed line becomes
invalid; a dirty one without a path stays until it is written back (R230, R231, R363). -/
def bumpDomain (s : State) : State :=
  let s := backPeers s fun _ => true
  let v := (s.dv + 1) % 16
  { s with dv := v, peerLines := s.peerLines.filter fun e => e.2.dirty || e.2.ver ≠ v }

/-- An acquire at a scope by a thread of a core (R230, R233, R237). -/
def acquire (s : State) (core scope : Nat) : State :=
  let s := if 5 ≤ scope then bumpDomain s else s
  if 2 ≤ scope then bumpBench s core else s

/-! ### Halo regions (R249-R253) -/

/-- The virtual address that a region gave to a memory key, when the key lies on one of its pages. -/
def haloVa (h : Halo) (key : Nat) : Option Nat :=
  (h.pages.find? fun p => p.2 = key / 4096).map fun p => p.1 * 4096 + key % 4096

/-- Row and column of the element of a region that holds a virtual address (R250). Where the rows of a region overlap, a
byte counts for the last row that begins at or before it (DESIGN CHOICE, log 12). -/
def haloElem (h : Halo) (va : Nat) : Option (Nat × Nat) :=
  if va < h.base.toNat ∨ h.rows = 0 then none
  else
    let d := va - h.base.toNat
    let r := min (d / h.stride) (h.rows - 1)
    let c := (d - r * h.stride) / 2 ^ h.es
    if c < h.cols then some (r, c) else none

/-- Owner row and column of an element (R250). -/
def haloGrid (h : Halo) (r c : Nat) : Nat × Nat := (r / (h.rows / h.gy), c / (h.cols / h.gx))

/-- The region of a memory key and the element there. -/
def haloAt (s : State) (key : Nat) : Option (Halo × Nat × Nat) :=
  s.halos.findSome? fun h => (haloVa h key).bind fun va => (haloElem h va).map fun e => (h, e.1, e.2)

/-- The thread that owns an element of a region (R250). -/
def haloOwner (s : State) (h : Halo) (r c : Nat) : Option Nat :=
  let g := haloGrid h r c
  (groupKey s h.gid).bind fun k => rankThread (gr s k) (h.rbase + g.1 * h.gx + g.2)

/-- Is an element within H rows and columns of the interior of owner (i, j), without being in it (R250)? -/
def inReplica (h : Halo) (i j r c : Nat) : Bool :=
  let ih := h.rows / h.gy
  let iw := h.cols / h.gx
  let near (x lo n : Nat) : Bool := lo ≤ x + h.h && x < lo + n + h.h
  haloGrid h r c ≠ (i, j) && near r (i * ih) ih && near c (j * iw) iw

/-- Does a thread's store to a key violate a halo region (R252)? -/
def haloBad (s : State) (tid : Nat) (l : Loc) : Bool :=
  match l with
  | .mem k =>
    match haloAt s k with
    | some (h, r, c) => haloOwner s h r c ≠ some tid
    | none => false
  | _ => false

/-- Does an AMO, RED or counter operation of a thread at a virtual address violate a halo region (R252)? -/
def haloBadVa (s : State) (tid : Nat) (va : Word) : Bool :=
  match s.halos.findSome? fun h =>
    if h.ctx = (th s tid).ctx then (haloElem h va.toNat).map fun e => (h, e.1, e.2) else none with
  | some (h, r, c) => haloOwner s h r c ≠ some tid
  | none => false

def haloKey (tid key : Nat) : Nat := tid * 2 ^ 57 + key

/-- What the core array of a thread holds for a byte of a halo region: the owner's interior, a member's replica
(R251). -/
def haloByte (s : State) (tid key : Nat) : Option Byte :=
  match s.haloDirty.find? fun e => e.1 = haloKey tid key with
  | some (_, b) => some b
  | none => (s.haloRep.find? fun e => e.1 = haloKey tid key).map (·.2)

/-- The holders of replicas of an element. -/
def haloHolders (s : State) (h : Halo) (r c : Nat) : List Nat :=
  match groupKey s h.gid with
  | some k =>
    ((List.range (h.gx * h.gy)).filter fun n => inReplica h (n / h.gx) (n % h.gx) r c).filterMap fun n =>
      rankThread (gr s k) (h.rbase + n)
  | none => []

/-- The dirty interior bytes of a thread: (key, byte). -/
def haloDirtyOf (s : State) (tid : Nat) : List (Nat × Byte) :=
  (s.haloDirty.filter fun e => e.1 / 2 ^ 57 = tid).map fun e => (e.1 % 2 ^ 57, e.2)

/-- Is a memory key in the interior that a thread owns of a region, one with handle `only` if that is given (R250)? -/
def haloMine (s : State) (tid : Nat) (only : Option Nat) (key : Nat) : Bool :=
  match haloAt s key with
  | some (h, r, c) => (only == none || only == some h.handle) && haloOwner s h r c == some tid
  | none => false

/-- The push: a thread's current values of its strips go into the replicas that hold them: its dirty bytes, and for the
others the value at the home, which a replica without a byte of its own has (R251). -/
def haloPush (s : State) (tid : Nat) (only : Option Nat) : State :=
  let s := { s with haloRep := s.haloRep.filter fun e => !(haloMine s tid only (e.1 % 2 ^ 57)) }
  (haloDirtyOf s tid).foldl (fun s e =>
    match haloAt s e.1 with
    | some (h, r, c) =>
      if only = none ∨ only = some h.handle then
        (haloHolders s h r c).foldl (fun s t => { s with haloRep := tput s.haloRep (haloKey t e.1) e.2 }) s
      else s
    | none => s) s

/-- The value at the home kept in the replicas that have no value of their own, before the home changes (R251). -/
def haloKeep (s : State) (key : Nat) : State :=
  match haloAt s key with
  | some (h, r, c) =>
    (haloHolders s h r c).foldl (fun s t =>
      if s.haloRep.any fun e => e.1 = haloKey t key then s
      else { s with haloRep := tput s.haloRep (haloKey t key) (mget s.mem key) }) s
  | none => s

/-- One dirty interior byte of a thread written to its home; the replicas keep what they have (R251). -/
def haloByteBack (s : State) (tid : Nat) (e : Nat × Byte) : State :=
  let s := haloKeep s e.1
  storeAt { s with haloDirty := tdel s.haloDirty (haloKey tid e.1) } (.mem e.1) 1 e.2.toNat

/-- A thread's dirty interior bytes written to their homes (R251). -/
def haloBack (s : State) (tid : Nat) (only : Option Nat) : State :=
  (haloDirtyOf s tid).foldl (fun s e =>
    match haloAt s e.1 with
    | some (h, _, _) => if only = none ∨ only = some h.handle then haloByteBack s tid e else s
    | none => haloByteBack s tid e) s

/-- Before an operation of a thread at a home: what the thread has dirty of those bytes is written there, and the replicas
keep what they have (R235, R251). -/
def haloHome (s : State) (tid : Nat) (l : Loc) (n : Nat) : State :=
  match l with
  | .mem k =>
    let s := ((haloDirtyOf s tid).filter fun e => k ≤ e.1 ∧ e.1 < k + n).foldl (fun s e => haloByteBack s tid e) s
    (List.range n).foldl (fun s i => haloKeep s (k + i)) s
  | _ => s

/-- A region ends: every owner pushes and writes back, then its halo lines are freed (R253). -/
def haloEnd (s : State) (h : Halo) : State :=
  let owners := (List.range (h.gx * h.gy)).filterMap fun n =>
    (groupKey s h.gid).bind fun k => rankThread (gr s k) (h.rbase + n)
  let s := owners.foldl (fun s t => haloBack (haloPush s t (some h.handle)) t (some h.handle)) s
  let keep (e : Nat × Byte) : Bool := ((haloVa h (e.1 % 2 ^ 57)).bind (haloElem h)).isNone
  { s with halos := s.halos.filter (· ≠ h), haloRep := s.haloRep.filter keep, haloDirty := s.haloDirty.filter keep }

/-- Every region of a gang ends (R253). -/
def haloEndGang (s : State) (gid : Nat) : State :=
  (s.halos.filter fun h => h.gid = gid).foldl haloEnd s

/-! ### Releases (R236) -/

/-- The parts of a release at a scope that act on copies: the halo push at bench scope or wider, the write-back of
dirty interiors at package scope or wider, of dirty peer-homed lines of the context at domain scope or wider, and the
global observation of host stores at system scope (R232, R233, R236, R251). -/
def releaseCopies (s : State) (tid ctx scope : Nat) : State :=
  let s := if 2 ≤ scope then haloPush s tid none else s
  let s := if 4 ≤ scope then haloBack s tid none else s
  let s := if 5 ≤ scope then backPeers s (fun p => p.ctxs.contains ctx) else s
  if 6 ≤ scope then s.hostLines.foldl (fun s e => backHost s e.1) s else s

/-- Are the stores that a thread made before order number `q` all performed or recorded (R236)? -/
def storesBefore (t : Thread) (q : Nat) : Bool :=
  (t.stores.all fun x => q ≤ x.seq) && (t.sent.all fun x => q ≤ x.seq) && (t.precs.all fun x => q ≤ x.st.seq)

end Sys2Proof.Machine
end

