-- ==== Sys2Proof/Machine/Walk.lean ====
section
/-! DEFINITION. Translation: the two-stage walk, its caches, the partition's check of physical addresses, and the
page-request queue (R282-R300, R364, R365). -/

namespace Sys2Proof.Machine

/-- On whose behalf an access is made: context, privilege, core and thread (R282). -/
structure Who where
  ctx : Nat
  priv : Priv
  core : Nat
  tid : Nat
  deriving DecidableEq, Repr

def whoOf (s : State) (tid : Nat) : Who :=
  { ctx := (th s tid).ctx, priv := (th s tid).priv, core := coreOf tid, tid := tid }

/-- How a translation ends (R289, R290). -/
inductive Xl where
  /-- A home, with the physical address and the effective attribute. -/
  | ok (loc : Loc) (pa pbmt : Nat)
  /-- A reduction or multicast window (R367, R368). -/
  | window (pa : Nat)
  /-- A resolvable miss: stage, implicit, guest physical address. -/
  | miss (second imp : Bool) (gpa : Word)
  /-- A refusal: stage, implicit, guest physical address, malformed or outside the partition, and the reason of R177
  that a counter operation gets instead (0: none). -/
  | refuse (second imp : Bool) (gpa : Word) (bad : Bool) (reason : Nat)
  /-- An uncorrectable error on a walk read. -/
  | error
  deriving DecidableEq, Repr

/-! ### Physical addresses (R364, R365) -/

/-- What a physical address names (R364). -/
inductive Phys where
  | mem (key : Nat)
  | window
  | refused (reason : Nat)
  deriving DecidableEq, Repr

/-- What a host physical address names: device memory in the CXL.mem range that the host mapped, host memory elsewhere
(R288). -/
def hostPa (s : State) (a : Nat) : Nat :=
  match s.hdm with
  | some b => if b ≤ a ∧ a < b + 2 ^ 40 then s.pkg * 2 ^ 40 + (a - b) else 2 ^ 55 + a % 2 ^ 55
  | none => 2 ^ 55 + a % 2 ^ 55

def physOf (s : State) (pa : Nat) : Phys :=
  if 2 ^ 56 ≤ pa then .refused 6
  else if pa / 2 ^ 55 = 1 then .mem pa
  else if pa / 2 ^ 48 % 16 ≠ 0 then .refused 6
  else match pa / 2 ^ 52 % 8 with
    | 0 =>
      if pa / 2 ^ 40 % 256 = s.pkg then .mem (pa % 2 ^ 40)
      else if tget s.routes (pa / 2 ^ 40 % 256) 0 = 0 then .refused 7
      else .mem (2 ^ 48 + pa % 2 ^ 48)
    | 1 => .window
    | 2 => .window
    | _ => .refused 6

/-- Is a partition of this package listed for the reduction or multicast group of a window address (R365, R367, R368)?
The table is keyed by kind × 2^16 + group. -/
def windowOk (s : State) (part pa : Nat) : Bool :=
  let k := pa / 2 ^ 52 % 8
  let g := if k = 1 then pa / 2 ^ 32 % 2 ^ 16 else pa / 2 ^ 40 % 2 ^ 8
  tget s.xgroups (k * 2 ^ 16 + g) 0 / 2 ^ part % 2 == 1

/-- The physical address of own device memory at a package-local offset (R364). -/
def ownPa (s : State) (off : Nat) : Nat := s.pkg * 2 ^ 40 + off

/-- Is a memory key inside what a partition may reach: a granule that it owns; peers and host memory are checked at
their own side (R283, R365)? -/
def partOwns (s : State) (part key : Nat) : Bool :=
  if isOwn key then (granule s (key / 2 ^ 30)).part == part else true

/-! ### Page-table entries (R286, R287) -/

def pteV (p : Nat) : Bool := p % 2 == 1
def pteR (p : Nat) : Bool := p / 2 % 2 == 1
def pteW (p : Nat) : Bool := p / 4 % 2 == 1
def pteX (p : Nat) : Bool := p / 8 % 2 == 1
def pteU (p : Nat) : Bool := p / 16 % 2 == 1
def pteG (p : Nat) : Bool := p / 32 % 2 == 1
def pteA (p : Nat) : Bool := p / 64 % 2 == 1
def pteD (p : Nat) : Bool := p / 128 % 2 == 1
def ptePpn (p : Nat) : Nat := fld p 53 10
def ptePbmt (p : Nat) : Nat := fld p 62 61
def pteLeaf (p : Nat) : Bool := pteR p || pteX p

/-- Is an entry malformed at a level (R286)? -/
def pteBad (p lvl : Nat) : Bool :=
  fld p 63 63 = 1 || fld p 60 54 ≠ 0 || ptePbmt p = 3 || (pteW p && !pteR p) ||
    (if pteLeaf p then ptePpn p % 2 ^ (9 * lvl) ≠ 0
     else lvl = 0 || pteD p || pteA p || pteU p || ptePbmt p ≠ 0)

/-- Does a leaf permit a kind of access: R to load, R and W to store, X to fetch (R287)? -/
def pteAllows (p : Nat) (k : Acc) : Bool :=
  match k with
  | .load => pteR p
  | .store => pteR p && pteW p
  | .fetch => pteX p

/-- The first stage's privilege check (R287). -/
def privAllows (p : Nat) (k : Acc) (user : Bool) : Bool :=
  if user then pteU p else (k ≠ .fetch || !pteU p)

/-- A and D set in an entry (R289). -/
def pteMark (p : Nat) (k : Acc) : Nat :=
  let p := if pteA p then p else p + 64
  if k = .store ∧ !(pteD p) then p + 128 else p

/-- The page size in bytes of a leaf at a level, and an address within it (R286). -/
def inPage (g lvl : Nat) : Nat := g % 2 ^ (12 + 9 * lvl)

/-- The home of a page-table entry: device memory of the own package, in the partition's granules, or host memory
(R283, R288). -/
def pteHome (s : State) (part : Nat) (host : Bool) (pa : Nat) : Option Nat :=
  match physOf s (if host then hostPa s pa else pa) with
  | .mem k => if (isOwn k && partOwns s part k) || isHost k then some k else none
  | _ => none

/-- Where a walk of one stage goes on: the table, the lines read so far, the second-stage leaves used, and the number of
levels left. -/
structure WalkAt where
  base : Nat
  lines : List Nat := []
  gmaps : List (Nat × Nat) := []
  left : Nat := 5
  deriving DecidableEq, Repr

/-- A leaf found by a walk of one stage: its entry, level, home key, the lines read and the tables passed; or how the walk
ended. -/
inductive Leaf where
  | leaf (pte lvl key : Nat) (lines : List Nat) (mids : List WalkAt)
  | miss
  | bad
  | error
  deriving DecidableEq, Repr

/-- The second-stage walk of the levels below `lvl + 1` (R289, gstage). -/
def gLevel (s : State) (part g base : Nat) (lines : List Nat) (mids : List WalkAt) : Nat → Leaf
  | 0 => .bad
  | lvl + 1 =>
    let hi := if lvl = 4 then 58 else 20 + 9 * lvl
    match pteHome s part false (base + fld g hi (12 + 9 * lvl) * 8) with
    | none => .bad
    | some key =>
      if poisoned s (.mem key) 8 then .error
      else
        let p := mrd s.mem key 8
        let lines := key / 128 :: lines
        if !(pteV p) then .miss
        else if pteBad p lvl then .bad
        else if pteLeaf p then .leaf p lvl key lines mids
        else
          let base := ptePpn p * 4096
          gLevel s part g base lines ({ base := base, lines := lines, left := lvl } :: mids) lvl

/-! ### Walk caches (R291) -/

/-- An entry put into a cache of `n` places, those that `here` picks: it replaces one with the same tags, and a full cache
loses its oldest entry. -/
def cachePut {α : Type} (n : Nat) (here same : α → Bool) (l : List α) (e : α) : List α :=
  let l := l.filter fun x => !(here x && same x)
  if (l.filter here).length < n then e :: l else e :: (l.reverse.eraseP here).reverse

/-- Does a walk-cache entry serve a walk of a bench, by its tags (R291)? -/
def wHit (c : Ctx) (bench : Nat) (second : Bool) (a : Nat) (e : WEntry) : Bool :=
  e.bench == bench && e.second == second && e.vmid == fld c.hgxlat.toNat 57 44 && e.mode2 == c.hgxlat.toNat / 2 ^ 60 &&
  e.tag == a / 2 ^ (21 + 9 * e.lvl) &&
  (second || ((e.glob || e.asid == fld c.sxlat.toNat 59 44) && e.mode1 == c.sxlat.toNat / 2 ^ 60 && e.host == c.hostpt))

/-- Where a walk of a bench begins: at the lowest table that its walk cache names, else at the root (R292). An access of
the device beside the benches uses no cache. -/
def wStart (s : State) (bench : Option Nat) (c : Ctx) (second : Bool) (a root : Nat) : WalkAt :=
  match bench with
  | none => { base := root }
  | some b =>
    (s.wcache.filter (wHit c b second a)).foldl
      (fun r e => if e.lvl + 1 < r.left then { base := e.base, lines := e.lines, gmaps := e.gmaps, left := e.lvl + 1 } else r)
      { base := root }

/-- A non-leaf entry kept in a bench's walk cache: 64 of each stage (R291). -/
def wKeep (s : State) (bench : Option Nat) (c : Ctx) (second glob : Bool) (a : Nat) (t : WalkAt) : State :=
  match bench with
  | none => s
  | some b =>
    let e : WEntry := { bench := b, second := second, vmid := fld c.hgxlat.toNat 57 44, asid := fld c.sxlat.toNat 59 44,
                        glob := glob, mode1 := c.sxlat.toNat / 2 ^ 60, mode2 := c.hgxlat.toNat / 2 ^ 60, host := c.hostpt,
                        lvl := t.left - 1, tag := a / 2 ^ (12 + 9 * t.left), base := t.base, lines := t.lines,
                        gmaps := t.gmaps }
    let l := cachePut 64 (fun x => x.bench == b && x.second == second) (fun x => wHit c b second a x && x.lvl == e.lvl) s.wcache e
    { s with wcache := l }

/-- What one stage gives: an address with the leaf's entry, the lines read and the second-stage leaf used, or how it
ended. -/
inductive Stage where
  | ok (addr pte : Nat) (lines : List Nat) (gmap : List (Nat × Nat))
  | miss (gpa : Nat) (imp : Bool)
  | refuse (gpa : Nat) (imp bad : Bool)
  | error
  deriving DecidableEq, Repr

/-- A write of A and D bits at an entry's home, where a copy that this package holds of its line is written back first
(R289). -/
def setAD (s : State) (key p : Nat) (k : Acc) (upd : Bool) : State :=
  if upd ∧ pteMark p k ≠ p then
    let s := toHome s (.mem key)
    storeAt s (.mem key) 8 (pteMark (mrd s.mem key 8) k)
  else s

/-- `gstage` of R289: the second stage of a context for a guest physical address, by the walker of a bench or by the
device. -/
def gStage (s : State) (bench : Option Nat) (c : Ctx) (g : Nat) (k : Acc) (imp upd : Bool) : Stage × State :=
  if c.hgxlat.toNat / 2 ^ 60 = 0 then (.ok g 0 [] [], s)
  else if c.hostpt then (.refuse g imp true, s)
  else if g / 2 ^ 59 ≠ 0 then (.refuse g imp true, s)
  else
    let w := wStart s bench c true g (fld c.hgxlat.toNat 43 0 * 4096)
    match gLevel s c.part g w.base w.lines [] w.left with
    | .miss => (.miss g imp, s)
    | .bad => (.refuse g imp true, s)
    | .error => (.error, s)
    | .leaf p lvl key lines mids =>
      let s := if upd then mids.foldl (fun s t => wKeep s bench c true false g t) s else s
      if !(pteU p) || !(pteAllows p k) then (.refuse g imp false, s)
      else (.ok (ptePpn p * 4096 + inPage g lvl) p lines [(lvl, g / 2 ^ (12 + 9 * lvl))], setAD s key p k upd)

/-- What the first stage gives. -/
inductive Stage1 where
  | leaf (gpa pte lvl : Nat) (lines : List Nat) (gmaps : List (Nat × Nat))
  | miss
  | refuse (bad : Bool)
  | second (r : Stage)
  deriving DecidableEq, Repr

/-- Does a physical address name own device memory? -/
def ownMem (s : State) (pa : Nat) : Bool :=
  match physOf s pa with
  | .mem k => isOwn k
  | _ => false

/-- The first-stage walk of the levels below `lvl + 1`; each entry's address goes through the second stage. An entry in own
memory outside the partition is refused at the stage that gave its address, and a table in other memory as malformed at the
first stage (R283, R288, R289). -/
def sLevel (s : State) (bench : Option Nat) (c : Ctx) (va : Nat) (k : Acc) (user upd : Bool) (base : Nat) (lines : List Nat)
    (gmaps : List (Nat × Nat)) : Nat → Stage1 × State
  | 0 => (.refuse true, s)
  | lvl + 1 =>
    let eg := base + fld va (20 + 9 * lvl) (12 + 9 * lvl) * 8
    match gStage s bench c eg .load true upd with
    | (.ok ep _ gl gm, s) =>
      match pteHome s c.part c.hostpt ep with
      | none => (if gm.isEmpty || !(ownMem s ep) then .refuse true else .second (.refuse eg true true), s)
      | some key =>
        if poisoned s (.mem key) 8 then (.second .error, s)
        else
          let p := mrd s.mem key 8
          let lines := key / 128 :: (gl ++ lines)
          let gmaps := gm ++ gmaps
          if !(pteV p) then (.miss, s)
          else if pteBad p lvl then (.refuse true, s)
          else if pteLeaf p then
            if !(pteAllows p k) || !(privAllows p k user) then (.refuse false, s)
            else if pteMark p k ≠ p then
              match gStage s bench c eg .store true upd with
              | (.ok _ _ _ _, s) =>
                (.leaf (ptePpn p * 4096 + inPage va lvl) (if upd then pteMark p k else p) lvl lines gmaps, setAD s key p k upd)
              | (r, s) => (.second r, s)
            else (.leaf (ptePpn p * 4096 + inPage va lvl) p lvl lines gmaps, s)
          else
            let t : WalkAt := { base := ptePpn p * 4096, lines := lines, gmaps := gmaps, left := lvl }
            sLevel (if upd then wKeep s bench c false (pteG p) va t else s) bench c va k user upd t.base lines gmaps lvl
    | (r, s) => (.second r, s)

/-- The stronger of two attributes: IO over NC over PMA (R287). -/
def pbmtOf (p q : Nat) : Nat := max (ptePbmt p) (ptePbmt q)

/-- Is a virtual address canonical for Sv57 (R284)? -/
def canonical (va : Word) : Bool := fld va.toNat 63 57 == (if fld va.toNat 56 56 = 1 then 127 else 0)

/-- The check of the physical address that translation produced (R283, R364, R367): `two` says which stage produced
it. -/
def physCheck (s : State) (w : Who) (two : Bool) (gpa : Word) (pa pbmt : Nat) : Xl :=
  match physOf s pa with
  | .mem key =>
    if partOwns s (cx s w.ctx).part key then .ok (.mem key) pa pbmt else .refuse two false gpa true 0
  | .window => if pbmt = 2 then .window pa else .refuse true false gpa true 6
  | .refused r => .refuse two false gpa true r

/-- The bench whose walker and caches serve an access: none for the device beside the benches (R291). -/
def walkerOf (w : Who) : Option Nat := if w.core < 1024 then some (benchOf w.core) else none

/-- The first stage of an access: none of it where the mode is Bare, which permits every access (R284). -/
def stage1 (s : State) (w : Who) (va : Word) (k : Acc) (upd : Bool) : Stage1 × State :=
  let c := cx s w.ctx
  if c.sxlat.toNat / 2 ^ 60 = 0 then (.leaf va.toNat 0xDE 0 [] [], s)
  else if !(canonical va) then (.refuse true, s)
  else
    let t := wStart s (walkerOf w) c false va.toNat (fld c.sxlat.toNat 43 0 * 4096)
    sLevel s (walkerOf w) c va.toNat k (w.priv = .user) upd t.base t.lines t.gmaps t.left

/-- The walk of R289 without the combined caches: the outcome, and the entry that it builds where some stage is not
Bare. -/
def walk (s : State) (w : Who) (va : Word) (k : Acc) (upd : Bool) : Xl × Option TEntry × State :=
  let c := cx s w.ctx
  if w.priv = .hyp then (physCheck s w false 0 va.toNat 0, none, s)
  else match stage1 s w va k upd with
    | (.leaf gpa pte1 lvl lines gmaps, s) =>
      match gStage s (walkerOf w) c gpa k false upd with
      | (.ok pa pte2 gl gm, s) =>
        let m1 := c.sxlat.toNat / 2 ^ 60
        let m2 := c.hgxlat.toNat / 2 ^ 60
        let pa := if c.hostpt then hostPa s pa else pa
        let pb := pbmtOf pte1 (if m2 ≠ 0 then pte2 else 0)
        let e : TEntry := {
          cache := .core w.core, vmid := fld c.hgxlat.toNat 57 44, asid := fld c.sxlat.toNat 59 44, glob := pteG pte1,
          mode1 := m1, mode2 := m2, host := c.hostpt, vpn := va.toNat / 4096, gpn := gpa / 4096, ppn := pa / 4096,
          r1 := pteR pte1, w1 := pteW pte1, x1 := pteX pte1, u1 := pteU pte1, d1 := pteD pte1,
          r2 := pteR pte2, w2 := pteW pte2, x2 := pteX pte2, d2 := pteD pte2 || m2 = 0,
          pbmt := pb, lines := gl ++ lines, lvl1 := lvl, gmaps := gm ++ gmaps }
        (physCheck s w (m2 ≠ 0) (BitVec.ofNat 64 gpa) pa pb, if m1 = 0 ∧ m2 = 0 then none else some e, s)
      | (.miss g i, s) => (.miss true i (BitVec.ofNat 64 g), none, s)
      | (.refuse g i b, s) => (.refuse true i (BitVec.ofNat 64 g) b 0, none, s)
      | (.error, s) => (.error, none, s)
    | (.miss, s) => (.miss false false 0, none, s)
    | (.refuse b, s) => (.refuse false false 0 b 0, none, s)
    | (.second (.miss g i), s) => (.miss true i (BitVec.ofNat 64 g), none, s)
    | (.second (.refuse g i b), s) => (.refuse true i (BitVec.ofNat 64 g) b 0, none, s)
    | (.second _, s) => (.error, none, s)

/-- Which translation caches serve a lookup (R291): a core's TLB or its gather TLB with the bench's, the bench's alone for
its engines, or none for the device beside the benches. -/
inductive TUse where
  | core
  | gather
  | bench
  deriving DecidableEq, Repr

/-- Does a cached entry match an access by its tags (R291), and permit it without a walk? Nothing is cached where both stages
are Bare. -/
def tMatch (u : TUse) (c : Ctx) (w : Who) (va : Word) (k : Acc) (e : TEntry) : Bool :=
  w.core < 1024 &&
  (e.cache == .bench (benchOf w.core) || (u == .core && e.cache == .core w.core) || (u == .gather && e.cache == .gather w.core)) &&
  e.vmid == fld c.hgxlat.toNat 57 44 && (e.glob || e.asid == fld c.sxlat.toNat 59 44) &&
  (e.mode1 != 0 || e.mode2 != 0) && e.mode1 == c.sxlat.toNat / 2 ^ 60 && e.mode2 == c.hgxlat.toNat / 2 ^ 60 && e.host == c.hostpt &&
  e.vpn == va.toNat / 4096 && (e.mode1 == 0 || w.priv ≠ .user || e.u1) &&
  (match k with
   | .load => e.r1 && (e.mode2 == 0 || e.r2)
   | .store => e.r1 && e.w1 && e.d1 && (e.mode2 == 0 || (e.r2 && e.w2 && e.d2))
   | .fetch => e.x1 && (e.mode2 == 0 || e.x2) && (e.mode1 == 0 || w.priv = .user || !e.u1))

/-- An entry cached: in the core's TLB of 64 entries or the bank of 32 that va[14:12] picks in its gather TLB, and in the
bench's of 4,096; a full cache loses its oldest entry, which the spec leaves open (R291, log 38). -/
def tFill (s : State) (u : TUse) (w : Who) (e : TEntry) : State :=
  let put (n : Nat) (c : TCache) (here : TEntry → Bool) (l : List TEntry) : List TEntry :=
    cachePut n (fun x => x.cache == c && here x)
      (fun x => x.vpn == e.vpn && x.vmid == e.vmid && x.asid == e.asid && x.mode1 == e.mode1 && x.mode2 == e.mode2 &&
        x.host == e.host) l { e with cache := c }
  let l := put 4096 (.bench (benchOf w.core)) (fun _ => true) s.tlb
  let l := match u with
    | .core => put 64 (.core w.core) (fun _ => true) l
    | .gather => put 32 (.gather w.core) (fun x => x.vpn % 8 == e.vpn % 8) l
    | .bench => l
  if w.core < 1024 then { s with tlb := l } else s

/-- Translation of an address: a cached translation, or a walk whose result is cached (R282, R291, R292). -/
def xlateBy (u : TUse) (s : State) (w : Who) (va : Word) (k : Acc) : Xl × State :=
  let c := cx s w.ctx
  if w.priv = .hyp then (physCheck s w false 0 va.toNat 0, s)
  else match s.tlb.find? (tMatch u c w va k) with
    | some e =>
      (physCheck s w (e.mode2 ≠ 0) (BitVec.ofNat 64 (e.gpn * 4096 + va.toNat % 4096))
        (e.ppn * 4096 + va.toNat % 4096) e.pbmt, s)
    | none =>
      match walk s w va k true with
      | (x, some e, s) => (x, tFill s u w e)
      | (x, none, s) => (x, s)

def xlate (s : State) (w : Who) (va : Word) (k : Acc) : Xl × State := xlateBy .core s w va k

/-- Is the access that a use names still on its way: a store or update sent, a posted operation, or a multicast request in a
stream? -/
def useLive (s : State) (u : Use) : Bool :=
  (th s u.tid).sent.any (fun x => x.seq == u.seq) || s.posts.any (fun p => p.tid == u.tid && p.seq == u.seq) ||
  ((co s (coreOf u.tid)).ch.req.any (fun r => r.tid == u.tid && r.seq == u.seq) &&
    s.streams.any fun x => x.cores.contains (coreOf u.tid))

/-- The translation that an access with order number `q` takes with it, for those who wait until it is no longer in use
(R296, R302). -/
def noteUse (s : State) (w : Who) (va : Word) (q : Nat) : State :=
  if w.priv = .hyp then s
  else match s.tlb.find? fun e => tMatch .core (cx s w.ctx) w va .load e || tMatch .gather (cx s w.ctx) w va .load e with
    | some e => { s with uses := { tid := w.tid, seq := q, tr := e } :: s.uses.filter (useLive s) }
    | none => s

/-! ### Page requests (R297-R300) -/

/-- Entries that a context holds, reserved or shared (R297). -/
def pagesOf (s : State) (ctx : Nat) (shared : Bool) : Nat :=
  (s.pages.filter fun e => e.2.ctx = ctx ∧ e.2.shared = shared).length

/-- Entries that are neither held nor kept for a reservation: each Running context keeps 16 (R297). -/
def sharedFree (s : State) : Nat :=
  let kept := (s.ctxs.map fun e => if e.2.state = .running then 16 else 0).sum
  4096 - kept - (s.pages.filter fun e => e.2.shared).length

/-- The kind of entry that a miss of a context may take now: a free reserved one first, then a shared one while the
context holds fewer than `CAP` (R297). `some true` is a shared one. -/
def pageRoom (s : State) (ctx : Nat) : Option Bool :=
  if (cx s ctx).state = .running ∧ pagesOf s ctx false < 16 then some false
  else if pagesOf s ctx true < (cx s ctx).cap ∧ 0 < sharedFree s then some true
  else none

/-- The lowest free entry of the page-request queue (log 5: the device's choice of entry). -/
def freePage (s : State) : Option Nat := leastFrom (fun k => !(s.pages.any fun e => e.1 = k)) 0 4096

/-- Is a request the same as an unanswered one (R298)? -/
def samePage (a b : PageReq) : Bool :=
  a.ctx == b.ctx && a.second == b.second && a.kind == b.kind && a.imp == b.imp &&
  (if a.second then a.gpa.toNat / 4096 == b.gpa.toNat / 4096 else a.va.toNat / 4096 == b.va.toNat / 4096)

/-- The reservation of a context is released (R336): the entries that it still holds are shared ones until they are
answered (log 32). -/
def releaseReserve (s : State) (n : Nat) : State :=
  { s with pages := s.pages.map fun e => if e.2.ctx = n then (e.1, { e.2 with shared := true }) else e }

/-- A request that takes a free entry, or waits for one behind the earlier ones of its context (R297). -/
def postNew (s : State) (r : PageReq) : State :=
  let wait := { s with pageWaits := s.pageWaits ++ [r] }
  if s.pageWaits.any (·.ctx == r.ctx) then wait
  else match pageRoom s r.ctx, freePage s with
    | some sh, some k => { s with pages := tput s.pages k { r with gen := tget s.pageGens k 0, shared := sh } }
    | _, _ => wait

/-- Waiting requests take entries, in their order of arrival, as there is room (R297). -/
def grantWaits (s : State) : State :=
  s.pageWaits.foldl (fun s r => postNew s r) { s with pageWaits := [] }

/-- A miss joins a matching request, or posts a new one (R297, R298). -/
def postPage (s : State) (r : PageReq) : State :=
  match s.pages.find? fun e => samePage e.2 r with
  | some (k, e) => { s with pages := tput s.pages k { e with reqs := (e.reqs ++ r.reqs).eraseDups } }
  | none =>
    if s.pageWaits.any (samePage r) then
      { s with pageWaits := s.pageWaits.map fun e =>
          if samePage r e then { e with reqs := (e.reqs ++ r.reqs).eraseDups } else e }
    else postNew s r

/-- The page request of a miss (R299). -/
def missReq (s : State) (w : Who) (va : Word) (k : Acc) (src : Nat) (second imp : Bool) (gpa : Word)
    (who : Requester) : PageReq :=
  { ctx := w.ctx, second := second, kind := if imp then .load else k, imp := imp, priv := w.priv, src := src, va := va,
    gpa := gpa, asid := fld (cx s w.ctx).sxlat.toNat 59 44, tid := w.tid, reqs := [who] }

/-- The ring of a request's owner: none when LOG2N is 0 (R299). -/
def ringOf (s : State) (r : PageReq) : Option (Nat × Nat) :=
  let c := cx s r.ctx
  let reg := if r.second then c.hprq else if c.hostpt then (match c.vf with | some v => (vfn s v).hprb | none => 0)
             else c.sprq
  if reg.toNat % 16 = 0 then none else some (reg.toNat / 64 * 64, 2 ^ (reg.toNat % 16))

/-! ### What a thread meets (R290) -/

/-- The trap of a refusal at a thread: cause 6 or 7 at the first stage, 19 or 20 to the hypervisor at the second
(R290). At hypervisor privilege no stage applies (R283). -/
def refuseTrap (s : State) (va : Word) (k : Acc) (second imp : Bool) (gpa : Word) : State :=
  let t := me s
  if second ∧ t.priv ≠ .hyp then
    let gva := decide ((cx s t.ctx).sxlat.toNat / 2 ^ 60 ≠ 0)
    let hval := if gva then va else gpa
    if imp then raiseWith s 19 va (some (gpa, true, true)) else raiseWith s 20 hval (some (gpa, false, gva))
  else raise s (if k = .fetch then 7 else 6) va

/-- The thread drops: its bundle waits for a page request, out of the rotation (R53). A miss whose ring does not
exist is at once refused (R299). -/
def dropThread (s : State) (va : Word) (k : Acc) (src : Nat) (second imp : Bool) (gpa : Word) : State :=
  let r := missReq s (whoOf s s.cur) va k src second imp gpa (.thread s.cur)
  match ringOf s r with
  | none => refuseTrap s va k second imp gpa
  | some _ =>
    let s := postPage s r
    { setMe s { me s with state := .dropped, miss := some { va, kind := k, second, imp, gpa, slot := s.slot } } with
      last := .dropped }

/-- The guest physical address of an access of the thread `s.cur` that translated to a window. -/
def windowGpa (s : State) (va : Word) (k : Acc) : Word :=
  match (stage1 s (whoOf s s.cur) va k false).1 with
  | .leaf gpa _ _ _ _ => BitVec.ofNat 64 gpa
  | _ => 0

/-- The end of a translation that is not a plain home, for a thread's precise access. A load or atomic of a window is refused at
the stage that gave its address (R283, R367). -/
def xlFail (s : State) (va : Word) (k : Acc) (src : Nat) (x : Xl) : State :=
  match x with
  | .miss b i g => dropThread s va k src b i g
  | .refuse b i g _ _ => refuseTrap s va k b i g
  | .error => raise s 9 va
  | .window _ => refuseTrap s va k (decide ((cx s (me s).ctx).hgxlat.toNat / 2 ^ 60 ≠ 0)) false (windowGpa s va k)
  | .ok _ _ _ => held s

end Sys2Proof.Machine
end

