-- ==== Sys2Proof/Machine/Access.lean ====
section
/-! DEFINITION. Scalar accesses: the windows, loads with the thread's own stores before them, the store queue with its
checks and its records, the error log (R64, R118, R176, R235, R244-R248, R287, R338, R363). -/

namespace Sys2Proof.Machine

/-! ### Windows (R64, R176) -/

/-- The near counter that an address names, in the near window of a core: core and entry (R176). -/
def nearAt (s : State) (core : Nat) (ea : Word) : Option (Nat × Nat) :=
  let n := (co s core).ncbase
  let off := (ea - BitVec.ofNat 64 (n.toNat / 2 ^ 21 * 2 ^ 21)).toNat
  if bit n 0 ∧ off < 2 ^ 21 then some (off / 2048, off % 2048 / 8) else none

/-- The offset of an address in a thread's scratchpad window (R64). -/
def lwbAt (s : State) (tid : Nat) (ea : Word) : Option Nat :=
  let w := (th s tid).u.lwb
  let off := (ea - BitVec.ofNat 64 (w.toNat / 2 ^ 19 * 2 ^ 19)).toNat
  if bit w 0 ∧ off < 0x80000 then some off else none

/-- Where a scalar access of a thread goes before translation (R64, R176): the `LWB` window first, then the near
window. -/
inductive Place where
  | spad (off : Nat)
  | near (core entry : Nat)
  /-- Refused with fault code 6. -/
  | out
  | global
  deriving DecidableEq, Repr

/-- A near counter as a scalar access of `size` bytes names it: 8 bytes, in the thread's partition (R176). -/
def nearPlace (s : State) (tid size : Nat) (n : Nat × Nat) : Place :=
  if size = 8 ∧ partOfCore s n.1 = partOf s tid ∧ meshOk s (coreOf tid) n.1 then .near n.1 n.2 else .out

def placeOf (s : State) (tid : Nat) (ea : Word) (size : Nat) : Place :=
  match lwbAt s tid ea with
  | some off => if off + size ≤ spSize s (coreOf tid) then .spad off else .out
  | none =>
    match nearAt s (coreOf tid) ea with
    | some n => nearPlace s tid size n
    | none => .global

/-- Where an AMO or RED goes: the near window first (R176, R254). -/
def placeOfRmw (s : State) (tid : Nat) (ea : Word) : Place :=
  match nearAt s (coreOf tid) ea with
  | some n => nearPlace s tid 8 n
  | none => placeOf s tid ea 8

/-! ### The thread's own stores (R64, R118, R235) -/

/-- The vector loads and the vector stores (R126, R132). -/
def VOp.isLoad (o : VOp) : Bool :=
  match o with
  | .vld | .vlds | .vldx | .vldff | .vldg | .vldb => true
  | _ => false

def VOp.isStore (o : VOp) : Bool :=
  match o with
  | .vst | .vsts | .vstx | .vstxa | .vstxf => true
  | _ => false

/-- Does the thread's vector queue hold a store (R118)? -/
def vstPending (t : Thread) : Bool :=
  t.v.queue.any fun e => e.op.isStore

/-- Has a thread a scalar store, RED or AMO before order number `q` that is not performed? Vector accesses follow every
earlier scalar access (R118). -/
def scalarBefore (s : State) (tid q : Nat) : Bool :=
  let t := th s tid
  (t.stores.any fun x => !x.vec && x.seq < q) || (t.sent.any fun x => !x.vec && x.seq < q) ||
  s.posts.any fun p => p.tid == tid && p.seq < q && (match p.kind with | .amo _ => true | .red _ => true | _ => false)

/-- Does a store continue the entry of the one before it: the next elements of the same store, in the same line (R244)? -/
def Store.joins (a b : Store) : Bool :=
  a.nelem ≠ 0 && b.nelem ≠ 0 && a.pc == b.pc && a.slot == b.slot && b.elem == a.elem + a.nelem && a.space == b.space &&
  a.addr.toNat / 128 == b.addr.toNat / 128

/-- Entries that stores take after `a`, whose entry holds `run` elements so far (R244). -/
def entriesAfter (a : Store) (run : Nat) : List Store → Nat
  | [] => 0
  | b :: r =>
    if a.joins b ∧ run + b.nelem ≤ 32 then entriesAfter b (run + b.nelem) r else 1 + entriesAfter b b.nelem r

/-- The entries of a store queue: one scalar store each, or up to 32 consecutive elements within one line (R244). -/
def entriesOf : List Store → Nat
  | [] => 0
  | a :: r => 1 + entriesAfter a a.nelem r

/-- The queue of 64 entries is full (R244). -/
def storeFull (t : Thread) : Bool := 64 ≤ entriesOf t.stores

/-- A store put into the thread's queue with an order number (R244). -/
def queueStore (s : State) (tid : Nat) (x : Store) (seq : Nat) : State :=
  let t := th s tid
  setTh s tid { t with stores := t.stores ++ [{ x with seq := seq }] }

/-- A store put into the thread's queue behind everything before it (R244). -/
def pushStore (s : State) (tid : Nat) (x : Store) : State := tick (queueStore s tid x s.order)

/-- How the checks of a store or element end (R245). -/
inductive Chk where
  | ok (loc : Loc) (pbmt : Nat)
  | window (pa : Nat)
  | miss (second imp : Bool) (gpa : Word)
  | fail (code : Nat) (gpa : Word)
  deriving DecidableEq, Repr

/-- The byte run of a peer scratchpad address: offset, rank, and the rest zero (R128). -/
def peerLoc (s : State) (tid : Nat) (e : Word) (n : Nat) : Option Loc :=
  if e.toNat / 2 ^ 31 ≠ 0 then none
  else
    match rankCore s tid (e.toNat / 2 ^ 19 % 4096) with
    | some c => if e.toNat % 2 ^ 19 + n ≤ spSize s c then some (.spad c (e.toNat % 2 ^ 19)) else none
    | none => none

/-- The halo rule of a store (R252). -/
def chkHalo (s : State) (tid : Nat) (l : Loc) (pbmt : Nat) : Chk := if haloBad s tid l then .fail 14 0 else .ok l pbmt

/-- The checks of a queued store: alignment, address limits, translation, permission, halo (R132, R245). -/
def checkStore (s : State) (tid : Nat) (x : Store) : Chk × State :=
  if x.addr.toNat % x.width ≠ 0 ∧ x.space ≠ .scratch ∧ x.space ≠ .near then (.fail 5 0, s)
  else match x.space with
  | .scratch =>
    if x.off % x.width ≠ 0 then (.fail 5 0, s)
    else if x.off + x.width ≤ spSize s (coreOf tid) then (.ok (.spad (coreOf tid) x.off) 0, s) else (.fail 6 0, s)
  | .peer =>
    match peerLoc s tid x.addr x.width with
    | some l => (.ok l 0, s)
    | none => (.fail 6 0, s)
  | .near =>
    match nearAt s (coreOf tid) x.addr with
    | some n => (match nearPlace s tid x.width n with | .near c e => .ok (.near c e) 0 | _ => .fail 6 0, s)
    | none => (.fail 6 0, s)
  | .global =>
    let w : Who := { ctx := (th s tid).ctx, priv := x.priv, core := coreOf tid, tid := tid }
    match xlateBy (if x.gather then .gather else .core) s w x.addr .store with
    | (.ok l _ pb, s) => (chkHalo s tid l pb, s)
    | (.window pa, s) => (.window pa, s)
    | (.miss b i g, s) => (.miss b i g, s)
    | (.refuse b _ g _ _, s) => (if b ∧ x.priv ≠ .hyp then .fail 20 g else .fail 6 0, s)
    | (.error, s) => (.fail 9 0, s)

/-- The thread's stores that are not performed, in order, with the place each will reach. A queued store that will be
recorded is not among them; one whose translation is pending has no place. -/
def ownStores (s : State) (tid : Nat) : List (Store × Option Loc) :=
  let t := th s tid
  t.sent.map (fun x => (x, x.loc)) ++
    t.stores.filterMap fun x =>
      match (checkStore s tid x).1 with
      | .ok l _ => some (x, some l)
      | .miss _ _ _ => some (x, none)
      | _ => none

/-- The position of byte `i` from `l` in a run of `n` bytes at `r`. -/
def within (r : Loc) (n : Nat) (l : Loc) (i : Nat) : Option Nat :=
  match r, l with
  | .mem x, .mem y => if x ≤ y + i ∧ y + i < x + n then some (y + i - x) else none
  | .spad c x, .spad d y => if c = d ∧ x ≤ y + i ∧ y + i < x + n then some (y + i - x) else none
  | .near c e, .near d f => if c = d ∧ e = f then some i else none
  | _, _ => none

/-- The last own store to byte `i` from `l`: the store and the byte's position in its data. -/
def lastStore (ls : List (Store × Option Loc)) (l : Loc) (i : Nat) : Option (Store × Nat) :=
  ls.foldl (fun r x =>
    match x.2 with
    | some p => match within p x.1.width l i with | some k => some (x.1, k) | none => r
    | none => r) none

/-- Has a thread an access before order number `q` that is not performed and goes, or may go, to an IO page? Those are
performed in program order, one after another (R287). -/
def ioBefore (s : State) (tid q : Nat) : Bool :=
  ((th s tid).stores.any fun x => x.seq < q && x.space == .global) ||
  ((th s tid).sent.any fun x => x.seq < q && x.pbmt == 2) ||
  s.posts.any fun p => p.tid == tid && p.seq < q && p.pbmt == 2

/-- Must an access of `n` bytes at `l` wait for the thread's own earlier operations on the same bytes, or on the same line of
a peer package (R366): a RED or scatter-add, an AMO or counter operation, a store whose translation is pending (R235), or for
an earlier test, which may be an acquire (R237)? -/
def mustWait (s : State) (tid : Nat) (ls : List (Store × Option Loc)) (ea : Word) (l : Loc) (n pbmt : Nat) : Bool :=
  (pbmt == 2 && ioBefore s tid s.order) ||
  (ls.any fun x =>
    match x.2 with
    | some p => (x.1.op != .put || x.1.pbmt != 0) && clash p x.1.width l n && !(x.1.op == .put && overlap p x.1.width l n)
    | none => x.1.space == .global && x.1.addr.toNat < ea.toNat + n && ea.toNat < x.1.addr.toNat + x.1.width) ||
  (s.posts.any fun p => p.tid == tid && (p.kind == .test || clash p.loc 8 l n))

/-- A line dropped from a core's L1 part: the core's own operation at the home has passed it (R235). -/
def l1drop (s : State) (core : Nat) (l : Loc) : State :=
  match l with
  | .mem k => setCo s core { co s core with l1 := tdel (co s core).l1 (k / 128) }
  | _ => s

/-- The bytes that a load of a thread finds at a place, without its own unperformed stores (R228, R251, R287), as a
number; `none` when they hold an uncorrectable error. -/
def viewOf (s : State) (tid : Nat) (l : Loc) (n pbmt : Nat) : Option Nat :=
  match l with
  | .mem k =>
    let c := co s (coreOf tid)
    let line := match l1Copy c (k / 128) with
      | some m => if pbmt = 0 ∧ (haloAt s k).isNone then some m else none
      | none => none
    let base := match line with
      | some m => some (mrd m (k % 128) n)
      | none => if poisoned s l n then none else some (if pbmt = 0 ∧ (haloAt s k).isNone then l2rd s k n else mrd s.mem k n)
    base.map fun v =>
      bytesNat ((List.range n).map fun i => (haloByte s tid (k + i)).getD (BitVec.ofNat 8 (v / 2 ^ (8 * i))))
  | _ => if poisoned s l n then none else some (rdLoc s l n)

/-- The fills that a load makes: L2 and the L1 part, for a cached line without an uncorrectable error (R228). -/
def fillFor (s : State) (tid : Nat) (l : Loc) (pbmt : Nat) : State :=
  match l with
  | .mem k =>
    if pbmt ≠ 0 ∨ (haloAt s k).isSome ∨ poisoned s (.mem (k / 128 * 128)) 128 then s
    else match l1Copy (co s (coreOf tid)) (k / 128) with
      | some _ => s
      | none => l1fill (l2fill s (k / 128)) (coreOf tid) (k / 128)
  | _ => s

/-- How a read ends. -/
inductive Ld where
  | value (v : Nat) (s : State)
  /-- The thread holds. -/
  | hold (s : State)
  /-- An uncorrectable error, an unreachable peer or a refusal there, by its cause (R59, R363, R365). -/
  | failed (cause : Nat) (s : State)
  /-- A trap was raised, or the thread dropped. -/
  | ends (s : State)

/-- A read of `n` bytes at a place by a thread: its own unperformed stores first, then what its copies or the home hold
(R64, R228, R235). -/
def readLoc (s : State) (tid : Nat) (ea : Word) (l : Loc) (n pbmt : Nat) : Ld :=
  let ls := ownStores s tid
  if mustWait s tid ls ea l n pbmt then .hold s
  else if !(pathFor s l pbmt) ∧ !(pbmt = 0 ∧ lineHeld s (coreOf tid) l) then
    if stuckOut s tid 0 ea 0 then .failed 9 (unstick s tid 0 ea 0) else .hold (stick s tid 0 ea 0 l)
  else if homeDenied s (partOf s tid) l then .failed 6 s
  else
    let own := (List.range n).map fun i => lastStore ls l i
    let s1 := unstick (fillFor s tid l pbmt) tid 0 ea 0
    match viewOf s tid l n pbmt with
    | some v =>
      .value (bytesNat ((List.range n).map fun i =>
        match lastStore ls l i with
        | some (x, k) => BitVec.ofNat 8 (x.data.toNat / 2 ^ (8 * k))
        | none => BitVec.ofNat 8 (v / 2 ^ (8 * i)))) s1
    | none =>
      if own.all Option.isSome then
        .value (bytesNat (own.map fun o =>
          match o with
          | some (x, k) => BitVec.ofNat 8 (x.data.toNat / 2 ^ (8 * k))
          | none => 0)) s1
      else .failed 9 s1

/-- A scalar load of the thread `s.cur`: `size` bytes at an address (R64). -/
def loadAt (s : State) (ea : Word) (size : Nat) : Ld :=
  if ea.toNat % size ≠ 0 then .ends (raise s 5 ea)
  else match placeOf s s.cur ea size with
    | .spad off => readLoc s s.cur ea (.spad (coreOf s.cur) off) size 0
    | .near c e => readLoc s s.cur ea (.near c e) size 0
    | .out => .ends (raise s 6 ea)
    | .global =>
      match xlate s (whoOf s s.cur) ea .load with
      | (.ok l _ pb, s) => readLoc s s.cur ea l size pb
      | (x, s) => .ends (xlFail s ea .load 0 x)

/-- A run of 8-byte words read with ordinary loads (R71, R249): the bytes, or how the first that fails ends. -/
def loadRun (s : State) (ea : Word) : Nat → List Byte × Ld
  | 0 => ([], .value 0 s)
  | k + 1 =>
    match loadAt s ea 8 with
    | .value v s =>
      match loadRun s (ea + 8) k with
      | (bs, r) => (natBytes 8 v ++ bs, r)
    | .failed c s => ([], .ends (raise s c ea))
    | r => ([], r)

/-- A scalar store entered into the queue: the address form is fixed at issue (R64, R244). -/
def storeOf (s : State) (ea : Word) (size : Nat) (data : Word) (word : Nat) : Store :=
  let t := me s
  let base : Store := { seq := 0, addr := ea, width := size, data := BitVec.ofNat 64 (data.toNat % 2 ^ (8 * size)),
                        pc := t.pc, slot := s.slot, word := word, priv := t.priv }
  match lwbAt s s.cur ea with
  | some off => { base with space := .scratch, off := off }
  | none =>
    match nearAt s (coreOf s.cur) ea with
    | some _ => { base with space := .near }
    | none => base

/-- Must an operation of a thread at `l` wait for the thread's own earlier operations on the same bytes (R235) or on the same
line of a peer package (R366), or, in an IO page, for its earlier IO accesses (R287)? An earlier vector store whose elements
are still to enter the queue may name them. -/
def earlierOwn (s : State) (tid seq : Nat) (addr : Word) (l : Loc) (n pbmt : Nat) : Bool :=
  (pbmt == 2 && ioBefore s tid seq) ||
  ((th s tid).v.queue.any fun e => e.op.isStore && e.seq < seq) ||
  ((ownStores s tid).any fun x =>
    x.1.seq < seq && (match x.2 with
      | some p => clash p x.1.width l n
      | none => x.1.space == .global && x.1.addr.toNat < addr.toNat + n && addr.toNat < x.1.addr.toNat + x.1.width)) ||
  (s.posts.any fun p => p.tid == tid && p.seq < seq && (p.kind == .test || clash p.loc 8 l n))

/-- The outcome of a pending long result, when it is known (R58, R59). -/
def fillLong (s : State) (tid d : Nat) (pc : Word) (r : LongRes) : State :=
  let t := th s tid
  match t.longs.findIdx? fun l => l.d == d && l.pc == pc && l.res == .waiting with
  | some k =>
    match t.longs[k]? with
    | some l => setTh s tid { t with longs := lput t.longs k { l with res := r } }
    | none => s
  | none => s

/-! ### Rings and records (R245, R247, R299, R338) -/

/-- A guest physical address of a context as a home, for a write by the device (R245, R247): a home, a miss, or a
refusal. -/
def guestLoc (s : State) (ctx : Nat) (gpa : Nat) : Chk × State :=
  let c := cx s ctx
  match gStage s none c gpa .store false true with
  | (.ok pa _ _ _, s) =>
    match physOf s pa with
    | .mem k => (if partOwns s c.part k then .ok (.mem k) 0 else .fail 20 (BitVec.ofNat 64 gpa), s)
    | _ => (.fail 20 (BitVec.ofNat 64 gpa), s)
  | (.miss g _, s) => (.miss true true (BitVec.ofNat 64 g), s)
  | (.refuse g _ _, s) => (.fail 20 (BitVec.ofNat 64 g), s)
  | (.error, s) => (.fail 9 0, s)

/-- Records written to a ring whose adds to PROD, at `h`, are on their way (R245). -/
def ringDue (s : State) (h : Loc) : Nat :=
  (s.posts.filter fun p => p.kind == .add && p.engine.isSome && p.loc == h && p.amount == 1).length

/-- Is there room in a ring whose header is at `h` (R245)? -/
def ringRoom (s : State) (h : Loc) (n : Nat) : Bool :=
  (rdLoc s h 8 + ringDue s h + 2 ^ 64 - rdLoc s (h.plus 8) 8) % 2 ^ 64 < n

/-- The number of the next record of a ring, and its place index (R245). -/
def ringNext (s : State) (h : Loc) : Nat := (rdLoc s h 8 + ringDue s h + 1) % 2 ^ 64

/-- A privilege as the index bands code it (R36, R79). -/
def privCode (p : Priv) : Nat :=
  match p with
  | .user => 0
  | .sup => 2
  | .hyp => 3

/-- A store-fault record (R245). -/
def faultRecord (tid seq : Nat) (r : PendRec) : List Byte :=
  natBytes 8 seq ++ natBytes 8 r.st.pc.toNat ++ natBytes 8 r.st.addr.toNat ++ natBytes 8 r.st.data.toNat ++
  natBytes 4 r.st.elem ++ natBytes 1 r.st.width ++ natBytes 1 r.code ++
  natBytes 2 (tid + 2 ^ 14 * r.st.slot + (if r.st.op = .put then 0 else 2 ^ 15)) ++ natBytes 4 r.st.word ++
  natBytes 4 0 ++ natBytes 8 (if r.code = 20 then r.gpa.toNat else 0) ++ natBytes 8 0

/-- What a try to write a record of a thread gives: written, no room or no translation, refused, no ring. -/
inductive RingTry where
  | wrote (s : State)
  | full (s : State)
  | refused (gpa : Word) (s : State)
  | none
  deriving DecidableEq, Repr

/-- A record written to the store-fault ring of a context, and the add of 1 to PROD, with release at package scope, on its way
behind it (R245, R415); or why not (R247). A second-stage miss on the ring itself is no room, a refusal of its header is one at
the address base + 64 (DESIGN CHOICE, log 75). -/
def ringPut (s : State) (ctx tid : Nat) (r : PendRec) : RingTry :=
  let c := cx s ctx
  let base := c.sfqb.toNat
  if base = 0 then .none
  else
    match guestLoc s ctx base with
    | (.ok h _, s) =>
      if ringRoom s h c.sfqn then
        let n := ringNext s h
        let g := base + 64 + (n + 2 ^ 64 - 1) % 2 ^ 64 % c.sfqn * 64
        match guestLoc s ctx g with
        | (.ok l _, s) => .wrote (tick { storeBytes s l (faultRecord tid n r) with
            posts := s.posts ++ [{ kind := .add, seq := s.order, tid := 16384, ctx := ctx, addr := c.sfqb, loc := h, amount := 1,
                                   engine := some c.part }] })
        | (.fail _ _, s) => .refused (BitVec.ofNat 64 g) s
        | (_, s) => .full s
      else .full s
    | (.fail _ _, s) => .refused (BitVec.ofNat 64 (base + 64)) s
    | (_, s) => .full s

def ringWrite (s : State) (tid : Nat) (r : PendRec) : RingTry := ringPut s (th s tid).ctx tid r

/-- The report that a record written gives (R246). -/
def noteRecord (s : State) (tid seq : Nat) (r : PendRec) : State :=
  let t := th s tid
  match t.sfSeq with
  | some _ => s
  | none => setTh s tid { t with sfSeq := some seq, sfHyp := if r.code = 20 then some r.gpa else none }

/-- The sequence number that the next record of a thread's context takes. -/
def nextSeq (s : State) (tid : Nat) : Nat :=
  match (guestLoc s (th s tid).ctx (cx s (th s tid).ctx).sfqb.toNat).1 with
  | .ok h _ => ringNext s h
  | _ => 0

/-- A store that must be recorded: a record, a pending record, or the report that there is no ring (R245-R247). -/
def recordFault (s : State) (tid : Nat) (x : Store) (code : Nat) (gpa : Word) : State :=
  let r : PendRec := { st := x, code := code, gpa := gpa }
  let t := th s tid
  if t.precs.isEmpty then
    let n := nextSeq s tid
    match ringWrite s tid r with
    | .wrote s => noteRecord s tid n r
    | .full s => let t := th s tid; setTh s tid { t with precs := [r], sfPend := true }
    | .refused g s => let t := th s tid; setTh s tid { t with precs := [r], sfRing := some g }
    | .none => setTh s tid { t with sfNone := true }
  else setTh s tid { t with precs := t.precs ++ [r], sfPend := true }

/-- A record for the error log of a context: written with PROD raised, or lost with OVF raised (R338). DESIGN CHOICE
(log entry 68): a log with no base, or whose base does not resolve, has no header to hold `OVF`, and the context counts
the loss. -/
def logError (s : State) (ctx kind who addr detail core : Nat) : State :=
  let c := cx s ctx
  let base := c.celb.toNat
  let lost (s : State) : State :=
    let c := cx s ctx
    setCx s ctx { c with ovf := if c.ovf = BitVec.allOnes 64 then c.ovf else c.ovf + 1 }
  if base = 0 then lost s
  else
    match guestLoc s ctx base with
    | (.ok h _, s) =>
      if ringRoom s h c.celn then
        let n := ringNext s h
        match guestLoc s ctx (base + 64 + (n + 2 ^ 64 - 1) % 2 ^ 64 % c.celn * 64) with
        | (.ok l _, s) =>
          addAt (storeBytes s l (natBytes 8 n ++ natBytes 2 kind ++ natBytes 2 who ++ natBytes 4 0 ++ natBytes 8 addr ++
            natBytes 8 detail ++ natBytes 8 (cycleOf s core) ++ natBytes 24 0)) h 1
        | (_, s) => storeAt s (h.plus 16) 8 (min (rdLoc s (h.plus 16) 8 + 1) (2 ^ 64 - 1))
      else storeAt s (h.plus 16) 8 (min (rdLoc s (h.plus 16) 8 + 1) (2 ^ 64 - 1))
    | (_, s) => lost s

/-- An update of a context dropped at its home: the error log, `LUPD`, and the code-4 interrupt of the partition; the
interrupt alone where it is of no context (R202, R257). -/
def dropIn (s : State) (part ctx who core : Nat) (addr amount : Word) : State :=
  if ctx < 256 then
    let s := logError s ctx 1 who addr.toNat amount.toNat core
    let c := cx s ctx
    routed (setCx s ctx { c with lupd := if c.lupd = BitVec.allOnes 64 then c.lupd else c.lupd + 1 }) part 4
  else routed s part 4

/-- An update of a thread dropped at its home (R202, R257). -/
def dropUpdate (s : State) (tid : Nat) (addr amount : Word) : State :=
  dropIn s (partOf s tid) (th s tid).ctx tid (coreOf tid) addr amount

end Sys2Proof.Machine
end

