-- ==== Sys2Proof/Machine/Float.lean ====
section
/-! DEFINITION. Number formats and arithmetic (spec/04_numbers.md): the fields of each format, exact values, the one
rounding of a result with its flags, and the operations of the scalar, vector and matrix units over them. Every result
is formed exactly as an integer multiple of a power of two, or a quotient of two such, and rounded once (R69, R96). -/

namespace Sys2Proof.Machine

/-- How a format encodes infinities and NaNs (R89). -/
inductive Special where
  | ieee
  /-- No infinity; only the all-ones code is a NaN. -/
  | e4m3
  /-- Neither. -/
  | e2m1
  deriving DecidableEq, Repr

/-- A binary floating-point format: exponent width, fraction width, bias (R88). -/
structure Fmt where
  ew : Nat
  f : Nat
  bias : Nat
  kind : Special := .ieee
  deriving DecidableEq, Repr

def fp64 : Fmt := { ew := 11, f := 52, bias := 1023 }
def fp32 : Fmt := { ew := 8, f := 23, bias := 127 }
def fp16 : Fmt := { ew := 5, f := 10, bias := 15 }
def bf16 : Fmt := { ew := 8, f := 7, bias := 127 }
def fmtE4m3 : Fmt := { ew := 4, f := 3, bias := 7, kind := .e4m3 }
def fmtE5m2 : Fmt := { ew := 5, f := 2, bias := 15 }
def fmtE2m1 : Fmt := { ew := 2, f := 1, bias := 1, kind := .e2m1 }
/-- The positive values of a block scale, as a format (R93). -/
def fmtScale : Fmt := { ew := 8, f := 12, bias := 127 }

def Fmt.width (m : Fmt) : Nat := 1 + m.ew + m.f
/-- The sign bit of a format. -/
def Fmt.signBit (m : Fmt) : Nat := 2 ^ (m.ew + m.f)
/-- Magnitude code of the largest finite value (R88). -/
def Fmt.maxCode (m : Fmt) : Nat :=
  match m.kind with
  | .ieee => (2 ^ m.ew - 1) * 2 ^ m.f - 1
  | .e4m3 => 2 ^ (m.ew + m.f) - 2
  | .e2m1 => 2 ^ (m.ew + m.f) - 1
def Fmt.infCode (m : Fmt) : Nat := (2 ^ m.ew - 1) * 2 ^ m.f
/-- The canonical NaN, sign 0 (R89). -/
def Fmt.nan (m : Fmt) : Nat :=
  match m.kind with
  | .ieee => (2 ^ m.ew - 1) * 2 ^ m.f + 2 ^ (m.f - 1)
  | .e4m3 => 2 ^ (m.ew + m.f) - 1
  | .e2m1 => 0

/-- What a code stands for: a NaN, an infinity, or (−1)^neg · m · 2^e. -/
inductive FVal where
  | nan (signalling : Bool)
  | inf (neg : Bool)
  | fin (neg : Bool) (m : Nat) (e : Int)
  deriving DecidableEq, Repr

/-- The value of a code (R88, R89, R90). -/
def Fmt.val (m : Fmt) (c : Nat) : FVal :=
  let neg := c / m.signBit % 2 == 1
  let ex := c / 2 ^ m.f % 2 ^ m.ew
  let fr := c % 2 ^ m.f
  let num : FVal :=
    if ex = 0 then .fin neg fr (1 - (m.bias : Int) - m.f)
    else .fin neg (2 ^ m.f + fr) ((ex : Int) - m.bias - m.f)
  match m.kind with
  | .ieee =>
    if ex = 2 ^ m.ew - 1 then (if fr = 0 then .inf neg else .nan (fr / 2 ^ (m.f - 1) % 2 == 0)) else num
  | .e4m3 => if c % m.signBit = m.signBit - 1 then .nan false else num
  | .e2m1 => num

/-! ### Flags (R81, R108) -/

abbrev Flags := BitVec 5
def flNV : Flags := 16
def flDZ : Flags := 8
def flOF : Flags := 4
def flUF : Flags := 2
def flNX : Flags := 1

/-- The flag of an integer or ternary code that R92 and R134 name. -/
def flagIf (b : Bool) (f : Flags) : Flags := if b then f else 0

/-- Rounding modes by `FRM` code (R81, R95). -/
inductive Rm where
  | rne
  | rtz
  | rdn
  | rup
  | rmm
  deriving DecidableEq, Repr

def rmOf (n : Nat) : Rm :=
  match n with
  | 0 => .rne
  | 1 => .rtz
  | 2 => .rdn
  | 3 => .rup
  | _ => .rmm

/-- `n · 2^k` as a quotient of naturals. -/
def scale2 (n : Nat) (k : Int) : Nat × Nat := if 0 ≤ k then (n * 2 ^ k.toNat, 1) else (n, 2 ^ (-k).toNat)

/-- A positive quotient rounded to an integer in a mode, and whether that was inexact (R95). -/
def roundInt (rm : Rm) (neg : Bool) (num den : Nat) : Nat × Bool :=
  let t := num / den
  let r := num % den
  let up : Bool :=
    match rm with
    | .rne => den < 2 * r || (2 * r == den && t % 2 == 1)
    | .rtz => false
    | .rdn => neg && r != 0
    | .rup => !neg && r != 0
    | .rmm => den ≤ 2 * r
  (if up then t + 1 else t, r != 0)

/-- The exponent of the leading bit of a positive quotient `num / den`. -/
def leadExp (num den : Nat) : Int :=
  let l : Int := (Nat.log2 num : Int) - Nat.log2 den
  let (a, b) := scale2 num (-l)
  if den * b ≤ a then l else l - 1

/-- What an overflow gives: the largest finite value or infinity, by destination and mode (R97). -/
def Fmt.overflow (m : Fmt) (rm : Rm) (neg : Bool) : Nat :=
  match m.kind with
  | .ieee =>
    let inf := match rm with | .rne => true | .rmm => true | .rtz => false | .rdn => neg | .rup => !neg
    if inf then m.infCode else m.maxCode
  | _ => m.maxCode

/-- A non-zero exact value (−1)^neg · (num/den) · 2^e rounded once to a format, with its flags (R95, R97): first with
the exponent unbounded, then within the format's range. -/
def Fmt.roundQ (m : Fmt) (rm : Rm) (neg : Bool) (num den : Nat) (e : Int) : Nat × Flags :=
  let s := if neg then m.signBit else 0
  let ex := leadExp num den + e
  let emin : Int := 1 - m.bias
  let at_ (q : Int) : Nat × Bool :=
    let (a, b) := scale2 num (e - q)
    roundInt rm neg a (den * b)
  let q := max (ex - m.f) (emin - m.f)
  let (t, inexact) := at_ q
  let code := if t < 2 ^ m.f then t else ((q + m.f + m.bias).toNat - 1) * 2 ^ m.f + t
  if m.maxCode < code then (s + m.overflow rm neg, flOF ||| flNX)
  else
    let tiny := ex < emin && (let (u, _) := at_ (ex - m.f); decide (u < 2 ^ (m.f + 1)) || decide (ex + 1 < emin))
    (s + code, if inexact then (if tiny then flUF ||| flNX else flNX) else 0)

/-- An exact value `n · 2^e` rounded to a format; a zero takes the sign given. -/
def Fmt.roundEx (m : Fmt) (rm : Rm) (n : Int) (e : Int) (zneg : Bool) : Nat × Flags :=
  if n = 0 then (if zneg then m.signBit else 0, 0) else m.roundQ rm (n < 0) n.natAbs 1 e

/-- An infinity in a format: e4m3 and e2m1 have none (R97). -/
def Fmt.inf (m : Fmt) (neg : Bool) : Nat × Flags :=
  match m.kind with
  | .ieee => ((if neg then m.signBit else 0) + m.infCode, 0)
  | .e4m3 => (m.nan, flNV)
  | .e2m1 => ((if neg then m.signBit else 0) + m.maxCode, flNX)

/-- The flag of a NaN operand: NV on a signalling one (R70). -/
def FVal.nv (v : FVal) : Flags :=
  match v with
  | .nan true => flNV
  | _ => 0

def FVal.isNan (v : FVal) : Bool :=
  match v with
  | .nan _ => true
  | _ => false

def FVal.isZero (v : FVal) : Bool :=
  match v with
  | .fin _ 0 _ => true
  | _ => false

def FVal.neg (v : FVal) : FVal :=
  match v with
  | .nan s => .nan s
  | .inf b => .inf (!b)
  | .fin b m e => .fin (!b) m e

/-- Sign of a value that is not a NaN. -/
def FVal.sign (v : FVal) : Bool :=
  match v with
  | .nan _ => false
  | .inf b => b
  | .fin b _ _ => b

/-- A finite value as a signed integer times 2^e. -/
def sint (neg : Bool) (m : Nat) : Int := if neg then -(m : Int) else m

/-- The exact sum of two finite values: integer, exponent. -/
def exactAdd (a : Int) (ea : Int) (b : Int) (eb : Int) : Int × Int :=
  let e := min ea eb
  (a * 2 ^ (ea - e).toNat + b * 2 ^ (eb - e).toNat, e)

/-- The exact product of two values, as a value, with the flag of 0 × ∞ (R70). -/
def exactMul (a b : FVal) : FVal × Flags :=
  match a, b with
  | .nan _, _ => (.nan false, a.nv ||| b.nv)
  | _, .nan _ => (.nan false, a.nv ||| b.nv)
  | .inf x, .inf y => (.inf (x != y), 0)
  | .inf x, .fin y m _ => if m = 0 then (.nan false, flNV) else (.inf (x != y), 0)
  | .fin x m _, .inf y => if m = 0 then (.nan false, flNV) else (.inf (x != y), 0)
  | .fin x m e, .fin y n f => (.fin (x != y) (m * n) (e + f), 0)

/-- The sum of two values rounded once to a format (R70, R89, R95). -/
def Fmt.sum (d : Fmt) (rm : Rm) (a b : FVal) : Nat × Flags :=
  match a, b with
  | .nan _, _ => (d.nan, a.nv ||| b.nv)
  | _, .nan _ => (d.nan, a.nv ||| b.nv)
  | .inf x, .inf y => if x = y then d.inf x else (d.nan, flNV)
  | .inf x, .fin _ _ _ => d.inf x
  | .fin _ _ _, .inf y => d.inf y
  | .fin x m e, .fin y n f =>
    let (s, g) := exactAdd (sint x m) e (sint y n) f
    d.roundEx rm s g (if m = 0 ∧ n = 0 ∧ x = y then x else rm = .rdn)

def Fmt.add (m : Fmt) (rm : Rm) (a b : Nat) : Nat × Flags := m.sum rm (m.val a) (m.val b)
def Fmt.sub (m : Fmt) (rm : Rm) (a b : Nat) : Nat × Flags := m.sum rm (m.val a) (m.val b).neg

/-- A value rounded to a format. -/
def Fmt.ofVal (d : Fmt) (rm : Rm) (v : FVal) : Nat × Flags :=
  match v with
  | .nan s => (d.nan, (FVal.nan s).nv)
  | .inf x => d.inf x
  | .fin x m e => d.roundEx rm (sint x m) e x

def Fmt.mul (m : Fmt) (rm : Rm) (a b : Nat) : Nat × Flags :=
  let (p, f) := exactMul (m.val a) (m.val b)
  let (r, g) := m.ofVal rm p
  (r, f ||| g)

/-- The quotient rounded once; a finite non-zero value over zero sets DZ (R70). -/
def Fmt.div (m : Fmt) (rm : Rm) (a b : Nat) : Nat × Flags :=
  let x := m.val a
  let y := m.val b
  match x, y with
  | .nan _, _ => (m.nan, x.nv ||| y.nv)
  | _, .nan _ => (m.nan, x.nv ||| y.nv)
  | .inf _, .inf _ => (m.nan, flNV)
  | .inf s, .fin t _ _ => m.inf (s != t)
  | .fin s _ _, .inf t => (if s != t then m.signBit else 0, 0)
  | .fin s p e, .fin t q f =>
    if q = 0 then
      if p = 0 then (m.nan, flNV)
      else
        let (r, _) := m.inf (s != t)
        (r, flDZ)
    else if p = 0 then (if s != t then m.signBit else 0, 0)
    else m.roundQ rm (s != t) p q (e - f)

/-- The integer square root by bits. -/
def isqrtFrom (n : Nat) : Nat → Nat → Nat
  | 0, r => r
  | k + 1, r => isqrtFrom n k (if (r + 2 ^ k) * (r + 2 ^ k) ≤ n then r + 2 ^ k else r)

/-- The square root rounded once: the root to more bits than any format holds, with a last bit that says whether it is
inexact (R69, R70). -/
def Fmt.sqrt (m : Fmt) (rm : Rm) (a : Nat) : Nat × Flags :=
  let x := m.val a
  match x with
  | .nan _ => (m.nan, x.nv)
  | .inf s => if s then (m.nan, flNV) else m.inf false
  | .fin s p e =>
    if p = 0 then (if s then m.signBit else 0, 0)
    else if s then (m.nan, flNV)
    else
      let k : Nat := if e % 2 = 0 then 128 else 129
      let n := p * 2 ^ k
      let r := isqrtFrom n 96 0
      let last := if r * r = n then 0 else 1
      m.roundQ rm false (2 * r + last) 1 ((e - k) / 2 - 1)

/-- A × B + D, rounded once (R69). -/
def Fmt.fma (m : Fmt) (rm : Rm) (a b d : Nat) : Nat × Flags :=
  let (p, f) := exactMul (m.val a) (m.val b)
  let (r, g) := m.sum rm p (m.val d)
  (r, f ||| g)

/-- D − A × B, rounded once (R135). -/
def Fmt.fnma (m : Fmt) (rm : Rm) (a b d : Nat) : Nat × Flags :=
  let (p, f) := exactMul (m.val a) (m.val b)
  let (r, g) := m.sum rm p.neg (m.val d)
  (r, f ||| g)

/-- Order of two values that are not NaNs: less, with −0 equal to +0. -/
def FVal.lt (a b : FVal) : Bool :=
  match a, b with
  | .inf x, .inf y => x && !y
  | .inf x, _ => x
  | _, .inf y => !y
  | .fin x m e, .fin y n f =>
    let g := min e f
    decide (sint x m * 2 ^ (e - g).toNat < sint y n * 2 ^ (f - g).toNat)
  | _, _ => false

/-- Equality of two values that are not NaNs, with −0 equal to +0. -/
def FVal.eq (a b : FVal) : Bool := !a.isNan && !b.isNan && !(a.lt b) && !(b.lt a)

/-- Minimum (or maximum) of two codes: −0 below +0, a NaN ignored, NV on a signalling NaN (R107). -/
def Fmt.pick (m : Fmt) (max : Bool) (a b : Nat) : Nat × Flags :=
  let x := m.val a
  let y := m.val b
  let f := x.nv ||| y.nv
  if x.isNan then (if y.isNan then m.nan else b, f)
  else if y.isNan then (a, f)
  else
    let less := x.lt y || (!(y.lt x) && x.sign && !y.sign)
    (if less = max then b else a, f)

/-- `feq`: NV on a signalling NaN (R69). -/
def Fmt.feq (m : Fmt) (a b : Nat) : Bool × Flags :=
  ((m.val a).eq (m.val b), (m.val a).nv ||| (m.val b).nv)

/-- `flt` and `fle`: NV on any NaN (R69). -/
def Fmt.fltle (m : Fmt) (orEq : Bool) (a b : Nat) : Bool × Flags :=
  let x := m.val a
  let y := m.val b
  if x.isNan || y.isNan then (false, flNV) else (if orEq then !(y.lt x) else x.lt y, 0)

/-- `vfcun`: is an operand a NaN? NV on a signalling NaN (R136). -/
def Fmt.unordered (m : Fmt) (a b : Nat) : Bool × Flags :=
  ((m.val a).isNan || (m.val b).isNan, (m.val a).nv ||| (m.val b).nv)

/-- `fclass`: one bit set (R69). -/
def Fmt.classify (m : Fmt) (a : Nat) : Nat :=
  match m.val a with
  | .nan s => if s then 256 else 512
  | .inf s => if s then 1 else 128
  | .fin s p _ =>
    let k := if p = 0 then 3 else if a / 2 ^ m.f % 2 ^ m.ew = 0 then 2 else 1
    2 ^ (if s then k else 7 - k)

/-- A conversion between formats (R97). -/
def Fmt.convert (src dst : Fmt) (rm : Rm) (a : Nat) : Nat × Flags := dst.ofVal rm (src.val a)

/-- A float converted to a signed integer of `w` bits (R70, R97). -/
def Fmt.toInt (m : Fmt) (rm : Rm) (w a : Nat) : Nat × Flags :=
  let hi : Int := 2 ^ (w - 1) - 1
  let lo : Int := -(2 ^ (w - 1))
  let enc (n : Int) : Nat := (n % 2 ^ w).toNat
  match m.val a with
  | .nan _ => (enc hi, flNV)
  | .inf s => (enc (if s then lo else hi), flNV)
  | .fin s p e =>
    let (n, d) := scale2 p e
    let (t, inexact) := roundInt rm s n d
    let v := sint s t
    if hi < v then (enc hi, flNV) else if v < lo then (enc lo, flNV) else (enc v, if inexact then flNX else 0)

/-- A signed integer rounded to a format. -/
def Fmt.ofInt (m : Fmt) (rm : Rm) (n : Int) : Nat × Flags := m.roundEx rm n 0 false

/-! ### Type codes (R40, R91) -/

/-- Element width in bits of a type code; 0 for a reserved one. -/
def typeWidth (t : Nat) : Nat :=
  match t with
  | 0 => 32 | 1 => 16 | 2 => 16 | 3 => 8 | 4 => 8 | 5 => 4 | 6 => 8 | 7 => 2 | 8 => 32 | 9 => 64 | 10 => 16 | 11 => 64
  | _ => 0

/-- The format of a float type code. -/
def typeFmt (t : Nat) : Fmt :=
  match t with
  | 0 => fp32 | 1 => bf16 | 2 => fp16 | 3 => fmtE4m3 | 4 => fmtE5m2 | 5 => fmtE2m1 | _ => fp64

/-- The classes of R125. -/
def isInt (t : Nat) : Bool := t == 6 || t == 8 || t == 10 || t == 11
def isFlt (t : Nat) : Bool := t == 0 || t == 1 || t == 2 || t == 9
def isAnyType (t : Nat) : Bool := t < 12 && t != 7

/-- A number of `w` bits read as two's complement (R3). -/
def sgn (w n : Nat) : Int := if n % 2 ^ w < 2 ^ (w - 1) then (n % 2 ^ w : Nat) else (n % 2 ^ w : Nat) - (2 ^ w : Int)

/-- A signed number in `w` bits (R3). -/
def unsgn (w : Nat) (n : Int) : Nat := (n % 2 ^ w).toNat

/-- A signed number brought to the nearer end of the range of `w` bits (R97). -/
def clamp (w : Nat) (n : Int) : Int :=
  if (2 ^ (w - 1) : Int) ≤ n then 2 ^ (w - 1) - 1 else if n < -(2 ^ (w - 1)) then -(2 ^ (w - 1)) else n

/-! ### Block scales and the quantisers (R93, R94, R98, R99) -/

/-- The value of a block-scale container: none for the NaN scale, else m · 2^e. -/
def scaleVal (c : Nat) : Option (Nat × Int) :=
  let e := c / 4096 % 256
  let f := c % 4096
  if e = 255 then none else if e = 0 then some (f, -138) else some (4096 + f, (e : Int) - 139)

/-- The magnitude of a finite value as m · 2^e; none for a NaN or an infinity. -/
def FVal.mag (v : FVal) : Option (Nat × Int) :=
  match v with
  | .fin _ m e => some (m, e)
  | _ => none

/-- The larger of two magnitudes. -/
def maxMag (a b : Nat × Int) : Nat × Int :=
  let g := min a.2 b.2
  if a.1 * 2 ^ (a.2 - g).toNat < b.1 * 2 ^ (b.2 - g).toNat then b else a

/-- The scale of a block with largest magnitude `am`: the smallest block scale that is at least am / k (R98). -/
def blockScale (am : Nat × Int) (k : Nat) : Nat :=
  if am.1 = 0 then 0 else (fmtScale.roundQ .rup false am.1 k am.2).1

/-- A block quantised to a format with divisor `k` (6 for e2m1, 448 for e4m3): its scale container, the flag of the block
and its codes, each with its flags (R98, R99); an e2m1 code sets no UF. -/
def quantiseEach (m : Fmt) (k : Nat) (xs : List Nat) : Nat × Flags × List (Nat × Flags) :=
  let vs := xs.map fp32.val
  if vs.any fun v => v.mag.isNone then (0xFF000, flNV, xs.map fun _ => (0, 0))
  else
    let am := (vs.filterMap FVal.mag).foldl maxMag (0, 0)
    let s := blockScale am k
    match scaleVal s with
    | none => (s, 0, xs.map fun _ => (0, 0))
    | some (sm, se) =>
      let rs := vs.map fun v =>
        match v with
        | .fin neg p e =>
          if p = 0 then (if neg then m.signBit else 0, (0 : Flags)) else m.roundQ .rne neg p sm (e - se)
        | _ => (0, 0)
      (s, 0, rs.map fun r => (r.1, if m.kind = .e2m1 then r.2 &&& 0b11101#5 else r.2))

/-- A block quantised: its scale container, its codes and all its flags (R98, R99). -/
def quantise (m : Fmt) (k : Nat) (xs : List Nat) : Nat × List Nat × Flags :=
  let r := quantiseEach m k xs
  (r.1, r.2.2.map (·.1), r.2.2.foldl (fun f x => f ||| x.2) r.2.1)

/-! ### Sums in the Marver (R101, R102) -/

/-- An exact sum of values: an infinity or NaN prevails; flags of ∞ − ∞ and of signalling NaNs. The sign of an exact
zero is minus when every term is a negative zero. -/
def exactSum (vs : List FVal) : FVal × Flags :=
  let f := vs.foldl (fun f v => f ||| v.nv) (0 : Flags)
  if vs.any FVal.isNan then (.nan false, f)
  else
    let pos := vs.any fun v => v == .inf false
    let neg := vs.any fun v => v == .inf true
    if pos && neg then (.nan false, f ||| flNV)
    else if pos then (.inf false, f)
    else if neg then (.inf true, f)
    else
      let s := vs.foldl (fun (x : Int × Int) v =>
        match v with
        | .fin n m e => exactAdd x.1 x.2 (sint n m) e
        | _ => x) (0, 0)
      (.fin (if s.1 = 0 then vs.all FVal.sign && !vs.isEmpty else s.1 < 0) s.1.natAbs s.2, f)

end Sys2Proof.Machine
end

