-- ==== Sys2Proof/Machine/Atomic.lean ====
section
/-! DEFINITION. Atomics and reductions (R254-R257), and their events at the home. -/

namespace Sys2Proof.Machine

/-- The new word of an atomic or reduction of `n` bytes: W the old word, B the operand, D the compared value (R254). -/
def rmwNew (op : Rmw) (n : Nat) (W B D : Nat) : Nat :=
  let w := 8 * n
  match op with
  | .put => B
  | .add => (W + B) % 2 ^ w
  | .and => W &&& B
  | .or => W ||| B
  | .xor => W ^^^ B
  | .min => if sgn w B < sgn w W then B else W
  | .max => if sgn w W < sgn w B then B else W
  | .minu => if B < W then B else W
  | .maxu => if W < B then B else W
  | .swap => B
  | .cas => if W = D then B else W
  | .fadd => ((if n = 4 then fp32 else fp64).add .rne W B).1

/-- An atomic performed at its home, indivisibly: the word written, its waiters woken (R181, R255). -/
def rmwAt (s : State) (tid : Nat) (op : Rmw) (l : Loc) (n B D : Nat) : State :=
  let s := haloHome (l1drop (toHome s l) (coreOf tid) l) tid l n
  storeAt s l n (rmwNew op n (rdLoc s l n) B D)

/-- The checks of an AMO or RED made at issue: alignment and the halo rule (R255, R257). -/
def rmwTrap (s : State) (ea : Word) : Option State :=
  if ea.toNat % 8 ≠ 0 then some (raise s 5 ea)
  else if haloBadVa s s.cur ea then some (raise s 14 ea)
  else none

/-- An AMO: checked at issue, posted to the home, its old word a long result (R255). -/
def amo (s : State) (p : BitVec 1) (d a b : BitVec 5) (q : BitVec 4) (op : Rmw) : Out :=
  let ea := rd s a
  let go (l : Loc) (pb : Nat) (s : State) : State :=
    let x : Post := { kind := .amo op, seq := s.order, tid := s.cur, ctx := (me s).ctx, addr := ea, loc := l,
                      amount := rd s b, cmp := rd s d, d := d.toNat, pc := (me s).pc, pbmt := pb }
    finish (longResult (tick { s with posts := s.posts ++ [x] }) d q .waiting) p
  .next (match rmwTrap s ea with
    | some s => s
    | none =>
      match placeOfRmw s s.cur ea with
      | .near c e => go (.near c e) 0 s
      | .spad off => go (.spad (coreOf s.cur) off) 0 s
      | .out => raise s 6 ea
      | .global =>
        match xlate s (whoOf s s.cur) ea .store with
        | (.ok l _ pb, s) => go l pb (noteUse s (whoOf s s.cur) ea s.order)
        | (x, s) => xlFail s ea .store 0 x)

/-- A RED: alignment and halo checks are precise; it then enters the store queue, behind the elements of earlier vector
stores, and travels as a store does (R244, R245, R257). -/
def red (s : State) (p : BitVec 1) (a b : BitVec 5) (op : Rmw) (word : Nat) : Out :=
  let ea := rd s a
  .next (match rmwTrap s ea with
    | some s => s
    | none =>
      if vstPending (me s) ∨ storeFull (me s) then held s
      else
        let base := storeOf s ea 8 (rd s b) word
        let x := match nearAt s (coreOf s.cur) ea with
          | some _ => { base with space := .near }
          | none => base
        finish (pushStore s s.cur { x with op := op }) p)

/-- `amo.add` (R254, R255). -/
def execAmoAdd (p : BitVec 1) (d a b : BitVec 5) (q : BitVec 4) (s : State) : Out := amo s p d a b q .add

/-- `amo.and` (R254, R255). -/
def execAmoAnd (p : BitVec 1) (d a b : BitVec 5) (q : BitVec 4) (s : State) : Out := amo s p d a b q .and

/-- `amo.or` (R254, R255). -/
def execAmoOr (p : BitVec 1) (d a b : BitVec 5) (q : BitVec 4) (s : State) : Out := amo s p d a b q .or

/-- `amo.xor` (R254, R255). -/
def execAmoXor (p : BitVec 1) (d a b : BitVec 5) (q : BitVec 4) (s : State) : Out := amo s p d a b q .xor

/-- `amo.min` (R254, R255). -/
def execAmoMin (p : BitVec 1) (d a b : BitVec 5) (q : BitVec 4) (s : State) : Out := amo s p d a b q .min

/-- `amo.max` (R254, R255). -/
def execAmoMax (p : BitVec 1) (d a b : BitVec 5) (q : BitVec 4) (s : State) : Out := amo s p d a b q .max

/-- `amo.minu` (R254, R255). -/
def execAmoMinu (p : BitVec 1) (d a b : BitVec 5) (q : BitVec 4) (s : State) : Out := amo s p d a b q .minu

/-- `amo.maxu` (R254, R255). -/
def execAmoMaxu (p : BitVec 1) (d a b : BitVec 5) (q : BitVec 4) (s : State) : Out := amo s p d a b q .maxu

/-- `amo.swap` (R254, R255). -/
def execAmoSwap (p : BitVec 1) (d a b : BitVec 5) (q : BitVec 4) (s : State) : Out := amo s p d a b q .swap

/-- `amo.cas` (R254, R255). -/
def execAmoCas (p : BitVec 1) (d a b : BitVec 5) (q : BitVec 4) (s : State) : Out := amo s p d a b q .cas

/-- `amo.fadd` (R254, R255). -/
def execAmoFadd (p : BitVec 1) (d a b : BitVec 5) (q : BitVec 4) (s : State) : Out := amo s p d a b q .fadd

/-- `red.add` (R254, R257). -/
def execRedAdd (p : BitVec 1) (a b : BitVec 5) (q : BitVec 4) (s : State) : Out := red s p a b .add (wordRedAdd p a b q)

/-- `red.fadd` (R254, R257). -/
def execRedFadd (p : BitVec 1) (a b : BitVec 5) (q : BitVec 4) (s : State) : Out := red s p a b .fadd (wordRedFadd p a b q)

/-- `red.min` (R254, R257). -/
def execRedMin (p : BitVec 1) (a b : BitVec 5) (q : BitVec 4) (s : State) : Out := red s p a b .min (wordRedMin p a b q)

/-- `red.max` (R254, R257). -/
def execRedMax (p : BitVec 1) (a b : BitVec 5) (q : BitVec 4) (s : State) : Out := red s p a b .max (wordRedMax p a b q)

/-- `AMO_AT_HOME`: the n-th posted operation, an AMO, is performed; an uncorrectable read half, a lost path or a refusing
target leave the word and report as R59 gives (R255, R256, R363, R365). -/
def execAmoAtHome (n : Nat) (s : State) : Out :=
  match s.posts[n]? with
  | some x =>
    match x.kind with
    | .amo op =>
      let gone := { s with posts := ldel s.posts n }
      .next (if earlierOwn s x.tid x.seq x.addr x.loc 8 x.pbmt then s
        else if !(homeReach s x.loc) then
          if stuckOut s x.tid 1 x.addr x.seq then
            fillLong (unstick gone x.tid 1 x.addr x.seq) x.tid x.d x.pc (.failed 9 x.addr)
          else stick s x.tid 1 x.addr x.seq x.loc
        else
          let gone := unstick gone x.tid 1 x.addr x.seq
          if homeDenied s (partOf s x.tid) x.loc then fillLong gone x.tid x.d x.pc (.failed 6 x.addr)
          else if poisoned s x.loc 8 then fillLong gone x.tid x.d x.pc (.failed 9 x.addr)
          else
            let s := haloHome (toHome gone x.loc) x.tid x.loc 8
            let W := BitVec.ofNat 64 (rdLoc s x.loc 8)
            fillLong (rmwAt s x.tid op x.loc 8 x.amount.toNat x.cmp.toNat) x.tid x.d x.pc (.ready W))
    | _ => .next s
  | none => .next s

/-- `RED_AT_HOME`: the n-th sent store of a thread, a RED or scatter-add, is performed; one that cannot be is dropped and
reported; an element of a scatter-add follows every earlier scalar access (R118, R133, R257, R363, R365). -/
def execRedAtHome (tid n : Nat) (s : State) : Out :=
  let t := th s tid
  match t.sent[n]? with
  | some x =>
    match x.loc with
    | some l =>
      if x.op = .put ∨ earlierOwn s tid x.seq x.addr l x.width x.pbmt ∨ (x.vec ∧ scalarBefore s tid x.seq) then .next s
      else
        let gone := setTh s tid { t with sent := ldel t.sent n }
        .next (if !(homeReach s l) then
            if stuckOut s tid 2 x.addr x.seq then dropUpdate (unstick gone tid 2 x.addr x.seq) tid x.addr x.data
            else stick s tid 2 x.addr x.seq l
          else
            let gone := unstick gone tid 2 x.addr x.seq
            if homeDenied s (partOf s tid) l then dropUpdate gone tid x.addr x.data
            else if poisoned s l x.width then dropUpdate gone tid x.addr x.data
            else rmwAt gone tid x.op l x.width x.data.toNat 0)
    | none => .next s
  | none => .next s

end Sys2Proof.Machine
end

