-- ==== Sys2Proof/Machine/Control.lean ====
section
/-! DEFINITION. SYS words, branches and jumps (R25, R60, R62, R63). -/

namespace Sys2Proof.Machine

/-- `svc`: a service-call trap (R60). -/
def execSvc (s : State) : Out := .next (raise s 17 0)

/-- `brk`: a breakpoint trap (R60). -/
def execBrk (s : State) : Out := .next (raise s 18 0)

/-- `tret`: the return from a trap (R60, R82). -/
def execTret (s : State) : Out := .next (trapReturn s wordTret)

/-- The rotations that `pause` holds for: 1 for 0, at most 1,024 (R60). -/
def pauseCount (v : Word) : Nat := if v = 0 then 1 else min v.toNat 1024

/-- `pause`: the next bundle issues 16 × (n + 1) cycles later (R60). -/
def execPause (a : BitVec 5) (s : State) : Out :=
  let s := setMe s { me s with pauseUntil := some (s.cycle + 16 * (pauseCount (rd s a) + 1)) }
  .next (finish s 0)

/-- A branch: to the target when the condition holds; no register is written (R62). -/
def branch (s : State) (p : BitVec 1) (taken : Bool) (off : BitVec 12) : Out :=
  .next (if taken then goto s (branchTo s off) (some (me s).pc) else finish s p)

/-- `beq` (R62). -/
def execBeq (p : BitVec 1) (a b : BitVec 5) (off : BitVec 12) (s : State) : Out := branch s p (rd s a == rd s b) off

/-- `bne` (R62). -/
def execBne (p : BitVec 1) (a b : BitVec 5) (off : BitVec 12) (s : State) : Out := branch s p (rd s a != rd s b) off

/-- `blt` (R62). -/
def execBlt (p : BitVec 1) (a b : BitVec 5) (off : BitVec 12) (s : State) : Out :=
  branch s p ((rd s a).slt (rd s b)) off

/-- `bge` (R62). -/
def execBge (p : BitVec 1) (a b : BitVec 5) (off : BitVec 12) (s : State) : Out :=
  branch s p (!((rd s a).slt (rd s b))) off

/-- `bltu` (R62). -/
def execBltu (p : BitVec 1) (a b : BitVec 5) (off : BitVec 12) (s : State) : Out :=
  branch s p ((rd s a).ult (rd s b)) off

/-- `bgeu` (R62). -/
def execBgeu (p : BitVec 1) (a b : BitVec 5) (off : BitVec 12) (s : State) : Out :=
  branch s p (!((rd s a).ult (rd s b))) off

/-- `jal`: the link value, then to the target (R22, R63). -/
def execJal (p : BitVec 1) (d : BitVec 5) (off : BitVec 20) (s : State) : Out :=
  .next (goto (wr s d (nextPc s p)) (jumpTo s off) (some (me s).pc))

/-- `jalr`: a target whose bits [1:0] are not zero raises a misaligned-access trap (R25, R63). -/
def execJalr (p : BitVec 1) (d a : BitVec 5) (imm : BitVec 12) (s : State) : Out :=
  let target := rd s a + imm12 imm
  .next (if target.toNat % 4 ≠ 0 then raise s 5 target else goto (wr s d (nextPc s p)) target (some (me s).pc))

end Sys2Proof.Machine
end

