-- ==== Sys2Proof/Machine/Vreg.lean ====
section
/-! DEFINITION. Vector and mask registers of a slot: bytes, elements, masks, lengths (R110-R114, R120). -/

namespace Sys2Proof.Machine

/-- Key of a byte of a vector register of a slot. -/
def vKey (tid reg off : Nat) : Nat := tid * 2 ^ 17 + reg * 4096 + off

/-- Element `i`, of `w` bits, of a vector register (R110). -/
def vGet (s : State) (tid reg w i : Nat) : Nat :=
  mrd s.vregs (vKey tid reg (i * w / 8)) ((w + 7) / 8) / 2 ^ (i * w % 8) % 2 ^ w

/-- The dirty map's bit of a register set (R114). -/
def vDirty (s : State) (tid reg : Nat) : State :=
  let t := th s tid
  setTh s tid { t with v := { t.v with vdm := t.v.vdm ||| BitVec.ofNat 32 (2 ^ reg) } }

/-- An element written; the dirty map notes it (R110, R114). -/
def vPut (s : State) (tid reg w i v : Nat) : State :=
  let k := vKey tid reg (i * w / 8)
  let n := if w = 4 then
      let o := (mget s.vregs k).toNat
      if i % 2 = 0 then o / 16 * 16 + v % 16 else o % 16 + v % 16 * 16
    else v
  vDirty { s with vregs := mwr s.vregs k ((w + 7) / 8) n } tid reg

/-- A mask register: m0 reads as all ones (R35). -/
def maskGet (s : State) (tid m : Nat) : BitVec 8192 :=
  if m = 0 then BitVec.allOnes 8192 else tget (th s tid).v.masks m 0

/-- A mask register written; m0 discards (R35). -/
def maskPut (s : State) (tid m : Nat) (v : BitVec 8192) : State :=
  if m = 0 then s
  else
    let t := th s tid
    setTh s tid { t with v := { t.v with masks := tput t.v.masks m v } }

/-- One bit of a mask register written. -/
def maskBit (s : State) (tid m i : Nat) (b : Bool) : State :=
  let one : BitVec 8192 := BitVec.ofNat 8192 (2 ^ i)
  let v := maskGet s tid m
  maskPut s tid m (if b then v ||| one else v &&& ~~~one)

/-- The bits of a mask below a length that are 1 (R187). -/
def maskCount (m : BitVec 8192) (vl : Nat) : Nat := ((List.range vl).filter fun i => m.getLsbD i).length

/-- The maximum vector length of a slot for a type (R111). -/
def mvlOf (rows ty : Nat) : Nat := rows * 1024 / typeWidth ty

/-- Is a slot reserved for an admitted kernel (R325)? -/
def reserved (s : State) (tid : Nat) : Bool := s.kernels.any fun e => e.2.state == .admitted && e.2.places.contains tid

/-- Rows reserved on a core for admitted kernels (R325). -/
def reservedRows (s : State) (core : Nat) : Nat :=
  ((s.kernels.filter fun e => e.2.state == .admitted).map fun e =>
    e.2.rows * (e.2.places.filter fun t => coreOf t = core).length).sum

/-- The depth rows of a core that no slot owns or an admitted kernel has reserved (R110, R325). -/
def freeRows (s : State) (core : Nat) : Nat :=
  32 - ((List.range 16).map fun k => (th s (core * 16 + k)).v.rows).sum - reservedRows s core

/-- The vector registers of a slot set to zero. -/
def vClear (s : State) (tid : Nat) : State := { s with vregs := mzero s.vregs (vKey tid 0 0) (2 ^ 17) }

end Sys2Proof.Machine
end

