-- ==== Sys2Proof/Machine/Counter.lean ====
section
/-! DEFINITION. Counters: names and homes, the CTR and CTRX instructions, waiters and the events at a home (R175-R203). -/

namespace Sys2Proof.Machine

/-! ### Names and faults (R176, R177, R184) -/

/-- A counter fault: the reason in `WVAL`, the address as trap value (R177). -/
def counterFault (s : State) (addr : Word) (reason : Nat) : State :=
  let t := me s
  raise (setMe s { t with u := { t.u with wval := BitVec.ofNat 64 reason } }) 11 addr

/-- What a counter address names. -/
inductive CtrAt where
  | at_ (l : Loc) (s : State)
  | fault (reason : Nat) (s : State)
  /-- A trap was raised, or the thread dropped. -/
  | ends (s : State)

/-- May the near counters of a core be named by the thread `s.cur` (R177)? Those of a withdrawn bench are, and are then
refused at the home with reason 5 (R201, R202). -/
def nearNamed (s : State) (c : Nat) : Bool :=
  (partOfCore s c == partOf s s.cur && meshOk s (coreOf s.cur) c) || s.lehr.withdrawn.contains (benchOf c)

/-- The counter that an address names for the thread `s.cur`, after the alignment check: the near window, then
translation, then the kind of home; a peer whose domain table refuses the partition is refused with reason 7 (R176,
R177, R283, R365). -/
def ctrName (s : State) (addr : Word) (k : Acc) (u : TUse := .core) : CtrAt :=
  match nearAt s (coreOf s.cur) addr with
  | some (c, e) => if nearNamed s c then .at_ (.near c e) s else .fault 2 s
  | none =>
    match xlateBy u s (whoOf s s.cur) addr k with
    | (.ok l _ _, s) =>
      match l with
      | .mem key => if isHost key then .fault 1 s else if homeDenied s (partOf s s.cur) l then .fault 7 s else .at_ l s
      | _ => .at_ l s
    | (.window _, s) => .fault 6 s
    | (.refuse b i g _ r, s) => if r ≠ 0 then .fault r s else .ends (refuseTrap s addr k b i g)
    | (x, s) => .ends (xlFail s addr k 0 x)

/-- The checks of a counter instruction from step 4 of R184 on; `amount` is the amount of an add, 0 for others. A near
counter of another partition is found before the amount, and the amount before translation. -/
def ctrFind (s : State) (addr : Word) (k : Acc) (amount : Word) (u : TUse := .core) : CtrAt :=
  if addr.toNat % 8 ≠ 0 then .ends (raise s 5 addr)
  else if haloBadVa s s.cur addr then .ends (raise s 14 addr)
  else
    match nearAt s (coreOf s.cur) addr with
    | some (c, _) =>
      if !(nearNamed s c) then .fault 2 s
      else if 2 ^ 62 ≤ amount.toNat then .fault 3 s
      else ctrName s addr k u
    | none => if 2 ^ 62 ≤ amount.toNat then .fault 3 s else ctrName s addr k u

/-- The effective attribute of the page of a counter address (R287); 0 in the near window. -/
def pbmtAt (s : State) (tid : Nat) (addr : Word) : Nat :=
  match nearAt s (coreOf tid) addr with
  | some _ => 0
  | none => match (xlate s (whoOf s tid) addr .load).1 with | .ok _ _ pb => pb | _ => 0

/-- How a read of a counter at its home, made by a holding or parking instruction, ends. -/
inductive CtrVal where
  | value (v : Word) (s : State)
  | hold (s : State)
  | ends (s : State)

/-- The value at the home for a holding or parking instruction of the thread `s.cur`: after the thread's own earlier
operations on the counter (R182), with the faults found at the home (R177, R201, R202, R363). -/
def ctrValue (s : State) (addr : Word) (l : Loc) : CtrVal :=
  if earlierOwn s s.cur s.order addr l 8 (pbmtAt s s.cur addr) then .hold s
  else if !(homeReach s l) then
    if stuckOut s s.cur 0 addr 0 then .ends (counterFault (unstick s s.cur 0 addr 0) addr 7)
    else .hold (stick s s.cur 0 addr 0 l)
  else
    let s := unstick s s.cur 0 addr 0
    if homeDenied s (partOf s s.cur) l then .ends (counterFault s addr 7)
    else if homeGone s l then .ends (counterFault s addr 5)
    else if poisoned s l 8 then .ends (raise s 9 addr)
    else
      let s := haloHome (toHome s l) s.cur l 8
      .value (BitVec.ofNat 64 (rdLoc s l 8)) s

/-! ### Releases at issue and at the home (R118, R236) -/

/-- Are the earlier accesses of a thread done, as a release at a scope with order number `q` needs (R229, R236)? -/
def releaseReady (s : State) (tid q scope : Nat) : Bool :=
  let t := th s tid
  scope == 0 ||
    ((t.v.queue.all fun e => q ≤ e.seq || !e.op.isLoad) && (t.stores.all fun x => q ≤ x.seq) && (t.precs.all fun x => q ≤ x.st.seq) &&
     (t.sent.all fun x => q ≤ x.seq) &&
     !(s.posts.any fun p => p.tid == tid && p.seq < q && (match p.kind with | .amo _ => true | .test => true | _ => false)))

/-! ### Adds, tests and reads (R185, R186) -/

/-- An operation of a thread on its way to a counter's home. -/
def postOf (s : State) (tid : Nat) (kind : PostKind) (addr : Word) (l : Loc) (amount : Word) (scope d : Nat) : State :=
  let x : Post := { kind := kind, seq := s.order, tid := tid, ctx := (th s tid).ctx, addr := addr, loc := l,
                    amount := amount, scope := scope, d := d, pc := (th s tid).pc, pbmt := pbmtAt s tid addr }
  let s := match l with | .mem _ => noteUse s (whoOf s tid) addr s.order | _ => s
  tick { s with posts := s.posts ++ [x] }

/-- An operation of the thread `s.cur` on its way to a counter's home. -/
def postCtr (s : State) (kind : PostKind) (addr : Word) (l : Loc) (amount : Word) (scope d : Nat) : State :=
  postOf s s.cur kind addr l amount scope d

/-- A posted add (R185). -/
def ctrPost (s : State) (p : BitVec 1) (addr amount : Word) (scope : Nat) : State :=
  match ctrFind s addr .store amount with
  | .at_ l s => finish (postCtr s .add addr l amount scope 0) p
  | .fault r s => counterFault s addr r
  | .ends s => s

/-- A long counter operation (R185, R186). -/
def ctrLong (s : State) (p : BitVec 1) (d : BitVec 5) (la : BitVec 4) (addr amount : Word) (scope : Nat)
    (kind : PostKind) (k : Acc) (check : Word) : State :=
  match ctrFind s addr k check with
  | .at_ l s => finish (longResult (postCtr s kind addr l amount scope d.toNat) d la .waiting) p
  | .fault r s => counterFault s addr r
  | .ends s => s

/-- `ctr.add` (R185). -/
def execCtrAdd (p : BitVec 1) (a b : BitVec 5) (sc : BitVec 3) (s : State) : Out :=
  .next (if sc = 7 then illegal s (wordCtrAdd p a b sc)
    else if vstPending (me s) then held s
    else ctrPost s p (rd s a) (rd s b) sc.toNat)

/-- `ctr.fadd` (R185). -/
def execCtrFadd (p : BitVec 1) (d a b : BitVec 5) (la : BitVec 4) (sc : BitVec 3) (s : State) : Out :=
  .next (if sc = 7 then illegal s (wordCtrFadd p d a b la sc)
    else if vstPending (me s) then held s
    else ctrLong s p d la (rd s a) (rd s b) sc.toNat .fadd .store (rd s b))

/-- `ctr.test` (R186). -/
def execCtrTest (p : BitVec 1) (d a b : BitVec 5) (la : BitVec 4) (sc : BitVec 3) (s : State) : Out :=
  .next (if sc = 7 then illegal s (wordCtrTest p d a b la sc)
    else ctrLong s p d la (rd s a) (rd s b) sc.toNat .test .load 0)

/-- `ctr.read` (R186). -/
def execCtrRead (p : BitVec 1) (d a : BitVec 5) (la : BitVec 4) (s : State) : Out :=
  .next (ctrLong s p d la (rd s a) 0 0 .read .load 0)

/-! ### Waits (R186, R193, R198) -/

/-- The thread parks: listed when the home's table has room, polling otherwise (R193, R196, R198). -/
def park (s : State) (addr thr : Word) (scope : Nat) (l : Loc) (v : Word) (guard : Bool) (how : Nat) : State :=
  let t := me s
  let room := !(tableFull s l)
  let w : Wait := { addr := addr, thr := thr, scope := scope, loc := l, guard := guard, listed := room,
                    due := if t.u.wlim = 0 then none else some (s.cycle + t.u.wlim.toNat),
                    poll := s.cycle + 1024, seen := v, how := how }
  let s := setMe s { t with state := .parked, wait := some w }
  { s with waiters := if room then s.waiters ++ [(s.cur, l)] else s.waiters, last := .parked }

/-- The wait of `ctr.wait` and `ctr.aw`: completes with an acquire, or parks (R186). -/
def waitOn (s : State) (p : BitVec 1) (addr thr : Word) (scope : Nat) (l : Loc) (aw : Bool) : State :=
  match ctrValue s addr l with
  | .hold s => held s
  | .ends s => s
  | .value v s =>
    if met v thr then
      let s := acquire s (coreOf s.cur) scope
      let s := if aw then setMe s { me s with u := { (me s).u with arr := false } } else s
      finish s p
    else park s addr thr scope l v false (if p = 1 then 2 else if aw then 1 else 0)

/-- `ctr.wait` (R186). A wait that is satisfied after parking completes at the reissue of its bundle (R195). -/
def execCtrWait (p : BitVec 1) (a b : BitVec 5) (sc : BitVec 3) (s : State) : Out :=
  .next (if (me s).waitMet then finish s p
    else if sc = 7 then illegal s (wordCtrWait p a b sc)
    else match ctrFind s (rd s a) .load 0 with
      | .at_ l s => waitOn s p (rd s a) (rd s b) sc.toNat l false
      | .fault r s => counterFault s (rd s a) r
      | .ends s => s)

/-- The number of workers that an arrival counts (R187). -/
def arrivals (s : State) (k : BitVec 5) : Word :=
  BitVec.ofNat 64 (maskCount (maskGet s s.cur k.toNat) (me s).v.vl)

/-- `ctr.arrive` (R187). -/
def execCtrArrive (p : BitVec 1) (k a : BitVec 5) (sc : BitVec 3) (s : State) : Out :=
  .next (if sc = 7 ∨ 8 ≤ k.toNat then illegal s (wordCtrArrive p k a sc)
    else if !(me s).v.queue.isEmpty then held s
    else ctrPost s p (rd s a) (arrivals s k) sc.toNat)

/-- `ctr.aw`: arrives once, as `WSTAT.ARR` records, and then waits (R188). -/
def execCtrAw (p : BitVec 1) (k a b : BitVec 5) (sc : BitVec 3) (s : State) : Out :=
  .next (if (me s).waitMet then finish (setMe s { me s with u := { (me s).u with arr := false } }) p
    else if sc = 7 ∨ 8 ≤ k.toNat then illegal s (wordCtrAw p k a b sc)
    else if !(me s).v.queue.isEmpty then held s
    else
      let arr := (me s).u.arr
      let addr := rd s a
      match ctrFind s addr (if arr then .load else .store) 0 with
      | .at_ l s =>
        let thr := rd s b
        let s := if arr then s
          else
            let s := postCtr s .add addr l (arrivals s k) sc.toNat 0
            setMe s { me s with u := { (me s).u with arr := true } }
        waitOn s p addr thr sc.toNat l true
      | .fault r s => counterFault s addr r
      | .ends s => s)

/-! ### Reset, vector add, arm, home query (R189-R192) -/

/-- `ctr.reset` (R189). -/
def execCtrReset (p : BitVec 1) (a : BitVec 5) (sc : BitVec 3) (s : State) : Out :=
  .next (if sc = 7 then illegal s (wordCtrReset p a sc)
    else if vstPending (me s) then held s
    else
      let addr := rd s a
      match ctrFind s addr .store 0 with
      | .fault r s => counterFault s addr r
      | .ends s => s
      | .at_ l s =>
        if !(releaseReady s s.cur s.order sc.toNat) then held s
        else match ctrValue s addr l with
          | .hold s => held s
          | .ends s => s
          | .value _ s =>
            if (me s).priv = .user ∧ ((s.waiters.any fun w => w.2 == l) || s.arms.any fun x => x.loc == l) then
              counterFault s addr 4
            else match releaseWait s (me s).ctx sc.toNat with
            | some s => held s
            | none =>
              let s := releaseCopies s s.cur (me s).ctx sc.toNat
              finish (resetAt (haloHome (l1drop (toHome s l) (coreOf s.cur) l) s.cur l 8) l) p)

/-- The operands that the value of b selects for `ctr.vadd`: VI, VA, MG (R190). -/
def vaddSel (b : Word) : Nat × Nat × Nat := (bits b 4 0, bits b 12 8, bits b 18 16)

/-- The value rules of `ctr.vadd` (R190). -/
def vaddOk (t : Thread) (k : BitVec 5) (b : Word) : Bool :=
  b.toNat / 2 ^ 19 == 0 && bits b 7 5 == 0 && bits b 15 13 == 0 && (t.v.vt == 8 || t.v.vt == 11) &&
  t.v.vl ≤ t.v.rows * 32 && k.toNat != (vaddSel b).2.2

/-- The addresses and amounts of the active elements of a `ctr.vadd`. -/
def vaddElems (s : State) (a b : Word) : List (Nat × Word × Word) :=
  let (vi, va, mg) := vaddSel b
  let t := me s
  let m := maskGet s s.cur mg
  ((List.range t.v.vl).filter fun i => m.getLsbD i).map fun i =>
    (i, a + BitVec.ofInt 64 (sgn 32 (vGet s s.cur vi 32 i)), BitVec.ofNat 64 (vGet s s.cur va (typeWidth t.v.vt) i))

/-- Phase 1 of `ctr.vadd`: every active element is checked; the homes, or how it ends (R190). -/
def vaddCheck (s : State) : List (Nat × Word × Word) → List (Nat × Word × Word × Loc) → CtrAt ⊕ List (Nat × Word × Word × Loc) × State
  | [], acc => .inr (acc.reverse, s)
  | (i, e, n) :: r, acc =>
    match ctrFind s e .store n .gather with
    | .at_ l s => vaddCheck s r ((i, e, n, l) :: acc)
    | .fault k s => .inl (.ends (counterFault s e k))
    | .ends s => .inl (.ends s)

/-- `ctr.vadd` (R190). -/
def execCtrVadd (p : BitVec 1) (k a b : BitVec 5) (sc : BitVec 3) (s : State) : Out :=
  let w := wordCtrVadd p k a b sc
  .next (if sc = 7 ∨ 8 ≤ k.toNat ∨ k = 0 then illegal s w
    else if (me s).v.rows = 0 then raise s 13 (BitVec.ofNat 64 w)
    else if !(vaddOk (me s) k (rd s b)) then illegal s w
    else if !(me s).v.queue.isEmpty then held s
    else match vaddCheck s (vaddElems s (rd s a) (rd s b)) [] with
      | .inl (.ends s) => s
      | .inl (.at_ _ s) => s
      | .inl (.fault _ s) => s
      | .inr (es, s) =>
        finish (es.foldl (fun s e =>
          let (i, addr, n, l) := e
          if homeScope s (coreOf s.cur) l ≤ sc.toNat then
            maskBit (postCtr s .add addr l n sc.toNat 0) s.cur k.toNat i false
          else maskBit s s.cur k.toNat i true) s) p)

/-- `ctr.arm` (R191). -/
def execCtrArm (p : BitVec 1) (d a b : BitVec 5) (s : State) : Out :=
  let addr := rd s a
  .next (match ctrFind s addr .store 0 with
    | .fault r s => counterFault s addr r
    | .ends s => s
    | .at_ l s =>
      match ctrValue s addr l with
      | .hold s => held s
      | .ends s => s
      | .value v s =>
        let t := rd s b
        if met v t then finish (wr (setPend s s.cur 2) d 1) p
        else if tableFull s l then finish (wr s d (statusOf (-1))) p
        else finish (wr { s with arms := s.arms ++ [{ loc := l, thr := t, tid := some s.cur, addr := addr }] } d 0) p)

/-- A well-formed near-counter selection: core and entry (R176). -/
def selOf (v : Word) : Option (Nat × Nat) :=
  if bit v 23 ∧ v.toNat / 2 ^ 24 = 0 ∧ bits v 22 18 = 0 then some (bits v 17 8, bits v 7 0) else none

/-- The home descriptor (R192). A peer's home slice is not in this package's state (log 7). -/
def homeDesc (s : State) (l : Loc) : Nat :=
  let sc := homeScope s (coreOf s.cur) l * 2 ^ 40
  match l with
  | .near c e => 2 ^ 60 + s.pkg * 2 ^ 48 + sc + c * 2 ^ 16 + e * 2 ^ 8
  | .spad _ _ => 0
  | .mem k =>
    if isPeer k then 3 * 2 ^ 60 + pkgOf k * 2 ^ 48 + sc + peerSlice k * 2 ^ 16
    else 2 * 2 ^ 60 + s.pkg * 2 ^ 48 + sc + homeSlice s k * 2 ^ 16

/-- `ctr.home` (R192). -/
def execCtrHome (p : BitVec 1) (d a b : BitVec 5) (la : BitVec 4) (s : State) : Out :=
  let addr := rd s a
  let put (s : State) (n : Nat) : State := finish (longResult s d la (.ready (BitVec.ofNat 64 n))) p
  .next (if rd s b = 0 then
      if addr.toNat % 8 ≠ 0 then raise s 5 addr
      else match ctrName s addr .load with
        | .at_ l s =>
          put s (if homeGone s l then 5
            else if !(homeReach s l) || homeDenied s (partOf s s.cur) l then 7 else homeDesc s l)
        | .fault r s => put s r
        | .ends s => s
    else match selOf (rd s b) with
      | some (c, e) =>
        if a ≠ 0 then illegal s (wordCtrHome p d a b la)
        else
          let n := (co s (coreOf s.cur)).ncbase
          put s (if bit n 0 ∧ partOfCore s c = partOf s s.cur then n.toNat / 2 ^ 21 * 2 ^ 21 + c * 2048 + e * 8 else 0)
      | none => illegal s (wordCtrHome p d a b la))

/-! ### Events at the home (R179, R185, R186, R202) -/

/-- A counter operation performed at its home (R179, R185, R186). -/
def performCtr (s : State) (x : Post) : State :=
  let s := match x.kind with
    | .add => releaseCopies s x.tid x.ctx x.scope
    | .fadd => releaseCopies s x.tid x.ctx x.scope
    | _ => s
  let s := haloHome (toHome s x.loc) x.tid x.loc 8
  let old := BitVec.ofNat 64 (rdLoc s x.loc 8)
  match x.kind with
  | .add => addAt (l1drop s (coreOf x.tid) x.loc) x.loc x.amount
  | .fadd => fillLong (addAt (l1drop s (coreOf x.tid) x.loc) x.loc x.amount) x.tid x.d x.pc (.ready old)
  | .test =>
    if met old x.amount then fillLong (acquire s (coreOf x.tid) x.scope) x.tid x.d x.pc (.ready 1)
    else fillLong s x.tid x.d x.pc (.ready 0)
  | .read => fillLong s x.tid x.d x.pc (.ready old)
  | _ => s

/-- An operation that its home refuses or cannot reach: a long form reports it, a posted add is dropped (R202, R363). -/
def failCtr (s : State) (x : Post) (cause : Nat) : State :=
  match x.kind with
  | .add =>
    (match x.engine with
      | some part => dropIn s part x.ctx 0xFFFF 1024 x.addr x.amount
      | none => dropIn s (cx s x.ctx).part x.ctx x.tid (coreOf x.tid) x.addr x.amount)
  | _ => fillLong s x.tid x.d x.pc (.failed cause x.addr)

/-- The scope of the release that an operation at a counter's home is: of an add (R236). -/
def Post.releases (x : Post) : Nat :=
  match x.kind with
  | .add => x.scope
  | .fadd => x.scope
  | _ => 0

/-- `COUNTER_OP_AT_HOME`: the n-th posted operation, on a counter, reaches its home; operations of one thread on one
counter are performed in order, and an add follows its thread's earlier accesses (R182, R236). -/
def execCounterOpAtHome (n : Nat) (s : State) : Out :=
  match s.posts[n]? with
  | none => .next s
  | some x =>
    let ready := match x.kind with
      | .add => releaseReady s x.tid x.seq x.scope
      | .fadd => releaseReady s x.tid x.seq x.scope
      | .test => true
      | .read => true
      | _ => false
    if !ready ∨ earlierOwn s x.tid x.seq x.addr x.loc 8 x.pbmt then .next s
    else if let some s := releaseWait s x.ctx x.releases then .next s
    else
      let gone := { s with posts := ldel s.posts n }
      .next (if !(homeReach s x.loc) then
          if stuckOut s x.tid 1 x.addr x.seq then failCtr (unstick gone x.tid 1 x.addr x.seq) x (11 + 64 * 7)
          else stick s x.tid 1 x.addr x.seq x.loc
        else
          let gone := unstick gone x.tid 1 x.addr x.seq
          if homeDenied s (x.engine.getD (cx s x.ctx).part) x.loc then failCtr gone x (11 + 64 * 7)
          else if homeGone s x.loc then failCtr gone x (11 + 64 * 5)
          else if poisoned s x.loc 8 then failCtr gone x 9
          else if x.engine.isSome then addAt (toHome gone x.loc) x.loc x.amount
          else performCtr gone x)

/-! ### Waiters (R193-R200) -/

/-- A thread's waiter entry removed. -/
def unlist (s : State) (tid : Nat) : State := { s with waiters := s.waiters.filter fun w => w.1 ≠ tid }

/-- `WAKE_MESSAGE`: the n-th wake message reaches its thread, which re-reads next; one for a thread that no longer waits
on that counter is discarded (R195). -/
def execWakeMessage (n : Nat) (s : State) : Out :=
  match s.wakes[n]? with
  | none => .next s
  | some k =>
    let s := { s with wakes := ldel s.wakes n }
    let t := th s k.tid
    .next (match t.wait with
      | some w =>
        if t.state = .parked ∧ w.loc = k.loc then setTh s k.tid { t with wait := some { w with woken := true, listed := false } }
        else s
      | none => s)

/-- A parked thread whose wait ends: it is Ready, and in no table. -/
def unpark (s : State) (tid : Nat) : State :=
  let s := unlist s tid
  setTh s tid { th s tid with state := .ready, wait := none }

/-- The waiting bundle of a thread completes (R53, R188, R195). -/
def completeWait (s : State) (tid : Nat) (w : Wait) : State :=
  let s := acquire (unpark s tid) (coreOf tid) w.scope
  let t := th s tid
  if w.guard then s
  else if w.how = 2 then setTh s tid { t with waitMet := true }
  else
    setTh s tid { t with pc := t.pc + 4, from_ := none, hold := none, longs := ageLongs t.longs t.longs.length,
                         u := if w.how = 1 then { t.u with arr := false } else t.u }

/-- A precise trap of a parked thread, at its waiting bundle (R198, R201). -/
def waitTrap (s : State) (tid cause : Nat) (w : Wait) (wval : Word) : State :=
  let s := asThread (unpark s tid) tid
  raise (setMe s { me s with u := { (me s).u with wval := wval } }) cause w.addr

/-- `WAIT_REREAD`: a woken thread reads the value at the home; met, its bundle completes with the acquire; unmet, it is
listed or polls again (R195, R199). -/
def execWaitReread (tid : Nat) (s : State) : Out :=
  let t := th s tid
  match t.wait with
  | none => .next s
  | some w =>
    .next (if t.state ≠ .parked ∨ !w.woken then s
      else if !(homeReach s w.loc) then
        if stuckOut s tid 0 w.addr 0 then waitTrap (unstick s tid 0 w.addr 0) tid 11 w 7 else stick s tid 0 w.addr 0 w.loc
      else if homeDenied s (partOf s tid) w.loc then waitTrap (unstick s tid 0 w.addr 0) tid 11 w 7
      else if homeGone s w.loc then waitTrap s tid 11 w 5
      else if poisoned s w.loc 8 then waitTrap s tid 9 w t.u.wval
      else
        let s := toHome (unstick s tid 0 w.addr 0) w.loc
        let v := BitVec.ofNat 64 (rdLoc s w.loc 8)
        if met v w.thr then completeWait s tid w
        else
          let s := unlist s tid
          let room := !(tableFull s w.loc)
          let w := { w with woken := false, listed := room, poll := s.cycle + 1024, seen := v }
          { setTh s tid { t with wait := some w } with
            waiters := if room then s.waiters ++ [(tid, w.loc)] else s.waiters })

/-- `WAITER_POLL`: 1,024 cycles pass for a parked thread without an entry, which re-reads next (R196). -/
def execWaiterPoll (tid : Nat) (s : State) : Out :=
  let t := th s tid
  match t.wait with
  | some w =>
    .next (if t.state = .parked ∧ !w.listed ∧ !w.woken then
        setTh { s with cycle := max s.cycle w.poll } tid { t with wait := some { w with woken := true } }
      else s)
  | none => .next s

/-- `WAITER_EVICT`: the device evicts the n-th listed waiter, with a wake message (R194). -/
def execWaiterEvict (n : Nat) (s : State) : Out :=
  match s.waiters[n]? with
  | some w => .next { s with waiters := ldel s.waiters n, wakes := s.wakes ++ [{ tid := w.1, loc := w.2 }] }
  | none => .next s

/-- `WAIT_TIMEOUT`: a parked thread's limit is exceeded: a precise wait-timeout trap, unless the value at the home meets the
threshold by then, whether or not its wake message has come: then the wait completes (R54, R198, R225). -/
def execWaitTimeout (tid : Nat) (s : State) : Out :=
  let t := th s tid
  match t.wait with
  | some w =>
    match w.due with
    | some c =>
      let v := BitVec.ofNat 64 (rdLoc (toHome s w.loc) w.loc 8)
      .next (if t.state ≠ .parked then s
        else
          let s := { s with cycle := max s.cycle (c + 1) }
          if homeReach s w.loc ∧ !(homeDenied s (partOf s tid) w.loc) ∧ !(homeGone s w.loc) ∧ !(poisoned s w.loc 8) ∧ met v w.thr then completeWait (toHome s w.loc) tid w
          else waitTrap s tid 10 w w.seen)
    | none => .next s
  | none => .next s

end Sys2Proof.Machine
end

