-- ==== Sys2Proof/Machine/Engine.lean ====
section
/-! DEFINITION. What the engines of a core share: the report of an asynchronous fault, and adds to counters (R84, R203,
R243). -/

namespace Sys2Proof.Machine

/-- A fault that an engine reports: what the record holds beside the owner (R84). -/
structure AfRec where
  /-- 0 copy channel, 1 Marver. -/
  src : Nat
  code : Nat
  pc : Word
  ga : Word
  gb : Word
  gd : Word
  addr : Word
  progress : Nat
  index : Nat
  word : Nat
  deriving DecidableEq, Repr

/-- Is `AFCODE.V` of a thread 1? -/
def afBusy (s : State) (tid : Nat) : Bool := bit (th s tid).u.afcode 63

/-- The 64-byte record (R84). -/
def AfRec.bytes (r : AfRec) : List Byte :=
  natBytes 8 r.pc.toNat ++ natBytes 8 r.ga.toNat ++ natBytes 8 r.gb.toNat ++ natBytes 8 r.gd.toNat ++
  natBytes 8 r.addr.toNat ++ natBytes 8 r.progress ++ natBytes 4 r.index ++ natBytes 4 r.word ++ natBytes 8 0

/-- A thread is no longer a requester of page requests for itself (R300). -/
def unrequest (s : State) (tid : Nat) : State :=
  let cut (e : PageReq) : PageReq := { e with reqs := e.reqs.filter (· ≠ .thread tid) }
  setTh { s with pages := s.pages.map fun e => (e.1, cut e.2),
                 pageWaits := (s.pageWaits.map cut).filter fun e => !e.reqs.isEmpty } tid
    { th s tid with miss := none }

/-- A Parked or Dropped thread becomes Ready to take a trap or an interrupt (R53). -/
def wakeFor (s : State) (tid : Nat) : State :=
  match (th s tid).state with
  | .parked => unpark s tid
  | .dropped => let s := unrequest s tid; setTh s tid { th s tid with state := .ready }
  | _ => s

/-- The report of an asynchronous fault to its owner, whose `AFCODE.V` is 0 (R84). -/
def afReport (s : State) (tid : Nat) (r : AfRec) : State :=
  let t := th s tid
  let room := t.u.afop.toNat + 64 ≤ spSize s (coreOf tid)
  let s := if room then storeBytes s (.spad (coreOf tid) t.u.afop.toNat) r.bytes else s
  let t := th s tid
  let code := BitVec.ofNat 64 (2 ^ 63 + (if room then 0 else 256) + r.src * 64 + r.code % 64)
  wakeFor (setTh s tid { t with u := { t.u with afpc := r.pc, afcode := code }, asyncDue := some (15 + r.src) }) tid

/-- How an engine's add to a counter ends (R203): added; the home is refused; an uncorrectable error there; a page
request is to be posted; the path is lost and the engine waits. -/
inductive EAdd where
  | ok (s : State)
  | refused (s : State)
  /-- An uncorrectable error met on a walk read (R289). -/
  | walk (s : State)
  | miss (second imp : Bool) (gpa : Word) (s : State)
  | wait (s : State)

/-- Must the reads of an engine for a request of a thread wait: an access that an earlier release of the thread orders is
not done (R243)? -/
def engineHeld (s : State) (tid q : Nat) : Bool :=
  s.posts.any fun p =>
    p.tid == tid && p.seq < q && (p.kind == .add || p.kind == .fadd) && !(releaseReady s tid p.seq p.scope)

/-- The counter that an address names for an engine: a near counter of the thread's partition, or a home in device
memory (R176, R177). -/
def engineLoc (s : State) (w : Who) (addr : Word) (k : Acc) : Xl × State :=
  match nearAt s w.core addr with
  | some (c, e) =>
    if partOfCore s c = (cx s w.ctx).part ∧ meshOk s w.core c then (.ok (.near c e) 0 0, s) else (.refuse false false 0 false 2, s)
  | none =>
    match xlateBy .bench s w addr k with
    | (.ok (.mem key) pa pb, s) => if isHost key then (.refuse false false 0 false 1, s) else (.ok (.mem key) pa pb, s)
    | r => r

/-- An update of an engine dropped at its home: the error log, `LUPD`, the partition's code-4 interrupt (R202). -/
def dropEngine (s : State) (w : Who) (addr amount : Word) : State :=
  dropIn s (cx s w.ctx).part w.ctx 0xFFFF w.core addr amount

/-- An add at a counter's home made by an engine (R203). -/
def engineAddAt (s : State) (w : Who) (addr : Word) (l : Loc) (n : Word) : EAdd :=
  if !(homeReach s l) then
    if stuckOut s w.tid 3 addr 0 then .refused (unstick s w.tid 3 addr 0) else .wait (stick s w.tid 3 addr 0 l)
  else
    let s := unstick s w.tid 3 addr 0
    if homeDenied s (cx s w.ctx).part l ∨ homeGone s l then .refused s
    else if poisoned s l 8 then .ok (dropEngine s w addr n)
    else .ok (addAt (toHome s l) l n)

/-- An add of an engine at a counter's address. -/
def engineAdd (s : State) (w : Who) (addr n : Word) : EAdd :=
  match engineLoc s w addr .store with
  | (.ok l _ _, s) => engineAddAt s w addr l n
  | (.miss b i g, s) => .miss b i g s
  | (.error, s) => .walk s
  | (_, s) => .refused s

/-! ### A virtual function's error log (R373) -/

/-- A host write dropped: `ERRCNT`, saturating, and `ERRLAST`. -/
def vfError (s : State) (vf kind off data : Nat) : State :=
  let v := vfn s vf
  setVf s vf { v with errcnt := min (v.errcnt + 1) (2 ^ 64 - 1),
                      errlast := natBytes 4 kind ++ natBytes 4 0 ++ natBytes 8 off ++ natBytes 8 data ++ natBytes 8 0 }

end Sys2Proof.Machine
end

