-- ==== Sys2Proof/Machine/Flags.lean ====
section
/-! DEFINITION. The rounding mode and the sticky flags of a scalar word (R22, R69, R81, R96, R108). -/

namespace Sys2Proof.Machine

/-- `FRM` as a word reads it: a partner reads what stood before its bundle (R22, R96). -/
def frmOf (s : State) : Nat :=
  match s.snap with
  | some n => n.frm
  | none => (me s).u.frm

/-- The rounding mode of a word. -/
def rmNow (s : State) : Rm := rmOf (frmOf s)

/-- A result with flags written: the register, and the flags ORed into `FLAGS` at the end of the bundle (R22, R108). -/
def wrFlags (s : State) (d : BitVec 5) (r : Nat × Flags) : State :=
  orFlags (wr s d (BitVec.ofNat 64 r.1)) s.cur r.2

/-- A comparison's result with its flags. -/
def wrBool (s : State) (d : BitVec 5) (r : Bool × Flags) : State := wrFlags s d (b2n r.1, r.2)

/-- The two halves that a single-precision form reads: bits [31:0] (R69). -/
def lo32 (w : Word) : Nat := w.toNat % 2 ^ 32

end Sys2Proof.Machine
end

