-- ==== Sys2Proof/Machine/VecOps.lean ====
section
/-! DEFINITION. What a queued vector instruction does to the registers when it executes (R119, R134-R142). -/

namespace Sys2Proof.Machine

/-! ### Classes (R116, R119) -/

def VOp.isRed (o : VOp) : Bool :=
  match o with
  | .vredsum | .vredmin | .vredmax | .vfredo | .vfredt | .vfredmin | .vfredmax => true
  | _ => false

/-- Instructions that can be cut (R116). -/
def VOp.canCut (o : VOp) : Bool := o.isLoad || o.isRed

/-- Holding instructions (R116). -/
def VOp.holding (o : VOp) : Bool :=
  o.canCut || o == .mpop || o == .mfirst || o == .vmvvg

/-- Does an instruction take beats of the lane array (R119)? -/
def VOp.isLane (o : VOp) : Bool := !o.isLoad && !o.isStore

/-! ### Operands -/

def VEntry.mask (s : State) (tid : Nat) (e : VEntry) : BitVec 8192 := maskGet s tid e.k

/-- Is element `i` active (R112)? -/
def VEntry.active (s : State) (tid : Nat) (e : VEntry) (i : Nat) : Bool := i < e.vl && (e.mask s tid).getLsbD i

/-- The lowest active element from `i` on. -/
def VEntry.nextActive (s : State) (tid : Nat) (e : VEntry) (i : Nat) : Option Nat :=
  leastFrom (fun k => e.active s tid k) i (e.vl - i)

def VEntry.width (e : VEntry) : Nat := typeWidth e.vt

/-- Element `i` of the b operand: of vb, or the scalar's low bits (R27, R134, R135). -/
def VEntry.opB (s : State) (tid : Nat) (e : VEntry) (i : Nat) : Nat :=
  if e.sb then e.gb.toNat % 2 ^ e.width else vGet s tid e.b e.width i

def VEntry.mvl (s : State) (tid : Nat) (e : VEntry) : Nat := mvlOf (th s tid).v.rows e.vt

/-- Elements 0 to `VL` − 1 that `p` selects, each written with a value and flags, in element order (R108, R117). -/
def vEach (s : State) (tid d w vl : Nat) (p : Nat → Bool) (f : State → Nat → Nat × Flags) : State :=
  (List.range vl).foldl (fun s i => if p i then let r := f s i; orFlags (vPut s tid d w i r.1) tid r.2 else s) s

/-! ### Element operations (R134, R135) -/

/-- The sum of four products of signed bytes (R134, `vdot4`). -/
def dot4 (a b : Nat) : Int :=
  ((List.range 4).map fun j => sgn 8 (a / 2 ^ (8 * j)) * sgn 8 (b / 2 ^ (8 * j))).sum

/-- A signed result saturated to `w` bits, with OF when it was (R134). -/
def satOf (w : Nat) (n : Int) : Nat × Flags := (unsgn w (clamp w n), flagIf (decide (clamp w n ≠ n)) flOF)

/-- An element of a VINT, VFP or move result: A, B and D the operands, `w` the width, `m` the format (R134, R135). -/
def vElem (o : VOp) (w : Nat) (m : Fmt) (rm : Rm) (A B D : Nat) : Nat × Flags :=
  let sh := B % w
  match o with
  | .vadd => ((A + B) % 2 ^ w, 0)
  | .vsub => (unsgn w ((A : Int) - B), 0)
  | .vmul => (A * B % 2 ^ w, 0)
  | .vmulh => (unsgn w (sgn w A * sgn w B / 2 ^ w), 0)
  | .vmin => (if sgn w B < sgn w A then B else A, 0)
  | .vmax => (if sgn w A < sgn w B then B else A, 0)
  | .vminu => (min A B, 0)
  | .vmaxu => (max A B, 0)
  | .vand => (A &&& B, 0)
  | .vor => (A ||| B, 0)
  | .vxor => (A ^^^ B, 0)
  | .vsll => (A * 2 ^ sh % 2 ^ w, 0)
  | .vsrl => (A / 2 ^ sh, 0)
  | .vsra => (unsgn w (sgn w A / 2 ^ sh), 0)
  | .vsadd => satOf w (sgn w A + sgn w B)
  | .vssub => satOf w (sgn w A - sgn w B)
  | .vmacc => ((D + A * B) % 2 ^ w, 0)
  | .vdot4 => (unsgn 32 ((D : Int) + dot4 A B), 0)
  | .vfadd => m.add rm A B
  | .vfsub => m.sub rm A B
  | .vfmul => m.mul rm A B
  | .vfdiv => m.div rm A B
  | .vfsqrt => m.sqrt rm A
  | .vfmin => m.pick false A B
  | .vfmax => m.pick true A B
  | .vfma => m.fma rm A B D
  | .vfnma => m.fnma rm A B D
  | .vfabs => (if (m.val A).isNan then m.nan else A % m.signBit, 0)
  | .vfneg => (if (m.val A).isNan then m.nan else (A + m.signBit) % 2 ^ m.width, 0)
  | .vmv => (B, 0)
  | _ => (D, 0)

/-- The condition of a VCMP element (R136). -/
def vCond (o : VOp) (w : Nat) (m : Fmt) (A B : Nat) : Bool × Flags :=
  match o with
  | .vceq => (A == B, 0)
  | .vcne => (A != B, 0)
  | .vclt => (sgn w A < sgn w B, 0)
  | .vcle => (sgn w A ≤ sgn w B, 0)
  | .vcltu => (A < B, 0)
  | .vcleu => (A ≤ B, 0)
  | .vfceq => m.feq A B
  | .vfclt => m.fltle false A B
  | .vfcle => m.fltle true A B
  | _ => m.unordered A B

/-- One element of a conversion from type `src` to type `dst` (R97, R141). -/
def vConv (o : VOp) (src dst : Nat) (rm : Rm) (A : Nat) : Nat × Flags :=
  let w := typeWidth src
  let v := typeWidth dst
  match o with
  | .vcvtFi => (typeFmt src).toInt rm v A
  | .vcvtIf => (typeFmt dst).ofInt rm (sgn w A)
  | _ => if isInt src then (unsgn v (clamp v (sgn w A)), 0) else (typeFmt src).convert (typeFmt dst) rm A

/-! ### Mask instructions (R137) -/

/-- A mask whose bits below `VL` are those of `r`, and the others those of `old` (R120). -/
def maskBelow (vl : Nat) (old r : BitVec 8192) : BitVec 8192 :=
  let low : BitVec 8192 := BitVec.ofNat 8192 (2 ^ vl - 1)
  (old &&& ~~~low) ||| (r &&& low)

def vMask (s : State) (tid : Nat) (e : VEntry) : State :=
  let A := maskGet s tid e.a
  let B := maskGet s tid e.b
  let put (r : BitVec 8192) : State := maskPut s tid e.d (maskBelow e.vl (maskGet s tid e.d) r)
  let hits := (List.range e.vl).filter fun i => e.active s tid i && A.getLsbD i
  match e.op with
  | .mand => put (A &&& B)
  | .mor => put (A ||| B)
  | .mxor => put (A ^^^ B)
  | .mandn => put (A &&& ~~~B)
  | .mnot => put (~~~A)
  | .mset => put (BitVec.ofNat 8192 (2 ^ min e.ga.toNat e.vl - 1))
  | .mpop => wrOf s tid e.d (BitVec.ofNat 64 hits.length)
  | .mfirst => wrOf s tid e.d (match hits with | [] => BitVec.allOnes 64 | i :: _ => BitVec.ofNat 64 i)
  | .miota =>
    let act := fun i => e.active s tid i
    vEach s tid e.d e.width e.vl act fun _ i => ((hits.filter (· < i)).length % 2 ^ e.width, 0)
  | _ => s

/-! ### Reductions (R105-R107, R138, R139) -/

/-- The initial value of a reduction. -/
def redInit (s : State) (tid : Nat) (e : VEntry) : Nat := e.opB s tid 0

/-- One element of a reduction. -/
def redOp (e : VEntry) (acc A : Nat) : Nat × Flags :=
  let w := e.width
  let m := typeFmt e.vt
  match e.op with
  | .vredsum => ((acc + A) % 2 ^ w, 0)
  | .vredmin => (if sgn w A < sgn w acc then A else acc, 0)
  | .vredmax => (if sgn w acc < sgn w A then A else acc, 0)
  | .vfredo => m.add (rmOf e.frm) acc A
  | .vfredmin => m.pick false acc A
  | .vfredmax => m.pick true acc A
  | _ => (acc, 0)

/-- Element `e.elem` of a reduction other than `vfredt`: the partial value stands in vd[0] (R138). -/
def redStep (s : State) (tid : Nat) (e : VEntry) : State :=
  let acc := if e.elem = 0 ∧ !e.cont then redInit s tid e else vGet s tid e.d e.width 0
  let r := if e.active s tid e.elem then redOp e acc (vGet s tid e.a e.width e.elem) else (acc, 0)
  orFlags (vPut s tid e.d e.width 0 r.1) tid r.2

/-- The smallest power of two that is at least `n` (R106). -/
def pow2Up (n : Nat) : Nat := if n ≤ 1 then 1 else 2 ^ (Nat.log2 (n - 1) + 1)

/-- Level and index of addition `c` of a tree over `2h` elements: half size and position (R106). -/
def treeAt (fuel h c : Nat) : Nat × Nat :=
  match fuel with
  | 0 => (h, c)
  | k + 1 => if c < h then (h, c) else treeAt k (h / 2) (c - h)

/-- Element `i` of the list that `vfredt` reduces (R106). -/
def treeSrc (s : State) (tid : Nat) (e : VEntry) (i : Nat) : Nat :=
  if e.active s tid i then vGet s tid e.a e.width i else 0

/-- Addition number `e.elem` of `vfredt` (R139). -/
def treeStep (s : State) (tid : Nat) (e : VEntry) : State :=
  let P := pow2Up e.vl
  let m := typeFmt e.vt
  let w := e.width
  if e.elem + 1 < P then
    let (h, i) := treeAt 14 (P / 2) e.elem
    let r := if 2 * h = P then m.add (rmOf e.frm) (treeSrc s tid e i) (treeSrc s tid e (i + h))
      else m.add (rmOf e.frm) (vGet s tid e.d w i) (vGet s tid e.d w (i + h))
    orFlags (vPut s tid e.d w i r.1) tid r.2
  else
    let x0 := if P = 1 then treeSrc s tid e 0 else vGet s tid e.d w 0
    let r := m.add (rmOf e.frm) (redInit s tid e) x0
    orFlags (vPut s tid e.d w 0 r.1) tid r.2

/-- The steps of a reduction: elements, or additions for `vfredt` (R138, R139). -/
def redSteps (e : VEntry) : Nat := if e.op = .vfredt then pow2Up e.vl else e.vl

/-- Up to `n` further steps of a reduction. -/
def redRun (s : State) (tid : Nat) (e : VEntry) (n : Nat) : State × VEntry :=
  match n with
  | 0 => (s, e)
  | k + 1 =>
    if e.elem < redSteps e then
      redRun (if e.op = .vfredt then treeStep s tid e else redStep s tid e) tid { e with elem := e.elem + 1 } k
    else (s, e)

/-! ### Permutations, moves and quantisers (R140, R142) -/

def vPerm (s : State) (tid : Nat) (e : VEntry) : State :=
  let w := e.width
  let M := e.mvl s tid
  let src (s : State) (i : Nat) : Nat := if i < M then vGet s tid e.a w i else 0
  let m := e.mask s tid
  let act := fun i => m.getLsbD i
  let kk := e.gb.toNat
  match e.op with
  | .vslup => vEach s tid e.d w e.vl (fun i => act i && decide (kk ≤ i)) fun s i => (src s (i - kk), 0)
  | .vsldn => vEach s tid e.d w e.vl act fun s i => (src s (i + kk), 0)
  | .vrgather => vEach s tid e.d w e.vl act fun s i => (src s (vGet s tid e.b w i), 0)
  | .vcompress =>
    let xs := ((List.range e.vl).filter act).map (vGet s tid e.a w)
    vEach s tid e.d w xs.length (fun _ => true) fun _ i => (xs.getD i 0, 0)
  | .vbcast =>
    let x := src s kk
    vEach s tid e.d w e.vl act fun _ _ => (x, 0)
  | .vmvgv => if kk < M then vPut s tid e.d w kk (e.ga.toNat % 2 ^ w) else s
  | .vmvvg =>
    let x := src s kk
    wrOf s tid e.d (if isInt e.vt then BitVec.ofInt 64 (sgn w x) else BitVec.ofNat 64 x)
  | .vid => vEach s tid e.d w e.vl act fun _ i => (i % 2 ^ w, 0)
  | .vmerge =>
    vEach s tid e.d w e.vl (fun _ => true) fun s i => (if act i then e.opB s tid i else vGet s tid e.a w i, 0)
  | _ => s

/-- Blocks of 32 of a quantiser: the codes in vd, the scale of block j in container j of vb (R142). -/
def vQuant (s : State) (tid : Nat) (e : VEntry) (m : Fmt) (k : Nat) : State :=
  (List.range ((e.vl + 31) / 32)).foldl (fun s j =>
    let n := min 32 (e.vl - 32 * j)
    let (sc, cs, f) := quantise m k ((List.range n).map fun i => vGet s tid e.a 32 (32 * j + i))
    let s := (List.range n).foldl (fun s i => vPut s tid e.d m.width (32 * j + i) (cs.getD i 0)) s
    orFlags (vPut s tid e.b 32 j sc) tid f) s

/-- What a lane instruction other than a reduction does (R134-R142). -/
def vPerform (s : State) (tid : Nat) (e : VEntry) : State :=
  let w := e.width
  let fm := typeFmt e.vt
  let rm := rmOf e.frm
  let m := e.mask s tid
  let act := fun i => m.getLsbD i
  match e.op with
  | .vceq | .vcne | .vclt | .vcle | .vcltu | .vcleu | .vfceq | .vfclt | .vfcle | .vfcun =>
    (List.range e.vl).foldl (fun s i =>
      if act i then
        let r := vCond e.op w fm (vGet s tid e.a w i) (e.opB s tid i)
        orFlags (maskBit s tid e.d i r.1) tid r.2
      else s) s
  | .mand | .mor | .mxor | .mandn | .mnot | .mset | .mpop | .mfirst | .miota => vMask s tid e
  | .vslup | .vsldn | .vrgather | .vcompress | .vbcast | .vmvgv | .vmvvg | .vid | .vmerge => vPerm s tid e
  | .vcvtN | .vcvtW | .vcvtFi | .vcvtIf =>
    vEach s tid e.d (typeWidth e.b) e.vl act fun s i => vConv e.op e.vt e.b rm (vGet s tid e.a w i)
  | .vcvtQ4 => vQuant s tid e fmtE2m1 6
  | .vcvtQ8 => vQuant s tid e fmtE4m3 448
  | _ => vEach s tid e.d w e.vl act fun s i => vElem e.op w fm rm (vGet s tid e.a w i) (e.opB s tid i) (vGet s tid e.d w i)

/-! ### Beats (R119) -/

/-- Rows of `n` elements of `w` bits. -/
def rowsOf (n w : Nat) : Nat := (n * w + 1023) / 1024

/-- The beats of a lane instruction (R119). -/
def beatsOf (s : State) (tid : Nat) (e : VEntry) : Nat :=
  let rows := rowsOf e.vl e.width
  match e.op with
  | .vmvgv | .vmvvg => 1
  | o =>
    if e.vl = 0 then 0
    else match o with
      | .vfdiv | .vfsqrt => 4 * rows
      | .vslup | .vsldn | .vrgather | .vcompress => 2 * rows
      | .mand | .mor | .mxor | .mandn | .mnot | .mset | .mpop | .mfirst => (e.vl + 1023) / 1024
      | .vredsum | .vredmin | .vredmax | .vfredmin | .vfredmax => rows + 5
      | .vfredo => ((List.range e.vl).filter fun i => e.active s tid i).length + 1
      | .vfredt => rows + Nat.log2 (pow2Up e.vl) + 1
      | .vcvtN | .vcvtW | .vcvtFi | .vcvtIf => rowsOf e.vl (max e.width (typeWidth e.b))
      | .vcvtQ4 | .vcvtQ8 => 3 * rowsOf e.vl 32
      | _ => rows

end Sys2Proof.Machine
end

