-- ==== Sys2Proof/WellFormed.lean ====
section
/-! DEFINITION. Which terms of `Instr` are instructions that the spec admits: the static limits of each instruction's
fields. A word outside them is refused by the illegal-instruction trap when it issues (R27, R29, R125, R158, R184,
R258); an event outside them names a subject that the package does not have. -/

namespace Sys2Proof

/-- A field that names a mask register: m0 to m7 (R27). -/
def maskOk (f : BitVec 5) : Bool := f.toNat < 8

/-- A scope code (R18). -/
def scopeOk (sc : BitVec 3) : Bool := sc.toNat ≤ 6

/-- A system-register index outside the reserved band 0b01 (R36). -/
def bandOk (imm : BitVec 12) : Bool := imm.toNat / 1024 ≠ 1

/-- The fields of an instruction lie within the limits of its description. -/
def wellFormed : Instr → Bool
  | .longResultWrite tid _ => decide (tid < 16384)
  | .pauseExpiry tid => decide (tid < 16384)
  | .timerCompare tid => decide (tid < 16384)
  | .interruptTake tid => decide (tid < 16384)
  | .asyncFaultTrap tid => decide (tid < 16384)
  | .storeFaultTrap tid => decide (tid < 16384)
  | .stopComplete tid => decide (tid < 16384)
  | .thrEndComplete tid => decide (tid < 16384)
  | .gafferSpawn _ _ => true
  | .laneBeat core => decide (core < 1024)
  | .vectorElementAccess tid => decide (tid < 16384)
  | .marverGrant bench => decide (bench < 128)
  | .marverStep bench => decide (bench < 128)
  | .marverCommandComplete bench => decide (bench < 128)
  | .counterOpAtHome _ => true
  | .wakeMessage _ => true
  | .waitReread tid => decide (tid < 16384)
  | .waiterPoll tid => decide (tid < 16384)
  | .waiterEvict _ => true
  | .waitTimeout tid => decide (tid < 16384)
  | .storeCheck tid => decide (tid < 16384)
  | .pendingRecordWrite tid => decide (tid < 16384)
  | .storeArriveHome tid _ => decide (tid < 16384)
  | .amoAtHome _ => true
  | .redAtHome tid _ => decide (tid < 16384)
  | .lineEvict core _ => decide (core < 1024)
  | .hostCxlSnoop _ _ _ => true
  | .hostCxlMemAccess _ _ _ => true
  | .copyChunk core => decide (core < 1024)
  | .mcastStreamJoin core => decide (core < 1024)
  | .mcastReceiverChunk core _ => decide (core < 1024)
  | .grpMcastDelivery _ _ => true
  | .reductionResult core _ => decide (core < 1024)
  | .roundAbandon core => decide (core < 1024)
  | .pageWalk tid _ _ => decide (tid < 16384)
  | .pageRequestRecordWrite ent => decide (ent < 4096)
  | .pageAnswerRetry _ _ _ => true
  | .pageAnswerRefuse _ _ _ => true
  | .hostFenceMessage vf _ _ => decide (vf < 128)
  | .hostFenceAck _ => true
  | .hostQueueWindowWrite vf q off _ => decide (vf < 128 ∧ q < 256 ∧ off < 64)
  | .frameReceive port _ => decide (port < 2)
  | .kernelBind _ => true
  | .kernelAdmit _ => true
  | .kernelEndSequence _ => true
  | .create _ => true
  | .ready _ => true
  | .start _ => true
  | .suspend _ => true
  | .suspendComplete ctx => decide (ctx < 256)
  | .resume _ => true
  | .destroy _ => true
  | .scrubComplete ctx => decide (ctx < 256)
  | .sealJobStart _ => true
  | .restoreJobStart _ => true
  | .leaseRequest _ _ _ _ _ => true
  | .keyRelease _ _ _ => true
  | .commitRequest _ _ _ => true
  | .commitAck _ _ => true
  | .leaseExpiry _ => true
  | .homeAnswerTimeout _ => true
  | .update => true
  | .reshape => true
  | .reshapeDrainComplete => true
  | .spszWrite _ => true
  | .sdepthWrite _ => true
  | .vtWrite _ => true
  | .vectorStateAccess _ _ => true
  | .tstatTakeHold _ => true
  | .tstatWriteOff => true
  | .tileConfigWrite _ _ => true
  | .afcodeClear => true
  | .xctrEnable _ => true
  | .xctrDisable _ => true
  | .hostCounterWindowWrite vf ent _ => decide (vf < 128 ∧ ent < 512)
  | .hostArmWrite vf ent _ => decide (vf < 128 ∧ ent < 512)
  | .hostDoorbell vf _ => decide (vf < 128)
  | .counterTableWrite vf ent _ => decide (vf < 128 ∧ ent < 512)
  | .hostRegisterWrite _ _ _ => true
  | .portEnable _ => true
  | .portFence _ => true
  | .portUnfence _ => true
  | .portReset _ => true
  | .laneLock port _ => decide (port < 24)
  | .trainingTimeout port => decide (port < 24)
  | .retrainTrigger port _ => decide (port < 24)
  | .flitCrcFail port _ => decide (port < 24)
  | .pathTimeout _ => true
  | .remoteAccessReceive _ _ _ _ _ => true
  | .mctpControl _ => true
  | .getVersion => true
  | .getCapabilities _ => true
  | .negotiateAlgorithms _ => true
  | .getDigests => true
  | .getCertificate _ _ _ => true
  | .challenge _ _ => true
  | .getMeasurements _ _ _ => true
  | .fwOpen _ => true
  | .fwData _ _ => true
  | .fwCommit _ => true
  | .authKey _ => true
  | .plan _ => true
  | .pkgNum _ => true
  | .route _ => true
  | .domain _ => true
  | .xgroup _ => true
  | .ethAddr _ => true
  | .ethRule _ => true
  | .partReset _ => true
  | .coreReset _ => true
  | .packageReset _ => true
  | .powerUp _ => true
  | .powerCapTick _ => true
  | .thermalSample bench _ _ _ => decide (bench < 128)
  | .marginReplan bench _ => decide (bench < 128)
  | .errorDetect _ _ _ => true
  | .lehrRestart => true
  | .powerLoss _ _ => true
  | .blockDeviceAcknowledge _ => true
  | .leaseRefused _ _ => true
  | .translationDrop _ => true
  | .svc => true
  | .brk => true
  | .tret => true
  | .pause _ => true
  | .sread _ _ imm => bandOk imm
  | .swrite _ _ _ imm => bandOk imm
  | .sset _ _ _ imm => bandOk imm
  | .sclr _ _ _ imm => bandOk imm
  | .beq _ _ _ _ => true
  | .bne _ _ _ _ => true
  | .blt _ _ _ _ => true
  | .bge _ _ _ _ => true
  | .bltu _ _ _ _ => true
  | .bgeu _ _ _ _ => true
  | .jal _ _ _ => true
  | .jalr _ _ _ _ => true
  | .ldb _ _ _ _ _ => true
  | .ldh _ _ _ _ _ => true
  | .ldw _ _ _ _ _ => true
  | .ldd _ _ _ _ _ => true
  | .ldbu _ _ _ _ _ => true
  | .ldhu _ _ _ _ _ => true
  | .ldwu _ _ _ _ _ => true
  | .stb _ _ _ _ => true
  | .sth _ _ _ _ => true
  | .stw _ _ _ _ => true
  | .std _ _ _ _ => true
  | .pcadd _ _ _ => true
  | .ldhi _ _ => true
  | .add _ _ _ => true
  | .sub _ _ _ => true
  | .and _ _ _ => true
  | .or _ _ _ => true
  | .xor _ _ _ => true
  | .andn _ _ _ => true
  | .orn _ _ _ => true
  | .sll _ _ _ => true
  | .srl _ _ _ => true
  | .sra _ _ _ => true
  | .slt _ _ _ => true
  | .sltu _ _ _ => true
  | .min _ _ _ => true
  | .max _ _ _ => true
  | .minu _ _ _ => true
  | .maxu _ _ _ => true
  | .mul _ _ _ => true
  | .mulh _ _ _ _ => true
  | .mulhu _ _ _ _ => true
  | .div _ _ _ _ => true
  | .divu _ _ _ _ => true
  | .rem _ _ _ _ => true
  | .remu _ _ _ _ => true
  | .addw _ _ _ => true
  | .subw _ _ _ => true
  | .clz _ _ => true
  | .ctz _ _ => true
  | .cpop _ _ => true
  | .rol _ _ _ => true
  | .ror _ _ _ => true
  | .addi _ _ _ => true
  | .slti _ _ _ => true
  | .sltiu _ _ _ => true
  | .xori _ _ _ => true
  | .ori _ _ _ => true
  | .andi _ _ _ => true
  | .slli _ _ _ => true
  | .srli _ _ _ => true
  | .srai _ _ _ => true
  | .addiw _ _ _ => true
  | .faddS _ _ _ => true
  | .fsubS _ _ _ => true
  | .fmulS _ _ _ => true
  | .fdivS _ _ _ _ => true
  | .fsqrtS _ _ _ => true
  | .fminS _ _ _ => true
  | .fmaxS _ _ _ => true
  | .fmaddS _ _ _ => true
  | .feqS _ _ _ => true
  | .fltS _ _ _ => true
  | .fleS _ _ _ => true
  | .fclassS _ _ => true
  | .fcvtSd _ _ => true
  | .fcvtDs _ _ => true
  | .fcvtSl _ _ => true
  | .fcvtLs _ _ => true
  | .fcvtDl _ _ => true
  | .fcvtLd _ _ => true
  | .faddD _ _ _ => true
  | .fsubD _ _ _ => true
  | .fmulD _ _ _ => true
  | .fdivD _ _ _ _ => true
  | .fsqrtD _ _ _ => true
  | .fminD _ _ _ => true
  | .fmaxD _ _ _ => true
  | .fmaddD _ _ _ => true
  | .feqD _ _ _ => true
  | .fltD _ _ _ => true
  | .fleD _ _ _ => true
  | .fclassD _ _ => true
  | .thrSpawn _ _ _ _ => true
  | .thrEnd _ => true
  | .thrSelf _ _ => true
  | .thrStop _ _ _ => true
  | .thrGo _ _ _ => true
  | .thrSave _ _ _ _ => true
  | .thrLoad _ _ _ _ => true
  | .vset _ _ _ t => decide (t.toNat ≠ 7 ∧ t.toNat < 12)
  | .vsetmt _ _ t => decide (t.toNat ≤ 2)
  | .vld _ _ _ _ _ => true
  | .vlds _ _ _ _ _ _ => true
  | .vldx _ d _ b _ _ => decide (d ≠ b)
  | .vldff _ _ _ _ _ => true
  | .vldg _ _ _ _ _ _ => true
  | .vldb _ _ _ _ _ => true
  | .vst _ _ _ _ _ => true
  | .vsts _ _ _ _ _ _ => true
  | .vstx _ d _ b _ _ => decide (d ≠ b)
  | .vstxa _ d _ b _ _ => decide (d ≠ b)
  | .vstxf _ d _ b _ _ => decide (d ≠ b)
  | .vadd _ _ _ _ _ => true
  | .vsub _ _ _ _ _ => true
  | .vmul _ _ _ _ _ => true
  | .vmulh _ _ _ _ _ => true
  | .vmin _ _ _ _ _ => true
  | .vmax _ _ _ _ _ => true
  | .vminu _ _ _ _ _ => true
  | .vmaxu _ _ _ _ _ => true
  | .vand _ _ _ _ _ => true
  | .vor _ _ _ _ _ => true
  | .vxor _ _ _ _ _ => true
  | .vsll _ _ _ _ _ => true
  | .vsrl _ _ _ _ _ => true
  | .vsra _ _ _ _ _ => true
  | .vsadd _ _ _ _ _ => true
  | .vssub _ _ _ _ _ => true
  | .vmacc _ _ _ _ _ => true
  | .vdot4 _ _ _ _ _ => true
  | .vfadd _ _ _ _ _ => true
  | .vfsub _ _ _ _ _ => true
  | .vfmul _ _ _ _ _ => true
  | .vfdiv _ _ _ _ _ => true
  | .vfsqrt _ _ _ => true
  | .vfmin _ _ _ _ _ => true
  | .vfmax _ _ _ _ _ => true
  | .vfma _ _ _ _ _ => true
  | .vfnma _ _ _ _ _ => true
  | .vfabs _ _ _ => true
  | .vfneg _ _ _ => true
  | .vceq d _ _ _ _ => maskOk d
  | .vcne d _ _ _ _ => maskOk d
  | .vclt d _ _ _ _ => maskOk d
  | .vcle d _ _ _ _ => maskOk d
  | .vcltu d _ _ _ _ => maskOk d
  | .vcleu d _ _ _ _ => maskOk d
  | .vfceq d _ _ _ _ => maskOk d
  | .vfclt d _ _ _ _ => maskOk d
  | .vfcle d _ _ _ _ => maskOk d
  | .vfcun d _ _ _ _ => maskOk d
  | .mand d a b => maskOk d && maskOk a && maskOk b
  | .mor d a b => maskOk d && maskOk a && maskOk b
  | .mxor d a b => maskOk d && maskOk a && maskOk b
  | .mandn d a b => maskOk d && maskOk a && maskOk b
  | .mnot d a => maskOk d && maskOk a
  | .mpop _ a _ => maskOk a
  | .mfirst _ a _ => maskOk a
  | .miota _ a _ => maskOk a
  | .mset d _ => maskOk d
  | .vredsum _ _ _ _ _ => true
  | .vredmin _ _ _ _ _ => true
  | .vredmax _ _ _ _ _ => true
  | .vfredo _ _ _ _ _ => true
  | .vfredt d _ b _ sb => decide (sb = 1 ∨ d ≠ b)
  | .vfredmin _ _ _ _ _ => true
  | .vfredmax _ _ _ _ _ => true
  | .vslup d a _ _ => decide (d ≠ a)
  | .vsldn d a _ _ => decide (d ≠ a)
  | .vrgather d a b _ => decide (d ≠ a ∧ d ≠ b)
  | .vcompress d a _ => decide (d ≠ a)
  | .vbcast _ _ _ _ => true
  | .vmvgv _ _ _ => true
  | .vmvvg _ _ _ => true
  | .vid _ _ => true
  | .vmerge _ _ _ _ _ => true
  | .vmv _ _ _ _ => true
  | .vcvtN d a t _ => decide (d ≠ a) && [0, 1, 2, 3, 4, 6, 8, 10].contains t.toNat
  | .vcvtW d a t _ => decide (d ≠ a) && [0, 1, 2, 8, 9, 10, 11].contains t.toNat
  | .vcvtFi _ _ t _ => [6, 8, 10, 11].contains t.toNat
  | .vcvtIf _ _ t _ => [0, 1, 2, 3, 4, 9].contains t.toNat
  | .vcvtQ4 d a b => decide (d ≠ a ∧ d ≠ b ∧ a ≠ b)
  | .vcvtQ8 d a b => decide (d ≠ a ∧ d ≠ b ∧ a ≠ b)
  | .tileZero _ _ _ => true
  | .tileLd _ _ _ _ _ y => [0, 1, 2, 8].contains y.toNat
  | .tileSt _ _ _ _ _ y => [0, 1, 2, 8].contains y.toNat
  | .tileLdx _ _ _ _ _ y => [0, 1, 2, 8].contains y.toNat
  | .tileStx _ _ _ _ _ y => [0, 1, 2, 8].contains y.toNat
  | .tileStxa _ _ _ _ _ y => [0, 8].contains y.toNat
  | .tileMma _ _ _ _ _ y => decide (y.toNat ≤ 9)
  | .tileMmax _ _ _ _ _ y => decide (y.toNat ≤ 9)
  | .tileGmma _ _ _ _ _ y => decide (y.toNat ≤ 9)
  | .tileRowv _ _ _ _ _ y => [0, 1, 2, 8].contains y.toNat
  | .tileVrow _ _ _ _ _ y => [0, 1, 2, 8].contains y.toNat
  | .tileQ _ _ _ _ _ y => [3, 5].contains y.toNat
  | .tileChol _ _ _ => true
  | .tileTrsm _ t _ ts => decide (t ≠ ts)
  | .tileRel _ => true
  | .ctrAdd _ _ _ sc => scopeOk sc
  | .ctrFadd _ _ _ _ _ sc => scopeOk sc
  | .ctrWait _ _ _ sc => scopeOk sc
  | .ctrTest _ _ _ _ _ sc => scopeOk sc
  | .ctrRead _ _ _ _ => true
  | .ctrArrive _ k _ sc => maskOk k && scopeOk sc
  | .ctrAw _ k _ _ sc => maskOk k && scopeOk sc
  | .ctrReset _ _ sc => scopeOk sc
  | .ctrVadd _ k _ _ sc => maskOk k && decide (k ≠ 0) && scopeOk sc
  | .ctrArm _ _ _ _ => true
  | .ctrHome _ _ _ _ _ => true
  | .grpNew _ _ _ => true
  | .grpJoin _ _ _ _ => true
  | .grpLeave _ _ => true
  | .grpSize _ _ _ => true
  | .grpRank _ _ => true
  | .grpPin _ _ _ => true
  | .grpUnpin _ _ _ => true
  | .grpMcast _ _ _ _ => true
  | .grpStop _ _ _ _ => true
  | .grpGo _ _ _ => true
  | .grpKill _ _ _ => true
  | .xferCopy _ _ _ _ => true
  | .xferTensor _ _ _ _ => true
  | .xferMcast _ _ _ _ => true
  | .xferFill _ _ _ _ => true
  | .xferSend _ _ _ _ => true
  | .qLaunch _ _ _ _ => true
  | .qCall _ _ _ _ => true
  | .qTake _ _ _ _ => true
  | .qDone _ _ _ _ => true
  | .amoAdd _ _ _ _ _ => true
  | .amoAnd _ _ _ _ _ => true
  | .amoOr _ _ _ _ _ => true
  | .amoXor _ _ _ _ _ => true
  | .amoMin _ _ _ _ _ => true
  | .amoMax _ _ _ _ _ => true
  | .amoMinu _ _ _ _ _ => true
  | .amoMaxu _ _ _ _ _ => true
  | .amoSwap _ _ _ _ _ => true
  | .amoCas _ _ _ _ _ => true
  | .amoFadd _ _ _ _ _ => true
  | .redAdd _ _ _ _ => true
  | .redFadd _ _ _ _ => true
  | .redMin _ _ _ _ => true
  | .redMax _ _ _ _ => true
  | .fence _ b => decide (b.toNat ≤ 6)
  | .stDrain _ => true
  | .lineInv _ _ b => decide (b.toNat ≤ 6)
  | .lineWb _ _ b => decide (b.toNat ≤ 6)
  | .pref _ _ b => decide (b.toNat ≤ 2)
  | .haloDecl _ _ _ => true
  | .haloDrop _ _ => true
  | .haloPush _ _ => true
  | .vmFence _ => true
  | .vmInv _ _ _ => true
  | .vmGinv _ _ _ => true
  | .vmProbe _ _ _ _ => true
  | .ctxSeal _ _ _ => true
  | .ctxUnseal _ _ _ => true
  | .ctxExtend _ _ _ _ => true
  | .ctxQuote _ _ _ _ => true

end Sys2Proof
end

