-- ==== Sys2Proof/Machine/Vector.lean ====
section
/-! DEFINITION. Vector instructions: configuration, the checks at issue, the queue, beats, element accesses, cuts
(R115-R142). -/

namespace Sys2Proof.Machine

/-! ### The vector registers as a word reads them (R22, R115) -/

def vlNow (s : State) : Nat := match s.snap with | some n => n.vl | none => (me s).v.vl
def vtNow (s : State) : Nat := match s.snap with | some n => n.vt | none => (me s).v.vt
def vmtNow (s : State) : Nat := match s.snap with | some n => n.vmt | none => (me s).v.vmt
def vrsNow (s : State) : Word := match s.snap with | some n => n.vrs | none => (me s).v.vrs
def rowsNow (s : State) : Nat := match s.snap with | some n => n.rows | none => (me s).v.rows

/-! ### The queue (R115, R117) -/

def setV (s : State) (tid : Nat) (v : VecRegs) : State := setTh s tid { th s tid with v := v }

/-- The oldest instruction of a queue replaced, or gone. -/
def setHead (s : State) (tid : Nat) (e : VEntry) : State :=
  let v := (th s tid).v
  setV s tid { v with queue := e :: v.queue.drop 1 }
def popHead (s : State) (tid : Nat) : State :=
  let v := (th s tid).v
  setV s tid { v with queue := v.queue.drop 1 }

/-- What an instruction with `VL` = 0 does: no access, no beat (R119, R138, R139). A continued reduction leaves its partial
value in vd[0]. -/
def vNone (s : State) (tid : Nat) (e : VEntry) : State :=
  if e.op.isLoad || e.op.isStore then s
  else if e.op = .vfredt then treeStep s tid e
  else if e.op.isRed then (if e.cont then s else vPut s tid e.d e.width 0 (redInit s tid e))
  else vPerform s tid e

/-- Instructions at the head of a queue that take neither beats nor accesses complete (R119). -/
def vRun (s : State) (tid : Nat) : Nat → State
  | 0 => s
  | k + 1 =>
    match (th s tid).v.queue with
    | [] => s
    | e :: _ =>
      if e.vl = 0 ∧ e.op ≠ .vmvgv ∧ e.op ≠ .vmvvg then vRun (popHead (vNone s tid e) tid) tid k else s

/-- The captures of a word at its entry (R115); what the word's fields name is filled in by its meaning. -/
def vEntryOf (s : State) : VEntry :=
  let t := me s
  { op := .vmv, pc := t.pc, slot := s.slot, vl := vlNow s, vt := vtNow s, vmt := vmtNow s, frm := frmOf s,
    wbase := t.v.wbase, wctr := t.v.wctr, ga := 0, gb := 0, elem := 0, priv := t.priv, word := 0, d := 0, a := 0,
    b := 0, k := 0 }

/-- The element, or addition, from which an instruction continues. The last addition of a `vfredt` is always made
(R122, R139). -/
def contFrom (e : VEntry) (vrs : Word) : Nat :=
  if e.op = .vfredt then min (bits vrs 12 0) (pow2Up e.vl - 1) else bits vrs 12 0

/-- Entry of an instruction into the queue; one that can be cut continues from `VRS` (R115, R122). A store keeps order numbers for
its elements, which stand behind its own in the order of the thread's accesses (R118, R133). -/
def vPush (s : State) (e : VEntry) : State :=
  let v := (me s).v
  let cont := e.op.canCut && bit (vrsNow s) 63
  let e := if cont then { e with cont := true, elem := contFrom e (vrsNow s) } else e
  let q := v.queue ++ [{ e with seq := s.order }]
  let s := setV { s with order := s.order + 1 + (if e.op.isStore then 8192 else 0) } s.cur
    { v with queue := q, vrs := if cont then 0 else v.vrs }
  vRun s s.cur 8

/-- Does a word access memory with a reserved memory type (R19)? -/
def VEntry.vmtBad (e : VEntry) : Bool := (e.op.isLoad || e.op.isStore) && 3 ≤ e.vmt

/-- The checks of a vector word at issue, in the order of R125, then its entry (R115): `ok1` the mask-register fields,
`ok` the type, width, overlap and length rules; with them the reserved memory types (R19). -/
def vEnter (s : State) (p : BitVec 1) (word : Nat) (e : VEntry) (ok1 ok : Bool) : Out :=
  .next (if !ok1 then illegal s word
    else if rowsNow s = 0 then raise s 13 (BitVec.ofNat 64 word)
    else if !ok ∨ e.vmtBad then illegal s word
    else if 8 ≤ (me s).v.queue.length then held s
    else finish (vPush s { e with word := word }) p)

/-- `EW` is the width of the type; a 4-bit type takes `EW` 0b00 in `vld` and `vst` alone (R125, R127). -/
def ewOk (vt : Nat) (ew : BitVec 2) (plain : Bool) : Bool :=
  if typeWidth vt = 4 then plain && ew == 0 else typeWidth vt == 8 * 2 ^ ew.toNat

/-- The length limit of the indexed forms (R125). -/
def indexLen (s : State) : Bool := vlNow s ≤ rowsNow s * 32

/-- The admitted conversions (R141): source, destination type codes. -/
def narrows (a b : Nat) : Bool :=
  [(9, 0), (11, 8), (0, 1), (0, 2), (8, 10), (1, 3), (1, 4), (2, 3), (2, 4), (10, 6)].contains (a, b)
def widens (a b : Nat) : Bool := narrows b a
def toInts (a b : Nat) : Bool := [(9, 11), (0, 8), (1, 10), (2, 10), (3, 6), (4, 6)].contains (a, b)
def toFloats (a b : Nat) : Bool := toInts b a

/-! ### Configuration (R126) -/

/-- `vset` (R126). -/
def execVset (p : BitVec 1) (d a : BitVec 5) (t : BitVec 4) (s : State) : Out :=
  let w := wordVset p d a t
  let v := (me s).v
  .next (if v.rows = 0 then raise s 13 (BitVec.ofNat 64 w)
    else if !(isAnyType t.toNat) then illegal s w
    else if 8 ≤ v.queue.length then held s
    else
      let vl := min (if a = 0 then v.vl else (rd s a).toNat) (mvlOf v.rows t.toNat)
      finish (wr (setV s s.cur { v with vt := t.toNat, vl := vl }) d (BitVec.ofNat 64 vl)) p)

/-- `vsetmt` (R126). -/
def execVsetmt (p : BitVec 1) (d : BitVec 5) (t : BitVec 3) (s : State) : Out :=
  let w := wordVsetmt p d t
  let v := (me s).v
  .next (if v.rows = 0 then raise s 13 (BitVec.ofNat 64 w)
    else if 3 ≤ t.toNat then illegal s w
    else if 8 ≤ v.queue.length then held s
    else finish (wr (setV s s.cur { v with vmt := t.toNat }) d (BitVec.ofNat 64 v.vmt)) p)

/-! ### The words that enter the queue (R127-R142) -/

/-- `vld` (R127, R129). -/
def execVld (p : BitVec 1) (d a : BitVec 5) (ew : BitVec 2) (k : BitVec 3) (s : State) : Out :=
  vEnter s p (wordVld p d a ew k)
    { vEntryOf s with op := .vld, d := d.toNat, a := a.toNat, k := k.toNat, ew := ew.toNat, ga := rd s a }
    true (ewOk (vtNow s) ew true)

/-- `vlds` (R127, R129). -/
def execVlds (p : BitVec 1) (d a b : BitVec 5) (ew : BitVec 2) (k : BitVec 3) (s : State) : Out :=
  vEnter s p (wordVlds p d a b ew k)
    { vEntryOf s with op := .vlds, d := d.toNat, a := a.toNat, b := b.toNat, k := k.toNat, ew := ew.toNat, ga := rd s a, gb := rd s b }
    true (ewOk (vtNow s) ew false)

/-- `vldx` (R127, R129). -/
def execVldx (p : BitVec 1) (d a b : BitVec 5) (ew : BitVec 2) (k : BitVec 3) (s : State) : Out :=
  vEnter s p (wordVldx p d a b ew k)
    { vEntryOf s with op := .vldx, d := d.toNat, a := a.toNat, b := b.toNat, k := k.toNat, ew := ew.toNat, ga := rd s a }
    true (ewOk (vtNow s) ew false && d != b && indexLen s)

/-- `vldff` (R127, R130). -/
def execVldff (p : BitVec 1) (d a : BitVec 5) (ew : BitVec 2) (k : BitVec 3) (s : State) : Out :=
  vEnter s p (wordVldff p d a ew k)
    { vEntryOf s with op := .vldff, d := d.toNat, a := a.toNat, k := k.toNat, ew := ew.toNat, ga := rd s a }
    true (ewOk (vtNow s) ew false)

/-- `vldg` (R127, R131). -/
def execVldg (p : BitVec 1) (d a b : BitVec 5) (ew : BitVec 2) (k : BitVec 3) (s : State) : Out :=
  vEnter s p (wordVldg p d a b ew k)
    { vEntryOf s with op := .vldg, d := d.toNat, a := a.toNat, b := b.toNat, k := k.toNat, ew := ew.toNat, ga := rd s a, gb := rd s b }
    true (ewOk (vtNow s) ew false)

/-- `vldb` (R127, R129). -/
def execVldb (p : BitVec 1) (d a : BitVec 5) (ew : BitVec 2) (k : BitVec 3) (s : State) : Out :=
  vEnter s p (wordVldb p d a ew k)
    { vEntryOf s with op := .vldb, d := d.toNat, a := a.toNat, k := k.toNat, ew := ew.toNat, ga := rd s a }
    true (ewOk (vtNow s) ew false)

/-- `vst` (R127, R132). -/
def execVst (p : BitVec 1) (d a : BitVec 5) (ew : BitVec 2) (k : BitVec 3) (s : State) : Out :=
  vEnter s p (wordVst p d a ew k)
    { vEntryOf s with op := .vst, d := d.toNat, a := a.toNat, k := k.toNat, ew := ew.toNat, ga := rd s a }
    true (ewOk (vtNow s) ew true && (vtNow s != 5 || vlNow s % 2 == 0))

/-- `vsts` (R127, R132). -/
def execVsts (p : BitVec 1) (d a b : BitVec 5) (ew : BitVec 2) (k : BitVec 3) (s : State) : Out :=
  vEnter s p (wordVsts p d a b ew k)
    { vEntryOf s with op := .vsts, d := d.toNat, a := a.toNat, b := b.toNat, k := k.toNat, ew := ew.toNat, ga := rd s a, gb := rd s b }
    true (ewOk (vtNow s) ew false)

/-- `vstx` (R127, R132). -/
def execVstx (p : BitVec 1) (d a b : BitVec 5) (ew : BitVec 2) (k : BitVec 3) (s : State) : Out :=
  vEnter s p (wordVstx p d a b ew k)
    { vEntryOf s with op := .vstx, d := d.toNat, a := a.toNat, b := b.toNat, k := k.toNat, ew := ew.toNat, ga := rd s a }
    true (ewOk (vtNow s) ew false && d != b && indexLen s)

/-- `vstxa` (R127, R133). -/
def execVstxa (p : BitVec 1) (d a b : BitVec 5) (ew : BitVec 2) (k : BitVec 3) (s : State) : Out :=
  vEnter s p (wordVstxa p d a b ew k)
    { vEntryOf s with op := .vstxa, d := d.toNat, a := a.toNat, b := b.toNat, k := k.toNat, ew := ew.toNat, ga := rd s a }
    true ((vtNow s == 8 || vtNow s == 11) && ewOk (vtNow s) ew false && d != b && indexLen s)

/-- `vstxf` (R127, R133). -/
def execVstxf (p : BitVec 1) (d a b : BitVec 5) (ew : BitVec 2) (k : BitVec 3) (s : State) : Out :=
  vEnter s p (wordVstxf p d a b ew k)
    { vEntryOf s with op := .vstxf, d := d.toNat, a := a.toNat, b := b.toNat, k := k.toNat, ew := ew.toNat, ga := rd s a }
    true ((vtNow s == 0 || vtNow s == 9) && ewOk (vtNow s) ew false && d != b && indexLen s)

/-- `vadd` (R134). -/
def execVadd (d a b : BitVec 5) (k : BitVec 3) (sb : BitVec 1) (s : State) : Out :=
  vEnter s 0 (wordVadd d a b k sb)
    { vEntryOf s with op := .vadd, d := d.toNat, a := a.toNat, b := b.toNat, k := k.toNat, sb := sb == 1, gb := if sb = 1 then rd s b else 0 }
    true (isInt (vtNow s))

/-- `vsub` (R134). -/
def execVsub (d a b : BitVec 5) (k : BitVec 3) (sb : BitVec 1) (s : State) : Out :=
  vEnter s 0 (wordVsub d a b k sb)
    { vEntryOf s with op := .vsub, d := d.toNat, a := a.toNat, b := b.toNat, k := k.toNat, sb := sb == 1, gb := if sb = 1 then rd s b else 0 }
    true (isInt (vtNow s))

/-- `vmul` (R134). -/
def execVmul (d a b : BitVec 5) (k : BitVec 3) (sb : BitVec 1) (s : State) : Out :=
  vEnter s 0 (wordVmul d a b k sb)
    { vEntryOf s with op := .vmul, d := d.toNat, a := a.toNat, b := b.toNat, k := k.toNat, sb := sb == 1, gb := if sb = 1 then rd s b else 0 }
    true (isInt (vtNow s))

/-- `vmulh` (R134). -/
def execVmulh (d a b : BitVec 5) (k : BitVec 3) (sb : BitVec 1) (s : State) : Out :=
  vEnter s 0 (wordVmulh d a b k sb)
    { vEntryOf s with op := .vmulh, d := d.toNat, a := a.toNat, b := b.toNat, k := k.toNat, sb := sb == 1, gb := if sb = 1 then rd s b else 0 }
    true (isInt (vtNow s))

/-- `vmin` (R134). -/
def execVmin (d a b : BitVec 5) (k : BitVec 3) (sb : BitVec 1) (s : State) : Out :=
  vEnter s 0 (wordVmin d a b k sb)
    { vEntryOf s with op := .vmin, d := d.toNat, a := a.toNat, b := b.toNat, k := k.toNat, sb := sb == 1, gb := if sb = 1 then rd s b else 0 }
    true (isInt (vtNow s))

/-- `vmax` (R134). -/
def execVmax (d a b : BitVec 5) (k : BitVec 3) (sb : BitVec 1) (s : State) : Out :=
  vEnter s 0 (wordVmax d a b k sb)
    { vEntryOf s with op := .vmax, d := d.toNat, a := a.toNat, b := b.toNat, k := k.toNat, sb := sb == 1, gb := if sb = 1 then rd s b else 0 }
    true (isInt (vtNow s))

/-- `vminu` (R134). -/
def execVminu (d a b : BitVec 5) (k : BitVec 3) (sb : BitVec 1) (s : State) : Out :=
  vEnter s 0 (wordVminu d a b k sb)
    { vEntryOf s with op := .vminu, d := d.toNat, a := a.toNat, b := b.toNat, k := k.toNat, sb := sb == 1, gb := if sb = 1 then rd s b else 0 }
    true (isInt (vtNow s))

/-- `vmaxu` (R134). -/
def execVmaxu (d a b : BitVec 5) (k : BitVec 3) (sb : BitVec 1) (s : State) : Out :=
  vEnter s 0 (wordVmaxu d a b k sb)
    { vEntryOf s with op := .vmaxu, d := d.toNat, a := a.toNat, b := b.toNat, k := k.toNat, sb := sb == 1, gb := if sb = 1 then rd s b else 0 }
    true (isInt (vtNow s))

/-- `vsll` (R134). -/
def execVsll (d a b : BitVec 5) (k : BitVec 3) (sb : BitVec 1) (s : State) : Out :=
  vEnter s 0 (wordVsll d a b k sb)
    { vEntryOf s with op := .vsll, d := d.toNat, a := a.toNat, b := b.toNat, k := k.toNat, sb := sb == 1, gb := if sb = 1 then rd s b else 0 }
    true (isInt (vtNow s))

/-- `vsrl` (R134). -/
def execVsrl (d a b : BitVec 5) (k : BitVec 3) (sb : BitVec 1) (s : State) : Out :=
  vEnter s 0 (wordVsrl d a b k sb)
    { vEntryOf s with op := .vsrl, d := d.toNat, a := a.toNat, b := b.toNat, k := k.toNat, sb := sb == 1, gb := if sb = 1 then rd s b else 0 }
    true (isInt (vtNow s))

/-- `vsra` (R134). -/
def execVsra (d a b : BitVec 5) (k : BitVec 3) (sb : BitVec 1) (s : State) : Out :=
  vEnter s 0 (wordVsra d a b k sb)
    { vEntryOf s with op := .vsra, d := d.toNat, a := a.toNat, b := b.toNat, k := k.toNat, sb := sb == 1, gb := if sb = 1 then rd s b else 0 }
    true (isInt (vtNow s))

/-- `vsadd` (R134). -/
def execVsadd (d a b : BitVec 5) (k : BitVec 3) (sb : BitVec 1) (s : State) : Out :=
  vEnter s 0 (wordVsadd d a b k sb)
    { vEntryOf s with op := .vsadd, d := d.toNat, a := a.toNat, b := b.toNat, k := k.toNat, sb := sb == 1, gb := if sb = 1 then rd s b else 0 }
    true (isInt (vtNow s))

/-- `vssub` (R134). -/
def execVssub (d a b : BitVec 5) (k : BitVec 3) (sb : BitVec 1) (s : State) : Out :=
  vEnter s 0 (wordVssub d a b k sb)
    { vEntryOf s with op := .vssub, d := d.toNat, a := a.toNat, b := b.toNat, k := k.toNat, sb := sb == 1, gb := if sb = 1 then rd s b else 0 }
    true (isInt (vtNow s))

/-- `vmacc` (R134). -/
def execVmacc (d a b : BitVec 5) (k : BitVec 3) (sb : BitVec 1) (s : State) : Out :=
  vEnter s 0 (wordVmacc d a b k sb)
    { vEntryOf s with op := .vmacc, d := d.toNat, a := a.toNat, b := b.toNat, k := k.toNat, sb := sb == 1, gb := if sb = 1 then rd s b else 0 }
    true (isInt (vtNow s))

/-- `vand` (R134). -/
def execVand (d a b : BitVec 5) (k : BitVec 3) (sb : BitVec 1) (s : State) : Out :=
  vEnter s 0 (wordVand d a b k sb)
    { vEntryOf s with op := .vand, d := d.toNat, a := a.toNat, b := b.toNat, k := k.toNat, sb := sb == 1, gb := if sb = 1 then rd s b else 0 }
    true (isAnyType (vtNow s))

/-- `vor` (R134). -/
def execVor (d a b : BitVec 5) (k : BitVec 3) (sb : BitVec 1) (s : State) : Out :=
  vEnter s 0 (wordVor d a b k sb)
    { vEntryOf s with op := .vor, d := d.toNat, a := a.toNat, b := b.toNat, k := k.toNat, sb := sb == 1, gb := if sb = 1 then rd s b else 0 }
    true (isAnyType (vtNow s))

/-- `vxor` (R134). -/
def execVxor (d a b : BitVec 5) (k : BitVec 3) (sb : BitVec 1) (s : State) : Out :=
  vEnter s 0 (wordVxor d a b k sb)
    { vEntryOf s with op := .vxor, d := d.toNat, a := a.toNat, b := b.toNat, k := k.toNat, sb := sb == 1, gb := if sb = 1 then rd s b else 0 }
    true (isAnyType (vtNow s))

/-- `vdot4` (R134). -/
def execVdot4 (d a b : BitVec 5) (k : BitVec 3) (sb : BitVec 1) (s : State) : Out :=
  vEnter s 0 (wordVdot4 d a b k sb)
    { vEntryOf s with op := .vdot4, d := d.toNat, a := a.toNat, b := b.toNat, k := k.toNat, sb := sb == 1, gb := if sb = 1 then rd s b else 0 }
    true (vtNow s == 8)

/-- `vfadd` (R135). -/
def execVfadd (d a b : BitVec 5) (k : BitVec 3) (sb : BitVec 1) (s : State) : Out :=
  vEnter s 0 (wordVfadd d a b k sb)
    { vEntryOf s with op := .vfadd, d := d.toNat, a := a.toNat, b := b.toNat, k := k.toNat, sb := sb == 1, gb := if sb = 1 then rd s b else 0 }
    true (isFlt (vtNow s))

/-- `vfsub` (R135). -/
def execVfsub (d a b : BitVec 5) (k : BitVec 3) (sb : BitVec 1) (s : State) : Out :=
  vEnter s 0 (wordVfsub d a b k sb)
    { vEntryOf s with op := .vfsub, d := d.toNat, a := a.toNat, b := b.toNat, k := k.toNat, sb := sb == 1, gb := if sb = 1 then rd s b else 0 }
    true (isFlt (vtNow s))

/-- `vfmul` (R107, R135). -/
def execVfmul (d a b : BitVec 5) (k : BitVec 3) (sb : BitVec 1) (s : State) : Out :=
  vEnter s 0 (wordVfmul d a b k sb)
    { vEntryOf s with op := .vfmul, d := d.toNat, a := a.toNat, b := b.toNat, k := k.toNat, sb := sb == 1, gb := if sb = 1 then rd s b else 0 }
    true (isFlt (vtNow s))

/-- `vfdiv` (R135). -/
def execVfdiv (d a b : BitVec 5) (k : BitVec 3) (sb : BitVec 1) (s : State) : Out :=
  vEnter s 0 (wordVfdiv d a b k sb)
    { vEntryOf s with op := .vfdiv, d := d.toNat, a := a.toNat, b := b.toNat, k := k.toNat, sb := sb == 1, gb := if sb = 1 then rd s b else 0 }
    true (isFlt (vtNow s))

/-- `vfmin` (R107, R135). -/
def execVfmin (d a b : BitVec 5) (k : BitVec 3) (sb : BitVec 1) (s : State) : Out :=
  vEnter s 0 (wordVfmin d a b k sb)
    { vEntryOf s with op := .vfmin, d := d.toNat, a := a.toNat, b := b.toNat, k := k.toNat, sb := sb == 1, gb := if sb = 1 then rd s b else 0 }
    true (isFlt (vtNow s))

/-- `vfmax` (R107, R135). -/
def execVfmax (d a b : BitVec 5) (k : BitVec 3) (sb : BitVec 1) (s : State) : Out :=
  vEnter s 0 (wordVfmax d a b k sb)
    { vEntryOf s with op := .vfmax, d := d.toNat, a := a.toNat, b := b.toNat, k := k.toNat, sb := sb == 1, gb := if sb = 1 then rd s b else 0 }
    true (isFlt (vtNow s))

/-- `vfma` (R107, R135). -/
def execVfma (d a b : BitVec 5) (k : BitVec 3) (sb : BitVec 1) (s : State) : Out :=
  vEnter s 0 (wordVfma d a b k sb)
    { vEntryOf s with op := .vfma, d := d.toNat, a := a.toNat, b := b.toNat, k := k.toNat, sb := sb == 1, gb := if sb = 1 then rd s b else 0 }
    true (isFlt (vtNow s))

/-- `vfnma` (R135). -/
def execVfnma (d a b : BitVec 5) (k : BitVec 3) (sb : BitVec 1) (s : State) : Out :=
  vEnter s 0 (wordVfnma d a b k sb)
    { vEntryOf s with op := .vfnma, d := d.toNat, a := a.toNat, b := b.toNat, k := k.toNat, sb := sb == 1, gb := if sb = 1 then rd s b else 0 }
    true (isFlt (vtNow s))

/-- `vfsqrt` (R135). -/
def execVfsqrt (d a : BitVec 5) (k : BitVec 3) (s : State) : Out :=
  vEnter s 0 (wordVfsqrt d a k)
    { vEntryOf s with op := .vfsqrt, d := d.toNat, a := a.toNat, k := k.toNat } true (isFlt (vtNow s))

/-- `vfabs` (R135). -/
def execVfabs (d a : BitVec 5) (k : BitVec 3) (s : State) : Out :=
  vEnter s 0 (wordVfabs d a k)
    { vEntryOf s with op := .vfabs, d := d.toNat, a := a.toNat, k := k.toNat } true (isFlt (vtNow s))

/-- `vfneg` (R135). -/
def execVfneg (d a : BitVec 5) (k : BitVec 3) (s : State) : Out :=
  vEnter s 0 (wordVfneg d a k)
    { vEntryOf s with op := .vfneg, d := d.toNat, a := a.toNat, k := k.toNat } true (isFlt (vtNow s))

/-- `vceq` (R136). -/
def execVceq (d a b : BitVec 5) (k : BitVec 3) (sb : BitVec 1) (s : State) : Out :=
  vEnter s 0 (wordVceq d a b k sb)
    { vEntryOf s with op := .vceq, d := d.toNat, a := a.toNat, b := b.toNat, k := k.toNat, sb := sb == 1, gb := if sb = 1 then rd s b else 0 }
    (maskOk d) (isAnyType (vtNow s))

/-- `vcne` (R136). -/
def execVcne (d a b : BitVec 5) (k : BitVec 3) (sb : BitVec 1) (s : State) : Out :=
  vEnter s 0 (wordVcne d a b k sb)
    { vEntryOf s with op := .vcne, d := d.toNat, a := a.toNat, b := b.toNat, k := k.toNat, sb := sb == 1, gb := if sb = 1 then rd s b else 0 }
    (maskOk d) (isAnyType (vtNow s))

/-- `vclt` (R136). -/
def execVclt (d a b : BitVec 5) (k : BitVec 3) (sb : BitVec 1) (s : State) : Out :=
  vEnter s 0 (wordVclt d a b k sb)
    { vEntryOf s with op := .vclt, d := d.toNat, a := a.toNat, b := b.toNat, k := k.toNat, sb := sb == 1, gb := if sb = 1 then rd s b else 0 }
    (maskOk d) (isInt (vtNow s))

/-- `vcle` (R136). -/
def execVcle (d a b : BitVec 5) (k : BitVec 3) (sb : BitVec 1) (s : State) : Out :=
  vEnter s 0 (wordVcle d a b k sb)
    { vEntryOf s with op := .vcle, d := d.toNat, a := a.toNat, b := b.toNat, k := k.toNat, sb := sb == 1, gb := if sb = 1 then rd s b else 0 }
    (maskOk d) (isInt (vtNow s))

/-- `vcltu` (R136). -/
def execVcltu (d a b : BitVec 5) (k : BitVec 3) (sb : BitVec 1) (s : State) : Out :=
  vEnter s 0 (wordVcltu d a b k sb)
    { vEntryOf s with op := .vcltu, d := d.toNat, a := a.toNat, b := b.toNat, k := k.toNat, sb := sb == 1, gb := if sb = 1 then rd s b else 0 }
    (maskOk d) (isInt (vtNow s))

/-- `vcleu` (R136). -/
def execVcleu (d a b : BitVec 5) (k : BitVec 3) (sb : BitVec 1) (s : State) : Out :=
  vEnter s 0 (wordVcleu d a b k sb)
    { vEntryOf s with op := .vcleu, d := d.toNat, a := a.toNat, b := b.toNat, k := k.toNat, sb := sb == 1, gb := if sb = 1 then rd s b else 0 }
    (maskOk d) (isInt (vtNow s))

/-- `vfceq` (R136). -/
def execVfceq (d a b : BitVec 5) (k : BitVec 3) (sb : BitVec 1) (s : State) : Out :=
  vEnter s 0 (wordVfceq d a b k sb)
    { vEntryOf s with op := .vfceq, d := d.toNat, a := a.toNat, b := b.toNat, k := k.toNat, sb := sb == 1, gb := if sb = 1 then rd s b else 0 }
    (maskOk d) (isFlt (vtNow s))

/-- `vfclt` (R136). -/
def execVfclt (d a b : BitVec 5) (k : BitVec 3) (sb : BitVec 1) (s : State) : Out :=
  vEnter s 0 (wordVfclt d a b k sb)
    { vEntryOf s with op := .vfclt, d := d.toNat, a := a.toNat, b := b.toNat, k := k.toNat, sb := sb == 1, gb := if sb = 1 then rd s b else 0 }
    (maskOk d) (isFlt (vtNow s))

/-- `vfcle` (R136). -/
def execVfcle (d a b : BitVec 5) (k : BitVec 3) (sb : BitVec 1) (s : State) : Out :=
  vEnter s 0 (wordVfcle d a b k sb)
    { vEntryOf s with op := .vfcle, d := d.toNat, a := a.toNat, b := b.toNat, k := k.toNat, sb := sb == 1, gb := if sb = 1 then rd s b else 0 }
    (maskOk d) (isFlt (vtNow s))

/-- `vfcun` (R136). -/
def execVfcun (d a b : BitVec 5) (k : BitVec 3) (sb : BitVec 1) (s : State) : Out :=
  vEnter s 0 (wordVfcun d a b k sb)
    { vEntryOf s with op := .vfcun, d := d.toNat, a := a.toNat, b := b.toNat, k := k.toNat, sb := sb == 1, gb := if sb = 1 then rd s b else 0 }
    (maskOk d) (isFlt (vtNow s))

/-- `mand` (R137). -/
def execMand (d a b : BitVec 5) (s : State) : Out :=
  vEnter s 0 (wordMand d a b)
    { vEntryOf s with op := .mand, d := d.toNat, a := a.toNat, b := b.toNat } (maskOk d && maskOk a && maskOk b) true

/-- `mor` (R137). -/
def execMor (d a b : BitVec 5) (s : State) : Out :=
  vEnter s 0 (wordMor d a b)
    { vEntryOf s with op := .mor, d := d.toNat, a := a.toNat, b := b.toNat } (maskOk d && maskOk a && maskOk b) true

/-- `mxor` (R137). -/
def execMxor (d a b : BitVec 5) (s : State) : Out :=
  vEnter s 0 (wordMxor d a b)
    { vEntryOf s with op := .mxor, d := d.toNat, a := a.toNat, b := b.toNat } (maskOk d && maskOk a && maskOk b) true

/-- `mandn` (R137). -/
def execMandn (d a b : BitVec 5) (s : State) : Out :=
  vEnter s 0 (wordMandn d a b)
    { vEntryOf s with op := .mandn, d := d.toNat, a := a.toNat, b := b.toNat } (maskOk d && maskOk a && maskOk b) true

/-- `mnot` (R137). -/
def execMnot (d a : BitVec 5) (s : State) : Out :=
  vEnter s 0 (wordMnot d a) { vEntryOf s with op := .mnot, d := d.toNat, a := a.toNat } (maskOk d && maskOk a) true

/-- `mpop` (R137). -/
def execMpop (d a : BitVec 5) (k : BitVec 3) (s : State) : Out :=
  vEnter s 0 (wordMpop d a k)
    { vEntryOf s with op := .mpop, d := d.toNat, a := a.toNat, k := k.toNat } (maskOk a) true

/-- `mfirst` (R137). -/
def execMfirst (d a : BitVec 5) (k : BitVec 3) (s : State) : Out :=
  vEnter s 0 (wordMfirst d a k)
    { vEntryOf s with op := .mfirst, d := d.toNat, a := a.toNat, k := k.toNat } (maskOk a) true

/-- `miota` (R137). -/
def execMiota (d a : BitVec 5) (k : BitVec 3) (s : State) : Out :=
  vEnter s 0 (wordMiota d a k)
    { vEntryOf s with op := .miota, d := d.toNat, a := a.toNat, k := k.toNat } (maskOk a) (isInt (vtNow s))

/-- `mset` (R137). -/
def execMset (d a : BitVec 5) (s : State) : Out :=
  vEnter s 0 (wordMset d a) { vEntryOf s with op := .mset, d := d.toNat, a := a.toNat, ga := rd s a } (maskOk d) true

/-- `vredsum` (R107, R138). -/
def execVredsum (d a b : BitVec 5) (k : BitVec 3) (sb : BitVec 1) (s : State) : Out :=
  vEnter s 0 (wordVredsum d a b k sb)
    { vEntryOf s with op := .vredsum, d := d.toNat, a := a.toNat, b := b.toNat, k := k.toNat, sb := sb == 1, gb := if sb = 1 then rd s b else 0 }
    true (isInt (vtNow s))

/-- `vredmin` (R107, R138). -/
def execVredmin (d a b : BitVec 5) (k : BitVec 3) (sb : BitVec 1) (s : State) : Out :=
  vEnter s 0 (wordVredmin d a b k sb)
    { vEntryOf s with op := .vredmin, d := d.toNat, a := a.toNat, b := b.toNat, k := k.toNat, sb := sb == 1, gb := if sb = 1 then rd s b else 0 }
    true (isInt (vtNow s))

/-- `vredmax` (R107, R138). -/
def execVredmax (d a b : BitVec 5) (k : BitVec 3) (sb : BitVec 1) (s : State) : Out :=
  vEnter s 0 (wordVredmax d a b k sb)
    { vEntryOf s with op := .vredmax, d := d.toNat, a := a.toNat, b := b.toNat, k := k.toNat, sb := sb == 1, gb := if sb = 1 then rd s b else 0 }
    true (isInt (vtNow s))

/-- `vfredo` (R105, R138). -/
def execVfredo (d a b : BitVec 5) (k : BitVec 3) (sb : BitVec 1) (s : State) : Out :=
  vEnter s 0 (wordVfredo d a b k sb)
    { vEntryOf s with op := .vfredo, d := d.toNat, a := a.toNat, b := b.toNat, k := k.toNat, sb := sb == 1, gb := if sb = 1 then rd s b else 0 }
    true (isFlt (vtNow s))

/-- `vfredmin` (R107, R138). -/
def execVfredmin (d a b : BitVec 5) (k : BitVec 3) (sb : BitVec 1) (s : State) : Out :=
  vEnter s 0 (wordVfredmin d a b k sb)
    { vEntryOf s with op := .vfredmin, d := d.toNat, a := a.toNat, b := b.toNat, k := k.toNat, sb := sb == 1, gb := if sb = 1 then rd s b else 0 }
    true (isFlt (vtNow s))

/-- `vfredmax` (R107, R138). -/
def execVfredmax (d a b : BitVec 5) (k : BitVec 3) (sb : BitVec 1) (s : State) : Out :=
  vEnter s 0 (wordVfredmax d a b k sb)
    { vEntryOf s with op := .vfredmax, d := d.toNat, a := a.toNat, b := b.toNat, k := k.toNat, sb := sb == 1, gb := if sb = 1 then rd s b else 0 }
    true (isFlt (vtNow s))

/-- `vfredt` (R106, R139). -/
def execVfredt (d a b : BitVec 5) (k : BitVec 3) (sb : BitVec 1) (s : State) : Out :=
  vEnter s 0 (wordVfredt d a b k sb)
    { vEntryOf s with op := .vfredt, d := d.toNat, a := a.toNat, b := b.toNat, k := k.toNat, sb := sb == 1, gb := if sb = 1 then rd s b else 0 }
    true (isFlt (vtNow s) && (sb == 1 || d != b))

/-- `vslup` (R140). -/
def execVslup (d a b : BitVec 5) (k : BitVec 3) (s : State) : Out :=
  vEnter s 0 (wordVslup d a b k)
    { vEntryOf s with op := .vslup, d := d.toNat, a := a.toNat, b := b.toNat, k := k.toNat, gb := rd s b }
    true (isAnyType (vtNow s) && d != a)

/-- `vsldn` (R140). -/
def execVsldn (d a b : BitVec 5) (k : BitVec 3) (s : State) : Out :=
  vEnter s 0 (wordVsldn d a b k)
    { vEntryOf s with op := .vsldn, d := d.toNat, a := a.toNat, b := b.toNat, k := k.toNat, gb := rd s b }
    true (isAnyType (vtNow s) && d != a)

/-- `vrgather` (R140). -/
def execVrgather (d a b : BitVec 5) (k : BitVec 3) (s : State) : Out :=
  vEnter s 0 (wordVrgather d a b k)
    { vEntryOf s with op := .vrgather, d := d.toNat, a := a.toNat, b := b.toNat, k := k.toNat }
    true (isAnyType (vtNow s) && d != a && d != b)

/-- `vcompress` (R140). -/
def execVcompress (d a : BitVec 5) (k : BitVec 3) (s : State) : Out :=
  vEnter s 0 (wordVcompress d a k)
    { vEntryOf s with op := .vcompress, d := d.toNat, a := a.toNat, k := k.toNat }
    true (isAnyType (vtNow s) && d != a)

/-- `vbcast` (R140). -/
def execVbcast (d a b : BitVec 5) (k : BitVec 3) (s : State) : Out :=
  vEnter s 0 (wordVbcast d a b k)
    { vEntryOf s with op := .vbcast, d := d.toNat, a := a.toNat, b := b.toNat, k := k.toNat, gb := rd s b }
    true (isAnyType (vtNow s))

/-- `vmvgv` (R140). -/
def execVmvgv (d a b : BitVec 5) (s : State) : Out :=
  vEnter s 0 (wordVmvgv d a b)
    { vEntryOf s with op := .vmvgv, d := d.toNat, a := a.toNat, b := b.toNat, ga := rd s a, gb := rd s b }
    true (isAnyType (vtNow s))

/-- `vmvvg` (R140). -/
def execVmvvg (d a b : BitVec 5) (s : State) : Out :=
  vEnter s 0 (wordVmvvg d a b)
    { vEntryOf s with op := .vmvvg, d := d.toNat, a := a.toNat, b := b.toNat, gb := rd s b }
    true (isAnyType (vtNow s))

/-- `vid` (R140). -/
def execVid (d : BitVec 5) (k : BitVec 3) (s : State) : Out :=
  vEnter s 0 (wordVid d k) { vEntryOf s with op := .vid, d := d.toNat, k := k.toNat } true (isInt (vtNow s))

/-- `vmerge` (R140). -/
def execVmerge (d a b : BitVec 5) (k : BitVec 3) (sb : BitVec 1) (s : State) : Out :=
  vEnter s 0 (wordVmerge d a b k sb)
    { vEntryOf s with op := .vmerge, d := d.toNat, a := a.toNat, b := b.toNat, k := k.toNat, sb := sb == 1, gb := if sb = 1 then rd s b else 0 }
    true (isAnyType (vtNow s))

/-- `vmv` (R140). -/
def execVmv (d b : BitVec 5) (k : BitVec 3) (sb : BitVec 1) (s : State) : Out :=
  vEnter s 0 (wordVmv d b k sb)
    { vEntryOf s with op := .vmv, d := d.toNat, b := b.toNat, k := k.toNat, sb := sb == 1, gb := if sb = 1 then rd s b else 0 }
    true (isAnyType (vtNow s))

/-- `vcvt_n` (R141). -/
def execVcvtN (d a t : BitVec 5) (k : BitVec 3) (s : State) : Out :=
  vEnter s 0 (wordVcvtN d a t k)
    { vEntryOf s with op := .vcvtN, d := d.toNat, a := a.toNat, b := t.toNat, k := k.toNat }
    true (narrows (vtNow s) t.toNat && d != a && decide (vlNow s ≤ mvlOf (rowsNow s) t.toNat))

/-- `vcvt_w` (R141). -/
def execVcvtW (d a t : BitVec 5) (k : BitVec 3) (s : State) : Out :=
  vEnter s 0 (wordVcvtW d a t k)
    { vEntryOf s with op := .vcvtW, d := d.toNat, a := a.toNat, b := t.toNat, k := k.toNat }
    true (widens (vtNow s) t.toNat && d != a && decide (vlNow s ≤ mvlOf (rowsNow s) t.toNat))

/-- `vcvt_fi` (R141). -/
def execVcvtFi (d a t : BitVec 5) (k : BitVec 3) (s : State) : Out :=
  vEnter s 0 (wordVcvtFi d a t k)
    { vEntryOf s with op := .vcvtFi, d := d.toNat, a := a.toNat, b := t.toNat, k := k.toNat }
    true (toInts (vtNow s) t.toNat)

/-- `vcvt_if` (R141). -/
def execVcvtIf (d a t : BitVec 5) (k : BitVec 3) (s : State) : Out :=
  vEnter s 0 (wordVcvtIf d a t k)
    { vEntryOf s with op := .vcvtIf, d := d.toNat, a := a.toNat, b := t.toNat, k := k.toNat }
    true (toFloats (vtNow s) t.toNat)

/-- `vcvt_q4` (R142). -/
def execVcvtQ4 (d a b : BitVec 5) (s : State) : Out :=
  vEnter s 0 (wordVcvtQ4 d a b)
    { vEntryOf s with op := .vcvtQ4, d := d.toNat, a := a.toNat, b := b.toNat }
    true (vtNow s == 0 && d != a && d != b && a != b)

/-- `vcvt_q8` (R142). -/
def execVcvtQ8 (d a b : BitVec 5) (s : State) : Out :=
  vEnter s 0 (wordVcvtQ8 d a b)
    { vEntryOf s with op := .vcvtQ8, d := d.toNat, a := a.toNat, b := b.toNat }
    true (vtNow s == 0 && d != a && d != b && a != b)

/-! ### Cuts (R121, R123) -/

/-- A cut of the instruction at the head of a queue at its next element: `VRS`, and the pc names its bundle; what stands
behind it has not executed (R121). -/
def vCut (s : State) (tid : Nat) : State :=
  match (th s tid).v.queue with
  | [] => s
  | e :: _ =>
    let t := th s tid
    setTh s tid { t with
      pc := e.pc, from_ := none, hold := none,
      v := { t.v with queue := [], vrs := BitVec.ofNat 64 (2 ^ 63 + 2 ^ 62 * e.slot + e.elem) } }

/-- A reduction that has not begun performs its first element or addition: it is cut after one (R138, R139). -/
def redBegun (s : State) (tid : Nat) : State :=
  match (th s tid).v.queue with
  | [] => s
  | e :: _ =>
    if e.op.isRed ∧ e.beats = 0 ∧ !e.cont then
      let (s, e) := redRun s tid e 1
      setHead s tid e
    else s

/-- Has a load or reduction no element or addition left? It completes, and is not cut: there is no next one. -/
def VEntry.atEnd (s : State) (tid : Nat) (e : VEntry) : Bool :=
  if e.op.isRed then redSteps e ≤ e.elem else (e.nextActive s tid e.elem).isNone

/-- Before an interrupt, an asynchronous trap or a stop: a running load or reduction is cut; `none` while a streaming
instruction, or one that runs to its end, is still to complete (R123). `n` bounds the completions. -/
def vQuietBy (n : Nat) (s : State) (tid : Nat) : Option State :=
  match (th s tid).v.queue with
  | [] => some s
  | e :: _ =>
    if !e.op.canCut then none
    else
      let s := redBegun s tid
      match n, (th s tid).v.queue with
      | k + 1, e :: _ => if e.atEnd s tid then vQuietBy k (vRun (popHead s tid) tid 8) tid else some (vCut s tid)
      | _, _ => some (vCut s tid)

/-- The vector queue made quiet for an interrupt, an asynchronous trap or a stop (R123). -/
def vQuiet (s : State) (tid : Nat) : Option State := vQuietBy 8 s tid

/-! ### Beats (R119) -/

/-- Is the queue of a Parked or Dropped thread emptied for a stop, an interrupt or an asynchronous trap (R77, R123)? -/
def emptied (s : State) (tid : Nat) : Bool :=
  let t := th s tid
  (t.state == .parked || t.state == .dropped) && (t.stop.isSome || t.asyncDue.isSome || (nextInt s tid).isSome)

/-- Is a slot eligible for a beat (R119, R123)? -/
def laneReady (s : State) (tid : Nat) : Bool :=
  let t := th s tid
  (t.state == .ready || emptied s tid) && (match t.v.queue with | e :: _ => e.op.isLane | [] => false)

/-- The steps of a reduction that one beat performs: a row of elements, or for `vfredo` the next active element
(log 8). -/
def beatSteps (s : State) (tid : Nat) (e : VEntry) : Nat :=
  if e.op = .vfredo then (match e.nextActive s tid e.elem with | some i => i + 1 - e.elem | none => e.vl)
  else 1024 / e.width

/-- One beat of the instruction at the head of a slot's queue. -/
def vBeat (s : State) (tid : Nat) (e : VEntry) : State :=
  let n := e.beats + 1
  if beatsOf s tid e ≤ n then
    let s := if e.op.isRed then (redRun s tid e (redSteps e)).1 else vPerform s tid e
    vRun (popHead s tid) tid 8
  else if e.op.isRed then
    let (s, e) := redRun s tid e (beatSteps s tid e)
    setHead s tid { e with beats := n }
  else setHead s tid { e with beats := n }

/-- `LANE_BEAT`: one beat of a core's lane array, for the first eligible slot after the one granted last (R119). -/
def execLaneBeat (core : Nat) (s : State) : Out :=
  let c := co s core
  match (List.range 16).find? fun k => laneReady s (core * 16 + (c.lane + 1 + k) % 16) with
  | none => .next s
  | some k =>
    let slot := (c.lane + 1 + k) % 16
    match (th s (core * 16 + slot)).v.queue with
    | [] => .next s
    | e :: _ => .next (vBeat (setCo s core { c with lane := slot }) (core * 16 + slot) e)

/-! ### Element accesses (R127-R133) -/

/-- Bytes of a memory element: a pair of 4-bit elements shares one byte (R127). -/
def VEntry.bytes (e : VEntry) : Nat := if e.width = 4 then 1 else e.width / 8

/-- The address of element `i` (R127). -/
def elemAddr (s : State) (tid : Nat) (e : VEntry) (i : Nat) : Word :=
  match e.op with
  | .vlds | .vsts => e.ga + BitVec.ofNat 64 i * e.gb
  | .vldx | .vstx | .vstxa | .vstxf => e.ga + BitVec.ofInt 64 (sgn 32 (vGet s tid e.b 32 i))
  | .vldb => e.ga
  | _ => e.ga + BitVec.ofNat 64 (if e.width = 4 then i / 2 else i * e.bytes)

/-- The instruction at the head has made its last access. -/
def vDone (s : State) (tid : Nat) : State := vRun (popHead s tid) tid 8

/-- Where a vector load's element reads (R128). -/
inductive ElemAt where
  | ok (l : Loc) (pbmt : Nat) (s : State)
  | refused
  | xl (x : Xl)

def elemAt (s : State) (tid : Nat) (e : VEntry) (addr : Word) : ElemAt :=
  match e.vmt with
  | 1 => if addr.toNat + e.bytes ≤ spSize s (coreOf tid) then .ok (.spad (coreOf tid) addr.toNat) 0 s else .refused
  | 2 => match peerLoc s tid addr e.bytes with | some l => .ok l 0 s | none => .refused
  | _ =>
    let w : Who := { ctx := (th s tid).ctx, priv := e.priv, core := coreOf tid, tid := tid }
    match xlateBy (if e.op == .vldx then .gather else .core) s w addr .load with
    | (.ok l _ pb, s) => .ok l pb s
    | (x, _) => .xl x

/-- A cut, then a trap or drop of the thread at the cut point, with the word's slot (R121, R129). -/
def cutThen (s : State) (tid : Nat) (e : VEntry) (f : State → State) : State :=
  let s := { asThread (vCut s tid) tid with slot := e.slot }
  { f s with slot := 0 }

/-- The value of a loaded element put into the register, and the element passed. -/
def vLoaded (s : State) (tid : Nat) (e : VEntry) (i v : Nat) : State :=
  match e.op with
  | .vldb =>
    let m := e.mask s tid
    vDone (vEach s tid e.d e.width e.vl (fun k => m.getLsbD k) fun _ _ => (v, 0)) tid
  | _ =>
    let v := if e.width = 4 then (if i % 2 = 0 then v % 16 else v / 16) else v
    setHead (vPut s tid e.d e.width i v) tid { e with elem := i + 1 }

/-- The access of element `i` of a vector load, its guard having admitted it (R129, R130). -/
def vLoadElem (s : State) (tid : Nat) (e : VEntry) (i : Nat) : State :=
  let addr := elemAddr s tid e i
  let short := e.op == .vldff && (match e.nextActive s tid 0 with | some f => f < i | none => false)
  let cut (s : State) : State := vDone (setV s tid { (th s tid).v with vl := i }) tid
  if addr.toNat % e.bytes ≠ 0 then cutThen s tid e fun s => raise s 5 addr
  else match elemAt s tid e addr with
    | .refused => if short then cut s else cutThen s tid e fun s => raise s 6 addr
    | .xl (.error) => cutThen s tid e fun s => raise s 9 addr
    | .xl x => if short then cut s else cutThen s tid e fun s => xlFail s addr .load 2 x
    | .ok l pb s =>
      match readLoc s tid addr l e.bytes pb with
      | .hold s => s
      | .ends s => s
      | .failed c s => if short ∧ c = 6 then cut s else cutThen s tid e fun s => raise s c addr
      | .value v s => vLoaded s tid e i v

/-- The threshold of a guarded element (R131). -/
def guardThr (e : VEntry) (addr : Word) : Word :=
  (addr - e.wbase).sshiftRight (Nat.log2 e.bytes) + 1 + e.gb

/-- The guard of element `i` of a `vldg`: the element proceeds with an acquire, or the instruction is cut and the thread
parks (R131). -/
def vGuard (s : State) (tid : Nat) (e : VEntry) (i : Nat) : State :=
  let s := asThread s tid
  let c : Word := BitVec.ofNat 64 (e.wctr.toNat / 8 * 8)
  let thr := guardThr e (elemAddr s tid e i)
  let sc := e.wctr.toNat % 8
  match ctrFind s c .load 0 with
  | .fault r _ => cutThen s tid e fun s => counterFault s c r
  | .ends _ => cutThen s tid e fun s => match ctrFind s c .load 0 with | .ends s => s | _ => s
  | .at_ l s =>
    match ctrValue s c l with
    | .hold s => s
    | .ends _ => cutThen s tid e fun s => match ctrValue s c l with | .ends s => s | _ => s
    | .value v s =>
      if met v thr then vLoadElem (acquire s (coreOf tid) sc) tid e i
      else cutThen s tid e fun s => park s c thr sc l v true 2

/-- One element of a vector store put into the store queue (R127, R132, R133); the element waits while the queue is
full (R244). A pair of 4-bit elements shares a byte, and its entry carries the index of the lowest active one (DESIGN
CHOICE, log 63). -/
def vStoreElem (s : State) (tid : Nat) (e : VEntry) (i : Nat) : State :=
  let addr := elemAddr s tid e i
  let op : Rmw := match e.op with | .vstxa => .add | .vstxf => .fadd | _ => .put
  let pair := e.width == 4
  let data := if pair then vGet s tid e.d 8 (i / 2) else vGet s tid e.d e.width i
  let space : Space := match e.vmt with | 1 => .scratch | 2 => .peer | _ => .global
  let both := pair && i % 2 == 0 && i + 1 < e.vl && (maskGet s tid e.k).getLsbD (i + 1)
  let x : Store := { seq := 0, op := op, float := op == .fadd, space := space, addr := addr, off := addr.toNat,
                     width := e.bytes, data := BitVec.ofNat 64 data, elem := i, nelem := if both then 2 else 1, vec := true,
                     gather := e.op != .vst && e.op != .vsts,
                     pc := e.pc, slot := e.slot, word := e.word, priv := e.priv }
  if 64 < entriesOf ((th s tid).stores ++ [x]) then s
  else setHead (queueStore s tid x (e.seq + 1 + i)) tid { e with elem := if pair then i / 2 * 2 + 2 else i + 1 }

/-- `VECTOR_ELEMENT_ACCESS`: the next element of the vector load or store at the head of a thread's queue (R129-R133); a load
reads after every earlier scalar access of its thread (R118). -/
def execVectorElementAccess (tid : Nat) (s : State) : Out :=
  let t := th s tid
  match t.v.queue with
  | [] => .next s
  | e :: _ =>
    if e.op.isLane ∨ (e.op.isLoad ∧ (t.state ≠ .ready ∨ scalarBefore s tid e.seq)) then .next s
    else match e.nextActive s tid e.elem with
      | none => .next (vDone s tid)
      | some i =>
        .next (if e.op.isStore then vStoreElem s tid e i
          else
            let e := { e with elem := if e.op = .vldb then 0 else i }
            if e.op = .vldg then vGuard (setHead s tid e) tid e i else vLoadElem (setHead s tid e) tid e i)

end Sys2Proof.Machine
end

