-- ==== Sys2Proof/Machine/Tile.lean ====
section
/-! DEFINITION. Tiles and the Marver: the holder, the TILE words, the command queues, the arbiter, the steps of a command
and tile faults (R143-R174). -/

namespace Sys2Proof.Machine

/-! ### Tile state and its holder (R143-R147) -/

/-- Key of a cell. -/
def tKey (core t i j : Nat) : Nat := core * 2 ^ 15 + t * 2 ^ 13 + i * 64 + j

/-- Cell (i, j) of a tile register (R143). -/
def cell (s : State) (core t i j : Nat) : Nat := (tget s.tiles (tKey core t i j) 0).toNat

def setCell (s : State) (core t i j v : Nat) : State :=
  { s with tiles := tput s.tiles (tKey core t i j) (BitVec.ofNat 32 v) }

/-- Every cell of a tile register set to zero (R162). -/
def zeroTile (s : State) (core t : Nat) : State :=
  { s with tiles := s.tiles.filter fun e => e.1 / 2 ^ 13 ≠ core * 4 + t }

/-- A tile-state reset (R144). -/
def tileReset (s : State) (core : Nat) : State :=
  let s := setCo s core { co s core with cfg := {} }
  { s with tiles := s.tiles.filter fun e => e.1 / 2 ^ 15 ≠ core }

/-- Tile state of a core was written: the held data, and the holding slot's TS, become Dirty (R146, R147). -/
def tileDirty (s : State) (core : Nat) : State :=
  let c := co s core
  if c.town.hv then
    let s := setCo s core { c with town := { c.town with hts := 3 } }
    let h := core * 16 + c.town.hold
    if (th s h).ts = 0 then s else setTh s h { th s h with ts := 3 }
  else s

/-- `tile.rel`, or the end of a thread: a slot whose TS is not Off gives up the hold with a tile-state reset
(R147, R171). -/
def tileRelease (s : State) (tid : Nat) : State :=
  if (th s tid).ts = 0 then s
  else
    let s := tileReset s (coreOf tid)
    let s := setCo s (coreOf tid) { co s (coreOf tid) with town := {} }
    setTh s tid { th s tid with ts := 0 }

/-- `TOWN.XC` as a thread's context sees it (R148). -/
def tileXc (s : State) (tid : Nat) : Bool :=
  let w := (co s (coreOf tid)).town
  w.hv && w.vmid != (cx s (th s tid).ctx).vmid

/-- The trap of a TILE word or of an access to `TM` to `TCC`: tile unavailable at user privilege, virtual instruction at
supervisor privilege on another context's hold (R145, R146, R158). -/
def tileGate (s : State) (w : Nat) (rel : Bool) : Option State :=
  match (me s).priv with
  | .user => if (me s).ts = 0 ∧ !rel then some (raise s 12 (BitVec.ofNat 64 w)) else none
  | .sup => if tileXc s s.cur then some (raise s 4 (BitVec.ofNat 64 w)) else none
  | .hyp => none

/-! ### The command queue of a core (R149, R151) -/

def tq (s : State) (core : Nat) : List TileCmd := (co s core).tq
def setTq (s : State) (core : Nat) (q : List TileCmd) : State := setCo s core { co s core with tq := q }

/-- The command that runs, or that may run next: the first of a slot whose `AFCODE.V` is 0, and none while a fault of the
core waits to be reported (R84, R149, R173). -/
def tqNext (s : State) (core : Nat) : Option Nat :=
  match (tq s core).findIdx? (·.started) with
  | some k => some k
  | none => if (co s core).tfault.isSome then none else (tq s core).findIdx? fun c => !(afBusy s c.tid)

/-- Commands that the Marver runs while their thread goes on (R160). -/
def TOp.streams (o : TOp) : Bool :=
  match o with
  | .tileZero | .tileMma | .tileMmax | .tileGmma | .tileQ | .tileChol | .tileTrsm => true
  | _ => false

/-- Commands that the Marver performs, for which its arbiter grants (R150, R152): the streaming ones, and the copies of a row
to and from a vector register. -/
def TOp.marver (o : TOp) : Bool :=
  match o with
  | .tileRowv | .tileVrow => true
  | o => o.streams

/-- Commands that read operands from scratchpads as they run (R154, R166, R167). -/
def TOp.gathers (o : TOp) : Bool :=
  match o with
  | .tileMma | .tileMmax | .tileGmma => true
  | _ => false

/-- What a TILE word captures (R151). -/
def tileCmdOf (s : State) (op : TOp) (t : BitVec 2) (c : BitVec 1) (a b : BitVec 5) (y : BitVec 4) (w : Nat) : TileCmd :=
  let m := me s
  { op := op, t := t.toNat, c := c == 1, a := a.toNat, b := b.toNat, y := y.toNat, tid := s.cur, pc := m.pc,
    ga := rd s a, gb := rd s b, cfg := (co s (coreOf s.cur)).cfg, fmt := m.u.fmt, scb := m.u.scb, vt := vtNow s,
    priv := m.priv, ctx := m.ctx, word := w, seq := s.order }

/-- A streaming word enters the queue, or holds its thread while the queue is full or behind a vector store (R118, R149, R160). -/
def tileEnter (s : State) (p : BitVec 1) (c : TileCmd) : State :=
  let q := tq s (coreOf s.cur)
  if vstPending (me s) ∨ 16 ≤ q.length then held s else finish (setTq s (coreOf s.cur) (q ++ [c])) p

/-! ### Completion and faults (R161, R172, R173) -/

def cmdWho (c : TileCmd) : Who := { ctx := c.ctx, priv := c.priv, core := coreOf c.tid, tid := c.tid }

/-- Does a command write tile state? -/
def TOp.writes (o : TOp) : Bool :=
  match o with
  | .tileSt | .tileStx | .tileStxa | .tileRowv | .tileQ | .tileRel => false
  | _ => true

/-- After commands have left a core's queue: the position's grants end when the queue is empty (R150), and the tile state of
an ended thread is then released (R147, R174). -/
def tileSettle (s : State) (core : Nat) : State :=
  if !(tq s core).isEmpty then s
  else
    let b := tget s.benches (benchOf core) {}
    let s := if coreAt (benchOf core) b.last = core ∧ b.left ≠ 0 then
        { s with benches := tput s.benches (benchOf core) { b with left := 0 } }
      else s
    if (co s core).relPending then
      let s := tileReset s core
      setCo s core { co s core with town := {}, relPending := false }
    else s

/-- A command leaves the queue and, when the Marver has started it, the Marver. -/
def tileLeave (s : State) (core k : Nat) (c : TileCmd) : State :=
  let s := setTq s core (ldel (tq s core) k)
  let b := tget s.benches (benchOf core) {}
  tileSettle (if c.op.marver ∧ c.started then
      { s with benches := tput s.benches (benchOf core) { b with running := none } }
    else s) core

/-- The record of a tile fault (R84, R172). -/
def tileRec (c : TileCmd) (code : Nat) (addr : Word) (progress index : Nat) : AfRec :=
  { src := 1, code := code, pc := c.pc, ga := c.ga, gb := c.gb, gd := 0, addr := addr, progress := progress,
    index := index, word := c.word }

/-- The report of a cancelled command's fault; the later commands of its slot are discarded (R84, R173). -/
def tileTell (s : State) (core : Nat) (c : TileCmd) (code : Nat) (addr : Word) (progress index : Nat) : State :=
  if c.orphan then s
  else
    let s := tileSettle (setTq s core ((tq s core).filter fun x => x.tid ≠ c.tid)) core
    afReport (orFlags s c.tid c.flags) c.tid (tileRec c code addr progress index)

/-- A tile fault of the k-th command of a core: reported at once, or when `AFCODE.V` of its thread is 0. Until then a
streaming command keeps the Marver, and nothing further starts (R84, R173). -/
def tileFault (s : State) (core k : Nat) (c : TileCmd) (code : Nat) (addr : Word) (progress index : Nat) : State :=
  if afBusy s c.tid ∧ !c.orphan then
    let s := if c.op.streams then s else tileLeave s core k c
    setCo s core { co s core with tfault := some (c, code, addr, progress, index) }
  else tileTell (tileLeave s core k c) core c code addr progress index

/-- A tile fault that waited for `AFCODE.V` is reported (R84). -/
def tileReport (s : State) (core : Nat) : State :=
  match (co s core).tfault with
  | some (c, code, addr, pr, ix) =>
    if afBusy s c.tid ∧ !c.orphan then s
    else
      let s := setCo s core { co s core with tfault := none }
      let s := match (tq s core).findIdx? (·.started) with
        | some k => if c.op.streams then tileLeave s core k c else s
        | none => s
      tileTell s core c code addr pr ix
  | none => s

/-- How the completion add of a command ends. -/
inductive TDone where
  | done (s : State)
  | wait (s : State)
  /-- A tile fault: 11 for a refused home, 9 for an uncorrectable walk read (R172, R289). -/
  | refused (code : Nat) (s : State)

/-- The completion add at `TCC.ADDR` of a command with C = 1 (R161); its page request is the model's (log 9). -/
def tileAdd (s : State) (core : Nat) (c : TileCmd) : TDone :=
  if !c.c then .done s
  else
    let addr : Word := BitVec.ofNat 64 (c.cfg.tcc.toNat / 8 * 8)
    if c.refused then .refused 11 s
    else match engineAdd s (cmdWho c) addr 1 with
      | .ok s => .done s
      | .refused s => .refused 11 s
      | .walk s => .refused 9 s
      | .wait s => .wait s
      | .miss b i g s =>
        let r := missReq s (cmdWho c) addr .store 0 b i g (.marver core)
        if (ringOf s r).isNone then .refused 11 s else .wait (postPage s r)

/-- The k-group width of a pairing (R152). -/
def pairGroup (y : Nat) : Nat :=
  match y with
  | 0 | 1 | 9 => 1
  | 6 => 4
  | 8 => 8
  | _ => 2

def pairScaled (y : Nat) : Bool := y == 6 || y == 7 || y == 8

/-- Steps of a command (R152). -/
def tileSteps (c : TileCmd) : Nat :=
  match c.op with
  | .tileZero => 1
  | .tileRowv => 1
  | .tileVrow => 1
  | .tileQ => 2 * c.cfg.tm
  | .tileChol => c.cfg.tn * c.cfg.tn
  | .tileTrsm => c.cfg.tn * c.cfg.tn
  | .tileMma => (c.cfg.tk + pairGroup c.y - 1) / pairGroup c.y
  | .tileMmax => (c.cfg.tk + pairGroup c.y - 1) / pairGroup c.y
  | .tileGmma => (c.cfg.tk + pairGroup c.y - 1) / pairGroup c.y
  | _ => 0

/-! ### The arbiter (R150) -/

/-- May the Marver start a command: one that it performs; a product's operands wait for what earlier releases of the thread
order (R243), and a row copy for the thread's vector queue (R168). -/
def TileCmd.ready (s : State) (c : TileCmd) : Bool :=
  c.op.marver && !(c.op.gathers && engineHeld s c.tid c.seq) &&
  ((c.op != .tileRowv && c.op != .tileVrow) || (th s c.tid).v.queue.isEmpty)

/-- The position whose command the arbiter starts next, with the grants it then has left: the position served last while
its grants last, else the next position with a waiting command (R150). -/
def marverNext (s : State) (bench : Nat) : Option (Nat × Nat) :=
  let b := tget s.benches bench {}
  let ready (pos : Nat) : Bool :=
    let core := coreAt bench pos
    match tqNext s core with
    | some k => (match (tq s core)[k]? with | some c => c.ready s | none => false)
    | none => false
  if 0 < b.left ∧ ready b.last then some (b.last, b.left - 1)
  else
    match (List.range 8).find? fun k => ready ((b.last + 1 + k) % 8) with
    | some k =>
      let pos := (b.last + 1 + k) % 8
      some (pos, (co s (coreAt bench pos)).weight - 1)
    | none => none

/-- The grant of an idle Marver to a core, when it is that core's turn (R150). -/
def marverTurn (s : State) (core : Nat) : Option State :=
  match (tget s.benches (benchOf core) {}).running, marverNext s (benchOf core) with
  | none, some (pos, left) =>
    if coreAt (benchOf core) pos = core then
      some { s with benches := tput s.benches (benchOf core) { last := pos, left := left, running := some core } }
    else none
  | _, _ => none

/-! ### Holding words (R160) -/

/-- How the work of a holding word ends. -/
inductive HRes where
  | done (s : State)
  /-- More is to do: the entry is kept as given. -/
  | more (s : State) (c : TileCmd)
  /-- A trap was raised, or the thread dropped: the command has not committed. -/
  | ends (s : State)
  | fault (code : Nat) (addr : Word) (index : Nat) (s : State)

/-- Step number of a holding command whose work is done and whose add is not. -/
def tileWorked : Nat := 10000

/-- Progress and index of a command whose work is done and whose add is refused: all its steps, and the first k-group, block
or row after the last (R172); the spec gives none for the other commands, which have 0 (DESIGN CHOICE, log 64). -/
def tileWhole (c : TileCmd) : Nat × Nat :=
  let nb := (c.cfg.tk + 31) / 32
  match c.op with
  | .tileMma | .tileMmax | .tileGmma =>
    if pairScaled c.y then (32 / pairGroup c.y * nb, nb) else (tileSteps c, tileSteps c)
  | .tileQ => (tileSteps c, c.cfg.tm)
  | _ => (tileSteps c, 0)

/-- The end of a holding word: its add, and the bundle completes. -/
def tileDone (s : State) (p : BitVec 1) (core k : Nat) (c : TileCmd) : State :=
  match tileAdd s core c with
  | .done s => finish (tileLeave s core k c) p
  | .refused n s =>
    finish (tileFault s core k c n (BitVec.ofNat 64 (c.cfg.tcc.toNat / 8 * 8)) (tileWhole c).1 (tileWhole c).2) p
  | .wait s => holdAt (setTq s core (lput (tq s core) k { c with started := true, step := tileWorked })) 1 0 0 0

/-- The work of a holding word whose entry is the k-th of its core's queue. -/
def tileWork (s : State) (p : BitVec 1) (core k : Nat) (c : TileCmd) (work : State → TileCmd → HRes) : State :=
  match work s c with
  | .done s => tileDone (if c.op.writes then tileDirty s core else s) p core k c
  | .more s c => holdAt (setTq s core (lput (tq s core) k c)) 1 0 0 0
  | .ends s =>
    let s := tileLeave s core k c
    if s.last = .dropped then setMe s { me s with hold := none } else s
  | .fault code addr ix s => finish (tileFault s core k c code addr 0 ix) p

/-- A holding word whose entry is the k-th of its core's queue, when every earlier command has completed; a row copy also
waits for its turn at the Marver (R150, R152), and `tile.rel` until no earlier command at all is left (R171). -/
def tileHeldAt (s : State) (p : BitVec 1) (core k : Nat) (c : TileCmd) (work : State → TileCmd → HRes) : State :=
  if tqNext s core ≠ some k ∨ (c.op = .tileRel ∧ k ≠ 0) then holdAt s 1 0 0 0
  else if c.step = tileWorked then tileDone s p core k c
  else if c.op.marver ∧ !c.started then
    match marverTurn s core with
    | some s => tileWork s p core k { c with started := true } work
    | none => holdAt s 1 0 0 0
  else tileWork s p core k c work

/-- A holding word: it enters the queue, waits for every earlier command of its core, and is then performed (R149,
R160). -/
def tileHolding (s : State) (p : BitVec 1) (c : TileCmd) (work : State → TileCmd → HRes) : State :=
  let core := coreOf s.cur
  let q := tq s core
  match q.findIdx? fun x => x.tid == s.cur && !x.op.streams with
  | some k =>
    match q[k]? with
    | some x => tileHeldAt s p core k x work
    | none => held s
  | none => if vstPending (me s) ∨ 16 ≤ q.length then held s else tileHeldAt (setTq s core (q ++ [c])) p core q.length c work

/-! ### Tile memory words (R163-R165) -/

/-- Element size of a tile memory type. -/
def tileSize (y : Nat) : Nat := if y = 0 ∨ y = 8 then 4 else 2

def tileMemType (y : BitVec 4) : Bool := y == 0 || y == 1 || y == 2 || y == 8

/-- The 32-bit index that skips a row (R163). -/
def tileSkip : Nat := 0x80000000

/-- Is the form indexed? -/
def TOp.indexed (o : TOp) : Bool := o == .tileLdx || o == .tileStx || o == .tileStxa

/-- Address of row i; none for a skipped row (R163). -/
def tileRow (c : TileCmd) (i : Nat) : Option Word :=
  if c.op.indexed then
    let x := c.latch.getD i 0
    if x = tileSkip then none else some (c.ga + BitVec.ofInt 64 (sgn 32 x))
  else some (c.ga + BitVec.ofNat 64 i * c.gb)

/-- The cells of the window that are accessed: row, column, address, in row order and then column order. -/
def tileCells (c : TileCmd) : List (Nat × Nat × Word) :=
  (List.range c.cfg.tm).flatMap fun i =>
    match tileRow c i with
    | some r => (List.range c.cfg.tn).map fun j => (i, j, r + BitVec.ofNat 64 (j * tileSize c.y))
    | none => []

/-- The index list, read before any element (R163): the entries, or how the reading ends. An uncorrectable byte of the list
raises the precise trap of cause 9 with its offset in `SVAL` (DESIGN CHOICE, log 71). -/
def tileList (s : State) (c : TileCmd) : Nat → Except HRes (List Nat)
  | 0 => .ok []
  | i + 1 =>
    match tileList s c i with
    | .error r => .error r
    | .ok l =>
      let off := c.gb.toNat + 4 * i
      match readLoc s s.cur (BitVec.ofNat 64 off) (.spad (coreOf s.cur) off) 4 0 with
      | .value v _ => .ok (l ++ [v])
      | .hold s => .error (.more s c)
      | .failed k s => .error (.ends (raise s k (BitVec.ofNat 64 off)))
      | .ends s => .error (.ends s)

/-- The start of a tile memory word: the index list and its alignment (R163). -/
def tileBegin (s : State) (c : TileCmd) (go : State → TileCmd → HRes) : HRes :=
  if !c.op.indexed ∨ c.started then go s { c with started := true }
  else if spSize s (coreOf s.cur) < c.gb.toNat + 4 * c.cfg.tm then .ends (raise s 6 c.gb)
  else match tileList s c c.cfg.tm with
    | .error r => r
    | .ok l =>
      let c := { c with latch := l, started := true }
      match (l.find? fun x => x ≠ tileSkip ∧ x % tileSize c.y ≠ 0) with
      | some x => .ends (raise s 5 (c.ga + BitVec.ofInt 64 (sgn 32 x)))
      | none => go s c

/-- Where a cell of a tile load reads (R163): the `LWB` window, else a translated address. -/
def tilePlace (s : State) (addr : Word) (n : Nat) : ElemAt :=
  match lwbAt s s.cur addr with
  | some off => if off + n ≤ spSize s (coreOf s.cur) then .ok (.spad (coreOf s.cur) off) 0 s else .refused
  | none =>
    match xlate s (whoOf s s.cur) addr .load with
    | (.ok l _ pb, s) => .ok l pb s
    | (x, _) => .xl x

/-- Phase 1 of a tile load: every cell's page is translated (R164). -/
def tilePhase1 (s : State) (n : Nat) : List (Nat × Nat × Word) → Except State State
  | [] => .ok s
  | (_, _, addr) :: r =>
    match tilePlace s addr n with
    | .ok _ _ s => tilePhase1 s n r
    | .refused => .error (raise s 6 addr)
    | .xl x => .error (xlFail s addr .load 3 x)

/-- A memory element widened to a cell, with flags (R164, R168). -/
def tileWiden (y v : Nat) : Nat × Flags :=
  if y = 0 ∨ y = 8 then (v, 0) else (typeFmt y).convert fp32 .rne v

/-- A cell narrowed to a memory element, with flags (R165, R168). -/
def tileNarrow (y v : Nat) : Nat × Flags :=
  if y = 0 ∨ y = 8 then (v, 0) else fp32.convert (typeFmt y) .rne v

/-- Phase 2 of a tile load: the cells are read in order; the values so far, and how it ended. -/
inductive TLoad where
  | all (s : State) (vs : List (Nat × Nat × Nat))
  | hold (s : State)
  | bad (code : Nat) (addr : Word) (i j : Nat) (s : State) (vs : List (Nat × Nat × Nat))

def tilePhase2 (s : State) (n : Nat) (vs : List (Nat × Nat × Nat)) : List (Nat × Nat × Word) → TLoad
  | [] => .all s vs
  | (i, j, addr) :: r =>
    match tilePlace s addr n with
    | .ok l pb s =>
      match readLoc s s.cur addr l n pb with
      | .value v s => tilePhase2 s n ((i, j, v) :: vs) r
      | .hold s => .hold s
      | .failed k s => .bad k addr i j s vs
      | .ends s => .hold s
    | _ => .hold s

/-- Loaded values put into the cells. -/
def tilePutAll (s : State) (core t y : Nat) (vs : List (Nat × Nat × Nat)) : State :=
  vs.foldl (fun s e =>
    let r := tileWiden y e.2.2
    orFlags (setCell s core t e.1 e.2.1 r.1) s.cur r.2) s

/-- The cells of skipped rows before row `n` set to zero (R164). -/
def tileSkips (s : State) (core : Nat) (c : TileCmd) (n : Nat) : State :=
  (List.range n).foldl (fun s i =>
    match tileRow c i with
    | some _ => s
    | none => (List.range c.cfg.tn).foldl (fun s j => setCell s core c.t i j 0) s) s

/-- A tile load (R164). -/
def tileLoadWork (s : State) (c : TileCmd) : HRes :=
  let core := coreOf s.cur
  if vstPending (me s) then .more s c
  else tileBegin s c fun s c =>
    match tilePhase1 s (tileSize c.y) (tileCells c) with
    | .error s => .ends s
    | .ok s =>
      match tilePhase2 s (tileSize c.y) [] (tileCells c) with
      | .hold s => .more s c
      | .all s vs => .done (tilePutAll (tileSkips s core c c.cfg.tm) core c.t c.y vs)
      | .bad k addr i j s vs =>
        let wrote := !vs.isEmpty || (List.range i).any fun r => (tileRow c r).isNone
        let s := tilePutAll (tileSkips s core c i) core c.t c.y vs
        .fault k addr (i * 64 + j) (if wrote then tileDirty s core else s)

/-- The store of a window cell (R165). -/
def tileStoreOf (s : State) (c : TileCmd) (i j : Nat) (addr : Word) : Store × Flags :=
  let r := tileNarrow c.y (cell s (coreOf s.cur) c.t i j)
  let op : Rmw := if c.op = .tileStxa then (if c.y = 8 then .add else .fadd) else .put
  let base : Store := { seq := 0, op := op, float := op == .fadd, addr := addr, width := tileSize c.y,
                        data := BitVec.ofNat 64 r.1, elem := i * 64 + j, nelem := 1, pc := c.pc, slot := s.slot, word := c.word,
                        priv := c.priv }
  (match lwbAt s s.cur addr with
   | some off => { base with space := .scratch, off := off }
   | none => base, r.2)

/-- The stores from the n-th cell on entered into the store queue while it has room; the number entered in all. -/
def tilePush (s : State) (c : TileCmd) (n : Nat) : List (Nat × Nat × Word) → State × Nat
  | [] => (s, n)
  | (i, j, addr) :: r =>
    let (x, f) := tileStoreOf s c i j addr
    if 64 < entriesOf ((me s).stores ++ [x]) then (s, n)
    else
      tilePush (orFlags (pushStore s s.cur x) s.cur f) c (n + 1) r

/-- Has the thread stores of this bundle to scratchpads under way? The completion add releases them (R161). -/
def tileSpadStores (t : Thread) (c : TileCmd) : Bool :=
  let own (x : Store) : Bool := x.pc == c.pc && x.space == .scratch
  t.stores.any own || t.sent.any own

/-- A tile store (R165). -/
def tileStoreWork (s : State) (c : TileCmd) : HRes :=
  if vstPending (me s) then .more s c
  else tileBegin s c fun s c =>
    let cells := tileCells c
    let (s, n) := tilePush s c c.step (cells.drop c.step)
    if n < cells.length ∨ (c.c ∧ tileSpadStores (me s) c) then .more s { c with step := n } else .done s

/-- The checks of a tile memory word and its start (R158, R163). -/
def tileMem (s : State) (p : BitVec 1) (c : TileCmd) (ok : Bool) (work : State → TileCmd → HRes) : Out :=
  let n := tileSize c.y
  .next (if !ok then illegal s c.word
    else match tileGate s c.word false with
      | some s => s
      | none =>
        if c.ga.toNat % n ≠ 0 then raise s 5 c.ga
        else if !c.op.indexed ∧ c.gb.toNat % n ≠ 0 then raise s 5 c.gb
        else tileHolding s p c work)

/-- `tile.ld` (R163, R164). -/
def execTileLd (p : BitVec 1) (t : BitVec 2) (c : BitVec 1) (a b : BitVec 5) (y : BitVec 4) (s : State) : Out :=
  tileMem s p (tileCmdOf s .tileLd t c a b y (wordTileLd p t c a b y)) (tileMemType y) tileLoadWork

/-- `tile.st` (R163, R165). -/
def execTileSt (p : BitVec 1) (t : BitVec 2) (c : BitVec 1) (a b : BitVec 5) (y : BitVec 4) (s : State) : Out :=
  tileMem s p (tileCmdOf s .tileSt t c a b y (wordTileSt p t c a b y)) (tileMemType y) tileStoreWork

/-- `tile.ldx` (R163, R164). -/
def execTileLdx (p : BitVec 1) (t : BitVec 2) (c : BitVec 1) (a b : BitVec 5) (y : BitVec 4) (s : State) : Out :=
  tileMem s p (tileCmdOf s .tileLdx t c a b y (wordTileLdx p t c a b y)) (tileMemType y) tileLoadWork

/-- `tile.stx` (R163, R165). -/
def execTileStx (p : BitVec 1) (t : BitVec 2) (c : BitVec 1) (a b : BitVec 5) (y : BitVec 4) (s : State) : Out :=
  tileMem s p (tileCmdOf s .tileStx t c a b y (wordTileStx p t c a b y)) (tileMemType y) tileStoreWork

/-- `tile.stxa` (R163, R165). -/
def execTileStxa (p : BitVec 1) (t : BitVec 2) (c : BitVec 1) (a b : BitVec 5) (y : BitVec 4) (s : State) : Out :=
  tileMem s p (tileCmdOf s .tileStxa t c a b y (wordTileStxa p t c a b y)) (y == 0 || y == 8) tileStoreWork

/-! ### Rows to and from vectors (R168) -/

/-- `tile.rowv`'s copy. -/
def rowvWork (s : State) (c : TileCmd) : HRes :=
  if !(me s).v.queue.isEmpty then .more s c
  else .done ((List.range c.cfg.tn).foldl (fun s j =>
    let r := tileNarrow c.y (cell s (coreOf s.cur) c.t c.ga.toNat j)
    orFlags (vPut s s.cur c.b (typeWidth c.y) j r.1) s.cur r.2) s)

/-- `tile.vrow`'s copy. -/
def vrowWork (s : State) (c : TileCmd) : HRes :=
  if !(me s).v.queue.isEmpty then .more s c
  else .done ((List.range c.cfg.tn).foldl (fun s j =>
    let r := tileWiden c.y (vGet s s.cur c.b (typeWidth c.y) j)
    orFlags (setCell s (coreOf s.cur) c.t c.ga.toNat j r.1) s.cur r.2) s)

/-- The checks of `tile.rowv` and `tile.vrow` (R158, R168). -/
def tileRowOp (s : State) (p : BitVec 1) (c : TileCmd) (ok : Bool) (work : State → TileCmd → HRes) : Out :=
  .next (if !ok then illegal s c.word
    else match tileGate s c.word false with
      | some s => s
      | none =>
        if (me s).v.rows = 0 then raise s 13 (BitVec.ofNat 64 c.word)
        else if c.y ≠ c.vt ∨ 128 ≤ c.ga.toNat ∨ mvlOf (me s).v.rows c.vt < c.cfg.tn then illegal s c.word
        else tileHolding s p c work)

/-- `tile.rowv` (R168). -/
def execTileRowv (p : BitVec 1) (t : BitVec 2) (c : BitVec 1) (a v : BitVec 5) (y : BitVec 4) (s : State) : Out :=
  tileRowOp s p { tileCmdOf s .tileRowv t c a v y (wordTileRowv p t c a v y) with gb := 0 } (tileMemType y) rowvWork

/-- `tile.vrow` (R168). -/
def execTileVrow (p : BitVec 1) (t : BitVec 2) (c : BitVec 1) (a v : BitVec 5) (y : BitVec 4) (s : State) : Out :=
  tileRowOp s p { tileCmdOf s .tileVrow t c a v y (wordTileVrow p t c a v y) with gb := 0 } (tileMemType y) vrowWork

/-! ### Streaming words (R162, R166-R170) -/

/-- `tile.zero` (R162). -/
def execTileZero (p : BitVec 1) (t : BitVec 2) (c : BitVec 1) (s : State) : Out :=
  let x := tileCmdOf s .tileZero t c 0 0 0 (wordTileZero p t c)
  .next (match tileGate s x.word false with
    | some s => s
    | none => tileEnter s p x)

/-- Types of a pairing (R41). -/
def pairTypes (y : Nat) : Nat × Nat :=
  match y with
  | 0 => (1, 1) | 1 => (2, 2) | 2 => (3, 3) | 3 => (3, 4) | 4 => (4, 3) | 5 => (4, 4) | 6 => (5, 5) | 7 => (6, 6)
  | 8 => (7, 6) | _ => (0, 0)

/-- The `FMT` rules of a matrix product (R166). -/
def fmtOk (c : TileCmd) : Bool :=
  let A := fld c.fmt.toNat 3 0
  let B := fld c.fmt.toNat 7 4
  let O := fld c.fmt.toNat 11 8
  (O == 0 || O == 8) && (O != 8 || c.y == 7 || c.y == 8) && ((A == 0 && B == 0) || (A, B) == pairTypes c.y)

/-- The group fault of `tile.gmma` (R158, R167): the thread's group identifier. -/
def gmmaGang (s : State) : Option Word :=
  match memberOf s s.cur with
  | some (k, _) =>
    if isGang (gr s k) ∧ (gr s k).members.length ≤ 64 then none else some (BitVec.ofNat 64 (grpid s s.cur))
  | none => some 0

/-- The checks of a matrix product and its entry (R158, R166, R167). `TSA` and `TSB` are multiples of 4 by R148. -/
def tileProduct (s : State) (p : BitVec 1) (c : TileCmd) : Out :=
  .next (if 10 ≤ c.y then illegal s c.word
    else match tileGate s c.word false with
      | some s => s
      | none =>
        if !(fmtOk c) then illegal s c.word
        else match (if c.op = .tileGmma then gmmaGang s else none) with
          | some g => raise s 21 g
          | none =>
            if c.ga.toNat % 4 ≠ 0 then raise s 5 c.ga
            else if c.gb.toNat % 4 ≠ 0 then raise s 5 c.gb
            else tileEnter s p c)

/-- `tile.mma` (R166). -/
def execTileMma (p : BitVec 1) (t : BitVec 2) (c : BitVec 1) (a b : BitVec 5) (y : BitVec 4) (s : State) : Out :=
  tileProduct s p (tileCmdOf s .tileMma t c a b y (wordTileMma p t c a b y))

/-- `tile.mmax` (R166). -/
def execTileMmax (p : BitVec 1) (t : BitVec 2) (c : BitVec 1) (a b : BitVec 5) (y : BitVec 4) (s : State) : Out :=
  tileProduct s p (tileCmdOf s .tileMmax t c a b y (wordTileMmax p t c a b y))

/-- `tile.gmma` (R167). -/
def execTileGmma (p : BitVec 1) (t : BitVec 2) (c : BitVec 1) (a b : BitVec 5) (y : BitVec 4) (s : State) : Out :=
  tileProduct s p (tileCmdOf s .tileGmma t c a b y (wordTileGmma p t c a b y))

/-- `tile.q` (R169). -/
def execTileQ (p : BitVec 1) (t : BitVec 2) (c : BitVec 1) (a b : BitVec 5) (y : BitVec 4) (s : State) : Out :=
  let x := tileCmdOf s .tileQ t c a b y (wordTileQ p t c a b y)
  .next (if y ≠ 3 ∧ y ≠ 5 then illegal s x.word
    else match tileGate s x.word false with
      | some s => s
      | none =>
        if x.ga.toNat % 4 ≠ 0 then raise s 5 x.ga
        else if x.gb.toNat % 4 ≠ 0 then raise s 5 x.gb
        else tileEnter s p x)

/-- `tile.chol` (R170). -/
def execTileChol (p : BitVec 1) (t : BitVec 2) (c : BitVec 1) (s : State) : Out :=
  let x := tileCmdOf s .tileChol t c 0 0 0 (wordTileChol p t c)
  .next (match tileGate s x.word false with
    | some s => s
    | none => if x.cfg.tm ≠ x.cfg.tn ∨ 64 < x.cfg.tn then illegal s x.word else tileEnter s p x)

/-- `tile.trsm` (R170). -/
def execTileTrsm (p : BitVec 1) (t : BitVec 2) (c : BitVec 1) (ts : BitVec 2) (s : State) : Out :=
  let x := { tileCmdOf s .tileTrsm t c 0 0 0 (wordTileTrsm p t c ts) with a := ts.toNat }
  .next (match tileGate s x.word false with
    | some s => s
    | none => if 64 < x.cfg.tn ∨ t = ts then illegal s x.word else tileEnter s p x)

/-- `tile.rel` (R171). -/
def execTileRel (p : BitVec 1) (s : State) : Out :=
  let x := tileCmdOf s .tileRel 0 0 0 0 0 (wordTileRel p)
  .next (match tileGate s x.word true with
    | some s => s
    | none => tileHolding s p x fun s _ => .done (tileRelease s s.cur))

/-! ### Steps (R152-R155, R166-R170) -/

/-- A place of an operand row: the core (none for a bad peer rank), the offset there, and what is added to it in a
report. -/
structure Row where
  core : Option Nat
  off : Word
  up : Word

/-- `n` bytes of an operand; or the fault code and the faulting offset (R172). -/
def spadRead (s : State) (r : Row) (d n : Nat) : Except (Nat × Word) Nat :=
  let off := r.off + BitVec.ofNat 64 d
  match r.core with
  | none => .error (6, off + r.up)
  | some c =>
    if spSize s c < off.toNat + n then .error (6, off + r.up)
    else if poisoned s (.spad c off.toNat) n then .error (9, off + r.up)
    else .ok (rdLoc s (.spad c off.toNat) n)

/-- Element `k` of `w` bits of an operand row (R153). -/
def rowElem (s : State) (r : Row) (w k : Nat) : Except (Nat × Word) Nat :=
  match spadRead s r (k * w / 8) (max 1 (w / 8)) with
  | .ok v => .ok (v / 2 ^ (k * w % 8) % 2 ^ w)
  | .error e => .error e

/-- The core of the rank in a peer operand. -/
def peerCore (s : State) (tid : Nat) (v : Word) : Option Nat :=
  if v.toNat / 2 ^ 31 ≠ 0 then none else rankCore s tid (v.toNat / 2 ^ 19 % 4096)

/-- The running `tile.gmma` of a thread that is to be ended keeps the members that it reads (R167, R174). -/
def tilePeers (s : State) (tid : Nat) : State :=
  setTq s (coreOf tid) ((tq s (coreOf tid)).map fun c =>
    if c.tid = tid ∧ c.op = .tileGmma ∧ c.started ∧ c.peers.isNone then
      { c with peers := some (peerCore s tid c.ga, peerCore s tid c.gb) }
    else c)

/-- A peer operand of `tile.gmma` (R167). -/
def peerRow (core : Option Nat) (v : Word) (d : Nat) : Row :=
  { core := core,
    off := BitVec.ofNat 64 (v.toNat % 2 ^ 19 + d), up := BitVec.ofNat 64 (v.toNat / 2 ^ 19 * 2 ^ 19) }

/-- Row i of the A operand, and row k of the B operand (R153, R166, R167). -/
def rowA (s : State) (c : TileCmd) (i : Nat) : Row :=
  match c.op with
  | .tileGmma => peerRow (match c.peers with | some p => p.1 | none => peerCore s c.tid c.ga) c.ga (i * c.cfg.tsa)
  | .tileMmax => { core := some (coreOf c.tid), off := BitVec.ofNat 64 (c.latch.getD i 0), up := 0 }
  | _ => { core := some (coreOf c.tid), off := c.ga + BitVec.ofNat 64 (i * c.cfg.tsa), up := 0 }

def rowB (s : State) (c : TileCmd) (k : Nat) : Row :=
  match c.op with
  | .tileGmma => peerRow (match c.peers with | some p => p.2 | none => peerCore s c.tid c.gb) c.gb (k * c.cfg.tsb)
  | _ => { core := some (coreOf c.tid), off := c.gb + BitVec.ofNat 64 (k * c.cfg.tsb), up := 0 }

/-- The operands of a run of k: for each row of A, for each k of B, the elements. -/
def operands (s : State) (c : TileCmd) (k0 n : Nat) : Except (Nat × Word) (List (List Nat) × List (List Nat)) := do
  let (ta, tb) := pairTypes c.y
  let A ← (List.range c.cfg.tm).mapM fun i => (List.range n).mapM fun k => rowElem s (rowA s c i) (typeWidth ta) (k0 + k)
  let B ← (List.range n).mapM fun k =>
    (List.range c.cfg.tn).mapM fun j => rowElem s (rowB s c (k0 + k)) (typeWidth tb) j
  return (A, B)

/-- The value of an operand element; an int8 or ternary code as an integer (R91, R92). -/
def elemVal (ty v : Nat) : FVal × Flags :=
  if ty = 7 then
    match v with
    | 0 => (.fin false 0 0, 0)
    | 1 => (.fin false 1 0, 0)
    | 3 => (.fin true 1 0, 0)
    | _ => (.fin false 0 0, flNV)
  else if ty = 6 then (.fin (sgn 8 v < 0) (sgn 8 v).natAbs 0, 0)
  else ((typeFmt ty).val v, 0)

/-- The exact sum of the products of one cell over a run of k, with its flags (R101, R102). -/
def dotSum (ta tb : Nat) (as bs : List Nat) : FVal × Flags :=
  let ps := (as.zip bs).map fun e =>
    let (x, f) := elemVal ta e.1
    let (y, g) := elemVal tb e.2
    let (p, h) := exactMul x y
    (p, f ||| g ||| h)
  let (v, f) := exactSum (ps.map (·.1))
  (v, ps.foldl (fun f p => f ||| p.2) f)

/-- One accumulation of an unscaled pairing (R101). -/
def accPlain (acc : Nat) (p : FVal × Flags) : Nat × Flags :=
  let r := fp32.sum .rne (fp32.val acc) p.1
  (r.1, r.2 ||| p.2)

/-- One accumulation of a scaled pairing with its two scales (R102). A NaN scale gives NaN and no flag, whatever the cell
holds; a zero scale gives the term the sign of the block's sum, and an exact zero sum is +0 (DESIGN CHOICE, log 65). -/
def accScaled (acc : Nat) (S : FVal × Flags) (sa sb : Nat) : Nat × Flags :=
  match scaleVal sa, scaleVal sb, S.1 with
  | some (m, e), some (n, f), .fin neg x g =>
    let r := fp32.sum .rne (fp32.val acc) (.fin (neg && x != 0) (x * m * n) (g + e + f))
    (r.1, r.2 ||| S.2)
  | _, _, _ => (fp32.nan, S.2)

/-- One accumulation with int32 output (R103). -/
def accInt (acc : Nat) (S : FVal × Flags) : Nat × Flags :=
  match S.1 with
  | .fin neg x _ =>
    let v := sgn 32 acc + sint neg x
    (unsgn 32 (clamp 32 v), flagIf (decide (clamp 32 v ≠ v)) flOF ||| S.2)
  | _ => (acc, S.2)

/-- The scales of a block: of every row of A, of every column of B (R155). -/
def scales (s : State) (c : TileCmd) (q : Nat) : Except (Nat × Word) (List Nat × List Nat) := do
  let nb := (c.cfg.tk + 31) / 32
  let own (o : Nat) (k : Nat) : Row :=
    { core := some (coreOf c.tid), off := c.scb + BitVec.ofNat 64 (o + (k * nb + q) * 4), up := 0 }
  let sa ← (List.range c.cfg.tm).mapM fun i => spadRead s (own c.cfg.tsca i) 0 4
  let sb ← (List.range c.cfg.tn).mapM fun j => spadRead s (own c.cfg.tscb j) 0 4
  return (sa, sb)

/-- Every cell of the window updated. -/
def eachCell (s : State) (c : TileCmd) (f : State → Nat → Nat → Nat × Flags) : State × Flags :=
  (List.range c.cfg.tm).foldl (fun x i =>
    (List.range c.cfg.tn).foldl (fun (x : State × Flags) j =>
      let r := f x.1 i j
      (setCell x.1 (coreOf c.tid) c.t i j r.1, x.2 ||| r.2)) x) (s, 0)

/-- A step's end: the state and flags, or a fault with its progress and index. -/
inductive TStep where
  /-- The step is made: its flags, whether it wrote cells, and the command with what it has latched. -/
  | ok (s : State) (f : Flags) (wrote : Bool) (c : TileCmd)
  | fault (code : Nat) (addr : Word) (progress index : Nat) (f : Flags) (s : State)

/-- Step q of an unscaled product: one k-group (R101, R166). -/
def stepPlain (s : State) (c : TileCmd) : TStep :=
  let g := pairGroup c.y
  let (ta, tb) := pairTypes c.y
  match operands s c (c.step * g) (min g (c.cfg.tk - c.step * g)) with
  | .error e => .fault e.1 e.2 c.step c.step 0 s
  | .ok (A, B) =>
    let r := eachCell s c fun s i j =>
      accPlain (cell s (coreOf c.tid) c.t i j) (dotSum ta tb (A.getD i []) (B.map fun b => b.getD j 0))
    .ok r.1 r.2 true c

/-- A step of a scaled product: it reads its k-group, and the last step of a block reads the scales and adds the block's
sum (R102, R103, R154, log 10). -/
def stepScaled (s : State) (c : TileCmd) : TStep :=
  let g := pairGroup c.y
  let (ta, tb) := pairTypes c.y
  let q := c.step * g / 32
  let bad (e : Nat × Word) : TStep := .fault e.1 e.2 (q * (32 / g)) q 0 s
  match operands s c (c.step * g) (min g (c.cfg.tk - c.step * g)) with
  | .error e => bad e
  | .ok (A1, B1) =>
    let A := (List.range c.cfg.tm).map fun i => c.opA.getD i [] ++ A1.getD i []
    let B := c.opB ++ B1
    if (c.step + 1) * g % 32 ≠ 0 ∧ c.step + 1 < tileSteps c then .ok s 0 false { c with opA := A, opB := B }
    else
      let c1 := { c with opA := [], opB := [] }
      let sum (i j : Nat) := dotSum ta tb (A.getD i []) (B.map fun b => b.getD j 0)
      if fld c.fmt.toNat 11 8 == 8 then
        let r := eachCell s c fun s i j => accInt (cell s (coreOf c.tid) c.t i j) (sum i j)
        .ok r.1 r.2 true c1
      else match scales s c q with
        | .error e => bad e
        | .ok (sa, sb) =>
          let r := eachCell s c fun s i j =>
            accScaled (cell s (coreOf c.tid) c.t i j) (sum i j) (sa.getD i 0) (sb.getD j 0)
          .ok r.1 r.2 true c1

/-- Packed codes of a block as bytes: two e2m1 codes a byte, the last high nibble zero (R169). -/
def packCodes (w : Nat) : List Nat → List Byte
  | [] => []
  | [x] => [BitVec.ofNat 8 x]
  | x :: y :: r =>
    if w = 4 then BitVec.ofNat 8 (x % 16 + y % 16 * 16) :: packCodes w r
    else BitVec.ofNat 8 x :: BitVec.ofNat 8 y :: packCodes w r

/-- Writes into a scratchpad in order, up to one that lies beyond it: how many precede it, and the offset of its first byte
there. -/
def spadWrites (s : State) (core n : Nat) : List (Word × List Byte) → State × Option (Nat × Word)
  | [] => (s, none)
  | (off, bs) :: r =>
    if spSize s core < off.toNat + bs.length then
      (s, some (n, if spSize s core ≤ off.toNat then off else BitVec.ofNat 64 (spSize s core)))
    else spadWrites (storeBytes s (.spad core off.toNat) bs) core (n + 1) r

/-- The writes of block q of row i of a `tile.q`, and the flags of the first `n` of them (R108, R169). -/
def quantBlock (s : State) (c : TileCmd) (i q : Nat) : List (Word × List Byte) × (Nat → Flags) :=
  let nb := (c.cfg.tn + 31) / 32
  let w := typeWidth c.y
  let n := min 32 (c.cfg.tn - 32 * q)
  let xs := (List.range n).map fun j => cell s (coreOf c.tid) c.t i (32 * q + j)
  let (sc, f, codes) := quantiseEach (typeFmt c.y) (if c.y = 5 then 6 else 448) xs
  let row := c.ga + BitVec.ofNat 64 (i * c.cfg.tsa + 32 * q * w / 8)
  let ws := (packCodes w (codes.map (·.1))).mapIdx fun k b => (row + BitVec.ofNat 64 k, [b])
  ((c.gb + BitVec.ofNat 64 ((i * nb + q) * 4), natBytes 4 sc) :: ws,
   fun k => if k = 0 then 0 else (codes.take ((k - 1) * 8 / w)).foldl (fun f x => f ||| x.2) f)

/-- Blocks of a row written one after another: the flags of what is written, and the offset of a write that lies beyond the
scratchpad (R108, R169). -/
def quantBlocks (s : State) (c : TileCmd) (i : Nat) (f : Flags) : List Nat → State × Flags × Option Word
  | [] => (s, f, none)
  | q :: r =>
    let b := quantBlock s c i q
    match spadWrites s (coreOf c.tid) 0 b.1 with
    | (s, none) => quantBlocks s c i (f ||| b.2 (b.1.length + 1)) r
    | (s, some (n, off)) => (s, f ||| b.2 n, some off)

/-- A step of `tile.q`: every second step writes a row (R152, R169). -/
def stepQ (s : State) (c : TileCmd) : TStep :=
  if c.step % 2 = 0 then .ok s 0 false c
  else
    let i := c.step / 2
    match quantBlocks s c i 0 (List.range ((c.cfg.tn + 31) / 32)) with
    | (s, f, none) => .ok s f false c
    | (s, f, some off) => .fault 8 off (2 * i) i f s

/-- Cell i, k of a register under work, as fp32 with flags collected. -/
abbrev Work := State × Flags

def wput (x : Work) (c : TileCmd) (i j : Nat) (r : Nat × Flags) : Work :=
  (setCell x.1 (coreOf c.tid) c.t i j r.1, x.2 ||| r.2)

/-- The pivot of a column of `tile.chol` (R170). -/
def cholPivot (d : Nat) : Nat × Flags :=
  let v := fp32.val d
  if v.isNan then (fp32.nan, 0)
  else if v.isZero || v.sign then (fp32.nan, flNV)
  else fp32.sqrt .rne d

/-- `tile.chol` (R170). -/
def cholAll (s : State) (c : TileCmd) : Work :=
  let n := c.cfg.tn
  let g (x : Work) (i j : Nat) : Nat := cell x.1 (coreOf c.tid) c.t i j
  let x := (List.range n).foldl (fun (x : Work) j =>
    let x := wput x c j j (cholPivot (g x j j))
    let rest := (List.range n).filter fun i => j < i
    let x := rest.foldl (fun x i => wput x c i j (fp32.div .rne (g x i j) (g x j j))) x
    rest.foldl (fun x k =>
      ((List.range n).filter fun i => k ≤ i).foldl (fun x i =>
        wput x c i k (fp32.fnma .rne (g x i j) (g x k j) (g x i k))) x) x) (s, 0)
  (List.range n).foldl (fun x i =>
    ((List.range n).filter fun k => i < k).foldl (fun x k => wput x c i k (0, 0)) x) x

/-- `tile.trsm` (R170); the command's `a` names Ts. -/
def trsmAll (s : State) (c : TileCmd) : Work :=
  (List.range c.cfg.tn).foldl (fun (x : Work) j =>
    (List.range c.cfg.tm).foldl (fun (x : Work) i =>
      let l (k : Nat) : Nat := cell x.1 (coreOf c.tid) c.a j k
      let r := (List.range j).foldl (fun (r : Nat × Flags) k =>
        let e := fp32.fnma .rne (cell x.1 (coreOf c.tid) c.t i k) (l k) r.1
        (e.1, r.2 ||| e.2)) (cell x.1 (coreOf c.tid) c.t i j, 0)
      let e := fp32.div .rne r.1 (l j)
      wput x c i j (e.1, r.2 ||| e.2)) x) (s, 0)

/-- One step of a running command. -/
def tileStep (s : State) (c : TileCmd) : TStep :=
  let last (r : Work) : TStep := .ok r.1 r.2 true c
  match c.op with
  | .tileZero => .ok (zeroTile s (coreOf c.tid) c.t) 0 true c
  | .tileQ => stepQ s c
  | .tileChol => if c.step + 1 < tileSteps c then .ok s 0 false c else last (cholAll s c)
  | .tileTrsm => if c.step + 1 < tileSteps c then .ok s 0 false c else last (trsmAll s c)
  | _ => if pairScaled c.y then stepScaled s c else stepPlain s c

/-! ### Events of the Marver (R150, R152, R161) -/

/-- The row list of a `tile.mmax`, read as it starts; or the fault code and offset (R166). -/
def mmaxList (s : State) (c : TileCmd) : Except (Nat × Word) (List Nat) := do
  let core := coreOf c.tid
  if spSize s core < c.ga.toNat + 4 * c.cfg.tm then
    throw (6, if spSize s core ≤ c.ga.toNat then c.ga else BitVec.ofNat 64 (spSize s core))
  (List.range c.cfg.tm).mapM fun i => do
    let x ← spadRead s { core := some core, off := c.ga, up := 0 } (4 * i) 4
    if x % 4 ≠ 0 then throw (5, BitVec.ofNat 64 x)
    if spSize s core ≤ x then throw (6, BitVec.ofNat 64 x)
    return x

/-- `MARVER_GRANT`: the arbiter of a bench starts the next command (R150). -/
def execMarverGrant (bench : Nat) (s : State) : Out :=
  let b := tget s.benches bench {}
  match b.running, marverNext s bench with
  | none, some (pos, left) =>
    let core := coreAt bench pos
    match tqNext s core with
    | none => .next s
    | some k =>
      match (tq s core)[k]? with
      | none => .next s
      | some c =>
        let s := { s with benches := tput s.benches bench { last := pos, left := left, running := some core } }
        let s := setTq s core (lput (tq s core) k { c with started := true })
        if !c.op.streams then .next s
        else if c.op = .tileMmax then
          match mmaxList s c with
          | .ok l => .next (setTq s core (lput (tq s core) k { c with started := true, latch := l }))
          | .error e => .next (tileFault s core k { c with started := true } e.1 e.2 0 0)
        else .next s
  | _, _ => .next s

/-! ### Holding words of ended threads (R174) -/

/-- The completion add of a holding word whose thread is ended, posted behind the thread's stores (R161, R174); it waits for
a page request or a path. -/
def orphanAdd (s : State) (core k : Nat) (c : TileCmd) : State :=
  let addr : Word := BitVec.ofNat 64 (c.cfg.tcc.toNat / 8 * 8)
  if !c.c ∨ c.refused then tileLeave s core k c
  else match engineLoc s (cmdWho c) addr .store with
    | (.ok l _ _, s) => tileLeave (postOf s c.tid .add addr l 1 (c.cfg.tcc.toNat % 8) 0) core k c
    | (.miss b i g, s) =>
      let r := missReq s (cmdWho c) addr .store 0 b i g (.marver core)
      if (ringOf s r).isNone then tileLeave s core k c else postPage s r
    | (_, s) => tileLeave s core k c

/-- The rest of a store, with no bound of the store queue: what the ended thread left there is performed behind it. -/
def orphanStores (s : State) (c : TileCmd) : State :=
  ((tileCells c).drop c.step).foldl (fun s e => pushStore s c.tid (tileStoreOf s c e.1 e.2.1 e.2.2).1) s

/-- The work of a holding word whose thread is ended goes on: what it would trap on ends it, since no thread is there to be
told (R174). -/
def orphanWork (s : State) (core k : Nat) (c : TileCmd) : State :=
  let whole (s : State) : State :=
    let c := { c with step := tileWorked }
    orphanAdd (setTq s core (lput (tq s core) k c)) core k c
  let ran (r : HRes) : State :=
    match r with
    | .done s => whole (tileDirty s core)
    | .more s c => setTq s core (lput (tq s core) k c)
    | .ends _ => tileLeave s core k c
    | .fault _ _ _ s => tileLeave s core k c
  if c.step = tileWorked then orphanAdd s core k c
  else match c.op with
    | .tileSt | .tileStx | .tileStxa => whole (orphanStores s c)
    | .tileLd | .tileLdx => ran (tileLoadWork s c)
    | .tileVrow => ran (vrowWork s c)
    | _ => whole s

/-- The holding word of an ended thread that runs on a core goes on, as that thread's (R174). -/
def orphanRun (s : State) (core : Nat) : State :=
  match (tq s core).findIdx? fun c => c.orphan && c.started && !c.op.streams with
  | some k =>
    match (tq s core)[k]? with
    | some c =>
      let x := orphanWork (asThread s c.tid) core k c
      { x with cur := s.cur, slot := s.slot, snap := s.snap, last := s.last }
    | none => s
  | none => s

/-- The running command of a bench: core, place in the queue, command; none while its fault waits to be reported, and none for
a row copy, which its thread performs and completes. -/
def marverRuns (s : State) (bench : Nat) : Option (Nat × Nat × TileCmd) :=
  match (tget s.benches bench {}).running with
  | some core =>
    if (co s core).tfault.isSome then none
    else
      match (tq s core).findIdx? (·.started) with
      | some k => ((tq s core)[k]?.filter fun c => c.op.streams).map fun c => (core, k, c)
      | none => none
  | none => none

/-- `MARVER_STEP`: one step of the running command of a bench; a step that writes cells makes the held data Dirty (R146,
R147, R152). -/
def execMarverStep (bench : Nat) (s : State) : Out :=
  match marverRuns s bench with
  | some (core, k, c) =>
    if tileSteps c ≤ c.step then .next s
    else match tileStep s c with
      | .ok s f wrote c =>
        let s := if wrote then tileDirty s core else s
        .next (setTq s core (lput (tq s core) k { c with step := c.step + 1, flags := c.flags ||| f }))
      | .fault code addr pr ix f s => .next (tileFault s core k { c with flags := c.flags ||| f } code addr pr ix)
  | none => .next s

/-- `MARVER_COMMAND_COMPLETE`: the holding words of ended threads on a bench's cores go on (R174), and the running command of
the bench ends: its flags, then its add (R108, R161). The flags of one whose thread is ended go nowhere, since the shadow
status took that thread's flags as it ended (DESIGN CHOICE, log 71). -/
def execMarverCommandComplete (bench : Nat) (s : State) : Out :=
  let s := (List.range 8).foldl (fun s p => orphanRun s (coreAt bench p)) s
  match marverRuns s bench with
  | some (core, k, c) =>
    if c.step < tileSteps c then .next s
    else
      .next (match tileAdd s core c with
        | .wait s => s
        | .refused n s =>
          tileFault s core k c n (BitVec.ofNat 64 (c.cfg.tcc.toNat / 8 * 8)) (tileWhole c).1 (tileWhole c).2
        | .done s =>
          let s := tileLeave s core k c
          if c.orphan then s else orFlags s c.tid c.flags)
  | none => .next s

end Sys2Proof.Machine
end

