-- ==== Sys2Proof/Machine/Life.lean ====
section
/-! DEFINITION. The life of a thread: placing it in a slot, stopping and resuming it, ending it, its leaving of groups
and kernels, and what remains of it elsewhere (R53, R75-R77, R86, R174, R206, R217, R267, R329, R425). -/

namespace Sys2Proof.Machine

/-! ### Groups left and dissolved (R206, R211, R215) -/

/-- The add that a marked member gives as it stops or leaves: posted, so that it is performed with release at package
scope, once the member's earlier accesses are (R203, R215, R236). -/
def stopAdd (s : State) (tid : Nat) : State :=
  match (th s tid).stop with
  | none => s
  | some m =>
    let s := setTh s tid { th s tid with stop := none }
    match m.ctr with
    | none => s
    | some l => postOf s tid .add m.addr l 1 4 0

/-- A Stopping group with no marked member left is Held (R206). -/
def settleStop (s : State) (k : Nat) : State :=
  let g := gr s k
  if g.used ∧ g.state = .stopping ∧ !(g.members.any fun m => (th s m.2).stop.isSome) then
    setGr s k { g with state := .held }
  else s

/-- A group dissolves: its halo regions end, its entry is free and its generation advances (R204, R253). -/
def dissolve (s : State) (k : Nat) : State :=
  let g := gr s k
  let s := haloEndGang s (gidOf (k / 4096) (k % 4096) g.gen)
  setGr s k { gen := if g.gen = 4095 then 1 else g.gen + 1 }

/-- A thread leaves its group, as `grp.leave` does (R211); what it owns of halo regions goes home first (log 11). -/
def leaveGroup (s : State) (tid : Nat) : State :=
  match memberOf s tid with
  | none => s
  | some (k, _) =>
    let s := haloBack (haloPush s tid none) tid none
    let g := gr s k
    if g.members.length ≤ 1 then dissolve s k
    else settleStop (setGr s k { g with members := g.members.filter fun m => m.2 ≠ tid }) k

/-! ### What a thread has elsewhere (R191, R217, R298, R300, R425) -/

/-- Requests of a thread taken off the page-request queue: it is no longer a requester (R300). -/
def dropRequests (s : State) (tid : Nat) : State :=
  let cut (e : PageReq) : PageReq :=
    { e with reqs := e.reqs.filter fun r => r ≠ .thread tid ∧ r ≠ .store tid }
  { s with pages := s.pages.map fun e => (e.1, cut e.2),
           pageWaits := (s.pageWaits.map cut).filter fun e => !e.reqs.isEmpty }

/-- The waiter, guard and arm entries of a thread are removed, and its page requests are cancelled (R217, R425). -/
def dropEntries (s : State) (tid : Nat) : State :=
  let s := unlist s tid
  dropRequests { s with arms := s.arms.filter (fun a => a.tid ≠ some tid),
                        stuck := s.stuck.filter fun x => !(x.tid == tid && x.kind == 0) } tid

/-- The calls that a thread has taken return to their lanes (R319). -/
def returnCalls (s : State) (tid : Nat) : State :=
  { s with lanes := s.lanes.map fun e =>
      (e.1, { e.2 with calls := e.2.calls.map fun c => if c.taken = some tid then { c with taken := none } else c }) }

/-- Operations of an ended thread that are on their way are performed; their results go nowhere. -/
def orphanPosts (s : State) (tid : Nat) : State :=
  { s with posts := s.posts.map fun p => if p.tid = tid then { p with d := 0, pc := BitVec.allOnes 64 } else p }

/-- A thread is counted as ended to the Gaffer, which drains the kernel at its last (R75, R217, R329). -/
def countEnd (s : State) (tid : Nat) (killed : Bool) : State :=
  let n := (th s tid).kernel
  if n = 0 then s
  else
    let k := kn s n
    let k := { k with ended := k.ended + 1, killed := k.killed + b2n killed, flags := k.flags ||| (th s tid).u.flags }
    setKn s n { k with state := if k.state = .running ∧ k.ended = k.count then .draining else k.state }

/-- The slot holds no thread: its rows are released, and its registers stay (R86, R113, R423). What is in its store queue is
still to be performed or recorded. -/
def freeSlot (s : State) (tid : Nat) : State :=
  let t := th s tid
  let s := setTh (vClear s tid) tid
    { state := .free, priv := t.priv, pc := t.pc, u := { t.u with lock := false }, sr := t.sr, hr := t.hr,
      v := { vl := t.v.vl, vt := t.v.vt, vmt := t.v.vmt, vdm := t.v.vdm, wbase := t.v.wbase, wctr := t.v.wctr }, vmid := t.vmid, used := t.used,
      ctx := t.ctx, stores := t.stores, sent := t.sent, precs := t.precs, was := t.kernel }
  orphanPosts s tid

/-- A request leaves its multicast stream, and what that has sent ahead is gone: its remaining chunks are read by unicast
(R277). -/
def detach (s : State) (core : Nat) : State :=
  let c := co s core
  let s := setCo s core { c with ch := { c.ch with req := c.ch.req.map fun r => { r with lines := [] } } }
  { s with streams := (s.streams.map fun x => { x with cores := x.cores.filter (· ≠ core) }).filter fun x =>
      !x.cores.isEmpty }

/-- The channel of a movement thread that ends: the request is abandoned (R267). -/
def channelEnd (s : State) (tid : Nat) : State :=
  let c := co s (coreOf tid)
  if slotOf tid = 15 ∧ c.ch.en then
    setCo (detach s (coreOf tid)) (coreOf tid) { c with ch := { c.ch with state := 1, req := none, fault := none } }
  else s

/-- Tile commands of an ended thread: those not started are discarded, a running one completes, and the tile state is
released when the queue is empty (R147, R174). A holding word goes on at once, as far as nothing makes it wait. -/
def tileEnd (s : State) (tid : Nat) : State :=
  let core := coreOf tid
  let s := tilePeers s tid
  let hold := (th s tid).ts ≠ 0
  let q := ((tq s core).filter fun c => c.tid ≠ tid ∨ c.started).map fun c =>
    if c.tid = tid then { c with orphan := true } else c
  let s := setTh (setTq s core q) tid { th s tid with ts := 0 }
  let c := co s core
  let s := setCo s core { c with relPending := c.relPending || hold, tfault := c.tfault.filter fun x => x.1.tid ≠ tid }
  tileSettle (orphanRun s core) core

/-- A thread is ended without `thr.end`: a kill, the destruction of its context, a reset, a withdrawal (R217). -/
def killThread (s : State) (tid : Nat) : State :=
  let s := dropEntries (channelEnd s tid) tid
  let s := leaveGroup (stopAdd (tileEnd s tid) tid) tid
  freeSlot (countEnd (returnCalls s tid) tid true) tid

/-- Threads ended together: the members of a group that one of them reads are still members then (R167, R174). -/
def killThreads (s : State) (ts : List Nat) : State := ts.foldl killThread (ts.foldl tilePeers s)

/-! ### Stopping and resuming (R53, R77, R200) -/

/-- The trap of a long result that cannot be written, entered at a thread's bundle (R59). The reason of a counter fault
goes to `WVAL` (R177). -/
def failTrap (s : State) (tid : Nat) : State :=
  let t := th s tid
  match t.longs.find? Long.bad with
  | none => s
  | some l =>
    match l.res with
    | .failed c a =>
      let u := { t.u with lapc := l.pc, wval := if c % 64 = 11 then BitVec.ofNat 64 (c / 64) else t.u.wval }
      let s := setTh s tid { t with u := u, longs := t.longs.filter fun x => x ≠ l }
      enterTrap s tid (toHyp t false (c % 64)) false 0 (c % 64) t.pc a none
    | _ => s

/-- Has a thread a TILE word under way, or other commands in its core's queue (R77, R160)? -/
def tileBusy (s : State) (tid : Nat) : Bool := (tq s (coreOf tid)).any fun c => c.tid == tid

/-- Does a holding TILE word of a thread run (R160)? -/
def tileHoldsThread (s : State) (tid : Nat) : Bool :=
  (tq s (coreOf tid)).any fun c => c.tid == tid && !c.op.streams && c.started

/-- A holding TILE word of a thread that has not started leaves the queue before a trap or an interrupt; its bundle is issued
again afterwards (R160). -/
def tileYield (s : State) (tid : Nat) : State :=
  let core := coreOf tid
  let out (c : TileCmd) : Bool := c.tid == tid && !c.op.streams && !c.started
  if (tq s core).any out then tileSettle (setTq s core ((tq s core).filter fun c => !(out c))) core else s

/-- The near-counter selection of the parked-wait record (R192, R200). -/
def selWord (l : Loc) : Nat :=
  match l with
  | .near c e => 2 ^ 23 + c * 256 + e
  | _ => 0

/-- The parked-wait record of a thread that stops; the selection of a guard is taken as zero (R131, R200). A wait whose count has
just used up `WLIM` keeps a limit of 1, since 0 stands for none (DESIGN CHOICE, log 60). -/
def saveWait (s : State) (w : Wait) : SavedWait :=
  { addr := w.addr, thr := w.thr, scope := w.scope, sel := if w.guard then 0 else selWord w.loc, guard := w.guard, how := w.how,
    remain := match w.due with | some d => max 1 (d - s.cycle) | none => 0 }

/-- May a Ready thread that is marked stop now, and in what state: at a bundle boundary, its long results written, its
vector queue done or cut, its Marver commands complete (R77, R123)? A failed long result is first reported by its own
trap, so the thread stops at the handler (DESIGN CHOICE, log 62). -/
def stopReady (s : State) (tid : Nat) : Option State :=
  let t := th s tid
  if t.waitMet ∨ tileBusy s tid ∨ killHolds t ∨ t.longs.any Long.open_ then none
  else vQuiet (if t.longs.any Long.bad then failTrap s tid else s) tid

/-- The thread is Stopped: its prior state is kept, a `pause` ends (R60), its waiter entry goes, its halo lines go home, its channel pauses
(R53, R253, R267). -/
def stopNow (s : State) (tid : Nat) : State :=
  let s := unrequest (unlist (haloBack (haloPush s tid none) tid none) tid) tid
  let t := th s tid
  let s := setTh s tid { t with
    state := .stopped, prior := t.state, pauseUntil := none, reissue := t.state == .dropped, wait := none,
    saved := if t.state = .parked then t.wait.map (saveWait s) else none }
  if slotOf tid = 15 ∧ (co s (coreOf tid)).ch.state = 2 then
    let s := detach s (coreOf tid)
    let c := co s (coreOf tid)
    setCo s (coreOf tid) { c with ch := { c.ch with state := 3 } }
  else s

/-- May the movement thread's channel not be paused: a reduction has sent its last source chunk (R369), or the receivers
of a multicast do not all stand at the next chunk, which is the one place that a save area keeps (R267, R279)? -/
def channelFirm (s : State) (tid : Nat) : Bool :=
  let c := (co s (coreOf tid)).ch
  slotOf tid == 15 && c.state == 2 && (match c.req with
    | some r => (r.kind == .reduce && r.joined) || (c.fault.isNone && r.rcv.any fun x => x.2 != r.chunk)
    | none => false)

/-- May a Parked or Dropped thread that is marked stop now, and in what state: its Marver commands and streaming vector
instructions complete, its long results written; a failed one makes it Ready for its own trap first (R59, R77, R123, log 62). -/
def stopAside (s : State) (tid : Nat) : Option State :=
  let t := th s tid
  if tileBusy s tid ∨ t.longs.any Long.open_ then none
  else vQuiet (if t.longs.any Long.bad then failTrap (wakeFor s tid) tid else s) tid

/-- The stop of a marked thread, when its conditions hold, its Marver commands complete among them; then the add of its group's stop (R76, R77, R174, R215). -/
def stopTry (s : State) (tid : Nat) : Option State :=
  let t := th s tid
  let go (s : State) : State :=
    let s := stopAdd (stopNow s tid) tid
    match memberOf s tid with
    | some (k, _) => settleStop s k
    | none => s
  if t.stop.isNone ∨ channelFirm s tid then none
  else match t.state with
    | .parked => (stopAside s tid).map go
    | .dropped => (stopAside s tid).map go
    | .ready => (stopReady s tid).map go
    | _ => none

/-- A Stopped thread returns to the state that it held: a Parked one is re-armed when its counter's address resolves
afresh, and re-reads at once; otherwise its bundle is issued anew (R53, R199). -/
def resume (s : State) (tid : Nat) : State :=
  let t := th s tid
  if t.state ≠ .stopped then s
  else
    let ready (s : State) : State := setTh s tid { th s tid with state := .ready, saved := none, reissue := false }
    let s := match t.prior, t.saved with
      | .parked, some w =>
        let who := whoOf s tid
        match engineLoc s who w.addr .load with
        | (.ok l _ _, s) =>
          if !(homeReach s l) ∨ homeDenied s (partOf s tid) l ∨ homeGone s l then ready s
          else
            let x : Wait := { addr := w.addr, thr := w.thr, scope := w.scope, loc := l, guard := w.guard, woken := true,
                              seen := BitVec.ofNat 64 (rdLoc s l 8),
                              due := if w.remain = 0 then none else some (s.cycle + w.remain), how := w.how }
            setTh s tid { th s tid with state := .parked, saved := none, wait := some x }
        | _ => ready s
      | _, _ => ready s
    let c := co s (coreOf tid)
    if slotOf tid = 15 ∧ c.ch.state = 3 then setCo s (coreOf tid) { c with ch := { c.ch with state := 2 } } else s

/-! ### Placing a thread (R74, R85, R86) -/

/-- Has a Free slot performed what an earlier thread left in its store queue? -/
def slotClean (t : Thread) : Bool := t.stores.isEmpty && t.sent.isEmpty && t.precs.isEmpty

/-- Does a holding TILE word of a thread that was ended still run (R174)? -/
def tileLeft (s : State) (tid : Nat) : Bool :=
  (tq s (coreOf tid)).any fun c => c.tid == tid && c.orphan && !c.op.streams

/-- May the Gaffer and `thr.spawn` place a thread in a slot: it is Free, and not slot 15 of an enabled channel (R57)? -/
def slotOpen (s : State) (tid : Nat) : Bool :=
  (th s tid).state == .free && !(slotOf tid == 15 && (co s (coreOf tid)).ch.en) && !(reserved s tid) &&
  !(tileLeft s tid)

/-- The lowest open slot of a core, a clean one first (log 5). -/
def openSlot (s : State) (core : Nat) : Option Nat :=
  match (List.range 16).find? fun k => slotOpen s (core * 16 + k) && slotClean (th s (core * 16 + k)) with
  | some k => some (core * 16 + k)
  | none => ((List.range 16).find? fun k => slotOpen s (core * 16 + k)).map fun k => core * 16 + k

/-- The per-slot registers as a slot gives them to a new thread of a context: with another VMID all but three are at their
reset values, and with the same VMID they stay. R86 names registers that then keep their values and is silent on the
others, which stay too (DESIGN CHOICE, log 61). -/
def placeRegs (s : State) (tid ctx : Nat) : Thread :=
  let t := th s tid
  let vmid := (cx s ctx).vmid
  let same := t.used ∧ t.vmid = vmid
  let hr : HypRegs := { deleg := t.hr.deleg, vec := t.hr.vec, scratch := t.hr.scratch }
  { state := .ready, u := if same then t.u else {}, sr := if same then t.sr else {}, hr := if same then t.hr else hr,
    v := if same then { t.v with rows := 0, queue := [] } else {}, ts := 0, vmid := vmid, used := true, ctx := ctx,
    was := t.was }

/-- Depth rows given to a placed thread (R113). -/
def withRows (t : Thread) (rows : Nat) : Thread :=
  { t with v := { t.v with rows := rows, vl := 0, vrs := 0, vdm := 0, masks := [], sdepth := BitVec.ofNat 64 rows } }

/-! ### Joining (R205, R206, R210) -/

/-- Why a join is refused: its status code (R208). A join that names no rank gets −6 when all 4,096 are taken (DESIGN CHOICE,
log 29). -/
def joinRefused (s : State) (gid ctx : Nat) (rank : Option Nat) : Option Int :=
  match groupKey s gid with
  | none => some (-7)
  | some k =>
    let g := gr s k
    if g.ctx ≠ ctx then some (-2)
    else if isGang g then some (-3)
    else match rank with
      | some r => if 4095 < r ∨ (rankThread g r).isSome then some (-6) else none
      | none => if 4095 < freeRank g then some (-6) else none

/-- A thread joins a group with a rank, or with the lowest free one. -/
def joinGroup (s : State) (k tid : Nat) (rank : Option Nat) : State × Nat :=
  let g := gr s k
  let r := rank.getD (freeRank g)
  (setGr s k { g with state := if g.state = .empty then .opened else g.state,
                      members := insertMember g.members r tid }, r)

/-- The lowest free entry of a partition's group table (R204). -/
def freeGroup (s : State) (part : Nat) : Option Nat :=
  (leastFrom (fun i => !(gr s (part * 4096 + i)).used) 0 4096).map fun i => part * 4096 + i

/-- A group made for a context in a free entry. -/
def newGroup (s : State) (k ctx : Nat) : State :=
  setGr s k { gen := (gr s k).gen, used := true, state := .empty, ctx := ctx, members := [] }

end Sys2Proof.Machine
end

