-- ==== Sys2Proof/Machine/Group.lean ====
section
/-! DEFINITION. The GRP words, and the delivery of a multicast (R204-R218). -/

namespace Sys2Proof.Machine

/-- A GRP word ends with a status or a number in d (R208). -/
def grpEnd (s : State) (p : BitVec 1) (d : BitVec 5) (n : Int) : State := finish (wr s d (statusOf n)) p

/-- The group that an identifier names for the issuer: its table key, or the status (R204, R208). -/
def grpNamed (s : State) (gid : Word) : Int ⊕ Nat :=
  match groupKey s gid.toNat with
  | none => .inl (-7)
  | some k => if (gr s k).ctx = (me s).ctx then .inr k else .inl (-2)

/-- Is the issuer a member of a group? -/
def memberHere (s : State) (k : Nat) : Bool := (gr s k).members.any fun m => m.2 = s.cur

def stoppedHere (s : State) (tid : Nat) : Bool := (th s tid).state == .stopped

/-! ### Membership (R209-R212) -/

/-- `grp.new` (R209). -/
def execGrpNew (p : BitVec 1) (d a : BitVec 5) (s : State) : Out :=
  let v := (rd s a).toNat
  .next (if 1 < v then illegal s (wordGrpNew p d a)
    else if v = 1 ∧ (memberOf s s.cur).isSome then grpEnd s p d (-8)
    else match freeGroup s (partOf s s.cur) with
      | none => grpEnd s p d (-1)
      | some k =>
        let s := newGroup s k (me s).ctx
        let s := if v = 1 then (joinGroup s k s.cur (some 0)).1 else s
        finish (wr s d (BitVec.ofNat 64 (gidOf (k / 4096) (k % 4096) (gr s k).gen))) p)

/-- `grp.join` (R210). Of −9, −3, −8 and −6 the first that applies, in this order (DESIGN CHOICE, log 29). -/
def execGrpJoin (p : BitVec 1) (d a b : BitVec 5) (s : State) : Out :=
  let v := rd s b
  let w := wordGrpJoin p d a b
  let tgt := bit v 63
  let rk := bit v 62
  let rank := bits v 27 16
  let who := if tgt then bits v 13 0 else s.cur
  .next (if bits v 61 28 ≠ 0 ∨ bits v 15 14 ≠ 0 ∨ (!tgt ∧ bits v 13 0 ≠ 0) ∨ (!rk ∧ rank ≠ 0) then illegal s w
    else if tgt ∧ (me s).priv = .user then raise s 3 (BitVec.ofNat 64 w)
    else match grpNamed s (rd s a) with
      | .inl n => grpEnd s p d n
      | .inr k =>
        if tgt ∧ (!(stoppedHere s who) ∨ (th s who).ctx ≠ (me s).ctx) then grpEnd s p d (-9)
        else if isGang (gr s k) then grpEnd s p d (-3)
        else if (memberOf s who).isSome then grpEnd s p d (-8)
        else
          let r := if rk then some rank else none
          match joinRefused s (rd s a).toNat (me s).ctx r with
          | some n => grpEnd s p d n
          | none =>
            let (s, n) := joinGroup s k who r
            grpEnd s p d n)

/-- `grp.leave` (R211). -/
def execGrpLeave (p : BitVec 1) (d : BitVec 5) (s : State) : Out :=
  .next (match memberOf s s.cur with
    | none => grpEnd s p d (-10)
    | some (_, r) => grpEnd (leaveGroup s s.cur) p d r)

/-- `grp.size` (R212). -/
def execGrpSize (p : BitVec 1) (d a : BitVec 5) (s : State) : Out :=
  let v := rd s a
  .next (if v = 0 then
      match memberOf s s.cur with
      | none => grpEnd s p d (-10)
      | some (k, _) => grpEnd s p d (gr s k).members.length
    else match grpNamed s v with
      | .inl n => grpEnd s p d n
      | .inr k => grpEnd s p d (gr s k).members.length)

/-- `grp.rank` (R212). -/
def execGrpRank (p : BitVec 1) (d : BitVec 5) (s : State) : Out :=
  .next (match memberOf s s.cur with
    | none => grpEnd s p d (-10)
    | some (_, r) => grpEnd s p d r)

/-! ### Pinning (R213) -/

/-- The group of `grp.pin` and `grp.unpin`: at user privilege, the issuer must be a member (R208). -/
def grpPinNamed (s : State) (gid : Word) : Int ⊕ Nat :=
  match grpNamed s gid with
  | .inl n => .inl n
  | .inr k => if (me s).priv = .user ∧ !(memberHere s k) then .inl (-2) else .inr k

/-- `grp.pin` (R213). -/
def execGrpPin (p : BitVec 1) (d a : BitVec 5) (s : State) : Out :=
  .next (match grpPinNamed s (rd s a) with
    | .inl n => grpEnd s p d n
    | .inr k =>
      let g := gr s k
      if isGang g then grpEnd s p d 0
      else if g.members.isEmpty then grpEnd s p d (-3)
      else if g.members.all fun m => stoppedHere s m.2 then grpEnd (setGr s k { g with state := .held }) p d 0
      else if g.members.any fun m => stoppedHere s m.2 then grpEnd s p d (-4)
      else grpEnd (setGr s k { g with state := .pinned }) p d 0)

/-- `grp.unpin` (R213, R253). -/
def execGrpUnpin (p : BitVec 1) (d a : BitVec 5) (s : State) : Out :=
  .next (match grpPinNamed s (rd s a) with
    | .inl n => grpEnd s p d n
    | .inr k =>
      let g := gr s k
      if g.state = .stopping then held s
      else if isGang g then
        let s := haloEndGang s (rd s a).toNat
        grpEnd (setGr s k { gr s k with state := .opened }) p d 0
      else grpEnd s p d 0)

/-! ### Stop, go and kill (R215-R217) -/

/-- A member marked for stopping (R215). -/
def grpMark (s : State) (ctr : Option Loc) (addr : Word) (tid : Nat) : State :=
  setTh s tid { th s tid with stop := some { ctr := ctr, addr := addr } }

/-- A marked member that is Parked or Dropped stops at once (R215). -/
def grpHalt (s : State) (tid : Nat) : State :=
  match (th s tid).state with
  | .ready => s
  | _ => (stopTry s tid).getD s

/-- `grp.stop`: every member is marked, and then those that can stop at once do; the group is Held only when no mark is
left (R206, R215). -/
def grpStopAll (s : State) (k : Nat) (ctr : Option Loc) (addr : Word) : State × Nat :=
  let g := gr s k
  let ms := (g.members.map (·.2)).filter fun t => !(stoppedHere s t) && (th s t).stop.isNone
  let s := if g.state = .pinned then setGr s k { g with state := .stopping } else s
  (settleStop (ms.foldl grpHalt (ms.foldl (fun s t => grpMark s ctr addr t) s)) k, ms.length)

/-- `grp.stop` (R215). -/
def execGrpStop (p : BitVec 1) (d a b : BitVec 5) (s : State) : Out :=
  let addr := rd s b
  .next (if (me s).priv = .user then raise s 3 (BitVec.ofNat 64 (wordGrpStop p d a b))
    else match grpNamed s (rd s a) with
      | .inl n => grpEnd s p d n
      | .inr k =>
        if memberHere s k then raise s 21 (rd s a)
        else if addr = 0 then
          let (s, n) := grpStopAll s k none 0
          grpEnd s p d n
        else match ctrFind s addr .store 0 with
          | .fault r s => counterFault s addr r
          | .ends s => s
          | .at_ l s =>
            let (s, n) := grpStopAll s k (some l) addr
            grpEnd s p d n)

/-- `grp.go` (R216). -/
def execGrpGo (p : BitVec 1) (d a : BitVec 5) (s : State) : Out :=
  .next (if (me s).priv = .user then raise s 3 (BitVec.ofNat 64 (wordGrpGo p d a))
    else match grpNamed s (rd s a) with
      | .inl n => grpEnd s p d n
      | .inr k =>
        let g := gr s k
        if g.members.any fun m => (th s m.2).stop.isSome then held s
        else
          let ms := (g.members.map (·.2)).filter (stoppedHere s)
          let s := if g.state = .held then setGr s k { g with state := .pinned } else s
          grpEnd (ms.foldl resume s) p d ms.length)

/-- Does a tile command of a thread that the issuer killed still run (R174, R217)? -/
def tileEnding (s : State) : Bool := s.cores.any fun e => e.2.tq.any fun c => c.killer == some s.cur

/-- The running commands of killed members name the issuer, which waits for them (R217). -/
def tileKilled (s : State) (ms : List Nat) : State :=
  let mark (c : TileCmd) : TileCmd :=
    if c.orphan ∧ c.killer.isNone ∧ ms.contains c.tid then { c with killer := some s.cur } else c
  { s with cores := s.cores.map fun e => (e.1, { e.2 with tq := e.2.tq.map mark }) }

/-- `grp.kill` (R217): the members are ended at once; it completes when no tile command of theirs runs. Its kills are
made, so no trap or stop enters before it completes (R54). -/
def execGrpKill (p : BitVec 1) (d a : BitVec 5) (s : State) : Out :=
  .next (if (me s).priv = .user then raise s 3 (BitVec.ofNat 64 (wordGrpKill p d a))
    else if stageOf s = killStage then
      if tileEnding s then holdAt s killStage (match (me s).hold with | some h => h.a | none => 0) 0 0
      else finish (wr s d (match (me s).hold with | some h => h.a | none => 0)) p
    else match grpNamed s (rd s a) with
      | .inl n => grpEnd s p d n
      | .inr k =>
        if memberHere s k then raise s 21 (rd s a)
        else
          let ms := (gr s k).members.map (·.2)
          let s := if ms.isEmpty then dissolve s k else tileKilled (killThreads s ms) ms
          if tileEnding s then holdAt s killStage (BitVec.ofNat 64 ms.length) 0 0 else grpEnd s p d ms.length)

/-! ### Multicast (R214) -/

/-- A multicast descriptor (R214). -/
structure McastDesc where
  src : Nat
  dst : Nat
  rows : Nat
  rowb : Nat
  sstride : Nat
  dstride : Nat
  base : Nat
  ctr : Nat
  scope : Nat
  ce : Bool
  mask : Nat
  /-- A field is outside its limits, or a zero field is not zero. -/
  bad : Bool
  deriving DecidableEq, Repr

def mcastDesc (bs : List Byte) : McastDesc :=
  let rows := field bs 8 2
  let rowb := field bs 10 2
  let b := field bs 20 2
  let c := field bs 23 1
  { src := field bs 0 4, dst := field bs 4 4, rows := rows, rowb := rowb, sstride := field bs 12 4,
    dstride := field bs 16 4, base := b % 4096, ctr := field bs 22 1, scope := c % 8, ce := c / 128 = 1,
    mask := field bs 24 8,
    bad := rows = 0 || 4096 < rows || rowb < 4 || 4096 < rowb || rowb % 4 ≠ 0 || 4096 ≤ b || c % 8 = 7 ||
      c / 8 % 16 ≠ 0 }

/-- 8-byte words of the issuer's scratchpad, read in program order. -/
def spadRun (s : State) (off : Nat) : Nat → List Byte × Ld
  | 0 => ([], .value 0 s)
  | k + 1 =>
    match readLoc s s.cur (BitVec.ofNat 64 off) (.spad (coreOf s.cur) off) 8 0 with
    | .value v s =>
      match spadRun s (off + 8) k with
      | (bs, r) => (natBytes 8 v ++ bs, r)
    | .failed c s => ([], .ends (raise s c (BitVec.ofNat 64 off)))
    | r => ([], r)

/-- The cores of the receivers, and the mask of skipped bits (R214). -/
def mcastCores (s : State) (x : McastDesc) : List Nat × Nat :=
  (List.range 64).foldl (fun r k =>
    if x.mask / 2 ^ k % 2 = 0 then r
    else
      let rank := x.base + k
      let own : Bool := match memberOf s s.cur with | some (_, n) => n == rank | none => false
      match (if 4095 < rank ∨ own then none else rankCore s s.cur rank) with
      | some c =>
        if x.dst + (x.rows - 1) * x.dstride + x.rowb ≤ spSize s c then (r.1 ++ [c], r.2) else (r.1, r.2 + 2 ^ k)
      | none => (r.1, r.2 + 2 ^ k)) ([], 0)

/-- The multicast accepted: its delivery goes on after the word (R214). -/
def mcastGo (s : State) (p : BitVec 1) (d : BitVec 5) (x : McastDesc) (src : Option (Loc × Word)) : State :=
  let (cores, skipped) := mcastCores s x
  let m : Mcast := { tid := s.cur, ctx := (me s).ctx, panel := [], dst := x.dst, dstride := x.dstride,
                     ctrEnt := if x.ce then some x.ctr else none, scope := x.scope, left := cores, src := src,
                     seq := s.order, srcOff := x.src, rowb := x.rowb, sstride := x.sstride, rows := x.rows }
  finish (wr (tick { s with mcasts := s.mcasts ++ [m] }) d (BitVec.ofNat 64 skipped)) p

/-- The first misaligned of a descriptor's own offset and its strides (R214). -/
def mcastSkew (off : Word) (x : McastDesc) : Option Word :=
  if off.toNat % 8 ≠ 0 then some off
  else if x.sstride % 4 ≠ 0 then some (BitVec.ofNat 64 x.sstride)
  else if x.dstride % 4 ≠ 0 then some (BitVec.ofNat 64 x.dstride)
  else none

/-- `grp.mcast` (R214). The causes come in the order of R214's list (R24): the gang, the range of the descriptor and of the
source rows, the fields, the alignments, the counter (log 14). -/
def execGrpMcast (p : BitVec 1) (d a b : BitVec 5) (s : State) : Out :=
  let off := (rd s a).toNat
  let size := spSize s (coreOf s.cur)
  .next (if !(inGang s s.cur) then raise s 21 (BitVec.ofNat 64 (grpid s s.cur))
    else if size < off + 32 then raise s 6 (rd s a)
    else if vstPending (me s) then held s
    else match spadRun s off 4 with
      | (_, .ends s) => s
      | (_, .failed c s) => raise s c (rd s a)
      | (_, .hold s) => held s
      | (bs, .value _ s) =>
        let x := mcastDesc bs
        match (List.range x.rows).find? fun i => size < x.src + i * x.sstride + x.rowb with
        | some i => raise s 6 (BitVec.ofNat 64 (x.src + i * x.sstride))
        | none =>
          if x.bad then illegal s (wordGrpMcast p d a b)
          else if (mcastSkew (rd s a) x).isSome then raise s 5 ((mcastSkew (rd s a) x).getD 0)
          else if rd s b = 0 then mcastGo s p d x none
          else match ctrFind s (rd s b) .store 0 with
            | .fault r s => counterFault s (rd s b) r
            | .ends s => s
            | .at_ l s => mcastGo s p d x (some (l, rd s b)))

/-- The panel read from the issuer's scratchpad, and the source counter's add, which is posted and is performed at its home
when it can be reached (R214, R363). -/
def mcastRead (s : State) (n : Nat) (m : Mcast) : State :=
  let core := coreOf m.tid
  let row (i : Nat) : Loc := .spad core (m.srcOff + i * m.sstride)
  let panel := (List.range m.rows).map fun i => bytesAt s (row i) m.rowb
  let bad := (List.range m.rows).flatMap fun i =>
    ((List.range m.rowb).filter fun j => poisoned s ((row i).plus j) 1).map fun j => (i, j)
  let s := { s with mcasts := lput s.mcasts n { m with panel := panel, bad := bad, read := true } }
  match m.src with
  | none => s
  | some (l, addr) =>
    tick { s with posts := s.posts ++ [{ kind := .add, seq := s.order, tid := m.tid, ctx := m.ctx, addr := addr, loc := l,
                                         amount := 1, scope := m.scope }] }

/-- Are the earlier accesses of a multicast's issuer performed (R214)? -/
def mcastReady (s : State) (m : Mcast) : Bool :=
  storesBefore (th s m.tid) m.seq && !(s.posts.any fun p => p.tid == m.tid && p.seq < m.seq)

/-- One receiver's bytes written, and its near counter advanced (R214). -/
def mcastWrite (s : State) (m : Mcast) (core : Nat) : State :=
  let s := (m.panel.mapIdx fun i bs => (i, bs)).foldl (fun s r => storeBytes s (.spad core (m.dst + r.1 * m.dstride)) r.2) s
  let s := m.bad.foldl (fun s e =>
    { s with poison := (Loc.spad core (m.dst + e.1 * m.dstride + e.2)).unit :: s.poison }) s
  match m.ctrEnt with
  | some e => addAt s (.near core e) 1
  | none => s

/-- `GRP_MCAST_DELIVERY`: the n-th multicast reads its panel, after every earlier access of its issuer, or delivers it to
the `rcv`-th of the receivers that are left (R214). -/
def execGrpMcastDelivery (n rcv : Nat) (s : State) : Out :=
  match s.mcasts[n]? with
  | none => .next s
  | some m =>
    .next (if !m.read then
        if mcastReady s m then
          let s := mcastRead s n m
          if m.left.isEmpty then { s with mcasts := ldel s.mcasts n } else s
        else s
      else match m.left[rcv]? with
        | none => s
        | some core =>
          let left := ldel m.left rcv
          let s := mcastWrite s m core
          { s with mcasts := if left.isEmpty then ldel s.mcasts n else lput s.mcasts n { m with left := left } })

end Sys2Proof.Machine
end

