-- ==== Sys2Proof/Machine/Crypto.lean ====
section
/-! DEFINITION. The functions that the spec names by their standards: SHA-256, HMAC and HKDF with it, AES-256-GCM, and
ECDSA and ECDH over P-256 (R339, R341, R344, R348, R354). Byte strings stand in the order of the standards. -/

namespace Sys2Proof.Machine

/-! ### Byte strings -/

/-- The number that a byte string spells, first byte highest. -/
def beNat (bs : List Byte) : Nat := bs.foldl (fun n b => n * 256 + b.toNat) 0

/-- The `n` bytes that spell a number, highest first. -/
def beBytes (n v : Nat) : List Byte := (List.range n).map fun i => BitVec.ofNat 8 (v / 256 ^ (n - 1 - i))

/-- A byte string cut into pieces of `n` bytes, the last one perhaps shorter; `fuel` bounds their number. -/
def blocks (n : Nat) (bs : List Byte) : Nat → List (List Byte)
  | 0 => []
  | k + 1 => if bs.isEmpty then [] else bs.take n :: blocks n (bs.drop n) k

/-- Two byte strings combined bit by bit. -/
def xorBytes (a b : List Byte) : List Byte := (a.zip b).map fun x => x.1 ^^^ x.2

/-! ### SHA-256 -/

/-- The first 64 primes. -/
def primes : List Nat :=
  [2, 3, 5, 7, 11, 13, 17, 19, 23, 29, 31, 37, 41, 43, 47, 53, 59, 61, 67, 71, 73, 79, 83, 89, 97, 101, 103, 107, 109,
   113, 127, 131, 137, 139, 149, 151, 157, 163, 167, 173, 179, 181, 191, 193, 197, 199, 211, 223, 227, 229, 233, 239,
   241, 251, 257, 263, 269, 271, 277, 281, 283, 293, 307, 311]

/-- The largest x below 2^bits with x^e not above n, built from its top bit. -/
def rootOf (e n : Nat) : Nat → Nat → Nat
  | 0, x => x
  | k + 1, x => rootOf e n k (if (x + 2 ^ k) ^ e ≤ n then x + 2 ^ k else x)

/-- The round constants: the first 32 fraction bits of the cube roots of the primes; and the start, of the square roots. -/
def shaK : List (BitVec 32) := primes.map fun p => BitVec.ofNat 32 (rootOf 3 (p * 2 ^ 96) 36 0)
def shaStart : List (BitVec 32) := (primes.take 8).map fun p => BitVec.ofNat 32 (rootOf 2 (p * 2 ^ 64) 38 0)

/-- A word of the message schedule from those before it, the latest first. -/
def shaNext (w : List (BitVec 32)) : BitVec 32 :=
  let a := w.getD 1 0
  let b := w.getD 14 0
  let s1 := a.rotateRight 17 ^^^ a.rotateRight 19 ^^^ (a >>> 10)
  let s0 := b.rotateRight 7 ^^^ b.rotateRight 18 ^^^ (b >>> 3)
  s1 + w.getD 6 0 + s0 + w.getD 15 0

/-- The message schedule, the latest word first. -/
def shaSchedule (w : List (BitVec 32)) : Nat → List (BitVec 32)
  | 0 => w
  | k + 1 => let l := shaSchedule w k; shaNext l :: l

/-- One round on the eight working words. -/
def shaRound (v : List (BitVec 32)) (kw : BitVec 32 × BitVec 32) : List (BitVec 32) :=
  match v with
  | [a, b, c, d, e, f, g, h] =>
    let t1 := h + (e.rotateRight 6 ^^^ e.rotateRight 11 ^^^ e.rotateRight 25) + ((e &&& f) ^^^ (~~~e &&& g)) + kw.1 + kw.2
    let t2 := (a.rotateRight 2 ^^^ a.rotateRight 13 ^^^ a.rotateRight 22) + ((a &&& b) ^^^ (a &&& c) ^^^ (b &&& c))
    [t1 + t2, a, b, c, d + t1, e, f, g]
  | v => v

/-- A block of 64 bytes taken into the hash. -/
def shaBlock (h : List (BitVec 32)) (b : List Byte) : List (BitVec 32) :=
  let w := ((blocks 4 b 16).map fun x => BitVec.ofNat 32 (beNat x)).reverse
  let ws := (shaSchedule w 48).reverse
  (h.zip ((shaK.zip ws).foldl shaRound h)).map fun x => x.1 + x.2

/-- The message padded to whole blocks. -/
def shaPad (m : List Byte) : List Byte :=
  m ++ [0x80] ++ List.replicate ((119 - m.length % 64) % 64) 0 ++ beBytes 8 (8 * m.length)

/-- SHA-256 of a byte string: 32 bytes. -/
def sha256 (m : List Byte) : List Byte :=
  ((blocks 64 (shaPad m) (m.length / 64 + 2)).foldl shaBlock shaStart).flatMap fun w => beBytes 4 w.toNat

/-! ### HMAC and HKDF -/

def hmac (key m : List Byte) : List Byte :=
  let k := if 64 < key.length then sha256 key else key
  let k := k ++ List.replicate (64 - k.length) 0
  sha256 (k.map (· ^^^ 0x5C) ++ sha256 (k.map (· ^^^ 0x36) ++ m))

/-- HKDF-SHA-256 for one output block of 32 bytes: salt, input key, info. -/
def hkdf (salt ikm info : List Byte) : List Byte :=
  hmac (hmac (if salt.isEmpty then List.replicate 32 0 else salt) ikm) (info ++ [1])

/-! ### AES-256 -/

/-- A product in the field of 2^8 elements. -/
def gf8 (a b : Byte) : Byte :=
  ((List.range 8).foldl (fun (r : Byte × Byte) i =>
    (if b.getLsbD i then r.1 ^^^ r.2 else r.1, (r.2 <<< 1) ^^^ (if r.2.msb then 0x1B else 0))) (0, a)).1

/-- The inverse: the 254th power. -/
def gf8inv (a : Byte) : Byte :=
  let sq (x : Byte) : Byte := gf8 x x
  ((List.range 7).foldl (fun (r : Byte × Byte) _ => (gf8 r.1 (sq r.2), sq r.2)) (1, a)).1

def sbox (a : Byte) : Byte :=
  let x := gf8inv a
  x ^^^ x.rotateLeft 1 ^^^ x.rotateLeft 2 ^^^ x.rotateLeft 3 ^^^ x.rotateLeft 4 ^^^ 0x63

/-- The round constant of a number. -/
def aesRcon : Nat → Byte
  | 0 => 1
  | n + 1 => gf8 (aesRcon n) 2

/-- Word `i` of the key schedule from the words before it, the latest first. -/
def aesWord (ws : List (List Byte)) (i : Nat) : List Byte :=
  let t := ws.getD 0 []
  let t := if i % 8 = 0 then
      match (t.drop 1 ++ t.take 1).map sbox with
      | x :: r => (x ^^^ aesRcon (i / 8 - 1)) :: r
      | [] => []
    else if i % 8 = 4 then t.map sbox else t
  xorBytes (ws.getD 7 []) t

/-- The round keys of AES-256: 15 of 16 bytes. -/
def aesKeys (key : List Byte) : List (List Byte) :=
  let ws := (List.range 52).foldl (fun l i => aesWord l (i + 8) :: l) (blocks 4 key 8).reverse
  blocks 16 ws.reverse.flatten 15

/-- Rows shifted: byte `r + 4 c` comes from column `c + r`. -/
def aesShift (s : List Byte) : List Byte := (List.range 16).map fun i => s.getD ((i + 4 * (i % 4)) % 16) 0

/-- Columns mixed. -/
def aesMix (s : List Byte) : List Byte :=
  (List.range 16).map fun i =>
    let at_ (k : Nat) : Byte := s.getD (i / 4 * 4 + (i + k) % 4) 0
    gf8 (at_ 0) 2 ^^^ gf8 (at_ 1) 3 ^^^ at_ 2 ^^^ at_ 3

/-- A block encrypted with its round keys. -/
def aesRounds (s : List Byte) : List (List Byte) → List Byte
  | [] => s
  | [k] => xorBytes (aesShift (s.map sbox)) k
  | k :: r => aesRounds (xorBytes (aesMix (aesShift (s.map sbox))) k) r

def aes (keys : List (List Byte)) (b : List Byte) : List Byte := aesRounds (xorBytes b (keys.getD 0 [])) (keys.drop 1)

/-! ### GCM -/

/-- A product in GCM's field of 2^128 elements, whose first bit is the highest. -/
def gmul (x y : Nat) : Nat :=
  ((List.range 128).foldl (fun (r : Nat × Nat) i =>
    (if x.testBit (127 - i) then r.1 ^^^ r.2 else r.1,
     r.2 / 2 ^^^ (if r.2.testBit 0 then 0xE1 * 2 ^ 120 else 0))) (0, y)).1

/-- Bytes filled with zeros to whole blocks. -/
def pad16 (bs : List Byte) : List Byte := bs ++ List.replicate ((16 - bs.length % 16) % 16) 0

/-- The tag of additional data and ciphertext. -/
def gcmTag (keys : List (List Byte)) (iv aad c : List Byte) : List Byte :=
  let h := beNat (aes keys (List.replicate 16 0))
  let m := pad16 aad ++ pad16 c ++ beBytes 8 (8 * aad.length) ++ beBytes 8 (8 * c.length)
  let g := (blocks 16 m (m.length / 16)).foldl (fun y b => gmul (y ^^^ beNat b) h) 0
  xorBytes (beBytes 16 g) (aes keys (iv ++ beBytes 4 1))

/-- The text combined with the key stream. -/
def gcmStream (keys : List (List Byte)) (iv bs : List Byte) : List Byte :=
  ((blocks 16 bs (bs.length / 16 + 1)).mapIdx fun i b => xorBytes b (aes keys (iv ++ beBytes 4 (i + 2)))).flatten

/-- AES-256-GCM with an IV of 12 bytes: ciphertext and tag. -/
def gcmSeal (key iv aad plain : List Byte) : List Byte × List Byte :=
  let keys := aesKeys key
  let c := gcmStream keys iv plain
  (c, gcmTag keys iv aad c)

/-- The plaintext of a ciphertext whose tag verifies. -/
def gcmOpen (key iv aad cipher tag : List Byte) : Option (List Byte) :=
  let keys := aesKeys key
  if gcmTag keys iv aad cipher = tag then some (gcmStream keys iv cipher) else none

/-! ### P-256 -/

def p256p : Nat := 2 ^ 256 - 2 ^ 224 + 2 ^ 192 + 2 ^ 96 - 1
def p256n : Nat := 0xFFFFFFFF00000000FFFFFFFFFFFFFFFFBCE6FAADA7179E84F3B9CAC2FC632551
def p256b : Nat := 0x5AC635D8AA3A93E7B3EBBD55769886BC651D06B0CC53B0F63BCE3C3E27D2604B
def p256g : Nat × Nat :=
  (0x6B17D1F2E12C4247F8BCE6E563A440F277037D812DEB33A0F4A13945D898C296,
   0x4FE342E2FE1A7F9B8EE7EB4A7C0F9E162BCE33576B315ECECBB6406837BF51F5)

/-- A power modulo m, over the low `k` bits of the exponent. -/
def powMod (m a e : Nat) : Nat → Nat
  | 0 => 1
  | k + 1 =>
    let r := powMod m (a * a % m) (e / 2) k
    if e % 2 = 1 then a * r % m else r

/-- The inverse modulo a prime. -/
def invMod (m a : Nat) : Nat := powMod m (a % m) (m - 2) 256

/-- The sum of two points of the curve; none is the point at infinity. -/
def p256add (a b : Option (Nat × Nat)) : Option (Nat × Nat) :=
  match a, b with
  | none, b => b
  | a, none => a
  | some (x1, y1), some (x2, y2) =>
    let p := p256p
    if x1 = x2 ∧ (y1 + y2) % p = 0 then none
    else
      let l := if x1 = x2 then (3 * x1 * x1 + (p - 3)) * invMod p (2 * y1) % p
               else (y2 + (p - y1)) * invMod p (x2 + (p - x1)) % p
      let x := (l * l + (p - x1) + (p - x2)) % p
      some (x, (l * (x1 + (p - x)) + (p - y1)) % p)

/-- A multiple of a point, over the low `k` bits of the factor. -/
def p256mul (n : Nat) (a : Option (Nat × Nat)) : Nat → Option (Nat × Nat)
  | 0 => none
  | k + 1 =>
    if n = 0 then none
    else
      let r := p256mul (n / 2) (p256add a a) k
      if n % 2 = 1 then p256add a r else r

/-- Is a pair of coordinates a point of the curve? -/
def p256on (a : Nat × Nat) : Bool :=
  a.1 < p256p && a.2 < p256p && (a.2 * a.2) % p256p == (a.1 * a.1 * a.1 + (p256p - 3) * a.1 + p256b) % p256p

/-- The point of a public key of 64 bytes, x then y. -/
def p256key (k : List Byte) : Nat × Nat := (beNat (k.take 32), beNat (k.drop 32))

/-- Does a signature (r, s) of 64 bytes over SHA-256 of a message verify under a public key of 64 bytes (R354, R382)? -/
def ecdsaVerify (key msg sig : List Byte) : Bool :=
  let q := p256key key
  let r := beNat (sig.take 32)
  let s := beNat (sig.drop 32)
  let w := invMod p256n s
  let z := beNat (sha256 msg)
  key.length == 64 && sig.length == 64 && p256on q && 1 ≤ r && r < p256n && 1 ≤ s && s < p256n &&
  match p256add (p256mul (z * w % p256n) (some p256g) 256) (p256mul (r * w % p256n) (some q) 256) with
  | some (x, _) => x % p256n == r
  | none => false

/-- The signature (r, s) of a message under a private key, with the secret number of the signature. -/
def ecdsaSign (d k : Nat) (msg : List Byte) : List Byte :=
  let r := match p256mul k (some p256g) 256 with
    | some (x, _) => x % p256n
    | none => 0
  let s := invMod p256n k * (beNat (sha256 msg) + r * d) % p256n
  beBytes 32 r ++ beBytes 32 s

/-- A private key from 32 random bytes; its public key; and the shared secret of ECDH with another's public key, none
where that is no point of the curve. -/
def p256private (bs : List Byte) : Nat := beNat bs % (p256n - 1) + 1

def p256public (d : Nat) : List Byte :=
  match p256mul d (some p256g) 256 with
  | some (x, y) => beBytes 32 x ++ beBytes 32 y
  | none => beBytes 64 0

def ecdh (d : Nat) (key : List Byte) : Option (List Byte) :=
  if key.length = 64 ∧ p256on (p256key key) then
    (p256mul d (some (p256key key)) 256).map fun a => beBytes 32 a.1
  else none

/-! ### Keys and random bytes of the package -/

/-- The signatures of a message under the package's attestation key and its sealing key (R344, R348). -/
def signAttest (m : List Byte) : List Byte :=
  ecdsaSign (p256private (beBytes 32 Config.attestSecret.toNat)) (p256private (beBytes 32 (Config.signNonce m).toNat)) m

def signSeal (m : List Byte) : List Byte :=
  ecdsaSign (p256private (beBytes 32 Config.sealSecret.toNat)) (p256private (beBytes 32 (Config.signNonce m).toNat)) m

/-- The public half of the package's sealing key, that of the package that a quote names, and Fealman's root key (R340,
R341, R392). -/
def sealKey : List Byte := p256public (p256private (beBytes 32 Config.sealSecret.toNat))
def sealKeyOf (quote : List Byte) : List Byte := beBytes 64 (Config.sealKeyOf quote).toNat
def rootKey : List Byte := beBytes 64 Config.rootKey.toNat

/-- 32 bytes drawn at random. -/
def randomBytes (n : Nat) : List Byte := beBytes 32 (Config.randomWord n).toNat

/-- The image key of a lineage of this package at a counter value (R341). -/
def imageKey (linid : List Byte) (ctr : Nat) : List Byte :=
  hkdf [] (beBytes 32 Config.lineageSecret.toNat) (linid ++ beBytes 8 ctr)

/-- The key that wraps an image key: from the shared secret of an ephemeral pair and another's public key, with the nonce
as salt (R341). -/
def wrapKey (d : Nat) (key nonce : List Byte) : Option (List Byte) := (ecdh d key).map fun z => hkdf nonce z []

end Sys2Proof.Machine
end

