-- ==== Sys2Proof/Machine/Frame.lean ====
section
/-! DEFINITION. Ethernet frames as the ports take and build them: Ethernet II, one tag, IPv4 or IPv6, UDP (R313, R379,
R380). -/

namespace Sys2Proof.Machine

/-- A big-endian field of a byte string (network byte order). -/
def be (bs : List Byte) (off n : Nat) : Nat := ((bs.drop off).take n).foldl (fun x b => 256 * x + b.toNat) 0

/-- The sum of the 16-bit words of a byte string, a last odd byte padded with zero. -/
def sum16 : List Byte → Nat
  | [] => 0
  | [a] => a.toNat * 256
  | a :: b :: r => a.toNat * 256 + b.toNat + sum16 r

/-- A sum folded to 16 bits with end-around carry. -/
def fold16 (n : Nat) : Nat :=
  let m := n % 65536 + n / 65536
  let k := m % 65536 + m / 65536
  k % 65536 + k / 65536

/-- The Internet checksum of a sum. -/
def check16 (n : Nat) : Nat := 65535 - fold16 n

/-- Bytes of a string. -/
def cutBytes (bs : List Byte) (off n : Nat) : List Byte := (bs.drop off).take n

/-- A frame that passes the filters of R379 but for the addresses and the payload's length. -/
structure Udp where
  v6 : Bool
  /-- Offset of the IP header and of the UDP header. -/
  l3 : Nat
  l4 : Nat
  srcIp : List Byte
  dstIp : List Byte
  payload : List Byte
  deriving DecidableEq, Repr

/-- The sum that the UDP checksum covers: pseudo-header, header, payload. -/
def udpSum (src dst udp : List Byte) : Nat := sum16 src + sum16 dst + udp.length + 17 + sum16 udp

/-- The parse of a frame (R379). -/
def parseFrame (f : List Byte) : Option Udp :=
  let l3 := if be f 12 2 = 0x8100 then 18 else 14
  let ty := be f (l3 - 2) 2
  if ty = 0x0800 then
    let l4 := l3 + 20
    let len := be f (l3 + 2) 2
    let udp := cutBytes f l4 (len - 20)
    let src := cutBytes f (l3 + 12) 4
    let dst := cutBytes f (l3 + 16) 4
    if be f l3 1 = 0x45 ∧ l3 + len ≤ f.length ∧ 28 ≤ len ∧ be f (l3 + 6) 2 % 0x4000 = 0 ∧ be f (l3 + 9) 1 = 17 ∧
        fold16 (sum16 (cutBytes f l3 20)) = 0xFFFF ∧ be udp 4 2 = len - 20 ∧
        (be udp 6 2 = 0 ∨ fold16 (udpSum src dst udp) = 0xFFFF) then
      some { v6 := false, l3 := l3, l4 := l4, srcIp := src, dstIp := dst, payload := udp.drop 8 }
    else none
  else if ty = 0x86DD then
    let l4 := l3 + 40
    let len := be f (l3 + 4) 2
    let udp := cutBytes f l4 len
    let src := cutBytes f (l3 + 8) 16
    let dst := cutBytes f (l3 + 24) 16
    if be f l3 1 / 16 = 6 ∧ l4 + len ≤ f.length ∧ 8 ≤ len ∧ be f (l3 + 6) 1 = 17 ∧ be udp 4 2 = len ∧ be udp 6 2 ≠ 0 ∧
        fold16 (udpSum src dst udp) = 0xFFFF then
      some { v6 := true, l3 := l3, l4 := l4, srcIp := src, dstIp := dst, payload := udp.drop 8 }
    else none
  else none

/-- An address as management sets it: 16 bytes, IPv4 as an IPv4-mapped IPv6 address (R382). -/
def mappedIp (ip : List Byte) : List Byte :=
  if ip.length = 4 then List.replicate 10 0 ++ [0xFF, 0xFF] ++ ip else ip

/-- The completion frame built from a launch frame: addresses and ports swapped, tag and DSCP echoed, TTL or hop limit
64, checksums computed, the queue key as received and then the record (R380). -/
def replyFrame (f : List Byte) (u : Udp) (record : List Byte) : List Byte :=
  let pay := cutBytes u.payload 0 4 ++ record
  let head := cutBytes f 6 6 ++ cutBytes f 0 6 ++ cutBytes f 12 (u.l3 - 12)
  let ulen := 8 + pay.length
  let udp0 := cutBytes f (u.l4 + 2) 2 ++ cutBytes f u.l4 2 ++ beBytes 2 ulen
  let sum := check16 (udpSum u.dstIp u.srcIp (udp0 ++ [0, 0] ++ pay))
  let udp := udp0 ++ beBytes 2 (if sum = 0 then 0xFFFF else sum) ++ pay
  if u.v6 then
    head ++ cutBytes f u.l3 4 ++ beBytes 2 ulen ++ [17, 64] ++ u.dstIp ++ u.srcIp ++ udp
  else
    let ip (c : List Byte) : List Byte :=
      cutBytes f u.l3 2 ++ beBytes 2 (20 + ulen) ++ cutBytes f (u.l3 + 4) 4 ++ [64, 17] ++ c ++ u.dstIp ++ u.srcIp
    head ++ ip (beBytes 2 (check16 (sum16 (ip [0, 0])))) ++ udp

end Sys2Proof.Machine
end

