-- ==== Sys2Proof/Machine/Line.lean ====
section
/-! DEFINITION. The MEM words: fences, drains, write-backs, prefetches, halo regions; and the device and host events on
copies of lines (R228-R234, R248-R253, R258-R262). -/

namespace Sys2Proof.Machine

/-! ### Fences and drains (R248, R259) -/

/-- `fence` (R259): a release, then an acquire; at thread scope it orders nothing. -/
def execFence (p : BitVec 1) (b : BitVec 5) (s : State) : Out :=
  .next (if 7 ≤ b.toNat then illegal s (wordFence p b)
    else if vstPending (me s) then holdAt s fenceStage 0 0 0
    else if b = 0 then finish s p
    else if !(releaseReady s s.cur s.order b.toNat) then holdAt s fenceStage 0 0 0
    else match releaseWait s (me s).ctx b.toNat with
      | some s => holdAt s fenceStage 0 0 0
      | none => finish (acquire (releaseCopies s s.cur (me s).ctx b.toNat) (coreOf s.cur) b.toNat) p)

/-- `st.drain` (R248, R260): every earlier store is checked, and recorded where it must be. -/
def execStDrain (p : BitVec 1) (s : State) : Out :=
  let t := me s
  .next (if vstPending t ∨ !t.stores.isEmpty ∨ !t.precs.isEmpty then holdAt s drainStage 0 0 0 else finish s p)

/-! ### Lines (R261) -/

/-- The dirty interior bytes that the threads of a core hold in a line are written home (R261). -/
def haloLineBack (s : State) (core line : Nat) : State :=
  (s.haloDirty.filter fun e => coreOf (e.1 / 2 ^ 57) = core ∧ e.1 % 2 ^ 57 / 128 = line).foldl
    (fun s e => haloByteBack s (e.1 / 2 ^ 57) (e.1 % 2 ^ 57, e.2)) s

/-- The write-back of `line.wb`, and the invalidation of `line.inv` after it (R261). -/
def lineBack (s : State) (core line scope : Nat) (inv : Bool) : State :=
  let s := if 2 ≤ scope then haloLineBack s core line else s
  let s := if 5 ≤ scope then backPeer s line else s
  if inv then
    let s := if 2 ≤ scope then setCo s core { co s core with l1 := tdel (co s core).l1 line } else s
    if 5 ≤ scope then { s with peerLines := s.peerLines.filter fun e => !(e.1 == line && !e.2.dirty) } else s
  else s

/-- `line.inv` and `line.wb` (R261): the address is translated for read; in a window they have no effect. -/
def lineOp (s : State) (p : BitVec 1) (a b : BitVec 5) (word : Nat) (inv : Bool) : State :=
  let ea := rd s a
  let core := coreOf s.cur
  if 7 ≤ b.toNat then illegal s word
  else if (lwbAt s s.cur ea).isSome ∨ (nearAt s core ea).isSome then finish s p
  else match xlate s (whoOf s s.cur) ea .load with
    | (.ok (.mem k) _ _, s) => finish (lineBack s core (k / 128) b.toNat inv) p
    | (.ok _ _ _, s) => finish s p
    | (x, s) => xlFail s ea .load 0 x

/-- `line.inv` (R261). -/
def execLineInv (p : BitVec 1) (a b : BitVec 5) (s : State) : Out := .next (lineOp s p a b (wordLineInv p a b) true)

/-- `line.wb` (R261). -/
def execLineWb (p : BitVec 1) (a b : BitVec 5) (s : State) : Out := .next (lineOp s p a b (wordLineWb p a b) false)

/-- `pref` (R261): no architectural effect. -/
def execPref (p : BitVec 1) (a b : BitVec 5) (s : State) : Out :=
  .next (if 3 ≤ b.toNat then illegal s (wordPref p a b) else finish s p)

/-! ### Halo regions (R249-R253, R262) -/

/-- The fields of a region descriptor, with no pages yet (R249). -/
def haloOf (bs : List Byte) (gid ctx handle : Nat) : Halo :=
  { gid := gid, handle := handle, ctx := ctx, base := BitVec.ofNat 64 (field bs 0 8), rows := field bs 8 4,
    cols := field bs 12 4, stride := field bs 16 4, es := field bs 20 1, h := field bs 21 1, gx := field bs 22 1,
    gy := field bs 23 1, rbase := field bs 24 2, pages := [] }

/-- The limits of R249 that the descriptor itself shows; the region is not empty. -/
def haloOk (bs : List Byte) (h : Halo) : Bool :=
  h.base.toNat % 128 == 0 && 1 ≤ h.gx && h.gx ≤ 8 && 1 ≤ h.gy && h.gy ≤ 8 && h.rows % h.gy == 0 && h.cols % h.gx == 0 &&
  h.stride % 128 == 0 && h.es ≤ 3 && 1 ≤ h.h && h.h ≤ 16 && h.h ≤ h.rows / h.gy && h.h ≤ h.cols / h.gx &&
  h.cols / h.gx * 2 ^ h.es % 128 == 0 && zeros bs 26 38

/-- Are the owners' ranks current members of the group (R249)? -/
def haloRanks (g : Group) (h : Halo) : Bool :=
  (List.range (h.gx * h.gy)).all fun n => (rankThread g (h.rbase + n)).isSome

/-- Do two regions share an element (R262)? Rows are compared as byte runs. -/
def haloMeet (a b : Halo) : Bool :=
  let row (h : Halo) (r : Nat) : Nat := h.base.toNat + r * h.stride
  let w (h : Halo) : Nat := h.cols * 2 ^ h.es
  let rowHits (r : Nat) : Bool :=
    let lo := row a r
    let hi := lo + w a
    -- the rows of `b` that could meet: those from the first that ends past `lo` to the one before `hi`
    let r0 := (lo - w b - b.base.toNat) / b.stride
    let n := (hi - lo + w b) / b.stride + 2
    (List.range n).any fun i => r0 + i < b.rows && row b (r0 + i) < hi && lo < row b (r0 + i) + w b
  (List.range a.rows).any rowHits

/-- The virtual pages of a region, without repeats. -/
def haloPages (h : Halo) : List Nat :=
  ((List.range h.rows).flatMap fun r =>
    let lo := h.base.toNat + r * h.stride
    let hi := lo + h.cols * 2 ^ h.es - 1
    (List.range (hi / 4096 - lo / 4096 + 1)).map fun i => lo / 4096 + i).eraseDups

/-- The translation of a region's pages: all of own device memory, or how it ends. -/
inductive HaloXl where
  | ok (pages : List (Nat × Nat)) (s : State)
  | bad (s : State)
  | ends (s : State)

def haloXlate (s : State) : List Nat → List (Nat × Nat) → HaloXl
  | [], acc => .ok acc.reverse s
  | v :: r, acc =>
    let va := BitVec.ofNat 64 (v * 4096)
    match xlate s (whoOf s s.cur) va .load with
    | (.ok (.mem k) _ _, s) => if isOwn k then haloXlate s r ((v, k / 4096) :: acc) else .bad s
    | (.ok _ _ _, s) => .bad s
    | (.miss b i g, s) => .ends (xlFail s va .load 0 (.miss b i g))
    | (.error, s) => .ends (xlFail s va .load 0 .error)
    | (_, s) => .bad s

/-- Has a member a store to the region that is not performed at package scope (R262)? -/
def haloBusy (s : State) (h : Halo) (tid : Nat) : Bool :=
  let t := th s tid
  let hits (x : Store) : Bool :=
    x.space == .global && ((haloElem h x.addr.toNat).isSome || (haloElem h (x.addr.toNat + x.width - 1)).isSome)
  vstPending t || (t.stores.any hits) || (t.sent.any hits) || t.precs.any fun r => hits r.st

/-- Does every owner's L1 part hold its lines of the region beside those of the regions that exist (R262)? -/
def haloFits (s : State) (h : Halo) : Bool :=
  (haloCores s h).all fun c =>
    match c with
    | some core => haloUse s core + haloLinesIn s h core ≤ l1Room (co s core)
    | none => false

/-- The region takes effect: old L1 copies of its lines go. -/
def haloPut (s : State) (h : Halo) : State :=
  let inside (line : Nat) : Bool := h.pages.any fun p => p.2 = line / 32
  { s with halos := s.halos ++ [h],
           cores := s.cores.map fun e => (e.1, { e.2 with l1 := e.2.l1.filter fun x => !(inside x.1) }) }

/-- The lowest free handle of a gang (R262). -/
def haloHandle (s : State) (gid : Nat) : Option Nat :=
  leastFrom (fun k => !(s.halos.any fun h => h.gid = gid ∧ h.handle = k)) 0 4

/-- The checks of `halo.decl` after the descriptor is read, in this order: −2, −5, −1, −3, −4 (log 12). -/
def haloDecl (s : State) (p : BitVec 1) (d : BitVec 5) (bs : List Byte) : State :=
  let fail (s : State) (n : Int) : State := finish (wr s d (statusOf n)) p
  match memberOf s s.cur with
  | none => fail s (-2)
  | some (k, _) =>
    if !(isGang (gr s k)) then fail s (-2)
    else
      let gid := gidOf (k / 4096) (k % 4096) (gr s k).gen
      let hd := haloHandle s gid
      let h := haloOf bs gid (me s).ctx (hd.getD 0)
      if !(haloOk bs h) ∨ !(haloRanks (gr s k) h) then fail s (-5)
      else match haloXlate s (haloPages h) [] with
        | .bad s => fail s (-5)
        | .ends s => s
        | .ok pages s =>
          let h := { h with pages := pages }
          if hd.isNone then fail s (-1)
          else if s.halos.any fun x => x.ctx = h.ctx ∧ haloMeet x h then fail s (-3)
          else if !(haloFits s h) then fail s (-4)
          else if (gr s k).members.any fun m => haloBusy s h m.2 then held s
          else finish (wr (haloPut s h) d (BitVec.ofNat 64 h.handle)) p

/-- `halo.decl` (R262). -/
def execHaloDecl (p : BitVec 1) (d a : BitVec 5) (s : State) : Out :=
  let ea := rd s a
  .next (if ea.toNat % 64 ≠ 0 then raise s 5 ea
    else if vstPending (me s) then held s
    else match loadRun s ea 8 with
      | (_, .ends s) => s
      | (_, .hold s) => held s
      | (_, .failed c s) => raise s c ea
      | (bs, .value _ s) => haloDecl s p d bs)

/-- The region that a handle names for the issuer (R262). -/
def haloNamed (s : State) (handle : Word) : Option Halo :=
  match memberOf s s.cur with
  | some (k, _) =>
    if isGang (gr s k) then
      s.halos.find? fun h => h.gid = gidOf (k / 4096) (k % 4096) (gr s k).gen ∧ h.handle = handle.toNat
    else none
  | none => none

/-- `halo.drop` (R253, R262). -/
def execHaloDrop (p : BitVec 1) (a : BitVec 5) (s : State) : Out :=
  .next (match haloNamed s (rd s a) with
    | some h => finish (haloEnd s h) p
    | none => raise s 21 (rd s a))

/-- `halo.push` (R262). -/
def execHaloPush (p : BitVec 1) (a : BitVec 5) (s : State) : Out :=
  .next (match haloNamed s (rd s a) with
    | some h => finish (haloPush s s.cur (some h.handle)) p
    | none => raise s 21 (rd s a))

/-! ### Events on copies (R228, R232-R234) -/

/-- `LINE_EVICT`: a line leaves the L1 part of a core, or (with a core number of no core) the package's L2, a dirty copy
after its write-back (R228, R232). -/
def execLineEvict (core line : Nat) (s : State) : Out :=
  .next (if core < 1024 then setCo s core { co s core with l1 := tdel (co s core).l1 line }
    else l2drop s line)

/-- `HOST_CXL_SNOOP`: the host's coherence protocol calls back a 64-byte line of its memory (the package writes a dirty copy
back, and gives it up when the host asks), and the host may store into it (R228, R233, R372). -/
def execHostCxlSnoop (line : Nat) (inval : Bool) (data : List Byte) (s : State) : Out :=
  .next (if !(isHost (line * 64)) then s
    else
      let s := if inval ∨ !data.isEmpty then dropHost s line else backHost s line
      if data.isEmpty then s else storeBytes s (.mem (line * 64)) (data.take 64))

/-- A completion of a CXL.mem access goes to the host (R234). -/
def cxlDone (s : State) (pa code : Nat) (bs : List Byte) : State :=
  { s with out := { s.out with cxl := s.out.cxl ++ [(pa, code, bs)] } }

/-- `HOST_CXL_MEM_ACCESS`: a read of as many bytes as `data` has, or a write of `data`, to device memory by the host,
performed at the line's home; a write into a halo region is not performed, is completed as an unsupported request, and is
logged at the function of the region's context (R234, R252, R373). -/
def execHostCxlMemAccess (pa : Nat) (write : Bool) (data : List Byte) (s : State) : Out :=
  .next (match physOf s pa with
    | .mem k =>
      if !(isOwn k) then s
      else if !write then cxlDone s pa 0 (bytesAt s (.mem k) data.length)
      else match (List.range data.length).findSome? fun i => haloAt s (k + i) with
        | some (h, _, _) =>
          let s := cxlDone s pa 1 []
          (match (cx s h.ctx).vf with | some v => vfError s v 4 pa (field data 0 8) | none => s)
        | none => storeBytes s (.mem k) data
    | _ => s)

end Sys2Proof.Machine
end

