-- ==== Sys2Proof/Machine/Page.lean ====
section
/-! DEFINITION. The XLAT words, the page-request queue with its answers, host fences, and drops of cached translations
(R289, R292-R305, R376). -/

namespace Sys2Proof.Machine

/-! ### Answers (R298-R300) -/

/-- An entry is freed: its generation advances, and a waiting request may take it (R298). -/
def freePageEntry (s : State) (k : Nat) : State :=
  grantWaits { s with pages := tdel s.pages k, pageGens := tput s.pageGens k ((tget s.pageGens k 0 + 1) % 2 ^ 16) }

/-- A call of a lane, by the lane's key and its number, changed. -/
def callMark (s : State) (key n : Nat) (f : Call → Call) : State :=
  let l := tget s.lanes key {}
  { s with lanes := tput s.lanes key { l with calls := l.calls.map fun c => if c.seq = n then f c else c } }

/-- The request of a channel changed, when it is still the one that waits for an access at an address (R270, R300). -/
def chMark (s : State) (core seq : Nat) (va : Word) (f : XReq → XReq) : State :=
  let c := co s core
  setCo s core { c with ch := { c.ch with
    req := c.ch.req.map fun x => if x.seq = seq ∧ x.waits.map (·.2) = some va then f x else x } }

/-- What a retry does for a requester (R300). -/
def retryFor (s : State) (r : Requester) : State :=
  match r with
  | .thread tid =>
    if (th s tid).state = .dropped then setTh s tid { th s tid with state := .ready, miss := none } else s
  | .channel core seq va => chMark s core seq va fun x => { x with waits := none }
  | .kernel n a => if (kn s n).pend = some a then setKn s n { kn s n with pend := none } else s
  | .store _ => s
  | .marver _ => s
  | .ring _ => s
  | .call k n => callMark s k n fun c => { c with pend := none }

/-- The guest physical address that the record of a store gets when a second-stage request that it joined is refused: of its
own implicit access, or its own address in the guest page (R290, R300). -/
def storeGpa (s : State) (tid : Nat) (x : Store) (e : PageReq) : Word :=
  let w : Who := { ctx := e.ctx, priv := x.priv, core := coreOf tid, tid := tid }
  if e.imp then
    match (walk s w x.addr .store false).1 with
    | .miss true true g => g
    | _ => e.gpa
  else BitVec.ofNat 64 (e.gpa.toNat / 4096 * 4096 + x.addr.toNat % 4096)

/-- What a refusal does for a requester other than the ring of another entry: the fault of R290, whose guest address
`ring` replaces when the record of the request could not be written (R299, R300). -/
def refuseFor (s : State) (e : PageReq) (ring : Option Word) (r : Requester) : State :=
  match r with
  | .thread tid =>
    let t := th s tid
    if t.state = .dropped then
      let m := t.miss.map fun m => match ring with | some g => { m with second := true, imp := true, gpa := g } | none => m
      setTh s tid { t with state := .ready, miss := none, refused := m }
    else s
  | .store tid =>
    let t := th s tid
    match t.stores with
    | [] => s
    | x :: rest =>
      let own := storeGpa s tid x e
      let s := setTh s tid { t with stores := rest }
      match ring with
      | some g => recordFault s tid x 20 g
      | none => if e.second ∧ x.priv ≠ .hyp then recordFault s tid x 20 own else recordFault s tid x 6 0
  | .channel core seq va =>
    chMark s core seq va fun x =>
      { x with waits := none, refused := x.waits.toList.map (fun w => (w.1, w.2.toNat / 4096)) ++ x.refused }
  | .kernel n a =>
    let k := kn s n
    if k.pend ≠ some a then s
    else if k.state = .received then
      setKn s n { k with pend := none, dead := [], state := .failed (if k.atCctr then 6 else 4) }
    else setKn s n { k with pend := none, dead := a :: k.dead }
  | .call k n => callMark s k n fun c => { c with pend := none, dead := c.pend.toList ++ c.dead }
  | .marver core =>
    setTq s core ((tq s core).map fun c => if c.started then { c with refused := true } else c)
  | .ring _ => s

/-- An entry refused: every requester meets the fault, and the entry is freed (R300). -/
def refuseEntry (s : State) (k : Nat) (ring : Option Word) : State :=
  match s.pages.find? fun e => e.1 = k with
  | some (_, e) => e.reqs.foldl (fun s r => refuseFor s e ring r) (freePageEntry s k)
  | none => s

/-- The guest physical address of the record that an entry would take next in its `SPRQ` ring: base + 64 where the header cannot
be read (DESIGN CHOICE, log 75). -/
def ringRecord (s : State) (r : PageReq) (base n : Nat) : Nat :=
  match (guestLoc s r.ctx base).1 with
  | .ok h _ => base + 64 + (ringNext s h + 2 ^ 64 - 1) % 2 ^ 64 % n * 64
  | _ => base + 64

/-- An entry refused, and with it the entries whose ring record waited for it (R299, R300). -/
def refuseAll (s : State) (k : Nat) : State :=
  match s.pages.find? fun e => e.1 = k with
  | none => s
  | some (_, e) =>
    let s := refuseEntry s k none
    e.reqs.foldl (fun s r =>
      match r with
      | .ring j =>
        match s.pages.find? fun x => x.1 = j with
        | some (_, x) =>
          (match ringOf s x with
            | some (base, n) => refuseEntry s j (some (BitVec.ofNat 64 (ringRecord s x base n)))
            | none => s)
        | none => s
      | _ => s) s

/-- Where the answer of a writer lies: `SPRA` of a context (`own` 0), `HPRA` of a partition (1), `HANS` of a virtual
function (2) (R300). -/
def answerTakes (s : State) (own ring : Nat) (e : PageReq) : Bool :=
  let c := cx s e.ctx
  match own with
  | 0 => e.ctx == ring && !e.second && !c.hostpt
  | 1 => e.second && c.part == ring
  | _ => !e.second && c.hostpt && c.vf == some ring

/-- The unanswered entry that an answer names (R300). -/
def answered (s : State) (own ring : Nat) (ans : Word) : Option (Nat × PageReq) :=
  let k := bits ans 11 0
  match s.pages.find? fun e => e.1 = k with
  | some (_, e) => if e.gen = bits ans 31 16 ∧ answerTakes s own ring e then some (k, e) else none
  | none => none

/-- An answer written to `SPRA`, `HPRA` or `HANS` (R300). -/
def pageAnswer (s : State) (own ring : Nat) (ans : Word) : State :=
  match answered s own ring ans with
  | none => s
  | some (k, e) => if bit ans 32 then refuseAll s k else e.reqs.foldl retryFor (freePageEntry s k)

/-- `PAGE_ANSWER_RETRY`: an answer with REFUSE 0 (R300). -/
def execPageAnswerRetry (own ring : Nat) (ans : Word) (s : State) : Out :=
  .next (if bit ans 32 then s else pageAnswer s own ring ans)

/-- `PAGE_ANSWER_REFUSE`: an answer with REFUSE 1 (R300). -/
def execPageAnswerRefuse (own ring : Nat) (ans : Word) (s : State) : Out :=
  .next (if bit ans 32 then pageAnswer s own ring ans else s)

/-! ### Records (R299) -/

/-- A kind of access as records code it. -/
def kindCode (k : Acc) : Nat :=
  match k with
  | .load => 0
  | .store => 1
  | .fetch => 2

/-- The 64-byte page-request record (R299). -/
def pageRecord (s : State) (seq k : Nat) (e : PageReq) : List Byte :=
  natBytes 8 seq ++ natBytes 4 (k + 2 ^ 16 * e.gen) ++
  natBytes 1 (kindCode e.kind + 4 * b2n e.imp + 8 * b2n e.second + 16 * e.src) ++ natBytes 1 (privCode e.priv) ++
  natBytes 2 (cx s e.ctx).vmid ++ natBytes 2 e.asid ++ natBytes 6 0 ++ natBytes 8 e.va.toNat ++
  natBytes 8 (if e.second then e.gpa.toNat else 0) ++ natBytes 2 e.tid ++ natBytes 22 0

/-- A place in the ring of an entry: in guest memory for `SPRQ`, at a physical address for `HPRQ` and a host ring, which may lie
in the partition's device memory (R283, R288). -/
def ringLoc (s : State) (e : PageReq) (a : Nat) : Chk × State :=
  if e.second then
    (match physOf s a with
      | .mem k => if (isOwn k && partOwns s (cx s e.ctx).part k) || isHost k then .ok (.mem k) 0 else .fail 6 0
      | _ => .fail 6 0, s)
  else if (cx s e.ctx).hostpt then
    (match physOf s (hostPa s a) with
      | .mem k => if partOwns s (cx s e.ctx).part k then .ok (.mem k) 0 else .fail 6 0
      | _ => .fail 6 0, s)
  else guestLoc s e.ctx a

/-- A second-stage request for a page of an `SPRQ` ring, on behalf of an entry's record, which lies at `rec_` (R299). -/
def ringMiss (s : State) (k : Nat) (e : PageReq) (gpa rec_ : Word) : State :=
  let r : PageReq := { e with second := true, imp := true, kind := .store, gpa := gpa, reqs := [.ring k], written := false }
  if (ringOf s r).isNone then refuseEntry s k (some rec_) else postPage s r

/-- The record of an entry written when its ring has room; PROD advances as a release. Copies that this package holds of the
ring's lines in host memory give way first (R233, R299). -/
def writeRequest (s : State) (k : Nat) (e : PageReq) : State :=
  match ringOf s e with
  | none => refuseEntry s k none
  | some (base, n) =>
    let refused (s : State) (a : Nat) : State :=
      refuseEntry s k (if e.second ∨ (cx s e.ctx).hostpt then none else some (BitVec.ofNat 64 a))
    match ringLoc s e base with
    | (.ok h _, s) =>
      let s := toHome s h
      if !(ringRoom s h n) then s
      else
        let seq := ringNext s h
        let a := base + 64 + (seq + 2 ^ 64 - 1) % 2 ^ 64 % n * 64
        (match ringLoc s e a with
          | (.ok l _, s) =>
            let s := addAt (storeBytes (toHome s l) l (pageRecord s seq k e)) h 1
            { s with pages := tput s.pages k { e with written := true } }
          | (.miss _ _ g, s) => ringMiss s k e g (BitVec.ofNat 64 a)
          | (_, s) => refused s a)
    | (.miss _ _ g, s) => ringMiss s k e g (BitVec.ofNat 64 (ringRecord s e base n))
    | (_, s) => refused s (base + 64)

/-- `PAGE_REQUEST_RECORD_WRITE`: the record of an entry is written (R299). -/
def execPageRequestRecordWrite (ent : Nat) (s : State) : Out :=
  .next (match s.pages.find? fun e => e.1 = ent with
    | some (k, e) => if e.written then s else writeRequest s k e
    | none => s)

/-- `PAGE_WALK`: a walk for an access of a thread; its translation is cached, a miss posts a page request (R289, R291,
R297). -/
def execPageWalk (tid : Nat) (va : Word) (kind : Nat) (s : State) : Out :=
  let k : Acc := match kind with | 0 => .load | 1 => .store | _ => .fetch
  let w := whoOf s tid
  .next (match walk s w va k true with
    | (.miss b i g, _, s) =>
      let r := missReq s w va k 0 b i g (.thread tid)
      if (ringOf s r).isNone then s else postPage s r
    | (_, some e, s) => tFill s .core w e
    | (_, none, s) => s)

/-! ### Invalidations (R292, R302-R304) -/

/-- The core of a translation cache's partition: does a partition hold the cache? -/
def cacheIn (s : State) (part : Nat) (c : TCache) : Bool :=
  match c with
  | .core n => partOfCore s n == part
  | .gather n => partOfCore s n == part
  | .bench b => partOfBench s b == part

/-- Has a thread accesses under way that a fence waits for: stores, posted operations, its channel's request (R302)? -/
def fenceBusy (s : State) (tid : Nat) : Bool :=
  let t := th s tid
  vstPending t || !(slotClean t) || (s.posts.any fun p => p.tid == tid && (match p.kind with | .amo _ => true | _ => false)) ||
  (slotOf tid == 15 && (co s (coreOf tid)).ch.state == 2)

/-- Copies of host lines that a thread's context wrote go home, so that a walk reads them (R302). -/
def hostHome (s : State) : State := s.hostLines.foldl (fun s e => backHost s e.1) s

/-- Is an invalidated translation that `hit` picks in use in a partition: by a store or operation on its way, or by a
multicast request in a stream (R302)? -/
def inUse (s : State) (part : Nat) (hit : TEntry → Bool) : Bool :=
  s.uses.any fun u => u.stale && partOfCore s (coreOf u.tid) == part && hit u.tr && useLive s u

/-- `vm.fence` (R301, R302). -/
def execVmFence (p : BitVec 1) (s : State) : Out :=
  .next (if (me s).priv = .user then raise s 3 (BitVec.ofNat 64 (wordVmFence p))
    else if fenceBusy s s.cur ∨ inUse s (partOf s s.cur) (fun _ => true) then held s
    else finish (hostHome s) p)

/-- Stage number of a thread held in `vm.inv` or `vm.ginv` after the caches have dropped their entries. -/
def invStage : Nat := 13

/-- The combined translations that `hit` picks and the walk-cache entries that `whit` picks are dropped in a partition, and
the accesses that use one of them are marked. -/
def dropCached (s : State) (part : Nat) (hit : TEntry → Bool) (whit : WEntry → Bool) : State :=
  { s with tlb := s.tlb.filter fun e => !(cacheIn s part e.cache && hit e),
           wcache := s.wcache.filter fun e => !(partOfBench s e.bench == part && whit e),
           uses := s.uses.map fun u => if cacheIn s part u.tr.cache && hit u.tr then { u with stale := true } else u }

/-- An invalidation: the entries are dropped, and the word completes once none of them is in use (R302-R304). -/
def invalidate (s : State) (p : BitVec 1) (part : Nat) (hit : TEntry → Bool) (whit : WEntry → Bool) : State :=
  let s := if (me s).hold.any (·.stage = invStage) then s else dropCached s part hit whit
  if inUse s part hit then holdAt s invStage 0 0 0 else finish s p

/-- Are two addresses in one page of a level? -/
def samePageAt (lvl a b : Nat) : Bool := a / 2 ^ (12 + 9 * lvl) == b / 2 ^ (12 + 9 * lvl)

/-- `vm.inv` (R301, R303). -/
def execVmInv (p : BitVec 1) (a b : BitVec 5) (s : State) : Out :=
  let w := wordVmInv p a b
  let va := rd s a
  let asid := (rd s b).toNat
  .next (if (me s).priv = .user then raise s 3 (BitVec.ofNat 64 w)
    else if b ≠ 0 ∧ 2 ^ 16 ≤ asid then illegal s w
    else
      let c := cx s (me s).ctx
      invalidate s p c.part (fun e => e.vmid == fld c.hgxlat.toNat 57 44 &&
        (a = 0 || samePageAt e.lvl1 (e.vpn * 4096) va.toNat) && (b = 0 || (!e.glob && e.asid == asid))) (fun e => !e.second))

/-- `vm.ginv` (R301, R304). -/
def execVmGinv (p : BitVec 1) (a b : BitVec 5) (s : State) : Out :=
  let w := wordVmGinv p a b
  let ga := (rd s a).toNat
  let vmid := (rd s b).toNat
  let covers (l : List (Nat × Nat)) : Bool := a = 0 || l.any fun m => m.2 == ga / 2 ^ (12 + 9 * m.1)
  .next (if (me s).priv ≠ .hyp then privFault s w
    else if b ≠ 0 ∧ 2 ^ 14 ≤ vmid then illegal s w
    else
      invalidate s p (partOfCore s (coreOf s.cur))
        (fun e => e.mode2 != 0 && covers e.gmaps && (b = 0 || e.vmid == vmid))
        (fun e => e.mode2 != 0 && (b = 0 || e.vmid == vmid) &&
          (if e.second then a = 0 || e.tag == ga / 2 ^ (21 + 9 * e.lvl) else covers e.gmaps)))

/-- The probe descriptor of a walk's outcome (R305). -/
def probeWord (x : Xl) : Word :=
  match x with
  | .ok _ pa pb => BitVec.ofNat 64 (2 ^ 63 + pb * 2 ^ 57 + pa % 2 ^ 56)
  | .window pa => BitVec.ofNat 64 (2 ^ 63 + 2 * 2 ^ 57 + pa % 2 ^ 56)
  | .miss b i g => BitVec.ofNat 64 ((if b then 2 else 1) * 2 ^ 61 + b2n i * 2 ^ 56 + (if b then g.toNat % 2 ^ 56 else 0))
  | .refuse b i g bad _ =>
    BitVec.ofNat 64 ((if b then 2 else 1) * 2 ^ 61 + (if bad then 2 else 1) * 2 ^ 59 + b2n i * 2 ^ 56 +
      (if b then g.toNat % 2 ^ 56 else 0))
  | .error => 0

/-- `vm.probe` (R301, R305). -/
def execVmProbe (p : BitVec 1) (d a b : BitVec 5) (s : State) : Out :=
  let w := wordVmProbe p d a b
  let q := (rd s b).toNat
  .next (if (me s).priv = .user then raise s 3 (BitVec.ofNat 64 w)
    else if 8 ≤ q ∨ q % 4 = 3 then illegal s w
    else
      let who := { whoOf s s.cur with priv := if q / 4 = 1 then .user else .sup }
      let k : Acc := match q % 4 with | 0 => .load | 1 => .store | _ => .fetch
      match (walk s who (rd s a) k false).1 with
      | .error => raise s 9 (rd s a)
      | x => finish (wr s d (probeWord x)) p)

/-- `TRANSLATION_DROP`: the device drops the n-th cached translation (R293). -/
def execTranslationDrop (n : Nat) (s : State) : Out := .next { s with tlb := ldel s.tlb n }

/-! ### Host fences (R296, R376) -/

/-- Is a fence message well formed (R376)? -/
def fenceOk (w : Memory) : Bool :=
  mrd w 0 8 / 2 ^ 18 == 0 && mrd w 8 8 % 4096 == 0 && mrd w 16 8 % 4096 == 0 && mrd w 24 8 % 8 == 0 &&
  (mbytes w 40 24).all (· == 0)

/-- Does a context that uses the host's tables through a virtual function have this VMID (R296)? -/
def fenceBound (s : State) (vf vmid : Nat) : Bool :=
  s.ctxs.any fun c => c.2.hostpt && c.2.vf == some vf && fld c.2.hgxlat.toNat 57 44 == vmid

/-- Does a fence message name a translation (R296)? -/
def fenceHits (s : State) (m : Fence) (e : TEntry) : Bool :=
  e.host && fenceBound s m.vf e.vmid && (match m.asid with | none => true | some a => e.asid == a) &&
  (match m.range with | none => true | some r => r.1 ≤ e.vpn && e.vpn < r.1 + r.2)

/-- `HOST_FENCE_MESSAGE`: bytes written into the fence window of a virtual function; bytes 56 to 63 post the message, and
matching translations are invalidated (R296, R376). -/
def execHostFenceMessage (vf off : Nat) (data : List Byte) (s : State) : Out :=
  let v := vfn s vf
  if 64 < off + data.length then .next s
  else
    let w := mputs v.fence off data
    if off + data.length < 64 then .next (setVf s vf { v with fence := w })
    else if !(fenceOk w) then .next (vfError (setVf s vf { v with fence := [] }) vf 3 (0x6000 + off) (field data 0 8))
    else
      let m : Fence := { vf := vf, asid := if mrd w 0 8 / 2 ^ 16 % 2 = 1 then none else some (mrd w 0 2),
                         range := if mrd w 0 8 / 2 ^ 17 % 2 = 1 then none else some (mrd w 8 8 / 4096, mrd w 16 8 / 4096),
                         ack := mrd w 24 8, val := BitVec.ofNat 64 (mrd w 32 8) }
      .next { setVf s vf { v with fence := [] } with
        tlb := s.tlb.filter (fun e => !(fenceHits s m e)),
        wcache := s.wcache.filter (fun e => !(e.host && fenceBound s m.vf e.vmid)), fences := s.fences ++ [m] }

/-- Is no access on its way that uses a translation which a fence message names (R296)? -/
def fenceDone (s : State) (m : Fence) : Bool :=
  !(s.uses.any fun u => fenceHits s m u.tr && useLive s u)

/-- `HOST_FENCE_ACK`: the n-th fence message, first of its port, is acknowledged once the accesses are done, with release
at system scope (R296). -/
def execHostFenceAck (n : Nat) (s : State) : Out :=
  match s.fences[n]? with
  | none => .next s
  | some m =>
    if (s.fences.take n).any (fun x => x.vf / 64 = m.vf / 64) ∨ !(fenceDone s m) then .next s
    else
      .next { storeAt (hostHome s) (.mem (2 ^ 55 + m.ack % 2 ^ 55)) 8 m.val.toNat with fences := ldel s.fences n }

end Sys2Proof.Machine
end

