-- ==== Sys2Proof/Machine/Que.lean ====
section
/-! DEFINITION. Queues: launch records accepted from threads, the host and the Ethernet ports, and the call queues (R308-
R319, R323, R324, R379). -/

namespace Sys2Proof.Machine

/-! ### Queues and adds of the device (R202, R203, R308) -/

/-- The word that no thread and no core make: adds by the Gaffer and the queues in a context (R203, log 5). -/
def deviceWho (ctx id : Nat) : Who := { ctx := ctx, priv := .user, core := 1024, tid := 16384 + id }

/-- An add by the device for a partition at a counter's home: it waits there while the path is lost, and is dropped where it
is refused (R202, R203, R363). -/
def deviceAdd (s : State) (part : Nat) (w : Who) (addr : Word) (l : Loc) (n : Word) : State :=
  if !(homeReach s l) then
    tick { s with posts := s.posts ++ [{ kind := .add, seq := s.order, tid := 16384, ctx := w.ctx, addr := addr, loc := l,
                                         amount := n, engine := some part }] }
  else if homeDenied s part l ∨ homeGone s l ∨ poisoned s l 8 then dropIn s part w.ctx 0xFFFF w.core addr n
  else addAt (toHome s l) l n

/-- `ARRIVE` of a queue advanced by 1 for an entry of a context, or of none (R308, R310). -/
def arriveAdd (s : State) (q : Nat) (ctx : Option Nat) : State :=
  let a := (qu s q).arrive
  if a = 0 then s
  else match physOf s a with
    | .mem k => deviceAdd s (qu s q).part (deviceWho (ctx.getD 256) q) (BitVec.ofNat 64 a) (.mem k) 1
    | _ => s

/-- Records of a launch queue that the Gaffer has not yet taken (R311). -/
def queueHolds (s : State) (q : Nat) : Nat := (s.kernels.filter fun e => e.2.q = q ∧ e.2.state = .received).length

def queueFull (s : State) (q : Nat) : Bool := 2 ^ (qu s q).log2d ≤ queueHolds s q

/-- The partition of a virtual function (R350, R359). -/
def vfPart (s : State) (vf : Nat) : Nat := tget s.parts.vf vf 0

/-! ### Launch records (R323, R324) -/

/-- Header of a launch record. -/
def recHead (r : List Byte) : Nat := field r 0 8

/-- Is a launch record malformed (R324)? -/
def recBad (r : List Byte) : Bool :=
  let h := recHead r
  h % 16 != 1 || 4096 < h / 2 ^ 41 % 2 ^ 13 || 12 ≤ h / 2 ^ 16 % 16 || 12 ≤ h / 2 ^ 20 % 16 || 12 ≤ h / 2 ^ 24 % 16 ||
  field r 16 8 % 8 != 0 || field r 24 8 % 8 != 0

/-- A record accepted into a launch queue: it has the next kernel number, and `ARRIVE` advances (R310, R311, R325). -/
def acceptRecord (s : State) (q : Nat) (ctx : Option Nat) (src : Source) (r : List Byte) : State :=
  let n := s.kernelNext
  arriveAdd (setKn { s with kernelNext := n + 1 } n { q := q, src := src, rec_ := r, part := (qu s q).part }) q ctx

/-- The Gaffer notice of a partition (R332). -/
def notice (s : State) (part : Nat) : State := routed s part 0

/-! ### The QUE words: checks (R318) -/

/-- The checks 1 to 4 of R318, then `act` with the 64 bytes at a. `bad` are the bits of g[b] that must be zero, `ok` the
queue's own conditions. -/
def queWord (s : State) (a b : BitVec 5) (w : Nat) (sup : Bool) (align : Nat) (bad : Bool) (ok : Bool)
    (act : State → List Byte → State) : State :=
  let ea := rd s a
  if bad then illegal s w
  else if sup ∧ (me s).priv = .user then raise s 3 (BitVec.ofNat 64 w)
  else if ea.toNat % align ≠ 0 then raise s 5 ea
  else if !ok then raise s 22 (rd s b)
  else if vstPending (me s) then held s
  else match loadRun s ea 8 with
    | (_, .ends s) => s
    | (_, .hold s) => held s
    | (_, .failed c s) => raise s c ea
    | (bs, .value _ s) => act s bs

/-- Are the releases of the issuing thread at a queue's scope done (R236)? -/
def queReady (s : State) (q : Nat) : Bool := releaseReady s s.cur s.order (qu s q).scope

/-- The dirty lines without a path that the release of the issuing thread at a queue's scope waits for (R363). -/
def queWait (s : State) (q : Nat) : Option State := releaseWait s (me s).ctx (qu s q).scope

def queRelease (s : State) (q : Nat) : State := releaseCopies s s.cur (me s).ctx (qu s q).scope

/-- `q.launch` (R318, R319). -/
def execQLaunch (p : BitVec 1) (d a b : BitVec 5) (s : State) : Out :=
  let q := (rd s b).toNat % 256
  let x := qu s q
  let w := wordQLaunch p d a b
  .next (queWord s a b w false 8 (decide (256 ≤ (rd s b).toNat)) (x.kind == 1 && x.part == partOf s s.cur) fun s bs =>
    if x.closed then finish (wr s d (statusOf (-2))) p
    else if queueFull s q then finish (wr s d (statusOf (-1))) p
    else if recBad bs then finish (wr (notice s x.part) d (statusOf (-3))) p
    else if !(queReady s q) then held s
    else if let some s := queWait s q then held s
    else
      let ctx := (me s).ctx
      finish (wr (acceptRecord (queRelease s q) q (some ctx) (.thread s.cur ctx) bs) d 0) p)

/-! ### Lanes (R309, R314-R317) -/

/-- Table key of a lane of a call queue, which is entry 256 + q of the queue table. -/
def laneKey (q i : Nat) : Nat := (256 + q) * 16 + i
def lane (s : State) (q i : Nat) : Lane := tget s.lanes (laneKey q i) {}
def setLane (s : State) (q i : Nat) (x : Lane) : State := { s with lanes := tput s.lanes (laneKey q i) x }

/-- The lane of a caller context in a call queue. -/
def laneOf (s : State) (q ctx : Nat) : Option Nat :=
  let v := (cx s ctx).vmid
  if v = 0 then none else leastFrom (fun i => (lane s q i).vmid == v) 0 16

/-- Is a call packet refused (R319)? Reserved bits, LANE and SEQ, and the low bits of REPLY and NOTIFY must be zero. -/
def packetBad (bs : List Byte) : Bool :=
  field bs 5 1 == 0 || 2 ≤ field bs 4 1 || field bs 6 2 != 0 || field bs 8 8 != 0 || field bs 16 8 % 64 != 0 ||
  field bs 24 8 % 8 != 0

/-- `q.call` (R318, R319). -/
def execQCall (p : BitVec 1) (d a b : BitVec 5) (s : State) : Out :=
  let q := (rd s b).toNat % 256
  let x := qu s (256 + q)
  let mine := laneOf s q (me s).ctx
  .next (queWord s a b (wordQCall p d a b) false 64 (decide (256 ≤ (rd s b).toNat))
    (x.kind == 2 && x.part == partOf s s.cur && mine.isSome) fun s bs =>
      let i := mine.getD 0
      let l := lane s q i
      if x.closed then finish (wr s d (statusOf (-2))) p
      else if 2 ^ x.log2d ≤ l.calls.length then finish (wr s d (statusOf (-1))) p
      else if packetBad bs then finish (wr s d (statusOf (-3))) p
      else if !(queReady s (256 + q)) then held s
      else if let some s := queWait s (256 + q) then held s
      else
        let n := l.seq + 1
        let c : Call := { seq := n, packet := bs, strong := field bs 4 1 % 2 = 1, cost := field bs 5 1,
                          reply := BitVec.ofNat 64 (field bs 16 8), notify := BitVec.ofNat 64 (field bs 24 8),
                          tid := s.cur, ctx := (me s).ctx, priv := (me s).priv }
        let s := queRelease s (256 + q)
        let s := arriveAdd (setLane s q i { l with seq := n, calls := l.calls ++ [c] }) (256 + q) (some (me s).ctx)
        finish (wr s d (BitVec.ofNat 64 n)) p)

/-- The head of a lane: its first call that is not taken, in order of number (R316, R319). -/
def laneHead (l : Lane) : Option Call := l.calls.find? fun c => c.taken.isNone

/-- May a lane's head be handed out (R316)? The lane's calls are those not completed. -/
def callReady (l : Lane) : Bool :=
  match laneHead l with
  | some c => if c.strong then l.calls.all (fun x => c.seq ≤ x.seq) else !(l.calls.any fun x => x.strong && x.seq < c.seq)
  | none => false

/-- The walk of deficit round robin from a lane on (R317): `turn` says that the lane still gives out calls of the turn it
was granted. The lanes with their deficits, and the lane that gives its head. -/
def drr (ls : List Lane) (i : Nat) (turn : Bool) : Nat → List Lane × Option Nat
  | 0 => (ls, none)
  | k + 1 =>
    let l := ls.getD i {}
    match laneHead l with
    | none => drr (lput ls i { l with deficit := 0 }) ((i + 1) % 16) false k
    | some c =>
      if callReady l then
        let def_ := if turn then l.deficit else l.deficit + l.quantum
        if c.cost ≤ def_ then (lput ls i { l with deficit := def_ - c.cost }, some i)
        else drr (lput ls i { l with deficit := def_ }) ((i + 1) % 16) false k
      else drr ls ((i + 1) % 16) false k

/-- The lane whose head `q.take` hands out (R317): 16 lanes, at most 255 rounds. -/
def takeLane (s : State) (q : Nat) : Option (List Lane × Nat) :=
  let ls := (List.range 16).map (lane s q)
  let x := qu s (256 + q)
  if ls.any callReady then
    match drr ls (if x.turn then x.last else (x.last + 1) % 16) x.turn 4112 with
    | (ls, some i) => some (ls, i)
    | _ => none
  else none

/-- A call of a lane handed to a taker; a lane that empties has its deficit set to 0 (R317, R319). -/
def takeCall (l : Lane) (n tid : Nat) : Lane :=
  let l := { l with calls := l.calls.map fun y => if y.seq = n then { y with taken := some tid, dead := [] } else y }
  if (laneHead l).isSome then l else { l with deficit := 0 }

/-- Stores of a thread of 8-byte words from an address on. -/
def pushWords (s : State) (ea : Word) (w : Nat) (bs : List Byte) : Nat → State
  | 0 => s
  | k + 1 =>
    let s := pushWords s ea w bs k
    pushStore s s.cur (storeOf s (ea + BitVec.ofNat 64 (8 * k)) 8 (BitVec.ofNat 64 (field bs (8 * k) 8)) w)

/-- `q.take` (R317-R319). -/
def execQTake (p : BitVec 1) (d a b : BitVec 5) (s : State) : Out :=
  let q := (rd s b).toNat % 256
  let x := qu s (256 + q)
  let w := wordQTake p d a b
  .next (queWord s a b w true 64 (decide (256 ≤ (rd s b).toNat))
    (x.kind == 2 && x.part == partOf s s.cur && x.svc == (cx s (me s).ctx).vmid) fun s _ =>
      if 56 < entriesOf (me s).stores then held s
      else match takeLane s q with
        | none => finish (wr s d 0) p
        | some (ls, i) =>
          match laneHead (ls.getD i {}) with
          | none => finish (wr s d 0) p
          | some c =>
            let ls := ls.mapIdx fun j l =>
              if j = i then
                takeCall l c.seq s.cur
              else l
            let s := (ls.mapIdx fun j l => (j, l)).foldl (fun s e => setLane s q e.1 e.2) s
            let more := (laneHead (ls.getD i {})).isSome
            let s := setQu s (256 + q) { qu s (256 + q) with last := i, turn := more }
            let bs := cutBytes c.packet 0 6 ++ natBytes 2 i ++ natBytes 8 c.seq ++ cutBytes c.packet 16 48
            let s := acquire (pushWords s (rd s a) w bs 8) (coreOf s.cur) x.scope
            finish (wr s d (BitVec.ofNat 64 c.seq)) p)

/-! ### Completion (R315, R319) -/

/-- The caller as the device acts for it. -/
def callWho (c : Call) : Who := { ctx := c.ctx, priv := c.priv, core := coreOf c.tid, tid := c.tid }

/-- The completed prefix of a lane: the largest s with every call up to s completed. -/
def prefixOf (l : Lane) : Nat :=
  match l.calls.map (·.seq) with
  | [] => l.seq
  | x :: xs => xs.foldl min x - 1

/-- An add in the caller's context at a counter's address (R315, R319); one whose page request was refused is dropped. -/
def callAdd (s : State) (c : Call) (addr n : Word) : State :=
  match engineLoc s (callWho c) addr .store with
  | (.ok l _ _, s) => deviceAdd s (cx s c.ctx).part (callWho c) addr l n
  | (_, s) => dropEngine s (callWho c) addr n

/-- A call is completed: it leaves its lane, and `DONE` advances by what the prefix grows (R315). -/
def completeCall (s : State) (q i : Nat) (c : Call) : State :=
  let l := lane s q i
  let l1 := { l with calls := l.calls.filter fun x => x.seq ≠ c.seq }
  let n := prefixOf l1
  let s := setLane s q i { l1 with prefix_ := n }
  if n = l.prefix_ then s else callAdd s c l.done (BitVec.ofNat 64 (n - l.prefix_))

/-- `NOTIFY` advanced, when the call has one (R319). -/
def notifyCall (s : State) (c : Call) : State := if c.notify = 0 then s else callAdd s c c.notify 1

/-- A refused reply slot recorded in the caller's store-fault ring, with the caller's thread identifier, and reported to the
caller while its slot still holds a thread of its context (R245, R319). -/
def recordReply (s : State) (c : Call) (x : Store) (code : Nat) : State :=
  let r : PendRec := { st := x, code := code, gpa := 0 }
  let later (s : State) : State := { s with lateRecs := s.lateRecs ++ [(c.ctx, c.tid, r)] }
  if (th s c.tid).state ≠ .free ∧ (th s c.tid).ctx = c.ctx then recordFault s c.tid x code 0
  else if s.lateRecs.any fun e => e.1 = c.ctx ∧ e.2.1 = c.tid then later s
  else match ringPut s c.ctx c.tid r with
    | .wrote s => s
    | .full s => later s
    | .refused _ s => later s
    | .none => s

/-- The n-th late record is written as its ring has room, behind the earlier ones of its thread (R247). -/
def lateWrite (s : State) (n : Nat) : State :=
  match s.lateRecs[n]? with
  | none => s
  | some (ctx, tid, r) =>
    if (s.lateRecs.take n).any fun e => e.1 = ctx ∧ e.2.1 = tid then s
    else match ringPut s ctx tid r with
      | .wrote s => { s with lateRecs := ldel s.lateRecs n }
      | .full s => s
      | .refused _ s => s
      | .none => { s with lateRecs := ldel s.lateRecs n }

/-- A reply slot written in the caller's context, 8-byte words from its start; a refusal gives the caller one record, of
its first word, with code 6 (R319). -/
def replyWrite (s : State) (c : Call) (w : Nat) (ws : List Nat) : State :=
  let x : Store := { seq := 0, addr := c.reply, width := 8, data := BitVec.ofNat 64 (ws.getD 0 0), word := w, priv := c.priv }
  if c.reply = 0 then s
  else match xlateBy .bench s (callWho c) c.reply .store with
    | (.ok l _ pb, s) =>
      if !(pathFor s l pb) ∨ homeDenied s (cx s c.ctx).part l then
        logError s c.ctx 4 c.tid (match l with | .mem k => k % 2 ^ 48 | _ => 0) (ws.getD 0 0) (coreOf c.tid)
      else if haloBad s c.tid l then recordReply s c x 14
      else
        (ws.mapIdx fun i v => (l.plus (8 * i), v)).foldl
          (fun s e => if pb = 0 then l2store s e.1 8 e.2 c.ctx else storeAt s e.1 8 e.2) s
    | (_, s) => recordReply s c x 6

/-- STATUS of a call that was not performed (R314). -/
def notPerformed : Nat := 2 ^ 63

/-- What the completion of a call waits for at an address in its caller's context: a page request of its own, unless it was
refused or has no ring; or the path to a slot of a peer (R319, R363). -/
def replyWait (s : State) (key : Nat) (c : Call) (addr : Word) : Option State :=
  if c.dead.contains addr then none
  else match engineLoc s (callWho c) addr .store with
    | (.miss b i g, s) =>
      let r := missReq s (callWho c) addr .store 0 b i g (.call key c.seq)
      if (ringOf s r).isNone then none
      else some (callMark (postPage s r) key c.seq fun c => { c with pend := some addr })
    | (.ok l _ pb, s) =>
      if addr ≠ c.reply ∨ pathFor s l pb ∨ stuckOut s 16384 6 addr c.seq then none else some (stick s 16384 6 addr c.seq l)
    | _ => none

/-- What a call's completion waits for: its slot, `NOTIFY` and its lane's `DONE`, in turn. -/
def callWait (s : State) (q i : Nat) (c : Call) : Option State :=
  if c.pend.isSome then some s
  else ((if c.reply = 0 then [] else [c.reply]) ++ (if c.notify = 0 then [] else [c.notify]) ++ [(lane s q i).done]).findSome?
    (replyWait s (laneKey q i) c) |>.orElse fun _ => releaseWait s c.ctx (qu s (256 + q)).scope

/-- A call's slot written, released at the queue's scope, `NOTIFY` and `DONE` advanced (R315, R319). -/
def finishCall (s : State) (q i : Nat) (c : Call) (w : Nat) (ws : List Nat) : State :=
  let s := releaseCopies (replyWrite (unstick s 16384 6 c.reply c.seq) c w ws) 16384 c.ctx (qu s (256 + q)).scope
  completeCall (notifyCall s c) q i c

/-- The device goes on with the calls that it took as their queue was closed, and completes with NOT-PERFORMED those that
nothing makes wait, whether or not the queue has been opened since (R310, R315, R319). -/
def deviceCalls (s : State) (q : Nat) : State :=
  (List.range 16).foldl (fun s i =>
    ((lane s q i).calls.filter (·.taken == some 16384)).foldl (fun s c =>
      match callWait s q i c with
      | some s => s
      | none => finishCall s q i c 0 [c.seq, notPerformed]) s) s

/-- Every call of a closed queue that is not taken completes NOT-PERFORMED: the device takes it (R310, R319). -/
def closeCalls (s : State) (q : Nat) : State :=
  deviceCalls ((List.range 16).foldl (fun s i =>
    setLane s q i { lane s q i with calls := (lane s q i).calls.map fun c =>
      if c.taken.isNone then { c with taken := some 16384 } else c }) s) q

/-- Has a call queue a call that the device may complete now? -/
def callsDue (s : State) (q : Nat) : Bool :=
  (List.range 16).any fun i => (lane s q i).calls.any fun c => c.taken == some 16384 && c.pend.isNone

/-- `q.done` (R318, R319). -/
def execQDone (p : BitVec 1) (d a b : BitVec 5) (s : State) : Out :=
  let v := (rd s b).toNat
  let q := v % 256
  let i := v / 2 ^ 16 % 16
  let x := qu s (256 + q)
  let w := wordQDone p d a b
  .next (queWord s a b w true 64 (decide (v / 2 ^ 20 ≠ 0 ∨ v / 256 % 256 ≠ 0))
    (x.kind == 2 && x.part == partOf s s.cur && x.svc == (cx s (me s).ctx).vmid) fun s bs =>
      match (lane s q i).calls.find? fun c => c.seq = field bs 0 8 ∧ c.taken = some s.cur with
      | none => finish (wr s d (statusOf (-4))) p
      | some c =>
        if field bs 8 8 = notPerformed then finish (wr s d (statusOf (-3))) p
        else if !(queReady s (256 + q)) then held s
        else if let some s := queWait s (256 + q) then held s
        else match callWait s q i c with
          | some s => holdAt s 1 0 0 0
          | none =>
            let s := finishCall (queRelease s (256 + q)) q i c w ((List.range 8).map fun k => field bs (8 * k) 8)
            finish (wr s d 0) p)

/-! ### Host windows and Ethernet (R312, R313, R379) -/

/-- The context bound to a virtual function (R353). -/
def vfCtx (s : State) (vf : Nat) : Option Nat :=
  (s.ctxs.find? fun e => e.2.vf = some vf ∧ e.2.state ≠ .empty ∧ e.2.state ≠ .destroyed).map (·.1)

/-- `HOST_QUEUE_WINDOW_WRITE`: bytes written into a queue window of a virtual function; bytes 56 to 63 launch the record,
or it is dropped, with a notice where the queue is the partition's (R312, R332). -/
def execHostQueueWindowWrite (vf q off : Nat) (data : List Byte) (s : State) : Out :=
  let v := vfn s vf
  if 256 ≤ q ∨ 64 < off + data.length then .next s
  else
    let m := mputs v.window (q * 64 + off) data
    if off + data.length < 64 then .next (setVf s vf { v with window := m })
    else
      let r := mbytes m (q * 64) 64
      let s := setVf s vf { v with window := mzero m (q * 64) 64 }
      let x := qu s q
      let own := x.kind = 1 ∧ x.part = vfPart s vf
      .next (if own ∧ !x.closed ∧ !(queueFull s q) ∧ !(recBad r) then
          acceptRecord s q (vfCtx s vf) (.host vf) r
        else
          let s := vfError s vf 1 (q * 64 + off) (field data 0 8)
          if own then notice s x.part else s)

/-- A frame dropped at an Ethernet port: `RXDROP`, saturating (R313, R379, R380). -/
def rxDrop (s : State) (port : Nat) : State :=
  let e := tget s.eths port {}
  { s with eths := tput s.eths port { e with rxdrop := min (e.rxdrop + 1) (2 ^ 64 - 1) } }

/-- The launch queue of the lowest-numbered rule of a port that a frame matches (R313, R379). -/
def classify (e : Eth) (dport key : Nat) : Option Nat :=
  (e.rules.find? fun r => r.2.1 = dport ∧ r.2.2.1 = key ∧ r.2.2.2.2).map fun r => r.2.2.2.1

/-- `FRAME_RECEIVE`: a frame arrives at an Ethernet port, and is classified into a launch queue or dropped (R313, R379). -/
def execFrameReceive (port : Nat) (data : List Byte) (s : State) : Out :=
  let e := tget s.eths port {}
  match parseFrame data with
  | none => .next (rxDrop s port)
  | some u =>
    if cutBytes data 0 6 ≠ e.mac ∨ !(e.ips.any fun i => i.2 = mappedIp u.dstIp) ∨ u.payload.length ≠ 68 then
      .next (rxDrop s port)
    else match classify e (be data (u.l4 + 2) 2) (be u.payload 0 4) with
      | none => .next (rxDrop s port)
      | some q =>
        let x := qu s q
        let r := u.payload.drop 4
        .next (if x.kind ≠ 1 then rxDrop s port
          else if x.closed ∨ queueFull s q ∨ recBad r then notice (rxDrop s port) x.part
          else acceptRecord s q none (.eth port data) r)

end Sys2Proof.Machine
end

