-- ==== Sys2Proof/Machine/Thread.lean ====
section
/-! DEFINITION. The THR words: creating, ending, stopping, resuming, saving and loading threads (R71-R80, R279, R425),
and the events by which a stop and an end complete (R75, R77). -/

namespace Sys2Proof.Machine

/-- Codes of the slot states (R52). -/
def stateCode (x : SlotState) : Nat :=
  match x with
  | .free => 0
  | .ready => 1
  | .parked => 2
  | .dropped => 3
  | .stopped => 4

/-- `thr.self` (R75). -/
def execThrSelf (p : BitVec 1) (d : BitVec 5) (s : State) : Out :=
  .next (finish (wr s d (BitVec.ofNat 64 s.cur)) p)

/-! ### `thr.spawn` (R71-R74) -/

/-- A spawn block (R71). -/
structure Spawn where
  entry : Word
  g4 : Word
  g2 : Word
  core : Nat
  rows : Nat
  bad : Bool

def spawnOf (bs : List Byte) : Spawn :=
  let e := field bs 0 8
  { entry := BitVec.ofNat 64 e, g4 := BitVec.ofNat 64 (field bs 8 8), g2 := BitVec.ofNat 64 (field bs 16 8),
    core := field bs 24 2, rows := field bs 26 1,
    bad := e % 8 ≠ 0 || 32 < field bs 26 1 || !(zeros bs 27 5) }

/-- Cores of a partition, in increasing order. -/
def coresOf (s : State) (part : Nat) : List Nat := (List.range 1024).filter fun c => partOfCore s c = part

/-- Has a kernel not ended (R325)? -/
def Kernel.live (k : Kernel) : Bool :=
  match k.state with
  | .ended _ => false
  | _ => true

def model (s : State) (n : Nat) : Model := tget s.models n {}

/-- Does another unended kernel hold, or have slots reserved with, an overlapping near range on a core (R322)? -/
def nearClash (s : State) (n : Nat) (c : Nat) : Bool :=
  let k := kn s n
  let lo := (model s k.model).nclo
  k.ncounters ≠ 0 && s.kernels.any fun e =>
    e.1 ≠ n && e.2.live && e.2.ncounters ≠ 0 &&
    (let lo' := (model s e.2.model).nclo; lo < lo' + e.2.ncounters && lo' < lo + k.ncounters) &&
    (e.2.cores.contains c || (e.2.state == .admitted && e.2.places.any fun t => coreOf t = c))

/-- A kernel's first thread on a core: it holds its near range there from now on, whose entries are set to 0 (R322). -/
def holdNears (s : State) (n core : Nat) : State :=
  let k := kn s n
  if n = 0 ∨ k.cores.contains core then s
  else
    let s := setKn s n { k with cores := core :: k.cores }
    (List.range k.ncounters).foldl (fun s i => storeAt s (.near core ((model s k.model).nclo + i)) 8 0) s

/-- The slot for a new thread, or the failure (R72): −1 no Free slot, −3 too few rows. With any core allowed, the device
takes the lowest one that serves, one without a clash of near ranges first (R322, log 5). -/
def spawnSlot (s : State) (part : Nat) (b : Spawn) : Int ⊕ Nat :=
  let cores := if b.core = 0xFFFF then coresOf s part else [b.core]
  match cores.filter fun c => (openSlot s c).isSome with
  | [] => .inl (-1)
  | cs =>
    let serves := cs.filter fun c => b.rows ≤ freeRows s c
    match (serves.find? fun c => !(nearClash s (me s).kernel c)).orElse fun _ => serves.head? with
    | some c => (match openSlot s c with | some t => .inr t | none => .inl (-1))
    | none => .inl (-3)

/-- The new thread's registers (R74). -/
def spawnThread (s : State) (tid : Nat) (b : Spawn) (rank gid : Nat) : Thread :=
  let me := me s
  let t := withRows (placeRegs s tid me.ctx) b.rows
  let g : Tab Word := [(2, b.g2), (4, b.g4), (5, BitVec.ofNat 64 rank), (6, BitVec.ofNat 64 gid), (7, tget me.g 7 0)]
  { t with
    pc := b.entry, priv := .user, g := g, kernel := me.kernel,
    u := { t.u with fmt := me.u.fmt, scb := me.u.scb, lock := me.u.lock, frm := me.u.frm, wlim := me.u.wlim,
                    lwb := me.u.lwb, afop := me.u.afop, flags := 0 },
    sr := { t.sr with vec := me.sr.vec, cmp := me.sr.cmp, en := me.sr.en } }

/-- The thread is placed: it joins the group, and its kernel counts it (R73, R74). -/
def spawnPlace (s : State) (tid : Nat) (b : Spawn) (gid : Nat) : State :=
  let (s, r) := match groupKey s gid with
    | some k => joinGroup s k tid none
    | none => (s, 0)
  let t := spawnThread s tid b r gid
  let s := holdNears (setTh (vClear s tid) tid t) t.kernel (coreOf tid)
  if t.kernel = 0 then s
  else
    let k := kn s t.kernel
    setKn s t.kernel { k with count := k.count + 1 }

/-- `thr.spawn` (R71, R72). -/
def execThrSpawn (p : BitVec 1) (d a b : BitVec 5) (s : State) : Out :=
  let gid := (rd s b).toNat
  let fail (s : State) (n : Int) : State := finish (wr s d (statusOf n)) p
  .next (if vstPending (me s) then held s
    else match loadRun s (rd s a) 4 with
      | (_, .ends s) => s
      | (_, .hold s) => held s
      | (_, .failed c s) => raise s c (rd s a)
      | (bs, .value _ s) =>
        let x := spawnOf bs
        let part := partOf s s.cur
        if x.bad then fail s (-4)
        else if x.core ≠ 0xFFFF ∧ (1024 ≤ x.core ∨ partOfCore s x.core ≠ part) then fail s (-2)
        else if gid ≠ 0 ∧ (joinRefused s gid (me s).ctx none).isSome then fail s (-5)
        else match spawnSlot s part x with
          | .inl n => fail s n
          | .inr t =>
            if slotClean (th s t) then finish (wr (spawnPlace s t x gid) d (BitVec.ofNat 64 t)) p else held s)

/-! ### `thr.end` (R75) -/

/-- Are the holds of `thr.end` over (R75, R267)? -/
def endReady (s : State) (tid : Nat) : Bool :=
  let t := th s tid
  let c := co s (coreOf tid)
  !(t.longs.any fun l => l.open_ || l.bad) && t.v.queue.isEmpty && !(tileBusy s tid) && slotClean t &&
    (t.ts == 0 || c.tq.isEmpty) && !(slotOf tid == 15 && c.ch.en && (c.ch.state == 2 || c.ch.state == 3))

/-- The thread ends: its group, rows, tile state, slot and kernel (R75). -/
def endThread (s : State) (tid : Nat) : State :=
  let s := leaveGroup (stopAdd s tid) tid
  let s := tileRelease (dropEntries (returnCalls s tid) tid) tid
  freeSlot (countEnd s tid false) tid

/-- Stage number of a thread held in `thr.end`. -/
def endStage : Nat := 9

/-- `thr.end` (R75). It holds for pending long results; one that failed is reported by its trap, at this bundle (R59). -/
def execThrEnd (_p : BitVec 1) (s : State) : Out :=
  .next (if endReady s s.cur then { endThread s s.cur with last := .done }
    else if (me s).longs.any Long.bad ∧ drained (me s) then { failTrap s s.cur with last := .trapped 9 0 }
    else holdAt s endStage 0 0 0)

/-- Is a trap of a thread pending at its next issue: a failed long result, a store-fault or asynchronous-fault
report? -/
def trapPending (t : Thread) : Bool :=
  t.longs.any Long.bad || t.sfSeq.isSome || t.sfHyp.isSome || t.sfPend || t.sfNone || t.sfRing.isSome ||
  t.asyncDue.isSome || t.due.isSome

/-- `THR_END_COMPLETE`: a thread held in `thr.end` ends, when the holds are over (R54, R75). -/
def execThrEndComplete (tid : Nat) (s : State) : Out :=
  let t := th s tid
  match t.hold with
  | some h =>
    .next (if t.state = .ready ∧ h.stage = endStage ∧ h.pc = t.pc ∧ endReady s tid ∧ !(trapPending t) then
        endThread s tid
      else s)
  | none => .next s

/-! ### Targets (R76) -/

/-- The target of a THR word: an identifier, or how the check ends. -/
inductive Target where
  | ok (tid : Nat)
  | ends (s : State)
  | none_

/-- May the issuer name a thread (R76)? -/
def mayName (s : State) (tid : Nat) : Bool :=
  let t := th s tid
  let part := partOfCore s (coreOf tid)
  match (me s).priv with
  | .hyp => administers s (coreOf s.cur) part
  | _ => if t.state = .free then part == partOf s s.cur else t.ctx == (me s).ctx

/-- The checks that the four words share (R76); `high` is what bits [63:14] may hold. -/
def targetOf (s : State) (v : Word) (w : Nat) (high : Bool) : Target :=
  let tid := v.toNat % 2 ^ 14
  if (me s).priv = .user then .ends (raise s 3 (BitVec.ofNat 64 w))
  else if !high then .ends (illegal s w)
  else if tid = s.cur then .ends (illegal s w)
  else if !(mayName s tid) then .none_
  else if inGang s tid then .ends (raise s 21 (BitVec.ofNat 64 tid))
  else .ok tid

/-- `thr.stop` (R76, R77). -/
def execThrStop (p : BitVec 1) (d a : BitVec 5) (s : State) : Out :=
  let v := rd s a
  .next (match targetOf s v (wordThrStop p d a) (v.toNat / 2 ^ 14 = 0) with
    | .ends s => s
    | .none_ => finish (wr s d (statusOf (-2))) p
    | .ok t =>
      let code : Word := if stageOf s = 1 then (match (me s).hold with | some h => h.a | none => 0)
        else BitVec.ofNat 64 (stateCode (th s t).state)
      if (th s t).state = .free ∨ (th s t).state = .stopped then finish (wr s d code) p
      else
        let s := if (th s t).stop.isSome then s else setTh s t { th s t with stop := some {} }
        match stopTry s t with
        | some s => finish (wr s d code) p
        | none => holdAt s 1 code 0 0)

/-- `STOP_COMPLETE`: a marked thread reaches its stop point (R54, R76, R77, R215). -/
def execStopComplete (tid : Nat) (s : State) : Out :=
  match stopTry s tid with
  | some s => .next s
  | none => .next s

/-- `thr.go` (R76, R77). -/
def execThrGo (p : BitVec 1) (d a : BitVec 5) (s : State) : Out :=
  let v := rd s a
  .next (match targetOf s v (wordThrGo p d a) (v.toNat / 2 ^ 14 = 0) with
    | .ends s => s
    | .none_ => finish (wr s d (statusOf (-2))) p
    | .ok t => finish (wr (resume s t) d (BitVec.ofNat 64 (stateCode (th s t).state))) p)

/-! ### The save area (R78, R79, R279) -/

/-- The first 8-byte words of an area, one per field given. -/
def pad (n : Nat) (ws : List Nat) : List Nat := ws ++ List.replicate (n - ws.length) 0

/-- `SIR` as read (R81). -/
def sirOf (s : State) (tid : Nat) : Nat := (th s tid).sr.en.toNat * 2 ^ 16 + (pendOf s tid).toNat

/-- The 24 registers at 0x0140 (R79). -/
def saveRegs (s : State) (tid : Nat) (hyp : Bool) : List Nat :=
  let t := th s tid
  let h (w : Word) : Nat := if hyp then w.toNat else 0
  [t.u.flags.toNat, t.u.frm, t.u.wlim.toNat, t.u.fmt.toNat, t.u.scb.toNat, t.u.lwb.toNat, t.u.afop.toNat,
   t.u.afcode.toNat, t.u.afpc.toNat, t.u.lapc.toNat, t.u.wval.toNat, t.sr.status.toNat, t.sr.cause.toNat,
   t.sr.epc.toNat, t.sr.val.toNat, t.sr.vec.toNat, t.sr.scratch.toNat, sirOf s tid, t.sr.cmp.toNat,
   h t.hr.status, h t.hr.cause, h t.hr.epc, h t.hr.val, h t.hr.gpa]

/-- The paused request of a movement thread (R279). -/
def saveReq (s : State) (tid : Nat) : Option XReq :=
  let c := (co s (coreOf tid)).ch
  if slotOf tid = 15 ∧ c.state = 3 then c.req else none

/-- The 16 words of the copy-channel resume state (R279). -/
def saveChannel (r : Option XReq) : List Nat :=
  match r with
  | none => List.replicate 16 0
  | some r =>
    ((List.range 8).map fun k => field r.desc (8 * k) 8) ++
    [r.pc.toNat, r.gb.toNat, r.counted, r.chunk + r.word * 2 ^ 32, r.scope, r.skipped, r.ga.toNat, r.gd.toNat]

/-- Is vector state present: rows, a mask bit, or a register that is not at its reset value (log 27)? -/
def vecPresent (v : VecRegs) : Bool :=
  v.rows != 0 || v.vt != 0 || v.vmt != 0 || v.wbase != 0 || v.wctr != 0 || v.vrs != 0 ||
  v.vdm != 0 || v.masks.any fun m => m.2 != 0

/-- Bytes 0x0000 to 0x1FFF of the save area, in 8-byte words (R79). -/
def saveHead (s : State) (tid : Nat) (hyp : Bool) : List Nat :=
  let t := th s tid
  let v := t.v
  let vec := vecPresent v
  let req := saveReq s tid
  let w := t.saved.getD {}
  let head := [1 + 2 ^ 32 * (stateCode t.prior + 256 * b2n vec + 512 * b2n req.isSome + 1024 * b2n t.u.lock), t.pc.toNat,
               privCode t.priv, tid, t.kernel]
  pad 8 head ++ pad 32 ((List.range 31).map fun i => (tget t.g (i + 1) 0).toNat) ++ saveRegs s tid hyp ++
  pad 4 [w.addr.toNat, w.thr.toNat, w.remain, w.scope + 8 * b2n t.u.arr + 256 * w.sel] ++ pad 12 [b2n t.reissue] ++
  saveChannel req ++
  (if vec then
    pad 32 [v.vl, v.vt, v.vmt, v.vrs.toNat, v.vdm.toNat, v.rows, v.wbase.toNat, v.wctr.toNat] ++
    (List.range 896).map fun k => (tget v.masks (k / 128 + 1) 0).toNat / 2 ^ (64 * (k % 128)) % 2 ^ 64
  else List.replicate 928 0)

/-- Offsets of the 8-byte words of the vector registers that the dirty map names (R79). -/
def vecOffsets (t : Thread) : List (Nat × Nat) :=
  ((List.range 32).filter fun i => t.v.vdm.getLsbD i).flatMap fun i =>
    (List.range (t.v.rows * 16)).map fun k => (i, 8 * k)

/-- The n-th store of a `thr.save`: offset in the area and value; none at the end. -/
def saveWord (s : State) (tid : Nat) (head : List Nat) (vecs : List (Nat × Nat)) (n : Nat) : Option (Nat × Nat) :=
  if n < 1024 then some (8 * n, head.getD n 0)
  else
    match vecs[n - 1024]? with
    | some (i, o) => some (0x2000 + i * (th s tid).v.rows * 128 + o, mrd s.vregs (vKey tid i o) 8)
    | none => none

/-- Stores of a `thr.save` entered from the n-th on, while the queue has room: the number entered (R78). -/
def savePush (s : State) (tid : Nat) (base : Word) (head : List Nat) (vecs : List (Nat × Nat)) (w n : Nat) :
    Nat → State × Nat
  | 0 => (s, n)
  | k + 1 =>
    match saveWord s tid head vecs n with
    | none => (s, n)
    | some (o, v) =>
      if storeFull (me s) then (s, n)
      else
        let ea := base + BitVec.ofNat 64 o
        savePush (pushStore s s.cur (storeOf s ea 8 (BitVec.ofNat 64 v) w)) tid base head vecs w (n + 1) k

/-- `thr.save` (R76, R78, R79). -/
def execThrSave (p : BitVec 1) (d a b : BitVec 5) (s : State) : Out :=
  let v := rd s a
  let w := wordThrSave p d a b
  .next (match targetOf s v w (v.toNat / 2 ^ 14 = 0) with
    | .ends s => s
    | .none_ => finish (wr s d (statusOf (-2))) p
    | .ok t =>
      if (rd s b).toNat % 64 ≠ 0 then raise s 5 (rd s b)
      else if (th s t).state ≠ .stopped then finish (wr s d (statusOf (-1))) p
      else if vstPending (me s) then held s
      else
        let n := if stageOf s = saveStage then (match (me s).hold with | some h => h.n | none => 0) else 0
        let vecs := vecOffsets (th s t)
        let (s, n) := savePush s t (rd s b) (saveHead s t ((me s).priv = .hyp)) vecs w n 64
        if n < 1024 + vecs.length ∨ !(slotClean (me s)) then holdAt s saveStage 0 0 n
        else finish (wr s d 0) p)

/-! ### `thr.load` (R80, R279, R425) -/

/-- A word of a read area. -/
def areaWord (bs : List Byte) (off : Nat) : Nat := field bs off 8

/-- The kind of request that an XFER word makes (R268). -/
def xkindOf (word : Nat) : XKind :=
  match word / 16 % 64 with
  | 1 => .tensor
  | 2 => .mcast
  | 3 => .fill
  | 4 => .send
  | _ => .copy

/-- Are reserved bytes and bits of the area zero, and its codes in range (R79, R80)? Bytes that stand for a part of the
state that the area says is absent count as reserved, and so does the privilege code 1 (DESIGN CHOICE, log 60). -/
def areaOk (s : State) (tid : Nat) (bs : List Byte) : Bool :=
  let f := field bs 4 4
  let pr := areaWord bs 0x10
  let code := f % 8
  let own := privCode (me s).priv
  let c := co s (coreOf tid)
  field bs 0 4 == 1 && f / 2 ^ 11 == 0 && f / 8 % 32 == 0 && (code == 1 || code == 2 || code == 3) &&
  (pr == 0 || pr == 2 || pr == 3) && pr ≤ own && zeros bs 0x28 0x18 && zeros bs 0x138 8 &&
  areaWord bs 0x218 / 2 ^ 32 == 0 && areaWord bs 0x218 / 16 % 16 == 0 && areaWord bs 0x220 ≤ 1 && zeros bs 0x228 0x58 &&
  zeros bs 0x340 0xC0 &&
  (if f / 256 % 2 = 1 then true else zeros bs 0x300 0x1D00) &&
  (if f / 512 % 2 = 1 then slotOf tid == 15 && c.ch.en && areaWord bs 0x2E0 < 7 && zeros bs 0x2EC 4 &&
      (xkindOf (field bs 0x2DC 4) == .tensor || zeros bs 0x2A0 32) && (xkindOf (field bs 0x2DC 4) == .mcast || zeros bs 0x2E8 4)
   else zeros bs 0x280 0x80)

/-- The paused request of an area (R279), with the privilege of the loaded thread (DESIGN CHOICE, log 76). -/
def loadReq (bs : List Byte) (tid ctx seq : Nat) (priv : Priv) : XReq :=
  let k := xkindOf (field bs 0x2DC 4)
  let named := (List.range 32).filter fun i =>
    field bs 0x294 4 / 2 ^ i % 2 = 1 ∧ field bs 0x2E8 4 / 2 ^ i % 2 = 0
  { kind := k, desc := (bs.drop 0x280).take (if k = .tensor then 64 else 32),
    pc := BitVec.ofNat 64 (areaWord bs 0x2C0), word := field bs 0x2DC 4, ga := BitVec.ofNat 64 (areaWord bs 0x2F0),
    gb := BitVec.ofNat 64 (areaWord bs 0x2C8), gd := BitVec.ofNat 64 (areaWord bs 0x2F8), scope := areaWord bs 0x2E0,
    counted := areaWord bs 0x2D0, chunk := field bs 0x2D8 4, skipped := field bs 0x2E8 4, ctx := ctx, priv := priv,
    tid := tid, seq := seq, joined := decide (k = .mcast),
    rcv := if k = .mcast then named.map fun i => (field bs 0x290 2 + i, field bs 0x2D8 4) else [] }

/-- The depth rows that an area names: `VDEPTH` (R79, R114). -/
def areaRows (bs : List Byte) : Nat := areaWord bs 0x328 % 64

/-- The 4-bit code at an offset of an area. -/
def r4 (bs : List Byte) (off : Nat) : Nat := areaWord bs off % 16

/-- A value of `FMT` as an area gives it: 0 where it holds a type code that no write may set (log 60). -/
def loadFmt (n : Nat) : BitVec 12 :=
  if 12 ≤ n % 16 ∨ 12 ≤ n / 16 % 16 ∨ 12 ≤ n / 256 % 16 then 0 else BitVec.ofNat 12 n

/-- The loaded thread (R79, R80, R86). Each entry is loaded as a write of its register stores it: reserved bits read zero
(R4), and an entry that no write of the register may make is loaded as 0 (DESIGN CHOICE, log 60); a reserved `VMT` code
stays, and traps where it is used (R19). An asynchronous fault whose trap the saved thread had not taken is not in the
area, so the loaded thread does not take it (DESIGN CHOICE, log 60). -/
def loadThread (s : State) (tid ctx : Nat) (bs : List Byte) : Thread :=
  let t := placeRegs s tid ctx
  let f := field bs 4 4
  let r (k : Nat) : Nat := areaWord bs (0x140 + 8 * k)
  let w (k : Nat) : Word := BitVec.ofNat 64 (r k)
  let z (o : Nat) : Word := BitVec.ofNat 64 (areaWord bs o)
  let pr := match areaWord bs 0x10 with | 0 => Priv.user | 2 => Priv.sup | _ => Priv.hyp
  let kn' := areaWord bs 0x20
  let k := kn s kn'
  let kernel := if kn' ≠ 0 ∧ (s.kernels.any fun e => e.1 = kn') ∧ k.ctx = ctx ∧
      k.live then kn' else 0
  let prior := match f % 8 with | 2 => SlotState.parked | 3 => SlotState.dropped | _ => SlotState.ready
  let word := areaWord bs 0x218
  let vdm := BitVec.ofNat 32 (areaWord bs 0x320)
  let rows := areaRows bs
  let vt := if r4 bs 0x308 = 7 ∨ 12 ≤ r4 bs 0x308 then 0 else r4 bs 0x308
  let hst := hstatusFields (w 19)
  { t with
    state := .stopped, prior := prior, priv := pr, pc := z 8, kernel := kernel,
    g := (List.range 31).map fun i => (i + 1, z (0x40 + 8 * i)),
    u := { flags := BitVec.ofNat 5 (r 0), frm := if 5 ≤ r 1 % 8 then 0 else r 1 % 8, wlim := w 2, fmt := loadFmt (r 3),
           scb := w 4, lock := f / 1024 % 2 = 1, lwb := lwbFields (w 5), afop := afopFields (w 6), afcode := afcodeFields (w 7), afpc := w 8, lapc := w 9, wval := w 10,
           arr := word / 8 % 2 = 1 },
    sr := { status := sstatusFields (w 11), cause := causeFields (w 12), epc := w 13, val := w 14, vec := vecFields (w 15), scratch := w 16,
            en := BitVec.ofNat 5 (r 17 / 2 ^ 16), pend := BitVec.ofNat 5 (r 17) &&& 0b11101#5, cmp := w 18 },
    hr := if (me s).priv = .hyp then
            { t.hr with status := if bits hst 9 8 = 1 then hst &&& ~~~0x300#64 else hst, cause := causeFields (w 20), epc := w 21, val := w 22, gpa := w 23 } else t.hr,
    saved := if prior = .parked then
        some { addr := z 0x200, thr := z 0x208, remain := areaWord bs 0x210, scope := word % 8, sel := word / 256,
               guard := areaWord bs 0x318 / 2 ^ 63 = 1, how := 2 } else none,
    reissue := areaWord bs 0x220 = 1,
    v := { vl := if mvlOf rows vt < areaWord bs 0x300 % 2 ^ 14 then 0 else areaWord bs 0x300 % 2 ^ 14, vt := vt,
           vmt := areaWord bs 0x310 % 8, vrs := vrsFields (z 0x318), vdm := vdm, rows := rows, wbase := z 0x330,
           wctr := if areaWord bs 0x338 % 8 = 7 then 0 else z 0x338, sdepth := BitVec.ofNat 64 rows,
           masks := (List.range 7).map fun i => (i + 1, BitVec.ofNat 8192 (field bs (0x400 + 0x400 * i) 1024)) } }

/-- The thread that a Stopped slot holds is displaced (R425). -/
def displace (s : State) (tid : Nat) : State :=
  if (th s tid).state = .stopped then
    let s := leaveGroup (dropEntries s tid) tid
    let t := th s tid
    setTh (vClear s tid) tid { t with v := { t.v with rows := 0, queue := [] } }
  else s

/-- The vector registers of an area put into the slot. -/
def loadVecs (s : State) (tid rows : Nat) (rs : List (Nat × List Byte)) : State :=
  rs.foldl (fun s e => { s with vregs := mputs s.vregs (vKey tid e.1 0) (e.2.take (rows * 128)) }) (vClear s tid)

/-- The loaded state placed, with the channel of a movement thread (R267, R279). -/
def loadPlace (s : State) (tid ctx : Nat) (bs : List Byte) (rs : List (Nat × List Byte)) : State :=
  let s := displace s tid
  let t := loadThread s tid ctx bs
  let s := holdNears (setTh (loadVecs s tid t.v.rows rs) tid t) t.kernel (coreOf tid)
  let c := co s (coreOf tid)
  if slotOf tid = 15 ∧ c.ch.en then
    let req := if field bs 4 4 / 512 % 2 = 1 then some (loadReq bs tid ctx s.order t.priv) else none
    setCo { s with order := s.order + 1 } (coreOf tid) { c with ch := { c.ch with state := if req.isSome then 3 else 1, req := req, fault := none } }
  else s

/-- The registers that the area's dirty map names, read in order. -/
def loadRegs (s : State) (base : Word) (rows : Nat) : List Nat → List (Nat × List Byte) × Ld
  | [] => ([], .value 0 s)
  | i :: r =>
    match loadRun s (base + BitVec.ofNat 64 (0x2000 + i * rows * 128)) (rows * 16) with
    | (bs, .value _ s) =>
      match loadRegs s base rows r with
      | (rs, e) => ((i, bs) :: rs, e)
    | (_, e) => ([], e)

/-- The context that a `thr.load` names, when it may be named (R80). -/
def loadCtx (s : State) (v : Word) : Option Nat :=
  match (me s).priv with
  | .hyp =>
    let n := v.toNat / 2 ^ 16 % 256
    let c := cx s n
    if administers s (coreOf s.cur) c.part ∧ c.state ≠ .empty ∧ c.state ≠ .sealed ∧ c.state ≠ .destroyed then some n
    else none
  | _ => some (me s).ctx

/-- `thr.load` (R76, R80, R425). The area is read with 8-byte loads, so its address must be a multiple of 8; the spec asks
64 bytes of `thr.save` only (DESIGN CHOICE, log 60). -/
def execThrLoad (p : BitVec 1) (d a b : BitVec 5) (s : State) : Out :=
  let v := rd s a
  let base := rd s b
  let fail (s : State) (n : Int) : State := finish (wr s d (statusOf n)) p
  let high := v.toNat / 2 ^ 24 = 0 ∧ v.toNat / 2 ^ 14 % 4 = 0 ∧ ((me s).priv = .hyp ∨ v.toNat / 2 ^ 16 % 256 = 0)
  .next (match targetOf s v (wordThrLoad p d a b) high with
    | .ends s => s
    | .none_ => fail s (-2)
    | .ok t =>
      match loadCtx s v with
      | none => fail s (-2)
      | some ctx =>
        if (th s t).state ≠ .free ∧ (th s t).state ≠ .stopped then fail s (-1)
        else if vstPending (me s) then held s
        else match loadRun s base 1024 with
          | (_, .ends s) => s
          | (_, .hold s) => held s
          | (_, .failed c s) => raise s c base
          | (bs, .value _ s) =>
            let rows := areaRows bs
            let vdm : BitVec 32 := BitVec.ofNat 32 (areaWord bs 0x320)
            let dirty := if field bs 4 4 / 256 % 2 = 1 ∧ rows ≤ 32 then (List.range 32).filter vdm.getLsbD else []
            match loadRegs s base rows dirty with
            | (_, .ends s) => s
            | (_, .hold s) => held s
            | (_, .failed c s) => raise s c base
            | (rs, .value _ s) =>
              if !(areaOk s t bs) then fail s (-3)
              else if freeRows s (coreOf t) + (th s t).v.rows < rows then fail s (-5)
              else if !(slotClean (th s t)) ∨ tileLeft s t then held s
              else finish (wr (loadPlace s t ctx bs rs) d 0) p)

end Sys2Proof.Machine
end

