-- ==== Sys2Proof/Machine/Kernel.lean ====
section
/-! DEFINITION. The Gaffer: binding, admission, spawning and the end of kernels (R85, R86, R147, R321-R332, R426). -/

namespace Sys2Proof.Machine

/-! ### Binding (R325, R426) -/

/-- The context that a model slot's VMID names in a partition (R426). -/
def ctxOfVmid (s : State) (part vmid : Nat) : Option Nat :=
  (s.ctxs.find? fun e => e.2.vmid = vmid ∧ e.2.part = part ∧ e.2.state ≠ .empty ∧ e.2.state ≠ .destroyed).map (·.1)

/-- Does a core serve a kernel of a model: in the partition, with a scratchpad that covers the argument copies (R328)? -/
def coreServes (s : State) (m : Model) (c : Nat) : Bool := partOfCore s c == m.part && m.argoff + 1024 ≤ spSize s c

/-- Threads of a kernel that an empty core could hold (R426). -/
def emptyRoom (s : State) (k : Kernel) (c : Nat) : Nat :=
  let slots := if (co s c).ch.en then 15 else 16
  let byRows := if k.rows = 0 then slots else min slots (32 / k.rows)
  if k.tiles = 0 then byRows else min 1 byRows

/-- Do the threads fit the partition at all (R426)? -/
def fitsEmpty (s : State) (m : Model) (k : Kernel) : Bool :=
  k.threads ≤ (((List.range 1024).filter (coreServes s m)).map (emptyRoom s k)).sum

/-- The kernel waits for a page request in its model's context; one without a ring, or that was refused, is refused. -/
def kernelMiss (s : State) (n : Nat) (addr : Word) (k : Acc) (b i : Bool) (g : Word) (ctx : Nat) : Option State :=
  let r := missReq s (deviceWho ctx n) addr k 0 b i g (.kernel n addr)
  if (kn s n).dead.contains addr ∨ (ringOf s r).isNone then none
  else
    let s := postPage s r
    some (setKn s n { kn s n with pend := some addr })

/-- Binding fails with a code, or is done (R325, R329). -/
def bindEnd (s : State) (n : Nat) (st : KState) : State := setKn s n { kn s n with state := st, dead := [] }

/-- The rest of binding, once the kernel record is read. -/
def bindRecord (s : State) (n : Nat) (m : Model) (ctx : Nat) (bs : List Byte) : State :=
  let k := kn s n
  let h := recHead k.rec_
  let group := field bs 16 4
  let threads := if h / 2 ^ 41 % 2 ^ 13 = 0 then group else h / 2 ^ 41 % 2 ^ 13
  let k := { k with entry := BitVec.ofNat 64 (field bs 0 8), rows := field bs 12 1, tiles := field bs 13 1,
                    ncounters := field bs 14 2, threads := threads }
  let s := setKn s n { k with atCctr := true }
  if threads = 0 ∨ 4096 < threads ∨ 4 < k.tiles then bindEnd s n (.failed 4)
  else if 256 < m.nclo + k.ncounters then bindEnd s n (.failed 6)
  else
    let cctr := BitVec.ofNat 64 (field k.rec_ 16 8)
    let done (s : State) : State :=
      if fitsEmpty s m k then bindEnd s n .queued else bindEnd s n (.failed 5)
    if cctr = 0 then done s
    else match engineLoc s (deviceWho ctx n) cctr .store with
      | (.ok l _ _, s) =>
        if homeDenied s m.part l ∨ homeGone s l ∨ !(homeReach s l) then bindEnd s n (.failed 6) else done s
      | (.miss b i g, s) => (kernelMiss s n cctr .store b i g ctx).getD (bindEnd s n (.failed 6))
      | (_, s) => bindEnd s n (.failed 6)

/-- Binding of a received kernel (R325, R426). -/
def bindKernel (s : State) (n : Nat) : State :=
  let k := kn s n
  let h := recHead k.rec_
  let slot := h / 16 % 32
  let m := model s slot
  let s := setKn s n { k with model := slot, atCctr := false }
  if m.state ≠ 1 ∨ m.part ≠ k.part then bindEnd s n (.failed 3)
  else match ctxOfVmid s m.part m.vmid with
    | none => bindEnd s n (.failed 3)
    | some ctx =>
      let s := setKn s n { kn s n with ctx := ctx }
      let e := h / 2 ^ 9 % 16
      if m.nent ≤ e then bindEnd s n (.failed 4)
      else
        let a := m.etab + BitVec.ofNat 64 (32 * e)
        match xlate s (deviceWho ctx n) a .load with
        | (.ok l _ pb, s) =>
          if poisoned s l 32 ∨ homeDenied s m.part l ∨ !(homeReach s l) then bindEnd s n (.failed 4)
          else
            let bs := match l with
              | .mem key => (List.range 32).map fun i =>
                  BitVec.ofNat 8 (if pb = 0 then l2rd s (key + i) 1 else mrd s.mem (key + i) 1)
              | _ => bytesAt s l 32
            bindRecord s n m ctx bs
        | (.miss b i g, s) => (kernelMiss s n a .load b i g ctx).getD (bindEnd s n (.failed 4))
        | (_, s) => bindEnd s n (.failed 4)

/-- `KERNEL_BIND`: the Gaffer binds the oldest received record of a queue (R325, R426). -/
def execKernelBind (num : Nat) (s : State) : Out :=
  let k := kn s num
  .next (if k.state ≠ .received ∨ k.pend.isSome ∨ !(s.kernels.any fun e => e.1 = num) ∨
      (s.kernels.any fun e => e.1 < num ∧ e.2.q = k.q ∧ e.2.state = .received) then s
    else bindKernel s num)

/-! ### Admission (R326, R327) -/

/-- Slots of a core that a kernel's threads could take now (R326). -/
def coreRoom (s : State) (n : Nat) (m : Model) (c : Nat) : List Nat :=
  let k := kn s n
  let free := ((List.range 16).map fun i => c * 16 + i).filter (slotOpen s)
  if !(coreServes s m c) ∨ nearClash s n c then []
  else
    let r := if k.rows = 0 then 16 else freeRows s c / k.rows
    let hold := k.tiles = 0 || !((co s c).town.hv || (co s c).relPending ||
      s.kernels.any fun e => e.2.state == .admitted && e.2.tiles != 0 && e.2.places.any fun t => coreOf t = c)
    if !hold then [] else free.take (if k.tiles = 0 then r else min r 1)

/-- Slots for all threads of a kernel, lowest cores first, when the partition has them (log 5). -/
def placesFor (s : State) (n : Nat) : Option (List Nat) :=
  let k := kn s n
  let ps := (((List.range 1024).flatMap (coreRoom s n (model s k.model))).take k.threads)
  if ps.length = k.threads then some ps else none

/-- Free slots of a partition that kernels may take. -/
def freeSlots (s : State) (part : Nat) : Nat :=
  ((coresOf s part).map fun c => (((List.range 16).map fun i => c * 16 + i).filter (slotOpen s)).length).sum

/-- Slots that a model holds: its threads, and what its admitted kernels have reserved. -/
def slotsHeld (s : State) (m : Nat) : Nat :=
  (s.threads.filter fun e => e.2.state ≠ .free ∧ e.2.kernel ≠ 0 ∧ (kn s e.2.kernel).model = m).length +
    ((s.kernels.filter fun e => e.2.state == .admitted && e.2.model == m).map fun e => e.2.places.length).sum

/-- Kernels of a model that wait for admission. -/
def hasQueued (s : State) (m : Nat) : Bool := s.kernels.any fun e => e.2.state == .queued && e.2.model == m

/-- Does a kernel fit (R326)? -/
def fits (s : State) (n : Nat) : Bool :=
  let k := kn s n
  let part := (model s k.model).part
  let owed (m : Nat) : Nat :=
    if m ≠ k.model ∧ hasQueued s m ∧ (model s m).part = part then (model s m).minth - slotsHeld s m else 0
  (placesFor s n).isSome && ((List.range 32).map owed).sum ≤ freeSlots s part - k.threads &&
  (k.threads == 1 || (freeGroup s part).isSome)

/-- Priority of a kernel's record. -/
def Kernel.prio (k : Kernel) : Nat := recHead k.rec_ / 2 ^ 13 % 4

/-- May a queued kernel be admitted now: its slot is Resident and its context Running (R336, R426)? -/
def eligible (s : State) (part lvl : Nat) (k : Kernel) : Bool :=
  k.state == .queued && k.prio == lvl && (model s k.model).part == part && (model s k.model).state == 1 &&
  (cx s k.ctx).state == .running

/-- The first kernel of a model slot at a level, in order of receipt. -/
def firstOf (s : State) (part lvl m : Nat) : Option Nat :=
  (s.kernels.find? fun e => eligible s part lvl e.2 && e.2.model == m).map (·.1)

/-- The model slot whose turn it is at a level, with the admissions it has left (R327). -/
def turnOf (s : State) (part lvl : Nat) : Option (Nat × Nat) :=
  let (last, left) := tget s.served (part * 4 + lvl) (31, 0)
  if left ≠ 0 ∧ (firstOf s part lvl last).isSome then some (last, left)
  else
    ((List.range 32).map fun i => (last + 1 + i) % 32).findSome? fun m =>
      if (firstOf s part lvl m).isSome then some (m, (model s m).weight) else none

/-- Address of a kernel's status word, 0 for none (R323). -/
def Kernel.statusAddr (k : Kernel) : Word := BitVec.ofNat 64 (field k.rec_ 24 8)

/-- A kernel admitted: its slots are reserved, and its status word is to be 0 (R325). -/
def admitKernel (s : State) (n : Nat) (ps : List Nat) : State :=
  setKn s n { kn s n with state := .admitted, places := ps, status := 0, zeroDue := (kn s n).statusAddr != 0 }

/-- Admissions that a model slot has left at a level when its turn is given to a kernel of it (R327). -/
def turnLeft (s : State) (key m : Nat) : Nat :=
  let t := tget s.served key (31, 0)
  if t.1 = m ∧ t.2 ≠ 0 then t.2 else (model s m).weight

/-- What the Gaffer decides for a partition (R327): an admission with the state it leaves, or a reserved head. -/
def decide_ (s : State) (part : Nat) : Nat → Option Nat × State
  | 0 => (none, s)
  | lvl + 1 =>
    let key := part * 4 + lvl
    if !(s.kernels.any fun e => eligible s part lvl e.2) then decide_ s part lvl
    else
      let h := tget s.heads key 0
      let held := h ≠ 0 ∧ eligible s part lvl (kn s h)
      match (if held then some h else (turnOf s part lvl).bind fun t => firstOf s part lvl t.1) with
      | none => (none, s)
      | some n =>
        let m := (kn s n).model
        if fits s n then
          (some n, { s with heads := tdel s.heads key, served := tput s.served key (m, turnLeft s key m - 1) })
        else (none, { s with heads := tput s.heads key n })

/-- A store of the Gaffer to a status word, in a context: refused ones go to its error log (R330). -/
def statusStore (s : State) (n ctx : Nat) (addr : Word) (v : Nat) : State :=
  let no (s : State) : State := logError s ctx 2 0xFFFF addr.toNat n 1024
  match xlate s (deviceWho ctx n) addr .store with
  | (.ok l _ pb, s) =>
    if !(pathFor s l pb) ∨ homeDenied s (cx s ctx).part l then logError s ctx 4 0xFFFF (match l with | .mem k => k % 2 ^ 48 | _ => 0) v 1024
    else if (match l with | .mem k => (haloAt s k).isSome | _ => false) then no s
    else if pb = 0 then l2store s l 8 v ctx else storeAt s l 8 v
  | (_, s) => no s

/-- What a store to a kernel's status word or an add to its counter waits for: a page request that was not refused, or for
the store the path to a peer (R330, R363). -/
def kernelWait (s : State) (n ctx : Nat) (addr : Word) (store : Bool) : Option State :=
  if addr = 0 then none
  else match (if store then xlate s (deviceWho ctx n) addr .store else engineLoc s (deviceWho ctx n) addr .store) with
    | (.miss b i g, s) => kernelMiss s n addr .store b i g ctx
    | (.ok l _ pb, s) =>
      if !store ∨ pathFor s l pb ∨ stuckOut s (16384 + n) 6 addr 0 then none else some (stick s (16384 + n) 6 addr 0 l)
    | _ => none

/-- The store to a kernel's status word: logged where the answer to its page request refused it (R330). -/
def statusPut (s : State) (n ctx : Nat) (v : Nat) : State :=
  let a := (kn s n).statusAddr
  if (kn s n).dead.contains a then logError s ctx 2 0xFFFF a.toNat n 1024
  else statusStore (unstick s (16384 + n) 6 a 0) n ctx a v

/-- `STATUS` := 0 of an admitted kernel, once nothing makes the store wait (R325). -/
def statusZero (s : State) (n : Nat) : State :=
  let k := kn s n
  match kernelWait s n k.ctx k.statusAddr true with
  | some s => s
  | none =>
    let s := statusPut s n k.ctx 0
    setKn s n { kn s n with zeroDue := false, dead := [] }

/-- `KERNEL_ADMIT`: the Gaffer's next decision for the partition of a kernel is made: it admits that kernel, or reserves a
head (R326, R327); only while the partition is Active (R356). -/
def execKernelAdmit (num : Nat) (s : State) : Out :=
  let k := kn s num
  .next (if k.state ≠ .queued ∨ tget s.parts.state (model s k.model).part .unused ≠ .active then s
    else match decide_ s (model s k.model).part 4 with
      | (none, s) => s
      | (some n, s1) =>
        if n ≠ num then s
        else match placesFor s1 n with
          | none => s
          | some ps =>
            let s := admitKernel s1 n ps
            if (kn s n).zeroDue then statusZero s n else s)

/-! ### Spawning (R85, R86, R147, R328) -/

/-- The argument copy of a thread (R328). -/
def argCopy (n : Nat) (r : List Byte) : List Byte :=
  cutBytes r 32 32 ++ cutBytes r 8 8 ++ cutBytes r 16 8 ++ cutBytes r 0 8 ++ natBytes 8 n

/-- A thread of a kernel as it starts (R85, R86, R328). -/
def gafferThread (s : State) (n : Nat) (k : Kernel) (m : Model) (tid rank gid : Nat) : Thread :=
  let t := placeRegs s tid k.ctx
  let h := recHead k.rec_
  let arg := m.argoff + slotOf tid * 64
  let g2 := m.stkbase + BitVec.ofNat 64 ((tid + 1) * m.stksz)
  let g4 := BitVec.ofNat 64 (m.lwb.toNat / 2 ^ 19 * 2 ^ 19 + arg)
  let z (x : Nat) : Word := BitVec.ofNat 64 x
  let u : UserRegs := { t.u with flags := 0, frm := 0, wlim := 0, fmt := BitVec.ofNat 12 (h / 2 ^ 16 % 2 ^ 12),
                                 scb := z (h / 2 ^ 28 % 2 ^ 13 * 64), lock := true, lwb := lwbFields m.lwb, afpc := 0, afcode := 0,
                                 lapc := 0, wval := 0, arr := false, afop := z arg }
  let sr : SupRegs := { t.sr with status := 0, cause := 0, epc := 0, val := 0, pend := 0 }
  { withRows { t with v := {} } k.rows with
    priv := .user, pc := k.entry, kernel := n, u := u, sr := sr, ts := if k.tiles = 0 then 0 else 1,
    g := [(2, g2), (4, g4), (5, z rank), (6, z gid), (7, z (field k.rec_ 16 8))] }

/-- One thread of a kernel placed: the argument copy, the tile hold, the group (R147, R328). -/
def gafferPlace (s : State) (n gid : Nat) (e : Nat × Nat) : State :=
  let (rank, tid) := e
  let k := kn s n
  let m := model s k.model
  let core := coreOf tid
  let s := match groupKey s gid with
    | some key => (joinGroup s key tid (some rank)).1
    | none => s
  let t := gafferThread s n k m tid rank gid
  let s := setTh (vClear s tid) tid t
  let s := storeBytes s (.spad core (m.argoff + slotOf tid * 64)) (argCopy n k.rec_)
  if k.tiles = 0 then s
  else
    let s := tileReset s core
    setCo s core { co s core with town := { hv := true, hold := slotOf tid, hts := 1, vmid := t.vmid } }

/-- Can the slots hold the kernel's threads now? -/
def placesOk (s : State) (n : Nat) (ps : List Nat) : Bool :=
  let k := kn s n
  let s0 := setKn s n { k with places := [] }
  ps.length == k.threads && ps.eraseDups.length == ps.length &&
  (ps.all fun t => slotClean (th s t) && (coreRoom s0 n (model s k.model) (coreOf t)).length ≠ 0 && slotOpen s0 t) &&
  (ps.map coreOf).eraseDups.all fun c =>
    (ps.filter fun t => coreOf t = c).length ≤ (coreRoom s0 n (model s k.model) c).length &&
    (k.tiles == 0 || (tq s c).isEmpty)

/-- The threads of an admitted kernel placed in their slots, in rank order; the kernel runs (R325, R328). -/
def spawnKernel (s : State) (n : Nat) (ps : List Nat) : State :=
  let k := kn s n
  let m := model s k.model
  let s := setKn s n { k with places := [], state := .running, count := k.threads }
  let s := (ps.map coreOf).eraseDups.foldl (fun s c => holdNears s n c) s
  let (s, gid) :=
    if k.threads = 1 then (s, 0)
    else match freeGroup s m.part with
      | some key => (newGroup s key k.ctx, gidOf (key / 4096) (key % 4096) (gr s key).gen)
      | none => (s, 0)
  let s := setKn s n { kn s n with gid := gid }
  (ps.mapIdx fun i t => (i, t)).foldl (fun s e => gafferPlace s n gid e) s

/-- `GAFFER_SPAWN`: the threads of an admitted kernel are spawned in the slots that the Gaffer chooses: those given, when
they serve, else those reserved (R328). -/
def execGafferSpawn (num : Nat) (places : List Nat) (s : State) : Out :=
  let k := kn s num
  .next (if k.state ≠ .admitted ∨ (cx s k.ctx).state ≠ .running ∨ k.pend.isSome then s
    else if k.zeroDue then statusZero s num
    else if k.threads ≠ 1 ∧ (freeGroup s (model s k.model).part).isNone then s
    else if placesOk s num places then spawnKernel s num places
    else if placesOk s num k.places then spawnKernel s num k.places
    else match placesFor (setKn s num { k with places := [] }) num with
      | some ps => setKn s num { k with places := ps }
      | none => s)

/-! ### The end sequence (R329-R332) -/

/-- The final status word (R329). -/
def statusWord (k : Kernel) (code : Nat) : Nat :=
  2 ^ 63 + code * 2 ^ 48 + min k.killed 65535 * 2 ^ 32 + k.flags.toNat

/-- The context in which a kernel's STATUS and CCTR are taken (R330). -/
def endCtx (s : State) (k : Kernel) (code : Nat) : Option Nat :=
  let c := if code = 3 then
      match k.src with
      | .thread _ ctx => some ctx
      | .host vf => vfCtx s vf
      | .eth _ _ => none
    else some k.ctx
  c.bind fun n => if (cx s n).state = .empty ∨ (cx s n).state = .destroyed then none else some n

/-- A completion record sent on the port of its launch frame (R331, R380). -/
def sendCompletion (s : State) (k : Kernel) (status : Nat) : State :=
  match k.src with
  | .eth port f =>
    if recHead k.rec_ / 2 ^ 15 % 2 = 1 then
      let e := tget s.eths port {}
      match parseFrame f, e.mute with
      | some u, false =>
        let r := natBytes 8 (recHead k.rec_) ++ natBytes 8 status ++ cutBytes k.rec_ 32 32 ++ natBytes 16 0
        { s with out := { s.out with frames := s.out.frames ++ [(port, replyFrame f u r)] } }
      | _, _ => { s with eths := tput s.eths port { e with txdrop := min (e.txdrop + 1) (2 ^ 64 - 1) } }
    else s
  | _ => s

/-- Steps 2 to 4 of the end sequence (R330-R332). -/
def endSteps (s : State) (n code : Nat) (ctx : Option Nat) : State :=
  let k := kn s n
  let word := statusWord k code
  let s := match ctx with
    | none => s
    | some c =>
      let s := if k.statusAddr = 0 then s else statusPut s n c word
      let cctr := BitVec.ofNat 64 (field k.rec_ 16 8)
      if cctr = 0 then s
      else if k.dead.contains cctr then dropEngine s (deviceWho c n) cctr (BitVec.ofNat 64 (recHead k.rec_ / 2 ^ 54))
      else
        let s := hostHome (releaseCopies s (16384 + n) c 6)
        let amount := BitVec.ofNat 64 (recHead k.rec_ / 2 ^ 54)
        (match engineLoc s (deviceWho c n) cctr .store with
          | (.ok l _ _, s) => deviceAdd s (cx s c).part (deviceWho c n) cctr l amount
          | (_, s) => dropEngine s (deviceWho c n) cctr amount)
  let s := sendCompletion s k word
  let s := setKn s n { kn s n with state := .ended code, status := BitVec.ofNat 64 word, pend := none, dead := [] }
  if code = 0 then s else notice s k.part

/-- Is something on its way that killed threads of a kernel have left: the completion add covers it (R330)? -/
def leftBehind (s : State) (n : Nat) : Bool :=
  (s.threads.any fun e => e.2.was == n && !(slotClean e.2)) ||
  s.posts.any fun p => p.pc == BitVec.allOnes 64 && (th s p.tid).was == n

/-- The CODE with which a kernel is to end: a Draining one, or one that failed or was cancelled (R325, R329). -/
def Kernel.endCode (k : Kernel) : Option Nat :=
  match k.state with
  | .draining => some (if k.killed = 0 then 0 else 1)
  | .failed c => some c
  | _ => none

/-- `KERNEL_END_SEQUENCE` (R330): it waits for a page request only while a context remains in which the page is used. -/
def execKernelEndSequence (num : Nat) (s : State) : Out :=
  let k := kn s num
  let go (code : Nat) : State :=
    let ctx := endCtx s k code
    let cctr := BitVec.ofNat 64 (field k.rec_ 16 8)
    let s := setKn s num { k with cores := [] }
    match ctx.bind fun c => ((kernelWait s num c k.statusAddr true).orElse fun _ => kernelWait s num c cctr false).orElse fun _ =>
        if cctr = 0 then none else releaseWait s c 6 with
    | some s => s
    | none => endSteps s num code ctx
  .next (if leftBehind s num then s
    else match k.endCode with
      | some c => if k.pend.isSome ∧ (endCtx s k c).isSome then s else go c
      | none => s)

/-- The model's context of a kernel: the one it bound to, or for a received one the one that its record's slot names; 256
for none. -/
def kernelCtx (s : State) (k : Kernel) : Nat :=
  if k.state = .received then
    let m := model s (recHead k.rec_ / 16 % 32)
    (ctxOfVmid s m.part m.vmid).getD 256
  else k.ctx

/-- The model slot of a kernel: for a received one, the slot that its record names. -/
def Kernel.slot (k : Kernel) : Nat := if k.state = .received then recHead k.rec_ / 16 % 32 else k.model

/-- The Received and Queued kernels that a condition picks are cancelled (R325). -/
def cancelKernels (s : State) (p : Kernel → Bool) : State :=
  { s with kernels := s.kernels.map fun e =>
      (e.1, if (e.2.state == .received || e.2.state == .queued) && p e.2 then
          { e.2 with state := .failed 2, ctx := kernelCtx s e.2, pend := none, dead := [] } else e.2) }

/-- The hypervisor closes a queue of the queue table, or opens it (R310, log 66): a closed call queue completes its calls
that are not taken, a closed launch queue's Received and Queued kernels are cancelled (R319, R325). -/
def setClosed (s : State) (q : Nat) (closed : Bool) : State :=
  if (qu s q).kind = 0 then s
  else
    let s := setQu s q { qu s q with closed := closed }
    if !closed then s
    else if 256 ≤ q then closeCalls s (q - 256)
    else cancelKernels s fun k => k.q == q

/-- The hypervisor sets a Resident model slot to Closing (R325, log 66): its Received and Queued kernels are cancelled. -/
def setClosing (s : State) (slot : Nat) : State :=
  if (model s slot).state ≠ 1 then s
  else
    let s := cancelKernels s fun k => k.slot == slot
    { s with models := tput s.models slot { model s slot with state := 2 } }

end Sys2Proof.Machine
end

