-- ==== Sys2Proof/Machine/Part.lean ====
section
/-! DEFINITION. Partitions: configuration requests, their checks, UPDATE and RESHAPE, and the configuration that a quote
hashes (R350-R359). -/

namespace Sys2Proof.Machine

/-! ### Tables -/

/-- Partition of a QoS class, 24 for none, and its weight (R333, R354). -/
def qosOf (s : State) (c : Nat) : Nat × Nat := tget s.parts.qos c (24, 1)

def partState (s : State) (p : Nat) : PState := tget s.parts.state p .unused

/-- Physical reads of the Lehr and the seal engine: bytes of own or host memory (R339, R354). -/
def physBytes (s : State) (pa n : Nat) : Option (List Byte) :=
  match physOf s pa, physOf s (pa + n - 1) with
  | .mem k, .mem _ => if (isOwn k || isHost k) && !(poisoned s (.mem k) n) then
      some ((List.range n).map fun i => BitVec.ofNat 8 (l2rd s (k + i) 1)) else none
  | _, _ => none

/-- Physical writes of the Lehr and the seal engine. -/
def physWrite (s : State) (pa : Nat) (bs : List Byte) : State :=
  match physOf s pa with
  | .mem k => storeBytes (toHome s (.mem k)) (.mem k) bs
  | _ => s

/-- A counter address of the Lehr or the seal engine, taken at hypervisor privilege, advanced by 1 with release at system
scope (R203, R343, R355). -/
def physAdd (s : State) (core : Nat) (addr : Word) : State :=
  let w : Who := { ctx := 256, priv := .hyp, core := 1024, tid := 16384 }
  match nearAt s core addr with
  | some (c, e) => addAt (hostHome s) (.near c e) 1
  | none =>
    match physOf s addr.toNat with
    | .mem k => deviceAdd (hostHome s) (partOfCore s core) w addr (.mem k) 1
    | _ => s

/-- The same for a counter address that may be 0, for none (R354). -/
def physDone (s : State) (core : Nat) (addr : Word) : State := if addr = 0 then s else physAdd s core addr

/-! ### Images of table entries (R308, R309, R321) -/

def queueImage (q : Queue) : List Byte :=
  natBytes 1 q.kind ++ natBytes 1 q.part ++ natBytes 1 q.scope ++ natBytes 1 q.log2d ++ natBytes 2 q.svc ++ natBytes 2 0 ++
  natBytes 8 q.arrive ++ natBytes 48 0

def laneImage (l : Lane) : List Byte :=
  natBytes 8 l.done.toNat ++ natBytes 2 l.vmid ++ natBytes 1 l.quantum ++ natBytes 5 0

def modelImage (m : Model) : List Byte :=
  natBytes 1 m.state ++ natBytes 1 m.part ++ natBytes 2 m.vmid ++ natBytes 1 m.qos ++ natBytes 1 m.weight ++
  natBytes 2 m.minth ++ natBytes 8 m.etab.toNat ++ natBytes 1 m.nent ++ natBytes 1 m.nclo ++ natBytes 2 m.argoff ++
  natBytes 4 m.stksz ++ natBytes 8 m.stkbase.toNat ++ natBytes 8 m.lwb.toNat ++ natBytes 24 0

def queueOf (b : List Byte) : Queue :=
  { kind := field b 0 1, part := field b 1 1, scope := field b 2 1, log2d := field b 3 1, svc := field b 4 2,
    arrive := field b 8 8 }

def modelOf (b : List Byte) : Model :=
  { state := field b 0 1, part := field b 1 1, vmid := field b 2 2, qos := field b 4 1, weight := field b 5 1,
    minth := field b 6 2, etab := BitVec.ofNat 64 (field b 8 8), nent := field b 16 1, nclo := field b 17 1,
    argoff := field b 18 2, stksz := field b 20 4, stkbase := BitVec.ofNat 64 (field b 24 8),
    lwb := BitVec.ofNat 64 (field b 32 8) }

/-- The limits of a queue-table image; the granules are those that the request would leave (R308, R355). -/
def queueOk (s : State) (i : Nat) (b : List Byte) : Bool :=
  let q := queueOf b
  (q.kind == 0 || q.kind == (if i < 256 then 1 else 2)) && q.part < 24 && 3 ≤ q.scope && q.scope ≤ 6 && 4 ≤ q.log2d &&
  q.log2d ≤ 12 && zeros b 6 2 && zeros b 16 48 &&
  (q.arrive == 0 || (q.arrive % 8 == 0 && (match physOf s q.arrive with
    | .mem k => isOwn k && partOwns s q.part k
    | _ => false)))

/-- The limits of a lane image (R309). -/
def laneOk (b : List Byte) : Bool := field b 0 8 % 8 == 0 && field b 10 1 != 0 && zeros b 11 5

/-- The limits of a model-slot image (R321). -/
def modelOk (b : List Byte) : Bool :=
  let m := modelOf b
  m.state ≤ 2 && m.part < 24 && m.qos < 64 && m.weight != 0 && m.minth ≤ 16384 &&
  m.etab.toNat % 32 == 0 && 1 ≤ m.nent && m.nent ≤ 16 && m.argoff % 1024 == 0 && m.stksz % 16 == 0 &&
  m.stkbase.toNat % 16 == 0 && zeros b 40 24

/-! ### Entries of a request (R354) -/

/-- A body entry, with the bytes of its image for types 4 to 6. -/
structure PEntry where
  type_ : Nat := 0
  index : Nat := 0
  value : Nat := 0
  zero : Bool := true
  image : Option (List Byte) := none
  deriving DecidableEq, Repr

/-- The number of the queue that an entry concerns, all ones for a model slot (R355). -/
def PEntry.queue (e : PEntry) : Nat :=
  match e.type_ with
  | 4 => e.index % 256
  | 5 => e.index / 16
  | _ => 2 ^ 64 - 1

/-- The entries of a body. -/
def entriesIn (s : State) (body : List Byte) : List PEntry :=
  (List.range (body.length / 16)).map fun i =>
    let ty := field body (16 * i) 2
    let v := field body (16 * i + 8) 8
    { type_ := ty, index := field body (16 * i + 2) 2, value := v, zero := zeros body (16 * i + 4) 4,
      image := match ty with
        | 4 => physBytes s v 64
        | 5 => physBytes s v 16
        | 6 => physBytes s v 64
        | _ => none }

/-- Is an entry within its limits, and admitted by the operation, in the tables that a request would leave (R354, R355)? -/
def entryOk (s : State) (reshape : Bool) (e : PEntry) : Bool :=
  let v := e.value
  e.zero && (match e.type_ with
    | 1 => reshape && e.index < 128 && v / 256 == 0 && v / 32 % 4 == 0 && (v / 128 == 1 || v % 32 < 24)
    | 2 => reshape && e.index < 1024 && v / 2 ^ 14 == 0 && v / 64 % 4 == 0 && (v / 32 % 2 == 1 || v % 32 < 24) &&
        (v / 256 % 4 != 1 || v / 2 ^ 10 < 4)
    | 3 => e.index < 64 && v / 2 ^ 16 == 0 && v / 32 % 8 == 0 && v % 32 < 24 && v / 256 != 0
    | 4 => e.index < 512 && (match e.image with | some b => queueOk s e.index b | none => false)
    | 5 => e.index < 4096 && (match e.image with | some b => laneOk b | none => false)
    | 6 => e.index < 32 && (match e.image with | some b => modelOk b | none => false)
    | 7 => reshape && e.index < 128 && v < 24
    | 8 => e.index < 192 && v / 2 ^ 17 == 0 && v / 2 ^ 14 % 4 == 0 &&
        (v / 2 ^ 16 == 0 || e.index % 8 == 0 || e.index % 8 == 3 || e.index % 8 == 4)
    | 9 => e.index < 1024 && 1 ≤ v && v ≤ 15
    | 10 => reshape && e.index < 256 && v < 24
    | _ => false)

/-- The partitions whose item an entry changes: the item's, and the one it goes to (24: none). -/
def entryParts (s : State) (e : PEntry) : List Nat :=
  let v := e.value
  let im := e.image.getD []
  match e.type_ with
  | 1 => [partOfBench s e.index, if v / 128 = 1 then 24 else v % 32]
  | 2 => [(granule s e.index).part, if v / 32 % 2 = 1 then 24 else v % 32]
  | 3 => [(qosOf s e.index).1, v % 32]
  | 4 => [if (qu s e.index).kind = 0 then 24 else (qu s e.index).part, if field im 0 1 = 0 then 24 else field im 1 1]
  | 5 => [if (qu s (256 + e.index / 16)).kind = 0 then 24 else (qu s (256 + e.index / 16)).part]
  | 6 => [if (model s e.index).state = 0 then 24 else (model s e.index).part, field im 1 1]
  | 7 => [vfPart s e.index, v]
  | 8 => [e.index / 8]
  | 9 => [partOfCore s e.index]
  | _ => [(cx s e.index).part, v]

/-- An entry written (R354). A queue that is bound or reopened starts Open; lanes that are bound anew start at 0 (R310). A bench
that the Lehr has withdrawn stays out of every partition (R391). -/
def writeEntry (s : State) (e : PEntry) : State :=
  let v := e.value
  let im := e.image.getD []
  let ps := s.parts
  match e.type_ with
  | 1 =>
    if s.lehr.withdrawn.contains e.index then s
    else { s with parts := { ps with bench := tput ps.bench e.index (if v / 128 = 1 then 24 else v % 32) } }
  | 2 =>
    let g : Granule := { part := if v / 32 % 2 = 1 then 24 else v % 32, mode := v / 256 % 4, unit := v / 2 ^ 10 }
    { s with parts := { ps with granule := tput ps.granule e.index g } }
  | 3 => { s with parts := { ps with qos := tput ps.qos e.index (v % 32, v / 256) } }
  | 4 =>
    let old := qu s e.index
    let s := setQu s e.index { queueOf im with quiesced := old.quiesced, closed := old.quiesced }
    if old.kind = 2 ∧ field im 0 1 = 0 then
      { s with lanes := s.lanes.filter fun l => l.1 / 16 ≠ e.index } else s
  | 5 =>
    let k := 4096 + e.index
    let l := tget s.lanes k {}
    let d := BitVec.ofNat 64 (field im 0 8)
    let l := if l.vmid = field im 8 2 then l else {}
    { s with lanes := tput s.lanes k { l with done := d, vmid := field im 8 2, quantum := field im 10 1 } }
  | 6 =>
    let s := if (model s e.index).state = 1 ∧ field im 0 1 ≠ 1 then
        cancelKernels s fun k => k.slot == e.index
      else s
    { s with models := tput s.models e.index (modelOf im) }
  | 7 => { s with parts := { ps with vf := tput ps.vf e.index v } }
  | 8 => { s with parts := { ps with route := tput ps.route e.index (v % 2 ^ 14, decide (v / 2 ^ 16 = 1)) } }
  | 9 => setCo s e.index { co s e.index with weight := v }
  | _ => setCx s e.index { cx s e.index with part := v }

/-! ### The checks of R355 -/

/-- Is a queue Busy (R310)? -/
def queueBusy (s : State) (i : Nat) : Bool :=
  let q := qu s i
  if q.kind = 1 then s.kernels.any fun e => e.2.q == i && e.2.live
  else if q.kind = 2 then (List.range 16).any fun j => !(tget s.lanes (i * 16 + j) {}).calls.isEmpty
  else false

/-- Do the benches of a partition form a rectangle of one die, or whole dies (R350)? -/
def benchSetOk (s : State) (p : Nat) : Bool :=
  let bs := (List.range 128).filter fun b => partOfBench s b = p
  match bs with
  | [] => true
  | b0 :: _ =>
    let die := b0 / 32
    let xs := bs.map fun b => b % 8
    let ys := bs.map fun b => b % 32 / 8
    let w := xs.foldl max 0 - xs.foldl min 7 + 1
    let h := ys.foldl max 0 - ys.foldl min 3 + 1
    (bs.all (fun b => b / 32 == die) && bs.length == w * h) ||
      (List.range 4).all fun d => (bs.filter fun b => b / 32 = d).length % 32 == 0

/-- Does a granule's mode lie within its partition (R351)? -/
def granuleOk (s : State) (g : Nat) : Bool :=
  let x := granule s g
  if x.part = 24 then true
  else match x.mode with
    | 0 => (List.range 128).all fun b => partOfBench s b == x.part
    | 1 => (List.range 32).all fun b => partOfBench s (x.unit * 32 + b) == x.part
    | _ => (List.range 64).all fun i => partOfCore s (quadTile x.unit i) == x.part

/-- The first number below `n` with a property, for the detail of a result. -/
def firstBelow (n : Nat) (p : Nat → Bool) : Option Nat := leastFrom p 0 n

/-- Does a bench, under the new tables, leave behind a thread, a tile hold or halo lines of a context that does not move
with it (R355, −6)? -/
def benchStuck (s t : State) (b : Nat) : Bool :=
  let new := partOfBench t b
  new != partOfBench s b &&
  (List.range 8).any fun p =>
    let c := coreAt b p
    let moved (ctx : Nat) : Bool := new != 24 && (cx t ctx).part == new
    ((List.range 16).any fun i => (th s (c * 16 + i)).state != .free && !(moved (th s (c * 16 + i)).ctx)) ||
    ((co s c).town.hv && !(s.ctxs.any fun e => e.2.vmid == (co s c).town.vmid && moved e.1)) ||
    s.halos.any fun h => haloLinesIn s h c != 0 && !(moved h.ctx)

/-- Does an address name a near counter of a partition in the near window of one of its cores (R175, R176)? -/
def doneNear (s : State) (part : Nat) (addr : Word) : Bool :=
  s.cores.any fun e => partOfCore s e.1 == part && (match nearAt s e.1 addr with
    | some n => partOfCore s n.1 == part
    | none => false)

/-- Does a lane entry break R309 in the tables that a request would leave: the caller context has another lane in the
queue, or `DONE` is no counter home of it? A context that does not exist yet is not asked. -/
def laneBad (s t : State) (e : PEntry) : Bool :=
  let q := 256 + e.index / 16
  let l := tget t.lanes (4096 + e.index) {}
  e.type_ == 5 && l.vmid != 0 &&
  (((List.range 16).any fun i => i != e.index % 16 && (tget t.lanes (q * 16 + i) {}).vmid == l.vmid) ||
    (match ctxOfVmid t (qu t q).part l.vmid with
      | some c => !(doneNear t (cx t c).part l.done) && (match (engineLoc s { deviceWho c 0 with priv := .sup } l.done .store).1 with
          | .refuse _ _ _ _ _ => true
          | .window _ => true
          | _ => false)
      | none => false))

/-- The status of a request with its offending entry and detail, when some check fails (R355): `t` is what the tables
would be. -/
def checkRequest (s t : State) (affect : Nat) (reshape : Bool) (es : List PEntry) : Option (Int × Nat × Nat) :=
  let ones := 2 ^ 64 - 1
  let inA (p : Nat) : Bool := affect / 2 ^ p % 2 == 1
  match es.findIdx? fun e => !(entryOk t reshape e) || laneBad s t e with
  | some i => some (-2, i, ones)
  | none =>
    if reshape ∧ ((List.range 24).any (fun p => !(benchSetOk t p)) ∨ (List.range 1024).any (fun g => !(granuleOk t g))) then
      some (-3, ones, ones)
    else
      match firstBelow 512 fun i => (qu s i).kind != 0 && inA (qu s i).part && queueBusy s i with
      | some i => some (-4, ones, i % 256)
      | none =>
        let bad (e : PEntry) : Bool :=
          let q (i : Nat) : Bool := (qu s i).kind != 0 && !(qu s i).closed
          !reshape && (match e.type_ with
            | 4 => q e.index || ((qu s e.index).kind != 0 && field (e.image.getD []) 0 1 == 0 && queueBusy s e.index)
            | 5 => q (256 + e.index / 16)
            | 6 => let m := model s e.index
                   m.state == 1 || (m.state == 2 && s.kernels.any fun k =>
                     k.2.live && k.2.slot == e.index && (k.2.state != .received || k.2.part == m.part))
            | _ => false)
        match es.findIdx? bad with
        | some i => some (-4, i, (es.getD i {}).queue)
        | none =>
          match firstBelow 256 fun c => inA (cx s c).part &&
              ((cx s c).state == .running || (cx s c).state == .sealing || (cx s c).state == .restoring) with
          | some c => some (-5, ones, c)
          | none =>
            match (if reshape then firstBelow 128 (benchStuck s t) else none) with
            | some b => some (-6, ones, b)
            | none =>
              match es.findIdx? fun e => (entryParts s e).any fun p => p < 24 && !(inA p) with
              | some i => some (-7, i, ones)
              | none =>
                match es.findIdx? fun e => e.type_ = 1 ∧ s.lehr.withdrawn.contains e.index with
                | some i => some (-8, i, (es.getD i {}).index)
                | none => none

/-! ### The run of a request (R354-R357) -/

/-- The header's limits (R354). -/
def headOk (h : List Byte) : Bool :=
  let n := field h 4 4
  field h 0 2 == 1 && (field h 2 1 == 1 || field h 2 1 == 2) && zeros h 3 1 && n % 16 == 0 && 16 ≤ n && n ≤ 0x100000 &&
  field h 16 4 / 2 ^ 24 == 0 && zeros h 20 12 && field h 40 8 % 8 == 0 && field h 48 8 % 8 == 0 && zeros h 56 8

/-- A request ends: the result record, `PSTAT`, the add to DONE (R355). -/
def endRequest (s : State) (h : List Byte) (core : Nat) (st : Int) (entry detail : Nat) : State :=
  let r := natBytes 8 (BitVec.ofInt 64 st).toNat ++ natBytes 8 entry ++ natBytes 8 detail ++ natBytes 8 0
  let s := if h.isEmpty then s else physWrite s (field h 40 8) r
  let s := { s with parts := { s.parts with busy := false, status := BitVec.ofInt 16 st, req := none } }
  if h.isEmpty then s else physDone s core (BitVec.ofNat 64 (field h 48 8))

/-- The first checks of a posted request, in the order of R355's table: the signature, which a body that cannot be read
does not have, SEQ and AFFECT; then the header (R354, R355; log entry 29). -/
def openRequest (s : State) (part : Nat) : Except (List Byte × Int) (List Byte × List Byte) :=
  match physBytes s s.parts.preq.toNat 64 with
  | none => .error ([], if s.parts.key.isNone then -1 else -2)
  | some h =>
    let n := field h 4 4
    let may := upto 24 (fun p x => if tget s.parts.adm p 0 = part then x + 2 ^ p else x) 0
    match physBytes s (field h 32 8) (n + 64), s.parts.key with
    | some b, some k =>
      let body := b.take n
      if !(ecdsaVerify k (h.take 56 ++ body) (b.drop n)) ∨ field h 8 8 ≤ s.parts.seqReq ∨
          field h 16 4 &&& may ≠ field h 16 4 then .error (h, -1)
      else if headOk h then .ok (h, body)
      else .error (h, -2)
    | _, _ => .error (h, -1)

/-- `UPDATE`: the Lehr processes a posted UPDATE request (R354-R356); one that cannot be read ends here too. -/
def execUpdate (s : State) : Out :=
  match s.parts.req with
  | some (_, [], part) =>
    .next (match openRequest s part with
      | .error (h, st) => if field h 2 1 = 2 then s else endRequest s h 1024 st (2 ^ 64 - 1) (2 ^ 64 - 1)
      | .ok (h, body) =>
        if field h 2 1 ≠ 1 then s
        else
          let es := entriesIn s body
          let t := es.foldl writeEntry s
          match checkRequest s t (field h 16 4) false es with
          | some (st, e, d) => endRequest s h 1024 st e d
          | none =>
            let s := { t with parts := { t.parts with seqReq := field h 8 8 } }
            endRequest s h 1024 0 (2 ^ 64 - 1) (2 ^ 64 - 1))
  | _ => .next s

/-- Partitions of an AFFECT field. -/
def affected (a : Nat) : List Nat := (List.range 24).filter fun p => a / 2 ^ p % 2 = 1

/-- Queues of the affected partitions closed, or those so closed opened again (R356). -/
def quiesceQueues (s : State) (a : Nat) (close : Bool) : State :=
  { s with queues := s.queues.map fun e =>
      (e.1, if close then
          (if e.2.kind ≠ 0 ∧ a / 2 ^ e.2.part % 2 = 1 ∧ !e.2.closed then { e.2 with closed := true, quiesced := true } else e.2)
        else if e.2.quiesced then { e.2 with closed := false, quiesced := false } else e.2) }

/-- `RESHAPE`: the Lehr processes a posted RESHAPE request; its checks passed, the affected partitions are Quiescing
(R355, R356). -/
def execReshape (s : State) : Out :=
  match s.parts.req with
  | some (_, [], part) =>
    .next (match openRequest s part with
      | .error (h, st) => if field h 2 1 = 2 then endRequest s h 1024 st (2 ^ 64 - 1) (2 ^ 64 - 1) else s
      | .ok (h, body) =>
        if field h 2 1 ≠ 2 then s
        else
          let es := entriesIn s body
          let t := es.foldl writeEntry s
          match checkRequest s t (field h 16 4) true es with
          | some (st, e, d) => endRequest s h 1024 st e d
          | none =>
            let a := field h 16 4
            let s := quiesceQueues s a true
            let st := (affected a).foldl (fun x p =>
              if partState s p = .active then tput x p .quiescing else x) s.parts.state
            { s with parts := { s.parts with state := st, seqReq := field h 8 8, req := some (h, body, part),
                                             wdn0 := s.lehr.withdrawn.length } })
  | _ => .next s

/-- Is every request from a partition's cores performed (R357)? -/
def partQuiet (s : State) (a : Nat) : Bool :=
  let mine (core : Nat) : Bool := a / 2 ^ partOfCore s core % 2 == 1
  (s.threads.all fun e => !(mine (coreOf e.1)) ||
    (e.2.stores.isEmpty && e.2.sent.isEmpty && e.2.precs.isEmpty && e.2.v.queue.isEmpty)) &&
  (s.posts.all fun p => a / 2 ^ p.engine.getD (partOfCore s (coreOf p.tid)) % 2 == 0) && (s.mcasts.all fun m => !(mine (coreOf m.tid))) &&
  s.cores.all fun e => !(mine e.1) || (e.2.ch.state != 2 && e.2.tq.isEmpty)

/-- The waiters of homes that move re-read there (R201). -/
def moveHomes (s t : State) : State :=
  let moved (l : Loc) : Bool := match l with | .mem k => isOwn k && homeSlice s k != homeSlice t k | _ => false
  ((t.waiters.map (·.2)).eraseDups.filter moved).foldl (fun s l => wakeIf s l fun _ => true) t

/-- The affected partitions that are Quiescing are Reconfiguring, their dirty L2 lines written back (R356, R357). -/
def startReconf (s : State) (a : Nat) : State :=
  let s := hostHome (backPeers s fun _ => true)
  { s with parts := { s.parts with state := (affected a).foldl (fun x p =>
      if partState s p = .quiescing then tput x p .reconfiguring else x) s.parts.state } }

/-- The tables of a request written, and what goes with them: homes move, translations and near counters of benches that leave
go, and the partitions are Active, or Unused without a bench (R356, R357). -/
def writeTables (s : State) (a : Nat) (es : List PEntry) : State :=
  let t := moveHomes s (es.foldl writeEntry s)
  let gone (k : Nat) : Bool := partOfCore s (k / 256) != partOfCore t (k / 256)
  let hit (c : TCache) : Bool := (affected a).any fun p => cacheIn s p c || cacheIn t p c
  let st := (affected a).foldl (fun x p =>
    tput x p (if (List.range 128).any fun n => partOfBench t n = p then .active else .unused)) t.parts.state
  quiesceQueues { t with tlb := t.tlb.filter (fun e => !(hit e.cache)), wcache := t.wcache.filter (fun e => !(hit (.bench e.bench))),
                         near := t.near.filter (fun e => !(gone e.1)), parts := { t.parts with state := st } } 0 false

/-- `RESHAPE_DRAIN_COMPLETE`: the affected partitions are drained and Reconfiguring; then the tables are written. A bench withdrawn
since the checks ends the request with −8 (R356, R357). -/
def execReshapeDrainComplete (s : State) : Out :=
  match s.parts.req with
  | some (h, b :: bs, _) =>
    let a := field h 16 4
    let es := entriesIn s (b :: bs)
    .next (if !(partQuiet s a) then s
      else if (affected a).any fun p => partState s p == .quiescing then startReconf s a
      else
        let t := writeTables s a es
        if s.lehr.withdrawn.length ≤ s.parts.wdn0 then endRequest t h 1024 0 (2 ^ 64 - 1) (2 ^ 64 - 1)
        else
          let late := s.lehr.withdrawn.take (s.lehr.withdrawn.length - s.parts.wdn0)
          endRequest t h 1024 (-8) ((es.findIdx? fun e => e.type_ = 1 ∧ late.contains e.index).getD (2 ^ 64 - 1)) (late.headD 0))
  | _ => .next s

/-- A write of `PREQ` posts a request (R352). -/
def postRequest (s : State) (core : Nat) (v : Word) : State :=
  { s with parts := { s.parts with preq := BitVec.ofNat 64 (v.toNat / 64 * 64), busy := true,
                                   req := some ([], [], partOfCore s core) } }

/-! ### The configuration that a quote hashes (R358) -/

def confEntry (ty i v : Nat) : List Byte := natBytes 2 ty ++ natBytes 2 i ++ natBytes 4 0 ++ natBytes 8 v

/-- Entries of one type for the items that a partition has. -/
def confOf (ty n : Nat) (f : Nat → Option (Nat × List Byte)) : List Byte :=
  (List.range n).flatMap fun i => match f i with | some (v, im) => confEntry ty i v ++ im | none => []

/-- The partition's configuration (R358). -/
def configBytes (s : State) (p : Nat) : List Byte :=
  let when_ (b : Bool) (v : Nat) (im : List Byte) : Option (Nat × List Byte) := if b then some (v, im) else none
  confOf 1 128 (fun i => when_ (partOfBench s i == p) p []) ++
  confOf 2 1024 (fun i => let g := granule s i; when_ (g.part == p) (p + g.mode * 256 + g.unit * 2 ^ 10) []) ++
  confOf 3 64 (fun i => when_ ((qosOf s i).1 == p) (p + (qosOf s i).2 * 256) []) ++
  confOf 4 512 (fun i => when_ ((qu s i).kind != 0 && (qu s i).part == p) 0 (queueImage (qu s i))) ++
  confOf 5 4096 (fun i => let q := qu s (256 + i / 16)
    when_ (q.kind == 2 && q.part == p) 0 (laneImage (tget s.lanes (4096 + i) {}))) ++
  confOf 6 32 (fun i => when_ ((model s i).state != 0 && (model s i).part == p) 0 (modelImage (model s i))) ++
  confOf 7 128 (fun i => when_ (vfPart s i == p) p []) ++
  confOf 8 192 (fun i => let r := tget s.parts.route i (0, false)
    when_ (i / 8 == p) (r.1 + (if r.2 then 2 ^ 16 else 0)) []) ++
  confOf 9 1024 (fun i => when_ (partOfCore s i == p) (co s i).weight []) ++
  confOf 10 256 (fun i => when_ ((cx s i).part == p) p [])

/-- The configuration hash of a partition (R348, R381). -/
def configHash (s : State) (p : Nat) : List Byte := sha256 (configBytes s p)

end Sys2Proof.Machine
end

