-- ==== Sys2Proof/Machine/Ctx.lean ====
section
/-! DEFINITION. Contexts: the commands of `CTXC` and the events that end them, measurement and quotes (R334-R339, R348,
R349, R353). -/

namespace Sys2Proof.Machine

/-- State codes (R334). -/
def CState.code (x : CState) : Nat :=
  match x with
  | .empty => 0
  | .loading => 1
  | .ready => 2
  | .running => 3
  | .suspended => 4
  | .sealing => 5
  | .sealed => 6
  | .restoring => 7
  | .destroyed => 8

/-! ### `CTXC` (R352, R353) -/

/-- `CTXC` with a command's operands and its status. -/
def setCtxc (s : State) (v : Word) (st : Int) : State :=
  { s with parts := { s.parts with
      ctxc := BitVec.ofNat 64 (v.toNat % 2 ^ 44 + (BitVec.ofInt 8 st).toNat * 2 ^ 56) } }

def ctxcCtx (v : Word) : Nat := bits v 7 0
def ctxcCmd (v : Word) : Nat := bits v 11 8

/-- Is a partition Quiescing or Reconfiguring (R353)? -/
def partMoving (s : State) (p : Nat) : Bool :=
  match partState s p with
  | .quiescing => true
  | .reconfiguring => true
  | _ => false

/-- The codes −3 and −4 for a context of the issuer's hypervisor (R353). -/
def ctxAdmin (s : State) (part : Nat) : Option Int :=
  if !(administers s (coreOf s.cur) part) then some (-3) else if partMoving s part then some (-4) else none

/-- Threads of a context in any slot. -/
def ctxThreads (s : State) (n : Nat) : List Nat :=
  (s.threads.filter fun e => e.2.state ≠ .free ∧ e.2.ctx = n).map (·.1)

/-- CREATE (R335): a Loading context with its registers at their reset values. -/
def ctxCreate (s : State) (v : Word) : Int × State :=
  let n := ctxcCtx v
  let vmid := bits v 25 12
  let part := bits v 30 26
  let vf := bits v 37 31
  let qos := bits v 43 38
  let taken := s.ctxs.any fun e => e.2.state ≠ .empty ∧ (e.2.vmid = vmid ∨ e.2.vf = some vf)
  if (cx s n).state ≠ .empty then (-1, s)
  else if !(administers s (coreOf s.cur) part) ∨ taken ∨ vfPart s vf ≠ part ∨ (qosOf s qos).1 ≠ part then (-3, s)
  else if partMoving s part then (-4, s)
  else (0, setCx s n { state := .loading, vmid := vmid, part := part, vf := some vf, qos := qos })

/-- READY (R335). -/
def ctxReady (s : State) (v : Word) : Int × State :=
  let n := ctxcCtx v
  let c := cx s n
  if c.state ≠ .loading then (-1, s)
  else match ctxAdmin s c.part with
    | some x => (x, s)
    | none => (0, setCx s n { c with state := .ready })

/-- Are 16 page-request entries free for one more Running context, beside the reservations of the others and the entries
taken (R297, R335)? -/
def reserveRoom (s : State) : Bool := 16 ≤ sharedFree s

/-- The Held gangs of a context are Pinned again as their members resume (R216), which no row of R206 lists for them (DESIGN
CHOICE, log 39). -/
def unholdGangs (s : State) (n : Nat) : State :=
  { s with groups := s.groups.map fun e =>
      (e.1, if e.2.used ∧ e.2.ctx = n ∧ e.2.state = .held then { e.2 with state := .pinned } else e.2) }

/-- START and RESUME (R53, R335). -/
def ctxStart (s : State) (v : Word) : Int × State :=
  let n := ctxcCtx v
  let c := cx s n
  if c.state ≠ .ready ∧ c.state ≠ .suspended then (-1, s)
  else match ctxAdmin s c.part with
    | some x => (x, s)
    | none =>
      if !(reserveRoom s) then (-2, s)
      else
        let s := unholdGangs (setCx s n { c with state := .running }) n
        (0, grantWaits ((ctxThreads s n).foldl resume s))

/-! ### SUSPEND (R336) -/

/-- Threads of a context that SUSPEND has still to mark, the issuer of the command among them: it stops where its held bundle
would issue again (log 39). -/
def suspendLeft (s : State) (n : Nat) : List Nat :=
  (ctxThreads s n).filter fun t => (th s t).state ≠ .stopped ∧ (th s t).stop.isNone

/-- The threads and gangs of a context marked for stopping (R77, R215). -/
def suspendMark (s : State) (n : Nat) : State :=
  let ks := (s.groups.filter fun e => e.2.used ∧ e.2.ctx = n ∧ isGang e.2).map (·.1)
  let ts := suspendLeft s n
  let s := ks.foldl (fun s k => if (gr s k).state = .pinned then setGr s k { gr s k with state := .stopping } else s) s
  ks.foldl settleStop (ts.foldl (fun s t => grpMark s none 0 t) s)

/-- Has everything that SUSPEND waits for happened (R336)? -/
def suspendDone (s : State) (n : Nat) : Bool :=
  (ctxThreads s n).all (fun t => (th s t).state == .stopped) &&
  (s.threads.all fun e => e.2.ctx != n || slotClean e.2) && !(s.posts.any fun p => p.ctx == n) &&
  s.cores.all fun e => (th s (e.1 * 16 + 15)).ctx != n || e.2.ch.state != 2

/-- The context is Suspended: its peer-homed lines are written back, its halo regions end, its reservation goes (R336). -/
def suspendFinish (s : State) (n : Nat) : State :=
  let s := (s.halos.filter fun h => h.ctx = n).foldl haloEnd s
  let s := backPeers s fun p => p.ctxs.contains n
  let s := setCx s n { cx s n with state := .suspended, suspending := none }
  let s := if ctxcCtx s.parts.ctxc = n ∧ ctxcCmd s.parts.ctxc = 4 then setCtxc s s.parts.ctxc 0 else s
  grantWaits (releaseReserve s n)

/-- A step of a SUSPEND under way: threads that came since are marked, and it completes when it can. -/
def suspendTry (s : State) (n : Nat) : State :=
  let c := cx s n
  if c.suspending.isNone ∨ c.state ≠ .running then s
  else if suspendDone s n then suspendFinish s n else suspendMark s n

/-- SUSPEND begun (R335, R336). -/
def ctxSuspend (s : State) (v : Word) : Int × State :=
  let n := ctxcCtx v
  let c := cx s n
  if c.state ≠ .running then (-1, s)
  else match ctxAdmin s c.part with
    | some x => (x, s)
    | none => (0, suspendTry (suspendMark (setCx s n { c with suspending := some s.cur }) n) n)

/-! ### DESTROY and the scrub (R217, R335, R425) -/

/-- Near ranges that a context's unended kernels hold (R322). -/
def ctxNears (s : State) (n : Nat) : List (Nat × Nat × Nat) :=
  s.kernels.flatMap fun e =>
    if e.2.live ∧ e.2.ctx = n ∧ e.2.ncounters ≠ 0 then e.2.cores.map fun c => (c, (model s e.2.model).nclo, e.2.ncounters) else []

/-- The threads that a context's kernels count but no slot holds are counted as ended with the kill mark (R425). -/
def countLost (s : State) (n : Nat) : State :=
  { s with kernels := s.kernels.map fun e =>
      (e.1, if e.2.state == .running && e.2.ctx == n then
          { e.2 with killed := e.2.killed + (e.2.count - e.2.ended), ended := e.2.count, state := .draining } else e.2) }

/-- The Received and Queued kernels of a context are cancelled: CODE 2 (R426). An Admitted one, for which the tables give
no cancellation, runs to its end as if its threads were spawned and at once killed (DEDUCED, log 67). -/
def cancelCtx (s : State) (n : Nat) : State :=
  let s := cancelKernels s fun k => kernelCtx s k == n
  { s with kernels := s.kernels.map fun e =>
      (e.1, if e.2.state == .admitted && e.2.ctx == n then
          { e.2 with state := .draining, places := [], pend := none, count := e.2.threads, ended := e.2.threads,
                     killed := e.2.threads } else e.2) }

/-- The call queues that a context serves are closed (R310, R319, R335). -/
def closeServed (s : State) (c : Ctx) : State :=
  ((s.queues.filter fun e => e.2.kind = 2 ∧ e.2.part = c.part ∧ e.2.svc = c.vmid ∧ !e.2.closed).map (·.1)).foldl
    (fun s q => closeCalls (setQu s q { qu s q with closed := true }) (q - 256)) s

/-- The context is Destroyed: its threads are ended, its groups freed, its kernels cancelled and its queues closed. -/
def destroyCtx (s : State) (n : Nat) : State :=
  let nears := ctxNears s n
  let s := killThreads s (ctxThreads s n)
  let ks := (s.groups.filter fun e => e.2.used ∧ e.2.ctx = n).map (·.1)
  let s := cancelCtx (countLost (ks.foldl dissolve s) n) n
  let s := closeServed s (cx s n)
  let s := setCx s n { cx s n with state := .destroyed, suspending := none, destroying := false, nears := (cx s n).nears ++ nears }
  grantWaits (releaseReserve { s with pageWaits := s.pageWaits.filter fun r => r.ctx ≠ n } n)

/-- DESTROY (R335). -/
def ctxDestroy (s : State) (v : Word) : Int × State :=
  let n := ctxcCtx v
  let c := cx s n
  if c.state = .empty ∨ c.state = .destroyed then (-1, s)
  else match ctxAdmin s c.part with
    | some x => (x, s)
    | none =>
      if c.state = .sealing ∨ c.state = .restoring then (0, setCx s n { c with destroying := true })
      else (0, destroyCtx s n)

/-- The pages that a second-stage table maps: physical address and size (R286, R335). -/
def tablePages (s : State) (part base : Nat) : Nat → List (Nat × Nat)
  | 0 => []
  | lvl + 1 =>
    (List.range (if lvl = 4 then 2048 else 512)).flatMap fun i =>
      match pteHome s part false (base + 8 * i) with
      | none => []
      | some key =>
        let p := mrd s.mem key 8
        if !(pteV p) || pteBad p lvl then []
        else if pteLeaf p then [(ptePpn p * 4096, 2 ^ (12 + 9 * lvl))]
        else tablePages s part (ptePpn p * 4096) lvl

/-- A run of a partition's granules set to zero. -/
def scrubRun (s : State) (part : Nat) (e : Nat × Nat) : State :=
  match physOf s e.1 with
  | .mem k =>
    let hit (x : Nat) : Bool := k ≤ x && x < k + e.2 && isOwn x && partOwns s part x
    let s := { s with mem := s.mem.filter (fun x => !(hit x.1)),
                      poison := s.poison.filter fun l => match l with | .mem x => !(hit x) | _ => true }
    touched (dropBuilt s (.mem k) e.2) (.mem k) e.2
  | _ => s

/-- A near range set to zero, unless a kernel of another context has it by now. -/
def scrubNear (s : State) (n : Nat) (r : Nat × Nat × Nat) : State :=
  let clash := s.kernels.any fun e =>
    e.2.live && e.2.ctx != n && e.2.ncounters != 0 &&
    (let lo := (model s e.2.model).nclo; lo < r.2.1 + r.2.2 && r.2.1 < lo + e.2.ncounters) && e.2.cores.contains r.1
  if clash then s else (List.range r.2.2).foldl (fun s i => storeAt s (.near r.1 (r.2.1 + i)) 8 0) s

/-- The scrub of a Destroyed context ends: regions and near ranges are zero, page-request entries, arms and the
registers are free, and the context is Empty (R335). -/
def scrubCtx (s : State) (n : Nat) : State :=
  let c := cx s n
  let pages := if c.hgxlat.toNat / 2 ^ 60 = 0 then [] else tablePages s c.part (fld c.hgxlat.toNat 43 0 * 4096) 5
  let s := c.nears.foldl (fun s r => scrubNear s n r) (pages.foldl (fun s e => scrubRun s c.part e) s)
  let s := { s with arms := s.arms.filter (fun a => !(a.tid.isNone && some a.vf == c.vf)),
                    pageWaits := s.pageWaits.filter fun r => r.ctx ≠ n, lateRecs := s.lateRecs.filter fun e => e.1 ≠ n,
                    kernels := s.kernels.map fun e => (e.1, { e.2 with src := e.2.src.without n }) }
  let s := match c.vf with
    | some v => setVf s v { vfn s v with arms := [] }
    | none => s
  let s := setCx s n { part := c.part }
  ((s.pages.filter fun e => e.2.ctx = n).map (·.1)).foldl freePageEntry s

/-- `SCRUB_COMPLETE` (R174, R335): the running tile commands and the stores that the ended threads left are done. -/
def execScrubComplete (ctx : Nat) (s : State) : Out :=
  .next (if (cx s ctx).state = .destroyed ∧ !(s.cores.any fun e => e.2.tq.any fun c => c.ctx == ctx) ∧ (s.threads.all fun e => e.2.ctx != ctx || slotClean e.2) ∧
      !(s.kernels.any fun e => e.2.ctx = ctx ∧ e.2.live) then scrubCtx s ctx else s)

/-! ### A write of `CTXC`, and its commands as events -/

/-- How a command ends: none for a code that is no command. -/
def ctxCommand (s : State) (v : Word) : Option (Int × State) :=
  match ctxcCmd v with
  | 1 => some (ctxCreate s v)
  | 2 => some (ctxReady s v)
  | 3 => some (ctxStart s v)
  | 4 => some (ctxSuspend s v)
  | 5 => some (ctxStart s v)
  | 6 => some (ctxDestroy s v)
  | _ => none

/-- The command `n` of `CTXC` as an event of a hypervisor thread. -/
def ctxEvent (n : Nat) (arg : Word) (s : State) : Out :=
  .next (if (me s).priv ≠ .hyp ∨ (me s).state ≠ .ready ∨ ctxcCmd arg ≠ n then s
    else match ctxCommand s arg with
      | some (st, s) => setCtxc s arg st
      | none => s)

/-- `CREATE` (R335, R353). -/
def execCreate (arg : Word) (s : State) : Out := ctxEvent 1 arg s

/-- `READY` (R335, R353). -/
def execReady (arg : Word) (s : State) : Out := ctxEvent 2 arg s

/-- `START` (R335, R353). -/
def execStart (arg : Word) (s : State) : Out := ctxEvent 3 arg s

/-- `SUSPEND` (R336, R353). -/
def execSuspend (arg : Word) (s : State) : Out := ctxEvent 4 arg s

/-- `RESUME` (R335, R353). -/
def execResume (arg : Word) (s : State) : Out := ctxEvent 5 arg s

/-- `DESTROY` (R335, R353). -/
def execDestroy (arg : Word) (s : State) : Out := ctxEvent 6 arg s

/-- `SUSPEND_COMPLETE` (R336). -/
def execSuspendComplete (ctx : Nat) (s : State) : Out := .next (suspendTry s ctx)

/-! ### Measurement (R339) -/

/-- The first byte of a run that a measurement cannot read: its address, and whether it is an uncorrectable error. -/
def extendBad (s : State) (part a len : Nat) : Option (Nat × Bool) :=
  (leastFrom (fun i => match physOf s (a + i) with
      | .mem k => !(isOwn k && partOwns s part k) || poisoned s (.mem k) 1
      | _ => true) 0 len).map fun i =>
    (a + i, match physOf s (a + i) with
      | .mem k => isOwn k && partOwns s part k
      | _ => false)

/-- `ctx.extend` (R339, R349). -/
def execCtxExtend (p : BitVec 1) (d a b : BitVec 5) (s : State) : Out :=
  let w := wordCtxExtend p d a b
  let v := (rd s b).toNat
  let n := v / 2 ^ 48 % 256
  let len := if v % 2 ^ 26 = 0 then 2 ^ 26 else v % 2 ^ 26
  let kind := v / 2 ^ 32 % 256
  .next (if v / 2 ^ 26 % 64 ≠ 0 ∨ v / 2 ^ 40 % 256 ≠ 0 ∨ v / 2 ^ 56 ≠ 0 then illegal s w
    else if (me s).priv ≠ .hyp then privFault s w
    else if !(administers s (coreOf s.cur) (cx s n).part) then finish (wr s d (statusOf (-2))) p
    else if (cx s n).state ≠ .loading then finish (wr s d (statusOf (-1))) p
    else
      let c := cx s n
      match extendBad s c.part (rd s a).toNat len with
      | some (x, poison) => raise s (if poison then 9 else 6) (BitVec.ofNat 64 x)
      | none =>
        let bs := match physOf s (rd s a).toNat with
          | .mem k => mbytes s.mem k len
          | _ => []
        let m := sha256 (c.measure ++ natBytes 1 kind ++ natBytes 8 len ++ sha256 bs)
        finish (wr (setCx s n { c with measure := m }) d 0) p)

/-! ### Quotes (R348) -/

/-- A signed report: context, measurement, nonce, ephemeral key, lineage. -/
def quoteBytes (s : State) (n : Nat) (measure nonce eph linid : List Byte) : List Byte :=
  let c := cx s n
  let bs := natBytes 4 1 ++ natBytes 2 n ++ natBytes 2 c.state.code ++ natBytes 8 Config.serial.toNat ++
    s.lehr.fwMeasure ++ measure ++ configHash s c.part ++ nonce ++ eph ++ linid ++ natBytes 32 0
  bs ++ signAttest bs

/-- The LINID of a context, or zero. -/
def linidOf (c : Ctx) : List Byte :=
  match c.lineage with
  | some (l, _) => l
  | none => List.replicate 16 0

/-- `ctx.quote` (R348, R349). -/
def execCtxQuote (p : BitVec 1) (d a b : BitVec 5) (s : State) : Out :=
  let w := wordCtxQuote p d a b
  let v := (rd s b).toNat
  let self := v / 256 % 2 = 1
  let n := if self then (me s).ctx else v % 256
  .next (if v / 512 ≠ 0 then illegal s w
    else if (me s).priv = .user then raise s 3 (BitVec.ofNat 64 w)
    else if (rd s a).toNat % 64 ≠ 0 then raise s 5 (rd s a)
    else if vstPending (me s) then held s
    else match loadRun s (rd s a + 112) 4 with
      | (_, .ends s) => s
      | (_, .hold s) => held s
      | (_, .failed c s) => raise s c (rd s a + 112)
      | (nonce, .value _ s) =>
        if (me s).priv = .sup ∧ !self then finish (wr s d (statusOf (-2))) p
        else if (me s).priv = .hyp ∧ !(administers s (coreOf s.cur) (cx s n).part) then finish (wr s d (statusOf (-2))) p
        else if (cx s n).state = .empty ∨ (cx s n).state = .destroyed then finish (wr s d (statusOf (-1))) p
        else if 24 < entriesOf (me s).stores then held s
        else
          let bs := quoteBytes s n (cx s n).measure nonce (natBytes 64 0) (linidOf (cx s n))
          finish (wr (pushWords s (rd s a) w bs 40) d 0) p)

end Sys2Proof.Machine
end

