-- ==== Sys2Proof/Machine/Fp.lean ====
section
/-! DEFINITION. Scalar floating point (R69, R70). -/

namespace Sys2Proof.Machine

/-- A floating-point result with its flags; the bundle goes on. -/
def fp (s : State) (d : BitVec 5) (r : Nat × Flags) : Out := .next (finish (wrFlags s d r) 0)

/-- A comparison's result with its flags. -/
def fpBool (s : State) (d : BitVec 5) (r : Bool × Flags) : Out := .next (finish (wrBool s d r) 0)

/-- A long floating-point result: the flags at the end of the bundle, the register under the lookahead rule (R58,
R108). -/
def fpLong (s : State) (d : BitVec 5) (q : BitVec 4) (r : Nat × Flags) : Out :=
  .next (finish (orFlags (longResult s d q (.ready (BitVec.ofNat 64 r.1))) s.cur r.2) 0)

/-- A double-precision operand: all 64 bits (R69). -/
def f64 (s : State) (r : BitVec 5) : Nat := (rd s r).toNat
/-- A single-precision operand: bits [31:0] (R69). -/
def f32 (s : State) (r : BitVec 5) : Nat := lo32 (rd s r)

/-- `fadd.s` (R69, R70). -/
def execFaddS (d a b : BitVec 5) (s : State) : Out := fp s d (fp32.add (rmNow s) (f32 s a) (f32 s b))

/-- `fsub.s` (R69, R70). -/
def execFsubS (d a b : BitVec 5) (s : State) : Out := fp s d (fp32.sub (rmNow s) (f32 s a) (f32 s b))

/-- `fmul.s` (R69, R70). -/
def execFmulS (d a b : BitVec 5) (s : State) : Out := fp s d (fp32.mul (rmNow s) (f32 s a) (f32 s b))

/-- `fdiv.s` (R69, R70). -/
def execFdivS (d a b : BitVec 5) (q : BitVec 4) (s : State) : Out :=
  fpLong s d q (fp32.div (rmNow s) (f32 s a) (f32 s b))

/-- `fsqrt.s` (R69, R70). -/
def execFsqrtS (d a : BitVec 5) (q : BitVec 4) (s : State) : Out := fpLong s d q (fp32.sqrt (rmNow s) (f32 s a))

/-- `fmin.s` (R69, R70). -/
def execFminS (d a b : BitVec 5) (s : State) : Out := fp s d (fp32.pick false (f32 s a) (f32 s b))

/-- `fmax.s` (R69, R70). -/
def execFmaxS (d a b : BitVec 5) (s : State) : Out := fp s d (fp32.pick true (f32 s a) (f32 s b))

/-- `fmadd.s` (R69, R70). -/
def execFmaddS (d a b : BitVec 5) (s : State) : Out := fp s d (fp32.fma (rmNow s) (f32 s a) (f32 s b) (f32 s d))

/-- `feq.s` (R69, R70). -/
def execFeqS (d a b : BitVec 5) (s : State) : Out := fpBool s d (fp32.feq (f32 s a) (f32 s b))

/-- `flt.s` (R69, R70). -/
def execFltS (d a b : BitVec 5) (s : State) : Out := fpBool s d (fp32.fltle false (f32 s a) (f32 s b))

/-- `fle.s` (R69, R70). -/
def execFleS (d a b : BitVec 5) (s : State) : Out := fpBool s d (fp32.fltle true (f32 s a) (f32 s b))

/-- `fclass.s` (R69, R70). -/
def execFclassS (d a : BitVec 5) (s : State) : Out := fp s d (fp32.classify (f32 s a), 0)

/-- `fadd.d` (R69, R70). -/
def execFaddD (d a b : BitVec 5) (s : State) : Out := fp s d (fp64.add (rmNow s) (f64 s a) (f64 s b))

/-- `fsub.d` (R69, R70). -/
def execFsubD (d a b : BitVec 5) (s : State) : Out := fp s d (fp64.sub (rmNow s) (f64 s a) (f64 s b))

/-- `fmul.d` (R69, R70). -/
def execFmulD (d a b : BitVec 5) (s : State) : Out := fp s d (fp64.mul (rmNow s) (f64 s a) (f64 s b))

/-- `fdiv.d` (R69, R70). -/
def execFdivD (d a b : BitVec 5) (q : BitVec 4) (s : State) : Out :=
  fpLong s d q (fp64.div (rmNow s) (f64 s a) (f64 s b))

/-- `fsqrt.d` (R69, R70). -/
def execFsqrtD (d a : BitVec 5) (q : BitVec 4) (s : State) : Out := fpLong s d q (fp64.sqrt (rmNow s) (f64 s a))

/-- `fmin.d` (R69, R70). -/
def execFminD (d a b : BitVec 5) (s : State) : Out := fp s d (fp64.pick false (f64 s a) (f64 s b))

/-- `fmax.d` (R69, R70). -/
def execFmaxD (d a b : BitVec 5) (s : State) : Out := fp s d (fp64.pick true (f64 s a) (f64 s b))

/-- `fmadd.d` (R69, R70). -/
def execFmaddD (d a b : BitVec 5) (s : State) : Out := fp s d (fp64.fma (rmNow s) (f64 s a) (f64 s b) (f64 s d))

/-- `feq.d` (R69, R70). -/
def execFeqD (d a b : BitVec 5) (s : State) : Out := fpBool s d (fp64.feq (f64 s a) (f64 s b))

/-- `flt.d` (R69, R70). -/
def execFltD (d a b : BitVec 5) (s : State) : Out := fpBool s d (fp64.fltle false (f64 s a) (f64 s b))

/-- `fle.d` (R69, R70). -/
def execFleD (d a b : BitVec 5) (s : State) : Out := fpBool s d (fp64.fltle true (f64 s a) (f64 s b))

/-- `fclass.d` (R69, R70). -/
def execFclassD (d a : BitVec 5) (s : State) : Out := fp s d (fp64.classify (f64 s a), 0)

/-- `fcvt.sd`: f64 rounded to f32 (R69). -/
def execFcvtSd (d a : BitVec 5) (s : State) : Out := fp s d (fp64.convert fp32 (rmNow s) (f64 s a))

/-- `fcvt.ds`: f32 widened to f64 (R69). -/
def execFcvtDs (d a : BitVec 5) (s : State) : Out := fp s d (fp32.convert fp64 (rmNow s) (f32 s a))

/-- `fcvt.sl`: s64 rounded to f32 (R69). -/
def execFcvtSl (d a : BitVec 5) (s : State) : Out := fp s d (fp32.ofInt (rmNow s) (rd s a).toInt)

/-- `fcvt.ls`: f32 rounded to s64 (R69, R70). -/
def execFcvtLs (d a : BitVec 5) (s : State) : Out := fp s d (fp32.toInt (rmNow s) 64 (f32 s a))

/-- `fcvt.dl`: s64 rounded to f64 (R69). -/
def execFcvtDl (d a : BitVec 5) (s : State) : Out := fp s d (fp64.ofInt (rmNow s) (rd s a).toInt)

/-- `fcvt.ld`: f64 rounded to s64 (R69, R70). -/
def execFcvtLd (d a : BitVec 5) (s : State) : Out := fp s d (fp64.toInt (rmNow s) 64 (f64 s a))

end Sys2Proof.Machine
end

