-- ==== Sys2Proof/Machine/Ialu.lean ====
section
/-! DEFINITION. Integer arithmetic: IALU, IALUI, `ldhi` and `pcadd` (R65-R68). -/

namespace Sys2Proof.Machine

/-- A result of class A in a register; the bundle goes on (R21, R55). -/
def alu (s : State) (d : BitVec 5) (v : Word) : Out := .next (finish (wr s d v) 0)

/-- A long result of class A (R58). -/
def aluLong (s : State) (d : BitVec 5) (q : BitVec 4) (v : Word) : Out :=
  .next (finish (longResult s d q (.ready v)) 0)

/-- The shift amount in a register: bits [5:0] (R66). -/
def shAmt (b : Word) : Nat := b.toNat % 64

/-- Count of leading zero bits (R66). -/
def clz64 (a : Word) : Nat := if a = 0 then 64 else 63 - Nat.log2 a.toNat
/-- Count of trailing zero bits (R66). -/
def ctz64 (a : Word) : Nat := (leastFrom (fun k => a.getLsbD k) 0 64).getD 64
/-- Count of one bits (R66). -/
def cpop64 (a : Word) : Nat := ((List.range 64).filter fun k => a.getLsbD k).length

/-- Division with the values of R67. -/
def sdiv64 (a b : Word) : Word := if b = 0 then BitVec.allOnes 64 else a.sdiv b
def udiv64 (a b : Word) : Word := if b = 0 then BitVec.allOnes 64 else a / b
def srem64 (a b : Word) : Word := if b = 0 then a else a.srem b
def urem64 (a b : Word) : Word := if b = 0 then a else a % b
/-- Bits [127:64] of a product (R66). -/
def mulhS (a b : Word) : Word := BitVec.ofInt 64 (a.toInt * b.toInt / 2 ^ 64)
def mulhU (a b : Word) : Word := BitVec.ofNat 64 (a.toNat * b.toNat / 2 ^ 64)

/-- `add` (R66). -/
def execAdd (d a b : BitVec 5) (s : State) : Out := alu s d (rd s a + rd s b)

/-- `sub` (R66). -/
def execSub (d a b : BitVec 5) (s : State) : Out := alu s d (rd s a - rd s b)

/-- `and` (R66). -/
def execAnd (d a b : BitVec 5) (s : State) : Out := alu s d (rd s a &&& rd s b)

/-- `or` (R66). -/
def execOr (d a b : BitVec 5) (s : State) : Out := alu s d (rd s a ||| rd s b)

/-- `xor` (R66). -/
def execXor (d a b : BitVec 5) (s : State) : Out := alu s d (rd s a ^^^ rd s b)

/-- `andn` (R66). -/
def execAndn (d a b : BitVec 5) (s : State) : Out := alu s d (rd s a &&& ~~~(rd s b))

/-- `orn` (R66). -/
def execOrn (d a b : BitVec 5) (s : State) : Out := alu s d (rd s a ||| ~~~(rd s b))

/-- `sll` (R66). -/
def execSll (d a b : BitVec 5) (s : State) : Out := alu s d (rd s a <<< shAmt (rd s b))

/-- `srl` (R66). -/
def execSrl (d a b : BitVec 5) (s : State) : Out := alu s d (rd s a >>> shAmt (rd s b))

/-- `sra` (R66). -/
def execSra (d a b : BitVec 5) (s : State) : Out := alu s d ((rd s a).sshiftRight (shAmt (rd s b)))

/-- `slt` (R66). -/
def execSlt (d a b : BitVec 5) (s : State) : Out := alu s d (ofBool ((rd s a).slt (rd s b)))

/-- `sltu` (R66). -/
def execSltu (d a b : BitVec 5) (s : State) : Out := alu s d (ofBool ((rd s a).ult (rd s b)))

/-- `min` (R66). -/
def execMin (d a b : BitVec 5) (s : State) : Out := alu s d (if (rd s a).slt (rd s b) then rd s a else rd s b)

/-- `max` (R66). -/
def execMax (d a b : BitVec 5) (s : State) : Out := alu s d (if (rd s a).slt (rd s b) then rd s b else rd s a)

/-- `minu` (R66). -/
def execMinu (d a b : BitVec 5) (s : State) : Out := alu s d (if (rd s a).ult (rd s b) then rd s a else rd s b)

/-- `maxu` (R66). -/
def execMaxu (d a b : BitVec 5) (s : State) : Out := alu s d (if (rd s a).ult (rd s b) then rd s b else rd s a)

/-- `mul` (R66). -/
def execMul (d a b : BitVec 5) (s : State) : Out := alu s d (rd s a * rd s b)

/-- `addw` (R66). -/
def execAddw (d a b : BitVec 5) (s : State) : Out := alu s d (sext32 (rd s a + rd s b))

/-- `subw` (R66). -/
def execSubw (d a b : BitVec 5) (s : State) : Out := alu s d (sext32 (rd s a - rd s b))

/-- `clz` (R66). -/
def execClz (d a : BitVec 5) (s : State) : Out := alu s d (BitVec.ofNat 64 (clz64 (rd s a)))

/-- `ctz` (R66). -/
def execCtz (d a : BitVec 5) (s : State) : Out := alu s d (BitVec.ofNat 64 (ctz64 (rd s a)))

/-- `cpop` (R66). -/
def execCpop (d a : BitVec 5) (s : State) : Out := alu s d (BitVec.ofNat 64 (cpop64 (rd s a)))

/-- `rol` (R66). -/
def execRol (d a b : BitVec 5) (s : State) : Out := alu s d ((rd s a).rotateLeft (shAmt (rd s b)))

/-- `ror` (R66). -/
def execRor (d a b : BitVec 5) (s : State) : Out := alu s d ((rd s a).rotateRight (shAmt (rd s b)))

/-- `mulh`, a long result (R66, R67). -/
def execMulh (d a b : BitVec 5) (q : BitVec 4) (s : State) : Out := aluLong s d q (mulhS (rd s a) (rd s b))

/-- `mulhu`, a long result (R66, R67). -/
def execMulhu (d a b : BitVec 5) (q : BitVec 4) (s : State) : Out := aluLong s d q (mulhU (rd s a) (rd s b))

/-- `div`, a long result (R66, R67). -/
def execDiv (d a b : BitVec 5) (q : BitVec 4) (s : State) : Out := aluLong s d q (sdiv64 (rd s a) (rd s b))

/-- `divu`, a long result (R66, R67). -/
def execDivu (d a b : BitVec 5) (q : BitVec 4) (s : State) : Out := aluLong s d q (udiv64 (rd s a) (rd s b))

/-- `rem`, a long result (R66, R67). -/
def execRem (d a b : BitVec 5) (q : BitVec 4) (s : State) : Out := aluLong s d q (srem64 (rd s a) (rd s b))

/-- `remu`, a long result (R66, R67). -/
def execRemu (d a b : BitVec 5) (q : BitVec 4) (s : State) : Out := aluLong s d q (urem64 (rd s a) (rd s b))

/-- `addi` (R68). -/
def execAddi (d a : BitVec 5) (imm : BitVec 12) (s : State) : Out := alu s d (rd s a + imm12 imm)

/-- `slti` (R68). -/
def execSlti (d a : BitVec 5) (imm : BitVec 12) (s : State) : Out := alu s d (ofBool ((rd s a).slt (imm12 imm)))

/-- `sltiu` (R68). -/
def execSltiu (d a : BitVec 5) (imm : BitVec 12) (s : State) : Out := alu s d (ofBool ((rd s a).ult (imm12 imm)))

/-- `xori` (R68). -/
def execXori (d a : BitVec 5) (imm : BitVec 12) (s : State) : Out := alu s d (rd s a ^^^ imm12 imm)

/-- `ori` (R68). -/
def execOri (d a : BitVec 5) (imm : BitVec 12) (s : State) : Out := alu s d (rd s a ||| imm12 imm)

/-- `andi` (R68). -/
def execAndi (d a : BitVec 5) (imm : BitVec 12) (s : State) : Out := alu s d (rd s a &&& imm12 imm)

/-- `slli` (R68). -/
def execSlli (d a : BitVec 5) (sh : BitVec 6) (s : State) : Out := alu s d (rd s a <<< sh.toNat)

/-- `srli` (R68). -/
def execSrli (d a : BitVec 5) (sh : BitVec 6) (s : State) : Out := alu s d (rd s a >>> sh.toNat)

/-- `srai` (R68). -/
def execSrai (d a : BitVec 5) (sh : BitVec 6) (s : State) : Out := alu s d ((rd s a).sshiftRight sh.toNat)

/-- `addiw` (R68). -/
def execAddiw (d a : BitVec 5) (imm : BitVec 12) (s : State) : Out := alu s d (sext32 (rd s a + imm12 imm))

/-- `ldhi`: sext(imm20) << 12 (R65). -/
def execLdhi (d : BitVec 5) (imm : BitVec 20) (s : State) : Out := alu s d (imm20 imm)

/-- `pcadd`: bundle address + (sext(imm20) << 12) (R65). -/
def execPcadd (p : BitVec 1) (d : BitVec 5) (imm : BitVec 20) (s : State) : Out :=
  .next (finish (wr s d ((me s).pc + imm20 imm)) p)

end Sys2Proof.Machine
end

