-- ==== Sys2Proof/Machine/Link.lean ====
section
/-! DEFINITION. Link ports, path timeouts, accesses of peer packages, and the host's windows into a virtual function
(R203, R360-R366, R373-R378, R385). -/

namespace Sys2Proof.Machine

/-! ### Ports (R360-R363) -/

def portOf (s : State) (p : Nat) : Port := tget s.ports p {}
def setPort (s : State) (p : Nat) (x : Port) : State := { s with ports := tput s.ports p x }

/-- Waiters and arms listed at peers that are no longer reachable: the waiters read again, and find no path; the arms
wait for the path timeout (R363). -/
def lostPaths (s : State) : State :=
  let lost := s.waiters.filter fun w => !(homeReach s w.2)
  let s := { s with waiters := s.waiters.filter fun w => homeReach s w.2 }
  let s := lost.foldl (fun s w =>
    match (th s w.1).wait with
    | some x => stick (setTh s w.1 { th s w.1 with wait := some { x with woken := true, listed := false } }) w.1 0 x.addr 0 w.2
    | none => s) s
  (s.arms.filter fun a => !(homeReach s a.loc)).foldl (fun s a =>
    match a.tid with
    | some t => stick s t 5 a.addr 0 a.loc
    | none => s) s

/-- Requests to packages that have a path again no longer wait for one (R363). -/
def foundPaths (s : State) : State :=
  { s with stuck := s.stuck.filter fun k =>
      if k.pkg = 256 then !((List.range 24).any (portUp s)) else !(reachable s k.pkg) }

/-- What is reachable has changed. -/
def newPaths (s : State) : State := lostPaths (foundPaths s)

/-- A port changes, and with it what is reachable. -/
def portTo (s : State) (p : Nat) (x : Port) : State := newPaths (setPort s p x)

/-- A Down port goes Training (R361). -/
def portTrain (s : State) (port : Nat) : Option State :=
  let x := portOf s port
  if x.state = .down then some (setPort s port { x with state := .training, lanes := 0, attempts := 0 }) else none

/-- A port that is not Fenced is (R361). -/
def portShut (s : State) (port : Nat) : Option State :=
  let x := portOf s port
  if x.state = .fenced then none else some (portTo s port { x with state := .fenced, lanes := 0 })

/-- A Failed or Fenced port goes Down (R361). -/
def portDown (s : State) (port : Nat) : Option State :=
  let x := portOf s port
  if x.state = .failed ∨ x.state = .fenced then some (setPort s port { x with state := .down, lanes := 0, attempts := 0 })
  else none

/-- `LANE_LOCK` (R361): 8 lanes lock, or only 4. -/
def execLaneLock (port lanes : Nat) (s : State) : Out :=
  let x := portOf s port
  .next (if port < 24 ∧ (x.state = .training ∨ x.state = .retraining) ∧ (lanes = 8 ∨ lanes = 4) then
      portTo s port { x with state := if lanes = 8 then .up else .degraded, lanes := lanes, attempts := 0 }
    else s)

/-- `TRAINING_TIMEOUT` (R361): an attempt gives no lock; after three the port is Failed. -/
def execTrainingTimeout (port : Nat) (s : State) : Out :=
  let x := portOf s port
  .next (if port < 24 ∧ (x.state = .training ∨ x.state = .retraining) then
      (if 3 ≤ x.attempts + 1 then portTo s port { x with state := .failed, lanes := 0, attempts := 0 }
       else setPort s port { x with attempts := x.attempts + 1 })
    else s)

/-- A port that carries traffic enters Retraining (R361, R362). -/
def retrain (s : State) (port : Nat) : State :=
  let x := portOf s port
  if port < 24 ∧ portUp s port then
    portTo s port { x with state := .retraining, lanes := 0, retrain := min (x.retrain + 1) (2 ^ 16 - 1), attempts := 0 }
  else s

/-- `RETRAIN_TRIGGER` (R361): a lane is lost, or management asks to regain lanes. -/
def execRetrainTrigger (port : Nat) (_lost : Bool) (s : State) : Out := .next (retrain s port)

/-- `FLIT_CRC_FAIL` (R360, R361): a flit fails its CRC and is replayed, `copies` times in all; 8 times retrain the port. -/
def execFlitCrcFail (port copies : Nat) (s : State) : Out :=
  .next (if port < 24 ∧ portUp s port then
      let x := portOf s port
      let s := setPort s port { x with replay := min (x.replay + copies) (2 ^ 24 - 1) }
      if 8 ≤ copies then retrain s port else s
    else s)

/-- Is a port of a package's route Retraining, with the traffic that it holds (R361, R383)? -/
def routeRetrains (s : State) (pkg : Nat) : Bool :=
  (List.range 24).any fun p =>
    (pkg = 256 || tget s.routes pkg 0 / 2 ^ p % 2 == 1) && (portOf s p).state == .retraining

/-- A listed arm whose home is lost: its thread takes a counter fault of reason 7 at its next issue (R177, R363). -/
def lostArm (s : State) (k : Stuck) : State :=
  let s := { s with arms := s.arms.filter (fun a => !(a.tid == some k.tid && a.addr == k.addr && !(homeReach s a.loc))),
                    stuck := s.stuck.filter (· ≠ k) }
  let t := th s k.tid
  setTh s k.tid { t with longs := t.longs ++ [{ d := 0, left := 0, res := .failed (11 + 64 * 7) k.addr, pc := t.u.lapc }] }

/-- The dirty bytes of a line whose home is lost are undeliverable stores of the contexts that made it dirty: each logs one, with
the line's address, and nothing is written (R232, R363; log 72). -/
def lostLine (s : State) (k : Stuck) : State :=
  let line := k.addr.toNat
  let s := { s with stuck := s.stuck.filter (· ≠ k) }
  match s.peerLines.find? fun e => e.1 = line with
  | some (_, p) =>
    if p.dirty ∧ !(homeReach s (.mem (line * 128))) then
      p.ctxs.foldl (fun s c => logError s c 4 0xFFFF (line * 128 % 2 ^ 48) 0 1024) { s with peerLines := tdel s.peerLines line }
    else s
  | none => s

/-- `PATH_TIMEOUT` (R363): the n-th request without a path has waited 2 ms. -/
def execPathTimeout (n : Nat) (s : State) : Out :=
  match s.stuck[n]? with
  | none => .next s
  | some k =>
    .next (if routeRetrains s k.pkg then s
      else if k.kind = 5 then
        (if s.arms.any fun a => a.tid = some k.tid ∧ a.addr = k.addr ∧ !(homeReach s a.loc) then lostArm s k
         else { s with stuck := ldel s.stuck n })
      else if k.kind = 7 then lostLine s k
      else { s with stuck := lput s.stuck n { k with expired := true } })

/-! ### Accesses of peer packages (R365, R366) -/

/-- An answer that goes back to a peer package. -/
def answerPeer (s : State) (src st : Nat) (bs : List Byte) : State :=
  { s with out := { s.out with remote := s.out.remote ++ [(src, st, bs)] } }

/-- The operation of an atomic by its code. -/
def rmwOf (n : Nat) : Rmw :=
  match n with
  | 0 => .add
  | 1 => .and
  | 2 => .or
  | 3 => .xor
  | 4 => .min
  | 5 => .max
  | 6 => .minu
  | 7 => .maxu
  | 8 => .swap
  | 9 => .cas
  | _ => .fadd

/-- Does a write of a peer package touch a halo region? No thread there owns an element (R252). -/
def remoteHalo (s : State) (kind off n : Nat) : Bool :=
  kind ≠ 0 && kind ≠ 4 && (List.range n).any fun i => (haloAt s (off + i)).isSome

/-- `REMOTE_ACCESS_RECEIVE` (R252, R365, R366): an access of partition `spart` of package `src` at an address of this package.
Kinds: 0 read of as many bytes as `data` has, 1 store, 2 counter add, 3 counter reset, 4 wait on a threshold; 16 + n an
8-byte atomic or reduction of code n with its operand, and the compared value after it. An answer is 0 done, 1 refused, 2
the threshold is met, 3 the home is withdrawn (R201), 4 an uncorrectable word (R390): names of the model's own (log 44). -/
def execRemoteAccessReceive (src spart kind pa : Nat) (data : List Byte) (s : State) : Out :=
  let off := pa % 2 ^ 40
  let part := (granule s (off / 2 ^ 30)).part
  let l : Loc := .mem off
  let v := BitVec.ofNat 64 (field data 0 8)
  .next (if 24 ≤ part ∨ tget s.domains (part * 256 + src) 0 / 2 ^ spart % 2 = 0 then answerPeer s src 1 []
    else if homeGone s l then answerPeer s src 3 []
    else if remoteHalo s kind off (if kind = 1 then data.length else 8) then answerPeer s src 1 []
    else if poisoned s l (if kind = 0 ∨ kind = 1 then data.length else 8) ∧ kind ≠ 1 then answerPeer s src 4 []
    else match kind with
      | 0 => answerPeer s src 0 (mbytes s.mem off data.length)
      | 1 => answerPeer (storeBytes s l data) src 0 []
      | 2 => answerPeer (addAt s l v) src 0 (mbytes s.mem off 8)
      | 3 => answerPeer (resetAt s l) src 0 []
      | 4 =>
        if met (BitVec.ofNat 64 (rdLoc s l 8)) v then answerPeer s src 2 (mbytes s.mem off 8)
        else if tableFull s l then answerPeer s src 0 (mbytes s.mem off 8)
        else { s with arms := s.arms ++ [{ loc := l, thr := v, tid := none, vf := 128 + src, addr := BitVec.ofNat 64 pa }] }
      | _ =>
        if kind < 16 then s
        else answerPeer (storeAt s l 8 (rmwNew (rmwOf (kind - 16)) 8 (rdLoc s l 8) v.toNat (field data 8 8))) src 0
            (mbytes s.mem off 8))

/-! ### The host's windows (R203, R373-R378) -/

/-- The fields of a counter-table entry; the reserved bits read as zero and ignore writes (R4, R374). -/
def tableFields (v : Word) : Word := BitVec.ofNat 64 (bits v 63 62 * 2 ^ 62 + bits v 55 0)

/-- The counter that a table entry names, inside a partition of this package (R374). -/
def tableTarget (s : State) (part : Nat) (v : Word) : Option Loc :=
  if bit v 63 then
    if bits v 55 18 = 0 ∧ partOfCore s (bits v 17 8) = part then some (.near (bits v 17 8) (bits v 7 0)) else none
  else match physOf s (bits v 55 0) with
    | .mem k => if isOwn k && k % 8 == 0 && partOwns s part k then some (.mem k) else none
    | _ => none

/-- `COUNTER_TABLE_WRITE` (R374). -/
def execCounterTableWrite (vf ent : Nat) (val : Word) (s : State) : Out :=
  let v := vfn s vf
  .next (if 128 ≤ vf ∨ 512 ≤ ent then s
    else match (vfCtx s vf).bind fun c => tableTarget s (cx s c).part val with
      | some _ => setVf s vf { v with table := tput v.table ent (tableFields val) }
      | none => vfError s vf 5 (0x100000 + vf * 0x1000 + ent * 8) val.toNat)

/-- The counter of a window entry, when the entry is valid and lies in the partition: or the kind of the drop. -/
def windowLoc (s : State) (vf ent : Nat) : Nat ⊕ (Nat × Loc) :=
  let e := tget (vfn s vf).table ent 0
  if !(bit e 62) then .inl 2
  else match vfCtx s vf with
    | none => .inl 5
    | some c =>
      match tableTarget s (cx s c).part e with
      | some l => .inr (c, l)
      | none => .inl 5

/-- `HOST_COUNTER_WINDOW_WRITE` (R203, R373): an add as a release at system scope. -/
def execHostCounterWindowWrite (vf ent : Nat) (val : Word) (s : State) : Out :=
  let drop (k : Nat) : State := vfError s vf k (0x4000 + ent * 8) val.toNat
  .next (if 128 ≤ vf ∨ 512 ≤ ent then s
    else match windowLoc s vf ent with
      | .inl k => drop k
      | .inr (c, l) =>
        if 2 ^ 62 ≤ val.toNat ∨ homeGone s l then drop 2
        else if poisoned s l 8 then
          dropEngine s (deviceWho c 0) (BitVec.ofNat 64 (bits (tget (vfn s vf).table ent 0) 55 0)) val
        else addAt s l val)

/-- `HOST_ARM_WRITE` (R191, R373): a met threshold fires at once, and a full table refuses. -/
def execHostArmWrite (vf ent : Nat) (val : Word) (s : State) : Out :=
  .next (if 128 ≤ vf ∨ 512 ≤ ent then s
    else match windowLoc s vf ent with
      | .inl k => vfError s vf k (0x5000 + ent * 8) val.toNat
      | .inr (_, l) =>
        let s := { s with arms := s.arms.filter fun a => !(a.tid.isNone && a.vf == vf && a.ent == ent) }
        let a : Arm := { loc := l, thr := val, tid := none, vf := vf, ent := ent }
        let set (n : Nat) : State := let v := vfn s vf; setVf s vf { v with arms := tput v.arms ent n }
        if homeGone s l then vfError s vf 2 (0x5000 + ent * 8) val.toNat
        else if met (BitVec.ofNat 64 (rdLoc s l 8)) val then fireArm s a
        else if tableFull s l then set 2
        else { set 1 with arms := s.arms ++ [a] })

/-- `HOST_DOORBELL` (R377). -/
def execHostDoorbell (vf : Nat) (val : Word) (s : State) : Out :=
  .next (if 128 ≤ vf then s
    else match vfCtx s vf with
      | none => vfError s vf 6 0x6040 val.toNat
      | some c => routed (setCx s c { cx s c with hmsg := val }) (cx s c).part 3)

/-- Is a ring register's LOG2N 0 or 4 to 12? -/
def log2Ok (v : Word) : Bool := let n := v.toNat % 16; n == 0 || (4 ≤ n && n ≤ 12)

/-- `HOST_REGISTER_WRITE` (R373, R378, R385): functions 0 and 1 are the physical functions, 2 + v a virtual one. Read-only
and other offsets ignore writes. -/
def execHostRegisterWrite (fn off : Nat) (val : Word) (s : State) : Out :=
  let clean : Word := BitVec.ofNat 64 (val.toNat / 64 * 64 + val.toNat % 16)
  .next (if fn < 2 then
      if off = 0x1008 then
        let c := val.toNat % 4096
        if 500 ≤ c ∧ c ≤ 3000 then { s with lehr := { s.lehr with lpcap := c } } else s
      else if off = 0x1010 then
        if log2Ok val then { s with lehr := { s.lehr with levb := clean } } else s
      else s
    else if fn < 130 then
      let vf := fn - 2
      let v := vfn s vf
      if off = 0x7000 then
        if log2Ok val then setVf s vf { v with hprb := clean } else vfError s vf 0 off val.toNat
      else if off = 0x7008 then
        let a : Word := BitVec.ofNat 64 (bits val 32 16 * 2 ^ 16 + bits val 11 0)
        pageAnswer (setVf s vf { v with hans := a }) 2 vf a
      else s
    else s)

/-! ### What the host reads, and narrow writes (R362, R373, R374, R380, R385) -/

/-- The codes of R361. -/
def LState.code (x : LState) : Nat :=
  match x with
  | .down => 0
  | .training => 1
  | .up => 2
  | .degraded => 3
  | .retraining => 4
  | .failed => 5
  | .fenced => 6

/-- `LSTS` of a port (R362). -/
def Port.word (p : Port) : Nat := p.replay % 2 ^ 24 * 2 ^ 40 + p.retrain % 2 ^ 16 * 2 ^ 24 + p.lanes % 16 * 2 ^ 12 + p.state.code

/-- `LSTAT` (R385). -/
def Lehr.word (l : Lehr) : Nat :=
  l.pwr % 2 ^ 16 * 2 ^ 48 + l.tmax % 2 ^ 8 * 2 ^ 40 + l.wdn % 2 ^ 8 * 2 ^ 32 + l.freq % 2 ^ 12 * 2 ^ 4 + b2n l.capt * 8 +
  b2n l.thrt * 4 + b2n l.fwok * 2 + b2n l.rdy

/-- The aligned 8-byte word of a physical function's BAR0, where the spec says what it reads as. -/
def physicalWord (s : State) (fn off : Nat) : Option Nat :=
  if off = 0x1000 then some s.lehr.word
  else if off = 0x1008 then some s.lehr.lpcap
  else if off = 0x1010 then some s.lehr.levb.toNat
  else if off = 0x1018 then some s.lehr.levp
  else if 0x2000 ≤ off ∧ off < 0x20C0 then some (portOf s ((off - 0x2000) / 8)).word
  else if 0x3000 ≤ off ∧ off < 0x3020 then
    let e := tget s.eths ((off - 0x3000) / 16) {}
    some (if off % 16 = 0 then e.rxdrop else e.txdrop)
  else if 0x100000 ≤ off ∧ off < 0x180000 ∧ (off - 0x100000) / 0x1000 / 64 = fn then
    some (tget (vfn s ((off - 0x100000) / 0x1000)).table (off % 0x1000 / 8) 0).toNat
  else none

/-- The aligned 8-byte word of a virtual function's BAR0, where the spec says what it reads as (R373). -/
def virtualWord (s : State) (vf off : Nat) : Option Nat :=
  let v := vfn s vf
  if off < 0x4000 then none
  else if off < 0x5000 then
    match windowLoc s vf ((off - 0x4000) / 8) with
    | .inr (_, l) => if homeGone s l || poisoned s l 8 then none else some (rdLoc s l 8)
    | .inl _ => none
  else if off < 0x6000 then
    some (match tget v.arms ((off - 0x5000) / 8) 0 with | 1 => 1 | 2 => 2 ^ 64 - 1 | _ => 0)
  else if off < 0x6048 then none
  else if off = 0x7000 then some v.hprb.toNat
  else if off = 0x7008 then some v.hans.toNat
  else if off = 0x8000 then some v.errcnt
  else if 0x8008 ≤ off ∧ off < 0x8028 then some (field v.errlast (off - 0x8008) 8)
  else some 0

/-- A read of the host of up to 8 bytes within an aligned word of a function's BAR0: functions 0 and 1 are the physical ones,
2 + v a virtual one. Where the spec does not say what a place reads as, a free value (log 46). -/
def hostRead (s : State) (fn off n : Nat) : State :=
  let a := off / 8 * 8
  let (w, s) := match (if fn < 2 then physicalWord s fn a else virtualWord s (fn - 2) a) with
    | some w => (w, s)
    | none => let (w, s) := free s; (w.toNat, s)
  { s with out := { s.out with reads := s.out.reads ++ [(fn, off, cutBytes (natBytes 8 w) (off % 8) n)] } }

/-- A write of the host narrower than a place of a virtual function takes: dropped, with the kind of that place; elsewhere it is
ignored (R373, R377). -/
def hostNarrow (s : State) (fn off : Nat) (data : List Byte) : State :=
  if fn < 2 ∨ 130 ≤ fn ∨ 8 ≤ data.length then s
  else if 0x4000 ≤ off ∧ off < 0x6000 then vfError s (fn - 2) 2 off (bytesNat data)
  else if 0x6040 ≤ off ∧ off < 0x6048 then vfError s (fn - 2) 6 off (bytesNat data)
  else if 0x7000 ≤ off ∧ off < 0x7010 then vfError s (fn - 2) 0 off (bytesNat data)
  else s

end Sys2Proof.Machine
end

