-- ==== Sys2Proof/Machine/Seal.lean ====
section
/-! DEFINITION. Sealed checkpoints: `ctx.seal` and `ctx.unseal`, the jobs of the seal engine, and the lineages of which
this package is the home (R340-R347, R349). -/

namespace Sys2Proof.Machine

/-! ### Descriptors (R342, R345) -/

/-- Is an address a counter home for the seal engine, which R177 refuses for no reason? -/
def sealCounterOk (s : State) (core : Nat) (addr : Word) : Bool :=
  addr.toNat % 8 == 0 && (match nearAt s core addr with
    | some (c, e) => partOfCore s c == partOfCore s core && !(homeGone s (.near c e))
    | none => match physOf s addr.toNat with
      | .mem k => !(isHost k) && !(homeDenied s (partOfCore s core) (.mem k)) && !(homeGone s (.mem k)) &&
          homeReach s (.mem k)
      | _ => false)

/-- Fields of a seal descriptor. -/
def sealNreg (ds : List Byte) : Nat := field ds 2 2
def sealNnc (ds : List Byte) : Nat := field ds 4 2
def sealNew (ds : List Byte) : Bool := field ds 6 1 % 2 == 1
def sealKeep (ds : List Byte) : Bool := field ds 6 1 / 2 % 2 == 1

/-- The region list that follows the descriptor in a job's bytes: guest physical base and length. -/
def regionsOf (bs : List Byte) (off n : Nat) : List (Nat × Nat) :=
  (List.range n).map fun i => (field bs (off + 16 * i) 8, field bs (off + 16 * i + 8) 8)

/-- The near-counter ranges: core, first entry, count. -/
def rangesOf (bs : List Byte) (off n : Nat) : List (Nat × Nat × Nat) :=
  (List.range n).map fun i => (field bs (off + 8 * i) 2, field bs (off + 8 * i + 2) 1, field bs (off + 8 * i + 4) 2)

/-- Payload bytes of regions and ranges (R342). -/
def payloadSize (rs : List (Nat × Nat)) (ns : List (Nat × Nat × Nat)) : Nat :=
  (rs.map (·.2)).sum + 8 * (ns.map fun x => x.2.2).sum

/-- Chunks of a payload, header bytes and their padding (R344). -/
def chunkCount (n : Nat) : Nat := (n + 65535) / 65536
def headerLen (nreg nnc chunks : Nat) : Nat := 192 + 16 * nreg + 8 * nnc + 32 * chunks + 64
def padded (n : Nat) : Nat := (n + 4095) / 4096 * 4096
def imageSize (nreg nnc payload : Nat) : Nat := padded (headerLen nreg nnc (chunkCount payload)) + payload

/-- Is a near range within its limits? -/
def rangeOk (s : State) (part : Nat) (bs : List Byte) (off : Nat) (r : Nat × Nat × Nat) : Bool :=
  r.1 < 1024 && partOfCore s r.1 == part && zeros bs (off + 3) 1 && zeros bs (off + 6) 2 && 1 ≤ r.2.2 &&
  r.2.1 + r.2.2 ≤ 256

/-- The lists that a seal descriptor names, after the descriptor. -/
def sealLists (s : State) (ds : List Byte) : Option (List Byte) :=
  let get (pa n : Nat) : Option (List Byte) := if n = 0 then some [] else physBytes s pa n
  match get (field ds 24 8) (16 * sealNreg ds), get (field ds 32 8) (8 * sealNnc ds) with
  | some r, some n => some (ds ++ r ++ n)
  | _, _ => none

/-- Is a seal descriptor within its limits (R342)? -/
def sealOk (s : State) (c : Ctx) (ds : List Byte) : Bool :=
  let nreg := sealNreg ds
  let nnc := sealNnc ds
  1 ≤ nreg && nreg ≤ 4096 && nnc ≤ 64 && field ds 6 1 < 4 && zeros ds 56 8 && field ds 8 8 % 4096 == 0 &&
  field ds 48 8 % 8 == 0 && sealCounterOk s (coreOf s.cur) (BitVec.ofNat 64 (field ds 40 8)) &&
  (sealNew ds || (match c.lineage with | some (_, h) => h == field ds 7 1 | none => false)) &&
  (match sealLists s ds with
    | none => false
    | some bs =>
      ((regionsOf bs 64 nreg).all fun r => r.1 % 4096 == 0 && r.2 % 4096 == 0) &&
      (List.range nnc).all fun i =>
        let off := 64 + 16 * nreg + 8 * i
        rangeOk s c.part bs off (field bs off 2, field bs (off + 2) 1, field bs (off + 4) 2))

/-- Does a core hold Dirty tile data whose hold a thread of a context took (R145, R343)? -/
def ctxTileDirty (s : State) (c : Ctx) : Bool :=
  s.cores.any fun e => e.2.town.hv && e.2.town.hts == 3 && e.2.town.vmid == c.vmid

/-- A job queued for a context, which goes to a state (R342, R345). -/
def queueJob (s : State) (n : Nat) (st : CState) (restore : Bool) (ds : List Byte) : State :=
  let j : Job := { id := s.jobNext, restore := restore, ctx := n, desc := ds, tid := s.cur }
  setCx { s with jobs := s.jobs ++ [j], jobNext := s.jobNext + 1 } n { cx s n with state := st }

/-- The descriptor of `ctx.seal` and `ctx.unseal`, after the checks that both make first (R349): the status or the state
with a job queued. -/
def sealWord (s : State) (w : Nat) (p : BitVec 1) (d a : BitVec 5) (f : State → List Byte → Int ⊕ State) : State :=
  if (me s).priv ≠ .hyp then privFault s w
  else if (rd s a).toNat % 64 ≠ 0 then raise s 5 (rd s a)
  else if vstPending (me s) then held s
  else match loadRun s (rd s a) 8 with
    | (_, .ends s) => s
    | (_, .hold s) => held s
    | (_, .failed c s) => raise s c (rd s a)
    | (ds, .value _ s) =>
      match f s ds with
      | .inl n => finish (wr s d (statusOf n)) p
      | .inr s => finish (wr s d 0) p

/-- `ctx.seal` (R342, R343, R349). -/
def execCtxSeal (p : BitVec 1) (d a : BitVec 5) (s : State) : Out :=
  .next (sealWord s (wordCtxSeal p d a) p d a fun s ds =>
    let n := field ds 0 2
    let c := cx s n
    if 256 ≤ n then .inl (-3)
    else if !(administers s (coreOf s.cur) c.part) then .inl (-2)
    else if c.state ≠ .suspended then .inl (-1)
    else if !(sealOk s c ds) then .inl (-3)
    else
      let bs := (sealLists s ds).getD ds
      let nreg := sealNreg ds
      let size := payloadSize (regionsOf bs 64 nreg) (rangesOf bs (64 + 16 * nreg) (sealNnc ds))
      if field ds 16 8 < imageSize nreg (sealNnc ds) size then .inl (-4)
      else if ctxTileDirty s c then .inl (-5)
      else if 8 ≤ s.jobs.length then .inl (-12)
      else .inr (queueJob s n .sealing false bs))

/-- `ctx.unseal` (R343, R345, R349). -/
def execCtxUnseal (p : BitVec 1) (d a : BitVec 5) (s : State) : Out :=
  .next (sealWord s (wordCtxUnseal p d a) p d a fun s ds =>
    let n := field ds 0 2
    let c := cx s n
    if 256 ≤ n then .inl (-3)
    else if !(administers s (coreOf s.cur) c.part) then .inl (-2)
    else if c.state ≠ .loading ∨ c.measure.any (· != 0) then .inl (-1)
    else if !(zeros ds 2 6) ∨ field ds 8 8 % 4096 ≠ 0 ∨ !(zeros ds 32 8) ∨ field ds 48 8 % 8 ≠ 0 ∨ !(zeros ds 56 8) ∨
        !(sealCounterOk s (coreOf s.cur) (BitVec.ofNat 64 (field ds 40 8))) then .inl (-3)
    else if 8 ≤ s.jobs.length then .inl (-12)
    else .inr (queueJob s n .restoring true ds))

/-! ### The end of a job (R335, R343, R346) -/

def jobOf (s : State) (id : Nat) : Option Job := s.jobs.find? fun j => j.id = id

def setJob (s : State) (j : Job) : State := { s with jobs := s.jobs.map fun x => if x.id = j.id then j else x }

/-- The lineage table entry with an identifier at this package. -/
def lineageOf (s : State) (linid : List Byte) : Option (Nat × Lineage) := s.lineages.find? fun e => e.2.linid = linid

/-- The lease of a job aborted at its home: here, with a counter write that is not acknowledged, or by a message (R341,
R384). -/
def abortLease (s : State) (j : Job) : State :=
  let ask := j.home ≠ s.pkg ∧ j.phase ≠ .queued ∧ j.phase ≠ .asked
  { s with out := if ask then { s.out with asks := s.out.asks ++ [(j.id, j.home, [])] } else s.out, lineages := s.lineages.map fun e =>
      (e.1, if j.home = s.pkg ∧ e.2.linid = j.linid ∧ e.2.lease = some j.id then
          { e.2 with lease := none, nextSealer := none, pendingWrite := none } else e.2) }

/-- The result record and the add to DONE; the job leaves the queue, and its context goes on (R335, R343). -/
def endJob (s : State) (j : Job) (st : Int) (gpa : Nat) : State :=
  let r := natBytes 8 (BitVec.ofInt 64 st).toNat ++ natBytes 8 j.bytes ++ natBytes 8 gpa ++ natBytes 8 j.lctr
  let s := { s with jobs := s.jobs.filter fun x => x.id ≠ j.id }
  let s := physWrite s (field j.desc 48 8) r
  let s := physAdd s (coreOf j.tid) (BitVec.ofNat 64 (field j.desc 40 8))
  if (cx s j.ctx).destroying then destroyCtx s j.ctx else s

/-- A job fails (R335, R343). -/
def failJob (s : State) (j : Job) (st : Int) (gpa : Nat) : State :=
  let s := abortLease s j
  endJob (if j.restore then destroyCtx s j.ctx else setCx s j.ctx { cx s j.ctx with state := .suspended }) j st gpa

/-- The registers of header bytes 128 to 183 (R344). -/
def ctxRegs (c : Ctx) : List Byte :=
  natBytes 8 c.sxlat.toNat ++ natBytes 8 c.sfqb.toNat ++ natBytes 8 c.sfqn ++ natBytes 8 c.sprq.toNat ++
  natBytes 8 c.celb.toNat ++ natBytes 8 c.celn ++ natBytes 8 c.lupd.toNat ++ natBytes 8 0

/-- The state of a restored context (R346); a reserved bit of its registers reads as zero (R4). -/
def restoredCtx (c : Ctx) (h : List Byte) : Ctx :=
  let r (k : Nat) : Nat := field h (128 + 8 * k) 8
  { c with state := .suspended, measure := cutBytes h 48 32, lineage := some (cutBytes h 16 16, field h 40 1),
           sxlat := BitVec.ofNat 64 (r 0), sfqb := sfqbFields (BitVec.ofNat 64 (r 1)), sfqn := r 2 % 2 ^ 17,
           sprq := prqFields (BitVec.ofNat 64 (r 3)), celb := celbFields (BitVec.ofNat 64 (r 4)), celn := r 5 % 2 ^ 13,
           lupd := BitVec.ofNat 64 (r 6) }

/-- The header of a restore job's image, when it can be read (R344). -/
def imageHeader (s : State) (j : Job) : Option (List Byte) :=
  match physBytes s (field j.desc 8 8) 192 with
  | none => none
  | some h =>
    if field h 4 4 < 256 ∨ field j.desc 16 8 < field h 4 4 then some h else physBytes s (field j.desc 8 8) (field h 4 4)

/-- A job succeeds (R335, R343, R346). -/
def succeedJob (s : State) (j : Job) : State :=
  let c := cx s j.ctx
  if j.restore then
    let s := setCx s j.ctx (restoredCtx c j.header)
    endJob s j 0 0
  else
    let c := { c with lineage := some (j.linid, j.home), state := if sealKeep j.desc then .suspended else .sealed }
    endJob (setCx s j.ctx c) j 0 0

/-! ### Start and quote (R340, R341, R345) -/

/-- Is the job the one that the engine works on (R343)? -/
def firstJob (s : State) (id : Nat) : Option Job :=
  match s.jobs with
  | j :: _ => if j.id = id then some j else none
  | [] => none

/-- The lowest free entry of the lineage store (R340; log 5). -/
def freeLineage (s : State) : Option Nat := leastFrom (fun k => !(s.lineages.any fun e => e.1 = k)) 0 4096

/-- The measurement that a job's quote carries (R348). -/
def jobMeasure (s : State) (j : Job) : List Byte :=
  if j.restore then cutBytes j.header 48 32 else (cx s j.ctx).measure

/-- The quote of a job, with its nonce and its ephemeral public key (R341, R348). -/
def jobQuote (s : State) (j : Job) : List Byte :=
  quoteBytes s j.ctx (jobMeasure s j) j.nonce (p256public (p256private j.eph)) j.linid

/-- Step 1 of a job whose home gave it a nonce (R341): a fresh ephemeral key, and the quote. -/
def quoteJob (s : State) (j : Job) (nonce : List Byte) : State :=
  let j := { j with nonce := nonce, eph := randomBytes s.fresh, phase := .quoted }
  setJob { s with fresh := s.fresh + 1 } j

/-- A message of a job's Lehr to a home of another package. The model tells the kinds apart by their lengths: an abort has
no byte, the request for a nonce one, the commit 8, the quote 320 (DESIGN CHOICE, log 68). -/
def askHome (s : State) (j : Job) (bs : List Byte) : State :=
  { s with out := { s.out with asks := s.out.asks ++ [(j.id, j.home, bs)] } }

/-- A job asks its home for a nonce (R341): this package draws one at once, a home of another package sends it. -/
def jobAsk (s : State) (j : Job) : State :=
  if j.home = s.pkg then quoteJob { s with fresh := s.fresh + 1 } j (randomBytes s.fresh)
  else
    let j := { j with phase := .asked }
    askHome (setJob s j) j [0]

/-- The nonce of a home of another package reaches the job that waits for it: the quote is sent (R341). -/
def takeNonce (s : State) (job : Nat) (nonce : List Byte) : State :=
  match s.jobs.find? fun j => j.id = job with
  | none => s
  | some j =>
    if j.phase ≠ .asked ∨ nonce.length ≠ 32 then s
    else
      let s := quoteJob s j nonce
      match s.jobs.find? fun j => j.id = job with
      | none => s
      | some j => askHome s j (jobQuote s j)

/-- This package, as a lineage home, gives a nonce to a job of a peer package (R341). -/
def giveNonce (s : State) (job : Nat) : State :=
  let n := randomBytes s.fresh
  { s with fresh := s.fresh + 1, nonces := tput s.nonces job n,
           out := { s.out with answers := s.out.answers ++ [(job, 0, n)] } }

/-- `SEAL_JOB_START` (R340-R343): with NEW, this package creates the lineage, in its protected store. -/
def execSealJobStart (job : Nat) (s : State) : Out :=
  match firstJob s job with
  | none => .next s
  | some j =>
    .next (if j.restore ∨ j.phase ≠ .queued then s
      else if sealNew j.desc then
        match freeLineage s, s.lehr.store with
        | some k, true =>
          let id := (randomBytes s.fresh).take 16
          let l : Lineage := { linid := id, counter := 0, fw := s.lehr.fwMeasure, measure := (cx s j.ctx).measure }
          jobAsk { s with lineages := tput s.lineages k l, fresh := s.fresh + 1 } { j with linid := id, home := s.pkg }
        | _, _ => failJob s j (-14) 0
      else match (cx s j.ctx).lineage with
        | some (id, home) => jobAsk s { j with linid := id, home := home }
        | none => failJob s j (-9) 0)

/-- Do VERSION, HLEN, NCHUNK and LEN of an image agree (R345)? -/
def headerAgrees (j : Job) (h : List Byte) : Bool :=
  let nreg := field h 12 2
  let nnc := field h 14 2
  let pay := field h 112 8
  let size := payloadSize (regionsOf h 192 nreg) (rangesOf h (192 + 16 * nreg) nnc)
  field h 0 4 == 1 && h.length == field h 4 4 && field h 4 4 == headerLen nreg nnc (chunkCount pay) &&
  field h 8 4 == chunkCount pay && pay == size && imageSize nreg nnc pay ≤ field j.desc 16 8

/-- `RESTORE_JOB_START` (R345): the header is read. -/
def execRestoreJobStart (job : Nat) (s : State) : Out :=
  match firstJob s job with
  | none => .next s
  | some j =>
    .next (if !j.restore ∨ j.phase ≠ .queued then s
      else match imageHeader s j with
        | none => failJob s j (-13) 0
        | some h =>
          if headerAgrees j h then
            jobAsk s { j with header := h, linid := cutBytes h 16 16, lctr := field h 32 8, home := field h 40 1 }
          else failJob s j (-3) 0)

/-! ### The home's side (R340, R341) -/

/-- What a lineage home answers to a request for a lease: 0 grants it. -/
def leaseAnswer (s : State) (lin : Nat) (restore own : Bool) (lctr : Nat) (quote fw measure : List Byte) : Int :=
  if !s.lehr.store then -14
  else match s.lineages.find? fun e => e.1 = lin with
  | none => -9
  | some (_, l) =>
    if (!own && !(Config.quoteOk quote)) || !(fw == l.fw || Config.fwSucceeds l.fw fw) || measure != l.measure then -7
    else if restore && lctr < l.counter then -8
    else if restore && l.counter < lctr then -9
    else if l.lease.isSome then -11
    else 0

/-- A lease granted, with the sealing key that a seal's commit will record. -/
def grantLease (s : State) (lin job : Nat) (key : Option (List Byte)) : State :=
  { s with lineages := s.lineages.map fun e =>
      (e.1, if e.1 = lin then { e.2 with lease := some job, nextSealer := key } else e.2) }

/-- A lease aborted (R341): a counter write that has begun is not undone. -/
def dropLease (s : State) (lin job : Nat) : State :=
  { s with lineages := s.lineages.map fun e =>
      (e.1, if e.1 = lin ∧ e.2.lease = some job ∧ e.2.pendingWrite.isNone then
          { e.2 with lease := none, nextSealer := none } else e.2) }

/-- Step 3 at the home of another package's job (R341): the image key, wrapped under the shared secret of a fresh ephemeral
pair and the quote's key; with it that pair's public key, and the sealer's key for a restore, the counter for a seal. A
quote whose key is no point of the curve is refused. The IV of the wrapping and its form are the model's (DESIGN CHOICE, log 68). -/
def releaseKey (s : State) (job lin : Nat) (restore : Bool) (quote : List Byte) : State :=
  let answer (st : Int) (m : List Byte) (s : State) : State :=
    { s with fresh := s.fresh + 1, nonces := tdel s.nonces job, out := { s.out with answers := s.out.answers ++ [(job, st, m)] } }
  match s.lineages.find? fun e => e.1 = lin with
  | none => s
  | some (_, l) =>
    let d := p256private (randomBytes s.fresh)
    match wrapKey d (cutBytes quote 144 64) (cutBytes quote 112 32) with
    | none => answer (-7) [] s
    | some k =>
      let w := gcmSeal k (List.replicate 12 0) [] (imageKey l.linid (if restore then l.counter else l.counter + 1))
      answer 0 (w.1 ++ w.2 ++ p256public d ++ (if restore then l.sealer else natBytes 8 l.counter))
        (grantLease s lin job (if restore then none else some (sealKeyOf quote)))

/-- The image key in a wrapped one of 112 bytes, for the job whose ephemeral key it was made for (R341). -/
def openKey (j : Job) (m : List Byte) : Option (List Byte) :=
  (wrapKey (p256private j.eph) (cutBytes m 48 64) j.nonce).bind fun k =>
    gcmOpen k (List.replicate 12 0) [] (cutBytes m 0 32) (cutBytes m 32 16)

/-- `LEASE_REQUEST` (R341): of a job of this package that waits for its home here, or of a job of a peer package,
whose quote must carry the nonce that this home gave the job. -/
def execLeaseRequest (job lin lctr : Nat) (restore : Bool) (quote : List Byte) (s : State) : Out :=
  match firstJob s job with
  | some j =>
    .next (if j.phase ≠ .quoted ∨ j.home ≠ s.pkg then s
      else match lineageOf s j.linid with
        | none => failJob s j (if s.lehr.store then -9 else -14) 0
        | some (k, l) =>
          let st := leaseAnswer s k j.restore true j.lctr [] s.lehr.fwMeasure (jobMeasure s j)
          if st = 0 then
            setJob (grantLease s k job (if j.restore then none else some sealKey))
              { j with phase := .leased, lctr := if j.restore then j.lctr else l.counter + 1 }
          else failJob s j st 0)
  | none =>
    let fresh := (s.nonces.find? fun e => e.1 = job).map (·.2) = some (cutBytes quote 112 32)
    let st := if fresh then leaseAnswer s lin restore false lctr quote (cutBytes quote 16 32) (cutBytes quote 48 32) else -7
    if st = 0 then .next (releaseKey s job lin restore quote)
    else .next { s with out := { s.out with answers := s.out.answers ++ [(job, st, [])] } }

/-- `COMMIT_REQUEST` (R340, R341): the home starts the counter write, or refuses a commit whose lease is gone. -/
def execCommitRequest (job lin _lctr : Nat) (s : State) : Out :=
  let start (s : State) (k : Nat) : State :=
    { s with lineages := s.lineages.map fun e =>
        (e.1, if e.1 = k then { e.2 with pendingWrite := some (e.2.counter + 1) } else e.2) }
  match firstJob s job with
  | some j =>
    .next (if j.phase ≠ .committing ∨ j.home ≠ s.pkg then s
      else match lineageOf s j.linid with
        | some (k, l) =>
          if l.lease ≠ some job then failJob s j (-11) 0 else if l.pendingWrite.isSome then s else start s k
        | none => failJob s j (-11) 0)
  | none =>
    .next (match s.lineages.find? fun e => e.1 = lin with
      | some (k, l) =>
        if l.lease = some job then (if l.pendingWrite.isSome then s else start s k)
        else { s with out := { s.out with answers := s.out.answers ++ [(job, -11, [])] } }
      | none => { s with out := { s.out with answers := s.out.answers ++ [(job, -11, [])] } })

/-- `BLOCK_DEVICE_ACKNOWLEDGE` (R340, R341): the counter write is complete; the lease is cleared and the commit is
acknowledged. -/
def execBlockDeviceAcknowledge (lin : Nat) (s : State) : Out :=
  match s.lineages.find? fun e => e.1 = lin with
  | none => .next s
  | some (k, l) =>
    match l.pendingWrite, l.lease with
    | some v, some job =>
      let l := { l with counter := v, pendingWrite := none, lease := none, nextSealer := none,
                        sealer := l.nextSealer.getD l.sealer }
      let s := { s with lineages := tput s.lineages k l }
      .next (match firstJob s job with
        | some j =>
          if j.phase = .committing ∧ j.home = s.pkg ∧ j.linid = l.linid then setJob s { j with phase := .done }
          else { s with out := { s.out with answers := s.out.answers ++ [(job, 0, [])] } }
        | none => { s with out := { s.out with answers := s.out.answers ++ [(job, 0, [])] } })
    | _, _ => .next s

/-- `LEASE_EXPIRY` (R341): a lease runs out; a counter write that has begun is not undone. -/
def execLeaseExpiry (lin : Nat) (s : State) : Out :=
  .next { s with lineages := s.lineages.map fun e =>
      (e.1, if e.1 = lin ∧ e.2.pendingWrite.isNone then { e.2 with lease := none, nextSealer := none } else e.2) }

/-! ### The payload (R342, R344, R345) -/

/-- A piece of a payload: a page of a region by its guest physical address, or a near counter. -/
inductive Piece where
  | page (gpa : Nat)
  | near (core entry : Nat)
  deriving DecidableEq, Repr

def Piece.size (x : Piece) : Nat :=
  match x with
  | .page _ => 4096
  | .near _ _ => 8

/-- The pieces in payload order. -/
def pieces (rs : List (Nat × Nat)) (ns : List (Nat × Nat × Nat)) : List Piece :=
  (rs.flatMap fun r => (List.range (r.2 / 4096)).map fun i => Piece.page (r.1 + 4096 * i)) ++
  ns.flatMap fun n => (List.range n.2.2).map fun i => Piece.near n.1 (n.2.1 + i)

/-- The home of a page of a context's second stage, for the seal engine. -/
def sealPage (s : State) (n gpa : Nat) (k : Acc) : Option Nat × State :=
  match gStage s none (cx s n) gpa k false true with
  | (.ok pa _ _ _, s) =>
    (match physOf s pa with
      | .mem key =>
        if partOwns s (cx s n).part key && homeReach s (.mem key) && !(homeDenied s (cx s n).part (.mem key)) &&
            !(poisoned s (.mem key) 4096 && k == .load) then some key else none
      | _ => none, s)
  | (_, s) => (none, s)

/-- The payload read; or the guest physical address at which the read fails (R342). -/
def readPieces (s : State) (n : Nat) : List Piece → (Nat ⊕ List Byte) × State
  | [] => (.inr [], s)
  | x :: r =>
    let one : (Nat ⊕ List Byte) × State := match x with
      | .page g =>
        match sealPage s n g .load with
        | (some k, s) => (.inr (mbytes s.mem k 4096), s)
        | (none, s) => (.inl g, s)
      | .near c e =>
        if homeGone s (.near c e) ∨ poisoned s (.near c e) 8 then (.inl 0, s) else (.inr (bytesAt s (.near c e) 8), s)
    match one with
    | (.inl g, s) => (.inl g, s)
    | (.inr bs, s) =>
      match readPieces s n r with
      | (.inr rest, s) => (.inr (bs ++ rest), s)
      | e => e

/-- Bytes written over the pieces from the first on: the pieces that are left, or the address at which a write fails. -/
def writePieces (s : State) (n : Nat) : List Piece → List Byte → (Nat ⊕ List Piece) × State
  | [], _ => (.inr [], s)
  | x :: r, bs =>
    if bs.isEmpty then (.inr (x :: r), s)
    else match x with
      | .page g =>
        match sealPage s n g .store with
        | (some k, s) => writePieces (storeBytes s (.mem k) (bs.take 4096)) n r (bs.drop 4096)
        | (none, s) => (.inl g, s)
      | .near c e =>
        if homeGone s (.near c e) then (.inl 0, s)
        else writePieces (storeBytes s (.near c e) (bs.take 8)) n r (bs.drop 8)

/-- The IV and the additional data of a chunk (R344). -/
def chunkIv (k : Nat) : List Byte := natBytes 8 k ++ natBytes 4 0
def chunkAad (h : List Byte) (k : Nat) : List Byte := cutBytes h 0 48 ++ natBytes 8 k

/-- Header bytes 0 to 191, the region list and the ranges (R344). -/
def headerStart (s : State) (j : Job) (pay : Nat) : List Byte :=
  let c := cx s j.ctx
  let nreg := sealNreg j.desc
  let nnc := sealNnc j.desc
  natBytes 4 1 ++ natBytes 4 (headerLen nreg nnc (chunkCount pay)) ++ natBytes 4 (chunkCount pay) ++ natBytes 2 nreg ++
  natBytes 2 nnc ++ j.linid ++ natBytes 8 j.lctr ++ natBytes 1 j.home ++ natBytes 7 0 ++ c.measure ++
  s.lehr.fwMeasure ++ natBytes 8 pay ++ natBytes 8 0 ++ ctxRegs c ++ cutBytes j.desc 64 (16 * nreg + 8 * nnc)

/-- Step 4 of a job (R341): it asks its home to commit. -/
def commitJob (s : State) (j : Job) : State :=
  let s := setJob s j
  if j.home = s.pkg then s else askHome s j (natBytes 8 j.lctr)

/-- The chunks of a seal job written, then the header (R344). -/
def sealChunks (s : State) (j : Job) (key : List Byte) : State :=
  let nreg := sealNreg j.desc
  let ps := pieces (regionsOf j.desc 64 nreg) (rangesOf j.desc (64 + 16 * nreg) (sealNnc j.desc))
  match readPieces (hostHome (backPeers s fun _ => true)) j.ctx ps with
  | (.inl g, s) => failJob s j (-13) g
  | (.inr pay, s) =>
    let h := headerStart s j pay.length
    let off := padded (headerLen nreg (sealNnc j.desc) (chunkCount pay.length))
    let dst := field j.desc 8 8
    let cs := (List.range (chunkCount pay.length)).map fun k =>
      (k, cutBytes pay (65536 * k) 65536, gcmSeal key (chunkIv k) (chunkAad h k) (cutBytes pay (65536 * k) 65536))
    let s := cs.foldl (fun s x => physWrite s (dst + off + 65536 * x.1) x.2.2.1) s
    let table := cs.flatMap fun x =>
      natBytes 8 (off + 65536 * x.1) ++ natBytes 4 x.2.1.length ++ natBytes 4 0 ++ x.2.2.2
    let head := h ++ table
    let head := head ++ signSeal head
    let s := physWrite s dst (head ++ natBytes (off - head.length) 0)
    commitJob s { j with phase := .committing, bytes := off + pay.length }

/-- The chunks of a restore job from the k-th on checked and written: how they end (R345). -/
def restoreChunks (s : State) (j : Job) (key h : List Byte) (ps : List Piece) (k : Nat) : Nat → (Int × Nat) × State
  | 0 => ((0, 0), s)
  | m + 1 =>
    let t := 192 + 16 * field h 12 2 + 8 * field h 14 2 + 32 * k
    match physBytes s (field j.desc 8 8 + field h t 8) (field h (t + 8) 4) with
    | none => ((-13, 0), s)
    | some c =>
      match gcmOpen key (chunkIv k) (chunkAad h k) c (cutBytes h (t + 16) 16) with
      | none => ((-10, 0), s)
      | some bs =>
        match writePieces s j.ctx ps bs with
        | (.inl g, s) => ((-13, g), s)
        | (.inr ps, s) => restoreChunks s j key h ps (k + 1) m

/-- A restore job verifies and writes (R345). -/
def restoreImage (s : State) (j : Job) (key sealer : List Byte) : State :=
  let h := j.header
  let nnc := field h 14 2
  let signed := cutBytes h 0 (h.length - 64)
  let map? := if nnc = 0 then some [] else physBytes s (field j.desc 24 8) (2 * nnc)
  if !(ecdsaVerify sealer signed (cutBytes h (h.length - 64) 64)) then failJob s j (-10) 0
  else match map? with
    | none => failJob s j (-13) 0
    | some m =>
      let cores := (List.range nnc).map fun i => field m (2 * i) 2
      if cores.any fun c => 1024 ≤ c ∨ partOfCore s c ≠ (cx s j.ctx).part then failJob s j (-3) 0
      else
        let ns := (rangesOf h (192 + 16 * field h 12 2) nnc).mapIdx fun i r => (cores.getD i 0, r.2)
        let s := setCx s j.ctx { cx s j.ctx with nears := ns }
        match restoreChunks s j key h (pieces (regionsOf h 192 (field h 12 2)) ns) 0 (field h 8 4) with
        | ((0, _), s) => commitJob s { j with phase := .committing, bytes := padded (field h 4 4) + field h 112 8 }
        | ((st, g), s) => failJob s j st g

/-- `KEY_RELEASE` (R341): the image key comes from this package's own home, or wrapped from a peer's with the sealer's key
(for a seal, with the home's counter value in place of that key); a wrapped key that does not open is no answer. -/
def execKeyRelease (job : Nat) (key sealer : List Byte) (s : State) : Out :=
  match firstJob s job with
  | none => .next s
  | some j =>
    .next (if j.home = s.pkg then
        if j.phase ≠ .leased then s
        else match lineageOf s j.linid with
          | none => failJob s j (-9) 0
          | some (_, l) =>
            let k := imageKey j.linid j.lctr
            if j.restore then restoreImage s j k l.sealer else sealChunks s j k
      else if j.phase ≠ .quoted then s
      else match openKey j key with
        | none => s
        | some k =>
          if j.restore then restoreImage s j k sealer
          else sealChunks s { j with lctr := bytesNat (sealer.take 8) + 1 } k)

/-! ### The answers of a home (R341, R343) -/

/-- `COMMIT_ACK` (R343): the outcome of the commit reaches the job. -/
def execCommitAck (job : Nat) (ok : Bool) (s : State) : Out :=
  match firstJob s job with
  | none => .next s
  | some j =>
    .next (if j.home = s.pkg then (if j.phase = .done then succeedJob s j else s)
      else if j.phase ≠ .committing then s
      else if ok then succeedJob s j else failJob s j (-11) 0)

/-- `HOME_ANSWER_TIMEOUT` (R343, R345): a peer home does not answer; at the commit the acknowledgement is lost. -/
def execHomeAnswerTimeout (job : Nat) (s : State) : Out :=
  match firstJob s job with
  | none => .next s
  | some j =>
    .next (if j.home = s.pkg then s
      else if j.phase = .asked ∨ j.phase = .quoted then failJob s j (-6) 0
      else if j.phase = .committing then failJob s j (-11) 0
      else s)

/-- `LEASE_REFUSED` (R341, R343): a peer home refuses or is busy, with the code of R343. -/
def execLeaseRefused (job code : Nat) (s : State) : Out :=
  match firstJob s job with
  | none => .next s
  | some j =>
    .next (if j.home ≠ s.pkg ∧ j.phase = .quoted ∧ (code = 7 ∨ code = 8 ∨ code = 9 ∨ code = 11 ∨ code = 14) then
        failJob s j (-code) 0
      else s)

end Sys2Proof.Machine
end

