-- ==== Sys2Proof/Machine/Lehr.lean ====
section
/-! DEFINITION. The Lehr: event records, power and temperature, faults and withdrawal, firmware, and the reset domains
(R384-R393). -/

namespace Sys2Proof.Machine

/-! ### Event records (R386) -/

/-- The contexts of a partition. -/
def partCtxs (s : State) (p : Nat) : List Nat :=
  (s.ctxs.filter fun e => e.2.part = p ∧ e.2.state ≠ .empty).map (·.1)

/-- An event's entry in the error logs of the contexts of a partition, with interrupt code 4 (R338, R386). -/
def eventLog (s : State) (part kind unit detail : Nat) : State :=
  if 24 ≤ part then s
  else
    let s := (partCtxs s part).foldl (fun s n =>
      if kind = 3 then logError s n 3 0xFFFF detail unit 1024
      else logError s n 5 0xFFFF detail (kind + unit * 2 ^ 16) 1024) s
    if (partCtxs s part).isEmpty then s else routed s part 4

/-- Nanoseconds since package reset: the cycles at the frequencies that the core domain has had (R11, R386). The model rounds
down where the frequency changes (DESIGN CHOICE, log 73). -/
def nsNow (s : State) : Nat :=
  s.lehr.ns0 + (if s.lehr.freq = 0 then 0 else (s.cycle - s.lehr.tick0) * 1000 / s.lehr.freq)

/-- The core-domain frequency set (R387). -/
def setFreq (s : State) (f : Nat) : State :=
  if f = s.lehr.freq then s
  else { s with lehr := { s.lehr with ns0 := nsNow s, tick0 := s.cycle, freq := f } }

/-- An event record: the ring in host memory, `LEVP`, MSI-X vector 0 of both physical functions where there is a ring, and the
logs of the contexts of the partition that it concerns, 24 for none (R386). -/
def lehrEvent (s : State) (kind unit detail part : Nat) : State :=
  let n := s.lehr.levp + 1
  let ring := s.lehr.levb.toNat % 16
  let rec_ := natBytes 8 n ++ natBytes 2 kind ++ natBytes 2 unit ++ natBytes 4 0 ++ natBytes 8 detail ++
    natBytes 8 (nsNow s / 1000)
  let at_ := s.lehr.levb.toNat / 64 * 64 + (n - 1) % 2 ^ ring * 32
  let s := if ring = 0 then s
    else
      let s := storeBytes (hostHome s) (.mem (2 ^ 55 + at_ % 2 ^ 55)) rec_
      { s with out := { s.out with msix := s.out.msix ++ [(0, 0), (1, 0)] } }
  eventLog { s with lehr := { s.lehr with levp := n } } part kind unit detail

/-! ### Power and temperature (R387-R389) -/

/-- The clock lowered or raised by one step (R387). -/
def stepDown (f : Nat) : Nat := max 1500 (f - 100)
def stepUp (f : Nat) : Nat := min 3000 (f + 100)

/-- `POWER_CAP_TICK` (R385, R387): once the cores may run, the clock goes down while PWR exceeds CAP, and up while PWR is 5 %
below it and no bench is hot. -/
def execPowerCapTick (watts : Nat) (s : State) : Out :=
  let l := { s.lehr with pwr := min watts (2 ^ 16 - 1) }
  let s1 := { s with lehr := l }
  .next (if !l.rdy then s1
    else if l.lpcap < watts then
      let f := stepDown l.freq
      let s := setFreq { s with lehr := { l with capt := true, slowMarver := l.slowMarver || l.freq ≤ 1500 } } f
      lehrEvent s 6 0xFFFF f 24
    else if watts * 20 ≤ l.lpcap * 19 ∧ !l.hotBench then
      let f := stepUp l.freq
      setFreq { s with lehr := { l with slowMarver := false, capt := l.capt && decide (f < 3000) } } f
    else s1)

/-! ### Package reset and power-up (R359, R387, R392, R393) -/

/-- The firmware registers with a replacement image taken, when there is one (R392). -/
def Lehr.takeImage (l : Lehr) : Lehr :=
  match l.next with
  | some i => { l with next := none, fwBad := false, fwMeasure := sha256 i }
  | none => l

/-- The package after a package reset: its protected store keeps the partition tables, the key, the plan, the sequence
numbers and the lineages with their leases; host and peer memory are not the package's. An image that was verified for this
reset is the one installed. -/
def afterReset (s : State) : State :=
  let p := s.parts
  let l := s.lehr.takeImage
  { State.reset with
    agenda := s.agenda, turn := s.turn, fresh := s.fresh, order := s.order,
    mem := s.mem.filter (fun e => !(isOwn e.1)),
    ctxs := (s.ctxs.filter fun e => e.2.part ≠ 0).map fun e => (e.1, { part := e.2.part }),
    parts := { bench := p.bench, granule := p.granule, vf := p.vf, state := (List.range 24).map (fun i =>
                 (i, if (List.range 128).any fun b => tget p.bench b 0 = i then PState.active else .unused)),
               adm := p.adm, key := p.key, seqReq := p.seqReq, seqCmd := p.seqCmd },
    lineages := s.lineages, jobNext := s.jobNext,
    denied := s.denied, hdm := s.hdm,
    lehr := { store := l.store, trained := l.trained, fwBad := l.fwBad, fwMeasure := l.fwMeasure },
    out := s.out }

/-- Firmware verified or refused as a reset ends; an image that has failed fails again. The cores may run once the stacks pass
training too (R387, R392). -/
def startFirmware (s : State) (verified : Bool) : State :=
  let l := s.lehr
  if verified && !l.fwBad then
    { s with lehr := if l.trained then { l with fwok := true, rdy := true, freq := 3000, tick0 := s.cycle }
                     else { l with fwok := true } }
  else lehrEvent { s with lehr := { l with fwok := false, rdy := false, fwBad := true } } 8 0xFFFF 0 24

/-- `PACKAGE_RESET` (R393). -/
def execPackageReset (verified : Bool) (s : State) : Out := .next (startFirmware (afterReset s) verified)

/-- `POWER_UP` (R387, R392): the sequence ends, and the cores may run; a package held by a bad image waits for another. -/
def execPowerUp (verified : Bool) (s : State) : Out :=
  .next (if s.lehr.rdy ∨ (s.lehr.fwBad ∧ s.lehr.next.isNone) then s
    else startFirmware { s with lehr := s.lehr.takeImage } verified)

/-- `POWER_LOSS` (R340): the package loses power; a counter write that was not acknowledged is done or not. -/
def execPowerLoss (lin : Nat) (new : Bool) (s : State) : Out :=
  let s := { s with lineages := s.lineages.map fun e =>
      (e.1, match e.2.pendingWrite with
        | some v => { e.2 with pendingWrite := none, counter := if e.1 = lin ∧ new then v else e.2.counter }
        | none => e.2) }
  .next (afterReset s)

/-- The partition that an event of a unit concerns: a bench's; 24 for another unit (R386). -/
def unitPart (s : State) (unit : Nat) : Nat := if unit < 128 then partOfBench s unit else 24

/-- `THERMAL_SAMPLE` (R388): the hottest bench and the hottest stack. The stacks that were slowed stay so until the hottest one
is below 95 °C. -/
def execThermalSample (bench benchT stack stackT : Nat) (s : State) : Out :=
  let l := { s.lehr with tmax := min benchT 255 }
  let unit := if 115 ≤ benchT ∨ (105 ≤ benchT ∧ stackT < 105) then bench else 128 + stack
  .next (if 115 ≤ benchT ∨ 105 ≤ stackT then
      afterReset (lehrEvent { s with lehr := l } 5 unit l.freq (unitPart s unit))
    else
      let hot := decide (105 ≤ benchT)
      let slow := if 95 ≤ stackT then (stack :: l.slowStacks).eraseDups else []
      let s1 := setFreq { s with lehr := { l with hotBench := hot, slowStacks := slow, thrt := hot || !slow.isEmpty } }
        (if hot && l.rdy then stepDown l.freq else l.freq)
      if hot ∨ 95 ≤ stackT then lehrEvent s1 5 unit s1.lehr.freq (unitPart s unit) else s1)

/-- Is a bench idle: no slot of its cores Ready, no tile command, no channel Busy? -/
def benchIdle (s : State) (b : Nat) : Bool :=
  (List.range 8).all fun p =>
    let c := coreAt b p
    ((List.range 16).all fun i => (th s (c * 16 + i)).state != .ready) && (co s c).tq.isEmpty && (co s c).ch.state != 2

/-- `MARGIN_REPLAN` (R389): the margins of a bench are planned anew at an idle moment of it. -/
def execMarginReplan (bench mv : Nat) (s : State) : Out :=
  .next (if !(benchIdle s bench) then s
    else lehrEvent { s with lehr := { s.lehr with margins := tput s.lehr.margins bench mv } } 4 bench mv (unitPart s bench))

/-! ### Faults and withdrawal (R390, R391) -/

/-- A core leaves: its threads end and its channel is Off; a command that the Marver runs completes, and the tile state is
then reset (R147, R174, R217, R393). -/
def clearCore (s : State) (core : Nat) : State :=
  let s := killThreads s (((List.range 16).map fun i => core * 16 + i).filter fun t => (th s t).state ≠ .free)
  let s := (List.range 16).foldl (fun s i => setTh s (core * 16 + i) { th s (core * 16 + i) with ts := 0 }) s
  let s := detach s core
  let c := co s core
  let s := setCo s core { c with base := s.cycle, ch := {}, relPending := true, tfault := c.tfault.filter fun x => x.1.orphan }
  tileSettle s core

/-- Listed waiters of homes that are withdrawn take a counter fault of reason 5 (R201); arms there go. -/
def loseHomes (s : State) : State :=
  let lost := s.waiters.filter fun w => homeGone s w.2
  let s := lost.foldl (fun s w =>
    match (th s w.1).wait with
    | some x => let c := s.cur; { waitTrap s w.1 11 x 5 with cur := c }
    | none => s) s
  { s with arms := s.arms.filter fun a => !(homeGone s a.loc) }

/-- A bench withdrawn (R391). -/
def withdraw (s : State) (bench addr : Nat) : State :=
  if s.lehr.withdrawn.contains bench then s
  else
    let part := partOfBench s bench
    let s := (List.range 8).foldl (fun s p => clearCore s (coreAt bench p)) s
    let s := { s with lehr := { s.lehr with withdrawn := bench :: s.lehr.withdrawn, wdn := s.lehr.wdn + 1 } }
    let s := loseHomes s
    let s := { s with near := s.near.filter fun e => benchOf (e.1 / 256) != bench }
    let s := { s with parts := { s.parts with bench := tput s.parts.bench bench 24 } }
    let s := lehrEvent s 2 bench addr part
    lehrEvent s 3 bench addr part

/-- The unit of a memory error: the stack next to the line's home slice (R306, R386). -/
def stackOf (s : State) (off : Nat) : Nat :=
  let c := homeSlice s off
  c / 256 * 4 + (c % 256 / 16) / 8 * 2 + (c % 16) / 8

/-- `ERROR_DETECT` (R390): kind 0 an error in device memory at a package-local offset, 1 in a scratchpad at core × 2^19 +
offset, 2 in a core, L2 slice, router or Marver of the core or tile `addr`, 4 in a near counter at core × 256 + entry, 5 in the
link port `addr`, 3 in another unit. -/
def execErrorDetect (kind addr : Nat) (lasting : Bool) (s : State) : Out :=
  let core := match kind with
    | 1 => addr / 2 ^ 19 % 1024
    | 4 => addr / 256 % 1024
    | _ => addr % 1024
  let part := match kind with
    | 0 => (granule s (addr / 2 ^ 30)).part
    | 3 => 24
    | 5 => 24
    | _ => partOfCore s core
  let unit := match kind with
    | 0 => 128 + stackOf s addr
    | 3 => 0xFFFF
    | 5 => 256 + addr % 24
    | _ => benchOf core
  .next (if !lasting then lehrEvent { s with lehr := { s.lehr with transients := s.lehr.transients + 1 } } 1 unit addr part
    else match kind with
      | 0 => lehrEvent { s with poison := (Loc.mem addr).unit :: s.poison } 2 unit addr part
      | 1 => lehrEvent { s with poison := (Loc.spad core (addr % 2 ^ 19)).unit :: s.poison } 2 unit addr part
      | 2 => withdraw s (benchOf core) addr
      | 4 => lehrEvent { s with poison := Loc.near core (addr % 256) :: s.poison } 2 unit addr part
      | _ => lehrEvent s 2 unit addr part)

/-- A droop below a bench's planned margin is retried as a fault: one that does not recur is transient, one that does withdraws
the bench, as a lasting fault of its cores (R388, R390). The record has no error address (DESIGN CHOICE, log 73). -/
def droop (s : State) (bench : Nat) (again : Bool) : State :=
  if again then withdraw s bench 0
  else lehrEvent { s with lehr := { s.lehr with transients := s.lehr.transients + 1 } } 1 bench 0 (partOfBench s bench)

/-! ### Restart and partition reset (R384, R393) -/

/-- Has a bench begun to leave its partition: the request under way has reached Reconfiguring, and takes one (R357)? -/
def leaving (s : State) : Bool :=
  match s.parts.req with
  | some (h, b :: bs, _) => (affected (field h 16 4)).any (fun p => partState s p == .reconfiguring) &&
      (entriesIn s (b :: bs)).any fun e => e.type_ == 1 && partOfBench s e.index != partOfBench (writeEntry s e) e.index
  | _ => false

/-- A request ends as the Lehr restarts: affected partitions that were Quiescing or Reconfiguring are Active again, their
queues Open; no entry has been written (R384; DESIGN CHOICE, log 69). A request not yet read has its header read for its
result record and `DONE`. -/
def abandonRequest (s : State) : State :=
  match s.parts.req with
  | none => s
  | some (h, _, _) =>
    let code : Int := if leaving s then -6 else -2
    let st := s.parts.state.map fun e => (e.1, if e.2 = .quiescing ∨ e.2 = .reconfiguring then PState.active else e.2)
    let s := quiesceQueues { s with parts := { s.parts with state := st } } 0 false
    endRequest s (if h.isEmpty then (physBytes s s.parts.preq.toNat 64).getD [] else h) 1024 code (2 ^ 64 - 1) (2 ^ 64 - 1)

/-- `LEHR_RESTART` (R384): the job at the head fails with −11, whose lease aborts. -/
def execLehrRestart (s : State) : Out :=
  let s := abandonRequest s
  let s := match s.jobs with
    | j :: _ => if j.phase = .queued then s else failJob s j (-11) 0
    | [] => s
  .next (lehrEvent s 7 0xFFFF 0 24)

/-- The queues of a partition are Unbound: their calls complete NOT-PERFORMED, their waiting records are cancelled, their
lanes are discarded (R310, R393). -/
def unbindQueues (s : State) (part : Nat) : State :=
  let qs := (s.queues.filter fun e => e.2.kind ≠ 0 ∧ e.2.part = part).map (·.1)
  let s := qs.foldl (fun s q => if (qu s q).kind = 2 then closeCalls s (q - 256) else s) s
  let s := cancelKernels s fun k => qs.contains k.q
  { s with queues := s.queues.filter (fun e => !(qs.contains e.1)),
           lanes := s.lanes.filter fun e => !(qs.contains (e.1 / 16)) }

/-- A partition reset: its contexts are destroyed, its queues Unbound (R393). -/
def resetPart (s : State) (part : Nat) : State :=
  unbindQueues ((partCtxs s part).foldl (fun s n =>
    match (cx s n).state with
    | .destroyed => s
    | .sealing => setCx s n { cx s n with destroying := true }
    | .restoring => setCx s n { cx s n with destroying := true }
    | _ => destroyCtx s n) s) part

end Sys2Proof.Machine
end

