-- ==== Sys2Proof/Machine/Manage.lean ====
section
/-! DEFINITION. Management: MCTP control, SPDM requests and the Fealman vendor-defined messages (R359, R381, R382). The
bytes of a signed message run from CMD to the signature. -/

namespace Sys2Proof.Machine

/-- A response sent on the management transport. -/
def reply (s : State) (bs : List Byte) : State := { s with out := { s.out with replies := s.out.replies ++ [bs] } }

/-! ### MCTP control and SPDM (R381) -/

/-- `MCTP_CONTROL`. -/
def execMctpControl (data : List Byte) (s : State) : Out := .next (reply s (Config.spdmBody 0 data))

/-- `GET_VERSION`. -/
def execGetVersion (s : State) : Out := .next (reply s (Config.spdmBody 0x84 []))

/-- `GET_CAPABILITIES`. -/
def execGetCapabilities (data : List Byte) (s : State) : Out := .next (reply s (Config.spdmBody 0xE1 data))

/-- `NEGOTIATE_ALGORITHMS`. -/
def execNegotiateAlgorithms (data : List Byte) (s : State) : Out := .next (reply s (Config.spdmBody 0xE3 data))

/-- `GET_DIGESTS`: the digest of the certificate chain in slot 0. -/
def execGetDigests (s : State) : Out :=
  .next (reply s (Config.spdmBody 0x81 [] ++ sha256 Config.certChain))

/-- `GET_CERTIFICATE`: a portion of the chain in slot 0; no other slot holds one. -/
def execGetCertificate (slot off len : Nat) (s : State) : Out :=
  .next (reply s (Config.spdmBody 0x82 (natBytes 1 slot ++ natBytes 2 off ++ natBytes 2 len) ++
    if slot = 0 then cutBytes Config.certChain off len else []))

/-- `CHALLENGE`: a signature over the nonce by the attestation key. -/
def execChallenge (slot : Nat) (nonce : List Byte) (s : State) : Out :=
  let body := Config.spdmBody 0x83 (natBytes 1 slot ++ nonce)
  .next (reply s (if slot = 0 then body ++ nonce ++ signAttest (body ++ nonce) else body))

/-- A measurement block: 1 the firmware measurement, 2 to 25 the configuration hash of partitions 0 to 23 (R381). -/
def measureBlock (s : State) (blk : Nat) : List Byte :=
  if blk = 1 then s.lehr.fwMeasure else if 2 ≤ blk ∧ blk ≤ 25 then configHash s (blk - 2) else []

/-- `GET_MEASUREMENTS`: a block, and the quote of a context that the request's OpaqueData names, with the request's
nonce (R348, R381); `ctx` of 256 or more names none. -/
def execGetMeasurements (blk : Nat) (nonce : List Byte) (ctx : Nat) (s : State) : Out :=
  let quote := if ctx < 256 ∧ (cx s ctx).state ≠ .empty ∧ (cx s ctx).state ≠ .destroyed then
      quoteBytes s ctx (cx s ctx).measure nonce (natBytes 64 0) (linidOf (cx s ctx)) else []
  .next (reply s (Config.spdmBody 0xE0 (natBytes 1 blk ++ nonce) ++ measureBlock s blk ++ quote))

/-! ### Fealman messages (R382) -/

/-- The response to a message: CMD and SEQ repeated, FLAGS 1, STATUS. -/
def mgReply (s : State) (cmd seq : Nat) (st : Int) : State :=
  reply s (natBytes 1 cmd ++ natBytes 1 1 ++ natBytes 2 (BitVec.ofInt 16 st).toNat ++ natBytes 4 seq)

/-- The command numbers of R382. -/
def mgKnown : List Nat := [0x01, 0x02, 0x03, 0x10, 0x11, 0x20, 0x21, 0x22, 0x23, 0x24, 0x30, 0x31, 0x40, 0x41]

/-- SEQ and payload of a message, without its signature of 64 bytes. -/
def mgSeq (m : List Byte) : Nat := field m 4 4
def mgPayload (m : List Byte) : List Byte := cutBytes m 8 (m.length - 72)

/-- A message whose CMD is unknown (R382). -/
def unknownMessage (s : State) (m : List Byte) : State :=
  if mgKnown.contains (field m 0 1) then s else mgReply s (field m 0 1) (mgSeq m) (-4)

/-- A signed message is accepted, or refused with −1 (R359, R382). -/
def mgSigned (s : State) (m : List Byte) : Bool :=
  match s.parts.key with
  | some k => 72 ≤ m.length && ecdsaVerify k (m.take (m.length - 64)) (m.drop (m.length - 64)) &&
      s.parts.seqCmd < mgSeq m
  | none => false

/-- A signed command: its effect on the payload, or its status (R382). -/
def mgCommand (s : State) (cmd : Nat) (m : List Byte) (f : State → List Byte → Int ⊕ State) : Out :=
  .next (if !(mgSigned s m) then mgReply s cmd (mgSeq m) (-1)
    else
      let s := { s with parts := { s.parts with seqCmd := mgSeq m } }
      match f s (mgPayload m) with
      | .inl st => mgReply s cmd (mgSeq m) st
      | .inr s => mgReply s cmd (mgSeq m) 0)

/-- `FW_OPEN` (R382): 4 bytes follow SEQ. -/
def execFwOpen (data : List Byte) (s : State) : Out :=
  .next (if data.length ≠ 12 then mgReply s 0x01 (mgSeq data) (-2)
    else mgReply { s with lehr := { s.lehr with staging := some (field data 8 4, []) } } 0x01 (mgSeq data) 0)

/-- `FW_DATA` (R382): an offset and up to 1,024 bytes follow SEQ. -/
def execFwData (head data : List Byte) (s : State) : Out :=
  let data := head ++ data
  let off := field data 8 4
  let img := data.drop 12
  .next (match s.lehr.staging with
    | none => mgReply s 0x02 (mgSeq data) (-3)
    | some (n, m) =>
      if data.length < 12 ∨ 1024 < img.length ∨ n < off + img.length then mgReply s 0x02 (mgSeq data) (-2)
      else mgReply { s with lehr := { s.lehr with staging := some (n, mputs m off img) } } 0x02 (mgSeq data) 0)

/-- `FW_COMMIT` (R382, R392): the image's last 64 bytes are its signature; a package held by a bad image starts from the new
one. -/
def execFwCommit (data : List Byte) (s : State) : Out :=
  .next (match s.lehr.staging with
    | none => mgReply s 0x03 (mgSeq data) (-3)
    | some (n, m) =>
      let i := mbytes m 0 n
      if 64 < n ∧ ecdsaVerify rootKey (i.take (n - 64)) (i.drop (n - 64)) then
        let s := { s with lehr := { s.lehr with staging := none, next := some i } }
        mgReply (if s.lehr.fwBad then startFirmware { s with lehr := s.lehr.takeImage } true else s) 0x03 (mgSeq data) 0
      else mgReply (lehrEvent s 8 0xFFFF 0 24) 0x03 (mgSeq data) (-2))

/-- `AUTH_KEY` (R359, R382): unsigned once while there is no key, over the I3C target alone, else signed with the current
key. -/
def execAuthKey (data : Bool × List Byte) (s : State) : Out :=
  let (i3c, data) := data
  let set (s : State) (k : List Byte) : State := { s with parts := { s.parts with key := some k } }
  match s.parts.key with
  | none =>
    .next (if !i3c then mgReply s 0x10 (mgSeq data) (-1)
      else if data.length = 72 then mgReply (set s (cutBytes data 8 64)) 0x10 (mgSeq data) 0
      else mgReply s 0x10 (mgSeq data) (-2))
  | some _ => mgCommand s 0x10 data fun s b => if b.length = 64 then .inr (set s b) else .inl (-2)

/-- `PLAN` (R359, R382): one that arrives while a request is in progress waits until the request ends. -/
def execPlan (data : List Byte) (s : State) : Out :=
  let waiting := s.parts.plans.filter (· ≠ data)
  if s.parts.busy then .next { s with parts := { s.parts with plans := waiting ++ [data] } }
  else mgCommand { s with parts := { s.parts with plans := waiting } } 0x11 data fun s b =>
    if b.length ≠ 24 ∨ b.any (fun x => 24 ≤ x.toNat ∧ x.toNat ≠ 0xFF) then .inl (-2)
    else .inr { s with parts := { s.parts with
      adm := (List.range 24).map fun i => (i, min (field b i 1) 24) } }

/-- `PKG_NUM` (R364, R382). -/
def execPkgNum (data : List Byte) (s : State) : Out :=
  mgCommand s 0x20 data fun s b =>
    if b.length ≠ 1 then .inl (-2)
    else if (List.range 24).any (portUp s) then .inl (-3)
    else .inr { s with pkg := field b 0 1 }

/-- `ROUTE` (R363, R382). -/
def execRoute (data : List Byte) (s : State) : Out :=
  mgCommand s 0x21 data fun s b =>
    let mask := field b 4 4
    if b.length ≠ 8 ∨ !(zeros b 1 3) ∨ 2 ^ 24 ≤ mask then .inl (-2)
    else .inr (newPaths { s with routes := if mask = 0 then tdel s.routes (field b 0 1) else tput s.routes (field b 0 1) mask })

/-- `DOMAIN` (R365, R382). -/
def execDomain (data : List Byte) (s : State) : Out :=
  mgCommand s 0x22 data fun s b =>
    let mask := field b 4 4
    if b.length ≠ 8 ∨ 24 ≤ field b 0 1 ∨ !(zeros b 2 2) ∨ 2 ^ 24 ≤ mask then .inl (-2)
    else .inr { s with domains := tput s.domains (field b 0 1 * 256 + field b 1 1) mask }

/-- `XGROUP` (R365, R382). -/
def execXgroup (data : List Byte) (s : State) : Out :=
  mgCommand s 0x23 data fun s b =>
    let mask := field b 4 4
    let kind := field b 2 1
    if b.length ≠ 8 ∨ (kind ≠ 1 ∧ kind ≠ 2) ∨ (kind = 2 ∧ 256 ≤ field b 0 2) ∨ !(zeros b 3 1) ∨ 2 ^ 24 ≤ mask then .inl (-2)
    else .inr { s with xgroups := tput s.xgroups (kind * 2 ^ 16 + field b 0 2) mask }

/-- PORT with one of its actions (R361, R382): −3 where the port's state has no such event. -/
def portCommand (action : Nat) (f : State → Nat → Option State) (data : List Byte) (s : State) : Out :=
  mgCommand s 0x24 data fun s b =>
    if b.length ≠ 2 ∨ 24 ≤ field b 0 1 ∨ field b 1 1 ≠ action then .inl (-2)
    else match f s (field b 0 1) with
      | some s => .inr s
      | none => .inl (-3)

/-- `PORT_ENABLE` (R361, R382). -/
def execPortEnable (data : List Byte) (s : State) : Out := portCommand 0 portTrain data s

/-- `PORT_FENCE` (R361, R382). -/
def execPortFence (data : List Byte) (s : State) : Out := portCommand 1 portShut data s

/-- `PORT_UNFENCE` (R361, R382). -/
def execPortUnfence (data : List Byte) (s : State) : Out := portCommand 2 portDown data s

/-- `PORT_RESET` (R361, R382). -/
def execPortReset (data : List Byte) (s : State) : Out := portCommand 3 portDown data s

/-- `PART_RESET` (R382, R393). -/
def execPartReset (data : List Byte) (s : State) : Out :=
  mgCommand s 0x40 data fun s b =>
    if b.length ≠ 1 ∨ 24 ≤ field b 0 1 then .inl (-2) else .inr (resetPart s (field b 0 1))

/-- `CORE_RESET` (R57, R382, R393). -/
def execCoreReset (data : List Byte) (s : State) : Out :=
  mgCommand s 0x41 data fun s b =>
    if b.length ≠ 2 ∨ 1024 ≤ field b 0 2 then .inl (-2) else .inr (clearCore s (field b 0 2))

/-- `ETH_ADDR` (R379, R382): two ports with four addresses each. -/
def execEthAddr (data : List Byte) (s : State) : Out :=
  mgCommand s 0x30 data fun s b =>
    let port := field b 0 1
    let slot := field b 1 1
    if b.length ≠ 24 ∨ 2 ≤ port ∨ 4 ≤ slot then .inl (-2)
    else
      let e := tget s.eths port {}
      .inr { s with eths := tput s.eths port { e with mac := cutBytes b 2 6, ips := tput e.ips slot (cutBytes b 8 16) } }

/-- `ETH_RULE` (R313, R382). -/
def execEthRule (data : List Byte) (s : State) : Out :=
  mgCommand s 0x31 data fun s b =>
    let port := field b 0 1
    let rule := field b 1 1
    if b.length ≠ 10 ∨ 2 ≤ port ∨ 64 ≤ rule ∨ 1 < field b 9 1 then .inl (-2)
    else
      let e := tget s.eths port {}
      let r := tput e.rules rule (field b 2 2, field b 4 4, field b 8 1, field b 9 1 == 1)
      .inr { s with eths := tput s.eths port { e with rules := r } }

end Sys2Proof.Machine
end

