-- ==== Sys2Proof/Machine/Memory.lean ====
section
/-! DEFINITION. Scalar loads and stores (R64, R118, R244), and the events of the store queue and of long results (R58,
R59, R244-R247). -/

namespace Sys2Proof.Machine

/-- A scalar load: held behind a vector store that has not entered all its elements (R118); the value is bound now and
written later, under the lookahead rule (R58). -/
def load (s : State) (p : BitVec 1) (d a : BitVec 5) (la : BitVec 4) (imm : BitVec 8) (size : Nat) (signed : Bool) :
    Out :=
  if vstPending (me s) then .next (held s)
  else
    let ea := memAddr s a imm size
    .next (match loadAt s ea size with
      | .value v s => finish (longResult s d la (.ready (extend size signed v))) p
      | .failed c s => finish (longResult s d la (.failed c ea)) p
      | .hold s => held s
      | .ends s => s)

/-- A scalar store: alignment is checked precisely, the rest after issue (R64, R244). -/
def store (s : State) (p : BitVec 1) (d a : BitVec 5) (imm : BitVec 8) (size word : Nat) : Out :=
  let ea := memAddr s a imm size
  .next (if ea.toNat % size ≠ 0 then raise s 5 ea
    else if vstPending (me s) ∨ storeFull (me s) then held s
    else finish (pushStore s s.cur (storeOf s ea size (rd s d) word)) p)

/-- `ldb` (R64). -/
def execLdb (p : BitVec 1) (d a : BitVec 5) (la : BitVec 4) (imm : BitVec 8) (s : State) : Out :=
  load s p d a la imm 1 true

/-- `ldh` (R64). -/
def execLdh (p : BitVec 1) (d a : BitVec 5) (la : BitVec 4) (imm : BitVec 8) (s : State) : Out :=
  load s p d a la imm 2 true

/-- `ldw` (R64). -/
def execLdw (p : BitVec 1) (d a : BitVec 5) (la : BitVec 4) (imm : BitVec 8) (s : State) : Out :=
  load s p d a la imm 4 true

/-- `ldd` (R64). -/
def execLdd (p : BitVec 1) (d a : BitVec 5) (la : BitVec 4) (imm : BitVec 8) (s : State) : Out :=
  load s p d a la imm 8 true

/-- `ldbu` (R64). -/
def execLdbu (p : BitVec 1) (d a : BitVec 5) (la : BitVec 4) (imm : BitVec 8) (s : State) : Out :=
  load s p d a la imm 1 false

/-- `ldhu` (R64). -/
def execLdhu (p : BitVec 1) (d a : BitVec 5) (la : BitVec 4) (imm : BitVec 8) (s : State) : Out :=
  load s p d a la imm 2 false

/-- `ldwu` (R64). -/
def execLdwu (p : BitVec 1) (d a : BitVec 5) (la : BitVec 4) (imm : BitVec 8) (s : State) : Out :=
  load s p d a la imm 4 false

/-- `stb` (R64). -/
def execStb (p : BitVec 1) (d a : BitVec 5) (imm : BitVec 8) (s : State) : Out :=
  store s p d a imm 1 (wordStb p d a imm)

/-- `sth` (R64). -/
def execSth (p : BitVec 1) (d a : BitVec 5) (imm : BitVec 8) (s : State) : Out :=
  store s p d a imm 2 (wordSth p d a imm)

/-- `stw` (R64). -/
def execStw (p : BitVec 1) (d a : BitVec 5) (imm : BitVec 8) (s : State) : Out :=
  store s p d a imm 4 (wordStw p d a imm)

/-- `std` (R64). -/
def execStd (p : BitVec 1) (d a : BitVec 5) (imm : BitVec 8) (s : State) : Out :=
  store s p d a imm 8 (wordStd p d a imm)

/-! ### Events of the store queue and of long results -/

/-- `LONG_RESULT_WRITE`: the n-th pending long result of a thread arrives; its window stands until it ends (R58). -/
def execLongResultWrite (tid n : Nat) (s : State) : Out :=
  let t := th s tid
  match t.longs[n]? with
  | some l =>
    match l.res with
    | .ready v =>
      let s := wrOf s tid l.d v
      let t := th s tid
      .next (setTh s tid { t with
        longs := if l.left = 0 then ldel t.longs n else lput t.longs n { l with res := .written } })
    | _ => .next s
  | none => .next s

/-- Does a queued store of a thread wait for a page request? -/
def storeWaits (s : State) (tid : Nat) : Bool :=
  (s.pages.any fun e => e.2.reqs.contains (.store tid)) || s.pageWaits.any fun e => e.reqs.contains (.store tid)

/-- A checked store on its way to its home; only its own thread sees it before it is performed there (R241, R244). -/
def sendStore (s : State) (tid : Nat) (x : Store) (rest : List Store) (l : Loc) (pbmt : Nat) : State :=
  let w : Who := { ctx := (th s tid).ctx, priv := x.priv, core := coreOf tid, tid := tid }
  let s := if x.space = .global then noteUse s w x.addr x.seq else s
  let t := th s tid
  setTh s tid { t with stores := rest, sent := t.sent ++ [{ x with loc := some l, pbmt := pbmt }] }

/-- `STORE_CHECK`: the oldest store of a queue is checked: sent, recorded, or kept for a page request; one to a window goes to
the switch behind the thread's earlier IO accesses (R244-R247, R287, R367). -/
def execStoreCheck (tid : Nat) (s : State) : Out :=
  let t := th s tid
  match t.stores with
  | [] => .next s
  | x :: rest =>
    if !t.precs.isEmpty ∨ storeWaits s tid then .next s
    else
      let drop (s : State) : State := setTh s tid { th s tid with stores := rest }
      .next (match checkStore s tid x with
        | (.ok l pb, s) => sendStore s tid x rest l pb
        | (.window pa, s) =>
          if ioBefore s tid x.seq then s
          else if pa / 2 ^ 52 % 8 = 2 ∧ x.op = .put ∧ !(windowOk s (partOf s tid) pa) then
            logError (drop s) t.ctx 4 tid (pa % 2 ^ 48) x.data.toNat (coreOf tid)
          else if pa / 2 ^ 52 % 8 = 2 ∧ x.op = .put then
            { drop s with out := { s.out with switch := s.out.switch ++ [(pa, natBytes x.width x.data.toNat)] } }
          else recordFault (drop s) tid x 6 0
        | (.miss b i g, s) =>
          let w : Who := { ctx := t.ctx, priv := x.priv, core := coreOf tid, tid := tid }
          let r := missReq s w x.addr .store 1 b i g (.store tid)
          if (ringOf s r).isNone then recordFault (drop s) tid x (if b then 20 else 6) g else postPage s r
        | (.fail c g, s) => recordFault (drop s) tid x c g)

/-- `PENDING_RECORD_WRITE`: the first pending record is written as CONS has made room, and is reported (R247). -/
def execPendingRecordWrite (tid : Nat) (s : State) : Out :=
  match (th s tid).precs with
  | [] => .next s
  | r :: rest =>
    let n := nextSeq s tid
    .next (match ringWrite s tid r with
      | .wrote s =>
        noteRecord (setTh s tid { th s tid with precs := rest, sfPend := (th s tid).sfPend && !rest.isEmpty }) tid n r
      | .full s => s
      | .refused g s => setTh s tid { th s tid with sfRing := some g }
      | .none => setTh s tid { th s tid with precs := rest, sfNone := true })

/-- May the n-th sent store of a thread be performed: no older one to the same bytes, no older access to an IO page
when it goes to one, and no older operation posted to the same bytes (R235, R287), the bytes of one line of a peer package counting as the same (R366); and for an element of a vector store no
older scalar access (R118)? -/
def arriveOk (s : State) (tid n : Nat) (x : Store) (l : Loc) : Bool :=
  !(x.vec && scalarBefore s tid x.seq) &&
  (((th s tid).sent.take n).all fun y =>
    (match y.loc with | some p => !(clash p y.width l x.width) | none => true)) &&
  !(x.pbmt == 2 && ioBefore s tid x.seq) &&
  !(s.posts.any fun p => p.tid == tid && p.seq < x.seq && (p.kind == .test || clash p.loc 8 l x.width))

/-- A store of a thread performed: in the owner's core array within a halo region, in this package's L2 copy of a
peer-homed or host line, else at the home (R229, R232, R251, R287). -/
def performStore (s : State) (tid : Nat) (x : Store) (l : Loc) : State :=
  match l with
  | .mem k =>
    match haloAt s k with
    | some (h, r, c) =>
      if haloOwner s h r c = some tid then
        upto x.width (fun i s => { s with
          haloDirty := tput s.haloDirty (haloKey tid (k + i)) (BitVec.ofNat 8 (x.data.toNat / 2 ^ (8 * i))) }) s
      else storeAt s l x.width x.data.toNat
    | none =>
      if x.pbmt = 0 then
        l1pass (l2store s l x.width x.data.toNat (th s tid).ctx) (coreOf tid) l x.width x.data.toNat
      else storeAt s l x.width x.data.toNat
  | _ => storeAt s l x.width x.data.toNat

/-- `STORE_ARRIVE_HOME`: the n-th sent store of a thread is performed (R229); without a path it waits, and a target that
refuses it logs it (R363, R365). -/
def execStoreArriveHome (tid n : Nat) (s : State) : Out :=
  let t := th s tid
  match t.sent[n]? with
  | some x =>
    match x.loc with
    | some l =>
      if x.op ≠ .put ∨ !(arriveOk s tid n x l) then .next s
      else
        let gone := setTh s tid { t with sent := ldel t.sent n }
        let pa := match l with | .mem k => k % 2 ^ 48 | _ => 0
        let lost (s : State) : State := logError s t.ctx 4 tid pa x.data.toNat (coreOf tid)
        .next (if !(pathFor s l x.pbmt) then
            if stuckOut s tid 2 x.addr x.seq then lost (unstick gone tid 2 x.addr x.seq)
            else stick s tid 2 x.addr x.seq l
          else if homeDenied s (partOf s tid) l then lost gone
          else performStore (unstick gone tid 2 x.addr x.seq) tid x l)
    | none => .next s
  | none => .next s

end Sys2Proof.Machine
end

