-- ==== Sys2Proof/Machine/Xfer.lean ====
section
/-! DEFINITION. The copy channel: the XFER words, and the events by which a request runs (R267-R280, R367-R371). -/

namespace Sys2Proof.Machine

/-! ### What a request moves -/

/-- A request as a list of units (R269): unit size, units, the source of each (`none`: written as zero), the constant of a
fill, and the places. -/
structure Plan where
  unit : Nat
  count : Nat
  smt : Nat
  dmt : Nat
  dst : Nat
  src : Nat → Option Word
  fill : Option Nat := none
  /-- Wide and narrow types of a send (R272). -/
  conv : Option (Nat × Nat) := none
  mask : Bool := false
  short : Bool := false

/-- Tensor coordinate sums: the element `n` of the box is read at this address, when it is in range (R274). -/
def tensorSrc (bs : List Byte) (size n : Nat) : Option Word :=
  let nd := field bs 62 1 / 16 % 8
  let ext (k : Nat) : Nat := if k < nd then max 1 (field bs (32 + 2 * k) 2) else 1
  let prod (k : Nat) : Nat := upto k (fun i p => p * ext i) 1
  let c (k : Nat) : Int := sgn 16 (field bs (42 + 2 * k) 2) + ((n / prod k % ext k : Nat) : Int)
  let inside (k : Nat) : Bool := 0 ≤ c k && c k < (field bs (52 + 2 * k) 2 : Nat)
  if (List.range nd).all inside then
    let off := upto 4 (fun k x => if k + 1 < nd then x + c (k + 1) * sgn 32 (field bs (16 + 4 * k) 4) else x)
      (c 0 * (size : Int))
    some (BitVec.ofNat 64 (field bs 0 8) + BitVec.ofInt 64 off)
  else none

/-- The elements of a tensor's box. -/
def tensorCount (bs : List Byte) : Nat :=
  upto 5 (fun k p => if k < field bs 62 1 / 16 % 8 then p * field bs (32 + 2 * k) 2 else p) 1

/-- The plan of a captured request (R271-R274). -/
def planOf (r : XReq) : Plan :=
  let f := field r.desc
  match r.kind with
  | .tensor =>
    let size := typeWidth (f 62 1 % 16) / 8
    { unit := size, count := tensorCount r.desc, smt := f 63 1 % 4, dmt := f 63 1 / 4 % 4, dst := f 8 8,
      src := tensorSrc r.desc size, mask := f 63 1 / 16 % 2 = 1, short := f 63 1 / 32 % 2 = 1 }
  | k =>
    let u := 2 ^ (f 20 1 / 16 % 4)
    { unit := u, count := f 16 4 / u, smt := f 20 1 % 4, dmt := f 20 1 / 4 % 4, dst := f 8 8,
      src := fun n => some (BitVec.ofNat 64 (f 0 8) + BitVec.ofNat 64 (n * u)),
      fill := if k = .fill then some (f 0 8 % 2 ^ (8 * u)) else none,
      conv := if k = .send then some (f 21 1 % 16, f 21 1 / 16) else none }

/-- Chunks of a run of `len` bytes from `dst` (R269). -/
def chunksOf (dst len : Nat) : Nat := if len = 0 then 0 else (dst + len - 1) / 256 - dst / 256 + 1

/-- The first byte of chunk `k` from `dst`, and its length (R269). -/
def chunkRun (dst len k : Nat) : Nat × Nat :=
  let lo := max dst ((dst / 256 + k) * 256)
  (lo, min (dst + len) ((dst / 256 + k + 1) * 256) - lo)

/-! ### Accesses of the channel (R270) -/

/-- Where an access of the channel goes. -/
inductive ChAt where
  | home (l : Loc) (pbmt : Nat)
  | window (pa : Nat)
  | fault (code : Nat)
  | miss (second imp : Bool) (gpa : Word)
  /-- No path: the request waits for the path timeout (R363). -/
  | wait

def reqWho (r : XReq) : Who := { ctx := r.ctx, priv := r.priv, core := coreOf r.tid, tid := r.tid }

/-- The place of a unit: scratchpad, peer scratchpad, or translated memory; a refusal is code 6 for a read and 8 for a
write, and so is a miss whose page request was refused, or for which there is no ring (R270, R278, R289, R290, R299, R300,
R363, R365). -/
def chAt (s : State) (r : XReq) (mt : Nat) (addr : Word) (n : Nat) (k : Acc) : ChAt × State :=
  let no := if k = .load then 6 else 8
  match mt with
  | 1 => (if addr.toNat + n ≤ spSize s (coreOf r.tid) then .home (.spad (coreOf r.tid) addr.toNat) 0 else .fault no, s)
  | 2 => (match peerLoc s r.tid addr n with | some l => .home l 0 | none => .fault no, s)
  | _ =>
    if r.refused.contains (k, addr.toNat / 4096) then (.fault no, s)
    else match xlateBy .bench s (reqWho r) addr k with
    | (.ok l _ pb, s) =>
      if !(if k = .load then pathFor s l pb else homeReach s l) then
        if stuckOut s r.tid 4 addr 0 then (.fault no, unstick s r.tid 4 addr 0) else (.wait, stick s r.tid 4 addr 0 l)
      else
        let s := unstick s r.tid 4 addr 0
        if homeDenied s (cx s r.ctx).part l then (.fault no, s)
        else if k = .store ∧ haloBad s r.tid l then (.fault 14, s)
        else (.home l pb, s)
    | (.window pa, s) =>
      (if k = .store ∧ windowOk s (cx s r.ctx).part pa then .window pa else .fault no, s)
    | (.miss b i g, s) =>
      (if (ringOf s (missReq s (reqWho r) addr k 4 b i g (.channel (coreOf r.tid) r.seq addr))).isNone then .fault no
       else .miss b i g, s)
    | (.refuse _ _ _ _ _, s) => (.fault no, s)
    | (.error, s) => (.fault 9, s)

/-- Bytes read by the channel at a place; of a halo region, as the movement thread sees it (R232, R251, R270, R287). -/
def chRead (s : State) (tid : Nat) (l : Loc) (n pbmt : Nat) : Nat :=
  match l with
  | .mem k =>
    let v := if pbmt = 0 ∧ (haloAt s k).isNone then l2rd s k n else mrd s.mem k n
    bytesNat ((List.range n).map fun i => (haloByte s tid (k + i)).getD (BitVec.ofNat 8 (v / 2 ^ (8 * i))))
  | _ => rdLoc s l n

/-- Bytes written by the channel at a place (R229, R232, R251, R287). -/
def chWrite (s : State) (r : XReq) (l : Loc) (n v pbmt : Nat) : State :=
  match l with
  | .mem k =>
    match haloAt s k with
    | some _ =>
      upto n (fun i s => { s with
        haloDirty := tput s.haloDirty (haloKey r.tid (k + i)) (BitVec.ofNat 8 (v / 2 ^ (8 * i))) }) s
    | none => if pbmt = 0 then l2store s l n v r.ctx else storeAt s l n v
  | _ => storeAt s l n v

/-- How the gathering of units ends: all of them, or at the unit where an access does not go through. -/
inductive Gather (α : Type) where
  | all (xs : List α) (s : State)
  | stop (xs : List α) (at_ : Nat) (addr : Word) (e : ChAt) (s : State)

/-- The value of a unit as it is written (R271, R272). -/
def sendConv (p : Plan) (v : Nat) : Nat :=
  match p.conv with
  | some (w, n) =>
    if w = n then v
    else
      let x := ((typeFmt w).convert (typeFmt n) .rne v).1
      ((typeFmt n).convert (typeFmt w) .rne x).1
  | none => v

/-- Units `n` on read at their sources. -/
def gatherSrc (s : State) (r : XReq) (p : Plan) (n : Nat) (acc : List Nat) : Nat → Gather Nat
  | 0 => .all acc.reverse s
  | k + 1 =>
    match p.fill with
    | some v => gatherSrc s r p (n + 1) (v :: acc) k
    | none =>
      match p.src n with
      | none => gatherSrc s r p (n + 1) (0 :: acc) k
      | some a =>
        match chAt s r p.smt a p.unit .load with
        | (.home l pb, s) =>
          if poisoned s l p.unit then .stop acc.reverse n a (.fault 9) s
          else gatherSrc s r p (n + 1) (sendConv p (chRead s r.tid l p.unit pb) :: acc) k
        | (e, s) => .stop acc.reverse n a e s

/-- Places of units of `size` bytes from an address on. -/
def gatherDst (s : State) (r : XReq) (mt size a : Nat) (acc : List ChAt) : Nat → Gather ChAt
  | 0 => .all acc.reverse s
  | k + 1 =>
    match chAt s r mt (BitVec.ofNat 64 a) size .store with
    | (.home l pb, s) => gatherDst s r mt size (a + size) (.home l pb :: acc) k
    | (.window pa, s) => gatherDst s r mt size (a + size) (.window pa :: acc) k
    | (e, s) => .stop acc.reverse a (BitVec.ofNat 64 a) e s

/-- Does a write go to a reduction address, SPACE 1 of the switch (R367, R369)? -/
def ChAt.inRound (x : ChAt) : Bool :=
  match x with
  | .window pa => pa / 2 ^ 52 % 8 == 1
  | _ => false

/-- A unit written at its place; one for a multicast window leaves the package (R367). -/
def putUnit (s : State) (r : XReq) (size : Nat) (x : ChAt × Nat) : State :=
  match x.1 with
  | .home l pb => chWrite s r l size x.2 pb
  | .window pa => { s with out := { s.out with switch := s.out.switch ++ [(pa, natBytes size x.2)] } }
  | _ => s

/-! ### Ends and faults of a request (R267, R278) -/

def chOf (s : State) (core : Nat) : Channel := (co s core).ch
def setCh (s : State) (core : Nat) (x : Channel) : State := setCo s core { co s core with ch := x }

/-- The record of a copy fault (R278); of a round that ends without its result, with index 0 (R371). -/
def chRec (r : XReq) (code : Nat) (addr : Word) : AfRec :=
  { src := 0, code := code, pc := r.pc, ga := r.ga, gb := r.gb, gd := r.gd, addr := addr, progress := r.counted,
    index := if r.kind = .reduce ∧ code ≠ 11 then 0 else r.chunk, word := r.word }

/-- The fault of a channel reported: the channel is Faulted (R84, R278). -/
def chReport (s : State) (core : Nat) : State :=
  let c := chOf s core
  match c.fault, c.req with
  | some (code, addr), some r =>
    if afBusy s r.tid ∨ c.state ≠ 2 then s
    else afReport (setCh (detach s core) core { c with state := 4, req := none, fault := none }) r.tid (chRec r code addr)
  | _, _ => s

/-- A fault of the running request: reported at once, or when `AFCODE.V` is 0 (R84, R280). -/
def chFault (s : State) (core : Nat) (r : XReq) (code : Nat) (addr : Word) : State :=
  chReport (setCh s core { chOf s core with req := some r, fault := some (code, addr) }) core

/-- The request is complete: `DONE`, `SH`, Idle (R266, R267). -/
def chDone (s : State) (core done : Nat) (sh : Bool) : State :=
  setCh (detach s core) core { chOf s core with state := 1, done := done % 2 ^ 32, sh := sh, req := none, fault := none }

/-- The request goes on later from where it stands: for a translation that it needs, a page request (R270). -/
def chPost (s : State) (core : Nat) (r : XReq) (addr : Word) (k : Acc) (second imp : Bool) (gpa : Word) : State :=
  postPage (setCh s core { chOf s core with req := some { r with waits := some (k, addr) } })
    (missReq s (reqWho r) addr k 4 second imp gpa (.channel core r.seq addr))

/-- What an access that does not go through makes of the request. -/
def chStop (s : State) (core : Nat) (r : XReq) (addr : Word) (k : Acc) (e : ChAt) : State :=
  match e with
  | .fault c => chFault s core r c addr
  | .miss b i g => chPost s core r addr k b i g
  | _ => s

/-- The progress add after a chunk that `s` has written and `s0` had not, as a release at the captured scope (R243,
R269). -/
def chAdvance (s0 s : State) (core : Nat) (r r1 : XReq) (units : Nat) (next : State → State) : State :=
  let wait := releaseWait s r.ctx r.scope
  let s := releaseCopies s r.tid r.ctx r.scope
  if wait.isSome then { s0 with stuck := s.stuck }
  else if r.gb = 0 then next s
  else if r.refused.contains (.store, r.gb.toNat / 4096) then chFault s core r1 11 r.gb
  else match engineAdd s (reqWho r) r.gb (BitVec.ofNat 64 units) with
    | .ok s => next s
    | .refused s => chFault s core r1 11 r.gb
    | .walk s => chFault s core r1 9 r.gb
    | .miss b i g _ =>
      let q := missReq s0 (reqWho r) r.gb .store 4 b i g (.channel core r.seq r.gb)
      if (ringOf s0 q).isNone then chFault s core r1 11 r.gb
      else postPage (setCh s0 core { chOf s0 core with req := some { r with waits := some (.store, r.gb) } }) q
    | .wait s1 => { s0 with stuck := s1.stuck }

/-! ### Copy, fill, send, tensor (R269-R275) -/

/-- The bytes of a completion mask (R274): `upTo` elements were written. -/
def maskBytes (p : Plan) (upTo : Nat) : List Byte :=
  (List.range ((p.count + 7) / 8)).map fun i =>
    BitVec.ofNat 8 (upto 8 (fun b x =>
      if 8 * i + b < upTo ∧ 8 * i + b < p.count ∧ (p.src (8 * i + b)).isSome then x + 2 ^ b else x) 0)

/-- The bytes of a chunk, and of the mask after the last, at their places; then the advance (R269, R274, R275). -/
def chunkPut (s0 s : State) (core : Nat) (r : XReq) (p : Plan) (lo : Nat) (vs : List Nat) (end_ : Option Nat) : State :=
  match gatherDst s r p.dmt p.unit lo [] vs.length with
  | .stop _ _ a e s => chStop s core r a .store e
  | .all ps s =>
    let mb := match end_ with | some n => if p.mask then maskBytes p n else [] | none => []
    match gatherDst s r p.dmt 1 ((p.dst + p.count * p.unit + 7) / 8 * 8) [] mb.length with
    | .stop _ _ a e s => chStop s core r a .store e
    | .all ms s =>
      if (ps ++ ms).any ChAt.inRound then chFault s core r 8 (BitVec.ofNat 64 lo) else
      let s := (ps.zip vs).foldl (fun s x => putUnit s r p.unit x) s
      let s := (ms.zip (mb.map BitVec.toNat)).foldl (fun s x => putUnit s r 1 x) s
      let r1 := { r with chunk := r.chunk + 1, counted := r.counted + vs.length }
      let next (s : State) : State :=
        match end_ with
        | some n => chDone s core n (n < p.count)
        | none => setCh s core { chOf s core with req := some r1 }
      if vs.isEmpty then next s else chAdvance s0 s core r { r1 with counted := r.counted } vs.length next

/-- Does a reduction's destination and descriptor meet R369? -/
def reduceOk (r : XReq) (pa : Nat) : Bool :=
  let p := planOf r
  let ty := pa / 2 ^ 24 % 16
  pa / 2 ^ 52 % 8 == 1 && r.kind == .copy && p.smt == 0 && p.dmt == 0 && pa / 2 ^ 28 % 16 ≤ 2 &&
  (ty == 0 || ty == 1 || ty == 8 || ty == 9 || ty == 11) && typeWidth ty == 8 * p.unit && pa / 2 ^ 16 % 256 == 0 &&
  pa % 2 ^ 16 == 0 && p.unit * p.count ≤ 65536

/-- One chunk of a reduction goes to the switch, at the offsets that follow the address of the first (R369, R371). -/
def reduceChunk (s : State) (core : Nat) (r : XReq) (p : Plan) (lo : Nat) (vs : List Nat) : State :=
  let r := { r with kind := .reduce }
  match gatherDst s r p.dmt p.unit lo [] vs.length with
  | .stop _ _ a e s => chStop s core r a .store e
  | .all ps s =>
    let right : Bool := (ps.mapIdx fun i x =>
      match x with
      | .window pa => pa == r.round + (lo + i * p.unit - p.dst)
      | _ => false).all id
    let a : Word := BitVec.ofNat 64 p.dst
    if !right then chFault s core r 8 (BitVec.ofNat 64 lo)
    else if !((List.range 24).any (portUp s)) then
      if stuckOut s r.tid 4 a 1 then chFault (unstick s r.tid 4 a 1) core r 32 a else stick s r.tid 4 a 1 (.near 0 0)
    else
      let s := (ps.zip vs).foldl (fun s x => putUnit s r p.unit x) (unstick s r.tid 4 a 1)
      let last := r.chunk + 1 = chunksOf p.dst (p.unit * p.count)
      setCh s core { chOf s core with
        req := some { r with chunk := r.chunk + 1, joined := last } }

/-- One chunk of a request, which is a contribution where `DST` itself translates to a reduction address (R369): the units
before a refused read of a tensor that may be shortened, or all of the chunk. -/
def chunkStep (s : State) (core : Nat) (r : XReq) : State :=
  let p := planOf r
  let (lo, len) := chunkRun p.dst (p.unit * p.count) r.chunk
  let first := (lo - p.dst) / p.unit
  let last := r.chunk + 1 = chunksOf p.dst (p.unit * p.count)
  match gatherSrc s r p first [] (len / p.unit) with
  | .all vs s1 =>
    match chAt s1 r p.dmt (BitVec.ofNat 64 lo) p.unit .store with
    | (.window pa, s1) =>
      if r.kind = .reduce then reduceChunk s1 core r p lo vs
      else if pa / 2 ^ 52 % 8 ≠ 1 then chunkPut s s1 core r p lo vs (if last then some p.count else none)
      else match chAt s1 r p.dmt (BitVec.ofNat 64 p.dst) p.unit .store with
        | (.window b, s1) =>
          if reduceOk r b then reduceChunk s1 core { r with round := b } p lo vs
          else chFault s1 core r 8 (BitVec.ofNat 64 lo)
        | (.miss x y g, s1) => chStop s1 core r (BitVec.ofNat 64 p.dst) .store (.miss x y g)
        | _ => chFault s1 core r 8 (BitVec.ofNat 64 lo)
    | _ =>
      if r.kind = .reduce then reduceChunk s1 core r p lo vs
      else chunkPut s s1 core r p lo vs (if last then some p.count else none)
  | .stop vs n a e s1 =>
    match e with
    | .fault 6 => if p.short ∧ n ≠ 0 then chunkPut s s1 core r p lo vs (some n) else chFault s1 core r 6 a
    | _ => chStop s1 core r a .load e

/-! ### Multicast reads (R276, R277) -/

/-- Source address of a line of a multicast. -/
def mcSrc (r : XReq) (l : Nat) : Word := BitVec.ofNat 64 (field r.desc 0 8 + 128 * l)

/-- The memory key of a line of a stream. -/
def Stream.key (x : Stream) (l : Nat) : Nat :=
  x.src.getD ((x.off + 128 * l) / 4096) 0 + (x.off + 128 * l) % 4096

/-- The first line that a receiver with `done` chunks still needs. -/
def mcNeeds (r : XReq) (done : Nat) : Nat := ((chunkRun (field r.desc 8 4) (field r.desc 12 4) done).1 - field r.desc 8 4) / 128

/-- A line of the stream reaches the receivers of a request: one that still needs it holds it, when it holds less than 16
chunks' worth of lines; else the line is dropped for that receiver, which gets it by unicast (R277). -/
def lineArrives (r : XReq) (l : Nat) (bs : List Byte) : XReq :=
  (List.range r.rcv.length).foldl (fun r i =>
    match r.rcv[i]? with
    | some (_, done) =>
      if mcNeeds r done ≤ l ∧ (r.lines.filter fun e => e.1 / 4096 = i).length < 32 then
        { r with lines := tput r.lines (i * 4096 + l) bs }
      else r
    | none => r) r

/-- A line that a stream reads reaches every request that joined it. One that holds an uncorrectable error, or lies in a
halo region, is left to unicast. -/
def streamLine (s : State) (x : Stream) (l : Nat) : State :=
  let k := x.key l
  if poisoned s (.mem k) 128 ∨ (haloAt s k).isSome then s
  else
    let bs := (List.range 128).map fun i => BitVec.ofNat 8 (l2rd s (k + i) 1)
    x.cores.foldl (fun s c =>
      match (chOf s c).req with
      | some r => setCh s c { chOf s c with req := some (lineArrives r l bs) }
      | none => s) s

/-- The stream of a channel sends its lines up to and with `l`, in address order (R277). -/
def streamTo (s : State) (core l : Nat) : State :=
  match s.streams.findIdx? fun x => x.cores.contains core with
  | some i =>
    match s.streams[i]? with
    | some x =>
      let s := (List.range (l + 1 - x.line)).foldl (fun s j => streamLine s x (x.line + j)) s
      { s with streams := lput s.streams i { x with line := max x.line (l + 1) } }
    | none => s
  | none => s

/-- A source line of a channel's multicast for its receiver number `i`: one that has arrived, else read by unicast
(R277). -/
def mcLine (s : State) (core i l : Nat) : Except (XReq × ChAt × State) (List Byte × State) :=
  let s := streamTo s core l
  match (chOf s core).req with
  | none => .ok ([], s)
  | some r =>
    match r.lines.find? fun e => e.1 = i * 4096 + l with
    | some (_, bs) => .ok (bs, s)
    | none =>
      match chAt s r 0 (mcSrc r l) 128 .load with
      | (.home loc pb, s) =>
        if poisoned s loc 128 then .error (r, .fault 9, s)
        else .ok ((List.range 128).map fun j => BitVec.ofNat 8 (chRead s r.tid (loc.plus j) 1 pb), s)
      | (e, s) => .error (r, e, s)

/-- The bytes of a run of a multicast's source. -/
def mcBytes (s : State) (core i off n : Nat) : Except (XReq × Nat × ChAt × State) (List Byte × State) :=
  let l0 := off / 128
  let lines := (off + n - 1) / 128 - l0 + 1
  let rec go (s : State) (l : Nat) (acc : List Byte) : Nat → Except (XReq × Nat × ChAt × State) (List Byte × State)
    | 0 => .ok ((acc.drop (off % 128)).take n, s)
    | k + 1 =>
      match mcLine s core i l with
      | .ok (bs, s) => go s (l + 1) (acc ++ bs) k
      | .error (r, e, s) => .error (r, l, e, s)
  go s l0 [] lines

/-- The chunk at which a multicast ends: its last, or the one of its fault (R276, R278). -/
def mcLimit (r : XReq) : Nat :=
  match r.bad with
  | some (k, _, _) => k
  | none => chunksOf (field r.desc 8 4) (field r.desc 12 4)

/-- The advance of a multicast's issuer for its next chunk, once every receiver has it; then its fault (R276, R278). -/
def mcAdvance (s : State) (core : Nat) (r : XReq) : State :=
  let dst := field r.desc 8 4
  let len := field r.desc 12 4
  if r.chunk < mcLimit r ∧ r.rcv.all fun x => r.chunk < x.2 then
    let u := 2 ^ (field r.desc 19 1 % 4)
    let n := (chunkRun dst len r.chunk).2 / u
    let r1 := { r with chunk := r.chunk + 1, counted := r.counted + n }
    chAdvance s s core r { r1 with counted := r.counted } n fun s =>
      if r1.chunk = chunksOf dst len then chDone s core (len / u) false
      else setCh s core { chOf s core with req := some r1 }
  else match r.bad with
    | some (k, code, a) => if r.chunk = k then chFault s core r code a else s
    | none => s

/-- A fault of a multicast at one receiver: the request ends once every receiver has the chunks below the first one that is
not written (R278). -/
def mcFault (s : State) (core : Nat) (r : XReq) (k code : Nat) (addr : Word) : State :=
  let b := match r.bad with
    | some (j, c, a) => if j ≤ k then (j, c, a) else (k, code, addr)
    | none => (k, code, addr)
  setCh s core { chOf s core with req := some { r with bad := some b } }

/-- One chunk of a receiver: after the issuer's advance for a chunk that has landed at every receiver (R276, R277,
R278). A refused near counter records the faulting address 0 (DESIGN CHOICE, log 76). -/
def mcReceive (s : State) (core i : Nat) (r : XReq) : State :=
  let s0 := s
  match r.rcv[i]? with
  | none => s
  | some (c, done) =>
    let dst := field r.desc 8 4
    let len := field r.desc 12 4
    let stopping := (th s r.tid).stop.isSome
    if (r.rcv.all fun x => r.chunk < x.2) ∨ (r.bad.isSome ∧ r.chunk = mcLimit r) then mcAdvance s core r
    else if mcLimit r ≤ done ∨ (stopping ∧ r.rcv.all fun x => x.2 ≤ done) then s
    else
      let (lo, n) := chunkRun dst len done
      if partOfCore s c ≠ (cx s r.ctx).part ∨ !meshOk s core c ∨ spSize s c < lo + n then
        mcFault s core r done 8 (BitVec.ofNat 64 lo)
      else match mcBytes s core i (lo - dst) n with
        | .error (r, l, e, s) =>
          (match e with
            | .fault c => mcFault s core r done c (mcSrc r l)
            | e => chStop s core r (mcSrc r l) .load e)
        | .ok (bs, s) =>
          let r := ((chOf s core).req).getD r
          let s := storeBytes s (.spad c lo) bs
          let r1 := { r with rcv := lput r.rcv i (c, done + 1),
                             lines := r.lines.filter fun e => e.1 / 4096 ≠ i ∨ mcNeeds r (done + 1) ≤ e.1 % 4096 }
          let s := setCh s core { chOf s core with req := some r1 }
          if field r.desc 19 1 / 128 = 1 then
            let units := n / 2 ^ (field r.desc 19 1 % 4)
            if let some w := releaseWait s r.ctx r.scope then { s0 with stuck := w.stuck }
            else match engineAddAt (releaseCopies s r.tid r.ctx r.scope) (reqWho r) 0 (.near c (field r.desc 18 1))
                (BitVec.ofNat 64 units) with
            | .ok s => s
            | .refused s => mcFault s core r1 (done + 1) 11 0
            | _ => s
          else s

/-! ### Events -/

/-- The running request of a channel that may act: Busy, with no fault, no page request and no earlier release of its
thread to wait for (R243). -/
def chRuns (s : State) (core : Nat) : Option XReq :=
  let c := chOf s core
  if c.state = 2 ∧ c.fault.isNone then
    match c.req with
    | some r => if r.waits.isSome ∨ engineHeld s r.tid r.seq then none else some r
    | none => none
  else none

/-- `COPY_CHUNK`: the channel of a core writes one chunk and makes its advance; the last one ends the request (R269). -/
def execCopyChunk (core : Nat) (s : State) : Out :=
  .next (match chRuns s core with
    | none => s
    | some r =>
      if r.kind = .mcast then mcAdvance s core r
      else if r.kind = .reduce ∧ r.joined then s
      else chunkStep s core r)

/-- The memory pages of a multicast's source range, from page number `i` on, with the translations that its stream uses; or the
first that has no home to share. -/
def mcPages (s : State) (r : XReq) (i : Nat) (acc : List Nat) : Nat → Gather Nat
  | 0 => .all acc.reverse s
  | k + 1 =>
    let a : Word := BitVec.ofNat 64 (max (field r.desc 0 8) ((field r.desc 0 8 / 4096 + i) * 4096))
    match chAt s r 0 a 128 .load with
    | (.home (.mem key) 0, s) => mcPages (noteUse s (reqWho r) a r.seq) r (i + 1) (key / 4096 * 4096 :: acc) k
    | (e, s) => .stop acc.reverse i a e s

/-- `MCAST_STREAM_JOIN`: a multicast request reaches the home slice of its source and joins a stream of the same translated
source range, or opens one (R277). A page that is still to be mapped is asked for; a range with a page that is refused, or
not cached, is left to unicast, whose chunks before that page stand and whose fault is that of its chunk (R278). -/
def execMcastStreamJoin (core : Nat) (s : State) : Out :=
  .next (match chRuns s core with
    | none => s
    | some r =>
      let len := field r.desc 12 4
      let off := field r.desc 0 8 % 4096
      if r.kind ≠ .mcast ∨ r.joined then s
      else match mcPages s r 0 [] ((off + len + 4095) / 4096) with
        | .all src s =>
          let s := setCh s core { chOf s core with req := some { r with joined := true } }
          if s.streams.any fun x => x.src = src ∧ x.off = off ∧ x.len = len then
            { s with streams := s.streams.map fun x =>
                if x.src = src ∧ x.off = off ∧ x.len = len then { x with cores := x.cores ++ [core] } else x }
          else { s with streams := s.streams ++ [{ src := src, off := off, len := len, line := 0, cores := [core] }] }
        | .stop _ _ a e s =>
          match e with
          | .miss b j g => chPost s core r a .load b j g
          | .wait => s
          | _ => setCh s core { chOf s core with req := some { r with joined := true } })

/-- `MCAST_RECEIVER_CHUNK`: a receiver writes its next chunk, all of whose lines have arrived, and its counter advances
(R276, R277), once the request has met the slice of its source. -/
def execMcastReceiverChunk (core rcv : Nat) (s : State) : Out :=
  .next (match chRuns s core with
    | none => s
    | some r => if r.kind = .mcast ∧ r.joined then mcReceive s core rcv r else s)

/-- `REDUCTION_RESULT`: the round's result is written over the source range, with one advance (R369). -/
def execReductionResult (core : Nat) (data : List Byte) (s : State) : Out :=
  .next (match chRuns s core with
    | none => s
    | some r =>
      let p := planOf { r with kind := .copy }
      if r.kind ≠ .reduce ∨ !r.joined ∨ data.length ≠ p.unit * p.count then s
      else match gatherDst s r 0 p.unit (field r.desc 0 8) [] p.count with
        | .stop _ _ a e s => chStop s core r a .store e
        | .all ps s1 =>
          let vs := (List.range p.count).map fun i => field data (i * p.unit) p.unit
          let s2 := (ps.zip vs).foldl (fun s x => putUnit s r p.unit x) s1
          chAdvance s s2 core r r p.count fun s => chDone s core p.count false)

/-- `ROUND_ABANDON`: the switch abandons the round, and a contributor's request ends with code 32 (R371). -/
def execRoundAbandon (core : Nat) (s : State) : Out :=
  let c := chOf s core
  .next (match c.req with
    | some r =>
      if c.state = 2 ∧ c.fault.isNone ∧ r.kind = .reduce then
        chFault s core { r with counted := 0, chunk := 0 } 32 (BitVec.ofNat 64 (field r.desc 8 8))
      else s
    | none => s)

/-! ### The XFER words (R268, R271-R276) -/

/-- The limits of a copy, fill or send descriptor (R271, R272). -/
def copyOk (k : XKind) (bs : List Byte) : Bool :=
  let b := field bs 20 1
  let es := b / 16 % 4
  let u := 2 ^ es
  let conv := field bs 21 1
  let w := conv % 16
  let n := conv / 16
  field bs 8 8 % u == 0 && u ≤ field bs 16 4 && field bs 16 4 % u == 0 && b / 64 == 0 && b / 4 % 4 ≤ 2 && b % 4 ≤ 2 &&
  zeros bs 22 10 &&
  (if k = .fill then b % 4 == 0 && field bs 0 8 / 2 ^ (8 * u) == 0 else field bs 0 8 % u == 0) &&
  (if k = .send then
    b / 4 % 4 == 0 && typeWidth w == 8 * u &&
      ((w == 0 && (n == 1 || n == 2 || n == 3 || n == 4)) || ((w == 1 || w == 2) && (n == 3 || n == 4)) || w == n)
   else conv == 0)

/-- The limits of a shape record (R273). -/
def tensorOk (bs : List Byte) : Bool :=
  let t := field bs 62 1
  let m := field bs 63 1
  let nd := t / 16 % 8
  let ty := t % 16
  let size := typeWidth ty / 8
  ty < 12 && ty != 5 && ty != 7 && 1 ≤ nd && nd ≤ 5 && t / 128 == 0 && m / 64 == 0 && m % 4 ≤ 2 && m / 4 % 4 ≤ 2 &&
  field bs 0 8 % size == 0 && field bs 8 8 % size == 0 &&
  ((List.range 5).all fun k =>
    if k < nd then field bs (32 + 2 * k) 2 != 0
    else zeros bs (32 + 2 * k) 2 && zeros bs (42 + 2 * k) 2 && zeros bs (52 + 2 * k) 2) &&
  ((List.range 4).all fun k =>
    if k + 1 < nd then field bs (16 + 4 * k) 4 % size == 0 else zeros bs (16 + 4 * k) 4) &&
  tensorCount bs * size < 2 ^ 32

/-- The limits of a multicast descriptor (R276). -/
def xmcastOk (bs : List Byte) : Bool :=
  let b := field bs 19 1
  let len := field bs 12 4
  field bs 0 8 % 128 == 0 && field bs 8 4 % 2 ^ (b % 4) == 0 && len % 128 == 0 && 128 ≤ len && len ≤ 0x80000 &&
  field bs 16 2 + 31 ≤ 1023 && b / 4 % 32 == 0 && field bs 20 4 != 0 && zeros bs 24 8

def descOk (k : XKind) (bs : List Byte) : Bool :=
  match k with
  | .tensor => tensorOk bs
  | .mcast => xmcastOk bs
  | _ => copyOk k bs

/-- The cores that a multicast's mask names (R276). -/
def xmcastCores (bs : List Byte) : List (Nat × Nat) :=
  ((List.range 32).filter fun k => field bs 20 4 / 2 ^ k % 2 = 1).map fun k => (k, field bs 16 2 + k)

/-- The request accepted (R267, R268). -/
def xferStart (s : State) (p : BitVec 1) (d a b : BitVec 5) (k : XKind) (word : Nat) (bs : List Byte) : State :=
  let core := coreOf s.cur
  let fits (c : Nat) : Bool := field bs 8 4 + field bs 12 4 ≤ spSize s c
  let named := if k = .mcast then xmcastCores bs else []
  let skipped := ((named.filter fun x => !(fits x.2)).map fun x => 2 ^ x.1).sum
  let r : XReq := { kind := k, desc := bs, pc := (me s).pc, word := word, ga := rd s a, gb := rd s b, gd := rd s d,
                    scope := (chOf s core).scope, skipped := skipped, ctx := (me s).ctx, priv := (me s).priv, tid := s.cur,
                    seq := s.order, rcv := (named.filter fun x => fits x.2).map fun x => (x.2, 0) }
  let s := setCh { s with order := s.order + 1 } core { chOf s core with state := 2, req := some r, fault := none }
  finish (wr s d (BitVec.ofNat 64 skipped)) p

/-- The checks of an XFER word after its descriptor is read, from step 4 on (R268). -/
def xferTail (s : State) (p : BitVec 1) (d a b : BitVec 5) (k : XKind) (word : Nat) (bs : List Byte) : State :=
  let core := coreOf s.cur
  let go (s : State) : State :=
    if (chOf s core).state ≠ 1 then held s
    else if !(descOk k bs) then finish (wr s d (statusOf (-1))) p
    else if k = .mcast ∧ (xmcastCores bs).any fun x => partOfCore s x.2 ≠ partOf s s.cur then
      finish (wr s d (statusOf (-2))) p
    else xferStart s p d a b k word bs
  if rd s b = 0 then go s
  else match ctrFind s (rd s b) .store 0 with
    | .fault n s => counterFault s (rd s b) n
    | .ends s => s
    | .at_ _ s => go s

/-- An XFER word (R268). -/
def xfer (s : State) (p : BitVec 1) (d a b : BitVec 5) (k : XKind) (word : Nat) : Out :=
  let ea := rd s a
  .next (if slotOf s.cur ≠ 15 ∨ !(chOf s (coreOf s.cur)).en then illegal s word
    else if ea.toNat % 8 ≠ 0 then raise s 5 ea
    else if vstPending (me s) then held s
    else match loadRun s ea (if k = .tensor then 8 else 4) with
      | (_, .ends s) => s
      | (_, .hold s) => held s
      | (_, .failed c s) => raise s c ea
      | (bs, .value _ s) => xferTail s p d a b k word bs)

/-- `xfer.copy` (R271). -/
def execXferCopy (p : BitVec 1) (d a b : BitVec 5) (s : State) : Out := xfer s p d a b .copy (wordXferCopy p d a b)

/-- `xfer.tensor` (R273). -/
def execXferTensor (p : BitVec 1) (d a b : BitVec 5) (s : State) : Out := xfer s p d a b .tensor (wordXferTensor p d a b)

/-- `xfer.mcast` (R276). -/
def execXferMcast (p : BitVec 1) (d a b : BitVec 5) (s : State) : Out := xfer s p d a b .mcast (wordXferMcast p d a b)

/-- `xfer.fill` (R271). -/
def execXferFill (p : BitVec 1) (d a b : BitVec 5) (s : State) : Out := xfer s p d a b .fill (wordXferFill p d a b)

/-- `xfer.send` (R272). -/
def execXferSend (p : BitVec 1) (d a b : BitVec 5) (s : State) : Out := xfer s p d a b .send (wordXferSend p d a b)

end Sys2Proof.Machine
end

