-- ==== Sys2Proof/Machine/Sreg.lean ====
section
/-! DEFINITION. The system registers: what each reads, what a write does, the SREG words, and the register writes that
have rows of their own (R36, R61, R81, R113, R114, R147, R148, R178, R207, R263, R265-R267, R285, R338, R352). -/

namespace Sys2Proof.Machine

/-! ### Reading -/

/-- `CORE` (R81). -/
def coreWord (s : State) (core : Nat) : Nat :=
  partOfCore s core * 2 ^ 24 + posOf core * 2 ^ 20 + benchOf core * 2 ^ 12 + core

/-- `TSTAT` (R148). -/
def tstatWord (s : State) (tid : Nat) : Nat :=
  ((tq s (coreOf tid)).filter fun c => c.tid = tid ∧ !c.orphan).length * 256 + (th s tid).ts

/-- `TOWN` as a thread reads it (R148). -/
def townWord (s : State) (tid : Nat) : Nat :=
  let w := (co s (coreOf tid)).town
  if w.hv then w.hts * 256 + b2n (tileXc s tid) * 32 + 16 + w.hold else 0

/-- `CTXID` (R338). -/
def ctxidWord (s : State) (n : Nat) : Nat := (cx s n).vmid * 2 ^ 16 + (cx s n).state.code * 2 ^ 8 + n % 256

/-- The value of a system register for the thread `s.cur`; none for an index that is not implemented. -/
def sregRead (s : State) (idx : Nat) : Option Word :=
  let t := me s
  let core := coreOf s.cur
  let c := co s core
  let x := cx s t.ctx
  let n (v : Nat) : Option Word := some (BitVec.ofNat 64 v)
  match idx with
  | 0x000 => n (cycleOf s core)
  | 0x001 => n t.u.flags.toNat
  | 0x002 => n t.u.frm
  | 0x003 => some t.u.wlim
  | 0x004 => n t.u.fmt.toNat
  | 0x005 => some t.u.scb
  | 0x006 => n (slotOf s.cur)
  | 0x007 => n (coreWord s core)
  | 0x008 => some t.u.lwb
  | 0x009 => n c.sp
  | 0x00A => some t.u.afpc
  | 0x00B => some t.u.afop
  | 0x00C => some t.u.afcode
  | 0x00D => some t.u.lapc
  | 0x100 => n t.v.vl
  | 0x101 => n t.v.vt
  | 0x102 => n t.v.vmt
  | 0x103 => some t.v.vrs
  | 0x104 => n t.v.vdm.toNat
  | 0x105 => n t.v.rows
  | 0x106 => n (mvlOf t.v.rows t.v.vt)
  | 0x107 => some t.v.wbase
  | 0x108 => some t.v.wctr
  | 0x180 => n c.cfg.tm
  | 0x181 => n c.cfg.tn
  | 0x182 => n c.cfg.tk
  | 0x183 => n c.cfg.tsa
  | 0x184 => n c.cfg.tsb
  | 0x185 => n c.cfg.tsca
  | 0x186 => n c.cfg.tscb
  | 0x187 => some c.cfg.tcc
  | 0x188 => n (tstatWord s s.cur)
  | 0x189 => n (townWord s s.cur)
  | 0x200 => some c.ncbase
  | 0x201 => some t.u.wval
  | 0x202 => n (b2n t.u.arr)
  | 0x280 => n (grpid s s.cur)
  | 0x281 => match memberOf s s.cur with
    | some (_, r) => n r
    | none => some (BitVec.allOnes 64)
  | 0x2C0 => n (c.ch.scope * 16 + b2n c.ch.en)
  | 0x2C1 => n (c.ch.done * 2 ^ 32 + b2n c.ch.sh * 16 + c.ch.state)
  | 0x300 => some x.lupd
  | 0x301 => n (s.dv * 16 + c.bv)
  | 0x800 => some t.sr.status
  | 0x801 => some t.sr.cause
  | 0x802 => some t.sr.epc
  | 0x803 => some t.sr.val
  | 0x804 => some t.sr.vec
  | 0x805 => some t.sr.scratch
  | 0x806 => some t.v.sdepth
  | 0x807 => n (sirOf s s.cur)
  | 0x808 => some t.sr.cmp
  | 0x880 => some x.sxlat
  | 0x881 => some x.sfqb
  | 0x882 => n x.sfqn
  | 0x883 => some x.sprq
  | 0x884 => some x.spra
  | 0x8C0 => n (ctxidWord s t.ctx)
  | 0x8C1 => some x.celb
  | 0x8C2 => n x.celn
  | 0x8C3 => some x.hmsg
  | 0xC00 => some t.hr.status
  | 0xC01 => some t.hr.cause
  | 0xC02 => some t.hr.epc
  | 0xC03 => some t.hr.val
  | 0xC04 => some t.hr.gpa
  | 0xC05 => some t.hr.deleg
  | 0xC06 => some t.hr.vec
  | 0xC07 => some t.hr.scratch
  | 0xC80 => some x.hgxlat
  | 0xC81 => some x.hprq
  | 0xC82 => some x.hpra
  | 0xC83 => n (b2n x.hostpt * 2 ^ 16 + x.cap)
  | 0xCC0 => n (padm s core)
  | 0xCC1 => some s.parts.preq
  | 0xCC2 => n (b2n s.parts.busy * 2 ^ 63 + s.parts.status.toNat)
  | 0xCC3 => some s.parts.ctxc
  | _ => none

/-! ### Writing -/

/-- How a write ends: done; illegal (R36 step 4, or a value that the register's map calls illegal); the thread holds,
from the state given; a trap was raised. -/
inductive SWr where
  | ok (s : State)
  | bad
  | hold
  | waits (s : State)
  | ends (s : State)

def isPow2 (n : Nat) : Bool := (List.range 17).any fun k => n == 2 ^ k

/-- A write of the thread's user registers. -/
def setU (s : State) (u : UserRegs) : SWr := .ok (setMe s { me s with u := u })
def setSr (s : State) (r : SupRegs) : SWr := .ok (setMe s { me s with sr := r })
def setHr (s : State) (r : HypRegs) : SWr := .ok (setMe s { me s with hr := r })
def setVr (s : State) (v : VecRegs) : SWr := .ok (setMe s { me s with v := v })
def setCxr (s : State) (c : Ctx) : SWr := .ok (setCx s (me s).ctx c)

/-- A write of `HPQC`: page requests that waited for room take entries (R297). -/
def grantsAfter (w : SWr) : SWr :=
  match w with
  | .ok s => .ok (grantWaits s)
  | w => w

/-- Does a request write a core's scratchpad: its own place for the bytes and the mask of a transfer, a rank of its group
that its destination reaches, or a receiver of a multicast (R270, R274, R276)? -/
def reqTargets (s : State) (core : Nat) (r : XReq) : Bool :=
  let p := planOf r
  let end_ := p.dst + p.count * p.unit + (if p.mask then 8 + (p.count + 7) / 8 else 0)
  if r.kind = .mcast then r.rcv.any fun x => x.1 == core
  else p.dmt == 1 || (p.dmt == 2 &&
    (List.range ((end_ - 1) / 2 ^ 19 - p.dst / 2 ^ 19 + 1)).any fun i =>
      rankCore s r.tid ((p.dst / 2 ^ 19 + i) % 4096) == some core)

/-- Does a running request of the core's channel write its scratchpad, or is a multicast that writes it under way (R214,
R276, R280)? Only a Busy channel's: a Paused multicast holds no core's write
(DEDUCED, log 51). -/
def spadTargeted (s : State) (core : Nat) : Bool :=
  let own : Bool := match (co s core).ch.req with
    | some r => reqTargets s core r
    | none => false
  ((co s core).ch.state == 2 && own) ||
  (s.cores.any fun e => e.2.ch.state == 2 && (match e.2.ch.req with
    | some r => r.kind == .mcast && r.rcv.any fun x => x.1 == core && x.2 < chunksOf (field r.desc 8 4) (field r.desc 12 4)
    | none => false)) ||
  s.mcasts.any fun m => m.left.contains core

/-- `SPSZ` (R81, R154, R214, R253, R276, R280): the write waits until the core's command queue is empty and no transfer
writes the scratchpad; the array is then rebuilt. -/
def writeSpsz (s : State) (v : Word) : SWr :=
  let core := coreOf s.cur
  let c := co s core
  let n := bits v 3 0
  if (me s).priv = .user ∨ 8 < n ∨ (8 - n) * 512 < haloUse s core then .bad
  else if spadTargeted s core ∨ !c.tq.isEmpty then .hold
  else if n = c.sp then .ok s
  else
    let gone (k : Nat) : Bool := spKey core (n * 0x10000) ≤ k && k < spKey (core + 1) 0
    let lost (l : Loc) : Bool := match l with | .spad d o => d == core && n * 0x10000 ≤ o | _ => false
    .ok (setCo { s with spads := s.spads.filter (fun e => !(gone e.1)), poison := s.poison.filter fun l => !(lost l) } core
      { c with sp := n, l1 := [] })

/-- Software writes 1 to `AFCODE.V`: the report ends, a Faulted channel of the movement thread is Idle, and a fault that
waited is reported (R84, R267). -/
def clearFault (s : State) : State :=
  let t := me s
  let core := coreOf s.cur
  let s := setMe s { t with u := { t.u with afcode := t.u.afcode &&& BitVec.ofNat 64 (2 ^ 63 - 1) } }
  let c := chOf s core
  let s := if slotOf s.cur = 15 ∧ c.en ∧ c.state = 4 then setCh s core { c with state := 1 } else s
  chReport (tileReport s core) core

/-- `SDEPTH` (R113). -/
def writeSdepth (s : State) (v : Word) : SWr :=
  let t := me s
  let n := bits v 5 0
  if 32 < n then .bad
  else if !t.v.queue.isEmpty then .hold
  else if freeRows s (coreOf s.cur) + t.v.rows < n then
    setVr s { t.v with sdepth := BitVec.ofNat 64 (256 + n) }
  else
    let s := vClear s s.cur
    setVr s { (me s).v with sdepth := BitVec.ofNat 64 n, rows := n, masks := [], vl := 0, vrs := 0, vdm := 0 }

/-- `VT` (R114). -/
def writeVt (s : State) (v : Word) : SWr :=
  let t := me s
  let n := bits v 3 0
  if n = 7 ∨ 12 ≤ n then .bad else setVr s { t.v with vt := n, vl := min t.v.vl (mvlOf t.v.rows n) }

/-- `TM` to `TCC` (R145, R146, R148). -/
def writeTile (s : State) (idx : Nat) (v : Word) : SWr :=
  let core := coreOf s.cur
  let c := co s core
  let n := bits v 12 0
  let off := bits v 18 2 * 4
  let put (f : TileCfg) : SWr :=
    if !(tq s core).isEmpty then .hold else .ok (tileDirty (setCo s core { c with cfg := f }) core)
  match idx with
  | 0x180 => if n = 0 ∨ 128 < n then .bad else put { c.cfg with tm := n }
  | 0x181 => if n = 0 ∨ 64 < n then .bad else put { c.cfg with tn := n }
  | 0x182 => if n = 0 ∨ 4096 < n then .bad else put { c.cfg with tk := n }
  | 0x183 => put { c.cfg with tsa := off }
  | 0x184 => put { c.cfg with tsb := off }
  | 0x185 => put { c.cfg with tsca := off }
  | 0x186 => put { c.cfg with tscb := off }
  | _ => if bits v 2 0 = 7 then .bad else put { c.cfg with tcc := v }

/-- `TSTAT` (R147): Off, or the hold taken in a state. -/
def writeTstat (s : State) (v : Word) (w : Nat) : SWr :=
  let core := coreOf s.cur
  let n := bits v 1 0
  let t := me s
  let town := (co s core).town
  if t.priv = .user then .bad
  else if n = 0 then .ok (setMe s { t with ts := 0 })
  else if t.priv = .sup ∧ tileXc s s.cur ∧ town.hts ≠ 1 then .ends (raise s 4 (BitVec.ofNat 64 w))
  else if !(tq s core).isEmpty then .hold
  else
    let s := if town.hv then let h := core * 16 + town.hold; setTh s h { th s h with ts := 0 } else s
    let s := setMe s { me s with ts := n }
    let s := setCo s core { co s core with town := { hv := true, hold := slotOf s.cur, hts := n, vmid := (cx s t.ctx).vmid } }
    .ok (if n = 1 then tileReset s core else s)

/-- `XCTR` (R265-R267). -/
def writeXctr (s : State) (v : Word) : SWr :=
  let core := coreOf s.cur
  let c := chOf s core
  let sc := bits v 6 4
  let x := (th s (core * 16 + 15)).state
  if (me s).priv = .user ∨ sc = 7 then .bad
  else if bit v 0 then
    if x ≠ .free ∧ x ≠ .stopped then .bad
    else .ok (setCh s core { c with en := true, scope := sc, state := if c.state = 0 then 1 else c.state })
  else if c.state = 2 then .hold
  else .ok (setCh s core { c with en := false, scope := sc, state := 0, req := none, fault := none })

/-- `SPRA` and `HPRA` post an answer (R285, R300). -/
def answerWord (v : Word) : Word := masked v 0x1FFFF0FFF

/-- A write to a system register by the thread `s.cur`; `w` is the word. Registers that are read-only here end as `bad`. -/
def sregWrite (s : State) (idx : Nat) (v : Word) (w : Nat) : SWr :=
  let t := me s
  let u := t.u
  let core := coreOf s.cur
  let c := co s core
  let x := cx s t.ctx
  match idx with
  | 0x001 => setU s { u with flags := BitVec.ofNat 5 v.toNat }
  | 0x002 => if 5 ≤ bits v 2 0 then .bad else setU s { u with frm := bits v 2 0 }
  | 0x003 => setU s { u with wlim := v }
  | 0x004 =>
    if u.lock ∨ 12 ≤ bits v 3 0 ∨ 12 ≤ bits v 7 4 ∨ 12 ≤ bits v 11 8 then .bad
    else setU s { u with fmt := BitVec.ofNat 12 v.toNat }
  | 0x005 => if u.lock then .bad else setU s { u with scb := v }
  | 0x008 => setU s { u with lwb := lwbFields v }
  | 0x009 => writeSpsz s v
  | 0x00B => setU s { u with afop := afopFields v }
  | 0x00C => if bit v 63 then .ok (clearFault s) else .ok s
  | 0x100 => if mvlOf t.v.rows t.v.vt < bits v 13 0 then .bad else setVr s { t.v with vl := bits v 13 0 }
  | 0x101 => writeVt s v
  | 0x102 => if 3 ≤ bits v 2 0 then .bad else setVr s { t.v with vmt := bits v 2 0 }
  | 0x103 => if t.v.queue.isEmpty then setVr s { t.v with vrs := vrsFields v } else .hold
  | 0x104 => if t.v.queue.isEmpty then setVr s { t.v with vdm := BitVec.ofNat 32 v.toNat } else .hold
  | 0x107 => setVr s { t.v with wbase := v }
  | 0x108 => if bits v 2 0 = 7 then .bad else setVr s { t.v with wctr := v }
  | 0x180 => writeTile s idx v
  | 0x181 => writeTile s idx v
  | 0x182 => writeTile s idx v
  | 0x183 => writeTile s idx v
  | 0x184 => writeTile s idx v
  | 0x185 => writeTile s idx v
  | 0x186 => writeTile s idx v
  | 0x187 => writeTile s idx v
  | 0x188 => writeTstat s v w
  | 0x200 => if t.priv = .user then .bad else .ok (setCo s core { c with ncbase := masked v 0xFFFFFFFFFFE00001 })
  | 0x201 => setU s { u with wval := v }
  | 0x202 => setU s { u with arr := bit v 0 }
  | 0x2C0 => writeXctr s v
  | 0x800 => setSr s { t.sr with status := sstatusFields v }
  | 0x801 => setSr s { t.sr with cause := causeFields v }
  | 0x802 => setSr s { t.sr with epc := v }
  | 0x803 => setSr s { t.sr with val := v }
  | 0x804 => setSr s { t.sr with vec := vecFields v }
  | 0x805 => setSr s { t.sr with scratch := v }
  | 0x806 => writeSdepth s v
  | 0x807 => setSr s { t.sr with en := BitVec.ofNat 5 (bits v 20 16), pend := t.sr.pend &&& ~~~(BitVec.ofNat 5 v.toNat) }
  | 0x808 => setSr s { t.sr with cmp := v }
  | 0x880 => if bits v 63 60 = 0 ∨ bits v 63 60 = 10 then setCxr s { x with sxlat := v } else .bad
  | 0x881 => setCxr s { x with sfqb := sfqbFields v }
  | 0x882 => if isPow2 (bits v 16 0) ∧ 16 ≤ bits v 16 0 then setCxr s { x with sfqn := bits v 16 0 } else .bad
  | 0x883 => if log2Ok v then setCxr s { x with sprq := prqFields v } else .bad
  | 0x884 => .ok (pageAnswer (setCx s t.ctx { x with spra := answerWord v }) 0 t.ctx (answerWord v))
  | 0x8C1 => setCxr s { x with celb := celbFields v }
  | 0x8C2 => if isPow2 (bits v 12 0) ∧ 16 ≤ bits v 12 0 then setCxr s { x with celn := bits v 12 0 } else .bad
  | 0xC00 =>
    let p := if bits v 9 8 = 1 then bits t.hr.status 9 8 else bits v 9 8
    setHr s { t.hr with status := BitVec.ofNat 64 (bits v 11 10 * 1024 + p * 256 + bits v 1 0) }
  | 0xC01 => setHr s { t.hr with cause := causeFields v }
  | 0xC02 => setHr s { t.hr with epc := v }
  | 0xC03 => setHr s { t.hr with val := v }
  | 0xC04 => setHr s { t.hr with gpa := v }
  | 0xC05 => setHr s { t.hr with deleg := masked v 0x1F0067FFEF }
  | 0xC06 => setHr s { t.hr with vec := vecFields v }
  | 0xC07 => setHr s { t.hr with scratch := v }
  | 0xC80 =>
    if (bits v 63 60 = 0 ∨ bits v 63 60 = 10) ∧ bits v 1 0 = 0 then setCxr s { x with hgxlat := masked v 0xF3FFFFFFFFFFFFFF }
    else .bad
  | 0xC81 => if log2Ok v then setCxr s { x with hprq := prqFields v } else .bad
  | 0xC82 => .ok (pageAnswer (setCx s t.ctx { x with hpra := answerWord v }) 1 x.part (answerWord v))
  | 0xC83 => if 4080 < bits v 12 0 then .bad
             else grantsAfter (setCxr s { x with cap := bits v 12 0, hostpt := bit v 16 })
  | 0xCC1 => if s.parts.busy then .bad else .ok (postRequest s core v)
  | 0xCC3 =>
    match ctxCommand s v with
    | none => .bad
    | some (st, s1) =>
      if st = 0 ∧ ctxcCmd v = 4 ∧ (cx s1 (ctxcCtx v)).suspending.isSome then .waits (setCtxc s1 v 0)
      else .ok (setCtxc s1 v st)
  | _ => .bad

/-! ### The SREG words (R36, R61) -/

/-- Steps 1 to 3 of the check of an access, with the gate of the tile registers (R36, R145, R146). -/
def sregGate (s : State) (idx w : Nat) : Option State :=
  let band := idx / 1024
  if band = 1 then some (illegal s w)
  else if (me s).priv = .user ∧ band ≠ 0 then some (raise s 3 (BitVec.ofNat 64 w))
  else if (me s).priv = .sup ∧ band = 3 then some (raise s 4 (BitVec.ofNat 64 w))
  else if (sregRead s idx).isNone then some (illegal s w)
  else if 0x180 ≤ idx ∧ idx ≤ 0x187 then tileGate s w false
  else none

/-- Does an access wait for the vector queue (R114)? -/
def sregWaits (s : State) (idx : Nat) : Bool := (idx == 0x103 || idx == 0x104) && !(me s).v.queue.isEmpty

/-- Is the CTXC write of the word at the pc waiting for a context to be Suspended (R353)? -/
def ctxcHolds (s : State) : Bool := (s.ctxs.any fun e => e.2.suspending = some s.cur)

/-- A write of a register by a word: the old value goes to d (R61). -/
def sregWord (s : State) (p : BitVec 1) (d : BitVec 5) (idx w : Nat) (f : Word → Option Word) : State :=
  match sregGate s idx w with
  | some s => s
  | none =>
    if sregWaits s idx then held s
    else if stageOf s = 1 then
      let old := match (me s).hold with | some h => h.a | none => 0
      let n := match (me s).hold with | some h => h.n | none => 0
      let s := suspendTry s n
      if ctxcHolds s then holdAt s 1 old 0 n else finish (wr s d old) p
    else
      let old := (sregRead s idx).getD 0
      match f old with
      | none => finish (wr s d old) p
      | some v =>
        match sregWrite s idx v w with
        | .ok s => finish (wr s d old) p
        | .bad => illegal s w
        | .hold => held s
        | .waits s => holdAt s 1 old 0 (ctxcCtx v)
        | .ends s => s

/-- `sread` (R61). -/
def execSread (p : BitVec 1) (d : BitVec 5) (imm : BitVec 12) (s : State) : Out :=
  .next (sregWord s p d imm.toNat (wordSread p d imm) fun _ => none)

/-- `swrite` (R61). -/
def execSwrite (p : BitVec 1) (d a : BitVec 5) (imm : BitVec 12) (s : State) : Out :=
  let v := rd s a
  .next (sregWord s p d imm.toNat (wordSwrite p d a imm) fun _ => some v)

/-- `sset` (R61): with g0, no write is made. -/
def execSset (p : BitVec 1) (d a : BitVec 5) (imm : BitVec 12) (s : State) : Out :=
  let v := rd s a
  .next (sregWord s p d imm.toNat (wordSset p d a imm) fun old => if a = 0 then none else some (old ||| v))

/-- `sclr` (R61): with g0, no write is made. -/
def execSclr (p : BitVec 1) (d a : BitVec 5) (imm : BitVec 12) (s : State) : Out :=
  let v := rd s a
  .next (sregWord s p d imm.toNat (wordSclr p d a imm) fun old => if a = 0 then none else some (old &&& ~~~v))

/-! ### Register writes that have rows of their own -/

/-- A write by the thread `s.cur` as an event: the write's own effect, when the thread may make it now. -/
def sregEvent (s : State) (idx : Nat) (v : Word) : Out :=
  .next (if (me s).state ≠ .ready ∨ (sregGate s idx 0).isSome ∨ sregWaits s idx then s
    else match sregWrite s idx v 0 with
      | .ok s => s
      | _ => s)

/-- `SPSZ_WRITE` (R81). -/
def execSpszWrite (val : Word) (s : State) : Out := sregEvent s 0x009 val

/-- `SDEPTH_WRITE` (R113). -/
def execSdepthWrite (val : Word) (s : State) : Out := sregEvent s 0x806 val

/-- `VT_WRITE` (R114). -/
def execVtWrite (val : Word) (s : State) : Out := sregEvent s 0x101 val

/-- `VECTOR_STATE_ACCESS` (R114): a write of `VRS` or `VDM`, which waits for the vector queue. -/
def execVectorStateAccess (idx : Nat) (val : Word) (s : State) : Out :=
  if idx = 0x103 ∨ idx = 0x104 then sregEvent s idx val else .next s

/-- `TSTAT_TAKE_HOLD` (R147): a value other than Off. -/
def execTstatTakeHold (val : Word) (s : State) : Out := if bits val 1 0 = 0 then .next s else sregEvent s 0x188 val

/-- `TSTAT_WRITE_OFF` (R147). -/
def execTstatWriteOff (s : State) : Out := sregEvent s 0x188 0

/-- `TILE_CONFIG_WRITE` (R148). -/
def execTileConfigWrite (idx : Nat) (val : Word) (s : State) : Out :=
  if 0x180 ≤ idx ∧ idx ≤ 0x187 then sregEvent s idx val else .next s

/-- `AFCODE_CLEAR` (R84). -/
def execAfcodeClear (s : State) : Out := sregEvent s 0x00C (BitVec.ofNat 64 (2 ^ 63))

/-- `XCTR_ENABLE` (R265): EN := 1. -/
def execXctrEnable (val : Word) (s : State) : Out := if bit val 0 then sregEvent s 0x2C0 val else .next s

/-- `XCTR_DISABLE` (R267): EN := 0. -/
def execXctrDisable (val : Word) (s : State) : Out := if bit val 0 then .next s else sregEvent s 0x2C0 val

end Sys2Proof.Machine
end

