-- ==== Sys2Proof/Machine/Traps.lean ====
section
/-! DEFINITION. Interrupts and the traps that no word of the thread raises: asynchronous faults and store faults; the
end of a `pause`; the timer (R54, R60, R81, R82, R84, R246, R247). -/

namespace Sys2Proof.Machine

/-- May an interrupt or an imprecise trap enter at a thread's bundle boundary now (R54, R59, R123, R160)? The state with
running holding vector work cut, a failed long result first reported by its own trap. -/
def boundary (s : State) (tid : Nat) : Option State :=
  let s := tileYield s tid
  let t := th s tid
  if t.waitMet ∨ t.due.isSome ∨ tileHoldsThread s tid ∨ killHolds t ∨ t.longs.any Long.open_ then none else vQuiet s tid

/-- The trap of a failed long result, when there is one, in place of `f` (R59). -/
def orFail (s : State) (tid : Nat) (f : State → State) : State :=
  if (th s tid).longs.any Long.bad then failTrap s tid else f s

/-- May the thread take an interrupt or an asynchronous trap in its slot state (R53)? -/
def canTake (t : Thread) : Bool := t.state == .ready || t.state == .parked || t.state == .dropped

/-- An interrupt taken; its trap value is not stated, and is a free value (log 4). -/
def takeInt (s : State) (tid code : Nat) : State :=
  let s := wakeFor s tid
  let (v, s) := free s
  let t := th s tid
  let s := enterTrap s tid (toHyp t true code) true 0 code t.pc v none
  let t := th s tid
  setTh s tid { t with sr := { t.sr with pend := t.sr.pend &&& ~~~(BitVec.ofNat 5 (2 ^ code)) } }

/-- `INTERRUPT_TAKE`: the lowest interrupt that qualifies is taken between bundles; an asynchronous fault goes first
(R54, R82). -/
def execInterruptTake (tid : Nat) (s : State) : Out :=
  match nextInt s tid with
  | none => .next s
  | some code =>
    .next (if !(canTake (th s tid)) ∨ (th s tid).asyncDue.isSome then s
      else match boundary s tid with
        | some s => orFail s tid fun s => takeInt s tid code
        | none => s)

/-- `ASYNC_FAULT_TRAP`: the owner of a reported copy or tile fault takes its trap, with `AFPC` as value (R83, R84). -/
def execAsyncFaultTrap (tid : Nat) (s : State) : Out :=
  match (th s tid).asyncDue with
  | none => .next s
  | some c =>
    .next (if !(canTake (th s tid)) then s
      else match boundary s tid with
        | some s =>
          orFail s tid fun s =>
            let s := wakeFor s tid
            let t := th s tid
            let s := enterTrap s tid (toHyp t false c) false 0 c t.pc t.u.afpc none
            setTh s tid { th s tid with asyncDue := none }
        | none => s)

/-- The store-fault trap that a thread takes at its next issue: whether it goes to the hypervisor whatever is delegated,
its cause, value and guest address (R246, R247). -/
def storeTrap (t : Thread) : Option (Bool × Nat × Word × Option Word) :=
  match t.sfRing with
  | some g => some (true, 20, g, some g)
  | none =>
    match t.sfSeq with
    | some n => some (t.sfHyp.isSome, 8, BitVec.ofNat 64 (n % 2 ^ 63), none)
    | none =>
      if t.sfPend then some (false, 8, BitVec.ofNat 64 (2 ^ 63), none)
      else if t.sfNone then some (false, 8, BitVec.ofNat 64 (2 ^ 63 + 2 ^ 62), none)
      else none

/-- Is a thread held in a word that reports store faults at the bundle after it: `st.drain` holds back every report
(R248), `fence` and `thr.save` the report of a store that was recorded or discarded (R78, R259)? -/
def reportHeld (t : Thread) : Bool :=
  match t.hold with
  | some h => h.pc == t.pc && (h.stage == drainStage ||
      ((h.stage == fenceStage || h.stage == saveStage) && !t.sfPend && t.sfRing.isNone))
  | none => false

/-- The report that a store-fault trap makes is done. -/
def storeReported (t : Thread) : Thread :=
  if t.sfRing.isSome then { t with sfRing := none }
  else if t.sfSeq.isSome then { t with sfSeq := none, sfHyp := none }
  else if t.sfPend then { t with sfPend := false }
  else { t with sfNone := false }

/-- `STORE_FAULT_TRAP`: a thread whose store was recorded, is pending or was discarded takes cause 8, or 20, at its next
issue (R246, R247). -/
def execStoreFaultTrap (tid : Nat) (s : State) : Out :=
  match storeTrap (th s tid) with
  | none => .next s
  | some (h, c, v, g) =>
    .next (if (th s tid).state ≠ .ready ∨ reportHeld (th s tid) then s
      else match boundary s tid with
        | some s =>
          orFail s tid fun s =>
            let s := setTh s tid (storeReported (th s tid))
            let t := th s tid
            enterTrap s tid (h || toHyp t false c) false 0 c t.pc v (g.map fun x => (x, false, false))
        | none => s)

/-- `PAUSE_EXPIRY`: the count of a `pause` runs out (R60). -/
def execPauseExpiry (tid : Nat) (s : State) : Out :=
  let t := th s tid
  match t.pauseUntil with
  | some c => .next (setTh { s with cycle := max s.cycle c } tid { t with pauseUntil := none })
  | none => .next s

/-- `TIMER_COMPARE`: `CYCLE` reaches `SCMP`, and the timer interrupt of the thread is pending (R81). -/
def execTimerCompare (tid : Nat) (s : State) : Out :=
  .next { s with cycle := max s.cycle ((co s (coreOf tid)).base + (th s tid).sr.cmp.toNat) }

end Sys2Proof.Machine
end

