-- ==== Sys2Proof/Machine/Dispatch.lean ====
section
/-! DEFINITION. Which meaning each instruction has: one arm per constructor. A word's meaning is its effect for the
thread `s.cur` alone; what the bundle adds (fetch, the lookahead rule, the partner) is in Machine/Issue.lean. -/

namespace Sys2Proof.Machine

def exec (i : Instr) (s : State) : Host.Outcome State Fault Refusal :=
  match i with
  | .longResultWrite tid n => Sys2Proof.Machine.execLongResultWrite tid n s
  | .pauseExpiry tid => Sys2Proof.Machine.execPauseExpiry tid s
  | .timerCompare tid => Sys2Proof.Machine.execTimerCompare tid s
  | .interruptTake tid => Sys2Proof.Machine.execInterruptTake tid s
  | .asyncFaultTrap tid => Sys2Proof.Machine.execAsyncFaultTrap tid s
  | .storeFaultTrap tid => Sys2Proof.Machine.execStoreFaultTrap tid s
  | .stopComplete tid => Sys2Proof.Machine.execStopComplete tid s
  | .thrEndComplete tid => Sys2Proof.Machine.execThrEndComplete tid s
  | .gafferSpawn num places => Sys2Proof.Machine.execGafferSpawn num places s
  | .laneBeat core => Sys2Proof.Machine.execLaneBeat core s
  | .vectorElementAccess tid => Sys2Proof.Machine.execVectorElementAccess tid s
  | .marverGrant bench => Sys2Proof.Machine.execMarverGrant bench s
  | .marverStep bench => Sys2Proof.Machine.execMarverStep bench s
  | .marverCommandComplete bench => Sys2Proof.Machine.execMarverCommandComplete bench s
  | .counterOpAtHome n => Sys2Proof.Machine.execCounterOpAtHome n s
  | .wakeMessage n => Sys2Proof.Machine.execWakeMessage n s
  | .waitReread tid => Sys2Proof.Machine.execWaitReread tid s
  | .waiterPoll tid => Sys2Proof.Machine.execWaiterPoll tid s
  | .waiterEvict n => Sys2Proof.Machine.execWaiterEvict n s
  | .waitTimeout tid => Sys2Proof.Machine.execWaitTimeout tid s
  | .storeCheck tid => Sys2Proof.Machine.execStoreCheck tid s
  | .pendingRecordWrite tid => Sys2Proof.Machine.execPendingRecordWrite tid s
  | .storeArriveHome tid n => Sys2Proof.Machine.execStoreArriveHome tid n s
  | .amoAtHome n => Sys2Proof.Machine.execAmoAtHome n s
  | .redAtHome tid n => Sys2Proof.Machine.execRedAtHome tid n s
  | .lineEvict core line => Sys2Proof.Machine.execLineEvict core line s
  | .hostCxlSnoop line inval data => Sys2Proof.Machine.execHostCxlSnoop line inval data s
  | .hostCxlMemAccess pa write data => Sys2Proof.Machine.execHostCxlMemAccess pa write data s
  | .copyChunk core => Sys2Proof.Machine.execCopyChunk core s
  | .mcastStreamJoin core => Sys2Proof.Machine.execMcastStreamJoin core s
  | .mcastReceiverChunk core rcv => Sys2Proof.Machine.execMcastReceiverChunk core rcv s
  | .grpMcastDelivery n rcv => Sys2Proof.Machine.execGrpMcastDelivery n rcv s
  | .reductionResult core data => Sys2Proof.Machine.execReductionResult core data s
  | .roundAbandon core => Sys2Proof.Machine.execRoundAbandon core s
  | .pageWalk tid va kind => Sys2Proof.Machine.execPageWalk tid va kind s
  | .pageRequestRecordWrite ent => Sys2Proof.Machine.execPageRequestRecordWrite ent s
  | .pageAnswerRetry own ring ans => Sys2Proof.Machine.execPageAnswerRetry own ring ans s
  | .pageAnswerRefuse own ring ans => Sys2Proof.Machine.execPageAnswerRefuse own ring ans s
  | .hostFenceMessage vf off data => Sys2Proof.Machine.execHostFenceMessage vf off data s
  | .hostFenceAck n => Sys2Proof.Machine.execHostFenceAck n s
  | .hostQueueWindowWrite vf q off data => Sys2Proof.Machine.execHostQueueWindowWrite vf q off data s
  | .frameReceive port data => Sys2Proof.Machine.execFrameReceive port data s
  | .kernelBind num => Sys2Proof.Machine.execKernelBind num s
  | .kernelAdmit num => Sys2Proof.Machine.execKernelAdmit num s
  | .kernelEndSequence num => Sys2Proof.Machine.execKernelEndSequence num s
  | .create arg => Sys2Proof.Machine.execCreate arg s
  | .ready arg => Sys2Proof.Machine.execReady arg s
  | .start arg => Sys2Proof.Machine.execStart arg s
  | .suspend arg => Sys2Proof.Machine.execSuspend arg s
  | .suspendComplete ctx => Sys2Proof.Machine.execSuspendComplete ctx s
  | .resume arg => Sys2Proof.Machine.execResume arg s
  | .destroy arg => Sys2Proof.Machine.execDestroy arg s
  | .scrubComplete ctx => Sys2Proof.Machine.execScrubComplete ctx s
  | .sealJobStart job => Sys2Proof.Machine.execSealJobStart job s
  | .restoreJobStart job => Sys2Proof.Machine.execRestoreJobStart job s
  | .leaseRequest job lin lctr restore quote => Sys2Proof.Machine.execLeaseRequest job lin lctr restore quote s
  | .keyRelease job key sealer => Sys2Proof.Machine.execKeyRelease job key sealer s
  | .commitRequest job lin lctr => Sys2Proof.Machine.execCommitRequest job lin lctr s
  | .commitAck job ok => Sys2Proof.Machine.execCommitAck job ok s
  | .leaseExpiry lin => Sys2Proof.Machine.execLeaseExpiry lin s
  | .homeAnswerTimeout job => Sys2Proof.Machine.execHomeAnswerTimeout job s
  | .update => Sys2Proof.Machine.execUpdate s
  | .reshape => Sys2Proof.Machine.execReshape s
  | .reshapeDrainComplete => Sys2Proof.Machine.execReshapeDrainComplete s
  | .spszWrite val => Sys2Proof.Machine.execSpszWrite val s
  | .sdepthWrite val => Sys2Proof.Machine.execSdepthWrite val s
  | .vtWrite val => Sys2Proof.Machine.execVtWrite val s
  | .vectorStateAccess idx val => Sys2Proof.Machine.execVectorStateAccess idx val s
  | .tstatTakeHold val => Sys2Proof.Machine.execTstatTakeHold val s
  | .tstatWriteOff => Sys2Proof.Machine.execTstatWriteOff s
  | .tileConfigWrite idx val => Sys2Proof.Machine.execTileConfigWrite idx val s
  | .afcodeClear => Sys2Proof.Machine.execAfcodeClear s
  | .xctrEnable val => Sys2Proof.Machine.execXctrEnable val s
  | .xctrDisable val => Sys2Proof.Machine.execXctrDisable val s
  | .hostCounterWindowWrite vf ent val => Sys2Proof.Machine.execHostCounterWindowWrite vf ent val s
  | .hostArmWrite vf ent val => Sys2Proof.Machine.execHostArmWrite vf ent val s
  | .hostDoorbell vf val => Sys2Proof.Machine.execHostDoorbell vf val s
  | .counterTableWrite vf ent val => Sys2Proof.Machine.execCounterTableWrite vf ent val s
  | .hostRegisterWrite fn off val => Sys2Proof.Machine.execHostRegisterWrite fn off val s
  | .portEnable data => Sys2Proof.Machine.execPortEnable data s
  | .portFence data => Sys2Proof.Machine.execPortFence data s
  | .portUnfence data => Sys2Proof.Machine.execPortUnfence data s
  | .portReset data => Sys2Proof.Machine.execPortReset data s
  | .laneLock port lanes => Sys2Proof.Machine.execLaneLock port lanes s
  | .trainingTimeout port => Sys2Proof.Machine.execTrainingTimeout port s
  | .retrainTrigger port lost => Sys2Proof.Machine.execRetrainTrigger port lost s
  | .flitCrcFail port copies => Sys2Proof.Machine.execFlitCrcFail port copies s
  | .pathTimeout n => Sys2Proof.Machine.execPathTimeout n s
  | .remoteAccessReceive src spart kind pa data => Sys2Proof.Machine.execRemoteAccessReceive src spart kind pa data s
  | .mctpControl data => Sys2Proof.Machine.execMctpControl data s
  | .getVersion => Sys2Proof.Machine.execGetVersion s
  | .getCapabilities data => Sys2Proof.Machine.execGetCapabilities data s
  | .negotiateAlgorithms data => Sys2Proof.Machine.execNegotiateAlgorithms data s
  | .getDigests => Sys2Proof.Machine.execGetDigests s
  | .getCertificate slot off len => Sys2Proof.Machine.execGetCertificate slot off len s
  | .challenge slot nonce => Sys2Proof.Machine.execChallenge slot nonce s
  | .getMeasurements blk nonce ctx => Sys2Proof.Machine.execGetMeasurements blk nonce ctx s
  | .fwOpen data => Sys2Proof.Machine.execFwOpen data s
  | .fwData head data => Sys2Proof.Machine.execFwData head data s
  | .fwCommit data => Sys2Proof.Machine.execFwCommit data s
  | .authKey data => Sys2Proof.Machine.execAuthKey data s
  | .plan data => Sys2Proof.Machine.execPlan data s
  | .pkgNum data => Sys2Proof.Machine.execPkgNum data s
  | .route data => Sys2Proof.Machine.execRoute data s
  | .domain data => Sys2Proof.Machine.execDomain data s
  | .xgroup data => Sys2Proof.Machine.execXgroup data s
  | .ethAddr data => Sys2Proof.Machine.execEthAddr data s
  | .ethRule data => Sys2Proof.Machine.execEthRule data s
  | .partReset data => Sys2Proof.Machine.execPartReset data s
  | .coreReset data => Sys2Proof.Machine.execCoreReset data s
  | .packageReset verified => Sys2Proof.Machine.execPackageReset verified s
  | .powerUp verified => Sys2Proof.Machine.execPowerUp verified s
  | .powerCapTick watts => Sys2Proof.Machine.execPowerCapTick watts s
  | .thermalSample bench benchT stack stackT => Sys2Proof.Machine.execThermalSample bench benchT stack stackT s
  | .marginReplan bench mv => Sys2Proof.Machine.execMarginReplan bench mv s
  | .errorDetect kind addr lasting => Sys2Proof.Machine.execErrorDetect kind addr lasting s
  | .lehrRestart => Sys2Proof.Machine.execLehrRestart s
  | .powerLoss lin new => Sys2Proof.Machine.execPowerLoss lin new s
  | .blockDeviceAcknowledge lin => Sys2Proof.Machine.execBlockDeviceAcknowledge lin s
  | .leaseRefused job code => Sys2Proof.Machine.execLeaseRefused job code s
  | .translationDrop n => Sys2Proof.Machine.execTranslationDrop n s
  | .svc => Sys2Proof.Machine.execSvc s
  | .brk => Sys2Proof.Machine.execBrk s
  | .tret => Sys2Proof.Machine.execTret s
  | .pause a => Sys2Proof.Machine.execPause a s
  | .sread p d imm => Sys2Proof.Machine.execSread p d imm s
  | .swrite p d a imm => Sys2Proof.Machine.execSwrite p d a imm s
  | .sset p d a imm => Sys2Proof.Machine.execSset p d a imm s
  | .sclr p d a imm => Sys2Proof.Machine.execSclr p d a imm s
  | .beq p a b off => Sys2Proof.Machine.execBeq p a b off s
  | .bne p a b off => Sys2Proof.Machine.execBne p a b off s
  | .blt p a b off => Sys2Proof.Machine.execBlt p a b off s
  | .bge p a b off => Sys2Proof.Machine.execBge p a b off s
  | .bltu p a b off => Sys2Proof.Machine.execBltu p a b off s
  | .bgeu p a b off => Sys2Proof.Machine.execBgeu p a b off s
  | .jal p d off => Sys2Proof.Machine.execJal p d off s
  | .jalr p d a imm => Sys2Proof.Machine.execJalr p d a imm s
  | .ldb p d a la imm => Sys2Proof.Machine.execLdb p d a la imm s
  | .ldh p d a la imm => Sys2Proof.Machine.execLdh p d a la imm s
  | .ldw p d a la imm => Sys2Proof.Machine.execLdw p d a la imm s
  | .ldd p d a la imm => Sys2Proof.Machine.execLdd p d a la imm s
  | .ldbu p d a la imm => Sys2Proof.Machine.execLdbu p d a la imm s
  | .ldhu p d a la imm => Sys2Proof.Machine.execLdhu p d a la imm s
  | .ldwu p d a la imm => Sys2Proof.Machine.execLdwu p d a la imm s
  | .stb p d a imm => Sys2Proof.Machine.execStb p d a imm s
  | .sth p d a imm => Sys2Proof.Machine.execSth p d a imm s
  | .stw p d a imm => Sys2Proof.Machine.execStw p d a imm s
  | .std p d a imm => Sys2Proof.Machine.execStd p d a imm s
  | .pcadd p d imm => Sys2Proof.Machine.execPcadd p d imm s
  | .ldhi d imm => Sys2Proof.Machine.execLdhi d imm s
  | .add d a b => Sys2Proof.Machine.execAdd d a b s
  | .sub d a b => Sys2Proof.Machine.execSub d a b s
  | .and d a b => Sys2Proof.Machine.execAnd d a b s
  | .or d a b => Sys2Proof.Machine.execOr d a b s
  | .xor d a b => Sys2Proof.Machine.execXor d a b s
  | .andn d a b => Sys2Proof.Machine.execAndn d a b s
  | .orn d a b => Sys2Proof.Machine.execOrn d a b s
  | .sll d a b => Sys2Proof.Machine.execSll d a b s
  | .srl d a b => Sys2Proof.Machine.execSrl d a b s
  | .sra d a b => Sys2Proof.Machine.execSra d a b s
  | .slt d a b => Sys2Proof.Machine.execSlt d a b s
  | .sltu d a b => Sys2Proof.Machine.execSltu d a b s
  | .min d a b => Sys2Proof.Machine.execMin d a b s
  | .max d a b => Sys2Proof.Machine.execMax d a b s
  | .minu d a b => Sys2Proof.Machine.execMinu d a b s
  | .maxu d a b => Sys2Proof.Machine.execMaxu d a b s
  | .mul d a b => Sys2Proof.Machine.execMul d a b s
  | .mulh d a b q => Sys2Proof.Machine.execMulh d a b q s
  | .mulhu d a b q => Sys2Proof.Machine.execMulhu d a b q s
  | .div d a b q => Sys2Proof.Machine.execDiv d a b q s
  | .divu d a b q => Sys2Proof.Machine.execDivu d a b q s
  | .rem d a b q => Sys2Proof.Machine.execRem d a b q s
  | .remu d a b q => Sys2Proof.Machine.execRemu d a b q s
  | .addw d a b => Sys2Proof.Machine.execAddw d a b s
  | .subw d a b => Sys2Proof.Machine.execSubw d a b s
  | .clz d a => Sys2Proof.Machine.execClz d a s
  | .ctz d a => Sys2Proof.Machine.execCtz d a s
  | .cpop d a => Sys2Proof.Machine.execCpop d a s
  | .rol d a b => Sys2Proof.Machine.execRol d a b s
  | .ror d a b => Sys2Proof.Machine.execRor d a b s
  | .addi d a imm => Sys2Proof.Machine.execAddi d a imm s
  | .slti d a imm => Sys2Proof.Machine.execSlti d a imm s
  | .sltiu d a imm => Sys2Proof.Machine.execSltiu d a imm s
  | .xori d a imm => Sys2Proof.Machine.execXori d a imm s
  | .ori d a imm => Sys2Proof.Machine.execOri d a imm s
  | .andi d a imm => Sys2Proof.Machine.execAndi d a imm s
  | .slli d a sh => Sys2Proof.Machine.execSlli d a sh s
  | .srli d a sh => Sys2Proof.Machine.execSrli d a sh s
  | .srai d a sh => Sys2Proof.Machine.execSrai d a sh s
  | .addiw d a imm => Sys2Proof.Machine.execAddiw d a imm s
  | .faddS d a b => Sys2Proof.Machine.execFaddS d a b s
  | .fsubS d a b => Sys2Proof.Machine.execFsubS d a b s
  | .fmulS d a b => Sys2Proof.Machine.execFmulS d a b s
  | .fdivS d a b q => Sys2Proof.Machine.execFdivS d a b q s
  | .fsqrtS d a q => Sys2Proof.Machine.execFsqrtS d a q s
  | .fminS d a b => Sys2Proof.Machine.execFminS d a b s
  | .fmaxS d a b => Sys2Proof.Machine.execFmaxS d a b s
  | .fmaddS d a b => Sys2Proof.Machine.execFmaddS d a b s
  | .feqS d a b => Sys2Proof.Machine.execFeqS d a b s
  | .fltS d a b => Sys2Proof.Machine.execFltS d a b s
  | .fleS d a b => Sys2Proof.Machine.execFleS d a b s
  | .fclassS d a => Sys2Proof.Machine.execFclassS d a s
  | .fcvtSd d a => Sys2Proof.Machine.execFcvtSd d a s
  | .fcvtDs d a => Sys2Proof.Machine.execFcvtDs d a s
  | .fcvtSl d a => Sys2Proof.Machine.execFcvtSl d a s
  | .fcvtLs d a => Sys2Proof.Machine.execFcvtLs d a s
  | .fcvtDl d a => Sys2Proof.Machine.execFcvtDl d a s
  | .fcvtLd d a => Sys2Proof.Machine.execFcvtLd d a s
  | .faddD d a b => Sys2Proof.Machine.execFaddD d a b s
  | .fsubD d a b => Sys2Proof.Machine.execFsubD d a b s
  | .fmulD d a b => Sys2Proof.Machine.execFmulD d a b s
  | .fdivD d a b q => Sys2Proof.Machine.execFdivD d a b q s
  | .fsqrtD d a q => Sys2Proof.Machine.execFsqrtD d a q s
  | .fminD d a b => Sys2Proof.Machine.execFminD d a b s
  | .fmaxD d a b => Sys2Proof.Machine.execFmaxD d a b s
  | .fmaddD d a b => Sys2Proof.Machine.execFmaddD d a b s
  | .feqD d a b => Sys2Proof.Machine.execFeqD d a b s
  | .fltD d a b => Sys2Proof.Machine.execFltD d a b s
  | .fleD d a b => Sys2Proof.Machine.execFleD d a b s
  | .fclassD d a => Sys2Proof.Machine.execFclassD d a s
  | .thrSpawn p d a b => Sys2Proof.Machine.execThrSpawn p d a b s
  | .thrEnd p => Sys2Proof.Machine.execThrEnd p s
  | .thrSelf p d => Sys2Proof.Machine.execThrSelf p d s
  | .thrStop p d a => Sys2Proof.Machine.execThrStop p d a s
  | .thrGo p d a => Sys2Proof.Machine.execThrGo p d a s
  | .thrSave p d a b => Sys2Proof.Machine.execThrSave p d a b s
  | .thrLoad p d a b => Sys2Proof.Machine.execThrLoad p d a b s
  | .vset p d a t => Sys2Proof.Machine.execVset p d a t s
  | .vsetmt p d t => Sys2Proof.Machine.execVsetmt p d t s
  | .vld p d a ew k => Sys2Proof.Machine.execVld p d a ew k s
  | .vlds p d a b ew k => Sys2Proof.Machine.execVlds p d a b ew k s
  | .vldx p d a b ew k => Sys2Proof.Machine.execVldx p d a b ew k s
  | .vldff p d a ew k => Sys2Proof.Machine.execVldff p d a ew k s
  | .vldg p d a b ew k => Sys2Proof.Machine.execVldg p d a b ew k s
  | .vldb p d a ew k => Sys2Proof.Machine.execVldb p d a ew k s
  | .vst p d a ew k => Sys2Proof.Machine.execVst p d a ew k s
  | .vsts p d a b ew k => Sys2Proof.Machine.execVsts p d a b ew k s
  | .vstx p d a b ew k => Sys2Proof.Machine.execVstx p d a b ew k s
  | .vstxa p d a b ew k => Sys2Proof.Machine.execVstxa p d a b ew k s
  | .vstxf p d a b ew k => Sys2Proof.Machine.execVstxf p d a b ew k s
  | .vadd d a b k sb => Sys2Proof.Machine.execVadd d a b k sb s
  | .vsub d a b k sb => Sys2Proof.Machine.execVsub d a b k sb s
  | .vmul d a b k sb => Sys2Proof.Machine.execVmul d a b k sb s
  | .vmulh d a b k sb => Sys2Proof.Machine.execVmulh d a b k sb s
  | .vmin d a b k sb => Sys2Proof.Machine.execVmin d a b k sb s
  | .vmax d a b k sb => Sys2Proof.Machine.execVmax d a b k sb s
  | .vminu d a b k sb => Sys2Proof.Machine.execVminu d a b k sb s
  | .vmaxu d a b k sb => Sys2Proof.Machine.execVmaxu d a b k sb s
  | .vand d a b k sb => Sys2Proof.Machine.execVand d a b k sb s
  | .vor d a b k sb => Sys2Proof.Machine.execVor d a b k sb s
  | .vxor d a b k sb => Sys2Proof.Machine.execVxor d a b k sb s
  | .vsll d a b k sb => Sys2Proof.Machine.execVsll d a b k sb s
  | .vsrl d a b k sb => Sys2Proof.Machine.execVsrl d a b k sb s
  | .vsra d a b k sb => Sys2Proof.Machine.execVsra d a b k sb s
  | .vsadd d a b k sb => Sys2Proof.Machine.execVsadd d a b k sb s
  | .vssub d a b k sb => Sys2Proof.Machine.execVssub d a b k sb s
  | .vmacc d a b k sb => Sys2Proof.Machine.execVmacc d a b k sb s
  | .vdot4 d a b k sb => Sys2Proof.Machine.execVdot4 d a b k sb s
  | .vfadd d a b k sb => Sys2Proof.Machine.execVfadd d a b k sb s
  | .vfsub d a b k sb => Sys2Proof.Machine.execVfsub d a b k sb s
  | .vfmul d a b k sb => Sys2Proof.Machine.execVfmul d a b k sb s
  | .vfdiv d a b k sb => Sys2Proof.Machine.execVfdiv d a b k sb s
  | .vfsqrt d a k => Sys2Proof.Machine.execVfsqrt d a k s
  | .vfmin d a b k sb => Sys2Proof.Machine.execVfmin d a b k sb s
  | .vfmax d a b k sb => Sys2Proof.Machine.execVfmax d a b k sb s
  | .vfma d a b k sb => Sys2Proof.Machine.execVfma d a b k sb s
  | .vfnma d a b k sb => Sys2Proof.Machine.execVfnma d a b k sb s
  | .vfabs d a k => Sys2Proof.Machine.execVfabs d a k s
  | .vfneg d a k => Sys2Proof.Machine.execVfneg d a k s
  | .vceq d a b k sb => Sys2Proof.Machine.execVceq d a b k sb s
  | .vcne d a b k sb => Sys2Proof.Machine.execVcne d a b k sb s
  | .vclt d a b k sb => Sys2Proof.Machine.execVclt d a b k sb s
  | .vcle d a b k sb => Sys2Proof.Machine.execVcle d a b k sb s
  | .vcltu d a b k sb => Sys2Proof.Machine.execVcltu d a b k sb s
  | .vcleu d a b k sb => Sys2Proof.Machine.execVcleu d a b k sb s
  | .vfceq d a b k sb => Sys2Proof.Machine.execVfceq d a b k sb s
  | .vfclt d a b k sb => Sys2Proof.Machine.execVfclt d a b k sb s
  | .vfcle d a b k sb => Sys2Proof.Machine.execVfcle d a b k sb s
  | .vfcun d a b k sb => Sys2Proof.Machine.execVfcun d a b k sb s
  | .mand d a b => Sys2Proof.Machine.execMand d a b s
  | .mor d a b => Sys2Proof.Machine.execMor d a b s
  | .mxor d a b => Sys2Proof.Machine.execMxor d a b s
  | .mandn d a b => Sys2Proof.Machine.execMandn d a b s
  | .mnot d a => Sys2Proof.Machine.execMnot d a s
  | .mpop d a k => Sys2Proof.Machine.execMpop d a k s
  | .mfirst d a k => Sys2Proof.Machine.execMfirst d a k s
  | .miota d a k => Sys2Proof.Machine.execMiota d a k s
  | .mset d a => Sys2Proof.Machine.execMset d a s
  | .vredsum d a b k sb => Sys2Proof.Machine.execVredsum d a b k sb s
  | .vredmin d a b k sb => Sys2Proof.Machine.execVredmin d a b k sb s
  | .vredmax d a b k sb => Sys2Proof.Machine.execVredmax d a b k sb s
  | .vfredo d a b k sb => Sys2Proof.Machine.execVfredo d a b k sb s
  | .vfredt d a b k sb => Sys2Proof.Machine.execVfredt d a b k sb s
  | .vfredmin d a b k sb => Sys2Proof.Machine.execVfredmin d a b k sb s
  | .vfredmax d a b k sb => Sys2Proof.Machine.execVfredmax d a b k sb s
  | .vslup d a b k => Sys2Proof.Machine.execVslup d a b k s
  | .vsldn d a b k => Sys2Proof.Machine.execVsldn d a b k s
  | .vrgather d a b k => Sys2Proof.Machine.execVrgather d a b k s
  | .vcompress d a k => Sys2Proof.Machine.execVcompress d a k s
  | .vbcast d a b k => Sys2Proof.Machine.execVbcast d a b k s
  | .vmvgv d a b => Sys2Proof.Machine.execVmvgv d a b s
  | .vmvvg d a b => Sys2Proof.Machine.execVmvvg d a b s
  | .vid d k => Sys2Proof.Machine.execVid d k s
  | .vmerge d a b k sb => Sys2Proof.Machine.execVmerge d a b k sb s
  | .vmv d b k sb => Sys2Proof.Machine.execVmv d b k sb s
  | .vcvtN d a t k => Sys2Proof.Machine.execVcvtN d a t k s
  | .vcvtW d a t k => Sys2Proof.Machine.execVcvtW d a t k s
  | .vcvtFi d a t k => Sys2Proof.Machine.execVcvtFi d a t k s
  | .vcvtIf d a t k => Sys2Proof.Machine.execVcvtIf d a t k s
  | .vcvtQ4 d a b => Sys2Proof.Machine.execVcvtQ4 d a b s
  | .vcvtQ8 d a b => Sys2Proof.Machine.execVcvtQ8 d a b s
  | .tileZero p t c => Sys2Proof.Machine.execTileZero p t c s
  | .tileLd p t c a b y => Sys2Proof.Machine.execTileLd p t c a b y s
  | .tileSt p t c a b y => Sys2Proof.Machine.execTileSt p t c a b y s
  | .tileLdx p t c a b y => Sys2Proof.Machine.execTileLdx p t c a b y s
  | .tileStx p t c a b y => Sys2Proof.Machine.execTileStx p t c a b y s
  | .tileStxa p t c a b y => Sys2Proof.Machine.execTileStxa p t c a b y s
  | .tileMma p t c a b y => Sys2Proof.Machine.execTileMma p t c a b y s
  | .tileMmax p t c a b y => Sys2Proof.Machine.execTileMmax p t c a b y s
  | .tileGmma p t c a b y => Sys2Proof.Machine.execTileGmma p t c a b y s
  | .tileRowv p t c a v y => Sys2Proof.Machine.execTileRowv p t c a v y s
  | .tileVrow p t c a v y => Sys2Proof.Machine.execTileVrow p t c a v y s
  | .tileQ p t c a b y => Sys2Proof.Machine.execTileQ p t c a b y s
  | .tileChol p t c => Sys2Proof.Machine.execTileChol p t c s
  | .tileTrsm p t c ts => Sys2Proof.Machine.execTileTrsm p t c ts s
  | .tileRel p => Sys2Proof.Machine.execTileRel p s
  | .ctrAdd p a b sc => Sys2Proof.Machine.execCtrAdd p a b sc s
  | .ctrFadd p d a b la sc => Sys2Proof.Machine.execCtrFadd p d a b la sc s
  | .ctrWait p a b sc => Sys2Proof.Machine.execCtrWait p a b sc s
  | .ctrTest p d a b la sc => Sys2Proof.Machine.execCtrTest p d a b la sc s
  | .ctrRead p d a la => Sys2Proof.Machine.execCtrRead p d a la s
  | .ctrArrive p k a sc => Sys2Proof.Machine.execCtrArrive p k a sc s
  | .ctrAw p k a b sc => Sys2Proof.Machine.execCtrAw p k a b sc s
  | .ctrReset p a sc => Sys2Proof.Machine.execCtrReset p a sc s
  | .ctrVadd p k a b sc => Sys2Proof.Machine.execCtrVadd p k a b sc s
  | .ctrArm p d a b => Sys2Proof.Machine.execCtrArm p d a b s
  | .ctrHome p d a b la => Sys2Proof.Machine.execCtrHome p d a b la s
  | .grpNew p d a => Sys2Proof.Machine.execGrpNew p d a s
  | .grpJoin p d a b => Sys2Proof.Machine.execGrpJoin p d a b s
  | .grpLeave p d => Sys2Proof.Machine.execGrpLeave p d s
  | .grpSize p d a => Sys2Proof.Machine.execGrpSize p d a s
  | .grpRank p d => Sys2Proof.Machine.execGrpRank p d s
  | .grpPin p d a => Sys2Proof.Machine.execGrpPin p d a s
  | .grpUnpin p d a => Sys2Proof.Machine.execGrpUnpin p d a s
  | .grpMcast p d a b => Sys2Proof.Machine.execGrpMcast p d a b s
  | .grpStop p d a b => Sys2Proof.Machine.execGrpStop p d a b s
  | .grpGo p d a => Sys2Proof.Machine.execGrpGo p d a s
  | .grpKill p d a => Sys2Proof.Machine.execGrpKill p d a s
  | .xferCopy p d a b => Sys2Proof.Machine.execXferCopy p d a b s
  | .xferTensor p d a b => Sys2Proof.Machine.execXferTensor p d a b s
  | .xferMcast p d a b => Sys2Proof.Machine.execXferMcast p d a b s
  | .xferFill p d a b => Sys2Proof.Machine.execXferFill p d a b s
  | .xferSend p d a b => Sys2Proof.Machine.execXferSend p d a b s
  | .qLaunch p d a b => Sys2Proof.Machine.execQLaunch p d a b s
  | .qCall p d a b => Sys2Proof.Machine.execQCall p d a b s
  | .qTake p d a b => Sys2Proof.Machine.execQTake p d a b s
  | .qDone p d a b => Sys2Proof.Machine.execQDone p d a b s
  | .amoAdd p d a b q => Sys2Proof.Machine.execAmoAdd p d a b q s
  | .amoAnd p d a b q => Sys2Proof.Machine.execAmoAnd p d a b q s
  | .amoOr p d a b q => Sys2Proof.Machine.execAmoOr p d a b q s
  | .amoXor p d a b q => Sys2Proof.Machine.execAmoXor p d a b q s
  | .amoMin p d a b q => Sys2Proof.Machine.execAmoMin p d a b q s
  | .amoMax p d a b q => Sys2Proof.Machine.execAmoMax p d a b q s
  | .amoMinu p d a b q => Sys2Proof.Machine.execAmoMinu p d a b q s
  | .amoMaxu p d a b q => Sys2Proof.Machine.execAmoMaxu p d a b q s
  | .amoSwap p d a b q => Sys2Proof.Machine.execAmoSwap p d a b q s
  | .amoCas p d a b q => Sys2Proof.Machine.execAmoCas p d a b q s
  | .amoFadd p d a b q => Sys2Proof.Machine.execAmoFadd p d a b q s
  | .redAdd p a b q => Sys2Proof.Machine.execRedAdd p a b q s
  | .redFadd p a b q => Sys2Proof.Machine.execRedFadd p a b q s
  | .redMin p a b q => Sys2Proof.Machine.execRedMin p a b q s
  | .redMax p a b q => Sys2Proof.Machine.execRedMax p a b q s
  | .fence p b => Sys2Proof.Machine.execFence p b s
  | .stDrain p => Sys2Proof.Machine.execStDrain p s
  | .lineInv p a b => Sys2Proof.Machine.execLineInv p a b s
  | .lineWb p a b => Sys2Proof.Machine.execLineWb p a b s
  | .pref p a b => Sys2Proof.Machine.execPref p a b s
  | .haloDecl p d a => Sys2Proof.Machine.execHaloDecl p d a s
  | .haloDrop p a => Sys2Proof.Machine.execHaloDrop p a s
  | .haloPush p a => Sys2Proof.Machine.execHaloPush p a s
  | .vmFence p => Sys2Proof.Machine.execVmFence p s
  | .vmInv p a b => Sys2Proof.Machine.execVmInv p a b s
  | .vmGinv p a b => Sys2Proof.Machine.execVmGinv p a b s
  | .vmProbe p d a b => Sys2Proof.Machine.execVmProbe p d a b s
  | .ctxSeal p d a => Sys2Proof.Machine.execCtxSeal p d a s
  | .ctxUnseal p d a => Sys2Proof.Machine.execCtxUnseal p d a s
  | .ctxExtend p d a b => Sys2Proof.Machine.execCtxExtend p d a b s
  | .ctxQuote p d a b => Sys2Proof.Machine.execCtxQuote p d a b s

end Sys2Proof.Machine
end

