-- ==== Sys2Proof/Machine/Uses.lean ====
section
/-! DEFINITION. Which general registers a word writes and reads, for the checks of the illegal bundle (R23) and of the
lookahead rule (R58). -/

namespace Sys2Proof.Machine

/-- The general register that a word names as destination; 0 for none (R23, R58). -/
def genDest : Instr → BitVec 5
  | .sread _ d _ | .swrite _ d _ _ | .sset _ d _ _ | .sclr _ d _ _ | .jal _ d _ | .jalr _ d _ _ | .ldb _ d _ _ _
  | .ldh _ d _ _ _ | .ldw _ d _ _ _ | .ldd _ d _ _ _ | .ldbu _ d _ _ _ | .ldhu _ d _ _ _ | .ldwu _ d _ _ _
  | .pcadd _ d _ | .ldhi d _ | .add d _ _ | .sub d _ _ | .and d _ _ | .or d _ _ | .xor d _ _ | .andn d _ _
  | .orn d _ _ | .sll d _ _ | .srl d _ _ | .sra d _ _ | .slt d _ _ | .sltu d _ _ | .min d _ _ | .max d _ _
  | .minu d _ _ | .maxu d _ _ | .mul d _ _ | .mulh d _ _ _ | .mulhu d _ _ _ | .div d _ _ _ | .divu d _ _ _
  | .rem d _ _ _ | .remu d _ _ _ | .addw d _ _ | .subw d _ _ | .clz d _ | .ctz d _ | .cpop d _ | .rol d _ _
  | .ror d _ _ | .addi d _ _ | .slti d _ _ | .sltiu d _ _ | .xori d _ _ | .ori d _ _ | .andi d _ _ | .slli d _ _
  | .srli d _ _ | .srai d _ _ | .addiw d _ _ | .faddS d _ _ | .fsubS d _ _ | .fmulS d _ _ | .fdivS d _ _ _
  | .fsqrtS d _ _ | .fminS d _ _ | .fmaxS d _ _ | .fmaddS d _ _ | .feqS d _ _ | .fltS d _ _ | .fleS d _ _
  | .fclassS d _ | .fcvtSd d _ | .fcvtDs d _ | .fcvtSl d _ | .fcvtLs d _ | .fcvtDl d _ | .fcvtLd d _ | .faddD d _ _
  | .fsubD d _ _ | .fmulD d _ _ | .fdivD d _ _ _ | .fsqrtD d _ _ | .fminD d _ _ | .fmaxD d _ _ | .fmaddD d _ _
  | .feqD d _ _ | .fltD d _ _ | .fleD d _ _ | .fclassD d _ | .thrSpawn _ d _ _ | .thrSelf _ d | .thrStop _ d _
  | .thrGo _ d _ | .thrSave _ d _ _ | .thrLoad _ d _ _ | .vset _ d _ _ | .vsetmt _ d _ | .mpop d _ _ | .mfirst d _ _
  | .vmvvg d _ _ | .ctrFadd _ d _ _ _ _ | .ctrTest _ d _ _ _ _ | .ctrRead _ d _ _ | .ctrArm _ d _ _
  | .ctrHome _ d _ _ _ | .grpNew _ d _ | .grpJoin _ d _ _ | .grpLeave _ d | .grpSize _ d _ | .grpRank _ d
  | .grpPin _ d _ | .grpUnpin _ d _ | .grpMcast _ d _ _ | .grpStop _ d _ _ | .grpGo _ d _ | .grpKill _ d _
  | .xferCopy _ d _ _ | .xferTensor _ d _ _ | .xferMcast _ d _ _ | .xferFill _ d _ _ | .xferSend _ d _ _
  | .qLaunch _ d _ _ | .qCall _ d _ _ | .qTake _ d _ _ | .qDone _ d _ _ | .amoAdd _ d _ _ _ | .amoAnd _ d _ _ _
  | .amoOr _ d _ _ _ | .amoXor _ d _ _ _ | .amoMin _ d _ _ _ | .amoMax _ d _ _ _ | .amoMinu _ d _ _ _
  | .amoMaxu _ d _ _ _ | .amoSwap _ d _ _ _ | .amoCas _ d _ _ _ | .amoFadd _ d _ _ _ | .haloDecl _ d _
  | .vmProbe _ d _ _ | .ctxSeal _ d _ | .ctxUnseal _ d _ | .ctxExtend _ d _ _ | .ctxQuote _ d _ _ => d
  | _ => 0

/-- The general registers that a word reads as sources (R58). -/
def genReads : Instr → List (BitVec 5)
  | .pause a | .swrite _ _ a _ | .sset _ _ a _ | .sclr _ _ a _ | .jalr _ _ a _ | .ldb _ _ a _ _ | .ldh _ _ a _ _
  | .ldw _ _ a _ _ | .ldd _ _ a _ _ | .ldbu _ _ a _ _ | .ldhu _ _ a _ _ | .ldwu _ _ a _ _ | .clz _ a | .ctz _ a
  | .cpop _ a | .addi _ a _ | .slti _ a _ | .sltiu _ a _ | .xori _ a _ | .ori _ a _ | .andi _ a _ | .slli _ a _
  | .srli _ a _ | .srai _ a _ | .addiw _ a _ | .fsqrtS _ a _ | .fclassS _ a | .fcvtSd _ a | .fcvtDs _ a
  | .fcvtSl _ a | .fcvtLs _ a | .fcvtDl _ a | .fcvtLd _ a | .fsqrtD _ a _ | .fclassD _ a | .thrStop _ _ a
  | .thrGo _ _ a | .vset _ _ a _ | .vld _ _ a _ _ | .vldx _ _ a _ _ _ | .vldff _ _ a _ _ | .vldb _ _ a _ _
  | .vst _ _ a _ _ | .vstx _ _ a _ _ _ | .vstxa _ _ a _ _ _ | .vstxf _ _ a _ _ _ | .mset _ a | .tileRowv _ _ _ a _ _
  | .tileVrow _ _ _ a _ _ | .ctrRead _ _ a _ | .ctrArrive _ _ a _ | .ctrReset _ a _ | .grpNew _ _ a | .grpSize _ _ a
  | .grpPin _ _ a | .grpUnpin _ _ a | .grpGo _ _ a | .grpKill _ _ a | .lineInv _ a _ | .lineWb _ a _ | .pref _ a _
  | .haloDecl _ _ a | .haloDrop _ a | .haloPush _ a | .ctxSeal _ _ a | .ctxUnseal _ _ a => [a]
  | .beq _ a b _ | .bne _ a b _ | .blt _ a b _ | .bge _ a b _ | .bltu _ a b _ | .bgeu _ a b _ | .add _ a b
  | .sub _ a b | .and _ a b | .or _ a b | .xor _ a b | .andn _ a b | .orn _ a b | .sll _ a b | .srl _ a b
  | .sra _ a b | .slt _ a b | .sltu _ a b | .min _ a b | .max _ a b | .minu _ a b | .maxu _ a b | .mul _ a b
  | .mulh _ a b _ | .mulhu _ a b _ | .div _ a b _ | .divu _ a b _ | .rem _ a b _ | .remu _ a b _ | .addw _ a b
  | .subw _ a b | .rol _ a b | .ror _ a b | .faddS _ a b | .fsubS _ a b | .fmulS _ a b | .fdivS _ a b _
  | .fminS _ a b | .fmaxS _ a b | .feqS _ a b | .fltS _ a b | .fleS _ a b | .faddD _ a b | .fsubD _ a b
  | .fmulD _ a b | .fdivD _ a b _ | .fminD _ a b | .fmaxD _ a b | .feqD _ a b | .fltD _ a b | .fleD _ a b
  | .thrSpawn _ _ a b | .thrSave _ _ a b | .thrLoad _ _ a b | .vlds _ _ a b _ _ | .vldg _ _ a b _ _
  | .vsts _ _ a b _ _ | .vmvgv _ a b | .tileLd _ _ _ a b _ | .tileSt _ _ _ a b _ | .tileLdx _ _ _ a b _
  | .tileStx _ _ _ a b _ | .tileStxa _ _ _ a b _ | .tileMma _ _ _ a b _ | .tileMmax _ _ _ a b _
  | .tileGmma _ _ _ a b _ | .tileQ _ _ _ a b _ | .ctrAdd _ a b _ | .ctrFadd _ _ a b _ _ | .ctrWait _ a b _
  | .ctrTest _ _ a b _ _ | .ctrAw _ _ a b _ | .ctrVadd _ _ a b _ | .ctrArm _ _ a b | .ctrHome _ _ a b _
  | .grpJoin _ _ a b | .grpMcast _ _ a b | .grpStop _ _ a b | .xferCopy _ _ a b | .xferTensor _ _ a b
  | .xferMcast _ _ a b | .xferFill _ _ a b | .xferSend _ _ a b | .qLaunch _ _ a b | .qCall _ _ a b | .qTake _ _ a b
  | .qDone _ _ a b | .amoAdd _ _ a b _ | .amoAnd _ _ a b _ | .amoOr _ _ a b _ | .amoXor _ _ a b _
  | .amoMin _ _ a b _ | .amoMax _ _ a b _ | .amoMinu _ _ a b _ | .amoMaxu _ _ a b _ | .amoSwap _ _ a b _
  | .amoFadd _ _ a b _ | .redAdd _ a b _ | .redFadd _ a b _ | .redMin _ a b _ | .redMax _ a b _ | .vmInv _ a b
  | .vmGinv _ a b | .vmProbe _ _ a b | .ctxExtend _ _ a b | .ctxQuote _ _ a b => [a, b]
  | .stb _ d a _ | .sth _ d a _ | .stw _ d a _ | .std _ d a _ => [d, a]
  | .fmaddS d a b | .fmaddD d a b | .amoCas _ d a b _ => [d, a, b]
  | .vadd _ _ b _ sb | .vsub _ _ b _ sb | .vmul _ _ b _ sb | .vmulh _ _ b _ sb | .vmin _ _ b _ sb | .vmax _ _ b _ sb
  | .vminu _ _ b _ sb | .vmaxu _ _ b _ sb | .vand _ _ b _ sb | .vor _ _ b _ sb | .vxor _ _ b _ sb | .vsll _ _ b _ sb
  | .vsrl _ _ b _ sb | .vsra _ _ b _ sb | .vsadd _ _ b _ sb | .vssub _ _ b _ sb | .vmacc _ _ b _ sb
  | .vdot4 _ _ b _ sb | .vfadd _ _ b _ sb | .vfsub _ _ b _ sb | .vfmul _ _ b _ sb | .vfdiv _ _ b _ sb
  | .vfmin _ _ b _ sb | .vfmax _ _ b _ sb | .vfma _ _ b _ sb | .vfnma _ _ b _ sb | .vceq _ _ b _ sb
  | .vcne _ _ b _ sb | .vclt _ _ b _ sb | .vcle _ _ b _ sb | .vcltu _ _ b _ sb | .vcleu _ _ b _ sb
  | .vfceq _ _ b _ sb | .vfclt _ _ b _ sb | .vfcle _ _ b _ sb | .vfcun _ _ b _ sb | .vredsum _ _ b _ sb
  | .vredmin _ _ b _ sb | .vredmax _ _ b _ sb | .vfredo _ _ b _ sb | .vfredt _ _ b _ sb | .vfredmin _ _ b _ sb
  | .vfredmax _ _ b _ sb | .vmerge _ _ b _ sb | .vmv _ b _ sb => if sb = 1 then [b] else []
  | .vslup _ _ b _ | .vsldn _ _ b _ | .vbcast _ _ b _ | .vmvvg _ _ b => [b]
  | _ => []

end Sys2Proof.Machine
end

