-- ==== Sys2Proof/Machine/Issue.lean ====
section
/-! DEFINITION. One issue of a thread: what comes before its bundle (due traps, interrupts, stops, holds), the fetch, the
checks of the illegal bundle, the lookahead rule, and the effect of a lone word or of a pair (R20-R24, R53-R60, R122). -/

namespace Sys2Proof.Machine

/-! ### The fetch (R21, R283, R290) -/

/-- How a fetch ends: the 64-bit unit that holds the bundle address, or a held, dropped or trapped thread. -/
inductive Fetch where
  | unit (u : Nat) (s : State)
  | ends (s : State)

/-- The home of the aligned 8-byte unit that holds a byte at `l`. -/
def unitOf (l : Loc) : Loc :=
  match l with
  | .mem k => .mem (k / 8 * 8)
  | x => x

/-- The 64-bit unit at a home, as a fetch finds it: L2's copy of a cached line, else memory. -/
def unitAt (s : State) (l : Loc) (pbmt : Nat) : Nat :=
  match l with
  | .mem k => if pbmt = 0 ∧ (haloAt s k).isNone then l2rd s k 8 else mrd s.mem k 8
  | x => rdLoc s x 8

/-- The fetch of the bundle at the thread's pc. A bundle address that is not a multiple of 4 is a misaligned access. -/
def fetch (s : State) : Fetch :=
  let pc := (me s).pc
  if pc.toNat % 4 ≠ 0 then .ends (raise s 5 pc)
  else match xlate s (whoOf s s.cur) pc .fetch with
    | (.ok l _ pb, s) =>
      let l := unitOf l
      if !(pathFor s l pb) then
        if stuckOut s s.cur 0 pc 0 then .ends (raise (unstick s s.cur 0 pc 0) 9 pc) else .ends (held (stick s s.cur 0 pc 0 l))
      else if homeDenied s (partOf s s.cur) l then .ends (raise s 7 pc)
      else if poisoned s l 8 then .ends (raise s 9 pc)
      else .unit (unitAt s l pb) (unstick s s.cur 0 pc 0)
    | (x, s) => .ends (xlFail s pc .fetch 0 x)

/-! ### The bundle (R20, R21, R23) -/

/-- P and the major opcode of a word (R20). -/
def pairBit (w : Nat) : Bool := fld w 31 31 == 1
def majorOf (w : Nat) : Nat := fld w 30 25

/-- Class A: arithmetic (R20). -/
def classA (w : Nat) : Bool := 32 ≤ majorOf w

/-- The destination register that a word names, 0 for none. A word that is no instruction names none (DESIGN CHOICE,
log 59). -/
noncomputable def destOf (w : Nat) : BitVec 5 :=
  match decodeWord w with
  | .ok i => genDest i
  | .error _ => 0

/-- The first condition of R23 that a bundle meets: the SLOT and the trap value. `odd`: the bundle address is 4 modulo
8; `w` the word there, `other` the other word of the unit. -/
noncomputable def illegalBundle (odd : Bool) (w other : Nat) (pc : Word) (from_ : Option Word) : Option (Nat × Word) :=
  let pair := !odd && pairBit w
  if odd && pairBit w then some (0, BitVec.ofNat 64 w)
  else if pair && pairBit other then some (1, BitVec.ofNat 64 other)
  else if pair && classA w then some (0, BitVec.ofNat 64 w)
  else if pair && !(classA other) then some (1, BitVec.ofNat 64 other)
  else if pair && destOf w != 0 && destOf w == destOf other then some (1, BitVec.ofNat 64 other)
  else if pairBit w && majorOf w == 0 then some (0, BitVec.ofNat 64 w)
  else if odd && pairBit other then some (1, from_.getD pc)
  else none

/-! ### The lookahead rule (R58) -/

/-- The long results whose windows count the bundle being performed: those that were pending before it. The window of a
control word opens with the next bundle, so its partner is not checked against it (R22, R58). -/
def windowsOf (s : State) : List Long :=
  match s.snap with
  | some n => (me s).longs.take n.longs
  | none => (me s).longs

/-- The register of an open window that a word reads or writes. -/
def violation (s : State) (i : Instr) : Option Nat :=
  ((windowsOf s).find? fun l => l.d != 0 && l.left != 0 &&
    ((genDest i).toNat == l.d || (genReads i).any fun r => r.toNat == l.d)).map (·.d)

/-- One word: decoded (R29), checked against the windows (R58), and performed. -/
noncomputable def runWord (s : State) (w : Nat) : Out :=
  match decodeWord w with
  | .error _ => .next (illegal s w)
  | .ok i =>
    match violation s i with
    | some d => .next (raise s 2 (BitVec.ofNat 64 d))
    | none => exec i s

/-! ### Pairs (R22, R24) -/

/-- What the partner reads: the values before the bundle; after a VCFG word, `VL`, `VT` and `VMT` as that word wrote
them; behind a continued word `VRS` is clear (R22, R122). -/
def snapOf (s s1 : State) (vcfg cont : Bool) : Snap :=
  let t := me s
  let v := if vcfg then (me s1).v else t.v
  { g := t.g, longs := t.longs.length, rows := t.v.rows, frm := t.u.frm, vl := v.vl, vt := v.vt, vmt := v.vmt, vrs := if cont then 0 else t.v.vrs }

/-- Is a word a VCFG word (major 8; R22)? -/
def isVcfg (w : Nat) : Bool := majorOf w == 8

/-- The state in which a partner is performed, after a control word that left `s1` from `s`: at the bundle's address. -/
def forPartner (s s1 : State) (vcfg cont : Bool) : State :=
  { setMe s1 { me s1 with pc := (me s).pc } with slot := 1, snap := some (snapOf s s1 vcfg cont) }

/-- Both words have taken their effect: control goes where the control word sends it. -/
def joinPair (s1 s2 : State) : State :=
  { setMe s2 { me s2 with pc := (me s1).pc } with slot := 0, snap := none }

/-- The partner's trap, for the whole bundle (R24). -/
def partnerTrap (s : State) (c : Nat) (v : Word) : State := { raise { s with slot := 1 } c v with slot := 0 }

/-- The partner after a control word that took its effect. -/
noncomputable def runPartner (s s1 : State) (cont : Bool) (c p : Nat) : Out :=
  match runWord (forPartner s s1 (isVcfg c) cont) p with
  | .next s2 =>
    .next (match s2.last with
      | .done => joinPair s1 s2
      | .trapped k v => partnerTrap s k v
      | _ => held s)
  | o => o

/-- A control word that holds: a partner that traps is reported at once, since the bundle is atomic (R24). -/
noncomputable def heldPair (s s1 : State) (c p : Nat) : State :=
  if isVcfg c then s1
  else match runWord (forPartner s s false false) p with
    | .next s2 =>
      match s2.last with
      | .trapped k v => partnerTrap s k v
      | _ => s1
    | _ => s1

/-- A pair: the control word's traps first, then the partner's; both commit or neither (R22, R24). A control word that
parks or drops its thread does so before the partner is looked at, which traps when the bundle is issued again (DESIGN
CHOICE, log 59). -/
noncomputable def runPair (s : State) (c p : Nat) : Out :=
  match runWord s c with
  | .next s1 =>
    match s1.last with
    | .done => runPartner s s1 false c p
    | .held => .next (heldPair s s1 c p)
    | _ => .next s1
  | o => o

/-! ### Continuations (R122) -/

/-- Is a word a vector word (majors 8 to 10 and 36 to 42; R125)? -/
def isVector (w : Nat) : Bool :=
  let m := majorOf w
  (8 ≤ m && m ≤ 10) || (36 ≤ m && m ≤ 42)

/-- Is a bundle the continuation of a cut instruction (R122)? A handler may issue bundles without a vector word while
`VRS.CONT` is 1, or it could not save `VRS` (R124; log 13). -/
def isCont (vrs : Word) (pair : Bool) (w other : Nat) : Bool := bit vrs 63 && (isVector w || (pair && isVector other))

/-- Is a word a VLD or VRED instruction (majors 9 and 40; R122)? -/
noncomputable def isCut (w : Nat) : Bool :=
  match decodeWord w with
  | .ok (.vld ..) | .ok (.vlds ..) | .ok (.vldx ..) | .ok (.vldff ..) | .ok (.vldg ..) | .ok (.vldb ..)
  | .ok (.vredsum ..) | .ok (.vredmin ..) | .ok (.vredmax ..) | .ok (.vfredo ..) | .ok (.vfredt ..)
  | .ok (.vfredmin ..) | .ok (.vfredmax ..) => true
  | _ => false

/-- The bundle issued while `VRS.CONT` is 1: only the word that `VRS.SLOT` names, and a vector partner behind it. After a
continued partner word control goes to the next sequential bundle, whatever its control word, which had committed, was
(DESIGN CHOICE, log 59). -/
noncomputable def runCont (s : State) (pair : Bool) (c p : Nat) : Out :=
  let second := bit (me s).v.vrs 62
  let w := if second && pair then p else c
  if (second && !pair) || !(isCut w) then
    let s := setMe s { me s with v := { (me s).v with vrs := 0 } }
    .next { illegal { s with slot := b2n (second && pair) } w with slot := 0 }
  else if second then
    match runWord { s with slot := 1 } p with
    | .next s2 =>
      .next (match s2.last with
        | .done => { finish { s2 with slot := 0 } 1 with slot := 0 }
        | _ => { s2 with slot := 0 })
    | o => o
  else if pair && isVector p then
    match runWord s c with
    | .next s1 => if s1.last = .done then runPartner s s1 true c p else .next s1
    | o => o
  else runWord s c

/-! ### One issue -/

/-- A failed long result takes its trap in place of what the bundle would do, as soon as the thread's other results are
written (R59). -/
def failNow (s : State) : State :=
  match boundary s s.cur with
  | some s => { failTrap s s.cur with last := .trapped 9 0 }
  | none => held s

/-- The end of a bundle issued in state `s`: a bundle that commits counts in the windows that were open before it
(R58); at one that holds or traps, a failed long result is reported in its place (R59). -/
def settle (s : State) (cont : Bool) (s1 : State) : State :=
  match s1.last with
  | .done =>
    if cont then s1 else setMe s1 { me s1 with longs := ageLongs (me s1).longs (me s).longs.length }
  | .trapped _ _ => if (me s).longs.any Long.bad then failNow s else s1
  | .held => if (me s).longs.any Long.bad then failNow s else s1
  | _ => s1

/-- The bundle at the thread's pc, with the checks of R24 in order. -/
noncomputable def runBundle (s : State) (u : Nat) : Out :=
  let t := me s
  let odd := t.pc.toNat % 8 == 4
  let w := if odd then u / 2 ^ 32 else u % 2 ^ 32
  let other := if odd then u % 2 ^ 32 else u / 2 ^ 32
  let pair := !odd && pairBit w
  let cont := isCont t.v.vrs pair w other
  match illegalBundle odd w other t.pc t.from_ with
  | some (k, v) => .next (settle s false { raise { s with slot := k } 1 v with slot := 0 })
  | none =>
    match (if cont then runCont s pair w other else if pair then runPair s w other else runWord s w) with
    | .next s1 => .next (settle s cont s1)
    | o => o

/-- Must the thread first complete the bundle that it is in: a satisfied wait, a holding TILE word, a `grp.kill` whose kills
are made (R54, R160)? -/
def mustComplete (s : State) : Bool := (me s).waitMet || tileHoldsThread s s.cur || killHolds (me s)

/-- A thread that is in the middle of its bundle keeps the words of it: a running holding TILE word, a `grp.kill` whose kills
are made, a wait (R53, R54, R160). -/
def keepUnit (pc : Word) (u : Nat) (s : State) : State :=
  let t := me s
  if t.pc = pc ∧ (t.state = .parked ∨ tileHoldsThread s s.cur ∨ killHolds t) then setMe s { t with unit := some (pc, u) } else s

/-- The words that are kept of the bundle at the pc, when the thread must complete it. -/
def keptUnit (s : State) : Option Nat :=
  match (me s).unit with
  | some (pc, u) => if pc = (me s).pc ∧ mustComplete s then some u else none
  | none => none

/-- The bundle whose words are `u`; they are kept while the thread is in the middle of it. -/
noncomputable def runUnit (s : State) (u : Nat) : Out :=
  match runBundle s u with
  | .next s1 => .next (keepUnit (me s).pc u s1)
  | o => o

/-- The fetch and the bundle. -/
noncomputable def fetchRun (s : State) : Out :=
  match keptUnit s with
  | some u => runUnit s u
  | none =>
    match fetch s with
    | .ends s1 => .next (settle s false s1)
    | .unit u s => runUnit s u

/-- Does a window end here with its register not written (R58)? -/
def windowHolds (t : Thread) : Bool := t.longs.any fun l => l.d != 0 && l.left == 0 && l.open_

/-- Has a failed long result met its first bundle that holds, or the first that issues when its destination is g0
(R59)? -/
def failDue (t : Thread) : Bool := t.longs.any fun l => l.bad && (l.d == 0 || l.left == 0)

/-- Does the thread's vector queue hold it (R116)? -/
def vecHolds (t : Thread) : Bool := t.v.queue.any fun e => e.op.holding

/-- The recorded trap of a bundle, once the thread's results and queued vector work are done (R59, R123). -/
def takeDue (s : State) (d : Due) : State :=
  let t := me s
  if t.longs.any Long.bad then
    if drained t then failTrap s s.cur else held s
  else if drained t then
    enterTrap s s.cur (toHyp t false d.cause) false d.slot d.cause d.epc d.val d.guest
  else held s

/-- A trap or interrupt that enters before the bundle, or the bundle when the thread must first complete what it is in;
otherwise the thread waits (R54, R59, R123). -/
noncomputable def before (s : State) (enter : State → State) (bundle : State → Out) : Out :=
  match boundary s s.cur with
  | some s1 => .next (orFail s1 s.cur enter)
  | none => if mustComplete s then bundle s else .next (held s)

/-- What holds a bundle: a refused page request that becomes its trap, a failed long result, an unwritten window, the
vector queue (R52, R53, R58, R59, R116); else it is fetched and performed. -/
noncomputable def issueBundle (s : State) : Out :=
  let t := me s
  if failDue t && !(mustComplete s) then .next (failNow s)
  else match t.refused with
    | some m =>
      .next (settle s false
        { refuseTrap { setMe s { t with refused := none } with slot := m.slot } m.va m.kind m.second m.imp m.gpa with slot := 0 })
    | none => if windowHolds t || vecHolds t then .next (settle s false (held s)) else fetchRun s

/-- After interrupts and stops: a `pause` under way, then a store-fault trap, then the bundle (R60, R246). -/
noncomputable def issuePaused (s : State) : Out :=
  let t := me s
  match t.pauseUntil with
  | some c => if s.cycle < c then .next (held s) else issueStore (setMe s { t with pauseUntil := none })
  | none => issueStore s
where
  /-- A store-fault trap, unless the word at the pc holds it back; else the bundle (R78, R246, R248, R259). -/
  issueStore (s : State) : Out :=
    match (if reportHeld (me s) then none else storeTrap (me s)) with
    | some (h, c, v, g) =>
      before s (fun s =>
        let s := setMe s (storeReported (me s))
        enterTrap s s.cur (h || toHyp (me s) false c) false 0 c (me s).pc v (g.map fun x => (x, false, false))) issueBundle
    | none => issueBundle s

/-- Does a thread that is marked to stop go on issuing, because only that lets its queued commands complete: a holding TILE
word that it is in (R160, R174), or commands that wait until it clears `AFCODE.V` (R173; DEDUCED, log 71)? -/
def stopWaits (s : State) : Bool :=
  (tq s (coreOf s.cur)).any fun c => c.tid == s.cur && (!c.op.streams || afBusy s s.cur)

/-- The stop of a marked thread, unless it must first complete a wait or a TILE word (R54, R76, R77). -/
noncomputable def issueStop (s : State) : Out :=
  let t := me s
  if t.stop.isSome && !(mustComplete s) then
    match stopTry s s.cur with
    | some s => .next s
    | none => if stopWaits s then issuePaused s else .next (held s)
  else issuePaused s

/-- A pending interrupt that qualifies (R54, R82). -/
noncomputable def issueInt (s : State) : Out :=
  match nextInt s s.cur with
  | some code => before s (fun s => takeInt s s.cur code) issueStop
  | none => issueStop s

/-- A reported asynchronous fault (R54, R84). -/
noncomputable def issueAsync (s : State) : Out :=
  match (me s).asyncDue with
  | some c =>
    before s (fun s =>
      let t := me s
      let s := enterTrap s s.cur (toHyp t false c) false 0 c t.pc t.u.afpc none
      setMe s { me s with asyncDue := none }) issueInt
  | none => issueInt s

/-- One issue of the thread `s.cur` at cycle `s.cycle`. -/
noncomputable def issueThread (s : State) : Out :=
  let t := me s
  if t.state ≠ .ready ∨ !s.lehr.rdy then .next (held s)
  else match t.due with
    | some d => .next (takeDue s d)
    | none => issueAsync s

/-- The first cycle from `c` on at which a slot of a core whose cycles count from `base` may issue (R55). -/
def issueCycle (c base slot : Nat) : Nat := c + (slot + 16 - (c - base) % 16) % 16

/-- The state in which a thread issues: at its next issue cycle, its control word first. -/
def atIssue (s : State) (tid : Nat) : State :=
  { s with cycle := issueCycle s.cycle (co s (coreOf tid)).base (slotOf tid), cur := tid, slot := 0, snap := none,
           last := .held }

/-- The state after an issue: the next cycle. -/
def afterIssue (s : State) : State := { s with cycle := s.cycle + 1, slot := 0, snap := none }

/-- One issue of a thread, at its next issue cycle (R55, R56). -/
noncomputable def issue (tid : Nat) (s : State) : Out :=
  match issueThread (atIssue s tid) with
  | .next s => .next (afterIssue s)
  | o => o

end Sys2Proof.Machine
end

