-- ==== Sys2Proof/Machine/Sched.lean ====
section
/-! DEFINITION. The default order: which act of the package comes next when the agenda names none. The spec fixes no
order among the agents (R54 orders only what meets one slot in one cycle); the model takes every act that the state
offers in turn (log 3). Acts of the outside world (host, links, management, errors) come by the agenda alone. -/

namespace Sys2Proof.Machine

/-- What a thread's slot may do next. -/
def threadActs (s : State) (tid : Nat) : List Act :=
  let t := th s tid
  let when (b : Bool) (i : Instr) : List Act := if b then [.event i] else []
  when (!t.sent.isEmpty) (.storeArriveHome tid 0) ++ when (!t.sent.isEmpty) (.redAtHome tid 0) ++
  when (!t.stores.isEmpty) (.storeCheck tid) ++ when (!t.precs.isEmpty) (.pendingRecordWrite tid) ++
  ((List.range t.longs.length).map fun n => .event (.longResultWrite tid n)) ++
  when (!t.v.queue.isEmpty) (.vectorElementAccess tid) ++
  (match t.wait with
   | some w =>
     when w.woken (.waitReread tid) ++ when (!w.listed && !w.woken && w.poll ≤ s.cycle) (.waiterPoll tid) ++
     when (match w.due with | some d => d < s.cycle | none => false) (.waitTimeout tid)
   | none => []) ++
  when t.asyncDue.isSome (.asyncFaultTrap tid) ++ when (nextInt s tid).isSome (.interruptTake tid) ++
  when t.stop.isSome (.stopComplete tid) ++
  (if t.state = .ready then [.issue tid] else [])

/-- What a core and its bench may do next. -/
def coreActs (core : Nat) : List Act :=
  [.event (.laneBeat core), .event (.copyChunk core), .event (.mcastStreamJoin core),
   .event (.marverGrant (benchOf core)), .event (.marverStep (benchOf core)),
   .event (.marverCommandComplete (benchOf core))]

/-- The cores that hold a thread or a command. -/
def liveCores (s : State) : List Nat :=
  ((s.threads.filter fun e => e.2.state ≠ .free).map (fun e => coreOf e.1) ++ s.cores.map (·.1)).eraseDups

/-- What the device's engines may do next. -/
def engineActs (s : State) : List Act :=
  ((List.range s.posts.length).flatMap fun n => [.event (.counterOpAtHome n), .event (.amoAtHome n)]) ++
  ((List.range s.wakes.length).map fun n => .event (.wakeMessage n)) ++
  (s.pages.map fun e => .event (.pageRequestRecordWrite e.1)) ++
  ((List.range s.fences.length).map fun n => .event (.hostFenceAck n)) ++
  ((List.range s.mcasts.length).map fun n => .event (.grpMcastDelivery n 0)) ++
  (s.kernels.flatMap fun e => [.event (.kernelBind e.1), .event (.kernelAdmit e.1), .event (.gafferSpawn e.1 e.2.places),
    .event (.kernelEndSequence e.1)]) ++
  (s.ctxs.flatMap fun e => [.event (.suspendComplete e.1), .event (.scrubComplete e.1)]) ++
  (s.jobs.flatMap fun j => [.event (.sealJobStart j.id), .event (.restoreJobStart j.id)]) ++
  ((s.queues.filter fun e => 256 ≤ e.1 ∧ callsDue s (e.1 - 256)).map fun e => .calls (e.1 - 256)) ++
  (if s.parts.req.isSome then [.event .reshapeDrainComplete] else []) ++
  (if s.parts.busy then [] else s.parts.plans.map fun m => .event (.plan m)) ++
  ((List.range s.lateRecs.length).map .lateRecord)

/-- The receivers of a core's multicast request. -/
def mcastActs (s : State) (core : Nat) : List Act :=
  match (co s core).ch.req with
  | some r => (List.range r.rcv.length).map fun i => .event (.mcastReceiverChunk core i)
  | none => []

/-- Every act that the state offers, and time passing. -/
def offered (s : State) : List Act :=
  (s.threads.flatMap fun e => threadActs s e.1) ++ ((liveCores s).flatMap fun c => coreActs c ++ mcastActs s c) ++
  engineActs s ++ [.pass 16]

/-- The act whose turn it is in the default order. -/
def nextAct (s : State) : Act :=
  let l := offered s
  l.getD (s.turn % l.length) (.pass 16)

end Sys2Proof.Machine
end

