-- ==== Sys2Proof/Machine/Step.lean ====
section
/-! DEFINITION. One step of the package, and the placing of an instruction where the next step fetches. -/

namespace Sys2Proof.Machine

/-- One act of the package. An agenda that names a slot which the package does not have is a fault. -/
noncomputable def act (a : Act) (s : State) : Out :=
  match a with
  | .issue tid => if tid < 16384 then issue tid s else .fault .noSubject
  | .event i => exec i s
  | .pass n => .next { s with cycle := s.cycle + n }
  | .close q b => .next (setClosed s q b)
  | .calls q => .next (deviceCalls s q)
  | .closing m => .next (setClosing s m)
  | .mute p b => .next { s with eths := tput s.eths p { tget s.eths p {} with mute := b } }
  | .hdm b => .next { s with hdm := some b }
  | .nonce j bs => .next (takeNonce s j bs)
  | .nonceAsk j => .next (giveNonce s j)
  | .leaseAbort l j => .next (dropLease s l j)
  | .lateRecord n => .next (lateWrite s n)
  | .hostRead fn off n => .next (hostRead s fn off n)
  | .hostNarrow fn off bs => .next (hostNarrow s fn off bs)
  | .message m => .next (unknownMessage s m)
  | .droop b again => .next (droop s b again)
  | .train ok => .next { s with lehr := { s.lehr with trained := ok } }

/-- One step of the package: the next act of the agenda; with no agenda, the act of the default order whose turn it is
(log 3). -/
noncomputable def step (s : State) : Host.Outcome State Fault Refusal :=
  match s.agenda with
  | a :: r => act a { s with agenda := r }
  | [] => act (nextAct s) { s with turn := s.turn + 1 }

/-- The state with an instruction word stored where the next step fetches it: the firmware is up, thread 0 is Ready at
hypervisor privilege with its pc at physical address 0, the word stands there, and thread 0 issues next. -/
def State.withFetchWord (s : State) (nbits w : Nat) : State :=
  { s with
    lehr := { s.lehr with rdy := true },
    threads := tput s.threads 0 { th s 0 with state := .ready, priv := .hyp, pc := 0 },
    mem := mwr s.mem 0 4 (w % 2 ^ nbits), agenda := [.issue 0] }

end Sys2Proof.Machine
end

