-- ==== Sys2Proof/Safety.lean ====
section
/-! DEFINITION. What a safe run is, and the words in which statements about the machine are written: what a register
holds, where control goes, and what an instruction leaves alone. -/

namespace Sys2Proof

open Machine

/-- The machine answers a next state. -/
def Answers (o : Out) : Prop := ∃ t, o = .next t

/-- Every step of a run of `n` steps answers a next state. -/
def safeFor : Nat → State → Prop
  | 0, _ => True
  | n + 1, s => ∃ t, step s = .next t ∧ safeFor n t

/-! ### What the running thread holds -/

/-- A general register of the running thread; g0 is zero (R35). -/
def reg (s : State) (r : BitVec 5) : Word := if r = 0 then 0 else tget (me s).g r.toNat 0

/-- Where control stands after a word with pair bit `p` that does not branch: behind its bundle; a partner word leaves
the pc to its control word (R21, R22). -/
def pcBehind (s : State) (p : BitVec 1) : Word :=
  if s.slot = 0 then (me s).pc + (if p = 1 then 8 else 4) else (me s).pc

/-! ### Frames

A *mask* names the fields of a thread that an instruction may change: it puts the old values of those fields into the
new thread. The frame says that the masked thread is the old one, that no other thread changes, and that outside the
threads the whole state is as before (memory, scratchpads, vector registers, counters, every table), but for the note of
how the word ended. -/

/-- Outside the threads the state is unchanged, but for the note of how the word ended. -/
def SameOutside (s t : State) : Prop := { t with threads := s.threads, last := s.last } = s

/-- Everything but the running thread is unchanged, and of it everything but the fields of the mask. -/
def Keeps (mask : Thread → Thread → Thread) (s t : State) : Prop :=
  SameOutside s t ∧ (∀ k, k ≠ s.cur → th t k = th s k) ∧ mask (me t) (me s) = me s ∧
  ∀ a, mget t.mem a = mget s.mem a

/-- The pc, and what the model notes about the bundle at the pc. -/
def pcMask (n o : Thread) : Thread := { n with pc := o.pc, hold := o.hold, waitMet := o.waitMet, from_ := o.from_ }

/-- The pc and the general registers. -/
def regMask (n o : Thread) : Thread := { pcMask n o with g := o.g }

/-- The pc, the general registers and the sticky flags. -/
def fpMask (n o : Thread) : Thread := { regMask n o with u := { n.u with flags := o.u.flags } }

/-- The pc and the pending long results. -/
def longMask (n o : Thread) : Thread := { pcMask n o with longs := o.longs }

/-- The general registers of the running thread are unchanged but for `d`, which holds `v`; a write of g0 is
discarded (R35). -/
def Wrote (s t : State) (d : BitVec 5) (v : Word) : Prop :=
  reg t d = (if d = 0 then 0 else v) ∧ ∀ r, r ≠ d → reg t r = reg s r

/-- The word has taken its effect and control stands behind it. -/
def Behind (s t : State) (p : BitVec 1) : Prop := t.last = .done ∧ (me t).pc = pcBehind s p

/-- A word that writes one general register and nothing else, and goes on. -/
def RegWord (s t : State) (p : BitVec 1) (d : BitVec 5) (v : Word) : Prop :=
  Behind s t p ∧ Wrote s t d v ∧ Keeps regMask s t

/-- A word that writes one general register and ORs flags into `FLAGS`, and nothing else, and goes on. -/
def FpWord (s t : State) (d : BitVec 5) (v : Nat) (f : BitVec 5) : Prop :=
  Behind s t 0 ∧ Wrote s t d (BitVec.ofNat 64 v) ∧ (me t).u.flags = (me s).u.flags ||| f ∧ Keeps fpMask s t

/-- A long word whose result is known: the register is written later, when the result arrives; with destination g0
nothing is kept (R58). -/
def LongWord (s t : State) (p : BitVec 1) (d : BitVec 5) (la : BitVec 4) (v : Word) : Prop :=
  Behind s t p ∧ Keeps longMask s t ∧
  (me t).longs = (me s).longs ++ (if d = 0 then [] else [{ d := d.toNat, left := la.toNat, res := .ready v, pc := (me s).pc }])

/-- A jump of a control word: the pc is the target; no register but the link register changes (R22, R62, R63). -/
def JumpWord (s t : State) (d : BitVec 5) (link target : Word) : Prop :=
  t.last = .done ∧ (me t).pc = (if s.slot = 0 then target else (me s).pc) ∧ Wrote s t d link ∧ Keeps regMask s t

/-! ### Traps -/

/-- Is a trap of a thread with this bit of `HDELEG` (a cause, or 32 more than an interrupt's code) taken to the hypervisor:
from hypervisor privilege, or when the bit is 0 (R82)? -/
def goesToHyp (o : Thread) (k : Nat) : Prop := o.priv = .hyp ∨ o.hr.deleg.getLsbD k = false

/-- The fields that the entry to a handler may change: pc, privilege, the trap registers of the target level, and what
the model keeps of the bundle that is abandoned. -/
def trapMask (n o : Thread) : Thread :=
  { pcMask n o with priv := o.priv, sr := o.sr, hr := o.hr, due := o.due, pauseUntil := o.pauseUntil,
                    refused := o.refused, miss := o.miss, longs := o.longs }

/-- The entry to a handler (R82), from the thread `o` before to the thread `n` after: to hypervisor level its cause, pc,
value and status registers, with PPL, PIE and IE, and no supervisor register; else the supervisor's with PPS, and no
hypervisor register; the pc at the level's vector, the privilege the level's. -/
def Handler (o n : Thread) (hyp : Prop) (cause epc val : Word) : Prop :=
  (hyp → n.priv = .hyp ∧ n.pc = o.hr.vec ∧ n.sr = o.sr ∧
    n.hr = { o.hr with
      cause := cause, epc := epc, val := val,
      status := BitVec.ofNat 64 (256 * (match o.priv with | .user => 0 | .sup => 2 | .hyp => 3) +
        (if o.hr.status.getLsbD 0 then 2 else 0)) }) ∧
  (¬hyp → n.priv = .sup ∧ n.pc = o.sr.vec ∧ n.hr = o.hr ∧
    n.sr = { o.sr with
      cause := cause, epc := epc, val := val,
      status := BitVec.ofNat 64 ((if o.priv = .sup then 256 else 0) + (if o.sr.status.getLsbD 0 then 2 else 0)) })

/-- A precise trap of the running thread with cause `c` and value `v` for the word in slot `s.slot`: entry to the
handler, and nothing else changes (R24, R82). -/
def TrapTo (s t : State) (c : Nat) (v : Word) : Prop :=
  t.last = .trapped c v ∧ Keeps trapMask s t ∧
  Handler (me s) (me t) (goesToHyp (me s) c) (BitVec.ofNat 64 ((if s.slot = 1 then 2 ^ 62 else 0) + c)) (me s).pc v

/-- Nothing of the thread's is under way that a trap waits for: every long result is written and the vector queue is
empty (R59, R123). -/
def Quiet (s : State) : Prop := (∀ l ∈ (me s).longs, l.res = .written) ∧ (me s).v.queue = []

/-! ### Bit counts (R66) -/

/-- `n` is the count of leading zero bits of `A`. -/
def LeadingZeros (A : Word) (n : Nat) : Prop :=
  n ≤ 64 ∧ (∀ k < n, A.getMsbD k = false) ∧ (n < 64 → A.getMsbD n = true)

/-- `n` is the count of trailing zero bits of `A`. -/
def TrailingZeros (A : Word) (n : Nat) : Prop :=
  n ≤ 64 ∧ (∀ k < n, A.getLsbD k = false) ∧ (n < 64 → A.getLsbD n = true)

/-! ### Floating-point codes (R69, R70, R94) -/

/-- A code of a binary format with `ew` exponent bits and `f` fraction bits that is a NaN. -/
def NaNCode (ew f c : Nat) : Prop := c / 2 ^ f % 2 ^ ew = 2 ^ ew - 1 ∧ c % 2 ^ f ≠ 0

/-- A NaN whose most significant fraction bit is 0 (R70). -/
def SignallingCode (ew f c : Nat) : Prop := NaNCode ew f c ∧ c / 2 ^ (f - 1) % 2 = 0

/-- The real value of a magnitude code (R88); the code of an infinity counts as the next power of two. -/
noncomputable def magValue (ew f c : Nat) : ℝ :=
  if c / 2 ^ f = 0 then (c : ℝ) * 2 ^ (2 - 2 ^ (ew - 1) - (f : Int) : Int)
  else ((2 ^ f + c % 2 ^ f : Nat) : ℝ) * 2 ^ (((c / 2 ^ f : Nat) : Int) - (2 ^ (ew - 1) - 1) - f)

/-- The real value of a finite code. -/
noncomputable def codeValue (ew f c : Nat) : ℝ :=
  (if c / 2 ^ (ew + f) % 2 = 1 then -1 else 1) * magValue ew f (c % 2 ^ (ew + f))

/-- A code of the format that is neither an infinity nor a NaN. -/
def FiniteCode (ew f c : Nat) : Prop := c < 2 ^ (1 + ew + f) ∧ c % 2 ^ (ew + f) < (2 ^ ew - 1) * 2 ^ f

/-- `r` is the exact result `x` rounded once, with its flags (R95, R97): toward zero and away from it the neighbour on that
side, else the nearest, a tie by its even code or its magnitude; OF and NX above the largest finite value, where the magnitude
is that of an infinity or of the largest finite value; UF and NX where an inexact result is below the smallest normal one with
its exponent unbounded. -/
def Rounds (rm : Rm) (ew f : Nat) (x : ℝ) (r : Nat × BitVec 5) : Prop :=
  let inf := (2 ^ ew - 1) * 2 ^ f
  let neg := 2 ^ (ew + f)
  let k := r.1 % neg
  let m := magValue ew f
  let toward := rm = .rtz ∨ (rm = .rup ∧ x < 0) ∨ (rm = .rdn ∧ 0 < x)
  let away := (rm = .rup ∧ 0 < x) ∨ (rm = .rdn ∧ x < 0)
  let tiny := (toward → |x| < m (2 ^ f)) ∧ (away → |x| ≤ m (2 ^ f) - m 1 / 2) ∧
    (¬toward → ¬away → |x| < m (2 ^ f) - m 1 / 4)
  let tooBig := k = inf ∨ (toward ∧ m inf ≤ |x|)
  (x = 0 → k = 0 ∧ r.2 = 0) ∧
  (x ≠ 0 → (x < 0 → r.1 = neg + k) ∧ (0 < x → r.1 = k) ∧
    (toward → k < inf ∧ m k ≤ |x| ∧ (|x| < m (k + 1) ∨ k + 1 = inf)) ∧
    (away → 0 < k ∧ k ≤ inf ∧ m (k - 1) < |x| ∧ (|x| ≤ m k ∨ k = inf)) ∧
    (¬toward → ¬away → k ≤ inf ∧ ∀ j, j ≤ inf → j ≠ k → |(|x| - m k)| < |(|x| - m j)| ∨
      (|(|x| - m k)| = |(|x| - m j)| ∧ (rm = .rne → k % 2 = 0) ∧ (rm = .rmm → m j < m k))) ∧
    (tooBig → r.2 = 5) ∧ (¬tooBig → m k = |x| → r.2 = 0) ∧ (¬tooBig → m k ≠ |x| → tiny → r.2 = 3) ∧
    (¬tooBig → m k ≠ |x| → ¬tiny → r.2 = 1))

/-- The real value of an operand element of a matrix product by its type (R40, R91, R92). -/
noncomputable def elemReal (ty v : Nat) : ℝ :=
  match ty with
  | 0 => codeValue 8 23 v
  | 1 => codeValue 8 7 v
  | 2 => codeValue 5 10 v
  | 3 => codeValue 4 3 v
  | 4 => codeValue 5 2 v
  | 5 => codeValue 2 1 v
  | 6 => ((BitVec.ofNat 8 v).toInt : ℝ)
  | _ => if v = 1 then 1 else if v = 3 then -1 else 0

/-- An operand element that is neither an infinity nor a NaN, and not the ternary code 0b10. -/
def FiniteElem (ty v : Nat) : Prop :=
  v < 2 ^ typeWidth ty ∧ (ty = 0 → FiniteCode 8 23 v) ∧ (ty = 1 → FiniteCode 8 7 v) ∧ (ty = 2 → FiniteCode 5 10 v) ∧
  (ty = 3 → v % 128 ≠ 127) ∧ (ty = 4 → FiniteCode 5 2 v) ∧ (ty = 7 → v ≠ 2)

/-- `n` is the real number `x` rounded to an integer (R95). -/
def RoundsInt (rm : Rm) (x : ℝ) (n : Int) : Prop :=
  match rm with
  | .rtz => n = if 0 ≤ x then ⌊x⌋ else ⌈x⌉
  | .rdn => n = ⌊x⌋
  | .rup => n = ⌈x⌉
  | .rne => |x - n| ≤ 1 / 2 ∧ (|x - n| = 1 / 2 → n % 2 = 0)
  | .rmm => |x - n| ≤ 1 / 2 ∧ (|x - n| = 1 / 2 → |x| < |(n : ℝ)|)

/-! ### Words that change one record of the thread -/

/-- A word that writes `v` to d, changes the running thread by `upd` and nothing else, and goes on. -/
def Updates (s t : State) (p : BitVec 1) (d : BitVec 5) (v : Word) (upd : Thread → Thread) : Prop :=
  Behind s t p ∧ Wrote s t d v ∧ SameOutside s t ∧ (∀ k, k ≠ s.cur → th t k = th s k) ∧
  regMask (me t) (me s) = upd (me s)

/-- The bundle at the pc issues for the first time: no stage of a holding instruction is behind it (R52). -/
def Fresh (s : State) : Prop := (me s).hold = none

/-! ### Scalar accesses (R64, R176, R244, R283) -/

/-- The effective address of a scalar load or store: a's value plus the sign-extended immediate times the access size. -/
def accessAddr (s : State) (a : BitVec 5) (imm : BitVec 8) (size : Nat) : Word := rd s a + BitVec.ofInt 64 (imm.toInt * size)

/-- The running thread's access of `size` bytes lies in its scratchpad window, at an offset inside the scratchpad part of
its core's array (R64). -/
def InScratch (s : State) (ea : Word) (size off : Nat) : Prop :=
  (me s).u.lwb.getLsbD 0 = true ∧ ea.toNat = (me s).u.lwb.toNat / 2 ^ 19 * 2 ^ 19 + off ∧ off < 2 ^ 19 ∧
  off + size ≤ (co s (s.cur / 16)).sp * 0x10000

/-- The address lies in neither window of the running thread (R64, R176). -/
def NoWindow (s : State) (ea : Word) : Prop :=
  ((me s).u.lwb.getLsbD 0 = false ∨ ea.toNat / 2 ^ 19 ≠ (me s).u.lwb.toNat / 2 ^ 19) ∧
  ((co s (s.cur / 16)).ncbase.getLsbD 0 = false ∨ ea.toNat / 2 ^ 21 ≠ (co s (s.cur / 16)).ncbase.toNat / 2 ^ 21)

/-- The address does not lie in the near window of a core (R176). -/
def NoWindowAt (s : State) (core : Nat) (ea : Word) : Prop :=
  (co s core).ncbase.getLsbD 0 = false ∨ ea.toNat / 2 ^ 21 ≠ (co s core).ncbase.toNat / 2 ^ 21

/-- The running thread's addresses are physical: at hypervisor privilege, or with both stages Bare (R283). -/
def Physical (s : State) : Prop :=
  (me s).priv = .hyp ∨
    ((cx s (me s).ctx).sxlat.toNat / 2 ^ 60 = 0 ∧ (cx s (me s).ctx).hgxlat.toNat / 2 ^ 60 = 0 ∧ (cx s (me s).ctx).hostpt = false)

/-- The running thread's access names byte `k` and on of this package's device memory, in a granule of its partition
(R283, R351, R364). -/
def InMemory (s : State) (ea : Word) (size k : Nat) : Prop :=
  Physical s ∧ NoWindow s ea ∧ s.pkg < 256 ∧ ea.toNat = s.pkg * 2 ^ 40 + k ∧ k + size ≤ 2 ^ 40 ∧
  (granule s (k / 2 ^ 30)).part = (cx s (me s).ctx).part

/-- A thread has no store or posted operation that is not performed, and none that waits for a path. -/
def NothingPosted (s : State) (tid : Nat) : Prop :=
  (th s tid).stores = [] ∧ (th s tid).sent = [] ∧ (∀ p ∈ s.posts, p.tid ≠ tid) ∧ ∀ x ∈ s.stuck, x.tid ≠ tid

/-- Loaded data of `size` bytes: zero-extended, or sign-extended. -/
def loaded (size : Nat) (signed : Bool) (v : Nat) : Word :=
  if signed then BitVec.ofInt 64 (BitVec.ofNat (8 * size) v).toInt else BitVec.ofNat 64 v

/-- The seven loads with their access sizes and extensions (R64). -/
def loadForms (p : BitVec 1) (d a : BitVec 5) (la : BitVec 4) (imm : BitVec 8) : List (Instr × Nat × Bool) :=
  [(.ldb p d a la imm, 1, true), (.ldh p d a la imm, 2, true), (.ldw p d a la imm, 4, true), (.ldd p d a la imm, 8, true),
   (.ldbu p d a la imm, 1, false), (.ldhu p d a la imm, 2, false), (.ldwu p d a la imm, 4, false)]

/-- The four stores with their access sizes (R64). -/
def storeForms (p : BitVec 1) (d a : BitVec 5) (imm : BitVec 8) : List (Instr × Nat) :=
  [(.stb p d a imm, 1), (.sth p d a imm, 2), (.stw p d a imm, 4), (.std p d a imm, 8)]

/-- The pc and the thread's store queue. -/
def storeMask (n o : Thread) : Thread := { pcMask n o with stores := o.stores }

/-- Outside the threads and the model's order of stores the state is unchanged. -/
def SameButOrder (s t : State) : Prop := { t with threads := s.threads, last := s.last, order := s.order } = s

/-- No other thread changes. -/
def OthersSame (s t : State) (tid : Nat) : Prop := ∀ k, k ≠ tid → th t k = th s k

/-! ### Vector words (R110-R139) -/

/-- What a vector word entering the queue changes of its thread: the pc, the queue and, when it continues a cut
instruction, `VRS`. -/
def vecMask (n o : Thread) : Thread := { pcMask n o with v := { n.v with queue := o.v.queue, vrs := o.v.vrs } }

/-- A vector word enters the queue of its thread (R115): behind the words there, with the fields of the word (`o` its
operation, `d`, `a`, `b`, `k` its registers, `sb` the scalar bit, `ew` the element width), `VL`, `VT`, `VMT`, `FRM`,
`WBASE`, `WCTR`, the privilege, the word and the values `ga` and `gb` of its general registers. A load or a reduction
takes its first element from `VRS` and clears it when `VRS.CONT` is 1 (R122); the last addition of a `vfredt` is always made
(R139). Nothing else changes. -/
def Enters (s : State) (i : Instr) (p : BitVec 1) (o : VOp) (d a b : BitVec 5) (k : BitVec 3) (sb : BitVec 1)
    (ew : BitVec 2) (ga gb : Word) : Prop :=
  let cont := o.canCut && (vrsNow s).getLsbD 63
  let cut := (vrsNow s).toNat % 2 ^ 13
  let first := if o = .vfredt then min cut (pow2Up (vlNow s) - 1) else cut
  ∃ t e w, exec i s = .next t ∧ encode i = some w ∧ Behind s t p ∧
    (me t).v.queue = (me s).v.queue ++ [e] ∧ (me t).v.vrs = (if cont then 0 else (me s).v.vrs) ∧
    e = { op := o, d := d.toNat, a := a.toNat, b := b.toNat, k := k.toNat, sb := sb == 1, ew := ew.toNat, pc := (me s).pc,
          slot := s.slot, vl := vlNow s, vt := vtNow s, vmt := vmtNow s, frm := frmOf s, wbase := (me s).v.wbase,
          wctr := (me s).v.wctr, ga := ga, gb := gb, elem := if cont then first else 0,
          cont := cont, beats := 0, priv := (me s).priv, word := w, seq := s.order } ∧
    vecMask (me t) (me s) = me s ∧ OthersSame s t s.cur ∧ SameButOrder s t ∧ ∀ x, mget t.mem x = mget s.mem x

/-- Room in the vector queue of a thread with depth rows, and no entry of length 0 (R115, R119). -/
def QueueRoom (s : State) : Prop :=
  (me s).v.rows ≠ 0 ∧ (me s).v.queue.length < 8 ∧ vlNow s ≠ 0 ∧ ∀ e ∈ (me s).v.queue, e.vl ≠ 0

/-- The type classes of R125. -/
def IntType (s : State) : Prop := vtNow s = 6 ∨ vtNow s = 8 ∨ vtNow s = 10 ∨ vtNow s = 11
def FloatType (s : State) : Prop := vtNow s = 0 ∨ vtNow s = 1 ∨ vtNow s = 2 ∨ vtNow s = 9
def SomeType (s : State) : Prop := vtNow s < 12 ∧ vtNow s ≠ 7

/-- The INT words with two vector operands, or a scalar (R134). -/
noncomputable def vintForms (d a b : BitVec 5) (k : BitVec 3) (sb : BitVec 1) : List (Instr × VOp) :=
  [(.vadd d a b k sb, .vadd), (.vsub d a b k sb, .vsub), (.vmul d a b k sb, .vmul), (.vmulh d a b k sb, .vmulh),
   (.vmin d a b k sb, .vmin), (.vmax d a b k sb, .vmax), (.vminu d a b k sb, .vminu), (.vmaxu d a b k sb, .vmaxu),
   (.vsll d a b k sb, .vsll), (.vsrl d a b k sb, .vsrl), (.vsra d a b k sb, .vsra), (.vsadd d a b k sb, .vsadd),
   (.vssub d a b k sb, .vssub), (.vmacc d a b k sb, .vmacc), (.vredsum d a b k sb, .vredsum),
   (.vredmin d a b k sb, .vredmin), (.vredmax d a b k sb, .vredmax)]

/-- The FLT words with two vector operands, or a scalar (R135, R138). -/
noncomputable def vfpForms (d a b : BitVec 5) (k : BitVec 3) (sb : BitVec 1) : List (Instr × VOp) :=
  [(.vfadd d a b k sb, .vfadd), (.vfsub d a b k sb, .vfsub), (.vfmul d a b k sb, .vfmul), (.vfdiv d a b k sb, .vfdiv),
   (.vfmin d a b k sb, .vfmin), (.vfmax d a b k sb, .vfmax), (.vfma d a b k sb, .vfma), (.vfnma d a b k sb, .vfnma),
   (.vfredo d a b k sb, .vfredo), (.vfredmin d a b k sb, .vfredmin), (.vfredmax d a b k sb, .vfredmax)]

/-- The words with two vector operands, or a scalar, that take any type (R134, R140). -/
noncomputable def vanyForms (d a b : BitVec 5) (k : BitVec 3) (sb : BitVec 1) : List (Instr × VOp) :=
  [(.vand d a b k sb, .vand), (.vor d a b k sb, .vor), (.vxor d a b k sb, .vxor), (.vmerge d a b k sb, .vmerge)]

/-- The compares of a class: the destination is a mask register (R136). -/
noncomputable def vcmpInt (d a b : BitVec 5) (k : BitVec 3) (sb : BitVec 1) : List (Instr × VOp) :=
  [(.vclt d a b k sb, .vclt), (.vcle d a b k sb, .vcle), (.vcltu d a b k sb, .vcltu), (.vcleu d a b k sb, .vcleu)]
noncomputable def vcmpFloat (d a b : BitVec 5) (k : BitVec 3) (sb : BitVec 1) : List (Instr × VOp) :=
  [(.vfceq d a b k sb, .vfceq), (.vfclt d a b k sb, .vfclt), (.vfcle d a b k sb, .vfcle), (.vfcun d a b k sb, .vfcun)]
noncomputable def vcmpAny (d a b : BitVec 5) (k : BitVec 3) (sb : BitVec 1) : List (Instr × VOp) :=
  [(.vceq d a b k sb, .vceq), (.vcne d a b k sb, .vcne)]

/-- Element `i` of a queued instruction is active (R112): below its length, with its mask bit 1. -/
def ActiveElem (s : State) (tid : Nat) (e : VEntry) (i : Nat) : Prop :=
  i < e.vl ∧ i < 8192 ∧ (e.k = 0 ∨ (tget (th s tid).v.masks e.k 0).getLsbD i = true)

/-- Element `i` is the next one that a queued load or store accesses (R117, R129). -/
def NextElem (s : State) (tid : Nat) (e : VEntry) (i : Nat) : Prop :=
  e.elem ≤ i ∧ ActiveElem s tid e i ∧ ∀ j, e.elem ≤ j → j < i → ¬ActiveElem s tid e j

/-- The one instruction `e` in the lane array's queues of a core is that of a Ready slot, of a length that is not 0 or that it
ignores (R119). -/
def LaneHolds (s : State) (core slot : Nat) (e : VEntry) : Prop :=
  slot < 16 ∧ (th s (core * 16 + slot)).state = .ready ∧ (th s (core * 16 + slot)).v.queue = [e] ∧
  (∀ k < 16, k ≠ slot → (th s (core * 16 + k)).v.queue = []) ∧ (e.vl = 0 → e.op = .vmvgv ∨ e.op = .vmvvg) ∧ e.vl ≤ 8192 ∧ s.vregs.wf = true ∧ e.d < 32

/-- Beats of an instruction that is no reduction (R119). -/
def LaneLength (e : VEntry) : Nat :=
  let rows (w : Nat) : Nat := (e.vl * w + 1023) / 1024
  let w := typeWidth e.vt
  if e.op = .vmvgv ∨ e.op = .vmvvg then 1
  else if e.op = .vfdiv ∨ e.op = .vfsqrt then 4 * rows w
  else if e.op ∈ [.vslup, .vsldn, .vrgather, .vcompress] then 2 * rows w
  else if e.op ∈ [.mand, .mor, .mxor, .mandn, .mnot, .mset, .mpop, .mfirst] then rows 1
  else if e.op ∈ [.vcvtN, .vcvtW, .vcvtFi, .vcvtIf] then rows (max w (typeWidth e.b))
  else if e.op = .vcvtQ4 ∨ e.op = .vcvtQ8 then 3 * rows 32
  else rows w

/-- The queue of a slot is empty after the last beat of its instruction, which went to it; of the machine, nothing but that
thread, the vector registers and the slot granted last has changed. -/
def LaneEnds (s t : State) (core slot : Nat) : Prop :=
  (th t (core * 16 + slot)).v.queue = [] ∧ OthersSame s t (core * 16 + slot) ∧
  { t with threads := s.threads, vregs := s.vregs, cores := s.cores } = s ∧
  co t core = { co s core with lane := slot } ∧ ∀ c, c ≠ core → co t c = co s c

/-- The last beat writes the elements of vd, of `w` bits, that `W` names, with the values `G`; the other elements and registers
stay; `FLAGS` gains the bits that `raised` names and the dirty map register d (R108, R114, R119, R120). -/
def LaneWrites (s : State) (core slot d w : Nat) (W : Nat → Prop) (G : Nat → Nat) (raised : Nat → Prop) : Prop :=
  let tid := core * 16 + slot
  ∃ t, exec (.laneBeat core) s = .next t ∧ LaneEnds s t core slot ∧
    let N := th t tid
    let T := th s tid
    (∀ i < 8192, i * w < 32768 → (W i → vGet t tid d w i = G i) ∧ (¬W i → vGet t tid d w i = vGet s tid d w i)) ∧
    (∀ x, x < vKey tid d 0 ∨ vKey tid d 0 + 4096 ≤ x → mget t.vregs x = mget s.vregs x) ∧
    (∀ j < 5, N.u.flags.getLsbD j = true ↔ T.u.flags.getLsbD j = true ∨ raised j) ∧
    (∀ j < 32, N.v.vdm.getLsbD j = true ↔ T.v.vdm.getLsbD j = true ∨ (j = d ∧ ∃ i < 8192, i * w < 32768 ∧ W i)) ∧
    { N with u := { N.u with flags := T.u.flags }, v := { N.v with queue := T.v.queue, vdm := T.v.vdm } } = T

/-- The last beat writes each active element of vd with a result and its flags (R112, R134, R135, R140, R141). -/
def LaneElements (s : State) (core slot : Nat) (e : VEntry) (w : Nat) (G : Nat → Nat × BitVec 5) : Prop :=
  let W := ActiveElem s (core * 16 + slot) e
  LaneWrites s core slot e.d w W (fun i => (G i).1) fun j => ∃ i < e.vl, W i ∧ (G i).2.getLsbD j = true

/-- Element `i` of a queued instruction is active, as a Bool (R112). -/
def activeBit (s : State) (tid : Nat) (e : VEntry) (i : Nat) : Bool :=
  i < e.vl && (e.k == 0 || (tget (th s tid).v.masks e.k 0).getLsbD i)

/-- The last beat writes bits of mask register d: bit `i` is what `B i` names, if it names one, else what it was; m0 discards
the bits (R35, R136, R137). -/
def LaneMask (s : State) (core slot d : Nat) (B : Nat → Option Bool) (raised : Nat → Prop) : Prop :=
  let tid := core * 16 + slot
  ∃ t, exec (.laneBeat core) s = .next t ∧ LaneEnds s t core slot ∧ t.vregs = s.vregs ∧
    let N := th t tid
    let T := th s tid
    (d ≠ 0 → ∀ i < 8192, (tget N.v.masks d 0).getLsbD i = (B i).getD ((tget T.v.masks d 0).getLsbD i)) ∧
    (∀ m, m ≠ d ∨ m = 0 → tget N.v.masks m 0 = tget T.v.masks m 0) ∧
    (∀ j < 5, N.u.flags.getLsbD j = true ↔ T.u.flags.getLsbD j = true ∨ raised j) ∧
    { N with u := { N.u with flags := T.u.flags }, v := { N.v with queue := T.v.queue, masks := T.v.masks } } = T

/-- The last beat writes general register d. -/
def LaneWord (s : State) (core slot d : Nat) (v : Word) : Prop :=
  let tid := core * 16 + slot
  ∃ t, exec (.laneBeat core) s = .next t ∧ LaneEnds s t core slot ∧ t.vregs = s.vregs ∧
    let N := th t tid
    let T := th s tid
    (d ≠ 0 → tget N.g d 0 = v) ∧ (∀ r, r ≠ d ∨ d = 0 → tget N.g r 0 = tget T.g r 0) ∧
    { N with g := T.g, v := { N.v with queue := T.v.queue } } = T

/-- Element `i` after `j` levels of the addition tree over `2 ^ n` elements (R106). -/
def treeLevel (add : Nat → Nat → Nat × BitVec 5) (x : Nat → Nat) (n : Nat) : Nat → Nat → Nat × BitVec 5
  | 0, i => (x i, 0)
  | j + 1, i => add (treeLevel add x n j i).1 (treeLevel add x n j (i + 2 ^ (n - j - 1))).1

/-- A thread's queue, dirty map and nothing else. -/
def runMask (n o : Thread) : Thread := { n with v := { n.v with queue := o.v.queue, vdm := o.v.vdm } }

/-- Outside the threads and the vector registers the state is unchanged. -/
def SameButVregs (s t : State) : Prop := { t with threads := s.threads, vregs := s.vregs } = s

/-- Every byte of the vector registers but `n` bytes from `k` is unchanged. -/
def VregsKept (s t : State) (k n : Nat) : Prop := ∀ x, x < k ∨ k + n ≤ x → mget t.vregs x = mget s.vregs x

/-! ### Tiles (R143-R171) -/

/-- The tile state of the core is open to the running thread (R145, R146, R158): at user privilege its TS is not Off, at
supervisor privilege no other context holds. -/
def TileOpen (s : State) : Prop :=
  ((me s).priv = .user → (me s).ts ≠ 0) ∧
  ((me s).priv = .sup →
    (co s (s.cur / 16)).town.hv = false ∨ (co s (s.cur / 16)).town.vmid = (cx s (me s).ctx).vmid)

/-- The running thread holds the tile state of its core (R144). -/
def HoldsTiles (s : State) : Prop :=
  (me s).ts ≠ 0 ∧ (co s (s.cur / 16)).town.hv = true ∧ (co s (s.cur / 16)).town.hold = s.cur % 16

/-- A streaming TILE word enters its core's command queue with what it captures, and nothing else changes (R149, R151). -/
def Queues (s : State) (i : Instr) (p : BitVec 1) (o : TOp) (t : BitVec 2) (c : BitVec 1) (a b : BitVec 5) (y : BitVec 4)
    (ra : Nat) : Prop :=
  let core := s.cur / 16
  ∃ u w, encode i = some w ∧ exec i s = .next u ∧ Behind s u p ∧
    (co u core).tq = (co s core).tq ++
      [{ op := o, t := t.toNat, c := c == 1, a := ra, b := b.toNat, y := y.toNat, tid := s.cur, pc := (me s).pc, ga := rd s a,
         gb := rd s b, cfg := (co s core).cfg, fmt := (me s).u.fmt, scb := (me s).u.scb, vt := vtNow s, priv := (me s).priv,
         ctx := (me s).ctx, word := w, seq := s.order }] ∧
    { co u core with tq := (co s core).tq } = co s core ∧ (∀ k, k ≠ core → co u k = co s k) ∧
    pcMask (me u) (me s) = me s ∧ OthersSame s u s.cur ∧ { u with threads := s.threads, last := s.last, cores := s.cores } = s

/-- The near counter that an address names in the near window of a core: entry `e` of core `n` (R176). -/
def NearAddr (s : State) (core : Nat) (a : Word) (n e : Nat) : Prop :=
  (co s core).ncbase.getLsbD 0 = true ∧ a.toNat = (co s core).ncbase.toNat / 2 ^ 21 * 2 ^ 21 + n * 2048 + e * 8 ∧
  n < 1024 ∧ e < 256

/-- Nobody waits on a counter, no counter is armed, no error stands in memory, no operation waits for a path and no bench
is withdrawn. -/
def CalmCounters (s : State) : Prop :=
  s.waiters = [] ∧ s.arms = [] ∧ s.poison = [] ∧ s.stuck = [] ∧ s.lehr.withdrawn = []

/-- The address of `TCC` without its scope bits (R148). -/
def tccAddr (w : Word) : Word := BitVec.ofNat 64 (w.toNat / 8 * 8)

/-- The completion counter of a command with C = 1 is a near counter of the partition of context `ctx` (R161, R176). -/
def CountReady (s : State) (core ctx : Nat) (c : Bool) (tcc : Word) : Prop :=
  c = true → ∃ n e, NearAddr s core (tccAddr tcc) n e ∧ partOfCore s n = (cx s ctx).part

/-- A command with C = 1 adds 1 to its counter, with C = 0 to none, and every other near counter stays (R161). -/
def CountsOne (s t : State) (core : Nat) (c : Bool) (tcc : Word) : Prop :=
  (c = false → t.near = s.near) ∧
  (c = true → ∀ n e, NearAddr s core (tccAddr tcc) n e →
    tget t.near (n * 256 + e) 0 = tget s.near (n * 256 + e) 0 + 1 ∧ ∀ k, k ≠ n * 256 + e → tget t.near k 0 = tget s.near k 0)

/-- What a holding TILE word may change of its thread. -/
def tileMask (n o : Thread) : Thread := { pcMask n o with u := { n.u with flags := o.u.flags }, ts := o.ts }

/-- The rows that a tile memory word names: by a and the stride b, or by the index list at scratchpad offset b, where
0x8000_0000 skips the row (R163). -/
def tileRows (s : State) (indexed : Bool) (a b : BitVec 5) (i : Nat) : Option Word :=
  if indexed then
    let x := mrd s.spads (s.cur / 16 * 0x80000 + (rd s b).toNat + 4 * i) 4
    if x = 0x80000000 then none else some (rd s a + BitVec.ofInt 64 (BitVec.ofNat 32 x).toInt)
  else some (rd s a + BitVec.ofNat 64 i * rd s b)

/-- The Marver of a core's bench runs nothing, and no other core of the bench has a command, so that the next grant is this
core's (R150). -/
def MarverFree (s : State) (core : Nat) : Prop :=
  let b := tget s.benches (benchOf core) {}
  b.running = none ∧ b.last < 8 ∧ ∃ pos < 8, coreAt (benchOf core) pos = core ∧
    ∀ k < 8, k ≠ pos → (co s (coreAt (benchOf core) k)).tq = []

/-- A core's only command has come to its Marver and gone: its turn was the last, with no grants left (R150). -/
def MarverServed (s t : State) (core : Nat) : Prop :=
  let b := tget t.benches (benchOf core) {}
  coreAt (benchOf core) b.last = core ∧ b.left = 0 ∧ b.running = none ∧
  ∀ k, k ≠ benchOf core → tget t.benches k {} = tget s.benches k {}

/-- A core's queue has become empty: its position has no grants left at the Marver (R150). -/
def GrantsEnd (s t : State) (core : Nat) : Prop := ∀ k,
  let b := tget s.benches k {}
  tget t.benches k {} = if k = benchOf core ∧ coreAt k b.last = core then { b with left := 0 } else b

/-- Tile state of a core is written: the held data and the holder's TS are Dirty (R146, R147); no other thread and nothing
else of the core but its queue changes. -/
def Dirtied (s t : State) (core : Nat) : Prop :=
  let w := (co s core).town
  let h := core * 16 + w.hold
  { co t core with tq := (co s core).tq } =
    { co s core with town := if w.hv = true then { w with hts := 3 } else w } ∧
  (∀ k, k ≠ core → co t k = co s k) ∧
  ∀ k, th t k = if w.hv = true ∧ k = h ∧ (th s h).ts ≠ 0 then { th s h with ts := 3 } else th s k

/-- Element `k` of `w` bits of a row at offset `o` of a core's scratchpad (R3, R153). -/
def spadElem (s : State) (core o w k : Nat) : Nat :=
  mrd s.spads (core * 0x80000 + o + k * w / 8) ((w + 7) / 8) / 2 ^ (k * w % 8) % 2 ^ w

/-- The operands of a matrix product stand in the scratchpads of cores `ca` and `cb`: its own, or for `tile.gmma` those of two
members of its gang, whose cores are of its partition (R153, R167, R350). -/
def PanelAt (s : State) (c : TileCmd) (ca cb : Nat) : Prop :=
  let core := c.tid / 16
  (c.op ≠ .tileGmma ∧ ca = core ∧ cb = core) ∨
  (c.op = .tileGmma ∧ c.peers = none ∧ ∀ p ∈ [(c.ga, ca), (c.gb, cb)], p.1.toNat < 2 ^ 31 ∧
    ∃ k r x, memberOf s c.tid = some (k, r) ∧ rankThread (gr s k) (p.1.toNat / 2 ^ 19) = some x ∧ p.2 = x / 16 ∧
      partOfCore s p.2 = partOfCore s core)

/-- A step of a core's running command leaves its queue at `q`: the cells of register `r` that `W` names take the values `G`,
every other cell stays, the held data is Dirty (R147), and nothing else changes. -/
def StepWrites (s t : State) (core r : Nat) (q : List TileCmd) (W : Nat → Nat → Prop) (G : Nat → Nat → Nat) : Prop :=
  (co t core).tq = q ∧ (∀ i < 128, ∀ j < 64, W i j → cell t core r i j = G i j) ∧
  (∀ k, (∀ i < 128, ∀ j < 64, W i j → k ≠ tKey core r i j) → tget t.tiles k 0 = tget s.tiles k 0) ∧ Dirtied s t core ∧
  { t with threads := s.threads, cores := s.cores, tiles := s.tiles } = s

/-- The checks of a tile memory word hold (R158, R163): tile state open, the operands aligned, the index list within the
scratchpad; and nothing of its thread or of its core's Marver is under way. -/
def TileReady (s : State) (indexed : Bool) (a b : BitVec 5) (n : Nat) : Prop :=
  let core := s.cur / 16
  TileOpen s ∧ (me s).v.queue = [] ∧ (co s core).tq = [] ∧ (co s core).relPending = false ∧
  (co s core).tfault = none ∧ (me s).u.afcode.getLsbD 63 = false ∧ NothingPosted s s.cur ∧ (rd s a).toNat % n = 0 ∧
  (indexed = false → (rd s b).toNat % n = 0) ∧
  (indexed = true → (rd s b).toNat + 4 * (co s core).cfg.tm ≤ (co s core).sp * 0x10000 ∧
    ∀ i < (co s core).cfg.tm, mrd s.spads (core * 0x80000 + (rd s b).toNat + 4 * i) 4 % n = 0)

/-- Outside the threads, the cores, the benches, the tiles, the vector registers and the near counters the state is
unchanged. -/
def SameButTiles (s t : State) : Prop :=
  { t with threads := s.threads, last := s.last, cores := s.cores, tiles := s.tiles, vregs := s.vregs, near := s.near,
           benches := s.benches } = s

/-! ### Counters and atomics (R175-R200, R254-R257) -/

/-- The counter that an aligned address names for the running thread, with no halo region in the way (R176, R184): a near
counter of its partition, or, outside the near window, eight bytes of this package's device memory in its partition. -/
def NamesCounter (s : State) (a : Word) (l : Loc) : Prop :=
  let core := s.cur / 16
  let part := (cx s (me s).ctx).part
  a.toNat % 8 = 0 ∧ s.halos = [] ∧
  ((∃ n e, l = .near n e ∧ NearAddr s core a n e ∧ partOfCore s n = part) ∨
   (∃ k, l = .mem k ∧ ((co s core).ncbase.getLsbD 0 = false ∨ a.toNat / 2 ^ 21 ≠ (co s core).ncbase.toNat / 2 ^ 21) ∧
     Physical s ∧ s.pkg < 256 ∧ a.toNat = s.pkg * 2 ^ 40 + k ∧ k + 8 ≤ 2 ^ 40 ∧ (granule s (k / 2 ^ 30)).part = part))

/-- No queued vector store of the running thread stands before a release (R118). -/
def NoVectorStore (s : State) : Prop := ∀ e ∈ (me s).v.queue, e.op.isStore = false

/-- An operation on its way to a home, as the running thread posts it (R183, R236). -/
def posted (s : State) (k : PostKind) (a : Word) (l : Loc) (n cmp : Word) (sc d : Nat) : Post :=
  { kind := k, seq := s.order, tid := s.cur, ctx := (me s).ctx, addr := a, loc := l, amount := n, cmp := cmp, scope := sc,
    d := d, pc := (me s).pc }

/-- A posted operation leaves the thread, which goes on; nothing else changes: no memory, no register. -/
def PostsOne (s t : State) (p : BitVec 1) (x : Post) : Prop :=
  Behind s t p ∧ t.posts = s.posts ++ [x] ∧ t.order = s.order + 1 ∧ pcMask (me t) (me s) = me s ∧ OthersSame s t s.cur ∧
  { t with threads := s.threads, last := s.last, order := s.order, posts := s.posts } = s

/-- A long operation leaves the thread, which waits for its result in d under the lookahead count (R58). -/
def PostsLong (s t : State) (p : BitVec 1) (d : BitVec 5) (la : BitVec 4) (x : Post) : Prop :=
  Behind s t p ∧ t.posts = s.posts ++ [x] ∧ t.order = s.order + 1 ∧
  (me t).longs = (me s).longs ++ [{ d := d.toNat, left := la.toNat, res := .waiting, pc := (me s).pc }] ∧
  longMask (me t) (me s) = me s ∧ OthersSame s t s.cur ∧
  { t with threads := s.threads, last := s.last, order := s.order, posts := s.posts } = s

/-- A counter fault of the running thread: `WVAL` the reason, cause 11, the address as trap value (R177). -/
def CounterTrap (s t : State) (a : Word) (reason : Nat) : Prop :=
  TrapTo (setMe s { me s with u := { (me s).u with wval := BitVec.ofNat 64 reason } }) t 11 a

/-- `n` bytes at address `a` of a memory type of a thread stand at `l` (R19, R128, R270, R283): of its core's scratchpad; of that of a
member of its group whose core is in its partition; or, at hypervisor privilege, of this package's device memory in a granule of
its partition. -/
def PlaceOf (s : State) (tid : Nat) (priv : Priv) (mt : Nat) (a : Word) (n : Nat) (l : Loc) : Prop :=
  (mt = 1 ∧ a.toNat + n ≤ (co s (tid / 16)).sp * 0x10000 ∧ l = .spad (tid / 16) a.toNat) ∨
  (mt = 2 ∧ a.toNat < 2 ^ 31 ∧ ∃ k r x, memberOf s tid = some (k, r) ∧ rankThread (gr s k) (a.toNat / 2 ^ 19) = some x ∧
    partOfCore s (x / 16) = partOfCore s (tid / 16) ∧ a.toNat % 2 ^ 19 + n ≤ (co s (x / 16)).sp * 0x10000 ∧
    l = .spad (x / 16) (a.toNat % 2 ^ 19)) ∨
  (mt = 0 ∧ priv = .hyp ∧ s.pkg < 256 ∧ ∃ k, a.toNat = s.pkg * 2 ^ 40 + k ∧ k + n ≤ 2 ^ 40 ∧ k / 2 ^ 30 = (k + n - 1) / 2 ^ 30 ∧
    (granule s (k / 2 ^ 30)).part = (cx s (th s tid).ctx).part ∧ l = .mem k)

/-- The `n` bytes at a place, as a number. -/
def placeWord (s : State) (l : Loc) (n : Nat) : Nat :=
  match l with
  | .mem k => mrd s.mem k n
  | .spad c o => mrd s.spads (c * 0x80000 + o) n
  | .near c e => (tget s.near (c * 256 + e) 0).toNat

/-- Outside the threads and the vector registers only copies of lines in core arrays may have changed. -/
def FilledFor (s t : State) : Prop :=
  { t with threads := s.threads, vregs := s.vregs, cores := s.cores } = s ∧
  ∀ k, { co t k with l1 := (co s k).l1 } = co s k

/-- No copy of a peer or host line and no dirty halo byte is in the package. -/
def NoCopies (s : State) : Prop :=
  s.peerLines = [] ∧ s.hostLines = [] ∧ s.haloDirty = [] ∧ s.haloRep = [] ∧ s.halos = []

/-- The acquire and the release act on copies and version tags alone: but for the threads, the tags and the copies in core
arrays the state is unchanged. -/
def SameButTags (s t : State) : Prop :=
  { t with threads := s.threads, last := s.last, cores := s.cores, dv := s.dv } = s ∧
  ∀ k, { co t k with l1 := (co s k).l1, bv := (co s k).bv } = co s k

/-- The running thread has nothing under way: no queued vector instruction, store, record or posted operation. -/
def Settled (s : State) : Prop := (me s).v.queue = [] ∧ (me s).precs = [] ∧ NothingPosted s s.cur

/-- A home without error, on a bench that is in service: its eight bytes, as a value. -/
def counterAt (s : State) (l : Loc) : Word := BitVec.ofNat 64 (rdLoc s l 8)

/-- No other byte of memory or of a scratchpad, and no other near counter, changes with a word at a home. -/
def OnlyWord (s t : State) (l : Loc) (n : Nat) : Prop :=
  (∀ b, (∀ k, l = .mem k → b < k ∨ k + n ≤ b) → mget t.mem b = mget s.mem b) ∧
  (∀ b, (∀ c o, l = .spad c o → b < c * 0x80000 + o ∨ c * 0x80000 + o + n ≤ b) → mget t.spads b = mget s.spads b) ∧
  (∀ i, (∀ c e, l = .near c e → i ≠ c * 256 + e) → tget t.near i 0 = tget s.near i 0)

/-- The first waiting long result of a thread for this destination and bundle becomes known; no other changes (R58). -/
def Answered (s t : State) (tid d : Nat) (pc : Word) (v : Word) : Prop :=
  ∃ pre e post, (th s tid).longs = pre ++ e :: post ∧ e.d = d ∧ e.pc = pc ∧ e.res = .waiting ∧
    (th t tid).longs = pre ++ { e with res := .ready v } :: post ∧
    { th t tid with longs := (th s tid).longs } = th s tid ∧ OthersSame s t tid

/-- A thread has a waiting long result for this destination and bundle. -/
def Awaits (s : State) (tid d : Nat) (pc : Word) : Prop :=
  ∃ e ∈ (th s tid).longs, e.d = d ∧ e.pc = pc ∧ e.res = .waiting

/-- An operation of a thread stands alone on its way: no store of the thread and no other posted operation is before it. -/
def Alone (s : State) (n : Nat) (x : Post) : Prop :=
  s.posts[n]? = some x ∧ (th s x.tid).stores = [] ∧ (th s x.tid).sent = [] ∧ (th s x.tid).precs = [] ∧
  (th s x.tid).v.queue = [] ∧ (∀ y ∈ s.posts, y.tid = x.tid → x.seq ≤ y.seq)

/-- A home in this package. -/
def HereAt (l : Loc) : Prop :=
  (∃ k, l = .mem k ∧ k + 8 ≤ 2 ^ 40) ∨ (∃ c o, l = .spad c o ∧ o + 8 ≤ 0x80000) ∨ ∃ c e, l = .near c e ∧ e < 256

/-! ### Lines and halo regions (R228-R262) -/

/-- The word completes: control goes behind it, and nothing else changes. -/
def OnlyPc (s t : State) (p : BitVec 1) : Prop :=
  Behind s t p ∧ pcMask (me t) (me s) = me s ∧ OthersSame s t s.cur ∧ SameOutside s t

/-- The word holds its thread: the pc stays, and nothing but the model's note of the hold changes (R52). -/
def Holds (s t : State) : Prop :=
  t.last = .held ∧ { me t with hold := (me s).hold } = me s ∧ OthersSame s t s.cur ∧ SameOutside s t

/-- The bytes of a copy of a line, by offset. -/
def LineData (d : Memory) : Prop := d.wf = true ∧ ∀ e ∈ d, e.1 < 128

/-- The 64 bytes of half a host line at their home are the bytes of `d`, and every other byte of memory is unchanged. -/
def HalfWritten (s t : State) (half : Nat) (d : Memory) : Prop :=
  (∀ o < 64, mget t.mem (half * 64 + o) = mget d o) ∧
  ∀ b, b < half * 64 ∨ half * 64 + 64 ≤ b → mget t.mem b = mget s.mem b

/-- The 128 bytes of a line at their home are the bytes of `d`, and every other byte of memory is unchanged. -/
def LineWritten (s t : State) (line : Nat) (d : Memory) : Prop :=
  (∀ o < 128, mget t.mem (line * 128 + o) = mget d o) ∧
  ∀ b, b < line * 128 ∨ line * 128 + 128 ≤ b → mget t.mem b = mget s.mem b

/-- The running thread is a member, by rank `r`, of the gang in entry `k` of the group table (R206). -/
def InGang (s : State) (k r : Nat) : Prop := memberOf s s.cur = some (k, r) ∧ isGang (gr s k) = true

/-- The identifier of the group in an entry of the group table (R204). -/
def groupId (s : State) (k : Nat) : Nat := (gr s k).gen * 2 ^ 20 + k / 4096 * 2 ^ 15 + k % 4096

/-! ### Translation (R283-R305) -/

/-- A page-table entry that points to the next table: V 1, no permission, no reserved bit (R286). -/
def TablePte (p : Nat) : Prop := p % 1024 = 1 ∧ p < 2 ^ 54

/-- A leaf entry of 4 KiB with its permission bits R, W, X, U, accessed and dirty, plain memory, no reserved bit (R286). -/
def LeafPte (p : Nat) (r w x u : Bool) : Prop :=
  p < 2 ^ 54 ∧ p % 256 = 1 + 64 + 128 + 2 * r.toNat + 4 * w.toNat + 8 * x.toNat + 16 * u.toNat ∧ (r || x) = true ∧ (w → r)

/-- No access that was given a translation since invalidated is on its way, and no multicast stream runs (R296, R302). -/
def NoUses (s : State) : Prop := (∀ u ∈ s.uses, useLive s u = false) ∧ s.streams = []

/-- The five-level table of a first stage gives the entry `leaf` at level 0 for an address: each level's entry in this
package's memory, in the partition's granules, with the second stage Bare (R283, R284, R288, R289). -/
def Walks (s : State) (c : Ctx) (va leaf : Nat) : Prop :=
  ∃ k4 k3 k2 k1 k0 : Nat,
    let pte (k : Nat) := mrd s.mem k 8
    let at_ (base k lvl : Nat) : Prop := base * 4096 + va / 2 ^ (12 + 9 * lvl) % 512 * 8 = s.pkg * 2 ^ 40 + k ∧ k < 2 ^ 40 ∧
      (granule s (k / 2 ^ 30)).part = c.part
    at_ (c.sxlat.toNat % 2 ^ 44) k4 4 ∧ TablePte (pte k4) ∧ at_ (pte k4 / 1024) k3 3 ∧ TablePte (pte k3) ∧
    at_ (pte k3 / 1024) k2 2 ∧ TablePte (pte k2) ∧ at_ (pte k2 / 1024) k1 1 ∧ TablePte (pte k1) ∧
    at_ (pte k1 / 1024) k0 0 ∧ pte k0 = leaf

/-- A context whose first stage is Sv57 and whose second stage is Bare (R285). -/
def FirstStage (c : Ctx) : Prop :=
  c.sxlat.toNat / 2 ^ 60 ≠ 0 ∧ c.hgxlat.toNat / 2 ^ 60 = 0 ∧ c.hostpt = false

/-- The entry of the page-request queue that an answer names, with the generation it gives (R300). -/
def AnswerNames (s : State) (ans : Word) (k : Nat) (e : PageReq) : Prop :=
  s.pages = [(k, e)] ∧ k = ans.toNat % 2 ^ 12 ∧ e.gen = ans.toNat / 2 ^ 16 % 2 ^ 16

/-! ### Groups (R204-R217) -/

/-- The group that an identifier names, of the running thread's own context (R204, R208). -/
def NamesGroup (s : State) (gid : Word) (k : Nat) : Prop :=
  groupKey s gid.toNat = some k ∧ (gr s k).ctx = (me s).ctx

/-- The lowest free entry of the group table of the running thread's partition (R204). -/
def FreeEntry (s : State) (k : Nat) : Prop :=
  let part := (cx s (me s).ctx).part
  ∃ i < 4096, k = part * 4096 + i ∧ (gr s k).used = false ∧ ∀ j < i, (gr s (part * 4096 + j)).used = true

/-- A GRP word that fails: the status in d, and nothing else (R208). -/
def Status (s t : State) (p : BitVec 1) (d : BitVec 5) (n : Int) : Prop := RegWord s t p d (BitVec.ofInt 64 n)

/-- A GRP word that writes `v` to d and makes entry `k` of the group table `g`; nothing else changes. -/
def GroupWord (s t : State) (p : BitVec 1) (d : BitVec 5) (v : Word) (k : Nat) (g : Group) : Prop :=
  Behind s t p ∧ Wrote s t d v ∧ gr t k = g ∧ (∀ j, j ≠ k → gr t j = gr s j) ∧ regMask (me t) (me s) = me s ∧
  OthersSame s t s.cur ∧ { t with threads := s.threads, last := s.last, groups := s.groups } = s

/-- The entry of a group that has dissolved: free, the generation advanced, 1 after 4,095 (R204). -/
def freed (g : Group) : Group := { gen := if g.gen = 4095 then 1 else g.gen + 1 }

/-- A rank that no member of a group has. -/
def FreeRank (g : Group) (r : Nat) : Prop := r ≤ 4095 ∧ ∀ m ∈ g.members, m.1 ≠ r

/-- No halo region exists. -/
def NoHalos (s : State) : Prop := s.halos = [] ∧ s.haloDirty = []

/-- Core `c` receives by mask bit `n` of a multicast (R214): the bit names a current member of the issuer's group, not the
issuer, whose scratchpad holds the destination. -/
def Receives (s : State) (x : McastDesc) (n c : Nat) : Prop :=
  x.mask / 2 ^ n % 2 = 1 ∧ x.base + n ≤ 4095 ∧
  ∃ k r tid, memberOf s s.cur = some (k, r) ∧ r ≠ x.base + n ∧ rankThread (gr s k) (x.base + n) = some tid ∧ c = tid / 16 ∧
    x.dst + (x.rows - 1) * x.dstride + x.rowb ≤ (co s c).sp * 0x10000

/-! ### Threads (R71-R84, R246) -/

/-- The thread that a THR word names (R76): bits [13:0] of the operand, not the issuer, no member of a gang, by an issuer
above user privilege: at supervisor privilege a thread of its context or a Free slot of its partition, at hypervisor privilege
a slot of a partition that it administers. -/
def Targets (s : State) (A : Word) (x : Nat) : Prop :=
  A.toNat % 2 ^ 14 = x ∧ x ≠ s.cur ∧ inGang s x = false ∧
  (((me s).priv = .sup ∧
      (if (th s x).state = .free then partOfCore s (x / 16) = (cx s (me s).ctx).part else (th s x).ctx = (me s).ctx)) ∨
    ((me s).priv = .hyp ∧ administers s (s.cur / 16) (partOfCore s (x / 16)) = true))

/-- Nothing of a thread is under way: no pending long result, vector instruction, store, record, tile command, wait met or
recorded trap. -/
def Idle (s : State) (tid : Nat) : Prop :=
  let T := th s tid
  T.longs = [] ∧ T.v.queue = [] ∧ T.stores = [] ∧ T.sent = [] ∧ T.precs = [] ∧ T.waitMet = false ∧ T.due = none ∧
  (co s (tid / 16)).tq = []

/-- The thread of slot `tid` has ended (R75): the slot is Free, without depth rows, and its kernel, when it has one, counts
it, with its flags, and drains at its last. -/
def EndedThread (s t : State) (tid : Nat) : Prop :=
  let T := th s tid
  let K := kn s T.kernel
  (th t tid).state = .free ∧ (th t tid).v.rows = 0 ∧ (th t tid).kernel = 0 ∧ OthersSame s t tid ∧
  (∀ x, mget t.mem x = mget s.mem x) ∧ (T.kernel = 0 → t.kernels = s.kernels) ∧
  (T.kernel ≠ 0 → kn t T.kernel =
    { K with ended := K.ended + 1, flags := K.flags ||| T.u.flags,
             state := if K.state = .running ∧ K.ended + 1 = K.count then .draining else K.state })

/-- The slot codes of R52. -/
def SlotCode (x : SlotState) (n : Nat) : Prop :=
  (x = .free ∧ n = 0) ∨ (x = .ready ∧ n = 1) ∨ (x = .parked ∧ n = 2) ∨ (x = .dropped ∧ n = 3) ∨ (x = .stopped ∧ n = 4)

/-- Interrupt `code` is pending, enabled and may be taken at the thread's privilege (R82): below its target level, or at
it with IE. -/
def Qualifies (s : State) (tid code : Nat) : Prop :=
  let T := th s tid
  code < 5 ∧
  (if code = 1 then T.sr.cmp.toNat ≤ s.cycle - (co s (tid / 16)).base else T.sr.pend.getLsbD code = true) ∧
  T.sr.en.getLsbD code = true ∧
  (T.priv = .sup → T.hr.deleg.getLsbD (32 + code) = false ∨ T.sr.status.getLsbD 0 = true) ∧
  (T.priv = .hyp → T.hr.deleg.getLsbD (32 + code) = false ∧ T.hr.status.getLsbD 0 = true)

/-- A trap that no word raises may enter at a thread's bundle: the thread is Ready and idle. -/
def AtBoundary (s : State) (tid : Nat) : Prop := (th s tid).state = .ready ∧ Idle s tid

/-- A ring in this package's memory, at offset `hb` with `n` entries of 64 bytes behind a header of PROD and CONS, that has
room for one more (R245, R299). -/
def RingRoom (s : State) (hb n : Nat) : Prop :=
  let prod := mrd s.mem hb 8
  let cons := mrd s.mem (hb + 8) 8
  0 < n ∧ hb + 64 + n * 64 ≤ 2 ^ 40 ∧ cons ≤ prod ∧ prod - cons < n ∧ prod + 1 < 2 ^ 64

/-! ### The copy channel (R265-R278, R369) -/

/-- The running thread is the movement thread of an enabled channel in state `n` (R265, R267). -/
def MovementThread (s : State) (n : Nat) : Prop :=
  s.cur % 16 = 15 ∧ (co s (s.cur / 16)).ch.en = true ∧ (co s (s.cur / 16)).ch.state = n

/-- The page-request ring of an entry has register `Q` and its header at byte `hb` (R299): `HPRQ` for the second stage, else the
host's ring in host memory, or `SPRQ`, here in a guest whose second stage is Bare; a ring of this package's memory lies in
granules of the context's partition. -/
def RingAt (s : State) (e : PageReq) (Q hb : Nat) : Prop :=
  let c := cx s e.ctx
  let n := 2 ^ (Q % 16)
  Q % 16 ≠ 0 ∧
  ((((e.second = true ∧ Q = c.hprq.toNat) ∨ (e.second = false ∧ c.hostpt = false ∧ Q = c.sprq.toNat ∧ c.hgxlat.toNat / 2 ^ 60 = 0)) ∧
      s.pkg < 256 ∧ Q / 64 * 64 = s.pkg * 2 ^ 40 + hb ∧ hb + 64 + n * 64 ≤ 2 ^ 40 ∧
      (∀ x ∈ [hb, hb + 64 + mrd s.mem hb 8 % n * 64], (granule s (x / 2 ^ 30)).part = c.part)) ∨
    (e.second = false ∧ c.hostpt = true ∧ s.hdm = none ∧ s.hostLines = [] ∧
      (∃ v, c.vf = some v ∧ Q = (vfn s v).hprb.toNat) ∧ hb = 2 ^ 55 + Q / 64 * 64 ∧ Q / 64 * 64 + 64 + n * 64 ≤ 2 ^ 55))

/-- A channel runs a request that waits for nothing: no page request, and no posted operation of its thread (R243, R267). -/
def ChannelRuns (s : State) (core : Nat) (r : XReq) : Prop :=
  let c := (co s core).ch
  c.state = 2 ∧ c.fault = none ∧ c.req = some r ∧ r.waits = none ∧ r.refused = [] ∧ ∀ p ∈ s.posts, p.tid ≠ r.tid

/-- Of a core only the copy channel changes, and of the others nothing. -/
def OnlyChannel (s t : State) (core : Nat) : Prop :=
  { co t core with ch := (co s core).ch } = co s core ∧ (∀ c, c ≠ core → co t c = co s c) ∧
  (co t core).ch.en = (co s core).ch.en ∧ (co t core).ch.scope = (co s core).ch.scope

/-- The channel is Idle with `n` units delivered, and no request (R266, R267). -/
def ChannelDone (t : State) (core n : Nat) : Prop :=
  let c := (co t core).ch
  c.state = 1 ∧ c.req = none ∧ c.done = n % 2 ^ 32 ∧ c.sh = false

/-- The bytes of a destination run that fall in its chunk `k` of 256-byte-aligned blocks: the first, and how many (R269). -/
def ChunkOf (dst len k lo n : Nat) : Prop :=
  0 < n ∧ lo = max dst ((dst / 256 + k) * 256) ∧ lo + n = min (dst + len) ((dst / 256 + k + 1) * 256)

/-- Chunk `k` of a run is its last. -/
def LastChunk (dst len k : Nat) : Prop := dst + len ≤ (dst / 256 + k + 1) * 256

/-- A chunk of `n` bytes of a run of units of `u` bytes is delivered (R267, R269): the progress counter, when there is one, gains
its units; after the last chunk the channel is Idle with all units in DONE, else the request stands at the next chunk; and nothing
else changes but the bytes of the destination. -/
def ChunkCounted (s t : State) (core : Nat) (r : XReq) (dst len u n : Nat) : Prop :=
  (r.gb = 0 → t.near = s.near) ∧
  (∀ c e, r.gb ≠ 0 → NearAddr s core r.gb c e →
    tget t.near (c * 256 + e) 0 = tget s.near (c * 256 + e) 0 + BitVec.ofNat 64 (n / u) ∧
    ∀ i, i ≠ c * 256 + e → tget t.near i 0 = tget s.near i 0) ∧
  OnlyChannel s t core ∧
  (LastChunk dst len r.chunk → ChannelDone t core (len / u)) ∧
  (¬LastChunk dst len r.chunk → (co t core).ch.state = 2 ∧
    (co t core).ch.req = some { r with chunk := r.chunk + 1, counted := r.counted + n / u }) ∧
  (∀ k, th t k = th s k) ∧
  { t with cores := s.cores, mem := s.mem, spads := s.spads, near := s.near, order := s.order } = s

/-- Byte `i` behind a place. -/
def placeByte (s : State) (l : Loc) (i : Nat) : Byte :=
  match l with
  | .mem k => mget s.mem (k + i)
  | .spad c o => mget s.spads (c * 0x80000 + o + i)
  | .near _ _ => 0

/-- No byte of memory or of a scratchpad changes but those with `W i` behind a place. -/
def OnlyRun (s t : State) (l : Loc) (W : Nat → Prop) : Prop :=
  (∀ x, (∀ k, l = .mem k → x < k ∨ ¬W (x - k)) → mget t.mem x = mget s.mem x) ∧
  (∀ x, (∀ c o, l = .spad c o → x < c * 0x80000 + o ∨ ¬W (x - (c * 0x80000 + o))) → mget t.spads x = mget s.spads x)

/-- A quiet memory system: nobody waits, nothing is armed, no error, no copy and no stuck operation. -/
def Still (s : State) : Prop := CalmCounters s ∧ NoCopies s ∧ s.mem.wf = true ∧ s.spads.wf = true ∧ s.streams = []

/-! ### Queues and kernels (R308-R332) -/

/-- The 64-byte block of a QUE word is read through the scratchpad window at an aligned address, and the issuing thread and
its copies are settled (R318). -/
def QueueBlock (s : State) (A : Word) (off align : Nat) : Prop :=
  A.toNat % align = 0 ∧ A.toNat % 8 = 0 ∧ InScratch s A 64 off ∧ Settled s ∧ s.poison = [] ∧ NoCopies s

/-- The call queue of a service: of its partition, with its VMID as SVC (R318). -/
def Serves (s : State) (q : Nat) : Prop :=
  let x := qu s (256 + q)
  x.kind = 2 ∧ x.part = (cx s (me s).ctx).part ∧ x.svc = (cx s (me s).ctx).vmid

/-- A lane of a call queue (R309). -/
def laneAt (s : State) (q i : Nat) : Lane := tget s.lanes ((256 + q) * 16 + i) {}

/-- Every lane of a call queue but `i` is as before. -/
def OtherLanes (s t : State) (q i : Nat) : Prop := ∀ j < 16, j ≠ i → laneAt t q j = laneAt s q j

/-- A queue's `ARRIVE` is off, or names a counter in this package's memory, with a quiet memory system (R308, R310). -/
def ArriveReady (s : State) (x : Queue) : Prop :=
  x.arrive = 0 ∨ (CalmCounters s ∧ s.mem.wf = true ∧ s.pkg < 256 ∧
    ∃ k, x.arrive = s.pkg * 2 ^ 40 + k ∧ k % 8 = 0 ∧ k + 8 ≤ 2 ^ 40)

/-- `ARRIVE` has advanced by 1, when it is on, and no other byte of memory has changed. -/
def Arrived (s t : State) (x : Queue) : Prop :=
  (x.arrive = 0 → t.mem = s.mem) ∧
  (x.arrive ≠ 0 → mrd t.mem (x.arrive % 2 ^ 40) 8 = (mrd s.mem (x.arrive % 2 ^ 40) 8 + 1) % 2 ^ 64 ∧
    ∀ b, b < x.arrive % 2 ^ 40 ∨ x.arrive % 2 ^ 40 + 8 ≤ b → mget t.mem b = mget s.mem b)

/-- Addresses that a call's completion names resolve without a page request: at hypervisor privilege, or with both stages
Bare (R283, R284). -/
def CallerPhysical (s : State) (c : Call) : Prop :=
  c.priv = .hyp ∨ ((cx s c.ctx).sxlat.toNat / 2 ^ 60 = 0 ∧ (cx s c.ctx).hgxlat.toNat / 2 ^ 60 = 0 ∧ (cx s c.ctx).hostpt = false)

/-- A context without translation, so that its addresses are physical (R285). -/
def Bare (c : Ctx) : Prop := c.sxlat.toNat / 2 ^ 60 = 0 ∧ c.hgxlat.toNat / 2 ^ 60 = 0 ∧ c.hostpt = false

/-- An address of `size` bytes of this package's memory at offset `k`, in a granule of a partition. -/
def OwnAddr (s : State) (part : Nat) (A : Word) (size k : Nat) : Prop :=
  s.pkg < 256 ∧ A.toNat = s.pkg * 2 ^ 40 + k ∧ k + size ≤ 2 ^ 40 ∧ (granule s (k / 2 ^ 30)).part = part ∧
  k / 2 ^ 30 = (k + size - 1) / 2 ^ 30

/-- Only the kernels change. -/
def OnlyKernels (s t : State) : Prop := { t with kernels := s.kernels, last := s.last } = s

/-- The next kernel is a received one of queue `q`, from `src`, with record `r` (R311, R325). -/
def Received (s t : State) (q : Nat) (src : Source) (r : List Byte) : Prop :=
  kn t s.kernelNext = { q := q, src := src, rec_ := r, part := (qu s q).part } ∧ t.kernelNext = s.kernelNext + 1 ∧
  ∀ n, n ≠ s.kernelNext → kn t n = kn s n

/-- Records of a launch queue that the Gaffer has not taken (R311). -/
def QueueFull (s : State) (q : Nat) : Prop :=
  2 ^ (qu s q).log2d ≤ s.kernels.countP fun e => e.2.q == q && e.2.state == .received

/-! ### Contexts and sealed checkpoints (R334-R353) -/

/-- A hypervisor thread writes `CTXC` with command `k` for context `n`, and its partition is one that it administers and
that is not being changed (R353). -/
def Commands (s : State) (arg : Word) (n k part : Nat) : Prop :=
  (me s).priv = .hyp ∧ (me s).state = .ready ∧ arg.toNat % 2 ^ 8 = n ∧ arg.toNat / 2 ^ 8 % 16 = k ∧
  administers s (s.cur / 16) part = true ∧ tget s.parts.state part .unused ≠ .quiescing ∧
  tget s.parts.state part .unused ≠ .reconfiguring

/-- `CTXC` after a command: its operands, and the status in bits [63:56] (R353). -/
def CtxcStatus (s t : State) (arg : Word) (st : Int) : Prop :=
  t.parts.ctxc = BitVec.ofNat 64 (arg.toNat % 2 ^ 44 + (BitVec.ofInt 8 st).toNat * 2 ^ 56) ∧
  { t.parts with ctxc := s.parts.ctxc } = s.parts

/-- A command that fails: the status, and nothing else. -/
def CommandFails (s t : State) (arg : Word) (st : Int) : Prop := CtxcStatus s t arg st ∧ { t with parts := s.parts } = s

/-- A command that succeeds, and changes one context and nothing else. -/
def CommandDone (s t : State) (arg : Word) (n : Nat) (c : Ctx) : Prop :=
  CtxcStatus s t arg 0 ∧ cx t n = c ∧ (∀ k, k ≠ n → cx t k = cx s k) ∧ { t with parts := s.parts, ctxs := s.ctxs } = s

/-- A command that succeeds, and changes one context and nothing else but that its page-request entries are shared ones
(R297, R336). -/
def CommandFrees (s t : State) (arg : Word) (n : Nat) (c : Ctx) : Prop :=
  CtxcStatus s t arg 0 ∧ cx t n = c ∧ (∀ k, k ≠ n → cx t k = cx s k) ∧
  t.pages = (s.pages.map fun e => (e.1, if e.2.ctx = n then { e.2 with shared := true } else e.2)) ∧
  { t with parts := s.parts, ctxs := s.ctxs, pages := s.pages } = s

/-- No thread, group, kernel, queue, command, waiting page request or copy exists that a context command would act on. -/
def Unused (s : State) (n : Nat) : Prop :=
  (∀ e ∈ s.threads, e.2.state = .free ∧ e.2.ctx ≠ n) ∧ (∀ e ∈ s.cores, e.2.ch.state ≠ 2 ∧ e.2.tq = []) ∧ s.groups = [] ∧ s.kernels = [] ∧
  s.queues = [] ∧ s.posts = [] ∧ s.pages = [] ∧ s.pageWaits = [] ∧ s.halos = [] ∧ s.peerLines = []

/-- A CTX word changes one context and d, and nothing else. -/
def CtxWord (s t : State) (p : BitVec 1) (d : BitVec 5) (v : Word) (n : Nat) (c : Ctx) : Prop :=
  Behind s t p ∧ Wrote s t d v ∧ cx t n = c ∧ (∀ k, k ≠ n → cx t k = cx s k) ∧ regMask (me t) (me s) = me s ∧
  OthersSame s t s.cur

/-- The first job of the seal engine (R343). -/
def FirstJob (s : State) (j : Job) (rest : List Job) : Prop := s.jobs = j :: rest ∧ ∀ x ∈ rest, x.id ≠ j.id

/-- A job's result record and `DONE`, at offsets `r` and `k` of this package's memory, apart from each other (R343). -/
def ResultPlace (s : State) (j : Job) (r k : Nat) : Prop :=
  s.pkg < 256 ∧ field j.desc 48 8 = s.pkg * 2 ^ 40 + r ∧ field j.desc 40 8 = s.pkg * 2 ^ 40 + k ∧ r + 32 ≤ 2 ^ 40 ∧
  k + 8 ≤ 2 ^ 40 ∧ k % 8 = 0 ∧ (k + 8 ≤ r ∨ r + 32 ≤ k) ∧ (co s (j.tid / 16)).ncbase.getLsbD 0 = false

/-- The result of a job that ends (R343): the job gone, status, bytes and counter value in the record, 1 added to `DONE`, and
no other byte of memory changed. -/
def JobEnds (s t : State) (j : Job) (rest : List Job) (r k : Nat) (st : Int) : Prop :=
  t.jobs = rest ∧ mrd t.mem r 8 = (BitVec.ofInt 64 st).toNat ∧ mrd t.mem (r + 8) 8 = j.bytes % 2 ^ 64 ∧
  mrd t.mem (r + 24) 8 = j.lctr % 2 ^ 64 ∧ mrd t.mem k 8 = (mrd s.mem k 8 + 1) % 2 ^ 64 ∧
  (∀ b, b < r ∨ r + 32 ≤ b → b < k ∨ k + 8 ≤ b → mget t.mem b = mget s.mem b) ∧ (∀ i, th t i = th s i)

/-- Step 1 of a job (R341): job `j` of the front asks its home. This package as the home gives the nonce at once, and the job is
quoted, with an ephemeral key; a home of another package is sent the request for a nonce, and the job waits for it. Nothing else
leaves the package, and besides only the lineages and the free values change. -/
def Asks (s t : State) (j : Job) (rest : List Job) : Prop :=
  (if j.home = s.pkg then
    t.out = s.out ∧ ∃ nonce eph : List Byte, nonce.length = 32 ∧ eph.length = 32 ∧
      t.jobs = { j with nonce := nonce, eph := eph, phase := .quoted } :: rest
  else t.jobs = { j with phase := .asked } :: rest ∧
    t.out = { s.out with asks := s.out.asks ++ [(j.id, j.home, [0])] }) ∧
  { t with jobs := s.jobs, lineages := s.lineages, fresh := s.fresh, out := s.out } = s

/-- The nonce of a home of another package reaches the job of the front that waits for it (R341): the job is quoted, with an
ephemeral key, and the home is sent the quote of measurement `m`. -/
def Quotes (s t : State) (j : Job) (nonce m : List Byte) (rest : List Job) : Prop :=
  ∃ eph : List Byte, eph.length = 32 ∧ t.jobs = { j with nonce := nonce, eph := eph, phase := .quoted } :: rest ∧
    t.out = { s.out with asks := s.out.asks ++
      [(j.id, j.home, quoteBytes s j.ctx m nonce (p256public (p256private eph)) j.linid)] } ∧
    { t with jobs := s.jobs, fresh := s.fresh, out := s.out } = s

/-- Only jobs, contexts' states, lineages and free values change. -/
def OnlyJobs (s t : State) : Prop :=
  { t with jobs := s.jobs, lineages := s.lineages, fresh := s.fresh } = s

/-! ### Registers, partitions, the host, links, management, resets (R81, R113, R352-R393) -/

/-- Of the cores only `core` changes, and of the state only cores. -/
def CoreBecomes (s t : State) (core : Nat) (c : Core) : Prop :=
  co t core = c ∧ (∀ k, k ≠ core → co t k = co s k) ∧ { t with cores := s.cores } = s

/-- Of the threads only the running one changes, and of the state only threads. -/
def MeBecomes (s t : State) (T : Thread) : Prop :=
  me t = T ∧ OthersSame s t s.cur ∧ { t with threads := s.threads } = s

/-- A posted configuration request that the Lehr has not yet read: its header `h` at offset `hb` of this package's memory, its
body and signature at `bb`, its result record at `r` and its counter `DONE` at `d`, apart from each other (R354). -/
def PostedRequest (s : State) (part : Nat) (h body sig : List Byte) (r d : Nat) : Prop :=
  ∃ hb bb, s.parts.req = some ([], [], part) ∧ s.pkg < 256 ∧ Still s ∧
    s.parts.preq.toNat = s.pkg * 2 ^ 40 + hb ∧ hb + 64 ≤ 2 ^ 40 ∧ mbytes s.mem hb 64 = h ∧ headOk h = true ∧
    field h 4 4 = body.length ∧ sig.length = 64 ∧ field h 32 8 = s.pkg * 2 ^ 40 + bb ∧ bb + body.length + 64 ≤ 2 ^ 40 ∧
    mbytes s.mem bb (body.length + 64) = body ++ sig ∧
    field h 40 8 = s.pkg * 2 ^ 40 + r ∧ field h 48 8 = s.pkg * 2 ^ 40 + d ∧ r + 32 ≤ 2 ^ 40 ∧ d + 8 ≤ 2 ^ 40 ∧
    (d + 8 ≤ r ∨ r + 32 ≤ d) ∧ field h 48 8 ≠ 0 ∧ (co s 1024).ncbase.getLsbD 0 = false

/-- A request that the partition authority has signed, whose SEQ is new, and whose AFFECT lies in what its partition
administers (R354, R355). -/
def Authorised (s : State) (part : Nat) (h body sig : List Byte) : Prop :=
  (∃ k, s.parts.key = some k ∧ ecdsaVerify k (h.take 56 ++ body) sig = true) ∧ s.parts.seqReq < field h 8 8 ∧
  ∀ p, (field h 16 4).testBit p = true → p < 24 ∧ tget s.parts.adm p 0 = part

/-- The end of a request (R355): status, entry and detail in the result record, 1 added to `DONE`, `PSTAT` with the status and
no longer busy, and no other byte of memory changed. -/
def RequestEnds (s t : State) (r d : Nat) (st : Int) (entry detail : Nat) : Prop :=
  mrd t.mem r 8 = (BitVec.ofInt 64 st).toNat ∧ mrd t.mem (r + 8) 8 = entry ∧ mrd t.mem (r + 16) 8 = detail ∧
  mrd t.mem (r + 24) 8 = 0 ∧ mrd t.mem d 8 = (mrd s.mem d 8 + 1) % 2 ^ 64 ∧
  (∀ b, b < r ∨ r + 32 ≤ b → b < d ∨ d + 8 ≤ b → mget t.mem b = mget s.mem b) ∧
  t.parts.busy = false ∧ t.parts.status = BitVec.ofInt 16 st ∧ t.parts.req = none

/-- A body of one entry: its type, index and value (R354). -/
def OneEntry (body : List Byte) (type_ index value : Nat) : Prop :=
  body.length = 16 ∧ field body 0 2 = type_ ∧ field body 2 2 = index ∧ field body 4 4 = 0 ∧ field body 8 8 = value

/-- The virtual function is bound to context `n`, and to no other (R373). -/
def BoundVf (s : State) (vf n : Nat) : Prop :=
  (s.ctxs.map (·.1)).Nodup ∧ (∃ e ∈ s.ctxs, e.1 = n ∧ e.2.vf = some vf ∧ e.2.state ≠ .empty ∧ e.2.state ≠ .destroyed) ∧
  ∀ e ∈ s.ctxs, e.2.vf = some vf → e.2.state ≠ .empty → e.2.state ≠ .destroyed → e.1 = n

/-- A virtual function bound to no context. -/
def UnboundVf (s : State) (vf : Nat) : Prop :=
  ∀ e ∈ s.ctxs, e.2.vf = some vf → e.2.state = .empty ∨ e.2.state = .destroyed

/-- A valid counter-table value and the counter that it names, in partition `part` (R374). -/
def TableValue (s : State) (part : Nat) (v : Word) (l : Loc) : Prop :=
  v.getLsbD 62 = true ∧ s.pkg < 256 ∧
  ((∃ n e, l = .near n e ∧ n < 1024 ∧ e < 256 ∧ v.toNat = 2 ^ 63 + 2 ^ 62 + n * 256 + e ∧ partOfCore s n = part) ∨
   (∃ k, l = .mem k ∧ k < 2 ^ 40 ∧ k % 8 = 0 ∧ v.toNat = 2 ^ 62 + s.pkg * 2 ^ 40 + k ∧
      (granule s (k / 2 ^ 30)).part = part))

/-- Of the virtual functions only `vf` changes, and of the state only virtual functions. -/
def VfBecomes (s t : State) (vf : Nat) (v : Vf) : Prop :=
  vfn t vf = v ∧ (∀ k, k ≠ vf → vfn t k = vfn s k) ∧ { t with vfs := s.vfs } = s

/-- A write of the host that is dropped and recorded with its kind, offset and data (R373). -/
def HostDrops (s t : State) (vf kind off : Nat) (data : Word) : Prop :=
  VfBecomes s t vf { vfn s vf with
    errcnt := min ((vfn s vf).errcnt + 1) (2 ^ 64 - 1),
    errlast := natBytes 4 kind ++ natBytes 4 0 ++ natBytes 8 off ++ natBytes 8 data.toNat ++ natBytes 8 0 }

/-- A port becomes `x`, and nothing else changes. -/
def PortBecomes (s t : State) (p : Nat) (x : Port) : Prop :=
  portOf t p = x ∧ (∀ q, q ≠ p → portOf t q = portOf s q) ∧ { t with ports := s.ports } = s

/-- A port carries traffic (R361). -/
def Carries (x : Port) : Prop := x.state = .up ∨ x.state = .degraded

/-- A response on the management transport, and nothing else outside (R381, R382). -/
def Responds (s t : State) (bs : List Byte) : Prop :=
  t.out.replies = s.out.replies ++ [bs] ∧ { t.out with replies := s.out.replies } = s.out

/-- The response to a Fealman message (R382). -/
def statusBytes (cmd seq : Nat) (st : Int) : List Byte :=
  natBytes 1 cmd ++ natBytes 1 1 ++ natBytes 2 (BitVec.ofInt 16 st).toNat ++ natBytes 4 seq

/-- A message whose signature by the partition authority is good and whose SEQ is new (R382). -/
def SignedBy (s : State) (m : List Byte) : Prop :=
  72 ≤ m.length ∧ s.parts.seqCmd < field m 4 4 ∧
  ∃ k, s.parts.key = some k ∧ ecdsaVerify k (m.take (m.length - 64)) (m.drop (m.length - 64)) = true

/-- No context other than an Empty one is of the partition; 24 is no partition. -/
def NoContexts (s : State) (part : Nat) : Prop := ∀ e ∈ s.ctxs, e.2.part = part → e.2.state = .empty

/-- An event record that concerns no context (R386): `LEVP` advances; where there is a ring, vector 0 of both physical functions
is raised and the record, with the time in µs, stands in the ring of host memory; no other byte changes. -/
def EventRecord (s t : State) (kind unit detail : Nat) : Prop :=
  let ring := s.lehr.levb.toNat % 16
  let k := 2 ^ 55 + (s.lehr.levb.toNat / 64 * 64 + s.lehr.levp % 2 ^ ring * 32) % 2 ^ 55
  t.lehr.levp = s.lehr.levp + 1 ∧ { t.out with msix := s.out.msix } = s.out ∧
  t.out.msix = s.out.msix ++ (if ring = 0 then [] else [(0, 0), (1, 0)]) ∧
  (ring ≠ 0 → mrd t.mem k 8 = (s.lehr.levp + 1) % 2 ^ 64 ∧ mrd t.mem (k + 8) 2 = kind ∧ mrd t.mem (k + 10) 2 = unit ∧
    mrd t.mem (k + 12) 4 = 0 ∧ mrd t.mem (k + 16) 8 = detail % 2 ^ 64 ∧ mrd t.mem (k + 24) 8 = nsNow s / 1000 % 2 ^ 64) ∧
  (∀ b, ring = 0 ∨ b < k ∨ k + 32 ≤ b → mget t.mem b = mget s.mem b)

/-- Only the Lehr's registers, what leaves the package, memory, the free values and cached translations change. -/
def OnlyLehr (s t : State) : Prop :=
  { t with lehr := s.lehr, out := s.out, mem := s.mem, fresh := s.fresh, tlb := s.tlb, poison := s.poison } = s

/-- A package reset (R359, R393): host and peer memory, the partition tables, the administration plan, the key, the sequence
numbers and the lineages with their leases are kept, and all else is as at reset. -/
def PackageReset (s t : State) : Prop :=
  (∀ a, mget t.mem a = if a < 2 ^ 40 then 0 else mget s.mem a) ∧ t.parts.bench = s.parts.bench ∧
  t.parts.granule = s.parts.granule ∧ t.parts.vf = s.parts.vf ∧ t.parts.adm = s.parts.adm ∧ t.parts.key = s.parts.key ∧
  t.parts.seqReq = s.parts.seqReq ∧ t.parts.seqCmd = s.parts.seqCmd ∧ t.parts.busy = false ∧ t.parts.req = none ∧
  t.lineages = s.lineages ∧ t.jobNext = s.jobNext ∧
  (∀ n, cx t n = { part := (cx s n).part }) ∧
  t.hdm = s.hdm ∧ t.lehr.store = s.lehr.store ∧
  { t with agenda := State.reset.agenda, turn := State.reset.turn, fresh := State.reset.fresh, order := State.reset.order,
           hdm := State.reset.hdm, jobNext := State.reset.jobNext,
           mem := State.reset.mem, ctxs := State.reset.ctxs, parts := State.reset.parts, lineages := State.reset.lineages,
           denied := State.reset.denied, lehr := State.reset.lehr, out := State.reset.out } = State.reset

/-! ### Steps -/

/-- The three memories have their canonical form. -/
def MemoriesWf (s : State) : Prop := s.mem.wf = true ∧ s.spads.wf = true ∧ s.vregs.wf = true

/-- The state in which thread `x` issues at cycle `c`, its act taken off the agenda. -/
def issued (s : State) (x c : Nat) (rest : List Act) : State :=
  { s with agenda := rest, cycle := c, cur := x, slot := 0, snap := none, last := .held }

/-- The agenda's next act is the issue of thread `x`, Ready at hypervisor privilege with nothing under way, at cycle `c`, its
next issue cycle (R55), with its pc at offset `k` of this package's memory, in its partition. -/
def LoneIssue (s : State) (x c k : Nat) (rest : List Act) : Prop :=
  let T := th s x
  s.agenda = .issue x :: rest ∧ x < 16384 ∧ s.lehr.rdy = true ∧
  (co s (x / 16)).base ≤ s.cycle ∧ s.cycle ≤ c ∧ c < s.cycle + 16 ∧ (c - (co s (x / 16)).base) % 16 = x % 16 ∧
  T.state = .ready ∧ T.priv = .hyp ∧ T.longs = [] ∧ T.v.queue = [] ∧ T.v.vrs.getLsbD 63 = false ∧ T.due = none ∧
  T.asyncDue = none ∧ T.stop = none ∧ T.pauseUntil = none ∧ T.refused = none ∧ storeTrap T = none ∧
  (∀ code, ¬Qualifies (issued s x c rest) x code) ∧ (∀ y ∈ s.stuck, y.tid ≠ x) ∧ s.halos = [] ∧ s.poison = [] ∧ s.pkg < 256 ∧
  T.pc.toNat = s.pkg * 2 ^ 40 + k ∧ k < 2 ^ 40 ∧ k % 4 = 0 ∧ (granule s (k / 2 ^ 30)).part = (cx s T.ctx).part

/-- The state after an issue that left `t`: the next cycle, the control word's slot, and nothing else. -/
def AfterIssue (t u : State) : Prop :=
  (∀ y, th u y = th t y) ∧ u.cycle = t.cycle + 1 ∧ u.slot = 0 ∧ u.snap = none ∧
  { u with threads := t.threads, cycle := t.cycle, slot := t.slot, snap := t.snap } = t

end Sys2Proof
end

