-- ==== Sys2Proof/Certificates/Slice0/Obligations.lean ====
section
/-! DEFINITION. The statements about the machine for the provers. Each docstring names the rules of spec/ that it states;
`Safety` gives the words (`Behind`, `Wrote`, `Keeps`, `TrapTo` and so on). -/

open Sys2Proof Sys2Proof.Machine

/-! ### Integer and control words -/

/-- IALU, immediate (R66): each word completes on every state, writes its result to d and changes nothing else. `sh` is
bits [5:0] of the second operand; arithmetic wraps.

IALUI, `ldhi` and `pcadd` (R65, R68, R28): the immediates are sign-extended, shifts take KIND and sh; each word
completes on every state and changes nothing but d. -/
def Obligations.IntegerResults : Prop :=
  (∀ (s : State) (d a b : BitVec 5),
  let A := rd s a
  let B := rd s b
  let sh := B.toNat % 64
  let gives (i : Instr) (v : Word) : Prop := ∃ t, exec i s = .next t ∧ RegWord s t 0 d v
  gives (.add d a b) (A + B) ∧ gives (.sub d a b) (A - B) ∧ gives (.and d a b) (A &&& B) ∧ gives (.or d a b) (A ||| B) ∧
  gives (.xor d a b) (A ^^^ B) ∧ gives (.andn d a b) (A &&& ~~~B) ∧ gives (.orn d a b) (A ||| ~~~B) ∧
  gives (.sll d a b) (A <<< sh) ∧ gives (.srl d a b) (A >>> sh) ∧ gives (.sra d a b) (A.sshiftRight sh) ∧
  gives (.slt d a b) (if A.toInt < B.toInt then 1 else 0) ∧ gives (.sltu d a b) (if A.toNat < B.toNat then 1 else 0) ∧
  gives (.min d a b) (if A.toInt ≤ B.toInt then A else B) ∧ gives (.max d a b) (if A.toInt ≤ B.toInt then B else A) ∧
  gives (.minu d a b) (if A.toNat ≤ B.toNat then A else B) ∧ gives (.maxu d a b) (if A.toNat ≤ B.toNat then B else A) ∧
  gives (.mul d a b) (BitVec.ofInt 64 (A.toInt * B.toInt)) ∧
  gives (.addw d a b) (BitVec.ofInt 64 (BitVec.ofInt 32 (A.toInt + B.toInt)).toInt) ∧
  gives (.subw d a b) (BitVec.ofInt 64 (BitVec.ofInt 32 (A.toInt - B.toInt)).toInt) ∧
  (∃ n, LeadingZeros A n ∧ gives (.clz d a) (BitVec.ofNat 64 n)) ∧
  (∃ n, TrailingZeros A n ∧ gives (.ctz d a) (BitVec.ofNat 64 n)) ∧
  gives (.cpop d a) (BitVec.ofNat 64 ((List.range 64).countP fun k => A.getLsbD k)) ∧
  gives (.rol d a b) (A <<< sh ||| A >>> (64 - sh)) ∧ gives (.ror d a b) (A >>> sh ||| A <<< (64 - sh))) ∧
  (∀ (s : State) (d a : BitVec 5) (imm : BitVec 12) (sh : BitVec 6) (up : BitVec 20) (p : BitVec 1),
  let A := rd s a
  let I : Word := BitVec.ofInt 64 imm.toInt
  let gives (i : Instr) (p : BitVec 1) (v : Word) : Prop := ∃ t, exec i s = .next t ∧ RegWord s t p d v
  gives (.addi d a imm) 0 (A + I) ∧ gives (.slti d a imm) 0 (if A.toInt < imm.toInt then 1 else 0) ∧
  gives (.sltiu d a imm) 0 (if A.toNat < I.toNat then 1 else 0) ∧ gives (.xori d a imm) 0 (A ^^^ I) ∧
  gives (.ori d a imm) 0 (A ||| I) ∧ gives (.andi d a imm) 0 (A &&& I) ∧ gives (.slli d a sh) 0 (A <<< sh.toNat) ∧
  gives (.srli d a sh) 0 (A >>> sh.toNat) ∧ gives (.srai d a sh) 0 (A.sshiftRight sh.toNat) ∧
  gives (.addiw d a imm) 0 (BitVec.ofInt 64 (BitVec.ofInt 32 (A.toInt + imm.toInt)).toInt) ∧
  gives (.ldhi d up) 0 (BitVec.ofInt 64 (up.toInt * 2 ^ 12)) ∧
  gives (.pcadd p d up) p ((me s).pc + BitVec.ofInt 64 (up.toInt * 2 ^ 12)))

/-- The long IALU words (R66, R67): each completes on every state; its result, with R67's values for division by zero
and for −2^63 by −1, waits to be written to d under the word's lookahead count (R58), and nothing else changes.

R67: division by zero and signed overflow give their values without a trap or flag: the values that the long words of
`LongIntegerResults` write, on any dividend and on −2^63 by −1. -/
def Obligations.LongIntegerResults : Prop :=
  (∀ (s : State) (d a b : BitVec 5) (q : BitVec 4),
  let A := rd s a
  let B := rd s b
  let gives (i : Instr) (v : Word) : Prop := ∃ t, exec i s = .next t ∧ LongWord s t 0 d q v
  gives (.mulh d a b q) (BitVec.ofInt 64 (A.toInt * B.toInt / 2 ^ 64)) ∧
  gives (.mulhu d a b q) (BitVec.ofNat 64 (A.toNat * B.toNat / 2 ^ 64)) ∧
  gives (.div d a b q) (if B = 0 then BitVec.allOnes 64 else BitVec.ofInt 64 (A.toInt.tdiv B.toInt)) ∧
  gives (.divu d a b q) (if B = 0 then BitVec.allOnes 64 else BitVec.ofNat 64 (A.toNat / B.toNat)) ∧
  gives (.rem d a b q) (if B = 0 then A else BitVec.ofInt 64 (A.toInt.tmod B.toInt)) ∧
  gives (.remu d a b q) (if B = 0 then A else BitVec.ofNat 64 (A.toNat % B.toNat))) ∧
  (∀ (s : State) (d a b : BitVec 5) (q : BitVec 4),
  let gives (i : Instr) (v : Word) : Prop := ∃ t, exec i s = .next t ∧ LongWord s t 0 d q v
  (rd s b = 0 → gives (.div d a b q) (BitVec.allOnes 64) ∧ gives (.divu d a b q) (BitVec.allOnes 64) ∧
    gives (.rem d a b q) (rd s a) ∧ gives (.remu d a b q) (rd s a)) ∧
  (rd s a = BitVec.intMin 64 → rd s b = BitVec.allOnes 64 →
    gives (.div d a b q) (BitVec.intMin 64) ∧ gives (.rem d a b q) 0))

/-- Branches (R62, R25): each completes on every state and writes no register; control goes to bundle address +
4 × sext(offset12) when the condition holds, else behind the bundle.

`jal` and `jalr` (R63, R25, R22): the link value is the address of the next sequential bundle; `jal` goes to bundle
address + 4 × sext(offset20), `jalr` to a's value (read before d is written) + sext(imm12), and where that has bits
[1:0] not zero it raises a misaligned-access trap and writes no link. -/
def Obligations.ControlTransfers : Prop :=
  (∀ (s : State) (p : BitVec 1) (a b : BitVec 5) (off : BitVec 12),
  let A := rd s a
  let B := rd s b
  let goes (i : Instr) (taken : Prop) : Prop := ∃ t, exec i s = .next t ∧
    (taken → JumpWord s t 0 0 ((me s).pc + BitVec.ofInt 64 (4 * off.toInt))) ∧ (¬taken → RegWord s t p 0 0)
  goes (.beq p a b off) (A = B) ∧ goes (.bne p a b off) (A ≠ B) ∧ goes (.blt p a b off) (A.toInt < B.toInt) ∧
  goes (.bge p a b off) (B.toInt ≤ A.toInt) ∧ goes (.bltu p a b off) (A.toNat < B.toNat) ∧
  goes (.bgeu p a b off) (B.toNat ≤ A.toNat)) ∧
  (∀ (s : State) (p : BitVec 1) (d a : BitVec 5) (off : BitVec 20) (imm : BitVec 12),
  let link := (me s).pc + (if p = 1 then 8 else 4)
  let target := rd s a + BitVec.ofInt 64 imm.toInt
  (∃ t, exec (.jal p d off) s = .next t ∧ JumpWord s t d link ((me s).pc + BitVec.ofInt 64 (4 * off.toInt))) ∧
  (target.toNat % 4 = 0 → ∃ t, exec (.jalr p d a imm) s = .next t ∧ JumpWord s t d link target) ∧
  (target.toNat % 4 ≠ 0 → Quiet s → ∃ t, exec (.jalr p d a imm) s = .next t ∧ TrapTo s t 5 target))

/-- `svc` and `brk` (R60, R82): each takes its trap, cause 17 and 18, at its own address with trap value 0.

`tret` (R82, R60): at supervisor privilege pc := SEPC, privilege by PPS, IE := PIE, PIE := 1; at hypervisor
privilege the same with HEPC and PPL; a misaligned return address raises cause 5 and the `tret` does not commit; at user
privilege it raises a privilege violation with its own word.

`pause` (R60): it completes on every state, writes no register and holds the thread for n rotations, so that its next
bundle issues 16 × (n + 1) cycles later: n = 1 for a value of 0, the value from 1 to 1,024, and 1,024 above. The event
that ends the count lets the thread issue again. -/
def Obligations.TrapsAndPauses : Prop :=
  (∀ s : State, Quiet s →
  (∃ t, exec .svc s = .next t ∧ TrapTo s t 17 0) ∧ (∃ t, exec .brk s = .next t ∧ TrapTo s t 18 0)) ∧
  (∀ s : State, s.slot = 0 →
  ((me s).priv = .sup → (me s).sr.epc.toNat % 4 = 0 → ∃ t, exec .tret s = .next t ∧ t.last = .done ∧
    Keeps (fun n o => { pcMask n o with priv := o.priv, sr := o.sr }) s t ∧ (me t).pc = (me s).sr.epc ∧
    (me t).priv = (if (me s).sr.status.getLsbD 8 then .sup else .user) ∧
    (me t).sr = { (me s).sr with status := (me t).sr.status } ∧
    (me t).sr.status.getLsbD 0 = (me s).sr.status.getLsbD 1 ∧ (me t).sr.status.getLsbD 1 = true) ∧
  ((me s).priv = .hyp → (me s).hr.epc.toNat % 4 = 0 → ∃ t, exec .tret s = .next t ∧ t.last = .done ∧
    Keeps (fun n o => { pcMask n o with priv := o.priv, hr := o.hr }) s t ∧ (me t).pc = (me s).hr.epc ∧
    (me t).priv = (if (me s).hr.status.extractLsb' 8 2 = 0 then .user
      else if (me s).hr.status.extractLsb' 8 2 = 2 then .sup else .hyp) ∧
    (me t).hr = { (me s).hr with status := (me t).hr.status } ∧
    (me t).hr.status.getLsbD 0 = (me s).hr.status.getLsbD 1 ∧ (me t).hr.status.getLsbD 1 = true) ∧
  (Quiet s → (me s).priv = .sup → (me s).sr.epc.toNat % 4 ≠ 0 →
    ∃ t, exec .tret s = .next t ∧ TrapTo s t 5 (me s).sr.epc) ∧
  (Quiet s → (me s).priv = .hyp → (me s).hr.epc.toNat % 4 ≠ 0 →
    ∃ t, exec .tret s = .next t ∧ TrapTo s t 5 (me s).hr.epc) ∧
  (Quiet s → (me s).priv = .user → ∃ t, exec .tret s = .next t ∧ TrapTo s t 3 0x20)) ∧
  ((∀ (s : State) (a : BitVec 5), ∃ t n, exec (.pause a) s = .next t ∧ Behind s t 0 ∧
    Keeps (fun n o => { pcMask n o with pauseUntil := o.pauseUntil }) s t ∧
    (me t).pauseUntil = some (s.cycle + 16 * (n + 1)) ∧
    n = (if rd s a = 0 then 1 else if (rd s a).toNat ≤ 1024 then (rd s a).toNat else 1024)) ∧
  ∀ (s : State) (tid c : Nat), (th s tid).pauseUntil = some c → ∃ t, exec (.pauseExpiry tid) s = .next t ∧
    th t tid = { th s tid with pauseUntil := none } ∧ (∀ k, k ≠ tid → th t k = th s k) ∧ c ≤ t.cycle ∧
    { t with threads := s.threads, cycle := s.cycle } = s)

/-! ### Floating-point words -/

/-- The scalar floating-point words (R69): each completes on every state; it writes its result to d, zero-extended in
single precision, ORs its flags into `FLAGS`, and changes nothing else. Single-precision forms read bits [31:0] of their
sources; `FRM` gives the rounding mode. The result functions are those of the model's number formats; what they give on
NaNs, infinities and zeros is stated by `FloatSpecialValues`.

The long floating-point words (R69, R58, R108): each completes on every state; its flags are ORed into `FLAGS` at the
end of the bundle, its result waits to be written to d under the lookahead count, and nothing else changes. -/
def Obligations.FloatResults : Prop :=
  (∀ (s : State) (d a b : BitVec 5),
  let x := (rd s a).toNat % 2 ^ 32
  let y := (rd s b).toNat % 2 ^ 32
  let z := (rd s d).toNat % 2 ^ 32
  let X := (rd s a).toNat
  let Y := (rd s b).toNat
  let Z := (rd s d).toNat
  let rm := rmNow s
  let gives (i : Instr) (r : Nat × BitVec 5) : Prop := ∃ t, exec i s = .next t ∧ FpWord s t d r.1 r.2
  let tells (i : Instr) (r : Bool × BitVec 5) : Prop := gives i (if r.1 then 1 else 0, r.2)
  gives (.faddS d a b) (fp32.add rm x y) ∧ gives (.fsubS d a b) (fp32.sub rm x y) ∧
  gives (.fmulS d a b) (fp32.mul rm x y) ∧ gives (.fminS d a b) (fp32.pick false x y) ∧
  gives (.fmaxS d a b) (fp32.pick true x y) ∧ gives (.fmaddS d a b) (fp32.fma rm x y z) ∧
  tells (.feqS d a b) (fp32.feq x y) ∧ tells (.fltS d a b) (fp32.fltle false x y) ∧
  tells (.fleS d a b) (fp32.fltle true x y) ∧ gives (.fclassS d a) (fp32.classify x, 0) ∧
  gives (.faddD d a b) (fp64.add rm X Y) ∧ gives (.fsubD d a b) (fp64.sub rm X Y) ∧
  gives (.fmulD d a b) (fp64.mul rm X Y) ∧ gives (.fminD d a b) (fp64.pick false X Y) ∧
  gives (.fmaxD d a b) (fp64.pick true X Y) ∧ gives (.fmaddD d a b) (fp64.fma rm X Y Z) ∧
  tells (.feqD d a b) (fp64.feq X Y) ∧ tells (.fltD d a b) (fp64.fltle false X Y) ∧
  tells (.fleD d a b) (fp64.fltle true X Y) ∧ gives (.fclassD d a) (fp64.classify X, 0) ∧
  gives (.fcvtSd d a) (fp64.convert fp32 rm X) ∧ gives (.fcvtDs d a) (fp32.convert fp64 rm x) ∧
  gives (.fcvtSl d a) (fp32.ofInt rm (rd s a).toInt) ∧ gives (.fcvtLs d a) (fp32.toInt rm 64 x) ∧
  gives (.fcvtDl d a) (fp64.ofInt rm (rd s a).toInt) ∧ gives (.fcvtLd d a) (fp64.toInt rm 64 X)) ∧
  (∀ (s : State) (d a b : BitVec 5) (q : BitVec 4),
  let x := (rd s a).toNat % 2 ^ 32
  let y := (rd s b).toNat % 2 ^ 32
  let X := (rd s a).toNat
  let Y := (rd s b).toNat
  let rm := rmNow s
  let gives (i : Instr) (r : Nat × BitVec 5) : Prop := ∃ t, exec i s = .next t ∧ Behind s t 0 ∧
    Keeps (fun n o => { longMask n o with u := { n.u with flags := o.u.flags } }) s t ∧
    (me t).u.flags = (me s).u.flags ||| r.2 ∧
    (me t).longs = (me s).longs ++ (if d = 0 then []
      else [{ d := d.toNat, left := q.toNat, res := .ready (BitVec.ofNat 64 r.1), pc := (me s).pc }])
  gives (.fdivS d a b q) (fp32.div rm x y) ∧ gives (.fsqrtS d a q) (fp32.sqrt rm x) ∧
  gives (.fdivD d a b q) (fp64.div rm X Y) ∧ gives (.fsqrtD d a q) (fp64.sqrt rm X))

/-- Special values (R70), in each binary format (`m` the format, `ew` and `f` its exponent and fraction bits): with a NaN
operand, and for ∞ − ∞, 0 × ∞, 0 ÷ 0, ∞ ÷ ∞ and the root of a number below zero, the result is the canonical quiet NaN;
NV is set by a signalling operand and by those cases, and by no quiet NaN; a finite non-zero value divided by zero gives
an infinity of the product's sign and DZ alone.

The picks and the comparisons (R69, R70), in each binary format: with one NaN `fmin` and `fmax` give the other operand,
with two the canonical NaN, NV on a signalling one, and −0 is below +0; every comparison with a NaN gives 0, `feq` sets NV
on a signalling NaN and `flt` and `fle` on any; −0 equals +0.

Conversions to s64 (R70): a NaN or a value above 2^63 − 1 gives 2^63 − 1, a value below −2^63 gives −2^63, each with
NV and no NX: in both precisions an exponent of 63 or more is outside the range, but for −2^63 itself.

`fclass` (R69): exactly one bit is set, the one of the operand's class. In both precisions. -/
def Obligations.FloatSpecialValues : Prop :=
  (∀ (rm : Rm) (a b c : Nat),
  let special (m : Fmt) (ew f : Nat) : Prop :=
    let nan := (2 ^ ew - 1) * 2 ^ f + 2 ^ (f - 1)
    let inf := (2 ^ ew - 1) * 2 ^ f
    let neg := 2 ^ (ew + f)
    let nv (p : Prop) (g : BitVec 5) : Prop := (p → g = 16) ∧ (¬p → g = 0)
    let sig := SignallingCode ew f a ∨ SignallingCode ew f b
    a < 2 ^ (1 + ew + f) → b < 2 ^ (1 + ew + f) → c < 2 ^ (1 + ew + f) →
    (NaNCode ew f a ∨ NaNCode ew f b →
      (m.add rm a b).1 = nan ∧ nv sig (m.add rm a b).2 ∧ (m.sub rm a b).1 = nan ∧ nv sig (m.sub rm a b).2 ∧
      (m.mul rm a b).1 = nan ∧ nv sig (m.mul rm a b).2 ∧ (m.div rm a b).1 = nan ∧ nv sig (m.div rm a b).2) ∧
    (NaNCode ew f a → (m.sqrt rm a).1 = nan ∧ nv (SignallingCode ew f a) (m.sqrt rm a).2) ∧
    m.add rm inf (neg + inf) = (nan, 16) ∧ m.sub rm inf inf = (nan, 16) ∧ m.mul rm 0 inf = (nan, 16) ∧
    m.mul rm inf neg = (nan, 16) ∧ m.div rm 0 0 = (nan, 16) ∧ m.div rm inf inf = (nan, 16) ∧
    m.fma rm 0 inf (if c % neg ≤ inf then c else 0) = (nan, 16) ∧
    (neg < a → ¬NaNCode ew f a → m.sqrt rm a = (nan, 16)) ∧ m.sqrt rm neg = (neg, 0) ∧
    (a % neg ≠ 0 → a % neg < inf → m.div rm a 0 = (inf + a / neg * neg, 8) ∧
      m.div rm a neg = (inf + (1 - a / neg) * neg, 8))
  special fp32 8 23 ∧ special fp64 11 52 ∧ special bf16 8 7 ∧ special fp16 5 10) ∧
  (∀ (hi : Bool) (a b : Nat),
  let picks (m : Fmt) (ew f : Nat) : Prop :=
    let nan := (2 ^ ew - 1) * 2 ^ f + 2 ^ (f - 1)
    let neg := 2 ^ (ew + f)
    let nv (p : Prop) (g : BitVec 5) : Prop := (p → g = 16) ∧ (¬p → g = 0)
    let sig := SignallingCode ew f a ∨ SignallingCode ew f b
    let nana := NaNCode ew f a
    let nanb := NaNCode ew f b
    a < 2 ^ (1 + ew + f) → b < 2 ^ (1 + ew + f) →
    (nana → ¬nanb → (m.pick hi a b).1 = b) ∧ (¬nana → nanb → (m.pick hi a b).1 = a) ∧
    (nana → nanb → (m.pick hi a b).1 = nan) ∧ nv sig (m.pick hi a b).2 ∧
    (m.pick false neg 0).1 = neg ∧ (m.pick false 0 neg).1 = neg ∧ (m.pick true neg 0).1 = 0 ∧ (m.pick true 0 neg).1 = 0 ∧
    (nana ∨ nanb → (m.feq a b).1 = false ∧ (m.fltle hi a b).1 = false) ∧ nv sig (m.feq a b).2 ∧
    nv (nana ∨ nanb) (m.fltle hi a b).2 ∧ m.feq neg 0 = (true, 0) ∧ m.fltle false neg 0 = (false, 0) ∧
    m.fltle true 0 neg = (true, 0)
  picks fp32 8 23 ∧ picks fp64 11 52 ∧ picks bf16 8 7 ∧ picks fp16 5 10) ∧
  (∀ (rm : Rm) (a : Nat), a < 2 ^ 64 →
  (NaNCode 11 52 a → fp64.toInt rm 64 a = (2 ^ 63 - 1, 16)) ∧
  (0x43E0000000000000 ≤ a → a ≤ 0x7FF0000000000000 → fp64.toInt rm 64 a = (2 ^ 63 - 1, 16)) ∧
  (0xC3E0000000000000 < a → a ≤ 0xFFF0000000000000 → fp64.toInt rm 64 a = (2 ^ 63, 16)) ∧
  fp64.toInt rm 64 0xC3E0000000000000 = (2 ^ 63, 0) ∧ fp32.toInt rm 64 0xDF000000 = (2 ^ 63, 0) ∧
  (a < 2 ^ 32 → (NaNCode 8 23 a → fp32.toInt rm 64 a = (2 ^ 63 - 1, 16)) ∧
    (0x5F000000 ≤ a → a ≤ 0x7F800000 → fp32.toInt rm 64 a = (2 ^ 63 - 1, 16)) ∧
    (0xDF000000 < a → a ≤ 0xFF800000 → fp32.toInt rm 64 a = (2 ^ 63, 16)))) ∧
  (∀ a : Nat,
  let classes (m : Fmt) (ew f : Nat) : Prop :=
    let inf := (2 ^ ew - 1) * 2 ^ f
    let neg := 2 ^ (ew + f)
    a < 2 * neg → m.classify a =
      (if a = neg + inf then 2 ^ 0 else if neg + 2 ^ f ≤ a ∧ a < neg + inf then 2 ^ 1
      else if neg < a ∧ a < neg + 2 ^ f then 2 ^ 2 else if a = neg then 2 ^ 3 else if a = 0 then 2 ^ 4
      else if a < 2 ^ f then 2 ^ 5 else if a < inf then 2 ^ 6 else if a = inf then 2 ^ 7
      else if a % 2 ^ f < 2 ^ (f - 1) then 2 ^ 8 else 2 ^ 9)
  classes fp32 8 23 ∧ classes fp64 11 52)

/-- How a finite result is rounded (R69, R95, R97, R135, R141), in each binary format: the sum, difference, product, quotient, square
root and fused product of finite operands, and the conversions between the formats and from integers, are the exact value rounded
once, with its flags; a zero product or quotient has the product of the signs. A finite value converted to an integer of `w` bits
is first rounded to an integer; out of range it gives the nearer end with NV alone, else NX says that it was inexact (R70). A block
of fp32 values is quantised by the smallest block scale that is at least its largest magnitude divided by that of the format, and
each code is the quotient rounded to nearest, ties to the even code; a block with an infinity or a NaN gives the NaN scale, zero
codes and NV (R93, R98, R99). A cell of the Marver takes the exact sum of the products of its elements, times two scales or not,
added to its value and rounded once, or saturated to 32 bits (R101-R103). -/
def Obligations.FloatRounding : Prop := ∀ (rm : Rm) (a b c : Nat),
  let ops (m : Fmt) (ew f : Nat) : Prop :=
    let v := codeValue ew f
    let neg := 2 ^ (ew + f)
    let sign := (if a / neg = b / neg then 0 else neg)
    FiniteCode ew f a → FiniteCode ew f b → FiniteCode ew f c →
    Rounds rm ew f (v a + v b) (m.add rm a b) ∧ Rounds rm ew f (v a - v b) (m.sub rm a b) ∧
    Rounds rm ew f (v a * v b) (m.mul rm a b) ∧ Rounds rm ew f (v a * v b + v c) (m.fma rm a b c) ∧
    (b % neg ≠ 0 → Rounds rm ew f (v a / v b) (m.div rm a b)) ∧
    (a < neg → Rounds rm ew f (Real.sqrt (v a)) (m.sqrt rm a)) ∧
    (a % neg = 0 → m.mul rm a b = (sign, 0)) ∧ (a % neg = 0 → b % neg ≠ 0 → m.div rm a b = (sign, 0)) ∧
    ∀ w ∈ [8, 16, 32, 64], ∃ n, RoundsInt rm (v a) n ∧
      (2 ^ (w - 1) - 1 < n → m.toInt rm w a = (2 ^ (w - 1) - 1, 16)) ∧
      (n < -(2 ^ (w - 1)) → m.toInt rm w a = (2 ^ (w - 1), 16)) ∧
      (-(2 ^ (w - 1)) ≤ n → n ≤ 2 ^ (w - 1) - 1 → (m.toInt rm w a).1 = (BitVec.ofInt w n).toNat ∧
        (v a = n → (m.toInt rm w a).2 = 0) ∧ (v a ≠ n → (m.toInt rm w a).2 = 1))
  ops fp32 8 23 ∧ ops fp64 11 52 ∧ ops bf16 8 7 ∧ ops fp16 5 10 ∧
  (FiniteCode 11 52 a → Rounds rm 8 23 (codeValue 11 52 a) (fp64.convert fp32 rm a)) ∧
  (FiniteCode 8 23 a → Rounds rm 11 52 (codeValue 8 23 a) (fp32.convert fp64 rm a) ∧
    Rounds rm 8 7 (codeValue 8 23 a) (fp32.convert bf16 rm a) ∧ Rounds rm 5 10 (codeValue 8 23 a) (fp32.convert fp16 rm a)) ∧
  (FiniteCode 8 7 a → Rounds rm 8 23 (codeValue 8 7 a) (bf16.convert fp32 rm a)) ∧
  (FiniteCode 5 10 a → Rounds rm 8 23 (codeValue 5 10 a) (fp16.convert fp32 rm a)) ∧
  (∀ n : Int, (-(2 ^ 63) ≤ n → n < 2 ^ 63 → Rounds rm 8 23 n (fp32.ofInt rm n) ∧ Rounds rm 11 52 n (fp64.ofInt rm n)) ∧
    (-(2 ^ 15) ≤ n → n < 2 ^ 15 → Rounds rm 8 7 n (bf16.ofInt rm n) ∧ Rounds rm 5 10 n (fp16.ofInt rm n))) ∧
  (∀ (y sa sb : Nat) (xs ys : List Nat), y < 10 → a < 2 ^ 32 → xs.length = ys.length →
    let T := pairTypes y
    (∀ x ∈ xs, FiniteElem T.1 x) → (∀ x ∈ ys, FiniteElem T.2 x) →
    let D := dotSum T.1 T.2 xs ys
    let S := ((xs.zip ys).map fun e => elemReal T.1 e.1 * elemReal T.2 e.2).sum
    (FiniteCode 8 23 a → Rounds .rne 8 23 (codeValue 8 23 a + S) (accPlain a D) ∧
      (sa < 0xFF000 → sb < 0xFF000 →
        Rounds .rne 8 23 (codeValue 8 23 a + magValue 8 12 sa * magValue 8 12 sb * S) (accScaled a D sa sb))) ∧
    (y = 7 ∨ y = 8 → ∀ n : Int, (n : ℝ) = (BitVec.ofNat 32 a).toInt + S →
      accInt a D = if 2 ^ 31 ≤ n then (2 ^ 31 - 1, 4) else if n < -(2 ^ 31) then (2 ^ 31, 4) else ((BitVec.ofInt 32 n).toNat, 0))) ∧
  ∀ (xs : List Nat) (m : Fmt) (k top : Nat), (m, k, top) ∈ [(fmtE2m1, 6, 7), (fmtE4m3, 448, 126)] → (∀ x ∈ xs, x < 2 ^ 32) →
    let q := quantise m k xs
    let scale := magValue 8 12 q.1
    let neg := 2 ^ (m.ew + m.f)
    let val (j : Nat) := magValue m.ew m.f j
    let quot (x : Nat) := |codeValue 8 23 x| / scale
    ((∃ x ∈ xs, ¬FiniteCode 8 23 x) → q = (0xFF000, xs.map fun _ => 0, 16)) ∧
    ((∀ x ∈ xs, FiniteCode 8 23 x) → q.1 < 0xFF000 ∧ (∀ x ∈ xs, |codeValue 8 23 x| / k ≤ scale) ∧
      (q.1 ≠ 0 → ∃ x ∈ xs, magValue 8 12 (q.1 - 1) < |codeValue 8 23 x| / k) ∧ q.2.1.length = xs.length ∧
      (∀ i x, xs[i]? = some x → q.2.1.getD i 0 / neg = x / 2 ^ 31 ∧
        let j := q.2.1.getD i 0 % neg
        j ≤ top ∧ ∀ l ≤ top, l ≠ j → |quot x - val j| < |quot x - val l| ∨ (|quot x - val j| = |quot x - val l| ∧ j % 2 = 0)) ∧
      (q.2.2.getLsbD 0 = true ↔ ∃ i x, xs[i]? = some x ∧ quot x ≠ val (q.2.1.getD i 0 % neg)) ∧
      (q.2.2.getLsbD 1 = true ↔ k = 448 ∧ ∃ i x, xs[i]? = some x ∧ quot x ≠ val (q.2.1.getD i 0 % neg) ∧
        quot x < val (2 ^ m.f) - val 1 / 4) ∧ q.2.2.toNat < 4)

/-! ### System registers -/

/-- `sread` (R61, R36, R81): at a privilege that reaches the register's band, d receives the register's value, and nothing
else changes: every register of R81, R114, R148, R178, R207, R266, R263, R285, R338 and R352. `VRS` and `VDM` hold the thread
while a vector instruction is queued (R114); at user privilege with TS Off the tile registers raise the tile-unavailable trap,
cause 12, and at supervisor privilege on another context's hold the virtual-instruction trap, cause 4, with the word as trap
value (R145, R146).

The checks of an access, in order (R36 steps 1 to 3), for each of the four words: the reserved band is illegal; a
privilege below the band raises cause 3 from user, cause 4 from supervisor privilege; an index with no register is
illegal. The trap value is the word. Indexes without a register in every band are taken as examples of step 3. -/
def Obligations.SystemRegisterReads : Prop :=
  (∀ (s : State) (p : BitVec 1) (d : BitVec 5), Fresh s →
  let T := me s
  let core := s.cur / 16
  let C := co s core
  let reads (idx : BitVec 12) (v : Word) : Prop := ∃ t, exec (.sread p d idx) s = .next t ∧ RegWord s t p d v
  (reads 0x000 (BitVec.ofNat 64 (s.cycle - (co s (s.cur / 16)).base)) ∧ reads 0x001 (T.u.flags.setWidth 64) ∧
    reads 0x002 (BitVec.ofNat 64 T.u.frm) ∧ reads 0x003 T.u.wlim ∧ reads 0x004 (T.u.fmt.setWidth 64) ∧ reads 0x005 T.u.scb ∧
    reads 0x006 (BitVec.ofNat 64 (s.cur % 16)) ∧ reads 0x008 T.u.lwb ∧
    reads 0x009 (BitVec.ofNat 64 (co s (s.cur / 16)).sp) ∧ reads 0x00A T.u.afpc ∧ reads 0x00B T.u.afop ∧
    reads 0x00C T.u.afcode ∧ reads 0x00D T.u.lapc ∧ reads 0x100 (BitVec.ofNat 64 T.v.vl) ∧
    reads 0x101 (BitVec.ofNat 64 T.v.vt) ∧ reads 0x102 (BitVec.ofNat 64 T.v.vmt) ∧ reads 0x105 (BitVec.ofNat 64 T.v.rows) ∧
    reads 0x107 T.v.wbase ∧ reads 0x108 T.v.wctr ∧ reads 0x200 (co s (s.cur / 16)).ncbase ∧ reads 0x201 T.u.wval ∧
    reads 0x202 (if T.u.arr then 1 else 0)) ∧
  (T.v.queue = [] → reads 0x103 T.v.vrs ∧ reads 0x104 (T.v.vdm.setWidth 64)) ∧
  (T.v.queue ≠ [] → exec (.sread p d 0x103) s = .next { s with last := .held } ∧
    exec (.sread p d 0x104) s = .next { s with last := .held }) ∧
  (T.priv ≠ .user → reads 0x800 T.sr.status ∧ reads 0x801 T.sr.cause ∧ reads 0x802 T.sr.epc ∧ reads 0x803 T.sr.val ∧
    reads 0x804 T.sr.vec ∧ reads 0x805 T.sr.scratch ∧ reads 0x806 T.v.sdepth ∧ reads 0x808 T.sr.cmp ∧
    reads 0x880 (cx s T.ctx).sxlat ∧ reads 0x881 (cx s T.ctx).sfqb ∧ reads 0x882 (BitVec.ofNat 64 (cx s T.ctx).sfqn) ∧
    reads 0x883 (cx s T.ctx).sprq ∧ reads 0x8C1 (cx s T.ctx).celb) ∧
  (T.priv = .hyp → reads 0xC00 T.hr.status ∧ reads 0xC01 T.hr.cause ∧ reads 0xC02 T.hr.epc ∧ reads 0xC03 T.hr.val ∧
    reads 0xC04 T.hr.gpa ∧ reads 0xC05 T.hr.deleg ∧ reads 0xC06 T.hr.vec ∧ reads 0xC07 T.hr.scratch ∧
    reads 0xC80 (cx s T.ctx).hgxlat ∧ reads 0xC81 (cx s T.ctx).hprq ∧ reads 0xC82 (cx s T.ctx).hpra ∧
    reads 0xC83 (BitVec.ofNat 64 ((if (cx s T.ctx).hostpt then 2 ^ 16 else 0) + (cx s T.ctx).cap)) ∧
    (∃ v, reads 0xCC0 v ∧ ∀ k, v.getLsbD k =
      decide (k < 24 ∧ tget s.parts.adm k 0 = partOfCore s core ∧ partOfCore s core < 24)) ∧
    reads 0xCC1 s.parts.preq ∧
    reads 0xCC2 (BitVec.ofNat 64 ((if s.parts.busy then 2 ^ 63 else 0) + s.parts.status.toNat)) ∧ reads 0xCC3 s.parts.ctxc) ∧
  (reads 0x007 (BitVec.ofNat 64 (partOfCore s core * 2 ^ 24 + posOf core * 2 ^ 20 + benchOf core * 2 ^ 12 + core)) ∧
    reads 0x106 (BitVec.ofNat 64 (T.v.rows * 1024 / typeWidth T.v.vt)) ∧
    reads 0x188 (BitVec.ofNat 64 (((tq s core).countP fun c => c.tid = s.cur ∧ !c.orphan) * 256 + T.ts)) ∧
    (C.town.hv = false → reads 0x189 0) ∧
    (C.town.hv = true → reads 0x189 (BitVec.ofNat 64 (C.town.hts * 256 +
      (if C.town.vmid = (cx s T.ctx).vmid then 0 else 32) + 16 + C.town.hold))) ∧
    (memberOf s s.cur = none → reads 0x280 0 ∧ reads 0x281 (BitVec.allOnes 64)) ∧
    (∀ k r, memberOf s s.cur = some (k, r) → reads 0x280 (BitVec.ofNat 64 (gidOf (k / 4096) (k % 4096) (gr s k).gen)) ∧
      reads 0x281 (BitVec.ofNat 64 r)) ∧
    reads 0x2C0 (BitVec.ofNat 64 (C.ch.scope * 16 + (if C.ch.en then 1 else 0))) ∧
    reads 0x2C1 (BitVec.ofNat 64 (C.ch.done * 2 ^ 32 + (if C.ch.sh then 16 else 0) + C.ch.state)) ∧
    reads 0x300 (cx s T.ctx).lupd ∧ reads 0x301 (BitVec.ofNat 64 (s.dv * 16 + C.bv))) ∧
  ((T.priv = .user → T.ts ≠ 0) → (T.priv = .sup → C.town.hv = false ∨ C.town.vmid = (cx s T.ctx).vmid) → reads 0x180 (BitVec.ofNat 64 C.cfg.tm) ∧ reads 0x181 (BitVec.ofNat 64 C.cfg.tn) ∧
    reads 0x182 (BitVec.ofNat 64 C.cfg.tk) ∧ reads 0x183 (BitVec.ofNat 64 C.cfg.tsa) ∧
    reads 0x184 (BitVec.ofNat 64 C.cfg.tsb) ∧ reads 0x185 (BitVec.ofNat 64 C.cfg.tsca) ∧
    reads 0x186 (BitVec.ofNat 64 C.cfg.tscb) ∧ reads 0x187 C.cfg.tcc) ∧
  (∀ idx : BitVec 12, 0x180 ≤ idx.toNat → idx.toNat ≤ 0x187 → Quiet s →
    (T.priv = .user → T.ts = 0 →
      ∃ t, exec (.sread p d idx) s = .next t ∧ TrapTo s t 12 (BitVec.ofNat 64 (wordSread p d idx))) ∧
    (T.priv = .sup → C.town.hv = true → C.town.vmid ≠ (cx s T.ctx).vmid →
      ∃ t, exec (.sread p d idx) s = .next t ∧ TrapTo s t 4 (BitVec.ofNat 64 (wordSread p d idx)))) ∧
  (T.priv ≠ .user → reads 0x884 (cx s T.ctx).spra ∧
    reads 0x8C0 (BitVec.ofNat 64 ((cx s T.ctx).vmid * 2 ^ 16 + (cx s T.ctx).state.code * 2 ^ 8 + T.ctx % 256)) ∧
    reads 0x8C2 (BitVec.ofNat 64 (cx s T.ctx).celn) ∧ reads 0x8C3 (cx s T.ctx).hmsg ∧
    ∃ v, reads 0x807 v ∧ v.toNat / 2 ^ 16 = T.sr.en.toNat ∧ v.toNat % 2 ^ 16 < 32 ∧ ∀ k < 5, v.getLsbD k =
      (if k = 1 then decide (T.sr.cmp.toNat ≤ s.cycle - C.base) else T.sr.pend.getLsbD k))) ∧
  (∀ (s : State) (p : BitVec 1) (d a : BitVec 5) (idx : BitVec 12), Quiet s →
  let traps (i : Instr) (c : Nat) : Prop := ∀ w, encode i = some w → ∃ t, exec i s = .next t ∧ TrapTo s t c (BitVec.ofNat 64 w)
  let all (c : Nat) : Prop := traps (.sread p d idx) c ∧ traps (.swrite p d a idx) c ∧ traps (.sset p d a idx) c ∧
    traps (.sclr p d a idx) c
  let band := idx.toNat / 1024
  (band = 1 → all 0) ∧ ((band = 2 ∨ band = 3) → (me s).priv = .user → all 3) ∧
  (band = 3 → (me s).priv = .sup → all 4) ∧
  ((idx = 0x00E ∨ idx = 0x109 ∨ idx = 0x203 ∨ idx = 0x302 ∨ idx = 0x3FF) → all 0) ∧
  ((idx = 0x809 ∨ idx = 0x885 ∨ idx = 0xBFF) → (me s).priv ≠ .user → all 0) ∧
  ((idx = 0xC08 ∨ idx = 0xC84 ∨ idx = 0xFFF) → (me s).priv = .hyp → all 0))

/-- `swrite` (R61, R81, R38): d receives the old value, the register the new one with its read-only bits kept, and nothing
else changes. A reserved rounding mode, a locked `FMT` or `SCB`, and a read-only register raise the illegal-instruction
trap with the word as trap value, and nothing is written (R36 step 4).

`sset` and `sclr` (R61): the new value is old OR a, and old AND NOT a; with a = g0 no write is made, so that a
read-only register and a locked one may be named; d receives the old value in every case. -/
def Obligations.SystemRegisterWrites : Prop :=
  (∀ (s : State) (p : BitVec 1) (d a : BitVec 5), Fresh s →
  let T := me s
  let v := rd s a
  let writes (idx : BitVec 12) (old : Word) (upd : Thread → Thread) : Prop :=
    ∃ t, exec (.swrite p d a idx) s = .next t ∧ Updates s t p d old upd
  let traps (idx : BitVec 12) : Prop :=
    Quiet s → ∃ t, exec (.swrite p d a idx) s = .next t ∧ TrapTo s t 0 (BitVec.ofNat 64 (wordSwrite p d a idx))
  writes 0x001 (T.u.flags.setWidth 64) (fun n => { n with u := { n.u with flags := v.setWidth 5 } }) ∧
  (v.toNat % 8 < 5 → writes 0x002 (BitVec.ofNat 64 T.u.frm) (fun n => { n with u := { n.u with frm := v.toNat % 8 } })) ∧
  (5 ≤ v.toNat % 8 → traps 0x002) ∧ writes 0x003 T.u.wlim (fun n => { n with u := { n.u with wlim := v } }) ∧
  (T.u.lock = true → traps 0x004 ∧ traps 0x005) ∧
  (T.u.lock = false → writes 0x005 T.u.scb (fun n => { n with u := { n.u with scb := v } })) ∧
  writes 0x008 T.u.lwb (fun n => { n with u := { n.u with lwb := v &&& 0xFFFFFFFFFFF80001 } }) ∧
  writes 0x00B T.u.afop (fun n => { n with u := { n.u with afop := v &&& 0xFFFFFFFFFFFFFFC0 } }) ∧
  writes 0x107 T.v.wbase (fun n => { n with v := { n.v with wbase := v } }) ∧
  traps 0x000 ∧ traps 0x006 ∧ traps 0x007 ∧ traps 0x00A ∧ traps 0x00D ∧
  (T.priv ≠ .user →
    writes 0x800 T.sr.status (fun n => { n with sr := { n.sr with status := v &&& 0x103 } }) ∧
    writes 0x801 T.sr.cause (fun n => { n with sr := { n.sr with cause := v &&& 0xC00000000000003F } }) ∧
    writes 0x802 T.sr.epc (fun n => { n with sr := { n.sr with epc := v } }) ∧
    writes 0x803 T.sr.val (fun n => { n with sr := { n.sr with val := v } }) ∧
    writes 0x804 T.sr.vec (fun n => { n with sr := { n.sr with vec := v &&& 0xFFFFFFFFFFFFFFF8 } }) ∧
    writes 0x805 T.sr.scratch (fun n => { n with sr := { n.sr with scratch := v } }) ∧
    writes 0x808 T.sr.cmp (fun n => { n with sr := { n.sr with cmp := v } })) ∧
  (T.priv = .hyp →
    writes 0xC01 T.hr.cause (fun n => { n with hr := { n.hr with cause := v &&& 0xC00000000000003F } }) ∧
    writes 0xC02 T.hr.epc (fun n => { n with hr := { n.hr with epc := v } }) ∧
    writes 0xC03 T.hr.val (fun n => { n with hr := { n.hr with val := v } }) ∧
    writes 0xC04 T.hr.gpa (fun n => { n with hr := { n.hr with gpa := v } }) ∧
    writes 0xC06 T.hr.vec (fun n => { n with hr := { n.hr with vec := v &&& 0xFFFFFFFFFFFFFFF8 } }) ∧
    writes 0xC07 T.hr.scratch (fun n => { n with hr := { n.hr with scratch := v } }))) ∧
  (∀ (s : State) (p : BitVec 1) (d a : BitVec 5), Fresh s →
  let T := me s
  let v := rd s a
  let does (i : Instr) (old : Word) (upd : Thread → Thread) : Prop := ∃ t, exec i s = .next t ∧ Updates s t p d old upd
  does (.sset p d a 0x001) (T.u.flags.setWidth 64) (fun n => { n with u := { n.u with flags := T.u.flags ||| v.setWidth 5 } }) ∧
  does (.sclr p d a 0x001) (T.u.flags.setWidth 64) (fun n => { n with u := { n.u with flags := T.u.flags &&& ~~~(v.setWidth 5) } }) ∧
  does (.sset p d a 0x003) T.u.wlim (fun n => { n with u := { n.u with wlim := T.u.wlim ||| v } }) ∧
  does (.sclr p d a 0x003) T.u.wlim (fun n => { n with u := { n.u with wlim := T.u.wlim &&& ~~~v } }) ∧
  does (.sset p d 0 0x006) (BitVec.ofNat 64 (s.cur % 16)) id ∧ does (.sclr p d 0 0x006) (BitVec.ofNat 64 (s.cur % 16)) id ∧
  does (.sset p d 0 0x005) T.u.scb id ∧ does (.sclr p d 0 0x005) T.u.scb id)

/-! ### Loads and stores -/

/-- Loads through the scratchpad window (R64, R58): for each of the seven forms, when the aligned bytes lie in the own
scratchpad, nothing of the thread's is posted and no uncorrectable error stands there, the load completes: its
destination waits for the bytes, little-endian, sign- or zero-extended; no memory, register or other state changes.

Loads of this package's device memory with physical addresses (R64, R283, R228): for each of the seven forms, with no
copy of the line in the core's array, the destination waits for the bytes at the home. Nothing else changes but the L1
part of the core's array, which may take the line: no memory, no register.

A thread sees its own store (R64, R235): after a store to its scratchpad that is still queued, a load of the same
bytes is given the stored data, not the bytes that stand there. -/
def Obligations.Loads : Prop :=
  (∀ (s : State) (p : BitVec 1) (d a : BitVec 5) (la : BitVec 4) (imm : BitVec 8) (off : Nat),
  ∀ f ∈ loadForms p d a la imm, let ea := accessAddr s a imm f.2.1
    ea.toNat % f.2.1 = 0 → InScratch s ea f.2.1 off → (me s).v.queue = [] → NothingPosted s s.cur →
    poisoned s (.spad (s.cur / 16) off) f.2.1 = false →
    ∃ t, exec f.1 s = .next t ∧
      LongWord s t p d la (loaded f.2.1 f.2.2 (mrd s.spads (s.cur / 16 * 0x80000 + off) f.2.1))) ∧
  (∀ (s : State) (p : BitVec 1) (d a : BitVec 5) (la : BitVec 4) (imm : BitVec 8) (k : Nat),
  ∀ f ∈ loadForms p d a la imm, let ea := accessAddr s a imm f.2.1
    ea.toNat % f.2.1 = 0 → InMemory s ea f.2.1 k → (me s).v.queue = [] → NothingPosted s s.cur → s.poison = [] →
    s.halos = [] → s.haloDirty = [] → s.haloRep = [] → (∀ e ∈ (co s (s.cur / 16)).l1, e.1 ≠ k / 128) →
    ∃ t, exec f.1 s = .next t ∧ Behind s t p ∧
      (me t).longs = (me s).longs ++ (if d = 0 then []
        else [{ d := d.toNat, left := la.toNat, res := .ready (loaded f.2.1 f.2.2 (mrd s.mem k f.2.1)), pc := (me s).pc }]) ∧
      longMask (me t) (me s) = me s ∧ OthersSame s t s.cur ∧
      { t with threads := s.threads, last := s.last, cores := s.cores } = s ∧
      (∀ c, c ≠ s.cur / 16 → co t c = co s c) ∧ { co t (s.cur / 16) with l1 := (co s (s.cur / 16)).l1 } = co s (s.cur / 16) ∧
      ∀ b, mget t.mem b = mget s.mem b) ∧
  (∀ (s t : State) (p q : BitVec 1) (d e a b : BitVec 5) (la : BitVec 4) (imm : BitVec 8) (off : Nat),
  let ea := accessAddr s a imm 8
  s.snap = none → ea.toNat % 8 = 0 → InScratch s ea 8 off → (me s).v.queue = [] → NothingPosted s s.cur →
  exec (.std p d a imm) s = .next t → accessAddr t b imm 8 = ea →
  ∃ u, exec (.ldd q e b la imm) t = .next u ∧ LongWord t u q e la (rd s d))

/-- The precise faults of a load (R64): a misaligned address raises cause 5, and a window address beyond the scratchpad
part raises cause 6, each with the address as trap value; nothing commits. -/
def Obligations.LoadFaults : Prop :=  ∀ (s : State) (p : BitVec 1) (d a : BitVec 5) (la : BitVec 4) (imm : BitVec 8),
  ∀ f ∈ loadForms p d a la imm, let ea := accessAddr s a imm f.2.1
    Quiet s →
    (ea.toNat % f.2.1 ≠ 0 → ∃ t, exec f.1 s = .next t ∧ TrapTo s t 5 ea) ∧
    (ea.toNat % f.2.1 = 0 → (me s).u.lwb.getLsbD 0 = true → ea.toNat / 2 ^ 19 = (me s).u.lwb.toNat / 2 ^ 19 →
      (co s (s.cur / 16)).sp * 0x10000 < ea.toNat % 2 ^ 19 + f.2.1 → ∃ t, exec f.1 s = .next t ∧ TrapTo s t 6 ea)

/-- Stores at issue (R64, R244): for each of the four forms, an aligned store enters the thread's queue with its address,
the low bytes of d's value, its place and its privilege, and nothing else changes: no byte of memory, no register. A
misaligned one raises cause 5 with the address and enters nothing. -/
def Obligations.Stores : Prop := ∀ (s : State) (p : BitVec 1) (d a : BitVec 5) (imm : BitVec 8),
  ∀ f ∈ storeForms p d a imm, let ea := accessAddr s a imm f.2
    (ea.toNat % f.2 = 0 → (me s).v.queue = [] → (me s).stores.length < 64 →
      ∃ t x, exec f.1 s = .next t ∧ Behind s t p ∧ (me t).stores = (me s).stores ++ [x] ∧ x.addr = ea ∧ x.width = f.2 ∧
        x.data = BitVec.ofNat 64 ((rd s d).toNat % 2 ^ (8 * f.2)) ∧ x.op = .put ∧ x.pc = (me s).pc ∧ x.slot = s.slot ∧
        x.priv = (me s).priv ∧ x.elem = 0 ∧ x.seq = s.order ∧ some x.word = encode f.1 ∧
        (∀ off, InScratch s ea f.2 off → x.space = .scratch ∧ x.off = off) ∧ (NoWindow s ea → x.space = .global) ∧
        storeMask (me t) (me s) = me s ∧ OthersSame s t s.cur ∧ SameButOrder s t ∧ ∀ b, mget t.mem b = mget s.mem b) ∧
    (ea.toNat % f.2 ≠ 0 → Quiet s → ∃ t, exec f.1 s = .next t ∧ TrapTo s t 5 ea)

/-- The check of a queued store (R244, R245, R247): the oldest store of the queue, when it goes to the own scratchpad
within its size, or by a physical address to device memory of the partition with no copy or halo there, is sent towards
its home; out of the scratchpad, with no ring, it is discarded and the thread is told; memory does not change.

A store performed at its home (R229, R181): a sent store of a thread with nothing older under way writes its bytes,
little-endian, at the computed home, and every other byte of memory and of every scratchpad reads as before; the store
leaves the queue. The homes: the thread's scratchpads and this package's device memory. -/
def Obligations.StoresPerformed : Prop :=
  (∀ (s : State) (tid : Nat) (x : Store) (rest : List Store),
  (th s tid).stores = x :: rest → (th s tid).precs = [] → s.pages = [] → s.pageWaits = [] →
  let T := th s tid
  (x.space = .scratch → x.off % x.width = 0 → x.off + x.width ≤ (co s (tid / 16)).sp * 0x10000 →
    ∃ t, exec (.storeCheck tid) s = .next t ∧ SameOutside s t ∧ OthersSame s t tid ∧
      th t tid = { T with stores := rest, sent := T.sent ++ [{ x with loc := some (.spad (tid / 16) x.off), pbmt := 0 }] }) ∧
  (x.space = .global → x.addr.toNat % x.width = 0 → x.priv = .hyp → s.pkg < 256 → ∀ k,
    x.addr.toNat = s.pkg * 2 ^ 40 + k → k < 2 ^ 40 → (granule s (k / 2 ^ 30)).part = (cx s T.ctx).part → s.halos = [] →
    ∃ t, exec (.storeCheck tid) s = .next t ∧ SameOutside s t ∧ OthersSame s t tid ∧
      th t tid = { T with stores := rest, sent := T.sent ++ [{ x with loc := some (.mem k), pbmt := 0 }] }) ∧
  (x.space = .scratch → x.off % x.width = 0 → (co s (tid / 16)).sp * 0x10000 < x.off + x.width → (cx s T.ctx).sfqb = 0 →
    ∃ t, exec (.storeCheck tid) s = .next t ∧ SameOutside s t ∧ OthersSame s t tid ∧
      th t tid = { T with stores := rest, sfNone := true })) ∧
  (∀ (s : State) (tid : Nat) (x : Store),
  (th s tid).sent = [x] → x.op = .put → (∀ p ∈ s.posts, p.tid ≠ tid) → (∀ y ∈ (th s tid).stores, x.seq ≤ y.seq) →
  s.stuck = [] → s.halos = [] → s.waiters = [] → s.arms = [] → s.mem.wf = true → s.spads.wf = true →
  (∀ c o, x.loc = some (.spad c o) → ∃ t, exec (.storeArriveHome tid 0) s = .next t ∧ (th t tid).sent = [] ∧
    (∀ i < x.width, mget t.spads (c * 0x80000 + o + i) = BitVec.ofNat 8 (x.data.toNat / 256 ^ i)) ∧
    (∀ b, b < c * 0x80000 + o ∨ c * 0x80000 + o + x.width ≤ b → mget t.spads b = mget s.spads b) ∧
    (∀ b, mget t.mem b = mget s.mem b) ∧ OthersSame s t tid ∧ { th t tid with sent := (th s tid).sent } = th s tid) ∧
  (∀ k, x.loc = some (.mem k) → k < 2 ^ 40 → x.pbmt = 0 → (∀ e ∈ (co s (tid / 16)).l1, e.1 ≠ k / 128) →
    ∃ t, exec (.storeArriveHome tid 0) s = .next t ∧ (th t tid).sent = [] ∧
    (∀ i < x.width, mget t.mem (k + i) = BitVec.ofNat 8 (x.data.toNat / 256 ^ i)) ∧
    (∀ b, b < k ∨ k + x.width ≤ b → mget t.mem b = mget s.mem b) ∧ (∀ b, mget t.spads b = mget s.spads b) ∧
    OthersSame s t tid ∧ { th t tid with sent := (th s tid).sent } = th s tid))

/-- A long result arrives (R58): the register of its destination is written, g0 discarding, and no other; the entry goes
when its window has ended, and stands as written until then. -/
def Obligations.LongResultArrives : Prop := ∀ (s : State) (tid n : Nat) (l : Long) (v : Word),
  (th s tid).longs[n]? = some l → l.res = .ready v → l.d < 32 →
  ∃ t, exec (.longResultWrite tid n) s = .next t ∧ SameOutside s t ∧ OthersSame s t tid ∧
    (l.d ≠ 0 → tget (th t tid).g l.d 0 = v) ∧ (∀ r, r ≠ l.d ∨ l.d = 0 → tget (th t tid).g r 0 = tget (th s tid).g r 0) ∧
    (th t tid).longs = (if l.left = 0 then ldel (th s tid).longs n else lput (th s tid).longs n { l with res := .written }) ∧
    { th t tid with g := (th s tid).g, longs := (th s tid).longs } = th s tid

/-! ### Vector words -/

/-- Vector loads and stores enter the queue (R115, R125, R127): for a type whose width is `EW`'s, each of the eleven
words; `vld` and `vst` also for a 4-bit type with `EW` 0, `vst` then with an even `VL`. The indexed forms need d ≠ b and
`VL` at most rows × 32, the scatter-adds int32 or int64 and fp32 or fp64. With `VMT` at 3 to 7 the words are illegal (R19). -/
def Obligations.VectorMemoryWords : Prop :=  ∀ (s : State) (p : BitVec 1) (d a b : BitVec 5) (ew : BitVec 2) (k : BitVec 3), QueueRoom s → SomeType s →
  let full := typeWidth (vtNow s) = 8 * 2 ^ ew.toNat
  let half := vtNow s = 5 ∧ ew = 0
  let indexed := d ≠ b ∧ vlNow s ≤ (me s).v.rows * 32
  (3 ≤ vmtNow s → Quiet s → full → ∀ i ∈ [Instr.vld p d a ew k, .vst p d a ew k, .vlds p d a b ew k, .vldff p d a ew k,
      .vldg p d a b ew k, .vldb p d a ew k, .vsts p d a b ew k],
    ∃ t w, encode i = some w ∧ exec i s = .next t ∧ TrapTo s t 0 (BitVec.ofNat 64 w)) ∧
  (vmtNow s < 3 →
  (full ∨ half → Enters s (.vld p d a ew k) p .vld d a 0 k 0 ew (rd s a) 0) ∧
  (full ∨ (half ∧ vlNow s % 2 = 0) → Enters s (.vst p d a ew k) p .vst d a 0 k 0 ew (rd s a) 0) ∧
  (full → Enters s (.vlds p d a b ew k) p .vlds d a b k 0 ew (rd s a) (rd s b) ∧
    Enters s (.vldff p d a ew k) p .vldff d a 0 k 0 ew (rd s a) 0 ∧
    Enters s (.vldg p d a b ew k) p .vldg d a b k 0 ew (rd s a) (rd s b) ∧
    Enters s (.vldb p d a ew k) p .vldb d a 0 k 0 ew (rd s a) 0 ∧
    Enters s (.vsts p d a b ew k) p .vsts d a b k 0 ew (rd s a) (rd s b)) ∧
  (full → indexed → Enters s (.vldx p d a b ew k) p .vldx d a b k 0 ew (rd s a) 0 ∧
    Enters s (.vstx p d a b ew k) p .vstx d a b k 0 ew (rd s a) 0) ∧
  (full → indexed → vtNow s = 8 ∨ vtNow s = 11 → Enters s (.vstxa p d a b ew k) p .vstxa d a b k 0 ew (rd s a) 0) ∧
  (full → indexed → vtNow s = 0 ∨ vtNow s = 9 → Enters s (.vstxf p d a b ew k) p .vstxf d a b k 0 ew (rd s a) 0))

/-- The arithmetic, compare and reduction words of the lane array enter the queue (R115, R125, R134-R139) when the type is
in the word's class; a scalar operand's value is captured when S is 1. Compares name a mask register.

Mask, permutation and conversion words enter the queue (R115, R125, R137, R140-R142) when their mask-register fields
are below 8, the type is in the word's class and their overlap and length limits hold. -/
def Obligations.VectorLaneWords : Prop :=
  (∀ (s : State) (d a b : BitVec 5) (k : BitVec 3) (sb : BitVec 1), QueueRoom s →
  let gb := if sb = 1 then rd s b else 0
  let all (l : List (Instr × VOp)) : Prop := ∀ f ∈ l, Enters s f.1 0 f.2 d a b k sb 0 0 gb
  (IntType s → all (vintForms d a b k sb)) ∧ (FloatType s → all (vfpForms d a b k sb)) ∧
  (SomeType s → all (vanyForms d a b k sb)) ∧ (vtNow s = 8 → all [(.vdot4 d a b k sb, .vdot4)]) ∧
  (FloatType s → sb = 1 ∨ d ≠ b → all [(.vfredt d a b k sb, .vfredt)]) ∧
  (IntType s → d.toNat < 8 → all (vcmpInt d a b k sb)) ∧ (FloatType s → d.toNat < 8 → all (vcmpFloat d a b k sb)) ∧
  (SomeType s → d.toNat < 8 → all (vcmpAny d a b k sb)) ∧
  (FloatType s → Enters s (.vfsqrt d a k) 0 .vfsqrt d a 0 k 0 0 0 0 ∧ Enters s (.vfabs d a k) 0 .vfabs d a 0 k 0 0 0 0 ∧
    Enters s (.vfneg d a k) 0 .vfneg d a 0 k 0 0 0 0) ∧
  (SomeType s → Enters s (.vmv d b k sb) 0 .vmv d 0 b k sb 0 0 gb)) ∧
  (∀ (s : State) (d a b : BitVec 5) (k : BitVec 3), QueueRoom s →
  let m2 (i : Instr) (o : VOp) : Prop := Enters s i 0 o d a b 0 0 0 0 0
  (d.toNat < 8 → a.toNat < 8 → b.toNat < 8 →
    m2 (.mand d a b) .mand ∧ m2 (.mor d a b) .mor ∧ m2 (.mxor d a b) .mxor ∧ m2 (.mandn d a b) .mandn) ∧
  (d.toNat < 8 → a.toNat < 8 → Enters s (.mnot d a) 0 .mnot d a 0 0 0 0 0 0) ∧
  (d.toNat < 8 → Enters s (.mset d a) 0 .mset d a 0 0 0 0 (rd s a) 0) ∧
  (a.toNat < 8 → Enters s (.mpop d a k) 0 .mpop d a 0 k 0 0 0 0 ∧ Enters s (.mfirst d a k) 0 .mfirst d a 0 k 0 0 0 0) ∧
  (a.toNat < 8 → IntType s → Enters s (.miota d a k) 0 .miota d a 0 k 0 0 0 0) ∧
  (IntType s → Enters s (.vid d k) 0 .vid d 0 0 k 0 0 0 0) ∧
  (SomeType s → d ≠ a → Enters s (.vslup d a b k) 0 .vslup d a b k 0 0 0 (rd s b) ∧
    Enters s (.vsldn d a b k) 0 .vsldn d a b k 0 0 0 (rd s b) ∧ Enters s (.vcompress d a k) 0 .vcompress d a 0 k 0 0 0 0) ∧
  (SomeType s → d ≠ a → d ≠ b → Enters s (.vrgather d a b k) 0 .vrgather d a b k 0 0 0 0) ∧
  (SomeType s → Enters s (.vbcast d a b k) 0 .vbcast d a b k 0 0 0 (rd s b) ∧
    Enters s (.vmvgv d a b) 0 .vmvgv d a b 0 0 0 (rd s a) (rd s b) ∧
    Enters s (.vmvvg d a b) 0 .vmvvg d a b 0 0 0 0 (rd s b)) ∧
  (d ≠ a → vlNow s ≤ (me s).v.rows * 1024 / typeWidth b.toNat →
    ((vtNow s, b.toNat) ∈ [(9, 0), (11, 8), (0, 1), (0, 2), (8, 10), (1, 3), (1, 4), (2, 3), (2, 4), (10, 6)] →
      Enters s (.vcvtN d a b k) 0 .vcvtN d a b k 0 0 0 0) ∧
    ((b.toNat, vtNow s) ∈ [(9, 0), (11, 8), (0, 1), (0, 2), (8, 10), (1, 3), (1, 4), (2, 3), (2, 4), (10, 6)] →
      Enters s (.vcvtW d a b k) 0 .vcvtW d a b k 0 0 0 0)) ∧
  ((vtNow s, b.toNat) ∈ [(9, 11), (0, 8), (1, 10), (2, 10), (3, 6), (4, 6)] →
    Enters s (.vcvtFi d a b k) 0 .vcvtFi d a b k 0 0 0 0) ∧
  ((b.toNat, vtNow s) ∈ [(9, 11), (0, 8), (1, 10), (2, 10), (3, 6), (4, 6)] →
    Enters s (.vcvtIf d a b k) 0 .vcvtIf d a b k 0 0 0 0) ∧
  (vtNow s = 0 → d ≠ a → d ≠ b → a ≠ b → Enters s (.vcvtQ4 d a b) 0 .vcvtQ4 d a b 0 0 0 0 0 ∧
    Enters s (.vcvtQ8 d a b) 0 .vcvtQ8 d a b 0 0 0 0 0))

/-- `vset` and `vsetmt` (R126, R125): with depth rows, a known type and room in the queue, `vset` writes `VT` and `VL`,
the minimum of the maximum length of the type and a's value (of `VL` for g0), and d := `VL`; `vsetmt` writes `VMT` and
d := the old `VMT`. Without depth rows both trap with cause 13 and their word. -/
def Obligations.VectorConfiguration : Prop := ∀ (s : State) (p : BitVec 1) (d a : BitVec 5) (ty : BitVec 4) (mt : BitVec 3),
  ((me s).v.rows ≠ 0 → (me s).v.queue.length < 8 → ty.toNat < 12 → ty ≠ 7 →
    let vl := min (if a = 0 then (me s).v.vl else (rd s a).toNat) ((me s).v.rows * 1024 / typeWidth ty.toNat)
    ∃ t, exec (.vset p d a ty) s = .next t ∧
      Updates s t p d (BitVec.ofNat 64 vl) fun o => { o with v := { o.v with vt := ty.toNat, vl := vl } }) ∧
  ((me s).v.rows ≠ 0 → (me s).v.queue.length < 8 → mt.toNat < 3 →
    ∃ t, exec (.vsetmt p d mt) s = .next t ∧
      Updates s t p d (BitVec.ofNat 64 (me s).v.vmt) fun o => { o with v := { o.v with vmt := mt.toNat } }) ∧
  ((me s).v.rows = 0 → Quiet s → ∃ t w u v, encode (.vset p d a ty) = some w ∧ exec (.vset p d a ty) s = .next t ∧
    TrapTo s t 13 (BitVec.ofNat 64 w) ∧ encode (.vsetmt p d mt) = some v ∧ exec (.vsetmt p d mt) s = .next u ∧
    TrapTo s u 13 (BitVec.ofNat 64 v))

/-- The words that write each active element (R108, R114, R117, R119, R134, R135): the one slot of a core with a lane instruction
gets the beat; before the last beat of one that is no reduction only the count of beats advances; the last makes every active
element of vd the operation of the elements of va and vb (or the scalar's low bits), adds the flags to `FLAGS` and vd to the dirty
map; the instruction leaves the queue. Float operations are those of the scalar words, in the element's format.

Permutations, moves and conversions (R140-R142): each writes the elements that its row names, an index at or beyond the maximum
length reading as zero; a conversion writes at the destination's width; a quantiser writes the codes of each block of 32 in vd and
its scale in vb.

Compares and mask words (R35, R136, R137): a compare writes the bits of the active elements of md, a mask word the bits below
`VL`; m0 discards them and reads as ones; `mpop` and `mfirst` write a general register; `miota` writes each active element with the
number of active bits below it.

Reductions (R105-R107, R138, R139): from the initial value, or from vd[0] of one that continues or has begun, the active elements
from `ELEM` on are combined in order, and element 0 alone of vd is written; `vfredt` adds by the tree of R106, whose working values
stay below half of its size.

Element accesses (R117, R127-R133, R244): the next active element of a load is read at its place and written to vd, and nothing else
of the vector registers changes but the dirty map; `vldb` writes every active element with one value; `vldff` ends with `VL` = i at
a refused element behind its first; `vldg` passes the guard that the counter meets. The next active element of a store enters the
store queue with its address, data and index, in the order of its word, the scatter-adds as additions. Past the last active
element the instruction leaves the queue. -/
def Obligations.VectorExecution : Prop :=
  (∀ (s : State) (core slot : Nat) (e : VEntry), LaneHolds s core slot e →
  let tid := core * 16 + slot
  let w := typeWidth e.vt
  let rm := rmOf e.frm
  let m := typeFmt e.vt
  let neg := 2 ^ (m.ew + m.f)
  let sx (n : Nat) : Int := (BitVec.ofNat w n).toInt
  let cut (n : Int) : Nat := (BitVec.ofInt w n).toNat
  let B (i : Nat) : Nat := if e.sb then e.gb.toNat % 2 ^ w else vGet s tid e.b w i
  let gives (o : VOp) (f : Nat → Nat → Nat → Nat × BitVec 5) : Prop := e.op = o →
    LaneElements s core slot e w fun i => f (vGet s tid e.a w i) (B i) (vGet s tid e.d w i)
  let int (o : VOp) (f : Nat → Nat → Nat → Nat) : Prop := gives o fun x y z => (f x y z, 0)
  let clip (o : VOp) (f : Int → Int → Int) : Prop := gives o fun x y _ =>
    let n := f (sx x) (sx y)
    if 2 ^ (w - 1) ≤ n then (2 ^ (w - 1) - 1, 4) else if n < -(2 ^ (w - 1)) then (2 ^ (w - 1), 4) else (cut n, 0)
  let clean (n r : Nat) : Nat :=
    if (2 ^ m.ew - 1) * 2 ^ m.f < n % neg then (2 ^ m.ew - 1) * 2 ^ m.f + 2 ^ (m.f - 1) else r
  (e.op.isLane = true → e.op.isRed = false → e.beats + 1 < LaneLength e →
    ∃ t, exec (.laneBeat core) s = .next t ∧ (th t tid).v.queue = [{ e with beats := e.beats + 1 }] ∧ t.vregs = s.vregs ∧
      co t core = { co s core with lane := slot } ∧ runMask (th t tid) (th s tid) = th s tid ∧ OthersSame s t tid) ∧
  (LaneLength e ≤ e.beats + 1 → e.vl * w ≤ 32 * 1024 →
    (isInt e.vt = true →
      int .vadd (fun x y _ => (x + y) % 2 ^ w) ∧ int .vsub (fun x y _ => (x + 2 ^ w - y) % 2 ^ w) ∧
      int .vmul (fun x y _ => x * y % 2 ^ w) ∧ int .vmulh (fun x y _ => cut (sx x * sx y / 2 ^ w)) ∧
      int .vmin (fun x y _ => if sx y < sx x then y else x) ∧ int .vmax (fun x y _ => if sx x < sx y then y else x) ∧
      int .vminu (fun x y _ => min x y) ∧ int .vmaxu (fun x y _ => max x y) ∧
      int .vsll (fun x y _ => x * 2 ^ (y % w) % 2 ^ w) ∧ int .vsrl (fun x y _ => x / 2 ^ (y % w)) ∧
      int .vsra (fun x y _ => cut (sx x / 2 ^ (y % w))) ∧ clip .vsadd (· + ·) ∧ clip .vssub (· - ·) ∧
      int .vmacc (fun x y z => (z + x * y) % 2 ^ w)) ∧
    (e.vt = 8 → int .vdot4 fun x y z => cut (z + ((List.range 4).map fun j =>
      (BitVec.ofNat 8 (x / 256 ^ j)).toInt * (BitVec.ofNat 8 (y / 256 ^ j)).toInt).sum)) ∧
    (isAnyType e.vt = true → int .vand (fun x y _ => x &&& y) ∧ int .vor (fun x y _ => x ||| y) ∧
      int .vxor (fun x y _ => x ^^^ y) ∧ int .vmv (fun _ y _ => y)) ∧
    (isFlt e.vt = true →
      gives .vfadd (fun x y _ => m.add rm x y) ∧ gives .vfsub (fun x y _ => m.sub rm x y) ∧
      gives .vfmul (fun x y _ => m.mul rm x y) ∧ gives .vfdiv (fun x y _ => m.div rm x y) ∧
      gives .vfsqrt (fun x _ _ => m.sqrt rm x) ∧ gives .vfmin (fun x y _ => m.pick false x y) ∧
      gives .vfmax (fun x y _ => m.pick true x y) ∧ gives .vfma (fun x y z => m.fma rm x y z) ∧
      gives .vfnma (fun x y z => m.fma rm ((x + neg) % (2 * neg)) y z) ∧ int .vfabs (fun x _ _ => clean x (x % neg)) ∧
      int .vfneg (fun x _ _ => clean x ((x + neg) % (2 * neg)))))) ∧
  (∀ (s : State) (core slot : Nat) (e : VEntry), LaneHolds s core slot e →
  let tid := core * 16 + slot
  let T := th s tid
  let w := typeWidth e.vt
  let u := typeWidth e.b
  let top := T.v.rows * 1024 / w
  let k := e.gb.toNat
  let src (i : Nat) : Nat := if i < top then vGet s tid e.a w i else 0
  let W (i : Nat) : Prop := ActiveElem s tid e i
  let n := (List.range e.vl).countP (activeBit s tid e)
  let put (o : VOp) (W : Nat → Prop) (G : Nat → Nat) : Prop := e.op = o → LaneWrites s core slot e.d w W G fun _ => False
  let conv (o : VOp) (F : Nat → Nat × BitVec 5) : Prop := e.op = o → LaneElements s core slot e u fun i => F (vGet s tid e.a w i)
  let quant (o : VOp) (m : Fmt) (top v : Nat) : Prop := e.op = o → e.vt = 0 → e.d ≠ e.b → e.a ≠ e.d → e.a ≠ e.b → e.b < 32 →
    let Q (j : Nat) := quantise m top ((List.range (min 32 (e.vl - 32 * j))).map fun i => vGet s tid e.a 32 (32 * j + i))
    ∃ t, exec (.laneBeat core) s = .next t ∧ LaneEnds s t core slot ∧
      (∀ i < 8192, i * 32 < 32768 →
        vGet t tid e.d v i = (if i < e.vl then (Q (i / 32)).2.1.getD (i % 32) 0 else vGet s tid e.d v i) ∧
        vGet t tid e.b 32 i = (if 32 * i < e.vl then (Q i).1 else vGet s tid e.b 32 i)) ∧
      (∀ r < 32, r ≠ e.d → r ≠ e.b → ∀ x < 4096, mget t.vregs (vKey tid r x) = mget s.vregs (vKey tid r x)) ∧
      (∀ j < 5, (th t tid).u.flags.getLsbD j = true ↔ T.u.flags.getLsbD j = true ∨ ∃ i < e.vl, (Q (i / 32)).2.2.getLsbD j = true) ∧
      (∀ j < 32, (th t tid).v.vdm.getLsbD j = true ↔ T.v.vdm.getLsbD j = true ∨ j = e.d ∨ j = e.b) ∧
      { th t tid with u := { (th t tid).u with flags := T.u.flags },
                      v := { (th t tid).v with queue := T.v.queue, vdm := T.v.vdm } } = T
  e.a < 32 → LaneLength e ≤ e.beats + 1 → e.vl ≤ top → T.v.rows ≤ 32 → isAnyType e.vt = true →
  (e.d ≠ e.a → put .vslup (fun i => W i ∧ k ≤ i) (fun i => src (i - k)) ∧ put .vsldn W (fun i => src (i + k)) ∧
    put .vcompress (· < n) (fun i => vGet s tid e.a w (((List.range e.vl).filter (activeBit s tid e)).getD i 0)) ∧
    (e.d ≠ e.b → put .vrgather W fun i => src (vGet s tid e.b w i))) ∧
  put .vbcast W (fun _ => src k) ∧ put .vmvgv (fun i => i = k ∧ k < top) (fun _ => e.ga.toNat % 2 ^ w) ∧
  (e.op = .vmvvg → LaneWord s core slot e.d
    (if isInt e.vt then BitVec.ofInt 64 (BitVec.ofNat w (src k)).toInt else BitVec.ofNat 64 (src k))) ∧
  (isInt e.vt = true → put .vid W fun i => i % 2 ^ w) ∧
  put .vmerge (· < e.vl) (fun i =>
    if activeBit s tid e i then (if e.sb then e.gb.toNat % 2 ^ w else vGet s tid e.b w i) else vGet s tid e.a w i) ∧
  (e.vl * u ≤ 32 * 1024 →
    (e.d ≠ e.a →
      ((e.vt, e.b) ∈ [(11, 8), (8, 10), (10, 6)] → conv .vcvtN fun x =>
        let y := (BitVec.ofNat w x).toInt
        (if 2 ^ (u - 1) ≤ y then 2 ^ (u - 1) - 1 else if y < -(2 ^ (u - 1)) then 2 ^ (u - 1) else (BitVec.ofInt u y).toNat, 0)) ∧
      ((e.b, e.vt) ∈ [(11, 8), (8, 10), (10, 6)] → conv .vcvtW fun x => ((BitVec.ofInt u (BitVec.ofNat w x).toInt).toNat, 0)) ∧
      ((e.vt, e.b) ∈ [(9, 0), (0, 1), (0, 2), (1, 3), (1, 4), (2, 3), (2, 4)] →
        conv .vcvtN ((typeFmt e.vt).convert (typeFmt e.b) (rmOf e.frm))) ∧
      ((e.b, e.vt) ∈ [(9, 0), (0, 1), (0, 2), (1, 3), (1, 4), (2, 3), (2, 4)] →
        conv .vcvtW ((typeFmt e.vt).convert (typeFmt e.b) (rmOf e.frm)))) ∧
    ((e.vt, e.b) ∈ [(9, 11), (0, 8), (1, 10), (2, 10), (3, 6), (4, 6)] →
      conv .vcvtFi ((typeFmt e.vt).toInt (rmOf e.frm) u)) ∧
    ((e.b, e.vt) ∈ [(9, 11), (0, 8), (1, 10), (2, 10), (3, 6), (4, 6)] →
      conv .vcvtIf fun x => (typeFmt e.b).ofInt (rmOf e.frm) (BitVec.ofNat w x).toInt)) ∧
  quant .vcvtQ4 fmtE2m1 6 4 ∧ quant .vcvtQ8 fmtE4m3 448 8) ∧
  (∀ (s : State) (core slot : Nat) (e : VEntry), LaneHolds s core slot e →
  let tid := core * 16 + slot
  let w := typeWidth e.vt
  let m := typeFmt e.vt
  let sx (n : Nat) : Int := (BitVec.ofNat w n).toInt
  let bit (r i : Nat) : Bool := r == 0 || (tget (th s tid).v.masks r 0).getLsbD i
  let hit (i : Nat) : Bool := activeBit s tid e i && bit e.a i
  let A (i : Nat) : Nat := vGet s tid e.a w i
  let B (i : Nat) : Nat := if e.sb then e.gb.toNat % 2 ^ w else vGet s tid e.b w i
  let cond (o : VOp) (C : Nat → Nat → Bool × BitVec 5) : Prop := e.op = o →
    LaneMask s core slot e.d (fun i => if activeBit s tid e i then some (C (A i) (B i)).1 else none)
      fun j => ∃ i < e.vl, ActiveElem s tid e i ∧ (C (A i) (B i)).2.getLsbD j = true
  let mask (o : VOp) (F : Nat → Bool) : Prop := e.op = o →
    LaneMask s core slot e.d (fun i => if i < e.vl then some (F i) else none) fun _ => False
  LaneLength e ≤ e.beats + 1 → e.vl * w ≤ 32 * 1024 →
  cond .vceq (fun x y => (x == y, 0)) ∧ cond .vcne (fun x y => (x != y, 0)) ∧
  cond .vclt (fun x y => (sx x < sx y, 0)) ∧ cond .vcle (fun x y => (sx x ≤ sx y, 0)) ∧
  cond .vcltu (fun x y => (x < y, 0)) ∧ cond .vcleu (fun x y => (x ≤ y, 0)) ∧
  cond .vfceq m.feq ∧ cond .vfclt (m.fltle false) ∧ cond .vfcle (m.fltle true) ∧
  cond .vfcun (fun x y =>
    let nan (n : Nat) : Bool := (2 ^ m.ew - 1) * 2 ^ m.f < n % 2 ^ (m.ew + m.f)
    let sig (n : Nat) : Bool := nan n && n % 2 ^ m.f < 2 ^ (m.f - 1)
    (nan x || nan y, if sig x || sig y then 16 else 0)) ∧
  mask .mand (fun i => bit e.a i && bit e.b i) ∧ mask .mor (fun i => bit e.a i || bit e.b i) ∧
  mask .mxor (fun i => bit e.a i != bit e.b i) ∧ mask .mandn (fun i => bit e.a i && !bit e.b i) ∧
  mask .mnot (fun i => !bit e.a i) ∧ mask .mset (fun i => i < e.ga.toNat) ∧
  (e.op = .mpop → LaneWord s core slot e.d (BitVec.ofNat 64 ((List.range e.vl).countP hit))) ∧
  (e.op = .mfirst → (∀ i < e.vl, hit i = true → (∀ j < i, hit j = false) → LaneWord s core slot e.d (BitVec.ofNat 64 i)) ∧
    ((∀ i < e.vl, hit i = false) → LaneWord s core slot e.d (BitVec.allOnes 64))) ∧
  (e.op = .miota → LaneElements s core slot e w fun i => ((List.range i).countP hit % 2 ^ w, 0))) ∧
  (∀ (s : State) (core slot : Nat) (e : VEntry), LaneHolds s core slot e →
  let tid := core * 16 + slot
  let w := typeWidth e.vt
  let m := typeFmt e.vt
  let rm := rmOf e.frm
  let sx (n : Nat) : Int := (BitVec.ofNat w n).toInt
  let rows := (e.vl * w + 1023) / 1024
  let A (i : Nat) : Nat := vGet s tid e.a w i
  let init := if e.sb then e.gb.toNat % 2 ^ w else vGet s tid e.b w 0
  let acc := if e.elem = 0 ∧ e.cont = false then init else vGet s tid e.d w 0
  let red (o : VOp) (beats : Nat) (f : Nat → Nat → Nat × BitVec 5) : Prop := e.op = o → beats ≤ e.beats + 1 → e.elem < e.vl →
    let R := ((List.range e.vl).drop e.elem).foldl (fun (x : Nat × BitVec 5) i =>
      if activeBit s tid e i then ((f x.1 (A i)).1, x.2 ||| (f x.1 (A i)).2) else x) (acc, 0)
    LaneWrites s core slot e.d w (· = 0) (fun _ => R.1) fun j => R.2.getLsbD j = true
  e.vl * w ≤ 32 * 1024 →
  (isInt e.vt = true → red .vredsum (rows + 5) (fun x y => ((x + y) % 2 ^ w, 0)) ∧
    red .vredmin (rows + 5) (fun x y => (if sx y < sx x then y else x, 0)) ∧
    red .vredmax (rows + 5) (fun x y => (if sx x < sx y then y else x, 0))) ∧
  (isFlt e.vt = true → red .vfredmin (rows + 5) (m.pick false) ∧ red .vfredmax (rows + 5) (m.pick true) ∧
    red .vfredo ((List.range e.vl).countP (activeBit s tid e) + 1) (m.add rm) ∧
    ∀ n, e.op = .vfredt → e.elem = 0 → e.cont = false → e.vl ≤ 2 ^ n → (∀ k < n, 2 ^ k < e.vl) → rows + n + 1 ≤ e.beats + 1 →
      (e.sb = true ∨ e.d ≠ e.b) →
      let x (i : Nat) : Nat := if activeBit s tid e i then A i else 0
      let L := treeLevel (m.add rm) x n
      let R := m.add rm init (L n 0).1
      LaneWrites s core slot e.d w (fun i => i = 0 ∨ i < 2 ^ n / 2)
        (fun i => if i = 0 then R.1 else (L (n - 1 - Nat.log2 i) i).1)
        fun j => R.2.getLsbD j = true ∨ ∃ l < n, ∃ i < 2 ^ (n - 1 - l), (L (l + 1) i).2.getLsbD j = true)) ∧
  (∀ (s : State) (tid i : Nat) (e : VEntry) (rest : List VEntry) (l : Loc),
  let T := th s tid
  let w := typeWidth e.vt
  let n := (w + 7) / 8
  let addr : Word :=
    if e.op = .vldb then e.ga
    else if e.op = .vlds ∨ e.op = .vsts then e.ga + BitVec.ofNat 64 i * e.gb
    else if e.op ∈ [.vldx, .vstx, .vstxa, .vstxf] then e.ga + (BitVec.ofNat 32 (vGet s tid e.b 32 i)).signExtend 64
    else e.ga + BitVec.ofNat 64 (i * w / 8)
  let word := placeWord s l n / 2 ^ (i * w % 8) % 2 ^ w
  let queued (t : State) (q : List VEntry) : Prop := (th t tid).v.queue = q ∧ OthersSame s t tid
  T.v.queue = e :: rest → w = 8 ∨ w = 16 ∨ w = 32 ∨ w = 64 ∨ (w = 4 ∧ e.op = .vld) →
  (s.vregs.wf = true → s.mem.wf = true → T.state = .ready → NextElem s tid e i → addr.toNat % n = 0 → NothingPosted s tid →
    s.stuck = [] → NoCopies s → e.d < 32 →
    (PlaceOf s tid e.priv e.vmt addr n l → poisoned s l n = false → w * i < 32768 →
      (∀ k, l = .mem k → l1Copy (co s (tid / 16)) (k / 128) = none) →
      (e.op ∈ [.vld, .vlds, .vldx, .vldff] → ∃ t, exec (.vectorElementAccess tid) s = .next t ∧
        vGet t tid e.d w i = word ∧ VregsKept s t (vKey tid e.d (i * w / 8)) n ∧
        (w = 4 → ∀ j, j ≠ i → vGet t tid e.d 4 j = vGet s tid e.d 4 j) ∧ queued t ({ e with elem := i + 1 } :: rest) ∧
        (th t tid).v.vdm = T.v.vdm ||| BitVec.ofNat 32 (2 ^ e.d) ∧ runMask (th t tid) T = T ∧ FilledFor s t) ∧
      (e.op = .vldb → rest = [] → e.vl * w ≤ 32 * 1024 → ∃ t, exec (.vectorElementAccess tid) s = .next t ∧
        (∀ j < e.vl, (ActiveElem s tid e j → vGet t tid e.d w j = word) ∧
          (¬ActiveElem s tid e j → vGet t tid e.d w j = vGet s tid e.d w j)) ∧
        VregsKept s t (vKey tid e.d 0) (e.vl * w / 8) ∧ queued t [] ∧
        (th t tid).v.vdm = T.v.vdm ||| BitVec.ofNat 32 (2 ^ e.d) ∧ runMask (th t tid) T = T ∧ FilledFor s t) ∧
      (∀ c k, e.op = .vldg → e.wctr.toNat % 8 < 2 → NearAddr s (tid / 16) (BitVec.ofNat 64 (e.wctr.toNat / 8 * 8)) c k →
        partOfCore s c = (cx s T.ctx).part → partOfCore s (tid / 16) = (cx s T.ctx).part → s.lehr.withdrawn = [] → s.poison = [] →
        0 ≤ (tget s.near (c * 256 + k) 0 - ((addr - e.wbase).sshiftRight (Nat.log2 n) + 1 + e.gb)).toInt →
        ∃ t, exec (.vectorElementAccess tid) s = .next t ∧ vGet t tid e.d w i = word ∧
          VregsKept s t (vKey tid e.d (i * n)) n ∧ queued t ({ e with elem := i + 1 } :: rest) ∧
          runMask (th t tid) T = T ∧ FilledFor { s with cur := tid, slot := 0, snap := none } t)) ∧
    (e.op = .vldff → e.vmt = 1 → (co s (tid / 16)).sp * 0x10000 < addr.toNat + n → (∃ j < i, ActiveElem s tid e j) → rest = [] →
      ∃ t, exec (.vectorElementAccess tid) s = .next t ∧ queued t [] ∧ (th t tid).v.vl = i ∧ t.vregs = s.vregs ∧
        { th t tid with v := { (th t tid).v with queue := T.v.queue, vl := T.v.vl } } = T ∧
        { t with threads := s.threads } = s)) ∧
  (e.op ∈ [.vst, .vsts, .vstx, .vstxa, .vstxf] → w ≠ 4 → NextElem s tid e i → T.stores.length < 64 →
    (∀ x ∈ T.stores, x.nelem = 1) →
    ∃ t x, exec (.vectorElementAccess tid) s = .next t ∧ (th t tid).stores = T.stores ++ [x] ∧ x.addr = addr ∧
      x.width = n ∧ x.data = BitVec.ofNat 64 (vGet s tid e.d w i) ∧ x.elem = i ∧ x.pc = e.pc ∧
      x.op = (if e.op = .vstxa then .add else if e.op = .vstxf then .fadd else .put) ∧
      x.slot = e.slot ∧ x.word = e.word ∧ x.priv = e.priv ∧ x.seq = e.seq + 1 + i ∧
      x.space = (if e.vmt = 1 then .scratch else if e.vmt = 2 then .peer else .global) ∧
      queued t ({ e with elem := i + 1 } :: rest) ∧
      { th t tid with stores := T.stores, v := { (th t tid).v with queue := T.v.queue } } = T ∧
      { t with threads := s.threads } = s) ∧
  ((e.op.isLoad = true ∧ NothingPosted s tid ∨ e.op.isStore = true) → T.state = .ready →
    (∀ j, e.elem ≤ j → ¬ActiveElem s tid e j) → rest = [] →
    ∃ t, exec (.vectorElementAccess tid) s = .next t ∧ queued t [] ∧
      { th t tid with v := { (th t tid).v with queue := T.v.queue } } = T ∧
      { t with threads := s.threads } = s))

/-! ### Tiles -/

/-- The streaming TILE words (R149, R151, R158, R162, R166-R170): where the checks hold, no vector store is queued and the
command queue has room, each enters the queue with what it captures. The products need a known pairing, `FMT` rules that
hold and operands that are multiples of 4; `tile.gmma` a gang of at most 64; `tile.q` type 3 or 5; `tile.chol` TM = TN ≤ 64;
`tile.trsm` TN ≤ 64 and two registers. -/
def Obligations.TileStreamingWords : Prop :=  ∀ (s : State) (p : BitVec 1) (t ts : BitVec 2) (c : BitVec 1) (a b : BitVec 5) (y : BitVec 4),
  let g := (co s (s.cur / 16)).cfg
  let F := (me s).u.fmt.toNat
  let pair := [(1, 1), (2, 2), (3, 3), (3, 4), (4, 3), (4, 4), (5, 5), (6, 6), (7, 6), (0, 0)].getD y.toNat (0, 0)
  let even := (rd s a).toNat % 4 = 0 ∧ (rd s b).toNat % 4 = 0
  let product := y.toNat < 10 ∧ even ∧ (F / 256 = 0 ∨ (F / 256 = 8 ∧ (y = 7 ∨ y = 8))) ∧
    (F % 256 = 0 ∨ (F % 16, F / 16 % 16) = pair)
  TileOpen s → (∀ e ∈ (me s).v.queue, e.op.isStore = false) → (co s (s.cur / 16)).tq.length < 16 →
  Queues s (.tileZero p t c) p .tileZero t c 0 0 0 0 ∧
  (product → Queues s (.tileMma p t c a b y) p .tileMma t c a b y a.toNat ∧
    Queues s (.tileMmax p t c a b y) p .tileMmax t c a b y a.toNat) ∧
  (product → (∃ k r, memberOf s s.cur = some (k, r) ∧ isGang (gr s k) = true ∧ (gr s k).members.length ≤ 64) →
    Queues s (.tileGmma p t c a b y) p .tileGmma t c a b y a.toNat) ∧
  (even → y = 3 ∨ y = 5 → Queues s (.tileQ p t c a b y) p .tileQ t c a b y a.toNat) ∧
  (g.tm = g.tn → g.tn ≤ 64 → Queues s (.tileChol p t c) p .tileChol t c 0 0 0 0) ∧
  (g.tn ≤ 64 → t ≠ ts → Queues s (.tileTrsm p t c ts) p .tileTrsm t c 0 0 0 ts.toNat)

/-- Tile loads `tile.ld` and `tile.ldx` of own scratchpad bytes through the window (R160, R161, R163, R164): with the core's
queue empty each cell (i, j) of the window takes the element at row(i) + j × s, widened (types 0 and 8 keep the bits),
and of a skipped row 0; no other cell changes; the held data become Dirty; with C = 1 the counter gains 1.

Tile stores `tile.st`, `tile.stx` and `tile.stxa` (R160, R163, R165): a window of at most 64 cells without skipped rows
enters an empty store queue, one store per cell in row order then column order, with the element index i × 64 + j and the
cell's bits (types 0 and 8; else rounded); `tile.stxa` enters adds, fp32 for type 0 and integer for type 8. -/
def Obligations.TileMemoryWords : Prop :=
  (∀ (s : State) (p : BitVec 1) (t : BitVec 2) (c : BitVec 1) (a b : BitVec 5) (y : BitVec 4) (x : Bool),
  let core := s.cur / 16
  let g := (co s core).cfg
  let n := if y = 0 ∨ y = 8 then 4 else 2
  let at_ (r : Word) (j : Nat) : Word := r + BitVec.ofNat 64 (j * n)
  y = 0 ∨ y = 1 ∨ y = 2 ∨ y = 8 → TileReady s x a b n → HoldsTiles s → CalmCounters s → g.tn ≤ 64 → g.tm ≤ 128 →
  CountReady s core (me s).ctx (c == 1) g.tcc →
  (∀ i < g.tm, ∀ j < g.tn, ∀ r, tileRows s x a b i = some r → ∃ off, InScratch s (at_ r j) n off) →
  ∃ u, exec (if x then .tileLdx p t c a b y else .tileLd p t c a b y) s = .next u ∧ Behind s u p ∧
    (∀ i < g.tm, ∀ j < g.tn, ∀ r off, tileRows s x a b i = some r → InScratch s (at_ r j) n off →
      cell u core t.toNat i j = (tileWiden y.toNat (mrd s.spads (core * 0x80000 + off) n)).1) ∧
    (∀ i < g.tm, ∀ j < g.tn, tileRows s x a b i = none → cell u core t.toNat i j = 0) ∧
    (∀ k, (∀ i < g.tm, ∀ j < g.tn, k ≠ tKey core t.toNat i j) → tget u.tiles k 0 = tget s.tiles k 0) ∧
    (y = 0 ∨ y = 8 → (me u).u.flags = (me s).u.flags) ∧ (me u).ts = 3 ∧
    co u core = { co s core with town := { (co s core).town with hts := 3 } } ∧ (∀ k, k ≠ core → co u k = co s k) ∧
    CountsOne s u core (c == 1) g.tcc ∧ tileMask (me u) (me s) = me s ∧ OthersSame s u s.cur ∧ SameButTiles s u ∧
    u.vregs = s.vregs ∧ GrantsEnd s u core) ∧
  (∀ (s : State) (p : BitVec 1) (t : BitVec 2) (c : BitVec 1) (a b : BitVec 5) (y : BitVec 4),
  let core := s.cur / 16
  let g := (co s core).cfg
  let n := if y = 0 ∨ y = 8 then 4 else 2
  ∀ f ∈ [(Instr.tileSt p t c a b y, false, Rmw.put), (.tileStx p t c a b y, true, .put),
         (.tileStxa p t c a b y, true, if y = 8 then .add else .fadd)],
  y = 0 ∨ y = 8 ∨ (f.2.2 = .put ∧ (y = 1 ∨ y = 2)) → TileReady s f.2.1 a b n → CalmCounters s →
  g.tm * g.tn ≤ 64 → g.tn ≤ 64 → CountReady s core (me s).ctx (c == 1) g.tcc → (∀ i < g.tm, tileRows s f.2.1 a b i ≠ none) →
  (∀ i < g.tm, ∀ j < g.tn, ∀ r, tileRows s f.2.1 a b i = some r → NoWindow s (r + BitVec.ofNat 64 (j * n))) →
  ∃ u, exec f.1 s = .next u ∧ Behind s u p ∧ (me u).stores.length = g.tm * g.tn ∧
    (∀ i < g.tm, ∀ j < g.tn, ∃ x r, (me u).stores[i * g.tn + j]? = some x ∧ tileRows s f.2.1 a b i = some r ∧
      x.addr = r + BitVec.ofNat 64 (j * n) ∧ x.width = n ∧ x.op = f.2.2 ∧ x.float = (f.2.2 == .fadd) ∧ x.space = .global ∧
      x.data = BitVec.ofNat 64 (tileNarrow y.toNat (cell s core t.toNat i j)).1 ∧ x.elem = i * 64 + j ∧ x.pc = (me s).pc ∧
      x.slot = s.slot ∧ x.priv = (me s).priv ∧ x.seq = s.order + (i * g.tn + j)) ∧
    (y = 0 ∨ y = 8 → (me u).u.flags = (me s).u.flags) ∧ CountsOne s u core (c == 1) g.tcc ∧
    { tileMask (me u) (me s) with stores := (me s).stores } = me s ∧ OthersSame s u s.cur ∧
    (∀ k, co u k = co s k) ∧ GrantsEnd s u core ∧
    { u with threads := s.threads, last := s.last, cores := s.cores, near := s.near, order := s.order, benches := s.benches } = s)

/-- `tile.rowv`, `tile.vrow` and `tile.rel` with the core's queue empty (R147, R150, R160, R168, R171): with the Marver free, the
row's first TN cells go to elements 0 to TN − 1 of vb, or come from them, in the core's turn at the Marver; `tile.rel` of a holder is a
tile-state reset that clears the hold, HOLD and HTS with HV (the model's reading, log 26). -/
def Obligations.TileRows : Prop :=  ∀ (s : State) (p : BitVec 1) (t : BitVec 2) (c : BitVec 1) (a v : BitVec 5) (y : BitVec 4),
  let core := s.cur / 16
  let g := (co s core).cfg
  let n := (rd s a).toNat
  let w := typeWidth y.toNat
  TileOpen s → (me s).v.queue = [] → (co s core).tq = [] → (co s core).relPending = false →
  (co s core).tfault = none → (me s).u.afcode.getLsbD 63 = false → HoldsTiles s → CalmCounters s → s.vregs.wf = true →
  (y = 0 ∨ y = 1 ∨ y = 2 ∨ y = 8 → (me s).v.rows ≠ 0 → (me s).v.rows ≤ 32 → y.toNat = vtNow s → n < 128 → g.tn ≤ 64 →
    g.tn ≤ (me s).v.rows * 1024 / w → CountReady s core (me s).ctx (c == 1) g.tcc → MarverFree s core →
    (∃ u, exec (.tileRowv p t c a v y) s = .next u ∧ Behind s u p ∧
      (∀ j < g.tn, vGet u s.cur v.toNat w j = (tileNarrow y.toNat (cell s core t.toNat n j)).1 % 2 ^ w) ∧
      VregsKept s u (vKey s.cur v.toNat 0) (g.tn * w / 8) ∧ u.tiles = s.tiles ∧ (∀ k, co u k = co s k) ∧
      CountsOne s u core (c == 1) g.tcc ∧
      { tileMask (me u) (me s) with v := { (me u).v with vdm := (me s).v.vdm } } = me s ∧
      OthersSame s u s.cur ∧ SameButTiles s u ∧ MarverServed s u core) ∧
    (∃ u, exec (.tileVrow p t c a v y) s = .next u ∧ Behind s u p ∧
      (∀ j < g.tn, cell u core t.toNat n j = (tileWiden y.toNat (vGet s s.cur v.toNat w j)).1) ∧
      (∀ k, (∀ j < g.tn, k ≠ tKey core t.toNat n j) → tget u.tiles k 0 = tget s.tiles k 0) ∧ u.vregs = s.vregs ∧
      (me u).ts = 3 ∧ co u core = { co s core with town := { (co s core).town with hts := 3 } } ∧
      CountsOne s u core (c == 1) g.tcc ∧ tileMask (me u) (me s) = me s ∧ OthersSame s u s.cur ∧ SameButTiles s u ∧
      MarverServed s u core)) ∧
  (∃ u, exec (.tileRel p) s = .next u ∧ Behind s u p ∧ (me u).ts = 0 ∧
    (∀ r i j, r < 4 → i < 128 → j < 64 → cell u core r i j = 0) ∧ (∀ k, k / 2 ^ 15 ≠ core → tget u.tiles k 0 = tget s.tiles k 0) ∧
    co u core = { co s core with cfg := {}, town := {} } ∧ (∀ k, k ≠ core → co u k = co s k) ∧
    { pcMask (me u) (me s) with ts := (me s).ts } = me s ∧ OthersSame s u s.cur ∧ u.near = s.near ∧ SameButTiles s u ∧
    GrantsEnd s u core)

/-- The Marver of a bench (R101-R103, R147, R150, R152, R153, R155, R161, R162, R166, R167, R169, R170): idle, with one core's
commands waiting, it starts the first of them and keeps the rest of that position's grants, and a `tile.mmax` reads its list; a
step of `tile.zero` clears the register. A step of a product adds to each cell of the window the sum of the products of its
k-group, rounded; of a scaled pairing the last step of a block adds the block's sum, times the two scales or, with int32 output,
saturated, and an earlier one reads its elements. Every second step of `tile.q` writes a row of codes and its scales; the
last step of `tile.chol` and of `tile.trsm` leaves the factor, and the solution, in the order of R170. A command whose steps are
done leaves the queue, with its flags ORed into `FLAGS` of its thread and, for C = 1, 1 added to its counter. -/
def Obligations.MarverEvents : Prop := ∀ (s : State) (bench pos : Nat) (c : TileCmd) (rest : List TileCmd),
  let core := coreAt bench pos
  let B := tget s.benches bench {}
  let g := c.cfg
  let streams := [TOp.tileZero, .tileMma, .tileGmma, .tileQ, .tileChol, .tileTrsm]
  let size (k : Nat) : Nat := (co s k).sp * 0x10000
  let minus (x : Nat) : Nat := (x + 2 ^ 31) % 2 ^ 32
  let inWindow (i j : Nat) : Prop := i < g.tm ∧ j < g.tn
  let onlyStep (t : State) : Prop := (co t core).tq = { c with step := c.step + 1 } :: rest ∧
    { co t core with tq := (co s core).tq } = co s core ∧ (∀ k, k ≠ core → co t k = co s k) ∧ { t with cores := s.cores } = s
  pos < 8 → benchOf core = bench → (co s core).tq = c :: rest → c.tid / 16 = core →
  (B.running = none → B.last < 8 → (∀ k < 8, k ≠ pos → (co s (coreAt bench k)).tq = []) → c.started = false →
    (∀ x ∈ rest, x.started = false) → (th s c.tid).u.afcode.getLsbD 63 = false → (co s core).tfault = none →
    (∀ x ∈ s.posts, x.tid ≠ c.tid) →
    let granted (t : State) (c : TileCmd) : Prop := (co t core).tq = c :: rest ∧
      tget t.benches bench {} =
        { last := pos, left := if 0 < B.left ∧ B.last = pos then B.left - 1 else (co s core).weight - 1, running := core } ∧
      { co t core with tq := (co s core).tq } = co s core ∧ (∀ k, k ≠ core → co t k = co s k) ∧
      { t with cores := s.cores, benches := s.benches } = s
    (c.op ∈ streams → ∃ t, exec (.marverGrant bench) s = .next t ∧ granted t { c with started := true }) ∧
    (c.op = .tileMmax → s.poison = [] → c.ga.toNat + 4 * g.tm ≤ size core →
      let x (i : Nat) : Nat := mrd s.spads (core * 0x80000 + c.ga.toNat + 4 * i) 4
      (∀ i < g.tm, x i % 4 = 0 ∧ x i < size core) →
      ∃ t, exec (.marverGrant bench) s = .next t ∧ granted t { c with started := true, latch := (List.range g.tm).map x })) ∧
  (B.running = some core → c.started = true → (co s core).tfault = none →
    (c.op = .tileZero → c.step = 0 → ∃ t, exec (.marverStep bench) s = .next t ∧ (co t core).tq = { c with step := 1 } :: rest ∧
      (∀ i j, i < 128 → j < 64 → cell t core c.t i j = 0) ∧
      (∀ k, k / 2 ^ 13 ≠ core * 4 + c.t → tget t.tiles k 0 = tget s.tiles k 0) ∧ Dirtied s t core ∧
      { t with threads := s.threads, cores := s.cores, tiles := s.tiles } = s) ∧
    (c.t < 4 → g.tm ≤ 128 → g.tn ≤ 64 → s.poison = [] → (∀ k, (co s k).sp ≤ 8) →
      (∀ ca cb, c.op ∈ [.tileMma, .tileMmax, .tileGmma] → c.y < 10 → PanelAt s c ca cb →
        let G := pairGroup c.y
        let steps := (g.tk + G - 1) / G
        let wa := typeWidth (pairTypes c.y).1
        let wb := typeWidth (pairTypes c.y).2
        let m := min G (g.tk - c.step * G)
        let low (v : Word) : Nat := if c.op = .tileGmma then v.toNat % 2 ^ 19 else v.toNat
        let oa (i : Nat) : Nat := if c.op = .tileMmax then c.latch.getD i 0 else low c.ga + i * g.tsa
        let ob (k : Nat) : Nat := low c.gb + k * g.tsb
        let A (i : Nat) : List Nat := (List.range m).map fun k => spadElem s ca (oa i) wa (c.step * G + k)
        let R (k : Nat) : List Nat := (List.range g.tn).map fun j => spadElem s cb (ob (c.step * G + k)) wb j
        let sum (a : List Nat) (b : List (List Nat)) (j : Nat) := dotSum (pairTypes c.y).1 (pairTypes c.y).2 a (b.map fun r => r.getD j 0)
        let ends (c : TileCmd) (G : Nat → Nat → Nat) : Prop := ∃ t f, exec (.marverStep bench) s = .next t ∧
          StepWrites s t core c.t ({ c with flags := c.flags ||| f } :: rest) inWindow G
        c.step < steps → (∀ i < g.tm, oa i + ((c.step * G + m) * wa + 7) / 8 ≤ size ca) →
        (∀ k < m, ob (c.step * G + k) + (g.tn * wb + 7) / 8 ≤ size cb) →
        (c.y ≠ 6 ∧ c.y ≠ 7 ∧ c.y ≠ 8 → ends { c with step := c.step + 1 } fun i j =>
          (accPlain (cell s core c.t i j) (sum (A i) ((List.range m).map R) j)).1) ∧
        (c.y = 6 ∨ c.y = 7 ∨ c.y = 8 →
          let a (i : Nat) : List Nat := c.opA.getD i [] ++ A i
          let b := c.opB ++ (List.range m).map R
          ((c.step + 1) * G % 32 ≠ 0 → c.step + 1 < steps → ∃ t, exec (.marverStep bench) s = .next t ∧
            (co t core).tq = { c with step := c.step + 1, opA := (List.range g.tm).map a, opB := b } :: rest ∧
            { co t core with tq := (co s core).tq } = co s core ∧ (∀ k, k ≠ core → co t k = co s k) ∧ { t with cores := s.cores } = s) ∧
          ((c.step + 1) * G % 32 = 0 ∨ c.step + 1 = steps →
            (c.fmt.toNat / 256 = 8 → ends { c with step := c.step + 1, opA := [], opB := [] } fun i j =>
              (accInt (cell s core c.t i j) (sum (a i) b j)).1) ∧
            (c.fmt.toNat / 256 ≠ 8 →
              let nb := (g.tk + 31) / 32
              let at_ (o i : Nat) : Nat := c.scb.toNat + o + (i * nb + c.step * G / 32) * 4
              (∀ i < g.tm, at_ g.tsca i + 4 ≤ size core) → (∀ j < g.tn, at_ g.tscb j + 4 ≤ size core) →
              ends { c with step := c.step + 1, opA := [], opB := [] } fun i j =>
                (accScaled (cell s core c.t i j) (sum (a i) b j) (mrd s.spads (core * 0x80000 + at_ g.tsca i) 4)
                  (mrd s.spads (core * 0x80000 + at_ g.tscb j) 4)).1)))) ∧
      (c.op = .tileQ → c.y = 3 ∨ c.y = 5 → c.step < 2 * g.tm →
        (c.step % 2 = 0 → ∃ t, exec (.marverStep bench) s = .next t ∧ onlyStep t) ∧
        (c.step % 2 = 1 → s.spads.wf = true →
          let i := c.step / 2
          let w := typeWidth c.y
          let nb := (g.tn + 31) / 32
          let row := c.ga.toNat + i * g.tsa
          let scale := c.gb.toNat + i * nb * 4
          let n := (g.tn * w + 7) / 8
          let Q (q : Nat) := quantise (typeFmt c.y) (if c.y = 5 then 6 else 448)
            ((List.range (min 32 (g.tn - 32 * q))).map fun j => cell s core c.t i (32 * q + j))
          row + n ≤ size core → scale + nb * 4 ≤ size core → row + n ≤ scale ∨ scale + nb * 4 ≤ row →
          ∃ t f, exec (.marverStep bench) s = .next t ∧
            (co t core).tq = { c with step := c.step + 1, flags := c.flags ||| f } :: rest ∧
            (∀ q < nb, mrd t.spads (core * 0x80000 + scale + 4 * q) 4 = (Q q).1) ∧
            (∀ j < g.tn, spadElem t core row w j = (Q (j / 32)).2.1.getD (j % 32) 0) ∧
            (w = 4 → g.tn % 2 = 1 → spadElem t core row w g.tn = 0) ∧
            (∀ x, (x < core * 0x80000 + row ∨ core * 0x80000 + row + n ≤ x) →
              (x < core * 0x80000 + scale ∨ core * 0x80000 + scale + nb * 4 ≤ x) → mget t.spads x = mget s.spads x) ∧
            { co t core with tq := (co s core).tq } = co s core ∧ (∀ k, k ≠ core → co t k = co s k) ∧
            { t with cores := s.cores, spads := s.spads } = s)) ∧
      (c.op = .tileChol → g.tm = g.tn → c.step < g.tn * g.tn →
        (c.step + 1 < g.tn * g.tn → ∃ t, exec (.marverStep bench) s = .next t ∧ onlyStep t) ∧
        (c.step + 1 = g.tn * g.tn → ∃ t f, exec (.marverStep bench) s = .next t ∧
          let L := cell t core c.t
          let rest_ (i j : Nat) : Nat := (List.range j).foldl (fun x k => (fp32.fma .rne (minus (L i k)) (L j k) x).1) (cell s core c.t i j)
          let pivot (x : Nat) : Nat := if x = 0 ∨ 2 ^ 31 ≤ x ∨ 0x7F800000 < x then 0x7FC00000 else (fp32.sqrt .rne x).1
          StepWrites s t core c.t ({ c with step := c.step + 1, flags := c.flags ||| f } :: rest) inWindow fun i j =>
            if i < j then 0 else if i = j then pivot (rest_ i i) else (fp32.div .rne (rest_ i j) (L j j)).1)) ∧
      (c.op = .tileTrsm → c.a < 4 → c.a ≠ c.t → c.step < g.tn * g.tn →
        (c.step + 1 < g.tn * g.tn → ∃ t, exec (.marverStep bench) s = .next t ∧ onlyStep t) ∧
        (c.step + 1 = g.tn * g.tn → ∃ t f, exec (.marverStep bench) s = .next t ∧
          let X := cell t core c.t
          let T := cell s core c.a
          StepWrites s t core c.t ({ c with step := c.step + 1, flags := c.flags ||| f } :: rest) inWindow fun i j =>
            (fp32.div .rne ((List.range j).foldl (fun x k => (fp32.fma .rne (minus (X i k)) (T j k) x).1) (cell s core c.t i j))
              (T j j)).1))) ∧
    (tileSteps c ≤ c.step → c.op ∈ .tileMmax :: streams → c.refused = false → CalmCounters s →
      (∀ k < 8, ∀ x ∈ (co s (coreAt bench k)).tq, x.orphan = false) →
      (co s core).relPending = false → CountReady s core c.ctx c.c g.tcc →
      ∃ t, exec (.marverCommandComplete bench) s = .next t ∧ (co t core).tq = rest ∧
        tget t.benches bench {} = { B with
          running := none, left := if rest = [] ∧ coreAt bench B.last = core then 0 else B.left } ∧ CountsOne s t core c.c g.tcc ∧
        th t c.tid = { th s c.tid with u := { (th s c.tid).u with flags := (th s c.tid).u.flags ||| c.flags } } ∧
        OthersSame s t c.tid ∧ { co t core with tq := (co s core).tq } = co s core ∧ (∀ k, k ≠ core → co t k = co s k) ∧
        { t with threads := s.threads, cores := s.cores, benches := s.benches, near := s.near } = s))

/-! ### Counters, atomics and waits -/

/-- Posted and long counter words (R179, R183-R187, R190): an aligned address that names a counter, a scope below 7 and an
amount below 2^62: the operation leaves for the home and the thread goes on, for the long forms with their result
pending. `ctr.arrive` counts the ones of its mask below `VL`. `ctr.vadd` posts one add for each active element whose home is
within the scope, and its mask bit says whether it is not. An amount of 2^62 or more is a counter fault, reason 3. -/
def Obligations.CounterWords : Prop :=  ∀ (s : State) (p : BitVec 1) (d a b k : BitVec 5) (la : BitVec 4) (sc : BitVec 3) (l : Loc), sc ≠ 7 →
  let A := rd s a
  let B := rd s b
  let ones (m : Nat) : Nat := (List.range (me s).v.vl).countP fun i => (maskGet s s.cur m).getLsbD i
  (NamesCounter s A l →
    (B.toNat < 2 ^ 62 → NoVectorStore s →
      (∃ t, exec (.ctrAdd p a b sc) s = .next t ∧ PostsOne s t p (posted s .add A l B 0 sc.toNat 0)) ∧
      (∃ t, exec (.ctrFadd p d a b la sc) s = .next t ∧
        PostsLong s t p d la (posted s .fadd A l B 0 sc.toNat d.toNat))) ∧
    (∃ t, exec (.ctrTest p d a b la sc) s = .next t ∧ PostsLong s t p d la (posted s .test A l B 0 sc.toNat d.toNat)) ∧
    (∃ t, exec (.ctrRead p d a la) s = .next t ∧ PostsLong s t p d la (posted s .read A l 0 0 0 d.toNat)) ∧
    (k.toNat < 8 → (me s).v.queue = [] → (me s).v.vl < 2 ^ 62 → ∃ t, exec (.ctrArrive p k a sc) s = .next t ∧
      PostsOne s t p (posted s .add A l (BitVec.ofNat 64 (ones k.toNat)) 0 sc.toNat 0)) ∧
    (2 ^ 62 ≤ B.toNat → NoVectorStore s → Quiet s → ∃ t, exec (.ctrAdd p a b sc) s = .next t ∧ CounterTrap s t A 3)) ∧
  (let V := (me s).v
   let w := if V.vt = 8 then 32 else 64
   let vi := B.toNat % 32
   let va := B.toNat / 256 % 32
   let mg := B.toNat / 65536 % 8
   let act := (List.range V.vl).filter fun i => (maskGet s s.cur mg).getLsbD i
   let at_ (i : Nat) : Word := A + BitVec.ofInt 64 (BitVec.ofNat 32 (vGet s s.cur vi 32 i)).toInt
   k ≠ 0 → k.toNat < 8 → k.toNat ≠ mg → B.toNat = mg * 65536 + va * 256 + vi → V.vt = 8 ∨ V.vt = 11 → V.rows ≠ 0 →
   V.rows ≤ 32 → V.vl ≤ V.rows * 32 → V.queue = [] → ∀ L : Nat → Loc,
   (∀ i ∈ act, NamesCounter s (at_ i) (L i) ∧ vGet s s.cur va w i < 2 ^ 62) →
   let inside (i : Nat) : Bool := homeScope s (s.cur / 16) (L i) ≤ sc.toNat
   ∃ t, exec (.ctrVadd p k a b sc) s = .next t ∧ Behind s t p ∧ t.posts.take s.posts.length = s.posts ∧
     (t.posts.drop s.posts.length).map (fun x => (x.addr, x.loc, x.amount)) =
       (act.filter inside).map (fun i => (at_ i, L i, BitVec.ofNat 64 (vGet s s.cur va w i))) ∧
     (∀ x ∈ t.posts.drop s.posts.length, x.kind = .add ∧ x.tid = s.cur ∧ x.scope = sc.toNat ∧ x.pc = (me s).pc) ∧
     (∀ i ∈ act, (maskGet t s.cur k.toNat).getLsbD i = !(inside i)) ∧
     (∀ i, i ∉ act → (maskGet t s.cur k.toNat).getLsbD i = (maskGet s s.cur k.toNat).getLsbD i) ∧
     (∀ m, m ≠ k.toNat → maskGet t s.cur m = maskGet s s.cur m) ∧
     { pcMask (me t) (me s) with v := { (me t).v with masks := V.masks } } = me s ∧ OthersSame s t s.cur ∧
     { t with threads := s.threads, last := s.last, order := s.order, posts := s.posts } = s)

/-- AMO and RED words (R235, R254, R255, R257): an aligned address of a near counter, of the own scratchpad through the
window, or of device memory: an AMO leaves for that home with b's value (and d's, compared by `amo.cas`) and its old word
pending in d; a RED enters the store queue as an update of eight bytes. Neither changes a byte of memory yet. -/
def Obligations.AtomicWords : Prop :=  ∀ (s : State) (p : BitVec 1) (d a b : BitVec 5) (q : BitVec 4) (l : Loc),
  let A := rd s a
  A.toNat % 8 = 0 → s.halos = [] →
  ((NamesCounter s A l ∧ (NoWindow s A ∨ ∃ n e, l = .near n e)) ∨
    (∃ o, l = .spad (s.cur / 16) o ∧ InScratch s A 8 o ∧
      ((co s (s.cur / 16)).ncbase.getLsbD 0 = false ∨ A.toNat / 2 ^ 21 ≠ (co s (s.cur / 16)).ncbase.toNat / 2 ^ 21))) →
  (∀ f ∈ [(Instr.amoAdd p d a b q, Rmw.add), (.amoAnd p d a b q, .and), (.amoOr p d a b q, .or), (.amoXor p d a b q, .xor),
          (.amoMin p d a b q, .min), (.amoMax p d a b q, .max), (.amoMinu p d a b q, .minu), (.amoMaxu p d a b q, .maxu),
          (.amoSwap p d a b q, .swap), (.amoCas p d a b q, .cas), (.amoFadd p d a b q, .fadd)],
    ∃ t, exec f.1 s = .next t ∧ PostsLong s t p d q (posted s (.amo f.2) A l (rd s b) (rd s d) 0 d.toNat)) ∧
  ((me s).stores.length < 64 →
    ∀ f ∈ [(Instr.redAdd p a b q, Rmw.add), (.redFadd p a b q, .fadd), (.redMin p a b q, .min), (.redMax p a b q, .max)],
    ∃ t x, exec f.1 s = .next t ∧ Behind s t p ∧ (me t).stores = (me s).stores ++ [x] ∧ x.op = f.2 ∧ x.addr = A ∧
      x.width = 8 ∧ x.data = rd s b ∧ x.seq = s.order ∧ x.pc = (me s).pc ∧ x.slot = s.slot ∧ x.priv = (me s).priv ∧
      some x.word = encode f.1 ∧ (∀ n e, l = .near n e → x.space = .near) ∧
      (∀ c o, l = .spad c o → x.space = .scratch ∧ x.off = o) ∧ (∀ k, l = .mem k → x.space = .global) ∧
      storeMask (me t) (me s) = me s ∧ OthersSame s t s.cur ∧ SameButOrder s t ∧ ∀ y, mget t.mem y = mget s.mem y)

/-- Counter words that hold or park (R186, R188, R189, R191-R193): of a settled thread, at a counter without error, and with no
copies of peer or host lines. `ctr.wait` completes when the threshold is met, else the thread parks, listed while the
table has room; `ctr.aw` posts its arrival once, then waits likewise and clears ARR; `ctr.reset` leaves 0, refused at user
privilege while a waiter is listed; `ctr.arm` gives 1, 0 or −1; `ctr.home` gives the descriptor, or the window address. -/
def Obligations.CounterHoldingWords : Prop :=  ∀ (s : State) (p : BitVec 1) (d a b k : BitVec 5) (la : BitVec 4) (sc : BitVec 3) (l : Loc), sc ≠ 7 →
  let A := rd s a
  let T := rd s b
  let v := counterAt s l
  let parked (t : State) (how : Nat) : Prop := t.last = .parked ∧ (me t).state = .parked ∧ (me t).pc = (me s).pc ∧
    (∃ w, (me t).wait = some w ∧ w.addr = A ∧ w.thr = T ∧ w.scope = sc.toNat ∧ w.loc = l ∧ w.guard = false ∧
      w.woken = false ∧ w.how = how ∧ w.seen = v ∧ (w.listed = true ↔ tableUse s l < (tableOf s l).2) ∧
      (w.due = if (me s).u.wlim = 0 then none else some (s.cycle + (me s).u.wlim.toNat))) ∧
    t.waiters = (if tableUse s l < (tableOf s l).2 then s.waiters ++ [(s.cur, l)] else s.waiters) ∧
    { me t with state := (me s).state, wait := (me s).wait } = me s ∧ OthersSame s t s.cur ∧
    { t with threads := s.threads, last := s.last, waiters := s.waiters } = s
  (∀ n e, n < 1024 → e < 256 → a = 0 → T.toNat = 2 ^ 23 + n * 256 + e → partOfCore s n = (cx s (me s).ctx).part →
    (co s (s.cur / 16)).ncbase.getLsbD 0 = true → ∃ t, exec (.ctrHome p d a b la) s = .next t ∧
      LongWord s t p d la (BitVec.ofNat 64 ((co s (s.cur / 16)).ncbase.toNat / 2 ^ 21 * 2 ^ 21 + n * 2048 + e * 8))) ∧
  (NamesCounter s A l → Settled s → s.mem.wf = true → s.poison = [] → s.lehr.withdrawn = [] → NoCopies s → (me s).waitMet = false →
  (0 ≤ (v - T).toInt → ∃ t, exec (.ctrWait p a b sc) s = .next t ∧ Behind s t p ∧ pcMask (me t) (me s) = me s ∧
    OthersSame s t s.cur ∧ SameButTags s t) ∧
  ((v - T).toInt < 0 → ∃ t, exec (.ctrWait p a b sc) s = .next t ∧ parked t (if p = 1 then 2 else 0)) ∧
  (k.toNat < 8 → (me s).u.arr = false → ∃ t x, exec (.ctrAw p k a b sc) s = .next t ∧ t.last = .held ∧
    t.posts = s.posts ++ [x] ∧ x = posted s .add A l (arrivals s k) 0 sc.toNat 0 ∧
    me t = { me s with u := { (me s).u with arr := true } } ∧ OthersSame s t s.cur ∧
    { t with threads := s.threads, last := s.last, order := s.order, posts := s.posts } = s) ∧
  (k.toNat < 8 → (me s).u.arr = true → 0 ≤ (v - T).toInt → ∃ t, exec (.ctrAw p k a b sc) s = .next t ∧ Behind s t p ∧
    pcMask (me t) (me s) = { me s with u := { (me s).u with arr := false } } ∧ OthersSame s t s.cur ∧ SameButTags s t) ∧
  (k.toNat < 8 → (me s).u.arr = true → (v - T).toInt < 0 →
    ∃ t, exec (.ctrAw p k a b sc) s = .next t ∧ parked t (if p = 1 then 2 else 1)) ∧
  (s.waiters = [] → s.arms = [] → ∃ t, exec (.ctrReset p a sc) s = .next t ∧ Behind s t p ∧ counterAt t l = 0 ∧
    OnlyWord s t l 8 ∧ pcMask (me t) (me s) = me s ∧ OthersSame s t s.cur) ∧
  ((me s).priv = .user → (∃ w ∈ s.waiters, w.2 = l) → Quiet s →
    ∃ t, exec (.ctrReset p a sc) s = .next t ∧ CounterTrap s t A 4) ∧
  (∃ t, exec (.ctrArm p d a b) s = .next t ∧ Behind s t p ∧ OthersSame s t s.cur ∧
    (0 ≤ (v - T).toInt → Wrote s t d 1 ∧ (me t).sr.pend.getLsbD 2 = true ∧ t.arms = s.arms) ∧
    ((v - T).toInt < 0 → tableUse s l < (tableOf s l).2 → Wrote s t d 0 ∧ (me t).sr = (me s).sr ∧
      t.arms = s.arms ++ [{ loc := l, thr := T, tid := some s.cur, addr := A }]) ∧
    ((v - T).toInt < 0 → (tableOf s l).2 ≤ tableUse s l → Wrote s t d (BitVec.allOnes 64) ∧ (me t).sr = (me s).sr ∧
      t.arms = s.arms) ∧
    { regMask (me t) (me s) with sr := (me s).sr } = me s ∧
    { t with threads := s.threads, last := s.last, arms := s.arms } = s) ∧
  (T = 0 → ∃ t, exec (.ctrHome p d a b la) s = .next t ∧ LongWord s t p d la (BitVec.ofNat 64
    (2 ^ 40 * homeScope s (s.cur / 16) l + s.pkg * 2 ^ 48 +
      match l with
      | .near n e => 2 ^ 60 + n * 2 ^ 16 + e * 2 ^ 8
      | .mem m => 2 ^ 61 + homeSlice s m * 2 ^ 16
      | .spad _ _ => 0))))

/-- Operations performed at their home (R179, R182, R194, R254, R255, R257): alone on its way, at a home of this package
without error, with no copies about and no arm. An add leaves (v + n) mod 2^64 and wakes exactly the listed waiters whose
threshold is met; `ctr.fadd` and an AMO answer with the old value; `ctr.test` with whether the threshold is met, `ctr.read`
with the value; an AMO and a RED leave their new word. No other byte, counter or register changes.

Reductions at their home (R133, R254, R257): a sent RED of a thread with nothing else on its way, at a home of this
package without error, leaves its new word and no other byte or counter changes; it leaves the thread's queue. -/
def Obligations.OperationsAtHome : Prop :=
  (∀ (s : State) (n : Nat) (x : Post), Alone s n x → HereAt x.loc →
  s.poison = [] → s.arms = [] → s.stuck = [] → s.lehr.withdrawn = [] → NoCopies s → s.mem.wf = true → s.spads.wf = true →
  let l := x.loc
  let v := counterAt s l
  let W := v.toNat
  let B := x.amount.toNat
  let gone (t : State) : Prop := t.posts = ldel s.posts n ∧ OnlyWord s t l 8
  (x.kind = .add → ∃ t, exec (.counterOpAtHome n) s = .next t ∧ gone t ∧ counterAt t l = v + x.amount ∧
    (∀ k, th t k = th s k) ∧ (∀ w ∈ s.waiters, ∀ y, (th s w.1).wait = some y →
      (w.2 = l ∧ 0 ≤ (v + x.amount - y.thr).toInt → w ∉ t.waiters ∧ ({ tid := w.1, loc := l } : Wake) ∈ t.wakes) ∧
      (¬(w.2 = l ∧ 0 ≤ (v + x.amount - y.thr).toInt) → w ∈ t.waiters))) ∧
  (Awaits s x.tid x.d x.pc →
    (x.kind = .fadd → ∃ t, exec (.counterOpAtHome n) s = .next t ∧ gone t ∧ counterAt t l = v + x.amount ∧
      Answered s t x.tid x.d x.pc v) ∧
    (x.kind = .test → ∃ t, exec (.counterOpAtHome n) s = .next t ∧ gone t ∧ counterAt t l = v ∧
      Answered s t x.tid x.d x.pc (if 0 ≤ (v - x.amount).toInt then 1 else 0)) ∧
    (x.kind = .read → ∃ t, exec (.counterOpAtHome n) s = .next t ∧ gone t ∧ counterAt t l = v ∧
      Answered s t x.tid x.d x.pc v) ∧
    (∀ o r, x.kind = .amo o → (o, r) ∈ [(Rmw.add, (W + B) % 2 ^ 64), (.and, W &&& B), (.or, W ||| B), (.xor, W ^^^ B),
        (.min, if x.amount.toInt < v.toInt then B else W), (.max, if v.toInt < x.amount.toInt then B else W),
        (.minu, min W B), (.maxu, max W B), (.swap, B), (.cas, if v = x.cmp then B else W), (.fadd, (fp64.add .rne W B).1)] →
      s.waiters = [] → ∃ t, exec (.amoAtHome n) s = .next t ∧ gone t ∧ counterAt t l = BitVec.ofNat 64 r ∧
        Answered s t x.tid x.d x.pc v))) ∧
  (∀ (s : State) (tid : Nat) (x : Store) (l : Loc) (o : Rmw) (r : Nat),
  (th s tid).sent = [x] → (th s tid).stores = [] → (∀ y ∈ s.posts, y.tid ≠ tid) → x.loc = some l → HereAt l → x.width = 8 →
  s.poison = [] → s.arms = [] → s.waiters = [] → s.stuck = [] → NoCopies s → s.mem.wf = true → s.spads.wf = true →
  let W := (counterAt s l).toNat
  let B := x.data.toNat
  x.op = o → (o, r) ∈ [(Rmw.add, (W + B) % 2 ^ 64), (.min, if x.data.toInt < (counterAt s l).toInt then B else W),
    (.max, if (counterAt s l).toInt < x.data.toInt then B else W), (.fadd, (fp64.add .rne W B).1)] →
  ∃ t, exec (.redAtHome tid 0) s = .next t ∧ counterAt t l = BitVec.ofNat 64 r ∧ OnlyWord s t l 8 ∧
    th t tid = { th s tid with sent := [] } ∧ OthersSame s t tid)

/-- Parked threads (R53, R194-R196, R198): a wake message marks its waiter to re-read and is discarded for any other; a
re-read that meets the threshold makes the thread Ready and lets its bundle complete, one that does not parks it again; a
poll re-reads; an eviction takes an entry out and sends a wake; the limit raises cause 10 with the counter's address and
the value last read in `WVAL`, unless the value meets the threshold by then: then the wait completes (R54, R225). -/
def Obligations.WaitEvents : Prop :=  (∀ (s : State) (n : Nat) (k : Wake), s.wakes[n]? = some k → ∃ t, exec (.wakeMessage n) s = .next t ∧
    t.wakes = ldel s.wakes n ∧ { t with threads := s.threads, wakes := s.wakes } = s ∧ OthersSame s t k.tid ∧
    (∀ w, (th s k.tid).wait = some w → (th s k.tid).state = .parked → w.loc = k.loc →
      th t k.tid = { th s k.tid with wait := some { w with woken := true, listed := false } }) ∧
    ((th s k.tid).state ≠ .parked → th t k.tid = th s k.tid)) ∧
  (∀ (s : State) (tid : Nat) (w : Wait), (th s tid).wait = some w → (th s tid).state = .parked →
    let T := th s tid
    let v := counterAt s w.loc
    (w.woken = true → HereAt w.loc → s.poison = [] → s.lehr.withdrawn = [] → s.stuck = [] → NoCopies s →
      (0 ≤ (v - w.thr).toInt → w.guard = false → ∃ t, exec (.waitReread tid) s = .next t ∧ (th t tid).state = .ready ∧
        (th t tid).wait = none ∧ (∀ e ∈ t.waiters, e.1 ≠ tid) ∧
        (w.how = 2 → (th t tid).pc = T.pc ∧ (th t tid).waitMet = true) ∧
        (w.how ≠ 2 → (th t tid).pc = T.pc + 4 ∧ (w.how = 1 → (th t tid).u.arr = false)) ∧
        (th t tid).g = T.g ∧ OthersSame s t tid ∧ t.mem = s.mem) ∧
      ((v - w.thr).toInt < 0 → ∃ t x, exec (.waitReread tid) s = .next t ∧ th t tid = { T with wait := some x } ∧
        x = { w with woken := false, listed := x.listed, poll := s.cycle + 1024, seen := v } ∧
        t.waiters = s.waiters.filter (fun e => e.1 ≠ tid) ++ (if x.listed = true then [(tid, w.loc)] else []) ∧
        OthersSame s t tid ∧ { t with threads := s.threads, waiters := s.waiters } = s)) ∧
    (w.listed = false → w.woken = false → ∃ t, exec (.waiterPoll tid) s = .next t ∧
      th t tid = { T with wait := some { w with woken := true } } ∧ w.poll ≤ t.cycle ∧ OthersSame s t tid ∧
      { t with threads := s.threads, cycle := s.cycle } = s) ∧
    (∀ c, w.due = some c → HereAt w.loc → s.poison = [] → s.lehr.withdrawn = [] → NoCopies s → 0 ≤ (v - w.thr).toInt →
      w.guard = false → ∃ t, exec (.waitTimeout tid) s = .next t ∧ (th t tid).state = .ready ∧ (th t tid).wait = none ∧
        c < t.cycle ∧ (th t tid).u.wval = T.u.wval ∧ (th t tid).g = T.g ∧ OthersSame s t tid ∧ t.mem = s.mem) ∧
    (∀ c, w.due = some c → HereAt w.loc → NoCopies s → (v - w.thr).toInt < 0 → (∀ l ∈ T.longs, l.res = .written) →
      T.v.queue = [] → ∃ t, exec (.waitTimeout tid) s = .next t ∧
      (th t tid).state = .ready ∧ (th t tid).wait = none ∧ c < t.cycle ∧ (th t tid).u = { T.u with wval := w.seen } ∧
      Handler T (th t tid) (goesToHyp T 10) 10 T.pc w.addr ∧ (th t tid).g = T.g ∧ OthersSame s t tid ∧ t.mem = s.mem)) ∧
  (∀ (s : State) (n : Nat) (w : Nat × Loc), s.waiters[n]? = some w → ∃ t, exec (.waiterEvict n) s = .next t ∧
    t.waiters = ldel s.waiters n ∧ t.wakes = s.wakes ++ [{ tid := w.1, loc := w.2 }] ∧
    { t with waiters := s.waiters, wakes := s.wakes } = s)

/-! ### Fences, copies of lines and halo regions -/

/-- `fence`, `st.drain`, `line.inv`, `line.wb` and `pref` (R52, R118, R248, R259-R261): a fence at thread scope completes at once;
at a wider scope it completes when the thread is settled, acting on tags alone, and holds while a store is not performed.
`st.drain` completes when no store is queued, else holds. `line.inv` drops the core's copy of a line of device memory, and
neither it nor `line.wb` changes a byte there; of a dirty copy of a peer line, at domain scope, both write the bytes home. In
a window they have no effect. `pref` has none at all, which is the model's choice of what
the device may do with it (log 38).

Copies that leave the package or change under it (R228, R232-R234): the device may evict a line of a core's array, which
changes no memory, or of its L2, where a dirty peer or host copy is written home, or waits for a path to it (R363); a host snoop
takes a 64-byte host line's dirty bytes home and the copy away (R372), and its store is performed; a host write of device memory outside halo regions is performed
byte by byte at the home, and a read is answered with the bytes there. -/
def Obligations.LinesAndCopies : Prop :=
  (∀ (s : State) (p : BitVec 1) (a b : BitVec 5),
  let A := rd s a
  let core := s.cur / 16
  (b.toNat < 7 → NoVectorStore s →
    (b = 0 → ∃ t, exec (.fence p b) s = .next t ∧ OnlyPc s t p) ∧
    (Settled s → NoCopies s → ∃ t, exec (.fence p b) s = .next t ∧ Behind s t p ∧ pcMask (me t) (me s) = me s ∧
      OthersSame s t s.cur ∧ SameButTags s t) ∧
    (b ≠ 0 → (∃ x ∈ (me s).stores, x.seq < s.order) → ∃ t, exec (.fence p b) s = .next t ∧ Holds s t)) ∧
  (NoVectorStore s → (me s).stores = [] → (me s).precs = [] → ∃ t, exec (.stDrain p) s = .next t ∧ OnlyPc s t p) ∧
  ((me s).stores ≠ [] → ∃ t, exec (.stDrain p) s = .next t ∧ Holds s t) ∧
  (b.toNat < 3 → ∃ t, exec (.pref p a b) s = .next t ∧ OnlyPc s t p) ∧
  (b.toNat < 7 →
    (∀ off, (InScratch s A 1 off ∨ ∃ n e, NearAddr s core A n e) → ∃ t u, exec (.lineInv p a b) s = .next t ∧ OnlyPc s t p ∧
      exec (.lineWb p a b) s = .next u ∧ OnlyPc s u p) ∧
    (∀ k, InMemory s A 1 k → NoCopies s → ∃ t u, exec (.lineWb p a b) s = .next u ∧ OnlyPc s u p ∧
      exec (.lineInv p a b) s = .next t ∧ Behind s t p ∧ pcMask (me t) (me s) = me s ∧ OthersSame s t s.cur ∧
      { t with threads := s.threads, last := s.last, cores := s.cores } = s ∧ (∀ c, c ≠ core → co t c = co s c) ∧
      { co t core with l1 := (co s core).l1 } = co s core ∧
      (b.toNat < 2 → (co t core).l1 = (co s core).l1) ∧
      (2 ≤ b.toNat → (co t core).l1 = (co s core).l1.filter fun e => e.1 ≠ k / 128)) ∧
    (∀ k x, Physical s → NoWindow s A → s.halos = [] → s.haloDirty = [] → s.waiters = [] → s.arms = [] → s.mem.wf = true →
      5 ≤ b.toNat → A.toNat = k → k < 2 ^ 48 → k / 2 ^ 40 ≠ s.pkg → reachable s (k / 2 ^ 40) = true →
      s.peerLines = [((2 ^ 48 + k) / 128, x)] → x.dirty = true → x.ver = s.dv → LineData x.data →
      (∃ t, exec (.lineWb p a b) s = .next t ∧ Behind s t p ∧ LineWritten s t ((2 ^ 48 + k) / 128) x.data ∧
        t.peerLines = [((2 ^ 48 + k) / 128, { x with dirty := false, ctxs := [] })] ∧ pcMask (me t) (me s) = me s ∧ OthersSame s t s.cur) ∧
      (∃ t, exec (.lineInv p a b) s = .next t ∧ Behind s t p ∧ LineWritten s t ((2 ^ 48 + k) / 128) x.data ∧
        t.peerLines = [] ∧ pcMask (me t) (me s) = me s ∧ OthersSame s t s.cur)))) ∧
  ((∀ (s : State) (core line : Nat), core < 1024 → ∃ t, exec (.lineEvict core line) s = .next t ∧
    co t core = { co s core with l1 := (co s core).l1.filter fun e => e.1 ≠ line } ∧ (∀ c, c ≠ core → co t c = co s c) ∧
    { t with cores := s.cores } = s) ∧
  (∀ (s : State) (line : Nat) (x : PeerLine), s.mem.wf = true → s.waiters = [] → s.arms = [] → x.dirty = true →
    LineData x.data →
    (s.peerLines = [(line, x)] → s.hostLines = [] → homeReach s (.mem (line * 128)) = true → line * 128 < 2 ^ 55 → ∃ t, exec (.lineEvict 1024 line) s = .next t ∧
      LineWritten s t line x.data ∧ t.peerLines = [] ∧ (∀ k, th t k = th s k) ∧ ∀ c, co t c = co s c) ∧
    (s.peerLines = [(line, x)] → homeReach s (.mem (line * 128)) = false → line * 128 < 2 ^ 55 → s.stuck = [] →
      ∃ t, exec (.lineEvict 1024 line) s = .next t ∧ { t with stuck := s.stuck } = s ∧ ∃ k, t.stuck = [k] ∧ k.kind = 7) ∧
    (s.hostLines = [(line, x)] → s.peerLines = [] → 2 ^ 55 ≤ line * 64 → (∀ e ∈ x.data, e.1 < 64) →
      (∃ t, exec (.lineEvict 1024 (line / 2)) s = .next t ∧ HalfWritten s t line x.data ∧ t.hostLines = [] ∧
        (∀ k, th t k = th s k) ∧ ∀ c, co t c = co s c) ∧
      (∃ t, exec (.hostCxlSnoop line true []) s = .next t ∧ HalfWritten s t line x.data ∧ t.hostLines = [] ∧
        (∀ k, th t k = th s k) ∧ ∀ c, co t c = co s c) ∧
      (∃ t, exec (.hostCxlSnoop line false []) s = .next t ∧ HalfWritten s t line x.data ∧
        t.hostLines = [(line, { x with dirty := false })] ∧ (∀ k, th t k = th s k) ∧ ∀ c, co t c = co s c))) ∧
  (∀ (s : State) (pa k : Nat) (data : List Byte), s.pkg < 256 → pa = s.pkg * 2 ^ 40 + k → k + data.length ≤ 2 ^ 40 →
    s.mem.wf = true → s.halos = [] → s.waiters = [] → s.arms = [] →
    (∃ t, exec (.hostCxlMemAccess pa true data) s = .next t ∧
      (∀ i < data.length, mget t.mem (k + i) = data.getD i 0) ∧
      (∀ b, b < k ∨ k + data.length ≤ b → mget t.mem b = mget s.mem b) ∧ (∀ c, th t c = th s c) ∧ t.spads = s.spads) ∧
    exec (.hostCxlMemAccess pa false data) s = .next { s with out := { s.out with
      cxl := s.out.cxl ++ [(pa, 0, (List.range data.length).map fun i => mget s.mem (k + i))] } }))

/-- Halo words (R249-R253, R262), of a settled member of a gang: `halo.decl` of a descriptor within its limits, with no other
region, makes the region and gives handle 0; of no member it gives −2; `halo.push` puts the issuer's dirty bytes of the
region into every replica, which has of its other strips the bytes at the home; `halo.drop` writes them home and ends the region; a handle of no region is a group fault.
The order in which the statuses and faults of these words apply, and when dirty bytes go home, are the model's readings (logs 11 and 12). -/
def Obligations.HaloWords : Prop := ∀ (s : State) (p : BitVec 1) (d a : BitVec 5) (k r : Nat),
  let A := rd s a
  let core := s.cur / 16
  (∀ off, A.toNat % 64 = 0 → InScratch s A 64 off → Settled s → s.poison = [] →
    let bs := mbytes s.spads (core * 0x80000 + off) 64
    (memberOf s s.cur = none → ∃ t, exec (.haloDecl p d a) s = .next t ∧ RegWord s t p d (BitVec.ofInt 64 (-2))) ∧
    (InGang s k r → s.halos = [] → Physical s → s.pkg < 256 →
      let h := haloOf bs (groupId s k) (me s).ctx 0
      haloOk bs h = true → haloRanks (gr s k) h = true → haloFits s h = true →
      (∀ v ∈ haloPages h, ∃ m, v * 4096 = s.pkg * 2 ^ 40 + m ∧ m < 2 ^ 40 ∧
        (granule s (m / 2 ^ 30)).part = (cx s (me s).ctx).part) →
      (∀ m ∈ (gr s k).members, (th s m.2).stores = [] ∧ (th s m.2).sent = [] ∧ (th s m.2).precs = [] ∧
        (th s m.2).v.queue = []) →
      ∃ t g, exec (.haloDecl p d a) s = .next t ∧ Behind s t p ∧ Wrote s t d 0 ∧ t.halos = [g] ∧
        g = { h with pages := g.pages } ∧ g.pages.map (·.1) = haloPages h ∧
        (∀ v ∈ g.pages, v.1 * 4096 = s.pkg * 2 ^ 40 + v.2 * 4096) ∧ regMask (me t) (me s) = me s ∧ OthersSame s t s.cur ∧
        { t with threads := s.threads, last := s.last, cores := s.cores, halos := s.halos } = s)) ∧
  (∀ h, InGang s k r → s.halos = [h] → h.gid = groupId s k →
    (A.toNat = h.handle → s.mem.wf = true → s.waiters = [] → s.arms = [] →
      (∀ e ∈ s.haloDirty, e.1 / 2 ^ 57 = s.cur) → (s.haloDirty.map (·.1)).Nodup →
      (∀ e ∈ s.haloDirty, ∃ i j, haloAt s (e.1 % 2 ^ 57) = some (h, i, j)) →
      (∃ t, exec (.haloPush p a) s = .next t ∧ Behind s t p ∧
        (∀ e ∈ s.haloDirty, ∀ i j, haloAt s (e.1 % 2 ^ 57) = some (h, i, j) → ∀ c ∈ haloHolders s h i j,
          tget t.haloRep (c * 2 ^ 57 + e.1 % 2 ^ 57) 0 = e.2) ∧
        (∀ e ∈ t.haloRep, haloMine s s.cur (some h.handle) (e.1 % 2 ^ 57) = true →
          ∃ d ∈ s.haloDirty, e.1 % 2 ^ 57 = d.1 % 2 ^ 57 ∧ e.2 = d.2) ∧
        pcMask (me t) (me s) = me s ∧ OthersSame s t s.cur ∧
        { t with threads := s.threads, last := s.last, haloRep := s.haloRep } = s) ∧
      ((∃ n < h.gx * h.gy, rankThread (gr s k) (h.rbase + n) = some s.cur) → groupKey s h.gid = some k →
        ∃ t, exec (.haloDrop p a) s = .next t ∧ Behind s t p ∧ t.halos = [] ∧
        (∀ e ∈ s.haloDirty, mget t.mem (e.1 % 2 ^ 57) = e.2) ∧
        (∀ b, (∀ e ∈ s.haloDirty, e.1 % 2 ^ 57 ≠ b) → mget t.mem b = mget s.mem b) ∧ t.haloDirty = [] ∧
        pcMask (me t) (me s) = me s ∧ OthersSame s t s.cur)) ∧
    (A.toNat ≠ h.handle → Quiet s → ∃ t u, exec (.haloPush p a) s = .next t ∧ TrapTo s t 21 A ∧
      exec (.haloDrop p a) s = .next u ∧ TrapTo s u 21 A))

/-! ### Translation -/

/-- The XLAT words (R283, R289, R301-R305): at user privilege each traps with cause 3 and its word; `vm.inv` drops from the
caches of the partition the translations of the issuer's VMID whose page, of its leaf's size, holds the address and that match
the ASID, keeping global ones under an ASID; `vm.ginv` at hypervisor privilege those with a second stage that used a mapping
which holds the guest address; both, and `vm.fence` of a settled thread, complete when no access is on its way with such a
translation; `vm.probe` gives the descriptor of a Bare translation, or of a walk's leaf, without changing anything.

Host fences (R296, R376): the write of the last bytes of a well-formed message invalidates the translations of the
contexts that use the host's tables through that function and that match its ASID and range, and no others, and the message
waits; when no access with such a translation is on its way, its value is stored at its address in host memory. -/
def Obligations.TranslationWords : Prop :=
  (∀ (s : State) (p : BitVec 1) (d a b : BitVec 5),
  let A := rd s a
  let B := (rd s b).toNat
  let c := cx s (me s).ctx
  let dropped (t : State) (hit : TEntry → Prop) : Prop := Behind s t p ∧ pcMask (me t) (me s) = me s ∧
    OthersSame s t s.cur ∧
    { t with threads := s.threads, last := s.last, tlb := s.tlb, wcache := s.wcache, uses := s.uses } = s ∧
    (∀ e, e ∈ t.tlb ↔ e ∈ s.tlb ∧ ¬hit e) ∧ ∀ e ∈ t.wcache, e ∈ s.wcache
  let quiet := (me s).hold = none ∧ NoUses s
  ((me s).priv ≠ .user →
    (quiet → b = 0 ∨ B < 2 ^ 16 → ∃ t, exec (.vmInv p a b) s = .next t ∧ dropped t fun e =>
      cacheIn s c.part e.cache = true ∧ e.vmid = c.hgxlat.toNat / 2 ^ 44 % 2 ^ 14 ∧
      (a = 0 ∨ e.vpn * 4096 / 2 ^ (12 + 9 * e.lvl1) = A.toNat / 2 ^ (12 + 9 * e.lvl1)) ∧
      (b = 0 ∨ (e.glob = false ∧ e.asid = B))) ∧
    (quiet → Settled s → s.hostLines = [] → s.cur % 16 ≠ 15 → ∃ t, exec (.vmFence p) s = .next t ∧ OnlyPc s t p) ∧
    (B < 8 → B % 4 ≠ 3 → c.sxlat.toNat / 2 ^ 60 = 0 → c.hgxlat.toNat / 2 ^ 60 = 0 → c.hostpt = false → s.pkg < 256 →
      ∀ k, A.toNat = s.pkg * 2 ^ 40 + k → k < 2 ^ 40 →
      ((granule s (k / 2 ^ 30)).part = c.part → ∃ t, exec (.vmProbe p d a b) s = .next t ∧
        RegWord s t p d (BitVec.ofNat 64 (2 ^ 63 + A.toNat))) ∧
      ((granule s (k / 2 ^ 30)).part ≠ c.part → ∃ t, exec (.vmProbe p d a b) s = .next t ∧
        RegWord s t p d (BitVec.ofNat 64 (2 ^ 61 + 2 ^ 60)))) ∧
    (∀ leaf r w x u k, B < 8 → B % 4 ≠ 3 → FirstStage c → s.wcache = [] → s.pkg < 256 → A.toNat < 2 ^ 56 → Walks s c A.toNat leaf →
      LeafPte leaf r w x u → s.poison = [] → u = decide (B / 4 = 1) →
      (if B % 4 = 0 then r else if B % 4 = 1 then w else x) = true →
      leaf / 1024 * 4096 = s.pkg * 2 ^ 40 + k → k < 2 ^ 40 → (granule s (k / 2 ^ 30)).part = c.part →
      ∃ t, exec (.vmProbe p d a b) s = .next t ∧
        RegWord s t p d (BitVec.ofNat 64 (2 ^ 63 + leaf / 1024 * 4096 + A.toNat % 4096)))) ∧
  ((me s).priv = .hyp → quiet → b = 0 ∨ B < 2 ^ 14 → ∃ t, exec (.vmGinv p a b) s = .next t ∧ dropped t fun e =>
      cacheIn s (partOfCore s (s.cur / 16)) e.cache = true ∧ e.mode2 ≠ 0 ∧
      (a = 0 ∨ ∃ m ∈ e.gmaps, m.2 = A.toNat / 2 ^ (12 + 9 * m.1)) ∧ (b = 0 ∨ e.vmid = B)) ∧
  ((me s).priv = .user → Quiet s → ∀ i ∈ [Instr.vmInv p a b, .vmFence p, .vmProbe p d a b, .vmGinv p a b],
    ∃ t w, encode i = some w ∧ exec i s = .next t ∧ TrapTo s t 3 (BitVec.ofNat 64 w))) ∧
  ((∀ (s : State) (vf off : Nat) (data : List Byte),
    let w := mputs (vfn s vf).fence off data
    let all := (mrd w 0 8).testBit 16
    let any := (mrd w 0 8).testBit 17
    let lo := mrd w 8 8 / 4096
    let n := mrd w 16 8 / 4096
    off + data.length = 64 → mrd w 0 8 < 2 ^ 18 → mrd w 8 8 % 4096 = 0 → mrd w 16 8 % 4096 = 0 → mrd w 24 8 % 8 = 0 →
    (∀ i < 24, mget w (40 + i) = 0) →
    ∃ t, exec (.hostFenceMessage vf off data) s = .next t ∧
      (∀ e, e ∈ t.tlb ↔ e ∈ s.tlb ∧ ¬(e.host = true ∧
        (∃ c ∈ s.ctxs, c.2.hostpt = true ∧ c.2.vf = some vf ∧ c.2.hgxlat.toNat / 2 ^ 44 % 2 ^ 14 = e.vmid) ∧
        (all = true ∨ e.asid = mrd w 0 2) ∧ (any = true ∨ (lo ≤ e.vpn ∧ e.vpn < lo + n)))) ∧
      (∀ e, e ∈ t.wcache ↔ e ∈ s.wcache ∧ ¬(e.host = true ∧
        ∃ c ∈ s.ctxs, c.2.hostpt = true ∧ c.2.vf = some vf ∧ c.2.hgxlat.toNat / 2 ^ 44 % 2 ^ 14 = e.vmid)) ∧
      (∃ m, t.fences = s.fences ++ [m] ∧ m.vf = vf ∧ m.ack = mrd w 24 8 ∧ m.val = BitVec.ofNat 64 (mrd w 32 8)) ∧
      vfn t vf = { vfn s vf with fence := [] } ∧ (∀ k, k ≠ vf → vfn t k = vfn s k) ∧
      { t with vfs := s.vfs, tlb := s.tlb, wcache := s.wcache, fences := s.fences } = s) ∧
  (∀ (s : State) (m : Fence) (rest : List Fence), s.fences = m :: rest → s.hostLines = [] → s.waiters = [] → s.arms = [] →
    s.mem.wf = true → NoUses s → m.ack < 2 ^ 55 →
    ∃ t, exec (.hostFenceAck 0) s = .next t ∧ mrd t.mem (2 ^ 55 + m.ack) 8 = m.val.toNat ∧
      (∀ b, b < 2 ^ 55 + m.ack ∨ 2 ^ 55 + m.ack + 8 ≤ b → mget t.mem b = mget s.mem b) ∧ t.fences = rest ∧
      (∀ k, th t k = th s k) ∧ t.spads = s.spads))

/-- Walks, page requests and their answers (R289, R291-R293, R297-R300): a walk whose entries stand in memory puts the
translation of its page into the core's and the bench's caches; one that meets an invalid entry posts a request of the
access, in the lowest free entry (the model's choice, log 5); a request's record is written to its ring, `HPRQ`, `SPRQ` or the
host's, with its fields and PROD is raised; an answer frees its entry, and makes a Dropped requester Ready, with its fault when it
refuses; the device may drop a translation. -/
def Obligations.PageRequests : Prop :=  (∀ (s : State) (tid : Nat) (va : Word) (kind leaf : Nat), tid < 16384 → (th s tid).priv ≠ .hyp → kind < 3 →
    s.pkg < 256 → s.poison = [] → s.tlb = [] → s.wcache = [] → va.toNat < 2 ^ 56 → FirstStage (cx s (th s tid).ctx) →
    let c := cx s (th s tid).ctx
    (∀ r w x u, Walks s c va.toNat leaf → LeafPte leaf r w x u → u = decide ((th s tid).priv = .user) →
      (if kind = 0 then r else if kind = 1 then w else x) = true → ∃ t, exec (.pageWalk tid va kind) s = .next t ∧
      (∀ h ∈ [TCache.core (tid / 16), .bench (benchOf (tid / 16))], ∃ e ∈ t.tlb, e.cache = h ∧ e.vpn = va.toNat / 4096 ∧
        e.ppn = leaf / 1024 ∧ e.asid = c.sxlat.toNat / 2 ^ 44 % 2 ^ 16 ∧ e.vmid = c.hgxlat.toNat / 2 ^ 44 % 2 ^ 14 ∧
        e.r1 = r ∧ e.w1 = w ∧ e.x1 = x ∧ e.u1 = u ∧ e.d1 = true ∧ e.mode2 = 0 ∧ e.lvl1 = 0) ∧
      { t with tlb := s.tlb, wcache := s.wcache } = s) ∧
    (Walks s c va.toNat 0 → s.pages = [] → s.pageWaits = [] → c.state = .running → c.sprq.toNat % 16 ≠ 0 →
      ∃ t r, exec (.pageWalk tid va kind) s = .next t ∧ t.pages = [(0, r)] ∧ r.ctx = (th s tid).ctx ∧ r.second = false ∧
        r.kind = (if kind = 0 then .load else if kind = 1 then .store else .fetch) ∧ r.imp = false ∧ r.va = va ∧
        r.priv = (th s tid).priv ∧ r.tid = tid ∧ r.reqs = [.thread tid] ∧ r.gen = tget s.pageGens 0 0 ∧
        r.written = false ∧ r.shared = false ∧ { t with pages := s.pages, wcache := s.wcache } = s)) ∧
  (∀ (s : State) (k Q hb : Nat) (e : PageReq), s.pages = [(k, e)] → RingAt s e Q hb → e.written = false → s.mem.wf = true →
    s.waiters = [] → s.arms = [] → (∀ p ∈ s.posts, p.kind = .add → p.loc ≠ .mem hb) →
    let n := 2 ^ (Q % 16)
    let prod := mrd s.mem hb 8
    let cons := mrd s.mem (hb + 8) 8
    let slot := hb + 64 + prod % n * 64
    cons ≤ prod → prod - cons < n → prod + 1 < 2 ^ 64 →
    ∃ t, exec (.pageRequestRecordWrite k) s = .next t ∧ mrd t.mem hb 8 = prod + 1 ∧ mrd t.mem slot 8 = prod + 1 ∧
      mrd t.mem (slot + 8) 4 = (k + 2 ^ 16 * e.gen) % 2 ^ 32 ∧
      mrd t.mem (slot + 12) 1 = ((match e.kind with | .load => 0 | .store => 1 | .fetch => 2) + 4 * e.imp.toNat +
        8 * e.second.toNat + 16 * e.src) % 256 ∧
      mrd t.mem (slot + 13) 1 = (match e.priv with | .user => 0 | .sup => 2 | .hyp => 3) ∧
      mrd t.mem (slot + 14) 2 = (cx s e.ctx).vmid % 2 ^ 16 ∧ mrd t.mem (slot + 16) 2 = e.asid % 2 ^ 16 ∧
      mrd t.mem (slot + 18) 6 = 0 ∧ mrd t.mem (slot + 42) 22 = 0 ∧
      mrd t.mem (slot + 24) 8 = e.va.toNat ∧
      mrd t.mem (slot + 32) 8 = (if e.second then e.gpa.toNat else 0) ∧ mrd t.mem (slot + 40) 2 = e.tid % 2 ^ 16 ∧
      (∀ b, (b < hb ∨ hb + 8 ≤ b) → (b < slot ∨ slot + 64 ≤ b) → mget t.mem b = mget s.mem b) ∧
      t.pages = [(k, { e with written := true })] ∧ ∀ i, th t i = th s i) ∧
  (∀ (s : State) (own ring k tid : Nat) (ans : Word) (e : PageReq), AnswerNames s ans k e → s.pageWaits = [] →
    e.reqs = [.thread tid] → (th s tid).state = .dropped →
    (own = 0 ∧ e.ctx = ring ∧ e.second = false ∧ (cx s e.ctx).hostpt = false) ∨
      (own = 1 ∧ e.second = true ∧ (cx s e.ctx).part = ring) ∨
      (own = 2 ∧ e.second = false ∧ (cx s e.ctx).hostpt = true ∧ (cx s e.ctx).vf = some ring) →
    (ans.getLsbD 32 = false → ∃ t, exec (.pageAnswerRetry own ring ans) s = .next t ∧ t.pages = [] ∧
      th t tid = { th s tid with state := .ready, miss := none } ∧ OthersSame s t tid ∧
      tget t.pageGens k 0 = (tget s.pageGens k 0 + 1) % 2 ^ 16 ∧
      { t with threads := s.threads, pages := s.pages, pageGens := s.pageGens } = s) ∧
    (ans.getLsbD 32 = true → ∃ t, exec (.pageAnswerRefuse own ring ans) s = .next t ∧ t.pages = [] ∧
      th t tid = { th s tid with state := .ready, miss := none, refused := (th s tid).miss } ∧ OthersSame s t tid ∧
      tget t.pageGens k 0 = (tget s.pageGens k 0 + 1) % 2 ^ 16 ∧
      { t with threads := s.threads, pages := s.pages, pageGens := s.pageGens } = s)) ∧
  (∀ (s : State) (n : Nat), ∃ t, exec (.translationDrop n) s = .next t ∧ t.tlb = ldel s.tlb n ∧ { t with tlb := s.tlb } = s)

/-! ### Groups -/

/-- Membership (R204-R212): `grp.new` takes the lowest free entry of the partition's table, empty or with the issuer
as rank 0; `grp.join` adds the issuer, or with TGT a Stopped thread of the context, by the rank asked for or by the lowest
free one; `grp.leave` frees the rank, and the last member's leave frees the entry with its generation advanced; `grp.size` and
`grp.rank` report. Each failing case gives its code and changes nothing but d: a full table −1, an unknown group −7, one of
another context −2, and so on; at user privilege the target form raises a privilege violation. Of −9, −3, −8 and −6 a join gives
the first that applies, and a join without a rank gives −6 when every rank is taken: the model's choices (log 29). -/
def Obligations.GroupMembership : Prop := ∀ (s : State) (p : BitVec 1) (d a b : BitVec 5) (k r : Nat),
  let A := rd s a
  let g := gr s k
  (FreeEntry s k →
    (A = 0 → ∃ t, exec (.grpNew p d a) s = .next t ∧ GroupWord s t p d (BitVec.ofNat 64 (groupId s k)) k
      { gen := g.gen, used := true, state := .empty, ctx := (me s).ctx, members := [] }) ∧
    (A = 1 → memberOf s s.cur = none → ∃ t, exec (.grpNew p d a) s = .next t ∧
      GroupWord s t p d (BitVec.ofNat 64 (groupId s k)) k
      { gen := g.gen, used := true, state := .opened, ctx := (me s).ctx, members := [(0, s.cur)] })) ∧
  (A = 1 → memberOf s s.cur ≠ none → ∃ t, exec (.grpNew p d a) s = .next t ∧ Status s t p d (-8)) ∧
  (A = 0 ∨ (A = 1 ∧ memberOf s s.cur = none) → (∀ j, ¬FreeEntry s j) →
    ∃ t, exec (.grpNew p d a) s = .next t ∧ Status s t p d (-1)) ∧
  (1 < A.toNat → Quiet s → ∃ t w, encode (.grpNew p d a) = some w ∧ exec (.grpNew p d a) s = .next t ∧
    TrapTo s t 0 (BitVec.ofNat 64 w)) ∧
  (∀ (tgt rk : Bool) (rank who : Nat), rank < 4096 → who < 16384 → (tgt = false → who = 0) → (rk = false → rank = 0) →
    (rd s b).toNat = tgt.toNat * 2 ^ 63 + rk.toNat * 2 ^ 62 + rank * 2 ^ 16 + who →
    let x := if tgt then who else s.cur
    (tgt = true → (me s).priv = .user → Quiet s → ∃ t w, encode (.grpJoin p d a b) = some w ∧
      exec (.grpJoin p d a b) s = .next t ∧ TrapTo s t 3 (BitVec.ofNat 64 w)) ∧
    ((tgt = true → (me s).priv ≠ .user) →
      (groupKey s A.toNat = none → ∃ t, exec (.grpJoin p d a b) s = .next t ∧ Status s t p d (-7)) ∧
      (groupKey s A.toNat = some k → g.ctx ≠ (me s).ctx →
        ∃ t, exec (.grpJoin p d a b) s = .next t ∧ Status s t p d (-2)) ∧
      (NamesGroup s A k →
        (tgt = true → (th s who).state ≠ .stopped ∨ (th s who).ctx ≠ (me s).ctx →
          ∃ t, exec (.grpJoin p d a b) s = .next t ∧ Status s t p d (-9)) ∧
        ((tgt = true → (th s who).state = .stopped ∧ (th s who).ctx = (me s).ctx) →
          (isGang g = true → ∃ t, exec (.grpJoin p d a b) s = .next t ∧ Status s t p d (-3)) ∧
          (isGang g = false →
            (memberOf s x ≠ none → ∃ t, exec (.grpJoin p d a b) s = .next t ∧ Status s t p d (-8)) ∧
            (memberOf s x = none →
              ((if rk then ¬FreeRank g rank else ∀ q < 4096, ¬FreeRank g q) →
                ∃ t, exec (.grpJoin p d a b) s = .next t ∧ Status s t p d (-6)) ∧
              (FreeRank g r → (if rk then r = rank else ∀ q < r, ¬FreeRank g q) →
                ∃ t ms, exec (.grpJoin p d a b) s = .next t ∧ (∀ m, m ∈ ms ↔ m = (r, x) ∨ m ∈ g.members) ∧
                  GroupWord s t p d (BitVec.ofNat 64 r) k { g with state := .opened, members := ms }))))))) ∧
  (memberOf s s.cur = some (k, r) →
    (NoHalos s → g.state ≠ .stopping →
      (2 ≤ g.members.length → ∃ t, exec (.grpLeave p d) s = .next t ∧ GroupWord s t p d (BitVec.ofNat 64 r) k
        { g with members := g.members.filter fun m => m.2 ≠ s.cur }) ∧
      (g.members.length = 1 → ∃ t, exec (.grpLeave p d) s = .next t ∧ GroupWord s t p d (BitVec.ofNat 64 r) k (freed g))) ∧
    (∃ t, exec (.grpRank p d) s = .next t ∧ RegWord s t p d (BitVec.ofNat 64 r)) ∧
    (A = 0 → ∃ t, exec (.grpSize p d a) s = .next t ∧ RegWord s t p d (BitVec.ofNat 64 g.members.length))) ∧
  (memberOf s s.cur = none →
    (∃ t, exec (.grpLeave p d) s = .next t ∧ Status s t p d (-10)) ∧
    (∃ t, exec (.grpRank p d) s = .next t ∧ Status s t p d (-10)) ∧
    (A = 0 → ∃ t, exec (.grpSize p d a) s = .next t ∧ Status s t p d (-10))) ∧
  (A ≠ 0 →
    (NamesGroup s A k → ∃ t, exec (.grpSize p d a) s = .next t ∧ RegWord s t p d (BitVec.ofNat 64 g.members.length)) ∧
    (groupKey s A.toNat = none → ∃ t, exec (.grpSize p d a) s = .next t ∧ Status s t p d (-7)) ∧
    (groupKey s A.toNat = some k → g.ctx ≠ (me s).ctx → ∃ t, exec (.grpSize p d a) s = .next t ∧ Status s t p d (-2)))

/-- Gangs (R206, R208, R213, R215-R217): `grp.pin` makes an Open group Pinned, or Held when every member is Stopped, and gives −4
for a mix and −3 for none; `grp.unpin` opens a gang and holds while a stop is in progress; `grp.stop` marks the running members
and a Pinned group is Stopping; `grp.go` returns the Stopped members and a Held gang is Pinned; `grp.kill` ends the member,
whose slot is free and whose kernel counts it, and frees the group. At user privilege the last three raise a privilege
violation, and from a member they raise a group fault. -/
def Obligations.GangWords : Prop := ∀ (s : State) (p : BitVec 1) (d a b : BitVec 5) (k : Nat),
  let A := rd s a
  let g := gr s k
  let stopped (m : Nat × Nat) : Prop := (th s m.2).state = .stopped
  (NamesGroup s A k → ((me s).priv = .user → ∃ m ∈ g.members, m.2 = s.cur) →
    (isGang g = false →
      (g.members = [] → ∃ t, exec (.grpPin p d a) s = .next t ∧ Status s t p d (-3)) ∧
      (g.members ≠ [] →
        ((∀ m ∈ g.members, ¬stopped m) →
          ∃ t, exec (.grpPin p d a) s = .next t ∧ GroupWord s t p d 0 k { g with state := .pinned }) ∧
        ((∀ m ∈ g.members, stopped m) →
          ∃ t, exec (.grpPin p d a) s = .next t ∧ GroupWord s t p d 0 k { g with state := .held }) ∧
        ((∃ m ∈ g.members, stopped m) → (∃ m ∈ g.members, ¬stopped m) →
          ∃ t, exec (.grpPin p d a) s = .next t ∧ Status s t p d (-4))) ∧
      (g.state ≠ .stopping → ∃ t, exec (.grpUnpin p d a) s = .next t ∧ RegWord s t p d 0)) ∧
    (isGang g = true →
      (∃ t, exec (.grpPin p d a) s = .next t ∧ RegWord s t p d 0) ∧
      (g.state ≠ .stopping → NoHalos s →
        ∃ t, exec (.grpUnpin p d a) s = .next t ∧ GroupWord s t p d 0 k { g with state := .opened }) ∧
      (g.state = .stopping → ∃ t, exec (.grpUnpin p d a) s = .next t ∧ Holds s t))) ∧
  ((me s).priv = .user → Quiet s →
    (∃ t w, encode (.grpStop p d a b) = some w ∧ exec (.grpStop p d a b) s = .next t ∧ TrapTo s t 3 (BitVec.ofNat 64 w)) ∧
    (∃ t w, encode (.grpGo p d a) = some w ∧ exec (.grpGo p d a) s = .next t ∧ TrapTo s t 3 (BitVec.ofNat 64 w)) ∧
    ∃ t w, encode (.grpKill p d a) = some w ∧ exec (.grpKill p d a) s = .next t ∧ TrapTo s t 3 (BitVec.ofNat 64 w)) ∧
  ((me s).priv ≠ .user → NamesGroup s A k →
    ((∃ m ∈ g.members, m.2 = s.cur) → Quiet s → Fresh s →
      (∃ t, exec (.grpStop p d a b) s = .next t ∧ TrapTo s t 21 A) ∧ ∃ t, exec (.grpKill p d a) s = .next t ∧ TrapTo s t 21 A) ∧
    ((∀ m ∈ g.members, m.2 ≠ s.cur) →
      (rd s b = 0 → g.members ≠ [] → (∀ m ∈ g.members, (th s m.2).state = .ready ∧ (th s m.2).stop = none) →
        ∃ t, exec (.grpStop p d a b) s = .next t ∧ Behind s t p ∧ Wrote s t d (BitVec.ofNat 64 g.members.length) ∧
          gr t k = { g with state := if g.state = .pinned then .stopping else g.state } ∧ (∀ j, j ≠ k → gr t j = gr s j) ∧
          (∀ m ∈ g.members, th t m.2 = { th s m.2 with stop := some { ctr := none, addr := 0 } }) ∧
          regMask (me t) (me s) = me s ∧ (∀ j, j ≠ s.cur → (∀ m ∈ g.members, m.2 ≠ j) → th t j = th s j) ∧
          { t with threads := s.threads, last := s.last, groups := s.groups } = s) ∧
      ((∀ m ∈ g.members, stopped m ∧ (th s m.2).stop = none ∧ (th s m.2).prior ≠ .parked ∧ m.2 % 16 ≠ 15) →
        ∃ t, exec (.grpGo p d a) s = .next t ∧ Behind s t p ∧ Wrote s t d (BitVec.ofNat 64 g.members.length) ∧
          gr t k = { g with state := if g.state = .held then .pinned else g.state } ∧ (∀ j, j ≠ k → gr t j = gr s j) ∧
          (∀ m ∈ g.members, th t m.2 = { th s m.2 with state := .ready, saved := none, reissue := false }) ∧
          regMask (me t) (me s) = me s ∧ (∀ j, j ≠ s.cur → (∀ m ∈ g.members, m.2 ≠ j) → th t j = th s j) ∧
          { t with threads := s.threads, last := s.last, groups := s.groups } = s) ∧
      ((∃ m ∈ g.members, (th s m.2).stop ≠ none) → ∃ t, exec (.grpGo p d a) s = .next t ∧ Holds s t) ∧
      (Fresh s → NoHalos s → (∀ e ∈ s.cores, e.2.tq = [] ∧ e.2.relPending = false) →
        (g.members = [] → ∃ t, exec (.grpKill p d a) s = .next t ∧ GroupWord s t p d 0 k (freed g)) ∧
        (∀ r m, g.members = [(r, m)] → memberOf s m = some (k, r) → (th s m).stop = none → (th s m).ts = 0 → m % 16 ≠ 15 →
          let T := th s m
          ∃ t, exec (.grpKill p d a) s = .next t ∧ Behind s t p ∧ Wrote s t d 1 ∧ gr t k = freed g ∧
            (∀ j, j ≠ k → gr t j = gr s j) ∧ (th t m).state = .free ∧ (th t m).v.rows = 0 ∧ (th t m).v.queue = [] ∧
            (th t m).stores = T.stores ∧ (th t m).sent = T.sent ∧
            (T.kernel ≠ 0 → let K := kn s T.kernel; (kn t T.kernel).ended = K.ended + 1 ∧
              (kn t T.kernel).killed = K.killed + 1 ∧ (kn t T.kernel).flags = K.flags ||| T.u.flags) ∧
            (∀ x ∈ t.waiters, x.1 ≠ m) ∧ (∀ x ∈ t.arms, x.tid ≠ some m) ∧
            regMask (me t) (me s) = me s ∧ (∀ j, j ≠ s.cur → j ≠ m → th t j = th s j) ∧
            ∀ x, mget t.mem x = mget s.mem x))))

/-- Multicast (R214): `grp.mcast` by a member of a gang, with a descriptor within its limits at an aligned offset, is accepted: d
is the mask of skipped bits, and the cores of the other named members are to receive the panel. Of no member of a gang it is a
group fault. Its delivery reads the panel from the issuer's scratchpad, posting an add of 1 for the source counter, then writes it to a
receiver, row by row, and adds 1 to the near counter; no other byte changes.
The order of the faults is the model's reading (log 14). -/
def Obligations.Multicasts : Prop :=  (∀ (s : State) (p : BitVec 1) (d a b : BitVec 5) (k r : Nat) (src : Option (Loc × Word)),
    let off := (rd s a).toNat
    let core := s.cur / 16
    let size := (co s core).sp * 0x10000
    let x := mcastDesc (mbytes s.spads (core * 0x80000 + off) 32)
    (memberOf s s.cur = none → Quiet s → ∃ t, exec (.grpMcast p d a b) s = .next t ∧ TrapTo s t 21 0) ∧
    (InGang s k r → NoVectorStore s → NothingPosted s s.cur → s.poison = [] → off % 8 = 0 → off + 32 ≤ size →
      x.bad = false → x.sstride % 4 = 0 → x.dstride % 4 = 0 → (∀ i < x.rows, x.src + i * x.sstride + x.rowb ≤ size) →
      ((rd s b = 0 ∧ src = none) ∨ ∃ l, rd s b ≠ 0 ∧ NamesCounter s (rd s b) l ∧ src = some (l, rd s b)) →
      ∃ t m v, exec (.grpMcast p d a b) s = .next t ∧ Behind s t p ∧ Wrote s t d v ∧ t.mcasts = s.mcasts ++ [m] ∧
        m = { tid := s.cur, ctx := (me s).ctx, panel := [], dst := x.dst, dstride := x.dstride,
              ctrEnt := if x.ce then some x.ctr else none, scope := x.scope, left := m.left, src := src, seq := s.order,
              srcOff := x.src, rowb := x.rowb, sstride := x.sstride, rows := x.rows } ∧
        (∀ c, c ∈ m.left ↔ ∃ n < 64, Receives s x n c) ∧
        (∀ n < 64, v.getLsbD n = true ↔ x.mask / 2 ^ n % 2 = 1 ∧ ¬∃ c, Receives s x n c) ∧
        regMask (me t) (me s) = me s ∧ OthersSame s t s.cur ∧
        { t with threads := s.threads, last := s.last, mcasts := s.mcasts, order := s.order } = s)) ∧
  (∀ (s : State) (m : Mcast) (n c : Nat), s.mcasts = [m] → s.mem.wf = true → s.spads.wf = true → CalmCounters s →
    (m.read = false → (th s m.tid).stores = [] → (th s m.tid).sent = [] → (th s m.tid).precs = [] →
      (∀ p ∈ s.posts, p.tid ≠ m.tid) → m.left ≠ [] →
      ∃ t, exec (.grpMcastDelivery 0 n) s = .next t ∧
        t.mcasts = [{ m with
          panel := (List.range m.rows).map fun i =>
            mbytes s.spads (m.tid / 16 * 0x80000 + (m.srcOff + i * m.sstride)) m.rowb,
          bad := [], read := true }] ∧
        (m.src = none → { t with mcasts := s.mcasts } = s) ∧
        (∀ l A, m.src = some (l, A) →
          t.posts = s.posts ++
            [{ kind := .add, seq := s.order, tid := m.tid, ctx := m.ctx, addr := A, loc := l, amount := 1, scope := m.scope }] ∧
          { t with mcasts := s.mcasts, posts := s.posts, order := s.order } = s)) ∧
    (m.read = true → m.bad = [] → m.left[n]? = some c → (∀ row ∈ m.panel, row.length = m.rowb) → m.rowb ≤ m.dstride →
      ∃ t, exec (.grpMcastDelivery 0 n) s = .next t ∧
        (∀ i row j, m.panel[i]? = some row → j < m.rowb →
          mget t.spads (c * 0x80000 + m.dst + i * m.dstride + j) = row.getD j 0) ∧
        (∀ b, (∀ i < m.panel.length, b < c * 0x80000 + m.dst + i * m.dstride ∨
          c * 0x80000 + m.dst + i * m.dstride + m.rowb ≤ b) → mget t.spads b = mget s.spads b) ∧
        (∀ e, m.ctrEnt = some e → tget t.near (c * 256 + e) 0 = tget s.near (c * 256 + e) 0 + 1 ∧
          ∀ i, i ≠ c * 256 + e → tget t.near i 0 = tget s.near i 0) ∧
        (m.ctrEnt = none → t.near = s.near) ∧
        t.mcasts = (if m.left.length = 1 then [] else [{ m with left := ldel m.left n }]) ∧
        (∀ j, th t j = th s j) ∧ t.mem = s.mem))

/-! ### Threads -/

/-- `thr.self`, `thr.spawn` and `thr.end` (R71-R75): a spawn block that is well formed, read through the scratchpad window, for a
core of the partition with an open slot and enough rows makes a Ready thread there at user privilege with the registers of R74,
in the issuer's kernel and, with b not 0, in that group by its lowest free rank; d is its identifier. A malformed block gives
−4, a core outside the partition −2, no open slot −1, too few rows −3. `thr.end` of an idle thread ends it; with a store under
way it holds, and the thread ends later, when nothing of it is under way. -/
def Obligations.ThreadLife : Prop := ∀ (s : State) (p : BitVec 1) (d a b : BitVec 5),
  let A := rd s a
  let B := rd s b
  let T := me s
  let core := s.cur / 16
  (∃ t, exec (.thrSelf p d) s = .next t ∧ RegWord s t p d (BitVec.ofNat 64 s.cur)) ∧
  (∀ off, T.state = .ready → A.toNat % 8 = 0 → InScratch s A 32 off → T.v.queue = [] → NothingPosted s s.cur →
    s.poison = [] →
    let bs := mbytes s.spads (core * 0x80000 + off) 32
    let c := field bs 24 2
    let rows := field bs 26 1
    (field bs 0 8 % 8 ≠ 0 ∨ 32 < rows ∨ (∃ i < 5, bs.getD (27 + i) 0 ≠ 0) →
      ∃ t, exec (.thrSpawn p d a b) s = .next t ∧ RegWord s t p d (BitVec.ofInt 64 (-4))) ∧
    (field bs 0 8 % 8 = 0 → rows ≤ 32 → (∀ i < 5, bs.getD (27 + i) 0 = 0) → c ≠ 0xFFFF →
      (1024 ≤ c ∨ partOfCore s c ≠ (cx s T.ctx).part →
        ∃ t, exec (.thrSpawn p d a b) s = .next t ∧ RegWord s t p d (BitVec.ofInt 64 (-2))) ∧
      (c < 1024 → partOfCore s c = (cx s T.ctx).part →
        (B = 0 → openSlot s c = none → ∃ t, exec (.thrSpawn p d a b) s = .next t ∧ RegWord s t p d (BitVec.ofInt 64 (-1))) ∧
        (B = 0 → (openSlot s c).isSome = true → freeRows s c < rows →
          ∃ t, exec (.thrSpawn p d a b) s = .next t ∧ RegWord s t p d (BitVec.ofInt 64 (-3))) ∧
        (∀ k r x, ((B = 0 ∧ r = 0 ∧ groupKey s 0 = none) ∨
            (B ≠ 0 ∧ NamesGroup s B k ∧ isGang (gr s k) = false ∧ FreeRank (gr s k) r ∧ ∀ q < r, ¬FreeRank (gr s k) q)) →
          openSlot s c = some x → rows ≤ freeRows s c → (th s x).stores = [] → (th s x).sent = [] → (th s x).precs = [] →
          ∃ t, exec (.thrSpawn p d a b) s = .next t ∧ Behind s t p ∧ Wrote s t d (BitVec.ofNat 64 x) ∧
            let N := th t x
            N.state = .ready ∧ N.priv = .user ∧ N.pc.toNat = field bs 0 8 ∧ N.ctx = T.ctx ∧ N.kernel = T.kernel ∧
            (∀ i < 32, tget N.g i 0 = (if i = 2 then BitVec.ofNat 64 (field bs 16 8) else
              if i = 4 then BitVec.ofNat 64 (field bs 8 8) else if i = 5 then BitVec.ofNat 64 r else if i = 6 then B else
              if i = 7 then tget T.g 7 0 else 0)) ∧
            N.u.fmt = T.u.fmt ∧ N.u.scb = T.u.scb ∧ N.u.lock = T.u.lock ∧ N.u.frm = T.u.frm ∧ N.u.wlim = T.u.wlim ∧
            N.u.lwb = T.u.lwb ∧ N.u.afop = T.u.afop ∧ N.u.flags = 0 ∧ N.sr.vec = T.sr.vec ∧ N.sr.cmp = T.sr.cmp ∧
            N.sr.en = T.sr.en ∧ N.v.rows = rows ∧ N.v.vl = 0 ∧
            (B ≠ 0 → ∀ m, m ∈ (gr t k).members ↔ m = (r, x) ∨ m ∈ (gr s k).members) ∧ (B = 0 → t.groups = s.groups) ∧
            (T.kernel ≠ 0 → (kn t T.kernel).count = (kn s T.kernel).count + 1) ∧
            regMask (me t) T = T ∧ (∀ j, j ≠ s.cur → j ≠ x → th t j = th s j) ∧ t.mem = s.mem ∧ t.spads = s.spads)))) ∧
  (Idle s s.cur → T.ts = 0 → s.cur % 16 ≠ 15 → T.stop = none → memberOf s s.cur = none →
    ∃ t, exec (.thrEnd p) s = .next t ∧ t.last = .done ∧ EndedThread s t s.cur) ∧
  (T.stores ≠ [] → ∃ t, exec (.thrEnd p) s = .next t ∧ Holds s t) ∧
  (∀ x h, (th s x).hold = some h → h.stage = endStage → h.pc = (th s x).pc → AtBoundary s x → (th s x).ts = 0 →
    x % 16 ≠ 15 → (th s x).stop = none → memberOf s x = none → trapPending (th s x) = false →
    ∃ t, exec (.thrEndComplete x) s = .next t ∧ EndedThread s t x)

/-- `thr.stop`, `thr.go`, and the stop of a marked thread (R53, R76, R77): d is the target's state code; an idle Ready target and
a Parked or Dropped one become Stopped with their state kept, and `thr.go` makes a Stopped one that was Ready or Dropped Ready;
a target in another state is left as it is. A target that may not be named gives −2; user privilege, the issuer itself and a
gang member raise their traps. -/
def Obligations.ThreadStops : Prop :=  (∀ (s : State) (p : BitVec 1) (d a : BitVec 5) (x n : Nat),
    let A := rd s a
    let X := th s x
    ((me s).priv = .user → Quiet s → ∀ i ∈ [Instr.thrStop p d a, .thrGo p d a], ∃ t w, encode i = some w ∧
      exec i s = .next t ∧ TrapTo s t 3 (BitVec.ofNat 64 w)) ∧
    ((me s).priv ≠ .user → A.toNat < 2 ^ 14 → Quiet s →
      (A.toNat = s.cur → ∀ i ∈ [Instr.thrStop p d a, .thrGo p d a], ∃ t w, encode i = some w ∧ exec i s = .next t ∧
        TrapTo s t 0 (BitVec.ofNat 64 w)) ∧
      ((me s).priv = .sup → A.toNat ≠ s.cur → (th s A.toNat).state ≠ .free → (th s A.toNat).ctx = (me s).ctx →
        inGang s A.toNat = true → ∀ i ∈ [Instr.thrStop p d a, .thrGo p d a], ∃ t, exec i s = .next t ∧ TrapTo s t 21 A)) ∧
    ((me s).priv = .sup → A.toNat = x → x < 2 ^ 14 → x ≠ s.cur → X.state ≠ .free → X.ctx ≠ (me s).ctx →
      ∀ i ∈ [Instr.thrStop p d a, .thrGo p d a], ∃ t, exec i s = .next t ∧ RegWord s t p d (BitVec.ofInt 64 (-2))) ∧
    (Targets s A x → A.toNat = x → SlotCode X.state n →
      (Fresh s → X.state = .free ∨ X.state = .stopped → ∃ t, exec (.thrStop p d a) s = .next t ∧ RegWord s t p d (BitVec.ofNat 64 n)) ∧
      (Fresh s → NoHalos s → X.stop = none → memberOf s x = none → x % 16 ≠ 15 →
        (X.state = .ready ∧ Idle s x) ∨ X.state = .parked ∨ X.state = .dropped →
        ∃ t, exec (.thrStop p d a) s = .next t ∧ Behind s t p ∧ Wrote s t d (BitVec.ofNat 64 n) ∧
          (th t x).state = .stopped ∧ (th t x).prior = X.state ∧ (th t x).pc = X.pc ∧ (th t x).g = X.g ∧
          (th t x).reissue = (X.state == .dropped) ∧ ((th t x).saved.isSome = true ↔ X.state = .parked ∧ X.wait ≠ none) ∧
          regMask (me t) (me s) = me s ∧ (∀ j, j ≠ s.cur → j ≠ x → th t j = th s j) ∧
          ∀ m, mget t.mem m = mget s.mem m) ∧
      (X.state = .stopped → X.prior ≠ .parked → x % 16 ≠ 15 → ∃ t, exec (.thrGo p d a) s = .next t ∧ Behind s t p ∧
        Wrote s t d 4 ∧ th t x = { X with state := .ready, saved := none, reissue := false } ∧
        regMask (me t) (me s) = me s ∧ (∀ j, j ≠ s.cur → j ≠ x → th t j = th s j) ∧ SameOutside s t) ∧
      (X.state ≠ .stopped → ∃ t, exec (.thrGo p d a) s = .next t ∧ RegWord s t p d (BitVec.ofNat 64 n)))) ∧
  (∀ (s : State) (x : Nat), AtBoundary s x → NoHalos s → (th s x).stop = some {} → memberOf s x = none → x % 16 ≠ 15 →
    ∃ t, exec (.stopComplete x) s = .next t ∧ (th t x).state = .stopped ∧ (th t x).prior = .ready ∧
      (th t x).stop = none ∧ (th t x).pc = (th s x).pc ∧ (th t x).g = (th s x).g ∧ OthersSame s t x ∧
      ∀ m, mget t.mem m = mget s.mem m)

/-- `thr.save` and `thr.load` (R76, R78-R80): the save of a Stopped target enters the 8-byte words of the area into the
issuer's store queue, 64 at a time: version and state code, pc, privilege, identifier, kernel, g1 to g31, `FLAGS` and so on; it
completes with 0 when every word is performed; a target that is not Stopped gives −1, a misaligned area a trap. The load of a
well-formed area without vector state into a Free slot completes with 0 and builds a Stopped thread with the area's registers,
the reserved bits of each as zero (R4, R81, log 60); a slot that is neither Free nor Stopped gives −1, a malformed area −3.
The order of the statuses and the test for vector state are the model's readings (logs 27 and 28), and so is that an entry which
no write of its register may make, PPL at 1 in `HSTATUS`, is loaded as 0 (log 60). -/
def Obligations.ThreadSaves : Prop := ∀ (s : State) (p : BitVec 1) (d a b : BitVec 5) (x : Nat),
  let A := rd s a
  let B := rd s b
  let X := th s x
  Targets s A x →
  (A.toNat = x →
    (B.toNat % 64 ≠ 0 → Quiet s → ∃ t, exec (.thrSave p d a b) s = .next t ∧ TrapTo s t 5 B) ∧
    (B.toNat % 64 = 0 → X.state ≠ .stopped →
      ∃ t, exec (.thrSave p d a b) s = .next t ∧ RegWord s t p d (BitVec.ofInt 64 (-1))) ∧
    (B.toNat % 64 = 0 → X.state = .stopped → X.v.rows = 0 → (me s).v.queue = [] →
      (Fresh s → (me s).stores = [] → ∃ t, exec (.thrSave p d a b) s = .next t ∧ t.last = .held ∧
        (me t).stores.length = 64 ∧
        (∀ i < 64, ∃ y, (me t).stores[i]? = some y ∧ y.addr = B + BitVec.ofNat 64 (8 * i) ∧ y.width = 8 ∧ y.op = .put ∧
          y.elem = 0 ∧ y.seq = s.order + i ∧
          (i = 0 → y.data.toNat % 2 ^ 32 = 1 ∧ SlotCode X.prior (y.data.toNat / 2 ^ 32 % 8)) ∧
          (i = 1 → y.data = X.pc) ∧ (i = 2 → y.data = (match X.priv with | .user => 0 | .sup => 2 | .hyp => 3)) ∧
          (i = 3 → y.data = BitVec.ofNat 64 x) ∧ (i = 4 → y.data = BitVec.ofNat 64 X.kernel) ∧
          (8 ≤ i → i < 39 → y.data = tget X.g (i - 7) 0) ∧ (i = 40 → y.data.toNat = X.u.flags.toNat) ∧
          (i = 51 → y.data = X.sr.status) ∧ (i = 53 → y.data = X.sr.epc) ∧
          (i = 59 → y.data = if (me s).priv = .hyp then X.hr.status else 0)) ∧
        storeMask (me t) (me s) = me s ∧ OthersSame s t s.cur ∧ SameButOrder s t) ∧
      ((me s).stores = [] → (me s).sent = [] → (me s).precs = [] →
        (∃ h, (me s).hold = some h ∧ h.pc = (me s).pc ∧ h.stage = 1 ∧ h.n = 1024) →
        ∃ t, exec (.thrSave p d a b) s = .next t ∧ RegWord s t p d 0))) ∧
  (∀ c off, ((me s).priv = .sup ∧ A.toNat = x ∧ c = (me s).ctx) ∨
      ((me s).priv = .hyp ∧ A.toNat = c * 2 ^ 16 + x ∧ c < 256 ∧ administers s (s.cur / 16) (cx s c).part = true ∧
        (cx s c).state ≠ .empty ∧ (cx s c).state ≠ .sealed ∧ (cx s c).state ≠ .destroyed) →
    (X.state ≠ .free → X.state ≠ .stopped →
      ∃ t, exec (.thrLoad p d a b) s = .next t ∧ RegWord s t p d (BitVec.ofInt 64 (-1))) ∧
    (X.state = .free → B.toNat % 8 = 0 → InScratch s B 8192 off → (me s).v.queue = [] → NothingPosted s s.cur →
      s.poison = [] →
      let bs := mbytes s.spads (s.cur / 16 * 0x80000 + off) 8192
      let word (o : Nat) : Word := BitVec.ofNat 64 (field bs o 8)
      (field bs 0 4 ≠ 1 ∨ field bs 4 4 % 8 = 0 ∨ 4 ≤ field bs 4 4 % 8 ∨ 2 ^ 11 ≤ field bs 4 4 ∨ 4 ≤ field bs 0x10 8 →
        ((field bs 4 4).testBit 8 = false ∨ field bs 0x320 8 = 0) →
        ∃ t, exec (.thrLoad p d a b) s = .next t ∧ RegWord s t p d (BitVec.ofInt 64 (-3))) ∧
      (areaOk s x bs = true → (field bs 4 4).testBit 8 = false → x % 16 ≠ 15 → X.stores = [] → X.sent = [] →
        X.precs = [] →
        ∃ t, exec (.thrLoad p d a b) s = .next t ∧ Behind s t p ∧ Wrote s t d 0 ∧
          let N := th t x
          N.state = .stopped ∧ SlotCode N.prior (field bs 4 4 % 8) ∧ N.pc = word 8 ∧ N.ctx = c ∧
          N.priv = (match field bs 0x10 8 with | 0 => .user | 2 => .sup | _ => .hyp) ∧
          (∀ i, 1 ≤ i → i < 32 → tget N.g i 0 = word (0x40 + 8 * (i - 1))) ∧ N.u.flags.toNat = field bs 0x140 8 % 32 ∧
          N.u.wlim = word 0x150 ∧ N.u.lwb = word 0x168 &&& 0xFFFFFFFFFFF80001 ∧ N.sr.status = word 0x198 &&& 0x103 ∧
          N.sr.cause = word 0x1A0 &&& 0xC00000000000003F ∧
          N.sr.epc = word 0x1A8 ∧ N.sr.val = word 0x1B0 ∧ N.sr.vec = word 0x1B8 &&& 0xFFFFFFFFFFFFFFF8 ∧ N.sr.scratch = word 0x1C0 ∧
          ((me s).priv = .hyp → N.hr.epc = word 0x1E8 ∧ N.hr.status =
            word 0x1D8 &&& (if (word 0x1D8).toNat / 256 % 4 = 1 then 0xC03 else 0xF03)) ∧ N.v.rows = 0 ∧
          N.reissue = (field bs 0x220 8).testBit 0 ∧ regMask (me t) (me s) = me s ∧
          (∀ j, j ≠ s.cur → j ≠ x → th t j = th s j) ∧ t.mem = s.mem ∧ t.spads = s.spads)))

/-- Traps that no word raises (R54, R81-R84, R246, R247): the timer's event raises its interrupt and nothing else; between
bundles the lowest interrupt that qualifies enters its handler with its pending bit cleared (the trap value is not stated: a free
value, log 4); a reported asynchronous fault enters by cause 15 or 16 with `AFPC` as value; a recorded store fault by cause 8
with its record's number; a pending record is written to its ring when there is room, with its fields, and the add of 1 to PROD is on
its way behind it, with nothing else of memory changed (R245, R415). -/
def Obligations.AsynchronousTraps : Prop := ∀ (s : State) (tid : Nat),
  let T := th s tid
  (∃ t, exec (.timerCompare tid) s = .next t ∧ { t with cycle := s.cycle } = s ∧ s.cycle ≤ t.cycle ∧
    T.sr.cmp.toNat ≤ t.cycle - (co t (tid / 16)).base) ∧
  (∀ code, Qualifies s tid code → (∀ j < code, ¬Qualifies s tid j) → AtBoundary s tid → T.asyncDue = none →
    ∃ t v, exec (.interruptTake tid) s = .next t ∧ OthersSame s t tid ∧ trapMask (th t tid) T = T ∧
      (∀ j < 5, (th t tid).sr.pend.getLsbD j = (T.sr.pend.getLsbD j && j != code)) ∧
      (let N := th t tid
       Handler T { N with sr := { N.sr with pend := T.sr.pend } } (goesToHyp T (32 + code)) (BitVec.ofNat 64 (2 ^ 63 + code))
        T.pc v) ∧
      { t with threads := s.threads, fresh := s.fresh } = s) ∧
  (∀ c, T.asyncDue = some c → c = 15 ∨ c = 16 → AtBoundary s tid →
    ∃ t, exec (.asyncFaultTrap tid) s = .next t ∧ SameOutside s t ∧ OthersSame s t tid ∧ (th t tid).asyncDue = none ∧
      trapMask { th t tid with asyncDue := T.asyncDue } T = T ∧
      Handler T (th t tid) (goesToHyp T c) (BitVec.ofNat 64 c) T.pc T.u.afpc) ∧
  (∀ n, T.sfSeq = some n → T.sfHyp = none → T.sfRing = none → AtBoundary s tid → T.hold = none →
    ∃ t, exec (.storeFaultTrap tid) s = .next t ∧ SameOutside s t ∧ OthersSame s t tid ∧ (th t tid).sfSeq = none ∧
      trapMask { th t tid with sfSeq := T.sfSeq } T = T ∧
      Handler T (th t tid) (goesToHyp T 8) 8 T.pc (BitVec.ofNat 64 (n % 2 ^ 63))) ∧
  (∀ r rest hb, T.precs = r :: rest → T.sfSeq = none → r.code ≠ 20 → r.code < 256 → s.pkg < 256 → s.mem.wf = true →
    s.waiters = [] → s.arms = [] →
    let C := cx s T.ctx
    C.hgxlat.toNat / 2 ^ 60 = 0 → C.hostpt = false → C.sfqb.toNat = s.pkg * 2 ^ 40 + hb → C.sfqb.toNat ≠ 0 →
    RingRoom s hb C.sfqn → (∀ p ∈ s.posts, p.kind = .add → p.loc ≠ .mem hb) → (∀ k, hb ≤ k → k < hb + 64 + C.sfqn * 64 → (granule s (k / 2 ^ 30)).part = C.part) →
    let prod := mrd s.mem hb 8
    let slot := hb + 64 + prod % C.sfqn * 64
    ∃ t, exec (.pendingRecordWrite tid) s = .next t ∧ (th t tid).precs = rest ∧ (th t tid).sfSeq = some (prod + 1) ∧
      t.posts = s.posts ++
        [{ kind := .add, seq := s.order, tid := 16384, ctx := T.ctx, addr := C.sfqb, loc := .mem hb, amount := 1
           engine := some C.part }] ∧ mrd t.mem slot 8 = prod + 1 ∧ mrd t.mem (slot + 8) 8 = r.st.pc.toNat ∧
      mrd t.mem (slot + 16) 8 = r.st.addr.toNat ∧ mrd t.mem (slot + 24) 8 = r.st.data.toNat ∧
      mrd t.mem (slot + 36) 1 = r.st.width % 256 ∧ mrd t.mem (slot + 37) 1 = r.code ∧
      (∀ b, b < slot ∨ slot + 64 ≤ b → mget t.mem b = mget s.mem b) ∧ OthersSame s t tid ∧
      t.spads = s.spads)

/-! ### Copy channels -/

/-- XFER words (R265, R267, R268, R271-R276), by the movement thread of an enabled channel, with the descriptor at an aligned
address of its scratchpad window and no counter or one that it may name: an Idle channel captures the request, with the
descriptor, the operands, the scope and, of a multicast, the receivers that have room, and d is the mask of the skipped ones,
else 0; a descriptor outside its limits gives −1, and a receiver of another partition −2; a channel that is not Idle holds the
thread. From any other thread the word is illegal, and a misaligned address traps. -/
def Obligations.CopyWords : Prop := ∀ (s : State) (p : BitVec 1) (d a b : BitVec 5) (off : Nat),
  let A := rd s a
  let B := rd s b
  let core := s.cur / 16
  ∀ f ∈ [(Instr.xferCopy p d a b, XKind.copy, 32), (.xferTensor p d a b, .tensor, 64), (.xferMcast p d a b, .mcast, 32),
         (.xferFill p d a b, .fill, 32), (.xferSend p d a b, .send, 32)],
    let bs := mbytes s.spads (core * 0x80000 + off) f.2.2
    let named (n : Nat) : Prop := n < 32 ∧ (field bs 20 4).testBit n = true
    let fits (n : Nat) : Prop := field bs 8 4 + field bs 12 4 ≤ (co s (field bs 16 2 + n)).sp * 0x10000
    (Quiet s → s.cur % 16 ≠ 15 ∨ (co s core).ch.en = false →
      ∃ t w, encode f.1 = some w ∧ exec f.1 s = .next t ∧ TrapTo s t 0 (BitVec.ofNat 64 w)) ∧
    (∀ n, MovementThread s n →
      (A.toNat % 8 ≠ 0 → Quiet s → ∃ t, exec f.1 s = .next t ∧ TrapTo s t 5 A) ∧
      (A.toNat % 8 = 0 → InScratch s A f.2.2 off → NoVectorStore s → NothingPosted s s.cur → s.poison = [] →
        (B = 0 ∨ ∃ l, NamesCounter s B l) →
        (n ≠ 1 → ∃ t, exec f.1 s = .next t ∧ Holds s t) ∧
        (n = 1 → descOk f.2.1 bs = false → ∃ t, exec f.1 s = .next t ∧ RegWord s t p d (BitVec.ofInt 64 (-1))) ∧
        (n = 1 → descOk f.2.1 bs = true →
          (f.2.1 = .mcast → (∃ k, named k ∧ partOfCore s (field bs 16 2 + k) ≠ (cx s (me s).ctx).part) →
            ∃ t, exec f.1 s = .next t ∧ RegWord s t p d (BitVec.ofInt 64 (-2))) ∧
          ((f.2.1 = .mcast → ∀ k, named k → partOfCore s (field bs 16 2 + k) = (cx s (me s).ctx).part) →
            ∃ t r v w, encode f.1 = some w ∧ exec f.1 s = .next t ∧ Behind s t p ∧ Wrote s t d v ∧ OnlyChannel s t core ∧
              (co t core).ch.state = 2 ∧ (co t core).ch.req = some r ∧ r.kind = f.2.1 ∧ r.desc = bs ∧ r.pc = (me s).pc ∧
              r.word = w ∧ r.ga = A ∧ r.gb = B ∧ r.gd = rd s d ∧ r.scope = (co s core).ch.scope ∧ r.counted = 0 ∧
              r.chunk = 0 ∧ r.ctx = (me s).ctx ∧ r.priv = (me s).priv ∧ r.tid = s.cur ∧ r.seq = s.order ∧
              (f.2.1 ≠ .mcast → v = 0 ∧ r.rcv = []) ∧
              (f.2.1 = .mcast → (∀ k < 64, v.getLsbD k = true ↔ named k ∧ ¬fits k) ∧
                ∀ x, x ∈ r.rcv ↔ x.2 = 0 ∧ ∃ k, named k ∧ fits k ∧ x.1 = field bs 16 2 + k) ∧
              regMask (me t) (me s) = me s ∧ OthersSame s t s.cur ∧
              { t with threads := s.threads, last := s.last, cores := s.cores, order := s.order } = s))))

/-- Chunks of a copy, a fill and a send (R243, R267, R269-R272), between scratchpads of this core and of group members and, at
hypervisor privilege, this package's memory: the bytes of the destination that fall in the chunk's 256-byte block take the source
bytes, or the pattern, or the elements rounded to the narrow type and widened again, and no other byte changes; the progress
counter, when there is one, gains the units of the chunk; after the last chunk the channel is Idle with all units in DONE.

Chunks of a tensor (R243, R267, R269, R270, R273, R274): the element of the box with coordinates x is written at its index, as
the element of the tensor at START + x where that lies within BOUND, else as zero; with the last chunk and MASK the bits of the
completion mask follow at the next 8-byte boundary, 1 for each element that was read; no other byte changes.

Multicast reads and reductions (R276, R277, R369, R371), with physical source addresses of this package's memory: the
request joins the stream of the pages of its source range, or opens one; then the next chunk of a receiver is written with the source
bytes, its counter gains the units, and no other byte of a scratchpad changes; a chunk that every receiver has is counted, and
after the last the channel is Idle with all units in DONE; the result of a round is written over the source
range and the channel is Idle with all units in DONE; an abandoned round ends the request Faulted, reported with code 32. -/
def Obligations.CopyChunks : Prop :=
  (∀ (s : State) (core : Nat) (r : XReq) (lo n : Nat) (S D : Loc),
  let src := field r.desc 0 8
  let dst := field r.desc 8 8
  let len := field r.desc 16 4
  let u := 2 ^ (field r.desc 20 1 / 16 % 4)
  let wide := field r.desc 21 1 % 16
  let narrow := field r.desc 21 1 / 16
  let word (i : Nat) : Nat := bytesNat ((List.range u).map fun j => placeByte s S (i * u + j))
  let sent (x : Nat) : Nat :=
    if wide = narrow then x
    else ((typeFmt narrow).convert (typeFmt wide) .rne ((typeFmt wide).convert (typeFmt narrow) .rne x).1).1
  ChannelRuns s core r → r.tid / 16 = core → (th s r.tid).ctx = r.ctx → Still s →
  r.kind = .copy ∨ r.kind = .fill ∨ r.kind = .send → copyOk r.kind r.desc = true → (∀ c, (co s c).sp ≤ 8) →
  (r.kind ≠ .fill → PlaceOf s r.tid r.priv (field r.desc 20 1 % 4) (BitVec.ofNat 64 src) len S) →
  PlaceOf s r.tid r.priv (field r.desc 20 1 / 4 % 4) (BitVec.ofNat 64 dst) len D → ChunkOf dst len r.chunk lo n →
  (r.gb = 0 ∨ ∃ c e, NearAddr s core r.gb c e ∧ partOfCore s c = (cx s r.ctx).part) →
  ∃ t, exec (.copyChunk core) s = .next t ∧
    (∀ i < n, let o := lo - dst + i
      placeByte t D o =
        if r.kind = .copy then placeByte s S o
        else if r.kind = .fill then BitVec.ofNat 8 (src / 256 ^ (o % u))
        else BitVec.ofNat 8 (sent (word (o / u)) / 256 ^ (o % u))) ∧
    OnlyRun s t D (fun x => lo - dst ≤ x ∧ x < lo - dst + n) ∧ ChunkCounted s t core r dst len u n) ∧
  (∀ (s : State) (core : Nat) (r : XReq) (lo n : Nat) (D : Loc),
  let f := field r.desc
  let size := typeWidth (f 62 1 % 16) / 8
  let nd := f 62 1 / 16 % 8
  let ext (k : Nat) : Nat := if k < nd then f (32 + 2 * k) 2 else 1
  let count := ext 0 * ext 1 * ext 2 * ext 3 * ext 4
  let dst := f 8 8
  let len := count * size
  let ask := f 63 1 / 16 % 2 = 1
  let maskAt := (dst + len + 7) / 8 * 8 - dst
  let total := if ask then maskAt + (count + 7) / 8 else len
  let coord (j k : Nat) : Int := (BitVec.ofNat 16 (f (42 + 2 * k) 2)).toInt +
    (j / ((List.range k).map ext).prod % ext k : Nat)
  let inside (j : Nat) : Prop := ∀ k < nd, 0 ≤ coord j k ∧ coord j k < (f (52 + 2 * k) 2 : Nat)
  let addr (j : Nat) : Word := BitVec.ofNat 64 (f 0 8) + BitVec.ofInt 64 (coord j 0 * size +
    ((List.range (nd - 1)).map fun k => coord j (k + 1) * (BitVec.ofNat 32 (f (16 + 4 * k) 4)).toInt).sum)
  let at_ (a : Word) : Loc := if f 63 1 % 4 = 1 then .spad core a.toNat else .mem (a.toNat - s.pkg * 2 ^ 40)
  ChannelRuns s core r → r.tid / 16 = core → (th s r.tid).ctx = r.ctx → Still s → r.kind = .tensor →
  tensorOk r.desc = true → (∀ c, (co s c).sp ≤ 8) → ChunkOf dst len r.chunk lo n →
  let first := (lo - dst) / size
  (∀ j, first ≤ j → j < first + n / size → inside j → PlaceOf s r.tid r.priv (f 63 1 % 4) (addr j) size (at_ (addr j))) →
  PlaceOf s r.tid r.priv (f 63 1 / 4 % 4) (BitVec.ofNat 64 dst) total D →
  (r.gb = 0 ∨ ∃ c e, NearAddr s core r.gb c e ∧ partOfCore s c = (cx s r.ctx).part) →
  let last := LastChunk dst len r.chunk
  ∃ t, exec (.copyChunk core) s = .next t ∧
    (∀ j, first ≤ j → j < first + n / size → ∀ i < size,
      (inside j → placeByte t D (j * size + i) = placeByte s (at_ (addr j)) i) ∧
      (¬inside j → placeByte t D (j * size + i) = 0)) ∧
    (last → ask → ∀ j < (count + 7) / 8 * 8,
      (placeByte t D (maskAt + j / 8)).getLsbD (j % 8) = true ↔ j < count ∧ inside j) ∧
    OnlyRun s t D (fun x => (lo - dst ≤ x ∧ x < lo - dst + n) ∨ (last ∧ ask ∧ maskAt ≤ x ∧ x < total)) ∧
    ChunkCounted s t core r dst len size n) ∧
  ((∀ (s : State) (core k : Nat) (r : XReq), ChannelRuns s core r → r.priv = .hyp → s.pkg < 256 → CalmCounters s → NoCopies s →
    s.mem.wf = true → s.spads.wf = true → (granule s (k / 2 ^ 30)).part = (cx s r.ctx).part →
    field r.desc 0 8 = s.pkg * 2 ^ 40 + k → r.kind = .mcast →
    let dst := field r.desc 8 4
    let len := field r.desc 12 4
    let pages := (List.range ((k % 4096 + len + 4095) / 4096)).map fun i => (k / 4096 + i) * 4096
    k % 128 = 0 → k + len + 128 ≤ 2 ^ 40 → k / 2 ^ 30 = (k + len) / 2 ^ 30 →
    (r.joined = false →
      (s.streams = [] → ∃ t, exec (.mcastStreamJoin core) s = .next t ∧
        t.streams = [{ src := pages, off := k % 4096, len := len, line := 0, cores := [core] }] ∧ OnlyChannel s t core ∧
        (co t core).ch.req = some { r with joined := true } ∧ { t with cores := s.cores, streams := s.streams } = s) ∧
      (∀ x, s.streams = [x] → x.src = pages → x.off = k % 4096 → x.len = len → ∃ t, exec (.mcastStreamJoin core) s = .next t ∧
        t.streams = [{ x with cores := x.cores ++ [core] }] ∧ OnlyChannel s t core ∧
        (co t core).ch.req = some { r with joined := true } ∧ { t with cores := s.cores, streams := s.streams } = s)) ∧
    (∀ i c done lo n, r.joined = true → r.bad = none → s.streams = [] → r.lines = [] → (th s r.tid).stop = none → r.rcv[i]? = some (c, done) →
      (∃ x ∈ r.rcv, x.2 ≤ r.chunk) → partOfCore s c = (cx s r.ctx).part → ChunkOf dst len done lo n → dst + len ≤ 0x80000 →
      dst + len ≤ (co s c).sp * 0x10000 →
      ∃ t, exec (.mcastReceiverChunk core i) s = .next t ∧
        (∀ j < n, mget t.spads (c * 0x80000 + lo + j) = mget s.mem (k + (lo - dst) + j)) ∧
        (∀ x, x < c * 0x80000 + lo ∨ c * 0x80000 + lo + n ≤ x → mget t.spads x = mget s.spads x) ∧
        (field r.desc 19 1 / 128 = 1 → let e := c * 256 + field r.desc 18 1
          tget t.near e 0 = tget s.near e 0 + BitVec.ofNat 64 (n / 2 ^ (field r.desc 19 1 % 4)) ∧
          ∀ j, j ≠ e → tget t.near j 0 = tget s.near j 0) ∧
        (field r.desc 19 1 / 128 = 0 → t.near = s.near) ∧ OnlyChannel s t core ∧ (co t core).ch.state = 2 ∧
        (co t core).ch.req = some { r with rcv := lput r.rcv i (c, done + 1) } ∧
        (∀ j, th t j = th s j) ∧ t.mem = s.mem) ∧
    (∀ lo n, r.bad = none → r.gb = 0 → (∀ x ∈ r.rcv, r.chunk < x.2) → ChunkOf dst len r.chunk lo n →
      let u := 2 ^ (field r.desc 19 1 % 4)
      ∃ t, exec (.copyChunk core) s = .next t ∧ OnlyChannel s t core ∧
        (LastChunk dst len r.chunk → ChannelDone t core (len / u)) ∧
        (¬LastChunk dst len r.chunk → (co t core).ch.state = 2 ∧
          (co t core).ch.req = some { r with chunk := r.chunk + 1, counted := r.counted + n / u }) ∧
        (∀ j, th t j = th s j) ∧ t.mem = s.mem ∧ t.spads = s.spads ∧ t.near = s.near)) ∧
  (∀ (s : State) (core k : Nat) (r : XReq) (data : List Byte), ChannelRuns s core r → r.kind = .reduce → r.priv = .hyp →
    s.pkg < 256 → Still s → (granule s (k / 2 ^ 30)).part = (cx s r.ctx).part → field r.desc 0 8 = s.pkg * 2 ^ 40 + k →
    let u := 2 ^ (field r.desc 20 1 / 16 % 4)
    k % u = 0 → data.length = field r.desc 16 4 → data.length % u = 0 → k + data.length ≤ 2 ^ 40 →
    k / 2 ^ 30 = (k + data.length) / 2 ^ 30 →
    (r.joined = true → r.gb = 0 → ∃ t, exec (.reductionResult core data) s = .next t ∧
      (∀ i < data.length, mget t.mem (k + i) = data.getD i 0) ∧
      (∀ x, x < k ∨ k + data.length ≤ x → mget t.mem x = mget s.mem x) ∧ OnlyChannel s t core ∧
      ChannelDone t core (data.length / u) ∧ (∀ j, th t j = th s j) ∧ t.spads = s.spads) ∧
    (let T := th s r.tid
     let at_ := r.tid / 16 * 0x80000 + T.u.afop.toNat
     T.u.afcode.getLsbD 63 = false → T.state = .ready → T.u.afop.toNat + 64 ≤ (co s (r.tid / 16)).sp * 0x10000 →
     r.word < 2 ^ 32 →
     ∃ t, exec (.roundAbandon core) s = .next t ∧ (co t core).ch.state = 4 ∧ (co t core).ch.req = none ∧
      OnlyChannel s t core ∧ (th t r.tid).u.afcode = BitVec.ofNat 64 (2 ^ 63 + 32) ∧ (th t r.tid).u.afpc = r.pc ∧
      (th t r.tid).asyncDue = some 15 ∧ mrd t.spads at_ 8 = r.pc.toNat ∧ mrd t.spads (at_ + 8) 8 = r.ga.toNat ∧
      mrd t.spads (at_ + 16) 8 = r.gb.toNat ∧ mrd t.spads (at_ + 24) 8 = r.gd.toNat ∧
      mrd t.spads (at_ + 32) 8 = field r.desc 8 8 ∧ mrd t.spads (at_ + 40) 8 = 0 ∧ mrd t.spads (at_ + 48) 4 = 0 ∧ mrd t.spads (at_ + 52) 4 = r.word ∧
      (∀ x, x < at_ ∨ at_ + 64 ≤ x → mget t.spads x = mget s.spads x) ∧ OthersSame s t r.tid ∧ t.mem = s.mem)))

/-! ### Queues and kernels -/

/-- Queue words (R309-R319): `q.launch` puts a well-formed record into an Open launch queue of the partition with the next kernel
number; `q.call` puts a well-formed packet into its context's lane with the next sequence number; `q.take` gives the head of the
only lane that holds a call, whose packet with LANE and SEQ is stored at a, records the taker, and leaves an emptied lane no
deficit; `q.done` writes the reply slot
in the caller's memory, completes the call and advances the lane's DONE. A closed, full or malformed case gives its code, a
queue of another kind or partition is a queue fault, a bit of b outside the fields an illegal instruction.
The order of the statuses and the alignment of the blocks are the model's readings (log 30). -/
def Obligations.QueueWords : Prop := ∀ (s : State) (p : BitVec 1) (d a b : BitVec 5) (off q : Nat),
  let A := rd s a
  let B := rd s b
  let T := me s
  let part := (cx s T.ctx).part
  let bs := mbytes s.spads (s.cur / 16 * 0x80000 + off) 64
  let x := qu s q
  let y := qu s (256 + q)
  (2 ^ 20 ≤ B.toNat → Quiet s → ∀ i ∈ [Instr.qLaunch p d a b, .qCall p d a b, .qTake p d a b, .qDone p d a b],
    ∃ t w, encode i = some w ∧ exec i s = .next t ∧ TrapTo s t 0 (BitVec.ofNat 64 w)) ∧
  (T.priv = .user → B.toNat < 256 → Quiet s → ∀ i ∈ [Instr.qTake p d a b, .qDone p d a b],
    ∃ t w, encode i = some w ∧ exec i s = .next t ∧ TrapTo s t 3 (BitVec.ofNat 64 w)) ∧
  (B.toNat = q → q < 256 →
    (QueueBlock s A off 8 →
      (x.kind ≠ 1 ∨ x.part ≠ part → Quiet s → ∃ t, exec (.qLaunch p d a b) s = .next t ∧ TrapTo s t 22 B) ∧
      (x.kind = 1 → x.part = part →
        (x.closed = true → ∃ t, exec (.qLaunch p d a b) s = .next t ∧ RegWord s t p d (BitVec.ofInt 64 (-2))) ∧
        (x.closed = false →
          (QueueFull s q → ∃ t, exec (.qLaunch p d a b) s = .next t ∧ RegWord s t p d (BitVec.ofInt 64 (-1))) ∧
          (¬QueueFull s q →
            (recBad bs = true → (tget s.parts.route (part * 8) (0, false)).2 = false →
              ∃ t, exec (.qLaunch p d a b) s = .next t ∧ RegWord s t p d (BitVec.ofInt 64 (-3))) ∧
            (recBad bs = false → ArriveReady s x → ∃ t, exec (.qLaunch p d a b) s = .next t ∧ Behind s t p ∧
              Wrote s t d 0 ∧ Received s t q (.thread s.cur T.ctx) bs ∧ Arrived s t x ∧ regMask (me t) T = T ∧
              OthersSame s t s.cur ∧ { t with threads := s.threads, last := s.last, kernels := s.kernels, mem := s.mem,
                                              kernelNext := s.kernelNext } = s))))) ∧
    (∀ i, QueueBlock s A off 64 → y.kind = 2 → y.part = part → laneOf s q T.ctx = some i →
      let l := laneAt s q i
      (y.closed = true → ∃ t, exec (.qCall p d a b) s = .next t ∧ RegWord s t p d (BitVec.ofInt 64 (-2))) ∧
      (y.closed = false →
        (2 ^ y.log2d ≤ l.calls.length →
          ∃ t, exec (.qCall p d a b) s = .next t ∧ RegWord s t p d (BitVec.ofInt 64 (-1))) ∧
        (l.calls.length < 2 ^ y.log2d →
          (packetBad bs = true → ∃ t, exec (.qCall p d a b) s = .next t ∧ RegWord s t p d (BitVec.ofInt 64 (-3))) ∧
          (packetBad bs = false → ArriveReady s y → ∃ t, exec (.qCall p d a b) s = .next t ∧ Behind s t p ∧
            Wrote s t d (BitVec.ofNat 64 (l.seq + 1)) ∧ OtherLanes s t q i ∧ Arrived s t y ∧
            laneAt t q i = { l with
              seq := l.seq + 1,
              calls := l.calls ++ [{
                seq := l.seq + 1, packet := bs, strong := (field bs 4 1).testBit 0, cost := field bs 5 1,
                reply := BitVec.ofNat 64 (field bs 16 8), notify := BitVec.ofNat 64 (field bs 24 8), tid := s.cur,
                ctx := T.ctx, priv := T.priv, taken := none }] } ∧
            regMask (me t) T = T ∧ OthersSame s t s.cur ∧
            { t with threads := s.threads, last := s.last, lanes := s.lanes, mem := s.mem } = s)))) ∧
    (QueueBlock s A off 64 → T.priv ≠ .user →
      (¬Serves s q → Quiet s → ∃ t, exec (.qTake p d a b) s = .next t ∧ TrapTo s t 22 B) ∧
      (Serves s q → (∀ j < 16, (laneAt s q j).calls = []) →
        ∃ t, exec (.qTake p d a b) s = .next t ∧ RegWord s t p d 0) ∧
      (∀ i c, Serves s q → i < 16 → y.turn = false → y.last < 16 → (laneAt s q i).calls = [c] → c.taken = none →
        c.cost ≤ (laneAt s q i).deficit + (laneAt s q i).quantum → c.packet.length = 64 → y.scope < 7 →
        (∀ j < 16, j ≠ i → (laneAt s q j).calls = [] ∧ (laneAt s q j).deficit = 0) →
        ∃ t, exec (.qTake p d a b) s = .next t ∧ Behind s t p ∧ Wrote s t d (BitVec.ofNat 64 c.seq) ∧
          laneAt t q i = { laneAt s q i with deficit := 0, calls := [{ c with taken := some s.cur, dead := [] }] } ∧
          OtherLanes s t q i ∧ (me t).stores.length = 8 ∧
          (∀ k < 8, ∃ z, (me t).stores[k]? = some z ∧ z.addr = A + BitVec.ofNat 64 (8 * k) ∧ z.width = 8 ∧ z.op = .put ∧
            (k = 0 → z.data.toNat = field c.packet 0 6 + i * 2 ^ 48) ∧ (k = 1 → z.data = BitVec.ofNat 64 c.seq) ∧
            (2 ≤ k → z.data.toNat = field c.packet (8 * k) 8)) ∧
          { regMask (me t) T with stores := T.stores } = T ∧ OthersSame s t s.cur ∧ t.mem = s.mem ∧ t.spads = s.spads))) ∧
  (∀ i, i < 16 → q < 256 → B.toNat = q + i * 2 ^ 16 → QueueBlock s A off 64 → T.priv ≠ .user → Serves s q →
    let l := laneAt s q i
    ((∀ c ∈ l.calls, c.seq ≠ field bs 0 8 ∨ c.taken ≠ some s.cur) →
      ∃ t, exec (.qDone p d a b) s = .next t ∧ RegWord s t p d (BitVec.ofInt 64 (-4))) ∧
    (∀ c k, l.calls = [c] → c.seq = field bs 0 8 → c.taken = some s.cur →
      (field bs 8 8 = 2 ^ 63 → ∃ t, exec (.qDone p d a b) s = .next t ∧ RegWord s t p d (BitVec.ofInt 64 (-3))) ∧
      (field bs 8 8 ≠ 2 ^ 63 → c.pend = none → CallerPhysical s c → OwnAddr s (cx s c.ctx).part c.reply 64 k → c.reply ≠ 0 →
        c.notify = 0 → CalmCounters s → s.mem.wf = true →
        (∃ n e, NearAddr s (c.tid / 16) l.done n e ∧ partOfCore s n = (cx s c.ctx).part) →
        ∃ t, exec (.qDone p d a b) s = .next t ∧ Behind s t p ∧ Wrote s t d 0 ∧
          (∀ j < 64, mget t.mem (k + j) = bs.getD j 0) ∧
          (∀ j, j < k ∨ k + 64 ≤ j → mget t.mem j = mget s.mem j) ∧
          laneAt t q i = { l with calls := [], prefix_ := l.seq } ∧ OtherLanes s t q i ∧
          (∀ n e, NearAddr s (c.tid / 16) l.done n e →
            tget t.near (n * 256 + e) 0 = tget s.near (n * 256 + e) 0 + BitVec.ofNat 64 (l.seq - l.prefix_)) ∧
          regMask (me t) T = T ∧ OthersSame s t s.cur ∧ t.spads = s.spads)))

/-- Queue words complete (R309-R319): for every block read through the window, `q.launch` of a well-formed record into an Open
queue with room gives 0; `q.call` of a well-formed packet into the caller's lane with room gives the call's number; `q.take` at
supervisor privilege or above, by a thread of the service, gives 0 when no lane may give its head, else the number of the call
that the lanes' turn gives, taken by the thread, with its packet stored at a and the deficits that the turn left; `q.done` of a
call that the thread has taken gives 0, writes the slot that is not 0, advances `NOTIFY`, removes the call, and advances the
lane's DONE by what its completed prefix grows. With `ARRIVE` on, it advances by 1. -/
def Obligations.QueueWordsComplete : Prop := ∀ (s : State) (p : BitVec 1) (d a b : BitVec 5) (off q : Nat),
  let A := rd s a
  let B := (rd s b).toNat
  let T := me s
  let part := (cx s T.ctx).part
  let bs := mbytes s.spads (s.cur / 16 * 0x80000 + off) 64
  let x := qu s q
  let y := qu s (256 + q)
  q < 256 →
  (B = q → QueueBlock s A off 8 → x.kind = 1 → x.part = part → x.closed = false → ¬QueueFull s q → recBad bs = false →
    ArriveReady s x → ∃ t, exec (.qLaunch p d a b) s = .next t ∧ Behind s t p ∧ Wrote s t d 0 ∧
      Received s t q (.thread s.cur T.ctx) bs ∧ Arrived s t x ∧ OthersSame s t s.cur) ∧
  (∀ i, B = q → QueueBlock s A off 64 → y.kind = 2 → y.part = part → laneOf s q T.ctx = some i → y.closed = false →
    (laneAt s q i).calls.length < 2 ^ y.log2d → packetBad bs = false → ArriveReady s y →
    ∃ t, exec (.qCall p d a b) s = .next t ∧ Behind s t p ∧ Wrote s t d (BitVec.ofNat 64 ((laneAt s q i).seq + 1)) ∧
      (laneAt t q i).seq = (laneAt s q i).seq + 1 ∧
      (laneAt t q i).calls.dropLast = (laneAt s q i).calls ∧ Arrived s t y ∧ OtherLanes s t q i ∧ OthersSame s t s.cur) ∧
  (B = q → QueueBlock s A off 64 → T.priv ≠ .user → Serves s q →
    (takeLane s q = none → ∃ t, exec (.qTake p d a b) s = .next t ∧ RegWord s t p d 0) ∧
    (∀ ls i c, takeLane s q = some (ls, i) → i < 16 → laneHead (ls.getD i {}) = some c → c.packet.length = 64 → y.scope < 7 →
      ∃ t, exec (.qTake p d a b) s = .next t ∧ Behind s t p ∧ Wrote s t d (BitVec.ofNat 64 c.seq) ∧
        (∀ j < 16, j ≠ i → laneAt t q j = ls.getD j {}) ∧
        (laneAt t q i).calls = (ls.getD i {}).calls.map (fun z =>
          if z.seq = c.seq then { z with taken := some s.cur, dead := [] } else z) ∧
        (qu t (256 + q)).last = i ∧ (me t).stores.length = 8 ∧
        (∀ k < 8, ∃ z, (me t).stores[k]? = some z ∧ z.addr = A + BitVec.ofNat 64 (8 * k) ∧ z.width = 8 ∧
          (k = 0 → z.data.toNat = field c.packet 0 6 + i * 2 ^ 48) ∧ (k = 1 → z.data = BitVec.ofNat 64 c.seq) ∧
          (2 ≤ k → z.data.toNat = field c.packet (8 * k) 8)) ∧
        OthersSame s t s.cur ∧ t.mem = s.mem ∧ t.spads = s.spads)) ∧
  (∀ i c k, i < 16 → B = q + i * 2 ^ 16 → QueueBlock s A off 64 → T.priv ≠ .user → Serves s q →
    let l := laneAt s q i
    let rest := l.calls.filter fun z => z.seq ≠ c.seq
    let near (w : Word) (n e : Nat) : Prop := NearAddr s (c.tid / 16) w n e ∧ partOfCore s n = (cx s c.ctx).part
    l.calls.find? (fun z => z.seq = field bs 0 8 ∧ z.taken = some s.cur) = some c → field bs 8 8 ≠ 2 ^ 63 → c.pend = none →
    (∀ z ∈ l.calls, 1 ≤ z.seq) → CallerPhysical s c → CalmCounters s → s.mem.wf = true →
    (c.reply ≠ 0 → OwnAddr s (cx s c.ctx).part c.reply 64 k) →
    ∀ n e n' e', near l.done n e → (c.notify ≠ 0 → near c.notify n' e' ∧ n' * 256 + e' ≠ n * 256 + e) →
    ∃ t m, exec (.qDone p d a b) s = .next t ∧ Behind s t p ∧ Wrote s t d 0 ∧
      laneAt t q i = { l with calls := rest, prefix_ := m } ∧ OtherLanes s t q i ∧
      (rest = [] → m = l.seq) ∧ (rest ≠ [] → (∃ z ∈ rest, z.seq = m + 1) ∧ ∀ z ∈ rest, m < z.seq) ∧
      (c.reply ≠ 0 → (∀ j < 64, mget t.mem (k + j) = bs.getD j 0) ∧
        ∀ j, j < k ∨ k + 64 ≤ j → mget t.mem j = mget s.mem j) ∧ (c.reply = 0 → t.mem = s.mem) ∧
      tget t.near (n * 256 + e) 0 = tget s.near (n * 256 + e) 0 +
        (if m = l.prefix_ then 0 else BitVec.ofNat 64 (m - l.prefix_)) ∧
      (c.notify ≠ 0 → tget t.near (n' * 256 + e') 0 = tget s.near (n' * 256 + e') 0 + 1) ∧
      (∀ z, z ≠ n * 256 + e → (c.notify = 0 ∨ z ≠ n' * 256 + e') → tget t.near z 0 = tget s.near z 0) ∧
      regMask (me t) T = T ∧ OthersSame s t s.cur ∧ t.spads = s.spads)

/-- Launch records from outside (R312, R313, R323, R324, R373, R379): the host's write of the last bytes of a queue window
launches a well-formed record into an Open launch queue of the function's partition, else it is counted and recorded with kind
1; an earlier write only fills the window. A frame that parses, for the port, and that a rule classifies to an Open queue
launches its record; any other frame is counted as dropped. -/
def Obligations.OutsideLaunches : Prop :=  (∀ (s : State) (vf q off : Nat) (data : List Byte), q < 256 →
    let w := mputs (vfn s vf).window (q * 64 + off) data
    let r := mbytes w (q * 64) 64
    let x := qu s q
    (off + data.length < 64 → ∃ t, exec (.hostQueueWindowWrite vf q off data) s = .next t ∧
      vfn t vf = { vfn s vf with window := w } ∧ (∀ k, k ≠ vf → vfn t k = vfn s k) ∧ { t with vfs := s.vfs } = s) ∧
    (off + data.length = 64 →
      (x.kind = 1 → x.part = tget s.parts.vf vf 0 → x.closed = false → ¬QueueFull s q → recBad r = false → x.arrive = 0 →
        ∃ t, exec (.hostQueueWindowWrite vf q off data) s = .next t ∧ Received s t q (.host vf) r ∧
          vfn t vf = { vfn s vf with window := mzero w (q * 64) 64 } ∧ (∀ k, k ≠ vf → vfn t k = vfn s k) ∧
          { t with vfs := s.vfs, kernels := s.kernels, kernelNext := s.kernelNext } = s) ∧
      (x.kind = 0 → (vfn s vf).errcnt < 2 ^ 64 - 1 → ∃ t, exec (.hostQueueWindowWrite vf q off data) s = .next t ∧
        (vfn t vf).errcnt = (vfn s vf).errcnt + 1 ∧ field (vfn t vf).errlast 0 4 = 1 ∧
        field (vfn t vf).errlast 8 8 = q * 64 + off ∧ (∀ k, k ≠ vf → vfn t k = vfn s k) ∧ { t with vfs := s.vfs } = s))) ∧
  (∀ (s : State) (port : Nat) (data : List Byte),
    let e := tget s.eths port {}
    (∀ u q, parseFrame data = some u → cutBytes data 0 6 = e.mac → (∃ i ∈ e.ips, i.2 = mappedIp u.dstIp) →
      u.payload.length = 68 → classify e (be data (u.l4 + 2) 2) (be u.payload 0 4) = some q → (qu s q).kind = 1 →
      (qu s q).closed = false → ¬QueueFull s q → recBad (u.payload.drop 4) = false → (qu s q).arrive = 0 →
      ∃ t, exec (.frameReceive port data) s = .next t ∧ Received s t q (.eth port data) (u.payload.drop 4) ∧
        { t with kernels := s.kernels, kernelNext := s.kernelNext } = s) ∧
    (parseFrame data = none → e.rxdrop < 2 ^ 64 - 1 → ∃ t, exec (.frameReceive port data) s = .next t ∧
      (tget t.eths port {}).rxdrop = e.rxdrop + 1 ∧ (∀ k, k ≠ port → tget t.eths k {} = tget s.eths k {}) ∧
      { t with eths := s.eths } = s))

/-- The life of a kernel (R85, R323-R330): the Gaffer binds the oldest received record of a queue to its model slot's entry, or it
fails with code 3 or 4; it admits the only kernel that waits, when it fits, to the slots that serve, its status word cleared; it
spawns its thread in the reserved slot with the registers of R328 and its argument copy, and the kernel runs; a Draining kernel
whose threads were not killed ends with code 0, its status word stored with the flags.
The privilege of the Gaffer's accesses is the model's reading (log 31). -/
def Obligations.KernelLife : Prop := ∀ (s : State) (num : Nat),
  let k := kn s num
  let h := field k.rec_ 0 8
  let m := tget s.models (h / 16 % 32) {}
  let e := h / 2 ^ 9 % 16
  s.kernels = [(num, k)] → CalmCounters s → NoCopies s → s.mem.wf = true → s.spads.wf = true → k.pend = none →
  (k.state = .received →
    (m.state ≠ 1 ∨ m.part ≠ k.part → ∃ t, exec (.kernelBind num) s = .next t ∧ OnlyKernels s t ∧
      (kn t num).state = .failed 3) ∧
    (∀ ctx, m.state = 1 → m.part = k.part → ctxOfVmid s m.part m.vmid = some ctx →
      (m.nent ≤ e → ∃ t, exec (.kernelBind num) s = .next t ∧ OnlyKernels s t ∧ (kn t num).state = .failed 4) ∧
      (∀ a, e < m.nent → Bare (cx s ctx) → OwnAddr s (cx s ctx).part (m.etab + BitVec.ofNat 64 (32 * e)) 32 a →
        let bs := mbytes s.mem a 32
        let n := if h / 2 ^ 41 % 2 ^ 13 = 0 then field bs 16 4 else h / 2 ^ 41 % 2 ^ 13
        0 < n → n ≤ 4096 → field bs 13 1 ≤ 4 → m.nclo + field bs 14 2 ≤ 256 → field k.rec_ 16 8 = 0 →
        ∃ t, exec (.kernelBind num) s = .next t ∧ OnlyKernels s t ∧
          let K := kn t num
          K.model = h / 16 % 32 ∧ K.ctx = ctx ∧ K.entry.toNat = field bs 0 8 ∧ K.rows = field bs 12 1 ∧
          K.tiles = field bs 13 1 ∧ K.ncounters = field bs 14 2 ∧ K.threads = n ∧
          K.state = if fitsEmpty s m K then .queued else .failed 5))) ∧
  (∀ ps, k.state = .queued → (tget s.models k.model {}).part < 24 → k.model < 32 →
    tget s.parts.state (tget s.models k.model {}).part .unused = .active → (tget s.models k.model {}).state = 1 →
    (cx s k.ctx).state = .running → s.heads = [] → fits s num = true → placesFor s num = some ps → field k.rec_ 24 8 = 0 →
    ∃ t, exec (.kernelAdmit num) s = .next t ∧ (kn t num).state = .admitted ∧ (kn t num).places = ps ∧
      { t with kernels := s.kernels, heads := s.heads, served := s.served } = s) ∧
  (∀ tid, k.state = .admitted → k.zeroDue = false → (cx s k.ctx).state = .running → k.threads = 1 → k.tiles = 0 → k.ncounters = 0 →
    k.places = [tid] → placesOk s num [tid] = true → k.rec_.length = 64 →
    groupKey s 0 = none →
    let M := tget s.models k.model {}
    let arg := M.argoff + tid % 16 * 64
    arg + 64 ≤ 0x80000 → M.lwb.toNat % 2 ^ 19 = 1 →
    ∃ t, exec (.gafferSpawn num [tid]) s = .next t ∧
      let N := th t tid
      N.state = .ready ∧ N.priv = .user ∧ N.pc = k.entry ∧ N.ctx = k.ctx ∧ N.kernel = num ∧
      tget N.g 2 0 = M.stkbase + BitVec.ofNat 64 ((tid + 1) * M.stksz) ∧ (tget N.g 4 0).toNat = M.lwb.toNat - 1 + arg ∧
      tget N.g 5 0 = 0 ∧ tget N.g 6 0 = 0 ∧ (tget N.g 7 0).toNat = field k.rec_ 16 8 ∧
      (∀ i, i ∉ [2, 4, 7] → tget N.g i 0 = 0) ∧ N.u.flags = 0 ∧ N.u.lock = true ∧ N.u.lwb = M.lwb ∧
      N.u.fmt.toNat = h / 2 ^ 16 % 2 ^ 12 ∧ N.v.rows = k.rows ∧
      (kn t num).state = .running ∧ (kn t num).count = 1 ∧
      (∀ i < 32, mget t.spads (tid / 16 * 0x80000 + arg + i) = k.rec_.getD (32 + i) 0) ∧
      (∀ i < 8, mget t.spads (tid / 16 * 0x80000 + arg + 56 + i) = BitVec.ofNat 8 (num / 256 ^ i)) ∧
      (∀ x, x < tid / 16 * 0x80000 + arg ∨ tid / 16 * 0x80000 + arg + 64 ≤ x → mget t.spads x = mget s.spads x) ∧
      OthersSame s t tid ∧ t.mem = s.mem ∧ t.groups = s.groups) ∧
  (∀ a vf, k.state = .draining → (∀ e ∈ s.threads, e.2.was ≠ num) → s.posts = [] → k.killed = 0 → k.src = .host vf → field k.rec_ 16 8 = 0 → Bare (cx s k.ctx) →
    (cx s k.ctx).state ≠ .empty → (cx s k.ctx).state ≠ .destroyed →
    OwnAddr s (cx s k.ctx).part (BitVec.ofNat 64 (field k.rec_ 24 8)) 8 a → field k.rec_ 24 8 ≠ 0 →
    field k.rec_ 24 8 % 8 = 0 →
    ∃ t, exec (.kernelEndSequence num) s = .next t ∧ (kn t num).state = .ended 0 ∧
      mrd t.mem a 8 = 2 ^ 63 + k.flags.toNat ∧ (kn t num).status = BitVec.ofNat 64 (2 ^ 63 + k.flags.toNat) ∧
      (∀ x, x < a ∨ a + 8 ≤ x → mget t.mem x = mget s.mem x) ∧ (∀ i, th t i = th s i) ∧ t.spads = s.spads)

/-! ### Contexts and sealed checkpoints -/

/-- The commands of `CTXC`, by a hypervisor thread for a partition that it administers (R334-R336, R352, R353): CREATE makes an
Empty context Loading with its operands and its registers at reset; READY makes a Loading one Ready; START and RESUME make a
Ready or Suspended one Running and its Stopped threads resume; SUSPEND of a Running one completes at once when nothing of it
runs, and else marks its threads, the issuer among them, and completes when they have stopped, its page-request entries
shared from then on; DESTROY makes a context Destroyed, or waits for its job;
the scrub makes it Empty with its near ranges zero. A command in a wrong state gives −1 and changes nothing else.
The values of a new context's registers are the model's reading (log 39), what the scrub clears log 40. -/
def Obligations.ContextCommands : Prop := ∀ (s : State) (arg : Word) (n : Nat),
  let c := cx s n
  (∀ vmid part vf qos, Commands s arg n 1 part → vmid < 2 ^ 14 → part < 24 → vf < 2 ^ 7 → qos < 2 ^ 6 →
    arg.toNat = n + 256 + vmid * 2 ^ 12 + part * 2 ^ 26 + vf * 2 ^ 31 + qos * 2 ^ 38 →
    (c.state ≠ .empty → ∃ t, exec (.create arg) s = .next t ∧ CommandFails s t arg (-1)) ∧
    (c.state = .empty → (∀ e ∈ s.ctxs, e.2.state = .empty ∨ (e.2.vmid ≠ vmid ∧ e.2.vf ≠ some vf)) →
      tget s.parts.vf vf 0 = part → (tget s.parts.qos qos (24, 1)).1 = part →
      ∃ t, exec (.create arg) s = .next t ∧
        CommandDone s t arg n { state := .loading, vmid := vmid, part := part, vf := some vf, qos := qos })) ∧
  (Commands s arg n 2 c.part →
    (c.state ≠ .loading → ∃ t, exec (.ready arg) s = .next t ∧ CommandFails s t arg (-1)) ∧
    (c.state = .loading → ∃ t, exec (.ready arg) s = .next t ∧ CommandDone s t arg n { c with state := .ready })) ∧
  (∀ i ∈ [(Instr.start arg, 3), (.resume arg, 5)], Commands s arg n i.2 c.part →
    (c.state ≠ .ready → c.state ≠ .suspended → ∃ t, exec i.1 s = .next t ∧ CommandFails s t arg (-1)) ∧
    (c.state = .ready ∨ c.state = .suspended → reserveRoom s = true → s.groups = [] → s.pageWaits = [] →
      (s.threads.map (·.1)).Nodup → (∀ e ∈ s.threads, e.2.ctx = n → e.2.prior ≠ .parked ∧ e.1 % 16 ≠ 15) →
      ∃ t, exec i.1 s = .next t ∧ CtxcStatus s t arg 0 ∧ cx t n = { c with state := .running } ∧
        (∀ k, k ≠ n → cx t k = cx s k) ∧
        (∀ e ∈ s.threads, th t e.1 = if e.2.ctx = n ∧ e.2.state = .stopped
          then { e.2 with state := .ready, saved := none, reissue := false } else e.2) ∧
        { t with parts := s.parts, ctxs := s.ctxs, threads := s.threads } = s)) ∧
  (Commands s arg n 4 c.part →
    (c.state ≠ .running → ∃ t, exec (.suspend arg) s = .next t ∧ CommandFails s t arg (-1)) ∧
    (c.state = .running → (∀ e ∈ s.threads, e.2.ctx ≠ n) → (∀ e ∈ s.cores, e.2.ch.state ≠ 2) → s.groups = [] → s.posts = [] →
      s.pageWaits = [] → s.halos = [] → s.peerLines = [] →
      ∃ t, exec (.suspend arg) s = .next t ∧ CommandFrees s t arg n { c with state := .suspended, suspending := none }) ∧
    (∀ x, c.state = .running → s.groups = [] → (∃ e ∈ s.threads, e.1 = x) → (s.threads.map (·.1)).Nodup →
      (th s x).ctx = n → (th s x).state = .ready → (th s x).stop = none → (∀ e ∈ s.threads, e.2.ctx = n → e.1 = x) →
      ∃ t, exec (.suspend arg) s = .next t ∧ CtxcStatus s t arg 0 ∧
        th t x = { th s x with stop := some { ctr := none, addr := 0 } } ∧ OthersSame s t x ∧
        cx t n = { c with suspending := some s.cur } ∧ (∀ k, k ≠ n → cx t k = cx s k) ∧
        { t with parts := s.parts, ctxs := s.ctxs, threads := s.threads } = s)) ∧
  (∀ who, c.state = .running → c.suspending = some who → suspendDone s n = true → s.pageWaits = [] → s.halos = [] →
    s.peerLines = [] → ∃ t, exec (.suspendComplete n) s = .next t ∧
      cx t n = { c with state := .suspended, suspending := none } ∧ (∀ k, k ≠ n → cx t k = cx s k) ∧
      t.pages = (s.pages.map fun e => (e.1, if e.2.ctx = n then { e.2 with shared := true } else e.2)) ∧
      { t with parts := s.parts, ctxs := s.ctxs, pages := s.pages } = s) ∧
  (Commands s arg n 6 c.part →
    (c.state = .empty ∨ c.state = .destroyed → ∃ t, exec (.destroy arg) s = .next t ∧ CommandFails s t arg (-1)) ∧
    (c.state = .sealing ∨ c.state = .restoring → ∃ t, exec (.destroy arg) s = .next t ∧
      CommandDone s t arg n { c with destroying := true }) ∧
    (c.state = .loading ∨ c.state = .ready ∨ c.state = .running ∨ c.state = .suspended ∨ c.state = .sealed →
      (∀ e ∈ s.threads, e.2.ctx ≠ n) → s.groups = [] → s.kernels = [] → s.queues = [] →
      s.pageWaits = [] → ∃ t, exec (.destroy arg) s = .next t ∧
        CommandFrees s t arg n { c with state := .destroyed, suspending := none, destroying := false })) ∧
  (∀ vf, c.state = .destroyed → Unused s n → c.hgxlat.toNat / 2 ^ 60 = 0 → c.vf = some vf → s.waiters = [] → s.arms = [] →
    ∃ t, exec (.scrubComplete n) s = .next t ∧ cx t n = { part := c.part } ∧ (∀ k, k ≠ n → cx t k = cx s k) ∧
      (∀ r ∈ c.nears, ∀ i < r.2.2, tget t.near (r.1 * 256 + (r.2.1 + i)) 0 = 0) ∧
      (∀ k, (∀ r ∈ c.nears, ∀ i < r.2.2, k ≠ r.1 * 256 + (r.2.1 + i)) → tget t.near k 0 = tget s.near k 0) ∧
      vfn t vf = { vfn s vf with arms := [] } ∧ (∀ i, th t i = th s i) ∧ t.mem = s.mem ∧ t.spads = s.spads)

/-- CTX words (R339, R342, R343, R345, R348, R349): `ctx.extend` hashes a run of the partition's memory into the measurement of a
Loading context; `ctx.quote` stores the signed report at a; `ctx.seal` queues a job and a Suspended context is Sealing;
`ctx.unseal` queues one and a Loading context without measurement is Restoring. A wrong state gives −1, a full queue of jobs −12;
user and supervisor privilege raise their traps. The order of the statuses, and −2 for a quote of `SELF` 0 by a supervisor, are the
model's readings (logs 29 and 41). -/
def Obligations.ContextWords : Prop := ∀ (s : State) (p : BitVec 1) (d a b : BitVec 5),
  let A := rd s a
  let B := (rd s b).toNat
  let T := me s
  let core := s.cur / 16
  (Quiet s → B = 0 →
    (T.priv = .user → ∀ i ∈ [Instr.ctxExtend p d a b, .ctxQuote p d a b, .ctxSeal p d a, .ctxUnseal p d a],
      ∃ t w, encode i = some w ∧ exec i s = .next t ∧ TrapTo s t 3 (BitVec.ofNat 64 w)) ∧
    (T.priv = .sup → ∀ i ∈ [Instr.ctxExtend p d a b, .ctxSeal p d a, .ctxUnseal p d a],
      ∃ t w, encode i = some w ∧ exec i s = .next t ∧ TrapTo s t 4 (BitVec.ofNat 64 w))) ∧
  (∀ n kind len k, T.priv = .hyp → n < 256 → kind < 256 → 0 < len → len < 2 ^ 26 → B = n * 2 ^ 48 + kind * 2 ^ 32 + len →
    administers s core (cx s n).part = true →
    ((cx s n).state ≠ .loading → ∃ t, exec (.ctxExtend p d a b) s = .next t ∧ RegWord s t p d (BitVec.ofInt 64 (-1))) ∧
    ((cx s n).state = .loading → OwnAddr s (cx s n).part A len k → s.poison = [] →
      ∃ t, exec (.ctxExtend p d a b) s = .next t ∧ CtxWord s t p d 0 n { cx s n with
        measure := sha256 ((cx s n).measure ++ natBytes 1 kind ++ natBytes 8 len ++
          sha256 (mbytes s.mem k len)) } ∧
        { t with threads := s.threads, last := s.last, ctxs := s.ctxs } = s)) ∧
  (∀ off, A.toNat % 64 = 0 → InScratch s (A + 112) 32 off → Settled s → s.poison = [] →
    (B = 0 → T.priv = .sup → ∃ t, exec (.ctxQuote p d a b) s = .next t ∧ RegWord s t p d (BitVec.ofInt 64 (-2))) ∧
    (B = 256 → T.priv ≠ .user → (T.priv = .hyp → administers s core (cx s T.ctx).part = true) →
      ((cx s T.ctx).state = .empty ∨ (cx s T.ctx).state = .destroyed →
        ∃ t, exec (.ctxQuote p d a b) s = .next t ∧ RegWord s t p d (BitVec.ofInt 64 (-1))) ∧
      ((cx s T.ctx).state ≠ .empty → (cx s T.ctx).state ≠ .destroyed →
        let report := quoteBytes s T.ctx (cx s T.ctx).measure (mbytes s.spads (core * 0x80000 + off) 32) (natBytes 64 0)
          (linidOf (cx s T.ctx))
        ∃ t, exec (.ctxQuote p d a b) s = .next t ∧ Behind s t p ∧ Wrote s t d 0 ∧ (me t).stores.length = 40 ∧
          (∀ i < 40, ∃ y, (me t).stores[i]? = some y ∧ y.addr = A + BitVec.ofNat 64 (8 * i) ∧ y.width = 8 ∧ y.op = .put ∧
            y.data = BitVec.ofNat 64 (field report (8 * i) 8)) ∧
          { regMask (me t) T with stores := T.stores } = T ∧ OthersSame s t s.cur ∧ SameButOrder s t))) ∧
  (∀ off, T.priv = .hyp → A.toNat % 64 = 0 → InScratch s A 64 off → Settled s → s.poison = [] → s.peerLines = [] →
    s.hostLines = [] →
    let ds := mbytes s.spads (core * 0x80000 + off) 64
    let n := field ds 0 2
    let c := cx s n
    let queued (t : State) (r : Bool) (bs : List Byte) : Prop := t.jobs =
      s.jobs ++ [{ id := s.jobNext, restore := r, ctx := n, desc := bs, tid := s.cur }] ∧ t.jobNext = s.jobNext + 1 ∧
      { t with threads := s.threads, last := s.last, ctxs := s.ctxs, jobs := s.jobs, jobNext := s.jobNext } = s
    n < 256 → administers s core c.part = true →
    (c.state ≠ .suspended → ∃ t, exec (.ctxSeal p d a) s = .next t ∧ RegWord s t p d (BitVec.ofInt 64 (-1))) ∧
    (∀ bs, c.state = .suspended → sealOk s c ds = true → sealLists s ds = some bs → ctxTileDirty s c = false →
      let nreg := field ds 2 2
      let nnc := field ds 4 2
      imageSize nreg nnc (payloadSize (regionsOf bs 64 nreg) (rangesOf bs (64 + 16 * nreg) nnc)) ≤ field ds 16 8 →
      (s.jobs.length < 8 → ∃ t, exec (.ctxSeal p d a) s = .next t ∧ CtxWord s t p d 0 n { c with state := .sealing } ∧
        queued t false bs) ∧
      (8 ≤ s.jobs.length → ∃ t, exec (.ctxSeal p d a) s = .next t ∧ RegWord s t p d (BitVec.ofInt 64 (-12)))) ∧
    (c.state ≠ .loading → ∃ t, exec (.ctxUnseal p d a) s = .next t ∧ RegWord s t p d (BitVec.ofInt 64 (-1))) ∧
    (∀ k, c.state = .loading → (∀ x ∈ c.measure, x = 0) → (∀ i < 6, ds.getD (2 + i) 0 = 0) → field ds 8 8 % 4096 = 0 →
      (∀ i < 8, ds.getD (32 + i) 0 = 0) → field ds 48 8 % 8 = 0 → (∀ i < 8, ds.getD (56 + i) 0 = 0) →
      s.pkg < 256 → field ds 40 8 = s.pkg * 2 ^ 40 + k → k % 8 = 0 → k < 2 ^ 40 → s.lehr.withdrawn = [] →
      NoWindowAt s core (BitVec.ofNat 64 (field ds 40 8)) →
      (s.jobs.length < 8 → ∃ t, exec (.ctxUnseal p d a) s = .next t ∧ CtxWord s t p d 0 n { c with state := .restoring } ∧
        queued t true ds) ∧
      (8 ≤ s.jobs.length → ∃ t, exec (.ctxUnseal p d a) s = .next t ∧ RegWord s t p d (BitVec.ofInt 64 (-12)))))

/-- Seal and restore jobs and their homes (R340, R341, R343-R346): the first job starts with the lineage of its context or a new
one, or with the image's header; a home at another package is asked for a nonce, and with it the job sends its quote, as this
package gives a nonce to a job of a peer; its home here grants a lease when the quote and the counter agree, the release of the key
writes the image's header and payload (a reserved bit of a restored register reads as zero, R4), the commit starts the counter write, whose acknowledgement sets the counter and clears
the lease, and the context is then Sealed, or Suspended with KEEP; a refusal or a timeout of a peer home, and a lost commit,
end the job with their codes; a lease runs out unless a counter write has begun.
What a failed job leaves is the model's reading (log 42); the package's keys and random bytes are free values (log 43). -/
def Obligations.SealJobs : Prop := ∀ (s : State) (j : Job) (rest : List Job),
  FirstJob s j rest →
  let c := cx s j.ctx
  (∀ id home, j.restore = false → j.phase = .queued → (j.desc.getD 6 0).getLsbD 0 = false → c.lineage = some (id, home) →
    ∃ t, exec (.sealJobStart j.id) s = .next t ∧ Asks s t { j with linid := id, home := home } rest ∧
      t.lineages = s.lineages) ∧
  (∀ k, j.restore = false → j.phase = .queued → (j.desc.getD 6 0).getLsbD 0 = true → freeLineage s = some k →
    s.lehr.store = true → ∃ t id, exec (.sealJobStart j.id) s = .next t ∧ id.length = 16 ∧
      Asks s t { j with linid := id, home := s.pkg } rest ∧
      tget t.lineages k { linid := [], counter := 0, fw := [], measure := [] } =
        { linid := id, counter := 0, fw := s.lehr.fwMeasure, measure := c.measure }) ∧
  (∀ h, j.restore = true → j.phase = .queued → imageHeader s j = some h → headerAgrees j h = true →
    ∃ t, exec (.restoreJobStart j.id) s = .next t ∧ t.lineages = s.lineages ∧
      Asks s t { j with header := h, linid := (h.drop 16).take 16, lctr := field h 32 8, home := field h 40 1 } rest) ∧
  (∀ nonce, j.phase = .asked → nonce.length = 32 → Quotes s (takeNonce s j.id nonce) j nonce
    (if j.restore then (j.header.drop 48).take 32 else c.measure) rest) ∧
  (∀ peer, ∃ n : List Byte, n.length = 32 ∧ (giveNonce s peer).out = { s.out with answers := s.out.answers ++ [(peer, 0, n)] } ∧
    tget (giveNonce s peer).nonces peer [] = n) ∧
  (∀ k l, s.lineages = [(k, l)] → l.linid = j.linid → j.home = s.pkg →
    (j.restore = false → j.phase = .quoted → l.fw = s.lehr.fwMeasure → l.measure = c.measure → l.lease = none →
      s.lehr.store = true →
      ∀ lin lctr r q, ∃ t, exec (.leaseRequest j.id lin lctr r q) s = .next t ∧
        t.jobs = { j with phase := .leased, lctr := l.counter + 1 } :: rest ∧
        t.lineages = [(k, { l with lease := some j.id, nextSealer := some sealKey })] ∧ OnlyJobs s t) ∧
    (∀ pay D q z, j.phase = .leased → j.restore = false → Still s → s.pkg < 256 → field j.desc 8 8 = s.pkg * 2 ^ 40 + D →
      let nreg := field j.desc 2 2
      let nnc := field j.desc 4 2
      let ps := pieces (regionsOf j.desc 64 nreg) (rangesOf j.desc (64 + 16 * nreg) nnc)
      readPieces s j.ctx ps = (.inr pay, s) → D + 2 ^ 30 ≤ 2 ^ 40 → pay.length ≤ 2 ^ 29 → j.linid.length = 16 →
      ∃ t, exec (.keyRelease j.id q z) s = .next t ∧
        t.jobs = { j with
          phase := .committing, bytes := padded (headerLen nreg nnc (chunkCount pay.length)) + pay.length } :: rest ∧
        mrd t.mem D 4 = 1 ∧ mrd t.mem (D + 4) 4 = headerLen nreg nnc (chunkCount pay.length) ∧
        mrd t.mem (D + 8) 4 = chunkCount pay.length ∧ mbytes t.mem (D + 16) 16 = j.linid ∧
        mrd t.mem (D + 32) 8 = j.lctr % 2 ^ 64 ∧ (∀ x < D, mget t.mem x = mget s.mem x) ∧ (∀ i, th t i = th s i)) ∧
    (∀ lin lctr, j.phase = .committing → l.lease = some j.id → l.pendingWrite = none →
      ∃ t, exec (.commitRequest j.id lin lctr) s = .next t ∧
        t.lineages = [(k, { l with pendingWrite := some (l.counter + 1) })] ∧ { t with lineages := s.lineages } = s) ∧
    (∀ v, j.phase = .committing → l.lease = some j.id → l.pendingWrite = some v →
      ∃ t, exec (.blockDeviceAcknowledge k) s = .next t ∧ t.jobs = { j with phase := .done } :: rest ∧
        t.lineages = [(k, { l with
          counter := v, pendingWrite := none, lease := none, nextSealer := none, sealer := l.nextSealer.getD l.sealer })] ∧
        OnlyJobs s t)) ∧
  (∀ r k, ResultPlace s j r k → Still s → c.destroying = false →
    (j.restore = false → j.home = s.pkg → j.phase = .done → ∀ ok, ∃ t, exec (.commitAck j.id ok) s = .next t ∧
      JobEnds s t j rest r k 0 ∧ cx t j.ctx = { c with
        lineage := some (j.linid, j.home), state := if (j.desc.getD 6 0).getLsbD 1 then .suspended else .sealed }) ∧
    (j.restore = true → j.home = s.pkg → j.phase = .done → ∀ ok, ∃ t, exec (.commitAck j.id ok) s = .next t ∧
      JobEnds s t j rest r k 0 ∧ cx t j.ctx = { c with
        lineage := some (cutBytes j.header 16 16, field j.header 40 1), state := .suspended, measure := cutBytes j.header 48 32,
        sxlat := BitVec.ofNat 64 (field j.header 128 8), sfqb := BitVec.ofNat 64 (field j.header 136 8) &&& 0xFFFFFFFFFFFFFFC0,
        sfqn := field j.header 144 8 % 2 ^ 17, sprq := BitVec.ofNat 64 (field j.header 152 8) &&& 0xFFFFFFFFFFFFFFCF,
        celb := BitVec.ofNat 64 (field j.header 160 8) &&& 0xFFFFFFFFFFFFFFC0,
        celn := field j.header 168 8 % 2 ^ 13, lupd := BitVec.ofNat 64 (field j.header 176 8) }) ∧
    (j.restore = false → j.home ≠ s.pkg → (∀ e ∈ s.lineages, e.2.lease ≠ some j.id) →
      (j.phase = .asked ∨ j.phase = .quoted → ∃ t, exec (.homeAnswerTimeout j.id) s = .next t ∧ JobEnds s t j rest r k (-6) ∧
        cx t j.ctx = { c with state := .suspended }) ∧
      (j.phase = .quoted → ∀ code ∈ [7, 8, 9, 11, 14], ∃ t, exec (.leaseRefused j.id code) s = .next t ∧
        JobEnds s t j rest r k (-code) ∧ cx t j.ctx = { c with state := .suspended }) ∧
      (j.phase = .committing → ∃ t, exec (.commitAck j.id false) s = .next t ∧ JobEnds s t j rest r k (-11) ∧
        cx t j.ctx = { c with state := .suspended }))) ∧
  (∀ lin, ∃ t, exec (.leaseExpiry lin) s = .next t ∧ { t with lineages := s.lineages } = s ∧
    ∀ e, (e ∈ t.lineages ↔ ∃ x ∈ s.lineages, e.1 = x.1 ∧
      e.2 = if x.1 = lin ∧ x.2.pendingWrite = none then { x.2 with lease := none, nextSealer := none } else x.2))

/-! ### Register writes, partitions, the host, links, management and resets -/

/-- Register writes with rows of their own, by a Ready thread above user privilege (R81, R84, R113, R114, R147, R148, R265,
R267): `SPSZ` rebuilds its core's array, so that what leaves the scratchpad part reads as zero and the L1 part is empty (the whole of it: the model's reading, log 51);
`SDEPTH` takes free depth rows and resets the vector state, or gives FAIL; `VT` cuts `VL` to the new maximum; `VRS` and `VDM` are
written once the vector queue is empty; `TSTAT` takes the tile hold, or puts the slot Off; `TM` to `TCC` are written once the
command queue is empty; clearing `AFCODE.V` makes a Faulted channel Idle; `XCTR` enables and disables the channel. -/
def Obligations.RegisterWriteEvents : Prop := ∀ (s : State) (val : Word),
  let core := s.cur / 16
  let C := co s core
  let T := me s
  let x15 := (th s (core * 16 + 15)).state
  T.state = .ready → T.priv ≠ .user →
  (val.toNat % 16 ≤ 8 → s.halos = [] → s.spads.wf = true → C.ch.state ≠ 2 → (∀ e ∈ s.cores, e.2.ch.state ≠ 2) →
    let n := val.toNat % 16
    ∃ t, exec (.spszWrite val) s = .next t ∧ (n = C.sp → t = s) ∧
      (n ≠ C.sp → co t core = { C with sp := n, l1 := [] } ∧ (∀ k, k ≠ core → co t k = co s k) ∧
        (∀ b < 0x80000, mget t.spads (core * 0x80000 + b) =
          if n * 0x10000 ≤ b then 0 else mget s.spads (core * 0x80000 + b)) ∧
        (∀ b, b / 0x80000 ≠ core → mget t.spads b = mget s.spads b) ∧
        { t with cores := s.cores, spads := s.spads, poison := s.poison } = s)) ∧
  (T.v.queue = [] → s.kernels = [] → s.vregs.wf = true → val.toNat % 64 ≤ 32 →
    let n := val.toNat % 64
    let owned := ((List.range 16).map fun i => (th s (core * 16 + i)).v.rows).sum
    owned ≤ 32 →
    (n + owned ≤ 32 + T.v.rows → ∃ t, exec (.sdepthWrite val) s = .next t ∧
      me t = { T with v := { T.v with sdepth := BitVec.ofNat 64 n, rows := n, masks := [], vl := 0, vrs := 0, vdm := 0 } } ∧
      OthersSame s t s.cur ∧ (∀ b, mget t.vregs b = if b / 2 ^ 17 = s.cur then 0 else mget s.vregs b) ∧ SameButVregs s t) ∧
    (32 + T.v.rows < n + owned → ∃ t, exec (.sdepthWrite val) s = .next t ∧
      MeBecomes s t { T with v := { T.v with sdepth := BitVec.ofNat 64 (256 + n) } })) ∧
  (val.toNat % 16 < 12 → val.toNat % 16 ≠ 7 → ∃ t, exec (.vtWrite val) s = .next t ∧
    MeBecomes s t { T with v := { T.v with vt := val.toNat % 16, vl := min T.v.vl (mvlOf T.v.rows (val.toNat % 16)) } }) ∧
  (T.v.queue = [] →
    (∃ t, exec (.vectorStateAccess 0x103 val) s = .next t ∧
      MeBecomes s t { T with v := { T.v with vrs := val &&& 0xC000000000001FFF } }) ∧
    ∃ t, exec (.vectorStateAccess 0x104 val) s = .next t ∧
      MeBecomes s t { T with v := { T.v with vdm := BitVec.ofNat 32 val.toNat } }) ∧
  (val.toNat % 4 ≠ 0 → C.town.hv = false → C.tq = [] →
    let n := val.toNat % 4
    ∃ t, exec (.tstatTakeHold val) s = .next t ∧
      co t core = { C with town := { hv := true, hold := s.cur % 16, hts := n, vmid := (cx s T.ctx).vmid },
                           cfg := if n = 1 then {} else C.cfg } ∧ (∀ k, k ≠ core → co t k = co s k) ∧
      me t = { T with ts := n } ∧ OthersSame s t s.cur ∧
      (∀ k, tget t.tiles k 0 = if n = 1 ∧ k / 2 ^ 15 = core then 0 else tget s.tiles k 0) ∧
      { t with cores := s.cores, threads := s.threads, tiles := s.tiles } = s) ∧
  (∃ t, exec .tstatWriteOff s = .next t ∧ MeBecomes s t { T with ts := 0 }) ∧
  (TileOpen s → C.tq = [] → C.town.hv = false →
    ∀ x ∈ [(0x180, val.toNat % 2 ^ 13 ≠ 0 ∧ val.toNat % 2 ^ 13 ≤ 128, { C.cfg with tm := val.toNat % 2 ^ 13 }),
           (0x181, val.toNat % 2 ^ 13 ≠ 0 ∧ val.toNat % 2 ^ 13 ≤ 64, { C.cfg with tn := val.toNat % 2 ^ 13 }),
           (0x182, val.toNat % 2 ^ 13 ≠ 0 ∧ val.toNat % 2 ^ 13 ≤ 4096, { C.cfg with tk := val.toNat % 2 ^ 13 }),
           (0x183, True, { C.cfg with tsa := val.toNat % 2 ^ 19 / 4 * 4 }),
           (0x184, True, { C.cfg with tsb := val.toNat % 2 ^ 19 / 4 * 4 }),
           (0x185, True, { C.cfg with tsca := val.toNat % 2 ^ 19 / 4 * 4 }),
           (0x186, True, { C.cfg with tscb := val.toNat % 2 ^ 19 / 4 * 4 }),
           (0x187, val.toNat % 8 ≠ 7, { C.cfg with tcc := val })],
      x.2.1 → ∃ t, exec (.tileConfigWrite x.1 val) s = .next t ∧ CoreBecomes s t core { C with cfg := x.2.2 }) ∧
  (C.ch.fault = none → C.tfault = none → ∃ t, exec .afcodeClear s = .next t ∧
    me t = { T with u := { T.u with afcode := T.u.afcode &&& BitVec.ofNat 64 (2 ^ 63 - 1) } } ∧ OthersSame s t s.cur ∧
    co t core = { C with ch := { C.ch with
      state := if s.cur % 16 = 15 ∧ C.ch.en = true ∧ C.ch.state = 4 then 1 else C.ch.state } } ∧
    (∀ k, k ≠ core → co t k = co s k) ∧ { t with threads := s.threads, cores := s.cores } = s) ∧
  (val.toNat / 16 % 8 ≠ 7 →
    (val.getLsbD 0 = true → x15 = .free ∨ x15 = .stopped → ∃ t, exec (.xctrEnable val) s = .next t ∧
      CoreBecomes s t core { C with ch := { C.ch with
        en := true, scope := val.toNat / 16 % 8, state := if C.ch.state = 0 then 1 else C.ch.state } }) ∧
    (val.getLsbD 0 = false → C.ch.state ≠ 2 → ∃ t, exec (.xctrDisable val) s = .next t ∧
      CoreBecomes s t core { C with ch := { C.ch with
        en := false, scope := val.toNat / 16 % 8, state := 0, req := none, fault := none } }))

/-- Configuration requests (R354-R357): a posted UPDATE or RESHAPE that the partition authority has not signed, whose SEQ is
old or whose AFFECT is not administered ends with −1; an UPDATE of a Marver weight writes it and ends with 0; a RESHAPE that
passes its checks closes the open queues of the Active partitions it affects, which are Quiescing, and a failing check ends it
with its status; when the cores of those partitions are drained, they are Reconfiguring; then the bench of its entry moves, its near counters are zero when
its partition changes, the partitions are Active while they have a bench, their queues open again, and the request ends with 0.
The steps that the rules leave open are the model's readings (logs 32 and 49). -/
def Obligations.PartitionRequests : Prop := ∀ (s : State) (h body sig : List Byte) (part r d idx v : Nat),
  let ones := 2 ^ 64 - 1
  let a := field h 16 4
  (PostedRequest s part h body sig r d →
    (field h 2 1 = 1 → ¬Authorised s part h body sig → ∃ t, exec .update s = .next t ∧ RequestEnds s t r d (-1) ones ones ∧
      { t.parts with busy := s.parts.busy, status := s.parts.status, req := s.parts.req } = s.parts ∧
      { t with mem := s.mem, parts := s.parts, tlb := s.tlb } = s) ∧
    (field h 2 1 = 1 → Authorised s part h body sig → OneEntry body 9 idx v → idx < 1024 → 1 ≤ v → v ≤ 15 →
      (partOfCore s idx < 24 → a.testBit (partOfCore s idx) = true) →
      (∀ q < 512, (qu s q).kind ≠ 0 → a.testBit (qu s q).part = true → queueBusy s q = false) →
      (∀ n < 256, a.testBit (cx s n).part = true →
        (cx s n).state ≠ .running ∧ (cx s n).state ≠ .sealing ∧ (cx s n).state ≠ .restoring) →
      ∃ t, exec .update s = .next t ∧ RequestEnds s t r d 0 ones ones ∧ t.parts.seqReq = field h 8 8 ∧
        co t idx = { co s idx with weight := v } ∧ (∀ k, k ≠ idx → co t k = co s k) ∧
        { t.parts with busy := s.parts.busy, status := s.parts.status, req := s.parts.req, seqReq := s.parts.seqReq } =
          s.parts ∧ { t with mem := s.mem, parts := s.parts, tlb := s.tlb, cores := s.cores } = s) ∧
    (field h 2 1 = 2 → ¬Authorised s part h body sig → ∃ t, exec .reshape s = .next t ∧ RequestEnds s t r d (-1) ones ones ∧
      { t.parts with busy := s.parts.busy, status := s.parts.status, req := s.parts.req } = s.parts ∧
      { t with mem := s.mem, parts := s.parts, tlb := s.tlb } = s) ∧
    (field h 2 1 = 2 → Authorised s part h body sig →
      let es := entriesIn s body
      (∀ st e dt, e < 2 ^ 64 → dt < 2 ^ 64 → checkRequest s (es.foldl writeEntry s) a true es = some (st, e, dt) →
        ∃ t, exec .reshape s = .next t ∧ RequestEnds s t r d st e dt ∧
          { t with mem := s.mem, parts := s.parts, tlb := s.tlb } = s) ∧
      (checkRequest s (es.foldl writeEntry s) a true es = none → ∃ t, exec .reshape s = .next t ∧
        t.parts.req = some (h, body, part) ∧ t.parts.seqReq = field h 8 8 ∧ t.parts.wdn0 = s.lehr.withdrawn.length ∧
        (∀ p, tget t.parts.state p .unused = if a.testBit p = true ∧ tget s.parts.state p .unused = .active then .quiescing
          else tget s.parts.state p .unused) ∧
        (∀ q, qu t q = if (qu s q).kind ≠ 0 ∧ a.testBit (qu s q).part = true ∧ (qu s q).closed = false
          then { qu s q with closed := true, quiesced := true } else qu s q) ∧
        { t.parts with state := s.parts.state, req := s.parts.req, seqReq := s.parts.seqReq, wdn0 := s.parts.wdn0 } = s.parts ∧
        { t with parts := s.parts, queues := s.queues } = s))) ∧
  (s.parts.req = some (h, body, part) → OneEntry body 1 idx v → idx < 128 → v < 24 → a < 2 ^ 24 → Still s → s.pkg < 256 →
    field h 40 8 = s.pkg * 2 ^ 40 + r → field h 48 8 = s.pkg * 2 ^ 40 + d → r + 32 ≤ 2 ^ 40 → d + 8 ≤ 2 ^ 40 →
    r % 8 = 0 → d % 8 = 0 → (d + 8 ≤ r ∨ r + 32 ≤ d) → field h 48 8 ≠ 0 → (co s 1024).ncbase.getLsbD 0 = false → h ≠ [] →
    (∀ e ∈ s.threads, e.2.stores = [] ∧ e.2.sent = [] ∧ e.2.precs = [] ∧ e.2.v.queue = []) → s.posts = [] → s.mcasts = [] →
    (∀ e ∈ s.cores, e.2.ch.state ≠ 2 ∧ e.2.tq = []) →
    ((∃ p, a.testBit p = true ∧ tget s.parts.state p .unused = .quiescing) → ∃ t, exec .reshapeDrainComplete s = .next t ∧
      (∀ p, tget t.parts.state p .unused = if a.testBit p = true ∧ tget s.parts.state p .unused = .quiescing then .reconfiguring
        else tget s.parts.state p .unused) ∧
      { t.parts with state := s.parts.state } = s.parts ∧ { t with parts := s.parts } = s) ∧
    ((∀ p, a.testBit p = true → tget s.parts.state p .unused ≠ .quiescing) →
    ∃ t, exec .reshapeDrainComplete s = .next t ∧ RequestEnds s t r d 0 ones ones ∧
      partOfBench t idx = v ∧ (∀ b, b ≠ idx → partOfBench t b = partOfBench s b) ∧
      (∀ k, tget t.near k 0 = if benchOf (k / 256) = idx ∧ partOfBench s idx ≠ v then 0 else tget s.near k 0) ∧
      (∀ p, a.testBit p = true → (∃ b < 128, partOfBench t b = p) → tget t.parts.state p .unused = .active) ∧
      (∀ p, a.testBit p = true → (∀ b < 128, partOfBench t b ≠ p) → tget t.parts.state p .unused = .unused) ∧
      (∀ p, a.testBit p = false → tget t.parts.state p .unused = tget s.parts.state p .unused) ∧
      { t.parts with bench := s.parts.bench, state := s.parts.state, busy := s.parts.busy, status := s.parts.status,
                     req := s.parts.req } = s.parts ∧
      (∀ q, qu t q = if (qu s q).quiesced = true then { qu s q with closed := false, quiesced := false } else qu s q) ∧
      { t with mem := s.mem, parts := s.parts, tlb := s.tlb, wcache := s.wcache, near := s.near, queues := s.queues } = s))

/-- Writes of the host into its windows (R203, R373, R374, R377, R378, R385): a counter-table entry is set when its target
lies in the partition of the function's context, and else dropped with kind 5; a counter-window write adds its value to the
counter of a valid entry; an arm fires at once when its threshold is met, and else is armed; a doorbell sets `HMSG` and, where
the partition routes code 3, that slot's pending bit; `HPRB`, `LEVB` and the power cap are set; a write that is not admitted, or
is narrower than 8 bytes, is dropped and recorded. A read of the host is given `LSTAT` and the Lehr's other registers, the ports'
`LSTS`, the drop counts of the Ethernet ports, a counter's value, an arm's state (1, −1 or 0) or the error record (R362, R380).
The fields of the error record are the model's reading (log 46). -/
def Obligations.HostWindows : Prop := ∀ (s : State) (vf ent n : Nat) (val : Word),
  let part := (cx s n).part
  let entry := tget (vfn s vf).table ent 0
  vf < 128 → ent < 512 →
  (∀ l, BoundVf s vf n → TableValue s part val l → ∃ t, exec (.counterTableWrite vf ent val) s = .next t ∧
    VfBecomes s t vf { vfn s vf with table := tput (vfn s vf).table ent val }) ∧
  (∀ c e, BoundVf s vf n → val.toNat = 2 ^ 63 + 2 ^ 62 + c * 256 + e → c < 1024 → e < 256 → partOfCore s c ≠ part →
    ∃ t, exec (.counterTableWrite vf ent val) s = .next t ∧
      HostDrops s t vf 5 (0x100000 + vf * 0x1000 + ent * 8) val) ∧
  (entry.getLsbD 62 = false → ∃ t, exec (.hostCounterWindowWrite vf ent val) s = .next t ∧
    HostDrops s t vf 2 (0x4000 + ent * 8) val) ∧
  (∀ l, BoundVf s vf n → TableValue s part entry l → CalmCounters s → s.mem.wf = true →
    (val.toNat < 2 ^ 62 → ∃ t, exec (.hostCounterWindowWrite vf ent val) s = .next t ∧
      counterAt t l = counterAt s l + val ∧ OnlyWord s t l 8 ∧
      { t with mem := s.mem, near := s.near, tlb := s.tlb } = s) ∧
    (2 ^ 62 ≤ val.toNat → ∃ t, exec (.hostCounterWindowWrite vf ent val) s = .next t ∧
      HostDrops s t vf 2 (0x4000 + ent * 8) val) ∧
    ((counterAt s l - val).msb = false → ∃ t, exec (.hostArmWrite vf ent val) s = .next t ∧
      VfBecomes { s with out := t.out } t vf { vfn s vf with arms := tput (vfn s vf).arms ent 0 } ∧
      t.out = { s.out with msix := s.out.msix ++ [(2 + vf, ent % 16)] }) ∧
    ((counterAt s l - val).msb = true → tableFull s l = false → ∃ t, exec (.hostArmWrite vf ent val) s = .next t ∧
      t.arms = [{ loc := l, thr := val, tid := none, vf := vf, ent := ent }] ∧
      VfBecomes { s with arms := t.arms } t vf { vfn s vf with arms := tput (vfn s vf).arms ent 1 })) ∧
  (entry.getLsbD 62 = false → ∃ t, exec (.hostArmWrite vf ent val) s = .next t ∧ HostDrops s t vf 2 (0x5000 + ent * 8) val) ∧
  (UnboundVf s vf → ∃ t, exec (.hostDoorbell vf val) s = .next t ∧ HostDrops s t vf 6 0x6040 val) ∧
  (BoundVf s vf n → ∃ t, exec (.hostDoorbell vf val) s = .next t ∧ cx t n = { cx s n with hmsg := val } ∧
    (∀ k, k ≠ n → cx t k = cx s k) ∧
    (∀ tid en, tget s.parts.route (part * 8 + 3) (0, false) = (tid, en) →
      (en = true → th t tid = { th s tid with sr := { (th s tid).sr with pend := (th s tid).sr.pend ||| 8#5 } } ∧
        OthersSame s t tid) ∧
      (en = false → t.threads = s.threads)) ∧
    { t with ctxs := s.ctxs, threads := s.threads } = s) ∧
  ((val.toNat % 16 = 0 ∨ (4 ≤ val.toNat % 16 ∧ val.toNat % 16 ≤ 12)) →
    (∃ t, exec (.hostRegisterWrite (2 + vf) 0x7000 val) s = .next t ∧
      VfBecomes s t vf { vfn s vf with hprb := BitVec.ofNat 64 (val.toNat / 64 * 64 + val.toNat % 16) }) ∧
    ∀ fn < 2, ∃ t, exec (.hostRegisterWrite fn 0x1010 val) s = .next t ∧
      t = { s with lehr := { s.lehr with levb := BitVec.ofNat 64 (val.toNat / 64 * 64 + val.toNat % 16) } }) ∧
  (∀ fn < 2, 500 ≤ val.toNat % 4096 → val.toNat % 4096 ≤ 3000 →
    ∃ t, exec (.hostRegisterWrite fn 0x1008 val) s = .next t ∧ t = { s with lehr := { s.lehr with lpcap := val.toNat % 4096 } }) ∧
  (let L := s.lehr
   let reads (fn off v : Nat) : Prop := hostRead s fn off 8 =
     { s with out := { s.out with reads := s.out.reads ++ [(fn, off, natBytes 8 v)] } }
   (∀ fn < 2, reads fn 0x1000 (L.pwr % 2 ^ 16 * 2 ^ 48 + L.tmax % 2 ^ 8 * 2 ^ 40 + L.wdn % 2 ^ 8 * 2 ^ 32 + L.freq % 2 ^ 12 * 2 ^ 4 +
        (if L.capt then 8 else 0) + (if L.thrt then 4 else 0) + (if L.fwok then 2 else 0) + (if L.rdy then 1 else 0)) ∧
      reads fn 0x1008 L.lpcap ∧ reads fn 0x1010 L.levb.toNat ∧ reads fn 0x1018 L.levp ∧
      ∀ p < 24, ∀ c, (portOf s p).state = [LState.down, .training, .up, .degraded, .retraining, .failed, .fenced].getD c .down →
        c < 7 → reads fn (0x2000 + p * 8) ((portOf s p).replay % 2 ^ 24 * 2 ^ 40 + (portOf s p).retrain % 2 ^ 16 * 2 ^ 24 +
          (portOf s p).lanes % 16 * 2 ^ 12 + c)) ∧
   (∀ fn < 2, ∀ p < 2, reads fn (0x3000 + p * 16) (tget s.eths p {}).rxdrop ∧
      reads fn (0x3008 + p * 16) (tget s.eths p {}).txdrop) ∧
   (∀ l, BoundVf s vf n → TableValue s part entry l → CalmCounters s → reads (2 + vf) (0x4000 + ent * 8) (counterAt s l).toNat) ∧
   (tget (vfn s vf).arms ent 0 = 1 → reads (2 + vf) (0x5000 + ent * 8) 1) ∧
   (tget (vfn s vf).arms ent 0 = 2 → reads (2 + vf) (0x5000 + ent * 8) (2 ^ 64 - 1)) ∧
   (tget (vfn s vf).arms ent 0 = 0 → reads (2 + vf) (0x5000 + ent * 8) 0) ∧
   reads (2 + vf) 0x8000 (vfn s vf).errcnt ∧ (∀ i < 4, reads (2 + vf) (0x8008 + 8 * i) (field (vfn s vf).errlast (8 * i) 8)) ∧
   reads (2 + vf) 0x9000 0 ∧
   ∀ data : List Byte, data.length < 8 →
     HostDrops s (hostNarrow s (2 + vf) (0x4000 + ent * 8) data) vf 2 (0x4000 + ent * 8) (BitVec.ofNat 64 (field data 0 data.length)) ∧
     HostDrops s (hostNarrow s (2 + vf) 0x6040 data) vf 6 0x6040 (BitVec.ofNat 64 (field data 0 data.length)))

/-- Link ports (R360-R363, R365, R366): the port's state table, with nobody waiting on a peer: a signed PORT message enables a
Down port, which trains, fences one that is not Fenced and brings a Failed or Fenced one Down by an unfence or a reset, and in
any other state gives −3; a port is Up with 8 locked lanes and Degraded with 4, Failed at the third attempt without a lock,
Retraining when a lane is lost, when management asks or when a flit is replayed 8 times; a request
without a path expires at its timeout unless a port of its route is Retraining; an access of a peer package is refused unless
the domain table names its partition, and else is performed at its home and answered, or answered that the home is withdrawn or
the word uncorrectable. LANES 0 in a port that is not up, the numbers of the accesses and of their answers and the kinds of the
waits without a path are the model's choices (logs 44 and 72). -/
def Obligations.Links : Prop := ∀ (s : State) (port : Nat),
  let x := portOf s port
  (port < 24 → ∀ m : List Byte, SignedBy s m → m.length = 74 → field m 8 1 = port →
    let answered (t : State) (st : Int) : Prop := Responds s t (statusBytes 0x24 (field m 4 4) st)
    let heard (t : State) : State := { s with out := t.out, parts := { s.parts with seqCmd := field m 4 4 } }
    (field m 9 1 = 0 → x.state = .down → ∃ t, exec (.portEnable m) s = .next t ∧ answered t 0 ∧
      PortBecomes (heard t) t port { x with state := .training, lanes := 0, attempts := 0 }) ∧
    (field m 9 1 = 1 → x.state ≠ .fenced → s.stuck = [] → s.waiters = [] → s.arms = [] → ∃ t, exec (.portFence m) s = .next t ∧
      answered t 0 ∧ PortBecomes (heard t) t port { x with state := .fenced, lanes := 0 }) ∧
    (∀ i ∈ [(Instr.portUnfence m, 2), (.portReset m, 3)], field m 9 1 = i.2 → x.state = .failed ∨ x.state = .fenced →
      ∃ t, exec i.1 s = .next t ∧ answered t 0 ∧
        PortBecomes (heard t) t port { x with state := .down, lanes := 0, attempts := 0 }) ∧
    (∀ i ∈ [(Instr.portEnable m, 0, [LState.down]), (.portFence m, 1, [.down, .training, .up, .degraded, .retraining, .failed]),
        (.portUnfence m, 2, [.failed, .fenced]), (.portReset m, 3, [.failed, .fenced])],
      field m 9 1 = i.2.1 → x.state ∉ i.2.2 → ∃ t, exec i.1 s = .next t ∧ answered t (-3) ∧ t = heard t)) ∧
  (port < 24 →
    (s.stuck = [] → s.waiters = [] → s.arms = [] →
      ∀ l ∈ [(8, LState.up), (4, .degraded)], x.state = .training ∨ x.state = .retraining →
      ∃ t, exec (.laneLock port l.1) s = .next t ∧
        PortBecomes s t port { x with state := l.2, lanes := l.1, attempts := 0 }) ∧
    (s.stuck = [] → s.waiters = [] → s.arms = [] →
      (x.state = .training ∨ x.state = .retraining → ∃ t, exec (.trainingTimeout port) s = .next t ∧
        PortBecomes s t port (if 3 ≤ x.attempts + 1 then { x with state := .failed, lanes := 0, attempts := 0 }
          else { x with attempts := x.attempts + 1 })) ∧
      (Carries x →
        (∀ lost, ∃ t, exec (.retrainTrigger port lost) s = .next t ∧ PortBecomes s t port
          { x with state := .retraining, lanes := 0, retrain := min (x.retrain + 1) (2 ^ 16 - 1), attempts := 0 }) ∧
        (∀ copies, ∃ t, exec (.flitCrcFail port copies) s = .next t ∧ PortBecomes s t port
          (if 8 ≤ copies then { x with state := .retraining, lanes := 0, replay := min (x.replay + copies) (2 ^ 24 - 1),
                                       retrain := min (x.retrain + 1) (2 ^ 16 - 1), attempts := 0 }
           else { x with replay := min (x.replay + copies) (2 ^ 24 - 1) }))))) ∧
  (∀ k, s.stuck = [k] →
    ((∀ p < 24, (portOf s p).state ≠ .retraining) →
      (k.kind ≠ 5 → k.kind ≠ 7 → ∃ t, exec (.pathTimeout 0) s = .next t ∧ t.stuck = [{ k with expired := true }] ∧
        { t with stuck := s.stuck } = s) ∧
      (k.kind = 5 → s.arms = [] → ∃ t, exec (.pathTimeout 0) s = .next t ∧ t.stuck = [] ∧ { t with stuck := s.stuck } = s) ∧
      (∀ line x, k.kind = 7 → k.addr.toNat = line → s.peerLines = [(line, x)] → x.dirty = true → x.ctxs = [] →
        homeReach s (.mem (line * 128)) = false → ∃ t, exec (.pathTimeout 0) s = .next t ∧ t.stuck = [] ∧ t.peerLines = [] ∧
          { t with stuck := s.stuck, peerLines := s.peerLines } = s)) ∧
    (∀ p < 24, (portOf s p).state = .retraining → (k.pkg = 256 ∨ (tget s.routes k.pkg 0).testBit p = true) →
      exec (.pathTimeout 0) s = .next s)) ∧
  (∀ src spart kind pa (data : List Byte),
    let off := pa % 2 ^ 40
    let part := (granule s (off / 2 ^ 30)).part
    let answers (t : State) (n : Nat) (bs : List Byte) : Prop := t.out = { s.out with remote := s.out.remote ++ [(src, n, bs)] }
    ((tget s.domains (part * 256 + src) 0).testBit spart = false → ∃ t, exec (.remoteAccessReceive src spart kind pa data) s =
      .next t ∧ answers t 1 [] ∧ { t with out := s.out } = s) ∧
    (part < 24 → (tget s.domains (part * 256 + src) 0).testBit spart = true →
      (homeGone s (.mem off) = true → ∃ t, exec (.remoteAccessReceive src spart kind pa data) s = .next t ∧ answers t 3 [] ∧
        { t with out := s.out } = s) ∧
      (kind ≠ 1 → homeGone s (.mem off) = false → s.halos = [] →
        poisoned s (.mem off) (if kind = 0 then data.length else 8) = true →
        ∃ t, exec (.remoteAccessReceive src spart kind pa data) s = .next t ∧ answers t 4 [] ∧
          { t with out := s.out } = s)) ∧
    (part < 24 → (tget s.domains (part * 256 + src) 0).testBit spart = true → CalmCounters s → s.mem.wf = true →
      off + max 8 data.length ≤ 2 ^ 40 →
      let old := mrd s.mem off 8
      let v := BitVec.ofNat 64 (field data 0 8)
      let only (t : State) (n : Nat) : Prop := (∀ b, b < off ∨ off + n ≤ b → mget t.mem b = mget s.mem b) ∧
        { t with mem := s.mem, tlb := s.tlb, out := s.out, poison := s.poison } = s
      (∃ t, exec (.remoteAccessReceive src spart 0 pa data) s = .next t ∧ answers t 0 (mbytes s.mem off data.length) ∧
        { t with out := s.out } = s) ∧
      (∃ t, exec (.remoteAccessReceive src spart 1 pa data) s = .next t ∧ answers t 0 [] ∧
        mbytes t.mem off data.length = data ∧ only t data.length) ∧
      (∃ t, exec (.remoteAccessReceive src spart 2 pa data) s = .next t ∧ answers t 0 (mbytes s.mem off 8) ∧
        BitVec.ofNat 64 (mrd t.mem off 8) = BitVec.ofNat 64 old + v ∧ only t 8) ∧
      (∃ t, exec (.remoteAccessReceive src spart 3 pa data) s = .next t ∧ answers t 0 [] ∧ mrd t.mem off 8 = 0 ∧ only t 8) ∧
      ((BitVec.ofNat 64 old - v).msb = false → ∃ t, exec (.remoteAccessReceive src spart 4 pa data) s = .next t ∧
        answers t 2 (mbytes s.mem off 8) ∧ { t with out := s.out } = s) ∧
      (∃ t, exec (.remoteAccessReceive src spart 24 pa data) s = .next t ∧ answers t 0 (mbytes s.mem off 8) ∧
        mrd t.mem off 8 = v.toNat ∧ only t 8)))

/-- Management (R359, R381, R382, R392): an MCTP control or SPDM request is answered and changes nothing else, GET_DIGESTS with
the digest of the chain, GET_MEASUREMENTS with the firmware measurement or a partition's configuration hash; a signed Fealman
message that is not signed by the authority, or whose SEQ is old, gives −1, and else its SEQ is kept and its command takes
effect, a PLAN once no request is in progress; an unknown command gives −4; the firmware messages open, fill and commit the staging buffer. The bodies of the MCTP and
SPDM answers and the certificate chain are free values, whose coding the spec leaves out (`Config.spdmBody`, `Config.certChain`,
log 43). -/
def Obligations.Management : Prop := ∀ (s : State) (m nonce : List Byte) (off len blk ctx : Nat),
  let seq := field m 4 4
  let b := cutBytes m 8 (m.length - 72)
  let mask := field b 4 4
  let accepts (i : Instr) (cmd : Nat) (u : State) : Prop := SignedBy s m →
    ∃ t, exec i s = .next t ∧ Responds s t (statusBytes cmd seq 0) ∧
      { t with out := s.out } = { u with parts := { u.parts with seqCmd := seq } }
  (∀ x ∈ [(Instr.mctpControl m, Config.spdmBody 0 m), (.getVersion, Config.spdmBody 0x84 []),
          (.getCapabilities m, Config.spdmBody 0xE1 m), (.negotiateAlgorithms m, Config.spdmBody 0xE3 m),
          (.getDigests, Config.spdmBody 0x81 [] ++ sha256 Config.certChain),
          (.getCertificate 0 off len, Config.spdmBody 0x82 (natBytes 1 0 ++ natBytes 2 off ++ natBytes 2 len) ++
            cutBytes Config.certChain off len),
          (.challenge 0 nonce, Config.spdmBody 0x83 (natBytes 1 0 ++ nonce) ++ nonce ++
            signAttest (Config.spdmBody 0x83 (natBytes 1 0 ++ nonce) ++ nonce))],
    ∃ t, exec x.1 s = .next t ∧ Responds s t x.2 ∧ { t with out := s.out } = s) ∧
  (256 ≤ ctx → ∃ t, exec (.getMeasurements blk nonce ctx) s = .next t ∧ { t with out := s.out } = s ∧
    Responds s t (Config.spdmBody 0xE0 (natBytes 1 blk ++ nonce) ++
      (if blk = 1 then s.lehr.fwMeasure else if 2 ≤ blk ∧ blk ≤ 25 then configHash s (blk - 2) else []))) ∧
  (m.length = 12 → ∃ t, exec (.fwOpen m) s = .next t ∧ Responds s t (statusBytes 0x01 seq 0) ∧
    { t with out := s.out } = { s with lehr := { s.lehr with staging := some (field m 8 4, []) } }) ∧
  (s.lehr.staging = none → ∀ k, ∃ t, exec (.fwData (m.take k) (m.drop k)) s = .next t ∧ Responds s t (statusBytes 0x02 seq (-3)) ∧
    { t with out := s.out } = s) ∧
  (∀ n buf, s.lehr.staging = some (n, buf) → buf.wf = true →
    let img := m.drop 12
    let at_ := field m 8 4
    (12 ≤ m.length → img.length ≤ 1024 → at_ + img.length ≤ n →
      ∀ k, ∃ t buf', exec (.fwData (m.take k) (m.drop k)) s = .next t ∧
      Responds s t (statusBytes 0x02 seq 0) ∧ mbytes buf' at_ img.length = img ∧
      (∀ k, k < at_ ∨ at_ + img.length ≤ k → mget buf' k = mget buf k) ∧
      { t with out := s.out } = { s with lehr := { s.lehr with staging := some (n, buf') } }) ∧
    (1024 < img.length ∨ n < at_ + img.length → ∀ k, ∃ t, exec (.fwData (m.take k) (m.drop k)) s = .next t ∧
      Responds s t (statusBytes 0x02 seq (-2)) ∧ { t with out := s.out } = s) ∧
    (64 < n → ecdsaVerify rootKey (mbytes buf 0 (n - 64)) (mbytes buf (n - 64) 64) = true → s.lehr.fwBad = false →
      ∃ t, exec (.fwCommit m) s = .next t ∧ Responds s t (statusBytes 0x03 seq 0) ∧
        { t with out := s.out } = { s with lehr := { s.lehr with staging := none, next := some (mbytes buf 0 n) } }) ∧
    (64 < n → ecdsaVerify rootKey (mbytes buf 0 (n - 64)) (mbytes buf (n - 64) 64) = true → s.lehr.fwBad = true →
      s.lehr.trained = true → ∃ t, exec (.fwCommit m) s = .next t ∧ Responds s t (statusBytes 0x03 seq 0) ∧
        { t with out := s.out } = { s with lehr := { s.lehr with
          staging := none, next := none, fwBad := false, fwMeasure := sha256 (mbytes buf 0 n), fwok := true, rdy := true,
          freq := 3000, tick0 := s.cycle } })) ∧
  (s.parts.key = none → m.length = 72 → ∃ t, exec (.authKey (true, m)) s = .next t ∧ Responds s t (statusBytes 0x10 seq 0) ∧
    { t with out := s.out } = { s with parts := { s.parts with key := some (cutBytes m 8 64) } }) ∧
  (s.parts.key = none → ∃ t, exec (.authKey (false, m)) s = .next t ∧ Responds s t (statusBytes 0x10 seq (-1)) ∧
    { t with out := s.out } = s) ∧
  (¬SignedBy s m → ∀ x ∈ [(Instr.pkgNum m, 0x20), (.route m, 0x21), (.domain m, 0x22), (.xgroup m, 0x23), (.portEnable m, 0x24),
      (.portFence m, 0x24), (.portUnfence m, 0x24), (.portReset m, 0x24), (.ethAddr m, 0x30), (.ethRule m, 0x31),
      (.partReset m, 0x40), (.coreReset m, 0x41)],
    ∃ t, exec x.1 s = .next t ∧ Responds s t (statusBytes x.2 seq (-1)) ∧ { t with out := s.out } = s) ∧
  (s.parts.key ≠ none → b.length = 64 →
    ∀ i3c, accepts (.authKey (i3c, m)) 0x10 { s with parts := { s.parts with key := some b } }) ∧
  (s.parts.busy = true → m ∉ s.parts.plans → exec (.plan m) s =
    .next { s with parts := { s.parts with plans := s.parts.plans ++ [m] } }) ∧
  (field m 0 1 ∉ [0x01, 0x02, 0x03, 0x10, 0x11, 0x20, 0x21, 0x22, 0x23, 0x24, 0x30, 0x31, 0x40, 0x41] →
    Responds s (unknownMessage s m) (statusBytes (field m 0 1) seq (-4)) ∧ { unknownMessage s m with out := s.out } = s) ∧
  (s.parts.busy = false → s.parts.plans = [] → b.length = 24 → (∀ x ∈ b, x.toNat < 24 ∨ x = 0xFF) → accepts (.plan m) 0x11
    { s with parts := { s.parts with adm := (List.range 24).map fun i => (i, min (field b i 1) 24) } }) ∧
  (b.length = 1 → (∀ p < 24, ¬Carries (portOf s p)) → accepts (.pkgNum m) 0x20 { s with pkg := field b 0 1 }) ∧
  (b.length = 8 → mask < 2 ^ 24 →
    (field b 1 3 = 0 → mask ≠ 0 → s.stuck = [] → s.waiters = [] → s.arms = [] →
      accepts (.route m) 0x21 { s with routes := tput s.routes (field b 0 1) mask }) ∧
    (field b 1 3 = 0 → mask = 0 → s.stuck = [] → s.waiters = [] → s.arms = [] →
      accepts (.route m) 0x21 { s with routes := tdel s.routes (field b 0 1) }) ∧
    (field b 0 1 < 24 → field b 2 2 = 0 →
      accepts (.domain m) 0x22 { s with domains := tput s.domains (field b 0 1 * 256 + field b 1 1) mask }) ∧
    (field b 3 1 = 0 → field b 2 1 = 1 ∨ (field b 2 1 = 2 ∧ field b 0 2 < 256) →
      accepts (.xgroup m) 0x23 { s with xgroups := tput s.xgroups (field b 2 1 * 2 ^ 16 + field b 0 2) mask })) ∧
  (∀ e, e = tget s.eths (field b 0 1) {} → field b 0 1 < 2 →
    (b.length = 24 → field b 1 1 < 4 → accepts (.ethAddr m) 0x30
      { s with eths := tput s.eths (field b 0 1) { e with
          mac := cutBytes b 2 6, ips := tput e.ips (field b 1 1) (cutBytes b 8 16) } }) ∧
    (b.length = 10 → field b 1 1 < 64 → field b 9 1 ≤ 1 → accepts (.ethRule m) 0x31
      { s with eths := tput s.eths (field b 0 1) { e with
          rules := tput e.rules (field b 1 1) (field b 2 2, field b 4 4, field b 8 1, field b 9 1 == 1) } }))

/-- Resets, sensors and faults (R340, R384, R386-R393): once the cores may run, over the cap the clock falls one step
and at 5 % below it, with no hot bench, rises one; a hot bench lowers it, with an event of kind 5, a hot stack is slowed, and a
trip is a package reset; a margin re-plan of an idle bench, a transient fault, a droop and a link port's fault are events; a
lasting error marks its word of memory or its near counter; a fault of a core withdraws its bench, which holds no thread; a core reset frees its slots,
its tile state and its channel; a package reset, and a power loss with a counter write done or not, keep the protected store
alone, and the verified firmware then makes the package ready, once the stacks pass training, while a bad image holds it until
another is there; a Lehr restart without a request or a job is an event; a
partition reset destroys its contexts and unbinds its queues.
What each reset keeps beyond the rules' words is the model's reading (log 48). -/
def Obligations.ResetsAndSensors : Prop := ∀ (s : State) (n a : Nat),
  let L := s.lehr
  let down := max 1500 (L.freq - 100)
  let up := min 3000 (L.freq + 100)
  let clock (f : Nat) (l : Lehr) : Lehr := { l with
    freq := f, tick0 := if f = L.freq then L.tick0 else s.cycle, ns0 := if f = L.freq then L.ns0 else nsNow s }
  let calm := s.waiters = [] ∧ s.arms = [] ∧ s.poison = [] ∧ s.hostLines = [] ∧ s.mem.wf = true
  (∀ watts, let P := { L with pwr := min watts (2 ^ 16 - 1) }
    (L.rdy = false → exec (.powerCapTick watts) s = .next { s with lehr := P }) ∧
    (calm → L.rdy = true → L.lpcap < watts → ∃ t, exec (.powerCapTick watts) s = .next t ∧ EventRecord s t 6 0xFFFF down ∧
      OnlyLehr s t ∧ t.lehr = clock down { P with
        capt := true, slowMarver := L.slowMarver || decide (L.freq ≤ 1500), levp := L.levp + 1 }) ∧
    (L.rdy = true → watts * 20 ≤ L.lpcap * 19 → L.hotBench = false → exec (.powerCapTick watts) s =
      .next { s with lehr := clock up { P with slowMarver := false, capt := L.capt && decide (up < 3000) } }) ∧
    (L.rdy = true → watts ≤ L.lpcap → L.lpcap * 19 < watts * 20 ∨ L.hotBench = true → exec (.powerCapTick watts) s =
      .next { s with lehr := P })) ∧
  (∀ bench bt stack st,
    let slow := if 95 ≤ st then (stack :: L.slowStacks).eraseDups else []
    (bt < 105 → st < 95 → exec (.thermalSample bench bt stack st) s =
      .next { s with lehr := { L with tmax := bt, hotBench := false, slowStacks := [], thrt := false } }) ∧
    (calm → bench < 128 → 105 ≤ bt → bt < 115 → st < 105 → NoContexts s (partOfBench s bench) →
      let f := if L.rdy then down else L.freq
      ∃ t, exec (.thermalSample bench bt stack st) s = .next t ∧ EventRecord s t 5 bench f ∧ OnlyLehr s t ∧
        t.lehr = clock f { L with tmax := bt, hotBench := true, slowStacks := slow, thrt := true, levp := L.levp + 1 }) ∧
    (calm → stack < 16 → bt < 105 → 95 ≤ st → st < 105 → ∃ t, exec (.thermalSample bench bt stack st) s = .next t ∧
      EventRecord s t 5 (128 + stack) L.freq ∧ OnlyLehr s t ∧ t.lehr = { L with
        tmax := bt, hotBench := false, slowStacks := slow, thrt := true, levp := L.levp + 1 }) ∧
    (calm → (s.ctxs.map (·.1)).Nodup → (115 ≤ bt ∨ 105 ≤ st) → L.levb.toNat % 16 = 0 → NoContexts s (partOfBench s bench) →
      ∃ t, exec (.thermalSample bench bt stack st) s = .next t ∧ PackageReset s t ∧ t.out = s.out)) ∧
  (∀ mv, n < 128 →
    (calm → NoContexts s (partOfBench s n) → (∀ c < 1024, benchOf c = n → (co s c).tq = [] ∧ (co s c).ch.state ≠ 2 ∧
        ∀ i < 16, (th s (c * 16 + i)).state ≠ .ready) →
      ∃ t, exec (.marginReplan n mv) s = .next t ∧ EventRecord s t 4 n mv ∧ OnlyLehr s t ∧
        t.lehr = { L with margins := tput L.margins n mv, levp := L.levp + 1 }) ∧
    (∀ c < 1024, benchOf c = n → ((co s c).tq ≠ [] ∨ (co s c).ch.state = 2 ∨ ∃ i < 16, (th s (c * 16 + i)).state = .ready) →
      exec (.marginReplan n mv) s = .next s)) ∧
  (calm → (∃ t, exec (.errorDetect 3 a false) s = .next t ∧ EventRecord s t 1 0xFFFF a ∧ OnlyLehr s t ∧
      t.lehr = { L with transients := L.transients + 1, levp := L.levp + 1 }) ∧
    (a < 24 → ∃ t, exec (.errorDetect 5 a true) s = .next t ∧ EventRecord s t 2 (256 + a) a ∧ OnlyLehr s t ∧
      t.lehr = { L with levp := L.levp + 1 }) ∧
    (n < 128 → NoContexts s (partOfBench s n) → EventRecord s (droop s n false) 1 n 0 ∧ OnlyLehr s (droop s n false) ∧
      (droop s n false).lehr = { L with transients := L.transients + 1, levp := L.levp + 1 })) ∧
  (calm → L.levb.toNat % 16 = 0 →
    (a < 2 ^ 40 → NoContexts s (granule s (a / 2 ^ 30)).part → ∃ t, exec (.errorDetect 0 a true) s = .next t ∧
      OnlyLehr s t ∧ t.poison = [.mem (a / 8 * 8)] ∧ t.mem = s.mem ∧ t.lehr = { L with levp := L.levp + 1 } ∧ t.out = s.out) ∧
    (a < 2 ^ 18 → NoContexts s (partOfCore s (a / 256)) → ∃ t, exec (.errorDetect 4 a true) s = .next t ∧
      OnlyLehr s t ∧ t.poison = [.near (a / 256) (a % 256)] ∧ t.mem = s.mem ∧ t.lehr = { L with levp := L.levp + 1 } ∧
      t.out = s.out)) ∧
  (calm → L.levb.toNat % 16 = 0 → n < 1024 → L.withdrawn = [] → NoContexts s (partOfCore s n) →
    (∀ e ∈ s.threads, benchOf (e.1 / 16) = benchOf n → e.2.state = .free) →
    (∀ c < 1024, benchOf c = benchOf n → (co s c).tq = []) →
    ∃ t, exec (.errorDetect 2 n true) s = .next t ∧ t.lehr.withdrawn = [benchOf n] ∧ t.lehr.wdn = L.wdn + 1 ∧
      t.lehr.levp = L.levp + 2 ∧ partOfBench t (benchOf n) = 24 ∧ (∀ k, k ≠ benchOf n → partOfBench t k = partOfBench s k) ∧
      (∀ c < 1024, benchOf c = benchOf n → (co t c).ch = {} ∧ (co t c).town = {} ∧ (co t c).tq = [] ∧ (co t c).cfg = {}) ∧
      (∀ c, benchOf c ≠ benchOf n → co t c = co s c) ∧ (∀ b, mget t.mem b = mget s.mem b)) ∧
  (∀ m : List Byte, SignedBy s m → m.length = 74 → field m 8 2 = n → n < 1024 → s.groups = [] → s.kernels = [] →
    s.lanes = [] → s.posts = [] → (co s n).tq = [] →
    ∃ t, exec (.coreReset m) s = .next t ∧ Responds s t (statusBytes 0x41 (field m 4 4) 0) ∧
    (∀ i < 16, (th t (n * 16 + i)).state = .free ∧ (th t (n * 16 + i)).ts = 0) ∧
    (co t n).ch = {} ∧ (co t n).town = {} ∧ (co t n).tq = [] ∧ (co t n).cfg = {} ∧ (co t n).base = s.cycle ∧
    (∀ k, k / 2 ^ 15 = n → tget t.tiles k 0 = 0) ∧ (∀ k, k / 2 ^ 15 ≠ n → tget t.tiles k 0 = tget s.tiles k 0) ∧
    (∀ c, c ≠ n → co t c = co s c) ∧ (∀ x, x / 16 ≠ n → (th t x).state = (th s x).state)) ∧
  (s.mem.wf = true → (s.ctxs.map (·.1)).Nodup →
    (L.trained = true → L.fwBad = false ∨ L.next ≠ none → ∃ t, exec (.packageReset true) s = .next t ∧ PackageReset s t ∧
      t.lehr.fwok = true ∧ t.lehr.rdy = true ∧ t.lehr.freq = 3000 ∧ t.out = s.out ∧
      t.lehr.fwMeasure = (match L.next with | some i => sha256 i | none => L.fwMeasure)) ∧
    (∃ t, exec (.packageReset false) s = .next t ∧ PackageReset s t ∧ t.lehr.fwok = false ∧ t.lehr.rdy = false ∧
      t.lehr.fwBad = true ∧ t.lehr.levp = 1 ∧ t.out = s.out) ∧
    (∀ new, ∃ t, exec (.powerLoss n new) s = .next t ∧ t.out = s.out ∧
      PackageReset { s with lineages := s.lineages.map fun e => (e.1,
        match e.2.pendingWrite with
        | some v => { e.2 with pendingWrite := none, counter := if e.1 = n ∧ new = true then v else e.2.counter }
        | none => e.2) } t)) ∧
  (L.rdy = false →
    (L.fwBad = true → L.next = none → ∀ ok, exec (.powerUp ok) s = .next s) ∧
    (L.fwBad = false ∨ L.next ≠ none →
      let l := match L.next with | some i => { L with next := none, fwBad := false, fwMeasure := sha256 i } | none => L
      (L.trained = true → exec (.powerUp true) s =
        .next { s with lehr := { l with fwok := true, rdy := true, freq := 3000, tick0 := s.cycle } }) ∧
      (L.trained = false → exec (.powerUp true) s = .next { s with lehr := { l with fwok := true } }))) ∧
  (calm → s.parts.req = none → s.jobs = [] → ∃ t, exec .lehrRestart s = .next t ∧ EventRecord s t 7 0xFFFF 0 ∧
    OnlyLehr s t ∧ t.lehr = { L with levp := L.levp + 1 }) ∧
  (∀ m c, SignedBy s m → m.length = 73 → field m 8 1 = n → n < 24 → s.ctxs = [(a, c)] → c.part = n → c.state = .loading ∨ c.state = .ready ∨ c.state = .running ∨
      c.state = .suspended ∨ c.state = .sealed → (∀ e ∈ s.threads, e.2.ctx ≠ a) → s.groups = [] → s.kernels = [] →
      s.pages = [] → s.pageWaits = [] → (∀ e ∈ s.queues, e.2.kind ≠ 2) → s.lanes = [] → (s.queues.map (·.1)).Nodup →
    ∃ t, exec (.partReset m) s = .next t ∧ Responds s t (statusBytes 0x40 (field m 4 4) 0) ∧
      cx t a = { c with state := .destroyed, suspending := none, destroying := false } ∧
      (∀ q, qu t q = if (qu s q).kind ≠ 0 ∧ (qu s q).part = n then {} else qu s q) ∧
      { t with ctxs := s.ctxs, queues := s.queues, out := s.out, parts := s.parts } = s ∧
      { t.parts with seqCmd := s.parts.seqCmd } = s.parts)

/-! ### Encodings, steps and reset -/

/-- Decode and encode agree for every instruction of the table that has a word (R20-R35): the word that the encoder writes for
a well-formed instruction has 32 bits and decodes to that instruction, with every operand at every value. -/
def Obligations.EncodeDecode : Prop := ∀ (i : Instr) (w : Nat),
  wellFormed i = true → encode i = some w → w < 2 ^ 32 ∧ decodeWord w = .ok i

/-- The decoder reads no word as an instruction whose own word is another one (R29, R31-R33): each word that decodes is the
encoding of what it decodes to, so no bit of it is left unread. -/
def Obligations.DecodeEncode : Prop := ∀ (i : Instr) (w : Nat), w < 2 ^ 32 → decodeWord w = .ok i → encode i = some w

/-- Words that the spec writes out decode to the instructions that they stand for (R28, R60-R70, R110-R140, R158-R172, R175-R200,
R205-R217, R228-R262, R265-R278, R283-R305, R308-R349). -/
def Obligations.SpelledWords : Prop := ∀ x ∈ [
    (0x40321400, Instr.add 3 4 5), (0x8A623101, .ldd 1 6 4 1 1), (0x0A722303, .ldw 0 7 4 3 3), (0x0C522002, .stw 0 5 4 2),
    (0x40A5B135, .div 10 11 12 5), (0x4231E004, .slli 3 3 4), (0x46429870, .fmaddS 4 5 6), (0x02500001, .sread 0 5 1),
    (0x02031002, .swrite 0 0 6 2), (0x4A219072, .vfma 2 3 4 1 0), (0x18042418, .ctrAdd 0 8 9 3),
    (0x185424E1, .ctrFadd 0 5 8 9 3 4), (0x18042812, .ctrWait 0 8 10 2), (0x18640084, .ctrRead 0 6 8 2),
    (0x24542402, .amoAdd 0 5 8 9 2), (0x24642891, .amoCas 0 6 8 10 1), (0x240424C0, .redFadd 0 8 9 0),
    (0x16842460, .tileMma 0 1 0 8 9 0), (0x1C600000, .grpNew 0 6 0), (0x1C930010, .grpJoin 0 9 6 0), (0x1C500040, .grpRank 0 5),
    (0x1C952C70, .grpMcast 0 9 10 11), (0x26001000, .fence 0 4), (0x22531C00, .qLaunch 0 5 6 7), (0x22952C20, .qTake 0 9 10 11),
    (0x2106B800, .xferCopy 0 16 13 14), (0x20530030, .xferFill 0 5 6 0), (0x28000000, .vmFence 0), (0x2A530000, .ctxSeal 0 5 6),
    (0x2A531C30, .ctxQuote 0 5 6 7)],
  decodeWord x.1 = .ok x.2

/-- A step whose act is the issue of a Ready hypervisor thread with nothing under way runs the bundle at its pc (R21, R29, R54,
R55): at the thread's next issue cycle the word in memory there is decoded and performed, and time advances a cycle; a word that
does not decode raises cause 0. Nothing else is added. -/
def Obligations.StepRunsWord : Prop := ∀ (s : State) (x c k w : Nat) (rest : List Act),
  LoneIssue s x c k rest → mrd s.mem k 4 = w → w < 2 ^ 31 → (k % 8 = 4 → mrd s.mem (k - 4) 4 < 2 ^ 31) →
  let s' := issued s x c rest
  (∀ i, decodeWord w = .ok i → match exec i s' with
    | .next t => ∃ u, step s = .next u ∧ AfterIssue t u
    | .fault f => step s = .fault f
    | .refused r => step s = .refused r) ∧
  ((∀ i, decodeWord w ≠ .ok i) → ∃ t u, TrapTo s' t 0 (BitVec.ofNat 64 w) ∧ step s = .next u ∧ AfterIssue t u)

/-- A pair is one bundle (R20-R24): when neither word meets a condition of R23, the control word is performed first and the
partner then reads the values from before the bundle; control goes where the control word sends it; a control word that
traps ends the bundle, and a partner that traps undoes the control word, with SLOT 1. -/
def Obligations.StepRunsPair : Prop := ∀ (s s1 : State) (x c k w v : Nat) (i j : Instr) (rest : List Act),
  LoneIssue s x c k rest → k % 8 = 0 → mrd s.mem k 4 = w → mrd s.mem (k + 4) 4 = v → 2 ^ 31 ≤ w → v < 2 ^ 31 →
  w / 2 ^ 25 % 64 < 32 → w / 2 ^ 25 % 64 ≠ 0 → 32 ≤ v / 2 ^ 25 % 64 → decodeWord w = .ok i → decodeWord v = .ok j →
  (genDest i = 0 ∨ genDest i ≠ genDest j) →
  let s' := issued s x c rest
  exec i s' = .next s1 →
  (∀ a y, s1.last = .trapped a y → ∃ u, step s = .next u ∧ AfterIssue s1 u) ∧
  (∀ s2, s1.last = .done →
    exec j (forPartner s' s1 (decide (w / 2 ^ 25 % 64 = 8)) false) = .next s2 →
    (s2.last = .done → ∃ u, step s = .next u ∧ AfterIssue (setMe s2 { me s2 with pc := (me s1).pc }) u) ∧
    (∀ a y, s2.last = .trapped a y → ∃ t u, TrapTo { s' with slot := 1 } t a y ∧ step s = .next u ∧ AfterIssue t u))

/-- The machine right after reset (R36, R38, R51, R79, R113, R148, R334, R350, R361): every slot is Free, every system register
reads the reset value of its table in every slot, every bench and granule is of partition 0, which alone is Active, every
context is Empty, every queue Unbound, every port Down, and the firmware is not yet up; and the memories have their canonical
form.
The values that no register map gives (the privilege, the context registers of an Empty context, empty tables and memories) are the model's choices (logs 1 and 2). -/
def Obligations.ResetState : Prop :=  MemoriesWf State.reset ∧
  ∀ x < 16384, let s := { State.reset with cur := x }
    (th s x).state = .free ∧
    (∀ i ∈ [0x000, 0x001, 0x002, 0x003, 0x004, 0x005, 0x008, 0x009, 0x00A, 0x00B, 0x00C, 0x00D, 0x100, 0x101, 0x102, 0x103, 0x104,
        0x105, 0x106, 0x107, 0x108, 0x183, 0x184, 0x185, 0x186, 0x187, 0x188, 0x189, 0x200, 0x201, 0x202, 0x280, 0x2C0, 0x2C1,
        0x300, 0x301, 0x800, 0x801, 0x802, 0x803, 0x804, 0x805, 0x806, 0x807, 0x880, 0x881, 0x883, 0x884, 0x8C1, 0x8C3, 0xC00,
        0xC01, 0xC02, 0xC03, 0xC04, 0xC05, 0xC06, 0xC07, 0xC80, 0xC81, 0xC82, 0xC83, 0xCC1, 0xCC2, 0xCC3],
      sregRead s i = some 0) ∧
    (∀ e ∈ [(0x006, BitVec.ofNat 64 (x % 16)), (0x180, 128), (0x181, 64), (0x182, 32), (0x281, BitVec.allOnes 64),
        (0x808, BitVec.allOnes 64), (0x882, 16), (0x8C2, 16)], sregRead s e.1 = some e.2) ∧
    (∀ b, partOfBench s b = 0) ∧ (∀ g, (granule s g).part = 0) ∧
    (∀ p, tget s.parts.state p .unused = if p = 0 then .active else .unused) ∧ (∀ n, (cx s n).state = .empty) ∧
    (∀ q, (qu s q).kind = 0) ∧ (∀ p, (portOf s p).state = .down) ∧ s.lehr.rdy = false ∧ s.parts.key = none

/-- Every step keeps the canonical form of the three memories: device, peer and host memory, the scratchpads and the vector
registers stay strictly rising lists without an entry that reads as an unlisted one. -/
def Obligations.StepKeepsMemory : Prop := ∀ (s t : State), MemoriesWf s → step s = .next t → MemoriesWf t
end

