-- ==== Sys2Proof/Laws/Memory.lean ====
section
/-! SUPPORT. The canonical form of a memory (addresses rise strictly, no listed byte is 0): every memory operation keeps
it, and in it a byte reads as last written. -/

namespace Sys2Proof.Machine

/-- Every listed address is at least `a`. -/
def Memory.from_ (a : Nat) (m : Memory) : Prop := ∀ e ∈ m, a ≤ e.1

theorem Memory.wf_nil : Memory.wf [] = true := rfl

/-- The form of a memory that lists something: its first byte is not 0, what follows lies above it and has the form. -/
theorem Memory.wf_cons (i : Nat) (c : Byte) (r : Memory) :
    Memory.wf ((i, c) :: r) = true ↔ c ≠ 0 ∧ Memory.from_ (i + 1) r ∧ Memory.wf r = true := by
  induction r generalizing i c with
  | nil => simp [Memory.wf, Memory.from_]
  | cons e r ih =>
    obtain ⟨j, d⟩ := e
    have hw : Memory.wf ((i, c) :: (j, d) :: r) = true ↔ c ≠ 0 ∧ i < j ∧ Memory.wf ((j, d) :: r) = true := by
      simp [Memory.wf, and_assoc]
    rw [hw]
    constructor
    · rintro ⟨h1, h2, h3⟩
      refine ⟨h1, ?_, h3⟩
      intro x hx
      rcases List.mem_cons.mp hx with rfl | hx
      · exact h2
      · have := ((ih j d).mp h3).2.1 x hx
        omega
    · rintro ⟨h1, h2, h3⟩
      exact ⟨h1, h2 (j, d) List.mem_cons_self, h3⟩

theorem Memory.from_mono {a b : Nat} {m : Memory} (h : Memory.from_ b m) (ab : a ≤ b) : Memory.from_ a m :=
  fun e he => Nat.le_trans ab (h e he)

theorem mget_from {m : Memory} {a b : Nat} (h : Memory.from_ b m) (ab : a < b) : mget m a = 0 := by
  cases m with
  | nil => rfl
  | cons e r =>
    obtain ⟨i, c⟩ := e
    have : b ≤ i := h (i, c) List.mem_cons_self
    rw [mget, if_pos (by omega)]

theorem Memory.from_mput {m : Memory} {a b : Nat} (h : Memory.from_ b m) (ab : b ≤ a) (v : Byte) :
    Memory.from_ b (mput m a v) := by
  induction m with
  | nil => unfold mput; split <;> simp [Memory.from_]; exact ab
  | cons e r ih =>
    obtain ⟨i, c⟩ := e
    have hi : b ≤ i := h (i, c) List.mem_cons_self
    have hr : Memory.from_ b r := fun e he => h e (List.mem_cons_of_mem _ he)
    unfold mput
    split
    · split
      · exact h
      · intro e he
        rcases List.mem_cons.mp he with rfl | he
        · exact ab
        · exact h e he
    · split
      · split
        · exact hr
        · intro e he
          rcases List.mem_cons.mp he with rfl | he
          · exact ab
          · exact hr e he
      · intro e he
        rcases List.mem_cons.mp he with rfl | he
        · exact hi
        · exact ih hr e he

/-- Writing a byte keeps the canonical form. -/
theorem mput_wf {m : Memory} (h : m.wf = true) (a : Nat) (v : Byte) : (mput m a v).wf = true := by
  induction m with
  | nil =>
    unfold mput
    split
    · rfl
    · rename_i hv
      exact (Memory.wf_cons _ _ _).mpr ⟨hv, by simp [Memory.from_], rfl⟩
  | cons e r ih =>
    obtain ⟨i, c⟩ := e
    obtain ⟨hc, hf, hr⟩ := (Memory.wf_cons _ _ _).mp h
    unfold mput
    split
    · split
      · exact h
      · rename_i hai hv
        refine (Memory.wf_cons _ _ _).mpr ⟨hv, ?_, h⟩
        intro e he
        rcases List.mem_cons.mp he with rfl | he
        · simp only; omega
        · have := hf e he
          omega
    · split
      · rename_i hai
        subst hai
        split
        · exact hr
        · rename_i hv
          exact (Memory.wf_cons _ _ _).mpr ⟨hv, hf, hr⟩
      · rename_i h1 h2
        exact (Memory.wf_cons _ _ _).mpr ⟨hc, Memory.from_mput hf (by omega) v, ih hr⟩

/-- Writing `n` bytes of a number keeps the canonical form. -/
theorem mwr_wf {m : Memory} (h : m.wf = true) (a n v : Nat) : (mwr m a n v).wf = true := by
  induction n generalizing m a v with
  | zero => exact h
  | succ n ih => exact ih (mput_wf h a _) (a + 1) (v / 256)

/-- Writing a list of bytes keeps the canonical form. -/
theorem mputs_wf {m : Memory} (h : m.wf = true) (a : Nat) (bs : List Byte) : (mputs m a bs).wf = true := by
  induction bs generalizing m a with
  | nil => exact h
  | cons b bs ih => exact ih (mput_wf h a b) (a + 1)

/-- Dropping entries keeps the canonical form. -/
theorem filter_wf {m : Memory} (h : m.wf = true) (p : Host.Cell → Bool) : Memory.wf (m.filter p) = true := by
  induction m with
  | nil => rfl
  | cons e r ih =>
    obtain ⟨i, c⟩ := e
    obtain ⟨hc, hf, hr⟩ := (Memory.wf_cons _ _ _).mp h
    rw [List.filter_cons]
    split
    · exact (Memory.wf_cons _ _ _).mpr ⟨hc, fun e he => hf e (List.mem_of_mem_filter he), ih hr⟩
    · exact ih hr

/-- Setting a run to zero keeps the canonical form. -/
theorem mzero_wf {m : Memory} (h : m.wf = true) (a n : Nat) : (mzero m a n).wf = true := filter_wf h _

/-- A byte written reads as written. -/
theorem mget_mput_same {m : Memory} (h : m.wf = true) (a : Nat) (v : Byte) : mget (mput m a v) a = v := by
  induction m with
  | nil =>
    unfold mput
    split
    · rename_i hv
      simp [mget, hv]
    · simp [mget]
  | cons e r ih =>
    obtain ⟨i, c⟩ := e
    obtain ⟨hc, hf, hr⟩ := (Memory.wf_cons _ _ _).mp h
    unfold mput
    split
    · rename_i hai
      split
      · rename_i hv
        simp [mget, hai, hv]
      · simp [mget]
    · split
      · rename_i hai
        subst hai
        split
        · rename_i hv
          rw [hv]
          exact mget_from hf (by omega)
        · simp [mget]
      · rename_i h1 h2
        simp [mget, h1, h2, ih hr]

/-- A byte written leaves every other byte. -/
theorem mget_mput_ne {m : Memory} (h : m.wf = true) {a b : Nat} (v : Byte) (hb : b ≠ a) :
    mget (mput m a v) b = mget m b := by
  induction m with
  | nil =>
    unfold mput
    split
    · rfl
    · simp [mget, hb]
  | cons e r ih =>
    obtain ⟨i, c⟩ := e
    obtain ⟨hc, hf, hr⟩ := (Memory.wf_cons _ _ _).mp h
    unfold mput
    split
    · rename_i hai
      split
      · rfl
      · simp only [mget]
        by_cases h1 : b < a
        · rw [if_pos h1, if_pos (by omega)]
        · rw [if_neg h1, if_neg hb]
    · split
      · rename_i hai
        subst hai
        have key : b < a ∨ a < b := by omega
        split
        · simp only [mget]
          rcases key with k | k
          · rw [if_pos k]
            exact mget_from hf (by omega)
          · rw [if_neg (by omega), if_neg (by omega)]
        · simp only [mget]
          rcases key with k | k
          · rw [if_pos k, if_pos k]
          · simp [Nat.not_lt_of_lt k, hb]
      · simp only [mget]
        split
        · rfl
        · split
          · rfl
          · exact ih hr

/-- A store of `n` bytes leaves every byte outside it. -/
theorem mget_mwr_out {m : Memory} (h : m.wf = true) (a n v : Nat) {b : Nat} (hb : b < a ∨ a + n ≤ b) :
    mget (mwr m a n v) b = mget m b := by
  induction n generalizing m a v with
  | zero => rfl
  | succ n ih =>
    rw [mwr, ih (mput_wf h a _) (a + 1) (v / 256) (by omega), mget_mput_ne h _ (by omega)]

/-- Byte `k` of a store of `n` bytes is byte `k` of the number, the least significant first. -/
theorem mget_mwr_in {m : Memory} (h : m.wf = true) (a n v : Nat) {k : Nat} (hk : k < n) :
    mget (mwr m a n v) (a + k) = BitVec.ofNat 8 (v / 256 ^ k) := by
  induction n generalizing m a v k with
  | zero => omega
  | succ n ih =>
    rw [mwr]
    cases k with
    | zero => rw [mget_mwr_out (mput_wf h a _) _ _ _ (by omega), Nat.add_zero, mget_mput_same h]; simp
    | succ k =>
      rw [show a + (k + 1) = a + 1 + k by omega, ih (mput_wf h a _) (a + 1) (v / 256) (by omega : k < n),
        Nat.div_div_eq_div_mul, pow_succ', ← Nat.pow_succ']

/-- A list of bytes written leaves every byte outside it. -/
theorem mget_mputs_out {m : Memory} (h : m.wf = true) (a : Nat) (bs : List Byte) {b : Nat}
    (hb : b < a ∨ a + bs.length ≤ b) : mget (mputs m a bs) b = mget m b := by
  induction bs generalizing m a with
  | nil => rfl
  | cons x bs ih =>
    simp only [List.length_cons] at hb
    rw [mputs, ih (mput_wf h a x) (a + 1) (by omega), mget_mput_ne h _ (by omega)]

/-- Two memories in canonical form that read alike are equal. -/
theorem mem_ext {m n : Memory} (hm : m.wf = true) (hn : n.wf = true) (h : ∀ a, mget m a = mget n a) : m = n := by
  induction m generalizing n with
  | nil =>
    cases n with
    | nil => rfl
    | cons e r =>
      obtain ⟨i, c⟩ := e
      have := h i
      simp [mget] at this
      exact absurd this.symm ((Memory.wf_cons _ _ _).mp hn).1
  | cons e r ih =>
    obtain ⟨i, c⟩ := e
    obtain ⟨hc, hf, hr⟩ := (Memory.wf_cons _ _ _).mp hm
    cases n with
    | nil =>
      have := h i
      simp [mget] at this
      exact absurd this hc
    | cons e r' =>
      obtain ⟨j, d⟩ := e
      obtain ⟨hd, hf', hr'⟩ := (Memory.wf_cons _ _ _).mp hn
      have hij : i = j := by
        rcases Nat.lt_trichotomy i j with k | k | k
        · have := h i
          simp [mget, k] at this
          exact absurd this hc
        · exact k
        · have := h j
          simp [mget, k] at this
          exact absurd this.symm hd
      subst hij
      have hcd : c = d := by simpa [mget] using h i
      subst hcd
      congr 1
      refine ih hr hr' fun a => ?_
      by_cases k : a ≤ i
      · rw [mget_from hf (by omega), mget_from hf' (by omega)]
      · have hr2 := h a
        have h1 : ¬a < i := by omega
        have h2 : a ≠ i := by omega
        simpa [mget, h1, h2] using hr2

end Sys2Proof.Machine
end

