-- ==== Sys2Proof/Laws/State.lean ====
section
/-! SUPPORT. What the record updates of the state leave alone: one lemma per field and update, and reading a record back
after it was written. Later proofs use these and never unfold an update. Written by a script from the fields of `State`. -/

namespace Sys2Proof.Machine

/-! ### `setTh` -/

@[simp] theorem setTh_agenda (s : State) (t : Nat) (x : Thread) : (setTh s t x).agenda = s.agenda := rfl
@[simp] theorem setTh_turn (s : State) (t : Nat) (x : Thread) : (setTh s t x).turn = s.turn := rfl
@[simp] theorem setTh_cycle (s : State) (t : Nat) (x : Thread) : (setTh s t x).cycle = s.cycle := rfl
@[simp] theorem setTh_cur (s : State) (t : Nat) (x : Thread) : (setTh s t x).cur = s.cur := rfl
@[simp] theorem setTh_slot (s : State) (t : Nat) (x : Thread) : (setTh s t x).slot = s.slot := rfl
@[simp] theorem setTh_snap (s : State) (t : Nat) (x : Thread) : (setTh s t x).snap = s.snap := rfl
@[simp] theorem setTh_last (s : State) (t : Nat) (x : Thread) : (setTh s t x).last = s.last := rfl
@[simp] theorem setTh_fresh (s : State) (t : Nat) (x : Thread) : (setTh s t x).fresh = s.fresh := rfl
@[simp] theorem setTh_order (s : State) (t : Nat) (x : Thread) : (setTh s t x).order = s.order := rfl
@[simp] theorem setTh_cores (s : State) (t : Nat) (x : Thread) : (setTh s t x).cores = s.cores := rfl
@[simp] theorem setTh_benches (s : State) (t : Nat) (x : Thread) : (setTh s t x).benches = s.benches := rfl
@[simp] theorem setTh_mem (s : State) (t : Nat) (x : Thread) : (setTh s t x).mem = s.mem := rfl
@[simp] theorem setTh_spads (s : State) (t : Nat) (x : Thread) : (setTh s t x).spads = s.spads := rfl
@[simp] theorem setTh_vregs (s : State) (t : Nat) (x : Thread) : (setTh s t x).vregs = s.vregs := rfl
@[simp] theorem setTh_tiles (s : State) (t : Nat) (x : Thread) : (setTh s t x).tiles = s.tiles := rfl
@[simp] theorem setTh_near (s : State) (t : Nat) (x : Thread) : (setTh s t x).near = s.near := rfl
@[simp] theorem setTh_poison (s : State) (t : Nat) (x : Thread) : (setTh s t x).poison = s.poison := rfl
@[simp] theorem setTh_peerLines (s : State) (t : Nat) (x : Thread) : (setTh s t x).peerLines = s.peerLines := rfl
@[simp] theorem setTh_dv (s : State) (t : Nat) (x : Thread) : (setTh s t x).dv = s.dv := rfl
@[simp] theorem setTh_posts (s : State) (t : Nat) (x : Thread) : (setTh s t x).posts = s.posts := rfl
@[simp] theorem setTh_waiters (s : State) (t : Nat) (x : Thread) : (setTh s t x).waiters = s.waiters := rfl
@[simp] theorem setTh_arms (s : State) (t : Nat) (x : Thread) : (setTh s t x).arms = s.arms := rfl
@[simp] theorem setTh_wakes (s : State) (t : Nat) (x : Thread) : (setTh s t x).wakes = s.wakes := rfl
@[simp] theorem setTh_groups (s : State) (t : Nat) (x : Thread) : (setTh s t x).groups = s.groups := rfl
@[simp] theorem setTh_halos (s : State) (t : Nat) (x : Thread) : (setTh s t x).halos = s.halos := rfl
@[simp] theorem setTh_haloDirty (s : State) (t : Nat) (x : Thread) : (setTh s t x).haloDirty = s.haloDirty := rfl
@[simp] theorem setTh_haloRep (s : State) (t : Nat) (x : Thread) : (setTh s t x).haloRep = s.haloRep := rfl
@[simp] theorem setTh_mcasts (s : State) (t : Nat) (x : Thread) : (setTh s t x).mcasts = s.mcasts := rfl
@[simp] theorem setTh_streams (s : State) (t : Nat) (x : Thread) : (setTh s t x).streams = s.streams := rfl
@[simp] theorem setTh_hostLines (s : State) (t : Nat) (x : Thread) : (setTh s t x).hostLines = s.hostLines := rfl
@[simp] theorem setTh_tlb (s : State) (t : Nat) (x : Thread) : (setTh s t x).tlb = s.tlb := rfl
@[simp] theorem setTh_wcache (s : State) (t : Nat) (x : Thread) : (setTh s t x).wcache = s.wcache := rfl
@[simp] theorem setTh_uses (s : State) (t : Nat) (x : Thread) : (setTh s t x).uses = s.uses := rfl
@[simp] theorem setTh_pages (s : State) (t : Nat) (x : Thread) : (setTh s t x).pages = s.pages := rfl
@[simp] theorem setTh_pageGens (s : State) (t : Nat) (x : Thread) : (setTh s t x).pageGens = s.pageGens := rfl
@[simp] theorem setTh_pageWaits (s : State) (t : Nat) (x : Thread) : (setTh s t x).pageWaits = s.pageWaits := rfl
@[simp] theorem setTh_queues (s : State) (t : Nat) (x : Thread) : (setTh s t x).queues = s.queues := rfl
@[simp] theorem setTh_lanes (s : State) (t : Nat) (x : Thread) : (setTh s t x).lanes = s.lanes := rfl
@[simp] theorem setTh_models (s : State) (t : Nat) (x : Thread) : (setTh s t x).models = s.models := rfl
@[simp] theorem setTh_kernels (s : State) (t : Nat) (x : Thread) : (setTh s t x).kernels = s.kernels := rfl
@[simp] theorem setTh_kernelNext (s : State) (t : Nat) (x : Thread) : (setTh s t x).kernelNext = s.kernelNext := rfl
@[simp] theorem setTh_served (s : State) (t : Nat) (x : Thread) : (setTh s t x).served = s.served := rfl
@[simp] theorem setTh_heads (s : State) (t : Nat) (x : Thread) : (setTh s t x).heads = s.heads := rfl
@[simp] theorem setTh_ctxs (s : State) (t : Nat) (x : Thread) : (setTh s t x).ctxs = s.ctxs := rfl
@[simp] theorem setTh_jobs (s : State) (t : Nat) (x : Thread) : (setTh s t x).jobs = s.jobs := rfl
@[simp] theorem setTh_jobNext (s : State) (t : Nat) (x : Thread) : (setTh s t x).jobNext = s.jobNext := rfl
@[simp] theorem setTh_lineages (s : State) (t : Nat) (x : Thread) : (setTh s t x).lineages = s.lineages := rfl
@[simp] theorem setTh_nonces (s : State) (t : Nat) (x : Thread) : (setTh s t x).nonces = s.nonces := rfl
@[simp] theorem setTh_parts (s : State) (t : Nat) (x : Thread) : (setTh s t x).parts = s.parts := rfl
@[simp] theorem setTh_pkg (s : State) (t : Nat) (x : Thread) : (setTh s t x).pkg = s.pkg := rfl
@[simp] theorem setTh_ports (s : State) (t : Nat) (x : Thread) : (setTh s t x).ports = s.ports := rfl
@[simp] theorem setTh_routes (s : State) (t : Nat) (x : Thread) : (setTh s t x).routes = s.routes := rfl
@[simp] theorem setTh_domains (s : State) (t : Nat) (x : Thread) : (setTh s t x).domains = s.domains := rfl
@[simp] theorem setTh_xgroups (s : State) (t : Nat) (x : Thread) : (setTh s t x).xgroups = s.xgroups := rfl
@[simp] theorem setTh_stuck (s : State) (t : Nat) (x : Thread) : (setTh s t x).stuck = s.stuck := rfl
@[simp] theorem setTh_lateRecs (s : State) (t : Nat) (x : Thread) : (setTh s t x).lateRecs = s.lateRecs := rfl
@[simp] theorem setTh_denied (s : State) (t : Nat) (x : Thread) : (setTh s t x).denied = s.denied := rfl
@[simp] theorem setTh_vfs (s : State) (t : Nat) (x : Thread) : (setTh s t x).vfs = s.vfs := rfl
@[simp] theorem setTh_fences (s : State) (t : Nat) (x : Thread) : (setTh s t x).fences = s.fences := rfl
@[simp] theorem setTh_hdm (s : State) (t : Nat) (x : Thread) : (setTh s t x).hdm = s.hdm := rfl
@[simp] theorem setTh_eths (s : State) (t : Nat) (x : Thread) : (setTh s t x).eths = s.eths := rfl
@[simp] theorem setTh_lehr (s : State) (t : Nat) (x : Thread) : (setTh s t x).lehr = s.lehr := rfl
@[simp] theorem setTh_out (s : State) (t : Nat) (x : Thread) : (setTh s t x).out = s.out := rfl

/-! ### `setCo` -/

@[simp] theorem setCo_agenda (s : State) (c : Nat) (x : Core) : (setCo s c x).agenda = s.agenda := rfl
@[simp] theorem setCo_turn (s : State) (c : Nat) (x : Core) : (setCo s c x).turn = s.turn := rfl
@[simp] theorem setCo_cycle (s : State) (c : Nat) (x : Core) : (setCo s c x).cycle = s.cycle := rfl
@[simp] theorem setCo_cur (s : State) (c : Nat) (x : Core) : (setCo s c x).cur = s.cur := rfl
@[simp] theorem setCo_slot (s : State) (c : Nat) (x : Core) : (setCo s c x).slot = s.slot := rfl
@[simp] theorem setCo_snap (s : State) (c : Nat) (x : Core) : (setCo s c x).snap = s.snap := rfl
@[simp] theorem setCo_last (s : State) (c : Nat) (x : Core) : (setCo s c x).last = s.last := rfl
@[simp] theorem setCo_fresh (s : State) (c : Nat) (x : Core) : (setCo s c x).fresh = s.fresh := rfl
@[simp] theorem setCo_order (s : State) (c : Nat) (x : Core) : (setCo s c x).order = s.order := rfl
@[simp] theorem setCo_threads (s : State) (c : Nat) (x : Core) : (setCo s c x).threads = s.threads := rfl
@[simp] theorem setCo_benches (s : State) (c : Nat) (x : Core) : (setCo s c x).benches = s.benches := rfl
@[simp] theorem setCo_mem (s : State) (c : Nat) (x : Core) : (setCo s c x).mem = s.mem := rfl
@[simp] theorem setCo_spads (s : State) (c : Nat) (x : Core) : (setCo s c x).spads = s.spads := rfl
@[simp] theorem setCo_vregs (s : State) (c : Nat) (x : Core) : (setCo s c x).vregs = s.vregs := rfl
@[simp] theorem setCo_tiles (s : State) (c : Nat) (x : Core) : (setCo s c x).tiles = s.tiles := rfl
@[simp] theorem setCo_near (s : State) (c : Nat) (x : Core) : (setCo s c x).near = s.near := rfl
@[simp] theorem setCo_poison (s : State) (c : Nat) (x : Core) : (setCo s c x).poison = s.poison := rfl
@[simp] theorem setCo_peerLines (s : State) (c : Nat) (x : Core) : (setCo s c x).peerLines = s.peerLines := rfl
@[simp] theorem setCo_dv (s : State) (c : Nat) (x : Core) : (setCo s c x).dv = s.dv := rfl
@[simp] theorem setCo_posts (s : State) (c : Nat) (x : Core) : (setCo s c x).posts = s.posts := rfl
@[simp] theorem setCo_waiters (s : State) (c : Nat) (x : Core) : (setCo s c x).waiters = s.waiters := rfl
@[simp] theorem setCo_arms (s : State) (c : Nat) (x : Core) : (setCo s c x).arms = s.arms := rfl
@[simp] theorem setCo_wakes (s : State) (c : Nat) (x : Core) : (setCo s c x).wakes = s.wakes := rfl
@[simp] theorem setCo_groups (s : State) (c : Nat) (x : Core) : (setCo s c x).groups = s.groups := rfl
@[simp] theorem setCo_halos (s : State) (c : Nat) (x : Core) : (setCo s c x).halos = s.halos := rfl
@[simp] theorem setCo_haloDirty (s : State) (c : Nat) (x : Core) : (setCo s c x).haloDirty = s.haloDirty := rfl
@[simp] theorem setCo_haloRep (s : State) (c : Nat) (x : Core) : (setCo s c x).haloRep = s.haloRep := rfl
@[simp] theorem setCo_mcasts (s : State) (c : Nat) (x : Core) : (setCo s c x).mcasts = s.mcasts := rfl
@[simp] theorem setCo_streams (s : State) (c : Nat) (x : Core) : (setCo s c x).streams = s.streams := rfl
@[simp] theorem setCo_hostLines (s : State) (c : Nat) (x : Core) : (setCo s c x).hostLines = s.hostLines := rfl
@[simp] theorem setCo_tlb (s : State) (c : Nat) (x : Core) : (setCo s c x).tlb = s.tlb := rfl
@[simp] theorem setCo_wcache (s : State) (c : Nat) (x : Core) : (setCo s c x).wcache = s.wcache := rfl
@[simp] theorem setCo_uses (s : State) (c : Nat) (x : Core) : (setCo s c x).uses = s.uses := rfl
@[simp] theorem setCo_pages (s : State) (c : Nat) (x : Core) : (setCo s c x).pages = s.pages := rfl
@[simp] theorem setCo_pageGens (s : State) (c : Nat) (x : Core) : (setCo s c x).pageGens = s.pageGens := rfl
@[simp] theorem setCo_pageWaits (s : State) (c : Nat) (x : Core) : (setCo s c x).pageWaits = s.pageWaits := rfl
@[simp] theorem setCo_queues (s : State) (c : Nat) (x : Core) : (setCo s c x).queues = s.queues := rfl
@[simp] theorem setCo_lanes (s : State) (c : Nat) (x : Core) : (setCo s c x).lanes = s.lanes := rfl
@[simp] theorem setCo_models (s : State) (c : Nat) (x : Core) : (setCo s c x).models = s.models := rfl
@[simp] theorem setCo_kernels (s : State) (c : Nat) (x : Core) : (setCo s c x).kernels = s.kernels := rfl
@[simp] theorem setCo_kernelNext (s : State) (c : Nat) (x : Core) : (setCo s c x).kernelNext = s.kernelNext := rfl
@[simp] theorem setCo_served (s : State) (c : Nat) (x : Core) : (setCo s c x).served = s.served := rfl
@[simp] theorem setCo_heads (s : State) (c : Nat) (x : Core) : (setCo s c x).heads = s.heads := rfl
@[simp] theorem setCo_ctxs (s : State) (c : Nat) (x : Core) : (setCo s c x).ctxs = s.ctxs := rfl
@[simp] theorem setCo_jobs (s : State) (c : Nat) (x : Core) : (setCo s c x).jobs = s.jobs := rfl
@[simp] theorem setCo_jobNext (s : State) (c : Nat) (x : Core) : (setCo s c x).jobNext = s.jobNext := rfl
@[simp] theorem setCo_lineages (s : State) (c : Nat) (x : Core) : (setCo s c x).lineages = s.lineages := rfl
@[simp] theorem setCo_nonces (s : State) (c : Nat) (x : Core) : (setCo s c x).nonces = s.nonces := rfl
@[simp] theorem setCo_parts (s : State) (c : Nat) (x : Core) : (setCo s c x).parts = s.parts := rfl
@[simp] theorem setCo_pkg (s : State) (c : Nat) (x : Core) : (setCo s c x).pkg = s.pkg := rfl
@[simp] theorem setCo_ports (s : State) (c : Nat) (x : Core) : (setCo s c x).ports = s.ports := rfl
@[simp] theorem setCo_routes (s : State) (c : Nat) (x : Core) : (setCo s c x).routes = s.routes := rfl
@[simp] theorem setCo_domains (s : State) (c : Nat) (x : Core) : (setCo s c x).domains = s.domains := rfl
@[simp] theorem setCo_xgroups (s : State) (c : Nat) (x : Core) : (setCo s c x).xgroups = s.xgroups := rfl
@[simp] theorem setCo_stuck (s : State) (c : Nat) (x : Core) : (setCo s c x).stuck = s.stuck := rfl
@[simp] theorem setCo_lateRecs (s : State) (c : Nat) (x : Core) : (setCo s c x).lateRecs = s.lateRecs := rfl
@[simp] theorem setCo_denied (s : State) (c : Nat) (x : Core) : (setCo s c x).denied = s.denied := rfl
@[simp] theorem setCo_vfs (s : State) (c : Nat) (x : Core) : (setCo s c x).vfs = s.vfs := rfl
@[simp] theorem setCo_fences (s : State) (c : Nat) (x : Core) : (setCo s c x).fences = s.fences := rfl
@[simp] theorem setCo_hdm (s : State) (c : Nat) (x : Core) : (setCo s c x).hdm = s.hdm := rfl
@[simp] theorem setCo_eths (s : State) (c : Nat) (x : Core) : (setCo s c x).eths = s.eths := rfl
@[simp] theorem setCo_lehr (s : State) (c : Nat) (x : Core) : (setCo s c x).lehr = s.lehr := rfl
@[simp] theorem setCo_out (s : State) (c : Nat) (x : Core) : (setCo s c x).out = s.out := rfl

/-! ### `setCx` -/

@[simp] theorem setCx_agenda (s : State) (n : Nat) (x : Ctx) : (setCx s n x).agenda = s.agenda := rfl
@[simp] theorem setCx_turn (s : State) (n : Nat) (x : Ctx) : (setCx s n x).turn = s.turn := rfl
@[simp] theorem setCx_cycle (s : State) (n : Nat) (x : Ctx) : (setCx s n x).cycle = s.cycle := rfl
@[simp] theorem setCx_cur (s : State) (n : Nat) (x : Ctx) : (setCx s n x).cur = s.cur := rfl
@[simp] theorem setCx_slot (s : State) (n : Nat) (x : Ctx) : (setCx s n x).slot = s.slot := rfl
@[simp] theorem setCx_snap (s : State) (n : Nat) (x : Ctx) : (setCx s n x).snap = s.snap := rfl
@[simp] theorem setCx_last (s : State) (n : Nat) (x : Ctx) : (setCx s n x).last = s.last := rfl
@[simp] theorem setCx_fresh (s : State) (n : Nat) (x : Ctx) : (setCx s n x).fresh = s.fresh := rfl
@[simp] theorem setCx_order (s : State) (n : Nat) (x : Ctx) : (setCx s n x).order = s.order := rfl
@[simp] theorem setCx_threads (s : State) (n : Nat) (x : Ctx) : (setCx s n x).threads = s.threads := rfl
@[simp] theorem setCx_cores (s : State) (n : Nat) (x : Ctx) : (setCx s n x).cores = s.cores := rfl
@[simp] theorem setCx_benches (s : State) (n : Nat) (x : Ctx) : (setCx s n x).benches = s.benches := rfl
@[simp] theorem setCx_mem (s : State) (n : Nat) (x : Ctx) : (setCx s n x).mem = s.mem := rfl
@[simp] theorem setCx_spads (s : State) (n : Nat) (x : Ctx) : (setCx s n x).spads = s.spads := rfl
@[simp] theorem setCx_vregs (s : State) (n : Nat) (x : Ctx) : (setCx s n x).vregs = s.vregs := rfl
@[simp] theorem setCx_tiles (s : State) (n : Nat) (x : Ctx) : (setCx s n x).tiles = s.tiles := rfl
@[simp] theorem setCx_near (s : State) (n : Nat) (x : Ctx) : (setCx s n x).near = s.near := rfl
@[simp] theorem setCx_poison (s : State) (n : Nat) (x : Ctx) : (setCx s n x).poison = s.poison := rfl
@[simp] theorem setCx_peerLines (s : State) (n : Nat) (x : Ctx) : (setCx s n x).peerLines = s.peerLines := rfl
@[simp] theorem setCx_dv (s : State) (n : Nat) (x : Ctx) : (setCx s n x).dv = s.dv := rfl
@[simp] theorem setCx_posts (s : State) (n : Nat) (x : Ctx) : (setCx s n x).posts = s.posts := rfl
@[simp] theorem setCx_waiters (s : State) (n : Nat) (x : Ctx) : (setCx s n x).waiters = s.waiters := rfl
@[simp] theorem setCx_arms (s : State) (n : Nat) (x : Ctx) : (setCx s n x).arms = s.arms := rfl
@[simp] theorem setCx_wakes (s : State) (n : Nat) (x : Ctx) : (setCx s n x).wakes = s.wakes := rfl
@[simp] theorem setCx_groups (s : State) (n : Nat) (x : Ctx) : (setCx s n x).groups = s.groups := rfl
@[simp] theorem setCx_halos (s : State) (n : Nat) (x : Ctx) : (setCx s n x).halos = s.halos := rfl
@[simp] theorem setCx_haloDirty (s : State) (n : Nat) (x : Ctx) : (setCx s n x).haloDirty = s.haloDirty := rfl
@[simp] theorem setCx_haloRep (s : State) (n : Nat) (x : Ctx) : (setCx s n x).haloRep = s.haloRep := rfl
@[simp] theorem setCx_mcasts (s : State) (n : Nat) (x : Ctx) : (setCx s n x).mcasts = s.mcasts := rfl
@[simp] theorem setCx_streams (s : State) (n : Nat) (x : Ctx) : (setCx s n x).streams = s.streams := rfl
@[simp] theorem setCx_hostLines (s : State) (n : Nat) (x : Ctx) : (setCx s n x).hostLines = s.hostLines := rfl
@[simp] theorem setCx_tlb (s : State) (n : Nat) (x : Ctx) : (setCx s n x).tlb = s.tlb := rfl
@[simp] theorem setCx_wcache (s : State) (n : Nat) (x : Ctx) : (setCx s n x).wcache = s.wcache := rfl
@[simp] theorem setCx_uses (s : State) (n : Nat) (x : Ctx) : (setCx s n x).uses = s.uses := rfl
@[simp] theorem setCx_pages (s : State) (n : Nat) (x : Ctx) : (setCx s n x).pages = s.pages := rfl
@[simp] theorem setCx_pageGens (s : State) (n : Nat) (x : Ctx) : (setCx s n x).pageGens = s.pageGens := rfl
@[simp] theorem setCx_pageWaits (s : State) (n : Nat) (x : Ctx) : (setCx s n x).pageWaits = s.pageWaits := rfl
@[simp] theorem setCx_queues (s : State) (n : Nat) (x : Ctx) : (setCx s n x).queues = s.queues := rfl
@[simp] theorem setCx_lanes (s : State) (n : Nat) (x : Ctx) : (setCx s n x).lanes = s.lanes := rfl
@[simp] theorem setCx_models (s : State) (n : Nat) (x : Ctx) : (setCx s n x).models = s.models := rfl
@[simp] theorem setCx_kernels (s : State) (n : Nat) (x : Ctx) : (setCx s n x).kernels = s.kernels := rfl
@[simp] theorem setCx_kernelNext (s : State) (n : Nat) (x : Ctx) : (setCx s n x).kernelNext = s.kernelNext := rfl
@[simp] theorem setCx_served (s : State) (n : Nat) (x : Ctx) : (setCx s n x).served = s.served := rfl
@[simp] theorem setCx_heads (s : State) (n : Nat) (x : Ctx) : (setCx s n x).heads = s.heads := rfl
@[simp] theorem setCx_jobs (s : State) (n : Nat) (x : Ctx) : (setCx s n x).jobs = s.jobs := rfl
@[simp] theorem setCx_jobNext (s : State) (n : Nat) (x : Ctx) : (setCx s n x).jobNext = s.jobNext := rfl
@[simp] theorem setCx_lineages (s : State) (n : Nat) (x : Ctx) : (setCx s n x).lineages = s.lineages := rfl
@[simp] theorem setCx_nonces (s : State) (n : Nat) (x : Ctx) : (setCx s n x).nonces = s.nonces := rfl
@[simp] theorem setCx_parts (s : State) (n : Nat) (x : Ctx) : (setCx s n x).parts = s.parts := rfl
@[simp] theorem setCx_pkg (s : State) (n : Nat) (x : Ctx) : (setCx s n x).pkg = s.pkg := rfl
@[simp] theorem setCx_ports (s : State) (n : Nat) (x : Ctx) : (setCx s n x).ports = s.ports := rfl
@[simp] theorem setCx_routes (s : State) (n : Nat) (x : Ctx) : (setCx s n x).routes = s.routes := rfl
@[simp] theorem setCx_domains (s : State) (n : Nat) (x : Ctx) : (setCx s n x).domains = s.domains := rfl
@[simp] theorem setCx_xgroups (s : State) (n : Nat) (x : Ctx) : (setCx s n x).xgroups = s.xgroups := rfl
@[simp] theorem setCx_stuck (s : State) (n : Nat) (x : Ctx) : (setCx s n x).stuck = s.stuck := rfl
@[simp] theorem setCx_lateRecs (s : State) (n : Nat) (x : Ctx) : (setCx s n x).lateRecs = s.lateRecs := rfl
@[simp] theorem setCx_denied (s : State) (n : Nat) (x : Ctx) : (setCx s n x).denied = s.denied := rfl
@[simp] theorem setCx_vfs (s : State) (n : Nat) (x : Ctx) : (setCx s n x).vfs = s.vfs := rfl
@[simp] theorem setCx_fences (s : State) (n : Nat) (x : Ctx) : (setCx s n x).fences = s.fences := rfl
@[simp] theorem setCx_hdm (s : State) (n : Nat) (x : Ctx) : (setCx s n x).hdm = s.hdm := rfl
@[simp] theorem setCx_eths (s : State) (n : Nat) (x : Ctx) : (setCx s n x).eths = s.eths := rfl
@[simp] theorem setCx_lehr (s : State) (n : Nat) (x : Ctx) : (setCx s n x).lehr = s.lehr := rfl
@[simp] theorem setCx_out (s : State) (n : Nat) (x : Ctx) : (setCx s n x).out = s.out := rfl

/-! ### `setKn` -/

@[simp] theorem setKn_agenda (s : State) (n : Nat) (x : Kernel) : (setKn s n x).agenda = s.agenda := rfl
@[simp] theorem setKn_turn (s : State) (n : Nat) (x : Kernel) : (setKn s n x).turn = s.turn := rfl
@[simp] theorem setKn_cycle (s : State) (n : Nat) (x : Kernel) : (setKn s n x).cycle = s.cycle := rfl
@[simp] theorem setKn_cur (s : State) (n : Nat) (x : Kernel) : (setKn s n x).cur = s.cur := rfl
@[simp] theorem setKn_slot (s : State) (n : Nat) (x : Kernel) : (setKn s n x).slot = s.slot := rfl
@[simp] theorem setKn_snap (s : State) (n : Nat) (x : Kernel) : (setKn s n x).snap = s.snap := rfl
@[simp] theorem setKn_last (s : State) (n : Nat) (x : Kernel) : (setKn s n x).last = s.last := rfl
@[simp] theorem setKn_fresh (s : State) (n : Nat) (x : Kernel) : (setKn s n x).fresh = s.fresh := rfl
@[simp] theorem setKn_order (s : State) (n : Nat) (x : Kernel) : (setKn s n x).order = s.order := rfl
@[simp] theorem setKn_threads (s : State) (n : Nat) (x : Kernel) : (setKn s n x).threads = s.threads := rfl
@[simp] theorem setKn_cores (s : State) (n : Nat) (x : Kernel) : (setKn s n x).cores = s.cores := rfl
@[simp] theorem setKn_benches (s : State) (n : Nat) (x : Kernel) : (setKn s n x).benches = s.benches := rfl
@[simp] theorem setKn_mem (s : State) (n : Nat) (x : Kernel) : (setKn s n x).mem = s.mem := rfl
@[simp] theorem setKn_spads (s : State) (n : Nat) (x : Kernel) : (setKn s n x).spads = s.spads := rfl
@[simp] theorem setKn_vregs (s : State) (n : Nat) (x : Kernel) : (setKn s n x).vregs = s.vregs := rfl
@[simp] theorem setKn_tiles (s : State) (n : Nat) (x : Kernel) : (setKn s n x).tiles = s.tiles := rfl
@[simp] theorem setKn_near (s : State) (n : Nat) (x : Kernel) : (setKn s n x).near = s.near := rfl
@[simp] theorem setKn_poison (s : State) (n : Nat) (x : Kernel) : (setKn s n x).poison = s.poison := rfl
@[simp] theorem setKn_peerLines (s : State) (n : Nat) (x : Kernel) : (setKn s n x).peerLines = s.peerLines := rfl
@[simp] theorem setKn_dv (s : State) (n : Nat) (x : Kernel) : (setKn s n x).dv = s.dv := rfl
@[simp] theorem setKn_posts (s : State) (n : Nat) (x : Kernel) : (setKn s n x).posts = s.posts := rfl
@[simp] theorem setKn_waiters (s : State) (n : Nat) (x : Kernel) : (setKn s n x).waiters = s.waiters := rfl
@[simp] theorem setKn_arms (s : State) (n : Nat) (x : Kernel) : (setKn s n x).arms = s.arms := rfl
@[simp] theorem setKn_wakes (s : State) (n : Nat) (x : Kernel) : (setKn s n x).wakes = s.wakes := rfl
@[simp] theorem setKn_groups (s : State) (n : Nat) (x : Kernel) : (setKn s n x).groups = s.groups := rfl
@[simp] theorem setKn_halos (s : State) (n : Nat) (x : Kernel) : (setKn s n x).halos = s.halos := rfl
@[simp] theorem setKn_haloDirty (s : State) (n : Nat) (x : Kernel) : (setKn s n x).haloDirty = s.haloDirty := rfl
@[simp] theorem setKn_haloRep (s : State) (n : Nat) (x : Kernel) : (setKn s n x).haloRep = s.haloRep := rfl
@[simp] theorem setKn_mcasts (s : State) (n : Nat) (x : Kernel) : (setKn s n x).mcasts = s.mcasts := rfl
@[simp] theorem setKn_streams (s : State) (n : Nat) (x : Kernel) : (setKn s n x).streams = s.streams := rfl
@[simp] theorem setKn_hostLines (s : State) (n : Nat) (x : Kernel) : (setKn s n x).hostLines = s.hostLines := rfl
@[simp] theorem setKn_tlb (s : State) (n : Nat) (x : Kernel) : (setKn s n x).tlb = s.tlb := rfl
@[simp] theorem setKn_wcache (s : State) (n : Nat) (x : Kernel) : (setKn s n x).wcache = s.wcache := rfl
@[simp] theorem setKn_uses (s : State) (n : Nat) (x : Kernel) : (setKn s n x).uses = s.uses := rfl
@[simp] theorem setKn_pages (s : State) (n : Nat) (x : Kernel) : (setKn s n x).pages = s.pages := rfl
@[simp] theorem setKn_pageGens (s : State) (n : Nat) (x : Kernel) : (setKn s n x).pageGens = s.pageGens := rfl
@[simp] theorem setKn_pageWaits (s : State) (n : Nat) (x : Kernel) : (setKn s n x).pageWaits = s.pageWaits := rfl
@[simp] theorem setKn_queues (s : State) (n : Nat) (x : Kernel) : (setKn s n x).queues = s.queues := rfl
@[simp] theorem setKn_lanes (s : State) (n : Nat) (x : Kernel) : (setKn s n x).lanes = s.lanes := rfl
@[simp] theorem setKn_models (s : State) (n : Nat) (x : Kernel) : (setKn s n x).models = s.models := rfl
@[simp] theorem setKn_kernelNext (s : State) (n : Nat) (x : Kernel) : (setKn s n x).kernelNext = s.kernelNext := rfl
@[simp] theorem setKn_served (s : State) (n : Nat) (x : Kernel) : (setKn s n x).served = s.served := rfl
@[simp] theorem setKn_heads (s : State) (n : Nat) (x : Kernel) : (setKn s n x).heads = s.heads := rfl
@[simp] theorem setKn_ctxs (s : State) (n : Nat) (x : Kernel) : (setKn s n x).ctxs = s.ctxs := rfl
@[simp] theorem setKn_jobs (s : State) (n : Nat) (x : Kernel) : (setKn s n x).jobs = s.jobs := rfl
@[simp] theorem setKn_jobNext (s : State) (n : Nat) (x : Kernel) : (setKn s n x).jobNext = s.jobNext := rfl
@[simp] theorem setKn_lineages (s : State) (n : Nat) (x : Kernel) : (setKn s n x).lineages = s.lineages := rfl
@[simp] theorem setKn_nonces (s : State) (n : Nat) (x : Kernel) : (setKn s n x).nonces = s.nonces := rfl
@[simp] theorem setKn_parts (s : State) (n : Nat) (x : Kernel) : (setKn s n x).parts = s.parts := rfl
@[simp] theorem setKn_pkg (s : State) (n : Nat) (x : Kernel) : (setKn s n x).pkg = s.pkg := rfl
@[simp] theorem setKn_ports (s : State) (n : Nat) (x : Kernel) : (setKn s n x).ports = s.ports := rfl
@[simp] theorem setKn_routes (s : State) (n : Nat) (x : Kernel) : (setKn s n x).routes = s.routes := rfl
@[simp] theorem setKn_domains (s : State) (n : Nat) (x : Kernel) : (setKn s n x).domains = s.domains := rfl
@[simp] theorem setKn_xgroups (s : State) (n : Nat) (x : Kernel) : (setKn s n x).xgroups = s.xgroups := rfl
@[simp] theorem setKn_stuck (s : State) (n : Nat) (x : Kernel) : (setKn s n x).stuck = s.stuck := rfl
@[simp] theorem setKn_lateRecs (s : State) (n : Nat) (x : Kernel) : (setKn s n x).lateRecs = s.lateRecs := rfl
@[simp] theorem setKn_denied (s : State) (n : Nat) (x : Kernel) : (setKn s n x).denied = s.denied := rfl
@[simp] theorem setKn_vfs (s : State) (n : Nat) (x : Kernel) : (setKn s n x).vfs = s.vfs := rfl
@[simp] theorem setKn_fences (s : State) (n : Nat) (x : Kernel) : (setKn s n x).fences = s.fences := rfl
@[simp] theorem setKn_hdm (s : State) (n : Nat) (x : Kernel) : (setKn s n x).hdm = s.hdm := rfl
@[simp] theorem setKn_eths (s : State) (n : Nat) (x : Kernel) : (setKn s n x).eths = s.eths := rfl
@[simp] theorem setKn_lehr (s : State) (n : Nat) (x : Kernel) : (setKn s n x).lehr = s.lehr := rfl
@[simp] theorem setKn_out (s : State) (n : Nat) (x : Kernel) : (setKn s n x).out = s.out := rfl

/-! ### `setQu` -/

@[simp] theorem setQu_agenda (s : State) (n : Nat) (x : Queue) : (setQu s n x).agenda = s.agenda := rfl
@[simp] theorem setQu_turn (s : State) (n : Nat) (x : Queue) : (setQu s n x).turn = s.turn := rfl
@[simp] theorem setQu_cycle (s : State) (n : Nat) (x : Queue) : (setQu s n x).cycle = s.cycle := rfl
@[simp] theorem setQu_cur (s : State) (n : Nat) (x : Queue) : (setQu s n x).cur = s.cur := rfl
@[simp] theorem setQu_slot (s : State) (n : Nat) (x : Queue) : (setQu s n x).slot = s.slot := rfl
@[simp] theorem setQu_snap (s : State) (n : Nat) (x : Queue) : (setQu s n x).snap = s.snap := rfl
@[simp] theorem setQu_last (s : State) (n : Nat) (x : Queue) : (setQu s n x).last = s.last := rfl
@[simp] theorem setQu_fresh (s : State) (n : Nat) (x : Queue) : (setQu s n x).fresh = s.fresh := rfl
@[simp] theorem setQu_order (s : State) (n : Nat) (x : Queue) : (setQu s n x).order = s.order := rfl
@[simp] theorem setQu_threads (s : State) (n : Nat) (x : Queue) : (setQu s n x).threads = s.threads := rfl
@[simp] theorem setQu_cores (s : State) (n : Nat) (x : Queue) : (setQu s n x).cores = s.cores := rfl
@[simp] theorem setQu_benches (s : State) (n : Nat) (x : Queue) : (setQu s n x).benches = s.benches := rfl
@[simp] theorem setQu_mem (s : State) (n : Nat) (x : Queue) : (setQu s n x).mem = s.mem := rfl
@[simp] theorem setQu_spads (s : State) (n : Nat) (x : Queue) : (setQu s n x).spads = s.spads := rfl
@[simp] theorem setQu_vregs (s : State) (n : Nat) (x : Queue) : (setQu s n x).vregs = s.vregs := rfl
@[simp] theorem setQu_tiles (s : State) (n : Nat) (x : Queue) : (setQu s n x).tiles = s.tiles := rfl
@[simp] theorem setQu_near (s : State) (n : Nat) (x : Queue) : (setQu s n x).near = s.near := rfl
@[simp] theorem setQu_poison (s : State) (n : Nat) (x : Queue) : (setQu s n x).poison = s.poison := rfl
@[simp] theorem setQu_peerLines (s : State) (n : Nat) (x : Queue) : (setQu s n x).peerLines = s.peerLines := rfl
@[simp] theorem setQu_dv (s : State) (n : Nat) (x : Queue) : (setQu s n x).dv = s.dv := rfl
@[simp] theorem setQu_posts (s : State) (n : Nat) (x : Queue) : (setQu s n x).posts = s.posts := rfl
@[simp] theorem setQu_waiters (s : State) (n : Nat) (x : Queue) : (setQu s n x).waiters = s.waiters := rfl
@[simp] theorem setQu_arms (s : State) (n : Nat) (x : Queue) : (setQu s n x).arms = s.arms := rfl
@[simp] theorem setQu_wakes (s : State) (n : Nat) (x : Queue) : (setQu s n x).wakes = s.wakes := rfl
@[simp] theorem setQu_groups (s : State) (n : Nat) (x : Queue) : (setQu s n x).groups = s.groups := rfl
@[simp] theorem setQu_halos (s : State) (n : Nat) (x : Queue) : (setQu s n x).halos = s.halos := rfl
@[simp] theorem setQu_haloDirty (s : State) (n : Nat) (x : Queue) : (setQu s n x).haloDirty = s.haloDirty := rfl
@[simp] theorem setQu_haloRep (s : State) (n : Nat) (x : Queue) : (setQu s n x).haloRep = s.haloRep := rfl
@[simp] theorem setQu_mcasts (s : State) (n : Nat) (x : Queue) : (setQu s n x).mcasts = s.mcasts := rfl
@[simp] theorem setQu_streams (s : State) (n : Nat) (x : Queue) : (setQu s n x).streams = s.streams := rfl
@[simp] theorem setQu_hostLines (s : State) (n : Nat) (x : Queue) : (setQu s n x).hostLines = s.hostLines := rfl
@[simp] theorem setQu_tlb (s : State) (n : Nat) (x : Queue) : (setQu s n x).tlb = s.tlb := rfl
@[simp] theorem setQu_wcache (s : State) (n : Nat) (x : Queue) : (setQu s n x).wcache = s.wcache := rfl
@[simp] theorem setQu_uses (s : State) (n : Nat) (x : Queue) : (setQu s n x).uses = s.uses := rfl
@[simp] theorem setQu_pages (s : State) (n : Nat) (x : Queue) : (setQu s n x).pages = s.pages := rfl
@[simp] theorem setQu_pageGens (s : State) (n : Nat) (x : Queue) : (setQu s n x).pageGens = s.pageGens := rfl
@[simp] theorem setQu_pageWaits (s : State) (n : Nat) (x : Queue) : (setQu s n x).pageWaits = s.pageWaits := rfl
@[simp] theorem setQu_lanes (s : State) (n : Nat) (x : Queue) : (setQu s n x).lanes = s.lanes := rfl
@[simp] theorem setQu_models (s : State) (n : Nat) (x : Queue) : (setQu s n x).models = s.models := rfl
@[simp] theorem setQu_kernels (s : State) (n : Nat) (x : Queue) : (setQu s n x).kernels = s.kernels := rfl
@[simp] theorem setQu_kernelNext (s : State) (n : Nat) (x : Queue) : (setQu s n x).kernelNext = s.kernelNext := rfl
@[simp] theorem setQu_served (s : State) (n : Nat) (x : Queue) : (setQu s n x).served = s.served := rfl
@[simp] theorem setQu_heads (s : State) (n : Nat) (x : Queue) : (setQu s n x).heads = s.heads := rfl
@[simp] theorem setQu_ctxs (s : State) (n : Nat) (x : Queue) : (setQu s n x).ctxs = s.ctxs := rfl
@[simp] theorem setQu_jobs (s : State) (n : Nat) (x : Queue) : (setQu s n x).jobs = s.jobs := rfl
@[simp] theorem setQu_jobNext (s : State) (n : Nat) (x : Queue) : (setQu s n x).jobNext = s.jobNext := rfl
@[simp] theorem setQu_lineages (s : State) (n : Nat) (x : Queue) : (setQu s n x).lineages = s.lineages := rfl
@[simp] theorem setQu_nonces (s : State) (n : Nat) (x : Queue) : (setQu s n x).nonces = s.nonces := rfl
@[simp] theorem setQu_parts (s : State) (n : Nat) (x : Queue) : (setQu s n x).parts = s.parts := rfl
@[simp] theorem setQu_pkg (s : State) (n : Nat) (x : Queue) : (setQu s n x).pkg = s.pkg := rfl
@[simp] theorem setQu_ports (s : State) (n : Nat) (x : Queue) : (setQu s n x).ports = s.ports := rfl
@[simp] theorem setQu_routes (s : State) (n : Nat) (x : Queue) : (setQu s n x).routes = s.routes := rfl
@[simp] theorem setQu_domains (s : State) (n : Nat) (x : Queue) : (setQu s n x).domains = s.domains := rfl
@[simp] theorem setQu_xgroups (s : State) (n : Nat) (x : Queue) : (setQu s n x).xgroups = s.xgroups := rfl
@[simp] theorem setQu_stuck (s : State) (n : Nat) (x : Queue) : (setQu s n x).stuck = s.stuck := rfl
@[simp] theorem setQu_lateRecs (s : State) (n : Nat) (x : Queue) : (setQu s n x).lateRecs = s.lateRecs := rfl
@[simp] theorem setQu_denied (s : State) (n : Nat) (x : Queue) : (setQu s n x).denied = s.denied := rfl
@[simp] theorem setQu_vfs (s : State) (n : Nat) (x : Queue) : (setQu s n x).vfs = s.vfs := rfl
@[simp] theorem setQu_fences (s : State) (n : Nat) (x : Queue) : (setQu s n x).fences = s.fences := rfl
@[simp] theorem setQu_hdm (s : State) (n : Nat) (x : Queue) : (setQu s n x).hdm = s.hdm := rfl
@[simp] theorem setQu_eths (s : State) (n : Nat) (x : Queue) : (setQu s n x).eths = s.eths := rfl
@[simp] theorem setQu_lehr (s : State) (n : Nat) (x : Queue) : (setQu s n x).lehr = s.lehr := rfl
@[simp] theorem setQu_out (s : State) (n : Nat) (x : Queue) : (setQu s n x).out = s.out := rfl

/-! ### `setVf` -/

@[simp] theorem setVf_agenda (s : State) (n : Nat) (x : Vf) : (setVf s n x).agenda = s.agenda := rfl
@[simp] theorem setVf_turn (s : State) (n : Nat) (x : Vf) : (setVf s n x).turn = s.turn := rfl
@[simp] theorem setVf_cycle (s : State) (n : Nat) (x : Vf) : (setVf s n x).cycle = s.cycle := rfl
@[simp] theorem setVf_cur (s : State) (n : Nat) (x : Vf) : (setVf s n x).cur = s.cur := rfl
@[simp] theorem setVf_slot (s : State) (n : Nat) (x : Vf) : (setVf s n x).slot = s.slot := rfl
@[simp] theorem setVf_snap (s : State) (n : Nat) (x : Vf) : (setVf s n x).snap = s.snap := rfl
@[simp] theorem setVf_last (s : State) (n : Nat) (x : Vf) : (setVf s n x).last = s.last := rfl
@[simp] theorem setVf_fresh (s : State) (n : Nat) (x : Vf) : (setVf s n x).fresh = s.fresh := rfl
@[simp] theorem setVf_order (s : State) (n : Nat) (x : Vf) : (setVf s n x).order = s.order := rfl
@[simp] theorem setVf_threads (s : State) (n : Nat) (x : Vf) : (setVf s n x).threads = s.threads := rfl
@[simp] theorem setVf_cores (s : State) (n : Nat) (x : Vf) : (setVf s n x).cores = s.cores := rfl
@[simp] theorem setVf_benches (s : State) (n : Nat) (x : Vf) : (setVf s n x).benches = s.benches := rfl
@[simp] theorem setVf_mem (s : State) (n : Nat) (x : Vf) : (setVf s n x).mem = s.mem := rfl
@[simp] theorem setVf_spads (s : State) (n : Nat) (x : Vf) : (setVf s n x).spads = s.spads := rfl
@[simp] theorem setVf_vregs (s : State) (n : Nat) (x : Vf) : (setVf s n x).vregs = s.vregs := rfl
@[simp] theorem setVf_tiles (s : State) (n : Nat) (x : Vf) : (setVf s n x).tiles = s.tiles := rfl
@[simp] theorem setVf_near (s : State) (n : Nat) (x : Vf) : (setVf s n x).near = s.near := rfl
@[simp] theorem setVf_poison (s : State) (n : Nat) (x : Vf) : (setVf s n x).poison = s.poison := rfl
@[simp] theorem setVf_peerLines (s : State) (n : Nat) (x : Vf) : (setVf s n x).peerLines = s.peerLines := rfl
@[simp] theorem setVf_dv (s : State) (n : Nat) (x : Vf) : (setVf s n x).dv = s.dv := rfl
@[simp] theorem setVf_posts (s : State) (n : Nat) (x : Vf) : (setVf s n x).posts = s.posts := rfl
@[simp] theorem setVf_waiters (s : State) (n : Nat) (x : Vf) : (setVf s n x).waiters = s.waiters := rfl
@[simp] theorem setVf_arms (s : State) (n : Nat) (x : Vf) : (setVf s n x).arms = s.arms := rfl
@[simp] theorem setVf_wakes (s : State) (n : Nat) (x : Vf) : (setVf s n x).wakes = s.wakes := rfl
@[simp] theorem setVf_groups (s : State) (n : Nat) (x : Vf) : (setVf s n x).groups = s.groups := rfl
@[simp] theorem setVf_halos (s : State) (n : Nat) (x : Vf) : (setVf s n x).halos = s.halos := rfl
@[simp] theorem setVf_haloDirty (s : State) (n : Nat) (x : Vf) : (setVf s n x).haloDirty = s.haloDirty := rfl
@[simp] theorem setVf_haloRep (s : State) (n : Nat) (x : Vf) : (setVf s n x).haloRep = s.haloRep := rfl
@[simp] theorem setVf_mcasts (s : State) (n : Nat) (x : Vf) : (setVf s n x).mcasts = s.mcasts := rfl
@[simp] theorem setVf_streams (s : State) (n : Nat) (x : Vf) : (setVf s n x).streams = s.streams := rfl
@[simp] theorem setVf_hostLines (s : State) (n : Nat) (x : Vf) : (setVf s n x).hostLines = s.hostLines := rfl
@[simp] theorem setVf_tlb (s : State) (n : Nat) (x : Vf) : (setVf s n x).tlb = s.tlb := rfl
@[simp] theorem setVf_wcache (s : State) (n : Nat) (x : Vf) : (setVf s n x).wcache = s.wcache := rfl
@[simp] theorem setVf_uses (s : State) (n : Nat) (x : Vf) : (setVf s n x).uses = s.uses := rfl
@[simp] theorem setVf_pages (s : State) (n : Nat) (x : Vf) : (setVf s n x).pages = s.pages := rfl
@[simp] theorem setVf_pageGens (s : State) (n : Nat) (x : Vf) : (setVf s n x).pageGens = s.pageGens := rfl
@[simp] theorem setVf_pageWaits (s : State) (n : Nat) (x : Vf) : (setVf s n x).pageWaits = s.pageWaits := rfl
@[simp] theorem setVf_queues (s : State) (n : Nat) (x : Vf) : (setVf s n x).queues = s.queues := rfl
@[simp] theorem setVf_lanes (s : State) (n : Nat) (x : Vf) : (setVf s n x).lanes = s.lanes := rfl
@[simp] theorem setVf_models (s : State) (n : Nat) (x : Vf) : (setVf s n x).models = s.models := rfl
@[simp] theorem setVf_kernels (s : State) (n : Nat) (x : Vf) : (setVf s n x).kernels = s.kernels := rfl
@[simp] theorem setVf_kernelNext (s : State) (n : Nat) (x : Vf) : (setVf s n x).kernelNext = s.kernelNext := rfl
@[simp] theorem setVf_served (s : State) (n : Nat) (x : Vf) : (setVf s n x).served = s.served := rfl
@[simp] theorem setVf_heads (s : State) (n : Nat) (x : Vf) : (setVf s n x).heads = s.heads := rfl
@[simp] theorem setVf_ctxs (s : State) (n : Nat) (x : Vf) : (setVf s n x).ctxs = s.ctxs := rfl
@[simp] theorem setVf_jobs (s : State) (n : Nat) (x : Vf) : (setVf s n x).jobs = s.jobs := rfl
@[simp] theorem setVf_jobNext (s : State) (n : Nat) (x : Vf) : (setVf s n x).jobNext = s.jobNext := rfl
@[simp] theorem setVf_lineages (s : State) (n : Nat) (x : Vf) : (setVf s n x).lineages = s.lineages := rfl
@[simp] theorem setVf_nonces (s : State) (n : Nat) (x : Vf) : (setVf s n x).nonces = s.nonces := rfl
@[simp] theorem setVf_parts (s : State) (n : Nat) (x : Vf) : (setVf s n x).parts = s.parts := rfl
@[simp] theorem setVf_pkg (s : State) (n : Nat) (x : Vf) : (setVf s n x).pkg = s.pkg := rfl
@[simp] theorem setVf_ports (s : State) (n : Nat) (x : Vf) : (setVf s n x).ports = s.ports := rfl
@[simp] theorem setVf_routes (s : State) (n : Nat) (x : Vf) : (setVf s n x).routes = s.routes := rfl
@[simp] theorem setVf_domains (s : State) (n : Nat) (x : Vf) : (setVf s n x).domains = s.domains := rfl
@[simp] theorem setVf_xgroups (s : State) (n : Nat) (x : Vf) : (setVf s n x).xgroups = s.xgroups := rfl
@[simp] theorem setVf_stuck (s : State) (n : Nat) (x : Vf) : (setVf s n x).stuck = s.stuck := rfl
@[simp] theorem setVf_lateRecs (s : State) (n : Nat) (x : Vf) : (setVf s n x).lateRecs = s.lateRecs := rfl
@[simp] theorem setVf_denied (s : State) (n : Nat) (x : Vf) : (setVf s n x).denied = s.denied := rfl
@[simp] theorem setVf_fences (s : State) (n : Nat) (x : Vf) : (setVf s n x).fences = s.fences := rfl
@[simp] theorem setVf_hdm (s : State) (n : Nat) (x : Vf) : (setVf s n x).hdm = s.hdm := rfl
@[simp] theorem setVf_eths (s : State) (n : Nat) (x : Vf) : (setVf s n x).eths = s.eths := rfl
@[simp] theorem setVf_lehr (s : State) (n : Nat) (x : Vf) : (setVf s n x).lehr = s.lehr := rfl
@[simp] theorem setVf_out (s : State) (n : Nat) (x : Vf) : (setVf s n x).out = s.out := rfl

/-! ### `setGr` -/

@[simp] theorem setGr_agenda (s : State) (k : Nat) (x : Group) : (setGr s k x).agenda = s.agenda := rfl
@[simp] theorem setGr_turn (s : State) (k : Nat) (x : Group) : (setGr s k x).turn = s.turn := rfl
@[simp] theorem setGr_cycle (s : State) (k : Nat) (x : Group) : (setGr s k x).cycle = s.cycle := rfl
@[simp] theorem setGr_cur (s : State) (k : Nat) (x : Group) : (setGr s k x).cur = s.cur := rfl
@[simp] theorem setGr_slot (s : State) (k : Nat) (x : Group) : (setGr s k x).slot = s.slot := rfl
@[simp] theorem setGr_snap (s : State) (k : Nat) (x : Group) : (setGr s k x).snap = s.snap := rfl
@[simp] theorem setGr_last (s : State) (k : Nat) (x : Group) : (setGr s k x).last = s.last := rfl
@[simp] theorem setGr_fresh (s : State) (k : Nat) (x : Group) : (setGr s k x).fresh = s.fresh := rfl
@[simp] theorem setGr_order (s : State) (k : Nat) (x : Group) : (setGr s k x).order = s.order := rfl
@[simp] theorem setGr_threads (s : State) (k : Nat) (x : Group) : (setGr s k x).threads = s.threads := rfl
@[simp] theorem setGr_cores (s : State) (k : Nat) (x : Group) : (setGr s k x).cores = s.cores := rfl
@[simp] theorem setGr_benches (s : State) (k : Nat) (x : Group) : (setGr s k x).benches = s.benches := rfl
@[simp] theorem setGr_mem (s : State) (k : Nat) (x : Group) : (setGr s k x).mem = s.mem := rfl
@[simp] theorem setGr_spads (s : State) (k : Nat) (x : Group) : (setGr s k x).spads = s.spads := rfl
@[simp] theorem setGr_vregs (s : State) (k : Nat) (x : Group) : (setGr s k x).vregs = s.vregs := rfl
@[simp] theorem setGr_tiles (s : State) (k : Nat) (x : Group) : (setGr s k x).tiles = s.tiles := rfl
@[simp] theorem setGr_near (s : State) (k : Nat) (x : Group) : (setGr s k x).near = s.near := rfl
@[simp] theorem setGr_poison (s : State) (k : Nat) (x : Group) : (setGr s k x).poison = s.poison := rfl
@[simp] theorem setGr_peerLines (s : State) (k : Nat) (x : Group) : (setGr s k x).peerLines = s.peerLines := rfl
@[simp] theorem setGr_dv (s : State) (k : Nat) (x : Group) : (setGr s k x).dv = s.dv := rfl
@[simp] theorem setGr_posts (s : State) (k : Nat) (x : Group) : (setGr s k x).posts = s.posts := rfl
@[simp] theorem setGr_waiters (s : State) (k : Nat) (x : Group) : (setGr s k x).waiters = s.waiters := rfl
@[simp] theorem setGr_arms (s : State) (k : Nat) (x : Group) : (setGr s k x).arms = s.arms := rfl
@[simp] theorem setGr_wakes (s : State) (k : Nat) (x : Group) : (setGr s k x).wakes = s.wakes := rfl
@[simp] theorem setGr_halos (s : State) (k : Nat) (x : Group) : (setGr s k x).halos = s.halos := rfl
@[simp] theorem setGr_haloDirty (s : State) (k : Nat) (x : Group) : (setGr s k x).haloDirty = s.haloDirty := rfl
@[simp] theorem setGr_haloRep (s : State) (k : Nat) (x : Group) : (setGr s k x).haloRep = s.haloRep := rfl
@[simp] theorem setGr_mcasts (s : State) (k : Nat) (x : Group) : (setGr s k x).mcasts = s.mcasts := rfl
@[simp] theorem setGr_streams (s : State) (k : Nat) (x : Group) : (setGr s k x).streams = s.streams := rfl
@[simp] theorem setGr_hostLines (s : State) (k : Nat) (x : Group) : (setGr s k x).hostLines = s.hostLines := rfl
@[simp] theorem setGr_tlb (s : State) (k : Nat) (x : Group) : (setGr s k x).tlb = s.tlb := rfl
@[simp] theorem setGr_wcache (s : State) (k : Nat) (x : Group) : (setGr s k x).wcache = s.wcache := rfl
@[simp] theorem setGr_uses (s : State) (k : Nat) (x : Group) : (setGr s k x).uses = s.uses := rfl
@[simp] theorem setGr_pages (s : State) (k : Nat) (x : Group) : (setGr s k x).pages = s.pages := rfl
@[simp] theorem setGr_pageGens (s : State) (k : Nat) (x : Group) : (setGr s k x).pageGens = s.pageGens := rfl
@[simp] theorem setGr_pageWaits (s : State) (k : Nat) (x : Group) : (setGr s k x).pageWaits = s.pageWaits := rfl
@[simp] theorem setGr_queues (s : State) (k : Nat) (x : Group) : (setGr s k x).queues = s.queues := rfl
@[simp] theorem setGr_lanes (s : State) (k : Nat) (x : Group) : (setGr s k x).lanes = s.lanes := rfl
@[simp] theorem setGr_models (s : State) (k : Nat) (x : Group) : (setGr s k x).models = s.models := rfl
@[simp] theorem setGr_kernels (s : State) (k : Nat) (x : Group) : (setGr s k x).kernels = s.kernels := rfl
@[simp] theorem setGr_kernelNext (s : State) (k : Nat) (x : Group) : (setGr s k x).kernelNext = s.kernelNext := rfl
@[simp] theorem setGr_served (s : State) (k : Nat) (x : Group) : (setGr s k x).served = s.served := rfl
@[simp] theorem setGr_heads (s : State) (k : Nat) (x : Group) : (setGr s k x).heads = s.heads := rfl
@[simp] theorem setGr_ctxs (s : State) (k : Nat) (x : Group) : (setGr s k x).ctxs = s.ctxs := rfl
@[simp] theorem setGr_jobs (s : State) (k : Nat) (x : Group) : (setGr s k x).jobs = s.jobs := rfl
@[simp] theorem setGr_jobNext (s : State) (k : Nat) (x : Group) : (setGr s k x).jobNext = s.jobNext := rfl
@[simp] theorem setGr_lineages (s : State) (k : Nat) (x : Group) : (setGr s k x).lineages = s.lineages := rfl
@[simp] theorem setGr_nonces (s : State) (k : Nat) (x : Group) : (setGr s k x).nonces = s.nonces := rfl
@[simp] theorem setGr_parts (s : State) (k : Nat) (x : Group) : (setGr s k x).parts = s.parts := rfl
@[simp] theorem setGr_pkg (s : State) (k : Nat) (x : Group) : (setGr s k x).pkg = s.pkg := rfl
@[simp] theorem setGr_ports (s : State) (k : Nat) (x : Group) : (setGr s k x).ports = s.ports := rfl
@[simp] theorem setGr_routes (s : State) (k : Nat) (x : Group) : (setGr s k x).routes = s.routes := rfl
@[simp] theorem setGr_domains (s : State) (k : Nat) (x : Group) : (setGr s k x).domains = s.domains := rfl
@[simp] theorem setGr_xgroups (s : State) (k : Nat) (x : Group) : (setGr s k x).xgroups = s.xgroups := rfl
@[simp] theorem setGr_stuck (s : State) (k : Nat) (x : Group) : (setGr s k x).stuck = s.stuck := rfl
@[simp] theorem setGr_lateRecs (s : State) (k : Nat) (x : Group) : (setGr s k x).lateRecs = s.lateRecs := rfl
@[simp] theorem setGr_denied (s : State) (k : Nat) (x : Group) : (setGr s k x).denied = s.denied := rfl
@[simp] theorem setGr_vfs (s : State) (k : Nat) (x : Group) : (setGr s k x).vfs = s.vfs := rfl
@[simp] theorem setGr_fences (s : State) (k : Nat) (x : Group) : (setGr s k x).fences = s.fences := rfl
@[simp] theorem setGr_hdm (s : State) (k : Nat) (x : Group) : (setGr s k x).hdm = s.hdm := rfl
@[simp] theorem setGr_eths (s : State) (k : Nat) (x : Group) : (setGr s k x).eths = s.eths := rfl
@[simp] theorem setGr_lehr (s : State) (k : Nat) (x : Group) : (setGr s k x).lehr = s.lehr := rfl
@[simp] theorem setGr_out (s : State) (k : Nat) (x : Group) : (setGr s k x).out = s.out := rfl

/-! ### `setMe` -/

@[simp] theorem setMe_agenda (s : State) (x : Thread) : (setMe s x).agenda = s.agenda := rfl
@[simp] theorem setMe_turn (s : State) (x : Thread) : (setMe s x).turn = s.turn := rfl
@[simp] theorem setMe_cycle (s : State) (x : Thread) : (setMe s x).cycle = s.cycle := rfl
@[simp] theorem setMe_cur (s : State) (x : Thread) : (setMe s x).cur = s.cur := rfl
@[simp] theorem setMe_slot (s : State) (x : Thread) : (setMe s x).slot = s.slot := rfl
@[simp] theorem setMe_snap (s : State) (x : Thread) : (setMe s x).snap = s.snap := rfl
@[simp] theorem setMe_last (s : State) (x : Thread) : (setMe s x).last = s.last := rfl
@[simp] theorem setMe_fresh (s : State) (x : Thread) : (setMe s x).fresh = s.fresh := rfl
@[simp] theorem setMe_order (s : State) (x : Thread) : (setMe s x).order = s.order := rfl
@[simp] theorem setMe_cores (s : State) (x : Thread) : (setMe s x).cores = s.cores := rfl
@[simp] theorem setMe_benches (s : State) (x : Thread) : (setMe s x).benches = s.benches := rfl
@[simp] theorem setMe_mem (s : State) (x : Thread) : (setMe s x).mem = s.mem := rfl
@[simp] theorem setMe_spads (s : State) (x : Thread) : (setMe s x).spads = s.spads := rfl
@[simp] theorem setMe_vregs (s : State) (x : Thread) : (setMe s x).vregs = s.vregs := rfl
@[simp] theorem setMe_tiles (s : State) (x : Thread) : (setMe s x).tiles = s.tiles := rfl
@[simp] theorem setMe_near (s : State) (x : Thread) : (setMe s x).near = s.near := rfl
@[simp] theorem setMe_poison (s : State) (x : Thread) : (setMe s x).poison = s.poison := rfl
@[simp] theorem setMe_peerLines (s : State) (x : Thread) : (setMe s x).peerLines = s.peerLines := rfl
@[simp] theorem setMe_dv (s : State) (x : Thread) : (setMe s x).dv = s.dv := rfl
@[simp] theorem setMe_posts (s : State) (x : Thread) : (setMe s x).posts = s.posts := rfl
@[simp] theorem setMe_waiters (s : State) (x : Thread) : (setMe s x).waiters = s.waiters := rfl
@[simp] theorem setMe_arms (s : State) (x : Thread) : (setMe s x).arms = s.arms := rfl
@[simp] theorem setMe_wakes (s : State) (x : Thread) : (setMe s x).wakes = s.wakes := rfl
@[simp] theorem setMe_groups (s : State) (x : Thread) : (setMe s x).groups = s.groups := rfl
@[simp] theorem setMe_halos (s : State) (x : Thread) : (setMe s x).halos = s.halos := rfl
@[simp] theorem setMe_haloDirty (s : State) (x : Thread) : (setMe s x).haloDirty = s.haloDirty := rfl
@[simp] theorem setMe_haloRep (s : State) (x : Thread) : (setMe s x).haloRep = s.haloRep := rfl
@[simp] theorem setMe_mcasts (s : State) (x : Thread) : (setMe s x).mcasts = s.mcasts := rfl
@[simp] theorem setMe_streams (s : State) (x : Thread) : (setMe s x).streams = s.streams := rfl
@[simp] theorem setMe_hostLines (s : State) (x : Thread) : (setMe s x).hostLines = s.hostLines := rfl
@[simp] theorem setMe_tlb (s : State) (x : Thread) : (setMe s x).tlb = s.tlb := rfl
@[simp] theorem setMe_wcache (s : State) (x : Thread) : (setMe s x).wcache = s.wcache := rfl
@[simp] theorem setMe_uses (s : State) (x : Thread) : (setMe s x).uses = s.uses := rfl
@[simp] theorem setMe_pages (s : State) (x : Thread) : (setMe s x).pages = s.pages := rfl
@[simp] theorem setMe_pageGens (s : State) (x : Thread) : (setMe s x).pageGens = s.pageGens := rfl
@[simp] theorem setMe_pageWaits (s : State) (x : Thread) : (setMe s x).pageWaits = s.pageWaits := rfl
@[simp] theorem setMe_queues (s : State) (x : Thread) : (setMe s x).queues = s.queues := rfl
@[simp] theorem setMe_lanes (s : State) (x : Thread) : (setMe s x).lanes = s.lanes := rfl
@[simp] theorem setMe_models (s : State) (x : Thread) : (setMe s x).models = s.models := rfl
@[simp] theorem setMe_kernels (s : State) (x : Thread) : (setMe s x).kernels = s.kernels := rfl
@[simp] theorem setMe_kernelNext (s : State) (x : Thread) : (setMe s x).kernelNext = s.kernelNext := rfl
@[simp] theorem setMe_served (s : State) (x : Thread) : (setMe s x).served = s.served := rfl
@[simp] theorem setMe_heads (s : State) (x : Thread) : (setMe s x).heads = s.heads := rfl
@[simp] theorem setMe_ctxs (s : State) (x : Thread) : (setMe s x).ctxs = s.ctxs := rfl
@[simp] theorem setMe_jobs (s : State) (x : Thread) : (setMe s x).jobs = s.jobs := rfl
@[simp] theorem setMe_jobNext (s : State) (x : Thread) : (setMe s x).jobNext = s.jobNext := rfl
@[simp] theorem setMe_lineages (s : State) (x : Thread) : (setMe s x).lineages = s.lineages := rfl
@[simp] theorem setMe_nonces (s : State) (x : Thread) : (setMe s x).nonces = s.nonces := rfl
@[simp] theorem setMe_parts (s : State) (x : Thread) : (setMe s x).parts = s.parts := rfl
@[simp] theorem setMe_pkg (s : State) (x : Thread) : (setMe s x).pkg = s.pkg := rfl
@[simp] theorem setMe_ports (s : State) (x : Thread) : (setMe s x).ports = s.ports := rfl
@[simp] theorem setMe_routes (s : State) (x : Thread) : (setMe s x).routes = s.routes := rfl
@[simp] theorem setMe_domains (s : State) (x : Thread) : (setMe s x).domains = s.domains := rfl
@[simp] theorem setMe_xgroups (s : State) (x : Thread) : (setMe s x).xgroups = s.xgroups := rfl
@[simp] theorem setMe_stuck (s : State) (x : Thread) : (setMe s x).stuck = s.stuck := rfl
@[simp] theorem setMe_lateRecs (s : State) (x : Thread) : (setMe s x).lateRecs = s.lateRecs := rfl
@[simp] theorem setMe_denied (s : State) (x : Thread) : (setMe s x).denied = s.denied := rfl
@[simp] theorem setMe_vfs (s : State) (x : Thread) : (setMe s x).vfs = s.vfs := rfl
@[simp] theorem setMe_fences (s : State) (x : Thread) : (setMe s x).fences = s.fences := rfl
@[simp] theorem setMe_hdm (s : State) (x : Thread) : (setMe s x).hdm = s.hdm := rfl
@[simp] theorem setMe_eths (s : State) (x : Thread) : (setMe s x).eths = s.eths := rfl
@[simp] theorem setMe_lehr (s : State) (x : Thread) : (setMe s x).lehr = s.lehr := rfl
@[simp] theorem setMe_out (s : State) (x : Thread) : (setMe s x).out = s.out := rfl

/-! ### Reading a record back -/

@[simp] theorem th_setTh (s : State) (t : Nat) (x : Thread) : th (setTh s t x) t = x := tget_tput_same ..
theorem th_setTh_ne (s : State) {t k : Nat} (x : Thread) (h : k ≠ t) : th (setTh s t x) k = th s k := tget_tput_ne _ _ _ h
@[simp] theorem me_setMe (s : State) (x : Thread) : me (setMe s x) = x := tget_tput_same ..
@[simp] theorem th_setMe (s : State) (x : Thread) : th (setMe s x) s.cur = x := tget_tput_same ..
theorem th_setMe_ne (s : State) {k : Nat} (x : Thread) (h : k ≠ s.cur) : th (setMe s x) k = th s k := tget_tput_ne _ _ _ h
@[simp] theorem me_setTh_cur (s : State) (x : Thread) : me (setTh s s.cur x) = x := tget_tput_same ..
@[simp] theorem co_setCo (s : State) (c : Nat) (x : Core) : co (setCo s c x) c = x := tget_tput_same ..
theorem co_setCo_ne (s : State) {c k' : Nat} (x : Core) (h : k' ≠ c) : co (setCo s c x) k' = co s k' := tget_tput_ne _ _ _ h
@[simp] theorem cx_setCx (s : State) (n : Nat) (x : Ctx) : cx (setCx s n x) n = x := tget_tput_same ..
theorem cx_setCx_ne (s : State) {n k' : Nat} (x : Ctx) (h : k' ≠ n) : cx (setCx s n x) k' = cx s k' := tget_tput_ne _ _ _ h
@[simp] theorem kn_setKn (s : State) (n : Nat) (x : Kernel) : kn (setKn s n x) n = x := tget_tput_same ..
theorem kn_setKn_ne (s : State) {n k' : Nat} (x : Kernel) (h : k' ≠ n) : kn (setKn s n x) k' = kn s k' := tget_tput_ne _ _ _ h
@[simp] theorem qu_setQu (s : State) (n : Nat) (x : Queue) : qu (setQu s n x) n = x := tget_tput_same ..
theorem qu_setQu_ne (s : State) {n k' : Nat} (x : Queue) (h : k' ≠ n) : qu (setQu s n x) k' = qu s k' := tget_tput_ne _ _ _ h
@[simp] theorem vfn_setVf (s : State) (n : Nat) (x : Vf) : vfn (setVf s n x) n = x := tget_tput_same ..
theorem vfn_setVf_ne (s : State) {n k' : Nat} (x : Vf) (h : k' ≠ n) : vfn (setVf s n x) k' = vfn s k' := tget_tput_ne _ _ _ h
@[simp] theorem gr_setGr (s : State) (k : Nat) (x : Group) : gr (setGr s k x) k = x := tget_tput_same ..
theorem gr_setGr_ne (s : State) {k k' : Nat} (x : Group) (h : k' ≠ k) : gr (setGr s k x) k' = gr s k' := tget_tput_ne _ _ _ h

/-! ### Records that an update of another table leaves alone -/

@[simp] theorem co_setTh (s : State) (t : Nat) (x : Thread) (i : Nat) : co (setTh s t x) i = co s i := rfl
@[simp] theorem cx_setTh (s : State) (t : Nat) (x : Thread) (i : Nat) : cx (setTh s t x) i = cx s i := rfl
@[simp] theorem kn_setTh (s : State) (t : Nat) (x : Thread) (i : Nat) : kn (setTh s t x) i = kn s i := rfl
@[simp] theorem qu_setTh (s : State) (t : Nat) (x : Thread) (i : Nat) : qu (setTh s t x) i = qu s i := rfl
@[simp] theorem vfn_setTh (s : State) (t : Nat) (x : Thread) (i : Nat) : vfn (setTh s t x) i = vfn s i := rfl
@[simp] theorem gr_setTh (s : State) (t : Nat) (x : Thread) (i : Nat) : gr (setTh s t x) i = gr s i := rfl
@[simp] theorem th_setCo (s : State) (c : Nat) (x : Core) (i : Nat) : th (setCo s c x) i = th s i := rfl
@[simp] theorem cx_setCo (s : State) (c : Nat) (x : Core) (i : Nat) : cx (setCo s c x) i = cx s i := rfl
@[simp] theorem kn_setCo (s : State) (c : Nat) (x : Core) (i : Nat) : kn (setCo s c x) i = kn s i := rfl
@[simp] theorem qu_setCo (s : State) (c : Nat) (x : Core) (i : Nat) : qu (setCo s c x) i = qu s i := rfl
@[simp] theorem vfn_setCo (s : State) (c : Nat) (x : Core) (i : Nat) : vfn (setCo s c x) i = vfn s i := rfl
@[simp] theorem gr_setCo (s : State) (c : Nat) (x : Core) (i : Nat) : gr (setCo s c x) i = gr s i := rfl
@[simp] theorem me_setCo (s : State) (c : Nat) (x : Core) : me (setCo s c x) = me s := rfl
@[simp] theorem th_setCx (s : State) (n : Nat) (x : Ctx) (i : Nat) : th (setCx s n x) i = th s i := rfl
@[simp] theorem co_setCx (s : State) (n : Nat) (x : Ctx) (i : Nat) : co (setCx s n x) i = co s i := rfl
@[simp] theorem kn_setCx (s : State) (n : Nat) (x : Ctx) (i : Nat) : kn (setCx s n x) i = kn s i := rfl
@[simp] theorem qu_setCx (s : State) (n : Nat) (x : Ctx) (i : Nat) : qu (setCx s n x) i = qu s i := rfl
@[simp] theorem vfn_setCx (s : State) (n : Nat) (x : Ctx) (i : Nat) : vfn (setCx s n x) i = vfn s i := rfl
@[simp] theorem gr_setCx (s : State) (n : Nat) (x : Ctx) (i : Nat) : gr (setCx s n x) i = gr s i := rfl
@[simp] theorem me_setCx (s : State) (n : Nat) (x : Ctx) : me (setCx s n x) = me s := rfl
@[simp] theorem th_setKn (s : State) (n : Nat) (x : Kernel) (i : Nat) : th (setKn s n x) i = th s i := rfl
@[simp] theorem co_setKn (s : State) (n : Nat) (x : Kernel) (i : Nat) : co (setKn s n x) i = co s i := rfl
@[simp] theorem cx_setKn (s : State) (n : Nat) (x : Kernel) (i : Nat) : cx (setKn s n x) i = cx s i := rfl
@[simp] theorem qu_setKn (s : State) (n : Nat) (x : Kernel) (i : Nat) : qu (setKn s n x) i = qu s i := rfl
@[simp] theorem vfn_setKn (s : State) (n : Nat) (x : Kernel) (i : Nat) : vfn (setKn s n x) i = vfn s i := rfl
@[simp] theorem gr_setKn (s : State) (n : Nat) (x : Kernel) (i : Nat) : gr (setKn s n x) i = gr s i := rfl
@[simp] theorem me_setKn (s : State) (n : Nat) (x : Kernel) : me (setKn s n x) = me s := rfl
@[simp] theorem th_setQu (s : State) (n : Nat) (x : Queue) (i : Nat) : th (setQu s n x) i = th s i := rfl
@[simp] theorem co_setQu (s : State) (n : Nat) (x : Queue) (i : Nat) : co (setQu s n x) i = co s i := rfl
@[simp] theorem cx_setQu (s : State) (n : Nat) (x : Queue) (i : Nat) : cx (setQu s n x) i = cx s i := rfl
@[simp] theorem kn_setQu (s : State) (n : Nat) (x : Queue) (i : Nat) : kn (setQu s n x) i = kn s i := rfl
@[simp] theorem vfn_setQu (s : State) (n : Nat) (x : Queue) (i : Nat) : vfn (setQu s n x) i = vfn s i := rfl
@[simp] theorem gr_setQu (s : State) (n : Nat) (x : Queue) (i : Nat) : gr (setQu s n x) i = gr s i := rfl
@[simp] theorem me_setQu (s : State) (n : Nat) (x : Queue) : me (setQu s n x) = me s := rfl
@[simp] theorem th_setVf (s : State) (n : Nat) (x : Vf) (i : Nat) : th (setVf s n x) i = th s i := rfl
@[simp] theorem co_setVf (s : State) (n : Nat) (x : Vf) (i : Nat) : co (setVf s n x) i = co s i := rfl
@[simp] theorem cx_setVf (s : State) (n : Nat) (x : Vf) (i : Nat) : cx (setVf s n x) i = cx s i := rfl
@[simp] theorem kn_setVf (s : State) (n : Nat) (x : Vf) (i : Nat) : kn (setVf s n x) i = kn s i := rfl
@[simp] theorem qu_setVf (s : State) (n : Nat) (x : Vf) (i : Nat) : qu (setVf s n x) i = qu s i := rfl
@[simp] theorem gr_setVf (s : State) (n : Nat) (x : Vf) (i : Nat) : gr (setVf s n x) i = gr s i := rfl
@[simp] theorem me_setVf (s : State) (n : Nat) (x : Vf) : me (setVf s n x) = me s := rfl
@[simp] theorem th_setGr (s : State) (k : Nat) (x : Group) (i : Nat) : th (setGr s k x) i = th s i := rfl
@[simp] theorem co_setGr (s : State) (k : Nat) (x : Group) (i : Nat) : co (setGr s k x) i = co s i := rfl
@[simp] theorem cx_setGr (s : State) (k : Nat) (x : Group) (i : Nat) : cx (setGr s k x) i = cx s i := rfl
@[simp] theorem kn_setGr (s : State) (k : Nat) (x : Group) (i : Nat) : kn (setGr s k x) i = kn s i := rfl
@[simp] theorem qu_setGr (s : State) (k : Nat) (x : Group) (i : Nat) : qu (setGr s k x) i = qu s i := rfl
@[simp] theorem vfn_setGr (s : State) (k : Nat) (x : Group) (i : Nat) : vfn (setGr s k x) i = vfn s i := rfl
@[simp] theorem me_setGr (s : State) (k : Nat) (x : Group) : me (setGr s k x) = me s := rfl
@[simp] theorem co_setMe (s : State) (x : Thread) (i : Nat) : co (setMe s x) i = co s i := rfl
@[simp] theorem cx_setMe (s : State) (x : Thread) (i : Nat) : cx (setMe s x) i = cx s i := rfl
@[simp] theorem kn_setMe (s : State) (x : Thread) (i : Nat) : kn (setMe s x) i = kn s i := rfl
@[simp] theorem qu_setMe (s : State) (x : Thread) (i : Nat) : qu (setMe s x) i = qu s i := rfl
@[simp] theorem vfn_setMe (s : State) (x : Thread) (i : Nat) : vfn (setMe s x) i = vfn s i := rfl
@[simp] theorem gr_setMe (s : State) (x : Thread) (i : Nat) : gr (setMe s x) i = gr s i := rfl

end Sys2Proof.Machine
end

