-- ==== Sys2Proof/Laws/Ops.lean ====
section
/-! SUPPORT. What the shared operations do: for each, the running thread afterwards, the other threads, and what stays as
it was. Proofs about instructions cite these and never unfold an operation. -/

namespace Sys2Proof

open Machine

/-! ### `SameOutside` -/

theorem SameOutside.refl (s : State) : SameOutside s s := rfl

theorem SameOutside.trans {s t u : State} (h : SameOutside s t) (k : SameOutside t u) : SameOutside s u := by
  unfold SameOutside at *
  have := congrArg (fun x : State => { x with threads := s.threads, last := s.last }) k
  exact this.trans h

theorem SameOutside.agenda {s t : State} (h : SameOutside s t) : t.agenda = s.agenda := by
  unfold SameOutside at h
  have k := congrArg State.agenda h
  exact k

theorem SameOutside.turn {s t : State} (h : SameOutside s t) : t.turn = s.turn := by
  unfold SameOutside at h
  have k := congrArg State.turn h
  exact k

theorem SameOutside.cycle {s t : State} (h : SameOutside s t) : t.cycle = s.cycle := by
  unfold SameOutside at h
  have k := congrArg State.cycle h
  exact k

theorem SameOutside.cur {s t : State} (h : SameOutside s t) : t.cur = s.cur := by
  unfold SameOutside at h
  have k := congrArg State.cur h
  exact k

theorem SameOutside.slot {s t : State} (h : SameOutside s t) : t.slot = s.slot := by
  unfold SameOutside at h
  have k := congrArg State.slot h
  exact k

theorem SameOutside.snap {s t : State} (h : SameOutside s t) : t.snap = s.snap := by
  unfold SameOutside at h
  have k := congrArg State.snap h
  exact k

theorem SameOutside.fresh {s t : State} (h : SameOutside s t) : t.fresh = s.fresh := by
  unfold SameOutside at h
  have k := congrArg State.fresh h
  exact k

theorem SameOutside.order {s t : State} (h : SameOutside s t) : t.order = s.order := by
  unfold SameOutside at h
  have k := congrArg State.order h
  exact k

theorem SameOutside.cores {s t : State} (h : SameOutside s t) : t.cores = s.cores := by
  unfold SameOutside at h
  have k := congrArg State.cores h
  exact k

theorem SameOutside.benches {s t : State} (h : SameOutside s t) : t.benches = s.benches := by
  unfold SameOutside at h
  have k := congrArg State.benches h
  exact k

theorem SameOutside.mem {s t : State} (h : SameOutside s t) : t.mem = s.mem := by
  unfold SameOutside at h
  have k := congrArg State.mem h
  exact k

theorem SameOutside.spads {s t : State} (h : SameOutside s t) : t.spads = s.spads := by
  unfold SameOutside at h
  have k := congrArg State.spads h
  exact k

theorem SameOutside.vregs {s t : State} (h : SameOutside s t) : t.vregs = s.vregs := by
  unfold SameOutside at h
  have k := congrArg State.vregs h
  exact k

theorem SameOutside.tiles {s t : State} (h : SameOutside s t) : t.tiles = s.tiles := by
  unfold SameOutside at h
  have k := congrArg State.tiles h
  exact k

theorem SameOutside.near {s t : State} (h : SameOutside s t) : t.near = s.near := by
  unfold SameOutside at h
  have k := congrArg State.near h
  exact k

theorem SameOutside.poison {s t : State} (h : SameOutside s t) : t.poison = s.poison := by
  unfold SameOutside at h
  have k := congrArg State.poison h
  exact k

theorem SameOutside.peerLines {s t : State} (h : SameOutside s t) : t.peerLines = s.peerLines := by
  unfold SameOutside at h
  have k := congrArg State.peerLines h
  exact k

theorem SameOutside.dv {s t : State} (h : SameOutside s t) : t.dv = s.dv := by
  unfold SameOutside at h
  have k := congrArg State.dv h
  exact k

theorem SameOutside.posts {s t : State} (h : SameOutside s t) : t.posts = s.posts := by
  unfold SameOutside at h
  have k := congrArg State.posts h
  exact k

theorem SameOutside.waiters {s t : State} (h : SameOutside s t) : t.waiters = s.waiters := by
  unfold SameOutside at h
  have k := congrArg State.waiters h
  exact k

theorem SameOutside.arms {s t : State} (h : SameOutside s t) : t.arms = s.arms := by
  unfold SameOutside at h
  have k := congrArg State.arms h
  exact k

theorem SameOutside.wakes {s t : State} (h : SameOutside s t) : t.wakes = s.wakes := by
  unfold SameOutside at h
  have k := congrArg State.wakes h
  exact k

theorem SameOutside.groups {s t : State} (h : SameOutside s t) : t.groups = s.groups := by
  unfold SameOutside at h
  have k := congrArg State.groups h
  exact k

theorem SameOutside.halos {s t : State} (h : SameOutside s t) : t.halos = s.halos := by
  unfold SameOutside at h
  have k := congrArg State.halos h
  exact k

theorem SameOutside.haloDirty {s t : State} (h : SameOutside s t) : t.haloDirty = s.haloDirty := by
  unfold SameOutside at h
  have k := congrArg State.haloDirty h
  exact k

theorem SameOutside.haloRep {s t : State} (h : SameOutside s t) : t.haloRep = s.haloRep := by
  unfold SameOutside at h
  have k := congrArg State.haloRep h
  exact k

theorem SameOutside.mcasts {s t : State} (h : SameOutside s t) : t.mcasts = s.mcasts := by
  unfold SameOutside at h
  have k := congrArg State.mcasts h
  exact k

theorem SameOutside.streams {s t : State} (h : SameOutside s t) : t.streams = s.streams := by
  unfold SameOutside at h
  have k := congrArg State.streams h
  exact k

theorem SameOutside.hostLines {s t : State} (h : SameOutside s t) : t.hostLines = s.hostLines := by
  unfold SameOutside at h
  have k := congrArg State.hostLines h
  exact k

theorem SameOutside.tlb {s t : State} (h : SameOutside s t) : t.tlb = s.tlb := by
  unfold SameOutside at h
  have k := congrArg State.tlb h
  exact k

theorem SameOutside.pages {s t : State} (h : SameOutside s t) : t.pages = s.pages := by
  unfold SameOutside at h
  have k := congrArg State.pages h
  exact k

theorem SameOutside.pageGens {s t : State} (h : SameOutside s t) : t.pageGens = s.pageGens := by
  unfold SameOutside at h
  have k := congrArg State.pageGens h
  exact k

theorem SameOutside.pageWaits {s t : State} (h : SameOutside s t) : t.pageWaits = s.pageWaits := by
  unfold SameOutside at h
  have k := congrArg State.pageWaits h
  exact k

theorem SameOutside.queues {s t : State} (h : SameOutside s t) : t.queues = s.queues := by
  unfold SameOutside at h
  have k := congrArg State.queues h
  exact k

theorem SameOutside.lanes {s t : State} (h : SameOutside s t) : t.lanes = s.lanes := by
  unfold SameOutside at h
  have k := congrArg State.lanes h
  exact k

theorem SameOutside.models {s t : State} (h : SameOutside s t) : t.models = s.models := by
  unfold SameOutside at h
  have k := congrArg State.models h
  exact k

theorem SameOutside.kernels {s t : State} (h : SameOutside s t) : t.kernels = s.kernels := by
  unfold SameOutside at h
  have k := congrArg State.kernels h
  exact k

theorem SameOutside.kernelNext {s t : State} (h : SameOutside s t) : t.kernelNext = s.kernelNext := by
  unfold SameOutside at h
  have k := congrArg State.kernelNext h
  exact k

theorem SameOutside.served {s t : State} (h : SameOutside s t) : t.served = s.served := by
  unfold SameOutside at h
  have k := congrArg State.served h
  exact k

theorem SameOutside.heads {s t : State} (h : SameOutside s t) : t.heads = s.heads := by
  unfold SameOutside at h
  have k := congrArg State.heads h
  exact k

theorem SameOutside.ctxs {s t : State} (h : SameOutside s t) : t.ctxs = s.ctxs := by
  unfold SameOutside at h
  have k := congrArg State.ctxs h
  exact k

theorem SameOutside.jobs {s t : State} (h : SameOutside s t) : t.jobs = s.jobs := by
  unfold SameOutside at h
  have k := congrArg State.jobs h
  exact k

theorem SameOutside.jobNext {s t : State} (h : SameOutside s t) : t.jobNext = s.jobNext := by
  unfold SameOutside at h
  have k := congrArg State.jobNext h
  exact k

theorem SameOutside.lineages {s t : State} (h : SameOutside s t) : t.lineages = s.lineages := by
  unfold SameOutside at h
  have k := congrArg State.lineages h
  exact k

theorem SameOutside.parts {s t : State} (h : SameOutside s t) : t.parts = s.parts := by
  unfold SameOutside at h
  have k := congrArg State.parts h
  exact k

theorem SameOutside.pkg {s t : State} (h : SameOutside s t) : t.pkg = s.pkg := by
  unfold SameOutside at h
  have k := congrArg State.pkg h
  exact k

theorem SameOutside.ports {s t : State} (h : SameOutside s t) : t.ports = s.ports := by
  unfold SameOutside at h
  have k := congrArg State.ports h
  exact k

theorem SameOutside.routes {s t : State} (h : SameOutside s t) : t.routes = s.routes := by
  unfold SameOutside at h
  have k := congrArg State.routes h
  exact k

theorem SameOutside.domains {s t : State} (h : SameOutside s t) : t.domains = s.domains := by
  unfold SameOutside at h
  have k := congrArg State.domains h
  exact k

theorem SameOutside.xgroups {s t : State} (h : SameOutside s t) : t.xgroups = s.xgroups := by
  unfold SameOutside at h
  have k := congrArg State.xgroups h
  exact k

theorem SameOutside.stuck {s t : State} (h : SameOutside s t) : t.stuck = s.stuck := by
  unfold SameOutside at h
  have k := congrArg State.stuck h
  exact k

theorem SameOutside.denied {s t : State} (h : SameOutside s t) : t.denied = s.denied := by
  unfold SameOutside at h
  have k := congrArg State.denied h
  exact k

theorem SameOutside.vfs {s t : State} (h : SameOutside s t) : t.vfs = s.vfs := by
  unfold SameOutside at h
  have k := congrArg State.vfs h
  exact k

theorem SameOutside.fences {s t : State} (h : SameOutside s t) : t.fences = s.fences := by
  unfold SameOutside at h
  have k := congrArg State.fences h
  exact k

theorem SameOutside.eths {s t : State} (h : SameOutside s t) : t.eths = s.eths := by
  unfold SameOutside at h
  have k := congrArg State.eths h
  exact k

theorem SameOutside.lehr {s t : State} (h : SameOutside s t) : t.lehr = s.lehr := by
  unfold SameOutside at h
  have k := congrArg State.lehr h
  exact k

theorem SameOutside.out {s t : State} (h : SameOutside s t) : t.out = s.out := by
  unfold SameOutside at h
  have k := congrArg State.out h
  exact k

/-- A frame from its parts. -/
theorem Keeps.of {m : Thread → Thread → Thread} {s t : State} (h : SameOutside s t)
    (o : ∀ k, k ≠ s.cur → th t k = th s k) (k : m (me t) (me s) = me s) : Keeps m s t :=
  ⟨h, o, k, fun a => by rw [h.mem]⟩

/-! ### Record updates -/

theorem setMe_outside (s : State) (x : Thread) : SameOutside s (setMe s x) := rfl

theorem setTh_outside (s : State) (t : Nat) (x : Thread) : SameOutside s (setTh s t x) := rfl

end Sys2Proof

namespace Sys2Proof.Machine

/-! ### Registers -/

theorem me_wr (s : State) (d : BitVec 5) (v : Word) :
    me (wr s d v) = if d = 0 then me s else { me s with g := tput (me s).g d.toNat v } := by
  unfold wr
  split
  · rfl
  · exact me_setMe s _

theorem th_wr_ne (s : State) (d : BitVec 5) (v : Word) {k : Nat} (h : k ≠ s.cur) : th (wr s d v) k = th s k := by
  unfold wr
  split
  · rfl
  · exact th_setMe_ne s _ h

theorem wr_outside (s : State) (d : BitVec 5) (v : Word) : SameOutside s (wr s d v) := by
  unfold wr
  split <;> rfl

@[simp] theorem wr_last (s : State) (d : BitVec 5) (v : Word) : (wr s d v).last = s.last := by
  unfold wr
  split <;> rfl

@[simp] theorem wr_slot (s : State) (d : BitVec 5) (v : Word) : (wr s d v).slot = s.slot := (wr_outside s d v).slot
@[simp] theorem wr_cur (s : State) (d : BitVec 5) (v : Word) : (wr s d v).cur = s.cur := (wr_outside s d v).cur
@[simp] theorem wr_snap (s : State) (d : BitVec 5) (v : Word) : (wr s d v).snap = s.snap := (wr_outside s d v).snap
@[simp] theorem wr_pc (s : State) (d : BitVec 5) (v : Word) : (me (wr s d v)).pc = (me s).pc := by
  rw [me_wr]
  split <;> rfl

/-- g0 reads as zero, and discards what is written to it (R35). -/
theorem rd_zero (s : State) : rd s 0 = 0 := rfl

theorem wr_zero (s : State) (v : Word) : wr s 0 v = s := rfl

/-- Without a partner's snapshot a word reads the register file. -/
theorem rd_reg {s : State} (h : s.snap = none) (r : BitVec 5) : rd s r = reg s r := by
  unfold rd reg
  rw [h]

/-- Reading the register file depends on the registers of the running thread alone. -/
theorem reg_congr {s t : State} (h : (me t).g = (me s).g) (r : BitVec 5) : reg t r = reg s r := by
  unfold reg
  rw [h]

theorem reg_wr_same (s : State) (d : BitVec 5) (v : Word) : reg (wr s d v) d = if d = 0 then 0 else v := by
  unfold reg
  rw [me_wr]
  split
  · rfl
  · simp

theorem reg_wr_ne (s : State) {d r : BitVec 5} (v : Word) (h : r ≠ d) : reg (wr s d v) r = reg s r := by
  unfold reg
  rw [me_wr]
  split
  · rfl
  · split
    · rfl
    · exact tget_tput_ne _ _ _ fun e => h (BitVec.eq_of_toNat_eq e)

theorem wrote_wr (s : State) (d : BitVec 5) (v : Word) : Wrote s (wr s d v) d v :=
  ⟨reg_wr_same s d v, fun _ h => reg_wr_ne s v h⟩

/-! ### The end of a word -/

theorem me_goto (s : State) (pc : Word) (f : Option Word) :
    me (goto s pc f) = if s.slot = 0 then { me s with pc := pc, hold := none, waitMet := false, from_ := f } else me s := by
  unfold goto
  split
  · exact me_setMe s _
  · rfl

theorem th_goto_ne (s : State) (pc : Word) (f : Option Word) {k : Nat} (h : k ≠ s.cur) : th (goto s pc f) k = th s k := by
  unfold goto
  split
  · exact th_setMe_ne s _ h
  · rfl

theorem goto_outside (s : State) (pc : Word) (f : Option Word) : SameOutside s (goto s pc f) := by
  unfold goto
  split <;> rfl

@[simp] theorem goto_last (s : State) (pc : Word) (f : Option Word) : (goto s pc f).last = .done := by
  unfold goto
  split <;> rfl

/-- A word that ends leaves every field of the thread but the pc and the notes of the bundle. -/
theorem pcMask_goto (s : State) (pc : Word) (f : Option Word) (o : Thread) : pcMask (me (goto s pc f)) o = pcMask (me s) o := by
  rw [me_goto]
  split <;> rfl

theorem me_finish (s : State) (p : BitVec 1) :
    me (finish s p) =
      if s.slot = 0 then { me s with pc := nextPc s p, hold := none, waitMet := false, from_ := none } else me s :=
  me_goto s _ _

theorem th_finish_ne (s : State) (p : BitVec 1) {k : Nat} (h : k ≠ s.cur) : th (finish s p) k = th s k := th_goto_ne s _ _ h

theorem finish_outside (s : State) (p : BitVec 1) : SameOutside s (finish s p) := goto_outside s _ _

@[simp] theorem finish_last (s : State) (p : BitVec 1) : (finish s p).last = .done := goto_last s _ _

theorem pcMask_finish (s : State) (p : BitVec 1) (o : Thread) : pcMask (me (finish s p)) o = pcMask (me s) o :=
  pcMask_goto s _ _ o

/-- A word that finishes stands behind its bundle, when what it did before left the pc and the slot alone. -/
theorem behind_finish {s0 s : State} (p : BitVec 1) (hs : s.slot = s0.slot) (hp : (me s).pc = (me s0).pc) :
    Behind s0 (finish s p) p := by
  refine ⟨finish_last s p, ?_⟩
  rw [me_finish, pcBehind, hs]
  split
  · show nextPc s p = _
    rw [nextPc, bundleLen, hp]
  · exact hp

theorem reg_finish (s : State) (p : BitVec 1) (r : BitVec 5) : reg (finish s p) r = reg s r := by
  refine reg_congr ?_ r
  rw [me_finish]
  split <;> rfl

theorem reg_goto (s : State) (pc : Word) (f : Option Word) (r : BitVec 5) : reg (goto s pc f) r = reg s r := by
  refine reg_congr ?_ r
  rw [me_goto]
  split <;> rfl

/-! ### Words that write one register -/

/-- A result written, and the end of the word: one register, and control behind the bundle. -/
theorem regWord_finish (s : State) (p : BitVec 1) (d : BitVec 5) (v : Word) : RegWord s (finish (wr s d v) p) p d v := by
  refine ⟨behind_finish p (wr_slot ..) (wr_pc ..), ⟨?_, fun r h => ?_⟩, Keeps.of ?_ (fun k h => ?_) ?_⟩
  · rw [reg_finish, reg_wr_same]
  · rw [reg_finish, reg_wr_ne _ _ h]
  · exact (wr_outside s d v).trans (finish_outside _ p)
  · rw [th_finish_ne _ _ (by rwa [wr_cur]), th_wr_ne _ _ _ h]
  · rw [me_finish, me_wr]
    split <;> split <;> rfl

/-! ### Long results -/

theorem longResult_outside (s : State) (d : BitVec 5) (la : BitVec 4) (r : LongRes) : SameOutside s (longResult s d la r) := by
  unfold longResult
  cases r <;> first | rfl | (dsimp only; split <;> rfl)

theorem th_longResult_ne (s : State) (d : BitVec 5) (la : BitVec 4) (r : LongRes) {k : Nat} (h : k ≠ s.cur) :
    th (longResult s d la r) k = th s k := by
  unfold longResult
  cases r <;> first | exact th_setMe_ne s _ h | (dsimp only; split <;> first | rfl | exact th_setMe_ne s _ h)

/-- A known long result waits to be written, unless its destination is g0 (R58). -/
theorem me_longResult_ready (s : State) (d : BitVec 5) (la : BitVec 4) (v : Word) :
    me (longResult s d la (.ready v)) = if d = 0 then me s else
      { me s with longs := (me s).longs ++ [{ d := d.toNat, left := la.toNat, res := .ready v, pc := (me s).pc }] } := by
  unfold longResult
  dsimp only
  split
  · rfl
  · exact me_setMe s _

/-- A known long result, and the end of the word. -/
theorem longWord_finish (s : State) (p : BitVec 1) (d : BitVec 5) (la : BitVec 4) (v : Word) :
    LongWord s (finish (longResult s d la (.ready v)) p) p d la v := by
  have ho := longResult_outside s d la (.ready v)
  refine ⟨behind_finish p ho.slot ?_, Keeps.of (ho.trans (finish_outside _ p)) (fun k h => ?_) ?_, ?_⟩
  · rw [me_longResult_ready]
    split <;> rfl
  · rw [th_finish_ne _ _ (by rwa [ho.cur]), th_longResult_ne _ _ _ _ h]
  · rw [me_finish, me_longResult_ready]
    split <;> split <;> rfl
  · rw [me_finish, me_longResult_ready]
    split <;> split <;> simp

/-! ### Flags -/

theorem orFlags_outside (s : State) (t : Nat) (f : BitVec 5) : SameOutside s (orFlags s t f) := rfl

theorem me_orFlags (s : State) (f : BitVec 5) :
    me (orFlags s s.cur f) = { me s with u := { (me s).u with flags := (me s).u.flags ||| f } } := me_setMe s _

theorem th_orFlags_ne (s : State) (t : Nat) (f : BitVec 5) {k : Nat} (h : k ≠ t) : th (orFlags s t f) k = th s k :=
  th_setTh_ne s _ h

/-- A floating-point result with its flags, and the end of the word. -/
theorem fpWord_finish (s : State) (d : BitVec 5) (r : Nat × BitVec 5) : FpWord s (finish (wrFlags s d r) 0) d r.1 r.2 := by
  have hm : me (wrFlags s d r) =
      { me (wr s d (BitVec.ofNat 64 r.1)) with u := { (me s).u with flags := (me s).u.flags ||| r.2 } } := by
    have hu : (me (wr s d (BitVec.ofNat 64 r.1))).u = (me s).u := by rw [me_wr]; split <;> rfl
    have := me_orFlags (wr s d (BitVec.ofNat 64 r.1)) r.2
    rw [wr_cur, hu] at this
    exact this
  have ho : SameOutside s (wrFlags s d r) := (wr_outside s d _).trans (orFlags_outside _ _ _)
  refine ⟨behind_finish 0 ho.slot ?_, ⟨?_, fun k h => ?_⟩, ?_, Keeps.of (ho.trans (finish_outside _ 0)) (fun k h => ?_) ?_⟩
  · rw [hm]
    exact wr_pc ..
  · rw [reg_finish, reg_congr (s := wr s d (BitVec.ofNat 64 r.1)) (by rw [hm]), reg_wr_same]
  · rw [reg_finish, reg_congr (s := wr s d (BitVec.ofNat 64 r.1)) (by rw [hm]), reg_wr_ne _ _ h]
  · rw [me_finish, hm]
    split <;> rfl
  · rw [th_finish_ne _ _ (by rwa [ho.cur])]
    show th (orFlags _ _ _) k = _
    rw [th_orFlags_ne _ _ _ h, th_wr_ne _ _ _ h]
  · rw [me_finish, hm, me_wr]
    split <;> split <;> rfl

/-! ### Taking an exception (R82) -/

theorem quiet_drained {s : State} (h : Quiet s) : drained (me s) = true := by
  obtain ⟨hl, hq⟩ := h
  simp only [drained, hq, List.isEmpty_nil, Bool.and_true, List.all_eq_true]
  intro l k
  simp [Long.open_, hl l k]

theorem toHyp_iff (o : Thread) (c : Nat) : toHyp o false c = true ↔ goesToHyp o c := by
  simp [toHyp, goesToHyp, bit]

/-- The trap of a word of a quiet thread: entry to the handler of the target level (R82). -/
theorem trapTo_raise {s : State} (h : Quiet s) (c : Nat) (v : Word) : TrapTo s (raise s c v) c v := by
  have hd := quiet_drained h
  have hr : raise s c v =
      { enterTrap s s.cur (toHyp (me s) false c) false s.slot c (me s).pc v none with last := .trapped c v } := by
    simp [raise, raiseWith, hd]
  rw [hr]
  by_cases g : goesToHyp (me s) c
  · rw [(toHyp_iff (me s) c).mpr g]
    refine ⟨rfl, Keeps.of rfl (fun k hk => th_setTh_ne s _ hk) ?_, fun _ => ?_, fun n => absurd g n⟩
    · show trapMask (me (setTh s s.cur _)) (me s) = me s
      rw [me_setTh_cur]
      rfl
    · show (me (setTh s s.cur _)).priv = _ ∧ (me (setTh s s.cur _)).pc = _ ∧ (me (setTh s s.cur _)).sr = _ ∧
        (me (setTh s s.cur _)).hr = _
      rw [me_setTh_cur]
      refine ⟨rfl, rfl, rfl, ?_⟩
      refine (HypRegs.mk.injEq ..).mpr ⟨?_, ?_, rfl, rfl, rfl, rfl, rfl, rfl⟩
      · show BitVec.ofNat 64 (0 + 256 * (match (me s).priv with | .user => 0 | .sup => 2 | .hyp => 3) +
          2 * b2n ((me s).hr.status.getLsbD 0)) = _
        rw [Nat.zero_add]
        cases (me s).hr.status.getLsbD 0 <;> rfl
      · show BitVec.ofNat 64 (0 + (if s.slot = 1 then 2 ^ 62 else 0) + c) = _
        rw [Nat.zero_add]
  · have g' : toHyp (me s) false c = false := by
      rw [← Bool.not_eq_true, toHyp_iff]
      exact g
    rw [g']
    refine ⟨rfl, Keeps.of rfl (fun k hk => th_setTh_ne s _ hk) ?_, fun n => absurd n g, fun _ => ?_⟩
    · show trapMask (me (setTh s s.cur _)) (me s) = me s
      rw [me_setTh_cur]
      rfl
    · show (me (setTh s s.cur _)).priv = _ ∧ (me (setTh s s.cur _)).pc = _ ∧ (me (setTh s s.cur _)).hr = _ ∧
        (me (setTh s s.cur _)).sr = _
      rw [me_setTh_cur]
      refine ⟨rfl, rfl, rfl, ?_⟩
      refine (SupRegs.mk.injEq ..).mpr ⟨?_, ?_, rfl, rfl, rfl, rfl, rfl, rfl, rfl⟩
      · show BitVec.ofNat 64 (256 * b2n (decide ((me s).priv = .sup)) + 2 * b2n ((me s).sr.status.getLsbD 0)) = _
        cases (me s).sr.status.getLsbD 0 <;> by_cases k : (me s).priv = .sup <;> simp [b2n, k]
      · show BitVec.ofNat 64 (0 + (if s.slot = 1 then 2 ^ 62 else 0) + c) = _
        rw [Nat.zero_add]

/-! ### Words that hold their thread -/

theorem held_outside (s : State) : SameOutside s (held s) := rfl

theorem th_held (s : State) (k : Nat) : th (held s) k = th s k := rfl

end Sys2Proof.Machine
end

