-- ==== Sys2Proof/Tests/Slice0.lean ====
section
/-! SUPPORT. Tests. `witness_<Statement>`: concrete states and operands that meet the hypotheses of the clauses of a
statement (where a clause rests on what an opaque function of Config answers, that answer is a premise). `test_decode_…`:
the word of every instruction of the opcode table, its fields written out bit by bit, decodes to it; `test_wellFormed_…`:
each check refuses an ill-formed term; single steps, with results worked out by hand from the rules that they cite. -/

set_option linter.all false
set_option maxRecDepth 20000

namespace Sys2Proof.Tests

open Sys2Proof Sys2Proof.Machine

/-! ### States -/

/-- A Ready hypervisor thread with values in some registers and a scratchpad window of its own. -/
def wT : Thread :=
  { state := .ready, priv := .hyp, pc := 0x1000, u := { lwb := 0x80001 },
    g := [(1, 5), (3, 77), (4, 0xFFFFFFFFFFFFFFFE), (6, 2), (7, 8), (8, 0x80040), (9, 0x2000), (10, 0x200008), (11, 3),
          (15, 0x8000000000000000)] }

/-- That thread in slot 0 of core 0, with four parts of scratchpad and a near window, some bytes in memory and in the
scratchpad, and two counters. -/
def wS (T : Thread) : State :=
  { lehr := { rdy := true }, threads := [(0, T)], cores := [(0, { sp := 4, ncbase := 0x200001 })],
    spads := [(0x40, 1), (0x41, 2), (0x80, 9)], mem := [(0x2000, 3), (0x2001, 4)], near := [(1, 100), (300, 7)] }

def wUser : Thread := { wT with priv := .user }
def wSup : Thread := { wT with priv := .sup }
def wStore (sp : Space) (a : Word) (off : Nat) : Store := { seq := 0, space := sp, addr := a, off := off, width := 8, data := 7, priv := .hyp }

/-- The thread with two depth rows, `VT` and `VL`; a queued vector instruction on such a thread. -/
def wV (ty vl : Nat) : Thread := { wT with v := { rows := 2, vt := ty, vl := vl } }
def wE (o : VOp) : VEntry :=
  { op := o, d := 2, a := 1, b := 3, k := 0, pc := 0, slot := 0, vl := 5, vt := 8, vmt := 1, frm := 0, wbase := 0, wctr := 0,
    ga := 0x40, gb := 0, elem := 0, priv := .user, word := 0 }
def wQ (e : VEntry) : State := wS { wT with v := { rows := 2, vt := 8, vl := 5, queue := [e] } }

/-- A holder of the tile state of core 0, with a window of 2 × 2 and an index list at scratchpad offset 0x100. -/
def wTile : State :=
  { wS { wT with ts := 1, g := [(2, 0x80200), (5, 8), (6, 0x100), (7, 1)], v := { rows := 2, vl := 2 } } with
    cores := [(0, { sp := 4, ncbase := 0x200001, town := { hv := true, hts := 1 },
                    cfg := { tm := 2, tn := 2, tk := 2, tsa := 8, tsb := 8, tcc := 0x200008 } })] }

/-- Core 0 with one command at the head of its Marver queue. -/
def wCmd (o : TOp) (step : Nat) (started : Bool) : TileCmd :=
  { op := o, t := 1, y := 9, tid := 0, pc := 0x1000, ga := 0x40, gb := 0x80, cfg := { tm := 2, tn := 2, tk := 2, tsa := 8, tsb := 8 },
    fmt := 0, scb := 0, vt := 0, step := step, started := started }
def wMarver (c : TileCmd) : State :=
  { wS wT with cores := [(0, { sp := 4, ncbase := 0x200001, tq := [c] })],
               benches := if c.started then [(0, { last := 0, running := some 0 })] else [] }

theorem wMarver_sp (c : TileCmd) (k : Nat) : (co (wMarver c) k).sp ≤ 8 := by
  rcases Nat.eq_zero_or_pos k with rfl | h
  · simp [co, wMarver, tget]
  · simp [co, wMarver, tget, Nat.ne_of_lt h]

/-- A posted operation for counter 1 of core 0, alone on its way; a reduction likewise. -/
def wPost (k : PostKind) : Post :=
  { kind := k, seq := 4, tid := 0, ctx := 0, addr := 0x200008, loc := .near 0 1, amount := 2, scope := 4, d := 5, pc := 0x1000 }
def wAtHome (k : PostKind) : State :=
  { wS { wT with longs := [{ d := 5, left := 1, res := .waiting, pc := 0x1000 }] } with posts := [wPost k] }
def wRed : Store := { wStore .global 0x2000 0 with op := .max, loc := some (.mem 0x2000) }

/-- Thread 16 parked on counter 1 of core 0 for a threshold, with a limit. -/
def wWait (thr : Word) (woken listed : Bool) (how : Nat) : Wait :=
  { addr := 0x200008, thr := thr, scope := 4, loc := .near 0 1, due := some 50, how := how, woken := woken, listed := listed }
def wParked (w : Wait) : State :=
  { wS wT with threads := [(0, wT), (16, { wT with state := .parked, wait := some w })],
               waiters := if w.listed then [(16, .near 0 1)] else [], wakes := [{ tid := 16, loc := .near 0 1 }] }

/-- Threads 0 and 16 are the members of a pinned gang; a halo region descriptor of 2 × 64 elements of 4 bytes stands at
scratchpad offset 0x1C0; the region that it declares, and a dirty byte that the neighbour's replica holds. -/
def wDesc : List Byte :=
  natBytes 8 0x1000 ++ natBytes 4 2 ++ natBytes 4 64 ++ natBytes 4 256 ++ natBytes 1 2 ++ natBytes 1 1 ++ natBytes 1 2 ++ natBytes 1 1
def wGang : State :=
  { wS { wT with g := [(2, 0x80080), (5, 0), (6, 1)] } with
    threads := [(0, { wT with g := [(2, 0x80080), (5, 0), (6, 1)] }), (16, wT)],
    cores := [(0, { sp := 4 }), (1, { sp := 4 })],
    groups := [(0, { used := true, state := .pinned, members := [(0, 0), (1, 16)] })],
    spads := mputs [] 0x80 wDesc }
def wHalo : Halo := { haloOf wDesc (2 ^ 20) 0 0 with pages := [(1, 1)] }
def wRegion : State := { wGang with halos := [wHalo], haloDirty := [(0x107C, 9)] }

/-- A dirty copy in L2 of a line whose home is elsewhere. -/
def wLine : PeerLine := { ver := 0, dirty := true, ctxs := [0], data := [(0, 5), (127, 6)] }
def wPeer : State := { wS { wT with g := [(9, 0x10000000000)] } with routes := [(1, 1)], ports := [(0, { state := .up })], peerLines := [((2 ^ 48 + 2 ^ 40) / 128, wLine)] }
def wHalf : PeerLine := { ver := 0, dirty := true, ctxs := [0], data := [(0, 5), (63, 6)] }

/-- A user thread whose context has a first-stage table with one leaf for page 5, and rings; a request of that page. -/
def wLeaf : Nat := 7 * 1024 + 215
def wPaged (leaf : Nat) (p : Priv) : State :=
  { wS { wT with priv := p, g := [(9, 0x5008), (3, 0x5008)] } with
    ctxs := [(0, { state := .running, vmid := 3, sxlat := 0x9000000000000001, sprq := 0x41, hprq := 0x2001 })],
    mem := mputs (mputs (mputs (mputs (mputs [] 0x1000 (natBytes 8 2049)) 0x2000 (natBytes 8 3073)) 0x3000 (natBytes 8 4097))
      0x4000 (natBytes 8 5121)) 0x5028 (natBytes 8 leaf) }
def wReq (second : Bool) : PageReq :=
  { ctx := 0, second := second, kind := .store, imp := true, priv := .user, src := 1, va := 0x5008, gpa := 0x77, asid := 0,
    tid := 16, gen := 3, reqs := [.thread 16] }
def wAsked (second : Bool) : State :=
  { wPaged 0 .user with
    pages := [(5, wReq second)],
    mem := mput (mput [] 0x2000 1) 0x2008 1,
    threads := [(0, wT), (16, { wT with state := .dropped, miss := some { va := 0x5008, kind := .store, second := second, imp := true, gpa := 0x77 } })] }

/-- A translation of page 5 in a cache of core 0, and the last bytes of a host fence message for function 2. -/
def wEntry (host : Bool) : TEntry :=
  { cache := .core 0, vmid := 3, asid := 0, glob := false, mode1 := 9, mode2 := 1, host := host, vpn := 5, gpn := 5, ppn := 7,
    r1 := true, w1 := true, x1 := true, u1 := true, d1 := true, r2 := true, w2 := true, x2 := true, d2 := true, pbmt := 0,
    lines := [] }
def wCached (p : Priv) (host : Bool) : State :=
  { wPaged (wLeaf - 16) p with
    tlb := [wEntry host], vfs := [(2, { fence := mputs (mputs [] 8 (natBytes 8 0x5000)) 16 (natBytes 8 0x1000) })],
    ctxs := [(0, { state := .running, vmid := 3, vf := some 2, hostpt := host, hgxlat := 3 * 2 ^ 44,
                   sxlat := if host then 0 else 0x9000000000000001 })] }
def wFence : List Byte := natBytes 8 0x40 ++ natBytes 8 77 ++ List.replicate 24 0

/-- The thread issues a group word for group 1 of its partition, whose members and state are given; thread 16 is in the
state given. -/
def wGrp (T : Thread) (st : GroupState) (ms : List (Nat × Nat)) (x : SlotState) : State :=
  { wS wT with threads := [(0, { T with g := [(6, 0x100001), (7, 1), (8, 0x4000000000030000), (11, 0x8000000000000010),
      (12, 0x400000000FFF0000)] }), (16, { wT with state := x })],
               groups := [(1, { used := true, state := st, members := ms })] }

/-- The thread issues `grp.mcast` with a descriptor at scratchpad offset 0x80 in the gang of threads 0 and 16: two rows of
8 bytes to the members that the mask names; the multicast under delivery. -/
def wPanel (mask ce : Nat) : List Byte :=
  natBytes 4 0x1000 ++ natBytes 4 0x3000 ++ natBytes 2 2 ++ natBytes 2 8 ++ natBytes 4 16 ++ natBytes 4 32 ++ natBytes 2 0 ++
  natBytes 1 5 ++ natBytes 1 ce ++ natBytes 8 mask
def wSender (mask ce : Nat) (b : Word) : State :=
  { wGang with
    threads := [(0, { wT with g := [(2, 0x80), (5, b)] }), (16, wT)],
    cores := [(0, { sp := 4, ncbase := 0x200001 }), (1, { sp := 4 })],
    spads := mputs (mputs [] 0x80 (wPanel mask ce)) 0x1000 (natBytes 8 77) }
def wMcast (read : Bool) (src : Option (Loc × Word)) : Mcast :=
  { tid := 0, ctx := 0, panel := if read then [natBytes 8 77, natBytes 8 78] else [], dst := 0x3000, dstride := 32, ctrEnt := some 5,
    scope := 4, left := [1, 2], src := src, read := read, seq := 0, srcOff := 0x1000, rowb := 8, sstride := 16, rows := 2 }
def wDelivery (m : Mcast) : State := { wSender 3 0 0 with mcasts := [m] }

/-- The thread spawns from a descriptor at scratchpad offset 0x40, into the core and with the depth rows given, for the group
operand `b`; group 1 has no member. -/
def wSpawn (pc core rows : Nat) (b : Word) : State :=
  { wS { wT with g := [(7, 9), (8, 0x80040), (11, b)], kernel := 3 } with
    spads := mputs [] 0x40 (natBytes 8 pc ++ natBytes 8 0x77 ++ natBytes 8 0x88 ++ natBytes 2 core ++ natBytes 1 rows),
    groups := [(1, { used := true, state := .opened })], kernels := [(3, { q := 0, src := .host 0, rec_ := [], state := .running })] }
def wEnd : State :=
  { wS { wT with kernel := 3, u := { flags := 5 } } with
    kernels := [(3, { q := 0, src := .host 0, rec_ := [], state := .running, count := 1 })] }
/-- Thread 16 in a state, thread 0 with its number in a register. -/
def wTarget (T X : Thread) : State :=
  { wS { T with g := [(11, 16), (9, 0x2000), (10, 0x200008)] } with threads := [(0, { T with g := [(11, 16), (9, 0x2000), (10, 0x200008)] }), (16, X)] }

/-- Thread 16 is Stopped or Free, thread 0 has its number and the address of a save area, 0x3000 or 0x81000 in the
scratchpad window; a save area with fields of its own. -/
def wArea (code priv pc : Nat) : List (Nat × List Byte) :=
  [(0x1000, natBytes 4 1 ++ natBytes 4 code), (0x1008, natBytes 8 pc), (0x1010, natBytes 8 priv), (0x1040, natBytes 8 0x55),
   (0x1130, natBytes 8 0x66), (0x1140, natBytes 8 3), (0x1198, natBytes 8 1), (0x1220, natBytes 8 1)]
def wSaves (T X : Thread) (A : Word) (area : List (Nat × List Byte)) : State :=
  { wS T with threads := [(0, { T with g := [(11, A), (9, 0x3000), (10, 0x81000)] }), (16, X)],
              spads := area.foldl (fun m e => mputs m e.1 e.2) [], ctxs := [(0, { state := .running })] }

/-- Thread 15 is the movement thread of core 0, whose channel is in a state; a descriptor stands at scratchpad offset 0x40. -/
def wMove (n : Nat) (b : Word) (desc : List Byte) : State :=
  { wS wT with cur := 15, threads := [(15, { wT with g := [(8, 0x80040), (9, 0x2000), (10, b), (7, 7)] })],
               cores := [(0, { sp := 4, ncbase := 0x200001, ch := { en := true, scope := 2, state := n } }), (1, { sp := 4 })],
               spads := mputs [] 0x40 desc }
def wCopyDesc (src dst len b : Nat) : List Byte := natBytes 8 src ++ natBytes 8 dst ++ natBytes 4 len ++ natBytes 1 b
def wMcastDesc (src dst len base ctr mask : Nat) : List Byte :=
  natBytes 8 src ++ natBytes 4 dst ++ natBytes 4 len ++ natBytes 2 base ++ natBytes 2 ctr ++ natBytes 4 mask
/-- The channel of core 0 runs a request. -/
def wXReq (k : XKind) (gb : Word) (chunk : Nat) (joined : Bool) (desc : List Byte) : XReq :=
  { kind := k, desc := desc, pc := 0x1000, word := 0x77, ga := 0x80040, gb := gb, gd := 5, scope := 2, ctx := 0, priv := .hyp, tid := 15,
    chunk := chunk, joined := joined, rcv := if k = .mcast then [(0, 0), (1, 0)] else [] }
def wRuns (r : XReq) : State :=
  { wMove 2 0 [] with
    cores := [(0, { sp := 4, ncbase := 0x200001, ch := { en := true, scope := 2, state := 2, req := some r } }), (1, { sp := 4 })],
    spads := mputs [] 0x1000 (natBytes 8 0x123456789), mem := mputs [] 0x4000 (natBytes 8 0xABCDEF) }

theorem wRuns_sp (r : XReq) (k : Nat) : (co (wRuns r) k).sp ≤ 8 := by
  rcases Nat.lt_or_ge k 2 with h | h
  · interval_cases k <;> simp [co, wRuns, tget]
  · simp [co, wRuns, tget, show 0 ≠ k by omega, show 1 ≠ k by omega]

/-- A tensor of four elements of 4 bytes in the scratchpad, with a box that begins at -1 and a completion mask. -/
def wTensor : List Byte :=
  natBytes 8 0x1000 ++ natBytes 8 0x2000 ++ natBytes 16 0 ++ natBytes 10 4 ++ natBytes 10 0xFFFF ++ natBytes 10 2 ++ [0x10, 0x15]

/-- A thread of a context with VMID 3 with a block at scratchpad offset 0x40; launch queue 5, call queue 5 with its lanes. -/
def wQue (p : Priv) (svc : Nat) (b : Word) (block : List Byte) (ls : List (Nat × Lane)) : State :=
  { wS wT with
    threads := [(0, { wT with priv := p, g := [(8, 0x80040), (9, b), (10, 0x100005)] })],
    spads := mputs [] 0x40 block, ctxs := [(0, { state := .running, vmid := 3 })],
    queues := [(5, { kind := 1 }), (261, { kind := 2, log2d := 1, svc := svc })],
    lanes := ls.map fun e => (261 * 16 + e.1, e.2) }
def wCall (seq : Nat) (taken : Option Nat) : Call :=
  { seq := seq, packet := natBytes 64 0x1_0000_00, strong := false, cost := 1, reply := 0x3000, notify := 0, tid := 0, priv := .hyp, taken := taken }

/-- An Ethernet frame with a launch record (RFC 768, 791): to 02:00:00:00:00:01 and 10.0.0.2, UDP port 0x12B7, queue key
0x01020304; port 0 with that address and one rule, which names queue 5. -/
def wFrame (head : Byte) : List Byte :=
  [2, 0, 0, 0, 0, 1, 2, 0, 0, 0, 0, 9, 8, 0] ++ [0x45, 0, 0, 0x60, 0, 0, 0, 0, 64, 17, 0x66, 0x8B, 10, 0, 0, 1, 10, 0, 0, 2] ++
  [0, 9, 0x12, 0xB7, 0, 0x4C, 0, 0, 1, 2, 3, 4] ++ [head] ++ natBytes 63 0
def wEth : State :=
  { wS wT with
    queues := [(5, { kind := 1 })],
    eths := [(0, { mac := [2, 0, 0, 0, 0, 1], ips := [(1, [0, 0, 0, 0, 0, 0, 0, 0, 0, 0, 0xFF, 0xFF, 10, 0, 0, 2])],
                   rules := [(3, (0x12B7, 0x01020304, 5, true))] })] }

/-- Kernel 7 in a state, of launch queue 5, with a record of model slot 2, entry 1, one thread; the model's entry table stands
in memory at 0x4000; its context is number 0. -/
def wRec : List Byte := natBytes 8 (1 + 2 * 16 + 2 ^ 9) ++ natBytes 8 0x5151 ++ natBytes 8 0 ++ natBytes 8 0 ++ natBytes 32 0x99
def wKernel (k : Kernel) : State :=
  { wS wT with
    threads := [(0, wT)],
    cores := [(0, { sp := 4, ncbase := 0x200001 }), (1, { sp := 4 })], ctxs := [(0, { state := .running, vmid := 3 })],
    queues := [(5, { kind := 1 })], kernels := [(7, k)], kernelNext := 8,
    models := [(2, { state := 1, vmid := 3, etab := 0x4000, nent := 2, argoff := 0x8000, stksz := 64, stkbase := 0x9000, lwb := 0x80001 })],
    mem := mputs [] 0x4020 (natBytes 8 0x1000 ++ natBytes 4 0 ++ natBytes 1 2 ++ natBytes 1 0 ++ natBytes 2 0 ++ natBytes 4 1) }
def wK (st : KState) : Kernel :=
  { q := 5, src := .host 3, rec_ := wRec, state := st, model := 2, entry := 0x1000, rows := 2,
    places := if st = .admitted then [1] else [] }

/-- Thread 0 at hypervisor privilege on core 0; context 1 in a state, with virtual function 2. -/
def wCtx (st : CState) : State :=
  { wS wT with ctxs := [(1, { state := st, vmid := 3, vf := some 2 })],
               parts := { qos := [(6, (0, 1))] }, near := [(300, 7)] }
def wCtxc (cmd : Nat) : Word := BitVec.ofNat 64 (1 + cmd * 256)

/-- A thread with a CTX word's operands, and a block at scratchpad offset 0x40; contexts 0, its own, and 1. -/
def wCtxWord (p : Priv) (A B : Word) (st : CState) (block : List Byte) : State :=
  { wS wT with
    threads := [(0, { wT with priv := p, g := [(8, A), (9, B)] })], spads := mputs [] 0x40 block,
    ctxs := [(0, { state := .running }), (1, { state := st, vmid := 3 })],
    mem := mputs [] 0x6000 (natBytes 8 0x9000 ++ natBytes 8 0x1000) }
def wSealDesc (n : Nat) : List Byte :=
  natBytes 2 n ++ natBytes 2 1 ++ natBytes 2 0 ++ natBytes 2 1 ++ natBytes 8 0x10000 ++ natBytes 8 0x20000 ++ natBytes 8 0x6000 ++
  natBytes 8 0 ++ natBytes 8 0x3000 ++ natBytes 8 0x3040 ++ natBytes 8 0
def wUnsealDesc : List Byte :=
  natBytes 8 1 ++ natBytes 8 0x10000 ++ natBytes 8 0x20000 ++ natBytes 16 0 ++ natBytes 8 0x3000 ++ natBytes 8 0x3040 ++ natBytes 8 0

/-- A job of the seal engine for context 1 whose result record is at 0x3040 and whose `DONE` is at 0x3000; its lineage. -/
def wJob (restore : Bool) (ph : JPhase) (home flags : Nat) : Job :=
  { id := 4, restore := restore, ctx := 1, phase := ph, home := home, linid := natBytes 16 0x1D, lctr := 6, tid := 0,
    desc := natBytes 8 (1 + flags * 2 ^ 48) ++ natBytes 8 0x10000 ++ natBytes 8 0x20000 ++ natBytes 16 0 ++ natBytes 8 0x3000 ++
      natBytes 8 0x3040 ++ natBytes 8 0 }
def wLineage (lease : Option Nat) (pending : Option Nat) : Lineage :=
  { linid := natBytes 16 0x1D, counter := 5, fw := List.replicate 32 0, measure := List.replicate 32 0, lease := lease, pendingWrite := pending }
def wSeal (j : Job) (st : CState) (ls : List (Nat × Lineage)) : State :=
  { wS wT with cores := [(0, { sp := 4 })], jobs := [j], lineages := ls, ctxs := [(1, { state := st, vmid := 3, lineage := some (natBytes 16 0x1D, 0) })] }

/-- A configuration request of one entry, posted from partition 0: header at 0x8000, body and signature at 0x9000, result
record at 0xA000, `DONE` at 0xA040; under the key given. -/
def wHead (op affect : Nat) : List Byte :=
  natBytes 2 1 ++ natBytes 2 op ++ natBytes 4 16 ++ natBytes 8 9 ++ natBytes 8 affect ++ natBytes 8 0 ++ natBytes 8 0x9000 ++
  natBytes 8 0xA000 ++ natBytes 8 0xA040 ++ natBytes 8 0
def wBody (type_ index value : Nat) : List Byte := natBytes 2 type_ ++ natBytes 2 index ++ natBytes 4 0 ++ natBytes 8 value
def wRequest (key : Option (List Byte)) (h body sig : List Byte) : State :=
  { wS wT with cores := [], near := [(300, 7), (2048, 8)],
               parts := { key := key, preq := 0x8000, req := some ([], [], 0), busy := true },
               mem := mputs (mputs [] 0x8000 h) 0x9000 (body ++ sig) }
/-- A request that the machine drains for: bench 1 to partition 2. -/
def wDrain (h body : List Byte) : State :=
  { wRequest none h body (natBytes 64 0x51) with
    parts := { req := some (h, body, 0), busy := true, state := [(0, .quiescing)] },
    queues := [(5, { kind := 1, closed := true, quiesced := true })] }

/-- Virtual function 2, bound to context 1, whose counter-table entry 9 is given. -/
def wVf (bound : Bool) (entry : Word) : State :=
  { wS wT with ctxs := [(1, { state := .running, vmid := 3, vf := if bound then some 2 else none })],
               vfs := [(2, { table := if entry = 0 then [] else [(9, entry)] })] }

/-- A signature whose two halves are one number, and a public key of 64 bytes (R354, R382). -/
def wSig (r : Nat) : List Byte := beBytes 32 r ++ beBytes 32 r
def wKey (q : Nat) : List Byte := beBytes 64 q
/-- A management message: command, sequence number 9, body, and the signature given. -/
def wMsg (cmd : Nat) (body sig : List Byte) : List Byte := natBytes 1 cmd ++ natBytes 3 0 ++ natBytes 4 9 ++ body ++ sig
def wKeyed (key : Option (List Byte)) : State := { wS wT with parts := { key := key } }

/-- Sensors and resets: a package with the Lehr's registers given, and one context, of partition 0 or 3. -/
def wLehr (levb lpcap freq part : Nat) : State :=
  { wS wT with lehr := { rdy := true, freq := freq, lpcap := lpcap, levb := BitVec.ofNat 64 levb, levp := 3, fwok := true },
               ctxs := [(4, { state := .running, vmid := 3, part := part })], tiles := [(5, 3), (2 ^ 15 + 3, 4)],
               queues := [(5, { kind := 1, part := part })], lineages := [(2, wLineage (some 4) (some 6))] }

/-- The state that an outcome goes on with. -/
def wAfter (o : Out) : State := match o with
  | .next t => t
  | _ => {}
/-- Thread 16 alone, at cycle 100. -/
def wAsync (T : Thread) : State := { wS T with threads := [(16, T)], cycle := 100, ctxs := [(0, { sfqb := 0x4000 })] }
def wPend : PendRec := { st := wStore .global 0x2000 0, code := 13, gpa := 0 }
/-- A service's lane with one call, not taken or taken by thread 0; a queue that is full. -/
def wLaneOne (done : Word) (taken : Option Nat) : Lane := { vmid := 3, seq := 7, prefix_ := 6, done := done, calls := [wCall 7 taken] }
def wPacket : List Byte := natBytes 4 0x77 ++ natBytes 1 1 ++ natBytes 1 3 ++ natBytes 2 0 ++ natBytes 8 0 ++ natBytes 8 0x3000
/-- A thread above user privilege with vector state of its own; cores of benches of their own in the maps below. -/
def wSreg : State := wS { wSup with v := { rows := 2, vt := 8, vl := 5 } }
/-- Thread 0 issues next at address 0, where a pair stands: `sread g5, 1` and `add g3, g4, g5`. -/
def wPair : State := { State.reset.withFetchWord 32 0 with mem := mputs [] 0 (natBytes 4 0x82500001 ++ natBytes 4 0x40321400) }
/-- The same with an index without a register in the first word (R36). -/
def wPairT : State := { State.reset.withFetchWord 32 0 with mem := mputs [] 0 (natBytes 4 0x82500400 ++ natBytes 4 0x40321400) }

/-! ### Ill-formed terms, one for each check of `wellFormed` -/

theorem test_wellFormed_refuses_threads :
    ([.longResultWrite 16384 0, .pauseExpiry 16384, .timerCompare 16384, .interruptTake 16384, .asyncFaultTrap 16384,
      .storeFaultTrap 16384, .stopComplete 16384, .thrEndComplete 16384, .vectorElementAccess 16384, .waitReread 16384,
      .waiterPoll 16384, .waitTimeout 16384, .storeCheck 16384, .pendingRecordWrite 16384, .storeArriveHome 16384 0,
      .redAtHome 16384 0, .pageWalk 16384 0 0] : List Instr).all (fun i => !(wellFormed i)) = true := by
  decide

theorem test_wellFormed_refuses_events :
    ([.laneBeat 1024, .marverGrant 128, .marverStep 128, .marverCommandComplete 128, .lineEvict 1024 0, .copyChunk 1024,
      .mcastStreamJoin 1024, .mcastReceiverChunk 1024 0, .reductionResult 1024 [], .roundAbandon 1024,
      .pageRequestRecordWrite 4096, .hostFenceMessage 128 0 [], .hostQueueWindowWrite 128 0 0 [],
      .hostQueueWindowWrite 0 256 0 [], .hostQueueWindowWrite 0 0 64 [], .frameReceive 2 [], .suspendComplete 256,
      .scrubComplete 256, .hostCounterWindowWrite 128 0 0, .hostCounterWindowWrite 0 512 0, .hostArmWrite 128 0 0,
      .hostArmWrite 0 512 0, .hostDoorbell 128 0, .counterTableWrite 128 0 0, .counterTableWrite 0 512 0, .laneLock 24 8,
      .trainingTimeout 24, .retrainTrigger 24 false, .flitCrcFail 24 1, .thermalSample 128 0 0 0, .marginReplan 128 0] :
      List Instr).all (fun i => !(wellFormed i)) = true := by
  decide

theorem test_wellFormed_refuses_words :
    wellFormed (.sread 0 5 0x400) = false ∧ wellFormed (.swrite 0 5 6 0x7FF) = false ∧ wellFormed (.vset 0 5 6 7) = false ∧
    wellFormed (.vset 0 5 6 12) = false ∧ wellFormed (.vsetmt 0 5 3) = false ∧ wellFormed (.vldx 0 3 5 3 0 0) = false ∧
    wellFormed (.vceq 8 1 2 0 0) = false ∧ wellFormed (.mand 1 8 2) = false ∧ wellFormed (.mand 1 2 8) = false ∧
    wellFormed (.mnot 8 1) = false ∧ wellFormed (.mpop 5 8 0) = false ∧ wellFormed (.vfredt 4 5 4 0 0) = false ∧
    wellFormed (.vslup 4 4 5 0) = false ∧ wellFormed (.vrgather 4 5 4 0) = false ∧ wellFormed (.vcvtN 4 4 0 0) = false ∧
    wellFormed (.vcvtN 4 5 5 0) = false ∧ wellFormed (.vcvtW 4 5 3 0) = false ∧ wellFormed (.vcvtQ4 4 5 5) = false ∧
    wellFormed (.tileMma 0 1 0 8 9 10) = false ∧ wellFormed (.tileTrsm 0 1 0 1) = false ∧
    wellFormed (.ctrAdd 0 5 6 7) = false ∧ wellFormed (.ctrArrive 0 8 5 0) = false ∧ wellFormed (.ctrArrive 0 1 5 7) = false ∧
    wellFormed (.ctrVadd 0 0 5 6 0) = false ∧ wellFormed (.ctrVadd 0 8 5 6 0) = false ∧ wellFormed (.fence 0 7) = false ∧
    wellFormed (.pref 0 5 3) = false := by
  and_intros <;> rfl

/-! ### Words, field by field as spec/opcode_table.json lays them out -/

theorem test_decode_thread :
    decodeWord 0b00000000000000000000000000000000 = .ok .svc ∧
    decodeWord 0b00000000000000000000000000010000 = .ok .brk ∧
    decodeWord 0b00000000000000000000000000100000 = .ok .tret ∧
    decodeWord 0b000000000000_11100_000000000110000 = .ok (.pause 28) ∧
    decodeWord 0b1_000001_11100_00000000_011000010011 = .ok (.sread 1 28 1555) ∧
    decodeWord 0b0_000001_11110_01011_001_001100000011 = .ok (.swrite 0 30 11 771) ∧
    decodeWord 0b1_000001_10011_01001_010_001011100110 = .ok (.sset 1 19 9 742) ∧
    decodeWord 0b0_000001_11001_11100_011_010100001010 = .ok (.sclr 0 25 28 1290) ∧
    decodeWord 0b0_000010_00100_00011_000_000100100100 = .ok (.beq 0 4 3 292) ∧
    decodeWord 0b0_000010_01111_00001_001_111011011000 = .ok (.bne 0 15 1 3800) ∧
    decodeWord 0b1_000010_11100_01100_010_011101111010 = .ok (.blt 1 28 12 1914) ∧
    decodeWord 0b1_000010_11111_00000_011_001010111000 = .ok (.bge 1 31 0 696) ∧
    decodeWord 0b1_000010_10001_11010_100_001010101001 = .ok (.bltu 1 17 26 681) ∧
    decodeWord 0b1_000010_10100_01110_101_100100111111 = .ok (.bgeu 1 20 14 2367) ∧
    decodeWord 0b0_000011_00100_00110111010000100011 = .ok (.jal 0 4 226339) ∧
    decodeWord 0b1_000100_00110_10010_000_110001011110 = .ok (.jalr 1 6 18 3166) ∧
    decodeWord 0b0_000101_00001_00000_000_0110_01101011 = .ok (.ldb 0 1 0 6 107) ∧
    decodeWord 0b0_000101_11110_11000_001_1100_11010110 = .ok (.ldh 0 30 24 12 214) ∧
    decodeWord 0b0_000101_01100_10001_010_1010_00101100 = .ok (.ldw 0 12 17 10 44) ∧
    decodeWord 0b1_000101_10101_00000_011_1101_00111100 = .ok (.ldd 1 21 0 13 60) ∧
    decodeWord 0b0_000101_01111_00110_100_0000_00011110 = .ok (.ldbu 0 15 6 0 30) ∧
    decodeWord 0b1_000101_11111_01011_101_0110_11100101 = .ok (.ldhu 1 31 11 6 229) ∧
    decodeWord 0b0_000101_01000_11010_110_1100_00111011 = .ok (.ldwu 0 8 26 12 59) ∧
    decodeWord 0b1_000110_11010_01101_0000000_00000000 = .ok (.stb 1 26 13 0) ∧
    decodeWord 0b1_000110_10011_00001_0010000_01101011 = .ok (.sth 1 19 1 107) ∧
    decodeWord 0b0_000110_11001_00110_0100000_00010101 = .ok (.stw 0 25 6 21) ∧
    decodeWord 0b0_000110_01101_11100_0110000_10000100 = .ok (.std 0 13 28 132) ∧
    decodeWord 0b0_000111_10101_10010111101101111110 = .ok (.pcadd 0 21 621438) ∧
    decodeWord 0b0100010_11000_00100101100101000111 = .ok (.ldhi 24 153927) ∧
    decodeWord 0b0100000_00100_00101_01101_0000000000 = .ok (.add 4 5 13) ∧
    decodeWord 0b0100000_01111_00000_10111_0000010000 = .ok (.sub 15 0 23) ∧
    decodeWord 0b0100000_10111_11101_01000_0000100000 = .ok (.and 23 29 8) ∧
    decodeWord 0b0100000_11110_01000_11000_0000110000 = .ok (.or 30 8 24) ∧
    decodeWord 0b0100000_01011_01001_10011_0001000000 = .ok (.xor 11 9 19) ∧
    decodeWord 0b0100000_01110_01111_01100_0001010000 = .ok (.andn 14 15 12) ∧
    decodeWord 0b0100000_01010_01100_11000_0001100000 = .ok (.orn 10 12 24) ∧
    decodeWord 0b0100000_11110_00101_11010_0001110000 = .ok (.sll 30 5 26) ∧
    decodeWord 0b0100000_00011_00110_00110_0010000000 = .ok (.srl 3 6 6) ∧
    decodeWord 0b0100000_00010_10000_01111_0010010000 = .ok (.sra 2 16 15) ∧
    decodeWord 0b0100000_11001_10000_11010_0010100000 = .ok (.slt 25 16 26) ∧
    decodeWord 0b0100000_11111_10010_01011_0010110000 = .ok (.sltu 31 18 11) ∧
    decodeWord 0b0100000_00100_01000_01110_0011000000 = .ok (.min 4 8 14) ∧
    decodeWord 0b0100000_11110_00100_10001_0011010000 = .ok (.max 30 4 17) ∧
    decodeWord 0b0100000_01101_01101_00001_0011100000 = .ok (.minu 13 13 1) ∧
    decodeWord 0b0100000_00100_10001_11010_0011110000 = .ok (.maxu 4 17 26) ∧
    decodeWord 0b0100000_11100_01111_00011_0100000000 = .ok (.mul 28 15 3) ∧
    decodeWord 0b0100000_00010_01011_10010_010001_1011 = .ok (.mulh 2 11 18 11) ∧
    decodeWord 0b0100000_01000_00101_10111_010010_0100 = .ok (.mulhu 8 5 23 4) ∧
    decodeWord 0b0100000_11100_10101_01000_010011_0001 = .ok (.div 28 21 8 1) ∧
    decodeWord 0b0100000_00001_11110_10110_010100_1001 = .ok (.divu 1 30 22 9) ∧
    decodeWord 0b0100000_00010_00001_00100_010101_1111 = .ok (.rem 2 1 4 15) ∧
    decodeWord 0b0100000_00100_10011_10100_010110_0100 = .ok (.remu 4 19 20 4) ∧
    decodeWord 0b0100000_00100_00100_11100_0101110000 = .ok (.addw 4 4 28) ∧
    decodeWord 0b0100000_10111_00010_01000_0110000000 = .ok (.subw 23 2 8) ∧
    decodeWord 0b0100000_10101_10110_000000110010000 = .ok (.clz 21 22) ∧
    decodeWord 0b0100000_00101_11110_000000110100000 = .ok (.ctz 5 30) ∧
    decodeWord 0b0100000_00100_11010_000000110110000 = .ok (.cpop 4 26) ∧
    decodeWord 0b0100000_00001_11111_00000_0111000000 = .ok (.rol 1 31 0) ∧
    decodeWord 0b0100000_11000_11000_00000_0111010000 = .ok (.ror 24 24 0) ∧
    decodeWord 0b0100001_00100_00101_000_001011100110 = .ok (.addi 4 5 742) ∧
    decodeWord 0b0100001_00111_10000_001_110101010001 = .ok (.slti 7 16 3409) ∧
    decodeWord 0b0100001_10101_11000_010_111010100101 = .ok (.sltiu 21 24 3749) ∧
    decodeWord 0b0100001_11100_11101_011_001010101110 = .ok (.xori 28 29 686) ∧
    decodeWord 0b0100001_00001_10011_100_001011001110 = .ok (.ori 1 19 718) ∧
    decodeWord 0b0100001_11110_00001_101_011101011101 = .ok (.andi 30 1 1885) ∧
    decodeWord 0b0100001_01010_10101_111_111000100100 = .ok (.addiw 10 21 3620) ∧
    decodeWord 0b0100011_11111_01111_10100_0000000000 = .ok (.faddS 31 15 20) ∧
    decodeWord 0b0100011_11001_10000_01100_0000010000 = .ok (.fsubS 25 16 12) ∧
    decodeWord 0b0100011_11011_01100_01101_0000100000 = .ok (.fmulS 27 12 13) ∧
    decodeWord 0b0100011_11000_01110_10100_000011_0110 = .ok (.fdivS 24 14 20 6) ∧
    decodeWord 0b0100011_01000_01000_00000000100_1111 = .ok (.fsqrtS 8 8 15) ∧
    decodeWord 0b0100011_10110_00010_00100_0001010000 = .ok (.fminS 22 2 4) ∧
    decodeWord 0b0100011_10001_01010_00111_0001100000 = .ok (.fmaxS 17 10 7) ∧
    decodeWord 0b0100011_11100_11110_10001_0001110000 = .ok (.fmaddS 28 30 17) ∧
    decodeWord 0b0100011_01101_11010_11000_0010000000 = .ok (.feqS 13 26 24) ∧
    decodeWord 0b0100011_11111_10100_11100_0010010000 = .ok (.fltS 31 20 28) ∧
    decodeWord 0b0100011_10100_00100_00010_0010100000 = .ok (.fleS 20 4 2) ∧
    decodeWord 0b0100011_10001_00010_000000010110000 = .ok (.fclassS 17 2) ∧
    decodeWord 0b0100011_10001_10110_000000011000000 = .ok (.fcvtSd 17 22) ∧
    decodeWord 0b0100011_10011_00001_000000011010000 = .ok (.fcvtDs 19 1) ∧
    decodeWord 0b0100011_01000_11001_000000011100000 = .ok (.fcvtSl 8 25) ∧
    decodeWord 0b0100011_11101_01100_000000011110000 = .ok (.fcvtLs 29 12) ∧
    decodeWord 0b0100011_00001_10001_000000100000000 = .ok (.fcvtDl 1 17) ∧
    decodeWord 0b0100011_01111_01001_000000100010000 = .ok (.fcvtLd 15 9) ∧
    decodeWord 0b0100011_00011_00111_11100_1000000000 = .ok (.faddD 3 7 28) ∧
    decodeWord 0b0100011_00110_10111_00100_1000010000 = .ok (.fsubD 6 23 4) ∧
    decodeWord 0b0100011_01100_01100_11110_1000100000 = .ok (.fmulD 12 12 30) ∧
    decodeWord 0b0100011_10000_01011_00000_100011_1111 = .ok (.fdivD 16 11 0 15) ∧
    decodeWord 0b0100011_00010_01011_00000100100_0111 = .ok (.fsqrtD 2 11 7) ∧
    decodeWord 0b0100011_10001_10110_01010_1001010000 = .ok (.fminD 17 22 10) ∧
    decodeWord 0b0100011_11001_01110_00101_1001100000 = .ok (.fmaxD 25 14 5) ∧
    decodeWord 0b0100011_11010_11000_01000_1001110000 = .ok (.fmaddD 26 24 8) ∧
    decodeWord 0b0100011_11100_11101_01100_1010000000 = .ok (.feqD 28 29 12) ∧
    decodeWord 0b0100011_00000_11000_10101_1010010000 = .ok (.fltD 0 24 21) ∧
    decodeWord 0b0100011_11101_10100_01101_1010100000 = .ok (.fleD 29 20 13) ∧
    decodeWord 0b0100011_00110_00111_000001010110000 = .ok (.fclassD 6 7) ∧
    decodeWord 0b0_001111_01111_11000_00101_0000000000 = .ok (.thrSpawn 0 15 24 5) ∧
    decodeWord 0b1_0011110000000000000000000010000 = .ok (.thrEnd 1) ∧
    decodeWord 0b1_001111_10000_00000000000000100000 = .ok (.thrSelf 1 16) ∧
    decodeWord 0b0_001111_10110_00101_000000000110000 = .ok (.thrStop 0 22 5) ∧
    decodeWord 0b0_001111_11100_10101_000000001000000 = .ok (.thrGo 0 28 21) ∧
    decodeWord 0b1_001111_10001_11111_00001_0001010000 = .ok (.thrSave 1 17 31 1) ∧
    decodeWord 0b0_001111_00100_11011_00010_0001100000 = .ok (.thrLoad 0 4 27 2) := by
  and_intros <;> rfl

theorem test_decode_encoding :
    decodeWord 0b0100001_00111_11111_110000000_111110 = .ok (.slli 7 31 62) ∧
    decodeWord 0b0100001_10000_00000_110010000_101111 = .ok (.srli 16 0 47) ∧
    decodeWord 0b0100001_10011_01001_110100000_011001 = .ok (.srai 19 9 25) := by
  and_intros <;> rfl

theorem test_decode_vector :
    decodeWord 0b0_001000_10101_01000_00000000000_1111 = .ok (.vset 0 21 8 15) ∧
    decodeWord 0b0_001000_11100_00000001000000000_111 = .ok (.vsetmt 0 28 7) ∧
    decodeWord 0b0_001001_01110_11100_00000_10_00_010_000 = .ok (.vld 0 14 28 2 2) ∧
    decodeWord 0b1_001001_10011_11000_01101_10_00_010_001 = .ok (.vlds 1 19 24 13 2 2) ∧
    decodeWord 0b1_001001_11111_01100_11010_00_00_000_010 = .ok (.vldx 1 31 12 26 0 0) ∧
    decodeWord 0b1_001001_00001_00010_00000_11_00_001_011 = .ok (.vldff 1 1 2 3 1) ∧
    decodeWord 0b1_001001_00101_01010_00100_11_00_110_100 = .ok (.vldg 1 5 10 4 3 6) ∧
    decodeWord 0b1_001001_10001_01111_00000_11_00_111_101 = .ok (.vldb 1 17 15 3 7) ∧
    decodeWord 0b0_001010_10101_11011_00000_11_00_101_000 = .ok (.vst 0 21 27 3 5) ∧
    decodeWord 0b0_001010_01100_11010_00001_10_00_010_001 = .ok (.vsts 0 12 26 1 2 2) ∧
    decodeWord 0b0_001010_00010_01100_01001_01_00_000_010 = .ok (.vstx 0 2 12 9 1 0) ∧
    decodeWord 0b1_001010_10100_10110_01111_11_00_001_011 = .ok (.vstxa 1 20 22 15 3 1) ∧
    decodeWord 0b1_001010_00111_10000_01100_11_00_000_100 = .ok (.vstxf 1 7 16 12 3 0) ∧
    decodeWord 0b0100100_11000_11010_01010_000000_011_0 = .ok (.vadd 24 26 10 3 0) ∧
    decodeWord 0b0100100_01101_01000_01110_000001_101_0 = .ok (.vsub 13 8 14 5 0) ∧
    decodeWord 0b0100100_10100_10100_01100_000010_011_0 = .ok (.vmul 20 20 12 3 0) ∧
    decodeWord 0b0100100_00110_01000_01111_000011_010_0 = .ok (.vmulh 6 8 15 2 0) ∧
    decodeWord 0b0100100_10000_11000_00110_000100_110_1 = .ok (.vmin 16 24 6 6 1) ∧
    decodeWord 0b0100100_01000_01100_11001_000101_000_0 = .ok (.vmax 8 12 25 0 0) ∧
    decodeWord 0b0100100_01100_10110_10111_000110_001_1 = .ok (.vminu 12 22 23 1 1) ∧
    decodeWord 0b0100100_01100_00100_11110_000111_001_0 = .ok (.vmaxu 12 4 30 1 0) ∧
    decodeWord 0b0100100_00010_11110_01001_001000_011_0 = .ok (.vand 2 30 9 3 0) ∧
    decodeWord 0b0100100_00111_01101_01011_001001_010_1 = .ok (.vor 7 13 11 2 1) ∧
    decodeWord 0b0100100_00110_00011_01000_001010_111_0 = .ok (.vxor 6 3 8 7 0) ∧
    decodeWord 0b0100100_00110_10100_11001_001011_111_1 = .ok (.vsll 6 20 25 7 1) ∧
    decodeWord 0b0100100_10110_11011_01101_001100_101_0 = .ok (.vsrl 22 27 13 5 0) ∧
    decodeWord 0b0100100_00010_01100_01011_001101_110_1 = .ok (.vsra 2 12 11 6 1) ∧
    decodeWord 0b0100100_10111_10111_11001_001110_011_0 = .ok (.vsadd 23 23 25 3 0) ∧
    decodeWord 0b0100100_00110_00000_10100_001111_001_1 = .ok (.vssub 6 0 20 1 1) ∧
    decodeWord 0b0100100_01100_10101_10000_010000_100_0 = .ok (.vmacc 12 21 16 4 0) ∧
    decodeWord 0b0100100_01010_11001_01000_010001_101_1 = .ok (.vdot4 10 25 8 5 1) ∧
    decodeWord 0b0100101_11011_01011_11001_000000_011_0 = .ok (.vfadd 27 11 25 3 0) ∧
    decodeWord 0b0100101_00100_10101_10011_000001_111_0 = .ok (.vfsub 4 21 19 7 0) ∧
    decodeWord 0b0100101_00000_10110_00011_000010_011_1 = .ok (.vfmul 0 22 3 3 1) ∧
    decodeWord 0b0100101_10011_10101_01101_000011_110_0 = .ok (.vfdiv 19 21 13 6 0) ∧
    decodeWord 0b0100101_00100_11000_00000000100_111_0 = .ok (.vfsqrt 4 24 7) ∧
    decodeWord 0b0100101_01101_00111_11001_000101_000_0 = .ok (.vfmin 13 7 25 0 0) ∧
    decodeWord 0b0100101_00110_01111_10000_000110_111_1 = .ok (.vfmax 6 15 16 7 1) ∧
    decodeWord 0b0100101_00011_01100_11000_000111_000_0 = .ok (.vfma 3 12 24 0 0) ∧
    decodeWord 0b0100101_10000_10000_10001_001000_101_1 = .ok (.vfnma 16 16 17 5 1) ∧
    decodeWord 0b0100101_00110_11100_00000001001_001_0 = .ok (.vfabs 6 28 1) ∧
    decodeWord 0b0100101_00010_11000_00000001010_010_0 = .ok (.vfneg 2 24 2) ∧
    decodeWord 0b0100110_11000_11110_01010_000000_111_0 = .ok (.vceq 24 30 10 7 0) ∧
    decodeWord 0b0100110_11011_11111_11010_000001_100_1 = .ok (.vcne 27 31 26 4 1) ∧
    decodeWord 0b0100110_10011_10111_10010_000010_111_1 = .ok (.vclt 19 23 18 7 1) ∧
    decodeWord 0b0100110_10010_10010_00001_000011_000_0 = .ok (.vcle 18 18 1 0 0) ∧
    decodeWord 0b0100110_00010_01010_11010_000100_110_0 = .ok (.vcltu 2 10 26 6 0) ∧
    decodeWord 0b0100110_10100_11001_00011_000101_101_0 = .ok (.vcleu 20 25 3 5 0) ∧
    decodeWord 0b0100110_01110_11011_11110_000110_100_0 = .ok (.vfceq 14 27 30 4 0) ∧
    decodeWord 0b0100110_00010_00110_11101_000111_010_0 = .ok (.vfclt 2 6 29 2 0) ∧
    decodeWord 0b0100110_00111_00011_11010_001000_111_0 = .ok (.vfcle 7 3 26 7 0) ∧
    decodeWord 0b0100110_01101_00011_10110_001001_010_0 = .ok (.vfcun 13 3 22 2 0) ∧
    decodeWord 0b0100111_10111_11100_01000_0000000000 = .ok (.mand 23 28 8) ∧
    decodeWord 0b0100111_11010_11101_10000_0000010000 = .ok (.mor 26 29 16) ∧
    decodeWord 0b0100111_11010_10111_01000_0000100000 = .ok (.mxor 26 23 8) ∧
    decodeWord 0b0100111_10010_01000_01111_0000110000 = .ok (.mandn 18 8 15) ∧
    decodeWord 0b0100111_11110_00111_000000001000000 = .ok (.mnot 30 7) ∧
    decodeWord 0b0100111_10011_10110_00000000101_100_0 = .ok (.mpop 19 22 4) ∧
    decodeWord 0b0100111_10001_01100_00000000110_100_0 = .ok (.mfirst 17 12 4) ∧
    decodeWord 0b0100111_01111_01100_00000000111_011_0 = .ok (.miota 15 12 3) ∧
    decodeWord 0b0100111_01100_00010_000000010000000 = .ok (.mset 12 2) ∧
    decodeWord 0b0101000_00011_00000_10001_000000_100_1 = .ok (.vredsum 3 0 17 4 1) ∧
    decodeWord 0b0101000_00001_00010_00110_000001_011_1 = .ok (.vredmin 1 2 6 3 1) ∧
    decodeWord 0b0101000_00100_00101_01010_000010_011_1 = .ok (.vredmax 4 5 10 3 1) ∧
    decodeWord 0b0101000_10101_11111_01000_000100_001_0 = .ok (.vfredt 21 31 8 1 0) ∧
    decodeWord 0b0101000_11100_01101_11100_000101_110_1 = .ok (.vfredmin 28 13 28 6 1) ∧
    decodeWord 0b0101000_11000_01001_10111_000110_010_1 = .ok (.vfredmax 24 9 23 2 1) ∧
    decodeWord 0b0101001_10010_01011_11011_000000_101_1 = .ok (.vslup 18 11 27 5) ∧
    decodeWord 0b0101001_00110_11101_10100_000001_001_1 = .ok (.vsldn 6 29 20 1) ∧
    decodeWord 0b0101001_00101_11011_11111_000010_111_0 = .ok (.vrgather 5 27 31 7) ∧
    decodeWord 0b0101001_10011_00000_00000000011_001_0 = .ok (.vcompress 19 0 1) ∧
    decodeWord 0b0101001_10011_01101_00101_000100_100_1 = .ok (.vbcast 19 13 5 4) ∧
    decodeWord 0b0101001_11111_10100_10010_0001010000 = .ok (.vmvgv 31 20 18) ∧
    decodeWord 0b0101001_01001_01110_10110_0001100000 = .ok (.vmvvg 9 14 22) ∧
    decodeWord 0b0101001_10100_0000000000000111_101_0 = .ok (.vid 20 5) ∧
    decodeWord 0b0101001_00111_10100_11100_001000_100_1 = .ok (.vmerge 7 20 28 4 1) ∧
    decodeWord 0b0101001_10011_00000_11101_001001_101_0 = .ok (.vmv 19 29 5 0) ∧
    decodeWord 0b0101010_11001_01111_00101_000000_101_0 = .ok (.vcvtN 25 15 5 5) ∧
    decodeWord 0b0101010_10111_00001_10111_000001_110_0 = .ok (.vcvtW 23 1 23 6) ∧
    decodeWord 0b0101010_11000_01100_10111_000010_110_0 = .ok (.vcvtFi 24 12 23 6) ∧
    decodeWord 0b0101010_01001_01011_01011_000011_001_0 = .ok (.vcvtIf 9 11 11 1) ∧
    decodeWord 0b0101010_11101_10010_00001_0001000000 = .ok (.vcvtQ4 29 18 1) ∧
    decodeWord 0b0101010_01110_00011_01010_0001010000 = .ok (.vcvtQ8 14 3 10) := by
  and_intros <;> rfl

theorem test_decode_numbers :
    decodeWord 0b0101000_11110_11110_10110_000011_011_1 = .ok (.vfredo 30 30 22 3 1) := by
  and_intros <;> rfl

theorem test_decode_tile :
    decodeWord 0b1_001011_00_1_0000000000000000000000 = .ok (.tileZero 1 0 1) ∧
    decodeWord 0b0_001011_10_0_00_10101_00101_000001_1000 = .ok (.tileLd 0 2 0 21 5 8) ∧
    decodeWord 0b0_001011_10_0_00_00001_01001_000010_0011 = .ok (.tileSt 0 2 0 1 9 3) ∧
    decodeWord 0b1_001011_01_0_00_11111_10101_000011_1110 = .ok (.tileLdx 1 1 0 31 21 14) ∧
    decodeWord 0b1_001011_10_1_00_10101_01000_000100_1111 = .ok (.tileStx 1 2 1 21 8 15) ∧
    decodeWord 0b1_001011_00_0_00_11010_10110_000101_0000 = .ok (.tileStxa 1 0 0 26 22 0) ∧
    decodeWord 0b1_001011_00_1_00_00001_10111_000110_0000 = .ok (.tileMma 1 0 1 1 23 0) ∧
    decodeWord 0b0_001011_11_1_00_01001_01111_000111_0101 = .ok (.tileMmax 0 3 1 9 15 5) ∧
    decodeWord 0b1_001011_01_1_00_01101_11000_001000_1101 = .ok (.tileGmma 1 1 1 13 24 13) ∧
    decodeWord 0b1_001011_10_0_00_11110_10011_001001_0011 = .ok (.tileRowv 1 2 0 30 19 3) ∧
    decodeWord 0b1_001011_01_0_00_00011_11101_001010_0000 = .ok (.tileVrow 1 1 0 3 29 0) ∧
    decodeWord 0b1_001011_00_1_00_00110_01100_001011_0101 = .ok (.tileQ 1 0 1 6 12 5) ∧
    decodeWord 0b1_001011_01_0_0000000000000011000000 = .ok (.tileChol 1 1 0) ∧
    decodeWord 0b1_001011_01_1_01_00000000000011010000 = .ok (.tileTrsm 1 1 1 1) ∧
    decodeWord 0b1_0010110000000000000000011100000 = .ok (.tileRel 1) := by
  and_intros <;> rfl

theorem test_decode_counter :
    decodeWord 0b1_00110000000_01011_10011_0000_111_000 = .ok (.ctrAdd 1 11 19 7) ∧
    decodeWord 0b1_001100_11111_11001_10101_0010_111_001 = .ok (.ctrFadd 1 31 25 21 2 7) ∧
    decodeWord 0b0_00110000000_11001_00011_0000_011_010 = .ok (.ctrWait 0 25 3 3) ∧
    decodeWord 0b0_001100_11000_10001_00011_0111_000_011 = .ok (.ctrTest 0 24 17 3 7 0) ∧
    decodeWord 0b1_001100_10111_11100_00000_0111_000100 = .ok (.ctrRead 1 23 28 7) ∧
    decodeWord 0b1_001100_01010_11010_000000000_010_101 = .ok (.ctrArrive 1 10 26 2) ∧
    decodeWord 0b1_001100_01001_10000_01000_0000_100_110 = .ok (.ctrAw 1 9 16 8 4) ∧
    decodeWord 0b0_00110000000_01001_000000000_010_111 = .ok (.ctrReset 0 9 2) ∧
    decodeWord 0b0_001101_01101_01001_01000_0000_001_000 = .ok (.ctrVadd 0 13 9 8 1) ∧
    decodeWord 0b1_001101_10001_00110_11110_0000000001 = .ok (.ctrArm 1 17 6 30) ∧
    decodeWord 0b1_001101_00101_10011_00001_0110_000010 = .ok (.ctrHome 1 5 19 1 6) := by
  and_intros <;> rfl

theorem test_decode_group :
    decodeWord 0b1_001110_01100_00101_000000000000000 = .ok (.grpNew 1 12 5) ∧
    decodeWord 0b1_001110_01101_00010_11010_0000010000 = .ok (.grpJoin 1 13 2 26) ∧
    decodeWord 0b1_001110_01010_00000000000000100000 = .ok (.grpLeave 1 10) ∧
    decodeWord 0b1_001110_10100_10011_000000000110000 = .ok (.grpSize 1 20 19) ∧
    decodeWord 0b1_001110_00100_00000000000001000000 = .ok (.grpRank 1 4) ∧
    decodeWord 0b1_001110_11101_00100_000000001010000 = .ok (.grpPin 1 29 4) ∧
    decodeWord 0b1_001110_00100_01000_000000001100000 = .ok (.grpUnpin 1 4 8) ∧
    decodeWord 0b0_001110_11001_11101_00111_0001110000 = .ok (.grpMcast 0 25 29 7) ∧
    decodeWord 0b1_001110_00000_11000_11110_0010000000 = .ok (.grpStop 1 0 24 30) ∧
    decodeWord 0b0_001110_10010_00111_000000010010000 = .ok (.grpGo 0 18 7) ∧
    decodeWord 0b1_001110_00000_01101_000000010100000 = .ok (.grpKill 1 0 13) := by
  and_intros <;> rfl

theorem test_decode_copy :
    decodeWord 0b0_010000_10010_11000_10011_0000000000 = .ok (.xferCopy 0 18 24 19) ∧
    decodeWord 0b1_010000_11001_00101_10000_0000010000 = .ok (.xferTensor 1 25 5 16) ∧
    decodeWord 0b0_010000_01100_11000_00111_0000100000 = .ok (.xferMcast 0 12 24 7) ∧
    decodeWord 0b1_010000_10011_10001_11110_0000110000 = .ok (.xferFill 1 19 17 30) ∧
    decodeWord 0b1_010000_11100_11000_00101_0001000000 = .ok (.xferSend 1 28 24 5) := by
  and_intros <;> rfl

theorem test_decode_queue :
    decodeWord 0b0_010001_01001_00110_01000_0000000000 = .ok (.qLaunch 0 9 6 8) ∧
    decodeWord 0b0_010001_01011_01100_11001_0000010000 = .ok (.qCall 0 11 12 25) ∧
    decodeWord 0b0_010001_11101_00101_00110_0000100000 = .ok (.qTake 0 29 5 6) ∧
    decodeWord 0b0_010001_00010_01010_00111_0000110000 = .ok (.qDone 0 2 10 7) := by
  and_intros <;> rfl

theorem test_decode_line :
    decodeWord 0b1_010010_11010_00100_10101_000000_1101 = .ok (.amoAdd 1 26 4 21 13) ∧
    decodeWord 0b0_010010_01101_01001_11000_000001_1111 = .ok (.amoAnd 0 13 9 24 15) ∧
    decodeWord 0b1_010010_11010_00000_11001_000010_1010 = .ok (.amoOr 1 26 0 25 10) ∧
    decodeWord 0b0_010010_00001_10000_10101_000011_0110 = .ok (.amoXor 0 1 16 21 6) ∧
    decodeWord 0b1_010010_10011_11100_00110_000100_1100 = .ok (.amoMin 1 19 28 6 12) ∧
    decodeWord 0b0_010010_10101_10010_00110_000101_0101 = .ok (.amoMax 0 21 18 6 5) ∧
    decodeWord 0b1_010010_10011_01110_10110_000110_0100 = .ok (.amoMinu 1 19 14 22 4) ∧
    decodeWord 0b0_010010_01100_00001_01100_000111_0010 = .ok (.amoMaxu 0 12 1 12 2) ∧
    decodeWord 0b0_010010_01111_11110_11010_001000_1010 = .ok (.amoSwap 0 15 30 26 10) ∧
    decodeWord 0b1_010010_00101_10111_10001_001001_1110 = .ok (.amoCas 1 5 23 17 14) ∧
    decodeWord 0b0_010010_11100_01000_01111_001010_0010 = .ok (.amoFadd 0 28 8 15 2) ∧
    decodeWord 0b1_01001000000_01010_10101_001011_0100 = .ok (.redAdd 1 10 21 4) ∧
    decodeWord 0b0_01001000000_00000_10010_001100_1011 = .ok (.redFadd 0 0 18 11) ∧
    decodeWord 0b0_01001000000_10111_01010_001101_0101 = .ok (.redMin 0 23 10 5) ∧
    decodeWord 0b0_01001000000_11101_00010_001110_1100 = .ok (.redMax 0 29 2 12) ∧
    decodeWord 0b0_0100110000000000_01000_0000000000 = .ok (.fence 0 8) ∧
    decodeWord 0b1_0100110000000000000000000010000 = .ok (.stDrain 1) ∧
    decodeWord 0b1_01001100000_00001_01010_0000100000 = .ok (.lineInv 1 1 10) ∧
    decodeWord 0b0_01001100000_11010_11101_0000110000 = .ok (.lineWb 0 26 29) ∧
    decodeWord 0b0_01001100000_01001_11000_0001000000 = .ok (.pref 0 9 24) ∧
    decodeWord 0b0_010011_11001_01011_000000001010000 = .ok (.haloDecl 0 25 11) ∧
    decodeWord 0b1_01001100000_01000_000000001100000 = .ok (.haloDrop 1 8) ∧
    decodeWord 0b1_01001100000_01111_000000001110000 = .ok (.haloPush 1 15) := by
  and_intros <;> rfl

theorem test_decode_page :
    decodeWord 0b1_0101000000000000000000000000000 = .ok (.vmFence 1) ∧
    decodeWord 0b0_01010000000_00010_01001_0000010000 = .ok (.vmInv 0 2 9) ∧
    decodeWord 0b1_01010000000_11111_00110_0000100000 = .ok (.vmGinv 1 31 6) ∧
    decodeWord 0b1_010100_10110_11010_11010_0000110000 = .ok (.vmProbe 1 22 26 26) := by
  and_intros <;> rfl

theorem test_decode_context :
    decodeWord 0b1_010101_11111_11101_000000000000000 = .ok (.ctxSeal 1 31 29) ∧
    decodeWord 0b1_010101_11011_00111_000000000010000 = .ok (.ctxUnseal 1 27 7) ∧
    decodeWord 0b0_010101_10101_11011_11010_0000100000 = .ok (.ctxExtend 0 21 27 26) ∧
    decodeWord 0b0_010101_10100_00011_10010_0000110000 = .ok (.ctxQuote 0 20 3 18) := by
  and_intros <;> rfl

/-! ### Single steps -/

/-- R61, R66: addition is modulo 2^64, also where a source is the destination. -/
theorem test_add_wraps : reg (wAfter (exec (.add 15 15 15) (wS wT))) 15 = 0 := by decide

/-- R66: an arithmetic shift copies the sign. -/
theorem test_srai_copies_the_sign : reg (wAfter (exec (.srai 5 15 4) (wS wT))) 5 = 0xF800000000000000 := by decide

/-- R35: a write of g0 is discarded. -/
theorem test_g0_stays_zero : reg (wAfter (exec (.add 0 1 3) (wS wT))) 0 = 0 := by decide

/-- R69: 1 + 2^-24 is a tie, which rounds to the even 1 and is inexact. -/
theorem test_fadd_rounds_to_even : fp32.add .rne 0x3F800000 0x33800000 = (0x3F800000, 1) := by decide

/-- R63, R82: `jalr` to 0x2002 raises cause 5 with that address, to hypervisor level. -/
theorem test_jalr_misaligned :
    let t := wAfter (exec (.jalr 0 5 9 2) (wS wT))
    (me t).hr.cause = 5 ∧ (me t).hr.val = 0x2002 ∧ (me t).hr.epc = 0x1000 ∧ (me t).pc = 0 ∧ reg t 5 = 0 := by decide

/-- R64: `ldb` extends the sign of the byte 0x80, `ldbu` does not. -/
theorem test_loads_extend :
    ((me (wAfter (exec (.ldb 0 5 8 0 0) { wS wT with spads := [(0x40, 0x80)] }))).longs.map Long.res =
      [.ready 0xFFFFFFFFFFFFFF80]) ∧
    (me (wAfter (exec (.ldbu 0 5 8 0 0) { wS wT with spads := [(0x40, 0x80)] }))).longs.map Long.res = [.ready 0x80] := by
  decide

/-- R60, R82: the first instruction after reset is `svc`; cause 17 is taken with `HEPC` its own address. -/
theorem test_step_runs_svc : ∃ t, step (State.reset.withFetchWord 32 0) = .next t ∧ (th t 0).hr.cause = 17 ∧
    (th t 0).hr.epc = 0 ∧ (th t 0).hr.val = 0 := ⟨_, rfl, by decide⟩

/-- R21: the first instruction after reset is `addi g5, g0, -1`; the pc is behind it. -/
theorem test_step_runs_addi : ∃ t, step (State.reset.withFetchWord 32 (wordOf (.addi 5 0 0xFFF))) = .next t ∧
    tget (th t 0).g 5 0 = 0xFFFFFFFFFFFFFFFF ∧ (th t 0).pc = 4 := ⟨_, rfl, by decide⟩

/-- R22: both words of a pair take effect in one issue, and the pc is behind the bundle. -/
theorem test_step_runs_pair : ∃ t, step wPair = .next t ∧ (th t 0).pc = 8 := ⟨_, rfl, by decide⟩

/-- The table's numbering of bits: one word, its bit 0 the least significant bit of the first byte. -/
theorem test_decodeTableWord : decodeTableWord 32 0x40321400 = some (.add 3 4 5) ∧ decodeTableWord 32 0xFFFFFFFF = none := by
  and_intros <;> rfl

/-- Memory keeps its canonical form: writing what an unlisted address reads as removes the entry. -/
theorem test_memory_canonical : mputs [] 5 [1, 0, 2] = [(5, 1), (7, 2)] ∧ mputs [(5, 1), (7, 2)] 5 [0] = [(7, 2)] := by decide

/-- R339, R382: SHA-256 of the three bytes "abc" (the example of FIPS 180-4). -/
theorem test_sha256 : sha256 [0x61, 0x62, 0x63] =
    beBytes 32 0xBA7816BF8F01CFEA414140DE5DAE2223B00361A396177A9CB410FF61F20015AD := by decide

/-- R344: AES-256-GCM of one zero block under a zero key and a zero IV (test case 14 of the GCM specification), and a tag
with a bit changed does not open it. -/
theorem test_gcm :
    let c := beBytes 16 0xCEA7403D4D606B6E074EC5D3BAF39D18
    let g := beBytes 16 0xD0D1C8A799996BF0265B98B5D48AB919
    gcmSeal (List.replicate 32 0) (List.replicate 12 0) [] (List.replicate 16 0) = (c, g) ∧
    gcmOpen (List.replicate 32 0) (List.replicate 12 0) [] c (beBytes 16 0xD0D1C8A799996BF0265B98B5D48AB918) = none := by decide +kernel

/-! ### States that meet the hypotheses of the statements -/

theorem witness_LongIntegerResults :
    (∃ (s : State) (b : BitVec 5), rd s b = 0) ∧
    (∃ (s : State) (a : BitVec 5) (b : BitVec 5), rd s a = BitVec.intMin 64 ∧ rd s b = BitVec.allOnes 64) :=
  ⟨⟨wS wT, 12, by decide⟩, ⟨wS { wT with g := [(1, 0x8000000000000000), (2, 0xFFFFFFFFFFFFFFFF)] }, 1, 2, by decide⟩⟩

theorem witness_ControlTransfers :
    (∃ (s : State) (a : BitVec 5) (imm : BitVec 12),
      BitVec.toNat (rd s a + BitVec.ofInt 64 (BitVec.toInt imm)) % 4 = 0) ∧
    (∃ (s : State) (a : BitVec 5) (imm : BitVec 12),
      BitVec.toNat (rd s a + BitVec.ofInt 64 (BitVec.toInt imm)) % 4 ≠ 0 ∧ Quiet s) :=
  ⟨⟨wS wT, 3, 7, by decide⟩, ⟨wS wT, 3, 1, by simp only [Quiet]; decide⟩⟩

theorem witness_TrapsAndPauses :
    (∃ (s : State), Quiet s) ∧
    (∃ (s : State), s.slot = 0 ∧ (me s).priv = Priv.sup ∧ BitVec.toNat (me s).sr.epc % 4 = 0) ∧
    (∃ (s : State), s.slot = 0 ∧ (me s).priv = Priv.hyp ∧ BitVec.toNat (me s).hr.epc % 4 = 0) ∧
    (∃ (s : State), s.slot = 0 ∧ Quiet s ∧ (me s).priv = Priv.sup ∧ BitVec.toNat (me s).sr.epc % 4 ≠ 0) ∧
    (∃ (s : State), s.slot = 0 ∧ Quiet s ∧ (me s).priv = Priv.hyp ∧ BitVec.toNat (me s).hr.epc % 4 ≠ 0) ∧
    (∃ (s : State), s.slot = 0 ∧ Quiet s ∧ (me s).priv = Priv.user) ∧
    (∃ (s : State) (tid : Nat) (c : Nat), (th s tid).pauseUntil = some c) :=
  ⟨⟨wS wT, by simp only [Quiet]; decide⟩, ⟨wS wSup, by decide⟩, ⟨wS wT, by decide⟩,
    ⟨wS { wSup with sr := { epc := 2 } }, by simp only [Quiet]; decide⟩,
    ⟨wS { wT with hr := { epc := 2 } }, by simp only [Quiet]; decide⟩, ⟨wS wUser, by simp only [Quiet]; decide⟩,
    ⟨wS { wT with pauseUntil := some 9 }, 0, 9, by decide⟩⟩

theorem witness_SystemRegisterReads :
    (∃ (s : State), Fresh s ∧ (me s).priv = Priv.hyp) ∧
    (∃ (s : State), Fresh s ∧ (me s).priv ≠ Priv.user) ∧
    (∃ (s : State), Fresh s ∧ (me s).v.queue = []) ∧
    (∃ (s : State) (idx : BitVec 12), Quiet s ∧ BitVec.toNat idx / 1024 = 1) ∧
    (∃ (s : State) (idx : BitVec 12), Quiet s ∧ (BitVec.toNat idx / 1024 = 2 ∨ BitVec.toNat idx / 1024 = 3) ∧
      (me s).priv = Priv.user) ∧
    (∃ (s : State) (idx : BitVec 12), Quiet s ∧ BitVec.toNat idx / 1024 = 3 ∧ (me s).priv = Priv.sup) ∧
    (∃ (s : State) (idx : BitVec 12), Quiet s ∧ (idx = 14 ∨ idx = 265 ∨ idx = 515 ∨ idx = 770 ∨ idx = 1023)) ∧
    (∃ (s : State) (idx : BitVec 12), Quiet s ∧ (idx = 2057 ∨ idx = 2181 ∨ idx = 3071) ∧ (me s).priv ≠ Priv.user) ∧
    (∃ (s : State) (idx : BitVec 12), Quiet s ∧ (idx = 3080 ∨ idx = 3204 ∨ idx = 4095) ∧ (me s).priv = Priv.hyp) ∧
    (∃ (s : State), Fresh s ∧ (me s).v.queue ≠ []) ∧
    (∃ (s : State), Fresh s ∧ (co s (s.cur / 16)).town.hv = false) ∧
    (∃ (s : State), Fresh s ∧ (co s (s.cur / 16)).town.hv = true) ∧
    (∃ (s : State), Fresh s ∧ memberOf s s.cur = none) ∧
    (∃ (s : State) (k : Nat) (r : Nat), Fresh s ∧ memberOf s s.cur = some (k, r)) ∧
    (∃ (s : State), Fresh s ∧ ((me s).priv = Priv.user → (me s).ts ≠ 0) ∧ ((me s).priv = Priv.sup →
      (co s (s.cur / 16)).town.hv = false ∨ (co s (s.cur / 16)).town.vmid = (cx s (me s).ctx).vmid)) ∧
    (∃ (s : State) (idx : BitVec 12), Fresh s ∧ 384 ≤ BitVec.toNat idx ∧ BitVec.toNat idx ≤ 391 ∧ Quiet s ∧
      (me s).priv = Priv.user ∧ (me s).ts = 0) ∧
    (∃ (s : State) (idx : BitVec 12), Fresh s ∧ 384 ≤ BitVec.toNat idx ∧ BitVec.toNat idx ≤ 391 ∧ Quiet s ∧
      (me s).priv = Priv.sup ∧ (co s (s.cur / 16)).town.hv = true ∧
      (co s (s.cur / 16)).town.vmid ≠ (cx s (me s).ctx).vmid) ∧
    (∃ (s : State), Fresh s ∧ (me s).priv ≠ Priv.user) :=
  ⟨⟨wS wT, by simp only [Fresh]; decide⟩, ⟨wS wT, by simp only [Fresh]; decide⟩,
    ⟨wS wT, by simp only [Fresh]; decide⟩, ⟨wS wUser, 0x400, by simp only [Quiet]; decide⟩,
    ⟨wS wUser, 0xBFF, by simp only [Quiet]; decide⟩, ⟨wS wSup, 0xC00, by simp only [Quiet]; decide⟩,
    ⟨wS wUser, 0x3FF, by simp only [Quiet]; decide⟩, ⟨wS wSup, 0x885, by simp only [Quiet]; decide⟩,
    ⟨wS wT, 0xFFF, by simp only [Quiet]; decide⟩, ⟨wQ (wE .vadd), by simp only [Fresh]; decide⟩,
    ⟨wS wT, by simp only [Fresh]; decide⟩, ⟨wTile, by simp only [Fresh]; decide⟩,
    ⟨wS wT, by simp only [Fresh]; decide⟩, ⟨wGang, 0, 0, by simp only [Fresh]; decide⟩,
    ⟨wTile, by simp only [Fresh]; decide⟩, ⟨wS wUser, 0x185, by simp only [Quiet, Fresh]; decide⟩,
    ⟨{ wS wSup with cores := [(0, { town := { hv := true, vmid := 5 } })] }, 0x180, by simp only [Quiet, Fresh]; decide⟩,
    ⟨wS wSup, by simp only [Fresh]; decide⟩⟩

theorem witness_SystemRegisterWrites :
    (∃ (s : State) (a : BitVec 5), Fresh s ∧ 5 ≤ BitVec.toNat (rd s a) % 8 ∧ Quiet s) ∧
    (∃ (s : State), Fresh s ∧ (me s).u.lock = true) ∧
    (∃ (s : State), Fresh s ∧ (me s).priv ≠ Priv.user) ∧
    (∃ (s : State), Fresh s ∧ (me s).priv = Priv.hyp) ∧
    (∃ (s : State), Fresh s) ∧
    (∃ (s : State) (a : BitVec 5), Fresh s ∧ BitVec.toNat (rd s a) % 8 < 5) ∧
    (∃ (s : State), Fresh s ∧ (me s).u.lock = false) ∧
    (∃ (s : State), Fresh s ∧ (me s).u.lock = true ∧ Quiet s) ∧
    (∃ (s : State), Fresh s ∧ Quiet s) ∧
    (∃ (s : State), Fresh s ∧ Quiet s) :=
  ⟨⟨wS wT, 1, by simp only [Quiet, Fresh]; decide⟩,
    ⟨wS { wT with u := { lock := true } }, by simp only [Fresh]; decide⟩, ⟨wS wSup, by simp only [Fresh]; decide⟩,
    ⟨wS wT, by simp only [Fresh]; decide⟩, ⟨wS wT, by simp only [Fresh]; decide⟩,
    ⟨wS wT, 6, by simp only [Fresh]; decide⟩, ⟨wS wT, by simp only [Fresh]; decide⟩,
    ⟨wS { wT with u := { lock := true } }, by simp only [Quiet, Fresh]; decide⟩,
    ⟨wS wT, by simp only [Quiet, Fresh]; decide⟩, ⟨wS wT, by simp only [Quiet, Fresh]; decide⟩⟩

theorem witness_Loads :
    (∃ (s : State) (p : BitVec 1) (d : BitVec 5) (a : BitVec 5) (la : BitVec 4) (imm : BitVec 8) (off : Nat) (f : Instr × Nat × Bool),
      f ∈ loadForms p d a la imm ∧ BitVec.toNat (accessAddr s a imm f.2.1) % f.2.1 = 0 ∧
      InScratch s (accessAddr s a imm f.2.1) f.2.1 off ∧ (me s).v.queue = [] ∧ NothingPosted s s.cur ∧
      poisoned s (Loc.spad (s.cur / 16) off) f.2.1 = false) ∧
    (∃ (s : State) (p : BitVec 1) (d : BitVec 5) (a : BitVec 5) (la : BitVec 4) (imm : BitVec 8) (k : Nat) (f : Instr × Nat × Bool),
      f ∈ loadForms p d a la imm ∧ BitVec.toNat (accessAddr s a imm f.2.1) % f.2.1 = 0 ∧
      InMemory s (accessAddr s a imm f.2.1) f.2.1 k ∧ (me s).v.queue = [] ∧ NothingPosted s s.cur ∧ s.poison = [] ∧
      s.halos = [] ∧ s.haloDirty = [] ∧ s.haloRep = [] ∧ ∀ e ∈ (co s (s.cur / 16)).l1, e.1 ≠ k / 128) ∧
    (∃ (s : State) (t : State) (p : BitVec 1) (d : BitVec 5) (a : BitVec 5) (b : BitVec 5) (imm : BitVec 8) (off : Nat),
      s.snap = none ∧ BitVec.toNat (accessAddr s a imm 8) % 8 = 0 ∧ InScratch s (accessAddr s a imm 8) 8 off ∧
      (me s).v.queue = [] ∧ NothingPosted s s.cur ∧ exec (Instr.std p d a imm) s = Host.Outcome.next t ∧
      accessAddr t b imm 8 = accessAddr s a imm 8) :=
  ⟨⟨wS wT, 0, 5, 8, 1, 0, 0x40, (.ldd 0 5 8 1 0, 8, true), by simp only [NothingPosted, InScratch]; decide⟩,
    ⟨wS wT, 0, 5, 9, 1, 0, 0x2000, (.ldd 0 5 9 1 0, 8, true), by simp only [Physical, NothingPosted, InMemory, NoWindow]; decide⟩,
    ⟨wS wT, wAfter (exec (.std 0 3 8 0) (wS wT)), 0, 3, 8, 8, 0, 0x40, by simp only [NothingPosted, InScratch]; and_intros <;> first | decide | rfl⟩⟩

theorem witness_LoadFaults :
    (∃ (s : State) (p : BitVec 1) (d : BitVec 5) (a : BitVec 5) (la : BitVec 4) (imm : BitVec 8) (f : Instr × Nat × Bool),
      f ∈ loadForms p d a la imm ∧ Quiet s ∧ BitVec.toNat (accessAddr s a imm f.2.1) % f.2.1 ≠ 0) ∧
    (∃ (s : State) (p : BitVec 1) (d : BitVec 5) (a : BitVec 5) (la : BitVec 4) (imm : BitVec 8) (f : Instr × Nat × Bool),
      f ∈ loadForms p d a la imm ∧ Quiet s ∧ BitVec.toNat (accessAddr s a imm f.2.1) % f.2.1 = 0 ∧
      BitVec.getLsbD (me s).u.lwb 0 = true ∧
      BitVec.toNat (accessAddr s a imm f.2.1) / 2 ^ 19 = BitVec.toNat (me s).u.lwb / 2 ^ 19 ∧
      (co s (s.cur / 16)).sp * 65536 < BitVec.toNat (accessAddr s a imm f.2.1) % 2 ^ 19 + f.2.1) :=
  ⟨⟨wS wT, 0, 5, 1, 1, 0, (.ldw 0 5 1 1 0, 4, true), by simp only [Quiet]; decide⟩,
    ⟨wS { wT with g := [(8, 0xC0000)] }, 0, 5, 8, 1, 0, (.ldd 0 5 8 1 0, 8, true), by simp only [Quiet]; decide⟩⟩

theorem witness_Stores :
    (∃ (s : State) (p : BitVec 1) (d : BitVec 5) (a : BitVec 5) (imm : BitVec 8) (f : Instr × Nat),
      f ∈ storeForms p d a imm ∧ BitVec.toNat (accessAddr s a imm f.2) % f.2 = 0 ∧ (me s).v.queue = [] ∧
      List.length (me s).stores < 64) ∧
    (∃ (s : State) (p : BitVec 1) (d : BitVec 5) (a : BitVec 5) (imm : BitVec 8) (f : Instr × Nat),
      f ∈ storeForms p d a imm ∧ BitVec.toNat (accessAddr s a imm f.2) % f.2 ≠ 0 ∧ Quiet s) :=
  ⟨⟨wS wT, 0, 3, 8, 0, (.std 0 3 8 0, 8), by decide⟩,
    ⟨wS wT, 0, 3, 1, 0, (.sth 0 3 1 0, 2), by simp only [Quiet]; decide⟩⟩

theorem witness_StoresPerformed :
    (∃ (s : State) (tid : Nat) (x : Store) (rest : List Store), (th s tid).stores = x :: rest ∧
      (th s tid).precs = [] ∧ s.pages = [] ∧ s.pageWaits = [] ∧ x.space = Space.scratch ∧ x.off % x.width = 0 ∧
      x.off + x.width ≤ (co s (tid / 16)).sp * 65536) ∧
    (∃ (s : State) (tid : Nat) (x : Store) (rest : List Store) (k : Nat), (th s tid).stores = x :: rest ∧
      (th s tid).precs = [] ∧ s.pages = [] ∧ s.pageWaits = [] ∧ x.space = Space.global ∧
      BitVec.toNat x.addr % x.width = 0 ∧ x.priv = Priv.hyp ∧ s.pkg < 256 ∧ BitVec.toNat x.addr = s.pkg * 2 ^ 40 + k ∧
      k < 2 ^ 40 ∧ (granule s (k / 2 ^ 30)).part = (cx s (th s tid).ctx).part ∧ s.halos = []) ∧
    (∃ (s : State) (tid : Nat) (x : Store) (rest : List Store), (th s tid).stores = x :: rest ∧
      (th s tid).precs = [] ∧ s.pages = [] ∧ s.pageWaits = [] ∧ x.space = Space.scratch ∧ x.off % x.width = 0 ∧
      (co s (tid / 16)).sp * 65536 < x.off + x.width ∧ (cx s (th s tid).ctx).sfqb = 0) ∧
    (∃ (s : State) (tid : Nat) (x : Store) (c : Nat) (o : Nat), (th s tid).sent = [x] ∧ x.op = Rmw.put ∧
      (∀ p ∈ s.posts, p.tid ≠ tid) ∧ (∀ y ∈ (th s tid).stores, x.seq ≤ y.seq) ∧ s.stuck = [] ∧ s.halos = [] ∧
      s.waiters = [] ∧ s.arms = [] ∧ Memory.wf s.mem = true ∧ Memory.wf s.spads = true ∧
      x.loc = some (Loc.spad c o)) ∧
    (∃ (s : State) (tid : Nat) (x : Store) (k : Nat), (th s tid).sent = [x] ∧ x.op = Rmw.put ∧ (∀ p ∈ s.posts,
      p.tid ≠ tid) ∧ (∀ y ∈ (th s tid).stores, x.seq ≤ y.seq) ∧ s.stuck = [] ∧ s.halos = [] ∧ s.waiters = [] ∧
      s.arms = [] ∧ Memory.wf s.mem = true ∧ Memory.wf s.spads = true ∧ x.loc = some (Loc.mem k) ∧ k < 2 ^ 40 ∧
      x.pbmt = 0 ∧ ∀ e ∈ (co s (tid / 16)).l1, e.1 ≠ k / 128) :=
  ⟨⟨wS { wT with stores := [wStore .scratch 0 0x3FFF8] }, 0, wStore .scratch 0 0x3FFF8, [], by decide⟩,
    ⟨wS { wT with stores := [wStore .global 0x2000 0] }, 0, wStore .global 0x2000 0, [], 0x2000, by decide⟩,
    ⟨wS { wT with stores := [wStore .scratch 0 0x40000] }, 0, wStore .scratch 0 0x40000, [], by decide⟩,
    ⟨wS { wT with sent := [{ wStore .scratch 0 8 with loc := some (.spad 0 8) }] }, 0, { wStore .scratch 0 8 with loc := some (.spad 0 8) }, 0, 8, by decide⟩,
    ⟨wS { wT with sent := [{ wStore .global 0x2000 8 with loc := some (.mem 0x2000) }] }, 0, { wStore .global 0x2000 8 with loc := some (.mem 0x2000) }, 0x2000, by decide⟩⟩

theorem witness_LongResultArrives :
    ∃ (s : State) (tid : Nat) (n : Nat) (l : Long) (v : Word), (th s tid).longs[n]? = some l ∧
      l.res = LongRes.ready v ∧ l.d < 32 :=
  ⟨wS { wT with longs := [{ d := 31, left := 0, res := .ready 7, pc := 0 }] }, 0, 0, { d := 31, left := 0, res := .ready 7, pc := 0 }, 7, by decide⟩

theorem witness_VectorMemoryWords :
    (∃ (s : State) (ew : BitVec 2), QueueRoom s ∧ SomeType s ∧ 3 ≤ vmtNow s ∧ Quiet s ∧
      typeWidth (vtNow s) = 8 * 2 ^ BitVec.toNat ew) ∧
    (∃ (s : State) (ew : BitVec 2), QueueRoom s ∧ SomeType s ∧ vmtNow s < 3 ∧
      (typeWidth (vtNow s) = 8 * 2 ^ BitVec.toNat ew ∨ vtNow s = 5 ∧ ew = 0)) ∧
    (∃ (s : State) (ew : BitVec 2), QueueRoom s ∧ SomeType s ∧ vmtNow s < 3 ∧
      (typeWidth (vtNow s) = 8 * 2 ^ BitVec.toNat ew ∨ (vtNow s = 5 ∧ ew = 0) ∧ vlNow s % 2 = 0)) ∧
    (∃ (s : State) (d : BitVec 5) (b : BitVec 5) (ew : BitVec 2), QueueRoom s ∧ SomeType s ∧ vmtNow s < 3 ∧
      typeWidth (vtNow s) = 8 * 2 ^ BitVec.toNat ew ∧ d ≠ b ∧ vlNow s ≤ (me s).v.rows * 32) ∧
    (∃ (s : State) (d : BitVec 5) (b : BitVec 5) (ew : BitVec 2), QueueRoom s ∧ SomeType s ∧ vmtNow s < 3 ∧
      typeWidth (vtNow s) = 8 * 2 ^ BitVec.toNat ew ∧ (d ≠ b ∧ vlNow s ≤ (me s).v.rows * 32) ∧
      (vtNow s = 8 ∨ vtNow s = 11)) ∧
    (∃ (s : State) (d : BitVec 5) (b : BitVec 5) (ew : BitVec 2), QueueRoom s ∧ SomeType s ∧ vmtNow s < 3 ∧
      typeWidth (vtNow s) = 8 * 2 ^ BitVec.toNat ew ∧ (d ≠ b ∧ vlNow s ≤ (me s).v.rows * 32) ∧
      (vtNow s = 0 ∨ vtNow s = 9)) ∧
    (∃ (s : State) (ew : BitVec 2), QueueRoom s ∧ SomeType s ∧ vmtNow s < 3 ∧
      typeWidth (vtNow s) = 8 * 2 ^ BitVec.toNat ew) :=
  ⟨⟨wS { wV 8 5 with v := { rows := 2, vt := 8, vl := 5, vmt := 3 } }, 2, by simp only [Quiet, QueueRoom, SomeType]; decide⟩,
    ⟨wS (wV 8 5), 2, by simp only [QueueRoom, SomeType]; decide⟩,
    ⟨wS (wV 5 4), 0, by simp only [QueueRoom, SomeType]; decide⟩,
    ⟨wS (wV 8 64), 2, 3, 2, by simp only [QueueRoom, SomeType]; decide⟩,
    ⟨wS (wV 11 64), 2, 3, 3, by simp only [QueueRoom, SomeType]; decide⟩,
    ⟨wS (wV 9 64), 2, 3, 3, by simp only [QueueRoom, SomeType]; decide⟩,
    ⟨wS (wV 8 5), 2, by simp only [QueueRoom, SomeType]; decide⟩⟩

theorem witness_VectorLaneWords :
    (∃ (s : State), QueueRoom s ∧ IntType s) ∧
    (∃ (s : State), QueueRoom s ∧ FloatType s) ∧
    (∃ (s : State), QueueRoom s ∧ SomeType s) ∧
    (∃ (s : State), QueueRoom s ∧ vtNow s = 8) ∧
    (∃ (s : State) (d : BitVec 5) (b : BitVec 5) (sb : BitVec 1), QueueRoom s ∧ FloatType s ∧ (sb = 1 ∨ d ≠ b)) ∧
    (∃ (s : State) (d : BitVec 5), QueueRoom s ∧ IntType s ∧ BitVec.toNat d < 8) ∧
    (∃ (s : State) (d : BitVec 5), QueueRoom s ∧ FloatType s ∧ BitVec.toNat d < 8) ∧
    (∃ (s : State) (d : BitVec 5), QueueRoom s ∧ SomeType s ∧ BitVec.toNat d < 8) ∧
    (∃ (s : State), QueueRoom s ∧ FloatType s) ∧
    (∃ (s : State), QueueRoom s ∧ SomeType s) ∧
    (∃ (s : State) (d : BitVec 5) (a : BitVec 5) (b : BitVec 5), QueueRoom s ∧ BitVec.toNat d < 8 ∧
      BitVec.toNat a < 8 ∧ BitVec.toNat b < 8) ∧
    (∃ (s : State) (d : BitVec 5) (a : BitVec 5), QueueRoom s ∧ BitVec.toNat d < 8 ∧ BitVec.toNat a < 8) ∧
    (∃ (s : State) (d : BitVec 5), QueueRoom s ∧ BitVec.toNat d < 8) ∧
    (∃ (s : State) (a : BitVec 5), QueueRoom s ∧ BitVec.toNat a < 8) ∧
    (∃ (s : State) (a : BitVec 5), QueueRoom s ∧ BitVec.toNat a < 8 ∧ IntType s) ∧
    (∃ (s : State), QueueRoom s ∧ IntType s) ∧
    (∃ (s : State) (d : BitVec 5) (a : BitVec 5), QueueRoom s ∧ SomeType s ∧ d ≠ a) ∧
    (∃ (s : State) (d : BitVec 5) (a : BitVec 5) (b : BitVec 5), QueueRoom s ∧ SomeType s ∧ d ≠ a ∧ d ≠ b) ∧
    (∃ (s : State), QueueRoom s ∧ SomeType s) ∧
    (∃ (s : State) (d : BitVec 5) (a : BitVec 5) (b : BitVec 5), QueueRoom s ∧ d ≠ a ∧
      vlNow s ≤ (me s).v.rows * 1024 / typeWidth (BitVec.toNat b) ∧ (vtNow s, BitVec.toNat b) ∈ [(9, 0), (11, 8), (0,
      1), (0, 2), (8, 10), (1, 3), (1, 4), (2, 3), (2, 4), (10, 6)]) ∧
    (∃ (s : State) (d : BitVec 5) (a : BitVec 5) (b : BitVec 5), QueueRoom s ∧ d ≠ a ∧
      vlNow s ≤ (me s).v.rows * 1024 / typeWidth (BitVec.toNat b) ∧ (BitVec.toNat b, vtNow s) ∈ [(9, 0), (11, 8), (0,
      1), (0, 2), (8, 10), (1, 3), (1, 4), (2, 3), (2, 4), (10, 6)]) ∧
    (∃ (s : State) (b : BitVec 5), QueueRoom s ∧ (vtNow s, BitVec.toNat b) ∈ [(9, 11), (0, 8), (1, 10), (2, 10), (3,
      6), (4, 6)]) ∧
    (∃ (s : State) (b : BitVec 5), QueueRoom s ∧ (BitVec.toNat b, vtNow s) ∈ [(9, 11), (0, 8), (1, 10), (2, 10), (3,
      6), (4, 6)]) ∧
    (∃ (s : State) (d : BitVec 5) (a : BitVec 5) (b : BitVec 5), QueueRoom s ∧ vtNow s = 0 ∧ d ≠ a ∧ d ≠ b ∧ a ≠ b) :=
  ⟨⟨wS (wV 11 5), by simp only [IntType, QueueRoom]; decide⟩,
    ⟨wS (wV 9 5), by simp only [QueueRoom, FloatType]; decide⟩,
    ⟨wS (wV 5 5), by simp only [QueueRoom, SomeType]; decide⟩, ⟨wS (wV 8 5), by simp only [QueueRoom]; decide⟩,
    ⟨wS (wV 0 5), 2, 2, 1, by simp only [QueueRoom, FloatType]; decide⟩,
    ⟨wS (wV 8 5), 7, by simp only [IntType, QueueRoom]; decide⟩,
    ⟨wS (wV 0 5), 7, by simp only [QueueRoom, FloatType]; decide⟩,
    ⟨wS (wV 3 5), 7, by simp only [QueueRoom, SomeType]; decide⟩,
    ⟨wS (wV 2 5), by simp only [QueueRoom, FloatType]; decide⟩,
    ⟨wS (wV 4 5), by simp only [QueueRoom, SomeType]; decide⟩,
    ⟨wS (wV 4 5), 7, 7, 7, by simp only [QueueRoom]; decide⟩, ⟨wS (wV 4 5), 7, 7, by simp only [QueueRoom]; decide⟩,
    ⟨wS (wV 4 5), 7, by simp only [QueueRoom]; decide⟩, ⟨wS (wV 4 5), 7, by simp only [QueueRoom]; decide⟩,
    ⟨wS (wV 6 5), 7, by simp only [IntType, QueueRoom]; decide⟩,
    ⟨wS (wV 10 5), by simp only [IntType, QueueRoom]; decide⟩,
    ⟨wS (wV 1 5), 31, 7, by simp only [QueueRoom, SomeType]; decide⟩,
    ⟨wS (wV 1 5), 31, 7, 6, by simp only [QueueRoom, SomeType]; decide⟩,
    ⟨wS (wV 1 5), by simp only [QueueRoom, SomeType]; decide⟩,
    ⟨wS (wV 9 32), 31, 7, 0, by simp only [QueueRoom]; decide⟩,
    ⟨wS (wV 0 32), 31, 7, 9, by simp only [QueueRoom]; decide⟩, ⟨wS (wV 9 5), 11, by simp only [QueueRoom]; decide⟩,
    ⟨wS (wV 11 5), 9, by simp only [QueueRoom]; decide⟩, ⟨wS (wV 0 5), 31, 7, 6, by simp only [QueueRoom]; decide⟩⟩

theorem witness_VectorConfiguration :
    (∃ (s : State) (ty : BitVec 4), (me s).v.rows ≠ 0 ∧ List.length (me s).v.queue < 8 ∧ BitVec.toNat ty < 12 ∧
      ty ≠ 7) ∧
    (∃ (s : State) (mt : BitVec 3), (me s).v.rows ≠ 0 ∧ List.length (me s).v.queue < 8 ∧ BitVec.toNat mt < 3) ∧
    (∃ (s : State), (me s).v.rows = 0 ∧ Quiet s) :=
  ⟨⟨wS (wV 0 5), 11, by decide⟩, ⟨wS (wV 0 5), 2, by decide⟩, ⟨wS wT, by simp only [Quiet]; decide⟩⟩

theorem witness_TileStreamingWords :
    (∃ (s : State), TileOpen s ∧ (∀ e ∈ (me s).v.queue, VOp.isStore e.op = false) ∧
      List.length (co s (s.cur / 16)).tq < 16) ∧
    (∃ (s : State) (a : BitVec 5) (b : BitVec 5) (y : BitVec 4), TileOpen s ∧ (∀ e ∈ (me s).v.queue,
      VOp.isStore e.op = false) ∧ List.length (co s (s.cur / 16)).tq < 16 ∧ BitVec.toNat y < 10 ∧
      (BitVec.toNat (rd s a) % 4 = 0 ∧ BitVec.toNat (rd s b) % 4 = 0) ∧
      (BitVec.toNat (me s).u.fmt / 256 = 0 ∨ BitVec.toNat (me s).u.fmt / 256 = 8 ∧ (y = 7 ∨ y = 8)) ∧
      (BitVec.toNat (me s).u.fmt % 256 = 0 ∨ (BitVec.toNat (me s).u.fmt % 16,
      BitVec.toNat (me s).u.fmt / 16 % 16) = List.getD [(1, 1), (2, 2), (3, 3), (3, 4), (4, 3), (4, 4), (5, 5), (6,
      6), (7, 6), (0, 0)] (BitVec.toNat y) (0, 0))) ∧
    (∃ (s : State) (a : BitVec 5) (b : BitVec 5) (y : BitVec 4), TileOpen s ∧ (∀ e ∈ (me s).v.queue,
      VOp.isStore e.op = false) ∧ List.length (co s (s.cur / 16)).tq < 16 ∧ (BitVec.toNat y < 10 ∧
      (BitVec.toNat (rd s a) % 4 = 0 ∧ BitVec.toNat (rd s b) % 4 = 0) ∧
      (BitVec.toNat (me s).u.fmt / 256 = 0 ∨ BitVec.toNat (me s).u.fmt / 256 = 8 ∧ (y = 7 ∨ y = 8)) ∧
      (BitVec.toNat (me s).u.fmt % 256 = 0 ∨ (BitVec.toNat (me s).u.fmt % 16,
      BitVec.toNat (me s).u.fmt / 16 % 16) = List.getD [(1, 1), (2, 2), (3, 3), (3, 4), (4, 3), (4, 4), (5, 5), (6,
      6), (7, 6), (0, 0)] (BitVec.toNat y) (0, 0))) ∧ ∃ k r, memberOf s s.cur = some (k, r) ∧ isGang (gr s k) = true ∧
      List.length (gr s k).members ≤ 64) ∧
    (∃ (s : State) (a : BitVec 5) (b : BitVec 5) (y : BitVec 4), TileOpen s ∧ (∀ e ∈ (me s).v.queue,
      VOp.isStore e.op = false) ∧ List.length (co s (s.cur / 16)).tq < 16 ∧ (BitVec.toNat (rd s a) % 4 = 0 ∧
      BitVec.toNat (rd s b) % 4 = 0) ∧ (y = 3 ∨ y = 5)) ∧
    (∃ (s : State), TileOpen s ∧ (∀ e ∈ (me s).v.queue, VOp.isStore e.op = false) ∧
      List.length (co s (s.cur / 16)).tq < 16 ∧ (co s (s.cur / 16)).cfg.tm = (co s (s.cur / 16)).cfg.tn ∧
      (co s (s.cur / 16)).cfg.tn ≤ 64) ∧
    (∃ (s : State) (t : BitVec 2) (ts : BitVec 2), TileOpen s ∧ (∀ e ∈ (me s).v.queue, VOp.isStore e.op = false) ∧
      List.length (co s (s.cur / 16)).tq < 16 ∧ (co s (s.cur / 16)).cfg.tn ≤ 64 ∧ t ≠ ts) :=
  ⟨⟨wTile, by simp only [TileOpen]; decide⟩, ⟨wTile, 6, 5, 9, by simp only [TileOpen]; decide⟩,
    ⟨{ wTile with groups := [(0, { used := true, state := .pinned, members := [(0, 0)] })] }, 6, 5, 9, by simp only [TileOpen]; exact ⟨by decide, by decide, by decide, by decide, 0, 0, by decide⟩⟩,
    ⟨wTile, 6, 5, 5, by simp only [TileOpen]; decide⟩, ⟨wTile, by simp only [TileOpen]; decide⟩,
    ⟨wTile, 1, 2, by simp only [TileOpen]; decide⟩⟩

theorem witness_TileMemoryWords :
    (∃ (s : State) (c : BitVec 1) (a : BitVec 5) (b : BitVec 5) (y : BitVec 4) (x : Bool),
      (y = 0 ∨ y = 1 ∨ y = 2 ∨ y = 8) ∧ TileReady s x a b (if y = 0 ∨ y = 8 then 4 else 2) ∧ HoldsTiles s ∧
      CalmCounters s ∧ (co s (s.cur / 16)).cfg.tn ≤ 64 ∧ (co s (s.cur / 16)).cfg.tm ≤ 128 ∧
      CountReady s (s.cur / 16) (me s).ctx (c == 1) (co s (s.cur / 16)).cfg.tcc ∧ ∀ i < (co s (s.cur / 16)).cfg.tm,
      ∀ j < (co s (s.cur / 16)).cfg.tn, ∀ (r : Word), tileRows s x a b i = some r → ∃ off,
      InScratch s (r + BitVec.ofNat 64 (j * if y = 0 ∨ y = 8 then 4 else 2)) (if y = 0 ∨ y = 8 then 4 else 2) off) ∧
    (∃ (s : State) (p : BitVec 1) (t : BitVec 2) (c : BitVec 1) (a : BitVec 5) (b : BitVec 5) (y : BitVec 4) (f : Instr × Bool × Rmw),
      f ∈ [(Instr.tileSt p t c a b y, false, Rmw.put), (Instr.tileStx p t c a b y, true, Rmw.put),
      (Instr.tileStxa p t c a b y, true, if y = 8 then Rmw.add else Rmw.fadd)] ∧ (y = 0 ∨ y = 8 ∨ f.2.2 = Rmw.put ∧
      (y = 1 ∨ y = 2)) ∧ TileReady s f.2.1 a b (if y = 0 ∨ y = 8 then 4 else 2) ∧ CalmCounters s ∧
      (co s (s.cur / 16)).cfg.tm * (co s (s.cur / 16)).cfg.tn ≤ 64 ∧ (co s (s.cur / 16)).cfg.tn ≤ 64 ∧
      CountReady s (s.cur / 16) (me s).ctx (c == 1) (co s (s.cur / 16)).cfg.tcc ∧ (∀ i < (co s (s.cur / 16)).cfg.tm,
      tileRows s f.2.1 a b i ≠ none) ∧ ∀ i < (co s (s.cur / 16)).cfg.tm, ∀ j < (co s (s.cur / 16)).cfg.tn,
      ∀ (r : Word), tileRows s f.2.1 a b i = some r →
      NoWindow s (r + BitVec.ofNat 64 (j * if y = 0 ∨ y = 8 then 4 else 2))) :=
  ⟨⟨wTile, 1, 2, 5, 8, false, by simp only [TileReady, TileOpen, NothingPosted, HoldsTiles, CalmCounters, CountReady, NearAddr, InScratch]; exact ⟨by decide, by decide, by decide, by decide, by decide, by decide, fun _ => ⟨0, 1, by decide⟩, fun i hi j hj r h => by simp only [tileRows] at h; cases h; have hi' : i < 2 := hi; have hj' : j < 2 := hj; refine ⟨0x200 + 8 * i + 4 * j, ?_⟩; interval_cases i <;> interval_cases j <;> decide⟩⟩,
    ⟨wTile, 0, 1, 1, 9, 5, 8, (.tileSt 0 1 1 9 5 8, false, .put), by simp only [TileReady, TileOpen, NothingPosted, CalmCounters, CountReady, NearAddr, NoWindow]; exact ⟨by simp, by decide, by decide, by decide, by decide, by decide, fun _ => ⟨0, 1, by decide⟩, by decide, fun i hi j hj r h => by simp only [tileRows] at h; cases h; have hi' : i < 2 := hi; have hj' : j < 2 := hj; interval_cases i <;> interval_cases j <;> decide⟩⟩⟩

theorem witness_TileRows :
    ∃ (s : State) (c : BitVec 1) (a : BitVec 5) (y : BitVec 4), TileOpen s ∧ (me s).v.queue = [] ∧
      (co s (s.cur / 16)).tq = [] ∧ (co s (s.cur / 16)).relPending = false ∧ (co s (s.cur / 16)).tfault = none ∧
      BitVec.getLsbD (me s).u.afcode 63 = false ∧ HoldsTiles s ∧ CalmCounters s ∧ Memory.wf s.vregs = true ∧
      (y = 0 ∨ y = 1 ∨ y = 2 ∨ y = 8) ∧ (me s).v.rows ≠ 0 ∧ (me s).v.rows ≤ 32 ∧ BitVec.toNat y = vtNow s ∧
      BitVec.toNat (rd s a) < 128 ∧ (co s (s.cur / 16)).cfg.tn ≤ 64 ∧
      (co s (s.cur / 16)).cfg.tn ≤ (me s).v.rows * 1024 / typeWidth (BitVec.toNat y) ∧
      CountReady s (s.cur / 16) (me s).ctx (c == 1) (co s (s.cur / 16)).cfg.tcc ∧ MarverFree s (s.cur / 16) :=
  ⟨wTile, 1, 7, 0, by simp only [HoldsTiles, TileOpen, NearAddr, MarverFree, CalmCounters, CountReady]; and_intros <;> first | exact fun _ => ⟨0, 1, by decide⟩ | exact ⟨0, by decide, by decide, by decide⟩ | decide⟩

theorem witness_VectorExecution :
    (∃ (s : State) (tid : Nat) (i : Nat) (e : VEntry) (rest : List VEntry) (l : Loc), (th s tid).v.queue = e :: rest ∧
      (typeWidth e.vt = 8 ∨ typeWidth e.vt = 16 ∨ typeWidth e.vt = 32 ∨ typeWidth e.vt = 64 ∨ typeWidth e.vt = 4 ∧
      e.op = VOp.vld) ∧ Memory.wf s.vregs = true ∧ Memory.wf s.mem = true ∧ (th s tid).state = SlotState.ready ∧
      NextElem s tid e i ∧
      BitVec.toNat (if e.op = VOp.vldb then e.ga else if e.op = VOp.vlds ∨ e.op = VOp.vsts then e.ga + BitVec.ofNat 64 i * e.gb else if e.op ∈ [VOp.vldx,
      VOp.vstx, VOp.vstxa,
      VOp.vstxf] then e.ga + BitVec.signExtend 64 (BitVec.ofNat 32 (vGet s tid e.b 32 i)) else e.ga + BitVec.ofNat 64 (i * typeWidth e.vt / 8)) % ((typeWidth e.vt + 7) / 8) = 0 ∧
      NothingPosted s tid ∧ s.stuck = [] ∧ NoCopies s ∧ e.d < 32 ∧
      PlaceOf s tid e.priv e.vmt (if e.op = VOp.vldb then e.ga else if e.op = VOp.vlds ∨ e.op = VOp.vsts then e.ga + BitVec.ofNat 64 i * e.gb else if e.op ∈ [VOp.vldx,
      VOp.vstx, VOp.vstxa,
      VOp.vstxf] then e.ga + BitVec.signExtend 64 (BitVec.ofNat 32 (vGet s tid e.b 32 i)) else e.ga + BitVec.ofNat 64 (i * typeWidth e.vt / 8)) ((typeWidth e.vt + 7) / 8) l ∧
      poisoned s l ((typeWidth e.vt + 7) / 8) = false ∧ typeWidth e.vt * i < 32768 ∧ (∀ (k : Nat), l = Loc.mem k →
      l1Copy (co s (tid / 16)) (k / 128) = none) ∧ e.op ∈ [VOp.vld, VOp.vlds, VOp.vldx, VOp.vldff]) ∧
    (∃ (s : State) (tid : Nat) (i : Nat) (e : VEntry) (rest : List VEntry) (l : Loc), (th s tid).v.queue = e :: rest ∧
      (typeWidth e.vt = 8 ∨ typeWidth e.vt = 16 ∨ typeWidth e.vt = 32 ∨ typeWidth e.vt = 64 ∨ typeWidth e.vt = 4 ∧
      e.op = VOp.vld) ∧ Memory.wf s.vregs = true ∧ Memory.wf s.mem = true ∧ (th s tid).state = SlotState.ready ∧
      NextElem s tid e i ∧
      BitVec.toNat (if e.op = VOp.vldb then e.ga else if e.op = VOp.vlds ∨ e.op = VOp.vsts then e.ga + BitVec.ofNat 64 i * e.gb else if e.op ∈ [VOp.vldx,
      VOp.vstx, VOp.vstxa,
      VOp.vstxf] then e.ga + BitVec.signExtend 64 (BitVec.ofNat 32 (vGet s tid e.b 32 i)) else e.ga + BitVec.ofNat 64 (i * typeWidth e.vt / 8)) % ((typeWidth e.vt + 7) / 8) = 0 ∧
      NothingPosted s tid ∧ s.stuck = [] ∧ NoCopies s ∧ e.d < 32 ∧
      PlaceOf s tid e.priv e.vmt (if e.op = VOp.vldb then e.ga else if e.op = VOp.vlds ∨ e.op = VOp.vsts then e.ga + BitVec.ofNat 64 i * e.gb else if e.op ∈ [VOp.vldx,
      VOp.vstx, VOp.vstxa,
      VOp.vstxf] then e.ga + BitVec.signExtend 64 (BitVec.ofNat 32 (vGet s tid e.b 32 i)) else e.ga + BitVec.ofNat 64 (i * typeWidth e.vt / 8)) ((typeWidth e.vt + 7) / 8) l ∧
      poisoned s l ((typeWidth e.vt + 7) / 8) = false ∧ typeWidth e.vt * i < 32768 ∧ (∀ (k : Nat), l = Loc.mem k →
      l1Copy (co s (tid / 16)) (k / 128) = none) ∧ e.op ∈ [VOp.vld, VOp.vlds, VOp.vldx, VOp.vldff]) ∧
    (∃ (s : State) (tid : Nat) (i : Nat) (e : VEntry) (rest : List VEntry) (l : Loc), (th s tid).v.queue = e :: rest ∧
      (typeWidth e.vt = 8 ∨ typeWidth e.vt = 16 ∨ typeWidth e.vt = 32 ∨ typeWidth e.vt = 64 ∨ typeWidth e.vt = 4 ∧
      e.op = VOp.vld) ∧ Memory.wf s.vregs = true ∧ Memory.wf s.mem = true ∧ (th s tid).state = SlotState.ready ∧
      NextElem s tid e i ∧
      BitVec.toNat (if e.op = VOp.vldb then e.ga else if e.op = VOp.vlds ∨ e.op = VOp.vsts then e.ga + BitVec.ofNat 64 i * e.gb else if e.op ∈ [VOp.vldx,
      VOp.vstx, VOp.vstxa,
      VOp.vstxf] then e.ga + BitVec.signExtend 64 (BitVec.ofNat 32 (vGet s tid e.b 32 i)) else e.ga + BitVec.ofNat 64 (i * typeWidth e.vt / 8)) % ((typeWidth e.vt + 7) / 8) = 0 ∧
      NothingPosted s tid ∧ s.stuck = [] ∧ NoCopies s ∧ e.d < 32 ∧
      PlaceOf s tid e.priv e.vmt (if e.op = VOp.vldb then e.ga else if e.op = VOp.vlds ∨ e.op = VOp.vsts then e.ga + BitVec.ofNat 64 i * e.gb else if e.op ∈ [VOp.vldx,
      VOp.vstx, VOp.vstxa,
      VOp.vstxf] then e.ga + BitVec.signExtend 64 (BitVec.ofNat 32 (vGet s tid e.b 32 i)) else e.ga + BitVec.ofNat 64 (i * typeWidth e.vt / 8)) ((typeWidth e.vt + 7) / 8) l ∧
      poisoned s l ((typeWidth e.vt + 7) / 8) = false ∧ typeWidth e.vt * i < 32768 ∧ (∀ (k : Nat), l = Loc.mem k →
      l1Copy (co s (tid / 16)) (k / 128) = none) ∧ e.op ∈ [VOp.vld, VOp.vlds, VOp.vldx, VOp.vldff]) ∧
    (∃ (s : State) (tid : Nat) (i : Nat) (e : VEntry) (rest : List VEntry) (l : Loc), (th s tid).v.queue = e :: rest ∧
      (typeWidth e.vt = 8 ∨ typeWidth e.vt = 16 ∨ typeWidth e.vt = 32 ∨ typeWidth e.vt = 64 ∨ typeWidth e.vt = 4 ∧
      e.op = VOp.vld) ∧ Memory.wf s.vregs = true ∧ Memory.wf s.mem = true ∧ (th s tid).state = SlotState.ready ∧
      NextElem s tid e i ∧
      BitVec.toNat (if e.op = VOp.vldb then e.ga else if e.op = VOp.vlds ∨ e.op = VOp.vsts then e.ga + BitVec.ofNat 64 i * e.gb else if e.op ∈ [VOp.vldx,
      VOp.vstx, VOp.vstxa,
      VOp.vstxf] then e.ga + BitVec.signExtend 64 (BitVec.ofNat 32 (vGet s tid e.b 32 i)) else e.ga + BitVec.ofNat 64 (i * typeWidth e.vt / 8)) % ((typeWidth e.vt + 7) / 8) = 0 ∧
      NothingPosted s tid ∧ s.stuck = [] ∧ NoCopies s ∧ e.d < 32 ∧
      PlaceOf s tid e.priv e.vmt (if e.op = VOp.vldb then e.ga else if e.op = VOp.vlds ∨ e.op = VOp.vsts then e.ga + BitVec.ofNat 64 i * e.gb else if e.op ∈ [VOp.vldx,
      VOp.vstx, VOp.vstxa,
      VOp.vstxf] then e.ga + BitVec.signExtend 64 (BitVec.ofNat 32 (vGet s tid e.b 32 i)) else e.ga + BitVec.ofNat 64 (i * typeWidth e.vt / 8)) ((typeWidth e.vt + 7) / 8) l ∧
      poisoned s l ((typeWidth e.vt + 7) / 8) = false ∧ typeWidth e.vt * i < 32768 ∧ (∀ (k : Nat), l = Loc.mem k →
      l1Copy (co s (tid / 16)) (k / 128) = none) ∧ e.op ∈ [VOp.vld, VOp.vlds, VOp.vldx, VOp.vldff]) ∧
    (∃ (s : State) (tid : Nat) (i : Nat) (e : VEntry) (rest : List VEntry) (l : Loc), (th s tid).v.queue = e :: rest ∧
      (typeWidth e.vt = 8 ∨ typeWidth e.vt = 16 ∨ typeWidth e.vt = 32 ∨ typeWidth e.vt = 64 ∨ typeWidth e.vt = 4 ∧
      e.op = VOp.vld) ∧ Memory.wf s.vregs = true ∧ Memory.wf s.mem = true ∧ (th s tid).state = SlotState.ready ∧
      NextElem s tid e i ∧
      BitVec.toNat (if e.op = VOp.vldb then e.ga else if e.op = VOp.vlds ∨ e.op = VOp.vsts then e.ga + BitVec.ofNat 64 i * e.gb else if e.op ∈ [VOp.vldx,
      VOp.vstx, VOp.vstxa,
      VOp.vstxf] then e.ga + BitVec.signExtend 64 (BitVec.ofNat 32 (vGet s tid e.b 32 i)) else e.ga + BitVec.ofNat 64 (i * typeWidth e.vt / 8)) % ((typeWidth e.vt + 7) / 8) = 0 ∧
      NothingPosted s tid ∧ s.stuck = [] ∧ NoCopies s ∧ e.d < 32 ∧
      PlaceOf s tid e.priv e.vmt (if e.op = VOp.vldb then e.ga else if e.op = VOp.vlds ∨ e.op = VOp.vsts then e.ga + BitVec.ofNat 64 i * e.gb else if e.op ∈ [VOp.vldx,
      VOp.vstx, VOp.vstxa,
      VOp.vstxf] then e.ga + BitVec.signExtend 64 (BitVec.ofNat 32 (vGet s tid e.b 32 i)) else e.ga + BitVec.ofNat 64 (i * typeWidth e.vt / 8)) ((typeWidth e.vt + 7) / 8) l ∧
      poisoned s l ((typeWidth e.vt + 7) / 8) = false ∧ typeWidth e.vt * i < 32768 ∧ (∀ (k : Nat), l = Loc.mem k →
      l1Copy (co s (tid / 16)) (k / 128) = none) ∧ e.op = VOp.vldb ∧ rest = [] ∧ e.vl * typeWidth e.vt ≤ 32 * 1024) ∧
    (∃ (s : State) (tid : Nat) (i : Nat) (e : VEntry) (rest : List VEntry) (l : Loc) (c : Nat) (k : Nat),
      (th s tid).v.queue = e :: rest ∧
      (typeWidth e.vt = 8 ∨ typeWidth e.vt = 16 ∨ typeWidth e.vt = 32 ∨ typeWidth e.vt = 64 ∨ typeWidth e.vt = 4 ∧
      e.op = VOp.vld) ∧ Memory.wf s.vregs = true ∧ Memory.wf s.mem = true ∧ (th s tid).state = SlotState.ready ∧
      NextElem s tid e i ∧
      BitVec.toNat (if e.op = VOp.vldb then e.ga else if e.op = VOp.vlds ∨ e.op = VOp.vsts then e.ga + BitVec.ofNat 64 i * e.gb else if e.op ∈ [VOp.vldx,
      VOp.vstx, VOp.vstxa,
      VOp.vstxf] then e.ga + BitVec.signExtend 64 (BitVec.ofNat 32 (vGet s tid e.b 32 i)) else e.ga + BitVec.ofNat 64 (i * typeWidth e.vt / 8)) % ((typeWidth e.vt + 7) / 8) = 0 ∧
      NothingPosted s tid ∧ s.stuck = [] ∧ NoCopies s ∧ e.d < 32 ∧
      PlaceOf s tid e.priv e.vmt (if e.op = VOp.vldb then e.ga else if e.op = VOp.vlds ∨ e.op = VOp.vsts then e.ga + BitVec.ofNat 64 i * e.gb else if e.op ∈ [VOp.vldx,
      VOp.vstx, VOp.vstxa,
      VOp.vstxf] then e.ga + BitVec.signExtend 64 (BitVec.ofNat 32 (vGet s tid e.b 32 i)) else e.ga + BitVec.ofNat 64 (i * typeWidth e.vt / 8)) ((typeWidth e.vt + 7) / 8) l ∧
      poisoned s l ((typeWidth e.vt + 7) / 8) = false ∧ typeWidth e.vt * i < 32768 ∧ (∀ (k : Nat), l = Loc.mem k →
      l1Copy (co s (tid / 16)) (k / 128) = none) ∧ e.op = VOp.vldg ∧ BitVec.toNat e.wctr % 8 < 2 ∧
      NearAddr s (tid / 16) (BitVec.ofNat 64 (BitVec.toNat e.wctr / 8 * 8)) c k ∧
      partOfCore s c = (cx s (th s tid).ctx).part ∧ partOfCore s (tid / 16) = (cx s (th s tid).ctx).part ∧
      s.lehr.withdrawn = [] ∧ s.poison = [] ∧
      0 ≤ BitVec.toInt (tget s.near (c * 256 + k) 0 - (BitVec.sshiftRight ((if e.op = VOp.vldb then e.ga else if e.op = VOp.vlds ∨ e.op = VOp.vsts then e.ga + BitVec.ofNat 64 i * e.gb else if e.op ∈ [VOp.vldx,
      VOp.vstx, VOp.vstxa,
      VOp.vstxf] then e.ga + BitVec.signExtend 64 (BitVec.ofNat 32 (vGet s tid e.b 32 i)) else e.ga + BitVec.ofNat 64 (i * typeWidth e.vt / 8)) - e.wbase) (Nat.log2 ((typeWidth e.vt + 7) / 8)) + 1 + e.gb))) ∧
    (∃ (s : State) (tid : Nat) (i : Nat) (e : VEntry) (rest : List VEntry), (th s tid).v.queue = e :: rest ∧
      (typeWidth e.vt = 8 ∨ typeWidth e.vt = 16 ∨ typeWidth e.vt = 32 ∨ typeWidth e.vt = 64 ∨ typeWidth e.vt = 4 ∧
      e.op = VOp.vld) ∧ Memory.wf s.vregs = true ∧ Memory.wf s.mem = true ∧ (th s tid).state = SlotState.ready ∧
      NextElem s tid e i ∧
      BitVec.toNat (if e.op = VOp.vldb then e.ga else if e.op = VOp.vlds ∨ e.op = VOp.vsts then e.ga + BitVec.ofNat 64 i * e.gb else if e.op ∈ [VOp.vldx,
      VOp.vstx, VOp.vstxa,
      VOp.vstxf] then e.ga + BitVec.signExtend 64 (BitVec.ofNat 32 (vGet s tid e.b 32 i)) else e.ga + BitVec.ofNat 64 (i * typeWidth e.vt / 8)) % ((typeWidth e.vt + 7) / 8) = 0 ∧
      NothingPosted s tid ∧ s.stuck = [] ∧ NoCopies s ∧ e.d < 32 ∧ e.op = VOp.vldff ∧ e.vmt = 1 ∧
      (co s (tid / 16)).sp * 65536 < BitVec.toNat (if e.op = VOp.vldb then e.ga else if e.op = VOp.vlds ∨ e.op = VOp.vsts then e.ga + BitVec.ofNat 64 i * e.gb else if e.op ∈ [VOp.vldx,
      VOp.vstx, VOp.vstxa,
      VOp.vstxf] then e.ga + BitVec.signExtend 64 (BitVec.ofNat 32 (vGet s tid e.b 32 i)) else e.ga + BitVec.ofNat 64 (i * typeWidth e.vt / 8)) + (typeWidth e.vt + 7) / 8 ∧
      (∃ j < i, ActiveElem s tid e j) ∧ rest = []) ∧
    (∃ (s : State) (tid : Nat) (i : Nat) (e : VEntry) (rest : List VEntry), (th s tid).v.queue = e :: rest ∧
      (typeWidth e.vt = 8 ∨ typeWidth e.vt = 16 ∨ typeWidth e.vt = 32 ∨ typeWidth e.vt = 64 ∨ typeWidth e.vt = 4 ∧
      e.op = VOp.vld) ∧ e.op ∈ [VOp.vst, VOp.vsts, VOp.vstx, VOp.vstxa, VOp.vstxf] ∧ typeWidth e.vt ≠ 4 ∧
      NextElem s tid e i ∧ List.length (th s tid).stores < 64 ∧ ∀ x ∈ (th s tid).stores, x.nelem = 1) ∧
    (∃ (s : State) (tid : Nat) (i : Nat) (e : VEntry) (rest : List VEntry), (th s tid).v.queue = e :: rest ∧
      (typeWidth e.vt = 8 ∨ typeWidth e.vt = 16 ∨ typeWidth e.vt = 32 ∨ typeWidth e.vt = 64 ∨ typeWidth e.vt = 4 ∧
      e.op = VOp.vld) ∧ e.op ∈ [VOp.vst, VOp.vsts, VOp.vstx, VOp.vstxa, VOp.vstxf] ∧ typeWidth e.vt ≠ 4 ∧
      NextElem s tid e i ∧ List.length (th s tid).stores < 64 ∧ ∀ x ∈ (th s tid).stores, x.nelem = 1) ∧
    (∃ (s : State) (tid : Nat) (i : Nat) (e : VEntry) (rest : List VEntry), (th s tid).v.queue = e :: rest ∧
      (typeWidth e.vt = 8 ∨ typeWidth e.vt = 16 ∨ typeWidth e.vt = 32 ∨ typeWidth e.vt = 64 ∨ typeWidth e.vt = 4 ∧
      e.op = VOp.vld) ∧ e.op ∈ [VOp.vst, VOp.vsts, VOp.vstx, VOp.vstxa, VOp.vstxf] ∧ typeWidth e.vt ≠ 4 ∧
      NextElem s tid e i ∧ List.length (th s tid).stores < 64 ∧ ∀ x ∈ (th s tid).stores, x.nelem = 1) ∧
    (∃ (s : State) (tid : Nat) (i : Nat) (e : VEntry) (rest : List VEntry), (th s tid).v.queue = e :: rest ∧
      (typeWidth e.vt = 8 ∨ typeWidth e.vt = 16 ∨ typeWidth e.vt = 32 ∨ typeWidth e.vt = 64 ∨ typeWidth e.vt = 4 ∧
      e.op = VOp.vld) ∧ e.op ∈ [VOp.vst, VOp.vsts, VOp.vstx, VOp.vstxa, VOp.vstxf] ∧ typeWidth e.vt ≠ 4 ∧
      NextElem s tid e i ∧ List.length (th s tid).stores < 64 ∧ ∀ x ∈ (th s tid).stores, x.nelem = 1) ∧
    (∃ (s : State) (tid : Nat) (i : Nat) (e : VEntry) (rest : List VEntry), (th s tid).v.queue = e :: rest ∧
      (typeWidth e.vt = 8 ∨ typeWidth e.vt = 16 ∨ typeWidth e.vt = 32 ∨ typeWidth e.vt = 64 ∨ typeWidth e.vt = 4 ∧
      e.op = VOp.vld) ∧ e.op ∈ [VOp.vst, VOp.vsts, VOp.vstx, VOp.vstxa, VOp.vstxf] ∧ typeWidth e.vt ≠ 4 ∧
      NextElem s tid e i ∧ List.length (th s tid).stores < 64 ∧ ∀ x ∈ (th s tid).stores, x.nelem = 1) ∧
    (∃ (s : State) (tid : Nat) (e : VEntry) (rest : List VEntry), (th s tid).v.queue = e :: rest ∧
      (typeWidth e.vt = 8 ∨ typeWidth e.vt = 16 ∨ typeWidth e.vt = 32 ∨ typeWidth e.vt = 64 ∨ typeWidth e.vt = 4 ∧
      e.op = VOp.vld) ∧ (VOp.isLoad e.op = true ∧ NothingPosted s tid ∨ VOp.isStore e.op = true) ∧
      (th s tid).state = SlotState.ready ∧ (∀ (j : Nat), e.elem ≤ j → ¬ActiveElem s tid e j) ∧ rest = []) ∧
    (∃ (s : State) (tid : Nat) (e : VEntry) (rest : List VEntry), (th s tid).v.queue = e :: rest ∧
      (typeWidth e.vt = 8 ∨ typeWidth e.vt = 16 ∨ typeWidth e.vt = 32 ∨ typeWidth e.vt = 64 ∨ typeWidth e.vt = 4 ∧
      e.op = VOp.vld) ∧ (VOp.isLoad e.op = true ∧ NothingPosted s tid ∨ VOp.isStore e.op = true) ∧
      (th s tid).state = SlotState.ready ∧ (∀ (j : Nat), e.elem ≤ j → ¬ActiveElem s tid e j) ∧ rest = []) :=
  ⟨⟨wQ { wE .vld with ga := 0x40, gb := 1 }, 0, 0, { wE .vld with ga := 0x40, gb := 1 }, [], .spad 0 0x40, by simp only [NoCopies, NextElem, NothingPosted, PlaceOf, ActiveElem]; and_intros <;> first | exact (fun k h => Loc.noConfusion h) | exact (fun j h a => absurd a.1 (Nat.not_lt.mpr h)) | exact fun j h k => absurd k (by omega) | exact ⟨by decide, by decide, fun j _ h => absurd h (Nat.not_lt_zero j)⟩ | exact ⟨by decide, by decide, by decide, fun j h => absurd h (by decide)⟩ | exact .inl ⟨by decide, by decide, by decide⟩ | decide⟩,
    ⟨wQ { wE .vlds with ga := 0x40, gb := 1 }, 0, 0, { wE .vlds with ga := 0x40, gb := 1 }, [], .spad 0 0x40, by simp only [NoCopies, NextElem, NothingPosted, PlaceOf, ActiveElem]; and_intros <;> first | exact (fun k h => Loc.noConfusion h) | exact (fun j h a => absurd a.1 (Nat.not_lt.mpr h)) | exact fun j h k => absurd k (by omega) | exact ⟨by decide, by decide, fun j _ h => absurd h (Nat.not_lt_zero j)⟩ | exact ⟨by decide, by decide, by decide, fun j h => absurd h (by decide)⟩ | exact .inl ⟨by decide, by decide, by decide⟩ | decide⟩,
    ⟨wQ { wE .vldx with ga := 0x40, gb := 1 }, 0, 0, { wE .vldx with ga := 0x40, gb := 1 }, [], .spad 0 0x40, by simp only [NoCopies, NextElem, NothingPosted, PlaceOf, ActiveElem]; and_intros <;> first | exact (fun k h => Loc.noConfusion h) | exact (fun j h a => absurd a.1 (Nat.not_lt.mpr h)) | exact fun j h k => absurd k (by omega) | exact ⟨by decide, by decide, fun j _ h => absurd h (Nat.not_lt_zero j)⟩ | exact ⟨by decide, by decide, by decide, fun j h => absurd h (by decide)⟩ | exact .inl ⟨by decide, by decide, by decide⟩ | decide⟩,
    ⟨wQ { wE .vldff with ga := 0x40, gb := 1 }, 0, 0, { wE .vldff with ga := 0x40, gb := 1 }, [], .spad 0 0x40, by simp only [NoCopies, NextElem, NothingPosted, PlaceOf, ActiveElem]; and_intros <;> first | exact (fun k h => Loc.noConfusion h) | exact (fun j h a => absurd a.1 (Nat.not_lt.mpr h)) | exact fun j h k => absurd k (by omega) | exact ⟨by decide, by decide, fun j _ h => absurd h (Nat.not_lt_zero j)⟩ | exact ⟨by decide, by decide, by decide, fun j h => absurd h (by decide)⟩ | exact .inl ⟨by decide, by decide, by decide⟩ | decide⟩,
    ⟨wQ { wE .vldb with ga := 0x40, gb := 1 }, 0, 0, { wE .vldb with ga := 0x40, gb := 1 }, [], .spad 0 0x40, by simp only [NoCopies, NextElem, NothingPosted, PlaceOf, ActiveElem]; and_intros <;> first | exact (fun k h => Loc.noConfusion h) | exact (fun j h a => absurd a.1 (Nat.not_lt.mpr h)) | exact fun j h k => absurd k (by omega) | exact ⟨by decide, by decide, fun j _ h => absurd h (Nat.not_lt_zero j)⟩ | exact ⟨by decide, by decide, by decide, fun j h => absurd h (by decide)⟩ | exact .inl ⟨by decide, by decide, by decide⟩ | decide⟩,
    ⟨wQ { wE .vldg with ga := 0x40, gb := 1, wbase := 0x40, wctr := 0x200008 }, 0, 0, { wE .vldg with ga := 0x40, gb := 1, wbase := 0x40, wctr := 0x200008 }, [], .spad 0 0x40, 0, 1, by simp only [NoCopies, NextElem, NearAddr, NothingPosted, PlaceOf, ActiveElem]; and_intros <;> first | exact (fun k h => Loc.noConfusion h) | exact (fun j h a => absurd a.1 (Nat.not_lt.mpr h)) | exact fun j h k => absurd k (by omega) | exact ⟨by decide, by decide, fun j _ h => absurd h (Nat.not_lt_zero j)⟩ | exact ⟨by decide, by decide, by decide, fun j h => absurd h (by decide)⟩ | exact .inl ⟨by decide, by decide, by decide⟩ | decide⟩,
    ⟨wQ { wE .vldff with ga := 0x3FFFC, elem := 1 }, 0, 1, { wE .vldff with ga := 0x3FFFC, elem := 1 }, [], by simp only [NoCopies, NextElem, NothingPosted, ActiveElem]; and_intros <;> first | exact (fun k h => Loc.noConfusion h) | exact (fun j h a => absurd a.1 (Nat.not_lt.mpr h)) | exact fun j h k => absurd k (by omega) | exact ⟨by decide, by decide, fun j _ h => absurd h (Nat.not_lt_zero j)⟩ | exact ⟨by decide, by decide, by decide, fun j h => absurd h (by decide)⟩ | exact .inl ⟨by decide, by decide, by decide⟩ | decide⟩,
    ⟨wQ { wE .vst with ga := 0x40, gb := 1 }, 0, 0, { wE .vst with ga := 0x40, gb := 1 }, [], by simp only [NextElem, ActiveElem]; and_intros <;> first | exact (fun k h => Loc.noConfusion h) | exact (fun j h a => absurd a.1 (Nat.not_lt.mpr h)) | exact fun j h k => absurd k (by omega) | exact ⟨by decide, by decide, fun j _ h => absurd h (Nat.not_lt_zero j)⟩ | exact ⟨by decide, by decide, by decide, fun j h => absurd h (by decide)⟩ | exact .inl ⟨by decide, by decide, by decide⟩ | decide⟩,
    ⟨wQ { wE .vsts with ga := 0x40, gb := 1 }, 0, 0, { wE .vsts with ga := 0x40, gb := 1 }, [], by simp only [NextElem, ActiveElem]; and_intros <;> first | exact (fun k h => Loc.noConfusion h) | exact (fun j h a => absurd a.1 (Nat.not_lt.mpr h)) | exact fun j h k => absurd k (by omega) | exact ⟨by decide, by decide, fun j _ h => absurd h (Nat.not_lt_zero j)⟩ | exact ⟨by decide, by decide, by decide, fun j h => absurd h (by decide)⟩ | exact .inl ⟨by decide, by decide, by decide⟩ | decide⟩,
    ⟨wQ { wE .vstx with ga := 0x40, gb := 1 }, 0, 0, { wE .vstx with ga := 0x40, gb := 1 }, [], by simp only [NextElem, ActiveElem]; and_intros <;> first | exact (fun k h => Loc.noConfusion h) | exact (fun j h a => absurd a.1 (Nat.not_lt.mpr h)) | exact fun j h k => absurd k (by omega) | exact ⟨by decide, by decide, fun j _ h => absurd h (Nat.not_lt_zero j)⟩ | exact ⟨by decide, by decide, by decide, fun j h => absurd h (by decide)⟩ | exact .inl ⟨by decide, by decide, by decide⟩ | decide⟩,
    ⟨wQ { wE .vstxa with ga := 0x40, gb := 1 }, 0, 0, { wE .vstxa with ga := 0x40, gb := 1 }, [], by simp only [NextElem, ActiveElem]; and_intros <;> first | exact (fun k h => Loc.noConfusion h) | exact (fun j h a => absurd a.1 (Nat.not_lt.mpr h)) | exact fun j h k => absurd k (by omega) | exact ⟨by decide, by decide, fun j _ h => absurd h (Nat.not_lt_zero j)⟩ | exact ⟨by decide, by decide, by decide, fun j h => absurd h (by decide)⟩ | exact .inl ⟨by decide, by decide, by decide⟩ | decide⟩,
    ⟨wQ { wE .vstxf with ga := 0x40, gb := 1 }, 0, 0, { wE .vstxf with ga := 0x40, gb := 1 }, [], by simp only [NextElem, ActiveElem]; and_intros <;> first | exact (fun k h => Loc.noConfusion h) | exact (fun j h a => absurd a.1 (Nat.not_lt.mpr h)) | exact fun j h k => absurd k (by omega) | exact ⟨by decide, by decide, fun j _ h => absurd h (Nat.not_lt_zero j)⟩ | exact ⟨by decide, by decide, by decide, fun j h => absurd h (by decide)⟩ | exact .inl ⟨by decide, by decide, by decide⟩ | decide⟩,
    ⟨wQ { wE .vst with ga := 0x40, gb := 1, elem := 5 }, 0, { wE .vst with ga := 0x40, gb := 1, elem := 5 }, [], by simp only [NothingPosted, ActiveElem]; and_intros <;> first | exact (fun k h => Loc.noConfusion h) | exact (fun j h a => absurd a.1 (Nat.not_lt.mpr h)) | exact fun j h k => absurd k (by omega) | exact ⟨by decide, by decide, fun j _ h => absurd h (Nat.not_lt_zero j)⟩ | exact ⟨by decide, by decide, by decide, fun j h => absurd h (by decide)⟩ | exact .inl ⟨by decide, by decide, by decide⟩ | decide⟩,
    ⟨wQ { wE .vld with ga := 0x40, gb := 1, elem := 5 }, 0, { wE .vld with ga := 0x40, gb := 1, elem := 5 }, [], by simp only [NothingPosted, ActiveElem]; and_intros <;> first | exact (fun k h => Loc.noConfusion h) | exact (fun j h a => absurd a.1 (Nat.not_lt.mpr h)) | exact fun j h k => absurd k (by omega) | exact ⟨by decide, by decide, fun j _ h => absurd h (Nat.not_lt_zero j)⟩ | exact ⟨by decide, by decide, by decide, fun j h => absurd h (by decide)⟩ | exact .inl ⟨by decide, by decide, by decide⟩ | decide⟩⟩

theorem witness_MarverEvents :
    (∃ (s : State) (bench : Nat) (pos : Nat) (c : TileCmd) (rest : List TileCmd), pos < 8 ∧
      benchOf (coreAt bench pos) = bench ∧ (co s (coreAt bench pos)).tq = c :: rest ∧ c.tid / 16 = coreAt bench pos ∧
      (tget s.benches bench { }).running = none ∧ (tget s.benches bench { }).last < 8 ∧ (∀ k < 8, k ≠ pos →
      (co s (coreAt bench k)).tq = []) ∧ c.started = false ∧ (∀ x ∈ rest, x.started = false) ∧
      BitVec.getLsbD (th s c.tid).u.afcode 63 = false ∧ (co s (coreAt bench pos)).tfault = none ∧ (∀ x ∈ s.posts,
      x.tid ≠ c.tid) ∧ c.op ∈ [TOp.tileZero, TOp.tileMma, TOp.tileGmma, TOp.tileQ, TOp.tileChol, TOp.tileTrsm]) ∧
    (∃ (s : State) (bench : Nat) (pos : Nat) (c : TileCmd) (rest : List TileCmd), pos < 8 ∧
      benchOf (coreAt bench pos) = bench ∧ (co s (coreAt bench pos)).tq = c :: rest ∧ c.tid / 16 = coreAt bench pos ∧
      (tget s.benches bench { }).running = none ∧ (tget s.benches bench { }).last < 8 ∧ (∀ k < 8, k ≠ pos →
      (co s (coreAt bench k)).tq = []) ∧ c.started = false ∧ (∀ x ∈ rest, x.started = false) ∧
      BitVec.getLsbD (th s c.tid).u.afcode 63 = false ∧ (co s (coreAt bench pos)).tfault = none ∧ (∀ x ∈ s.posts,
      x.tid ≠ c.tid) ∧ c.op ∈ [TOp.tileZero, TOp.tileMma, TOp.tileGmma, TOp.tileQ, TOp.tileChol, TOp.tileTrsm]) ∧
    (∃ (s : State) (bench : Nat) (pos : Nat) (c : TileCmd) (rest : List TileCmd), pos < 8 ∧
      benchOf (coreAt bench pos) = bench ∧ (co s (coreAt bench pos)).tq = c :: rest ∧ c.tid / 16 = coreAt bench pos ∧
      (tget s.benches bench { }).running = none ∧ (tget s.benches bench { }).last < 8 ∧ (∀ k < 8, k ≠ pos →
      (co s (coreAt bench k)).tq = []) ∧ c.started = false ∧ (∀ x ∈ rest, x.started = false) ∧
      BitVec.getLsbD (th s c.tid).u.afcode 63 = false ∧ (co s (coreAt bench pos)).tfault = none ∧ (∀ x ∈ s.posts,
      x.tid ≠ c.tid) ∧ c.op = TOp.tileMmax ∧ s.poison = [] ∧
      BitVec.toNat c.ga + 4 * c.cfg.tm ≤ (co s (coreAt bench pos)).sp * 65536 ∧ ∀ i < c.cfg.tm,
      mrd s.spads (coreAt bench pos * 524288 + BitVec.toNat c.ga + 4 * i) 4 % 4 = 0 ∧
      mrd s.spads (coreAt bench pos * 524288 + BitVec.toNat c.ga + 4 * i) 4 < (co s (coreAt bench pos)).sp * 65536) ∧
    (∃ (s : State) (bench : Nat) (pos : Nat) (c : TileCmd) (rest : List TileCmd), pos < 8 ∧
      benchOf (coreAt bench pos) = bench ∧ (co s (coreAt bench pos)).tq = c :: rest ∧ c.tid / 16 = coreAt bench pos ∧
      (tget s.benches bench { }).running = some (coreAt bench pos) ∧ c.started = true ∧
      (co s (coreAt bench pos)).tfault = none ∧ c.op = TOp.tileZero ∧ c.step = 0) ∧
    (∃ (s : State) (bench : Nat) (pos : Nat) (c : TileCmd) (rest : List TileCmd) (ca : Nat) (cb : Nat), pos < 8 ∧
      benchOf (coreAt bench pos) = bench ∧ (co s (coreAt bench pos)).tq = c :: rest ∧ c.tid / 16 = coreAt bench pos ∧
      (tget s.benches bench { }).running = some (coreAt bench pos) ∧ c.started = true ∧
      (co s (coreAt bench pos)).tfault = none ∧ c.t < 4 ∧ c.cfg.tm ≤ 128 ∧ c.cfg.tn ≤ 64 ∧ s.poison = [] ∧
      (∀ (k : Nat), (co s k).sp ≤ 8) ∧ c.op ∈ [TOp.tileMma, TOp.tileMmax, TOp.tileGmma] ∧ c.y < 10 ∧
      PanelAt s c ca cb ∧ c.step < (c.cfg.tk + pairGroup c.y - 1) / pairGroup c.y ∧ (∀ i < c.cfg.tm,
      (if c.op = TOp.tileMmax then List.getD c.latch i 0 else (if c.op = TOp.tileGmma then BitVec.toNat c.ga % 2 ^ 19 else BitVec.toNat c.ga) + i * c.cfg.tsa) + ((c.step * pairGroup c.y + min (pairGroup c.y) (c.cfg.tk - c.step * pairGroup c.y)) * typeWidth (pairTypes c.y).1 + 7) / 8 ≤ (co s ca).sp * 65536) ∧
      (∀ k < min (pairGroup c.y) (c.cfg.tk - c.step * pairGroup c.y),
      (if c.op = TOp.tileGmma then BitVec.toNat c.gb % 2 ^ 19 else BitVec.toNat c.gb) + (c.step * pairGroup c.y + k) * c.cfg.tsb + (c.cfg.tn * typeWidth (pairTypes c.y).2 + 7) / 8 ≤ (co s cb).sp * 65536) ∧
      c.y ≠ 6 ∧ c.y ≠ 7 ∧ c.y ≠ 8) ∧
    (∃ (s : State) (bench : Nat) (pos : Nat) (c : TileCmd) (rest : List TileCmd) (ca : Nat) (cb : Nat), pos < 8 ∧
      benchOf (coreAt bench pos) = bench ∧ (co s (coreAt bench pos)).tq = c :: rest ∧ c.tid / 16 = coreAt bench pos ∧
      (tget s.benches bench { }).running = some (coreAt bench pos) ∧ c.started = true ∧
      (co s (coreAt bench pos)).tfault = none ∧ c.t < 4 ∧ c.cfg.tm ≤ 128 ∧ c.cfg.tn ≤ 64 ∧ s.poison = [] ∧
      (∀ (k : Nat), (co s k).sp ≤ 8) ∧ c.op ∈ [TOp.tileMma, TOp.tileMmax, TOp.tileGmma] ∧ c.y < 10 ∧
      PanelAt s c ca cb ∧ c.step < (c.cfg.tk + pairGroup c.y - 1) / pairGroup c.y ∧ (∀ i < c.cfg.tm,
      (if c.op = TOp.tileMmax then List.getD c.latch i 0 else (if c.op = TOp.tileGmma then BitVec.toNat c.ga % 2 ^ 19 else BitVec.toNat c.ga) + i * c.cfg.tsa) + ((c.step * pairGroup c.y + min (pairGroup c.y) (c.cfg.tk - c.step * pairGroup c.y)) * typeWidth (pairTypes c.y).1 + 7) / 8 ≤ (co s ca).sp * 65536) ∧
      (∀ k < min (pairGroup c.y) (c.cfg.tk - c.step * pairGroup c.y),
      (if c.op = TOp.tileGmma then BitVec.toNat c.gb % 2 ^ 19 else BitVec.toNat c.gb) + (c.step * pairGroup c.y + k) * c.cfg.tsb + (c.cfg.tn * typeWidth (pairTypes c.y).2 + 7) / 8 ≤ (co s cb).sp * 65536) ∧
      c.y ≠ 6 ∧ c.y ≠ 7 ∧ c.y ≠ 8) ∧
    (∃ (s : State) (bench : Nat) (pos : Nat) (c : TileCmd) (rest : List TileCmd) (ca : Nat) (cb : Nat), pos < 8 ∧
      benchOf (coreAt bench pos) = bench ∧ (co s (coreAt bench pos)).tq = c :: rest ∧ c.tid / 16 = coreAt bench pos ∧
      (tget s.benches bench { }).running = some (coreAt bench pos) ∧ c.started = true ∧
      (co s (coreAt bench pos)).tfault = none ∧ c.t < 4 ∧ c.cfg.tm ≤ 128 ∧ c.cfg.tn ≤ 64 ∧ s.poison = [] ∧
      (∀ (k : Nat), (co s k).sp ≤ 8) ∧ c.op ∈ [TOp.tileMma, TOp.tileMmax, TOp.tileGmma] ∧ c.y < 10 ∧
      PanelAt s c ca cb ∧ c.step < (c.cfg.tk + pairGroup c.y - 1) / pairGroup c.y ∧ (∀ i < c.cfg.tm,
      (if c.op = TOp.tileMmax then List.getD c.latch i 0 else (if c.op = TOp.tileGmma then BitVec.toNat c.ga % 2 ^ 19 else BitVec.toNat c.ga) + i * c.cfg.tsa) + ((c.step * pairGroup c.y + min (pairGroup c.y) (c.cfg.tk - c.step * pairGroup c.y)) * typeWidth (pairTypes c.y).1 + 7) / 8 ≤ (co s ca).sp * 65536) ∧
      (∀ k < min (pairGroup c.y) (c.cfg.tk - c.step * pairGroup c.y),
      (if c.op = TOp.tileGmma then BitVec.toNat c.gb % 2 ^ 19 else BitVec.toNat c.gb) + (c.step * pairGroup c.y + k) * c.cfg.tsb + (c.cfg.tn * typeWidth (pairTypes c.y).2 + 7) / 8 ≤ (co s cb).sp * 65536) ∧
      c.y ≠ 6 ∧ c.y ≠ 7 ∧ c.y ≠ 8) ∧
    (∃ (s : State) (bench : Nat) (pos : Nat) (c : TileCmd) (rest : List TileCmd) (ca : Nat) (cb : Nat), pos < 8 ∧
      benchOf (coreAt bench pos) = bench ∧ (co s (coreAt bench pos)).tq = c :: rest ∧ c.tid / 16 = coreAt bench pos ∧
      (tget s.benches bench { }).running = some (coreAt bench pos) ∧ c.started = true ∧
      (co s (coreAt bench pos)).tfault = none ∧ c.t < 4 ∧ c.cfg.tm ≤ 128 ∧ c.cfg.tn ≤ 64 ∧ s.poison = [] ∧
      (∀ (k : Nat), (co s k).sp ≤ 8) ∧ c.op ∈ [TOp.tileMma, TOp.tileMmax, TOp.tileGmma] ∧ c.y < 10 ∧
      PanelAt s c ca cb ∧ c.step < (c.cfg.tk + pairGroup c.y - 1) / pairGroup c.y ∧ (∀ i < c.cfg.tm,
      (if c.op = TOp.tileMmax then List.getD c.latch i 0 else (if c.op = TOp.tileGmma then BitVec.toNat c.ga % 2 ^ 19 else BitVec.toNat c.ga) + i * c.cfg.tsa) + ((c.step * pairGroup c.y + min (pairGroup c.y) (c.cfg.tk - c.step * pairGroup c.y)) * typeWidth (pairTypes c.y).1 + 7) / 8 ≤ (co s ca).sp * 65536) ∧
      (∀ k < min (pairGroup c.y) (c.cfg.tk - c.step * pairGroup c.y),
      (if c.op = TOp.tileGmma then BitVec.toNat c.gb % 2 ^ 19 else BitVec.toNat c.gb) + (c.step * pairGroup c.y + k) * c.cfg.tsb + (c.cfg.tn * typeWidth (pairTypes c.y).2 + 7) / 8 ≤ (co s cb).sp * 65536) ∧
      (c.y = 6 ∨ c.y = 7 ∨ c.y = 8) ∧ (c.step + 1) * pairGroup c.y % 32 ≠ 0 ∧
      c.step + 1 < (c.cfg.tk + pairGroup c.y - 1) / pairGroup c.y) ∧
    (∃ (s : State) (bench : Nat) (pos : Nat) (c : TileCmd) (rest : List TileCmd) (ca : Nat) (cb : Nat), pos < 8 ∧
      benchOf (coreAt bench pos) = bench ∧ (co s (coreAt bench pos)).tq = c :: rest ∧ c.tid / 16 = coreAt bench pos ∧
      (tget s.benches bench { }).running = some (coreAt bench pos) ∧ c.started = true ∧
      (co s (coreAt bench pos)).tfault = none ∧ c.t < 4 ∧ c.cfg.tm ≤ 128 ∧ c.cfg.tn ≤ 64 ∧ s.poison = [] ∧
      (∀ (k : Nat), (co s k).sp ≤ 8) ∧ c.op ∈ [TOp.tileMma, TOp.tileMmax, TOp.tileGmma] ∧ c.y < 10 ∧
      PanelAt s c ca cb ∧ c.step < (c.cfg.tk + pairGroup c.y - 1) / pairGroup c.y ∧ (∀ i < c.cfg.tm,
      (if c.op = TOp.tileMmax then List.getD c.latch i 0 else (if c.op = TOp.tileGmma then BitVec.toNat c.ga % 2 ^ 19 else BitVec.toNat c.ga) + i * c.cfg.tsa) + ((c.step * pairGroup c.y + min (pairGroup c.y) (c.cfg.tk - c.step * pairGroup c.y)) * typeWidth (pairTypes c.y).1 + 7) / 8 ≤ (co s ca).sp * 65536) ∧
      (∀ k < min (pairGroup c.y) (c.cfg.tk - c.step * pairGroup c.y),
      (if c.op = TOp.tileGmma then BitVec.toNat c.gb % 2 ^ 19 else BitVec.toNat c.gb) + (c.step * pairGroup c.y + k) * c.cfg.tsb + (c.cfg.tn * typeWidth (pairTypes c.y).2 + 7) / 8 ≤ (co s cb).sp * 65536) ∧
      (c.y = 6 ∨ c.y = 7 ∨ c.y = 8) ∧
      ((c.step + 1) * pairGroup c.y % 32 = 0 ∨ c.step + 1 = (c.cfg.tk + pairGroup c.y - 1) / pairGroup c.y) ∧
      BitVec.toNat c.fmt / 256 = 8) ∧
    (∃ (s : State) (bench : Nat) (pos : Nat) (c : TileCmd) (rest : List TileCmd) (ca : Nat) (cb : Nat), pos < 8 ∧
      benchOf (coreAt bench pos) = bench ∧ (co s (coreAt bench pos)).tq = c :: rest ∧ c.tid / 16 = coreAt bench pos ∧
      (tget s.benches bench { }).running = some (coreAt bench pos) ∧ c.started = true ∧
      (co s (coreAt bench pos)).tfault = none ∧ c.t < 4 ∧ c.cfg.tm ≤ 128 ∧ c.cfg.tn ≤ 64 ∧ s.poison = [] ∧
      (∀ (k : Nat), (co s k).sp ≤ 8) ∧ c.op ∈ [TOp.tileMma, TOp.tileMmax, TOp.tileGmma] ∧ c.y < 10 ∧
      PanelAt s c ca cb ∧ c.step < (c.cfg.tk + pairGroup c.y - 1) / pairGroup c.y ∧ (∀ i < c.cfg.tm,
      (if c.op = TOp.tileMmax then List.getD c.latch i 0 else (if c.op = TOp.tileGmma then BitVec.toNat c.ga % 2 ^ 19 else BitVec.toNat c.ga) + i * c.cfg.tsa) + ((c.step * pairGroup c.y + min (pairGroup c.y) (c.cfg.tk - c.step * pairGroup c.y)) * typeWidth (pairTypes c.y).1 + 7) / 8 ≤ (co s ca).sp * 65536) ∧
      (∀ k < min (pairGroup c.y) (c.cfg.tk - c.step * pairGroup c.y),
      (if c.op = TOp.tileGmma then BitVec.toNat c.gb % 2 ^ 19 else BitVec.toNat c.gb) + (c.step * pairGroup c.y + k) * c.cfg.tsb + (c.cfg.tn * typeWidth (pairTypes c.y).2 + 7) / 8 ≤ (co s cb).sp * 65536) ∧
      (c.y = 6 ∨ c.y = 7 ∨ c.y = 8) ∧
      ((c.step + 1) * pairGroup c.y % 32 = 0 ∨ c.step + 1 = (c.cfg.tk + pairGroup c.y - 1) / pairGroup c.y) ∧
      BitVec.toNat c.fmt / 256 ≠ 8 ∧ (∀ i < c.cfg.tm,
      BitVec.toNat c.scb + c.cfg.tsca + (i * ((c.cfg.tk + 31) / 32) + c.step * pairGroup c.y / 32) * 4 + 4 ≤ (co s (coreAt bench pos)).sp * 65536) ∧
      ∀ j < c.cfg.tn,
      BitVec.toNat c.scb + c.cfg.tscb + (j * ((c.cfg.tk + 31) / 32) + c.step * pairGroup c.y / 32) * 4 + 4 ≤ (co s (coreAt bench pos)).sp * 65536) ∧
    (∃ (s : State) (bench : Nat) (pos : Nat) (c : TileCmd) (rest : List TileCmd), pos < 8 ∧
      benchOf (coreAt bench pos) = bench ∧ (co s (coreAt bench pos)).tq = c :: rest ∧ c.tid / 16 = coreAt bench pos ∧
      (tget s.benches bench { }).running = some (coreAt bench pos) ∧ c.started = true ∧
      (co s (coreAt bench pos)).tfault = none ∧ c.t < 4 ∧ c.cfg.tm ≤ 128 ∧ c.cfg.tn ≤ 64 ∧ s.poison = [] ∧
      (∀ (k : Nat), (co s k).sp ≤ 8) ∧ c.op = TOp.tileQ ∧ (c.y = 3 ∨ c.y = 5) ∧ c.step < 2 * c.cfg.tm ∧
      c.step % 2 = 0) ∧
    (∃ (s : State) (bench : Nat) (pos : Nat) (c : TileCmd) (rest : List TileCmd), pos < 8 ∧
      benchOf (coreAt bench pos) = bench ∧ (co s (coreAt bench pos)).tq = c :: rest ∧ c.tid / 16 = coreAt bench pos ∧
      (tget s.benches bench { }).running = some (coreAt bench pos) ∧ c.started = true ∧
      (co s (coreAt bench pos)).tfault = none ∧ c.t < 4 ∧ c.cfg.tm ≤ 128 ∧ c.cfg.tn ≤ 64 ∧ s.poison = [] ∧
      (∀ (k : Nat), (co s k).sp ≤ 8) ∧ c.op = TOp.tileQ ∧ (c.y = 3 ∨ c.y = 5) ∧ c.step < 2 * c.cfg.tm ∧
      c.step % 2 = 1 ∧ Memory.wf s.spads = true ∧
      BitVec.toNat c.ga + c.step / 2 * c.cfg.tsa + (c.cfg.tn * typeWidth c.y + 7) / 8 ≤ (co s (coreAt bench pos)).sp * 65536 ∧
      BitVec.toNat c.gb + c.step / 2 * ((c.cfg.tn + 31) / 32) * 4 + (c.cfg.tn + 31) / 32 * 4 ≤ (co s (coreAt bench pos)).sp * 65536 ∧
      (BitVec.toNat c.ga + c.step / 2 * c.cfg.tsa + (c.cfg.tn * typeWidth c.y + 7) / 8 ≤ BitVec.toNat c.gb + c.step / 2 * ((c.cfg.tn + 31) / 32) * 4 ∨ BitVec.toNat c.gb + c.step / 2 * ((c.cfg.tn + 31) / 32) * 4 + (c.cfg.tn + 31) / 32 * 4 ≤ BitVec.toNat c.ga + c.step / 2 * c.cfg.tsa)) ∧
    (∃ (s : State) (bench : Nat) (pos : Nat) (c : TileCmd) (rest : List TileCmd), pos < 8 ∧
      benchOf (coreAt bench pos) = bench ∧ (co s (coreAt bench pos)).tq = c :: rest ∧ c.tid / 16 = coreAt bench pos ∧
      (tget s.benches bench { }).running = some (coreAt bench pos) ∧ c.started = true ∧
      (co s (coreAt bench pos)).tfault = none ∧ c.t < 4 ∧ c.cfg.tm ≤ 128 ∧ c.cfg.tn ≤ 64 ∧ s.poison = [] ∧
      (∀ (k : Nat), (co s k).sp ≤ 8) ∧ c.op = TOp.tileChol ∧ c.cfg.tm = c.cfg.tn ∧ c.step < c.cfg.tn * c.cfg.tn ∧
      c.step + 1 < c.cfg.tn * c.cfg.tn) ∧
    (∃ (s : State) (bench : Nat) (pos : Nat) (c : TileCmd) (rest : List TileCmd), pos < 8 ∧
      benchOf (coreAt bench pos) = bench ∧ (co s (coreAt bench pos)).tq = c :: rest ∧ c.tid / 16 = coreAt bench pos ∧
      (tget s.benches bench { }).running = some (coreAt bench pos) ∧ c.started = true ∧
      (co s (coreAt bench pos)).tfault = none ∧ c.t < 4 ∧ c.cfg.tm ≤ 128 ∧ c.cfg.tn ≤ 64 ∧ s.poison = [] ∧
      (∀ (k : Nat), (co s k).sp ≤ 8) ∧ c.op = TOp.tileChol ∧ c.cfg.tm = c.cfg.tn ∧ c.step < c.cfg.tn * c.cfg.tn ∧
      c.step + 1 = c.cfg.tn * c.cfg.tn) ∧
    (∃ (s : State) (bench : Nat) (pos : Nat) (c : TileCmd) (rest : List TileCmd), pos < 8 ∧
      benchOf (coreAt bench pos) = bench ∧ (co s (coreAt bench pos)).tq = c :: rest ∧ c.tid / 16 = coreAt bench pos ∧
      (tget s.benches bench { }).running = some (coreAt bench pos) ∧ c.started = true ∧
      (co s (coreAt bench pos)).tfault = none ∧ c.t < 4 ∧ c.cfg.tm ≤ 128 ∧ c.cfg.tn ≤ 64 ∧ s.poison = [] ∧
      (∀ (k : Nat), (co s k).sp ≤ 8) ∧ c.op = TOp.tileTrsm ∧ c.a < 4 ∧ c.a ≠ c.t ∧ c.step < c.cfg.tn * c.cfg.tn ∧
      c.step + 1 < c.cfg.tn * c.cfg.tn) ∧
    (∃ (s : State) (bench : Nat) (pos : Nat) (c : TileCmd) (rest : List TileCmd), pos < 8 ∧
      benchOf (coreAt bench pos) = bench ∧ (co s (coreAt bench pos)).tq = c :: rest ∧ c.tid / 16 = coreAt bench pos ∧
      (tget s.benches bench { }).running = some (coreAt bench pos) ∧ c.started = true ∧
      (co s (coreAt bench pos)).tfault = none ∧ c.t < 4 ∧ c.cfg.tm ≤ 128 ∧ c.cfg.tn ≤ 64 ∧ s.poison = [] ∧
      (∀ (k : Nat), (co s k).sp ≤ 8) ∧ c.op = TOp.tileTrsm ∧ c.a < 4 ∧ c.a ≠ c.t ∧ c.step < c.cfg.tn * c.cfg.tn ∧
      c.step + 1 = c.cfg.tn * c.cfg.tn) ∧
    (∃ (s : State) (bench : Nat) (pos : Nat) (c : TileCmd) (rest : List TileCmd), pos < 8 ∧
      benchOf (coreAt bench pos) = bench ∧ (co s (coreAt bench pos)).tq = c :: rest ∧ c.tid / 16 = coreAt bench pos ∧
      (tget s.benches bench { }).running = some (coreAt bench pos) ∧ c.started = true ∧
      (co s (coreAt bench pos)).tfault = none ∧ tileSteps c ≤ c.step ∧ c.op ∈ [TOp.tileMmax, TOp.tileZero,
      TOp.tileMma, TOp.tileGmma, TOp.tileQ, TOp.tileChol, TOp.tileTrsm] ∧ c.refused = false ∧ CalmCounters s ∧
      (∀ k < 8, ∀ x ∈ (co s (coreAt bench k)).tq, x.orphan = false) ∧ (co s (coreAt bench pos)).relPending = false ∧
      CountReady s (coreAt bench pos) c.ctx c.c c.cfg.tcc) :=
  ⟨⟨wMarver (wCmd .tileMma 0 false), 0, 0, wCmd .tileMma 0 false, [], by and_intros <;> first | exact fun k => wMarver_sp _ k | exact .inl ⟨by decide, rfl, rfl⟩ | exact .inl ⟨0, 1, by decide⟩ | exact fun h => absurd h (by decide) | exact .inr ⟨by decide, by decide, by simp only [List.mem_cons, List.not_mem_nil, or_false]; rintro p (rfl | rfl) <;> exact ⟨by decide, 0, 0, 0, by decide⟩⟩ | decide⟩,
    ⟨wMarver (wCmd .tileChol 0 false), 0, 0, wCmd .tileChol 0 false, [], by and_intros <;> first | exact fun k => wMarver_sp _ k | exact .inl ⟨by decide, rfl, rfl⟩ | exact .inl ⟨0, 1, by decide⟩ | exact fun h => absurd h (by decide) | exact .inr ⟨by decide, by decide, by simp only [List.mem_cons, List.not_mem_nil, or_false]; rintro p (rfl | rfl) <;> exact ⟨by decide, 0, 0, 0, by decide⟩⟩ | decide⟩,
    ⟨wMarver ({ wCmd .tileMmax 0 false with ga := 0x60 }), 0, 0, { wCmd .tileMmax 0 false with ga := 0x60 }, [], by and_intros <;> first | exact fun k => wMarver_sp _ k | exact .inl ⟨by decide, rfl, rfl⟩ | exact .inl ⟨0, 1, by decide⟩ | exact fun h => absurd h (by decide) | exact .inr ⟨by decide, by decide, by simp only [List.mem_cons, List.not_mem_nil, or_false]; rintro p (rfl | rfl) <;> exact ⟨by decide, 0, 0, 0, by decide⟩⟩ | decide⟩,
    ⟨wMarver (wCmd .tileZero 0 true), 0, 0, wCmd .tileZero 0 true, [], by and_intros <;> first | exact fun k => wMarver_sp _ k | exact .inl ⟨by decide, rfl, rfl⟩ | exact .inl ⟨0, 1, by decide⟩ | exact fun h => absurd h (by decide) | exact .inr ⟨by decide, by decide, by simp only [List.mem_cons, List.not_mem_nil, or_false]; rintro p (rfl | rfl) <;> exact ⟨by decide, 0, 0, 0, by decide⟩⟩ | decide⟩,
    ⟨wMarver (wCmd .tileMma 1 true), 0, 0, wCmd .tileMma 1 true, [], 0, 0, by simp only [PanelAt]; and_intros <;> first | exact fun k => wMarver_sp _ k | exact .inl ⟨by decide, rfl, rfl⟩ | exact .inl ⟨0, 1, by decide⟩ | exact fun h => absurd h (by decide) | exact .inr ⟨by decide, by decide, by simp only [List.mem_cons, List.not_mem_nil, or_false]; rintro p (rfl | rfl) <;> exact ⟨by decide, 0, 0, 0, by decide⟩⟩ | decide⟩,
    ⟨wMarver (wCmd .tileMmax 1 true), 0, 0, wCmd .tileMmax 1 true, [], 0, 0, by simp only [PanelAt]; and_intros <;> first | exact fun k => wMarver_sp _ k | exact .inl ⟨by decide, rfl, rfl⟩ | exact .inl ⟨0, 1, by decide⟩ | exact fun h => absurd h (by decide) | exact .inr ⟨by decide, by decide, by simp only [List.mem_cons, List.not_mem_nil, or_false]; rintro p (rfl | rfl) <;> exact ⟨by decide, 0, 0, 0, by decide⟩⟩ | decide⟩,
    ⟨{ wMarver (wCmd .tileGmma 1 true) with groups := [(0, { used := true, state := .pinned, members := [(0, 0)] })] }, 0, 0, wCmd .tileGmma 1 true, [], 0, 0, by simp only [PanelAt]; and_intros <;> first | exact fun k => wMarver_sp _ k | exact .inl ⟨by decide, rfl, rfl⟩ | exact .inl ⟨0, 1, by decide⟩ | exact fun h => absurd h (by decide) | exact .inr ⟨by decide, by decide, by simp only [List.mem_cons, List.not_mem_nil, or_false]; rintro p (rfl | rfl) <;> exact ⟨by decide, 0, 0, 0, by decide⟩⟩ | decide⟩,
    ⟨wMarver ({ wCmd .tileMma 0 true with y := 6, cfg := { tm := 2, tn := 2, tk := 48, tsa := 64, tsb := 8 } }), 0, 0, { wCmd .tileMma 0 true with y := 6, cfg := { tm := 2, tn := 2, tk := 48, tsa := 64, tsb := 8 } }, [], 0, 0, by simp only [PanelAt]; and_intros <;> first | exact fun k => wMarver_sp _ k | exact .inl ⟨by decide, rfl, rfl⟩ | exact .inl ⟨0, 1, by decide⟩ | exact fun h => absurd h (by decide) | exact .inr ⟨by decide, by decide, by simp only [List.mem_cons, List.not_mem_nil, or_false]; rintro p (rfl | rfl) <;> exact ⟨by decide, 0, 0, 0, by decide⟩⟩ | decide⟩,
    ⟨wMarver ({ wCmd .tileMma 11 true with y := 6, fmt := 0x800, cfg := { tm := 2, tn := 2, tk := 48, tsa := 64, tsb := 8 } }), 0, 0, { wCmd .tileMma 11 true with y := 6, fmt := 0x800, cfg := { tm := 2, tn := 2, tk := 48, tsa := 64, tsb := 8 } }, [], 0, 0, by simp only [PanelAt]; and_intros <;> first | exact fun k => wMarver_sp _ k | exact .inl ⟨by decide, rfl, rfl⟩ | exact .inl ⟨0, 1, by decide⟩ | exact fun h => absurd h (by decide) | exact .inr ⟨by decide, by decide, by simp only [List.mem_cons, List.not_mem_nil, or_false]; rintro p (rfl | rfl) <;> exact ⟨by decide, 0, 0, 0, by decide⟩⟩ | decide⟩,
    ⟨wMarver ({ wCmd .tileMma 11 true with y := 6, scb := 0x1000, cfg := { tm := 2, tn := 2, tk := 48, tsa := 64, tsb := 8 } }), 0, 0, { wCmd .tileMma 11 true with y := 6, scb := 0x1000, cfg := { tm := 2, tn := 2, tk := 48, tsa := 64, tsb := 8 } }, [], 0, 0, by simp only [PanelAt]; and_intros <;> first | exact fun k => wMarver_sp _ k | exact .inl ⟨by decide, rfl, rfl⟩ | exact .inl ⟨0, 1, by decide⟩ | exact fun h => absurd h (by decide) | exact .inr ⟨by decide, by decide, by simp only [List.mem_cons, List.not_mem_nil, or_false]; rintro p (rfl | rfl) <;> exact ⟨by decide, 0, 0, 0, by decide⟩⟩ | decide⟩,
    ⟨wMarver ({ wCmd .tileQ 0 true with y := 3 }), 0, 0, { wCmd .tileQ 0 true with y := 3 }, [], by and_intros <;> first | exact fun k => wMarver_sp _ k | exact .inl ⟨by decide, rfl, rfl⟩ | exact .inl ⟨0, 1, by decide⟩ | exact fun h => absurd h (by decide) | exact .inr ⟨by decide, by decide, by simp only [List.mem_cons, List.not_mem_nil, or_false]; rintro p (rfl | rfl) <;> exact ⟨by decide, 0, 0, 0, by decide⟩⟩ | decide⟩,
    ⟨wMarver ({ wCmd .tileQ 1 true with y := 5 }), 0, 0, { wCmd .tileQ 1 true with y := 5 }, [], by and_intros <;> first | exact fun k => wMarver_sp _ k | exact .inl ⟨by decide, rfl, rfl⟩ | exact .inl ⟨0, 1, by decide⟩ | exact fun h => absurd h (by decide) | exact .inr ⟨by decide, by decide, by simp only [List.mem_cons, List.not_mem_nil, or_false]; rintro p (rfl | rfl) <;> exact ⟨by decide, 0, 0, 0, by decide⟩⟩ | decide⟩,
    ⟨wMarver (wCmd .tileChol 0 true), 0, 0, wCmd .tileChol 0 true, [], by and_intros <;> first | exact fun k => wMarver_sp _ k | exact .inl ⟨by decide, rfl, rfl⟩ | exact .inl ⟨0, 1, by decide⟩ | exact fun h => absurd h (by decide) | exact .inr ⟨by decide, by decide, by simp only [List.mem_cons, List.not_mem_nil, or_false]; rintro p (rfl | rfl) <;> exact ⟨by decide, 0, 0, 0, by decide⟩⟩ | decide⟩,
    ⟨wMarver (wCmd .tileChol 3 true), 0, 0, wCmd .tileChol 3 true, [], by and_intros <;> first | exact fun k => wMarver_sp _ k | exact .inl ⟨by decide, rfl, rfl⟩ | exact .inl ⟨0, 1, by decide⟩ | exact fun h => absurd h (by decide) | exact .inr ⟨by decide, by decide, by simp only [List.mem_cons, List.not_mem_nil, or_false]; rintro p (rfl | rfl) <;> exact ⟨by decide, 0, 0, 0, by decide⟩⟩ | decide⟩,
    ⟨wMarver (wCmd .tileTrsm 0 true), 0, 0, wCmd .tileTrsm 0 true, [], by and_intros <;> first | exact fun k => wMarver_sp _ k | exact .inl ⟨by decide, rfl, rfl⟩ | exact .inl ⟨0, 1, by decide⟩ | exact fun h => absurd h (by decide) | exact .inr ⟨by decide, by decide, by simp only [List.mem_cons, List.not_mem_nil, or_false]; rintro p (rfl | rfl) <;> exact ⟨by decide, 0, 0, 0, by decide⟩⟩ | decide⟩,
    ⟨wMarver (wCmd .tileTrsm 3 true), 0, 0, wCmd .tileTrsm 3 true, [], by and_intros <;> first | exact fun k => wMarver_sp _ k | exact .inl ⟨by decide, rfl, rfl⟩ | exact .inl ⟨0, 1, by decide⟩ | exact fun h => absurd h (by decide) | exact .inr ⟨by decide, by decide, by simp only [List.mem_cons, List.not_mem_nil, or_false]; rintro p (rfl | rfl) <;> exact ⟨by decide, 0, 0, 0, by decide⟩⟩ | decide⟩,
    ⟨wMarver (wCmd .tileMma 2 true), 0, 0, wCmd .tileMma 2 true, [], by simp only [NearAddr, CalmCounters, CountReady]; and_intros <;> first | exact fun k => wMarver_sp _ k | exact .inl ⟨by decide, rfl, rfl⟩ | exact .inl ⟨0, 1, by decide⟩ | exact fun h => absurd h (by decide) | exact .inr ⟨by decide, by decide, by simp only [List.mem_cons, List.not_mem_nil, or_false]; rintro p (rfl | rfl) <;> exact ⟨by decide, 0, 0, 0, by decide⟩⟩ | decide⟩⟩

theorem witness_CounterWords :
    (∃ (s : State) (a : BitVec 5) (b : BitVec 5) (sc : BitVec 3) (l : Loc), sc ≠ 7 ∧ NamesCounter s (rd s a) l ∧
      BitVec.toNat (rd s b) < 2 ^ 62 ∧ NoVectorStore s) ∧
    (∃ (s : State) (a : BitVec 5) (k : BitVec 5) (sc : BitVec 3) (l : Loc), sc ≠ 7 ∧ NamesCounter s (rd s a) l ∧
      BitVec.toNat k < 8 ∧ (me s).v.queue = [] ∧ (me s).v.vl < 2 ^ 62) ∧
    (∃ (s : State) (a : BitVec 5) (b : BitVec 5) (sc : BitVec 3) (l : Loc), sc ≠ 7 ∧ NamesCounter s (rd s a) l ∧
      2 ^ 62 ≤ BitVec.toNat (rd s b) ∧ NoVectorStore s ∧ Quiet s) ∧
    (∃ (s : State) (a : BitVec 5) (b : BitVec 5) (k : BitVec 5) (sc : BitVec 3) (L : Nat → Loc), sc ≠ 7 ∧ k ≠ 0 ∧
      BitVec.toNat k < 8 ∧ BitVec.toNat k ≠ BitVec.toNat (rd s b) / 65536 % 8 ∧
      BitVec.toNat (rd s b) = BitVec.toNat (rd s b) / 65536 % 8 * 65536 + BitVec.toNat (rd s b) / 256 % 32 * 256 + BitVec.toNat (rd s b) % 32 ∧
      ((me s).v.vt = 8 ∨ (me s).v.vt = 11) ∧ (me s).v.rows ≠ 0 ∧ (me s).v.rows ≤ 32 ∧
      (me s).v.vl ≤ (me s).v.rows * 32 ∧ (me s).v.queue = [] ∧
      ∀ i ∈ List.filter (fun i => BitVec.getLsbD (maskGet s s.cur (BitVec.toNat (rd s b) / 65536 % 8)) i) (List.range (me s).v.vl),
      NamesCounter s (rd s a + BitVec.ofInt 64 (BitVec.toInt (BitVec.ofNat 32 (vGet s s.cur (BitVec.toNat (rd s b) % 32) 32 i)))) (L i) ∧
      vGet s s.cur (BitVec.toNat (rd s b) / 256 % 32) (if (me s).v.vt = 8 then 32 else 64) i < 2 ^ 62) :=
  ⟨⟨wS wT, 10, 3, 4, .near 0 1, by simp only [NoVectorStore, NearAddr, NamesCounter, Physical]; and_intros <;> first | decide | exact .inl ⟨0, 1, by decide⟩ | exact fun h => absurd h (by decide)⟩,
    ⟨wS wT, 10, 7, 4, .near 0 1, by simp only [NearAddr, NamesCounter, Physical]; and_intros <;> first | decide | exact .inl ⟨0, 1, by decide⟩ | exact fun h => absurd h (by decide)⟩,
    ⟨wS { wT with g := [(10, 0x200008), (3, 0x4000000000000000)] }, 10, 3, 4, .near 0 1, by simp only [NoVectorStore, NearAddr, Quiet, NamesCounter, Physical]; and_intros <;> first | decide | exact .inl ⟨0, 1, by decide⟩ | exact fun h => absurd h (by decide)⟩,
    ⟨wS { wT with g := [(10, 0x200008), (3, 1 * 65536 + 2 * 256 + 1)], v := { rows := 1, vt := 8, vl := 2, masks := [(1, 3)] } }, 10, 3, 2, 4, fun _ => .near 0 1, by simp only [NearAddr, NamesCounter, Physical]; and_intros <;> first | decide | (intro i hi; have h := List.mem_range.mp (List.mem_filter.mp hi).1; clear hi; have : i = 0 ∨ i = 1 := (by have : i < 2 := h; omega); rcases this with rfl | rfl <;> exact ⟨⟨by decide, rfl, .inl ⟨0, 1, by decide⟩⟩, by decide⟩)⟩⟩

theorem witness_AtomicWords :
    (∃ (s : State) (p : BitVec 1) (d : BitVec 5) (a : BitVec 5) (b : BitVec 5) (q : BitVec 4) (l : Loc) (f : Instr × Rmw),
      BitVec.toNat (rd s a) % 8 = 0 ∧ s.halos = [] ∧ (NamesCounter s (rd s a) l ∧ (NoWindow s (rd s a) ∨ ∃ n e,
      l = Loc.near n e) ∨ ∃ o, l = Loc.spad (s.cur / 16) o ∧ InScratch s (rd s a) 8 o ∧
      (BitVec.getLsbD (co s (s.cur / 16)).ncbase 0 = false ∨ BitVec.toNat (rd s a) / 2 ^ 21 ≠ BitVec.toNat (co s (s.cur / 16)).ncbase / 2 ^ 21)) ∧
      f ∈ [(Instr.amoAdd p d a b q, Rmw.add), (Instr.amoAnd p d a b q, Rmw.and), (Instr.amoOr p d a b q, Rmw.or),
      (Instr.amoXor p d a b q, Rmw.xor), (Instr.amoMin p d a b q, Rmw.min), (Instr.amoMax p d a b q, Rmw.max),
      (Instr.amoMinu p d a b q, Rmw.minu), (Instr.amoMaxu p d a b q, Rmw.maxu), (Instr.amoSwap p d a b q, Rmw.swap),
      (Instr.amoCas p d a b q, Rmw.cas), (Instr.amoFadd p d a b q, Rmw.fadd)]) ∧
    (∃ (s : State) (p : BitVec 1) (a : BitVec 5) (b : BitVec 5) (q : BitVec 4) (l : Loc) (f : Instr × Rmw),
      BitVec.toNat (rd s a) % 8 = 0 ∧ s.halos = [] ∧ (NamesCounter s (rd s a) l ∧ (NoWindow s (rd s a) ∨ ∃ n e,
      l = Loc.near n e) ∨ ∃ o, l = Loc.spad (s.cur / 16) o ∧ InScratch s (rd s a) 8 o ∧
      (BitVec.getLsbD (co s (s.cur / 16)).ncbase 0 = false ∨ BitVec.toNat (rd s a) / 2 ^ 21 ≠ BitVec.toNat (co s (s.cur / 16)).ncbase / 2 ^ 21)) ∧
      List.length (me s).stores < 64 ∧ f ∈ [(Instr.redAdd p a b q, Rmw.add), (Instr.redFadd p a b q, Rmw.fadd),
      (Instr.redMin p a b q, Rmw.min), (Instr.redMax p a b q, Rmw.max)]) :=
  ⟨⟨wS wT, 0, 5, 10, 3, 1, .near 0 1, (.amoAdd 0 5 10 3 1, .add), by simp only [NearAddr, NamesCounter, Physical, NoWindow, InScratch]; and_intros <;> first | decide | exact List.mem_cons_self | exact .inl ⟨⟨by decide, by decide, .inl ⟨0, 1, by decide⟩⟩, .inr ⟨0, 1, rfl⟩⟩⟩,
    ⟨wS wT, 0, 8, 3, 1, .spad 0 0x40, (.redMin 0 8 3 1, .min), by simp only [NearAddr, NamesCounter, Physical, NoWindow, InScratch]; and_intros <;> first | decide | exact .tail _ (.tail _ (.head _)) | exact .inr ⟨0x40, by decide⟩⟩⟩

theorem witness_CounterHoldingWords :
    (∃ (s : State) (a : BitVec 5) (b : BitVec 5) (sc : BitVec 3) (n : Nat) (e : Nat), sc ≠ 7 ∧ n < 1024 ∧ e < 256 ∧
      a = 0 ∧ BitVec.toNat (rd s b) = 2 ^ 23 + n * 256 + e ∧ partOfCore s n = (cx s (me s).ctx).part ∧
      BitVec.getLsbD (co s (s.cur / 16)).ncbase 0 = true) ∧
    (∃ (s : State) (a : BitVec 5) (b : BitVec 5) (sc : BitVec 3) (l : Loc), sc ≠ 7 ∧ NamesCounter s (rd s a) l ∧
      Settled s ∧ Memory.wf s.mem = true ∧ s.poison = [] ∧ s.lehr.withdrawn = [] ∧ NoCopies s ∧
      (me s).waitMet = false ∧ 0 ≤ BitVec.toInt (counterAt s l - rd s b)) ∧
    (∃ (s : State) (a : BitVec 5) (b : BitVec 5) (sc : BitVec 3) (l : Loc), sc ≠ 7 ∧ NamesCounter s (rd s a) l ∧
      Settled s ∧ Memory.wf s.mem = true ∧ s.poison = [] ∧ s.lehr.withdrawn = [] ∧ NoCopies s ∧
      (me s).waitMet = false ∧ BitVec.toInt (counterAt s l - rd s b) < 0) ∧
    (∃ (s : State) (a : BitVec 5) (b : BitVec 5) (k : BitVec 5) (sc : BitVec 3) (l : Loc), sc ≠ 7 ∧
      NamesCounter s (rd s a) l ∧ Settled s ∧ Memory.wf s.mem = true ∧ s.poison = [] ∧ s.lehr.withdrawn = [] ∧
      NoCopies s ∧ (me s).waitMet = false ∧ BitVec.toNat k < 8 ∧ (me s).u.arr = true ∧
      0 ≤ BitVec.toInt (counterAt s l - rd s b)) ∧
    (∃ (s : State) (a : BitVec 5) (sc : BitVec 3) (l : Loc), sc ≠ 7 ∧ NamesCounter s (rd s a) l ∧ Settled s ∧
      Memory.wf s.mem = true ∧ s.poison = [] ∧ s.lehr.withdrawn = [] ∧ NoCopies s ∧ (me s).waitMet = false ∧
      (me s).priv = Priv.user ∧ (∃ w ∈ s.waiters, w.2 = l) ∧ Quiet s) ∧
    (∃ (s : State) (a : BitVec 5) (b : BitVec 5) (sc : BitVec 3) (l : Loc), sc ≠ 7 ∧ NamesCounter s (rd s a) l ∧
      Settled s ∧ Memory.wf s.mem = true ∧ s.poison = [] ∧ s.lehr.withdrawn = [] ∧ NoCopies s ∧
      (me s).waitMet = false ∧ rd s b = 0) ∧
    (∃ (s : State) (a : BitVec 5) (k : BitVec 5) (sc : BitVec 3) (l : Loc), sc ≠ 7 ∧ NamesCounter s (rd s a) l ∧
      Settled s ∧ Memory.wf s.mem = true ∧ s.poison = [] ∧ s.lehr.withdrawn = [] ∧ NoCopies s ∧
      (me s).waitMet = false ∧ BitVec.toNat k < 8 ∧ (me s).u.arr = false) ∧
    (∃ (s : State) (a : BitVec 5) (b : BitVec 5) (k : BitVec 5) (sc : BitVec 3) (l : Loc), sc ≠ 7 ∧
      NamesCounter s (rd s a) l ∧ Settled s ∧ Memory.wf s.mem = true ∧ s.poison = [] ∧ s.lehr.withdrawn = [] ∧
      NoCopies s ∧ (me s).waitMet = false ∧ BitVec.toNat k < 8 ∧ (me s).u.arr = true ∧
      BitVec.toInt (counterAt s l - rd s b) < 0) ∧
    (∃ (s : State) (a : BitVec 5) (sc : BitVec 3) (l : Loc), sc ≠ 7 ∧ NamesCounter s (rd s a) l ∧ Settled s ∧
      Memory.wf s.mem = true ∧ s.poison = [] ∧ s.lehr.withdrawn = [] ∧ NoCopies s ∧ (me s).waitMet = false ∧
      s.waiters = [] ∧ s.arms = []) :=
  ⟨⟨wS { wT with g := [(3, 2 ^ 23 + 1023 * 256 + 255)] }, 0, 3, 4, 1023, 255, by decide⟩,
    ⟨wS wT, 10, 11, 4, .near 0 1, by simp only [NoCopies, Settled, NearAddr, NamesCounter, Physical, NothingPosted]; and_intros <;> first | decide | exact .inl ⟨0, 1, by decide⟩ | exact fun h => absurd h (by decide)⟩,
    ⟨wS { wT with g := [(10, 0x200008), (11, 101)] }, 10, 11, 4, .near 0 1, by simp only [NoCopies, Settled, NearAddr, NamesCounter, Physical, NothingPosted]; and_intros <;> first | decide | exact .inl ⟨0, 1, by decide⟩ | exact fun h => absurd h (by decide)⟩,
    ⟨wS { wT with u := { arr := true } }, 10, 11, 7, 4, .near 0 1, by simp only [NoCopies, Settled, NearAddr, NamesCounter, Physical, NothingPosted]; and_intros <;> first | decide | exact .inl ⟨0, 1, by decide⟩ | exact fun h => absurd h (by decide)⟩,
    ⟨{ wS wUser with waiters := [(16, .near 0 1)] }, 10, 4, .near 0 1, by simp only [NoCopies, Settled, NearAddr, Quiet, NamesCounter, Physical, NothingPosted]; and_intros <;> first | decide | exact .inl ⟨0, 1, by decide⟩ | exact ⟨_, List.mem_cons_self, rfl⟩⟩,
    ⟨wS wT, 10, 0, 4, .near 0 1, by simp only [NoCopies, Settled, NearAddr, NamesCounter, Physical, NothingPosted]; and_intros <;> first | decide | exact .inl ⟨0, 1, by decide⟩ | exact fun h => absurd h (by decide)⟩,
    ⟨wS wT, 10, 0, 4, .near 0 1, by simp only [NoCopies, Settled, NearAddr, NamesCounter, Physical, NothingPosted]; and_intros <;> first | decide | exact .inl ⟨0, 1, by decide⟩ | exact fun h => absurd h (by decide)⟩,
    ⟨wS { wT with u := { arr := true }, g := [(10, 0x200008), (11, 101)] }, 10, 11, 7, 4, .near 0 1, by simp only [NoCopies, Settled, NearAddr, NamesCounter, Physical, NothingPosted]; and_intros <;> first | decide | exact .inl ⟨0, 1, by decide⟩ | exact fun h => absurd h (by decide)⟩,
    ⟨wS wT, 10, 6, .near 0 1, by simp only [NoCopies, Settled, NearAddr, NamesCounter, Physical, NothingPosted]; and_intros <;> first | decide | exact .inl ⟨0, 1, by decide⟩ | exact fun h => absurd h (by decide)⟩⟩

theorem witness_OperationsAtHome :
    (∃ (s : State) (n : Nat) (x : Post), Alone s n x ∧ HereAt x.loc ∧ s.poison = [] ∧ s.arms = [] ∧ s.stuck = [] ∧
      s.lehr.withdrawn = [] ∧ NoCopies s ∧ Memory.wf s.mem = true ∧ Memory.wf s.spads = true ∧
      x.kind = PostKind.add) ∧
    (∃ (s : State) (n : Nat) (x : Post), Alone s n x ∧ HereAt x.loc ∧ s.poison = [] ∧ s.arms = [] ∧ s.stuck = [] ∧
      s.lehr.withdrawn = [] ∧ NoCopies s ∧ Memory.wf s.mem = true ∧ Memory.wf s.spads = true ∧
      Awaits s x.tid x.d x.pc ∧ x.kind = PostKind.read) ∧
    (∃ (s : State) (n : Nat) (x : Post) (o : Rmw) (r : Nat), Alone s n x ∧ HereAt x.loc ∧ s.poison = [] ∧
      s.arms = [] ∧ s.stuck = [] ∧ s.lehr.withdrawn = [] ∧ NoCopies s ∧ Memory.wf s.mem = true ∧
      Memory.wf s.spads = true ∧ Awaits s x.tid x.d x.pc ∧ x.kind = PostKind.amo o ∧ (o, r) ∈ [(Rmw.add,
      (BitVec.toNat (counterAt s x.loc) + BitVec.toNat x.amount) % 2 ^ 64), (Rmw.and,
      BitVec.toNat (counterAt s x.loc) &&& BitVec.toNat x.amount), (Rmw.or,
      BitVec.toNat (counterAt s x.loc) ||| BitVec.toNat x.amount), (Rmw.xor,
      BitVec.toNat (counterAt s x.loc) ^^^ BitVec.toNat x.amount), (Rmw.min,
      if BitVec.toInt x.amount < BitVec.toInt (counterAt s x.loc) then BitVec.toNat x.amount else BitVec.toNat (counterAt s x.loc)),
      (Rmw.max,
      if BitVec.toInt (counterAt s x.loc) < BitVec.toInt x.amount then BitVec.toNat x.amount else BitVec.toNat (counterAt s x.loc)),
      (Rmw.minu, min (BitVec.toNat (counterAt s x.loc)) (BitVec.toNat x.amount)), (Rmw.maxu,
      max (BitVec.toNat (counterAt s x.loc)) (BitVec.toNat x.amount)), (Rmw.swap, BitVec.toNat x.amount), (Rmw.cas,
      if counterAt s x.loc = x.cmp then BitVec.toNat x.amount else BitVec.toNat (counterAt s x.loc)), (Rmw.fadd,
      (Fmt.add fp64 Rm.rne (BitVec.toNat (counterAt s x.loc)) (BitVec.toNat x.amount)).1)] ∧ s.waiters = []) ∧
    (∃ (s : State) (tid : Nat) (x : Store) (l : Loc) (o : Rmw) (r : Nat), (th s tid).sent = [x] ∧
      (th s tid).stores = [] ∧ (∀ y ∈ s.posts, y.tid ≠ tid) ∧ x.loc = some l ∧ HereAt l ∧ x.width = 8 ∧
      s.poison = [] ∧ s.arms = [] ∧ s.waiters = [] ∧ s.stuck = [] ∧ NoCopies s ∧ Memory.wf s.mem = true ∧
      Memory.wf s.spads = true ∧ x.op = o ∧ (o, r) ∈ [(Rmw.add,
      (BitVec.toNat (counterAt s l) + BitVec.toNat x.data) % 2 ^ 64), (Rmw.min,
      if BitVec.toInt x.data < BitVec.toInt (counterAt s l) then BitVec.toNat x.data else BitVec.toNat (counterAt s l)),
      (Rmw.max,
      if BitVec.toInt (counterAt s l) < BitVec.toInt x.data then BitVec.toNat x.data else BitVec.toNat (counterAt s l)),
      (Rmw.fadd, (Fmt.add fp64 Rm.rne (BitVec.toNat (counterAt s l)) (BitVec.toNat x.data)).1)]) ∧
    (∃ (s : State) (n : Nat) (x : Post), Alone s n x ∧ HereAt x.loc ∧ s.poison = [] ∧ s.arms = [] ∧ s.stuck = [] ∧
      s.lehr.withdrawn = [] ∧ NoCopies s ∧ Memory.wf s.mem = true ∧ Memory.wf s.spads = true ∧
      Awaits s x.tid x.d x.pc ∧ x.kind = PostKind.fadd) ∧
    (∃ (s : State) (n : Nat) (x : Post), Alone s n x ∧ HereAt x.loc ∧ s.poison = [] ∧ s.arms = [] ∧ s.stuck = [] ∧
      s.lehr.withdrawn = [] ∧ NoCopies s ∧ Memory.wf s.mem = true ∧ Memory.wf s.spads = true ∧
      Awaits s x.tid x.d x.pc ∧ x.kind = PostKind.test) :=
  ⟨⟨wAtHome .add, 0, wPost .add, by simp only [NoCopies, HereAt, Alone]; and_intros <;> first | decide | exact .inr (.inr ⟨0, 1, by decide⟩)⟩,
    ⟨wAtHome .read, 0, wPost .read, by simp only [NoCopies, Awaits, HereAt, Alone]; and_intros <;> first | decide | exact .inr (.inr ⟨0, 1, by decide⟩) | exact ⟨_, List.mem_cons_self, by decide⟩ | simp⟩,
    ⟨wAtHome (.amo .cas), 0, wPost (.amo .cas), .cas, 100, by simp only [NoCopies, Awaits, HereAt, Alone]; and_intros <;> first | decide | exact .inr (.inr ⟨0, 1, by decide⟩) | exact ⟨_, List.mem_cons_self, by decide⟩ | simp⟩,
    ⟨wS { wT with sent := [wRed] }, 0, wRed, .mem 0x2000, .max, 0x403, by simp only [NoCopies, HereAt]; and_intros <;> first | decide | exact .inl ⟨0x2000, by decide⟩⟩,
    ⟨wAtHome .fadd, 0, wPost .fadd, by simp only [NoCopies, Awaits, HereAt, Alone]; and_intros <;> first | decide | exact .inr (.inr ⟨0, 1, by decide⟩) | exact ⟨_, List.mem_cons_self, by decide⟩ | simp⟩,
    ⟨wAtHome .test, 0, wPost .test, by simp only [NoCopies, Awaits, HereAt, Alone]; and_intros <;> first | decide | exact .inr (.inr ⟨0, 1, by decide⟩) | exact ⟨_, List.mem_cons_self, by decide⟩ | simp⟩⟩

theorem witness_WaitEvents :
    (∃ (s : State) (n : Nat) (k : Wake), s.wakes[n]? = some k) ∧
    (∃ (s : State) (tid : Nat) (w : Wait), (th s tid).wait = some w ∧ (th s tid).state = SlotState.parked ∧
      w.woken = true ∧ HereAt w.loc ∧ s.poison = [] ∧ s.lehr.withdrawn = [] ∧ s.stuck = [] ∧ NoCopies s ∧
      0 ≤ BitVec.toInt (counterAt s w.loc - w.thr) ∧ w.guard = false) ∧
    (∃ (s : State) (tid : Nat) (w : Wait), (th s tid).wait = some w ∧ (th s tid).state = SlotState.parked ∧
      w.woken = true ∧ HereAt w.loc ∧ s.poison = [] ∧ s.lehr.withdrawn = [] ∧ s.stuck = [] ∧ NoCopies s ∧
      BitVec.toInt (counterAt s w.loc - w.thr) < 0) ∧
    (∃ (s : State) (tid : Nat) (w : Wait), (th s tid).wait = some w ∧ (th s tid).state = SlotState.parked ∧
      w.listed = false ∧ w.woken = false) ∧
    (∃ (s : State) (tid : Nat) (w : Wait) (c : Nat), (th s tid).wait = some w ∧ (th s tid).state = SlotState.parked ∧
      w.due = some c ∧ HereAt w.loc ∧ s.poison = [] ∧ s.lehr.withdrawn = [] ∧ NoCopies s ∧
      0 ≤ BitVec.toInt (counterAt s w.loc - w.thr) ∧ w.guard = false) ∧
    (∃ (s : State) (tid : Nat) (w : Wait) (c : Nat), (th s tid).wait = some w ∧ (th s tid).state = SlotState.parked ∧
      w.due = some c ∧ HereAt w.loc ∧ NoCopies s ∧ BitVec.toInt (counterAt s w.loc - w.thr) < 0 ∧
      (∀ l ∈ (th s tid).longs, l.res = LongRes.written) ∧ (th s tid).v.queue = []) ∧
    (∃ (s : State) (n : Nat) (w : Nat × Loc), s.waiters[n]? = some w) :=
  ⟨⟨wParked (wWait 100 false true 0), 0, { tid := 16, loc := .near 0 1 }, by decide⟩,
    ⟨wParked (wWait 100 true false 2), 16, wWait 100 true false 2, by simp only [NoCopies, HereAt]; and_intros <;> first | decide | exact .inr (.inr ⟨0, 1, by decide⟩)⟩,
    ⟨wParked (wWait 101 true false 1), 16, wWait 101 true false 1, by simp only [NoCopies, HereAt]; and_intros <;> first | decide | exact .inr (.inr ⟨0, 1, by decide⟩)⟩,
    ⟨wParked (wWait 101 false false 1), 16, wWait 101 false false 1, by decide⟩,
    ⟨wParked (wWait 100 true false 1), 16, wWait 100 true false 1, 50, by simp only [NoCopies, HereAt]; and_intros <;> first | decide | exact .inr (.inr ⟨0, 1, by decide⟩)⟩,
    ⟨wParked (wWait 101 false false 1), 16, wWait 101 false false 1, 50, by simp only [NoCopies, HereAt]; and_intros <;> first | decide | exact .inr (.inr ⟨0, 1, by decide⟩)⟩,
    ⟨wParked (wWait 101 false true 1), 0, (16, .near 0 1), by decide⟩⟩

theorem witness_Multicasts :
    (∃ (s : State), memberOf s s.cur = none ∧ Quiet s) ∧
    (∃ (s : State) (a : BitVec 5) (b : BitVec 5) (k : Nat) (r : Nat) (src : Option (Loc × Word)), InGang s k r ∧
      NoVectorStore s ∧ NothingPosted s s.cur ∧ s.poison = [] ∧ BitVec.toNat (rd s a) % 8 = 0 ∧
      BitVec.toNat (rd s a) + 32 ≤ (co s (s.cur / 16)).sp * 65536 ∧
      (mcastDesc (mbytes s.spads (s.cur / 16 * 524288 + BitVec.toNat (rd s a)) 32)).bad = false ∧
      (mcastDesc (mbytes s.spads (s.cur / 16 * 524288 + BitVec.toNat (rd s a)) 32)).sstride % 4 = 0 ∧
      (mcastDesc (mbytes s.spads (s.cur / 16 * 524288 + BitVec.toNat (rd s a)) 32)).dstride % 4 = 0 ∧
      (∀ i < (mcastDesc (mbytes s.spads (s.cur / 16 * 524288 + BitVec.toNat (rd s a)) 32)).rows,
      (mcastDesc (mbytes s.spads (s.cur / 16 * 524288 + BitVec.toNat (rd s a)) 32)).src + i * (mcastDesc (mbytes s.spads (s.cur / 16 * 524288 + BitVec.toNat (rd s a)) 32)).sstride + (mcastDesc (mbytes s.spads (s.cur / 16 * 524288 + BitVec.toNat (rd s a)) 32)).rowb ≤ (co s (s.cur / 16)).sp * 65536) ∧
      (rd s b = 0 ∧ src = none ∨ ∃ l, rd s b ≠ 0 ∧ NamesCounter s (rd s b) l ∧ src = some (l, rd s b))) ∧
    (∃ (s : State) (m : Mcast), s.mcasts = [m] ∧ Memory.wf s.mem = true ∧ Memory.wf s.spads = true ∧ CalmCounters s ∧
      m.read = false ∧ (th s m.tid).stores = [] ∧ (th s m.tid).sent = [] ∧ (th s m.tid).precs = [] ∧ (∀ p ∈ s.posts,
      p.tid ≠ m.tid) ∧ m.left ≠ []) ∧
    (∃ (s : State) (m : Mcast) (n : Nat) (c : Nat), s.mcasts = [m] ∧ Memory.wf s.mem = true ∧
      Memory.wf s.spads = true ∧ CalmCounters s ∧ m.read = true ∧ m.bad = [] ∧ m.left[n]? = some c ∧ (∀ row ∈ m.panel,
      List.length row = m.rowb) ∧ m.rowb ≤ m.dstride) :=
  ⟨⟨wS wT, by simp only [Quiet]; decide⟩,
    ⟨wSender 7 0x84 0x200008, 2, 5, 0, 0, some (.near 0 1, 0x200008), by simp only [NoVectorStore, InGang, NearAddr, NamesCounter, Physical, NothingPosted]; and_intros <;> first | decide | exact .inr ⟨.near 0 1, by decide, ⟨by decide, rfl, .inl ⟨0, 1, by decide⟩⟩, rfl⟩⟩,
    ⟨wDelivery (wMcast false (some (.near 0 1, 0x200008))), wMcast false (some (.near 0 1, 0x200008)), by simp only [CalmCounters]; decide⟩,
    ⟨wDelivery (wMcast true none), wMcast true none, 0, 1, by simp only [CalmCounters]; decide⟩⟩

theorem witness_FloatSpecialValues :
    (∃ (a : Nat) (b : Nat) (c : Nat), a < 2 ^ (1 + 8 + 23) ∧ b < 2 ^ (1 + 8 + 23) ∧ c < 2 ^ (1 + 8 + 23) ∧
      (NaNCode 8 23 a ∨ NaNCode 8 23 b)) ∧
    (∃ (a : Nat) (b : Nat) (c : Nat), a < 2 ^ (1 + 11 + 52) ∧ b < 2 ^ (1 + 11 + 52) ∧ c < 2 ^ (1 + 11 + 52) ∧
      NaNCode 11 52 a) ∧
    (∃ (a : Nat) (b : Nat) (c : Nat), a < 2 ^ (1 + 8 + 23) ∧ b < 2 ^ (1 + 8 + 23) ∧ c < 2 ^ (1 + 8 + 23) ∧
      2 ^ (8 + 23) < a ∧ ¬NaNCode 8 23 a) ∧
    (∃ (a : Nat) (b : Nat) (c : Nat), a < 2 ^ (1 + 11 + 52) ∧ b < 2 ^ (1 + 11 + 52) ∧ c < 2 ^ (1 + 11 + 52) ∧
      a % 2 ^ (11 + 52) ≠ 0 ∧ a % 2 ^ (11 + 52) < (2 ^ 11 - 1) * 2 ^ 52) ∧
    (∃ (a : Nat) (b : Nat), a < 2 ^ (1 + 8 + 23) ∧ b < 2 ^ (1 + 8 + 23) ∧ NaNCode 8 23 a ∧ ¬NaNCode 8 23 b) ∧
    (∃ (a : Nat) (b : Nat), a < 2 ^ (1 + 11 + 52) ∧ b < 2 ^ (1 + 11 + 52) ∧ NaNCode 11 52 a ∧ NaNCode 11 52 b) ∧
    (∃ (a : Nat), a < 2 ^ 64 ∧ NaNCode 11 52 a) ∧
    (∃ (a : Nat), a < 2 ^ 64 ∧ 4890909195324358656 ≤ a ∧ a ≤ 9218868437227405312) ∧
    (∃ (a : Nat), a < 2 ^ 64 ∧ 14114281232179134464 < a ∧ a ≤ 18442240474082181120) ∧
    (∃ (a : Nat), a < 2 * 2 ^ (8 + 23)) :=
  ⟨⟨0x7F800001, 0, 0, by simp only [NaNCode]; decide⟩,
    ⟨0xFFF0000000000001, 0x8000000000000001, 0, by simp only [NaNCode]; decide⟩,
    ⟨0xFF800000, 0, 0, by simp only [NaNCode]; decide⟩, ⟨0x000FFFFFFFFFFFFF, 0, 0, by decide⟩,
    ⟨0x7FC00000, 0, by simp only [NaNCode]; decide⟩,
    ⟨0xFFFFFFFFFFFFFFFF, 0x7FF0000000000001, by simp only [NaNCode]; decide⟩,
    ⟨0xFFFFFFFFFFFFFFFF, by simp only [NaNCode]; decide⟩, ⟨0x43E0000000000000, by decide⟩,
    ⟨0xFFF0000000000000, by decide⟩, ⟨0xFFFFFFFF, by decide⟩⟩

theorem witness_LinesAndCopies :
    (∃ (s : State) (b : BitVec 5), BitVec.toNat b < 7 ∧ NoVectorStore s ∧ Settled s ∧ NoCopies s) ∧
    (∃ (s : State) (b : BitVec 5), BitVec.toNat b < 7 ∧ NoVectorStore s ∧ b ≠ 0 ∧ ∃ x ∈ (me s).stores,
      x.seq < s.order) ∧
    (∃ (s : State), NoVectorStore s ∧ (me s).stores = [] ∧ (me s).precs = []) ∧
    (∃ (b : BitVec 5), BitVec.toNat b < 3) ∧
    (∃ (s : State) (a : BitVec 5) (b : BitVec 5) (off : Nat), BitVec.toNat b < 7 ∧
      (InScratch s (rd s a) 1 off ∨ ∃ n e, NearAddr s (s.cur / 16) (rd s a) n e)) ∧
    (∃ (s : State) (a : BitVec 5) (b : BitVec 5) (off : Nat), BitVec.toNat b < 7 ∧
      (InScratch s (rd s a) 1 off ∨ ∃ n e, NearAddr s (s.cur / 16) (rd s a) n e)) ∧
    (∃ (s : State) (a : BitVec 5) (b : BitVec 5) (k : Nat), BitVec.toNat b < 7 ∧ InMemory s (rd s a) 1 k ∧
      NoCopies s) ∧
    (∃ (s : State) (a : BitVec 5) (b : BitVec 5) (k : Nat) (x : PeerLine), BitVec.toNat b < 7 ∧ Physical s ∧
      NoWindow s (rd s a) ∧ s.halos = [] ∧ s.haloDirty = [] ∧ s.waiters = [] ∧ s.arms = [] ∧ Memory.wf s.mem = true ∧
      5 ≤ BitVec.toNat b ∧ BitVec.toNat (rd s a) = k ∧ k < 2 ^ 48 ∧ k / 2 ^ 40 ≠ s.pkg ∧
      reachable s (k / 2 ^ 40) = true ∧ s.peerLines = [((2 ^ 48 + k) / 128, x)] ∧ x.dirty = true ∧ x.ver = s.dv ∧
      LineData x.data) ∧
    (∃ (s : State) (line : Nat) (x : PeerLine), Memory.wf s.mem = true ∧ s.waiters = [] ∧ s.arms = [] ∧
      x.dirty = true ∧ LineData x.data ∧ s.peerLines = [(line, x)] ∧ s.hostLines = [] ∧
      homeReach s (Loc.mem (line * 128)) = true ∧ line * 128 < 2 ^ 55) ∧
    (∃ (s : State) (line : Nat) (x : PeerLine), Memory.wf s.mem = true ∧ s.waiters = [] ∧ s.arms = [] ∧
      x.dirty = true ∧ LineData x.data ∧ s.hostLines = [(line, x)] ∧ s.peerLines = [] ∧ 2 ^ 55 ≤ line * 64 ∧
      ∀ e ∈ x.data, e.1 < 64) ∧
    (∃ (s : State) (line : Nat) (x : PeerLine), Memory.wf s.mem = true ∧ s.waiters = [] ∧ s.arms = [] ∧
      x.dirty = true ∧ LineData x.data ∧ s.peerLines = [(line, x)] ∧ homeReach s (Loc.mem (line * 128)) = false ∧
      line * 128 < 2 ^ 55 ∧ s.stuck = []) ∧
    (∃ (s : State) (pa : Nat) (k : Nat) (data : List Byte), s.pkg < 256 ∧ pa = s.pkg * 2 ^ 40 + k ∧
      k + List.length data ≤ 2 ^ 40 ∧ Memory.wf s.mem = true ∧ s.halos = [] ∧ s.waiters = [] ∧ s.arms = []) ∧
    (∃ (s : State) (b : BitVec 5), BitVec.toNat b < 7 ∧ NoVectorStore s ∧ b = 0) ∧
    (∃ (s : State), (me s).stores ≠ []) ∧
    (∃ (core : Nat), core < 1024) :=
  ⟨⟨wS wT, 6, by simp only [NoVectorStore, NoCopies, Settled, NothingPosted]; decide⟩,
    ⟨{ wS { wT with stores := [wStore .global 0x2000 8] } with order := 4 }, 3, by simp only [NoVectorStore]; and_intros <;> first | decide | exact ⟨_, List.mem_cons_self, by decide⟩⟩,
    ⟨wS wT, by simp only [NoVectorStore]; decide⟩, ⟨2, by decide⟩,
    ⟨wS wT, 8, 6, 0x40, by simp only [NearAddr, InScratch]; and_intros <;> first | decide | exact .inl (by decide)⟩,
    ⟨wS wT, 10, 6, 0, by simp only [NearAddr, InScratch]; and_intros <;> first | decide | exact .inr ⟨0, 1, by decide⟩⟩,
    ⟨wS wT, 9, 2, 0x2000, by simp only [NoCopies, Physical, InMemory, NoWindow]; decide⟩,
    ⟨wPeer, 9, 5, 0x10000000000, wLine, by simp only [LineData, Physical, NoWindow]; and_intros <;> first | decide | exact (by decide : (2 : Nat) ^ 40 / 2 ^ 40 ≠ 0)⟩,
    ⟨wPeer, (2 ^ 48 + 2 ^ 40) / 128, wLine, by simp only [LineData]; decide⟩,
    ⟨{ wS wT with hostLines := [(2 ^ 49, wHalf)] }, 2 ^ 49, wHalf, by simp only [LineData]; decide⟩,
    ⟨{ wPeer with routes := [] }, (2 ^ 48 + 2 ^ 40) / 128, wLine, by simp only [LineData]; decide⟩,
    ⟨wS wT, 0x1FFF, 0x1FFF, [1, 0, 3, 4], by decide⟩, ⟨wS wT, 0, by simp only [NoVectorStore]; decide⟩,
    ⟨wS { wT with stores := [wStore .global 0x2000 8] }, by decide⟩, ⟨1023, by decide⟩⟩

theorem witness_HaloWords :
    (∃ (s : State) (a : BitVec 5) (off : Nat), BitVec.toNat (rd s a) % 64 = 0 ∧ InScratch s (rd s a) 64 off ∧
      Settled s ∧ s.poison = [] ∧ memberOf s s.cur = none) ∧
    (∃ (s : State) (a : BitVec 5) (k : Nat) (r : Nat) (off : Nat), BitVec.toNat (rd s a) % 64 = 0 ∧
      InScratch s (rd s a) 64 off ∧ Settled s ∧ s.poison = [] ∧ InGang s k r ∧ s.halos = [] ∧ Physical s ∧
      s.pkg < 256 ∧
      haloOk (mbytes s.spads (s.cur / 16 * 524288 + off) 64) (haloOf (mbytes s.spads (s.cur / 16 * 524288 + off) 64) (groupId s k) (me s).ctx 0) = true ∧
      haloRanks (gr s k) (haloOf (mbytes s.spads (s.cur / 16 * 524288 + off) 64) (groupId s k) (me s).ctx 0) = true ∧
      haloFits s (haloOf (mbytes s.spads (s.cur / 16 * 524288 + off) 64) (groupId s k) (me s).ctx 0) = true ∧
      (∀ v ∈ haloPages (haloOf (mbytes s.spads (s.cur / 16 * 524288 + off) 64) (groupId s k) (me s).ctx 0), ∃ m,
      v * 4096 = s.pkg * 2 ^ 40 + m ∧ m < 2 ^ 40 ∧ (granule s (m / 2 ^ 30)).part = (cx s (me s).ctx).part) ∧
      ∀ m ∈ (gr s k).members, (th s m.2).stores = [] ∧ (th s m.2).sent = [] ∧ (th s m.2).precs = [] ∧
      (th s m.2).v.queue = []) ∧
    (∃ (s : State) (a : BitVec 5) (k : Nat) (r : Nat) (h : Halo), InGang s k r ∧ s.halos = [h] ∧ h.gid = groupId s k ∧
      BitVec.toNat (rd s a) = h.handle ∧ Memory.wf s.mem = true ∧ s.waiters = [] ∧ s.arms = [] ∧ (∀ e ∈ s.haloDirty,
      e.1 / 2 ^ 57 = s.cur) ∧ List.Nodup (List.map (fun x => x.1) s.haloDirty) ∧ ∀ e ∈ s.haloDirty, ∃ i j,
      haloAt s (e.1 % 2 ^ 57) = some (h, i, j)) ∧
    (∃ (s : State) (a : BitVec 5) (k : Nat) (r : Nat) (h : Halo), InGang s k r ∧ s.halos = [h] ∧ h.gid = groupId s k ∧
      BitVec.toNat (rd s a) = h.handle ∧ Memory.wf s.mem = true ∧ s.waiters = [] ∧ s.arms = [] ∧ (∀ e ∈ s.haloDirty,
      e.1 / 2 ^ 57 = s.cur) ∧ List.Nodup (List.map (fun x => x.1) s.haloDirty) ∧ (∀ e ∈ s.haloDirty, ∃ i j,
      haloAt s (e.1 % 2 ^ 57) = some (h, i, j)) ∧ (∃ n < h.gx * h.gy,
      rankThread (gr s k) (h.rbase + n) = some s.cur) ∧ groupKey s h.gid = some k) ∧
    (∃ (s : State) (a : BitVec 5) (k : Nat) (r : Nat) (h : Halo), InGang s k r ∧ s.halos = [h] ∧ h.gid = groupId s k ∧
      BitVec.toNat (rd s a) ≠ h.handle ∧ Quiet s) :=
  ⟨⟨wS { wT with g := [(2, 0x80080)] }, 2, 0x80, by simp only [Settled, NothingPosted, InScratch]; decide⟩,
    ⟨wGang, 2, 0, 0, 0x80, by simp only [InGang, Settled, Physical, NothingPosted, InScratch]; and_intros <;> first | decide | (have h : ∀ v ∈ haloPages (haloOf (mbytes wGang.spads 128 64) (groupId wGang 0) (me wGang).ctx 0), v = 1 := (by decide); intro v hv; obtain rfl := h v hv; exact ⟨0x1000, by decide⟩)⟩,
    ⟨wRegion, 5, 0, 0, wHalo, by simp only [InGang]; and_intros <;> first | decide | (intro e he; obtain rfl : e = (0x107C, 9) := List.mem_singleton.mp he; exact ⟨0, 31, by decide⟩) | exact ⟨0, by decide⟩⟩,
    ⟨wRegion, 5, 0, 0, wHalo, by simp only [InGang]; and_intros <;> first | decide | (intro e he; obtain rfl : e = (0x107C, 9) := List.mem_singleton.mp he; exact ⟨0, 31, by decide⟩) | exact ⟨0, by decide⟩⟩,
    ⟨wRegion, 6, 0, 0, wHalo, by simp only [InGang, Quiet]; decide⟩⟩

theorem witness_TranslationWords :
    (∃ (s : State) (b : BitVec 5), (me s).priv ≠ Priv.user ∧ ((me s).hold = none ∧ NoUses s) ∧
      (b = 0 ∨ BitVec.toNat (rd s b) < 2 ^ 16)) ∧
    (∃ (s : State), (me s).priv ≠ Priv.user ∧ ((me s).hold = none ∧ NoUses s) ∧ Settled s ∧ s.hostLines = [] ∧
      s.cur % 16 ≠ 15) ∧
    (∃ (s : State) (a : BitVec 5) (b : BitVec 5) (k : Nat), (me s).priv ≠ Priv.user ∧ BitVec.toNat (rd s b) < 8 ∧
      BitVec.toNat (rd s b) % 4 ≠ 3 ∧ BitVec.toNat (cx s (me s).ctx).sxlat / 2 ^ 60 = 0 ∧
      BitVec.toNat (cx s (me s).ctx).hgxlat / 2 ^ 60 = 0 ∧ (cx s (me s).ctx).hostpt = false ∧ s.pkg < 256 ∧
      BitVec.toNat (rd s a) = s.pkg * 2 ^ 40 + k ∧ k < 2 ^ 40 ∧
      (granule s (k / 2 ^ 30)).part = (cx s (me s).ctx).part) ∧
    (∃ (s : State) (a : BitVec 5) (b : BitVec 5) (leaf : Nat) (r : Bool) (w : Bool) (x : Bool) (u : Bool) (k : Nat),
      (me s).priv ≠ Priv.user ∧ BitVec.toNat (rd s b) < 8 ∧ BitVec.toNat (rd s b) % 4 ≠ 3 ∧
      FirstStage (cx s (me s).ctx) ∧ s.wcache = [] ∧ s.pkg < 256 ∧ BitVec.toNat (rd s a) < 2 ^ 56 ∧
      Walks s (cx s (me s).ctx) (BitVec.toNat (rd s a)) leaf ∧ LeafPte leaf r w x u ∧ s.poison = [] ∧
      u = decide (BitVec.toNat (rd s b) / 4 = 1) ∧
      (if BitVec.toNat (rd s b) % 4 = 0 then r else if BitVec.toNat (rd s b) % 4 = 1 then w else x) = true ∧
      leaf / 1024 * 4096 = s.pkg * 2 ^ 40 + k ∧ k < 2 ^ 40 ∧ (granule s (k / 2 ^ 30)).part = (cx s (me s).ctx).part) ∧
    (∃ (s : State) (b : BitVec 5), (me s).priv = Priv.hyp ∧ ((me s).hold = none ∧ NoUses s) ∧
      (b = 0 ∨ BitVec.toNat (rd s b) < 2 ^ 14)) ∧
    (∃ (s : State) (p : BitVec 1) (d : BitVec 5) (a : BitVec 5) (b : BitVec 5) (i : Instr), (me s).priv = Priv.user ∧
      Quiet s ∧ i ∈ [Instr.vmInv p a b, Instr.vmFence p, Instr.vmProbe p d a b, Instr.vmGinv p a b]) ∧
    (∃ (s : State) (vf : Nat) (off : Nat) (data : List Byte), off + List.length data = 64 ∧
      mrd (mputs (vfn s vf).fence off data) 0 8 < 2 ^ 18 ∧ mrd (mputs (vfn s vf).fence off data) 8 8 % 4096 = 0 ∧
      mrd (mputs (vfn s vf).fence off data) 16 8 % 4096 = 0 ∧ mrd (mputs (vfn s vf).fence off data) 24 8 % 8 = 0 ∧
      ∀ i < 24, mget (mputs (vfn s vf).fence off data) (40 + i) = 0) ∧
    (∃ (s : State) (m : Fence) (rest : List Fence), s.fences = m :: rest ∧ s.hostLines = [] ∧ s.waiters = [] ∧
      s.arms = [] ∧ Memory.wf s.mem = true ∧ NoUses s ∧ m.ack < 2 ^ 55) ∧
    (∃ (s : State) (a : BitVec 5) (b : BitVec 5) (k : Nat), (me s).priv ≠ Priv.user ∧ BitVec.toNat (rd s b) < 8 ∧
      BitVec.toNat (rd s b) % 4 ≠ 3 ∧ BitVec.toNat (cx s (me s).ctx).sxlat / 2 ^ 60 = 0 ∧
      BitVec.toNat (cx s (me s).ctx).hgxlat / 2 ^ 60 = 0 ∧ (cx s (me s).ctx).hostpt = false ∧ s.pkg < 256 ∧
      BitVec.toNat (rd s a) = s.pkg * 2 ^ 40 + k ∧ k < 2 ^ 40 ∧
      (granule s (k / 2 ^ 30)).part ≠ (cx s (me s).ctx).part) :=
  ⟨⟨wCached .sup false, 0, by simp only [NoUses]; decide⟩,
    ⟨wCached .sup false, by simp only [Settled, NoUses, NothingPosted]; decide⟩,
    ⟨wS { wT with priv := .sup, g := [(9, 0x7008)] }, 9, 0, 0x7008, by decide⟩,
    ⟨wCached .sup false, 9, 0, 7367, true, true, false, false, 0x7000, by simp only [TablePte, LeafPte, Walks, FirstStage]; and_intros <;> first | decide | exact ⟨0x1000, 0x2000, 0x3000, 0x4000, 0x5028, by decide⟩⟩,
    ⟨wCached .hyp false, 0, by simp only [NoUses]; decide⟩,
    ⟨wCached .user false, 0, 7, 9, 0, .vmFence 0, by simp only [Quiet]; decide⟩,
    ⟨wCached .user true, 2, 24, wFence, by decide⟩,
    ⟨{ wCached .user true with fences := [{ vf := 2, asid := none, range := none, ack := 0x40, val := 77 }] }, { vf := 2, asid := none, range := none, ack := 0x40, val := 77 }, [], by simp only [NoUses]; decide⟩,
    ⟨{ wS { wT with priv := .sup, g := [(9, 0x7008)] } with parts := { granule := [(0, { part := 1 })] } }, 9, 0, 0x7008, by decide⟩⟩

theorem witness_PageRequests :
    (∃ (s : State) (tid : Nat) (va : Word) (kind : Nat) (leaf : Nat) (r : Bool) (w : Bool) (x : Bool) (u : Bool),
      tid < 16384 ∧ (th s tid).priv ≠ Priv.hyp ∧ kind < 3 ∧ s.pkg < 256 ∧ s.poison = [] ∧ s.tlb = [] ∧ s.wcache = [] ∧
      BitVec.toNat va < 2 ^ 56 ∧ FirstStage (cx s (th s tid).ctx) ∧
      Walks s (cx s (th s tid).ctx) (BitVec.toNat va) leaf ∧ LeafPte leaf r w x u ∧
      u = decide ((th s tid).priv = Priv.user) ∧ (if kind = 0 then r else if kind = 1 then w else x) = true) ∧
    (∃ (s : State) (tid : Nat) (va : Word) (kind : Nat), tid < 16384 ∧ (th s tid).priv ≠ Priv.hyp ∧ kind < 3 ∧
      s.pkg < 256 ∧ s.poison = [] ∧ s.tlb = [] ∧ s.wcache = [] ∧ BitVec.toNat va < 2 ^ 56 ∧
      FirstStage (cx s (th s tid).ctx) ∧ Walks s (cx s (th s tid).ctx) (BitVec.toNat va) 0 ∧ s.pages = [] ∧
      s.pageWaits = [] ∧ (cx s (th s tid).ctx).state = CState.running ∧
      BitVec.toNat (cx s (th s tid).ctx).sprq % 16 ≠ 0) ∧
    (∃ (s : State) (k : Nat) (Q : Nat) (hb : Nat) (e : PageReq), s.pages = [(k, e)] ∧ RingAt s e Q hb ∧
      e.written = false ∧ Memory.wf s.mem = true ∧ s.waiters = [] ∧ s.arms = [] ∧ (∀ p ∈ s.posts,
      p.kind = PostKind.add → p.loc ≠ Loc.mem hb) ∧ mrd s.mem (hb + 8) 8 ≤ mrd s.mem hb 8 ∧
      mrd s.mem hb 8 - mrd s.mem (hb + 8) 8 < 2 ^ (Q % 16) ∧ mrd s.mem hb 8 + 1 < 2 ^ 64) ∧
    (∃ (s : State) (own : Nat) (ring : Nat) (k : Nat) (tid : Nat) (ans : Word) (e : PageReq), AnswerNames s ans k e ∧
      s.pageWaits = [] ∧ e.reqs = [Requester.thread tid] ∧ (th s tid).state = SlotState.dropped ∧ (own = 0 ∧
      e.ctx = ring ∧ e.second = false ∧ (cx s e.ctx).hostpt = false ∨ own = 1 ∧ e.second = true ∧
      (cx s e.ctx).part = ring ∨ own = 2 ∧ e.second = false ∧ (cx s e.ctx).hostpt = true ∧
      (cx s e.ctx).vf = some ring) ∧ BitVec.getLsbD ans 32 = false) ∧
    (∃ (s : State) (own : Nat) (ring : Nat) (k : Nat) (tid : Nat) (ans : Word) (e : PageReq), AnswerNames s ans k e ∧
      s.pageWaits = [] ∧ e.reqs = [Requester.thread tid] ∧ (th s tid).state = SlotState.dropped ∧ (own = 0 ∧
      e.ctx = ring ∧ e.second = false ∧ (cx s e.ctx).hostpt = false ∨ own = 1 ∧ e.second = true ∧
      (cx s e.ctx).part = ring ∨ own = 2 ∧ e.second = false ∧ (cx s e.ctx).hostpt = true ∧
      (cx s e.ctx).vf = some ring) ∧ BitVec.getLsbD ans 32 = true) ∧
    (∃ (s : State) (k : Nat) (Q : Nat) (hb : Nat) (e : PageReq), s.pages = [(k, e)] ∧ RingAt s e Q hb ∧
      e.written = false ∧ Memory.wf s.mem = true ∧ s.waiters = [] ∧ s.arms = [] ∧ (∀ p ∈ s.posts,
      p.kind = PostKind.add → p.loc ≠ Loc.mem hb) ∧ mrd s.mem (hb + 8) 8 ≤ mrd s.mem hb 8 ∧
      mrd s.mem hb 8 - mrd s.mem (hb + 8) 8 < 2 ^ (Q % 16) ∧ mrd s.mem hb 8 + 1 < 2 ^ 64) ∧
    (∃ (s : State) (k : Nat) (Q : Nat) (hb : Nat) (e : PageReq), s.pages = [(k, e)] ∧ RingAt s e Q hb ∧
      e.written = false ∧ Memory.wf s.mem = true ∧ s.waiters = [] ∧ s.arms = [] ∧ (∀ p ∈ s.posts,
      p.kind = PostKind.add → p.loc ≠ Loc.mem hb) ∧ mrd s.mem (hb + 8) 8 ≤ mrd s.mem hb 8 ∧
      mrd s.mem hb 8 - mrd s.mem (hb + 8) 8 < 2 ^ (Q % 16) ∧ mrd s.mem hb 8 + 1 < 2 ^ 64) :=
  ⟨⟨wPaged wLeaf .user, 0, 0x5008, 0, wLeaf, true, true, false, true, by simp only [TablePte, LeafPte, Walks, FirstStage]; and_intros <;> first | decide | exact ⟨0x1000, 0x2000, 0x3000, 0x4000, 0x5028, by decide⟩⟩,
    ⟨wPaged 0 .user, 0, 0x5008, 1, by simp only [TablePte, Walks, FirstStage]; and_intros <;> first | decide | exact ⟨0x1000, 0x2000, 0x3000, 0x4000, 0x5028, by decide⟩⟩,
    ⟨wAsked true, 5, 0x2001, 0x2000, wReq true, by simp only [RingAt]; decide⟩,
    ⟨wAsked true, 1, 0, 5, 16, 0x30005, wReq true, by simp only [AnswerNames]; decide⟩,
    ⟨wAsked false, 0, 0, 5, 16, 0x100030005, wReq false, by simp only [AnswerNames]; decide⟩,
    ⟨wAsked false, 5, 0x41, 0x40, wReq false, by simp only [RingAt]; and_intros <;> first | exact ⟨by decide, .inl ⟨.inr (by decide), by decide, by decide, by decide, by decide⟩⟩ | decide⟩,
    ⟨{ wAsked false with ctxs := [(0, { vf := some 3, hostpt := true })], vfs := [(3, { hprb := 0x81 })] }, 5, 0x81, 2 ^ 55 + 0x80, wReq false, by simp only [RingAt]; and_intros <;> first | exact ⟨by decide, .inr ⟨by decide, by decide, by decide, by decide, ⟨3, by decide⟩, by decide, by decide⟩⟩ | decide⟩⟩

theorem witness_GroupMembership :
    (∃ (s : State) (a : BitVec 5) (k : Nat), FreeEntry s k ∧ rd s a = 0) ∧
    (∃ (s : State) (a : BitVec 5) (k : Nat), FreeEntry s k ∧ rd s a = 1 ∧ memberOf s s.cur = none) ∧
    (∃ (s : State) (a : BitVec 5), rd s a = 1 ∧ memberOf s s.cur ≠ none) ∧
    (∃ (s : State) (a : BitVec 5), 1 < BitVec.toNat (rd s a) ∧ Quiet s) ∧
    (∃ (s : State) (b : BitVec 5) (tgt : Bool) (rk : Bool) (rank : Nat) (who : Nat), rank < 4096 ∧ who < 16384 ∧
      (tgt = false → who = 0) ∧ (rk = false → rank = 0) ∧
      BitVec.toNat (rd s b) = Bool.toNat tgt * 2 ^ 63 + Bool.toNat rk * 2 ^ 62 + rank * 2 ^ 16 + who ∧ tgt = true ∧
      (me s).priv = Priv.user ∧ Quiet s) ∧
    (∃ (s : State) (a : BitVec 5) (b : BitVec 5) (tgt : Bool) (rk : Bool) (rank : Nat) (who : Nat), rank < 4096 ∧
      who < 16384 ∧ (tgt = false → who = 0) ∧ (rk = false → rank = 0) ∧
      BitVec.toNat (rd s b) = Bool.toNat tgt * 2 ^ 63 + Bool.toNat rk * 2 ^ 62 + rank * 2 ^ 16 + who ∧ (tgt = true →
      (me s).priv ≠ Priv.user) ∧ groupKey s (BitVec.toNat (rd s a)) = none) ∧
    (∃ (s : State) (a : BitVec 5) (b : BitVec 5) (k : Nat) (tgt : Bool) (rk : Bool) (rank : Nat) (who : Nat),
      rank < 4096 ∧ who < 16384 ∧ (tgt = false → who = 0) ∧ (rk = false → rank = 0) ∧
      BitVec.toNat (rd s b) = Bool.toNat tgt * 2 ^ 63 + Bool.toNat rk * 2 ^ 62 + rank * 2 ^ 16 + who ∧ (tgt = true →
      (me s).priv ≠ Priv.user) ∧ groupKey s (BitVec.toNat (rd s a)) = some k ∧ (gr s k).ctx ≠ (me s).ctx) ∧
    (∃ (s : State) (a : BitVec 5) (b : BitVec 5) (k : Nat) (tgt : Bool) (rk : Bool) (rank : Nat) (who : Nat),
      rank < 4096 ∧ who < 16384 ∧ (tgt = false → who = 0) ∧ (rk = false → rank = 0) ∧
      BitVec.toNat (rd s b) = Bool.toNat tgt * 2 ^ 63 + Bool.toNat rk * 2 ^ 62 + rank * 2 ^ 16 + who ∧ (tgt = true →
      (me s).priv ≠ Priv.user) ∧ NamesGroup s (rd s a) k ∧ tgt = true ∧
      ((th s who).state ≠ SlotState.stopped ∨ (th s who).ctx ≠ (me s).ctx)) ∧
    (∃ (s : State) (a : BitVec 5) (b : BitVec 5) (k : Nat) (tgt : Bool) (rk : Bool) (rank : Nat) (who : Nat),
      rank < 4096 ∧ who < 16384 ∧ (tgt = false → who = 0) ∧ (rk = false → rank = 0) ∧
      BitVec.toNat (rd s b) = Bool.toNat tgt * 2 ^ 63 + Bool.toNat rk * 2 ^ 62 + rank * 2 ^ 16 + who ∧ (tgt = true →
      (me s).priv ≠ Priv.user) ∧ NamesGroup s (rd s a) k ∧ (tgt = true → (th s who).state = SlotState.stopped ∧
      (th s who).ctx = (me s).ctx) ∧ isGang (gr s k) = true) ∧
    (∃ (s : State) (a : BitVec 5) (b : BitVec 5) (k : Nat) (tgt : Bool) (rk : Bool) (rank : Nat) (who : Nat),
      rank < 4096 ∧ who < 16384 ∧ (tgt = false → who = 0) ∧ (rk = false → rank = 0) ∧
      BitVec.toNat (rd s b) = Bool.toNat tgt * 2 ^ 63 + Bool.toNat rk * 2 ^ 62 + rank * 2 ^ 16 + who ∧ (tgt = true →
      (me s).priv ≠ Priv.user) ∧ NamesGroup s (rd s a) k ∧ (tgt = true → (th s who).state = SlotState.stopped ∧
      (th s who).ctx = (me s).ctx) ∧ isGang (gr s k) = false ∧
      memberOf s (if tgt = true then who else s.cur) ≠ none) ∧
    (∃ (s : State) (a : BitVec 5) (b : BitVec 5) (k : Nat) (tgt : Bool) (rk : Bool) (rank : Nat) (who : Nat),
      rank < 4096 ∧ who < 16384 ∧ (tgt = false → who = 0) ∧ (rk = false → rank = 0) ∧
      BitVec.toNat (rd s b) = Bool.toNat tgt * 2 ^ 63 + Bool.toNat rk * 2 ^ 62 + rank * 2 ^ 16 + who ∧ (tgt = true →
      (me s).priv ≠ Priv.user) ∧ NamesGroup s (rd s a) k ∧ (tgt = true → (th s who).state = SlotState.stopped ∧
      (th s who).ctx = (me s).ctx) ∧ isGang (gr s k) = false ∧ memberOf s (if tgt = true then who else s.cur) = none ∧
      if rk = true then ¬FreeRank (gr s k) rank else ∀ q < 4096, ¬FreeRank (gr s k) q) ∧
    (∃ (s : State) (a : BitVec 5) (b : BitVec 5) (k : Nat) (r : Nat) (tgt : Bool) (rk : Bool) (rank : Nat) (who : Nat),
      rank < 4096 ∧ who < 16384 ∧ (tgt = false → who = 0) ∧ (rk = false → rank = 0) ∧
      BitVec.toNat (rd s b) = Bool.toNat tgt * 2 ^ 63 + Bool.toNat rk * 2 ^ 62 + rank * 2 ^ 16 + who ∧ (tgt = true →
      (me s).priv ≠ Priv.user) ∧ NamesGroup s (rd s a) k ∧ (tgt = true → (th s who).state = SlotState.stopped ∧
      (th s who).ctx = (me s).ctx) ∧ isGang (gr s k) = false ∧ memberOf s (if tgt = true then who else s.cur) = none ∧
      FreeRank (gr s k) r ∧ if rk = true then r = rank else ∀ q < r, ¬FreeRank (gr s k) q) ∧
    (∃ (s : State) (k : Nat) (r : Nat), memberOf s s.cur = some (k, r) ∧ NoHalos s ∧
      (gr s k).state ≠ GroupState.stopping ∧ 2 ≤ List.length (gr s k).members) ∧
    (∃ (s : State) (k : Nat) (r : Nat), memberOf s s.cur = some (k, r) ∧ NoHalos s ∧
      (gr s k).state ≠ GroupState.stopping ∧ List.length (gr s k).members = 1) ∧
    (∃ (s : State) (a : BitVec 5) (k : Nat) (r : Nat), memberOf s s.cur = some (k, r) ∧ rd s a = 0) ∧
    (∃ (s : State) (a : BitVec 5), memberOf s s.cur = none ∧ rd s a = 0) ∧
    (∃ (s : State) (a : BitVec 5), rd s a ≠ 0) ∧
    (∃ (s : State) (a : BitVec 5), rd s a ≠ 0 ∧ groupKey s (BitVec.toNat (rd s a)) = none) ∧
    (∃ (s : State) (a : BitVec 5) (k : Nat), rd s a ≠ 0 ∧ groupKey s (BitVec.toNat (rd s a)) = some k ∧
      (gr s k).ctx ≠ (me s).ctx) ∧
    (∃ (s : State) (a : BitVec 5) (k : Nat), rd s a ≠ 0 ∧ NamesGroup s (rd s a) k) :=
  ⟨⟨wGrp wT .opened [] .ready, 0, 0, by simp only [FreeEntry]; and_intros <;> first | exact ⟨0, by decide, by decide, by decide, by decide⟩ | decide⟩,
    ⟨wGrp wT .opened [] .ready, 7, 0, by simp only [FreeEntry]; and_intros <;> first | exact ⟨0, by decide, by decide, by decide, by decide⟩ | decide⟩,
    ⟨wGrp wT .opened [(0, 0)] .ready, 7, by decide⟩, ⟨wGrp wT .opened [] .ready, 6, by simp only [Quiet]; decide⟩,
    ⟨wGrp wUser .opened [] .ready, 11, true, false, 0, 16, by simp only [Quiet]; decide⟩,
    ⟨wGrp wT .opened [] .ready, 7, 0, false, false, 0, 0, by decide⟩,
    ⟨{ wGrp wT .opened [] .ready with groups := [(1, { used := true, ctx := 9 })] }, 6, 0, 1, false, false, 0, 0, by decide⟩,
    ⟨wGrp wT .opened [] .ready, 6, 11, 1, true, false, 0, 16, by simp only [NamesGroup]; decide⟩,
    ⟨wGrp wT .pinned [(1, 16)] .ready, 6, 0, 1, false, false, 0, 0, by simp only [NamesGroup]; decide⟩,
    ⟨wGrp wT .opened [(1, 0)] .ready, 6, 0, 1, false, false, 0, 0, by simp only [NamesGroup]; decide⟩,
    ⟨wGrp wT .opened [(4095, 16)] .ready, 6, 12, 1, false, true, 4095, 0, by simp only [FreeRank, NamesGroup]; decide⟩,
    ⟨wGrp wT .opened [(0, 16)] .ready, 6, 0, 1, 1, false, false, 0, 0, by simp only [FreeRank, NamesGroup]; decide⟩,
    ⟨wGrp wT .opened [(1, 16), (2, 0)] .ready, 1, 2, by simp only [NoHalos]; decide⟩,
    ⟨wGrp wT .opened [(4095, 0)] .ready, 1, 4095, by simp only [NoHalos]; decide⟩,
    ⟨wGrp wT .opened [(4095, 0)] .ready, 0, 1, 4095, by decide⟩, ⟨wGrp wT .opened [] .ready, 0, by decide⟩,
    ⟨wGrp wT .opened [] .ready, 6, by decide⟩, ⟨wS wT, 3, by decide⟩,
    ⟨{ wGrp wT .opened [] .ready with groups := [(1, { used := true, ctx := 9 })] }, 6, 1, by decide⟩,
    ⟨wGrp wT .opened [] .ready, 6, 1, by simp only [NamesGroup]; decide⟩⟩

theorem witness_GangWords :
    (∃ (s : State) (a : BitVec 5) (k : Nat), NamesGroup s (rd s a) k ∧ ((me s).priv = Priv.user →
      ∃ m ∈ (gr s k).members, m.2 = s.cur) ∧ isGang (gr s k) = false ∧ (gr s k).members = []) ∧
    (∃ (s : State) (a : BitVec 5) (k : Nat), NamesGroup s (rd s a) k ∧ ((me s).priv = Priv.user →
      ∃ m ∈ (gr s k).members, m.2 = s.cur) ∧ isGang (gr s k) = false ∧ (gr s k).members ≠ [] ∧ ∀ m ∈ (gr s k).members,
      ¬(th s m.2).state = SlotState.stopped) ∧
    (∃ (s : State) (a : BitVec 5) (k : Nat), NamesGroup s (rd s a) k ∧ ((me s).priv = Priv.user →
      ∃ m ∈ (gr s k).members, m.2 = s.cur) ∧ isGang (gr s k) = false ∧ (gr s k).members ≠ [] ∧ ∀ m ∈ (gr s k).members,
      (th s m.2).state = SlotState.stopped) ∧
    (∃ (s : State) (a : BitVec 5) (k : Nat), NamesGroup s (rd s a) k ∧ ((me s).priv = Priv.user →
      ∃ m ∈ (gr s k).members, m.2 = s.cur) ∧ isGang (gr s k) = false ∧ (gr s k).members ≠ [] ∧
      (∃ m ∈ (gr s k).members, (th s m.2).state = SlotState.stopped) ∧ ∃ m ∈ (gr s k).members,
      ¬(th s m.2).state = SlotState.stopped) ∧
    (∃ (s : State) (a : BitVec 5) (k : Nat), NamesGroup s (rd s a) k ∧ ((me s).priv = Priv.user →
      ∃ m ∈ (gr s k).members, m.2 = s.cur) ∧ isGang (gr s k) = false ∧ (gr s k).state ≠ GroupState.stopping) ∧
    (∃ (s : State) (a : BitVec 5) (k : Nat), NamesGroup s (rd s a) k ∧ ((me s).priv = Priv.user →
      ∃ m ∈ (gr s k).members, m.2 = s.cur) ∧ isGang (gr s k) = true ∧ (gr s k).state ≠ GroupState.stopping ∧
      NoHalos s) ∧
    (∃ (s : State) (a : BitVec 5) (k : Nat), NamesGroup s (rd s a) k ∧ ((me s).priv = Priv.user →
      ∃ m ∈ (gr s k).members, m.2 = s.cur) ∧ isGang (gr s k) = true ∧ (gr s k).state = GroupState.stopping) ∧
    (∃ (s : State), (me s).priv = Priv.user ∧ Quiet s) ∧
    (∃ (s : State) (a : BitVec 5) (k : Nat), (me s).priv ≠ Priv.user ∧ NamesGroup s (rd s a) k ∧
      (∃ m ∈ (gr s k).members, m.2 = s.cur) ∧ Quiet s ∧ Fresh s) ∧
    (∃ (s : State) (a : BitVec 5) (b : BitVec 5) (k : Nat), (me s).priv ≠ Priv.user ∧ NamesGroup s (rd s a) k ∧
      (∀ m ∈ (gr s k).members, m.2 ≠ s.cur) ∧ rd s b = 0 ∧ (gr s k).members ≠ [] ∧ ∀ m ∈ (gr s k).members,
      (th s m.2).state = SlotState.ready ∧ (th s m.2).stop = none) ∧
    (∃ (s : State) (a : BitVec 5) (k : Nat), (me s).priv ≠ Priv.user ∧ NamesGroup s (rd s a) k ∧
      (∀ m ∈ (gr s k).members, m.2 ≠ s.cur) ∧ ∀ m ∈ (gr s k).members, (th s m.2).state = SlotState.stopped ∧
      (th s m.2).stop = none ∧ (th s m.2).prior ≠ SlotState.parked ∧ m.2 % 16 ≠ 15) ∧
    (∃ (s : State) (a : BitVec 5) (k : Nat), (me s).priv ≠ Priv.user ∧ NamesGroup s (rd s a) k ∧
      (∀ m ∈ (gr s k).members, m.2 ≠ s.cur) ∧ Fresh s ∧ NoHalos s ∧ (∀ e ∈ s.cores, e.2.tq = [] ∧
      e.2.relPending = false) ∧ (gr s k).members = []) ∧
    (∃ (s : State) (a : BitVec 5) (k : Nat) (r : Nat) (m : Nat), (me s).priv ≠ Priv.user ∧ NamesGroup s (rd s a) k ∧
      (∀ m ∈ (gr s k).members, m.2 ≠ s.cur) ∧ Fresh s ∧ NoHalos s ∧ (∀ e ∈ s.cores, e.2.tq = [] ∧
      e.2.relPending = false) ∧ (gr s k).members = [(r, m)] ∧ memberOf s m = some (k, r) ∧ (th s m).stop = none ∧
      (th s m).ts = 0 ∧ m % 16 ≠ 15) ∧
    (∃ (s : State) (a : BitVec 5) (k : Nat), (me s).priv ≠ Priv.user ∧ NamesGroup s (rd s a) k ∧
      (∀ m ∈ (gr s k).members, m.2 ≠ s.cur) ∧ ∃ m ∈ (gr s k).members, (th s m.2).stop ≠ none) :=
  ⟨⟨wGrp wT .opened [] .ready, 6, 1, by simp only [NamesGroup]; decide⟩,
    ⟨wGrp wT .opened [(1, 16)] .ready, 6, 1, by simp only [NamesGroup]; decide⟩,
    ⟨wGrp wT .opened [(1, 16)] .stopped, 6, 1, by simp only [NamesGroup]; decide⟩,
    ⟨wGrp wT .opened [(1, 16), (2, 0)] .stopped, 6, 1, by simp only [NamesGroup]; decide⟩,
    ⟨wGrp wT .opened [] .ready, 6, 1, by simp only [NamesGroup]; decide⟩,
    ⟨wGrp wT .pinned [(1, 16)] .ready, 6, 1, by simp only [NoHalos, NamesGroup]; decide⟩,
    ⟨wGrp wT .stopping [(1, 16)] .ready, 6, 1, by simp only [NamesGroup]; decide⟩,
    ⟨wGrp wUser .opened [] .ready, by simp only [Quiet]; decide⟩,
    ⟨wGrp wT .pinned [(1, 0)] .ready, 6, 1, by simp only [Quiet, Fresh, NamesGroup]; decide⟩,
    ⟨wGrp wT .pinned [(1, 16)] .ready, 6, 0, 1, by simp only [NamesGroup]; decide⟩,
    ⟨wGrp wT .held [(1, 16)] .stopped, 6, 1, by simp only [NamesGroup]; decide⟩,
    ⟨wGrp wT .opened [] .ready, 6, 1, by simp only [NoHalos, Fresh, NamesGroup]; decide⟩,
    ⟨wGrp wT .pinned [(1, 16)] .stopped, 6, 1, 1, 16, by simp only [NoHalos, Fresh, NamesGroup]; decide⟩,
    ⟨{ wGrp wT .held [(1, 16)] .ready with threads := [(0, { wT with g := [(6, 0x100001)] }), (16, { wT with stop := some { ctr := none, addr := 0 } })] }, 6, 1, by simp only [NamesGroup]; decide⟩⟩

theorem witness_ThreadLife :
    (∃ (s : State) (a : BitVec 5) (off : Nat), (me s).state = SlotState.ready ∧ BitVec.toNat (rd s a) % 8 = 0 ∧
      InScratch s (rd s a) 32 off ∧ (me s).v.queue = [] ∧ NothingPosted s s.cur ∧ s.poison = [] ∧
      (field (mbytes s.spads (s.cur / 16 * 524288 + off) 32) 0 8 % 8 ≠ 0 ∨ 32 < field (mbytes s.spads (s.cur / 16 * 524288 + off) 32) 26 1 ∨ ∃ i < 5,
      List.getD (mbytes s.spads (s.cur / 16 * 524288 + off) 32) (27 + i) 0 ≠ 0)) ∧
    (∃ (s : State) (a : BitVec 5) (off : Nat), (me s).state = SlotState.ready ∧ BitVec.toNat (rd s a) % 8 = 0 ∧
      InScratch s (rd s a) 32 off ∧ (me s).v.queue = [] ∧ NothingPosted s s.cur ∧ s.poison = [] ∧
      field (mbytes s.spads (s.cur / 16 * 524288 + off) 32) 0 8 % 8 = 0 ∧
      field (mbytes s.spads (s.cur / 16 * 524288 + off) 32) 26 1 ≤ 32 ∧ (∀ i < 5,
      List.getD (mbytes s.spads (s.cur / 16 * 524288 + off) 32) (27 + i) 0 = 0) ∧
      field (mbytes s.spads (s.cur / 16 * 524288 + off) 32) 24 2 ≠ 65535 ∧
      (1024 ≤ field (mbytes s.spads (s.cur / 16 * 524288 + off) 32) 24 2 ∨ partOfCore s (field (mbytes s.spads (s.cur / 16 * 524288 + off) 32) 24 2) ≠ (cx s (me s).ctx).part)) ∧
    (∃ (s : State) (a : BitVec 5) (b : BitVec 5) (off : Nat), (me s).state = SlotState.ready ∧
      BitVec.toNat (rd s a) % 8 = 0 ∧ InScratch s (rd s a) 32 off ∧ (me s).v.queue = [] ∧ NothingPosted s s.cur ∧
      s.poison = [] ∧ field (mbytes s.spads (s.cur / 16 * 524288 + off) 32) 0 8 % 8 = 0 ∧
      field (mbytes s.spads (s.cur / 16 * 524288 + off) 32) 26 1 ≤ 32 ∧ (∀ i < 5,
      List.getD (mbytes s.spads (s.cur / 16 * 524288 + off) 32) (27 + i) 0 = 0) ∧
      field (mbytes s.spads (s.cur / 16 * 524288 + off) 32) 24 2 ≠ 65535 ∧
      field (mbytes s.spads (s.cur / 16 * 524288 + off) 32) 24 2 < 1024 ∧
      partOfCore s (field (mbytes s.spads (s.cur / 16 * 524288 + off) 32) 24 2) = (cx s (me s).ctx).part ∧
      rd s b = 0 ∧ openSlot s (field (mbytes s.spads (s.cur / 16 * 524288 + off) 32) 24 2) = none) ∧
    (∃ (s : State) (a : BitVec 5) (b : BitVec 5) (off : Nat), (me s).state = SlotState.ready ∧
      BitVec.toNat (rd s a) % 8 = 0 ∧ InScratch s (rd s a) 32 off ∧ (me s).v.queue = [] ∧ NothingPosted s s.cur ∧
      s.poison = [] ∧ field (mbytes s.spads (s.cur / 16 * 524288 + off) 32) 0 8 % 8 = 0 ∧
      field (mbytes s.spads (s.cur / 16 * 524288 + off) 32) 26 1 ≤ 32 ∧ (∀ i < 5,
      List.getD (mbytes s.spads (s.cur / 16 * 524288 + off) 32) (27 + i) 0 = 0) ∧
      field (mbytes s.spads (s.cur / 16 * 524288 + off) 32) 24 2 ≠ 65535 ∧
      field (mbytes s.spads (s.cur / 16 * 524288 + off) 32) 24 2 < 1024 ∧
      partOfCore s (field (mbytes s.spads (s.cur / 16 * 524288 + off) 32) 24 2) = (cx s (me s).ctx).part ∧
      rd s b = 0 ∧ Option.isSome (openSlot s (field (mbytes s.spads (s.cur / 16 * 524288 + off) 32) 24 2)) = true ∧
      freeRows s (field (mbytes s.spads (s.cur / 16 * 524288 + off) 32) 24 2) < field (mbytes s.spads (s.cur / 16 * 524288 + off) 32) 26 1) ∧
    (∃ (s : State) (a : BitVec 5) (b : BitVec 5) (off : Nat) (k : Nat) (r : Nat) (x : Nat),
      (me s).state = SlotState.ready ∧ BitVec.toNat (rd s a) % 8 = 0 ∧ InScratch s (rd s a) 32 off ∧
      (me s).v.queue = [] ∧ NothingPosted s s.cur ∧ s.poison = [] ∧
      field (mbytes s.spads (s.cur / 16 * 524288 + off) 32) 0 8 % 8 = 0 ∧
      field (mbytes s.spads (s.cur / 16 * 524288 + off) 32) 26 1 ≤ 32 ∧ (∀ i < 5,
      List.getD (mbytes s.spads (s.cur / 16 * 524288 + off) 32) (27 + i) 0 = 0) ∧
      field (mbytes s.spads (s.cur / 16 * 524288 + off) 32) 24 2 ≠ 65535 ∧
      field (mbytes s.spads (s.cur / 16 * 524288 + off) 32) 24 2 < 1024 ∧
      partOfCore s (field (mbytes s.spads (s.cur / 16 * 524288 + off) 32) 24 2) = (cx s (me s).ctx).part ∧
      (rd s b = 0 ∧ r = 0 ∧ groupKey s 0 = none ∨ rd s b ≠ 0 ∧ NamesGroup s (rd s b) k ∧ isGang (gr s k) = false ∧
      FreeRank (gr s k) r ∧ ∀ q < r, ¬FreeRank (gr s k) q) ∧
      openSlot s (field (mbytes s.spads (s.cur / 16 * 524288 + off) 32) 24 2) = some x ∧
      field (mbytes s.spads (s.cur / 16 * 524288 + off) 32) 26 1 ≤ freeRows s (field (mbytes s.spads (s.cur / 16 * 524288 + off) 32) 24 2) ∧
      (th s x).stores = [] ∧ (th s x).sent = [] ∧ (th s x).precs = []) ∧
    (∃ (s : State), Idle s s.cur ∧ (me s).ts = 0 ∧ s.cur % 16 ≠ 15 ∧ (me s).stop = none ∧ memberOf s s.cur = none) ∧
    (∃ (s : State), (me s).stores ≠ []) ∧
    (∃ (s : State) (x : Nat) (h : Hold), (th s x).hold = some h ∧ h.stage = endStage ∧ h.pc = (th s x).pc ∧
      AtBoundary s x ∧ (th s x).ts = 0 ∧ x % 16 ≠ 15 ∧ (th s x).stop = none ∧ memberOf s x = none ∧
      trapPending (th s x) = false) :=
  ⟨⟨wSpawn 0x2001 1 1 0, 8, 0x40, by simp only [NothingPosted, InScratch]; and_intros <;> first | decide | exact .inl (by decide)⟩,
    ⟨wSpawn 0x2000 1024 3 0, 8, 0x40, by simp only [NothingPosted, InScratch]; decide⟩,
    ⟨{ wSpawn 0x2000 1 3 0 with threads := (wSpawn 0x2000 1 3 0).threads ++ (List.range 16).map fun i => (i + 16, wT) }, 8, 11, 0x40, by simp only [NothingPosted, InScratch]; decide⟩,
    ⟨{ wSpawn 0x2000 1 32 0 with threads := (wSpawn 0x2000 1 32 0).threads ++ [(16, { wT with v := { rows := 1 } })] }, 8, 11, 0x40, by simp only [NothingPosted, InScratch]; decide⟩,
    ⟨wSpawn 0x2000 1 32 0x100001, 8, 11, 0x40, 1, 0, 16, by simp only [FreeRank, NothingPosted, NamesGroup, InScratch]; and_intros <;> first | decide | (refine .inr ⟨by decide, ⟨by decide, by decide⟩, by decide, by decide, fun q h => absurd h (Nat.not_lt_zero q)⟩)⟩,
    ⟨wEnd, by simp only [Idle]; decide⟩, ⟨wS { wT with stores := [wStore .global 0 0] }, by decide⟩,
    ⟨setMe wEnd { me wEnd with hold := some { pc := 0x1000, stage := endStage } }, 0, { pc := 0x1000, stage := endStage }, by simp only [AtBoundary, Idle]; decide⟩⟩

theorem witness_ThreadStops :
    (∃ (s : State) (p : BitVec 1) (d : BitVec 5) (a : BitVec 5) (i : Instr), (me s).priv = Priv.user ∧ Quiet s ∧
      i ∈ [Instr.thrStop p d a, Instr.thrGo p d a]) ∧
    (∃ (s : State) (a : BitVec 5), (me s).priv ≠ Priv.user ∧ BitVec.toNat (rd s a) < 2 ^ 14 ∧ Quiet s ∧
      BitVec.toNat (rd s a) = s.cur) ∧
    (∃ (s : State) (a : BitVec 5), (me s).priv ≠ Priv.user ∧ BitVec.toNat (rd s a) < 2 ^ 14 ∧ Quiet s ∧
      (me s).priv = Priv.sup ∧ BitVec.toNat (rd s a) ≠ s.cur ∧ (th s (BitVec.toNat (rd s a))).state ≠ SlotState.free ∧
      (th s (BitVec.toNat (rd s a))).ctx = (me s).ctx ∧ inGang s (BitVec.toNat (rd s a)) = true) ∧
    (∃ (s : State) (a : BitVec 5) (x : Nat), (me s).priv = Priv.sup ∧ BitVec.toNat (rd s a) = x ∧ x < 2 ^ 14 ∧
      x ≠ s.cur ∧ (th s x).state ≠ SlotState.free ∧ (th s x).ctx ≠ (me s).ctx) ∧
    (∃ (s : State) (a : BitVec 5) (x : Nat) (n : Nat), Targets s (rd s a) x ∧ BitVec.toNat (rd s a) = x ∧
      SlotCode (th s x).state n ∧ Fresh s ∧ ((th s x).state = SlotState.free ∨ (th s x).state = SlotState.stopped)) ∧
    (∃ (s : State) (a : BitVec 5) (x : Nat) (n : Nat), Targets s (rd s a) x ∧ BitVec.toNat (rd s a) = x ∧
      SlotCode (th s x).state n ∧ Fresh s ∧ NoHalos s ∧ (th s x).stop = none ∧ memberOf s x = none ∧ x % 16 ≠ 15 ∧
      ((th s x).state = SlotState.ready ∧
      Idle s x ∨ (th s x).state = SlotState.parked ∨ (th s x).state = SlotState.dropped)) ∧
    (∃ (s : State) (a : BitVec 5) (x : Nat) (n : Nat), Targets s (rd s a) x ∧ BitVec.toNat (rd s a) = x ∧
      SlotCode (th s x).state n ∧ Fresh s ∧ NoHalos s ∧ (th s x).stop = none ∧ memberOf s x = none ∧ x % 16 ≠ 15 ∧
      ((th s x).state = SlotState.ready ∧
      Idle s x ∨ (th s x).state = SlotState.parked ∨ (th s x).state = SlotState.dropped)) ∧
    (∃ (s : State) (a : BitVec 5) (x : Nat) (n : Nat), Targets s (rd s a) x ∧ BitVec.toNat (rd s a) = x ∧
      SlotCode (th s x).state n ∧ (th s x).state = SlotState.stopped ∧ (th s x).prior ≠ SlotState.parked ∧
      x % 16 ≠ 15) ∧
    (∃ (s : State) (a : BitVec 5) (x : Nat) (n : Nat), Targets s (rd s a) x ∧ BitVec.toNat (rd s a) = x ∧
      SlotCode (th s x).state n ∧ (th s x).state ≠ SlotState.stopped) ∧
    (∃ (s : State) (x : Nat), AtBoundary s x ∧ NoHalos s ∧ (th s x).stop = some { } ∧ memberOf s x = none ∧
      x % 16 ≠ 15) :=
  ⟨⟨wTarget wUser wT, 0, 5, 11, .thrGo 0 5 11, by simp only [Quiet]; decide⟩,
    ⟨wTarget wT wT, 0, by simp only [Quiet]; decide⟩,
    ⟨{ wTarget wSup wT with groups := [(1, { used := true, state := .pinned, members := [(1, 16)] })] }, 11, by simp only [Quiet]; decide⟩,
    ⟨wTarget wSup { wT with ctx := 1 }, 11, 16, by decide⟩,
    ⟨wTarget wT { wT with state := .stopped }, 11, 16, 4, by simp only [Targets, SlotCode, Fresh]; decide⟩,
    ⟨wTarget wT wT, 11, 16, 1, by simp only [Targets, NoHalos, SlotCode, Idle, Fresh]; decide⟩,
    ⟨wTarget wT { wT with state := .parked, wait := some (wWait 100 false true 0) }, 11, 16, 2, by simp only [Targets, NoHalos, SlotCode, Idle, Fresh]; decide⟩,
    ⟨wTarget wSup { wT with state := .stopped, prior := .dropped }, 11, 16, 4, by simp only [Targets, SlotCode]; decide⟩,
    ⟨wTarget wSup wT, 11, 16, 1, by simp only [Targets, SlotCode]; decide⟩,
    ⟨wTarget wSup { wT with stop := some {} }, 16, by simp only [AtBoundary, NoHalos, Idle]; decide⟩⟩

theorem witness_ThreadSaves :
    (∃ (s : State) (a : BitVec 5) (b : BitVec 5) (x : Nat), Targets s (rd s a) x ∧ BitVec.toNat (rd s a) = x ∧
      BitVec.toNat (rd s b) % 64 ≠ 0 ∧ Quiet s) ∧
    (∃ (s : State) (a : BitVec 5) (b : BitVec 5) (x : Nat), Targets s (rd s a) x ∧ BitVec.toNat (rd s a) = x ∧
      BitVec.toNat (rd s b) % 64 = 0 ∧ (th s x).state ≠ SlotState.stopped) ∧
    (∃ (s : State) (a : BitVec 5) (b : BitVec 5) (x : Nat), Targets s (rd s a) x ∧ BitVec.toNat (rd s a) = x ∧
      BitVec.toNat (rd s b) % 64 = 0 ∧ (th s x).state = SlotState.stopped ∧ (th s x).v.rows = 0 ∧
      (me s).v.queue = [] ∧ Fresh s ∧ (me s).stores = []) ∧
    (∃ (s : State) (a : BitVec 5) (b : BitVec 5) (x : Nat), Targets s (rd s a) x ∧ BitVec.toNat (rd s a) = x ∧
      BitVec.toNat (rd s b) % 64 = 0 ∧ (th s x).state = SlotState.stopped ∧ (th s x).v.rows = 0 ∧
      (me s).v.queue = [] ∧ (me s).stores = [] ∧ (me s).sent = [] ∧ (me s).precs = [] ∧ ∃ h, (me s).hold = some h ∧
      h.pc = (me s).pc ∧ h.stage = 1 ∧ h.n = 1024) ∧
    (∃ (s : State) (a : BitVec 5) (x : Nat) (c : Nat), Targets s (rd s a) x ∧ ((me s).priv = Priv.sup ∧
      BitVec.toNat (rd s a) = x ∧ c = (me s).ctx ∨ (me s).priv = Priv.hyp ∧ BitVec.toNat (rd s a) = c * 2 ^ 16 + x ∧
      c < 256 ∧ administers s (s.cur / 16) (cx s c).part = true ∧ (cx s c).state ≠ CState.empty ∧
      (cx s c).state ≠ CState.sealed ∧ (cx s c).state ≠ CState.destroyed) ∧ (th s x).state ≠ SlotState.free ∧
      (th s x).state ≠ SlotState.stopped) ∧
    (∃ (s : State) (a : BitVec 5) (b : BitVec 5) (x : Nat) (c : Nat) (off : Nat), Targets s (rd s a) x ∧
      ((me s).priv = Priv.sup ∧ BitVec.toNat (rd s a) = x ∧ c = (me s).ctx ∨ (me s).priv = Priv.hyp ∧
      BitVec.toNat (rd s a) = c * 2 ^ 16 + x ∧ c < 256 ∧ administers s (s.cur / 16) (cx s c).part = true ∧
      (cx s c).state ≠ CState.empty ∧ (cx s c).state ≠ CState.sealed ∧ (cx s c).state ≠ CState.destroyed) ∧
      (th s x).state = SlotState.free ∧ BitVec.toNat (rd s b) % 8 = 0 ∧ InScratch s (rd s b) 8192 off ∧
      (me s).v.queue = [] ∧ NothingPosted s s.cur ∧ s.poison = [] ∧
      (field (mbytes s.spads (s.cur / 16 * 524288 + off) 8192) 0 4 ≠ 1 ∨ field (mbytes s.spads (s.cur / 16 * 524288 + off) 8192) 4 4 % 8 = 0 ∨ 4 ≤ field (mbytes s.spads (s.cur / 16 * 524288 + off) 8192) 4 4 % 8 ∨ 2 ^ 11 ≤ field (mbytes s.spads (s.cur / 16 * 524288 + off) 8192) 4 4 ∨ 4 ≤ field (mbytes s.spads (s.cur / 16 * 524288 + off) 8192) 16 8) ∧
      (Nat.testBit (field (mbytes s.spads (s.cur / 16 * 524288 + off) 8192) 4 4) 8 = false ∨ field (mbytes s.spads (s.cur / 16 * 524288 + off) 8192) 800 8 = 0)) ∧
    (∃ (s : State) (a : BitVec 5) (b : BitVec 5) (x : Nat) (c : Nat) (off : Nat), Targets s (rd s a) x ∧
      ((me s).priv = Priv.sup ∧ BitVec.toNat (rd s a) = x ∧ c = (me s).ctx ∨ (me s).priv = Priv.hyp ∧
      BitVec.toNat (rd s a) = c * 2 ^ 16 + x ∧ c < 256 ∧ administers s (s.cur / 16) (cx s c).part = true ∧
      (cx s c).state ≠ CState.empty ∧ (cx s c).state ≠ CState.sealed ∧ (cx s c).state ≠ CState.destroyed) ∧
      (th s x).state = SlotState.free ∧ BitVec.toNat (rd s b) % 8 = 0 ∧ InScratch s (rd s b) 8192 off ∧
      (me s).v.queue = [] ∧ NothingPosted s s.cur ∧ s.poison = [] ∧
      areaOk s x (mbytes s.spads (s.cur / 16 * 524288 + off) 8192) = true ∧
      Nat.testBit (field (mbytes s.spads (s.cur / 16 * 524288 + off) 8192) 4 4) 8 = false ∧ x % 16 ≠ 15 ∧
      (th s x).stores = [] ∧ (th s x).sent = [] ∧ (th s x).precs = []) :=
  ⟨⟨wSaves wT { wT with state := .stopped } 16 [], 11, 11, 16, by simp only [Targets, Quiet]; decide⟩,
    ⟨wSaves wT wT 16 [], 11, 9, 16, by simp only [Targets]; decide⟩,
    ⟨wSaves wT { wT with state := .stopped } 16 [], 11, 9, 16, by simp only [Targets, Fresh]; decide⟩,
    ⟨wSaves { wT with hold := some { pc := 0x1000, stage := 1, n := 1024 } } { wT with state := .stopped } 16 [], 11, 9, 16, by simp only [Targets]; and_intros <;> first | decide | exact ⟨_, rfl, by decide⟩⟩,
    ⟨wSaves wT wT 16 [], 11, 16, 0, by simp only [Targets]; decide⟩,
    ⟨wSaves wT { wT with state := .free } 16 (wArea 4 3 0x2000), 11, 10, 16, 0, 0x1000, by simp only [Targets, NothingPosted, InScratch]; and_intros <;> first | decide | exact .inl (by decide)⟩,
    ⟨wSaves wSup { wSup with state := .free } 16 (wArea 1 2 0x2000), 11, 10, 16, 0, 0x1000, by simp only [Targets, NothingPosted, InScratch]; decide +kernel⟩⟩

theorem witness_AsynchronousTraps :
    (∃ (s : State) (tid : Nat) (code : Nat), Qualifies s tid code ∧ (∀ j < code, ¬Qualifies s tid j) ∧
      AtBoundary s tid ∧ (th s tid).asyncDue = none) ∧
    (∃ (s : State) (tid : Nat) (code : Nat), Qualifies s tid code ∧ (∀ j < code, ¬Qualifies s tid j) ∧
      AtBoundary s tid ∧ (th s tid).asyncDue = none) ∧
    (∃ (s : State) (tid : Nat) (c : Nat), (th s tid).asyncDue = some c ∧ (c = 15 ∨ c = 16) ∧ AtBoundary s tid) ∧
    (∃ (s : State) (tid : Nat) (n : Nat), (th s tid).sfSeq = some n ∧ (th s tid).sfHyp = none ∧
      (th s tid).sfRing = none ∧ AtBoundary s tid ∧ (th s tid).hold = none) ∧
    (∃ (s : State) (tid : Nat) (r : PendRec) (rest : List PendRec) (hb : Nat), (th s tid).precs = r :: rest ∧
      (th s tid).sfSeq = none ∧ r.code ≠ 20 ∧ r.code < 256 ∧ s.pkg < 256 ∧ Memory.wf s.mem = true ∧ s.waiters = [] ∧
      s.arms = [] ∧ BitVec.toNat (cx s (th s tid).ctx).hgxlat / 2 ^ 60 = 0 ∧ (cx s (th s tid).ctx).hostpt = false ∧
      BitVec.toNat (cx s (th s tid).ctx).sfqb = s.pkg * 2 ^ 40 + hb ∧ BitVec.toNat (cx s (th s tid).ctx).sfqb ≠ 0 ∧
      RingRoom s hb (cx s (th s tid).ctx).sfqn ∧ (∀ p ∈ s.posts, p.kind = PostKind.add → p.loc ≠ Loc.mem hb) ∧
      ∀ (k : Nat), hb ≤ k → k < hb + 64 + (cx s (th s tid).ctx).sfqn * 64 →
      (granule s (k / 2 ^ 30)).part = (cx s (th s tid).ctx).part) :=
  ⟨⟨wAsync { wUser with sr := { pend := 5, en := 6, cmp := 50 } }, 16, 1, by simp only [AtBoundary, Qualifies, Idle]; decide⟩,
    ⟨wAsync { wT with sr := { pend := 16, en := 16 }, hr := { status := 1 } }, 16, 4, by simp only [AtBoundary, Qualifies, Idle]; decide⟩,
    ⟨wAsync { wUser with asyncDue := some 16 }, 16, 16, by simp only [AtBoundary, Idle]; decide⟩,
    ⟨wAsync { wUser with sfSeq := some 5 }, 16, 5, by simp only [AtBoundary, Idle]; decide⟩,
    ⟨wAsync { wUser with precs := [wPend] }, 16, wPend, [], 0x4000, by simp only [RingRoom]; and_intros <;> first | decide | (intro k h1 h2; have h3 : k < 0x4000 + 64 + 16 * 64 := h2; have : k / 2 ^ 30 = 0 := (by omega); rw [this]; decide)⟩⟩

theorem witness_CopyWords :
    (∃ (s : State) (p : BitVec 1) (d : BitVec 5) (a : BitVec 5) (b : BitVec 5) (f : Instr × XKind × Nat),
      f ∈ [(Instr.xferCopy p d a b, XKind.copy, 32), (Instr.xferTensor p d a b, XKind.tensor, 64),
      (Instr.xferMcast p d a b, XKind.mcast, 32), (Instr.xferFill p d a b, XKind.fill, 32), (Instr.xferSend p d a b,
      XKind.send, 32)] ∧ Quiet s ∧ (s.cur % 16 ≠ 15 ∨ (co s (s.cur / 16)).ch.en = false)) ∧
    (∃ (s : State) (p : BitVec 1) (d : BitVec 5) (a : BitVec 5) (b : BitVec 5) (f : Instr × XKind × Nat) (n : Nat),
      f ∈ [(Instr.xferCopy p d a b, XKind.copy, 32), (Instr.xferTensor p d a b, XKind.tensor, 64),
      (Instr.xferMcast p d a b, XKind.mcast, 32), (Instr.xferFill p d a b, XKind.fill, 32), (Instr.xferSend p d a b,
      XKind.send, 32)] ∧ MovementThread s n ∧ BitVec.toNat (rd s a) % 8 ≠ 0 ∧ Quiet s) ∧
    (∃ (s : State) (p : BitVec 1) (d : BitVec 5) (a : BitVec 5) (b : BitVec 5) (off : Nat) (f : Instr × XKind × Nat) (n : Nat),
      f ∈ [(Instr.xferCopy p d a b, XKind.copy, 32), (Instr.xferTensor p d a b, XKind.tensor, 64),
      (Instr.xferMcast p d a b, XKind.mcast, 32), (Instr.xferFill p d a b, XKind.fill, 32), (Instr.xferSend p d a b,
      XKind.send, 32)] ∧ MovementThread s n ∧ BitVec.toNat (rd s a) % 8 = 0 ∧ InScratch s (rd s a) f.2.2 off ∧
      NoVectorStore s ∧ NothingPosted s s.cur ∧ s.poison = [] ∧ (rd s b = 0 ∨ ∃ l, NamesCounter s (rd s b) l) ∧
      n ≠ 1) ∧
    (∃ (s : State) (p : BitVec 1) (d : BitVec 5) (a : BitVec 5) (b : BitVec 5) (off : Nat) (f : Instr × XKind × Nat) (n : Nat),
      f ∈ [(Instr.xferCopy p d a b, XKind.copy, 32), (Instr.xferTensor p d a b, XKind.tensor, 64),
      (Instr.xferMcast p d a b, XKind.mcast, 32), (Instr.xferFill p d a b, XKind.fill, 32), (Instr.xferSend p d a b,
      XKind.send, 32)] ∧ MovementThread s n ∧ BitVec.toNat (rd s a) % 8 = 0 ∧ InScratch s (rd s a) f.2.2 off ∧
      NoVectorStore s ∧ NothingPosted s s.cur ∧ s.poison = [] ∧ (rd s b = 0 ∨ ∃ l, NamesCounter s (rd s b) l) ∧
      n = 1 ∧ descOk f.2.1 (mbytes s.spads (s.cur / 16 * 524288 + off) f.2.2) = false) ∧
    (∃ (s : State) (p : BitVec 1) (d : BitVec 5) (a : BitVec 5) (b : BitVec 5) (off : Nat) (f : Instr × XKind × Nat) (n : Nat),
      f ∈ [(Instr.xferCopy p d a b, XKind.copy, 32), (Instr.xferTensor p d a b, XKind.tensor, 64),
      (Instr.xferMcast p d a b, XKind.mcast, 32), (Instr.xferFill p d a b, XKind.fill, 32), (Instr.xferSend p d a b,
      XKind.send, 32)] ∧ MovementThread s n ∧ BitVec.toNat (rd s a) % 8 = 0 ∧ InScratch s (rd s a) f.2.2 off ∧
      NoVectorStore s ∧ NothingPosted s s.cur ∧ s.poison = [] ∧ (rd s b = 0 ∨ ∃ l, NamesCounter s (rd s b) l) ∧
      n = 1 ∧ descOk f.2.1 (mbytes s.spads (s.cur / 16 * 524288 + off) f.2.2) = true ∧ f.2.1 = XKind.mcast ∧ ∃ k,
      (k < 32 ∧ Nat.testBit (field (mbytes s.spads (s.cur / 16 * 524288 + off) f.2.2) 20 4) k = true) ∧
      partOfCore s (field (mbytes s.spads (s.cur / 16 * 524288 + off) f.2.2) 16 2 + k) ≠ (cx s (me s).ctx).part) ∧
    (∃ (s : State) (p : BitVec 1) (d : BitVec 5) (a : BitVec 5) (b : BitVec 5) (off : Nat) (f : Instr × XKind × Nat) (n : Nat),
      f ∈ [(Instr.xferCopy p d a b, XKind.copy, 32), (Instr.xferTensor p d a b, XKind.tensor, 64),
      (Instr.xferMcast p d a b, XKind.mcast, 32), (Instr.xferFill p d a b, XKind.fill, 32), (Instr.xferSend p d a b,
      XKind.send, 32)] ∧ MovementThread s n ∧ BitVec.toNat (rd s a) % 8 = 0 ∧ InScratch s (rd s a) f.2.2 off ∧
      NoVectorStore s ∧ NothingPosted s s.cur ∧ s.poison = [] ∧ (rd s b = 0 ∨ ∃ l, NamesCounter s (rd s b) l) ∧
      n = 1 ∧ descOk f.2.1 (mbytes s.spads (s.cur / 16 * 524288 + off) f.2.2) = true ∧ (f.2.1 = XKind.mcast →
      ∀ (k : Nat), k < 32 ∧ Nat.testBit (field (mbytes s.spads (s.cur / 16 * 524288 + off) f.2.2) 20 4) k = true →
      partOfCore s (field (mbytes s.spads (s.cur / 16 * 524288 + off) f.2.2) 16 2 + k) = (cx s (me s).ctx).part)) :=
  ⟨⟨wS wT, 0, 5, 8, 10, (.xferCopy 0 5 8 10, XKind.copy, 32), by simp only [Quiet]; and_intros <;> first | exact List.mem_cons_self | exact .inl (by decide) | decide⟩,
    ⟨wMove 1 0 [], 0, 5, 7, 10, (.xferSend 0 5 7 10, XKind.send, 32), 1, by simp only [MovementThread, Quiet]; and_intros <;> first | exact .tail _ (.tail _ (.tail _ (.tail _ (.head _)))) | decide⟩,
    ⟨wMove 0 0 [], 0, 5, 8, 10, 0x40, (.xferFill 0 5 8 10, XKind.fill, 32), 0, by simp only [NoVectorStore, MovementThread, NearAddr, NamesCounter, Physical, NothingPosted, InScratch]; and_intros <;> first | exact .tail _ (.tail _ (.tail _ (.head _))) | exact .inl (by decide) | decide⟩,
    ⟨wMove 1 0 (wCopyDesc 0x11 0x2000 512 0x24), 0, 5, 8, 10, 0x40, (.xferCopy 0 5 8 10, XKind.copy, 32), 1, by simp only [NoVectorStore, MovementThread, NearAddr, NamesCounter, Physical, NothingPosted, InScratch]; and_intros <;> first | exact List.mem_cons_self | exact .inl (by decide) | decide⟩,
    ⟨{ wMove 1 0 (wMcastDesc 0x1000 0x2000 512 0 0 0x80000000) with parts := { bench := [(7, 1)] } }, 0, 5, 8, 10, 0x40, (.xferMcast 0 5 8 10, XKind.mcast, 32), 1, by simp only [NoVectorStore, MovementThread, NearAddr, NamesCounter, Physical, NothingPosted, InScratch]; and_intros <;> first | exact .tail _ (.tail _ (.head _)) | exact .inl (by decide) | exact ⟨31, by decide⟩ | decide⟩,
    ⟨wMove 1 0x200008 (wCopyDesc 0x1000 0x2000 512 0x25), 0, 5, 8, 10, 0x40, (.xferCopy 0 5 8 10, XKind.copy, 32), 1, by simp only [NoVectorStore, MovementThread, NearAddr, NamesCounter, Physical, NothingPosted, InScratch]; and_intros <;> first | exact List.mem_cons_self | exact .inr ⟨.near 0 1, by decide, rfl, .inl ⟨0, 1, by decide⟩⟩ | exact fun h => absurd h (by decide) | decide⟩⟩

theorem witness_CopyChunks :
    (∃ (s : State) (core : Nat) (k : Nat) (r : XReq), ChannelRuns s core r ∧ r.priv = Priv.hyp ∧ s.pkg < 256 ∧
      CalmCounters s ∧ NoCopies s ∧ Memory.wf s.mem = true ∧ Memory.wf s.spads = true ∧
      (granule s (k / 2 ^ 30)).part = (cx s r.ctx).part ∧ field r.desc 0 8 = s.pkg * 2 ^ 40 + k ∧
      r.kind = XKind.mcast ∧ k % 128 = 0 ∧ k + field r.desc 12 4 + 128 ≤ 2 ^ 40 ∧
      k / 2 ^ 30 = (k + field r.desc 12 4) / 2 ^ 30 ∧ r.joined = false ∧ s.streams = []) ∧
    (∃ (s : State) (core : Nat) (k : Nat) (r : XReq) (i : Nat) (c : Nat) (done : Nat) (lo : Nat) (n : Nat),
      ChannelRuns s core r ∧ r.priv = Priv.hyp ∧ s.pkg < 256 ∧ CalmCounters s ∧ NoCopies s ∧ Memory.wf s.mem = true ∧
      Memory.wf s.spads = true ∧ (granule s (k / 2 ^ 30)).part = (cx s r.ctx).part ∧
      field r.desc 0 8 = s.pkg * 2 ^ 40 + k ∧ r.kind = XKind.mcast ∧ k % 128 = 0 ∧
      k + field r.desc 12 4 + 128 ≤ 2 ^ 40 ∧ k / 2 ^ 30 = (k + field r.desc 12 4) / 2 ^ 30 ∧ r.joined = true ∧
      r.bad = none ∧ s.streams = [] ∧ r.lines = [] ∧ (th s r.tid).stop = none ∧ r.rcv[i]? = some (c, done) ∧
      (∃ x ∈ r.rcv, x.2 ≤ r.chunk) ∧ partOfCore s c = (cx s r.ctx).part ∧
      ChunkOf (field r.desc 8 4) (field r.desc 12 4) done lo n ∧ field r.desc 8 4 + field r.desc 12 4 ≤ 524288 ∧
      field r.desc 8 4 + field r.desc 12 4 ≤ (co s c).sp * 65536) ∧
    (∃ (s : State) (core : Nat) (k : Nat) (r : XReq) (data : List Byte), ChannelRuns s core r ∧
      r.kind = XKind.reduce ∧ r.priv = Priv.hyp ∧ s.pkg < 256 ∧ Still s ∧
      (granule s (k / 2 ^ 30)).part = (cx s r.ctx).part ∧ field r.desc 0 8 = s.pkg * 2 ^ 40 + k ∧
      k % 2 ^ (field r.desc 20 1 / 16 % 4) = 0 ∧ List.length data = field r.desc 16 4 ∧
      List.length data % 2 ^ (field r.desc 20 1 / 16 % 4) = 0 ∧ k + List.length data ≤ 2 ^ 40 ∧
      k / 2 ^ 30 = (k + List.length data) / 2 ^ 30 ∧ r.joined = true ∧ r.gb = 0) ∧
    (∃ (s : State) (core : Nat) (k : Nat) (r : XReq) (data : List Byte), ChannelRuns s core r ∧
      r.kind = XKind.reduce ∧ r.priv = Priv.hyp ∧ s.pkg < 256 ∧ Still s ∧
      (granule s (k / 2 ^ 30)).part = (cx s r.ctx).part ∧ field r.desc 0 8 = s.pkg * 2 ^ 40 + k ∧
      k % 2 ^ (field r.desc 20 1 / 16 % 4) = 0 ∧ List.length data = field r.desc 16 4 ∧
      List.length data % 2 ^ (field r.desc 20 1 / 16 % 4) = 0 ∧ k + List.length data ≤ 2 ^ 40 ∧
      k / 2 ^ 30 = (k + List.length data) / 2 ^ 30 ∧ BitVec.getLsbD (th s r.tid).u.afcode 63 = false ∧
      (th s r.tid).state = SlotState.ready ∧ BitVec.toNat (th s r.tid).u.afop + 64 ≤ (co s (r.tid / 16)).sp * 65536 ∧
      r.word < 2 ^ 32) ∧
    (∃ (s : State) (core : Nat) (k : Nat) (r : XReq) (x : Machine.Stream), ChannelRuns s core r ∧ r.priv = Priv.hyp ∧
      s.pkg < 256 ∧ CalmCounters s ∧ NoCopies s ∧ Memory.wf s.mem = true ∧ Memory.wf s.spads = true ∧
      (granule s (k / 2 ^ 30)).part = (cx s r.ctx).part ∧ field r.desc 0 8 = s.pkg * 2 ^ 40 + k ∧
      r.kind = XKind.mcast ∧ k % 128 = 0 ∧ k + field r.desc 12 4 + 128 ≤ 2 ^ 40 ∧
      k / 2 ^ 30 = (k + field r.desc 12 4) / 2 ^ 30 ∧ r.joined = false ∧ s.streams = [x] ∧
      x.src = List.map (fun i => (k / 4096 + i) * 4096) (List.range ((k % 4096 + field r.desc 12 4 + 4095) / 4096)) ∧
      x.off = k % 4096 ∧ x.len = field r.desc 12 4) ∧
    (∃ (s : State) (core : Nat) (k : Nat) (r : XReq) (lo : Nat) (n : Nat), ChannelRuns s core r ∧ r.priv = Priv.hyp ∧
      s.pkg < 256 ∧ CalmCounters s ∧ NoCopies s ∧ Memory.wf s.mem = true ∧ Memory.wf s.spads = true ∧
      (granule s (k / 2 ^ 30)).part = (cx s r.ctx).part ∧ field r.desc 0 8 = s.pkg * 2 ^ 40 + k ∧
      r.kind = XKind.mcast ∧ k % 128 = 0 ∧ k + field r.desc 12 4 + 128 ≤ 2 ^ 40 ∧
      k / 2 ^ 30 = (k + field r.desc 12 4) / 2 ^ 30 ∧ r.bad = none ∧ r.gb = 0 ∧ (∀ x ∈ r.rcv, r.chunk < x.2) ∧
      ChunkOf (field r.desc 8 4) (field r.desc 12 4) r.chunk lo n) ∧
    (∃ (s : State) (core : Nat) (r : XReq) (lo : Nat) (n : Nat) (S : Loc) (D : Loc), ChannelRuns s core r ∧
      r.tid / 16 = core ∧ (th s r.tid).ctx = r.ctx ∧ Still s ∧
      (r.kind = XKind.copy ∨ r.kind = XKind.fill ∨ r.kind = XKind.send) ∧ copyOk r.kind r.desc = true ∧ (∀ (c : Nat),
      (co s c).sp ≤ 8) ∧ (r.kind ≠ XKind.fill →
      PlaceOf s r.tid r.priv (field r.desc 20 1 % 4) (BitVec.ofNat 64 (field r.desc 0 8)) (field r.desc 16 4) S) ∧
      PlaceOf s r.tid r.priv (field r.desc 20 1 / 4 % 4) (BitVec.ofNat 64 (field r.desc 8 8)) (field r.desc 16 4) D ∧
      ChunkOf (field r.desc 8 8) (field r.desc 16 4) r.chunk lo n ∧ (r.gb = 0 ∨ ∃ c e, NearAddr s core r.gb c e ∧
      partOfCore s c = (cx s r.ctx).part)) ∧
    (∃ (s : State) (core : Nat) (r : XReq) (lo : Nat) (n : Nat) (S : Loc) (D : Loc), ChannelRuns s core r ∧
      r.tid / 16 = core ∧ (th s r.tid).ctx = r.ctx ∧ Still s ∧
      (r.kind = XKind.copy ∨ r.kind = XKind.fill ∨ r.kind = XKind.send) ∧ copyOk r.kind r.desc = true ∧ (∀ (c : Nat),
      (co s c).sp ≤ 8) ∧ (r.kind ≠ XKind.fill →
      PlaceOf s r.tid r.priv (field r.desc 20 1 % 4) (BitVec.ofNat 64 (field r.desc 0 8)) (field r.desc 16 4) S) ∧
      PlaceOf s r.tid r.priv (field r.desc 20 1 / 4 % 4) (BitVec.ofNat 64 (field r.desc 8 8)) (field r.desc 16 4) D ∧
      ChunkOf (field r.desc 8 8) (field r.desc 16 4) r.chunk lo n ∧ (r.gb = 0 ∨ ∃ c e, NearAddr s core r.gb c e ∧
      partOfCore s c = (cx s r.ctx).part)) ∧
    (∃ (s : State) (core : Nat) (r : XReq) (lo : Nat) (n : Nat) (S : Loc) (D : Loc), ChannelRuns s core r ∧
      r.tid / 16 = core ∧ (th s r.tid).ctx = r.ctx ∧ Still s ∧
      (r.kind = XKind.copy ∨ r.kind = XKind.fill ∨ r.kind = XKind.send) ∧ copyOk r.kind r.desc = true ∧ (∀ (c : Nat),
      (co s c).sp ≤ 8) ∧ (r.kind ≠ XKind.fill →
      PlaceOf s r.tid r.priv (field r.desc 20 1 % 4) (BitVec.ofNat 64 (field r.desc 0 8)) (field r.desc 16 4) S) ∧
      PlaceOf s r.tid r.priv (field r.desc 20 1 / 4 % 4) (BitVec.ofNat 64 (field r.desc 8 8)) (field r.desc 16 4) D ∧
      ChunkOf (field r.desc 8 8) (field r.desc 16 4) r.chunk lo n ∧ (r.gb = 0 ∨ ∃ c e, NearAddr s core r.gb c e ∧
      partOfCore s c = (cx s r.ctx).part)) ∧
    (∃ (s : State) (core : Nat) (r : XReq) (lo : Nat) (n : Nat) (S : Loc) (D : Loc), ChannelRuns s core r ∧
      r.tid / 16 = core ∧ (th s r.tid).ctx = r.ctx ∧ Still s ∧
      (r.kind = XKind.copy ∨ r.kind = XKind.fill ∨ r.kind = XKind.send) ∧ copyOk r.kind r.desc = true ∧ (∀ (c : Nat),
      (co s c).sp ≤ 8) ∧ (r.kind ≠ XKind.fill →
      PlaceOf s r.tid r.priv (field r.desc 20 1 % 4) (BitVec.ofNat 64 (field r.desc 0 8)) (field r.desc 16 4) S) ∧
      PlaceOf s r.tid r.priv (field r.desc 20 1 / 4 % 4) (BitVec.ofNat 64 (field r.desc 8 8)) (field r.desc 16 4) D ∧
      ChunkOf (field r.desc 8 8) (field r.desc 16 4) r.chunk lo n ∧ (r.gb = 0 ∨ ∃ c e, NearAddr s core r.gb c e ∧
      partOfCore s c = (cx s r.ctx).part)) ∧
    (∃ (s : State) (core : Nat) (r : XReq) (lo : Nat) (n : Nat) (D : Loc), ChannelRuns s core r ∧ r.tid / 16 = core ∧
      (th s r.tid).ctx = r.ctx ∧ Still s ∧ r.kind = XKind.tensor ∧ tensorOk r.desc = true ∧ (∀ (c : Nat),
      (co s c).sp ≤ 8) ∧
      ChunkOf (field r.desc 8 8) ((((((if 0 < field r.desc 62 1 / 16 % 8 then field r.desc (32 + 2 * 0) 2 else 1) * if 1 < field r.desc 62 1 / 16 % 8 then field r.desc (32 + 2 * 1) 2 else 1) * if 2 < field r.desc 62 1 / 16 % 8 then field r.desc (32 + 2 * 2) 2 else 1) * if 3 < field r.desc 62 1 / 16 % 8 then field r.desc (32 + 2 * 3) 2 else 1) * if 4 < field r.desc 62 1 / 16 % 8 then field r.desc (32 + 2 * 4) 2 else 1) * (typeWidth (field r.desc 62 1 % 16) / 8)) r.chunk lo n ∧
      (∀ (j : Nat), (lo - field r.desc 8 8) / (typeWidth (field r.desc 62 1 % 16) / 8) ≤ j →
      j < (lo - field r.desc 8 8) / (typeWidth (field r.desc 62 1 % 16) / 8) + n / (typeWidth (field r.desc 62 1 % 16) / 8) →
      (∀ k < field r.desc 62 1 / 16 % 8,
      0 ≤ BitVec.toInt (BitVec.ofNat 16 (field r.desc (42 + 2 * k) 2)) + ↑(j / List.prod (List.map (fun k => if k < field r.desc 62 1 / 16 % 8 then field r.desc (32 + 2 * k) 2 else 1) (List.range k)) % if k < field r.desc 62 1 / 16 % 8 then field r.desc (32 + 2 * k) 2 else 1) ∧
      BitVec.toInt (BitVec.ofNat 16 (field r.desc (42 + 2 * k) 2)) + ↑(j / List.prod (List.map (fun k => if k < field r.desc 62 1 / 16 % 8 then field r.desc (32 + 2 * k) 2 else 1) (List.range k)) % if k < field r.desc 62 1 / 16 % 8 then field r.desc (32 + 2 * k) 2 else 1) < ↑(field r.desc (52 + 2 * k) 2)) →
      PlaceOf s r.tid r.priv (field r.desc 63 1 % 4) (BitVec.ofNat 64 (field r.desc 0 8) + BitVec.ofInt 64 ((BitVec.toInt (BitVec.ofNat 16 (field r.desc (42 + 2 * 0) 2)) + ↑(j / List.prod (List.map (fun k => if k < field r.desc 62 1 / 16 % 8 then field r.desc (32 + 2 * k) 2 else 1) (List.range 0)) % if 0 < field r.desc 62 1 / 16 % 8 then field r.desc (32 + 2 * 0) 2 else 1)) * ↑(typeWidth (field r.desc 62 1 % 16) / 8) + List.sum (List.map (fun k => (BitVec.toInt (BitVec.ofNat 16 (field r.desc (42 + 2 * (k + 1)) 2)) + ↑(j / List.prod (List.map (fun k => if k < field r.desc 62 1 / 16 % 8 then field r.desc (32 + 2 * k) 2 else 1) (List.range (k + 1))) % if k + 1 < field r.desc 62 1 / 16 % 8 then field r.desc (32 + 2 * (k + 1)) 2 else 1)) * BitVec.toInt (BitVec.ofNat 32 (field r.desc (16 + 4 * k) 4))) (List.range (field r.desc 62 1 / 16 % 8 - 1))))) (typeWidth (field r.desc 62 1 % 16) / 8) (if field r.desc 63 1 % 4 = 1 then Loc.spad core (BitVec.toNat (BitVec.ofNat 64 (field r.desc 0 8) + BitVec.ofInt 64 ((BitVec.toInt (BitVec.ofNat 16 (field r.desc (42 + 2 * 0) 2)) + ↑(j / List.prod (List.map (fun k => if k < field r.desc 62 1 / 16 % 8 then field r.desc (32 + 2 * k) 2 else 1) (List.range 0)) % if 0 < field r.desc 62 1 / 16 % 8 then field r.desc (32 + 2 * 0) 2 else 1)) * ↑(typeWidth (field r.desc 62 1 % 16) / 8) + List.sum (List.map (fun k => (BitVec.toInt (BitVec.ofNat 16 (field r.desc (42 + 2 * (k + 1)) 2)) + ↑(j / List.prod (List.map (fun k => if k < field r.desc 62 1 / 16 % 8 then field r.desc (32 + 2 * k) 2 else 1) (List.range (k + 1))) % if k + 1 < field r.desc 62 1 / 16 % 8 then field r.desc (32 + 2 * (k + 1)) 2 else 1)) * BitVec.toInt (BitVec.ofNat 32 (field r.desc (16 + 4 * k) 4))) (List.range (field r.desc 62 1 / 16 % 8 - 1)))))) else Loc.mem (BitVec.toNat (BitVec.ofNat 64 (field r.desc 0 8) + BitVec.ofInt 64 ((BitVec.toInt (BitVec.ofNat 16 (field r.desc (42 + 2 * 0) 2)) + ↑(j / List.prod (List.map (fun k => if k < field r.desc 62 1 / 16 % 8 then field r.desc (32 + 2 * k) 2 else 1) (List.range 0)) % if 0 < field r.desc 62 1 / 16 % 8 then field r.desc (32 + 2 * 0) 2 else 1)) * ↑(typeWidth (field r.desc 62 1 % 16) / 8) + List.sum (List.map (fun k => (BitVec.toInt (BitVec.ofNat 16 (field r.desc (42 + 2 * (k + 1)) 2)) + ↑(j / List.prod (List.map (fun k => if k < field r.desc 62 1 / 16 % 8 then field r.desc (32 + 2 * k) 2 else 1) (List.range (k + 1))) % if k + 1 < field r.desc 62 1 / 16 % 8 then field r.desc (32 + 2 * (k + 1)) 2 else 1)) * BitVec.toInt (BitVec.ofNat 32 (field r.desc (16 + 4 * k) 4))) (List.range (field r.desc 62 1 / 16 % 8 - 1))))) - s.pkg * 2 ^ 40))) ∧
      PlaceOf s r.tid r.priv (field r.desc 63 1 / 4 % 4) (BitVec.ofNat 64 (field r.desc 8 8)) (if field r.desc 63 1 / 16 % 2 = 1 then (field r.desc 8 8 + (((((if 0 < field r.desc 62 1 / 16 % 8 then field r.desc (32 + 2 * 0) 2 else 1) * if 1 < field r.desc 62 1 / 16 % 8 then field r.desc (32 + 2 * 1) 2 else 1) * if 2 < field r.desc 62 1 / 16 % 8 then field r.desc (32 + 2 * 2) 2 else 1) * if 3 < field r.desc 62 1 / 16 % 8 then field r.desc (32 + 2 * 3) 2 else 1) * if 4 < field r.desc 62 1 / 16 % 8 then field r.desc (32 + 2 * 4) 2 else 1) * (typeWidth (field r.desc 62 1 % 16) / 8) + 7) / 8 * 8 - field r.desc 8 8 + ((((((if 0 < field r.desc 62 1 / 16 % 8 then field r.desc (32 + 2 * 0) 2 else 1) * if 1 < field r.desc 62 1 / 16 % 8 then field r.desc (32 + 2 * 1) 2 else 1) * if 2 < field r.desc 62 1 / 16 % 8 then field r.desc (32 + 2 * 2) 2 else 1) * if 3 < field r.desc 62 1 / 16 % 8 then field r.desc (32 + 2 * 3) 2 else 1) * if 4 < field r.desc 62 1 / 16 % 8 then field r.desc (32 + 2 * 4) 2 else 1) + 7) / 8 else (((((if 0 < field r.desc 62 1 / 16 % 8 then field r.desc (32 + 2 * 0) 2 else 1) * if 1 < field r.desc 62 1 / 16 % 8 then field r.desc (32 + 2 * 1) 2 else 1) * if 2 < field r.desc 62 1 / 16 % 8 then field r.desc (32 + 2 * 2) 2 else 1) * if 3 < field r.desc 62 1 / 16 % 8 then field r.desc (32 + 2 * 3) 2 else 1) * if 4 < field r.desc 62 1 / 16 % 8 then field r.desc (32 + 2 * 4) 2 else 1) * (typeWidth (field r.desc 62 1 % 16) / 8)) D ∧
      (r.gb = 0 ∨ ∃ c e, NearAddr s core r.gb c e ∧ partOfCore s c = (cx s r.ctx).part)) :=
  ⟨⟨wRuns (wXReq .mcast 0 0 false (wMcastDesc 0x4000 0x2010 256 0 0x8005 3)), 0, 0x4000, wXReq .mcast 0 0 false (wMcastDesc 0x4000 0x2010 256 0 0x8005 3), by simp only [NoCopies, ChannelRuns, CalmCounters]; decide⟩,
    ⟨wRuns (wXReq .mcast 0 0 true (wMcastDesc 0x4000 0x2010 256 0 0x8005 3)), 0, 0x4000, wXReq .mcast 0 0 true (wMcastDesc 0x4000 0x2010 256 0 0x8005 3), 0, 0, 0, 0x2010, 240, by simp only [NoCopies, ChunkOf, ChannelRuns, CalmCounters]; decide⟩,
    ⟨wRuns (wXReq .reduce 0 0 true (natBytes 8 0x4000 ++ natBytes 8 0x1000 ++ natBytes 4 8 ++ natBytes 1 0x34)), 0, 0x4000, wXReq .reduce 0 0 true (natBytes 8 0x4000 ++ natBytes 8 0x1000 ++ natBytes 4 8 ++ natBytes 1 0x34), natBytes 8 0x55, by simp only [NoCopies, Still, ChannelRuns, CalmCounters]; decide⟩,
    ⟨wRuns (wXReq .reduce 0 0 true (natBytes 8 0x4000 ++ natBytes 8 0x1000 ++ natBytes 4 8 ++ natBytes 1 0x34)), 0, 0x4000, wXReq .reduce 0 0 true (natBytes 8 0x4000 ++ natBytes 8 0x1000 ++ natBytes 4 8 ++ natBytes 1 0x34), natBytes 8 0x55, by simp only [NoCopies, Still, ChannelRuns, CalmCounters]; decide⟩,
    ⟨{ wRuns (wXReq .mcast 0 0 false (wMcastDesc 0x4000 0x2010 256 0 0x8005 3)) with streams := [{ src := [0x4000], off := 0, len := 256, line := 0, cores := [5] }] }, 0, 0x4000, wXReq .mcast 0 0 false (wMcastDesc 0x4000 0x2010 256 0 0x8005 3), { src := [0x4000], off := 0, len := 256, line := 0, cores := [5] }, by simp only [NoCopies, ChannelRuns, CalmCounters]; decide⟩,
    ⟨wRuns { wXReq .mcast 0 0 true (wMcastDesc 0x4000 0x2010 256 0 0x8005 3) with rcv := [(0, 1), (1, 2)] }, 0, 0x4000, { wXReq .mcast 0 0 true (wMcastDesc 0x4000 0x2010 256 0 0x8005 3) with rcv := [(0, 1), (1, 2)] }, 0x2010, 240, by simp only [NoCopies, ChunkOf, ChannelRuns, CalmCounters]; decide⟩,
    ⟨wRuns (wXReq .copy 0x200008 1 false (wCopyDesc 0x4000 0x2010 512 0x24)), 0, wXReq .copy 0x200008 1 false (wCopyDesc 0x4000 0x2010 512 0x24), 0x2100, 256, .mem 0x4000, .spad 0 0x2010, by simp only [NoCopies, NearAddr, Still, ChunkOf, ChannelRuns, CalmCounters, PlaceOf]; and_intros <;> first | decide | exact fun c => wRuns_sp _ c | exact fun _ => .inl ⟨by decide, by decide, by decide⟩ | exact .inl ⟨by decide, by decide, by decide⟩ | exact fun h => absurd rfl h | exact fun _ => .inr (.inr ⟨by decide, by decide, by decide, 0x4000, by decide⟩) | exact .inr (.inr ⟨by decide, by decide, by decide, 0x4000, by decide⟩) | exact .inl (by decide) | exact .inr ⟨0, 1, by decide⟩ | exact fun _ => .inr (.inl ⟨by decide, by decide, 0, 0, 16, by decide⟩)⟩,
    ⟨{ wRuns (wXReq .copy 0 0 false (wCopyDesc 0x81000 0x4000 32 0x12)) with groups := [(0, { used := true, state := .pinned, members := [(0, 15), (1, 16)] })] }, 0, wXReq .copy 0 0 false (wCopyDesc 0x81000 0x4000 32 0x12), 0x4000, 32, .spad 1 0x1000, .mem 0x4000, by simp only [NoCopies, NearAddr, Still, ChunkOf, ChannelRuns, CalmCounters, PlaceOf]; and_intros <;> first | decide | exact fun c => wRuns_sp _ c | exact fun _ => .inl ⟨by decide, by decide, by decide⟩ | exact .inl ⟨by decide, by decide, by decide⟩ | exact fun h => absurd rfl h | exact fun _ => .inr (.inr ⟨by decide, by decide, by decide, 0x4000, by decide⟩) | exact .inr (.inr ⟨by decide, by decide, by decide, 0x4000, by decide⟩) | exact .inl (by decide) | exact .inr ⟨0, 1, by decide⟩ | exact fun _ => .inr (.inl ⟨by decide, by decide, 0, 0, 16, by decide⟩)⟩,
    ⟨wRuns (wXReq .fill 0 2 false (wCopyDesc 0x1000 0x2010 512 0x24)), 0, wXReq .fill 0 2 false (wCopyDesc 0x1000 0x2010 512 0x24), 0x2200, 16, .mem 0, .spad 0 0x2010, by simp only [NoCopies, NearAddr, Still, ChunkOf, ChannelRuns, CalmCounters, PlaceOf]; and_intros <;> first | decide | exact fun c => wRuns_sp _ c | exact fun _ => .inl ⟨by decide, by decide, by decide⟩ | exact .inl ⟨by decide, by decide, by decide⟩ | exact fun h => absurd rfl h | exact fun _ => .inr (.inr ⟨by decide, by decide, by decide, 0x4000, by decide⟩) | exact .inr (.inr ⟨by decide, by decide, by decide, 0x4000, by decide⟩) | exact .inl (by decide) | exact .inr ⟨0, 1, by decide⟩ | exact fun _ => .inr (.inl ⟨by decide, by decide, 0, 0, 16, by decide⟩)⟩,
    ⟨wRuns (wXReq .send 0 0 false (wCopyDesc 0x1000 0x4000 32 0x21 ++ [0x10])), 0, wXReq .send 0 0 false (wCopyDesc 0x1000 0x4000 32 0x21 ++ [0x10]), 0x4000, 32, .spad 0 0x1000, .mem 0x4000, by simp only [NoCopies, NearAddr, Still, ChunkOf, ChannelRuns, CalmCounters, PlaceOf]; and_intros <;> first | decide | exact fun c => wRuns_sp _ c | exact fun _ => .inl ⟨by decide, by decide, by decide⟩ | exact .inl ⟨by decide, by decide, by decide⟩ | exact fun h => absurd rfl h | exact fun _ => .inr (.inr ⟨by decide, by decide, by decide, 0x4000, by decide⟩) | exact .inr (.inr ⟨by decide, by decide, by decide, 0x4000, by decide⟩) | exact .inl (by decide) | exact .inr ⟨0, 1, by decide⟩ | exact fun _ => .inr (.inl ⟨by decide, by decide, 0, 0, 16, by decide⟩)⟩,
    ⟨wRuns (wXReq .tensor 0x200008 0 false wTensor), 0, wXReq .tensor 0x200008 0 false wTensor, 0x2000, 16, .spad 0 0x2000, by simp only [NoCopies, NearAddr, Still, ChunkOf, ChannelRuns, CalmCounters, PlaceOf]; and_intros <;> first | decide | exact fun c => wRuns_sp _ c | exact .inl ⟨by decide, by decide, by decide⟩ | exact .inr ⟨0, 1, by decide⟩ | exact (fun j h1 h2 _ => by have h3 : j < 4 := h2; interval_cases j <;> exact .inl ⟨by decide, by decide, by decide⟩)⟩⟩

theorem witness_QueueWords :
    (∃ (s : State) (b : BitVec 5), 2 ^ 20 ≤ BitVec.toNat (rd s b) ∧ Quiet s) ∧
    (∃ (s : State) (b : BitVec 5), (me s).priv = Priv.user ∧ BitVec.toNat (rd s b) < 256 ∧ Quiet s) ∧
    (∃ (s : State) (a : BitVec 5) (b : BitVec 5) (off : Nat) (q : Nat), BitVec.toNat (rd s b) = q ∧ q < 256 ∧
      QueueBlock s (rd s a) off 8 ∧ ((qu s q).kind ≠ 1 ∨ (qu s q).part ≠ (cx s (me s).ctx).part) ∧ Quiet s) ∧
    (∃ (s : State) (a : BitVec 5) (b : BitVec 5) (off : Nat) (q : Nat), BitVec.toNat (rd s b) = q ∧ q < 256 ∧
      QueueBlock s (rd s a) off 8 ∧ (qu s q).kind = 1 ∧ (qu s q).part = (cx s (me s).ctx).part ∧
      (qu s q).closed = true) ∧
    (∃ (s : State) (a : BitVec 5) (b : BitVec 5) (off : Nat) (q : Nat), BitVec.toNat (rd s b) = q ∧ q < 256 ∧
      QueueBlock s (rd s a) off 8 ∧ (qu s q).kind = 1 ∧ (qu s q).part = (cx s (me s).ctx).part ∧
      (qu s q).closed = false ∧ QueueFull s q) ∧
    (∃ (s : State) (a : BitVec 5) (b : BitVec 5) (off : Nat) (q : Nat), BitVec.toNat (rd s b) = q ∧ q < 256 ∧
      QueueBlock s (rd s a) off 8 ∧ (qu s q).kind = 1 ∧ (qu s q).part = (cx s (me s).ctx).part ∧
      (qu s q).closed = false ∧ ¬QueueFull s q ∧ recBad (mbytes s.spads (s.cur / 16 * 524288 + off) 64) = true ∧
      (tget s.parts.route ((cx s (me s).ctx).part * 8) (0, false)).2 = false) ∧
    (∃ (s : State) (a : BitVec 5) (b : BitVec 5) (off : Nat) (q : Nat), BitVec.toNat (rd s b) = q ∧ q < 256 ∧
      QueueBlock s (rd s a) off 8 ∧ (qu s q).kind = 1 ∧ (qu s q).part = (cx s (me s).ctx).part ∧
      (qu s q).closed = false ∧ ¬QueueFull s q ∧ recBad (mbytes s.spads (s.cur / 16 * 524288 + off) 64) = false ∧
      ArriveReady s (qu s q)) ∧
    (∃ (s : State) (a : BitVec 5) (b : BitVec 5) (off : Nat) (q : Nat) (i : Nat), BitVec.toNat (rd s b) = q ∧
      q < 256 ∧ QueueBlock s (rd s a) off 64 ∧ (qu s (256 + q)).kind = 2 ∧
      (qu s (256 + q)).part = (cx s (me s).ctx).part ∧ laneOf s q (me s).ctx = some i ∧
      (qu s (256 + q)).closed = true) ∧
    (∃ (s : State) (a : BitVec 5) (b : BitVec 5) (off : Nat) (q : Nat) (i : Nat), BitVec.toNat (rd s b) = q ∧
      q < 256 ∧ QueueBlock s (rd s a) off 64 ∧ (qu s (256 + q)).kind = 2 ∧
      (qu s (256 + q)).part = (cx s (me s).ctx).part ∧ laneOf s q (me s).ctx = some i ∧
      (qu s (256 + q)).closed = false ∧ 2 ^ (qu s (256 + q)).log2d ≤ List.length (laneAt s q i).calls) ∧
    (∃ (s : State) (a : BitVec 5) (b : BitVec 5) (off : Nat) (q : Nat) (i : Nat), BitVec.toNat (rd s b) = q ∧
      q < 256 ∧ QueueBlock s (rd s a) off 64 ∧ (qu s (256 + q)).kind = 2 ∧
      (qu s (256 + q)).part = (cx s (me s).ctx).part ∧ laneOf s q (me s).ctx = some i ∧
      (qu s (256 + q)).closed = false ∧ List.length (laneAt s q i).calls < 2 ^ (qu s (256 + q)).log2d ∧
      packetBad (mbytes s.spads (s.cur / 16 * 524288 + off) 64) = true) ∧
    (∃ (s : State) (a : BitVec 5) (b : BitVec 5) (off : Nat) (q : Nat) (i : Nat), BitVec.toNat (rd s b) = q ∧
      q < 256 ∧ QueueBlock s (rd s a) off 64 ∧ (qu s (256 + q)).kind = 2 ∧
      (qu s (256 + q)).part = (cx s (me s).ctx).part ∧ laneOf s q (me s).ctx = some i ∧
      (qu s (256 + q)).closed = false ∧ List.length (laneAt s q i).calls < 2 ^ (qu s (256 + q)).log2d ∧
      packetBad (mbytes s.spads (s.cur / 16 * 524288 + off) 64) = false ∧ ArriveReady s (qu s (256 + q))) ∧
    (∃ (s : State) (a : BitVec 5) (b : BitVec 5) (off : Nat) (q : Nat), BitVec.toNat (rd s b) = q ∧ q < 256 ∧
      QueueBlock s (rd s a) off 64 ∧ (me s).priv ≠ Priv.user ∧ ¬Serves s q ∧ Quiet s) ∧
    (∃ (s : State) (a : BitVec 5) (b : BitVec 5) (off : Nat) (q : Nat), BitVec.toNat (rd s b) = q ∧ q < 256 ∧
      QueueBlock s (rd s a) off 64 ∧ (me s).priv ≠ Priv.user ∧ Serves s q ∧ ∀ j < 16, (laneAt s q j).calls = []) ∧
    (∃ (s : State) (a : BitVec 5) (b : BitVec 5) (off : Nat) (q : Nat) (i : Nat) (c : Call),
      BitVec.toNat (rd s b) = q ∧ q < 256 ∧ QueueBlock s (rd s a) off 64 ∧ (me s).priv ≠ Priv.user ∧ Serves s q ∧
      i < 16 ∧ (qu s (256 + q)).turn = false ∧ (qu s (256 + q)).last < 16 ∧ (laneAt s q i).calls = [c] ∧
      c.taken = none ∧ c.cost ≤ (laneAt s q i).deficit + (laneAt s q i).quantum ∧ List.length c.packet = 64 ∧
      (qu s (256 + q)).scope < 7 ∧ ∀ j < 16, j ≠ i → (laneAt s q j).calls = [] ∧ (laneAt s q j).deficit = 0) ∧
    (∃ (s : State) (a : BitVec 5) (b : BitVec 5) (off : Nat) (q : Nat) (i : Nat), i < 16 ∧ q < 256 ∧
      BitVec.toNat (rd s b) = q + i * 2 ^ 16 ∧ QueueBlock s (rd s a) off 64 ∧ (me s).priv ≠ Priv.user ∧ Serves s q ∧
      ∀ c ∈ (laneAt s q i).calls,
      c.seq ≠ field (mbytes s.spads (s.cur / 16 * 524288 + off) 64) 0 8 ∨ c.taken ≠ some s.cur) ∧
    (∃ (s : State) (a : BitVec 5) (b : BitVec 5) (off : Nat) (q : Nat) (i : Nat) (c : Call), i < 16 ∧ q < 256 ∧
      BitVec.toNat (rd s b) = q + i * 2 ^ 16 ∧ QueueBlock s (rd s a) off 64 ∧ (me s).priv ≠ Priv.user ∧ Serves s q ∧
      (laneAt s q i).calls = [c] ∧ c.seq = field (mbytes s.spads (s.cur / 16 * 524288 + off) 64) 0 8 ∧
      c.taken = some s.cur ∧ field (mbytes s.spads (s.cur / 16 * 524288 + off) 64) 8 8 = 2 ^ 63) ∧
    (∃ (s : State) (a : BitVec 5) (b : BitVec 5) (off : Nat) (q : Nat) (i : Nat) (c : Call) (k : Nat), i < 16 ∧
      q < 256 ∧ BitVec.toNat (rd s b) = q + i * 2 ^ 16 ∧ QueueBlock s (rd s a) off 64 ∧ (me s).priv ≠ Priv.user ∧
      Serves s q ∧ (laneAt s q i).calls = [c] ∧ c.seq = field (mbytes s.spads (s.cur / 16 * 524288 + off) 64) 0 8 ∧
      c.taken = some s.cur ∧ field (mbytes s.spads (s.cur / 16 * 524288 + off) 64) 8 8 ≠ 2 ^ 63 ∧ c.pend = none ∧
      CallerPhysical s c ∧ OwnAddr s (cx s c.ctx).part c.reply 64 k ∧ c.reply ≠ 0 ∧ c.notify = 0 ∧ CalmCounters s ∧
      Memory.wf s.mem = true ∧ ∃ n e, NearAddr s (c.tid / 16) (laneAt s q i).done n e ∧
      partOfCore s n = (cx s c.ctx).part) :=
  ⟨⟨wQue .user 3 0x100005 [] [], 9, by simp only [Quiet]; decide⟩,
    ⟨wQue .user 3 5 [] [], 9, by simp only [Quiet]; decide⟩,
    ⟨wQue .user 3 255 [] [], 8, 9, 0x40, 255, by simp only [NoCopies, Settled, Quiet, NothingPosted, QueueBlock, InScratch]; and_intros <;> first | decide | exact .inl (by decide)⟩,
    ⟨{ wQue .user 3 5 [] [] with queues := [(5, { kind := 1, closed := true })] }, 8, 9, 0x40, 5, by simp only [NoCopies, Settled, NothingPosted, QueueBlock, InScratch]; decide⟩,
    ⟨{ wQue .user 3 5 [] [] with queues := [(5, { kind := 1, log2d := 0 })], kernels := [(7, { q := 5, src := .host 0, rec_ := [] })] }, 8, 9, 0x40, 5, by simp only [NoCopies, Settled, QueueFull, NothingPosted, QueueBlock, InScratch]; decide⟩,
    ⟨wQue .user 3 5 [] [], 8, 9, 0x40, 5, by simp only [NoCopies, Settled, QueueFull, NothingPosted, QueueBlock, InScratch]; decide⟩,
    ⟨wQue .user 3 5 [1] [], 8, 9, 0x40, 5, by simp only [NoCopies, Settled, QueueFull, NothingPosted, QueueBlock, CalmCounters, ArriveReady, InScratch]; and_intros <;> first | decide | exact .inl (by decide)⟩,
    ⟨{ wQue .user 3 5 [] [(15, { vmid := 3 })] with queues := [(261, { kind := 2, closed := true })] }, 8, 9, 0x40, 5, 15, by simp only [NoCopies, Settled, NothingPosted, QueueBlock, InScratch]; decide⟩,
    ⟨{ wQue .user 3 5 [] [(15, wLaneOne 0 none)] with queues := [(261, { kind := 2, log2d := 0 })] }, 8, 9, 0x40, 5, 15, by simp only [NoCopies, Settled, NothingPosted, QueueBlock, InScratch]; decide⟩,
    ⟨wQue .user 3 5 [] [(2, wLaneOne 0 none)], 8, 9, 0x40, 5, 2, by simp only [NoCopies, Settled, NothingPosted, QueueBlock, InScratch]; decide⟩,
    ⟨wQue .user 3 5 wPacket [(2, wLaneOne 0 none)], 8, 9, 0x40, 5, 2, by simp only [NoCopies, Settled, NothingPosted, QueueBlock, CalmCounters, ArriveReady, InScratch]; and_intros <;> first | decide | exact .inl (by decide)⟩,
    ⟨wQue .sup 4 5 [] [], 8, 9, 0x40, 5, by simp only [NoCopies, Settled, Quiet, NothingPosted, QueueBlock, Serves, InScratch]; decide⟩,
    ⟨wQue .sup 3 5 [] [], 8, 9, 0x40, 5, by simp only [NoCopies, Settled, NothingPosted, QueueBlock, Serves, InScratch]; decide⟩,
    ⟨wQue .sup 3 5 [] [(2, wLaneOne 0 none)], 8, 9, 0x40, 5, 2, wCall 7 none, by simp only [NoCopies, Settled, NothingPosted, QueueBlock, Serves, InScratch]; decide⟩,
    ⟨wQue .sup 3 0xF0005 [8] [(15, wLaneOne 0 (some 0))], 8, 9, 0x40, 5, 15, by simp only [NoCopies, Settled, NothingPosted, QueueBlock, Serves, InScratch]; decide⟩,
    ⟨wQue .sup 3 0x20005 (natBytes 8 7 ++ natBytes 8 (2 ^ 63)) [(2, wLaneOne 0 (some 0))], 8, 9, 0x40, 5, 2, wCall 7 (some 0), by simp only [NoCopies, Settled, NothingPosted, QueueBlock, Serves, InScratch]; decide⟩,
    ⟨wQue .sup 3 0x20005 (natBytes 8 7) [(2, wLaneOne 0x200008 (some 0))], 8, 9, 0x40, 5, 2, wCall 7 (some 0), 0x3000, by simp only [NoCopies, Settled, NearAddr, OwnAddr, NothingPosted, QueueBlock, Serves, CalmCounters, CallerPhysical, InScratch]; and_intros <;> first | decide | exact ⟨0, 1, by decide⟩⟩⟩

theorem witness_QueueWordsComplete :
    (∃ (s : State) (a : BitVec 5) (b : BitVec 5) (off : Nat) (q : Nat), q < 256 ∧ BitVec.toNat (rd s b) = q ∧
      QueueBlock s (rd s a) off 8 ∧ (qu s q).kind = 1 ∧ (qu s q).part = (cx s (me s).ctx).part ∧
      (qu s q).closed = false ∧ ¬QueueFull s q ∧ recBad (mbytes s.spads (s.cur / 16 * 524288 + off) 64) = false ∧
      ArriveReady s (qu s q)) ∧
    (∃ (s : State) (a : BitVec 5) (b : BitVec 5) (off : Nat) (q : Nat) (i : Nat), q < 256 ∧
      BitVec.toNat (rd s b) = q ∧ QueueBlock s (rd s a) off 64 ∧ (qu s (256 + q)).kind = 2 ∧
      (qu s (256 + q)).part = (cx s (me s).ctx).part ∧ laneOf s q (me s).ctx = some i ∧
      (qu s (256 + q)).closed = false ∧ List.length (laneAt s q i).calls < 2 ^ (qu s (256 + q)).log2d ∧
      packetBad (mbytes s.spads (s.cur / 16 * 524288 + off) 64) = false ∧ ArriveReady s (qu s (256 + q))) ∧
    (∃ (s : State) (a : BitVec 5) (b : BitVec 5) (off : Nat) (q : Nat), q < 256 ∧ BitVec.toNat (rd s b) = q ∧
      QueueBlock s (rd s a) off 64 ∧ (me s).priv ≠ Priv.user ∧ Serves s q ∧ takeLane s q = none) ∧
    (∃ (s : State) (a : BitVec 5) (b : BitVec 5) (off : Nat) (q : Nat) (ls : List Lane) (i : Nat) (c : Call),
      q < 256 ∧ BitVec.toNat (rd s b) = q ∧ QueueBlock s (rd s a) off 64 ∧ (me s).priv ≠ Priv.user ∧ Serves s q ∧
      takeLane s q = some (ls, i) ∧ i < 16 ∧ laneHead (List.getD ls i { }) = some c ∧ List.length c.packet = 64 ∧
      (qu s (256 + q)).scope < 7) ∧
    (∃ (s : State) (a : BitVec 5) (b : BitVec 5) (off : Nat) (q : Nat) (i : Nat) (c : Call) (k : Nat) (n : Nat) (e : Nat) (n' : Nat) (e' : Nat),
      q < 256 ∧ i < 16 ∧ BitVec.toNat (rd s b) = q + i * 2 ^ 16 ∧ QueueBlock s (rd s a) off 64 ∧
      (me s).priv ≠ Priv.user ∧ Serves s q ∧
      List.find? (fun z => decide (z.seq = field (mbytes s.spads (s.cur / 16 * 524288 + off) 64) 0 8 ∧
      z.taken = some s.cur)) (laneAt s q i).calls = some c ∧
      field (mbytes s.spads (s.cur / 16 * 524288 + off) 64) 8 8 ≠ 2 ^ 63 ∧ c.pend = none ∧
      (∀ z ∈ (laneAt s q i).calls, 1 ≤ z.seq) ∧ CallerPhysical s c ∧ CalmCounters s ∧ Memory.wf s.mem = true ∧
      (c.reply ≠ 0 → OwnAddr s (cx s c.ctx).part c.reply 64 k) ∧ (NearAddr s (c.tid / 16) (laneAt s q i).done n e ∧
      partOfCore s n = (cx s c.ctx).part) ∧ (c.notify ≠ 0 → (NearAddr s (c.tid / 16) c.notify n' e' ∧
      partOfCore s n' = (cx s c.ctx).part) ∧ n' * 256 + e' ≠ n * 256 + e)) :=
  ⟨⟨wQue .user 3 5 [1] [], 8, 9, 0x40, 5, by simp only [NoCopies, Settled, QueueFull, NothingPosted, QueueBlock, CalmCounters, ArriveReady, InScratch]; and_intros <;> first | decide | exact .inl (by decide)⟩,
    ⟨wQue .user 3 5 wPacket [(15, wLaneOne 0 none)], 8, 9, 0x40, 5, 15, by simp only [NoCopies, Settled, NothingPosted, QueueBlock, CalmCounters, ArriveReady, InScratch]; and_intros <;> first | decide | exact .inl (by decide)⟩,
    ⟨wQue .sup 3 5 [] [], 8, 9, 0x40, 5, by simp only [NoCopies, Settled, NothingPosted, QueueBlock, Serves, InScratch]; decide⟩,
    ⟨wQue .sup 3 5 [] [(2, { wLaneOne 0 none with quantum := 4 })], 8, 9, 0x40, 5, (takeLane (wQue .sup 3 5 [] [(2, { wLaneOne 0 none with quantum := 4 })]) 5).elim [] (·.1), 2, wCall 7 none, by simp only [NoCopies, Settled, NothingPosted, QueueBlock, Serves, InScratch]; decide⟩,
    ⟨wQue .sup 3 0xF0005 (natBytes 8 7) [(15, { wLaneOne 0x200008 (some 0) with seq := 8, calls := [{ wCall 7 (some 0) with notify := 0x200010 }, wCall 8 none] })], 8, 9, 0x40, 5, 15, { wCall 7 (some 0) with notify := 0x200010 }, 0x3000, 0, 1, 0, 2, by simp only [NoCopies, Settled, NearAddr, OwnAddr, NothingPosted, QueueBlock, Serves, CalmCounters, CallerPhysical, InScratch]; and_intros <;> first | decide | exact fun _ => by decide⟩⟩

theorem witness_OutsideLaunches :
    (∃ (q : Nat) (off : Nat) (data : List Byte), q < 256 ∧ off + List.length data < 64) ∧
    (∃ (s : State) (vf : Nat) (q : Nat) (off : Nat) (data : List Byte), q < 256 ∧ off + List.length data = 64 ∧
      (qu s q).kind = 1 ∧ (qu s q).part = tget s.parts.vf vf 0 ∧ (qu s q).closed = false ∧ ¬QueueFull s q ∧
      recBad (mbytes (mputs (vfn s vf).window (q * 64 + off) data) (q * 64) 64) = false ∧ (qu s q).arrive = 0) ∧
    (∃ (s : State) (vf : Nat) (q : Nat) (off : Nat) (data : List Byte), q < 256 ∧ off + List.length data = 64 ∧
      (qu s q).kind = 0 ∧ (vfn s vf).errcnt < 2 ^ 64 - 1) ∧
    (∃ (s : State) (port : Nat) (data : List Byte) (u : Udp) (q : Nat), parseFrame data = some u ∧
      cutBytes data 0 6 = (tget s.eths port { }).mac ∧ (∃ i ∈ (tget s.eths port { }).ips, i.2 = mappedIp u.dstIp) ∧
      List.length u.payload = 68 ∧
      classify (tget s.eths port { }) (be data (u.l4 + 2) 2) (be u.payload 0 4) = some q ∧ (qu s q).kind = 1 ∧
      (qu s q).closed = false ∧ ¬QueueFull s q ∧ recBad (List.drop 4 u.payload) = false ∧ (qu s q).arrive = 0) ∧
    (∃ (s : State) (port : Nat) (data : List Byte), parseFrame data = none ∧
      (tget s.eths port { }).rxdrop < 2 ^ 64 - 1) :=
  ⟨⟨5, 8, natBytes 8 7, by decide⟩, ⟨wEth, 3, 5, 0, natBytes 64 1, by simp only [QueueFull]; decide⟩,
    ⟨wEth, 3, 255, 56, natBytes 8 1, by decide⟩,
    ⟨wEth, 0, wFrame 1, { v6 := false, l3 := 14, l4 := 34, srcIp := [10, 0, 0, 1], dstIp := [10, 0, 0, 2], payload := [1, 2, 3, 4, 1] ++ natBytes 63 0 }, 5, by simp only [QueueFull]; decide⟩,
    ⟨wEth, 0, [], by decide⟩⟩

theorem witness_KernelLife :
    (∃ (s : State) (num : Nat), s.kernels = [(num, kn s num)] ∧ CalmCounters s ∧ NoCopies s ∧ Memory.wf s.mem = true ∧
      Memory.wf s.spads = true ∧ (kn s num).pend = none ∧ (kn s num).state = KState.received ∧
      ((tget s.models (field (kn s num).rec_ 0 8 / 16 % 32) { }).state ≠ 1 ∨ (tget s.models (field (kn s num).rec_ 0 8 / 16 % 32) { }).part ≠ (kn s num).part)) ∧
    (∃ (s : State) (num : Nat) (ctx : Nat), s.kernels = [(num, kn s num)] ∧ CalmCounters s ∧ NoCopies s ∧
      Memory.wf s.mem = true ∧ Memory.wf s.spads = true ∧ (kn s num).pend = none ∧
      (kn s num).state = KState.received ∧ (tget s.models (field (kn s num).rec_ 0 8 / 16 % 32) { }).state = 1 ∧
      (tget s.models (field (kn s num).rec_ 0 8 / 16 % 32) { }).part = (kn s num).part ∧
      ctxOfVmid s (tget s.models (field (kn s num).rec_ 0 8 / 16 % 32) { }).part (tget s.models (field (kn s num).rec_ 0 8 / 16 % 32) { }).vmid = some ctx ∧
      (tget s.models (field (kn s num).rec_ 0 8 / 16 % 32) { }).nent ≤ field (kn s num).rec_ 0 8 / 2 ^ 9 % 16) ∧
    (∃ (s : State) (num : Nat) (ctx : Nat) (a : Nat), s.kernels = [(num, kn s num)] ∧ CalmCounters s ∧ NoCopies s ∧
      Memory.wf s.mem = true ∧ Memory.wf s.spads = true ∧ (kn s num).pend = none ∧
      (kn s num).state = KState.received ∧ (tget s.models (field (kn s num).rec_ 0 8 / 16 % 32) { }).state = 1 ∧
      (tget s.models (field (kn s num).rec_ 0 8 / 16 % 32) { }).part = (kn s num).part ∧
      ctxOfVmid s (tget s.models (field (kn s num).rec_ 0 8 / 16 % 32) { }).part (tget s.models (field (kn s num).rec_ 0 8 / 16 % 32) { }).vmid = some ctx ∧
      field (kn s num).rec_ 0 8 / 2 ^ 9 % 16 < (tget s.models (field (kn s num).rec_ 0 8 / 16 % 32) { }).nent ∧
      Bare (cx s ctx) ∧
      OwnAddr s (cx s ctx).part ((tget s.models (field (kn s num).rec_ 0 8 / 16 % 32) { }).etab + BitVec.ofNat 64 (32 * (field (kn s num).rec_ 0 8 / 2 ^ 9 % 16))) 32 a ∧
      (0 < if field (kn s num).rec_ 0 8 / 2 ^ 41 % 2 ^ 13 = 0 then field (mbytes s.mem a 32) 16 4 else field (kn s num).rec_ 0 8 / 2 ^ 41 % 2 ^ 13) ∧
      (if field (kn s num).rec_ 0 8 / 2 ^ 41 % 2 ^ 13 = 0 then field (mbytes s.mem a 32) 16 4 else field (kn s num).rec_ 0 8 / 2 ^ 41 % 2 ^ 13) ≤ 4096 ∧
      field (mbytes s.mem a 32) 13 1 ≤ 4 ∧
      (tget s.models (field (kn s num).rec_ 0 8 / 16 % 32) { }).nclo + field (mbytes s.mem a 32) 14 2 ≤ 256 ∧
      field (kn s num).rec_ 16 8 = 0) ∧
    (∃ (s : State) (num : Nat) (ps : List Nat), s.kernels = [(num, kn s num)] ∧ CalmCounters s ∧ NoCopies s ∧
      Memory.wf s.mem = true ∧ Memory.wf s.spads = true ∧ (kn s num).pend = none ∧ (kn s num).state = KState.queued ∧
      (tget s.models (kn s num).model { }).part < 24 ∧ (kn s num).model < 32 ∧
      tget s.parts.state (tget s.models (kn s num).model { }).part PState.unused = PState.active ∧
      (tget s.models (kn s num).model { }).state = 1 ∧ (cx s (kn s num).ctx).state = CState.running ∧ s.heads = [] ∧
      fits s num = true ∧ placesFor s num = some ps ∧ field (kn s num).rec_ 24 8 = 0) ∧
    (∃ (s : State) (num : Nat) (tid : Nat), s.kernels = [(num, kn s num)] ∧ CalmCounters s ∧ NoCopies s ∧
      Memory.wf s.mem = true ∧ Memory.wf s.spads = true ∧ (kn s num).pend = none ∧
      (kn s num).state = KState.admitted ∧ (kn s num).zeroDue = false ∧ (cx s (kn s num).ctx).state = CState.running ∧
      (kn s num).threads = 1 ∧ (kn s num).tiles = 0 ∧ (kn s num).ncounters = 0 ∧ (kn s num).places = [tid] ∧
      placesOk s num [tid] = true ∧ List.length (kn s num).rec_ = 64 ∧ groupKey s 0 = none ∧
      (tget s.models (kn s num).model { }).argoff + tid % 16 * 64 + 64 ≤ 524288 ∧
      BitVec.toNat (tget s.models (kn s num).model { }).lwb % 2 ^ 19 = 1) ∧
    (∃ (s : State) (num : Nat) (a : Nat) (vf : Nat), s.kernels = [(num, kn s num)] ∧ CalmCounters s ∧ NoCopies s ∧
      Memory.wf s.mem = true ∧ Memory.wf s.spads = true ∧ (kn s num).pend = none ∧
      (kn s num).state = KState.draining ∧ (∀ e ∈ s.threads, e.2.was ≠ num) ∧ s.posts = [] ∧ (kn s num).killed = 0 ∧
      (kn s num).src = Source.host vf ∧ field (kn s num).rec_ 16 8 = 0 ∧ Bare (cx s (kn s num).ctx) ∧
      (cx s (kn s num).ctx).state ≠ CState.empty ∧ (cx s (kn s num).ctx).state ≠ CState.destroyed ∧
      OwnAddr s (cx s (kn s num).ctx).part (BitVec.ofNat 64 (field (kn s num).rec_ 24 8)) 8 a ∧
      field (kn s num).rec_ 24 8 ≠ 0 ∧ field (kn s num).rec_ 24 8 % 8 = 0) :=
  ⟨⟨{ wKernel (wK .received) with models := [] }, 7, by simp only [NoCopies, CalmCounters]; and_intros <;> first | decide | exact .inl (by decide)⟩,
    ⟨{ wKernel (wK .received) with models := [(2, { state := 1, vmid := 3, nent := 1 })] }, 7, 0, by simp only [NoCopies, CalmCounters]; decide⟩,
    ⟨wKernel (wK .received), 7, 0, 0x4020, by simp only [NoCopies, Bare, OwnAddr, CalmCounters]; decide⟩,
    ⟨wKernel (wK .queued), 7, [1], by simp only [NoCopies, CalmCounters]; decide +kernel⟩,
    ⟨wKernel (wK .admitted), 7, 1, by simp only [NoCopies, CalmCounters]; decide⟩,
    ⟨wKernel { wK .draining with flags := 3, rec_ := natBytes 24 0 ++ natBytes 40 0x3000 }, 7, 0x3000, 3, by simp only [NoCopies, Bare, OwnAddr, CalmCounters]; decide⟩⟩

theorem witness_ContextCommands :
    (∃ (s : State) (arg : Word) (n : Nat) (vmid : Nat) (part : Nat) (vf : Nat) (qos : Nat), Commands s arg n 1 part ∧
      vmid < 2 ^ 14 ∧ part < 24 ∧ vf < 2 ^ 7 ∧ qos < 2 ^ 6 ∧
      BitVec.toNat arg = n + 256 + vmid * 2 ^ 12 + part * 2 ^ 26 + vf * 2 ^ 31 + qos * 2 ^ 38 ∧
      (cx s n).state ≠ CState.empty) ∧
    (∃ (s : State) (arg : Word) (n : Nat) (vmid : Nat) (part : Nat) (vf : Nat) (qos : Nat), Commands s arg n 1 part ∧
      vmid < 2 ^ 14 ∧ part < 24 ∧ vf < 2 ^ 7 ∧ qos < 2 ^ 6 ∧
      BitVec.toNat arg = n + 256 + vmid * 2 ^ 12 + part * 2 ^ 26 + vf * 2 ^ 31 + qos * 2 ^ 38 ∧
      (cx s n).state = CState.empty ∧ (∀ e ∈ s.ctxs, e.2.state = CState.empty ∨ e.2.vmid ≠ vmid ∧ e.2.vf ≠ some vf) ∧
      tget s.parts.vf vf 0 = part ∧ (tget s.parts.qos qos (24, 1)).1 = part) ∧
    (∃ (s : State) (arg : Word) (n : Nat), Commands s arg n 2 (cx s n).part ∧ (cx s n).state ≠ CState.loading) ∧
    (∃ (s : State) (arg : Word) (n : Nat), Commands s arg n 2 (cx s n).part ∧ (cx s n).state = CState.loading) ∧
    (∃ (s : State) (arg : Word) (n : Nat) (i : Instr × Nat), i ∈ [(Instr.start arg, 3), (Instr.resume arg, 5)] ∧
      Commands s arg n i.2 (cx s n).part ∧ (cx s n).state ≠ CState.ready ∧ (cx s n).state ≠ CState.suspended) ∧
    (∃ (s : State) (arg : Word) (n : Nat) (i : Instr × Nat), i ∈ [(Instr.start arg, 3), (Instr.resume arg, 5)] ∧
      Commands s arg n i.2 (cx s n).part ∧ ((cx s n).state = CState.ready ∨ (cx s n).state = CState.suspended) ∧
      reserveRoom s = true ∧ s.groups = [] ∧ s.pageWaits = [] ∧ List.Nodup (List.map (fun x => x.1) s.threads) ∧
      ∀ e ∈ s.threads, e.2.ctx = n → e.2.prior ≠ SlotState.parked ∧ e.1 % 16 ≠ 15) ∧
    (∃ (s : State) (arg : Word) (n : Nat), Commands s arg n 4 (cx s n).part ∧ (cx s n).state ≠ CState.running) ∧
    (∃ (s : State) (arg : Word) (n : Nat), Commands s arg n 4 (cx s n).part ∧ (cx s n).state = CState.running ∧
      (∀ e ∈ s.threads, e.2.ctx ≠ n) ∧ (∀ e ∈ s.cores, e.2.ch.state ≠ 2) ∧ s.groups = [] ∧ s.posts = [] ∧
      s.pageWaits = [] ∧ s.halos = [] ∧ s.peerLines = []) ∧
    (∃ (s : State) (arg : Word) (n : Nat) (x : Nat), Commands s arg n 4 (cx s n).part ∧
      (cx s n).state = CState.running ∧ s.groups = [] ∧ (∃ e ∈ s.threads, e.1 = x) ∧
      List.Nodup (List.map (fun x => x.1) s.threads) ∧ (th s x).ctx = n ∧ (th s x).state = SlotState.ready ∧
      (th s x).stop = none ∧ ∀ e ∈ s.threads, e.2.ctx = n → e.1 = x) ∧
    (∃ (s : State) (n : Nat) (who : Nat), (cx s n).state = CState.running ∧ (cx s n).suspending = some who ∧
      suspendDone s n = true ∧ s.pageWaits = [] ∧ s.halos = [] ∧ s.peerLines = []) ∧
    (∃ (s : State) (arg : Word) (n : Nat), Commands s arg n 6 (cx s n).part ∧
      ((cx s n).state = CState.empty ∨ (cx s n).state = CState.destroyed)) ∧
    (∃ (s : State) (arg : Word) (n : Nat), Commands s arg n 6 (cx s n).part ∧
      ((cx s n).state = CState.sealing ∨ (cx s n).state = CState.restoring)) ∧
    (∃ (s : State) (arg : Word) (n : Nat), Commands s arg n 6 (cx s n).part ∧
      ((cx s n).state = CState.loading ∨ (cx s n).state = CState.ready ∨ (cx s n).state = CState.running ∨ (cx s n).state = CState.suspended ∨ (cx s n).state = CState.sealed) ∧
      (∀ e ∈ s.threads, e.2.ctx ≠ n) ∧ s.groups = [] ∧ s.kernels = [] ∧ s.queues = [] ∧ s.pageWaits = []) ∧
    (∃ (s : State) (n : Nat) (vf : Nat), (cx s n).state = CState.destroyed ∧ Unused s n ∧
      BitVec.toNat (cx s n).hgxlat / 2 ^ 60 = 0 ∧ (cx s n).vf = some vf ∧ s.waiters = [] ∧ s.arms = []) :=
  ⟨⟨wCtx .loading, BitVec.ofNat 64 (1 + 256 + 4 * 2 ^ 12 + 2 ^ 31 + 6 * 2 ^ 38), 1, 4, 0, 1, 6, by simp only [Commands]; decide⟩,
    ⟨wCtx .empty, BitVec.ofNat 64 (1 + 256 + 4 * 2 ^ 12 + 2 ^ 31 + 6 * 2 ^ 38), 1, 4, 0, 1, 6, by simp only [Commands]; decide⟩,
    ⟨wCtx .running, wCtxc 2, 1, by simp only [Commands]; decide⟩,
    ⟨wCtx .loading, wCtxc 2, 1, by simp only [Commands]; decide⟩,
    ⟨wCtx .running, wCtxc 3, 1, (.start (wCtxc 3), 3), by simp only [Commands]; and_intros <;> first | exact List.mem_cons_self | decide⟩,
    ⟨{ wCtx .suspended with threads := [(0, wT), (16, { wSup with ctx := 1, state := .stopped })] }, wCtxc 5, 1, (.resume (wCtxc 5), 5), by simp only [Commands]; and_intros <;> first | exact .tail _ (.head _) | decide⟩,
    ⟨wCtx .ready, wCtxc 4, 1, by simp only [Commands]; decide⟩,
    ⟨wCtx .running, wCtxc 4, 1, by simp only [Commands]; decide⟩,
    ⟨{ wCtx .running with threads := [(0, wT), (16, { wSup with ctx := 1 })] }, wCtxc 4, 1, 16, by simp only [Commands]; decide⟩,
    ⟨{ wCtx .running with ctxs := [(1, { state := .running, suspending := some 0 })] }, 1, 0, by decide⟩,
    ⟨wCtx .empty, wCtxc 6, 1, by simp only [Commands]; decide⟩,
    ⟨wCtx .sealing, wCtxc 6, 1, by simp only [Commands]; decide⟩,
    ⟨wCtx .sealed, wCtxc 6, 1, by simp only [Commands]; decide⟩,
    ⟨{ wCtx .destroyed with cores := [], threads := [], ctxs := [(1, { state := .destroyed, vf := some 2, nears := [(1, 40, 10)] })] }, 1, 2, by simp only [Unused]; decide⟩⟩

theorem witness_ContextWords :
    (∃ (s : State) (p : BitVec 1) (d : BitVec 5) (a : BitVec 5) (b : BitVec 5) (i : Instr), Quiet s ∧
      BitVec.toNat (rd s b) = 0 ∧ (me s).priv = Priv.user ∧ i ∈ [Instr.ctxExtend p d a b, Instr.ctxQuote p d a b,
      Instr.ctxSeal p d a, Instr.ctxUnseal p d a]) ∧
    (∃ (s : State) (p : BitVec 1) (d : BitVec 5) (a : BitVec 5) (b : BitVec 5) (i : Instr), Quiet s ∧
      BitVec.toNat (rd s b) = 0 ∧ (me s).priv = Priv.sup ∧ i ∈ [Instr.ctxExtend p d a b, Instr.ctxSeal p d a,
      Instr.ctxUnseal p d a]) ∧
    (∃ (s : State) (b : BitVec 5) (n : Nat) (kind : Nat) (len : Nat), (me s).priv = Priv.hyp ∧ n < 256 ∧ kind < 256 ∧
      0 < len ∧ len < 2 ^ 26 ∧ BitVec.toNat (rd s b) = n * 2 ^ 48 + kind * 2 ^ 32 + len ∧
      administers s (s.cur / 16) (cx s n).part = true ∧ (cx s n).state ≠ CState.loading) ∧
    (∃ (s : State) (a : BitVec 5) (b : BitVec 5) (n : Nat) (kind : Nat) (len : Nat) (k : Nat),
      (me s).priv = Priv.hyp ∧ n < 256 ∧ kind < 256 ∧ 0 < len ∧ len < 2 ^ 26 ∧
      BitVec.toNat (rd s b) = n * 2 ^ 48 + kind * 2 ^ 32 + len ∧ administers s (s.cur / 16) (cx s n).part = true ∧
      (cx s n).state = CState.loading ∧ OwnAddr s (cx s n).part (rd s a) len k ∧ s.poison = []) ∧
    (∃ (s : State) (a : BitVec 5) (b : BitVec 5) (off : Nat), BitVec.toNat (rd s a) % 64 = 0 ∧
      InScratch s (rd s a + 112) 32 off ∧ Settled s ∧ s.poison = [] ∧ BitVec.toNat (rd s b) = 0 ∧
      (me s).priv = Priv.sup) ∧
    (∃ (s : State) (a : BitVec 5) (b : BitVec 5) (off : Nat), BitVec.toNat (rd s a) % 64 = 0 ∧
      InScratch s (rd s a + 112) 32 off ∧ Settled s ∧ s.poison = [] ∧ BitVec.toNat (rd s b) = 256 ∧
      (me s).priv ≠ Priv.user ∧ ((me s).priv = Priv.hyp → administers s (s.cur / 16) (cx s (me s).ctx).part = true) ∧
      ((cx s (me s).ctx).state = CState.empty ∨ (cx s (me s).ctx).state = CState.destroyed)) ∧
    (∃ (s : State) (a : BitVec 5) (b : BitVec 5) (off : Nat), BitVec.toNat (rd s a) % 64 = 0 ∧
      InScratch s (rd s a + 112) 32 off ∧ Settled s ∧ s.poison = [] ∧ BitVec.toNat (rd s b) = 256 ∧
      (me s).priv ≠ Priv.user ∧ ((me s).priv = Priv.hyp → administers s (s.cur / 16) (cx s (me s).ctx).part = true) ∧
      (cx s (me s).ctx).state ≠ CState.empty ∧ (cx s (me s).ctx).state ≠ CState.destroyed) ∧
    (∃ (s : State) (a : BitVec 5) (off : Nat), (me s).priv = Priv.hyp ∧ BitVec.toNat (rd s a) % 64 = 0 ∧
      InScratch s (rd s a) 64 off ∧ Settled s ∧ s.poison = [] ∧ s.peerLines = [] ∧ s.hostLines = [] ∧
      field (mbytes s.spads (s.cur / 16 * 524288 + off) 64) 0 2 < 256 ∧
      administers s (s.cur / 16) (cx s (field (mbytes s.spads (s.cur / 16 * 524288 + off) 64) 0 2)).part = true ∧
      (cx s (field (mbytes s.spads (s.cur / 16 * 524288 + off) 64) 0 2)).state ≠ CState.suspended) ∧
    (∃ (s : State) (a : BitVec 5) (off : Nat) (bs : List Byte), (me s).priv = Priv.hyp ∧
      BitVec.toNat (rd s a) % 64 = 0 ∧ InScratch s (rd s a) 64 off ∧ Settled s ∧ s.poison = [] ∧ s.peerLines = [] ∧
      s.hostLines = [] ∧ field (mbytes s.spads (s.cur / 16 * 524288 + off) 64) 0 2 < 256 ∧
      administers s (s.cur / 16) (cx s (field (mbytes s.spads (s.cur / 16 * 524288 + off) 64) 0 2)).part = true ∧
      (cx s (field (mbytes s.spads (s.cur / 16 * 524288 + off) 64) 0 2)).state = CState.suspended ∧
      sealOk s (cx s (field (mbytes s.spads (s.cur / 16 * 524288 + off) 64) 0 2)) (mbytes s.spads (s.cur / 16 * 524288 + off) 64) = true ∧
      sealLists s (mbytes s.spads (s.cur / 16 * 524288 + off) 64) = some bs ∧
      ctxTileDirty s (cx s (field (mbytes s.spads (s.cur / 16 * 524288 + off) 64) 0 2)) = false ∧
      imageSize (field (mbytes s.spads (s.cur / 16 * 524288 + off) 64) 2 2) (field (mbytes s.spads (s.cur / 16 * 524288 + off) 64) 4 2) (payloadSize (regionsOf bs 64 (field (mbytes s.spads (s.cur / 16 * 524288 + off) 64) 2 2)) (rangesOf bs (64 + 16 * field (mbytes s.spads (s.cur / 16 * 524288 + off) 64) 2 2) (field (mbytes s.spads (s.cur / 16 * 524288 + off) 64) 4 2))) ≤ field (mbytes s.spads (s.cur / 16 * 524288 + off) 64) 16 8 ∧
      List.length s.jobs < 8) ∧
    (∃ (s : State) (a : BitVec 5) (off : Nat) (bs : List Byte), (me s).priv = Priv.hyp ∧
      BitVec.toNat (rd s a) % 64 = 0 ∧ InScratch s (rd s a) 64 off ∧ Settled s ∧ s.poison = [] ∧ s.peerLines = [] ∧
      s.hostLines = [] ∧ field (mbytes s.spads (s.cur / 16 * 524288 + off) 64) 0 2 < 256 ∧
      administers s (s.cur / 16) (cx s (field (mbytes s.spads (s.cur / 16 * 524288 + off) 64) 0 2)).part = true ∧
      (cx s (field (mbytes s.spads (s.cur / 16 * 524288 + off) 64) 0 2)).state = CState.suspended ∧
      sealOk s (cx s (field (mbytes s.spads (s.cur / 16 * 524288 + off) 64) 0 2)) (mbytes s.spads (s.cur / 16 * 524288 + off) 64) = true ∧
      sealLists s (mbytes s.spads (s.cur / 16 * 524288 + off) 64) = some bs ∧
      ctxTileDirty s (cx s (field (mbytes s.spads (s.cur / 16 * 524288 + off) 64) 0 2)) = false ∧
      imageSize (field (mbytes s.spads (s.cur / 16 * 524288 + off) 64) 2 2) (field (mbytes s.spads (s.cur / 16 * 524288 + off) 64) 4 2) (payloadSize (regionsOf bs 64 (field (mbytes s.spads (s.cur / 16 * 524288 + off) 64) 2 2)) (rangesOf bs (64 + 16 * field (mbytes s.spads (s.cur / 16 * 524288 + off) 64) 2 2) (field (mbytes s.spads (s.cur / 16 * 524288 + off) 64) 4 2))) ≤ field (mbytes s.spads (s.cur / 16 * 524288 + off) 64) 16 8 ∧
      8 ≤ List.length s.jobs) ∧
    (∃ (s : State) (a : BitVec 5) (off : Nat), (me s).priv = Priv.hyp ∧ BitVec.toNat (rd s a) % 64 = 0 ∧
      InScratch s (rd s a) 64 off ∧ Settled s ∧ s.poison = [] ∧ s.peerLines = [] ∧ s.hostLines = [] ∧
      field (mbytes s.spads (s.cur / 16 * 524288 + off) 64) 0 2 < 256 ∧
      administers s (s.cur / 16) (cx s (field (mbytes s.spads (s.cur / 16 * 524288 + off) 64) 0 2)).part = true ∧
      (cx s (field (mbytes s.spads (s.cur / 16 * 524288 + off) 64) 0 2)).state ≠ CState.loading) ∧
    (∃ (s : State) (a : BitVec 5) (off : Nat) (k : Nat), (me s).priv = Priv.hyp ∧ BitVec.toNat (rd s a) % 64 = 0 ∧
      InScratch s (rd s a) 64 off ∧ Settled s ∧ s.poison = [] ∧ s.peerLines = [] ∧ s.hostLines = [] ∧
      field (mbytes s.spads (s.cur / 16 * 524288 + off) 64) 0 2 < 256 ∧
      administers s (s.cur / 16) (cx s (field (mbytes s.spads (s.cur / 16 * 524288 + off) 64) 0 2)).part = true ∧
      (cx s (field (mbytes s.spads (s.cur / 16 * 524288 + off) 64) 0 2)).state = CState.loading ∧
      (∀ x ∈ (cx s (field (mbytes s.spads (s.cur / 16 * 524288 + off) 64) 0 2)).measure, x = 0) ∧ (∀ i < 6,
      List.getD (mbytes s.spads (s.cur / 16 * 524288 + off) 64) (2 + i) 0 = 0) ∧
      field (mbytes s.spads (s.cur / 16 * 524288 + off) 64) 8 8 % 4096 = 0 ∧ (∀ i < 8,
      List.getD (mbytes s.spads (s.cur / 16 * 524288 + off) 64) (32 + i) 0 = 0) ∧
      field (mbytes s.spads (s.cur / 16 * 524288 + off) 64) 48 8 % 8 = 0 ∧ (∀ i < 8,
      List.getD (mbytes s.spads (s.cur / 16 * 524288 + off) 64) (56 + i) 0 = 0) ∧ s.pkg < 256 ∧
      field (mbytes s.spads (s.cur / 16 * 524288 + off) 64) 40 8 = s.pkg * 2 ^ 40 + k ∧ k % 8 = 0 ∧ k < 2 ^ 40 ∧
      s.lehr.withdrawn = [] ∧
      NoWindowAt s (s.cur / 16) (BitVec.ofNat 64 (field (mbytes s.spads (s.cur / 16 * 524288 + off) 64) 40 8)) ∧
      List.length s.jobs < 8) ∧
    (∃ (s : State) (a : BitVec 5) (off : Nat) (k : Nat), (me s).priv = Priv.hyp ∧ BitVec.toNat (rd s a) % 64 = 0 ∧
      InScratch s (rd s a) 64 off ∧ Settled s ∧ s.poison = [] ∧ s.peerLines = [] ∧ s.hostLines = [] ∧
      field (mbytes s.spads (s.cur / 16 * 524288 + off) 64) 0 2 < 256 ∧
      administers s (s.cur / 16) (cx s (field (mbytes s.spads (s.cur / 16 * 524288 + off) 64) 0 2)).part = true ∧
      (cx s (field (mbytes s.spads (s.cur / 16 * 524288 + off) 64) 0 2)).state = CState.loading ∧
      (∀ x ∈ (cx s (field (mbytes s.spads (s.cur / 16 * 524288 + off) 64) 0 2)).measure, x = 0) ∧ (∀ i < 6,
      List.getD (mbytes s.spads (s.cur / 16 * 524288 + off) 64) (2 + i) 0 = 0) ∧
      field (mbytes s.spads (s.cur / 16 * 524288 + off) 64) 8 8 % 4096 = 0 ∧ (∀ i < 8,
      List.getD (mbytes s.spads (s.cur / 16 * 524288 + off) 64) (32 + i) 0 = 0) ∧
      field (mbytes s.spads (s.cur / 16 * 524288 + off) 64) 48 8 % 8 = 0 ∧ (∀ i < 8,
      List.getD (mbytes s.spads (s.cur / 16 * 524288 + off) 64) (56 + i) 0 = 0) ∧ s.pkg < 256 ∧
      field (mbytes s.spads (s.cur / 16 * 524288 + off) 64) 40 8 = s.pkg * 2 ^ 40 + k ∧ k % 8 = 0 ∧ k < 2 ^ 40 ∧
      s.lehr.withdrawn = [] ∧
      NoWindowAt s (s.cur / 16) (BitVec.ofNat 64 (field (mbytes s.spads (s.cur / 16 * 524288 + off) 64) 40 8)) ∧
      8 ≤ List.length s.jobs) :=
  ⟨⟨wCtxWord .user 0x80040 0 .running [], 0, 5, 8, 9, .ctxSeal 0 5 8, by simp only [Quiet]; decide⟩,
    ⟨wCtxWord .sup 0x80040 0 .running [], 0, 5, 8, 9, .ctxSeal 0 5 8, by simp only [Quiet]; decide⟩,
    ⟨wCtxWord .hyp 0x7000 (BitVec.ofNat 64 (2 ^ 48 + 2 ^ 32 + 16)) .running [], 9, 1, 1, 16, by decide⟩,
    ⟨wCtxWord .hyp 0x7000 (BitVec.ofNat 64 (2 ^ 48 + 2 ^ 32 + 16)) .loading [], 8, 9, 1, 1, 16, 0x7000, by simp only [OwnAddr]; decide⟩,
    ⟨wCtxWord .sup 0x80000 0 .running [], 8, 9, 0x70, by simp only [Settled, NothingPosted, InScratch]; decide⟩,
    ⟨{ wCtxWord .sup 0x80000 256 .running [] with ctxs := [] }, 8, 9, 0x70, by simp only [Settled, NothingPosted, InScratch]; decide⟩,
    ⟨wCtxWord .hyp 0x80000 256 .running [], 8, 9, 0x70, by simp only [Settled, NothingPosted, InScratch]; decide⟩,
    ⟨wCtxWord .hyp 0x80040 0 .running (wSealDesc 1), 8, 0x40, by simp only [Settled, NothingPosted, InScratch]; decide⟩,
    ⟨wCtxWord .hyp 0x80040 0 .suspended (wSealDesc 1), 8, 0x40, wSealDesc 1 ++ natBytes 8 0x9000 ++ natBytes 8 0x1000, by simp only [Settled, NothingPosted, InScratch]; decide⟩,
    ⟨{ wCtxWord .hyp 0x80040 0 .suspended (wSealDesc 1) with jobs := List.replicate 8 (wJob false .queued 0 0) }, 8, 0x40, wSealDesc 1 ++ natBytes 8 0x9000 ++ natBytes 8 0x1000, by simp only [Settled, NothingPosted, InScratch]; decide⟩,
    ⟨wCtxWord .hyp 0x80040 0 .running (wSealDesc 1), 8, 0x40, by simp only [Settled, NothingPosted, InScratch]; decide⟩,
    ⟨wCtxWord .hyp 0x80040 0 .loading wUnsealDesc, 8, 0x40, 0x3000, by simp only [Settled, NoWindowAt, NothingPosted, InScratch]; decide⟩,
    ⟨{ wCtxWord .hyp 0x80040 0 .loading wUnsealDesc with jobs := List.replicate 8 (wJob false .queued 0 0) }, 8, 0x40, 0x3000, by simp only [Settled, NoWindowAt, NothingPosted, InScratch]; decide⟩⟩

theorem witness_SealJobs :
    (∃ (s : State) (j : Job) (rest : List Job) (id : List Byte) (home : Nat), FirstJob s j rest ∧ j.restore = false ∧
      j.phase = JPhase.queued ∧ BitVec.getLsbD (List.getD j.desc 6 0) 0 = false ∧ (cx s j.ctx).lineage = some (id,
      home)) ∧
    (∃ (s : State) (j : Job) (rest : List Job) (k : Nat), FirstJob s j rest ∧ j.restore = false ∧
      j.phase = JPhase.queued ∧ BitVec.getLsbD (List.getD j.desc 6 0) 0 = true ∧ freeLineage s = some k ∧
      s.lehr.store = true) ∧
    (∃ (s : State) (j : Job) (rest : List Job) (h : List Byte), FirstJob s j rest ∧ j.restore = true ∧
      j.phase = JPhase.queued ∧ imageHeader s j = some h ∧ headerAgrees j h = true) ∧
    (∃ (s : State) (j : Job) (rest : List Job) (k : Nat) (l : Lineage), FirstJob s j rest ∧ s.lineages = [(k, l)] ∧
      l.linid = j.linid ∧ j.home = s.pkg ∧ j.restore = false ∧ j.phase = JPhase.quoted ∧ l.fw = s.lehr.fwMeasure ∧
      l.measure = (cx s j.ctx).measure ∧ l.lease = none ∧ s.lehr.store = true) ∧
    (∃ (s : State) (j : Job) (rest : List Job) (k : Nat) (l : Lineage), FirstJob s j rest ∧ s.lineages = [(k, l)] ∧
      l.linid = j.linid ∧ j.home = s.pkg) ∧
    (∃ (s : State) (j : Job) (rest : List Job) (k : Nat) (l : Lineage), FirstJob s j rest ∧ s.lineages = [(k, l)] ∧
      l.linid = j.linid ∧ j.home = s.pkg) ∧
    (∃ (s : State) (j : Job) (rest : List Job) (k : Nat) (l : Lineage) (v : Nat), FirstJob s j rest ∧
      s.lineages = [(k, l)] ∧ l.linid = j.linid ∧ j.home = s.pkg ∧ j.phase = JPhase.committing ∧ l.lease = some j.id ∧
      l.pendingWrite = some v) ∧
    (∃ (s : State) (j : Job) (rest : List Job) (r : Nat) (k : Nat), FirstJob s j rest ∧ ResultPlace s j r k ∧
      Still s ∧ (cx s j.ctx).destroying = false ∧ j.restore = false ∧ j.home = s.pkg ∧ j.phase = JPhase.done) ∧
    (∃ (s : State) (j : Job) (rest : List Job) (r : Nat) (k : Nat), FirstJob s j rest ∧ ResultPlace s j r k ∧
      Still s ∧ (cx s j.ctx).destroying = false ∧ j.restore = false ∧ j.home ≠ s.pkg ∧ (∀ e ∈ s.lineages,
      e.2.lease ≠ some j.id) ∧ (j.phase = JPhase.asked ∨ j.phase = JPhase.quoted)) ∧
    (∃ (s : State) (j : Job) (rest : List Job) (r : Nat) (k : Nat) (code : Nat), FirstJob s j rest ∧
      ResultPlace s j r k ∧ Still s ∧ (cx s j.ctx).destroying = false ∧ j.restore = false ∧ j.home ≠ s.pkg ∧
      (∀ e ∈ s.lineages, e.2.lease ≠ some j.id) ∧ j.phase = JPhase.quoted ∧ code ∈ [7, 8, 9, 11, 14]) ∧
    (∃ (s : State) (j : Job) (rest : List Job) (r : Nat) (k : Nat), FirstJob s j rest ∧ ResultPlace s j r k ∧
      Still s ∧ (cx s j.ctx).destroying = false ∧ j.restore = false ∧ j.home ≠ s.pkg ∧ (∀ e ∈ s.lineages,
      e.2.lease ≠ some j.id) ∧ j.phase = JPhase.committing) ∧
    (∃ (s : State) (j : Job) (rest : List Job) (nonce : List Byte), FirstJob s j rest ∧ j.phase = JPhase.asked ∧
      List.length nonce = 32) ∧
    (∃ (s : State) (j : Job) (rest : List Job) (r : Nat) (k : Nat), FirstJob s j rest ∧ ResultPlace s j r k ∧
      Still s ∧ (cx s j.ctx).destroying = false ∧ j.restore = true ∧ j.home = s.pkg ∧ j.phase = JPhase.done) :=
  ⟨⟨wSeal (wJob false .queued 0 0) .sealing [], wJob false .queued 0 0, [], natBytes 16 0x1D, 0, by simp only [FirstJob]; decide⟩,
    ⟨wSeal (wJob false .queued 0 1) .sealing [], wJob false .queued 0 1, [], 0, by simp only [FirstJob]; decide⟩,
    ⟨{ wSeal (wJob true .queued 3 2) .restoring [] with mem := mputs [] 0x10000 (natBytes 8 (1 + 256 * 2 ^ 32) ++ natBytes 248 0) }, wJob true .queued 3 2, [], natBytes 8 (1 + 256 * 2 ^ 32) ++ natBytes 248 0, by simp only [FirstJob]; decide⟩,
    ⟨wSeal (wJob false .quoted 0 1) .sealing [(2, wLineage none none)], wJob false .quoted 0 1, [], 2, wLineage none none, by simp only [FirstJob]; decide⟩,
    ⟨wSeal (wJob false .leased 0 1) .sealing [(2, wLineage (some 4) none)], wJob false .leased 0 1, [], 2, wLineage (some 4) none, by simp only [FirstJob]; decide⟩,
    ⟨wSeal (wJob false .committing 0 1) .sealing [(2, wLineage (some 4) none)], wJob false .committing 0 1, [], 2, wLineage (some 4) none, by simp only [FirstJob]; decide⟩,
    ⟨wSeal (wJob false .committing 0 1) .sealing [(2, wLineage (some 4) (some 6))], wJob false .committing 0 1, [], 2, wLineage (some 4) (some 6), 6, by simp only [FirstJob]; decide⟩,
    ⟨wSeal (wJob false .done 0 2) .sealing [], wJob false .done 0 2, [], 0x3040, 0x3000, by simp only [NoCopies, Still, ResultPlace, CalmCounters, FirstJob]; decide⟩,
    ⟨wSeal (wJob false .quoted 3 2) .sealing [], wJob false .quoted 3 2, [], 0x3040, 0x3000, by simp only [NoCopies, Still, ResultPlace, CalmCounters, FirstJob]; decide⟩,
    ⟨wSeal (wJob false .quoted 3 2) .sealing [], wJob false .quoted 3 2, [], 0x3040, 0x3000, 14, by simp only [NoCopies, Still, ResultPlace, CalmCounters, FirstJob]; decide⟩,
    ⟨wSeal (wJob false .committing 3 2) .sealing [], wJob false .committing 3 2, [], 0x3040, 0x3000, by simp only [NoCopies, Still, ResultPlace, CalmCounters, FirstJob]; decide⟩,
    ⟨wSeal (wJob false .asked 3 2) .sealing [], wJob false .asked 3 2, [], natBytes 32 7, by simp only [FirstJob]; decide⟩,
    ⟨wSeal (wJob true .done 0 2) .restoring [], wJob true .done 0 2, [], 0x3040, 0x3000, by simp only [NoCopies, Still, ResultPlace, CalmCounters, FirstJob]; decide⟩⟩

theorem witness_RegisterWriteEvents :
    (∃ (s : State) (val : Word), (me s).state = SlotState.ready ∧ (me s).priv ≠ Priv.user ∧
      BitVec.toNat val % 16 ≤ 8 ∧ s.halos = [] ∧ Memory.wf s.spads = true ∧ (co s (s.cur / 16)).ch.state ≠ 2 ∧
      ∀ e ∈ s.cores, e.2.ch.state ≠ 2) ∧
    (∃ (s : State) (val : Word), (me s).state = SlotState.ready ∧ (me s).priv ≠ Priv.user ∧ (me s).v.queue = [] ∧
      s.kernels = [] ∧ Memory.wf s.vregs = true ∧ BitVec.toNat val % 64 ≤ 32 ∧
      List.sum (List.map (fun i => (th s (s.cur / 16 * 16 + i)).v.rows) (List.range 16)) ≤ 32 ∧
      BitVec.toNat val % 64 + List.sum (List.map (fun i => (th s (s.cur / 16 * 16 + i)).v.rows) (List.range 16)) ≤ 32 + (me s).v.rows) ∧
    (∃ (s : State) (val : Word), (me s).state = SlotState.ready ∧ (me s).priv ≠ Priv.user ∧ (me s).v.queue = [] ∧
      s.kernels = [] ∧ Memory.wf s.vregs = true ∧ BitVec.toNat val % 64 ≤ 32 ∧
      List.sum (List.map (fun i => (th s (s.cur / 16 * 16 + i)).v.rows) (List.range 16)) ≤ 32 ∧
      32 + (me s).v.rows < BitVec.toNat val % 64 + List.sum (List.map (fun i => (th s (s.cur / 16 * 16 + i)).v.rows) (List.range 16))) ∧
    (∃ (s : State) (val : Word), (me s).state = SlotState.ready ∧ (me s).priv ≠ Priv.user ∧
      BitVec.toNat val % 16 < 12 ∧ BitVec.toNat val % 16 ≠ 7) ∧
    (∃ (s : State), (me s).state = SlotState.ready ∧ (me s).priv ≠ Priv.user ∧ (me s).v.queue = []) ∧
    (∃ (s : State) (val : Word), (me s).state = SlotState.ready ∧ (me s).priv ≠ Priv.user ∧ BitVec.toNat val % 4 ≠ 0 ∧
      (co s (s.cur / 16)).town.hv = false ∧ (co s (s.cur / 16)).tq = []) ∧
    (∃ (s : State) (val : Word) (x : Nat × Prop × TileCfg), (me s).state = SlotState.ready ∧ (me s).priv ≠ Priv.user ∧
      TileOpen s ∧ (co s (s.cur / 16)).tq = [] ∧ (co s (s.cur / 16)).town.hv = false ∧ x ∈ [(384,
      BitVec.toNat val % 2 ^ 13 ≠ 0 ∧ BitVec.toNat val % 2 ^ 13 ≤ 128,
      { tm := BitVec.toNat val % 2 ^ 13, tn := (co s (s.cur / 16)).cfg.tn, tk := (co s (s.cur / 16)).cfg.tk, tsa := (co s (s.cur / 16)).cfg.tsa, tsb := (co s (s.cur / 16)).cfg.tsb, tsca := (co s (s.cur / 16)).cfg.tsca, tscb := (co s (s.cur / 16)).cfg.tscb, tcc := (co s (s.cur / 16)).cfg.tcc }),
      (385, BitVec.toNat val % 2 ^ 13 ≠ 0 ∧ BitVec.toNat val % 2 ^ 13 ≤ 64,
      { tm := (co s (s.cur / 16)).cfg.tm, tn := BitVec.toNat val % 2 ^ 13, tk := (co s (s.cur / 16)).cfg.tk, tsa := (co s (s.cur / 16)).cfg.tsa, tsb := (co s (s.cur / 16)).cfg.tsb, tsca := (co s (s.cur / 16)).cfg.tsca, tscb := (co s (s.cur / 16)).cfg.tscb, tcc := (co s (s.cur / 16)).cfg.tcc }),
      (386, BitVec.toNat val % 2 ^ 13 ≠ 0 ∧ BitVec.toNat val % 2 ^ 13 ≤ 4096,
      { tm := (co s (s.cur / 16)).cfg.tm, tn := (co s (s.cur / 16)).cfg.tn, tk := BitVec.toNat val % 2 ^ 13, tsa := (co s (s.cur / 16)).cfg.tsa, tsb := (co s (s.cur / 16)).cfg.tsb, tsca := (co s (s.cur / 16)).cfg.tsca, tscb := (co s (s.cur / 16)).cfg.tscb, tcc := (co s (s.cur / 16)).cfg.tcc }),
      (387, True,
      { tm := (co s (s.cur / 16)).cfg.tm, tn := (co s (s.cur / 16)).cfg.tn, tk := (co s (s.cur / 16)).cfg.tk, tsa := BitVec.toNat val % 2 ^ 19 / 4 * 4, tsb := (co s (s.cur / 16)).cfg.tsb, tsca := (co s (s.cur / 16)).cfg.tsca, tscb := (co s (s.cur / 16)).cfg.tscb, tcc := (co s (s.cur / 16)).cfg.tcc }),
      (388, True,
      { tm := (co s (s.cur / 16)).cfg.tm, tn := (co s (s.cur / 16)).cfg.tn, tk := (co s (s.cur / 16)).cfg.tk, tsa := (co s (s.cur / 16)).cfg.tsa, tsb := BitVec.toNat val % 2 ^ 19 / 4 * 4, tsca := (co s (s.cur / 16)).cfg.tsca, tscb := (co s (s.cur / 16)).cfg.tscb, tcc := (co s (s.cur / 16)).cfg.tcc }),
      (389, True,
      { tm := (co s (s.cur / 16)).cfg.tm, tn := (co s (s.cur / 16)).cfg.tn, tk := (co s (s.cur / 16)).cfg.tk, tsa := (co s (s.cur / 16)).cfg.tsa, tsb := (co s (s.cur / 16)).cfg.tsb, tsca := BitVec.toNat val % 2 ^ 19 / 4 * 4, tscb := (co s (s.cur / 16)).cfg.tscb, tcc := (co s (s.cur / 16)).cfg.tcc }),
      (390, True,
      { tm := (co s (s.cur / 16)).cfg.tm, tn := (co s (s.cur / 16)).cfg.tn, tk := (co s (s.cur / 16)).cfg.tk, tsa := (co s (s.cur / 16)).cfg.tsa, tsb := (co s (s.cur / 16)).cfg.tsb, tsca := (co s (s.cur / 16)).cfg.tsca, tscb := BitVec.toNat val % 2 ^ 19 / 4 * 4, tcc := (co s (s.cur / 16)).cfg.tcc }),
      (391, BitVec.toNat val % 8 ≠ 7,
      { tm := (co s (s.cur / 16)).cfg.tm, tn := (co s (s.cur / 16)).cfg.tn, tk := (co s (s.cur / 16)).cfg.tk, tsa := (co s (s.cur / 16)).cfg.tsa, tsb := (co s (s.cur / 16)).cfg.tsb, tsca := (co s (s.cur / 16)).cfg.tsca, tscb := (co s (s.cur / 16)).cfg.tscb, tcc := val })] ∧
      x.2.1) ∧
    (∃ (s : State), (me s).state = SlotState.ready ∧ (me s).priv ≠ Priv.user ∧ (co s (s.cur / 16)).ch.fault = none ∧
      (co s (s.cur / 16)).tfault = none) ∧
    (∃ (s : State) (val : Word), (me s).state = SlotState.ready ∧ (me s).priv ≠ Priv.user ∧
      BitVec.toNat val / 16 % 8 ≠ 7 ∧ BitVec.getLsbD val 0 = true ∧
      ((th s (s.cur / 16 * 16 + 15)).state = SlotState.free ∨ (th s (s.cur / 16 * 16 + 15)).state = SlotState.stopped)) ∧
    (∃ (s : State) (val : Word), (me s).state = SlotState.ready ∧ (me s).priv ≠ Priv.user ∧
      BitVec.toNat val / 16 % 8 ≠ 7 ∧ BitVec.getLsbD val 0 = false ∧ (co s (s.cur / 16)).ch.state ≠ 2) :=
  ⟨⟨wSreg, 8, by decide⟩, ⟨wSreg, 32, by decide⟩,
    ⟨{ wSreg with threads := wSreg.threads ++ [(1, { wT with v := { rows := 3 } })] }, 30, by decide⟩,
    ⟨wSreg, 11, by decide⟩, ⟨wSreg, by decide⟩, ⟨wSreg, 1, by decide⟩,
    ⟨wSreg, 128, (0x180, (128 : Word).toNat % 2 ^ 13 ≠ 0 ∧ (128 : Word).toNat % 2 ^ 13 ≤ 128, { (co wSreg 0).cfg with tm := 128 }), by simp only [TileOpen]; and_intros <;> first | exact List.mem_cons_self | decide⟩,
    ⟨wSreg, by decide⟩, ⟨wSreg, 0x61, by decide⟩, ⟨wSreg, 0x60, by decide⟩⟩

theorem witness_HostWindows :
    (∃ (s : State) (vf : Nat) (ent : Nat) (n : Nat) (val : Word) (l : Loc), vf < 128 ∧ ent < 512 ∧ BoundVf s vf n ∧
      TableValue s (cx s n).part val l) ∧
    (∃ (s : State) (vf : Nat) (ent : Nat) (n : Nat) (val : Word) (c : Nat) (e : Nat), vf < 128 ∧ ent < 512 ∧
      BoundVf s vf n ∧ BitVec.toNat val = 2 ^ 63 + 2 ^ 62 + c * 256 + e ∧ c < 1024 ∧ e < 256 ∧
      partOfCore s c ≠ (cx s n).part) ∧
    (∃ (s : State) (vf : Nat) (ent : Nat), vf < 128 ∧ ent < 512 ∧
      BitVec.getLsbD (tget (vfn s vf).table ent 0) 62 = false) ∧
    (∃ (s : State) (vf : Nat) (ent : Nat) (n : Nat) (val : Word) (l : Loc), vf < 128 ∧ ent < 512 ∧ BoundVf s vf n ∧
      TableValue s (cx s n).part (tget (vfn s vf).table ent 0) l ∧ CalmCounters s ∧ Memory.wf s.mem = true ∧
      BitVec.toNat val < 2 ^ 62) ∧
    (∃ (s : State) (vf : Nat) (ent : Nat) (n : Nat) (val : Word) (l : Loc), vf < 128 ∧ ent < 512 ∧ BoundVf s vf n ∧
      TableValue s (cx s n).part (tget (vfn s vf).table ent 0) l ∧ CalmCounters s ∧ Memory.wf s.mem = true ∧
      2 ^ 62 ≤ BitVec.toNat val) ∧
    (∃ (s : State) (vf : Nat) (ent : Nat) (n : Nat) (val : Word) (l : Loc), vf < 128 ∧ ent < 512 ∧ BoundVf s vf n ∧
      TableValue s (cx s n).part (tget (vfn s vf).table ent 0) l ∧ CalmCounters s ∧ Memory.wf s.mem = true ∧
      BitVec.msb (counterAt s l - val) = false) ∧
    (∃ (s : State) (vf : Nat) (ent : Nat) (n : Nat) (val : Word) (l : Loc), vf < 128 ∧ ent < 512 ∧ BoundVf s vf n ∧
      TableValue s (cx s n).part (tget (vfn s vf).table ent 0) l ∧ CalmCounters s ∧ Memory.wf s.mem = true ∧
      BitVec.msb (counterAt s l - val) = true ∧ tableFull s l = false) ∧
    (∃ (s : State) (vf : Nat) (ent : Nat), vf < 128 ∧ ent < 512 ∧ UnboundVf s vf) ∧
    (∃ (s : State) (vf : Nat) (ent : Nat) (n : Nat), vf < 128 ∧ ent < 512 ∧ BoundVf s vf n) ∧
    (∃ (vf : Nat) (ent : Nat) (val : Word), vf < 128 ∧ ent < 512 ∧
      (BitVec.toNat val % 16 = 0 ∨ 4 ≤ BitVec.toNat val % 16 ∧ BitVec.toNat val % 16 ≤ 12)) ∧
    (∃ (vf : Nat) (ent : Nat) (val : Word) (fn : Nat), vf < 128 ∧ ent < 512 ∧ fn < 2 ∧ 500 ≤ BitVec.toNat val % 4096 ∧
      BitVec.toNat val % 4096 ≤ 3000) ∧
    (∃ (s : State) (vf : Nat) (ent : Nat), vf < 128 ∧ ent < 512 ∧
      BitVec.getLsbD (tget (vfn s vf).table ent 0) 62 = false) ∧
    (∃ (vf : Nat) (ent : Nat) (val : Word), vf < 128 ∧ ent < 512 ∧
      (BitVec.toNat val % 16 = 0 ∨ 4 ≤ BitVec.toNat val % 16 ∧ BitVec.toNat val % 16 ≤ 12)) ∧
    (∃ (vf : Nat) (ent : Nat) (val : Word) (fn : Nat), vf < 128 ∧ ent < 512 ∧
      (BitVec.toNat val % 16 = 0 ∨ 4 ≤ BitVec.toNat val % 16 ∧ BitVec.toNat val % 16 ≤ 12) ∧ fn < 2) ∧
    (∃ (s : State) (vf : Nat) (ent : Nat) (fn : Nat) (p : Nat) (c : Nat), vf < 128 ∧ ent < 512 ∧ fn < 2 ∧ p < 24 ∧
      (portOf s p).state = List.getD [LState.down, LState.training, LState.up, LState.degraded, LState.retraining,
      LState.failed, LState.fenced] c LState.down ∧ c < 7) ∧
    (∃ (vf : Nat) (ent : Nat) (fn : Nat) (p : Nat), vf < 128 ∧ ent < 512 ∧ fn < 2 ∧ p < 2) ∧
    (∃ (s : State) (vf : Nat) (ent : Nat) (n : Nat) (l : Loc), vf < 128 ∧ ent < 512 ∧ BoundVf s vf n ∧
      TableValue s (cx s n).part (tget (vfn s vf).table ent 0) l ∧ CalmCounters s) ∧
    (∃ (s : State) (vf : Nat) (ent : Nat), vf < 128 ∧ ent < 512 ∧ tget (vfn s vf).arms ent 0 = 1) ∧
    (∃ (s : State) (vf : Nat) (ent : Nat), vf < 128 ∧ ent < 512 ∧ tget (vfn s vf).arms ent 0 = 2) ∧
    (∃ (s : State) (vf : Nat) (ent : Nat), vf < 128 ∧ ent < 512 ∧ tget (vfn s vf).arms ent 0 = 0) ∧
    (∃ (vf : Nat) (ent : Nat) (i : Nat), vf < 128 ∧ ent < 512 ∧ i < 4) ∧
    (∃ (vf : Nat) (ent : Nat) (data : List Byte), vf < 128 ∧ ent < 512 ∧ List.length data < 8) :=
  ⟨⟨wVf true 0, 2, 9, 1, BitVec.ofNat 64 (2 ^ 62 + 0x2000), .mem 0x2000, by simp only [BoundVf, TableValue]; and_intros <;> first | decide | exact .inr ⟨0x2000, by decide⟩⟩,
    ⟨{ wVf true 0 with parts := { bench := [(127, 1)] } }, 2, 9, 1, BitVec.ofNat 64 (2 ^ 63 + 2 ^ 62 + 1023 * 256 + 255), 1023, 255, by simp only [BoundVf]; decide⟩,
    ⟨wVf true 0, 2, 511, by decide⟩,
    ⟨wVf true (BitVec.ofNat 64 (2 ^ 63 + 2 ^ 62 + 1)), 2, 9, 1, 5, .near 0 1, by simp only [BoundVf, CalmCounters, TableValue]; and_intros <;> first | decide | exact .inl ⟨0, 1, by decide⟩⟩,
    ⟨wVf true (BitVec.ofNat 64 (2 ^ 63 + 2 ^ 62 + 1)), 2, 9, 1, BitVec.ofNat 64 (2 ^ 62), .near 0 1, by simp only [BoundVf, CalmCounters, TableValue]; and_intros <;> first | decide | exact .inl ⟨0, 1, by decide⟩⟩,
    ⟨wVf true (BitVec.ofNat 64 (2 ^ 63 + 2 ^ 62 + 1)), 2, 9, 1, 100, .near 0 1, by simp only [BoundVf, CalmCounters, TableValue]; and_intros <;> first | decide | exact .inl ⟨0, 1, by decide⟩⟩,
    ⟨wVf true (BitVec.ofNat 64 (2 ^ 63 + 2 ^ 62 + 1)), 2, 9, 1, 101, .near 0 1, by simp only [BoundVf, CalmCounters, TableValue]; and_intros <;> first | decide | exact .inl ⟨0, 1, by decide⟩⟩,
    ⟨wVf false 0, 127, 9, by simp only [UnboundVf]; decide⟩, ⟨wVf true 0, 2, 9, 1, by simp only [BoundVf]; decide⟩,
    ⟨2, 9, 12, by decide⟩, ⟨2, 9, 500, 1, by decide⟩, ⟨wVf true 0, 2, 9, by decide⟩, ⟨2, 9, 12, by decide⟩,
    ⟨2, 9, 12, 1, by and_intros <;> first | exact .inr (by decide) | decide⟩,
    ⟨{ wVf true 0 with ports := [(5, { state := .degraded })] }, 2, 9, 1, 5, 3, by decide⟩, ⟨2, 9, 1, 1, by decide⟩,
    ⟨wVf true (BitVec.ofNat 64 (2 ^ 63 + 2 ^ 62 + 1)), 2, 9, 1, .near 0 1, by simp only [BoundVf, CalmCounters, TableValue]; and_intros <;> first | decide | exact .inl ⟨0, 1, by decide⟩⟩,
    ⟨{ wVf true 0 with vfs := [(2, { arms := [(9, 1)] })] }, 2, 9, by decide⟩,
    ⟨{ wVf true 0 with vfs := [(2, { arms := [(9, 2)] })] }, 2, 9, by decide⟩, ⟨wVf true 0, 2, 9, by decide⟩,
    ⟨2, 9, 3, by decide⟩, ⟨2, 9, natBytes 4 5, by decide⟩⟩

theorem witness_Links :
    (∃ (s : State) (port : Nat) (l : Nat × LState), port < 24 ∧ s.stuck = [] ∧ s.waiters = [] ∧ s.arms = [] ∧ l ∈ [(8,
      LState.up), (4, LState.degraded)] ∧
      ((portOf s port).state = LState.training ∨ (portOf s port).state = LState.retraining)) ∧
    (∃ (s : State) (port : Nat), port < 24 ∧ s.stuck = [] ∧ s.waiters = [] ∧ s.arms = [] ∧
      ((portOf s port).state = LState.training ∨ (portOf s port).state = LState.retraining)) ∧
    (∃ (s : State) (port : Nat), port < 24 ∧ s.stuck = [] ∧ s.waiters = [] ∧ s.arms = [] ∧ Carries (portOf s port)) ∧
    (∃ (s : State) (k : Stuck), s.stuck = [k] ∧ (∀ p < 24, (portOf s p).state ≠ LState.retraining) ∧ k.kind ≠ 5 ∧
      k.kind ≠ 7) ∧
    (∃ (s : State) (k : Stuck) (p : Nat), s.stuck = [k] ∧ p < 24 ∧ (portOf s p).state = LState.retraining ∧
      (k.pkg = 256 ∨ Nat.testBit (tget s.routes k.pkg 0) p = true)) ∧
    (∃ (s : State) (src : Nat) (spart : Nat) (pa : Nat) (data : List Byte),
      (granule s (pa % 2 ^ 40 / 2 ^ 30)).part < 24 ∧
      Nat.testBit (tget s.domains ((granule s (pa % 2 ^ 40 / 2 ^ 30)).part * 256 + src) 0) spart = true ∧
      CalmCounters s ∧ Memory.wf s.mem = true ∧ pa % 2 ^ 40 + max 8 (List.length data) ≤ 2 ^ 40) ∧
    (∃ (s : State) (src : Nat) (spart : Nat) (pa : Nat),
      Nat.testBit (tget s.domains ((granule s (pa % 2 ^ 40 / 2 ^ 30)).part * 256 + src) 0) spart = false) ∧
    (∃ (s : State) (k : Stuck), s.stuck = [k] ∧ (∀ p < 24, (portOf s p).state ≠ LState.retraining) ∧ k.kind = 5 ∧
      s.arms = []) ∧
    (∃ (s : State) (src : Nat) (spart : Nat) (pa : Nat) (data : List Byte),
      (granule s (pa % 2 ^ 40 / 2 ^ 30)).part < 24 ∧
      Nat.testBit (tget s.domains ((granule s (pa % 2 ^ 40 / 2 ^ 30)).part * 256 + src) 0) spart = true ∧
      CalmCounters s ∧ Memory.wf s.mem = true ∧ pa % 2 ^ 40 + max 8 (List.length data) ≤ 2 ^ 40 ∧
      BitVec.msb (BitVec.ofNat 64 (mrd s.mem (pa % 2 ^ 40) 8) - BitVec.ofNat 64 (field data 0 8)) = false) ∧
    (∃ (s : State) (src : Nat) (spart : Nat) (pa : Nat), (granule s (pa % 2 ^ 40 / 2 ^ 30)).part < 24 ∧
      Nat.testBit (tget s.domains ((granule s (pa % 2 ^ 40 / 2 ^ 30)).part * 256 + src) 0) spart = true ∧
      homeGone s (Loc.mem (pa % 2 ^ 40)) = true) ∧
    (∃ (s : State) (src : Nat) (spart : Nat) (kind : Nat) (pa : Nat) (data : List Byte),
      (granule s (pa % 2 ^ 40 / 2 ^ 30)).part < 24 ∧
      Nat.testBit (tget s.domains ((granule s (pa % 2 ^ 40 / 2 ^ 30)).part * 256 + src) 0) spart = true ∧ kind ≠ 1 ∧
      homeGone s (Loc.mem (pa % 2 ^ 40)) = false ∧ s.halos = [] ∧
      poisoned s (Loc.mem (pa % 2 ^ 40)) (if kind = 0 then List.length data else 8) = true) ∧
    (∃ (s : State) (k : Stuck) (line : Nat) (x : PeerLine), s.stuck = [k] ∧ (∀ p < 24,
      (portOf s p).state ≠ LState.retraining) ∧ k.kind = 7 ∧ BitVec.toNat k.addr = line ∧ s.peerLines = [(line, x)] ∧
      x.dirty = true ∧ x.ctxs = [] ∧ homeReach s (Loc.mem (line * 128)) = false) :=
  ⟨⟨{ wS wT with ports := [(3, { state := .training })] }, 3, (4, .degraded), by and_intros <;> first | exact .tail _ (.head _) | exact .inl (by decide) | decide⟩,
    ⟨{ wS wT with ports := [(3, { state := .retraining, attempts := 2 })] }, 3, by and_intros <;> first | exact .inr (by decide) | decide⟩,
    ⟨{ wS wT with ports := [(3, { state := .degraded })] }, 3, by simp only [Carries]; and_intros <;> first | exact .inr (by decide) | decide⟩,
    ⟨{ wS wT with stuck := [{ tid := 0, kind := 1, addr := 5, seq := 0 }] }, { tid := 0, kind := 1, addr := 5, seq := 0 }, by decide⟩,
    ⟨{ wS wT with stuck := [{ tid := 0, kind := 5, addr := 5, seq := 0 }], ports := [(3, { state := .retraining })] }, { tid := 0, kind := 5, addr := 5, seq := 0 }, 3, by and_intros <;> first | decide | exact .inl (by decide)⟩,
    ⟨{ wS wT with domains := [(1, 4)] }, 1, 2, 0x2000, natBytes 8 5, by simp only [CalmCounters]; decide⟩,
    ⟨{ wS wT with domains := [(1, 4)] }, 1, 3, 0x2000, by decide⟩,
    ⟨{ wS wT with stuck := [{ tid := 0, kind := 5, addr := 5, seq := 0 }] }, { tid := 0, kind := 5, addr := 5, seq := 0 }, by decide⟩,
    ⟨{ wS wT with domains := [(1, 4)] }, 1, 2, 0x2000, natBytes 8 9, by simp only [CalmCounters]; decide⟩,
    ⟨{ wS wT with domains := [(1, 4)], lehr := { withdrawn := List.range 128 }, parts := { granule := [(0, { mode := 3 })] } }, 1, 2, 0x2000, by decide⟩,
    ⟨{ wS wT with domains := [(1, 4)], poison := [.mem 0x2000] }, 1, 2, 0, 0x2000, natBytes 8 5, by decide⟩,
    ⟨{ wPeer with routes := [], stuck := [{ tid := 0, kind := 7, addr := BitVec.ofNat 64 ((2 ^ 48 + 2 ^ 40) / 128), seq := 0 }], peerLines := [((2 ^ 48 + 2 ^ 40) / 128, { wLine with ctxs := [] })] }, { tid := 0, kind := 7, addr := BitVec.ofNat 64 ((2 ^ 48 + 2 ^ 40) / 128), seq := 0 }, (2 ^ 48 + 2 ^ 40) / 128, { wLine with ctxs := [] }, by decide⟩⟩

theorem witness_Links_signed1 :
    (∃ (s : State) (port : Nat) (m : List Byte), port < 24 ∧ SignedBy s m ∧ List.length m = 74 ∧ field m 8 1 = port ∧
      field m 9 1 = 0 ∧ (portOf s port).state = LState.down) ∧
    (∃ (s : State) (port : Nat) (m : List Byte), port < 24 ∧ SignedBy s m ∧ List.length m = 74 ∧ field m 8 1 = port ∧
      field m 9 1 = 1 ∧ (portOf s port).state ≠ LState.fenced ∧ s.stuck = [] ∧ s.waiters = [] ∧ s.arms = []) ∧
    (∃ (s : State) (port : Nat) (m : List Byte) (i : Instr × Nat), port < 24 ∧ SignedBy s m ∧ List.length m = 74 ∧
      field m 8 1 = port ∧ i ∈ [(Instr.portUnfence m, 2), (Instr.portReset m, 3)] ∧ field m 9 1 = i.2 ∧
      ((portOf s port).state = LState.failed ∨ (portOf s port).state = LState.fenced)) :=
  ⟨⟨{ wKeyed (some (wKey 0xa6768eb90b7636990c596bffbc83599d30af3d41b6bdca8e5b0b2a14b3f42b0673683131c67759a5128993ee9568875e9422b2c273fe8f1f2494365d9d15adfe)) with ports := [(23, { state := .down })] }, 23, (wMsg 0x24 ([23, 0]) (wSig 0xa57d17a9ca225a8caf8fb4ad178815ba11d63d6dfb5665e8b23c9d32dbbfa3b3)), by simp only [SignedBy]; and_intros <;> first | decide | exact ⟨_, rfl, by decide⟩⟩,
    ⟨{ wKeyed (some (wKey 0xc6f0e9dc59c175173325c8a6a23f492d45a93136aacbe669b6b9aa10b931812b08ffd9b2bb5e21b3078e7d1b730207b84516ebd6fc6636f75d1395853505ac5f)) with ports := [(3, { state := .up })] }, 3, (wMsg 0x24 ([3, 1]) (wSig 0x6feabf96e25c7a9e8d7beadde306f72709277d3727d3938b6d09f75ddc319041)), by simp only [SignedBy]; and_intros <;> first | decide | exact ⟨_, rfl, by decide⟩⟩,
    ⟨{ wKeyed (some (wKey 0xfd3e41ef59778c8b687568f91973ad917e9bfb56365fd9b98b3f42463e63984051ec22c8180bce7b53ad6416e783c57694436ae5243ac75a8bd1bfeeec5664c8)) with ports := [(3, { state := .fenced })] }, 3, (wMsg 0x24 ([3, 2]) (wSig 0xfee6c66315ea23a099d4e63107ad23b260c550d6e5fd8e32ca1f1c579f33823b)), (.portUnfence (wMsg 0x24 ([3, 2]) (wSig 0xfee6c66315ea23a099d4e63107ad23b260c550d6e5fd8e32ca1f1c579f33823b)), 2), by simp only [SignedBy]; and_intros <;> first | decide | exact ⟨_, rfl, by decide⟩ | exact .head _ | exact .inr (by decide)⟩⟩

theorem witness_Links_signed2 :
    ∃ (s : State) (port : Nat) (m : List Byte) (i : Instr × Nat × List LState), port < 24 ∧ SignedBy s m ∧
      List.length m = 74 ∧ field m 8 1 = port ∧ i ∈ [(Instr.portEnable m, 0, [LState.down]), (Instr.portFence m, 1,
      [LState.down, LState.training, LState.up, LState.degraded, LState.retraining, LState.failed]),
      (Instr.portUnfence m, 2, [LState.failed, LState.fenced]), (Instr.portReset m, 3, [LState.failed,
      LState.fenced])] ∧ field m 9 1 = i.2.1 ∧ (portOf s port).state ∉ i.2.2 :=
  ⟨{ wKeyed (some (wKey 0x212819d94ed3baf3a7b21cc4893f25d4cddaf2baf454337b3f456868e861808e99a3c6ac9726d8b0cbed62c6560969722ee8e840571b865938e22a3c9e24df08)) with ports := [(3, { state := .up })] }, 3, (wMsg 0x24 ([3, 3]) (wSig 0xdb9f0dbf67a771e29f3636413379c2a3219d7997818126661b09c6c59b2891da)), (.portReset (wMsg 0x24 ([3, 3]) (wSig 0xdb9f0dbf67a771e29f3636413379c2a3219d7997818126661b09c6c59b2891da)), 3, [.failed, .fenced]), by simp only [SignedBy]; and_intros <;> first | decide | exact ⟨_, rfl, by decide⟩ | exact .tail _ (.tail _ (.tail _ (.head _)))⟩

theorem witness_ResetsAndSensors :
    (∃ (s : State) (watts : Nat), (s.waiters = [] ∧ s.arms = [] ∧ s.poison = [] ∧ s.hostLines = [] ∧
      Memory.wf s.mem = true) ∧ s.lehr.rdy = true ∧ s.lehr.lpcap < watts) ∧
    (∃ (s : State) (watts : Nat), s.lehr.rdy = true ∧ watts * 20 ≤ s.lehr.lpcap * 19 ∧ s.lehr.hotBench = false) ∧
    (∃ (s : State) (watts : Nat), s.lehr.rdy = true ∧ watts ≤ s.lehr.lpcap ∧
      (s.lehr.lpcap * 19 < watts * 20 ∨ s.lehr.hotBench = true)) ∧
    (∃ (bt : Nat) (st : Nat), bt < 105 ∧ st < 95) ∧
    (∃ (s : State) (bench : Nat) (bt : Nat) (st : Nat), (s.waiters = [] ∧ s.arms = [] ∧ s.poison = [] ∧
      s.hostLines = [] ∧ Memory.wf s.mem = true) ∧ bench < 128 ∧ 105 ≤ bt ∧ bt < 115 ∧ st < 105 ∧
      NoContexts s (partOfBench s bench)) ∧
    (∃ (s : State) (bt : Nat) (stack : Nat) (st : Nat), (s.waiters = [] ∧ s.arms = [] ∧ s.poison = [] ∧
      s.hostLines = [] ∧ Memory.wf s.mem = true) ∧ stack < 16 ∧ bt < 105 ∧ 95 ≤ st ∧ st < 105) ∧
    (∃ (s : State) (bench : Nat) (bt : Nat) (st : Nat), (s.waiters = [] ∧ s.arms = [] ∧ s.poison = [] ∧
      s.hostLines = [] ∧ Memory.wf s.mem = true) ∧ List.Nodup (List.map (fun x => x.1) s.ctxs) ∧
      (115 ≤ bt ∨ 105 ≤ st) ∧ BitVec.toNat s.lehr.levb % 16 = 0 ∧ NoContexts s (partOfBench s bench)) ∧
    (∃ (n : Nat), n < 128) ∧
    (∃ (s : State), s.waiters = [] ∧ s.arms = [] ∧ s.poison = [] ∧ s.hostLines = [] ∧ Memory.wf s.mem = true) ∧
    (∃ (s : State), (s.waiters = [] ∧ s.arms = [] ∧ s.poison = [] ∧ s.hostLines = [] ∧ Memory.wf s.mem = true) ∧
      BitVec.toNat s.lehr.levb % 16 = 0) ∧
    (∃ (s : State), Memory.wf s.mem = true ∧ List.Nodup (List.map (fun x => x.1) s.ctxs)) ∧
    (∃ (s : State), s.lehr.rdy = false) ∧
    (∃ (s : State), (s.waiters = [] ∧ s.arms = [] ∧ s.poison = [] ∧ s.hostLines = [] ∧ Memory.wf s.mem = true) ∧
      s.parts.req = none ∧ s.jobs = []) ∧
    (∃ (s : State) (n : Nat), (s.waiters = [] ∧ s.arms = [] ∧ s.poison = [] ∧ s.hostLines = [] ∧
      Memory.wf s.mem = true) ∧ BitVec.toNat s.lehr.levb % 16 = 0 ∧ n < 1024 ∧ s.lehr.withdrawn = [] ∧
      NoContexts s (partOfCore s n) ∧ (∀ e ∈ s.threads, benchOf (e.1 / 16) = benchOf n → e.2.state = SlotState.free) ∧
      ∀ c < 1024, benchOf c = benchOf n → (co s c).tq = []) ∧
    (∃ (s : State), s.lehr.rdy = false) ∧
    (∃ (s : State) (n : Nat), n < 128 ∧ (s.waiters = [] ∧ s.arms = [] ∧ s.poison = [] ∧ s.hostLines = [] ∧
      Memory.wf s.mem = true) ∧ NoContexts s (partOfBench s n) ∧ ∀ c < 1024, benchOf c = n → (co s c).tq = [] ∧
      (co s c).ch.state ≠ 2 ∧ ∀ i < 16, (th s (c * 16 + i)).state ≠ SlotState.ready) ∧
    (∃ (s : State) (n : Nat) (c : Nat), n < 128 ∧ c < 1024 ∧ benchOf c = n ∧
      ((co s c).tq ≠ [] ∨ (co s c).ch.state = 2 ∨ ∃ i < 16, (th s (c * 16 + i)).state = SlotState.ready)) ∧
    (∃ (s : State) (a : Nat), (s.waiters = [] ∧ s.arms = [] ∧ s.poison = [] ∧ s.hostLines = [] ∧
      Memory.wf s.mem = true) ∧ a < 24) ∧
    (∃ (s : State) (n : Nat), (s.waiters = [] ∧ s.arms = [] ∧ s.poison = [] ∧ s.hostLines = [] ∧
      Memory.wf s.mem = true) ∧ n < 128 ∧ NoContexts s (partOfBench s n)) ∧
    (∃ (s : State) (a : Nat), (s.waiters = [] ∧ s.arms = [] ∧ s.poison = [] ∧ s.hostLines = [] ∧
      Memory.wf s.mem = true) ∧ BitVec.toNat s.lehr.levb % 16 = 0 ∧ a < 2 ^ 40 ∧
      NoContexts s (granule s (a / 2 ^ 30)).part) ∧
    (∃ (s : State) (a : Nat), (s.waiters = [] ∧ s.arms = [] ∧ s.poison = [] ∧ s.hostLines = [] ∧
      Memory.wf s.mem = true) ∧ BitVec.toNat s.lehr.levb % 16 = 0 ∧ a < 2 ^ 18 ∧
      NoContexts s (partOfCore s (a / 256))) ∧
    (∃ (s : State), Memory.wf s.mem = true ∧ List.Nodup (List.map (fun x => x.1) s.ctxs) ∧ s.lehr.trained = true ∧
      (s.lehr.fwBad = false ∨ s.lehr.next ≠ none)) ∧
    (∃ (s : State), s.lehr.rdy = false ∧ s.lehr.fwBad = true ∧ s.lehr.next = none) ∧
    (∃ (s : State), s.lehr.rdy = false ∧ (s.lehr.fwBad = false ∨ s.lehr.next ≠ none) ∧ s.lehr.trained = true) ∧
    (∃ (s : State), s.lehr.rdy = false ∧ (s.lehr.fwBad = false ∨ s.lehr.next ≠ none) ∧ s.lehr.trained = false) :=
  ⟨⟨wLehr 0x2004 3000 2500 3, 3001, by decide⟩, ⟨wLehr 0x2004 3000 2500 3, 2850, by decide⟩,
    ⟨wLehr 0x2004 3000 2500 3, 3000, by and_intros <;> first | decide | exact .inl (by decide)⟩, ⟨104, 94, by decide⟩,
    ⟨wLehr 0x2004 3000 2500 3, 127, 105, 104, by simp only [NoContexts]; decide⟩,
    ⟨wLehr 0x2004 3000 2500 3, 104, 15, 95, by decide⟩,
    ⟨wLehr 0x2000 3000 2500 3, 0, 115, 0, by simp only [NoContexts]; and_intros <;> first | decide | exact .inl (by decide)⟩,
    ⟨127, by decide⟩, ⟨wLehr 0x2004 3000 2500 3, by decide⟩, ⟨wLehr 0x2000 3000 2500 3, by decide⟩,
    ⟨wLehr 0x2000 3000 2500 3, by decide⟩, ⟨{ wLehr 0x2000 3000 2500 3 with lehr := {} }, by decide⟩,
    ⟨wLehr 0x2000 3000 2500 3, by decide⟩, ⟨wLehr 0x2000 3000 2500 3, 9, by simp only [NoContexts]; decide⟩,
    ⟨{ wLehr 0x2004 3000 2500 3 with lehr := {} }, by decide⟩,
    ⟨wLehr 0x2004 3000 2500 3, 127, by simp only [NoContexts]; decide⟩, ⟨wLehr 0x2004 3000 2500 3, 0, 0, by decide⟩,
    ⟨wLehr 0x2000 3000 2500 3, 23, by decide⟩, ⟨wLehr 0x2000 3000 2500 3, 127, by simp only [NoContexts]; decide⟩,
    ⟨wLehr 0x2000 3000 2500 3, 0xFFFFFFFFFF, by simp only [NoContexts]; decide⟩,
    ⟨wLehr 0x2000 3000 2500 3, 0x3FFFF, by simp only [NoContexts]; decide⟩,
    ⟨wLehr 0x2000 3000 2500 3, by and_intros <;> first | exact .inl (by decide) | decide⟩,
    ⟨{ wLehr 0x2000 3000 2500 3 with lehr := { fwBad := true } }, by decide⟩,
    ⟨{ wLehr 0x2000 3000 2500 3 with lehr := { next := some [5] } }, by and_intros <;> first | exact .inr (by decide) | decide⟩,
    ⟨{ wLehr 0x2000 3000 2500 3 with lehr := { trained := false } }, by and_intros <;> first | exact .inl (by decide) | decide⟩⟩

theorem witness_ResetsAndSensors_signed1 :
    (∃ (s : State) (n : Nat) (m : List Byte), SignedBy s m ∧ List.length m = 74 ∧ field m 8 2 = n ∧ n < 1024 ∧
      s.groups = [] ∧ s.kernels = [] ∧ s.lanes = [] ∧ s.posts = [] ∧ (co s n).tq = []) ∧
    (∃ (s : State) (n : Nat) (a : Nat) (m : List Byte) (c : Ctx), SignedBy s m ∧ List.length m = 73 ∧
      field m 8 1 = n ∧ n < 24 ∧ s.ctxs = [(a, c)] ∧ c.part = n ∧
      (c.state = CState.loading ∨ c.state = CState.ready ∨ c.state = CState.running ∨ c.state = CState.suspended ∨ c.state = CState.sealed) ∧
      (∀ e ∈ s.threads, e.2.ctx ≠ a) ∧ s.groups = [] ∧ s.kernels = [] ∧ s.pages = [] ∧ s.pageWaits = [] ∧
      (∀ e ∈ s.queues, e.2.kind ≠ 2) ∧ s.lanes = [] ∧ List.Nodup (List.map (fun x => x.1) s.queues)) :=
  ⟨⟨{ wLehr 0x2000 3000 2500 3 with parts := { key := some (wKey 0xd3a9613976ec952439d407d58e08a8ab4090da980f697760a3aa321d6f47a7261929497966ca760b0bc5b7a036b6153df06cda3ad82ceea6c15c74d0c4dfcf88) } }, 1023, (wMsg 0x41 (natBytes 2 1023) (wSig 0x7924559d5190cb6036458dee4f0cf7c9d99ae7b3c8f9963a6cd09f4711741e82)), by simp only [SignedBy]; and_intros <;> first | decide | exact ⟨_, rfl, by decide⟩⟩,
    ⟨{ wLehr 0x2000 3000 2500 3 with threads := [(0, wT)], parts := { key := some (wKey 0xe828429697e3589724549f8b351f81b3de68a0c99a5ec3f40cf47399da2aedc52539e542963059df6c81d385963d82c6a6a45aeba1c3b93d6e726e7adadba598) } }, 3, 4, (wMsg 0x40 (natBytes 1 3) (wSig 0xfd838c1189458785699a08164a8a0f9db6f032a06fb6469acc14daf1f9f50912)), { state := .running, vmid := 3, part := 3 }, by simp only [SignedBy]; and_intros <;> first | decide | exact ⟨_, rfl, by decide⟩ | exact .inr (.inr (.inl (by decide)))⟩⟩

theorem witness_PartitionRequests :
    (∃ (s : State) (h : List Byte) (body : List Byte) (sig : List Byte) (part : Nat) (r : Nat) (d : Nat),
      PostedRequest s part h body sig r d ∧ field h 2 1 = 1 ∧ ¬Authorised s part h body sig) ∧
    (∃ (s : State) (h : List Byte) (body : List Byte) (sig : List Byte) (part : Nat) (r : Nat) (d : Nat),
      PostedRequest s part h body sig r d ∧ field h 2 1 = 2 ∧ ¬Authorised s part h body sig) ∧
    (∃ (s : State) (h : List Byte) (body : List Byte) (part : Nat) (r : Nat) (d : Nat) (idx : Nat) (v : Nat),
      s.parts.req = some (h, body, part) ∧ OneEntry body 1 idx v ∧ idx < 128 ∧ v < 24 ∧ field h 16 4 < 2 ^ 24 ∧
      Still s ∧ s.pkg < 256 ∧ field h 40 8 = s.pkg * 2 ^ 40 + r ∧ field h 48 8 = s.pkg * 2 ^ 40 + d ∧
      r + 32 ≤ 2 ^ 40 ∧ d + 8 ≤ 2 ^ 40 ∧ r % 8 = 0 ∧ d % 8 = 0 ∧ (d + 8 ≤ r ∨ r + 32 ≤ d) ∧ field h 48 8 ≠ 0 ∧
      BitVec.getLsbD (co s 1024).ncbase 0 = false ∧ h ≠ [] ∧ (∀ e ∈ s.threads, e.2.stores = [] ∧ e.2.sent = [] ∧
      e.2.precs = [] ∧ e.2.v.queue = []) ∧ s.posts = [] ∧ s.mcasts = [] ∧ ∀ e ∈ s.cores, e.2.ch.state ≠ 2 ∧
      e.2.tq = []) ∧
    (∃ (s : State) (h : List Byte) (body : List Byte) (part : Nat) (r : Nat) (d : Nat) (idx : Nat) (v : Nat),
      s.parts.req = some (h, body, part) ∧ OneEntry body 1 idx v ∧ idx < 128 ∧ v < 24 ∧ field h 16 4 < 2 ^ 24 ∧
      Still s ∧ s.pkg < 256 ∧ field h 40 8 = s.pkg * 2 ^ 40 + r ∧ field h 48 8 = s.pkg * 2 ^ 40 + d ∧
      r + 32 ≤ 2 ^ 40 ∧ d + 8 ≤ 2 ^ 40 ∧ r % 8 = 0 ∧ d % 8 = 0 ∧ (d + 8 ≤ r ∨ r + 32 ≤ d) ∧ field h 48 8 ≠ 0 ∧
      BitVec.getLsbD (co s 1024).ncbase 0 = false ∧ h ≠ [] ∧ (∀ e ∈ s.threads, e.2.stores = [] ∧ e.2.sent = [] ∧
      e.2.precs = [] ∧ e.2.v.queue = []) ∧ s.posts = [] ∧ s.mcasts = [] ∧ (∀ e ∈ s.cores, e.2.ch.state ≠ 2 ∧
      e.2.tq = []) ∧ ∃ p, Nat.testBit (field h 16 4) p = true ∧
      tget s.parts.state p PState.unused = PState.quiescing) ∧
    (∃ (s : State) (h : List Byte) (body : List Byte) (part : Nat) (r : Nat) (d : Nat) (idx : Nat) (v : Nat),
      s.parts.req = some (h, body, part) ∧ OneEntry body 1 idx v ∧ idx < 128 ∧ v < 24 ∧ field h 16 4 < 2 ^ 24 ∧
      Still s ∧ s.pkg < 256 ∧ field h 40 8 = s.pkg * 2 ^ 40 + r ∧ field h 48 8 = s.pkg * 2 ^ 40 + d ∧
      r + 32 ≤ 2 ^ 40 ∧ d + 8 ≤ 2 ^ 40 ∧ r % 8 = 0 ∧ d % 8 = 0 ∧ (d + 8 ≤ r ∨ r + 32 ≤ d) ∧ field h 48 8 ≠ 0 ∧
      BitVec.getLsbD (co s 1024).ncbase 0 = false ∧ h ≠ [] ∧ (∀ e ∈ s.threads, e.2.stores = [] ∧ e.2.sent = [] ∧
      e.2.precs = [] ∧ e.2.v.queue = []) ∧ s.posts = [] ∧ s.mcasts = [] ∧ (∀ e ∈ s.cores, e.2.ch.state ≠ 2 ∧
      e.2.tq = []) ∧ ∀ (p : Nat), Nat.testBit (field h 16 4) p = true →
      tget s.parts.state p PState.unused ≠ PState.quiescing) :=
  ⟨⟨wRequest none (wHead 1 1) (wBody 9 3 4) (natBytes 64 0x51), wHead 1 1, wBody 9 3 4, natBytes 64 0x51, 0, 0xA000, 0xA040, by simp only [NoCopies, Authorised, Still, PostedRequest, CalmCounters]; and_intros <;> first | exact ⟨0x8000, 0x9000, by decide⟩ | exact fun h => h.1.elim fun k h => nomatch h.1 | decide⟩,
    ⟨wRequest none (wHead 2 1) (wBody 10 3 2) (natBytes 64 0x51), wHead 2 1, wBody 10 3 2, natBytes 64 0x51, 0, 0xA000, 0xA040, by simp only [NoCopies, Authorised, Still, PostedRequest, CalmCounters]; and_intros <;> first | exact ⟨0x8000, 0x9000, by decide⟩ | exact fun h => h.1.elim fun k h => nomatch h.1 | decide⟩,
    ⟨wDrain (wHead 2 5) (wBody 1 1 2), wHead 2 5, wBody 1 1 2, 0, 0xA000, 0xA040, 1, 2, by simp only [NoCopies, Still, OneEntry, CalmCounters]; decide⟩,
    ⟨wDrain (wHead 2 5) (wBody 1 1 2), wHead 2 5, wBody 1 1 2, 0, 0xA000, 0xA040, 1, 2, by simp only [NoCopies, Still, OneEntry, CalmCounters]; and_intros <;> first | exact ⟨0, by decide⟩ | decide⟩,
    ⟨{ wDrain (wHead 2 5) (wBody 1 1 2) with parts := { (wDrain (wHead 2 5) (wBody 1 1 2)).parts with state := [] } }, wHead 2 5, wBody 1 1 2, 0, 0xA000, 0xA040, 1, 2, by simp only [NoCopies, Still, OneEntry, CalmCounters]; and_intros <;> first | exact fun p _ => PState.noConfusion | decide⟩⟩

theorem witness_PartitionRequests_signed1 :
    ∃ (s : State) (h : List Byte) (body : List Byte) (sig : List Byte) (part : Nat) (r : Nat) (d : Nat) (idx : Nat) (v : Nat),
      PostedRequest s part h body sig r d ∧ field h 2 1 = 1 ∧ Authorised s part h body sig ∧ OneEntry body 9 idx v ∧
      idx < 1024 ∧ 1 ≤ v ∧ v ≤ 15 ∧ (partOfCore s idx < 24 → Nat.testBit (field h 16 4) (partOfCore s idx) = true) ∧
      (∀ q < 512, (qu s q).kind ≠ 0 → Nat.testBit (field h 16 4) (qu s q).part = true → queueBusy s q = false) ∧
      ∀ n < 256, Nat.testBit (field h 16 4) (cx s n).part = true → (cx s n).state ≠ CState.running ∧
      (cx s n).state ≠ CState.sealing ∧ (cx s n).state ≠ CState.restoring :=
  ⟨wRequest (some (wKey 0x110debd5c6008c414af401baa5dd4040a420a668df992f61093f164c616334b723ab2e76d66774441e20b937feb511bb8433c5aeee3cb3193210023cdc14d699)) (wHead 1 1) (wBody 9 1023 15) (wSig 0xa63a152f97cde2a3a913cd54b4647f0a916aa52ea89b75c5f9fe7172b7235a25), wHead 1 1, wBody 9 1023 15, (wSig 0xa63a152f97cde2a3a913cd54b4647f0a916aa52ea89b75c5f9fe7172b7235a25), 0, 0xA000, 0xA040, 1023, 15, by simp only [NoCopies, Authorised, Still, PostedRequest, OneEntry, CalmCounters]; and_intros <;> first | exact ⟨0x8000, 0x9000, by decide⟩ | exact ⟨_, rfl, by decide⟩ | (intro p hp; have h : p < 1 := (by by_contra h; have := Nat.testBit_lt_two_pow (Nat.lt_of_lt_of_le (by decide : field (wHead 1 1) 16 4 < 2 ^ 1) (Nat.pow_le_pow_right (by decide) (Nat.le_of_not_lt h))); rw [this] at hp; cases hp); obtain rfl : p = 0 := (by omega); decide) | decide⟩

theorem witness_PartitionRequests_signed2 :
    ∃ (s : State) (h : List Byte) (body : List Byte) (sig : List Byte) (part : Nat) (r : Nat) (d : Nat),
      PostedRequest s part h body sig r d ∧ field h 2 1 = 2 ∧ Authorised s part h body sig ∧
      checkRequest s (List.foldl writeEntry s (entriesIn s body)) (field h 16 4) true (entriesIn s body) = none :=
  ⟨wRequest (some (wKey 0x2477fed8a2ce9eac70d213e371471f9f6bb86fcd6b371da6398270d7b616ce06c49f2cef98f656e4a13a80887a0d1a7e05972fb685bdadeefe4660715f94704c)) (wHead 2 5) (wBody 10 3 2) (wSig 0xaf41042ca9004916aa6a9c4841962802c43f3d2c9759ae24d5226a6d5e150e3b), wHead 2 5, wBody 10 3 2, (wSig 0xaf41042ca9004916aa6a9c4841962802c43f3d2c9759ae24d5226a6d5e150e3b), 0, 0xA000, 0xA040, by simp only [NoCopies, Authorised, Still, PostedRequest, CalmCounters]; and_intros <;> first | exact ⟨0x8000, 0x9000, by decide⟩ | exact ⟨_, rfl, by decide⟩ | (intro p hp; have h : p < 3 := (by by_contra h; have := Nat.testBit_lt_two_pow (Nat.lt_of_lt_of_le (by decide : field (wHead 2 5) 16 4 < 2 ^ 3) (Nat.pow_le_pow_right (by decide) (Nat.le_of_not_lt h))); rw [this] at hp; cases hp); exact ⟨by omega, rfl⟩) | decide⟩

theorem witness_PartitionRequests_signed3 :
    ∃ (s : State) (h : List Byte) (body : List Byte) (sig : List Byte) (part : Nat) (r : Nat) (d : Nat) (st : Int) (e : Nat) (dt : Nat),
      PostedRequest s part h body sig r d ∧ field h 2 1 = 2 ∧ Authorised s part h body sig ∧ e < 2 ^ 64 ∧
      dt < 2 ^ 64 ∧
      checkRequest s (List.foldl writeEntry s (entriesIn s body)) (field h 16 4) true (entriesIn s body) = some (st,
      e, dt) :=
  ⟨wRequest (some (wKey 0x16e876b604899a6be0d77836063b0183009dcdf0ebf67e786f5760493fab518fefb6a03d6b2ba56e4c09c3639f73a48f137b0ddd94927d7ecf1022ae8b58a797)) (wHead 2 5) (wBody 1 3 24) (wSig 0x1701ccb07039f84683f611106b831d43a7b532c9ebab8025020ec2552524ca71), wHead 2 5, wBody 1 3 24, (wSig 0x1701ccb07039f84683f611106b831d43a7b532c9ebab8025020ec2552524ca71), 0, 0xA000, 0xA040, -2, 0, 2 ^ 64 - 1, by simp only [NoCopies, Authorised, Still, PostedRequest, CalmCounters]; and_intros <;> first | exact ⟨0x8000, 0x9000, by decide⟩ | exact ⟨_, rfl, by decide⟩ | (intro p hp; have h : p < 3 := (by by_contra h; have := Nat.testBit_lt_two_pow (Nat.lt_of_lt_of_le (by decide : field (wHead 2 5) 16 4 < 2 ^ 3) (Nat.pow_le_pow_right (by decide) (Nat.le_of_not_lt h))); rw [this] at hp; cases hp); exact ⟨by omega, rfl⟩) | decide⟩

theorem witness_Management :
    (∃ (ctx : Nat), 256 ≤ ctx) ∧
    (∃ (m : List Byte), List.length m = 12) ∧
    (∃ (s : State), s.lehr.staging = none) ∧
    (∃ (s : State) (m : List Byte) (n : Nat) (buf : Memory), s.lehr.staging = some (n, buf) ∧ Memory.wf buf = true ∧
      12 ≤ List.length m ∧ List.length (List.drop 12 m) ≤ 1024 ∧ field m 8 4 + List.length (List.drop 12 m) ≤ n) ∧
    (∃ (s : State) (m : List Byte) (n : Nat) (buf : Memory), s.lehr.staging = some (n, buf) ∧ Memory.wf buf = true ∧
      (1024 < List.length (List.drop 12 m) ∨ n < field m 8 4 + List.length (List.drop 12 m))) ∧
    (ecdsaVerify rootKey (mbytes [(5, 1)] 0 36) (mbytes [(5, 1)] 36 64) = true →
      (∃ (s : State) (n : Nat) (buf : Memory), s.lehr.staging = some (n, buf) ∧ Memory.wf buf = true ∧ 64 < n ∧
        ecdsaVerify rootKey (mbytes buf 0 (n - 64)) (mbytes buf (n - 64) 64) = true ∧ s.lehr.fwBad = false)) ∧
    (∃ (s : State) (m : List Byte), s.parts.key = none ∧ List.length m = 72) ∧
    (∃ (s : State), s.parts.key = none) ∧
    (∃ (s : State) (m : List Byte), ¬SignedBy s m) ∧
    (ecdsaVerify rootKey (mbytes [(5, 1)] 0 36) (mbytes [(5, 1)] 36 64) = true →
      (∃ (s : State) (n : Nat) (buf : Memory), s.lehr.staging = some (n, buf) ∧ Memory.wf buf = true ∧ 64 < n ∧
        ecdsaVerify rootKey (mbytes buf 0 (n - 64)) (mbytes buf (n - 64) 64) = true ∧ s.lehr.fwBad = true ∧
        s.lehr.trained = true)) ∧
    (∃ (s : State) (m : List Byte), s.parts.busy = true ∧ m ∉ s.parts.plans) ∧
    (∃ (m : List Byte), field m 0 1 ∉ [1, 2, 3, 16, 17, 32, 33, 34, 35, 36, 48, 49, 64, 65]) ∧
    (∃ (m : List Byte) (nonce : List Byte) (off : Nat) (len : Nat) (x : Instr × List Byte), x ∈ [(Instr.mctpControl m,
      Config.spdmBody 0 m), (Instr.getVersion, Config.spdmBody 132 []), (Instr.getCapabilities m,
      Config.spdmBody 225 m), (Instr.negotiateAlgorithms m, Config.spdmBody 227 m), (Instr.getDigests,
      Config.spdmBody 129 [] ++ sha256 Config.certChain), (Instr.getCertificate 0 off len,
      Config.spdmBody 130 (natBytes 1 0 ++ natBytes 2 off ++ natBytes 2 len) ++ cutBytes Config.certChain off len),
      (Instr.challenge 0 nonce,
      Config.spdmBody 131 (natBytes 1 0 ++ nonce) ++ nonce ++ signAttest (Config.spdmBody 131 (natBytes 1 0 ++ nonce) ++ nonce))]) :=
  ⟨⟨256, by decide⟩, ⟨natBytes 12 5, by decide⟩, ⟨wKeyed none, by decide⟩,
    ⟨{ wS wT with lehr := { staging := some (100, [(5, 1)]), fwok := true } }, natBytes 112 1, 100, [(5, 1)], by decide⟩,
    ⟨{ wS wT with lehr := { staging := some (100, [(5, 1)]), fwok := true } }, natBytes 113 1, 100, [(5, 1)], by and_intros <;> first | decide | exact .inr (by decide)⟩,
    (fun hv => ⟨{ wS wT with lehr := { staging := some (100, [(5, 1)]), fwok := true } }, 100, [(5, 1)], by and_intros <;> first | exact hv | decide⟩),
    ⟨wKeyed none, wMsg 0x10 [] (natBytes 64 6), by decide⟩, ⟨wKeyed none, by decide⟩,
    ⟨wKeyed none, wMsg 0x20 [7] (natBytes 64 6), by simp only [SignedBy]; and_intros <;> first | exact fun h => h.2.2.elim fun k h => nomatch h.1 | decide⟩,
    (fun hv => ⟨{ wS wT with lehr := { staging := some (100, [(5, 1)]), fwBad := true } }, 100, [(5, 1)], by and_intros <;> first | exact hv | decide⟩),
    ⟨{ wS wT with parts := { busy := true } }, natBytes 96 5, by decide⟩, ⟨natBytes 72 5, by decide⟩,
    ⟨[], [], 0, 4, (.getVersion, Config.spdmBody 132 []), by and_intros <;> first | exact .tail _ (.head _) | decide⟩⟩

theorem witness_Management_signed1 :
    (∃ (s : State) (m : List Byte), s.parts.key ≠ none ∧ List.length (cutBytes m 8 (List.length m - 72)) = 64) ∧
    (∃ (s : State) (m : List Byte), s.parts.busy = false ∧ s.parts.plans = [] ∧
      List.length (cutBytes m 8 (List.length m - 72)) = 24 ∧ (∀ x ∈ cutBytes m 8 (List.length m - 72),
      BitVec.toNat x < 24 ∨ x = 255) ∧ SignedBy s m) ∧
    (∃ (s : State) (m : List Byte), List.length (cutBytes m 8 (List.length m - 72)) = 1 ∧ (∀ p < 24,
      ¬Carries (portOf s p)) ∧ SignedBy s m) :=
  ⟨⟨wKeyed (some (wKey 0x7c76598a88e7119fa22d61289efae7735fb9a4fd60586819fbbbfc75d74f3686e5ac0550b5069938b88f3618e574374a007393c3e9211aa40c6409fee803b712)), (wMsg 0x10 (natBytes 64 5) (wSig 0xf084741cd38ac4c8323a38225cba75dd90be76a6a4de79a1c51e45165caae853)), by and_intros <;> first | decide | exact ⟨_, rfl, by decide⟩⟩,
    ⟨wKeyed (some (wKey 0xe74e89a603a189368df70ff7167fb018dc7f1bdb99839f37d7787aab63c3660385162299f0f059680d80835daefdf00cb5e6d807adfc65faea7526ad169ff2d)), (wMsg 0x11 (List.replicate 24 0xFF) (wSig 0x6b3eaebab86ef90963ac7c393f65f718524724332462b133182a6f0450ece014)), by simp only [SignedBy]; and_intros <;> first | decide | exact ⟨_, rfl, by decide⟩⟩,
    ⟨wKeyed (some (wKey 0xaf605ae44b4538bc77ab1f7a6687ff1524268256f60ebf652de0c565d4d540338accdbf1f3d3b2dd0b4d6973535fe7061a12ec88d64d46157c80bd2c6aa4cbc9)), (wMsg 0x20 ([255]) (wSig 0x92b90fa4c2758be30daa38c6ce593dfce017a5cfc46eecaed6b621c6e5199e98)), by simp only [Carries, SignedBy]; and_intros <;> first | decide | exact ⟨_, rfl, by decide⟩⟩⟩

theorem witness_Management_signed2 :
    (∃ (s : State) (m : List Byte), List.length (cutBytes m 8 (List.length m - 72)) = 8 ∧
      field (cutBytes m 8 (List.length m - 72)) 4 4 < 2 ^ 24 ∧ field (cutBytes m 8 (List.length m - 72)) 1 3 = 0 ∧
      field (cutBytes m 8 (List.length m - 72)) 4 4 ≠ 0 ∧ s.stuck = [] ∧ s.waiters = [] ∧ s.arms = [] ∧
      SignedBy s m) ∧
    (∃ (s : State) (m : List Byte), List.length (cutBytes m 8 (List.length m - 72)) = 8 ∧
      field (cutBytes m 8 (List.length m - 72)) 4 4 < 2 ^ 24 ∧ field (cutBytes m 8 (List.length m - 72)) 1 3 = 0 ∧
      field (cutBytes m 8 (List.length m - 72)) 4 4 = 0 ∧ s.stuck = [] ∧ s.waiters = [] ∧ s.arms = [] ∧
      SignedBy s m) ∧
    (∃ (s : State) (m : List Byte), List.length (cutBytes m 8 (List.length m - 72)) = 8 ∧
      field (cutBytes m 8 (List.length m - 72)) 4 4 < 2 ^ 24 ∧ field (cutBytes m 8 (List.length m - 72)) 0 1 < 24 ∧
      field (cutBytes m 8 (List.length m - 72)) 2 2 = 0 ∧ SignedBy s m) :=
  ⟨⟨wKeyed (some (wKey 0x6ddba92e3ee35ccf5868c08ebec77677435bfaf2b74fac34e2913d02b40d4384fefaa09d6d21d83a30f1f2806bd89541a857a392fcd13610e4dea4e1d7df2fa3)), (wMsg 0x21 ([7, 0, 0, 0, 5, 0, 0, 0]) (wSig 0xb380093e503e38ffeb9d11ab7d4870a6204098ab001f8db93e01b8aa1858328c)), by simp only [SignedBy]; and_intros <;> first | decide | exact ⟨_, rfl, by decide⟩⟩,
    ⟨wKeyed (some (wKey 0xfb8060891f70d5a7f08ac4e09ee1cddd95c90a0471e286dfc5ca23aa6b8a9d43b6c73b25480650bedfcdb573ec0fb364287dbd750b0276653b4808ba13ae486c)), (wMsg 0x21 ([255, 0, 0, 0, 0, 0, 0, 0]) (wSig 0xf6def56095b2b2e0db71d68ff2e99772245a4040c1913d4e47a2809768de0b5b)), by simp only [SignedBy]; and_intros <;> first | decide | exact ⟨_, rfl, by decide⟩⟩,
    ⟨wKeyed (some (wKey 0xb8337ac6fd2d9ffff9179b8e06f491b0aaabb4d92d69cf4ceb17cdc43bc26fbca672a75033b9fbb259d0deb03a1b4ca341f5b125380de4bf823ec60f6d656466)), (wMsg 0x22 ([23, 3, 0, 0, 5, 0, 0, 0]) (wSig 0x7b9f3241c8a07230388764ab1ad98459eec575522b4fe14259ea1e12c7305bc)), by simp only [SignedBy]; and_intros <;> first | decide | exact ⟨_, rfl, by decide⟩⟩⟩

theorem witness_Management_signed3 :
    (∃ (s : State) (m : List Byte), List.length (cutBytes m 8 (List.length m - 72)) = 8 ∧
      field (cutBytes m 8 (List.length m - 72)) 4 4 < 2 ^ 24 ∧ field (cutBytes m 8 (List.length m - 72)) 3 1 = 0 ∧
      (field (cutBytes m 8 (List.length m - 72)) 2 1 = 1 ∨ field (cutBytes m 8 (List.length m - 72)) 2 1 = 2 ∧
      field (cutBytes m 8 (List.length m - 72)) 0 2 < 256) ∧ SignedBy s m) ∧
    (∃ (s : State) (m : List Byte) (e : Eth), e = tget s.eths (field (cutBytes m 8 (List.length m - 72)) 0 1) { } ∧
      field (cutBytes m 8 (List.length m - 72)) 0 1 < 2 ∧ List.length (cutBytes m 8 (List.length m - 72)) = 24 ∧
      field (cutBytes m 8 (List.length m - 72)) 1 1 < 4 ∧ SignedBy s m) ∧
    (∃ (s : State) (m : List Byte) (e : Eth), e = tget s.eths (field (cutBytes m 8 (List.length m - 72)) 0 1) { } ∧
      field (cutBytes m 8 (List.length m - 72)) 0 1 < 2 ∧ List.length (cutBytes m 8 (List.length m - 72)) = 10 ∧
      field (cutBytes m 8 (List.length m - 72)) 1 1 < 64 ∧ field (cutBytes m 8 (List.length m - 72)) 9 1 ≤ 1 ∧
      SignedBy s m) :=
  ⟨⟨wKeyed (some (wKey 0x8889f18cd9b52ef66f1e5425a20b36dc9dfbd31dd2e466353c39e93be21e1bae08a29841abda4317764e71803ed99343d28a33bfc6d4b6f66104c33f8f602ee)), (wMsg 0x23 ([255, 0, 2, 0, 5, 0, 0, 0]) (wSig 0xb5b7bf18b1108fb834e52d069c7cf8571bca43a0c0d3e0170344034655bd645a)), by simp only [SignedBy]; and_intros <;> first | decide | exact ⟨_, rfl, by decide⟩ | exact .inr (by decide)⟩,
    ⟨wKeyed (some (wKey 0x8bb0c70f99c7ce0d39b450341749b3148eb4a01569b5c8762041651a3b77f1ac23793bc122bb5882832f5915be551853c28f00995614996f6918c787a8c1ccb9)), (wMsg 0x30 ([1, 3] ++ natBytes 22 7) (wSig 0x12ccac1c703af998fde89e6720c5f0449c4b338cbc2390c001d3325efac64339)), {}, by simp only [SignedBy]; and_intros <;> first | decide | exact ⟨_, rfl, by decide⟩⟩,
    ⟨wKeyed (some (wKey 0xef8e9aa13a72de8a4362bfa93ab16f566bd338f136e35cde86cd4697d65dcb5c967250b9d7065d65e89488180084d3d863fe2af54ffd919f245e66e2e6456551)), (wMsg 0x31 ([1, 63] ++ natBytes 8 7) (wSig 0x7315fe005c1007551fd078d507b93f7f270c49520278180af02ff9d9fb9f19ea)), {}, by simp only [SignedBy]; and_intros <;> first | decide | exact ⟨_, rfl, by decide⟩⟩⟩

theorem witness_EncodeDecode :
    ∃ (i : Instr) (w : Nat), wellFormed i = true ∧ encode i = some w :=
  ⟨.ldd 1 6 4 1 1, 0x8A623101, by decide⟩

theorem witness_DecodeEncode :
    ∃ (i : Instr) (w : Nat), w < 2 ^ 32 ∧ decodeWord w = Except.ok i :=
  ⟨.ldd 1 6 4 1 1, 0x8A623101, by and_intros <;> first | rfl | decide⟩

theorem witness_StepRunsWord :
    (∃ (s : State) (x : Nat) (c : Nat) (k : Nat) (w : Nat) (rest : List Act), LoneIssue s x c k rest ∧
      mrd s.mem k 4 = w ∧ w < 2 ^ 31 ∧ (k % 8 = 4 → mrd s.mem (k - 4) 4 < 2 ^ 31)) ∧
    (∃ (s : State) (x : Nat) (c : Nat) (k : Nat) (w : Nat) (rest : List Act), LoneIssue s x c k rest ∧
      mrd s.mem k 4 = w ∧ w < 2 ^ 31 ∧ (k % 8 = 4 → mrd s.mem (k - 4) 4 < 2 ^ 31) ∧ ∀ (i : Instr),
      decodeWord w ≠ Except.ok i) :=
  ⟨⟨State.reset.withFetchWord 32 0x40321400, 0, 0, 0, 0x40321400, [], by simp only [LoneIssue, Qualifies]; and_intros <;> first | decide | (intro code h; have h3 : (0#5 : BitVec 5).getLsbD code = true := h.2.2.1; simp at h3)⟩,
    ⟨State.reset.withFetchWord 32 0x7FFFFFFF, 0, 0, 0, 0x7FFFFFFF, [], by simp only [LoneIssue, Qualifies]; and_intros <;> first | decide | (intro code h; have h3 : (0#5 : BitVec 5).getLsbD code = true := h.2.2.1; simp at h3) | (intro i h; cases h)⟩⟩

theorem witness_StepRunsPair :
    (∃ (s : State) (s1 : State) (x : Nat) (c : Nat) (k : Nat) (w : Nat) (v : Nat) (i : Instr) (j : Instr) (rest : List Act) (a : Nat) (y : Word),
      LoneIssue s x c k rest ∧ k % 8 = 0 ∧ mrd s.mem k 4 = w ∧ mrd s.mem (k + 4) 4 = v ∧ 2 ^ 31 ≤ w ∧ v < 2 ^ 31 ∧
      w / 2 ^ 25 % 64 < 32 ∧ w / 2 ^ 25 % 64 ≠ 0 ∧ 32 ≤ v / 2 ^ 25 % 64 ∧ decodeWord w = Except.ok i ∧
      decodeWord v = Except.ok j ∧ (genDest i = 0 ∨ genDest i ≠ genDest j) ∧
      exec i (issued s x c rest) = Host.Outcome.next s1 ∧ s1.last = Ended.trapped a y) ∧
    (∃ (s : State) (s1 : State) (x : Nat) (c : Nat) (k : Nat) (w : Nat) (v : Nat) (i : Instr) (j : Instr) (rest : List Act) (s2 : State),
      LoneIssue s x c k rest ∧ k % 8 = 0 ∧ mrd s.mem k 4 = w ∧ mrd s.mem (k + 4) 4 = v ∧ 2 ^ 31 ≤ w ∧ v < 2 ^ 31 ∧
      w / 2 ^ 25 % 64 < 32 ∧ w / 2 ^ 25 % 64 ≠ 0 ∧ 32 ≤ v / 2 ^ 25 % 64 ∧ decodeWord w = Except.ok i ∧
      decodeWord v = Except.ok j ∧ (genDest i = 0 ∨ genDest i ≠ genDest j) ∧
      exec i (issued s x c rest) = Host.Outcome.next s1 ∧ s1.last = Ended.done ∧
      exec j (forPartner (issued s x c rest) s1 (decide (w / 2 ^ 25 % 64 = 8)) false) = Host.Outcome.next s2 ∧
      s2.last = Ended.done) :=
  ⟨⟨wPairT, wAfter (exec (.sread 1 5 0x400) (issued wPairT 0 0 [])), 0, 0, 0, 0x82500400, 0x40321400, .sread 1 5 0x400, .add 3 4 5, [], 0, 0x82500400, by simp only [LoneIssue, Qualifies]; and_intros <;> first | rfl | (intro code h; have h3 : (0#5 : BitVec 5).getLsbD code = true := h.2.2.1; simp at h3) | exact .inr (by decide) | decide⟩,
    ⟨wPair, wAfter (exec (.sread 1 5 1) (issued wPair 0 0 [])), 0, 0, 0, 0x82500001, 0x40321400, .sread 1 5 1, .add 3 4 5, [], wAfter (exec (.add 3 4 5) (forPartner (issued wPair 0 0 []) (wAfter (exec (.sread 1 5 1) (issued wPair 0 0 []))) false false)), by simp only [LoneIssue, Qualifies]; and_intros <;> first | rfl | (intro code h; have h3 : (0#5 : BitVec 5).getLsbD code = true := h.2.2.1; simp at h3) | exact .inr (by decide) | decide⟩⟩

theorem witness_StepKeepsMemory :
    ∃ (s : State) (t : State), MemoriesWf s ∧ step s = Host.Outcome.next t :=
  ⟨{ agenda := [.pass 5] }, { cycle := 5 }, by simp only [MemoriesWf]; and_intros <;> first | rfl | decide⟩

/-- An instruction of the lane array, of element type `vt`, whose last beat is due. -/
def wL (o : VOp) (vt : Nat) (b : Nat := 3) : VEntry := { wE o with vt := vt, b := b, beats := 40 }
def wLong (o : VOp) : VEntry := { wE o with vl := 300, vt := 0 }

theorem witness_LaneBeats :
    (∀ o ∈ [VOp.vadd, .vfma, .vslup, .vcvtQ8], LaneHolds (wQ (wLong o)) 0 0 (wLong o) ∧ o.isLane = true ∧ o.isRed = false ∧
      1 < LaneLength (wLong o)) ∧
    (∀ x ∈ [(VOp.vadd, 8), (.vsub, 6), (.vmul, 10), (.vmulh, 11), (.vmin, 8), (.vmax, 6), (.vminu, 10), (.vmaxu, 11),
        (.vsll, 8), (.vsrl, 6), (.vsra, 10), (.vsadd, 11), (.vssub, 8), (.vmacc, 6), (.vdot4, 8)],
      LaneHolds (wQ (wL x.1 x.2)) 0 0 (wL x.1 x.2) ∧ LaneLength (wL x.1 x.2) ≤ 41 ∧ 5 * typeWidth x.2 ≤ 32 * 1024 ∧
        isInt x.2 = true) ∧
    (∀ x ∈ [(VOp.vfadd, 0), (.vfsub, 1), (.vfmul, 2), (.vfdiv, 9), (.vfsqrt, 0), (.vfmin, 1), (.vfmax, 2), (.vfma, 9),
        (.vfnma, 0), (.vfabs, 1), (.vfneg, 2)],
      LaneHolds (wQ (wL x.1 x.2)) 0 0 (wL x.1 x.2) ∧ LaneLength (wL x.1 x.2) ≤ 41 ∧ 5 * typeWidth x.2 ≤ 32 * 1024 ∧
        isFlt x.2 = true) ∧
    (∀ x ∈ [(VOp.vand, 3), (.vor, 5), (.vxor, 0), (.vmv, 11)],
      LaneHolds (wQ (wL x.1 x.2)) 0 0 (wL x.1 x.2) ∧ LaneLength (wL x.1 x.2) ≤ 41 ∧ 5 * typeWidth x.2 ≤ 32 * 1024 ∧
        isAnyType x.2 = true) := by
  simp only [LaneHolds]; and_intros <;> decide

theorem witness_LaneMoves :
    ∀ x ∈ [(VOp.vslup, 8, 3), (.vsldn, 3, 3), (.vcompress, 5, 3), (.vrgather, 6, 3), (.vbcast, 0, 3), (.vmvgv, 8, 3),
        (.vmvvg, 10, 3), (.vid, 11, 3), (.vmerge, 8, 3), (.vcvtN, 11, 8), (.vcvtN, 9, 0), (.vcvtW, 8, 11), (.vcvtW, 0, 9),
        (.vcvtFi, 9, 11), (.vcvtIf, 11, 9), (.vcvtQ4, 0, 3), (.vcvtQ8, 0, 3)],
      let e := wL x.1 x.2.1 x.2.2
      LaneHolds (wQ e) 0 0 e ∧ e.a < 32 ∧ LaneLength e ≤ e.beats + 1 ∧
        e.vl ≤ (th (wQ e) 0).v.rows * 1024 / typeWidth e.vt ∧ (th (wQ e) 0).v.rows ≤ 32 ∧ isAnyType e.vt = true ∧
        e.d ≠ e.a ∧ e.d ≠ e.b ∧ e.a ≠ e.b ∧ e.b < 32 ∧ (x.1 = .vid → isInt e.vt = true) ∧
        e.vl * typeWidth e.b ≤ 32 * 1024 := by
  simp only [LaneHolds]; and_intros <;> decide

theorem witness_LaneMasks :
    (∀ x ∈ [(VOp.vceq, 8), (.vcne, 6), (.vclt, 10), (.vcle, 11), (.vcltu, 8), (.vcleu, 6), (.vfceq, 0), (.vfclt, 1),
        (.vfcle, 2), (.vfcun, 9), (.mand, 8), (.mor, 8), (.mxor, 8), (.mandn, 8), (.mnot, 8), (.mset, 8), (.mpop, 8),
        (.mfirst, 8), (.miota, 8)],
      let e := wL x.1 x.2
      LaneHolds (wQ e) 0 0 e ∧ LaneLength e ≤ e.beats + 1 ∧ e.vl * typeWidth e.vt ≤ 32 * 1024) ∧
    (let e := { wL .mfirst 8 with a := 0 }
     activeBit (wQ e) 0 e 0 = true) ∧
    (let e := wL .mfirst 8
     LaneHolds (wQ e) 0 0 e ∧ ∀ i < e.vl, (tget (th (wQ e) 0).v.masks e.a 0).getLsbD i = false) := by
  simp only [LaneHolds]; and_intros <;> decide

theorem witness_LaneReductions :
    (∀ x ∈ [(VOp.vredsum, 8), (.vredmin, 6), (.vredmax, 11), (.vfredmin, 0), (.vfredmax, 9), (.vfredo, 1), (.vfredt, 0)],
      let e := wL x.1 x.2
      LaneHolds (wQ e) 0 0 e ∧ e.vl * typeWidth e.vt ≤ 32 * 1024 ∧
        (e.vl * typeWidth e.vt + 1023) / 1024 + 5 ≤ e.beats + 1 ∧
        e.elem < e.vl ∧ (List.range e.vl).countP (activeBit (wQ e) 0 e) + 1 ≤ e.beats + 1 ∧
        (isInt e.vt || isFlt e.vt) = true ∧
        e.d ≠ e.b ∧ e.cont = false ∧ e.elem = 0 ∧ e.vl ≤ 2 ^ 3 ∧ ∀ k < 3, 2 ^ k < e.vl) := by
  simp only [LaneHolds]; and_intros <;> decide

theorem witness_SystemRegisterEncodes :
    ∀ i ∈ [Instr.sread 0 5 0x400, .swrite 0 5 7 0xBFF, .sset 0 5 7 0xC00, .sclr 0 5 7 0xFFF], (encode i).isSome = true := by
  decide

/-- A group table all of whose entries are in use. -/
def wFull : Nat → Tab Group
  | 0 => []
  | n + 1 => (n, { used := true }) :: wFull n

theorem wFull_used : ∀ n k, k < n → (tget (wFull n) k {}).used = true
  | n + 1, k, h => by
    unfold wFull tget
    split
    · rfl
    · exact wFull_used n k (by omega)

theorem witness_FullGroupTable :
    let s := { wS wT with groups := wFull 4096 }
    rd s 0 = 0 ∧ ∀ j, ¬FreeEntry s j := by
  refine ⟨rfl, fun j h => ?_⟩
  obtain ⟨i, hi, hk, hu, -⟩ := h
  obtain rfl : j = i := hk.trans (Nat.zero_add i)
  exact Bool.noConfusion ((wFull_used 4096 j hi).symm.trans hu)

theorem witness_FloatRounding :
    (FiniteCode 8 23 0x3F800001 ∧ FiniteCode 8 23 0x80000001 ∧ FiniteCode 8 23 0 ∧ 0x80000001 % 2 ^ 31 ≠ 0 ∧
      0x3F800001 < 2 ^ 31 ∧ 0 % 2 ^ 31 = 0) ∧
    (FiniteCode 11 52 0x3FF0000000000001 ∧ FiniteCode 11 52 0x8000000000000001 ∧ FiniteCode 11 52 0 ∧
      0x8000000000000001 % 2 ^ 63 ≠ 0 ∧ 0x3FF0000000000001 < 2 ^ 63 ∧ 0 % 2 ^ 63 = 0) ∧
    (FiniteCode 8 7 0x3F81 ∧ FiniteCode 8 7 0x8001 ∧ FiniteCode 8 7 0 ∧ 0x8001 % 2 ^ 15 ≠ 0 ∧ 0x3F81 < 2 ^ 15) ∧
    (FiniteCode 5 10 0x3C01 ∧ FiniteCode 5 10 0x8001 ∧ FiniteCode 5 10 0 ∧ 0x8001 % 2 ^ 15 ≠ 0 ∧ 0x3C01 < 2 ^ 15) ∧
    (-(2 ^ 15) ≤ (-32768 : Int) ∧ (-32768 : Int) < 2 ^ 15) ∧
    (∀ y < 10, FiniteElem (pairTypes y).1 1 ∧ FiniteElem (pairTypes y).2 1) ∧
    (7 < 10 ∧ 5 < 2 ^ 32 ∧ [1].length = [1].length ∧ (∀ x ∈ [1], FiniteElem (pairTypes 7).1 x) ∧
      ((6 : Int) : ℝ) = (BitVec.ofNat 32 5).toInt +
        (([1].zip [1]).map fun e => elemReal (pairTypes 7).1 e.1 * elemReal (pairTypes 7).2 e.2).sum) ∧
    (¬FiniteCode 8 23 0x7FC00000 ∧ (fmtE2m1, 6, 7) ∈ [(fmtE2m1, 6, 7), (fmtE4m3, 448, 126)] ∧
      (quantise fmtE2m1 6 [0x3F800001]).1 ≠ 0 ∧ 5 ≠ (quantise fmtE2m1 6 [0x3F800001]).2.1.getD 0 0 % 2 ^ (2 + 1)) := by
  refine ⟨?_, ?_, ?_, ?_, ?_, ?_, ?_, ?_⟩
  all_goals try first | decide | (simp only [FiniteCode]; decide)
  · intro y h
    interval_cases y <;> simp only [FiniteElem, FiniteCode, pairTypes] <;> decide
  · refine ⟨by decide, by decide, rfl, ?_, ?_⟩
    · simp only [FiniteElem, FiniteCode]; decide
    · simp [elemReal, pairTypes]; norm_num

end Sys2Proof.Tests
end

section
/-! PROOFS. Every step keeps the canonical form of the three memories (`Obligations.StepKeepsMemory`). A function of the
model that yields a state takes states with `MemoriesWf` to states with it: one lemma for each, named after the function,
in the order of the model's files, so that a proof follows the function's own branches and cites the lemmas about the
functions that it calls. The memories themselves change in a few functions only (`pokeLoc`, `storeBytes`, `homePut`,
`backHost`, `vPut`, `vClear`, the scrubs and the resets), whose lemmas rest on `mput_wf`, `mwr_wf`, `mputs_wf` and
`mzero_wf`; every other write is a record update that names no memory (`MemoriesWf.upd`). -/

namespace Sys2Proof

open Machine

variable {α β : Type} {s t : State} {c : Prop} {d : Decidable c}

/-- What both branches of an `if` have, the `if` has: for every predicate below. -/
theorem holds_ite {P : α → Prop} {a b : α} (h : P a) (k : P b) : P (@ite _ c d a b) := by split <;> assumption

/-- A record update that names none of the three memories keeps their form. -/
theorem MemoriesWf.upd
    {agenda turn cycle cur slot snap last fresh order threads cores benches tiles near poison peerLines dv posts
    waiters arms wakes groups halos haloDirty haloRep mcasts streams hostLines tlb wcache uses pages pageGens
    pageWaits queues lanes models kernels kernelNext served heads ctxs jobs jobNext lineages nonces parts pkg ports
    routes domains xgroups stuck lateRecs denied vfs fences hdm eths lehr out}
    (h : MemoriesWf s) : MemoriesWf (.mk
    agenda turn cycle cur slot snap last fresh order threads cores benches s.mem s.spads s.vregs tiles near poison
    peerLines dv posts waiters arms wakes groups halos haloDirty haloRep mcasts streams hostLines tlb wcache uses
    pages pageGens pageWaits queues lanes models kernels kernelNext served heads ctxs jobs jobNext lineages nonces
    parts pkg ports routes domains xgroups stuck lateRecs denied vfs fences hdm eths lehr out) := h

theorem MemoriesWf.ite (h : MemoriesWf s) (k : MemoriesWf t) : MemoriesWf (@ite _ c d s t) := holds_ite h k

theorem MemoriesWf.foldl {f : State → α → State} {l : List α} (h : MemoriesWf s)
    (k : ∀ s x, MemoriesWf s → MemoriesWf (f s x)) : MemoriesWf (l.foldl f s) :=
  List.foldlRecOn l f h fun s h x _ => k s x h

/-- A pair of a value and a state in form. -/
def SndWf (r : α × State) : Prop := MemoriesWf r.2

/-- A pair of a state in form and a value. -/
def FstWf (r : State × α) : Prop := MemoriesWf r.1

/-- A triple whose last part is a state in form. -/
def SndSndWf (r : α × β × State) : Prop := MemoriesWf r.2.2

/-- No state, or one in form. -/
def OptionWf : Option State → Prop
  | some s => MemoriesWf s
  | none => True

/-- An outcome whose next state, if it has one, is in form. -/
def OutWf : Out → Prop
  | .next s => MemoriesWf s
  | _ => True

/-- Either state is in form. -/
def ExceptWf : Except State State → Prop
  | .ok s | .error s => MemoriesWf s

/-- Nothing, or a value with a state in form. -/
def OptionSndWf : Option (α × State) → Prop
  | some (_, s) => MemoriesWf s
  | none => True

/-- A load's result has a state in form. -/
def LdWf : Ld → Prop
  | .value _ s | .hold s | .failed _ s | .ends s => MemoriesWf s

theorem LdWf.value {r : Ld} {x0} (h : LdWf r) (e : r = .value x0 s) : MemoriesWf s := by
  subst e; exact h

theorem LdWf.hold {r : Ld} (h : LdWf r) (e : r = .hold s) : MemoriesWf s := by
  subst e; exact h

theorem LdWf.failed {r : Ld} {x0} (h : LdWf r) (e : r = .failed x0 s) : MemoriesWf s := by
  subst e; exact h

theorem LdWf.ends {r : Ld} (h : LdWf r) (e : r = .ends s) : MemoriesWf s := by
  subst e; exact h

/-- A command's result has a state in form. -/
def HResWf : HRes → Prop
  | .done s | .more s _ | .ends s | .fault _ _ _ s => MemoriesWf s

theorem HResWf.done {r : HRes} (h : HResWf r) (e : r = .done s) : MemoriesWf s := by
  subst e; exact h

theorem HResWf.more {r : HRes} {x1} (h : HResWf r) (e : r = .more s x1) : MemoriesWf s := by
  subst e; exact h

theorem HResWf.ends {r : HRes} (h : HResWf r) (e : r = .ends s) : MemoriesWf s := by
  subst e; exact h

theorem HResWf.fault {r : HRes} {x0 x1 x2} (h : HResWf r) (e : r = .fault x0 x1 x2 s) : MemoriesWf s := by
  subst e; exact h

/-- An element's place, if there is one, has a state in form. -/
def ElemAtWf : ElemAt → Prop
  | .ok _ _ s => MemoriesWf s
  | _ => True

theorem ElemAtWf.ok {r : ElemAt} {x0 x1} (h : ElemAtWf r) (e : r = .ok x0 x1 s) : MemoriesWf s := by
  subst e; exact h

/-- A tile load's result has a state in form. -/
def TLoadWf : TLoad → Prop
  | .all s _ | .hold s | .bad _ _ _ _ s _ => MemoriesWf s

theorem TLoadWf.all {r : TLoad} {x1} (h : TLoadWf r) (e : r = .all s x1) : MemoriesWf s := by
  subst e; exact h

theorem TLoadWf.hold {r : TLoad} (h : TLoadWf r) (e : r = .hold s) : MemoriesWf s := by
  subst e; exact h

theorem TLoadWf.bad {r : TLoad} {x0 x1 x2 x3 x5} (h : TLoadWf r) (e : r = .bad x0 x1 x2 x3 s x5) : MemoriesWf s := by
  subst e; exact h

/-- A try at a ring has a state in form where it has one. -/
def RingTryWf : RingTry → Prop
  | .wrote s | .full s | .refused _ s => MemoriesWf s
  | _ => True

theorem RingTryWf.wrote {r : RingTry} (h : RingTryWf r) (e : r = .wrote s) : MemoriesWf s := by
  subst e; exact h

theorem RingTryWf.full {r : RingTry} (h : RingTryWf r) (e : r = .full s) : MemoriesWf s := by
  subst e; exact h

theorem RingTryWf.refused {r : RingTry} {x0} (h : RingTryWf r) (e : r = .refused x0 s) : MemoriesWf s := by
  subst e; exact h

/-- A region's translation has a state in form. -/
def HaloXlWf : HaloXl → Prop
  | .ok _ s | .bad s | .ends s => MemoriesWf s

theorem HaloXlWf.ok {r : HaloXl} {x0} (h : HaloXlWf r) (e : r = .ok x0 s) : MemoriesWf s := by
  subst e; exact h

theorem HaloXlWf.bad {r : HaloXl} (h : HaloXlWf r) (e : r = .bad s) : MemoriesWf s := by
  subst e; exact h

theorem HaloXlWf.ends {r : HaloXl} (h : HaloXlWf r) (e : r = .ends s) : MemoriesWf s := by
  subst e; exact h

/-- A counter's place or its fault has a state in form. -/
def CtrAtWf : CtrAt → Prop
  | .at_ _ s | .fault _ s | .ends s => MemoriesWf s

theorem CtrAtWf.at_ {r : CtrAt} {x0} (h : CtrAtWf r) (e : r = .at_ x0 s) : MemoriesWf s := by
  subst e; exact h

theorem CtrAtWf.fault {r : CtrAt} {x0} (h : CtrAtWf r) (e : r = .fault x0 s) : MemoriesWf s := by
  subst e; exact h

theorem CtrAtWf.ends {r : CtrAt} (h : CtrAtWf r) (e : r = .ends s) : MemoriesWf s := by
  subst e; exact h

/-- A counter's value has a state in form. -/
def CtrValWf : CtrVal → Prop
  | .value _ s | .hold s | .ends s => MemoriesWf s

theorem CtrValWf.value {r : CtrVal} {x0} (h : CtrValWf r) (e : r = .value x0 s) : MemoriesWf s := by
  subst e; exact h

theorem CtrValWf.hold {r : CtrVal} (h : CtrValWf r) (e : r = .hold s) : MemoriesWf s := by
  subst e; exact h

theorem CtrValWf.ends {r : CtrVal} (h : CtrValWf r) (e : r = .ends s) : MemoriesWf s := by
  subst e; exact h

/-- An engine's add has a state in form. -/
def EAddWf : EAdd → Prop
  | .ok s | .refused s | .walk s | .miss _ _ _ s | .wait s => MemoriesWf s

theorem EAddWf.ok {r : EAdd} (h : EAddWf r) (e : r = .ok s) : MemoriesWf s := by
  subst e; exact h

theorem EAddWf.refused {r : EAdd} (h : EAddWf r) (e : r = .refused s) : MemoriesWf s := by
  subst e; exact h

theorem EAddWf.walk {r : EAdd} (h : EAddWf r) (e : r = .walk s) : MemoriesWf s := by
  subst e; exact h

theorem EAddWf.miss {r : EAdd} {x0 x1 x2} (h : EAddWf r) (e : r = .miss x0 x1 x2 s) : MemoriesWf s := by
  subst e; exact h

theorem EAddWf.wait {r : EAdd} (h : EAddWf r) (e : r = .wait s) : MemoriesWf s := by
  subst e; exact h

/-- A tile command's end has a state in form. -/
def TDoneWf : TDone → Prop
  | .done s | .wait s | .refused _ s => MemoriesWf s

theorem TDoneWf.done {r : TDone} (h : TDoneWf r) (e : r = .done s) : MemoriesWf s := by
  subst e; exact h

theorem TDoneWf.wait {r : TDone} (h : TDoneWf r) (e : r = .wait s) : MemoriesWf s := by
  subst e; exact h

theorem TDoneWf.refused {r : TDone} {x0} (h : TDoneWf r) (e : r = .refused x0 s) : MemoriesWf s := by
  subst e; exact h

/-- A target's state, if it has one, is in form. -/
def TargetWf : Target → Prop
  | .ends s => MemoriesWf s
  | _ => True

theorem TargetWf.ends {r : Target} (h : TargetWf r) (e : r = .ends s) : MemoriesWf s := by
  subst e; exact h

/-- A special-register write's state, if it has one, is in form. -/
def SWrWf : SWr → Prop
  | .ok s | .waits s | .ends s => MemoriesWf s
  | _ => True

theorem SWrWf.ok {r : SWr} (h : SWrWf r) (e : r = .ok s) : MemoriesWf s := by
  subst e; exact h

theorem SWrWf.waits {r : SWr} (h : SWrWf r) (e : r = .waits s) : MemoriesWf s := by
  subst e; exact h

theorem SWrWf.ends {r : SWr} (h : SWrWf r) (e : r = .ends s) : MemoriesWf s := by
  subst e; exact h

/-- A step of a tile command has a state in form. -/
def TStepWf : TStep → Prop
  | .ok s _ _ _ | .fault _ _ _ _ _ s => MemoriesWf s

theorem TStepWf.ok {r : TStep} {x1 x2 x3} (h : TStepWf r) (e : r = .ok s x1 x2 x3) : MemoriesWf s := by
  subst e; exact h

theorem TStepWf.fault {r : TStep} {x0 x1 x2 x3 x4} (h : TStepWf r) (e : r = .fault x0 x1 x2 x3 x4 s) :
    MemoriesWf s := by
  subst e; exact h

/-- A fetch has a state in form. -/
def FetchWf : Fetch → Prop
  | .unit _ s | .ends s => MemoriesWf s

theorem FetchWf.unit {r : Fetch} {x0} (h : FetchWf r) (e : r = .unit x0 s) : MemoriesWf s := by
  subst e; exact h

theorem FetchWf.ends {r : Fetch} (h : FetchWf r) (e : r = .ends s) : MemoriesWf s := by
  subst e; exact h

/-- A status, or a state in form. -/
def SumWf : α ⊕ State → Prop
  | .inr s => MemoriesWf s
  | .inl _ => True

/-- A counter's place with its state, or a value with a state in form. -/
def VaddWf : CtrAt ⊕ α × State → Prop
  | .inl r => CtrAtWf r
  | .inr (_, s) => MemoriesWf s

/-- A gathered list or where it stops, with a state in form. -/
def GatherWf : Gather α → Prop
  | .all _ s | .stop _ _ _ _ s => MemoriesWf s

/-- A list, or a command's result that is in form. -/
def TileListWf : Except HRes α → Prop
  | .error r => HResWf r
  | .ok _ => True

/-- A line of a multicast's source or its fault, with a state in form. -/
def McLineWf : Except (XReq × ChAt × State) (α × State) → Prop
  | .ok (_, s) | .error (_, _, s) => MemoriesWf s

/-- The bytes of a multicast's source or their fault, with a state in form. -/
def McBytesWf : Except (XReq × Nat × ChAt × State) (α × State) → Prop
  | .ok (_, s) | .error (_, _, _, s) => MemoriesWf s

theorem SumWf.of_eq {r : α ⊕ State} (h : SumWf r) (e : r = .inr s) : MemoriesWf s := by subst e; exact h

theorem VaddWf.at_ {r : CtrAt ⊕ α × State} {l} (h : VaddWf r) (e : r = .inl (.at_ l s)) :
    MemoriesWf s := by subst e; exact h

theorem VaddWf.fault {r : CtrAt ⊕ α × State} {n} (h : VaddWf r) (e : r = .inl (.fault n s)) :
    MemoriesWf s := by subst e; exact h

theorem VaddWf.ends {r : CtrAt ⊕ α × State} (h : VaddWf r) (e : r = .inl (.ends s)) :
    MemoriesWf s := by subst e; exact h

theorem VaddWf.inr {r : CtrAt ⊕ α × State} {x} (h : VaddWf r) (e : r = .inr (x, s)) :
    MemoriesWf s := by subst e; exact h

theorem GatherWf.all {r : Gather α} {x} (h : GatherWf r) (e : r = .all x s) : MemoriesWf s := by subst e; exact h

theorem GatherWf.stop {r : Gather α} {x n a y} (h : GatherWf r) (e : r = .stop x n a y s) :
    MemoriesWf s := by subst e; exact h

theorem TileListWf.error {r : Except HRes α} {q} (h : TileListWf r) (e : r = .error q) :
    HResWf q := by subst e; exact h

theorem McLineWf.ok {r : Except (XReq × ChAt × State) (α × State)} {x} (h : McLineWf r) (e : r = .ok (x, s)) :
    MemoriesWf s := by
  subst e; exact h

theorem McLineWf.error {r : Except (XReq × ChAt × State) (α × State)} {x y} (h : McLineWf r)
    (e : r = .error (x, y, s)) :
    MemoriesWf s := by
  subst e; exact h

theorem McBytesWf.ok {r : Except (XReq × Nat × ChAt × State) (α × State)} {x} (h : McBytesWf r)
    (e : r = .ok (x, s)) :
    MemoriesWf s := by
  subst e; exact h

theorem McBytesWf.error {r : Except (XReq × Nat × ChAt × State) (α × State)} {x y z} (h : McBytesWf r)
    (e : r = .error (x, y, z, s)) :
    MemoriesWf s := by
  subst e; exact h

/-- A value beside a load's result that is in form. -/
def LdSndWf (r : α × Ld) : Prop := LdWf r.2

theorem LdSndWf.value {r : α × Ld} {x v} (h : LdSndWf r) (e : r = (x, .value v s)) :
    MemoriesWf s := by subst e; exact h

theorem LdSndWf.hold {r : α × Ld} {x} (h : LdSndWf r) (e : r = (x, .hold s)) : MemoriesWf s := by subst e; exact h

theorem LdSndWf.failed {r : α × Ld} {x v} (h : LdSndWf r) (e : r = (x, .failed v s)) :
    MemoriesWf s := by subst e; exact h

theorem LdSndWf.ends {r : α × Ld} {x} (h : LdSndWf r) (e : r = (x, .ends s)) : MemoriesWf s := by subst e; exact h

theorem SndSndWf.of_eq {r : α × β × State} {x : α} {y : β} (h : SndSndWf r) (e : r = (x, y, s)) :
    MemoriesWf s := by subst e; exact h

theorem OptionSndWf.of_eq {r : Option (α × State)} {x : α} (h : OptionSndWf r) (e : r = some (x, s)) :
    MemoriesWf s := by subst e; exact h

theorem ExceptWf.ok {r : Except State State} (h : ExceptWf r) (e : r = .ok s) : MemoriesWf s := by subst e; exact h

theorem ExceptWf.error {r : Except State State} (h : ExceptWf r) (e : r = .error s) :
    MemoriesWf s := by subst e; exact h

theorem OptionWf.getD {r : Option State} (h : OptionWf r) (k : MemoriesWf s) : MemoriesWf (r.getD s) := by
  cases r
  · exact k
  · exact h

theorem OptionWf.map {r : Option State} {f : State → State} (h : OptionWf r)
    (hf : ∀ s, MemoriesWf s → MemoriesWf (f s)) :
    
    OptionWf (r.map f) := by
  cases r
  · trivial
  · exact hf _ h

theorem OptionWf.bind {r : Option α} {f : α → Option State} (hf : ∀ x, OptionWf (f x)) : OptionWf (r.bind f) := by
  cases r
  · trivial
  · exact hf _

theorem OptionWf.findSome {f : α → Option State} {xs : List α} (hf : ∀ x, OptionWf (f x)) :
    OptionWf (xs.findSome? f) := by
  induction xs with
  | nil => trivial
  | cons x xs ih =>
    rw [List.findSome?_cons]
    split
    next e => exact e ▸ hf x
    · exact ih

theorem OptionWf.orElse {r : Option State} {f : Unit → Option State} (h : OptionWf r) (hf : OptionWf (f ())) :
    OptionWf (r.orElse f) := by
  cases r
  · exact hf
  · exact h

theorem FstWf.foldl {f : State × β → α → State × β} {l : List α} {r : State × β} (h : FstWf r)
    (k : ∀ r x, FstWf r → FstWf (f r x)) : FstWf (l.foldl f r) :=
  List.foldlRecOn l f h fun r h x _ => k r x h

theorem MemoriesWf.upto {n : Nat} {f : Nat → State → State} (h : MemoriesWf s)
    (k : ∀ x s, MemoriesWf s → MemoriesWf (f x s)) : MemoriesWf (upto n f s) := by
  induction n with
  | zero => exact h
  | succ n ih => exact k _ _ ih

theorem SndWf.snd {r : α × State} (h : SndWf r) : MemoriesWf r.2 := h

theorem FstWf.fst {r : State × α} (h : FstWf r) : MemoriesWf r.1 := h

theorem SndWf.of_eq {r : α × State} {x : α} (h : SndWf r) (e : r = (x, s)) : MemoriesWf s := by subst e; exact h

theorem FstWf.of_eq {r : State × α} {x : α} (h : FstWf r) (e : r = (s, x)) : MemoriesWf s := by subst e; exact h

theorem OptionWf.of_eq {r : Option State} (h : OptionWf r) (e : r = some s) : MemoriesWf s := by subst e; exact h

theorem OutWf.intro {r : Out} (h : ∀ s, r = .next s → MemoriesWf s) : OutWf r := by
  cases r with
  | next s => exact h s rfl
  | _ => trivial

theorem OutWf.of_eq {r : Out} (h : OutWf r) (e : r = .next s) : MemoriesWf s := by subst e; exact h

theorem SndWf.ite {r q : α × State} (h : SndWf r) (k : SndWf q) : SndWf (@ite _ c d r q) := holds_ite h k

theorem FstWf.ite {r q : State × α} (h : FstWf r) (k : FstWf q) : FstWf (@ite _ c d r q) := holds_ite h k

theorem OptionWf.ite {r q : Option State} (h : OptionWf r) (k : OptionWf q) :
    OptionWf (@ite _ c d r q) := holds_ite h k

theorem OutWf.ite {r q : Out} (h : OutWf r) (k : OutWf q) : OutWf (@ite _ c d r q) := holds_ite h k

theorem holds_of_eq {P : α → Prop} {a b : α} (h : P a) (e : a = b) : P b := e ▸ h

end Sys2Proof
end

section
/-! ### Registers, traps and the other shared operations -/

namespace Sys2Proof

open Machine

variable {s s1 : State} {tid core n ctx : Nat} {addr : Word} {l : Loc} {p : BitVec 1} {d a b : BitVec 5}

theorem MemoriesWf.setTh {t : Nat} {x : Thread} (h : MemoriesWf s) : MemoriesWf (setTh s t x) := h.upd

theorem MemoriesWf.setMe {x : Thread} (h : MemoriesWf s) : MemoriesWf (setMe s x) := h.setTh

theorem MemoriesWf.setCo {c : Nat} {x : Core} (h : MemoriesWf s) : MemoriesWf (setCo s c x) := h.upd

theorem MemoriesWf.setCx {x : Ctx} (h : MemoriesWf s) : MemoriesWf (setCx s n x) := h.upd

theorem MemoriesWf.setKn {x : Kernel} (h : MemoriesWf s) : MemoriesWf (setKn s n x) := h.upd

theorem MemoriesWf.setQu {x : Queue} (h : MemoriesWf s) : MemoriesWf (setQu s n x) := h.upd

theorem MemoriesWf.setVf {x : Vf} (h : MemoriesWf s) : MemoriesWf (setVf s n x) := h.upd

theorem MemoriesWf.tick (h : MemoriesWf s) : MemoriesWf (tick s) := h.upd

theorem MemoriesWf.free (h : MemoriesWf s) : SndWf (free s) := h.upd

theorem MemoriesWf.wr {r : BitVec 5} {v : Word} (h : MemoriesWf s) : MemoriesWf (wr s r v) := h.ite h.setMe

theorem MemoriesWf.wrOf {r : Nat} {v : Word} (h : MemoriesWf s) : MemoriesWf (wrOf s tid r v) := h.ite h.setTh

theorem MemoriesWf.goto {pc : Word} {from_ : Option Word} (h : MemoriesWf s) : MemoriesWf (goto s pc from_) :=
  h.setMe.upd.ite h.upd

theorem MemoriesWf.finish (h : MemoriesWf s) : MemoriesWf (finish s p) := h.goto

theorem MemoriesWf.held (h : MemoriesWf s) : MemoriesWf (held s) := h.upd

theorem MemoriesWf.holdAt {stage : Nat} {a b : Word} (h : MemoriesWf s) : MemoriesWf (holdAt s stage a b n) :=
  h.setMe.upd

theorem MemoriesWf.enterTrap {hyp int : Bool} {slot code : Nat} {epc val : Word}
    {guest : Option (Word × Bool × Bool)} (h : MemoriesWf s) :
    MemoriesWf (enterTrap s tid hyp int slot code epc val guest) :=
  h.setTh.ite h.setTh

theorem MemoriesWf.raiseWith {c : Nat} {v : Word} {guest : Option (Word × Bool × Bool)} (h : MemoriesWf s) :
    MemoriesWf (raiseWith s c v guest) :=
  (h.enterTrap.ite h.setMe).upd

theorem MemoriesWf.raise {c : Nat} {v : Word} (h : MemoriesWf s) : MemoriesWf (raise s c v) := h.raiseWith

theorem MemoriesWf.illegal {w : Nat} (h : MemoriesWf s) : MemoriesWf (illegal s w) := h.raise

theorem MemoriesWf.privFault {w : Nat} (h : MemoriesWf s) : MemoriesWf (privFault s w) := h.raise

theorem MemoriesWf.trapReturn {w : Nat} (h : MemoriesWf s) : MemoriesWf (trapReturn s w) := by
  unfold Machine.trapReturn
  dsimp only
  split
  · exact h.raise
  · exact h.raise.ite h.setMe.goto
  · exact h.raise.ite h.setMe.goto

theorem MemoriesWf.asThread (h : MemoriesWf s) : MemoriesWf (asThread s tid) := h.upd

theorem MemoriesWf.orFlags {f : BitVec 5} (h : MemoriesWf s) : MemoriesWf (orFlags s tid f) := h.setTh

theorem MemoriesWf.setPend {code : Nat} (h : MemoriesWf s) : MemoriesWf (setPend s tid code) := h.setTh

theorem MemoriesWf.routed {part code : Nat} (h : MemoriesWf s) : MemoriesWf (routed s part code) := by
  unfold Machine.routed
  split
  · exact h.setPend
  · exact h

theorem MemoriesWf.setGr {k : Nat} {x : Machine.Group} (h : MemoriesWf s) : MemoriesWf (setGr s k x) := h.upd

end Sys2Proof
end

section
/-! ### Long results -/

namespace Sys2Proof

open Machine

variable {s s1 : State} {tid core n ctx : Nat} {addr : Word} {l : Loc} {p : BitVec 1} {d a b : BitVec 5}

theorem MemoriesWf.longResult {la : BitVec 4} {r : LongRes} (h : MemoriesWf s) :
    MemoriesWf (longResult s d la r) := by
  unfold Machine.longResult
  split
  · exact h.setMe
  · exact h.setMe
  · exact h.ite h.setMe

end Sys2Proof
end

section
/-! ### Accesses at a byte's home, copies and releases -/

namespace Sys2Proof

open Machine

variable {s s1 : State} {tid core n ctx : Nat} {addr : Word} {l : Loc} {p : BitVec 1} {d a b : BitVec 5}

theorem MemoriesWf.wakeIf {p : Word → Bool} (h : MemoriesWf s) : MemoriesWf (wakeIf s l p) := h.upd

theorem MemoriesWf.fireArm {a : Arm} (h : MemoriesWf s) : MemoriesWf (fireArm s a) := by
  unfold Machine.fireArm
  split
  · exact h.setPend
  · exact h.upd.ite h.setVf.upd

theorem MemoriesWf.fireArms {v : Word} (h : MemoriesWf s) : MemoriesWf (fireArms s l v) :=
  h.upd.foldl fun _ _ k => k.fireArm

theorem MemoriesWf.touched (h : MemoriesWf s) : MemoriesWf (touched s l n) :=
  h.foldl fun _ _ k => k.wakeIf.fireArms

theorem MemoriesWf.dropBuilt (h : MemoriesWf s) : MemoriesWf (dropBuilt s l n) := by
  unfold Machine.dropBuilt
  split
  · exact h.upd
  · exact h

theorem MemoriesWf.withMem {m : Memory} (h : MemoriesWf s) (k : m.wf = true) : MemoriesWf { s with mem := m } :=
  ⟨k, h.2⟩

theorem MemoriesWf.withSpads {m : Memory} (h : MemoriesWf s) (k : m.wf = true) : MemoriesWf { s with spads := m } :=
  ⟨h.1, k, h.2.2⟩

theorem MemoriesWf.withVregs {m : Memory} (h : MemoriesWf s) (k : m.wf = true) : MemoriesWf { s with vregs := m } :=
  ⟨h.1, h.2.1, k⟩

theorem MemoriesWf.mem_wf (h : MemoriesWf s) : s.mem.wf = true := h.1

theorem MemoriesWf.spads_wf (h : MemoriesWf s) : s.spads.wf = true := h.2.1

theorem MemoriesWf.vregs_wf (h : MemoriesWf s) : s.vregs.wf = true := h.2.2

theorem MemoriesWf.pokeLoc {v : Nat} (h : MemoriesWf s) : MemoriesWf (pokeLoc s l n v) := by
  cases l with
  | mem k => exact h.withMem (mwr_wf h.mem_wf k n v)
  | spad c o => exact h.withSpads (mwr_wf h.spads_wf (spKey c o) n v)
  | near c e => exact h.upd

theorem MemoriesWf.storeAt {v : Nat} (h : MemoriesWf s) : MemoriesWf (storeAt s l n v) :=
  (h.dropBuilt.pokeLoc.upd.ite h.dropBuilt.pokeLoc).touched

theorem MemoriesWf.storeBytes {bs : List Byte} (h : MemoriesWf s) : MemoriesWf (Machine.storeBytes s l bs) := by
  refine .touched (.upd ?_)
  have h1 : MemoriesWf (Machine.dropBuilt s l bs.length) := h.dropBuilt
  cases l with
  | mem k => exact h1.withMem (mputs_wf h1.mem_wf k bs)
  | spad c o => exact h1.withSpads (mputs_wf h1.spads_wf (spKey c o) bs)
  | near c e => exact h1.upd

theorem MemoriesWf.addAt {n : Word} (h : MemoriesWf s) : MemoriesWf (addAt s l n) :=
  h.dropBuilt.pokeLoc.wakeIf.fireArms

theorem MemoriesWf.resetAt (h : MemoriesWf s) : MemoriesWf (resetAt s l) := h.dropBuilt.pokeLoc.wakeIf.fireArms

theorem MemoriesWf.stick {kind seq : Nat} (h : MemoriesWf s) : MemoriesWf (stick s tid kind addr seq l) :=
  h.ite h.upd

theorem MemoriesWf.unstick {kind seq : Nat} (h : MemoriesWf s) : MemoriesWf (unstick s tid kind addr seq) := h.upd

theorem unslice_wf {m : Memory} (h : m.wf = true) (a n : Nat) (d : Memory) : (unslice m a n d).wf = true :=
  List.foldlRecOn (motive := fun m => Memory.wf m = true) d _ (mzero_wf h a n) fun _ k e _ => mput_wf k (a + e.1)
    e.2

theorem MemoriesWf.homePut {key : Nat} {d : Memory} (h : MemoriesWf s) : MemoriesWf (Machine.homePut s key n d) :=
  (h.withMem (unslice_wf h.mem_wf key n d)).dropBuilt.touched

theorem MemoriesWf.backPeer {line : Nat} (h : MemoriesWf s) : MemoriesWf (backPeer s line) := by
  unfold Machine.backPeer
  split
  · exact h.ite (h.stick.ite h.upd.homePut)
  · exact h

theorem MemoriesWf.backPeers {p : PeerLine → Bool} (h : MemoriesWf s) : MemoriesWf (backPeers s p) :=
  h.foldl fun _ _ k => k.backPeer

theorem MemoriesWf.releaseWait {scope : Nat} (h : MemoriesWf s) : OptionWf (releaseWait s ctx scope) := by
  unfold Machine.releaseWait
  split
  · exact trivial
  · exact h.foldl fun _ _ k => k.backPeer

theorem MemoriesWf.backHost {half : Nat} (h : MemoriesWf s) : MemoriesWf (Machine.backHost s half) := by
  unfold Machine.backHost
  split
  next q _ => exact (h.withMem (unslice_wf h.mem_wf (half * 64) 64 q.data)).upd.dropBuilt.ite h
  · exact h

theorem MemoriesWf.dropHost {half : Nat} (h : MemoriesWf s) : MemoriesWf (dropHost s half) := h.backHost.upd

theorem MemoriesWf.l2drop {line : Nat} (h : MemoriesWf s) : MemoriesWf (l2drop s line) :=
  h.dropHost.dropHost.ite h.backPeer.upd

theorem MemoriesWf.toHome (h : MemoriesWf s) : MemoriesWf (toHome s l) := by
  unfold Machine.toHome
  split
  · exact h.l2drop.ite h
  · exact h

theorem MemoriesWf.l2Make {line : Nat} (h : MemoriesWf s) : MemoriesWf (l2Make s line) := by
  unfold Machine.l2Make
  refine h.ite ?_
  split
  · exact h.l2drop
  · exact h

theorem MemoriesWf.hostFill {half : Nat} (h : MemoriesWf s) : MemoriesWf (hostFill s half) := by
  unfold Machine.hostFill
  split
  · exact h
  · exact h.upd

theorem MemoriesWf.l2fill {line : Nat} (h : MemoriesWf s) : MemoriesWf (l2fill s line) := by
  unfold Machine.l2fill
  refine .ite ?_ (((h.ite h.l2Make).hostFill.hostFill.ite (h.ite h.l2Make)).ite h)
  split
  · exact h
  · exact h.l2Make.upd.ite h.l2Make

theorem MemoriesWf.l2store {v : Nat} (h : MemoriesWf s) : MemoriesWf (l2store s l n v ctx) := by
  unfold Machine.l2store
  split
  · refine .ite ?_ (.ite ?_ h.l2fill.storeAt)
    · split
      · exact h.l2fill.upd
      · exact h.l2fill.storeAt
    · split
      · exact h.l2fill.upd
      · exact h.l2fill.storeAt
  · exact h.storeAt

theorem MemoriesWf.l1fill {line : Nat} (h : MemoriesWf s) : MemoriesWf (l1fill s core line) := h.setCo.ite h

theorem MemoriesWf.l1pass {v : Nat} (h : MemoriesWf s) : MemoriesWf (l1pass s core l n v) := by
  unfold Machine.l1pass
  split
  · dsimp only
    split
    · exact h.setCo
    · exact h
  · exact h

theorem MemoriesWf.bumpBench (h : MemoriesWf s) : MemoriesWf (bumpBench s core) := h.setCo

theorem MemoriesWf.bumpDomain (h : MemoriesWf s) : MemoriesWf (bumpDomain s) := h.backPeers.upd

theorem MemoriesWf.acquire {scope : Nat} (h : MemoriesWf s) : MemoriesWf (acquire s core scope) :=
  (h.bumpDomain.ite h).bumpBench.ite (h.bumpDomain.ite h)

theorem MemoriesWf.haloPush {only : Option Nat} (h : MemoriesWf s) : MemoriesWf (haloPush s tid only) := by
  unfold Machine.haloPush
  refine h.upd.foldl fun _ _ k => ?_
  split
  · exact (k.foldl (fun _ _ k => k.upd)).ite k
  · exact k

theorem MemoriesWf.haloKeep {key : Nat} (h : MemoriesWf s) : MemoriesWf (haloKeep s key) := by
  unfold Machine.haloKeep
  split
  · exact h.foldl fun _ _ k => k.ite k.upd
  · exact h

theorem MemoriesWf.haloByteBack {e : Nat × Byte} (h : MemoriesWf s) : MemoriesWf (haloByteBack s tid e) :=
  h.haloKeep.upd.storeAt

theorem MemoriesWf.haloBack {only : Option Nat} (h : MemoriesWf s) : MemoriesWf (haloBack s tid only) := by
  unfold Machine.haloBack
  refine h.foldl fun _ _ k => ?_
  split
  · exact k.haloByteBack.ite k
  · exact k.haloByteBack

theorem MemoriesWf.haloHome (h : MemoriesWf s) : MemoriesWf (haloHome s tid l n) := by
  unfold Machine.haloHome
  split
  · exact (h.foldl (fun _ _ k => k.haloByteBack)).foldl (fun _ _ k => k.haloKeep)
  · exact h

theorem MemoriesWf.haloEnd {x : Halo} (h : MemoriesWf s) : MemoriesWf (haloEnd s x) :=
  (h.foldl (fun _ _ k => k.haloPush.haloBack)).upd

theorem MemoriesWf.haloEndGang {gid : Nat} (h : MemoriesWf s) : MemoriesWf (haloEndGang s gid) :=
  h.foldl fun _ _ k => k.haloEnd

theorem MemoriesWf.releaseCopies {scope : Nat} (h : MemoriesWf s) :
    MemoriesWf (Machine.releaseCopies s tid ctx scope) := by
  unfold Machine.releaseCopies
  extract_lets s1 s2 s3
  have h1 : MemoriesWf s1 := h.haloPush.ite h
  have h2 : MemoriesWf s2 := h1.haloBack.ite h1
  have h3 : MemoriesWf s3 := h2.backPeers.ite h2
  exact (h3.foldl fun _ _ k => k.backHost).ite h3

end Sys2Proof
end

section
/-! ### Translation -/

namespace Sys2Proof

open Machine

variable {s s1 : State} {tid core n ctx : Nat} {addr : Word} {l : Loc} {p : BitVec 1} {d a b : BitVec 5}

theorem MemoriesWf.wKeep {bench : Option Nat} {c : Ctx} {second glob : Bool} {a : Nat} {t : WalkAt}
    (h : MemoriesWf s) :
    MemoriesWf (wKeep s bench c second glob a t) := by
  unfold Machine.wKeep
  split
  · exact h
  · exact h.upd

theorem MemoriesWf.setAD {key p : Nat} {k : Acc} {upd : Bool} (h : MemoriesWf s) : MemoriesWf (setAD s key p k upd) :=
  h.toHome.storeAt.ite h

theorem MemoriesWf.gStage {bench : Option Nat} {c : Ctx} {g : Nat} {k : Acc} {imp upd : Bool} (h : MemoriesWf s) :
    SndWf (gStage s bench c g k imp upd) := by
  unfold Machine.gStage
  refine .ite h (.ite h (.ite h ?_))
  split
  · dsimp only
    split
    · exact h
    · exact h
    · exact h
    · exact .ite (h.foldl (fun _ _ k => k.wKeep)) (h.foldl (fun _ _ k => k.wKeep)).setAD
  · dsimp only
    split
    · exact h
    · exact h
    · exact h
    · exact .ite h h.setAD

theorem MemoriesWf.sLevel {bench : Option Nat} {c : Ctx} {va : Nat} {k : Acc} {user upd : Bool} {base : Nat}
    {lines : List Nat} {gmaps : List (Nat × Nat)} {x : Nat} (h : MemoriesWf s) :
    SndWf (Machine.sLevel s bench c va k user upd base lines gmaps x) := by
  induction x generalizing s base lines gmaps with
  | zero => exact h
  | succ m ih =>
    unfold Machine.sLevel
    extract_lets eg
    split
    next e =>
      have h1 := h.gStage.of_eq e
      split
      · exact h1
      · refine .ite h1 (.ite h1 (.ite h1 (.ite (.ite h1 (.ite ?_ h1)) (ih (h1.wKeep.ite h1)))))
        split
        next e' => exact (h1.gStage.of_eq e').setAD
        next e' => exact h1.gStage.of_eq e'
    next e => exact h.gStage.of_eq e

theorem MemoriesWf.stage1 {w : Who} {va : Word} {k : Acc} {upd : Bool} (h : MemoriesWf s) :
    SndWf (stage1 s w va k upd) :=
  .ite h (.ite h h.sLevel)

theorem MemoriesWf.walk {w : Who} {va : Word} {k : Acc} {upd : Bool} (h : MemoriesWf s) :
    SndSndWf (walk s w va k upd) := by
  unfold Machine.walk
  refine holds_ite h ?_
  split
  next e =>
    have h1 := h.stage1.of_eq e
    split
    next e' => exact h1.gStage.of_eq e'
    next e' => exact h1.gStage.of_eq e'
    next e' => exact h1.gStage.of_eq e'
    next e' => exact h1.gStage.of_eq e'
  next e => exact h.stage1.of_eq e
  next e => exact h.stage1.of_eq e
  next e => exact h.stage1.of_eq e
  next e => exact h.stage1.of_eq e
  next e => exact h.stage1.of_eq e

theorem MemoriesWf.tFill {u : TUse} {w : Who} {e : TEntry} (h : MemoriesWf s) : MemoriesWf (tFill s u w e) :=
  h.upd.ite h

theorem MemoriesWf.xlateBy {u : TUse} {w : Who} {va : Word} {k : Acc} (h : MemoriesWf s) :
    SndWf (xlateBy u s w va k) := by
  unfold Machine.xlateBy
  refine .ite h ?_
  split
  · exact h
  · split
    next e => exact (h.walk.of_eq e).tFill
    next e => exact h.walk.of_eq e

theorem MemoriesWf.xlate {w : Who} {va : Word} {k : Acc} (h : MemoriesWf s) : SndWf (xlate s w va k) := h.xlateBy

theorem MemoriesWf.noteUse {w : Who} {va : Word} {q : Nat} (h : MemoriesWf s) : MemoriesWf (noteUse s w va q) := by
  unfold Machine.noteUse
  refine h.ite ?_
  split
  · exact h.upd
  · exact h

theorem MemoriesWf.releaseReserve (h : MemoriesWf s) : MemoriesWf (releaseReserve s n) := h.upd

theorem MemoriesWf.postNew {r : PageReq} (h : MemoriesWf s) : MemoriesWf (postNew s r) := by
  unfold Machine.postNew
  refine h.upd.ite ?_
  split <;> exact h.upd

theorem MemoriesWf.grantWaits (h : MemoriesWf s) : MemoriesWf (grantWaits s) := h.upd.foldl fun _ _ k => k.postNew

theorem MemoriesWf.postPage {r : PageReq} (h : MemoriesWf s) : MemoriesWf (postPage s r) := by
  unfold Machine.postPage
  split
  · exact h.upd
  · exact h.upd.ite h.postNew

theorem MemoriesWf.refuseTrap {va : Word} {k : Acc} {second imp : Bool} {gpa : Word} (h : MemoriesWf s) :
    MemoriesWf (refuseTrap s va k second imp gpa) :=
  (h.raiseWith.ite h.raiseWith).ite h.raise

theorem MemoriesWf.dropThread {va : Word} {k : Acc} {src : Nat} {second imp : Bool} {gpa : Word}
    (h : MemoriesWf s) :
    MemoriesWf (dropThread s va k src second imp gpa) := by
  unfold Machine.dropThread
  dsimp only
  split
  · exact h.refuseTrap
  · exact h.postPage.setMe.upd

theorem MemoriesWf.xlFail {va : Word} {k : Acc} {src : Nat} {x : Xl} (h : MemoriesWf s) :
    MemoriesWf (xlFail s va k src x) := by
  unfold Machine.xlFail
  split
  · exact h.dropThread
  · exact h.refuseTrap
  · exact h.raise
  · exact h.refuseTrap
  · exact h.held

end Sys2Proof
end

section
/-! ### Loads and stores -/

namespace Sys2Proof

open Machine

variable {s s1 : State} {tid core n ctx : Nat} {addr : Word} {l : Loc} {p : BitVec 1} {d a b : BitVec 5}

theorem MemoriesWf.queueStore {x : Store} {seq : Nat} (h : MemoriesWf s) : MemoriesWf (queueStore s tid x seq) :=
  h.setTh

theorem MemoriesWf.pushStore {x : Store} (h : MemoriesWf s) : MemoriesWf (pushStore s tid x) := h.queueStore.tick

theorem MemoriesWf.checkStore {x : Store} (h : MemoriesWf s) : SndWf (Machine.checkStore s tid x) := by
  unfold Machine.checkStore
  refine .ite h ?_
  split
  · exact .ite h (.ite h h)
  · split <;> exact h
  · split <;> exact h
  · extract_lets w
    generalize (if x.gather then TUse.gather else .core) = u
    split
    next e => exact h.xlateBy.of_eq e
    next e => exact h.xlateBy.of_eq e
    next e => exact h.xlateBy.of_eq e
    next e => exact h.xlateBy.of_eq e
    next e => exact h.xlateBy.of_eq e

theorem MemoriesWf.l1drop (h : MemoriesWf s) : MemoriesWf (l1drop s core l) := by
  unfold Machine.l1drop
  split
  · exact h.setCo
  · exact h

theorem MemoriesWf.fillFor {pbmt : Nat} (h : MemoriesWf s) : MemoriesWf (fillFor s tid l pbmt) := by
  unfold Machine.fillFor
  split
  · refine h.ite ?_
    split
    · exact h
    · exact h.l2fill.l1fill
  · exact h

theorem MemoriesWf.readLoc {ea : Word} {pbmt : Nat} (h : MemoriesWf s) : LdWf (readLoc s tid ea l n pbmt) := by
  unfold Machine.readLoc
  refine holds_ite h (holds_ite (holds_ite h.unstick h.stick) (holds_ite h ?_))
  split
  · exact h.fillFor.unstick
  · exact holds_ite h.fillFor.unstick h.fillFor.unstick

theorem MemoriesWf.loadAt {ea : Word} {size : Nat} (h : MemoriesWf s) : LdWf (loadAt s ea size) := by
  unfold Machine.loadAt
  refine holds_ite h.raise ?_
  split
  · exact h.readLoc
  · exact h.readLoc
  · exact h.raise
  · split
    next e => exact (h.xlate.of_eq e).readLoc
    next e => exact (h.xlate.of_eq e).xlFail

theorem MemoriesWf.loadRun {ea : Word} {x : Nat} (h : MemoriesWf s) : LdSndWf (loadRun s ea x) := by
  induction x generalizing s ea with
  | zero => exact h
  | succ m ih =>
    unfold Machine.loadRun
    split
    next e => exact ih (h.loadAt.value e)
    next e => exact (h.loadAt.failed e).raise
    · exact h.loadAt

theorem MemoriesWf.fillLong {d : Nat} {pc : Word} {r : LongRes} (h : MemoriesWf s) :
    MemoriesWf (fillLong s tid d pc r) := by
  unfold Machine.fillLong
  dsimp only
  split
  · split
    · exact h.setTh
    · exact h
  · exact h

theorem MemoriesWf.guestLoc {gpa : Nat} (h : MemoriesWf s) : SndWf (guestLoc s ctx gpa) := by
  unfold Machine.guestLoc
  dsimp only
  split
  next e => split <;> exact h.gStage.of_eq e
  next e => exact h.gStage.of_eq e
  next e => exact h.gStage.of_eq e
  next e => exact h.gStage.of_eq e

theorem MemoriesWf.ringPut {r : PendRec} (h : MemoriesWf s) : RingTryWf (ringPut s ctx tid r) := by
  unfold Machine.ringPut
  refine holds_ite trivial ?_
  split
  next e =>
    have h1 := h.guestLoc.of_eq e
    refine holds_ite ?_ h1
    dsimp only
    split
    next e' => exact (h1.guestLoc.of_eq e').storeBytes.upd.tick
    next e' => exact h1.guestLoc.of_eq e'
    next e' => exact h1.guestLoc.of_eq e'
  next e => exact h.guestLoc.of_eq e
  next e => exact h.guestLoc.of_eq e

theorem MemoriesWf.ringWrite {r : PendRec} (h : MemoriesWf s) : RingTryWf (ringWrite s tid r) := h.ringPut

theorem MemoriesWf.noteRecord {seq : Nat} {r : PendRec} (h : MemoriesWf s) : MemoriesWf (noteRecord s tid seq r) := by
  unfold Machine.noteRecord
  split
  · dsimp only
    split
    · exact h
    · exact h.setTh
  · dsimp only
    split
    · exact h
    · exact h.setTh

theorem MemoriesWf.recordFault {x : Store} {code : Nat} {gpa : Word} (h : MemoriesWf s) :
    MemoriesWf (recordFault s tid x code gpa) := by
  unfold Machine.recordFault
  refine .ite ?_ h.setTh
  split
  next e => exact (h.ringWrite.wrote e).noteRecord
  next e => exact (h.ringWrite.full e).setTh
  next e => exact (h.ringWrite.refused e).setTh
  · exact h.setTh

theorem MemoriesWf.logError {kind who addr detail : Nat} (h : MemoriesWf s) :
    MemoriesWf (logError s ctx kind who addr detail core) := by
  unfold Machine.logError
  refine h.setCx.ite ?_
  split
  next e =>
    have h1 := h.guestLoc.of_eq e
    refine .ite ?_ h1.storeAt
    dsimp only
    split
    next e' => exact (h1.guestLoc.of_eq e').storeBytes.addAt
    next e' => exact (h1.guestLoc.of_eq e').storeAt
  next e => exact (h.guestLoc.of_eq e).setCx

theorem MemoriesWf.dropIn {part who : Nat} {amount : Word} (h : MemoriesWf s) :
    MemoriesWf (dropIn s part ctx who core addr amount) :=
  h.logError.setCx.routed.ite h.routed

theorem MemoriesWf.dropUpdate {amount : Word} (h : MemoriesWf s) : MemoriesWf (dropUpdate s tid addr amount) :=
  h.dropIn

end Sys2Proof
end

section
/-! ### Atomic operations and reductions in memory -/

namespace Sys2Proof

open Machine

variable {s s1 : State} {tid core n ctx : Nat} {addr : Word} {l : Loc} {p : BitVec 1} {d a b : BitVec 5}

theorem MemoriesWf.rmwAt {op : Rmw} {B D : Nat} (h : MemoriesWf s) : MemoriesWf (rmwAt s tid op l n B D) :=
  h.toHome.l1drop.haloHome.storeAt

theorem MemoriesWf.rmwTrap {ea : Word} (h : MemoriesWf s) : OptionWf (rmwTrap s ea) :=
  .ite h.raise (.ite h.raise trivial)

theorem MemoriesWf.amo {q : BitVec 4} {op : Rmw} (h : MemoriesWf s) : OutWf (amo s p d a b q op) := by
  unfold Machine.amo
  dsimp only
  split
  next e => exact h.rmwTrap.of_eq e
  · split
    · exact h.upd.tick.longResult.finish
    · exact h.upd.tick.longResult.finish
    · exact h.raise
    · split
      next e' => exact (h.xlate.of_eq e').noteUse.upd.tick.longResult.finish
      next e' => exact (h.xlate.of_eq e').xlFail

theorem MemoriesWf.red {op : Rmw} {word : Nat} (h : MemoriesWf s) : OutWf (red s p a b op word) := by
  unfold Machine.red
  split
  · dsimp only
    split
    next e => exact h.rmwTrap.of_eq e
    · exact h.held
  · dsimp only
    split
    next e => exact h.rmwTrap.of_eq e
    · exact h.pushStore.finish

theorem MemoriesWf.execAmoAtHome (h : MemoriesWf s) : OutWf (Machine.execAmoAtHome n s) := by
  unfold Machine.execAmoAtHome
  split
  · split
    · refine h.ite ((h.upd.unstick.fillLong.ite h.stick).ite (h.upd.unstick.fillLong.ite ?_))
      exact h.upd.unstick.fillLong.ite h.upd.unstick.toHome.haloHome.rmwAt.fillLong
    · exact h
  · exact h

theorem MemoriesWf.execRedAtHome (h : MemoriesWf s) : OutWf (Machine.execRedAtHome tid n s) := by
  unfold Machine.execRedAtHome
  dsimp only
  split
  · split
    · refine .ite h ((h.setTh.unstick.dropUpdate.ite h.stick).ite ?_)
      exact h.setTh.unstick.dropUpdate.ite (h.setTh.unstick.dropUpdate.ite h.setTh.unstick.rmwAt)
    · exact h
  · exact h

end Sys2Proof
end

section
/-! ### Control transfers -/

namespace Sys2Proof

open Machine

variable {s s1 : State} {tid core n ctx : Nat} {addr : Word} {l : Loc} {p : BitVec 1} {d a b : BitVec 5}

theorem MemoriesWf.execSvc (h : MemoriesWf s) : OutWf (execSvc s) := h.raise

theorem MemoriesWf.execBrk (h : MemoriesWf s) : OutWf (execBrk s) := h.raise

theorem MemoriesWf.execTret (h : MemoriesWf s) : OutWf (execTret s) := h.trapReturn

theorem MemoriesWf.execPause (h : MemoriesWf s) : OutWf (execPause a s) := h.setMe.finish

theorem MemoriesWf.branch {taken : Bool} {off : BitVec 12} (h : MemoriesWf s) : OutWf (branch s p taken off) :=
  h.goto.ite h.finish

theorem MemoriesWf.execJal {off : BitVec 20} (h : MemoriesWf s) : OutWf (execJal p d off s) := h.wr.goto

theorem MemoriesWf.execJalr {imm : BitVec 12} (h : MemoriesWf s) : OutWf (execJalr p d a imm s) :=
  h.raise.ite h.wr.goto

end Sys2Proof
end

section
/-! ### Vector registers -/

namespace Sys2Proof

open Machine

variable {s s1 : State} {tid core n ctx : Nat} {addr : Word} {l : Loc} {p : BitVec 1} {d a b : BitVec 5}

theorem MemoriesWf.vDirty {reg : Nat} (h : MemoriesWf s) : MemoriesWf (vDirty s tid reg) := h.setTh

theorem MemoriesWf.vPut {reg w i v : Nat} (h : MemoriesWf s) : MemoriesWf (vPut s tid reg w i v) :=
  (h.withVregs (mwr_wf h.vregs_wf _ _ _)).vDirty

theorem MemoriesWf.maskPut {m : Nat} {v : BitVec 8192} (h : MemoriesWf s) : MemoriesWf (maskPut s tid m v) :=
  h.ite h.setTh

theorem MemoriesWf.maskBit {m i : Nat} {b : Bool} (h : MemoriesWf s) : MemoriesWf (maskBit s tid m i b) :=
  h.maskPut

theorem MemoriesWf.vClear (h : MemoriesWf s) : MemoriesWf (vClear s tid) := h.withVregs (mzero_wf h.vregs_wf _ _)

end Sys2Proof
end

section
/-! ### Counters and waits -/

namespace Sys2Proof

open Machine

variable {s s1 : State} {tid core n ctx : Nat} {addr : Word} {l : Loc} {p : BitVec 1} {d a b : BitVec 5}

theorem MemoriesWf.counterFault {reason : Nat} (h : MemoriesWf s) : MemoriesWf (counterFault s addr reason) :=
  h.setMe.raise

theorem MemoriesWf.ctrName {k : Acc} {u : TUse} (h : MemoriesWf s) : CtrAtWf (ctrName s addr k u) := by
  unfold Machine.ctrName
  split
  · exact holds_ite h h
  · split
    next e =>
      have h1 := h.xlateBy.of_eq e
      split
      · exact holds_ite h1 (holds_ite h1 h1)
      · exact h1
    next e => exact h.xlateBy.of_eq e
    next e =>
      have h1 := h.xlateBy.of_eq e
      exact holds_ite h1 h1.refuseTrap
    next e => exact (h.xlateBy.of_eq e).xlFail

theorem MemoriesWf.ctrFind {k : Acc} {amount : Word} {u : TUse} (h : MemoriesWf s) :
    CtrAtWf (ctrFind s addr k amount u) := by
  unfold Machine.ctrFind
  refine holds_ite h.raise (holds_ite h.raise ?_)
  split
  · exact holds_ite h (holds_ite h h.ctrName)
  · exact holds_ite h h.ctrName

theorem MemoriesWf.ctrValue (h : MemoriesWf s) : CtrValWf (ctrValue s addr l) :=
  holds_ite h (holds_ite (holds_ite h.unstick.counterFault h.stick) (holds_ite h.unstick.counterFault (holds_ite
    h.unstick.counterFault (holds_ite h.unstick.raise h.unstick.toHome.haloHome))))

theorem MemoriesWf.postOf {kind : PostKind} {amount : Word} {scope d : Nat} (h : MemoriesWf s) :
    MemoriesWf (postOf s tid kind addr l amount scope d) := by
  unfold Machine.postOf
  refine .tick (.upd ?_)
  split
  · exact h.noteUse
  · exact h

theorem MemoriesWf.postCtr {kind : PostKind} {amount : Word} {scope d : Nat} (h : MemoriesWf s) :
    MemoriesWf (postCtr s kind addr l amount scope d) :=
  h.postOf

theorem MemoriesWf.ctrPost {amount : Word} {scope : Nat} (h : MemoriesWf s) :
    MemoriesWf (ctrPost s p addr amount scope) := by
  unfold Machine.ctrPost
  split
  next e => exact (h.ctrFind.at_ e).postCtr.finish
  next e => exact (h.ctrFind.fault e).counterFault
  next e => exact h.ctrFind.ends e

theorem MemoriesWf.ctrLong {la : BitVec 4} {amount : Word} {scope : Nat} {kind : PostKind} {k : Acc}
    {check : Word} (h : MemoriesWf s) :
    MemoriesWf (ctrLong s p d la addr amount scope kind k check) := by
  unfold Machine.ctrLong
  split
  next e => exact (h.ctrFind.at_ e).postCtr.longResult.finish
  next e => exact (h.ctrFind.fault e).counterFault
  next e => exact h.ctrFind.ends e

theorem MemoriesWf.execCtrAdd {sc : BitVec 3} (h : MemoriesWf s) : OutWf (execCtrAdd p a b sc s) :=
  h.illegal.ite (h.held.ite h.ctrPost)

theorem MemoriesWf.execCtrFadd {la : BitVec 4} {sc : BitVec 3} (h : MemoriesWf s) :
    OutWf (execCtrFadd p d a b la sc s) :=
  h.illegal.ite (h.held.ite h.ctrLong)

theorem MemoriesWf.execCtrTest {la : BitVec 4} {sc : BitVec 3} (h : MemoriesWf s) :
    OutWf (execCtrTest p d a b la sc s) :=
  h.illegal.ite h.ctrLong

theorem MemoriesWf.execCtrRead {la : BitVec 4} (h : MemoriesWf s) : OutWf (execCtrRead p d a la s) := h.ctrLong

theorem MemoriesWf.park {thr : Word} {scope : Nat} {v : Word} {guard : Bool} {how : Nat} (h : MemoriesWf s) :
    MemoriesWf (park s addr thr scope l v guard how) :=
  h.setMe.upd

theorem MemoriesWf.waitOn {thr : Word} {scope : Nat} {aw : Bool} (h : MemoriesWf s) :
    MemoriesWf (waitOn s p addr thr scope l aw) := by
  unfold Machine.waitOn
  split
  next e => exact (h.ctrValue.hold e).held
  next e => exact h.ctrValue.ends e
  next e =>
    have h1 := h.ctrValue.value e
    exact (h1.acquire.setMe.ite h1.acquire).finish.ite h1.park

theorem MemoriesWf.execCtrWait {sc : BitVec 3} (h : MemoriesWf s) : OutWf (execCtrWait p a b sc s) := by
  unfold Machine.execCtrWait
  refine h.finish.ite (h.illegal.ite ?_)
  split
  next e => exact (h.ctrFind.at_ e).waitOn
  next e => exact (h.ctrFind.fault e).counterFault
  next e => exact h.ctrFind.ends e

theorem MemoriesWf.execCtrArrive {k : BitVec 5} {sc : BitVec 3} (h : MemoriesWf s) :
    OutWf (execCtrArrive p k a sc s) :=
  h.illegal.ite (h.held.ite h.ctrPost)

theorem MemoriesWf.execCtrAw {k : BitVec 5} {sc : BitVec 3} (h : MemoriesWf s) : OutWf (execCtrAw p k a b sc s) := by
  unfold Machine.execCtrAw
  refine h.setMe.finish.ite (h.illegal.ite (h.held.ite ?_))
  dsimp only
  split
  next e =>
    have h1 := h.ctrFind.at_ e
    exact (h1.ite h1.postCtr.setMe).waitOn
  next e => exact (h.ctrFind.fault e).counterFault
  next e => exact h.ctrFind.ends e

theorem MemoriesWf.execCtrReset {sc : BitVec 3} (h : MemoriesWf s) : OutWf (execCtrReset p a sc s) := by
  unfold Machine.execCtrReset
  refine h.illegal.ite (h.held.ite ?_)
  dsimp only
  split
  next e => exact (h.ctrFind.fault e).counterFault
  next e => exact h.ctrFind.ends e
  next e =>
    have h1 := h.ctrFind.at_ e
    refine h1.held.ite ?_
    split
    next e' => exact (h1.ctrValue.hold e').held
    next e' => exact h1.ctrValue.ends e'
    next e' =>
      have h2 := h1.ctrValue.value e'
      refine h2.counterFault.ite ?_
      split
      next e'' => exact (h2.releaseWait.of_eq e'').held
      · exact h2.releaseCopies.toHome.l1drop.haloHome.resetAt.finish

theorem MemoriesWf.vaddCheck {x : List (Nat × Word × Word)} {x_1 : List (Nat × Word × Word × Loc)}
    (h : MemoriesWf s) :
    VaddWf (vaddCheck s x x_1) := by
  induction x generalizing s x_1 with
  | nil => exact h
  | cons y r ih =>
    unfold Machine.vaddCheck
    split
    next e => exact ih (h.ctrFind.at_ e)
    next e => exact (h.ctrFind.fault e).counterFault
    next e => exact h.ctrFind.ends e

theorem MemoriesWf.execCtrVadd {k : BitVec 5} {sc : BitVec 3} (h : MemoriesWf s) :
    OutWf (execCtrVadd p k a b sc s) := by
  unfold Machine.execCtrVadd
  refine h.illegal.ite (h.raise.ite (h.illegal.ite (h.held.ite ?_)))
  split
  next e => exact h.vaddCheck.ends e
  next e => exact h.vaddCheck.at_ e
  next e => exact h.vaddCheck.fault e
  next e =>
    refine .finish ((h.vaddCheck.inr e).foldl (fun _ _ k => ?_))
    split
    · exact k.postCtr.maskBit.ite k.maskBit

theorem MemoriesWf.execCtrArm (h : MemoriesWf s) : OutWf (execCtrArm p d a b s) := by
  unfold Machine.execCtrArm
  dsimp only
  split
  next e => exact (h.ctrFind.fault e).counterFault
  next e => exact h.ctrFind.ends e
  next e =>
    have h1 := h.ctrFind.at_ e
    split
    next e' => exact (h1.ctrValue.hold e').held
    next e' => exact h1.ctrValue.ends e'
    next e' =>
      have h2 := h1.ctrValue.value e'
      exact h2.setPend.wr.finish.ite (h2.wr.finish.ite h2.upd.wr.finish)

theorem MemoriesWf.execCtrHome {la : BitVec 4} (h : MemoriesWf s) : OutWf (execCtrHome p d a b la s) := by
  unfold Machine.execCtrHome
  refine MemoriesWf.ite (h.raise.ite ?_) ?_
  · split
    next e => exact (h.ctrName.at_ e).longResult.finish
    next e => exact (h.ctrName.fault e).longResult.finish
    next e => exact h.ctrName.ends e
  · split
    · exact h.illegal.ite h.longResult.finish
    · exact h.illegal

theorem MemoriesWf.performCtr {x : Post} (h : MemoriesWf s) : MemoriesWf (Machine.performCtr s x) := by
  unfold Machine.performCtr
  extract_lets s1 s2 old
  have h1 : MemoriesWf s1 := by
    dsimp only [s1]
    split
    · exact h.releaseCopies
    · exact h.releaseCopies
    · exact h
  have h2 : MemoriesWf s2 := h1.toHome.haloHome
  split
  · exact h2.l1drop.addAt
  · exact h2.l1drop.addAt.fillLong
  · exact h2.acquire.fillLong.ite h2.fillLong
  · exact h2.fillLong
  · exact h2

theorem MemoriesWf.failCtr {x : Post} {cause : Nat} (h : MemoriesWf s) : MemoriesWf (failCtr s x cause) := by
  unfold Machine.failCtr
  split
  · split <;> exact h.dropIn
  · exact h.fillLong

theorem MemoriesWf.execCounterOpAtHome (h : MemoriesWf s) : OutWf (Machine.execCounterOpAtHome n s) := by
  unfold Machine.execCounterOpAtHome
  split
  · exact h
  · refine .ite h ?_
    split
    next e => exact h.releaseWait.of_eq e
    · refine (h.upd.unstick.failCtr.ite h.stick).ite ?_
      extract_lets gone
      have h1 : MemoriesWf gone := h.upd.unstick
      exact h1.failCtr.ite (h1.failCtr.ite (h1.failCtr.ite (h1.toHome.addAt.ite h1.performCtr)))

theorem MemoriesWf.unlist (h : MemoriesWf s) : MemoriesWf (unlist s tid) := h.upd

theorem MemoriesWf.execWakeMessage (h : MemoriesWf s) : OutWf (execWakeMessage n s) := by
  unfold Machine.execWakeMessage
  split
  · exact h
  · dsimp only
    split
    · exact h.upd.setTh.ite h.upd
    · exact h.upd

theorem MemoriesWf.unpark (h : MemoriesWf s) : MemoriesWf (unpark s tid) := h.unlist.setTh

theorem MemoriesWf.completeWait {w : Wait} (h : MemoriesWf s) : MemoriesWf (completeWait s tid w) :=
  h.unpark.acquire.ite (h.unpark.acquire.setTh.ite h.unpark.acquire.setTh)

theorem MemoriesWf.waitTrap {cause : Nat} {w : Wait} {wval : Word} (h : MemoriesWf s) :
    MemoriesWf (waitTrap s tid cause w wval) :=
  h.unpark.asThread.setMe.raise

theorem MemoriesWf.execWaitReread (h : MemoriesWf s) : OutWf (Machine.execWaitReread tid s) := by
  unfold Machine.execWaitReread
  dsimp only
  split
  · exact h
  · refine h.ite ((h.unstick.waitTrap.ite h.stick).ite (h.unstick.waitTrap.ite (h.waitTrap.ite (h.waitTrap.ite
      ?_))))
    exact h.unstick.toHome.completeWait.ite h.unstick.toHome.unlist.setTh.upd

theorem MemoriesWf.execWaiterPoll (h : MemoriesWf s) : OutWf (execWaiterPoll tid s) := by
  unfold Machine.execWaiterPoll
  dsimp only
  split
  · exact h.upd.setTh.ite h
  · exact h

theorem MemoriesWf.execWaiterEvict (h : MemoriesWf s) : OutWf (execWaiterEvict n s) := by
  unfold Machine.execWaiterEvict
  split
  · exact h.upd
  · exact h

theorem MemoriesWf.execWaitTimeout (h : MemoriesWf s) : OutWf (execWaitTimeout tid s) := by
  unfold Machine.execWaitTimeout
  dsimp only
  split
  · split
    · exact h.ite (h.upd.toHome.completeWait.ite h.upd.waitTrap)
    · exact h
  · exact h

end Sys2Proof
end

section
/-! ### The engines' accesses -/

namespace Sys2Proof

open Machine

variable {s s1 : State} {tid core n ctx : Nat} {addr : Word} {l : Loc} {p : BitVec 1} {d a b : BitVec 5}

theorem MemoriesWf.unrequest (h : MemoriesWf s) : MemoriesWf (unrequest s tid) := h.upd.setTh

theorem MemoriesWf.wakeFor (h : MemoriesWf s) : MemoriesWf (wakeFor s tid) := by
  unfold Machine.wakeFor
  split
  · exact h.unpark
  · exact h.unrequest.setTh
  · exact h

theorem MemoriesWf.afReport {r : AfRec} (h : MemoriesWf s) : MemoriesWf (afReport s tid r) :=
  (h.storeBytes.ite h).setTh.wakeFor

theorem MemoriesWf.engineLoc {w : Who} {k : Acc} (h : MemoriesWf s) : SndWf (engineLoc s w addr k) := by
  unfold Machine.engineLoc
  split
  · exact .ite h h
  · split
    next e =>
      have h1 := h.xlateBy.of_eq e
      exact .ite h1 h1
    · exact h.xlateBy

theorem MemoriesWf.dropEngine {w : Who} {amount : Word} (h : MemoriesWf s) :
    MemoriesWf (dropEngine s w addr amount) :=
  h.dropIn

theorem MemoriesWf.engineAddAt {w : Who} {n : Word} (h : MemoriesWf s) : EAddWf (engineAddAt s w addr l n) :=
  holds_ite (holds_ite h.unstick h.stick) (holds_ite h.unstick (holds_ite h.unstick.dropEngine
    h.unstick.toHome.addAt))

theorem MemoriesWf.engineAdd {w : Who} {v : Word} (h : MemoriesWf s) : EAddWf (Machine.engineAdd s w addr v) := by
  unfold Machine.engineAdd
  have h1 := h.engineLoc (w := w) (addr := addr) (k := .store)
  generalize Machine.engineLoc s w addr .store = r at h1 ⊢
  obtain ⟨x, s1⟩ := r
  cases x with
  | ok => exact h1.snd.engineAddAt
  | _ => exact h1

theorem MemoriesWf.vfError {vf kind off data : Nat} (h : MemoriesWf s) : MemoriesWf (vfError s vf kind off data) :=
  h.setVf

end Sys2Proof
end

section
/-! ### Flags -/

namespace Sys2Proof

open Machine

variable {s s1 : State} {tid core n ctx : Nat} {addr : Word} {l : Loc} {p : BitVec 1} {d a b : BitVec 5}

theorem MemoriesWf.wrFlags {r : Nat × Flags} (h : MemoriesWf s) : MemoriesWf (wrFlags s d r) := h.wr.orFlags

theorem MemoriesWf.wrBool {r : Bool × Flags} (h : MemoriesWf s) : MemoriesWf (wrBool s d r) := h.wrFlags

end Sys2Proof
end

section
/-! ### Vector operations -/

namespace Sys2Proof

open Machine

variable {s s1 : State} {tid core n ctx : Nat} {addr : Word} {l : Loc} {p : BitVec 1} {d a b : BitVec 5}

theorem MemoriesWf.vEach {d w vl : Nat} {p : Nat → Bool} {f : State → Nat → Nat × Flags} (h : MemoriesWf s) :
    MemoriesWf (vEach s tid d w vl p f) :=
  h.foldl fun _ _ k => k.vPut.orFlags.ite k

theorem MemoriesWf.vMask {e : VEntry} (h : MemoriesWf s) : MemoriesWf (vMask s tid e) := by
  unfold Machine.vMask
  split
  iterate 6 exact h.maskPut
  · exact h.wrOf
  · exact h.wrOf
  · exact h.vEach
  · exact h

theorem MemoriesWf.redStep {e : VEntry} (h : MemoriesWf s) : MemoriesWf (redStep s tid e) := h.vPut.orFlags

theorem MemoriesWf.treeStep {e : VEntry} (h : MemoriesWf s) : MemoriesWf (treeStep s tid e) := by
  unfold Machine.treeStep
  refine .ite ?_ h.vPut.orFlags
  split
  · exact h.vPut.orFlags

theorem MemoriesWf.redRun {e : VEntry} (h : MemoriesWf s) : FstWf (redRun s tid e n) := by
  induction n generalizing s e with
  | zero => exact h
  | succ m ih =>
    unfold Machine.redRun
    exact .ite (ih (h.treeStep.ite h.redStep)) h

theorem MemoriesWf.vPerm {e : VEntry} (h : MemoriesWf s) : MemoriesWf (vPerm s tid e) := by
  unfold Machine.vPerm
  split
  iterate 5 exact h.vEach
  · exact h.vPut.ite h
  · exact h.wrOf
  · exact h.vEach
  · exact h.vEach
  · exact h

theorem MemoriesWf.vQuant {e : VEntry} {m : Fmt} {k : Nat} (h : MemoriesWf s) : MemoriesWf (vQuant s tid e m k) := by
  unfold Machine.vQuant
  refine h.foldl fun _ _ k => ?_
  dsimp only
  exact (k.foldl (fun _ _ k => k.vPut)).vPut.orFlags

theorem MemoriesWf.vPerform {e : VEntry} (h : MemoriesWf s) : MemoriesWf (vPerform s tid e) := by
  unfold Machine.vPerform
  split
  iterate 10 exact h.foldl fun _ _ k => k.maskBit.orFlags.ite k
  iterate 9 exact h.vMask
  iterate 9 exact h.vPerm
  iterate 4 exact h.vEach
  · exact h.vQuant
  · exact h.vQuant
  · exact h.vEach

end Sys2Proof
end

section
/-! ### The vector unit -/

namespace Sys2Proof

open Machine

variable {s s1 : State} {tid core n ctx : Nat} {addr : Word} {l : Loc} {p : BitVec 1} {d a b : BitVec 5}

theorem MemoriesWf.setV {v : VecRegs} (h : MemoriesWf s) : MemoriesWf (setV s tid v) := h.setTh

theorem MemoriesWf.setHead {e : VEntry} (h : MemoriesWf s) : MemoriesWf (setHead s tid e) := h.setV

theorem MemoriesWf.popHead (h : MemoriesWf s) : MemoriesWf (popHead s tid) := h.setV

theorem MemoriesWf.vNone {e : VEntry} (h : MemoriesWf s) : MemoriesWf (vNone s tid e) :=
  h.ite (h.treeStep.ite ((h.ite h.vPut).ite h.vPerform))

theorem MemoriesWf.vRun {x : Nat} (h : MemoriesWf s) : MemoriesWf (vRun s tid x) := by
  induction x generalizing s with
  | zero => exact h
  | succ m ih =>
    unfold Machine.vRun
    split
    · exact h
    · exact (ih h.vNone.popHead).ite h

theorem MemoriesWf.vPush {e : VEntry} (h : MemoriesWf s) : MemoriesWf (vPush s e) := h.upd.setV.vRun

theorem MemoriesWf.vEnter {word : Nat} {e : VEntry} {ok1 ok : Bool} (h : MemoriesWf s) :
    OutWf (vEnter s p word e ok1 ok) :=
  h.illegal.ite (h.raise.ite (h.illegal.ite (h.held.ite h.vPush.finish)))

theorem MemoriesWf.execVset {t : BitVec 4} (h : MemoriesWf s) : OutWf (execVset p d a t s) :=
  h.raise.ite (h.illegal.ite (h.held.ite h.setV.wr.finish))

theorem MemoriesWf.execVsetmt {t : BitVec 3} (h : MemoriesWf s) : OutWf (execVsetmt p d t s) :=
  h.raise.ite (h.illegal.ite (h.held.ite h.setV.wr.finish))

theorem MemoriesWf.vCut (h : MemoriesWf s) : MemoriesWf (vCut s tid) := by
  unfold Machine.vCut
  split
  · exact h
  · exact h.setTh

theorem MemoriesWf.redBegun (h : MemoriesWf s) : MemoriesWf (redBegun s tid) := by
  unfold Machine.redBegun
  split
  · exact h
  · refine .ite ?_ h
    split
    next e => exact (h.redRun.of_eq e).setHead

theorem MemoriesWf.vQuietBy (h : MemoriesWf s) : OptionWf (Machine.vQuietBy n s tid) := by
  induction n generalizing s with
  | zero =>
    unfold Machine.vQuietBy
    split
    · exact h
    · exact .ite trivial h.redBegun.vCut
  | succ m ih =>
    unfold Machine.vQuietBy
    split
    · exact h
    · refine .ite trivial ?_
      dsimp only
      generalize (th (Machine.redBegun s tid) tid).v.queue = q
      cases q with
      | nil => exact h.redBegun.vCut
      | cons e _ => exact .ite (ih h.redBegun.popHead.vRun) h.redBegun.vCut

theorem MemoriesWf.vQuiet (h : MemoriesWf s) : OptionWf (vQuiet s tid) := h.vQuietBy

theorem MemoriesWf.vBeat {e : VEntry} (h : MemoriesWf s) : MemoriesWf (vBeat s tid e) := by
  unfold Machine.vBeat
  refine (h.redRun.fst.ite h.vPerform).popHead.vRun.ite (.ite ?_ h.setHead)
  split
  next e => exact (h.redRun.of_eq e).setHead

theorem MemoriesWf.execLaneBeat (h : MemoriesWf s) : OutWf (execLaneBeat core s) := by
  unfold Machine.execLaneBeat
  dsimp only
  split
  · exact h
  · split
    · exact h
    · exact h.setCo.vBeat

theorem MemoriesWf.vDone (h : MemoriesWf s) : MemoriesWf (vDone s tid) := h.popHead.vRun

theorem MemoriesWf.elemAt {e : VEntry} (h : MemoriesWf s) : ElemAtWf (elemAt s tid e addr) := by
  unfold Machine.elemAt
  split
  · exact holds_ite h trivial
  · split
    · exact h
    · exact trivial
  · split
    · dsimp only
      split
      next e => exact h.xlateBy.of_eq e
      · exact trivial
    · dsimp only
      split
      next e => exact h.xlateBy.of_eq e
      · exact trivial

theorem MemoriesWf.cutThen {e : VEntry} {f : State → State} (h : MemoriesWf s)
    (hf : ∀ t, MemoriesWf t → MemoriesWf (f t)) :
    MemoriesWf (cutThen s tid e f) :=
  (hf _ h.vCut.asThread.upd).upd

theorem MemoriesWf.vLoaded {e : VEntry} {i v : Nat} (h : MemoriesWf s) : MemoriesWf (vLoaded s tid e i v) := by
  unfold Machine.vLoaded
  split
  · exact h.vEach.vDone
  · exact h.vPut.setHead

theorem MemoriesWf.vLoadElem {e : VEntry} {i : Nat} (h : MemoriesWf s) : MemoriesWf (vLoadElem s tid e i) := by
  unfold Machine.vLoadElem
  refine (h.cutThen (fun _ k => k.raise)).ite ?_
  split
  · exact h.setV.vDone.ite (h.cutThen (fun _ k => k.raise))
  · exact h.cutThen fun _ k => k.raise
  · exact h.setV.vDone.ite (h.cutThen (fun _ k => k.xlFail))
  next e =>
    have h1 := h.elemAt.ok e
    split
    next e' => exact h1.readLoc.hold e'
    next e' => exact h1.readLoc.ends e'
    next e' =>
      have h2 := h1.readLoc.failed e'
      exact h2.setV.vDone.ite (h2.cutThen (fun _ k => k.raise))
    next e' => exact (h1.readLoc.value e').vLoaded

theorem MemoriesWf.vGuard {e : VEntry} {i : Nat} (h : MemoriesWf s) : MemoriesWf (vGuard s tid e i) := by
  unfold Machine.vGuard
  dsimp only
  split
  · exact h.asThread.cutThen fun _ k => k.counterFault
  · refine h.asThread.cutThen fun _ k => ?_
    split
    next e' => exact k.ctrFind.ends e'
    · exact k
  next e =>
    have h1 := h.asThread.ctrFind.at_ e
    split
    next e' => exact h1.ctrValue.hold e'
    · refine h1.cutThen fun _ k => ?_
      split
      next e'' => exact k.ctrValue.ends e''
      · exact k
    next e' =>
      have h2 := h1.ctrValue.value e'
      exact h2.acquire.vLoadElem.ite (h2.cutThen (fun _ k => k.park))

theorem MemoriesWf.vStoreElem {e : VEntry} {i : Nat} (h : MemoriesWf s) : MemoriesWf (vStoreElem s tid e i) :=
  h.ite h.queueStore.setHead

theorem MemoriesWf.execVectorElementAccess (h : MemoriesWf s) : OutWf (execVectorElementAccess tid s) := by
  unfold Machine.execVectorElementAccess
  dsimp only
  split
  · exact h
  · refine .ite h ?_
    split
    · exact h.vDone
    · exact h.vStoreElem.ite (h.setHead.vGuard.ite h.setHead.vLoadElem)

end Sys2Proof
end

section
/-! ### The tile units -/

namespace Sys2Proof

open Machine

variable {s s1 : State} {tid core n ctx : Nat} {addr : Word} {l : Loc} {p : BitVec 1} {d a b : BitVec 5}

theorem MemoriesWf.setCell {t i j v : Nat} (h : MemoriesWf s) : MemoriesWf (setCell s core t i j v) := h.upd

theorem MemoriesWf.zeroTile {t : Nat} (h : MemoriesWf s) : MemoriesWf (zeroTile s core t) := h.upd

theorem MemoriesWf.tileReset (h : MemoriesWf s) : MemoriesWf (tileReset s core) := h.setCo.upd

theorem MemoriesWf.tileDirty (h : MemoriesWf s) : MemoriesWf (tileDirty s core) :=
  (h.setCo.ite h.setCo.setTh).ite h

theorem MemoriesWf.tileRelease (h : MemoriesWf s) : MemoriesWf (tileRelease s tid) :=
  h.ite h.tileReset.setCo.setTh

theorem MemoriesWf.tileGate {w : Nat} {rel : Bool} (h : MemoriesWf s) : OptionWf (tileGate s w rel) := by
  unfold Machine.tileGate
  split
  · exact .ite h.raise trivial
  · exact .ite h.raise trivial
  · exact trivial

theorem MemoriesWf.setTq {q : List TileCmd} (h : MemoriesWf s) : MemoriesWf (setTq s core q) := h.setCo

theorem MemoriesWf.tileEnter {c : TileCmd} (h : MemoriesWf s) : MemoriesWf (tileEnter s p c) :=
  h.held.ite h.setTq.finish

theorem MemoriesWf.tileSettle (h : MemoriesWf s) : MemoriesWf (tileSettle s core) :=
  h.ite ((h.upd.ite h).tileReset.setCo.ite (h.upd.ite h))

theorem MemoriesWf.tileLeave {k : Nat} {c : TileCmd} (h : MemoriesWf s) : MemoriesWf (tileLeave s core k c) :=
  (h.setTq.upd.ite h.setTq).tileSettle

theorem MemoriesWf.tileTell {c : TileCmd} {code progress index : Nat} (h : MemoriesWf s) :
    MemoriesWf (tileTell s core c code addr progress index) :=
  h.ite h.setTq.tileSettle.orFlags.afReport

theorem MemoriesWf.tileFault {k : Nat} {c : TileCmd} {code progress index : Nat} (h : MemoriesWf s) :
    MemoriesWf (tileFault s core k c code addr progress index) :=
  (h.ite h.tileLeave).setCo.ite h.tileLeave.tileTell

theorem MemoriesWf.tileReport (h : MemoriesWf s) : MemoriesWf (tileReport s core) := by
  unfold Machine.tileReport
  split
  · refine h.ite (.tileTell ?_)
    split
    · exact h.setCo.tileLeave.ite h.setCo
    · exact h.setCo
  · exact h

theorem MemoriesWf.tileAdd {c : TileCmd} (h : MemoriesWf s) : TDoneWf (tileAdd s core c) := by
  unfold Machine.tileAdd
  refine holds_ite h (holds_ite h ?_)
  split
  next e => exact h.engineAdd.ok e
  next e => exact h.engineAdd.refused e
  next e => exact h.engineAdd.walk e
  next e => exact h.engineAdd.wait e
  next e =>
    have h1 := h.engineAdd.miss e
    exact holds_ite h1 h1.postPage

theorem MemoriesWf.marverTurn (h : MemoriesWf s) : OptionWf (marverTurn s core) := by
  unfold Machine.marverTurn
  split
  · exact .ite h.upd trivial
  · exact trivial

theorem MemoriesWf.tileDone {k : Nat} {c : TileCmd} (h : MemoriesWf s) : MemoriesWf (tileDone s p core k c) := by
  unfold Machine.tileDone
  split
  next e => exact (h.tileAdd.done e).tileLeave.finish
  next e => exact (h.tileAdd.refused e).tileFault.finish
  next e => exact (h.tileAdd.wait e).setTq.holdAt

theorem MemoriesWf.tileWork {k : Nat} {c : TileCmd} {work : State → TileCmd → HRes} (h : MemoriesWf s)
    (hf : ∀ t x, MemoriesWf t → HResWf (work t x)) :
    MemoriesWf (tileWork s p core k c work) := by
  unfold Machine.tileWork
  split
  next e =>
    have h1 := (hf _ _ h).done e
    exact (h1.tileDirty.ite h1).tileDone
  next e => exact ((hf _ _ h).more e).setTq.holdAt
  next e =>
    have h1 := (hf _ _ h).ends e
    exact h1.tileLeave.setMe.ite h1.tileLeave
  next e => exact ((hf _ _ h).fault e).tileFault.finish

theorem MemoriesWf.tileHeldAt {k : Nat} {c : TileCmd} {work : State → TileCmd → HRes} (h : MemoriesWf s)
    (hf : ∀ t x, MemoriesWf t → HResWf (work t x)) :
    MemoriesWf (tileHeldAt s p core k c work) := by
  unfold Machine.tileHeldAt
  refine h.holdAt.ite (h.tileDone.ite (.ite ?_ (h.tileWork hf)))
  split
  next e => exact (h.marverTurn.of_eq e).tileWork hf
  · exact h.holdAt

theorem MemoriesWf.tileHolding {c : TileCmd} {work : State → TileCmd → HRes} (h : MemoriesWf s)
    (hf : ∀ t x, MemoriesWf t → HResWf (work t x)) :
    MemoriesWf (tileHolding s p c work) := by
  unfold Machine.tileHolding
  dsimp only
  split
  · split
    · exact h.tileHeldAt hf
    · exact h.held
  · exact h.held.ite (h.setTq.tileHeldAt hf)

theorem MemoriesWf.tileList {c : TileCmd} {x : Nat} (h : MemoriesWf s) : TileListWf (tileList s c x) := by
  induction x with
  | zero => exact trivial
  | succ m ih =>
    unfold Machine.tileList
    split
    next e => exact ih.error e
    · dsimp only
      split
      · exact trivial
      next e' => exact h.readLoc.hold e'
      next e' => exact (h.readLoc.failed e').raise
      next e' => exact h.readLoc.ends e'

theorem MemoriesWf.tileBegin {c : TileCmd} {go : State → TileCmd → HRes} (h : MemoriesWf s)
    (hf : ∀ t x, MemoriesWf t → HResWf (go t x)) :
    HResWf (tileBegin s c go) := by
  unfold Machine.tileBegin
  refine holds_ite (hf _ _ h) (holds_ite h.raise ?_)
  split
  next e => exact h.tileList.error e
  · dsimp only
    split
    · exact h.raise
    · exact hf _ _ h

theorem MemoriesWf.tilePlace (h : MemoriesWf s) : ElemAtWf (tilePlace s addr n) := by
  unfold Machine.tilePlace
  split
  · exact holds_ite h trivial
  · split
    next e => exact h.xlate.of_eq e
    · exact trivial

theorem MemoriesWf.tilePhase1 {x : List (Nat × Nat × Word)} (h : MemoriesWf s) : ExceptWf (tilePhase1 s n x) := by
  induction x generalizing s with
  | nil => exact h
  | cons y r ih =>
    unfold Machine.tilePhase1
    split
    next e => exact ih (h.tilePlace.ok e)
    · exact h.raise
    · exact h.xlFail

theorem MemoriesWf.tilePhase2 {vs : List (Nat × Nat × Nat)} {x : List (Nat × Nat × Word)} (h : MemoriesWf s) :
    TLoadWf (tilePhase2 s n vs x) := by
  induction x generalizing s vs with
  | nil => exact h
  | cons y r ih =>
    unfold Machine.tilePhase2
    split
    next e =>
      have h1 := h.tilePlace.ok e
      split
      next e' => exact ih (h1.readLoc.value e')
      next e' => exact h1.readLoc.hold e'
      next e' => exact h1.readLoc.failed e'
      next e' => exact h1.readLoc.ends e'
    · exact h

theorem MemoriesWf.tilePutAll {t y : Nat} {vs : List (Nat × Nat × Nat)} (h : MemoriesWf s) :
    MemoriesWf (tilePutAll s core t y vs) :=
  h.foldl fun _ _ k => k.setCell.orFlags

theorem MemoriesWf.tileSkips {c : TileCmd} (h : MemoriesWf s) : MemoriesWf (tileSkips s core c n) := by
  unfold Machine.tileSkips
  refine h.foldl fun _ _ k => ?_
  split
  · exact k
  · exact k.foldl fun _ _ k => k.setCell

theorem MemoriesWf.tileLoadWork {c : TileCmd} (h : MemoriesWf s) : HResWf (tileLoadWork s c) := by
  unfold Machine.tileLoadWork
  refine holds_ite h (h.tileBegin (fun _ _ k => ?_))
  split
  next e => exact k.tilePhase1.error e
  next e =>
    have h1 := k.tilePhase1.ok e
    split
    next e' => exact h1.tilePhase2.hold e'
    next e' => exact (h1.tilePhase2.all e').tileSkips.tilePutAll
    next e' =>
      have h2 := h1.tilePhase2.bad e'
      exact h2.tileSkips.tilePutAll.tileDirty.ite h2.tileSkips.tilePutAll

theorem MemoriesWf.tilePush {c : TileCmd} {x : List (Nat × Nat × Word)} (h : MemoriesWf s) :
    FstWf (tilePush s c n x) := by
  induction x generalizing s n with
  | nil => exact h
  | cons y r ih =>
    unfold Machine.tilePush
    split
    · exact .ite h (ih h.pushStore.orFlags)

theorem MemoriesWf.tileStoreWork {c : TileCmd} (h : MemoriesWf s) : HResWf (tileStoreWork s c) := by
  unfold Machine.tileStoreWork
  refine holds_ite h (h.tileBegin (fun _ _ k => ?_))
  dsimp only
  exact holds_ite k.tilePush.fst k.tilePush.fst

theorem MemoriesWf.tileMem {c : TileCmd} {ok : Bool} {work : State → TileCmd → HRes} (h : MemoriesWf s)
    (hf : ∀ t x, MemoriesWf t → HResWf (work t x)) :
    OutWf (tileMem s p c ok work) := by
  unfold Machine.tileMem
  refine h.illegal.ite ?_
  split
  next e => exact h.tileGate.of_eq e
  · exact h.raise.ite (h.raise.ite (h.tileHolding hf))

theorem MemoriesWf.execTileLd {t : BitVec 2} {c : BitVec 1} {y : BitVec 4} (h : MemoriesWf s) :
    OutWf (execTileLd p t c a b y s) :=
  h.tileMem fun _ _ k => k.tileLoadWork

theorem MemoriesWf.execTileSt {t : BitVec 2} {c : BitVec 1} {y : BitVec 4} (h : MemoriesWf s) :
    OutWf (execTileSt p t c a b y s) :=
  h.tileMem fun _ _ k => k.tileStoreWork

theorem MemoriesWf.execTileLdx {t : BitVec 2} {c : BitVec 1} {y : BitVec 4} (h : MemoriesWf s) :
    OutWf (execTileLdx p t c a b y s) :=
  h.tileMem fun _ _ k => k.tileLoadWork

theorem MemoriesWf.execTileStx {t : BitVec 2} {c : BitVec 1} {y : BitVec 4} (h : MemoriesWf s) :
    OutWf (execTileStx p t c a b y s) :=
  h.tileMem fun _ _ k => k.tileStoreWork

theorem MemoriesWf.execTileStxa {t : BitVec 2} {c : BitVec 1} {y : BitVec 4} (h : MemoriesWf s) :
    OutWf (execTileStxa p t c a b y s) :=
  h.tileMem fun _ _ k => k.tileStoreWork

theorem MemoriesWf.rowvWork {c : TileCmd} (h : MemoriesWf s) : HResWf (rowvWork s c) :=
  holds_ite h (h.foldl (fun _ _ k => k.vPut.orFlags))

theorem MemoriesWf.vrowWork {c : TileCmd} (h : MemoriesWf s) : HResWf (vrowWork s c) :=
  holds_ite h (h.foldl (fun _ _ k => k.setCell.orFlags))

theorem MemoriesWf.tileRowOp {c : TileCmd} {ok : Bool} {work : State → TileCmd → HRes} (h : MemoriesWf s)
    (hf : ∀ t x, MemoriesWf t → HResWf (work t x)) :
    OutWf (tileRowOp s p c ok work) := by
  unfold Machine.tileRowOp
  refine h.illegal.ite ?_
  split
  next e => exact h.tileGate.of_eq e
  · exact h.raise.ite (h.illegal.ite (h.tileHolding hf))

theorem MemoriesWf.execTileRowv {t : BitVec 2} {c : BitVec 1} {v : BitVec 5} {y : BitVec 4} (h : MemoriesWf s) :
    OutWf (execTileRowv p t c a v y s) :=
  h.tileRowOp fun _ _ k => k.rowvWork

theorem MemoriesWf.execTileVrow {t : BitVec 2} {c : BitVec 1} {v : BitVec 5} {y : BitVec 4} (h : MemoriesWf s) :
    OutWf (execTileVrow p t c a v y s) :=
  h.tileRowOp fun _ _ k => k.vrowWork

theorem MemoriesWf.execTileZero {t : BitVec 2} {c : BitVec 1} (h : MemoriesWf s) : OutWf (execTileZero p t c s) := by
  unfold Machine.execTileZero
  dsimp only
  split
  next e => exact h.tileGate.of_eq e
  · exact h.tileEnter

theorem MemoriesWf.tileProduct {c : TileCmd} (h : MemoriesWf s) : OutWf (tileProduct s p c) := by
  unfold Machine.tileProduct
  refine h.illegal.ite ?_
  split
  next e => exact h.tileGate.of_eq e
  · refine h.illegal.ite ?_
    split
    · exact h.raise
    · exact h.raise.ite (h.raise.ite h.tileEnter)

theorem MemoriesWf.execTileQ {t : BitVec 2} {c : BitVec 1} {y : BitVec 4} (h : MemoriesWf s) :
    OutWf (execTileQ p t c a b y s) := by
  unfold Machine.execTileQ
  refine h.illegal.ite ?_
  split
  next e => exact h.tileGate.of_eq e
  · exact h.raise.ite (h.raise.ite h.tileEnter)

theorem MemoriesWf.execTileChol {t : BitVec 2} {c : BitVec 1} (h : MemoriesWf s) : OutWf (execTileChol p t c s) := by
  unfold Machine.execTileChol
  dsimp only
  split
  next e => exact h.tileGate.of_eq e
  · exact h.illegal.ite h.tileEnter

theorem MemoriesWf.execTileTrsm {t : BitVec 2} {c : BitVec 1} {ts : BitVec 2} (h : MemoriesWf s) :
    OutWf (execTileTrsm p t c ts s) := by
  unfold Machine.execTileTrsm
  dsimp only
  split
  next e => exact h.tileGate.of_eq e
  · exact h.illegal.ite h.tileEnter

theorem MemoriesWf.execTileRel (h : MemoriesWf s) : OutWf (execTileRel p s) := by
  unfold Machine.execTileRel
  dsimp only
  split
  next e => exact h.tileGate.of_eq e
  · exact h.tileHolding fun _ _ k => k.tileRelease

theorem MemoriesWf.tilePeers (h : MemoriesWf s) : MemoriesWf (tilePeers s tid) := h.setTq

theorem MemoriesWf.eachCell {c : TileCmd} {f : State → Nat → Nat → Nat × Flags} (h : MemoriesWf s) :
    FstWf (Machine.eachCell s c f) :=
  FstWf.foldl h fun _ _ k => k.foldl fun _ _ k => k.fst.setCell

theorem FstWf.wput {w : Work} {c : TileCmd} {i j : Nat} {r : Nat × Flags} (h : FstWf w) :
    FstWf (Machine.wput w c i j r) :=
  h.fst.setCell

theorem MemoriesWf.cholAll {c : TileCmd} (h : MemoriesWf s) : FstWf (Machine.cholAll s c) := by
  refine FstWf.foldl (FstWf.foldl h fun _ _ k => ?_) fun _ _ k => k.foldl fun _ _ k => k.wput
  exact (k.wput.foldl fun _ _ k => k.wput).foldl fun _ _ k => k.foldl fun _ _ k => k.wput

theorem MemoriesWf.trsmAll {c : TileCmd} (h : MemoriesWf s) : FstWf (Machine.trsmAll s c) :=
  FstWf.foldl h fun _ _ k => k.foldl fun _ _ k => k.wput

theorem MemoriesWf.stepPlain {c : TileCmd} (h : MemoriesWf s) : TStepWf (stepPlain s c) := by
  unfold Machine.stepPlain
  split
  · dsimp only
    split
    · exact h
    · exact h.eachCell.fst

theorem MemoriesWf.stepScaled {c : TileCmd} (h : MemoriesWf s) : TStepWf (stepScaled s c) := by
  unfold Machine.stepScaled
  split
  · split
    · dsimp only
      split
      · exact h
      · exact holds_ite h h.eachCell.fst
    · dsimp only
      split
      · exact h
      · refine holds_ite h ?_
        split
        · exact h
        · exact h.eachCell.fst

theorem MemoriesWf.spadWrites {x : List (Word × List Byte)} (h : MemoriesWf s) : FstWf (spadWrites s core n x) := by
  induction x generalizing s n with
  | nil => exact h
  | cons y r ih =>
    unfold Machine.spadWrites
    exact .ite h (ih h.storeBytes)

theorem MemoriesWf.quantBlocks {c : TileCmd} {i : Nat} {f : Flags} {x : List Nat} (h : MemoriesWf s) :
    FstWf (quantBlocks s c i f x) := by
  induction x generalizing s f with
  | nil => exact h
  | cons y r ih =>
    unfold Machine.quantBlocks
    dsimp only
    split
    next e => exact ih (h.spadWrites.of_eq e)
    next e => exact h.spadWrites.of_eq e

theorem MemoriesWf.stepQ {c : TileCmd} (h : MemoriesWf s) : TStepWf (stepQ s c) := by
  unfold Machine.stepQ
  refine holds_ite h ?_
  dsimp only
  split
  next e => exact h.quantBlocks.of_eq e
  next e => exact h.quantBlocks.of_eq e

theorem MemoriesWf.tileStep {c : TileCmd} (h : MemoriesWf s) : TStepWf (tileStep s c) := by
  unfold Machine.tileStep
  split
  · exact h.zeroTile
  · exact h.stepQ
  · exact holds_ite h h.cholAll.fst
  · exact holds_ite h h.trsmAll.fst
  · exact holds_ite h.stepScaled h.stepPlain

theorem MemoriesWf.execMarverGrant {bench : Nat} (h : MemoriesWf s) : OutWf (execMarverGrant bench s) := by
  unfold Machine.execMarverGrant
  dsimp only
  split
  · split
    · exact h
    · split
      · exact h
      · refine .ite h.upd.setTq (.ite ?_ h.upd.setTq)
        split
        · exact h.upd.setTq.setTq
        · exact h.upd.setTq.tileFault
  · exact h

theorem MemoriesWf.orphanAdd {k : Nat} {c : TileCmd} (h : MemoriesWf s) : MemoriesWf (orphanAdd s core k c) := by
  unfold Machine.orphanAdd
  refine h.tileLeave.ite ?_
  split
  next e => exact (h.engineLoc.of_eq e).postOf.tileLeave
  next e =>
    have h1 := h.engineLoc.of_eq e
    exact h1.tileLeave.ite h1.postPage
  next e => exact (h.engineLoc.of_eq e).tileLeave

theorem MemoriesWf.orphanStores {c : TileCmd} (h : MemoriesWf s) : MemoriesWf (orphanStores s c) :=
  h.foldl fun _ _ k => k.pushStore

theorem MemoriesWf.orphanWork {k : Nat} {c : TileCmd} (h : MemoriesWf s) :
    MemoriesWf (Machine.orphanWork s core k c) := by
  unfold Machine.orphanWork
  extract_lets _ whole ran
  have hw : ∀ t, MemoriesWf t → MemoriesWf (whole t) := fun _ h => h.setTq.orphanAdd
  have hr : ∀ r, HResWf r → MemoriesWf (ran r) := by
    intro r h
    cases r with
    | done => exact hw _ (h.done rfl).tileDirty
    | more => exact (h.more rfl).setTq
    | ends => exact MemoriesWf.tileLeave ‹_›
    | fault => exact (h.fault rfl).tileLeave
  refine h.orphanAdd.ite ?_
  split
  · exact hw _ h.orphanStores
  · exact hw _ h.orphanStores
  · exact hw _ h.orphanStores
  · exact hr _ h.tileLoadWork
  · exact hr _ h.tileLoadWork
  · exact hr _ h.vrowWork
  · exact hw _ h

theorem MemoriesWf.orphanRun (h : MemoriesWf s) : MemoriesWf (orphanRun s core) := by
  unfold Machine.orphanRun
  split
  · split
    · exact h.asThread.orphanWork.upd
    · exact h
  · exact h

theorem MemoriesWf.execMarverStep {bench : Nat} (h : MemoriesWf s) : OutWf (execMarverStep bench s) := by
  unfold Machine.execMarverStep
  split
  · refine .ite h ?_
    split
    next e =>
      have h1 := h.tileStep.ok e
      exact (h1.tileDirty.ite h1).setTq
    next e => exact (h.tileStep.fault e).tileFault
  · exact h

theorem MemoriesWf.execMarverCommandComplete {bench : Nat} (h : MemoriesWf s)
    (e : Machine.execMarverCommandComplete bench s = .next s1) : MemoriesWf s1 := by
  have h1 := h.foldl (l := List.range 8) (f := fun s p => Machine.orphanRun s (coreAt bench p)) fun _ _ k =>
    k.orphanRun
  refine OutWf.of_eq ?_ e
  unfold Machine.execMarverCommandComplete
  dsimp only
  split
  · refine .ite h1 ?_
    split
    next e => exact h1.tileAdd.wait e
    next e => exact (h1.tileAdd.refused e).tileFault
    next e => exact (h1.tileAdd.done e).tileLeave.ite (h1.tileAdd.done e).tileLeave.orFlags
  · exact h1

end Sys2Proof
end

section
/-! ### The life of threads -/

namespace Sys2Proof

open Machine

variable {s s1 : State} {tid core n ctx : Nat} {addr : Word} {l : Loc} {p : BitVec 1} {d a b : BitVec 5}

theorem MemoriesWf.stopAdd (h : MemoriesWf s) : MemoriesWf (stopAdd s tid) := by
  unfold Machine.stopAdd
  split
  · exact h
  · split
    · exact h.setTh
    · exact h.setTh.postOf

theorem MemoriesWf.settleStop {k : Nat} (h : MemoriesWf s) : MemoriesWf (settleStop s k) := h.setGr.ite h

theorem MemoriesWf.dissolve {k : Nat} (h : MemoriesWf s) : MemoriesWf (dissolve s k) := h.haloEndGang.setGr

theorem MemoriesWf.leaveGroup (h : MemoriesWf s) : MemoriesWf (leaveGroup s tid) := by
  unfold Machine.leaveGroup
  split
  · exact h
  · exact h.haloPush.haloBack.dissolve.ite h.haloPush.haloBack.setGr.settleStop

theorem MemoriesWf.dropRequests (h : MemoriesWf s) : MemoriesWf (dropRequests s tid) := h.upd

theorem MemoriesWf.dropEntries (h : MemoriesWf s) : MemoriesWf (dropEntries s tid) := h.unlist.upd.dropRequests

theorem MemoriesWf.returnCalls (h : MemoriesWf s) : MemoriesWf (returnCalls s tid) := h.upd

theorem MemoriesWf.orphanPosts (h : MemoriesWf s) : MemoriesWf (orphanPosts s tid) := h.upd

theorem MemoriesWf.countEnd {killed : Bool} (h : MemoriesWf s) : MemoriesWf (countEnd s tid killed) :=
  h.ite h.setKn

theorem MemoriesWf.freeSlot (h : MemoriesWf s) : MemoriesWf (freeSlot s tid) := h.vClear.setTh.orphanPosts

theorem MemoriesWf.detach (h : MemoriesWf s) : MemoriesWf (detach s core) := h.setCo.upd

theorem MemoriesWf.channelEnd (h : MemoriesWf s) : MemoriesWf (channelEnd s tid) := h.detach.setCo.ite h

theorem MemoriesWf.tileEnd (h : MemoriesWf s) : MemoriesWf (tileEnd s tid) :=
  h.tilePeers.setTq.setTh.setCo.orphanRun.tileSettle

theorem MemoriesWf.killThread (h : MemoriesWf s) : MemoriesWf (killThread s tid) :=
  h.channelEnd.dropEntries.tileEnd.stopAdd.leaveGroup.returnCalls.countEnd.freeSlot

theorem MemoriesWf.killThreads {ts : List Nat} (h : MemoriesWf s) : MemoriesWf (killThreads s ts) :=
  (h.foldl (fun _ _ k => k.tilePeers)).foldl (fun _ _ k => k.killThread)

theorem MemoriesWf.failTrap (h : MemoriesWf s) : MemoriesWf (failTrap s tid) := by
  unfold Machine.failTrap
  dsimp only
  split
  · exact h
  · split
    · exact h.setTh.enterTrap
    · exact h

theorem MemoriesWf.tileYield (h : MemoriesWf s) : MemoriesWf (tileYield s tid) := h.setTq.tileSettle.ite h

theorem MemoriesWf.stopReady (h : MemoriesWf s) : OptionWf (stopReady s tid) :=
  .ite trivial (h.failTrap.ite h).vQuiet

theorem MemoriesWf.stopNow (h : MemoriesWf s) : MemoriesWf (stopNow s tid) :=
  h.haloPush.haloBack.unlist.unrequest.setTh.detach.setCo.ite h.haloPush.haloBack.unlist.unrequest.setTh

theorem MemoriesWf.stopAside (h : MemoriesWf s) : OptionWf (stopAside s tid) :=
  .ite trivial (h.wakeFor.failTrap.ite h).vQuiet

theorem MemoriesWf.stopTry (h : MemoriesWf s) : OptionWf (Machine.stopTry s tid) := by
  unfold Machine.stopTry
  extract_lets t go
  have hg : ∀ t, MemoriesWf t → MemoriesWf (go t) := by
    intro t h
    dsimp only [go]
    split
    · exact h.stopNow.stopAdd.settleStop
    · exact h.stopNow.stopAdd
  refine .ite trivial ?_
  split
  · exact h.stopAside.map hg
  · exact h.stopAside.map hg
  · exact h.stopReady.map hg
  · trivial

theorem MemoriesWf.resume (h : MemoriesWf s) : MemoriesWf (Machine.resume s tid) := by
  unfold Machine.resume
  refine h.ite ?_
  extract_lets ready who s1 c
  have h1 : MemoriesWf s1 := by
    dsimp only [s1]
    split
    · split
      next e => exact (h.engineLoc.of_eq e).setTh.ite (h.engineLoc.of_eq e).setTh
      · exact h.setTh
    · exact h.setTh
  exact h1.setCo.ite h1

theorem MemoriesWf.joinGroup {k : Nat} {rank : Option Nat} (h : MemoriesWf s) : FstWf (joinGroup s k tid rank) :=
  h.setGr

theorem MemoriesWf.newGroup {k : Nat} (h : MemoriesWf s) : MemoriesWf (newGroup s k ctx) := h.setGr

end Sys2Proof
end

section
/-! ### Groups -/

namespace Sys2Proof

open Machine

variable {s s1 : State} {tid core n ctx : Nat} {addr : Word} {l : Loc} {p : BitVec 1} {d a b : BitVec 5}

theorem MemoriesWf.grpEnd {n : ℤ} (h : MemoriesWf s) : MemoriesWf (grpEnd s p d n) := h.wr.finish

theorem MemoriesWf.execGrpNew (h : MemoriesWf s) : OutWf (execGrpNew p d a s) := by
  unfold Machine.execGrpNew
  refine h.illegal.ite (h.grpEnd.ite ?_)
  split
  · exact h.grpEnd
  · exact (h.newGroup.joinGroup.fst.ite h.newGroup).wr.finish

theorem MemoriesWf.execGrpJoin (h : MemoriesWf s) : OutWf (Machine.execGrpJoin p d a b s) := by
  unfold Machine.execGrpJoin
  extract_lets v w tgt rk rank who r
  refine h.illegal.ite (h.raise.ite ?_)
  split
  · exact h.grpEnd
  · refine h.grpEnd.ite (h.grpEnd.ite (h.grpEnd.ite ?_))
    split
    · exact h.grpEnd
    · exact h.joinGroup.fst.grpEnd

theorem MemoriesWf.execGrpLeave (h : MemoriesWf s) : OutWf (execGrpLeave p d s) := by
  unfold Machine.execGrpLeave
  split
  · exact h.grpEnd
  · exact h.leaveGroup.grpEnd

theorem MemoriesWf.execGrpSize (h : MemoriesWf s) : OutWf (execGrpSize p d a s) := by
  unfold Machine.execGrpSize
  refine MemoriesWf.ite ?_ ?_
  · split <;> exact h.grpEnd
  · split <;> exact h.grpEnd

theorem MemoriesWf.execGrpRank (h : MemoriesWf s) : OutWf (execGrpRank p d s) := by
  unfold Machine.execGrpRank
  split <;> exact h.grpEnd

theorem MemoriesWf.execGrpPin (h : MemoriesWf s) : OutWf (execGrpPin p d a s) := by
  unfold Machine.execGrpPin
  split
  · exact h.grpEnd
  · exact h.grpEnd.ite (h.grpEnd.ite (h.setGr.grpEnd.ite (h.grpEnd.ite h.setGr.grpEnd)))

theorem MemoriesWf.execGrpUnpin (h : MemoriesWf s) : OutWf (execGrpUnpin p d a s) := by
  unfold Machine.execGrpUnpin
  split
  · exact h.grpEnd
  · exact h.held.ite (h.haloEndGang.setGr.grpEnd.ite h.grpEnd)

theorem MemoriesWf.grpMark {ctr : Option Loc} (h : MemoriesWf s) : MemoriesWf (grpMark s ctr addr tid) := h.setTh

theorem MemoriesWf.grpHalt (h : MemoriesWf s) : MemoriesWf (grpHalt s tid) := by
  unfold Machine.grpHalt
  split
  · exact h
  · exact h.stopTry.getD h

theorem MemoriesWf.grpStopAll {k : Nat} {ctr : Option Loc} (h : MemoriesWf s) : FstWf (grpStopAll s k ctr addr) :=
  (((h.setGr.ite h).foldl (fun _ _ k => k.grpMark)).foldl (fun _ _ k => k.grpHalt)).settleStop

theorem MemoriesWf.execGrpStop (h : MemoriesWf s) : OutWf (execGrpStop p d a b s) := by
  unfold Machine.execGrpStop
  refine h.raise.ite ?_
  split
  · exact h.grpEnd
  · refine h.raise.ite (.ite ?_ ?_)
    · split
      next e => exact (h.grpStopAll.of_eq e).grpEnd
    · split
      next e => exact (h.ctrFind.fault e).counterFault
      next e => exact h.ctrFind.ends e
      next e =>
        split
        next e' => exact ((h.ctrFind.at_ e).grpStopAll.of_eq e').grpEnd

theorem MemoriesWf.execGrpGo (h : MemoriesWf s) : OutWf (execGrpGo p d a s) := by
  unfold Machine.execGrpGo
  refine h.raise.ite ?_
  split
  · exact h.grpEnd
  · exact h.held.ite ((h.setGr.ite h).foldl (fun _ _ k => k.resume)).grpEnd

theorem MemoriesWf.tileKilled {ms : List Nat} (h : MemoriesWf s) : MemoriesWf (tileKilled s ms) := h.upd

theorem MemoriesWf.execGrpKill (h : MemoriesWf s) : OutWf (execGrpKill p d a s) := by
  unfold Machine.execGrpKill
  refine h.raise.ite ((h.holdAt.ite h.wr.finish).ite ?_)
  split
  · exact h.grpEnd
  · exact h.raise.ite ((h.dissolve.ite h.killThreads.tileKilled).holdAt.ite (h.dissolve.ite
      h.killThreads.tileKilled).grpEnd)

theorem MemoriesWf.spadRun {off x : Nat} (h : MemoriesWf s) : LdSndWf (spadRun s off x) := by
  induction x generalizing s off with
  | zero => exact h
  | succ m ih =>
    unfold Machine.spadRun
    split
    next e => exact ih (h.readLoc.value e)
    next e => exact (h.readLoc.failed e).raise
    · exact h.readLoc

theorem MemoriesWf.mcastGo {x : McastDesc} {src : Option (Loc × Word)} (h : MemoriesWf s) :
    MemoriesWf (mcastGo s p d x src) := by
  unfold Machine.mcastGo
  split
  · exact h.upd.tick.wr.finish

theorem MemoriesWf.execGrpMcast (h : MemoriesWf s) : OutWf (execGrpMcast p d a b s) := by
  unfold Machine.execGrpMcast
  refine h.raise.ite (h.raise.ite (h.held.ite ?_))
  split
  next e => exact h.spadRun.ends e
  next e => exact (h.spadRun.failed e).raise
  next e => exact (h.spadRun.hold e).held
  next e =>
    have h1 := h.spadRun.value e
    split
    · dsimp only
      split
      · exact h1.raise
      · exact h1.illegal.ite (h1.raise.ite h1.mcastGo)
    · split
      next e' =>
        dsimp only
        split
        · exact h1.raise
        · exact h1.illegal.ite (h1.raise.ite (h1.ctrFind.fault e').counterFault)
      next e' =>
        dsimp only
        split
        · exact h1.raise
        · exact h1.illegal.ite (h1.raise.ite (h1.ctrFind.ends e'))
      next e' =>
        dsimp only
        split
        · exact h1.raise
        · exact h1.illegal.ite (h1.raise.ite (h1.ctrFind.at_ e').mcastGo)

theorem MemoriesWf.mcastRead {m : Mcast} (h : MemoriesWf s) : MemoriesWf (mcastRead s n m) := by
  unfold Machine.mcastRead
  split
  · exact h.upd
  · exact h.upd.upd.tick

theorem MemoriesWf.mcastWrite {m : Mcast} (h : MemoriesWf s) : MemoriesWf (mcastWrite s m core) := by
  unfold Machine.mcastWrite
  split
  · exact ((h.foldl (fun _ _ k => k.storeBytes)).foldl (fun _ _ k => k.upd)).addAt
  · exact (h.foldl (fun _ _ k => k.storeBytes)).foldl (fun _ _ k => k.upd)

theorem MemoriesWf.execGrpMcastDelivery {rcv : Nat} (h : MemoriesWf s) : OutWf (execGrpMcastDelivery n rcv s) := by
  unfold Machine.execGrpMcastDelivery
  split
  · exact h
  · refine ((h.mcastRead.upd.ite h.mcastRead).ite h).ite ?_
    split
    · exact h
    · exact h.mcastWrite.upd

end Sys2Proof
end

section
/-! ### Line and halo operations -/

namespace Sys2Proof

open Machine

variable {s s1 : State} {tid core n ctx : Nat} {addr : Word} {l : Loc} {p : BitVec 1} {d a b : BitVec 5}

theorem MemoriesWf.execFence (h : MemoriesWf s) : OutWf (execFence p b s) := by
  unfold Machine.execFence
  refine h.illegal.ite (h.holdAt.ite (h.finish.ite (h.holdAt.ite ?_)))
  split
  next e => exact (h.releaseWait.of_eq e).holdAt
  · exact h.releaseCopies.acquire.finish

theorem MemoriesWf.execStDrain (h : MemoriesWf s) : OutWf (execStDrain p s) := h.holdAt.ite h.finish

theorem MemoriesWf.haloLineBack {line : Nat} (h : MemoriesWf s) : MemoriesWf (haloLineBack s core line) :=
  h.foldl fun _ _ k => k.haloByteBack

theorem MemoriesWf.lineBack {line scope : Nat} {inv : Bool} (h : MemoriesWf s) :
    MemoriesWf (Machine.lineBack s core line scope inv) := by
  unfold Machine.lineBack
  extract_lets s1 s2 _ s3
  have h1 : MemoriesWf s1 := h.haloLineBack.ite h
  have h2 : MemoriesWf s2 := h1.backPeer.ite h1
  have h3 : MemoriesWf s3 := h2.setCo.ite h2
  exact (h3.upd.ite h3).ite h2

theorem MemoriesWf.lineOp {word : Nat} {inv : Bool} (h : MemoriesWf s) : MemoriesWf (lineOp s p a b word inv) := by
  unfold Machine.lineOp
  refine h.illegal.ite (h.finish.ite ?_)
  split
  next e => exact (h.xlate.of_eq e).lineBack.finish
  next e => exact (h.xlate.of_eq e).finish
  next e => exact (h.xlate.of_eq e).xlFail

theorem MemoriesWf.execLineInv (h : MemoriesWf s) : OutWf (execLineInv p a b s) := h.lineOp

theorem MemoriesWf.execLineWb (h : MemoriesWf s) : OutWf (execLineWb p a b s) := h.lineOp

theorem MemoriesWf.execPref (h : MemoriesWf s) : OutWf (execPref p a b s) := h.illegal.ite h.finish

theorem haloXlate_cons (s : State) (v : Nat) (vs : List Nat) (acc : List (Nat × Nat)) :
    haloXlate s (v :: vs) acc = match xlate s (whoOf s s.cur) (BitVec.ofNat 64 (v * 4096)) .load with
      | (.ok (.mem k) _ _, s) => if isOwn k then haloXlate s vs ((v, k / 4096) :: acc) else .bad s
      | (.ok _ _ _, s) => .bad s
      | (.miss b i g, s) => .ends (xlFail s (BitVec.ofNat 64 (v * 4096)) .load 0 (.miss b i g))
      | (.error, s) => .ends (xlFail s (BitVec.ofNat 64 (v * 4096)) .load 0 .error)
      | (_, s) => .bad s := rfl

theorem MemoriesWf.haloXlate {vs : List Nat} {acc : List (Nat × Nat)} (h : MemoriesWf s) :
    HaloXlWf (Machine.haloXlate s vs acc) := by
  induction vs generalizing s acc with
  | nil => exact h
  | cons v vs ih =>
    rw [haloXlate_cons]
    have h1 : SndWf (Machine.xlate s (whoOf s s.cur) (BitVec.ofNat 64 (v * 4096)) .load) := h.xlate
    generalize Machine.xlate s (whoOf s s.cur) (BitVec.ofNat 64 (v * 4096)) .load = r at h1 ⊢
    obtain ⟨x, s1⟩ := r
    cases x with
    | ok l _ _ =>
      cases l with
      | mem k => exact holds_ite (ih h1) h1
      | _ => exact h1
    | miss | error => exact h1.snd.xlFail
    | _ => exact h1

theorem MemoriesWf.haloPut {x : Halo} (h : MemoriesWf s) : MemoriesWf (haloPut s x) := h.upd

theorem MemoriesWf.haloDecl {bs : List Byte} (h : MemoriesWf s) : MemoriesWf (haloDecl s p d bs) := by
  unfold Machine.haloDecl
  split
  · exact h.wr.finish
  · refine h.wr.finish.ite (h.wr.finish.ite ?_)
    split
    next e => exact (h.haloXlate.bad e).wr.finish
    next e => exact h.haloXlate.ends e
    next e =>
      have h1 := h.haloXlate.ok e
      exact h1.wr.finish.ite (h1.wr.finish.ite (h1.wr.finish.ite (h1.held.ite h1.haloPut.wr.finish)))

theorem MemoriesWf.execHaloDecl (h : MemoriesWf s) : OutWf (execHaloDecl p d a s) := by
  unfold Machine.execHaloDecl
  refine h.raise.ite (h.held.ite ?_)
  split
  next e => exact h.loadRun.ends e
  next e => exact (h.loadRun.hold e).held
  next e => exact (h.loadRun.failed e).raise
  next e => exact (h.loadRun.value e).haloDecl

theorem MemoriesWf.execHaloDrop (h : MemoriesWf s) : OutWf (execHaloDrop p a s) := by
  unfold Machine.execHaloDrop
  split
  · exact h.haloEnd.finish
  · exact h.raise

theorem MemoriesWf.execHaloPush (h : MemoriesWf s) : OutWf (execHaloPush p a s) := by
  unfold Machine.execHaloPush
  split
  · exact h.haloPush.finish
  · exact h.raise

theorem MemoriesWf.execLineEvict {line : Nat} (h : MemoriesWf s) : OutWf (execLineEvict core line s) :=
  h.setCo.ite h.l2drop

theorem MemoriesWf.execHostCxlSnoop {line : Nat} {inval : Bool} {data : List Byte} (h : MemoriesWf s) :
    OutWf (execHostCxlSnoop line inval data s) :=
  h.ite ((h.dropHost.ite h.backHost).ite (h.dropHost.ite h.backHost).storeBytes)

theorem MemoriesWf.cxlDone {pa code : Nat} {bs : List Byte} (h : MemoriesWf s) : MemoriesWf (cxlDone s pa code bs) :=
  h.upd

theorem MemoriesWf.execHostCxlMemAccess {pa : Nat} {write : Bool} {data : List Byte} (h : MemoriesWf s) :
    OutWf (execHostCxlMemAccess pa write data s) := by
  unfold Machine.execHostCxlMemAccess
  split
  · refine h.ite (h.cxlDone.ite ?_)
    split
    · dsimp only
      split
      · exact h.cxlDone.vfError
      · exact h.cxlDone
    · exact h.storeBytes
  · exact h

end Sys2Proof
end

section
/-! ### Page requests and virtual functions -/

namespace Sys2Proof

open Machine

variable {s s1 : State} {tid core n ctx : Nat} {addr : Word} {l : Loc} {p : BitVec 1} {d a b : BitVec 5}

theorem MemoriesWf.freePageEntry {k : Nat} (h : MemoriesWf s) : MemoriesWf (freePageEntry s k) := h.upd.grantWaits

theorem MemoriesWf.callMark {key : Nat} {f : Call → Call} (h : MemoriesWf s) : MemoriesWf (callMark s key n f) :=
  h.upd

theorem MemoriesWf.chMark {seq : Nat} {va : Word} {f : XReq → XReq} (h : MemoriesWf s) :
    MemoriesWf (chMark s core seq va f) :=
  h.setCo

theorem MemoriesWf.retryFor {r : Requester} (h : MemoriesWf s) : MemoriesWf (retryFor s r) := by
  unfold Machine.retryFor
  split
  · exact h.setTh.ite h
  · exact h.chMark
  · exact h.setKn.ite h
  · exact h
  · exact h
  · exact h
  · exact h.callMark

theorem MemoriesWf.refuseFor {e : PageReq} {ring : Option Word} {r : Requester} (h : MemoriesWf s) :
    MemoriesWf (refuseFor s e ring r) := by
  unfold Machine.refuseFor
  split
  · exact h.setTh.ite h
  · split
    · dsimp only
      split
      · exact h
      · exact h.setTh.recordFault
    · dsimp only
      split
      · exact h
      · exact h.setTh.recordFault.ite h.setTh.recordFault
  · exact h.chMark
  · exact h.ite (h.setKn.ite h.setKn)
  · exact h.callMark
  · exact h.setTq
  · exact h

theorem MemoriesWf.refuseEntry {k : Nat} {ring : Option Word} (h : MemoriesWf s) :
    MemoriesWf (refuseEntry s k ring) := by
  unfold Machine.refuseEntry
  split
  · exact h.freePageEntry.foldl fun _ _ k => k.refuseFor
  · exact h

theorem MemoriesWf.refuseAll {k : Nat} (h : MemoriesWf s) : MemoriesWf (refuseAll s k) := by
  unfold Machine.refuseAll
  split
  · exact h
  · refine h.refuseEntry.foldl fun _ _ k => ?_
    split
    · split
      · split
        · exact k.refuseEntry
        · exact k
      · exact k
    · exact k

theorem MemoriesWf.pageAnswer {own ring : Nat} {ans : Word} (h : MemoriesWf s) :
    MemoriesWf (pageAnswer s own ring ans) := by
  unfold Machine.pageAnswer
  split
  · exact h
  · exact h.refuseAll.ite (h.freePageEntry.foldl (fun _ _ k => k.retryFor))

theorem MemoriesWf.execPageAnswerRetry {own ring : Nat} {ans : Word} (h : MemoriesWf s) :
    OutWf (execPageAnswerRetry own ring ans s) :=
  h.ite h.pageAnswer

theorem MemoriesWf.execPageAnswerRefuse {own ring : Nat} {ans : Word} (h : MemoriesWf s) :
    OutWf (execPageAnswerRefuse own ring ans s) :=
  h.pageAnswer.ite h

theorem MemoriesWf.ringLoc {e : PageReq} {a : Nat} (h : MemoriesWf s) : SndWf (ringLoc s e a) :=
  .ite h (.ite h h.guestLoc)

theorem MemoriesWf.ringMiss {k : Nat} {e : PageReq} {gpa rec_ : Word} (h : MemoriesWf s) :
    MemoriesWf (ringMiss s k e gpa rec_) :=
  h.refuseEntry.ite h.postPage

theorem MemoriesWf.writeRequest {k : Nat} {e : PageReq} (h : MemoriesWf s) : MemoriesWf (writeRequest s k e) := by
  unfold Machine.writeRequest
  split
  · exact h.refuseEntry
  · split
    next e =>
      have h1 := h.ringLoc.of_eq e
      refine h1.toHome.ite ?_
      dsimp only
      split
      next e' => exact (h1.toHome.ringLoc.of_eq e').toHome.storeBytes.addAt.upd
      next e' => exact (h1.toHome.ringLoc.of_eq e').ringMiss
      next e' => exact (h1.toHome.ringLoc.of_eq e').refuseEntry
    next e => exact (h.ringLoc.of_eq e).ringMiss
    next e => exact (h.ringLoc.of_eq e).refuseEntry

theorem MemoriesWf.execPageRequestRecordWrite {ent : Nat} (h : MemoriesWf s) :
    OutWf (execPageRequestRecordWrite ent s) := by
  unfold Machine.execPageRequestRecordWrite
  split
  · exact h.ite h.writeRequest
  · exact h

theorem MemoriesWf.execPageWalk {va : Word} {kind : Nat} (h : MemoriesWf s) :
    OutWf (Machine.execPageWalk tid va kind s) := by
  unfold Machine.execPageWalk
  extract_lets k w
  split
  next e => exact (h.walk.of_eq e).ite (h.walk.of_eq e).postPage
  next e => exact (h.walk.of_eq e).tFill
  next e => exact h.walk.of_eq e

theorem MemoriesWf.hostHome (h : MemoriesWf s) : MemoriesWf (hostHome s) := h.foldl fun _ _ k => k.backHost

theorem MemoriesWf.execVmFence (h : MemoriesWf s) : OutWf (execVmFence p s) :=
  h.raise.ite (h.held.ite h.hostHome.finish)

theorem MemoriesWf.dropCached {part : Nat} {hit : TEntry → Bool} {whit : WEntry → Bool} (h : MemoriesWf s) :
    MemoriesWf (dropCached s part hit whit) :=
  h.upd

theorem MemoriesWf.invalidate {part : Nat} {hit : TEntry → Bool} {whit : WEntry → Bool} (h : MemoriesWf s) :
    MemoriesWf (invalidate s p part hit whit) :=
  (h.ite h.dropCached).holdAt.ite (h.ite h.dropCached).finish

theorem MemoriesWf.execVmInv (h : MemoriesWf s) : OutWf (execVmInv p a b s) :=
  h.raise.ite (h.illegal.ite h.invalidate)

theorem MemoriesWf.execVmGinv (h : MemoriesWf s) : OutWf (execVmGinv p a b s) :=
  h.privFault.ite (h.illegal.ite h.invalidate)

theorem MemoriesWf.execVmProbe (h : MemoriesWf s) : OutWf (Machine.execVmProbe p d a b s) := by
  unfold Machine.execVmProbe
  refine h.raise.ite (h.illegal.ite ?_)
  extract_lets who k
  split
  · exact h.raise
  · exact h.wr.finish

theorem MemoriesWf.execTranslationDrop (h : MemoriesWf s) : OutWf (execTranslationDrop n s) := h.upd

theorem MemoriesWf.execHostFenceMessage {vf off : Nat} {data : List Byte} (h : MemoriesWf s) :
    OutWf (execHostFenceMessage vf off data s) :=
  .ite h (.ite h.setVf (.ite h.setVf.vfError h.setVf.upd))

theorem MemoriesWf.execHostFenceAck (h : MemoriesWf s) : OutWf (execHostFenceAck n s) := by
  unfold Machine.execHostFenceAck
  split
  · exact h
  · exact .ite h h.hostHome.storeAt.upd

end Sys2Proof
end

section
/-! ### Queues -/

namespace Sys2Proof

open Machine

variable {s s1 : State} {tid core n ctx : Nat} {addr : Word} {l : Loc} {p : BitVec 1} {d a b : BitVec 5}

theorem MemoriesWf.deviceAdd {part : Nat} {w : Who} {n : Word} (h : MemoriesWf s) :
    MemoriesWf (deviceAdd s part w addr l n) :=
  h.upd.tick.ite (h.dropIn.ite h.toHome.addAt)

theorem MemoriesWf.arriveAdd {q : Nat} {ctx : Option Nat} (h : MemoriesWf s) : MemoriesWf (arriveAdd s q ctx) := by
  unfold Machine.arriveAdd
  refine h.ite ?_
  split
  · exact h.deviceAdd
  · exact h

theorem MemoriesWf.acceptRecord {q : Nat} {ctx : Option Nat} {src : Source} {r : List Byte} (h : MemoriesWf s) :
    MemoriesWf (acceptRecord s q ctx src r) :=
  h.upd.setKn.arriveAdd

theorem MemoriesWf.notice {part : Nat} (h : MemoriesWf s) : MemoriesWf (notice s part) := h.routed

theorem MemoriesWf.queWord {w : Nat} {sup : Bool} {align : Nat} {bad ok : Bool} {act : State → List Byte → State}
    (h : MemoriesWf s) (hf : ∀ t x, MemoriesWf t → MemoriesWf (act t x)) :
    MemoriesWf (queWord s a b w sup align bad ok act) := by
  unfold Machine.queWord
  refine h.illegal.ite (h.raise.ite (h.raise.ite (h.raise.ite (h.held.ite ?_))))
  split
  next e => exact h.loadRun.ends e
  next e => exact (h.loadRun.hold e).held
  next e => exact (h.loadRun.failed e).raise
  next e => exact hf _ _ (h.loadRun.value e)

theorem MemoriesWf.queWait {q : Nat} (h : MemoriesWf s) : OptionWf (queWait s q) := h.releaseWait

theorem MemoriesWf.queRelease {q : Nat} (h : MemoriesWf s) : MemoriesWf (queRelease s q) := h.releaseCopies

theorem MemoriesWf.execQLaunch (h : MemoriesWf s) : OutWf (execQLaunch p d a b s) := by
  unfold Machine.execQLaunch
  refine h.queWord (fun _ _ k => k.wr.finish.ite (k.wr.finish.ite (k.notice.wr.finish.ite (k.held.ite ?_))))
  split
  next e => exact (k.queWait.of_eq e).held
  · exact k.queRelease.acceptRecord.wr.finish

theorem MemoriesWf.setLane {q i : Nat} {x : Lane} (h : MemoriesWf s) : MemoriesWf (setLane s q i x) := h.upd

theorem MemoriesWf.execQCall (h : MemoriesWf s) : OutWf (execQCall p d a b s) := by
  unfold Machine.execQCall
  refine h.queWord (fun _ _ k => k.wr.finish.ite (k.wr.finish.ite (k.wr.finish.ite (k.held.ite ?_))))
  split
  next e => exact (k.queWait.of_eq e).held
  · exact k.queRelease.setLane.arriveAdd.wr.finish

theorem MemoriesWf.pushWords {ea : Word} {w : Nat} {bs : List Byte} {x : Nat} (h : MemoriesWf s) :
    MemoriesWf (pushWords s ea w bs x) := by
  induction x with
  | zero => exact h
  | succ m ih =>
    unfold Machine.pushWords
    exact ih.pushStore

theorem MemoriesWf.execQTake (h : MemoriesWf s) : OutWf (execQTake p d a b s) := by
  unfold Machine.execQTake
  refine h.queWord fun _ _ k => k.held.ite ?_
  split
  · exact k.wr.finish
  · split
    · exact k.wr.finish
    · exact (k.foldl (fun _ _ k => k.setLane)).setQu.pushWords.acquire.wr.finish

theorem MemoriesWf.callAdd {c : Call} {n : Word} (h : MemoriesWf s) : MemoriesWf (callAdd s c addr n) := by
  unfold Machine.callAdd
  split
  next e => exact (h.engineLoc.of_eq e).deviceAdd
  next e => exact (h.engineLoc.of_eq e).dropEngine

theorem MemoriesWf.completeCall {q i : Nat} {c : Call} (h : MemoriesWf s) : MemoriesWf (completeCall s q i c) :=
  h.setLane.ite h.setLane.callAdd

theorem MemoriesWf.notifyCall {c : Call} (h : MemoriesWf s) : MemoriesWf (notifyCall s c) := h.ite h.callAdd

theorem MemoriesWf.recordReply {c : Call} {x : Store} {code : Nat} (h : MemoriesWf s) :
    MemoriesWf (recordReply s c x code) := by
  unfold Machine.recordReply
  refine h.recordFault.ite (h.upd.ite ?_)
  split
  next e => exact h.ringPut.wrote e
  next e => exact (h.ringPut.full e).upd
  next e => exact (h.ringPut.refused e).upd
  · exact h

theorem MemoriesWf.lateWrite (h : MemoriesWf s) : MemoriesWf (lateWrite s n) := by
  unfold Machine.lateWrite
  split
  · exact h
  · refine h.ite ?_
    split
    next e => exact (h.ringPut.wrote e).upd
    next e => exact h.ringPut.full e
    next e => exact h.ringPut.refused e
    · exact h.upd

theorem MemoriesWf.replyWrite {c : Call} {w : Nat} {ws : List Nat} (h : MemoriesWf s) :
    MemoriesWf (replyWrite s c w ws) := by
  unfold Machine.replyWrite
  refine h.ite ?_
  split
  next e =>
    have h1 := h.xlateBy.of_eq e
    exact h1.logError.ite (h1.recordReply.ite (h1.foldl (fun _ _ k => k.l2store.ite k.storeAt)))
  next e => exact (h.xlateBy.of_eq e).recordReply

theorem MemoriesWf.replyWait {key : Nat} {c : Call} (h : MemoriesWf s) : OptionWf (replyWait s key c addr) := by
  unfold Machine.replyWait
  refine .ite trivial ?_
  split
  next e => exact .ite trivial (h.engineLoc.of_eq e).postPage.callMark
  next e => exact .ite trivial (h.engineLoc.of_eq e).stick
  · exact trivial

theorem MemoriesWf.callWait {q i : Nat} {c : Call} (h : MemoriesWf s) : OptionWf (Machine.callWait s q i c) :=
  holds_ite h (OptionWf.orElse (.findSome fun _ => h.replyWait) h.releaseWait)

theorem MemoriesWf.finishCall {q i : Nat} {c : Call} {w : Nat} {ws : List Nat} (h : MemoriesWf s) :
    MemoriesWf (finishCall s q i c w ws) :=
  h.unstick.replyWrite.releaseCopies.notifyCall.completeCall

theorem MemoriesWf.deviceCalls {q : Nat} (h : MemoriesWf s) : MemoriesWf (deviceCalls s q) := by
  unfold Machine.deviceCalls
  refine h.foldl (fun _ _ k => k.foldl (fun _ _ l => ?_))
  split
  next e => exact l.callWait.of_eq e
  · exact l.finishCall

theorem MemoriesWf.closeCalls {q : Nat} (h : MemoriesWf s) : MemoriesWf (closeCalls s q) :=
  (h.foldl (fun _ _ k => k.setLane)).deviceCalls

theorem MemoriesWf.execQDone (h : MemoriesWf s) : OutWf (execQDone p d a b s) := by
  unfold Machine.execQDone
  refine h.queWord fun _ _ k => ?_
  split
  · exact k.wr.finish
  · refine k.wr.finish.ite (k.held.ite ?_)
    split
    next e => exact (k.queWait.of_eq e).held
    · split
      next e => exact (k.callWait.of_eq e).holdAt
      · exact k.queRelease.finishCall.wr.finish

theorem MemoriesWf.execHostQueueWindowWrite {vf q off : Nat} {data : List Byte} (h : MemoriesWf s) :
    OutWf (execHostQueueWindowWrite vf q off data s) :=
  .ite h (.ite h.setVf (h.setVf.acceptRecord.ite (h.setVf.vfError.notice.ite h.setVf.vfError)))

theorem MemoriesWf.rxDrop {port : Nat} (h : MemoriesWf s) : MemoriesWf (rxDrop s port) := h.upd

theorem MemoriesWf.execFrameReceive {port : Nat} {data : List Byte} (h : MemoriesWf s) :
    OutWf (execFrameReceive port data s) := by
  unfold Machine.execFrameReceive
  split
  · exact h.rxDrop
  · refine .ite h.rxDrop ?_
    split
    · exact h.rxDrop
    · exact h.rxDrop.ite (h.rxDrop.notice.ite h.acceptRecord)

end Sys2Proof
end

section
/-! ### Thread instructions -/

namespace Sys2Proof

open Machine

variable {s s1 : State} {tid core n ctx : Nat} {addr : Word} {l : Loc} {p : BitVec 1} {d a b : BitVec 5}

theorem MemoriesWf.execThrSelf (h : MemoriesWf s) : OutWf (execThrSelf p d s) := h.wr.finish

theorem MemoriesWf.holdNears (h : MemoriesWf s) : MemoriesWf (holdNears s n core) :=
  h.ite (h.setKn.foldl (fun _ _ k => k.storeAt))

theorem MemoriesWf.spawnPlace {b : Spawn} {gid : Nat} (h : MemoriesWf s) :
    MemoriesWf (Machine.spawnPlace s tid b gid) := by
  unfold Machine.spawnPlace
  cases groupKey s gid with
  | none => exact h.vClear.setTh.holdNears.ite h.vClear.setTh.holdNears.setKn
  | some k => exact h.joinGroup.fst.vClear.setTh.holdNears.ite h.joinGroup.fst.vClear.setTh.holdNears.setKn

theorem MemoriesWf.execThrSpawn (h : MemoriesWf s) : OutWf (execThrSpawn p d a b s) := by
  unfold Machine.execThrSpawn
  refine h.held.ite ?_
  split
  next e => exact h.loadRun.ends e
  next e => exact (h.loadRun.hold e).held
  next e => exact (h.loadRun.failed e).raise
  next e =>
    have h1 := h.loadRun.value e
    refine h1.wr.finish.ite (h1.wr.finish.ite (h1.wr.finish.ite ?_))
    split
    · exact h1.wr.finish
    · exact h1.spawnPlace.wr.finish.ite h1.held

theorem MemoriesWf.endThread (h : MemoriesWf s) : MemoriesWf (endThread s tid) :=
  h.stopAdd.leaveGroup.returnCalls.dropEntries.tileRelease.countEnd.freeSlot

theorem MemoriesWf.execThrEnd {_p : BitVec 1} (h : MemoriesWf s) : OutWf (execThrEnd _p s) :=
  h.endThread.upd.ite (h.failTrap.upd.ite h.holdAt)

theorem MemoriesWf.execThrEndComplete (h : MemoriesWf s) : OutWf (execThrEndComplete tid s) := by
  unfold Machine.execThrEndComplete
  dsimp only
  split
  · exact h.endThread.ite h
  · exact h

theorem MemoriesWf.targetOf {v : Word} {w : Nat} {high : Bool} (h : MemoriesWf s) : TargetWf (targetOf s v w high) :=
  holds_ite h.raise (holds_ite h.illegal (holds_ite h.illegal (holds_ite trivial (holds_ite h.raise trivial))))

theorem MemoriesWf.execThrStop (h : MemoriesWf s) : OutWf (Machine.execThrStop p d a s) := by
  unfold Machine.execThrStop
  extract_lets v
  split
  next e => exact h.targetOf.ends e
  · exact h.wr.finish
  · extract_lets code _ s1
    have h1 : MemoriesWf s1 := h.ite h.setTh
    refine h.wr.finish.ite ?_
    split
    next e => exact (h1.stopTry.of_eq e).wr.finish
    · exact h1.holdAt

theorem MemoriesWf.execStopComplete (h : MemoriesWf s) : OutWf (execStopComplete tid s) := by
  unfold Machine.execStopComplete
  split
  next e => exact h.stopTry.of_eq e
  · exact h

theorem MemoriesWf.execThrGo (h : MemoriesWf s) : OutWf (execThrGo p d a s) := by
  unfold Machine.execThrGo
  dsimp only
  split
  next e => exact h.targetOf.ends e
  · exact h.wr.finish
  · exact h.resume.wr.finish

theorem MemoriesWf.savePush {base : Word} {head : List Nat} {vecs : List (Nat × Nat)} {w x : Nat}
    (h : MemoriesWf s) :
    FstWf (savePush s tid base head vecs w n x) := by
  induction x generalizing s n with
  | zero => exact h
  | succ m ih =>
    unfold Machine.savePush
    split
    · exact h
    · exact .ite h (ih h.pushStore)

theorem MemoriesWf.execThrSave (h : MemoriesWf s) : OutWf (execThrSave p d a b s) := by
  unfold Machine.execThrSave
  split
  · dsimp only
    split
    next e => exact h.targetOf.ends e
    · exact h.wr.finish
    · exact h.raise
  · split
    · dsimp only
      split
      next e => exact h.targetOf.ends e
      · exact h.wr.finish
      · exact h.wr.finish.ite h.held
    · split
      · split
        · dsimp only
          split
          next e => exact h.targetOf.ends e
          · exact h.wr.finish
          · exact h.wr.finish.ite (h.savePush.fst.holdAt.ite h.savePush.fst.wr.finish)
        · dsimp only
          split
          next e => exact h.targetOf.ends e
          · exact h.wr.finish
          · exact h.wr.finish.ite (h.savePush.fst.holdAt.ite h.savePush.fst.wr.finish)
      · dsimp only
        split
        next e => exact h.targetOf.ends e
        · exact h.wr.finish
        · exact h.wr.finish.ite (h.savePush.fst.holdAt.ite h.savePush.fst.wr.finish)

theorem MemoriesWf.displace (h : MemoriesWf s) : MemoriesWf (displace s tid) :=
  h.dropEntries.leaveGroup.vClear.setTh.ite h

theorem MemoriesWf.loadVecs {rows : Nat} {rs : List (Nat × List Byte)} (h : MemoriesWf s) :
    MemoriesWf (loadVecs s tid rows rs) :=
  h.vClear.foldl fun _ _ k => k.withVregs (mputs_wf k.vregs_wf _ _)

theorem MemoriesWf.loadPlace {bs : List Byte} {rs : List (Nat × List Byte)} (h : MemoriesWf s) :
    MemoriesWf (loadPlace s tid ctx bs rs) :=
  h.displace.loadVecs.setTh.holdNears.upd.setCo.ite h.displace.loadVecs.setTh.holdNears

theorem MemoriesWf.loadRegs {base : Word} {rows : Nat} {x : List Nat} (h : MemoriesWf s) :
    LdSndWf (loadRegs s base rows x) := by
  induction x generalizing s with
  | nil => exact h
  | cons y r ih =>
    unfold Machine.loadRegs
    split
    next e => exact ih (h.loadRun.value e)
    next e => exact (holds_of_eq h.loadRun e : LdSndWf _)

theorem MemoriesWf.execThrLoad (h : MemoriesWf s) : OutWf (execThrLoad p d a b s) := by
  unfold Machine.execThrLoad
  dsimp only
  split
  next e => exact h.targetOf.ends e
  · exact h.wr.finish
  · split
    · exact h.wr.finish
    · refine h.wr.finish.ite (h.held.ite ?_)
      split
      next e' => exact h.loadRun.ends e'
      next e' => exact (h.loadRun.hold e').held
      next e' => exact (h.loadRun.failed e').raise
      next e' =>
        have h2 := h.loadRun.value e'
        split
        next e'' => exact h2.loadRegs.ends e''
        next e'' => exact (h2.loadRegs.hold e'').held
        next e'' => exact (h2.loadRegs.failed e'').raise
        next e'' =>
          have h3 := h2.loadRegs.value e''
          exact h3.wr.finish.ite (h3.wr.finish.ite (h3.held.ite h3.loadPlace.wr.finish))

end Sys2Proof
end

section
/-! ### Kernels -/

namespace Sys2Proof

open Machine

variable {s s1 : State} {tid core n ctx : Nat} {addr : Word} {l : Loc} {p : BitVec 1} {d a b : BitVec 5}

theorem MemoriesWf.kernelMiss {k : Acc} {b i : Bool} {g : Word} (h : MemoriesWf s) :
    OptionWf (kernelMiss s n addr k b i g ctx) :=
  .ite trivial h.postPage.setKn

theorem MemoriesWf.bindEnd {st : KState} (h : MemoriesWf s) : MemoriesWf (bindEnd s n st) := h.setKn

theorem MemoriesWf.bindRecord {m : Model} {bs : List Byte} (h : MemoriesWf s) :
    MemoriesWf (bindRecord s n m ctx bs) := by
  unfold Machine.bindRecord
  refine h.setKn.bindEnd.ite (h.setKn.bindEnd.ite ((h.setKn.bindEnd.ite h.setKn.bindEnd).ite ?_))
  split
  next e =>
    have h1 := h.setKn.engineLoc.of_eq e
    exact h1.bindEnd.ite (h1.bindEnd.ite h1.bindEnd)
  next e =>
    have h1 := h.setKn.engineLoc.of_eq e
    exact h1.kernelMiss.getD h1.bindEnd
  next e => exact (h.setKn.engineLoc.of_eq e).bindEnd

theorem MemoriesWf.bindKernel (h : MemoriesWf s) : MemoriesWf (bindKernel s n) := by
  unfold Machine.bindKernel
  refine h.setKn.bindEnd.ite ?_
  split
  · exact h.setKn.bindEnd
  · refine h.setKn.setKn.bindEnd.ite ?_
    dsimp only
    split
    next e =>
      have h1 := h.setKn.setKn.xlate.of_eq e
      exact h1.bindEnd.ite h1.bindRecord
    next e =>
      have h1 := h.setKn.setKn.xlate.of_eq e
      exact h1.kernelMiss.getD h1.bindEnd
    next e => exact (h.setKn.setKn.xlate.of_eq e).bindEnd

theorem MemoriesWf.execKernelBind {num : Nat} (h : MemoriesWf s) : OutWf (execKernelBind num s) :=
  h.ite h.bindKernel

theorem MemoriesWf.admitKernel {ps : List Nat} (h : MemoriesWf s) : MemoriesWf (admitKernel s n ps) := h.setKn

theorem MemoriesWf.decide_ {part x : Nat} (h : MemoriesWf s) : SndWf (decide_ s part x) := by
  induction x with
  | zero => exact h
  | succ m ih =>
    unfold Machine.decide_
    refine .ite ih ?_
    dsimp only
    split
    · exact h
    · exact .ite h.upd h.upd

theorem MemoriesWf.statusStore {v : Nat} (h : MemoriesWf s) : MemoriesWf (statusStore s n ctx addr v) := by
  unfold Machine.statusStore
  split
  next e =>
    have h1 := h.xlate.of_eq e
    exact h1.logError.ite (h1.logError.ite (h1.l2store.ite h1.storeAt))
  next e => exact (h.xlate.of_eq e).logError

theorem MemoriesWf.kernelWait {store : Bool} (h : MemoriesWf s) : OptionWf (kernelWait s n ctx addr store) := by
  unfold Machine.kernelWait
  refine .ite trivial ?_
  split
  next e => exact ((h.xlate.ite h.engineLoc).of_eq e).kernelMiss
  next e => exact .ite trivial ((h.xlate.ite h.engineLoc).of_eq e).stick
  · exact trivial

theorem MemoriesWf.statusPut {v : Nat} (h : MemoriesWf s) : MemoriesWf (statusPut s n ctx v) :=
  h.logError.ite h.unstick.statusStore

theorem MemoriesWf.statusZero (h : MemoriesWf s) : MemoriesWf (statusZero s n) := by
  unfold Machine.statusZero
  dsimp only
  split
  next e => exact h.kernelWait.of_eq e
  · exact h.statusPut.setKn

theorem MemoriesWf.execKernelAdmit {num : Nat} (h : MemoriesWf s) : OutWf (execKernelAdmit num s) := by
  unfold Machine.execKernelAdmit
  refine h.ite ?_
  split
  next e => exact h.decide_.of_eq e
  next e =>
    have h1 := h.decide_.of_eq e
    refine h.ite ?_
    split
    · exact h
    · exact h1.admitKernel.statusZero.ite h1.admitKernel

theorem MemoriesWf.gafferPlace {gid : Nat} {e : Nat × Nat} (h : MemoriesWf s) :
    MemoriesWf (gafferPlace s n gid e) := by
  unfold Machine.gafferPlace
  split
  · refine .ite (.storeBytes (.setTh (.vClear ?_))) (.setCo (.tileReset (.storeBytes (.setTh (.vClear ?_)))))
    · split
      · exact h.joinGroup.fst
      · exact h
    · split
      · exact h.joinGroup.fst
      · exact h

theorem MemoriesWf.spawnKernel {ps : List Nat} (h : MemoriesWf s) : MemoriesWf (spawnKernel s n ps) := by
  unfold Machine.spawnKernel
  dsimp only
  refine .foldl (.setKn ?_) (fun _ _ k => k.gafferPlace)
  split
  · exact h.setKn.foldl fun _ _ k => k.holdNears
  · split
    · exact (h.setKn.foldl (fun _ _ k => k.holdNears)).newGroup
    · exact h.setKn.foldl fun _ _ k => k.holdNears

theorem MemoriesWf.execGafferSpawn {num : Nat} {places : List Nat} (h : MemoriesWf s) :
    OutWf (execGafferSpawn num places s) := by
  unfold Machine.execGafferSpawn
  refine h.ite (h.statusZero.ite (h.ite (h.spawnKernel.ite (h.spawnKernel.ite ?_))))
  split
  · exact h.setKn
  · exact h

theorem MemoriesWf.sendCompletion {k : Kernel} {status : Nat} (h : MemoriesWf s) :
    MemoriesWf (sendCompletion s k status) := by
  unfold Machine.sendCompletion
  split
  · refine .ite ?_ h
    dsimp only
    split <;> exact h.upd
  · exact h

theorem MemoriesWf.endSteps {code : Nat} {o : Option Nat} (h : MemoriesWf s) :
    MemoriesWf (Machine.endSteps s n code o) := by
  unfold Machine.endSteps
  extract_lets k word cctr amount s1 s2 _ s3
  have h1 : MemoriesWf s1 := by
    cases o with
    | none => exact h
    | some c =>
      dsimp only [s1]
      have h0 : MemoriesWf (if k.statusAddr = 0 then s else Machine.statusPut s n c word) := h.ite h.statusPut
      generalize (if k.statusAddr = 0 then s else Machine.statusPut s n c word) = s0 at h0 ⊢
      refine h0.ite (h0.dropEngine.ite ?_)
      split
      next e => exact (h0.releaseCopies.hostHome.engineLoc.of_eq e).deviceAdd
      next e => exact (h0.releaseCopies.hostHome.engineLoc.of_eq e).dropEngine
  have h3 : MemoriesWf s3 := h1.sendCompletion.setKn
  exact h3.ite h3.notice

theorem MemoriesWf.execKernelEndSequence {num : Nat} (h : MemoriesWf s) :
    OutWf (Machine.execKernelEndSequence num s) := by
  refine h.ite ?_
  split
  · refine h.ite ?_
    dsimp only
    split
    next e =>
      refine OptionWf.of_eq (.bind fun c => ?_) e
      exact (h.setKn.kernelWait.orElse h.setKn.kernelWait).orElse (holds_ite trivial h.setKn.releaseWait)
    · exact h.setKn.endSteps
  · exact h

theorem MemoriesWf.cancelKernels {p : Kernel → Bool} (h : MemoriesWf s) : MemoriesWf (cancelKernels s p) := h.upd

theorem MemoriesWf.setClosed {q : Nat} {closed : Bool} (h : MemoriesWf s) : MemoriesWf (setClosed s q closed) :=
  h.ite (h.setQu.ite (h.setQu.closeCalls.ite h.setQu.cancelKernels))

theorem MemoriesWf.setClosing {slot : Nat} (h : MemoriesWf s) : MemoriesWf (setClosing s slot) :=
  h.ite h.cancelKernels.upd

end Sys2Proof
end

section
/-! ### Partitions -/

namespace Sys2Proof

open Machine

variable {s s1 : State} {tid core n ctx : Nat} {addr : Word} {l : Loc} {p : BitVec 1} {d a b : BitVec 5}

theorem MemoriesWf.physWrite {pa : Nat} {bs : List Byte} (h : MemoriesWf s) : MemoriesWf (physWrite s pa bs) := by
  unfold Machine.physWrite
  split
  · exact h.toHome.storeBytes
  · exact h

theorem MemoriesWf.physAdd (h : MemoriesWf s) : MemoriesWf (physAdd s core addr) := by
  unfold Machine.physAdd
  split
  · exact h.hostHome.addAt
  · split
    · exact h.hostHome.deviceAdd
    · exact h

theorem MemoriesWf.physDone (h : MemoriesWf s) : MemoriesWf (physDone s core addr) := h.ite h.physAdd

theorem MemoriesWf.writeEntry {e : PEntry} (h : MemoriesWf s) : MemoriesWf (writeEntry s e) := by
  unfold Machine.writeEntry
  split
  · exact h.ite h.upd
  · exact h.upd
  · exact h.upd
  · exact h.setQu.upd.ite h.setQu
  · exact h.upd
  · exact (h.cancelKernels.ite h).upd
  · exact h.upd
  · exact h.upd
  · exact h.setCo
  · exact h.setCx

theorem MemoriesWf.endRequest {x : List Byte} {st : ℤ} {entry detail : Nat} (h : MemoriesWf s) :
    MemoriesWf (endRequest s x core st entry detail) :=
  (h.ite h.physWrite).upd.ite (h.ite h.physWrite).upd.physDone

theorem MemoriesWf.execUpdate (h : MemoriesWf s) : OutWf (execUpdate s) := by
  unfold Machine.execUpdate
  split
  · split
    · exact h.ite h.endRequest
    · refine h.ite ?_
      dsimp only
      split
      · exact h.endRequest
      · exact (h.foldl (fun _ _ k => k.writeEntry)).upd.endRequest
  · exact h

theorem MemoriesWf.quiesceQueues {a : Nat} {close : Bool} (h : MemoriesWf s) : MemoriesWf (quiesceQueues s a close) :=
  h.upd

theorem MemoriesWf.execReshape (h : MemoriesWf s) : OutWf (execReshape s) := by
  unfold Machine.execReshape
  split
  · split
    · exact h.endRequest.ite h
    · refine h.ite ?_
      dsimp only
      split
      · exact h.endRequest
      · exact h.quiesceQueues.upd
  · exact h

theorem MemoriesWf.moveHomes {t : State} (h' : MemoriesWf t) : MemoriesWf (moveHomes s t) :=
  h'.foldl fun _ _ k => k.wakeIf

theorem MemoriesWf.startReconf {a : Nat} (h : MemoriesWf s) : MemoriesWf (startReconf s a) :=
  h.backPeers.hostHome.upd

theorem MemoriesWf.writeTables {a : Nat} {es : List PEntry} (h : MemoriesWf s) : MemoriesWf (writeTables s a es) :=
  (h.foldl (fun _ _ k => k.writeEntry)).moveHomes.upd.quiesceQueues

theorem MemoriesWf.execReshapeDrainComplete (h : MemoriesWf s) : OutWf (execReshapeDrainComplete s) := by
  unfold Machine.execReshapeDrainComplete
  split
  · exact h.ite (h.startReconf.ite (h.writeTables.endRequest.ite h.writeTables.endRequest))
  · exact h

theorem MemoriesWf.postRequest {v : Word} (h : MemoriesWf s) : MemoriesWf (postRequest s core v) := h.upd

end Sys2Proof
end

section
/-! ### Contexts -/

namespace Sys2Proof

open Machine

variable {s s1 : State} {tid core n ctx : Nat} {addr : Word} {l : Loc} {p : BitVec 1} {d a b : BitVec 5}

theorem MemoriesWf.setCtxc {v : Word} {st : ℤ} (h : MemoriesWf s) : MemoriesWf (setCtxc s v st) := h.upd

theorem MemoriesWf.ctxCreate {v : Word} (h : MemoriesWf s) : SndWf (ctxCreate s v) :=
  .ite h (.ite h (.ite h h.setCx))

theorem MemoriesWf.ctxReady {v : Word} (h : MemoriesWf s) : SndWf (ctxReady s v) := by
  unfold Machine.ctxReady
  refine .ite h ?_
  split
  · exact h
  · exact h.setCx

theorem MemoriesWf.unholdGangs (h : MemoriesWf s) : MemoriesWf (unholdGangs s n) := h.upd

theorem MemoriesWf.ctxStart {v : Word} (h : MemoriesWf s) : SndWf (ctxStart s v) := by
  unfold Machine.ctxStart
  refine .ite h ?_
  split
  · exact h
  · exact .ite h (h.setCx.unholdGangs.foldl (fun _ _ k => k.resume)).grantWaits

theorem MemoriesWf.suspendMark (h : MemoriesWf s) : MemoriesWf (suspendMark s n) :=
  ((h.foldl (fun _ _ k => k.setGr.ite k)).foldl (fun _ _ k => k.grpMark)).foldl (fun _ _ k => k.settleStop)

theorem MemoriesWf.suspendFinish (h : MemoriesWf s) : MemoriesWf (Machine.suspendFinish s n) := by
  unfold Machine.suspendFinish
  extract_lets s1 s2 _ s3 s4
  have h3 : MemoriesWf s3 := (h.foldl fun _ _ k => k.haloEnd).backPeers.setCx
  have h4 : MemoriesWf s4 := h3.setCtxc.ite h3
  exact h4.releaseReserve.grantWaits

theorem MemoriesWf.suspendTry (h : MemoriesWf s) : MemoriesWf (suspendTry s n) :=
  h.ite (h.suspendFinish.ite h.suspendMark)

theorem MemoriesWf.ctxSuspend {v : Word} (h : MemoriesWf s) : SndWf (ctxSuspend s v) := by
  unfold Machine.ctxSuspend
  refine .ite h ?_
  split
  · exact h
  · exact h.setCx.suspendMark.suspendTry

theorem MemoriesWf.countLost (h : MemoriesWf s) : MemoriesWf (countLost s n) := h.upd

theorem MemoriesWf.cancelCtx (h : MemoriesWf s) : MemoriesWf (cancelCtx s n) := h.cancelKernels.upd

theorem MemoriesWf.closeServed {c : Ctx} (h : MemoriesWf s) : MemoriesWf (closeServed s c) :=
  h.foldl fun _ _ k => k.setQu.closeCalls

theorem MemoriesWf.destroyCtx (h : MemoriesWf s) : MemoriesWf (destroyCtx s n) :=
  (h.killThreads.foldl (fun _ _ k =>
    k.dissolve)).countLost.cancelCtx.closeServed.setCx.upd.releaseReserve.grantWaits

theorem MemoriesWf.ctxDestroy {v : Word} (h : MemoriesWf s) : SndWf (ctxDestroy s v) := by
  unfold Machine.ctxDestroy
  refine .ite h ?_
  split
  · exact h
  · exact .ite h.setCx h.destroyCtx

theorem MemoriesWf.scrubRun {part : Nat} {e : Nat × Nat} (h : MemoriesWf s) : MemoriesWf (scrubRun s part e) := by
  unfold Machine.scrubRun
  split
  · exact (h.withMem (filter_wf h.mem_wf _)).upd.dropBuilt.touched
  · exact h

theorem MemoriesWf.scrubNear {r : Nat × Nat × Nat} (h : MemoriesWf s) : MemoriesWf (scrubNear s n r) :=
  h.ite (h.foldl (fun _ _ k => k.storeAt))

theorem MemoriesWf.scrubCtx (h : MemoriesWf s) : MemoriesWf (scrubCtx s n) := by
  unfold Machine.scrubCtx
  refine .foldl (.setCx ?_) (fun _ _ k => k.freePageEntry)
  split
  · exact ((h.foldl (fun _ _ k => k.scrubRun)).foldl (fun _ _ k => k.scrubNear)).upd.setVf
  · exact ((h.foldl (fun _ _ k => k.scrubRun)).foldl (fun _ _ k => k.scrubNear)).upd

theorem MemoriesWf.execScrubComplete (h : MemoriesWf s) : OutWf (execScrubComplete ctx s) := h.scrubCtx.ite h

theorem MemoriesWf.ctxCommand {v : Word} (h : MemoriesWf s) : OptionSndWf (ctxCommand s v) := by
  unfold Machine.ctxCommand
  split
  · exact h.ctxCreate
  · exact h.ctxReady
  · exact h.ctxStart
  · exact h.ctxSuspend
  · exact h.ctxStart
  · exact h.ctxDestroy
  · exact trivial

theorem MemoriesWf.ctxEvent {arg : Word} (h : MemoriesWf s) : OutWf (ctxEvent n arg s) := by
  unfold Machine.ctxEvent
  refine h.ite ?_
  split
  next e => exact (h.ctxCommand.of_eq e).setCtxc
  · exact h

theorem MemoriesWf.execSuspendComplete (h : MemoriesWf s) : OutWf (execSuspendComplete ctx s) := h.suspendTry

theorem MemoriesWf.execCtxExtend (h : MemoriesWf s) : OutWf (Machine.execCtxExtend p d a b s) := by
  unfold Machine.execCtxExtend
  extract_lets w v n len kind c
  refine h.illegal.ite (h.privFault.ite (h.wr.finish.ite (h.wr.finish.ite ?_)))
  split
  · exact h.raise
  · exact h.setCx.wr.finish

theorem MemoriesWf.execCtxQuote (h : MemoriesWf s) : OutWf (execCtxQuote p d a b s) := by
  unfold Machine.execCtxQuote
  refine h.illegal.ite (h.raise.ite (h.raise.ite (h.held.ite ?_)))
  split
  next e => exact h.loadRun.ends e
  next e => exact (h.loadRun.hold e).held
  next e => exact (h.loadRun.failed e).raise
  next e =>
    have h1 := h.loadRun.value e
    exact h1.wr.finish.ite (h1.wr.finish.ite (h1.wr.finish.ite (h1.held.ite h1.pushWords.wr.finish)))

end Sys2Proof
end

section
/-! ### Scalar floating point -/

namespace Sys2Proof

open Machine

variable {s s1 : State} {tid core n ctx : Nat} {addr : Word} {l : Loc} {p : BitVec 1} {d a b : BitVec 5}

theorem MemoriesWf.fp {r : Nat × Flags} (h : MemoriesWf s) : OutWf (fp s d r) := h.wrFlags.finish

theorem MemoriesWf.fpBool {r : Bool × Flags} (h : MemoriesWf s) : OutWf (fpBool s d r) := h.wrBool.finish

theorem MemoriesWf.fpLong {q : BitVec 4} {r : Nat × Flags} (h : MemoriesWf s) : OutWf (fpLong s d q r) :=
  h.longResult.orFlags.finish

end Sys2Proof
end

section
/-! ### Integer arithmetic, branches and jumps -/

namespace Sys2Proof

open Machine

variable {s s1 : State} {tid core n ctx : Nat} {addr : Word} {l : Loc} {p : BitVec 1} {d a b : BitVec 5}

theorem MemoriesWf.alu {v : Word} (h : MemoriesWf s) : OutWf (alu s d v) := h.wr.finish

theorem MemoriesWf.aluLong {q : BitVec 4} {v : Word} (h : MemoriesWf s) : OutWf (aluLong s d q v) :=
  h.longResult.finish

theorem MemoriesWf.execPcadd {imm : BitVec 20} (h : MemoriesWf s) : OutWf (execPcadd p d imm s) := h.wr.finish

end Sys2Proof
end

section
/-! ### Ports and remote accesses -/

namespace Sys2Proof

open Machine

variable {s s1 : State} {tid core n ctx : Nat} {addr : Word} {l : Loc} {p : BitVec 1} {d a b : BitVec 5}

theorem MemoriesWf.setPort {p : Nat} {x : Port} (h : MemoriesWf s) : MemoriesWf (setPort s p x) := h.upd

theorem MemoriesWf.lostPaths (h : MemoriesWf s) : MemoriesWf (lostPaths s) := by
  unfold Machine.lostPaths
  refine .foldl (h.upd.foldl (fun _ _ k => ?_)) (fun _ _ k => ?_)
  · split
    · exact k.setTh.stick
    · exact k
  · split
    · exact k.stick
    · exact k

theorem MemoriesWf.foundPaths (h : MemoriesWf s) : MemoriesWf (foundPaths s) := h.upd

theorem MemoriesWf.newPaths (h : MemoriesWf s) : MemoriesWf (newPaths s) := h.foundPaths.lostPaths

theorem MemoriesWf.portTo {p : Nat} {x : Port} (h : MemoriesWf s) : MemoriesWf (portTo s p x) :=
  h.setPort.newPaths

theorem MemoriesWf.portTrain {port : Nat} (h : MemoriesWf s) : OptionWf (portTrain s port) :=
  .ite h.setPort trivial

theorem MemoriesWf.portShut {port : Nat} (h : MemoriesWf s) : OptionWf (portShut s port) := .ite trivial h.portTo

theorem MemoriesWf.portDown {port : Nat} (h : MemoriesWf s) : OptionWf (portDown s port) := .ite h.setPort trivial

theorem MemoriesWf.execLaneLock {port lanes : Nat} (h : MemoriesWf s) : OutWf (execLaneLock port lanes s) :=
  h.portTo.ite h

theorem MemoriesWf.execTrainingTimeout {port : Nat} (h : MemoriesWf s) : OutWf (execTrainingTimeout port s) :=
  (h.portTo.ite h.setPort).ite h

theorem MemoriesWf.retrain {port : Nat} (h : MemoriesWf s) : MemoriesWf (retrain s port) := h.portTo.ite h

theorem MemoriesWf.execRetrainTrigger {port : Nat} {_lost : Bool} (h : MemoriesWf s) :
    OutWf (execRetrainTrigger port _lost s) :=
  h.retrain

theorem MemoriesWf.execFlitCrcFail {port copies : Nat} (h : MemoriesWf s) : OutWf (execFlitCrcFail port copies s) :=
  (h.setPort.retrain.ite h.setPort).ite h

theorem MemoriesWf.lostArm {k : Stuck} (h : MemoriesWf s) : MemoriesWf (lostArm s k) := h.upd.setTh

theorem MemoriesWf.lostLine {k : Stuck} (h : MemoriesWf s) : MemoriesWf (lostLine s k) := by
  unfold Machine.lostLine
  dsimp only
  split
  · exact (h.upd.foldl (fun _ _ k => k.logError)).ite h.upd
  · exact h.upd

theorem MemoriesWf.execPathTimeout (h : MemoriesWf s) : OutWf (execPathTimeout n s) := by
  unfold Machine.execPathTimeout
  split
  · exact h
  · exact h.ite ((h.lostArm.ite h.upd).ite (h.lostLine.ite h.upd))

theorem MemoriesWf.answerPeer {src st : Nat} {bs : List Byte} (h : MemoriesWf s) :
    MemoriesWf (answerPeer s src st bs) :=
  h.upd

theorem MemoriesWf.execRemoteAccessReceive {src spart kind pa : Nat} {data : List Byte} (h : MemoriesWf s) :
    OutWf (execRemoteAccessReceive src spart kind pa data s) := by
  unfold Machine.execRemoteAccessReceive
  refine h.answerPeer.ite (h.answerPeer.ite (h.answerPeer.ite (h.answerPeer.ite ?_)))
  split
  · exact h.answerPeer
  · exact h.storeBytes.answerPeer
  · exact h.addAt.answerPeer
  · exact h.resetAt.answerPeer
  · exact h.answerPeer.ite (h.answerPeer.ite h.upd)
  · exact h.ite h.storeAt.answerPeer

theorem MemoriesWf.execCounterTableWrite {vf ent : Nat} {val : Word} (h : MemoriesWf s) :
    OutWf (execCounterTableWrite vf ent val s) := by
  unfold Machine.execCounterTableWrite
  refine h.ite ?_
  split
  · exact h.setVf
  · exact h.vfError

theorem MemoriesWf.execHostCounterWindowWrite {vf ent : Nat} {val : Word} (h : MemoriesWf s) :
    OutWf (execHostCounterWindowWrite vf ent val s) := by
  unfold Machine.execHostCounterWindowWrite
  refine h.ite ?_
  split
  · exact h.vfError
  · exact h.vfError.ite (h.dropEngine.ite h.addAt)

theorem MemoriesWf.execHostArmWrite {vf ent : Nat} {val : Word} (h : MemoriesWf s) :
    OutWf (execHostArmWrite vf ent val s) := by
  unfold Machine.execHostArmWrite
  refine h.ite ?_
  split
  · exact h.vfError
  · exact h.upd.vfError.ite (h.upd.fireArm.ite (h.upd.setVf.ite h.upd.setVf.upd))

theorem MemoriesWf.execHostDoorbell {vf : Nat} {val : Word} (h : MemoriesWf s) :
    OutWf (execHostDoorbell vf val s) := by
  unfold Machine.execHostDoorbell
  refine h.ite ?_
  split
  · exact h.vfError
  · exact h.setCx.routed

theorem MemoriesWf.execHostRegisterWrite {fn off : Nat} {val : Word} (h : MemoriesWf s) :
    OutWf (execHostRegisterWrite fn off val s) :=
  ((h.upd.ite h).ite ((h.upd.ite h).ite h)).ite (((h.setVf.ite h.vfError).ite (h.setVf.pageAnswer.ite h)).ite h)

theorem MemoriesWf.hostRead {fn off : Nat} (h : MemoriesWf s) : MemoriesWf (Machine.hostRead s fn off n) := by
  unfold Machine.hostRead
  extract_lets a
  refine .upd ?_
  generalize (if fn < 2 then physicalWord s fn a else virtualWord s (fn - 2) a) = w
  cases w with
  | none => exact h.free.snd
  | some w => exact h

theorem MemoriesWf.hostNarrow {fn off : Nat} {data : List Byte} (h : MemoriesWf s) :
    MemoriesWf (hostNarrow s fn off data) :=
  h.ite (h.vfError.ite (h.vfError.ite (h.vfError.ite h)))

end Sys2Proof
end

section
/-! ### Sealing -/

namespace Sys2Proof

open Machine

variable {s s1 : State} {tid core n ctx : Nat} {addr : Word} {l : Loc} {p : BitVec 1} {d a b : BitVec 5}

theorem MemoriesWf.queueJob {st : CState} {restore : Bool} {ds : List Byte} (h : MemoriesWf s) :
    MemoriesWf (queueJob s n st restore ds) :=
  h.upd.setCx

theorem MemoriesWf.sealWord {w : Nat} {f : State → List Byte → Int ⊕ State} (h : MemoriesWf s)
    (hf : ∀ t x, MemoriesWf t → SumWf (f t x)) :
    MemoriesWf (sealWord s w p d a f) := by
  unfold Machine.sealWord
  refine h.privFault.ite (h.raise.ite (h.held.ite ?_))
  split
  next e => exact h.loadRun.ends e
  next e => exact (h.loadRun.hold e).held
  next e => exact (h.loadRun.failed e).raise
  next e =>
    have h1 := h.loadRun.value e
    split
    · exact h1.wr.finish
    next e' => exact ((hf _ _ h1).of_eq e').wr.finish

theorem MemoriesWf.execCtxSeal (h : MemoriesWf s) : OutWf (execCtxSeal p d a s) :=
  h.sealWord (fun _ _ k => holds_ite trivial (holds_ite trivial (holds_ite trivial (holds_ite trivial (holds_ite
    trivial (holds_ite trivial (holds_ite trivial k.queueJob)))))))

theorem MemoriesWf.execCtxUnseal (h : MemoriesWf s) : OutWf (execCtxUnseal p d a s) :=
  h.sealWord (fun _ _ k => holds_ite trivial (holds_ite trivial (holds_ite trivial (holds_ite trivial (holds_ite
    trivial k.queueJob)))))

theorem MemoriesWf.setJob {j : Job} (h : MemoriesWf s) : MemoriesWf (setJob s j) := h.upd

theorem MemoriesWf.abortLease {j : Job} (h : MemoriesWf s) : MemoriesWf (abortLease s j) := h.upd

theorem MemoriesWf.endJob {j : Job} {st : ℤ} {gpa : Nat} (h : MemoriesWf s) : MemoriesWf (endJob s j st gpa) :=
  h.upd.physWrite.physAdd.destroyCtx.ite h.upd.physWrite.physAdd

theorem MemoriesWf.failJob {j : Job} {st : ℤ} {gpa : Nat} (h : MemoriesWf s) : MemoriesWf (failJob s j st gpa) :=
  (h.abortLease.destroyCtx.ite h.abortLease.setCx).endJob

theorem MemoriesWf.succeedJob {j : Job} (h : MemoriesWf s) : MemoriesWf (succeedJob s j) :=
  h.setCx.endJob.ite h.setCx.endJob

theorem MemoriesWf.quoteJob {j : Job} {nonce : List Byte} (h : MemoriesWf s) : MemoriesWf (quoteJob s j nonce) :=
  h.upd.setJob

theorem MemoriesWf.askHome {j : Job} {bs : List Byte} (h : MemoriesWf s) : MemoriesWf (askHome s j bs) := h.upd

theorem MemoriesWf.jobAsk {j : Job} (h : MemoriesWf s) : MemoriesWf (jobAsk s j) :=
  h.upd.quoteJob.ite h.setJob.askHome

theorem MemoriesWf.takeNonce {job : Nat} {nonce : List Byte} (h : MemoriesWf s) :
    MemoriesWf (takeNonce s job nonce) := by
  unfold Machine.takeNonce
  split
  · exact h
  · refine h.ite ?_
    dsimp only
    split
    · exact h.quoteJob
    · exact h.quoteJob.askHome

theorem MemoriesWf.giveNonce {job : Nat} (h : MemoriesWf s) : MemoriesWf (giveNonce s job) := h.upd

theorem MemoriesWf.execSealJobStart {job : Nat} (h : MemoriesWf s) : OutWf (execSealJobStart job s) := by
  unfold Machine.execSealJobStart
  split
  · exact h
  · refine h.ite (.ite ?_ ?_)
    · split
      · exact h.upd.jobAsk
      · exact h.failJob
    · split
      · exact h.jobAsk
      · exact h.failJob

theorem MemoriesWf.execRestoreJobStart {job : Nat} (h : MemoriesWf s) : OutWf (execRestoreJobStart job s) := by
  unfold Machine.execRestoreJobStart
  split
  · exact h
  · refine h.ite ?_
    split
    · exact h.failJob
    · exact h.jobAsk.ite h.failJob

theorem MemoriesWf.grantLease {lin job : Nat} {key : Option (List Byte)} (h : MemoriesWf s) :
    MemoriesWf (grantLease s lin job key) :=
  h.upd

theorem MemoriesWf.dropLease {lin job : Nat} (h : MemoriesWf s) : MemoriesWf (dropLease s lin job) := h.upd

theorem MemoriesWf.releaseKey {job lin : Nat} {restore : Bool} {quote : List Byte} (h : MemoriesWf s) :
    MemoriesWf (releaseKey s job lin restore quote) := by
  unfold Machine.releaseKey
  split
  · exact h
  · split
    · dsimp only
      split
      · exact h.upd
      · exact h.grantLease.upd
    · dsimp only
      split
      · exact h.upd
      · exact h.grantLease.upd

theorem MemoriesWf.execLeaseRequest {job lin lctr : Nat} {restore : Bool} {quote : List Byte} (h : MemoriesWf s) :
    OutWf (execLeaseRequest job lin lctr restore quote s) := by
  unfold Machine.execLeaseRequest
  split
  · refine h.ite ?_
    split
    · exact h.failJob
    · exact h.grantLease.setJob.ite h.failJob
  · exact .ite h.releaseKey h.upd

theorem MemoriesWf.execCommitRequest {job lin _lctr : Nat} (h : MemoriesWf s) :
    OutWf (execCommitRequest job lin _lctr s) := by
  unfold Machine.execCommitRequest
  split
  · refine h.ite ?_
    split
    · exact h.failJob.ite (h.ite h.upd)
    · exact h.failJob
  · split
    · exact (h.ite h.upd).ite h.upd
    · exact h.upd

theorem MemoriesWf.execBlockDeviceAcknowledge {lin : Nat} (h : MemoriesWf s) :
    OutWf (execBlockDeviceAcknowledge lin s) := by
  unfold Machine.execBlockDeviceAcknowledge
  split
  · exact h
  · split
    · dsimp only
      split
      · exact h.upd.setJob.ite h.upd
      · exact h.upd
    · exact h

theorem MemoriesWf.execLeaseExpiry {lin : Nat} (h : MemoriesWf s) : OutWf (execLeaseExpiry lin s) := h.upd

theorem MemoriesWf.sealPage {gpa : Nat} {k : Acc} (h : MemoriesWf s) : SndWf (sealPage s n gpa k) := by
  unfold Machine.sealPage
  split
  next e => exact h.gStage.of_eq e
  next e => exact h.gStage.of_eq e

theorem MemoriesWf.readPieces {x : List Piece} (h : MemoriesWf s) : SndWf (readPieces s n x) := by
  induction x generalizing s with
  | nil => exact h
  | cons y r ih =>
    unfold Machine.readPieces
    split
    · split
      next e =>
        have h1 := h.sealPage.of_eq e
        dsimp only
        split
        next e' => exact (ih h1).of_eq e'
        · exact ih h1
      next e =>
        dsimp only
        exact h.sealPage.of_eq e
    · split
      · dsimp only
        exact h
      · dsimp only
        split
        next e => exact (ih h).of_eq e
        · exact ih h

theorem MemoriesWf.writePieces {x : List Piece} {x_1 : List Byte} (h : MemoriesWf s) :
    SndWf (writePieces s n x x_1) := by
  induction x generalizing s x_1 with
  | nil => exact h
  | cons y r ih =>
    unfold Machine.writePieces
    refine .ite h ?_
    split
    · split
      next e => exact ih (h.sealPage.of_eq e).storeBytes
      next e => exact h.sealPage.of_eq e
    · exact .ite h (ih h.storeBytes)

theorem MemoriesWf.commitJob {j : Job} (h : MemoriesWf s) : MemoriesWf (commitJob s j) :=
  h.setJob.ite h.setJob.askHome

theorem MemoriesWf.sealChunks {j : Job} {key : List Byte} (h : MemoriesWf s) : MemoriesWf (sealChunks s j key) := by
  unfold Machine.sealChunks
  dsimp only
  split
  next e => exact (h.backPeers.hostHome.readPieces.of_eq e).failJob
  next e => exact ((h.backPeers.hostHome.readPieces.of_eq e).foldl (fun _ _ k => k.physWrite)).physWrite.commitJob

theorem MemoriesWf.restoreChunks {j : Job} {key x : List Byte} {ps : List Piece} {k x_1 : Nat} (h : MemoriesWf s) :
    SndWf (restoreChunks s j key x ps k x_1) := by
  induction x_1 generalizing s ps k with
  | zero => exact h
  | succ m ih =>
    unfold Machine.restoreChunks
    dsimp only
    split
    · exact h
    · split
      · exact h
      · split
        next e => exact h.writePieces.of_eq e
        next e => exact ih (h.writePieces.of_eq e)

theorem MemoriesWf.restoreImage {j : Job} {key sealer : List Byte} (h : MemoriesWf s) :
    MemoriesWf (restoreImage s j key sealer) := by
  unfold Machine.restoreImage
  refine h.failJob.ite ?_
  split
  · exact h.failJob
  · refine h.failJob.ite ?_
    dsimp only
    split
    next e => exact (h.setCx.restoreChunks.of_eq e).commitJob
    next e => exact (h.setCx.restoreChunks.of_eq e).failJob

theorem MemoriesWf.execKeyRelease {job : Nat} {key sealer : List Byte} (h : MemoriesWf s) :
    OutWf (execKeyRelease job key sealer s) := by
  unfold Machine.execKeyRelease
  split
  · exact h
  · refine MemoriesWf.ite (h.ite ?_) (h.ite ?_)
    · split
      · exact h.failJob
      · exact h.restoreImage.ite h.sealChunks
    · split
      · exact h
      · exact h.restoreImage.ite h.sealChunks

theorem MemoriesWf.execCommitAck {job : Nat} {ok : Bool} (h : MemoriesWf s) : OutWf (execCommitAck job ok s) := by
  unfold Machine.execCommitAck
  split
  · exact h
  · exact (h.succeedJob.ite h).ite (h.ite (h.succeedJob.ite h.failJob))

theorem MemoriesWf.execHomeAnswerTimeout {job : Nat} (h : MemoriesWf s) : OutWf (execHomeAnswerTimeout job s) := by
  unfold Machine.execHomeAnswerTimeout
  split
  · exact h
  · exact h.ite (h.failJob.ite (h.failJob.ite h))

theorem MemoriesWf.execLeaseRefused {job code : Nat} (h : MemoriesWf s) : OutWf (execLeaseRefused job code s) := by
  unfold Machine.execLeaseRefused
  split
  · exact h
  · exact h.failJob.ite h

end Sys2Proof
end

section
/-! ### The Lehr -/

namespace Sys2Proof

open Machine

variable {s s1 : State} {tid core n ctx : Nat} {addr : Word} {l : Loc} {p : BitVec 1} {d a b : BitVec 5}

theorem MemoriesWf.eventLog {part kind unit detail : Nat} (h : MemoriesWf s) :
    MemoriesWf (Machine.eventLog s part kind unit detail) := by
  refine h.ite ?_
  extract_lets s1
  have h1 : MemoriesWf s1 := h.foldl fun _ _ k => k.logError.ite k.logError
  exact h1.ite h1.routed

theorem MemoriesWf.setFreq {f : Nat} (h : MemoriesWf s) : MemoriesWf (setFreq s f) := h.ite h.upd

theorem MemoriesWf.lehrEvent {kind unit detail part : Nat} (h : MemoriesWf s) :
    MemoriesWf (lehrEvent s kind unit detail part) :=
  (h.ite h.hostHome.storeBytes.upd).upd.eventLog

theorem MemoriesWf.execPowerCapTick {watts : Nat} (h : MemoriesWf s) : OutWf (execPowerCapTick watts s) :=
  h.upd.ite (h.upd.setFreq.lehrEvent.ite (h.upd.setFreq.ite h.upd))

theorem MemoriesWf.reset : MemoriesWf State.reset := ⟨rfl, rfl, rfl⟩

theorem MemoriesWf.afterReset (h : MemoriesWf s) : MemoriesWf (afterReset s) :=
  (MemoriesWf.reset.withMem (filter_wf h.mem_wf fun e => !(isOwn e.1))).upd

theorem MemoriesWf.startFirmware {verified : Bool} (h : MemoriesWf s) : MemoriesWf (startFirmware s verified) :=
  h.upd.ite h.upd.lehrEvent

theorem MemoriesWf.execPackageReset {verified : Bool} (h : MemoriesWf s) : OutWf (execPackageReset verified s) :=
  h.afterReset.startFirmware

theorem MemoriesWf.execPowerUp {verified : Bool} (h : MemoriesWf s) : OutWf (execPowerUp verified s) :=
  h.ite h.upd.startFirmware

theorem MemoriesWf.execPowerLoss {lin : Nat} {new : Bool} (h : MemoriesWf s) : OutWf (execPowerLoss lin new s) :=
  h.upd.afterReset

theorem MemoriesWf.execThermalSample {bench benchT stack stackT : Nat} (h : MemoriesWf s) :
    OutWf (execThermalSample bench benchT stack stackT s) :=
  h.upd.lehrEvent.afterReset.ite (h.upd.setFreq.lehrEvent.ite h.upd.setFreq)

theorem MemoriesWf.execMarginReplan {bench mv : Nat} (h : MemoriesWf s) : OutWf (execMarginReplan bench mv s) :=
  h.ite h.upd.lehrEvent

theorem MemoriesWf.clearCore (h : MemoriesWf s) : MemoriesWf (clearCore s core) :=
  (h.killThreads.foldl (fun _ _ k => k.setTh)).detach.setCo.tileSettle

theorem MemoriesWf.loseHomes (h : MemoriesWf s) : MemoriesWf (loseHomes s) := by
  unfold Machine.loseHomes
  refine .upd (h.foldl (fun _ _ k => ?_))
  split
  · exact k.waitTrap.upd
  · exact k

theorem MemoriesWf.withdraw {bench addr : Nat} (h : MemoriesWf s) : MemoriesWf (withdraw s bench addr) :=
  h.ite (h.foldl (fun _ _ k => k.clearCore)).upd.loseHomes.upd.upd.lehrEvent.lehrEvent

theorem MemoriesWf.execErrorDetect {kind addr : Nat} {lasting : Bool} (h : MemoriesWf s) :
    OutWf (execErrorDetect kind addr lasting s) := by
  unfold Machine.execErrorDetect
  refine h.upd.lehrEvent.ite ?_
  split
  · exact h.upd.lehrEvent
  · exact h.upd.lehrEvent
  · exact h.withdraw
  · exact h.upd.lehrEvent
  · exact h.lehrEvent

theorem MemoriesWf.droop {bench : Nat} {again : Bool} (h : MemoriesWf s) : MemoriesWf (droop s bench again) :=
  h.withdraw.ite h.upd.lehrEvent

theorem MemoriesWf.abandonRequest (h : MemoriesWf s) : MemoriesWf (abandonRequest s) := by
  unfold Machine.abandonRequest
  split
  · exact h
  · exact h.upd.quiesceQueues.endRequest

theorem MemoriesWf.execLehrRestart (h : MemoriesWf s) : OutWf (execLehrRestart s) := by
  unfold Machine.execLehrRestart
  refine MemoriesWf.lehrEvent ?_
  split
  · exact h.abandonRequest.ite h.abandonRequest.failJob
  · exact h.abandonRequest

theorem MemoriesWf.unbindQueues {part : Nat} (h : MemoriesWf s) : MemoriesWf (unbindQueues s part) :=
  (h.foldl (fun _ _ k => k.closeCalls.ite k)).cancelKernels.upd

theorem MemoriesWf.resetPart {part : Nat} (h : MemoriesWf s) : MemoriesWf (resetPart s part) := by
  unfold Machine.resetPart
  refine .unbindQueues (h.foldl (fun _ _ k => ?_))
  split
  · exact k
  · exact k.setCx
  · exact k.setCx
  · exact k.destroyCtx

end Sys2Proof
end

section
/-! ### Management messages -/

namespace Sys2Proof

open Machine

variable {s s1 : State} {tid core n ctx : Nat} {addr : Word} {l : Loc} {p : BitVec 1} {d a b : BitVec 5}

theorem MemoriesWf.reply {bs : List Byte} (h : MemoriesWf s) : MemoriesWf (reply s bs) := h.upd

theorem MemoriesWf.execMctpControl {data : List Byte} (h : MemoriesWf s) : OutWf (execMctpControl data s) :=
  h.reply

theorem MemoriesWf.execGetVersion (h : MemoriesWf s) : OutWf (execGetVersion s) := h.reply

theorem MemoriesWf.execGetCapabilities {data : List Byte} (h : MemoriesWf s) : OutWf (execGetCapabilities data s) :=
  h.reply

theorem MemoriesWf.execNegotiateAlgorithms {data : List Byte} (h : MemoriesWf s) :
    OutWf (execNegotiateAlgorithms data s) :=
  h.reply

theorem MemoriesWf.execGetDigests (h : MemoriesWf s) : OutWf (execGetDigests s) := h.reply

theorem MemoriesWf.execGetCertificate {slot off len : Nat} (h : MemoriesWf s) :
    OutWf (execGetCertificate slot off len s) :=
  h.reply

theorem MemoriesWf.execChallenge {slot : Nat} {nonce : List Byte} (h : MemoriesWf s) :
    OutWf (execChallenge slot nonce s) :=
  h.reply

theorem MemoriesWf.execGetMeasurements {blk : Nat} {nonce : List Byte} (h : MemoriesWf s) :
    OutWf (execGetMeasurements blk nonce ctx s) :=
  h.reply

theorem MemoriesWf.mgReply {cmd seq : Nat} {st : ℤ} (h : MemoriesWf s) : MemoriesWf (mgReply s cmd seq st) :=
  h.reply

theorem MemoriesWf.unknownMessage {m : List Byte} (h : MemoriesWf s) : MemoriesWf (unknownMessage s m) :=
  h.ite h.mgReply

theorem MemoriesWf.mgCommand {cmd : Nat} {m : List Byte} {f : State → List Byte → Int ⊕ State} (h : MemoriesWf s)
    (hf : ∀ t x, MemoriesWf t → SumWf (f t x)) :
    OutWf (mgCommand s cmd m f) := by
  unfold Machine.mgCommand
  refine h.mgReply.ite ?_
  dsimp only
  split
  · exact h.upd.mgReply
  next e => exact ((hf _ _ h.upd).of_eq e).mgReply

theorem MemoriesWf.execFwOpen {data : List Byte} (h : MemoriesWf s) : OutWf (execFwOpen data s) :=
  h.mgReply.ite h.upd.mgReply

theorem MemoriesWf.execFwData {head data : List Byte} (h : MemoriesWf s) : OutWf (execFwData head data s) := by
  unfold Machine.execFwData
  split
  · exact h.mgReply
  · exact h.mgReply.ite h.upd.mgReply

theorem MemoriesWf.execFwCommit {data : List Byte} (h : MemoriesWf s) : OutWf (execFwCommit data s) := by
  unfold Machine.execFwCommit
  split
  · exact h.mgReply
  · exact (h.upd.upd.startFirmware.ite h.upd).mgReply.ite h.lehrEvent.mgReply

theorem MemoriesWf.execAuthKey {data : Bool × List Byte} (h : MemoriesWf s) : OutWf (execAuthKey data s) := by
  unfold Machine.execAuthKey
  split
  · split
    · exact h.mgReply.ite (h.upd.mgReply.ite h.mgReply)
    · exact h.mgCommand fun _ _ k => holds_ite k.upd trivial

theorem MemoriesWf.execPlan {data : List Byte} (h : MemoriesWf s) : OutWf (execPlan data s) :=
  .ite h.upd (h.upd.mgCommand (fun _ _ k => holds_ite trivial k.upd))

theorem MemoriesWf.execPkgNum {data : List Byte} (h : MemoriesWf s) : OutWf (execPkgNum data s) :=
  h.mgCommand fun _ _ k => holds_ite trivial (holds_ite trivial k.upd)

theorem MemoriesWf.execRoute {data : List Byte} (h : MemoriesWf s) : OutWf (execRoute data s) :=
  h.mgCommand fun _ _ k => holds_ite trivial k.upd.newPaths

theorem MemoriesWf.execDomain {data : List Byte} (h : MemoriesWf s) : OutWf (execDomain data s) :=
  h.mgCommand fun _ _ k => holds_ite trivial k.upd

theorem MemoriesWf.execXgroup {data : List Byte} (h : MemoriesWf s) : OutWf (execXgroup data s) :=
  h.mgCommand fun _ _ k => holds_ite trivial k.upd

theorem MemoriesWf.portCommand {action : Nat} {f : State → Nat → Option State} {data : List Byte} (h : MemoriesWf s)
    (hf : ∀ s x, MemoriesWf s → OptionWf (f s x)) : OutWf (Machine.portCommand action f data s) := by
  refine h.mgCommand fun s b k => holds_ite trivial ?_
  split
  next e => exact (hf s _ k).of_eq e
  · trivial

theorem MemoriesWf.execPortEnable {data : List Byte} (h : MemoriesWf s) : OutWf (execPortEnable data s) :=
  h.portCommand fun _ _ k => k.portTrain

theorem MemoriesWf.execPortFence {data : List Byte} (h : MemoriesWf s) : OutWf (execPortFence data s) :=
  h.portCommand fun _ _ k => k.portShut

theorem MemoriesWf.execPortUnfence {data : List Byte} (h : MemoriesWf s) : OutWf (execPortUnfence data s) :=
  h.portCommand fun _ _ k => k.portDown

theorem MemoriesWf.execPortReset {data : List Byte} (h : MemoriesWf s) : OutWf (execPortReset data s) :=
  h.portCommand fun _ _ k => k.portDown

theorem MemoriesWf.execPartReset {data : List Byte} (h : MemoriesWf s) : OutWf (execPartReset data s) :=
  h.mgCommand fun _ _ k => holds_ite trivial k.resetPart

theorem MemoriesWf.execCoreReset {data : List Byte} (h : MemoriesWf s) : OutWf (execCoreReset data s) :=
  h.mgCommand fun _ _ k => holds_ite trivial k.clearCore

theorem MemoriesWf.execEthAddr {data : List Byte} (h : MemoriesWf s) : OutWf (execEthAddr data s) :=
  h.mgCommand fun _ _ k => holds_ite trivial k.upd

theorem MemoriesWf.execEthRule {data : List Byte} (h : MemoriesWf s) : OutWf (execEthRule data s) :=
  h.mgCommand fun _ _ k => holds_ite trivial k.upd

end Sys2Proof
end

section
/-! ### Memory instructions -/

namespace Sys2Proof

open Machine

variable {s s1 : State} {tid core n ctx : Nat} {addr : Word} {l : Loc} {p : BitVec 1} {d a b : BitVec 5}

theorem MemoriesWf.load {la : BitVec 4} {imm : BitVec 8} {size : Nat} {signed : Bool} (h : MemoriesWf s) :
    OutWf (load s p d a la imm size signed) := by
  unfold Machine.load
  refine .ite h.held ?_
  dsimp only
  split
  next e => exact (h.loadAt.value e).longResult.finish
  next e => exact (h.loadAt.failed e).longResult.finish
  next e => exact (h.loadAt.hold e).held
  next e => exact h.loadAt.ends e

theorem MemoriesWf.store {imm : BitVec 8} {size word : Nat} (h : MemoriesWf s) :
    OutWf (store s p d a imm size word) :=
  h.raise.ite (h.held.ite h.pushStore.finish)

theorem MemoriesWf.execLongResultWrite (h : MemoriesWf s) : OutWf (execLongResultWrite tid n s) := by
  unfold Machine.execLongResultWrite
  dsimp only
  split
  · split
    · exact h.wrOf.setTh
    · exact h
  · exact h

theorem MemoriesWf.sendStore {x : Store} {rest : List Store} {pbmt : Nat} (h : MemoriesWf s) :
    MemoriesWf (sendStore s tid x rest l pbmt) :=
  (h.noteUse.ite h).setTh

theorem MemoriesWf.execStoreCheck (h : MemoriesWf s) : OutWf (execStoreCheck tid s) := by
  unfold Machine.execStoreCheck
  dsimp only
  split
  · exact h
  · refine .ite h ?_
    split
    next e => exact (h.checkStore.of_eq e).sendStore
    next e =>
      have h1 := h.checkStore.of_eq e
      exact h1.ite (h1.setTh.logError.ite (h1.setTh.upd.ite h1.setTh.recordFault))
    next e =>
      have h1 := h.checkStore.of_eq e
      exact h1.setTh.recordFault.ite h1.postPage
    next e => exact (h.checkStore.of_eq e).setTh.recordFault

theorem MemoriesWf.execPendingRecordWrite (h : MemoriesWf s) : OutWf (execPendingRecordWrite tid s) := by
  unfold Machine.execPendingRecordWrite
  split
  · exact h
  · split
    next e => exact (h.ringWrite.wrote e).setTh.noteRecord
    next e => exact h.ringWrite.full e
    next e => exact (h.ringWrite.refused e).setTh
    · exact h.setTh

theorem MemoriesWf.performStore {x : Store} (h : MemoriesWf s) : MemoriesWf (performStore s tid x l) := by
  unfold Machine.performStore
  split
  · split
    · exact (h.upto (fun _ _ k => k.upd)).ite h.storeAt
    · exact h.l2store.l1pass.ite h.storeAt
  · exact h.storeAt

theorem MemoriesWf.execStoreArriveHome (h : MemoriesWf s) : OutWf (execStoreArriveHome tid n s) := by
  unfold Machine.execStoreArriveHome
  dsimp only
  split
  · split
    · exact .ite h ((h.setTh.unstick.logError.ite h.stick).ite (h.setTh.logError.ite h.setTh.unstick.performStore))
    · exact h
  · exact h

end Sys2Proof
end

section
/-! ### The copy engine -/

namespace Sys2Proof

open Machine

variable {s s1 : State} {tid core n ctx : Nat} {addr : Word} {l : Loc} {p : BitVec 1} {d a b : BitVec 5}

theorem MemoriesWf.chAt {r : XReq} {mt : Nat} {k : Acc} (h : MemoriesWf s) :
    SndWf (Machine.chAt s r mt addr n k) := by
  unfold Machine.chAt
  extract_lets no
  split
  · exact h
  · exact h
  · refine .ite h ?_
    split
    next e =>
      have h1 := h.xlateBy.of_eq e
      exact .ite (.ite h1.unstick h1.stick) (.ite h1.unstick (.ite h1.unstick h1.unstick))
    next e => exact h.xlateBy.of_eq e
    next e => exact h.xlateBy.of_eq e
    next e => exact h.xlateBy.of_eq e
    next e => exact h.xlateBy.of_eq e

theorem MemoriesWf.chWrite {r : XReq} {v pbmt : Nat} (h : MemoriesWf s) : MemoriesWf (chWrite s r l n v pbmt) := by
  unfold Machine.chWrite
  split
  · split
    · exact h.upto fun _ _ k => k.upd
    · exact h.l2store.ite h.storeAt
  · exact h.storeAt

theorem MemoriesWf.gatherSrc {r : XReq} {p : Plan} {acc : List Nat} {x : Nat} (h : MemoriesWf s) :
    GatherWf (gatherSrc s r p n acc x) := by
  induction x generalizing s n acc with
  | zero => exact h
  | succ m ih =>
    unfold Machine.gatherSrc
    split
    · exact ih h
    · split
      · exact ih h
      · split
        next e =>
          have h1 := h.chAt.of_eq e
          exact holds_ite h1 (ih h1)
        next e => exact h.chAt.of_eq e

theorem MemoriesWf.gatherDst {r : XReq} {mt size a : Nat} {acc : List ChAt} {x : Nat} (h : MemoriesWf s) :
    GatherWf (gatherDst s r mt size a acc x) := by
  induction x generalizing s a acc with
  | zero => exact h
  | succ m ih =>
    unfold Machine.gatherDst
    split
    next e => exact ih (h.chAt.of_eq e)
    next e => exact ih (h.chAt.of_eq e)
    next e => exact h.chAt.of_eq e

theorem MemoriesWf.putUnit {r : XReq} {size : Nat} {x : ChAt × Nat} (h : MemoriesWf s) :
    MemoriesWf (putUnit s r size x) := by
  unfold Machine.putUnit
  split
  · exact h.chWrite
  · exact h.upd
  · exact h

theorem MemoriesWf.setCh {x : Channel} (h : MemoriesWf s) : MemoriesWf (setCh s core x) := h.setCo

theorem MemoriesWf.chReport (h : MemoriesWf s) : MemoriesWf (chReport s core) := by
  unfold Machine.chReport
  dsimp only
  split
  · exact h.ite h.detach.setCh.afReport
  · exact h

theorem MemoriesWf.chFault {r : XReq} {code : Nat} (h : MemoriesWf s) : MemoriesWf (chFault s core r code addr) :=
  h.setCh.chReport

theorem MemoriesWf.chDone {done : Nat} {sh : Bool} (h : MemoriesWf s) : MemoriesWf (chDone s core done sh) :=
  h.detach.setCh

theorem MemoriesWf.chPost {r : XReq} {k : Acc} {second imp : Bool} {gpa : Word} (h : MemoriesWf s) :
    MemoriesWf (chPost s core r addr k second imp gpa) :=
  h.setCh.postPage

theorem MemoriesWf.chStop {r : XReq} {k : Acc} {e : ChAt} (h : MemoriesWf s) :
    MemoriesWf (chStop s core r addr k e) := by
  unfold Machine.chStop
  split
  · exact h.chFault
  · exact h.chPost
  · exact h

theorem MemoriesWf.chAdvance {s0 : State} {r r1 : XReq} {units : Nat} {next : State → State} (h : MemoriesWf s0)
    (h' : MemoriesWf s) (hf : ∀ t, MemoriesWf t → MemoriesWf (next t)) :
    MemoriesWf (chAdvance s0 s core r r1 units next) := by
  unfold Machine.chAdvance
  refine h.upd.ite ((hf _ h'.releaseCopies).ite (h'.releaseCopies.chFault.ite ?_))
  split
  next e => exact hf _ (h'.releaseCopies.engineAdd.ok e)
  next e => exact (h'.releaseCopies.engineAdd.refused e).chFault
  next e => exact (h'.releaseCopies.engineAdd.walk e).chFault
  · exact h'.releaseCopies.chFault.ite h.setCh.postPage
  · exact h.upd

theorem MemoriesWf.chunkPut {s0 : State} {r : XReq} {p : Plan} {lo : Nat} {vs : List Nat} {end_ : Option Nat}
    (h : MemoriesWf s0) (h' : MemoriesWf s) : MemoriesWf (Machine.chunkPut s0 s core r p lo vs end_) := by
  unfold Machine.chunkPut
  split
  next e => exact (h'.gatherDst.stop e).chStop
  next e =>
    have h1 := h'.gatherDst.all e
    extract_lets mb r1 next
    split
    next e' => exact (h1.gatherDst.stop e').chStop
    next e' =>
      have h2 := h1.gatherDst.all e'
      refine h2.chFault.ite ?_
      extract_lets s3 s4
      have h4 : MemoriesWf s4 := (h2.foldl fun _ _ k => k.putUnit).foldl fun _ _ k => k.putUnit
      have hn : ∀ t, MemoriesWf t → MemoriesWf (next t) := by
        intro t k
        dsimp only [next]
        split
        · exact k.chDone
        · exact k.setCh
      exact (hn _ h4).ite (h.chAdvance h4 hn)

theorem MemoriesWf.reduceChunk {r : XReq} {p : Plan} {lo : Nat} {vs : List Nat} (h : MemoriesWf s) :
    MemoriesWf (reduceChunk s core r p lo vs) := by
  unfold Machine.reduceChunk
  dsimp only
  split
  next e => exact (h.gatherDst.stop e).chStop
  next e =>
    have h1 := h.gatherDst.all e
    exact h1.chFault.ite ((h1.unstick.chFault.ite h1.stick).ite (h1.unstick.foldl (fun _ _ k => k.putUnit)).setCh)

theorem MemoriesWf.chunkStep {r : XReq} (h : MemoriesWf s) : MemoriesWf (chunkStep s core r) := by
  unfold Machine.chunkStep
  dsimp only
  split
  next e =>
    have h1 := h.gatherSrc.all e
    split
    next e' =>
      have h2 := h1.chAt.of_eq e'
      refine h2.reduceChunk.ite ((h.chunkPut h2).ite ?_)
      split
      next e'' =>
        have h3 := h2.chAt.of_eq e''
        exact h3.reduceChunk.ite h3.chFault
      next e'' => exact (h2.chAt.of_eq e'').chStop
      · exact h2.chFault
    · exact h1.reduceChunk.ite (h.chunkPut h1)
  next e =>
    have h1 := h.gatherSrc.stop e
    split
    · exact (h.chunkPut h1).ite h1.chFault
    · exact h1.chStop

theorem MemoriesWf.streamLine {x : Machine.Stream} {l : Nat} (h : MemoriesWf s) : MemoriesWf (streamLine s x l) := by
  unfold Machine.streamLine
  refine h.ite (h.foldl (fun _ _ k => ?_))
  split
  · exact k.setCh
  · exact k

theorem MemoriesWf.streamTo {l : Nat} (h : MemoriesWf s) : MemoriesWf (streamTo s core l) := by
  unfold Machine.streamTo
  split
  · split
    · exact (h.foldl (fun _ _ k => k.streamLine)).upd
    · exact h
  · exact h

theorem MemoriesWf.mcLine {i l : Nat} (h : MemoriesWf s) : McLineWf (mcLine s core i l) := by
  unfold Machine.mcLine
  dsimp only
  split
  · exact h.streamTo
  · split
    · exact h.streamTo
    · split
      next e =>
        have h1 := h.streamTo.chAt.of_eq e
        exact holds_ite h1 h1
      next e => exact h.streamTo.chAt.of_eq e

theorem MemoriesWf.mcBytes_go {i off l x : Nat} {acc : List Byte} (h : MemoriesWf s) :
    McBytesWf (Machine.mcBytes.go core i off n s l acc x) := by
  induction x generalizing s l acc with
  | zero => exact h
  | succ x ih =>
    unfold Machine.mcBytes.go
    split
    next e => exact ih (h.mcLine.ok e)
    next e => exact h.mcLine.error e

theorem MemoriesWf.mcBytes {i off : Nat} (h : MemoriesWf s) : McBytesWf (mcBytes s core i off n) := h.mcBytes_go

theorem MemoriesWf.mcAdvance {r : XReq} (h : MemoriesWf s) : MemoriesWf (mcAdvance s core r) := by
  unfold Machine.mcAdvance
  refine (h.chAdvance h (fun _ k => k.chDone.ite k.setCh)).ite ?_
  split
  · exact h.chFault.ite h
  · exact h

theorem MemoriesWf.mcFault {r : XReq} {k code : Nat} (h : MemoriesWf s) : MemoriesWf (mcFault s core r k code addr) :=
  h.setCh

theorem MemoriesWf.mcReceive {i : Nat} {r : XReq} (h : MemoriesWf s) : MemoriesWf (mcReceive s core i r) := by
  unfold Machine.mcReceive
  split
  · exact h
  · refine h.mcAdvance.ite (h.ite ?_)
    split
    · refine h.mcFault.ite ?_
      split
      next e =>
        have h1 := h.mcBytes.error e
        split
        · exact h1.mcFault
        · exact h1.chStop
      next e =>
        have h1 := h.mcBytes.ok e
        refine .ite ?_ h1.storeBytes.setCh
        split
        · exact h.upd
        · dsimp only
          split
          next e' => exact h1.storeBytes.setCh.releaseCopies.engineAddAt.ok e'
          next e' => exact (h1.storeBytes.setCh.releaseCopies.engineAddAt.refused e').mcFault
          · exact h1.storeBytes.setCh

theorem MemoriesWf.execCopyChunk (h : MemoriesWf s) : OutWf (execCopyChunk core s) := by
  unfold Machine.execCopyChunk
  split
  · exact h
  · exact h.mcAdvance.ite (h.ite h.chunkStep)

theorem MemoriesWf.mcPages {r : XReq} {i : Nat} {acc : List Nat} {x : Nat} (h : MemoriesWf s) :
    GatherWf (mcPages s r i acc x) := by
  induction x generalizing s i acc with
  | zero => exact h
  | succ m ih =>
    unfold Machine.mcPages
    dsimp only
    split
    next e => exact ih (h.chAt.of_eq e).noteUse
    next e => exact h.chAt.of_eq e

theorem MemoriesWf.execMcastStreamJoin (h : MemoriesWf s) : OutWf (execMcastStreamJoin core s) := by
  unfold Machine.execMcastStreamJoin
  split
  · exact h
  · refine h.ite ?_
    split
    next e =>
      have h1 := h.mcPages.all e
      exact h1.setCh.upd.ite h1.setCh.upd
    next e =>
      have h1 := h.mcPages.stop e
      split
      · exact h1.chPost
      · exact h1
      · exact h1.setCh

theorem MemoriesWf.execMcastReceiverChunk {rcv : Nat} (h : MemoriesWf s) :
    OutWf (execMcastReceiverChunk core rcv s) := by
  unfold Machine.execMcastReceiverChunk
  split
  · exact h
  · exact h.mcReceive.ite h

theorem MemoriesWf.execReductionResult {data : List Byte} (h : MemoriesWf s) :
    OutWf (execReductionResult core data s) := by
  unfold Machine.execReductionResult
  split
  · exact h
  · refine h.ite ?_
    split
    next e => exact (h.gatherDst.stop e).chStop
    next e => exact h.chAdvance ((h.gatherDst.all e).foldl (fun _ _ k => k.putUnit)) (fun _ k => k.chDone)

theorem MemoriesWf.execRoundAbandon (h : MemoriesWf s) : OutWf (execRoundAbandon core s) := by
  unfold Machine.execRoundAbandon
  dsimp only
  split
  · exact h.chFault.ite h
  · exact h

theorem MemoriesWf.xferStart {k : XKind} {word : Nat} {bs : List Byte} (h : MemoriesWf s) :
    MemoriesWf (xferStart s p d a b k word bs) :=
  h.upd.setCh.wr.finish

theorem MemoriesWf.xferTail {k : XKind} {word : Nat} {bs : List Byte} (h : MemoriesWf s) :
    MemoriesWf (xferTail s p d a b k word bs) := by
  unfold Machine.xferTail
  refine (h.held.ite (h.wr.finish.ite (h.wr.finish.ite h.xferStart))).ite ?_
  split
  next e => exact (h.ctrFind.fault e).counterFault
  next e => exact h.ctrFind.ends e
  next e =>
    have h1 := h.ctrFind.at_ e
    exact h1.held.ite (h1.wr.finish.ite (h1.wr.finish.ite h1.xferStart))

theorem MemoriesWf.xfer {k : XKind} {word : Nat} (h : MemoriesWf s) : OutWf (xfer s p d a b k word) := by
  unfold Machine.xfer
  refine h.illegal.ite (h.raise.ite (h.held.ite ?_))
  split
  next e => exact h.loadRun.ends e
  next e => exact (h.loadRun.hold e).held
  next e => exact (h.loadRun.failed e).raise
  next e => exact (h.loadRun.value e).xferTail

end Sys2Proof
end

section
/-! ### Special registers -/

namespace Sys2Proof

open Machine

variable {s s1 : State} {tid core n ctx : Nat} {addr : Word} {l : Loc} {p : BitVec 1} {d a b : BitVec 5}

theorem MemoriesWf.setU {u : UserRegs} (h : MemoriesWf s) : SWrWf (setU s u) := h.setMe

theorem MemoriesWf.setSr {r : SupRegs} (h : MemoriesWf s) : SWrWf (setSr s r) := h.setMe

theorem MemoriesWf.setHr {r : HypRegs} (h : MemoriesWf s) : SWrWf (setHr s r) := h.setMe

theorem MemoriesWf.setVr {v : VecRegs} (h : MemoriesWf s) : SWrWf (setVr s v) := h.setMe

theorem MemoriesWf.setCxr {c : Ctx} (h : MemoriesWf s) : SWrWf (setCxr s c) := h.setCx

theorem SWrWf.grantsAfter {w : SWr} (h : SWrWf w) : SWrWf (grantsAfter w) := by
  cases w with
  | ok s => exact MemoriesWf.grantWaits h
  | _ => exact h

theorem MemoriesWf.writeSpsz {v : Word} (h : MemoriesWf s) : SWrWf (writeSpsz s v) :=
  holds_ite trivial (holds_ite trivial (holds_ite h (h.withSpads (filter_wf h.spads_wf _)).upd.setCo))

theorem MemoriesWf.clearFault (h : MemoriesWf s) : MemoriesWf (clearFault s) :=
  (h.setMe.setCh.ite h.setMe).tileReport.chReport

theorem MemoriesWf.writeSdepth {v : Word} (h : MemoriesWf s) : SWrWf (writeSdepth s v) :=
  holds_ite trivial (holds_ite trivial (holds_ite h.setVr h.vClear.setVr))

theorem MemoriesWf.writeVt {v : Word} (h : MemoriesWf s) : SWrWf (writeVt s v) := holds_ite trivial h.setVr

theorem MemoriesWf.writeTile {idx : Nat} {v : Word} (h : MemoriesWf s) : SWrWf (writeTile s idx v) := by
  unfold Machine.writeTile
  split
  · exact holds_ite trivial (holds_ite trivial h.setCo.tileDirty)
  · exact holds_ite trivial (holds_ite trivial h.setCo.tileDirty)
  · exact holds_ite trivial (holds_ite trivial h.setCo.tileDirty)
  iterate 4 exact holds_ite trivial h.setCo.tileDirty
  · exact holds_ite trivial (holds_ite trivial h.setCo.tileDirty)

theorem MemoriesWf.writeTstat {v : Word} {w : Nat} (h : MemoriesWf s) : SWrWf (Machine.writeTstat s v w) := by
  refine holds_ite trivial (holds_ite h.setMe (holds_ite h.raise (holds_ite trivial ?_)))
  extract_lets _ _ s1 _ s2 _ s3
  have h3 : MemoriesWf s3 := (h.setTh.ite h).setMe.setCo
  exact h3.tileReset.ite h3

theorem MemoriesWf.writeXctr {v : Word} (h : MemoriesWf s) : SWrWf (writeXctr s v) :=
  holds_ite trivial (holds_ite (holds_ite trivial h.setCh) (holds_ite trivial h.setCh))

theorem MemoriesWf.sregWrite {idx : Nat} {v : Word} {w : Nat} (h : MemoriesWf s) : SWrWf (sregWrite s idx v w) := by
  unfold Machine.sregWrite
  split
  · exact h.setU
  · exact holds_ite trivial h.setU
  · exact h.setU
  · exact holds_ite trivial h.setU
  · exact holds_ite trivial h.setU
  · exact h.setU
  · exact h.writeSpsz
  · exact h.setU
  · exact holds_ite h.clearFault h
  · exact holds_ite trivial h.setVr
  · exact h.writeVt
  · exact holds_ite trivial h.setVr
  · exact holds_ite h.setVr trivial
  · exact holds_ite h.setVr trivial
  · exact h.setVr
  · exact holds_ite trivial h.setVr
  iterate 8 exact h.writeTile
  · exact h.writeTstat
  · exact holds_ite trivial h.setCo
  · exact h.setU
  · exact h.setU
  · exact h.writeXctr
  iterate 6 exact h.setSr
  · exact h.writeSdepth
  · exact h.setSr
  · exact h.setSr
  · exact holds_ite h.setCxr trivial
  · exact h.setCxr
  · exact holds_ite h.setCxr trivial
  · exact holds_ite h.setCxr trivial
  · exact h.setCx.pageAnswer
  · exact h.setCxr
  · exact holds_ite h.setCxr trivial
  iterate 8 exact h.setHr
  · exact holds_ite h.setCxr trivial
  · exact holds_ite h.setCxr trivial
  · exact h.setCx.pageAnswer
  · exact holds_ite trivial h.setCxr.grantsAfter
  · exact holds_ite trivial h.postRequest
  · split
    · exact trivial
    next e =>
      have h1 := h.ctxCommand.of_eq e
      exact holds_ite h1.setCtxc h1.setCtxc
  · exact trivial

theorem MemoriesWf.sregGate {idx w : Nat} (h : MemoriesWf s) : OptionWf (sregGate s idx w) :=
  .ite h.illegal (.ite h.raise (.ite h.raise (.ite h.illegal (.ite h.tileGate trivial))))

theorem MemoriesWf.sregWord {idx w : Nat} {f : Word → Option Word} (h : MemoriesWf s) :
    MemoriesWf (sregWord s p d idx w f) := by
  unfold Machine.sregWord
  split
  next e => exact h.sregGate.of_eq e
  · refine h.held.ite ((h.suspendTry.holdAt.ite h.suspendTry.wr.finish).ite ?_)
    dsimp only
    split
    · exact h.wr.finish
    · split
      next e' => exact (h.sregWrite.ok e').wr.finish
      · exact h.illegal
      · exact h.held
      next e' => exact (h.sregWrite.waits e').holdAt
      next e' => exact h.sregWrite.ends e'

theorem MemoriesWf.execSread {imm : BitVec 12} (h : MemoriesWf s) : OutWf (execSread p d imm s) := h.sregWord

theorem MemoriesWf.execSwrite {imm : BitVec 12} (h : MemoriesWf s) : OutWf (execSwrite p d a imm s) := h.sregWord

theorem MemoriesWf.execSset {imm : BitVec 12} (h : MemoriesWf s) : OutWf (execSset p d a imm s) := h.sregWord

theorem MemoriesWf.execSclr {imm : BitVec 12} (h : MemoriesWf s) : OutWf (execSclr p d a imm s) := h.sregWord

theorem MemoriesWf.sregEvent {idx : Nat} {v : Word} (h : MemoriesWf s) : OutWf (sregEvent s idx v) := by
  unfold Machine.sregEvent
  refine h.ite ?_
  split
  next e => exact h.sregWrite.ok e
  · exact h

theorem MemoriesWf.execVectorStateAccess {idx : Nat} {val : Word} (h : MemoriesWf s) :
    OutWf (execVectorStateAccess idx val s) :=
  .ite h.sregEvent h

theorem MemoriesWf.execTstatTakeHold {val : Word} (h : MemoriesWf s) : OutWf (execTstatTakeHold val s) :=
  .ite h h.sregEvent

theorem MemoriesWf.execTileConfigWrite {idx : Nat} {val : Word} (h : MemoriesWf s) :
    OutWf (execTileConfigWrite idx val s) :=
  .ite h.sregEvent h

theorem MemoriesWf.execAfcodeClear (h : MemoriesWf s) : OutWf (execAfcodeClear s) := h.sregEvent

theorem MemoriesWf.execXctrEnable {val : Word} (h : MemoriesWf s) : OutWf (execXctrEnable val s) :=
  .ite h.sregEvent h

theorem MemoriesWf.execXctrDisable {val : Word} (h : MemoriesWf s) : OutWf (execXctrDisable val s) :=
  .ite h h.sregEvent

end Sys2Proof
end

section
/-! ### Interrupts and pending traps -/

namespace Sys2Proof

open Machine

variable {s s1 : State} {tid core n ctx : Nat} {addr : Word} {l : Loc} {p : BitVec 1} {d a b : BitVec 5}

theorem MemoriesWf.boundary (h : MemoriesWf s) : OptionWf (boundary s tid) := .ite trivial h.tileYield.vQuiet

theorem MemoriesWf.orFail {f : State → State} (h : MemoriesWf s) (hf : ∀ t, MemoriesWf t → MemoriesWf (f t)) :
    MemoriesWf (orFail s tid f) :=
  h.failTrap.ite (hf _ h)

theorem MemoriesWf.takeInt {code : Nat} (h : MemoriesWf s) : MemoriesWf (takeInt s tid code) := by
  unfold Machine.takeInt
  dsimp only
  exact h.wakeFor.free.snd.enterTrap.setTh

theorem MemoriesWf.execInterruptTake (h : MemoriesWf s) : OutWf (execInterruptTake tid s) := by
  unfold Machine.execInterruptTake
  split
  · exact h
  · refine h.ite ?_
    split
    next e => exact (h.boundary.of_eq e).orFail fun _ k => k.takeInt
    · exact h

theorem MemoriesWf.execAsyncFaultTrap (h : MemoriesWf s) : OutWf (execAsyncFaultTrap tid s) := by
  unfold Machine.execAsyncFaultTrap
  split
  · exact h
  · refine h.ite ?_
    split
    next e => exact (h.boundary.of_eq e).orFail fun _ k => k.wakeFor.enterTrap.setTh
    · exact h

theorem MemoriesWf.execStoreFaultTrap (h : MemoriesWf s) : OutWf (execStoreFaultTrap tid s) := by
  unfold Machine.execStoreFaultTrap
  split
  · exact h
  · refine h.ite ?_
    split
    next e => exact (h.boundary.of_eq e).orFail fun _ k => k.setTh.enterTrap
    · exact h

theorem MemoriesWf.execPauseExpiry (h : MemoriesWf s) : OutWf (execPauseExpiry tid s) := by
  unfold Machine.execPauseExpiry
  dsimp only
  split
  · exact h.upd.setTh
  · exact h

theorem MemoriesWf.execTimerCompare (h : MemoriesWf s) : OutWf (execTimerCompare tid s) := h.upd

end Sys2Proof
end

section
/-! ### The issue of a bundle -/

namespace Sys2Proof

open Machine

variable {s s1 : State} {tid core n ctx : Nat} {addr : Word} {l : Loc} {p : BitVec 1} {d a b : BitVec 5}

theorem MemoriesWf.fetch (h : MemoriesWf s) : FetchWf (fetch s) := by
  unfold Machine.fetch
  refine holds_ite h.raise ?_
  split
  next e =>
    have h1 := h.xlate.of_eq e
    exact holds_ite (holds_ite h1.unstick.raise h1.stick.held) (holds_ite h1.raise (holds_ite h1.raise h1.unstick))
  next e => exact (h.xlate.of_eq e).xlFail

end Sys2Proof
end

section
/-! ### The instructions and events: one case for each, by what performs it -/

namespace Sys2Proof

open Machine

variable {s s1 : State} {tid core n ctx : Nat} {addr : Word} {l : Loc} {p : BitVec 1} {d a b : BitVec 5}

theorem MemoriesWf.exec {i : Instr} (h : MemoriesWf s) : OutWf (Machine.exec i s) := by
  refine .intro fun t e => ?_
  cases i with
  | longResultWrite => exact h.execLongResultWrite.of_eq e
  | pauseExpiry => exact h.execPauseExpiry.of_eq e
  | timerCompare => exact h.execTimerCompare.of_eq e
  | interruptTake => exact h.execInterruptTake.of_eq e
  | asyncFaultTrap => exact h.execAsyncFaultTrap.of_eq e
  | storeFaultTrap => exact h.execStoreFaultTrap.of_eq e
  | stopComplete => exact h.execStopComplete.of_eq e
  | thrEndComplete => exact h.execThrEndComplete.of_eq e
  | gafferSpawn => exact h.execGafferSpawn.of_eq e
  | laneBeat => exact h.execLaneBeat.of_eq e
  | vectorElementAccess => exact h.execVectorElementAccess.of_eq e
  | marverGrant => exact h.execMarverGrant.of_eq e
  | marverStep => exact h.execMarverStep.of_eq e
  | marverCommandComplete b => exact h.execMarverCommandComplete (bench := b) (s1 := t) e
  | counterOpAtHome => exact h.execCounterOpAtHome.of_eq e
  | wakeMessage => exact h.execWakeMessage.of_eq e
  | waitReread => exact h.execWaitReread.of_eq e
  | waiterPoll => exact h.execWaiterPoll.of_eq e
  | waiterEvict => exact h.execWaiterEvict.of_eq e
  | waitTimeout => exact h.execWaitTimeout.of_eq e
  | storeCheck => exact h.execStoreCheck.of_eq e
  | pendingRecordWrite => exact h.execPendingRecordWrite.of_eq e
  | storeArriveHome => exact h.execStoreArriveHome.of_eq e
  | amoAtHome => exact h.execAmoAtHome.of_eq e
  | redAtHome => exact h.execRedAtHome.of_eq e
  | lineEvict => exact h.execLineEvict.of_eq e
  | hostCxlSnoop => exact h.execHostCxlSnoop.of_eq e
  | hostCxlMemAccess => exact h.execHostCxlMemAccess.of_eq e
  | copyChunk => exact h.execCopyChunk.of_eq e
  | mcastStreamJoin => exact h.execMcastStreamJoin.of_eq e
  | mcastReceiverChunk => exact h.execMcastReceiverChunk.of_eq e
  | grpMcastDelivery => exact h.execGrpMcastDelivery.of_eq e
  | reductionResult => exact h.execReductionResult.of_eq e
  | roundAbandon => exact h.execRoundAbandon.of_eq e
  | pageWalk => exact h.execPageWalk.of_eq e
  | pageRequestRecordWrite => exact h.execPageRequestRecordWrite.of_eq e
  | pageAnswerRetry => exact h.execPageAnswerRetry.of_eq e
  | pageAnswerRefuse => exact h.execPageAnswerRefuse.of_eq e
  | hostFenceMessage => exact h.execHostFenceMessage.of_eq e
  | hostFenceAck => exact h.execHostFenceAck.of_eq e
  | hostQueueWindowWrite => exact h.execHostQueueWindowWrite.of_eq e
  | frameReceive => exact h.execFrameReceive.of_eq e
  | kernelBind => exact h.execKernelBind.of_eq e
  | kernelAdmit => exact h.execKernelAdmit.of_eq e
  | kernelEndSequence => exact h.execKernelEndSequence.of_eq e
  | create | ready | start | suspend | resume | destroy => exact h.ctxEvent.of_eq e
  | suspendComplete => exact h.execSuspendComplete.of_eq e
  | scrubComplete => exact h.execScrubComplete.of_eq e
  | sealJobStart => exact h.execSealJobStart.of_eq e
  | restoreJobStart => exact h.execRestoreJobStart.of_eq e
  | leaseRequest => exact h.execLeaseRequest.of_eq e
  | keyRelease => exact h.execKeyRelease.of_eq e
  | commitRequest _ _ k => exact (h.execCommitRequest (_lctr := k)).of_eq e
  | commitAck => exact h.execCommitAck.of_eq e
  | leaseExpiry => exact h.execLeaseExpiry.of_eq e
  | homeAnswerTimeout => exact h.execHomeAnswerTimeout.of_eq e
  | update => exact h.execUpdate.of_eq e
  | reshape => exact h.execReshape.of_eq e
  | reshapeDrainComplete => exact h.execReshapeDrainComplete.of_eq e
  | spszWrite | sdepthWrite | vtWrite | tstatWriteOff => exact h.sregEvent.of_eq e
  | vectorStateAccess => exact h.execVectorStateAccess.of_eq e
  | tstatTakeHold => exact h.execTstatTakeHold.of_eq e
  | tileConfigWrite => exact h.execTileConfigWrite.of_eq e
  | afcodeClear => exact h.execAfcodeClear.of_eq e
  | xctrEnable => exact h.execXctrEnable.of_eq e
  | xctrDisable => exact h.execXctrDisable.of_eq e
  | hostCounterWindowWrite => exact h.execHostCounterWindowWrite.of_eq e
  | hostArmWrite => exact h.execHostArmWrite.of_eq e
  | hostDoorbell => exact h.execHostDoorbell.of_eq e
  | counterTableWrite => exact h.execCounterTableWrite.of_eq e
  | hostRegisterWrite => exact h.execHostRegisterWrite.of_eq e
  | portEnable => exact h.execPortEnable.of_eq e
  | portFence => exact h.execPortFence.of_eq e
  | portUnfence => exact h.execPortUnfence.of_eq e
  | portReset => exact h.execPortReset.of_eq e
  | laneLock => exact h.execLaneLock.of_eq e
  | trainingTimeout => exact h.execTrainingTimeout.of_eq e
  | retrainTrigger _ lost => exact (h.execRetrainTrigger (_lost := lost)).of_eq e
  | flitCrcFail => exact h.execFlitCrcFail.of_eq e
  | pathTimeout => exact h.execPathTimeout.of_eq e
  | remoteAccessReceive => exact h.execRemoteAccessReceive.of_eq e
  | mctpControl => exact h.execMctpControl.of_eq e
  | getVersion => exact h.execGetVersion.of_eq e
  | getCapabilities => exact h.execGetCapabilities.of_eq e
  | negotiateAlgorithms => exact h.execNegotiateAlgorithms.of_eq e
  | getDigests => exact h.execGetDigests.of_eq e
  | getCertificate => exact h.execGetCertificate.of_eq e
  | challenge => exact h.execChallenge.of_eq e
  | getMeasurements => exact h.execGetMeasurements.of_eq e
  | fwOpen => exact h.execFwOpen.of_eq e
  | fwData => exact h.execFwData.of_eq e
  | fwCommit => exact h.execFwCommit.of_eq e
  | authKey => exact h.execAuthKey.of_eq e
  | plan => exact h.execPlan.of_eq e
  | pkgNum => exact h.execPkgNum.of_eq e
  | route => exact h.execRoute.of_eq e
  | domain => exact h.execDomain.of_eq e
  | xgroup => exact h.execXgroup.of_eq e
  | ethAddr => exact h.execEthAddr.of_eq e
  | ethRule => exact h.execEthRule.of_eq e
  | partReset => exact h.execPartReset.of_eq e
  | coreReset => exact h.execCoreReset.of_eq e
  | packageReset => exact h.execPackageReset.of_eq e
  | powerUp => exact h.execPowerUp.of_eq e
  | powerCapTick => exact h.execPowerCapTick.of_eq e
  | thermalSample => exact h.execThermalSample.of_eq e
  | marginReplan => exact h.execMarginReplan.of_eq e
  | errorDetect => exact h.execErrorDetect.of_eq e
  | lehrRestart => exact h.execLehrRestart.of_eq e
  | powerLoss => exact h.execPowerLoss.of_eq e
  | blockDeviceAcknowledge => exact h.execBlockDeviceAcknowledge.of_eq e
  | leaseRefused => exact h.execLeaseRefused.of_eq e
  | translationDrop => exact h.execTranslationDrop.of_eq e
  | svc => exact h.execSvc.of_eq e
  | brk => exact h.execBrk.of_eq e
  | tret => exact h.execTret.of_eq e
  | pause => exact h.execPause.of_eq e
  | sread => exact h.execSread.of_eq e
  | swrite => exact h.execSwrite.of_eq e
  | sset => exact h.execSset.of_eq e
  | sclr => exact h.execSclr.of_eq e
  | beq | bne | blt | bge | bltu | bgeu => exact h.branch.of_eq e
  | jal => exact h.execJal.of_eq e
  | jalr => exact h.execJalr.of_eq e
  | ldb | ldh | ldw | ldd | ldbu | ldhu | ldwu => exact h.load.of_eq e
  | stb | sth | stw | std => exact h.store.of_eq e
  | pcadd => exact h.execPcadd.of_eq e
  | ldhi | add | sub | and | or | xor | andn | orn | sll | srl | sra | slt | sltu | min | max | minu | maxu | mul
  | addw | subw | clz | ctz | cpop | rol | ror | addi | slti | sltiu | xori | ori | andi | slli | srli | srai | addiw =>
    exact h.alu.of_eq e
  | mulh | mulhu | div | divu | rem | remu => exact h.aluLong.of_eq e
  | faddS | fsubS | fmulS | fminS | fmaxS | fmaddS | fclassS | fcvtSd | fcvtDs | fcvtSl | fcvtLs | fcvtDl | fcvtLd
  | faddD | fsubD | fmulD | fminD | fmaxD | fmaddD | fclassD => exact h.fp.of_eq e
  | fdivS | fsqrtS | fdivD | fsqrtD => exact h.fpLong.of_eq e
  | feqS | fltS | fleS | feqD | fltD | fleD => exact h.fpBool.of_eq e
  | thrSpawn => exact h.execThrSpawn.of_eq e
  | thrEnd p => exact (h.execThrEnd (_p := p)).of_eq e
  | thrSelf => exact h.execThrSelf.of_eq e
  | thrStop => exact h.execThrStop.of_eq e
  | thrGo => exact h.execThrGo.of_eq e
  | thrSave => exact h.execThrSave.of_eq e
  | thrLoad => exact h.execThrLoad.of_eq e
  | vset => exact h.execVset.of_eq e
  | vsetmt => exact h.execVsetmt.of_eq e
  | vld | vlds | vldx | vldff | vldg | vldb | vst | vsts | vstx | vstxa | vstxf | vadd | vsub | vmul | vmulh | vmin
  | vmax | vminu | vmaxu | vand | vor | vxor | vsll | vsrl | vsra | vsadd | vssub | vmacc | vdot4 | vfadd | vfsub
  | vfmul | vfdiv | vfsqrt | vfmin | vfmax | vfma | vfnma | vfabs | vfneg | vceq | vcne | vclt | vcle | vcltu | vcleu
  | vfceq | vfclt | vfcle | vfcun | mand | mor | mxor | mandn | mnot | mpop | mfirst | miota | mset | vredsum
  | vredmin | vredmax | vfredo | vfredt | vfredmin | vfredmax | vslup | vsldn | vrgather | vcompress | vbcast | vmvgv
  | vmvvg | vid | vmerge | vmv | vcvtN | vcvtW | vcvtFi | vcvtIf | vcvtQ4 | vcvtQ8 => exact h.vEnter.of_eq e
  | tileZero => exact h.execTileZero.of_eq e
  | tileLd => exact h.execTileLd.of_eq e
  | tileSt => exact h.execTileSt.of_eq e
  | tileLdx => exact h.execTileLdx.of_eq e
  | tileStx => exact h.execTileStx.of_eq e
  | tileStxa => exact h.execTileStxa.of_eq e
  | tileMma | tileMmax | tileGmma => exact h.tileProduct.of_eq e
  | tileRowv => exact h.execTileRowv.of_eq e
  | tileVrow => exact h.execTileVrow.of_eq e
  | tileQ => exact h.execTileQ.of_eq e
  | tileChol => exact h.execTileChol.of_eq e
  | tileTrsm => exact h.execTileTrsm.of_eq e
  | tileRel => exact h.execTileRel.of_eq e
  | ctrAdd => exact h.execCtrAdd.of_eq e
  | ctrFadd => exact h.execCtrFadd.of_eq e
  | ctrWait => exact h.execCtrWait.of_eq e
  | ctrTest => exact h.execCtrTest.of_eq e
  | ctrRead => exact h.execCtrRead.of_eq e
  | ctrArrive => exact h.execCtrArrive.of_eq e
  | ctrAw => exact h.execCtrAw.of_eq e
  | ctrReset => exact h.execCtrReset.of_eq e
  | ctrVadd => exact h.execCtrVadd.of_eq e
  | ctrArm => exact h.execCtrArm.of_eq e
  | ctrHome => exact h.execCtrHome.of_eq e
  | grpNew => exact h.execGrpNew.of_eq e
  | grpJoin => exact h.execGrpJoin.of_eq e
  | grpLeave => exact h.execGrpLeave.of_eq e
  | grpSize => exact h.execGrpSize.of_eq e
  | grpRank => exact h.execGrpRank.of_eq e
  | grpPin => exact h.execGrpPin.of_eq e
  | grpUnpin => exact h.execGrpUnpin.of_eq e
  | grpMcast => exact h.execGrpMcast.of_eq e
  | grpStop => exact h.execGrpStop.of_eq e
  | grpGo => exact h.execGrpGo.of_eq e
  | grpKill => exact h.execGrpKill.of_eq e
  | xferCopy | xferTensor | xferMcast | xferFill | xferSend => exact h.xfer.of_eq e
  | qLaunch => exact h.execQLaunch.of_eq e
  | qCall => exact h.execQCall.of_eq e
  | qTake => exact h.execQTake.of_eq e
  | qDone => exact h.execQDone.of_eq e
  | amoAdd | amoAnd | amoOr | amoXor | amoMin | amoMax | amoMinu | amoMaxu | amoSwap | amoCas | amoFadd =>
    exact h.amo.of_eq e
  | redAdd | redFadd | redMin | redMax => exact h.red.of_eq e
  | fence => exact h.execFence.of_eq e
  | stDrain => exact h.execStDrain.of_eq e
  | lineInv => exact h.execLineInv.of_eq e
  | lineWb => exact h.execLineWb.of_eq e
  | pref => exact h.execPref.of_eq e
  | haloDecl => exact h.execHaloDecl.of_eq e
  | haloDrop => exact h.execHaloDrop.of_eq e
  | haloPush => exact h.execHaloPush.of_eq e
  | vmFence => exact h.execVmFence.of_eq e
  | vmInv => exact h.execVmInv.of_eq e
  | vmGinv => exact h.execVmGinv.of_eq e
  | vmProbe => exact h.execVmProbe.of_eq e
  | ctxSeal => exact h.execCtxSeal.of_eq e
  | ctxUnseal => exact h.execCtxUnseal.of_eq e
  | ctxExtend => exact h.execCtxExtend.of_eq e
  | ctxQuote => exact h.execCtxQuote.of_eq e

end Sys2Proof
end

section
/-! ### The issue of a bundle -/

namespace Sys2Proof

open Machine

variable {s s1 : State} {tid core n ctx : Nat} {addr : Word} {l : Loc} {p : BitVec 1} {d a b : BitVec 5}

theorem MemoriesWf.runWord {w : Nat} (h : MemoriesWf s) : OutWf (Machine.runWord s w) := by
  unfold Machine.runWord
  split
  · exact h.illegal
  · split
    · exact h.raise
    · exact h.exec

theorem MemoriesWf.forPartner {vcfg cont : Bool} (h' : MemoriesWf s1) : MemoriesWf (forPartner s s1 vcfg cont) :=
  h'.setMe.upd

theorem MemoriesWf.joinPair {s2 : State} (h' : MemoriesWf s2) : MemoriesWf (joinPair s1 s2) := h'.setMe.upd

theorem MemoriesWf.partnerTrap {c : Nat} {v : Word} (h : MemoriesWf s) : MemoriesWf (partnerTrap s c v) :=
  h.upd.raise.upd

theorem MemoriesWf.runPartner {cont : Bool} {c p : Nat} (h : MemoriesWf s) (h' : MemoriesWf s1) :
    OutWf (runPartner s s1 cont c p) := by
  unfold Machine.runPartner
  split
  next e =>
    split
    · exact (h'.forPartner.runWord.of_eq e).joinPair
    · exact h.partnerTrap
    · exact h.held
  · exact h'.forPartner.runWord

theorem MemoriesWf.heldPair {c p : Nat} (h : MemoriesWf s) (h' : MemoriesWf s1) : MemoriesWf (heldPair s s1 c p) := by
  unfold Machine.heldPair
  refine h'.ite ?_
  split
  · split
    · exact h.partnerTrap
    · exact h'
  · exact h'

theorem MemoriesWf.runPair {c p : Nat} (h : MemoriesWf s) : OutWf (runPair s c p) := by
  unfold Machine.runPair
  split
  next e =>
    have h1 := h.runWord.of_eq e
    split
    · exact h.runPartner h1
    · exact h.heldPair h1
    · exact h1
  · exact h.runWord

theorem MemoriesWf.runCont {pair : Bool} {c p : Nat} (h : MemoriesWf s) : OutWf (runCont s pair c p) := by
  unfold Machine.runCont
  refine .ite h.setMe.upd.illegal.upd (.ite ?_ (.ite ?_ h.runWord))
  · split
    next e =>
      have h1 := h.upd.runWord.of_eq e
      split
      · exact h1.upd.finish.upd
      · exact h1.upd
    · exact h.upd.runWord
  · split
    next e =>
      have h1 := h.runWord.of_eq e
      exact .ite (h.runPartner h1) h1
    · exact h.runWord

theorem MemoriesWf.failNow (h : MemoriesWf s) : MemoriesWf (failNow s) := by
  unfold Machine.failNow
  split
  next e => exact (h.boundary.of_eq e).failTrap.upd
  · exact h.held

theorem MemoriesWf.settle {cont : Bool} (h : MemoriesWf s) (h' : MemoriesWf s1) : MemoriesWf (settle s cont s1) := by
  unfold Machine.settle
  split
  · exact h'.ite h'.setMe
  · exact h.failNow.ite h'
  · exact h.failNow.ite h'
  · exact h'

theorem MemoriesWf.runBundle {u : Nat} (h : MemoriesWf s) : OutWf (runBundle s u) := by
  unfold Machine.runBundle
  dsimp only
  split
  · exact h.settle h.upd.raise.upd
  · split
    next e => exact h.settle ((h.runCont.ite (h.runPair.ite h.runWord)).of_eq e)
    · exact .ite h.runCont (.ite h.runPair h.runWord)

theorem MemoriesWf.keepUnit {pc : Word} {u : Nat} (h : MemoriesWf s) : MemoriesWf (keepUnit pc u s) :=
  h.setMe.ite h

theorem MemoriesWf.runUnit {u : Nat} (h : MemoriesWf s) : OutWf (runUnit s u) := by
  unfold Machine.runUnit
  split
  next e => exact (h.runBundle.of_eq e).keepUnit
  · exact h.runBundle

theorem MemoriesWf.fetchRun (h : MemoriesWf s) : OutWf (fetchRun s) := by
  unfold Machine.fetchRun
  split
  · exact h.runUnit
  · split
    next e => exact h.settle (h.fetch.ends e)
    next e => exact (h.fetch.unit e).runUnit

theorem MemoriesWf.takeDue {d : Due} (h : MemoriesWf s) : MemoriesWf (takeDue s d) :=
  (h.failTrap.ite h.held).ite (h.enterTrap.ite h.held)

theorem MemoriesWf.before {enter : State → State} {bundle : State → Out} (h : MemoriesWf s)
    (hf : ∀ t, MemoriesWf t → MemoriesWf (enter t)) (hg : ∀ t, MemoriesWf t → OutWf (bundle t)) :
    OutWf (before s enter bundle) := by
  unfold Machine.before
  split
  next e => exact (h.boundary.of_eq e).orFail hf
  · exact .ite (hg _ h) h.held

theorem MemoriesWf.issueBundle (h : MemoriesWf s) : OutWf (issueBundle s) := by
  unfold Machine.issueBundle
  refine .ite h.failNow ?_
  split
  · exact h.settle h.setMe.upd.refuseTrap.upd
  · exact .ite (h.settle h.held) h.fetchRun

theorem MemoriesWf.issuePaused_issueStore (h : MemoriesWf s) : OutWf (issuePaused.issueStore s) := by
  unfold Machine.issuePaused.issueStore
  split
  · exact h.before (fun _ k => k.setMe.enterTrap) (fun _ k => k.issueBundle)
  · exact h.issueBundle

theorem MemoriesWf.issuePaused (h : MemoriesWf s) : OutWf (issuePaused s) := by
  unfold Machine.issuePaused
  dsimp only
  split
  · exact .ite h.held h.setMe.issuePaused_issueStore
  · exact h.issuePaused_issueStore

theorem MemoriesWf.issueStop (h : MemoriesWf s) : OutWf (issueStop s) := by
  unfold Machine.issueStop
  refine .ite ?_ h.issuePaused
  split
  next e => exact h.stopTry.of_eq e
  · exact .ite h.issuePaused h.held

theorem MemoriesWf.issueInt (h : MemoriesWf s) : OutWf (issueInt s) := by
  unfold Machine.issueInt
  split
  · exact h.before (fun _ k => k.takeInt) (fun _ k => k.issueStop)
  · exact h.issueStop

theorem MemoriesWf.issueAsync (h : MemoriesWf s) : OutWf (issueAsync s) := by
  unfold Machine.issueAsync
  split
  · exact h.before (fun _ k => k.enterTrap.setMe) (fun _ k => k.issueInt)
  · exact h.issueInt

theorem MemoriesWf.issueThread (h : MemoriesWf s) : OutWf (issueThread s) := by
  unfold Machine.issueThread
  refine .ite h.held ?_
  split
  · exact h.takeDue
  · exact h.issueAsync

theorem MemoriesWf.atIssue (h : MemoriesWf s) : MemoriesWf (atIssue s tid) := h.upd

theorem MemoriesWf.afterIssue (h : MemoriesWf s) : MemoriesWf (afterIssue s) := h.upd

theorem MemoriesWf.issue (h : MemoriesWf s) : OutWf (issue tid s) := by
  unfold Machine.issue
  split
  next e => exact (h.atIssue.issueThread.of_eq e).afterIssue
  · exact h.atIssue.issueThread

end Sys2Proof
end

section
/-! ### Steps -/

namespace Sys2Proof

open Machine

variable {s s1 : State} {tid core n ctx : Nat} {addr : Word} {l : Loc} {p : BitVec 1} {d a b : BitVec 5}

theorem MemoriesWf.act {a : Act} (h : MemoriesWf s) : OutWf (act a s) := by
  unfold Machine.act
  split
  · exact .ite h.issue trivial
  · exact h.exec
  · exact h.upd
  · exact h.setClosed
  · exact h.deviceCalls
  · exact h.setClosing
  · exact h.upd
  · exact h.upd
  · exact h.takeNonce
  · exact h.giveNonce
  · exact h.dropLease
  · exact h.lateWrite
  · exact h.hostRead
  · exact h.hostNarrow
  · exact h.unknownMessage
  · exact h.droop
  · exact h.upd

theorem MemoriesWf.step (h : MemoriesWf s) : OutWf (Machine.step s) := by
  unfold Machine.step
  split
  · exact h.upd.act
  · exact h.upd.act

/-- Settles O60: the step's act keeps the form, and so does every function that it calls. -/
theorem stepKeepsMemory : Obligations.StepKeepsMemory := by
  unfold Obligations.StepKeepsMemory
  intro s t h e
  exact h.step.of_eq e

end Sys2Proof
end

section
/-! PROOFS. The encoder and the decoder (R20-R34). A word is the sum of its fields, each at its place in the word's
format (R26), so the fields of a format can be read back one by one. One theorem for each major opcode then gives the
words of its row of the opcode table, field by field, as both the encoder and the decoder have them. -/

namespace Sys2Proof

/-! ### Formats (R26) -/

/-- Format R: d, a, b, the minor `f` and the field Q. -/
def formatR (p : BitVec 1) (m : BitVec 6) (d a b : BitVec 5) (f : BitVec 6) (q : BitVec 4) : Nat :=
  m.toNat * 0x2000000 + f.toNat * 0x10 + p.toNat * 0x80000000 + d.toNat * 0x100000 + a.toNat * 0x8000 +
    b.toNat * 0x400 + q.toNat

theorem formatR_lt (p : BitVec 1) (m : BitVec 6) (d a b : BitVec 5) (f : BitVec 6) (q : BitVec 4) :
    formatR p m d a b f q < 2 ^ 32 := by
  unfold formatR
  omega

theorem fields_formatR (p : BitVec 1) (m : BitVec 6) (d a b : BitVec 5) (f : BitVec 6) (q : BitVec 4) :
    fld (formatR p m d a b f q) 31 31 = p.toNat ∧ fld (formatR p m d a b f q) 30 25 = m.toNat ∧
    fld (formatR p m d a b f q) 24 20 = d.toNat ∧ fld (formatR p m d a b f q) 19 15 = a.toNat ∧
    fld (formatR p m d a b f q) 14 10 = b.toNat ∧ fld (formatR p m d a b f q) 9 4 = f.toNat ∧
    fld (formatR p m d a b f q) 3 0 = q.toNat := by
  unfold fld formatR
  and_intros <;> omega

/-- Formats I and B: two registers, the minor or condition `f`, and 12 bits of immediate. -/
def formatI (p : BitVec 1) (m : BitVec 6) (d a : BitVec 5) (f : BitVec 3) (i : BitVec 12) : Nat :=
  m.toNat * 0x2000000 + f.toNat * 0x1000 + p.toNat * 0x80000000 + d.toNat * 0x100000 + a.toNat * 0x8000 + i.toNat

theorem formatI_lt (p : BitVec 1) (m : BitVec 6) (d a : BitVec 5) (f : BitVec 3) (i : BitVec 12) :
    formatI p m d a f i < 2 ^ 32 := by
  unfold formatI
  omega

theorem fields_formatI (p : BitVec 1) (m : BitVec 6) (d a : BitVec 5) (f : BitVec 3) (i : BitVec 12) :
    fld (formatI p m d a f i) 31 31 = p.toNat ∧ fld (formatI p m d a f i) 30 25 = m.toNat ∧
    fld (formatI p m d a f i) 24 20 = d.toNat ∧ fld (formatI p m d a f i) 19 15 = a.toNat ∧
    fld (formatI p m d a f i) 14 12 = f.toNat ∧ fld (formatI p m d a f i) 11 0 = i.toNat := by
  unfold fld formatI
  and_intros <;> omega

/-- Formats U and J: d and 20 bits of immediate. -/
def formatU (p : BitVec 1) (m : BitVec 6) (d : BitVec 5) (i : BitVec 20) : Nat :=
  m.toNat * 0x2000000 + p.toNat * 0x80000000 + d.toNat * 0x100000 + i.toNat

theorem formatU_lt (p : BitVec 1) (m : BitVec 6) (d : BitVec 5) (i : BitVec 20) :
    formatU p m d i < 2 ^ 32 := by
  unfold formatU
  omega

theorem fields_formatU (p : BitVec 1) (m : BitVec 6) (d : BitVec 5) (i : BitVec 20) :
    fld (formatU p m d i) 31 31 = p.toNat ∧ fld (formatU p m d i) 30 25 = m.toNat ∧
    fld (formatU p m d i) 24 20 = d.toNat ∧ fld (formatU p m d i) 19 0 = i.toNat := by
  unfold fld formatU
  and_intros <;> omega

/-- Format M: d, the base a, the minor `f`, the lookahead count and 8 bits of immediate. -/
def formatM (p : BitVec 1) (m : BitVec 6) (d a : BitVec 5) (f : BitVec 3) (la : BitVec 4) (i : BitVec 8) : Nat :=
  m.toNat * 0x2000000 + f.toNat * 0x1000 + p.toNat * 0x80000000 + d.toNat * 0x100000 + a.toNat * 0x8000 +
    la.toNat * 0x100 + i.toNat

theorem formatM_lt (p : BitVec 1) (m : BitVec 6) (d a : BitVec 5) (f : BitVec 3) (la : BitVec 4) (i : BitVec 8) :
    formatM p m d a f la i < 2 ^ 32 := by
  unfold formatM
  omega

theorem fields_formatM (p : BitVec 1) (m : BitVec 6) (d a : BitVec 5) (f : BitVec 3) (la : BitVec 4) (i : BitVec 8) :
    fld (formatM p m d a f la i) 31 31 = p.toNat ∧ fld (formatM p m d a f la i) 30 25 = m.toNat ∧
    fld (formatM p m d a f la i) 24 20 = d.toNat ∧ fld (formatM p m d a f la i) 19 15 = a.toNat ∧
    fld (formatM p m d a f la i) 14 12 = f.toNat ∧ fld (formatM p m d a f la i) 11 8 = la.toNat ∧
    fld (formatM p m d a f la i) 11 10 = la.toNat / 4 ∧ fld (formatM p m d a f la i) 9 8 = la.toNat % 4 ∧
    fld (formatM p m d a f la i) 7 0 = i.toNat := by
  unfold fld formatM
  and_intros <;> omega

/-- Format I of `shi`, whose immediate carries KIND and the shift amount (R28). -/
def formatS (p : BitVec 1) (m : BitVec 6) (d a : BitVec 5) (f : BitVec 3) (kind : BitVec 2) (sh : BitVec 6) : Nat :=
  m.toNat * 0x2000000 + f.toNat * 0x1000 + kind.toNat * 0x400 + p.toNat * 0x80000000 + d.toNat * 0x100000 +
    a.toNat * 0x8000 + sh.toNat

theorem formatS_lt (p : BitVec 1) (m : BitVec 6) (d a : BitVec 5) (f : BitVec 3) (kind : BitVec 2) (sh : BitVec 6) :
    formatS p m d a f kind sh < 2 ^ 32 := by
  unfold formatS
  omega

theorem fields_formatS (p : BitVec 1) (m : BitVec 6) (d a : BitVec 5) (f : BitVec 3) (kind : BitVec 2) (sh : BitVec 6) :
    fld (formatS p m d a f kind sh) 31 31 = p.toNat ∧ fld (formatS p m d a f kind sh) 30 25 = m.toNat ∧
    fld (formatS p m d a f kind sh) 24 20 = d.toNat ∧ fld (formatS p m d a f kind sh) 19 15 = a.toNat ∧
    fld (formatS p m d a f kind sh) 14 12 = f.toNat ∧ fld (formatS p m d a f kind sh) 11 10 = kind.toNat ∧
    fld (formatS p m d a f kind sh) 9 6 = 0 ∧ fld (formatS p m d a f kind sh) 5 0 = sh.toNat := by
  unfold fld formatS
  and_intros <;> omega

/-- Format I of the VCFG words, whose immediate carries a type code. -/
def formatC (p : BitVec 1) (m : BitVec 6) (d a : BitVec 5) (f : BitVec 3) (t : BitVec 4) : Nat :=
  m.toNat * 0x2000000 + f.toNat * 0x1000 + p.toNat * 0x80000000 + d.toNat * 0x100000 + a.toNat * 0x8000 + t.toNat

theorem formatC_lt (p : BitVec 1) (m : BitVec 6) (d a : BitVec 5) (f : BitVec 3) (t : BitVec 4) :
    formatC p m d a f t < 2 ^ 32 := by
  unfold formatC
  omega

theorem fields_formatC (p : BitVec 1) (m : BitVec 6) (d a : BitVec 5) (f : BitVec 3) (t : BitVec 4) :
    fld (formatC p m d a f t) 31 31 = p.toNat ∧ fld (formatC p m d a f t) 30 25 = m.toNat ∧
    fld (formatC p m d a f t) 24 20 = d.toNat ∧ fld (formatC p m d a f t) 19 15 = a.toNat ∧
    fld (formatC p m d a f t) 14 12 = f.toNat ∧ fld (formatC p m d a f t) 11 10 = 0 ∧
    fld (formatC p m d a f t) 9 4 = 0 ∧ fld (formatC p m d a f t) 9 3 = t.toNat / 8 ∧
    fld (formatC p m d a f t) 3 0 = t.toNat ∧ fld (formatC p m d a f t) 2 0 = t.toNat % 8 := by
  unfold fld formatC
  and_intros <;> omega

/-- Format V: vd, va, vb, the minor `f`, the mask `k` and the bit S. -/
def formatV (p : BitVec 1) (m : BitVec 6) (d a b : BitVec 5) (f : BitVec 6) (k : BitVec 3) (sb : BitVec 1) : Nat :=
  m.toNat * 0x2000000 + f.toNat * 0x10 + p.toNat * 0x80000000 + d.toNat * 0x100000 + a.toNat * 0x8000 +
    b.toNat * 0x400 + k.toNat * 0x2 + sb.toNat

theorem formatV_lt (p : BitVec 1) (m : BitVec 6) (d a b : BitVec 5) (f : BitVec 6) (k : BitVec 3) (sb : BitVec 1) :
    formatV p m d a b f k sb < 2 ^ 32 := by
  unfold formatV
  omega

theorem fields_formatV (p : BitVec 1) (m : BitVec 6) (d a b : BitVec 5) (f : BitVec 6) (k : BitVec 3) (sb : BitVec 1) :
    fld (formatV p m d a b f k sb) 31 31 = p.toNat ∧ fld (formatV p m d a b f k sb) 30 25 = m.toNat ∧
    fld (formatV p m d a b f k sb) 24 20 = d.toNat ∧ fld (formatV p m d a b f k sb) 19 15 = a.toNat ∧
    fld (formatV p m d a b f k sb) 14 10 = b.toNat ∧ fld (formatV p m d a b f k sb) 9 4 = f.toNat ∧
    fld (formatV p m d a b f k sb) 3 1 = k.toNat ∧ fld (formatV p m d a b f k sb) 0 0 = sb.toNat := by
  unfold fld formatV
  and_intros <;> omega

/-- Format VM: vd, a, b, the element width, the mask `k` and the mode `f`. -/
def formatVM (p : BitVec 1) (m : BitVec 6) (d a b : BitVec 5) (f : BitVec 3) (ew : BitVec 2) (k : BitVec 3) : Nat :=
  m.toNat * 0x2000000 + f.toNat + p.toNat * 0x80000000 + d.toNat * 0x100000 + a.toNat * 0x8000 + b.toNat * 0x400 +
    ew.toNat * 0x100 + k.toNat * 0x8

theorem formatVM_lt (p : BitVec 1) (m : BitVec 6) (d a b : BitVec 5) (f : BitVec 3) (ew : BitVec 2) (k : BitVec 3) :
    formatVM p m d a b f ew k < 2 ^ 32 := by
  unfold formatVM
  omega

theorem fields_formatVM (p : BitVec 1) (m : BitVec 6) (d a b : BitVec 5) (f : BitVec 3) (ew : BitVec 2) (k : BitVec 3) :
    fld (formatVM p m d a b f ew k) 31 31 = p.toNat ∧ fld (formatVM p m d a b f ew k) 30 25 = m.toNat ∧
    fld (formatVM p m d a b f ew k) 24 20 = d.toNat ∧ fld (formatVM p m d a b f ew k) 19 15 = a.toNat ∧
    fld (formatVM p m d a b f ew k) 14 10 = b.toNat ∧ fld (formatVM p m d a b f ew k) 9 8 = ew.toNat ∧
    fld (formatVM p m d a b f ew k) 7 6 = 0 ∧ fld (formatVM p m d a b f ew k) 5 3 = k.toNat ∧
    fld (formatVM p m d a b f ew k) 2 0 = f.toNat := by
  unfold fld formatVM
  and_intros <;> omega

/-- Format T: the tile `t`, the counter bit `c`, the second tile field `ts`, a, b, the minor `f` and TQ. -/
def formatT (p : BitVec 1) (m : BitVec 6) (t : BitVec 2) (c : BitVec 1) (ts : BitVec 2) (a b : BitVec 5) (f : BitVec
    6) (q : BitVec 4) : Nat :=
  m.toNat * 0x2000000 + f.toNat * 0x10 + p.toNat * 0x80000000 + t.toNat * 0x800000 + c.toNat * 0x400000 +
    ts.toNat * 0x100000 + a.toNat * 0x8000 + b.toNat * 0x400 + q.toNat

theorem formatT_lt (p : BitVec 1) (m : BitVec 6) (t : BitVec 2) (c : BitVec 1) (ts : BitVec 2) (a b : BitVec 5)
    (f : BitVec 6) (q : BitVec 4) :
    formatT p m t c ts a b f q < 2 ^ 32 := by
  unfold formatT
  omega

theorem fields_formatT (p : BitVec 1) (m : BitVec 6) (t : BitVec 2) (c : BitVec 1) (ts : BitVec 2) (a b : BitVec 5)
    (f : BitVec 6) (q : BitVec 4) :
    fld (formatT p m t c ts a b f q) 31 31 = p.toNat ∧ fld (formatT p m t c ts a b f q) 30 25 = m.toNat ∧
    fld (formatT p m t c ts a b f q) 19 15 = a.toNat ∧ fld (formatT p m t c ts a b f q) 14 10 = b.toNat ∧
    fld (formatT p m t c ts a b f q) 24 23 = t.toNat ∧ fld (formatT p m t c ts a b f q) 22 22 = c.toNat ∧
    fld (formatT p m t c ts a b f q) 21 20 = ts.toNat ∧ fld (formatT p m t c ts a b f q) 9 4 = f.toNat ∧
    fld (formatT p m t c ts a b f q) 3 0 = q.toNat := by
  unfold fld formatT
  and_intros <;> omega

/-- Format K: d, the counter a, b, the lookahead count, the scope and the minor `f`. -/
def formatK (p : BitVec 1) (m : BitVec 6) (d a b : BitVec 5) (f : BitVec 3) (la : BitVec 4) (sc : BitVec 3) : Nat :=
  m.toNat * 0x2000000 + f.toNat + p.toNat * 0x80000000 + d.toNat * 0x100000 + a.toNat * 0x8000 + b.toNat * 0x400 +
    la.toNat * 0x40 + sc.toNat * 0x8

theorem formatK_lt (p : BitVec 1) (m : BitVec 6) (d a b : BitVec 5) (f : BitVec 3) (la : BitVec 4) (sc : BitVec 3) :
    formatK p m d a b f la sc < 2 ^ 32 := by
  unfold formatK
  omega

theorem fields_formatK (p : BitVec 1) (m : BitVec 6) (d a b : BitVec 5) (f : BitVec 3) (la : BitVec 4) (sc : BitVec 3) :
    fld (formatK p m d a b f la sc) 31 31 = p.toNat ∧ fld (formatK p m d a b f la sc) 30 25 = m.toNat ∧
    fld (formatK p m d a b f la sc) 24 20 = d.toNat ∧ fld (formatK p m d a b f la sc) 19 15 = a.toNat ∧
    fld (formatK p m d a b f la sc) 14 10 = b.toNat ∧ fld (formatK p m d a b f la sc) 9 6 = la.toNat ∧
    fld (formatK p m d a b f la sc) 5 3 = sc.toNat ∧ fld (formatK p m d a b f la sc) 9 3 = la.toNat * 8 + sc.toNat ∧
    fld (formatK p m d a b f la sc) 2 0 = f.toNat := by
  unfold fld formatK
  and_intros <;> omega

/-! ### The opcode tables (R31-R33) -/

/-- The number `x` is the word of the instruction: the encoder writes it, and the decoder reads it as the
instruction. -/
abbrev IsWord (i : Instr) (x : Nat) : Prop := encode i = some x ∧ x < 2 ^ 32 ∧ decodeWord x = .ok i

/-- The words of major 0 (R31). -/
theorem sys_words :
    IsWord .svc (formatR 0 0 0 0 0 0 0) ∧
    IsWord .brk (formatR 0 0 0 0 0 1 0) ∧
    IsWord .tret (formatR 0 0 0 0 0 2 0) ∧
    (∀ a, IsWord (.pause a) (formatR 0 0 0 a 0 3 0)) := by
  refine ⟨?_, ?_, ?_, ?_⟩ <;> intros <;>
    exact ⟨by simp [formatR]; rfl, formatR_lt .., by simp [decodeWord, decodeSys, fields_formatR]⟩

/-- The words of major 1 (R31). -/
theorem sreg_words :
    (∀ p d imm, IsWord (.sread p d imm) (formatI p 1 d 0 0 imm)) ∧
    (∀ p d a imm, IsWord (.swrite p d a imm) (formatI p 1 d a 1 imm)) ∧
    (∀ p d a imm, IsWord (.sset p d a imm) (formatI p 1 d a 2 imm)) ∧
    (∀ p d a imm, IsWord (.sclr p d a imm) (formatI p 1 d a 3 imm)) := by
  and_intros <;> intros <;>
    exact ⟨by simp [formatI]; rfl, formatI_lt .., by simp [decodeWord, decodeSreg, fields_formatI]⟩

/-- The words of major 2 (R31). -/
theorem br_words :
    (∀ p a b off, IsWord (.beq p a b off) (formatI p 2 a b 0 off)) ∧
    (∀ p a b off, IsWord (.bne p a b off) (formatI p 2 a b 1 off)) ∧
    (∀ p a b off, IsWord (.blt p a b off) (formatI p 2 a b 2 off)) ∧
    (∀ p a b off, IsWord (.bge p a b off) (formatI p 2 a b 3 off)) ∧
    (∀ p a b off, IsWord (.bltu p a b off) (formatI p 2 a b 4 off)) ∧
    (∀ p a b off, IsWord (.bgeu p a b off) (formatI p 2 a b 5 off)) := by
  and_intros <;> intros <;>
    exact ⟨by simp [formatI]; rfl, formatI_lt .., by simp [decodeWord, decodeBr, fields_formatI]⟩

/-- The words of major 3 (R31). -/
theorem jal_words :
    ∀ p d off, IsWord (.jal p d off) (formatU p 3 d off) := by
  intros
  exact ⟨by simp [formatU]; rfl, formatU_lt .., by simp [decodeWord, decodeJal, fields_formatU]⟩

/-- The words of major 4 (R31). -/
theorem jalr_words :
    ∀ p d a imm, IsWord (.jalr p d a imm) (formatI p 4 d a 0 imm) := by
  intros
  exact ⟨by simp [formatI]; rfl, formatI_lt .., by simp [decodeWord, decodeJalr, fields_formatI]⟩

/-- The words of major 5 (R31). -/
theorem ld_words :
    (∀ p d a la imm, IsWord (.ldb p d a la imm) (formatM p 5 d a 0 la imm)) ∧
    (∀ p d a la imm, IsWord (.ldh p d a la imm) (formatM p 5 d a 1 la imm)) ∧
    (∀ p d a la imm, IsWord (.ldw p d a la imm) (formatM p 5 d a 2 la imm)) ∧
    (∀ p d a la imm, IsWord (.ldd p d a la imm) (formatM p 5 d a 3 la imm)) ∧
    (∀ p d a la imm, IsWord (.ldbu p d a la imm) (formatM p 5 d a 4 la imm)) ∧
    (∀ p d a la imm, IsWord (.ldhu p d a la imm) (formatM p 5 d a 5 la imm)) ∧
    (∀ p d a la imm, IsWord (.ldwu p d a la imm) (formatM p 5 d a 6 la imm)) := by
  and_intros <;> intros <;>
    exact ⟨by simp [formatM]; rfl, formatM_lt .., by simp [decodeWord, decodeLd, fields_formatM]⟩

/-- The words of major 6 (R31). -/
theorem st_words :
    (∀ p d a imm, IsWord (.stb p d a imm) (formatM p 6 d a 0 0 imm)) ∧
    (∀ p d a imm, IsWord (.sth p d a imm) (formatM p 6 d a 1 0 imm)) ∧
    (∀ p d a imm, IsWord (.stw p d a imm) (formatM p 6 d a 2 0 imm)) ∧
    (∀ p d a imm, IsWord (.std p d a imm) (formatM p 6 d a 3 0 imm)) := by
  and_intros <;> intros <;>
    exact ⟨by simp [formatM]; rfl, formatM_lt .., by simp [decodeWord, decodeSt, fields_formatM]⟩

/-- The words of major 7 (R31). -/
theorem pcadd_words :
    ∀ p d imm, IsWord (.pcadd p d imm) (formatU p 7 d imm) := by
  intros
  exact ⟨by simp [formatU]; rfl, formatU_lt .., by simp [decodeWord, decodePcadd, fields_formatU]⟩

theorem vset_word : ∀ p d a t, IsWord (.vset p d a t) (formatC p 8 d a 0 t) := by
  intros
  exact ⟨by simp [formatC]; rfl, formatC_lt .., by simp [decodeWord, decodeVcfg, fields_formatC]⟩

theorem vsetmt_word : ∀ p d t, IsWord (.vsetmt p d t) (formatC p 8 d 0 1 (t.setWidth 4)) := by
  intro p d t
  have h16 : t.toNat % 16 = t.toNat := by omega
  have h8 : t.toNat % 8 = t.toNat := by omega
  exact ⟨by simp [formatC, h16]; rfl, formatC_lt ..,
    by simp [decodeWord, decodeVcfg, fields_formatC, h16, h8, t.isLt]⟩

/-- The words of major 8 (R31). -/
theorem vcfg_words :
    (∀ p d a t, IsWord (.vset p d a t) (formatC p 8 d a 0 t)) ∧
    (∀ p d t, IsWord (.vsetmt p d t) (formatC p 8 d 0 1 (t.setWidth 4))) :=
  ⟨vset_word, vsetmt_word⟩

/-- The words of major 9 (R31). -/
theorem vld_words :
    (∀ p d a ew k, IsWord (.vld p d a ew k) (formatVM p 9 d a 0 0 ew k)) ∧
    (∀ p d a b ew k, IsWord (.vlds p d a b ew k) (formatVM p 9 d a b 1 ew k)) ∧
    (∀ p d a b ew k, IsWord (.vldx p d a b ew k) (formatVM p 9 d a b 2 ew k)) ∧
    (∀ p d a ew k, IsWord (.vldff p d a ew k) (formatVM p 9 d a 0 3 ew k)) ∧
    (∀ p d a b ew k, IsWord (.vldg p d a b ew k) (formatVM p 9 d a b 4 ew k)) ∧
    (∀ p d a ew k, IsWord (.vldb p d a ew k) (formatVM p 9 d a 0 5 ew k)) := by
  and_intros <;> intros <;>
    exact ⟨by simp [formatVM]; rfl, formatVM_lt .., by simp [decodeWord, decodeVld, fields_formatVM]⟩

/-- The words of major 10 (R31). -/
theorem vst_words :
    (∀ p d a ew k, IsWord (.vst p d a ew k) (formatVM p 10 d a 0 0 ew k)) ∧
    (∀ p d a b ew k, IsWord (.vsts p d a b ew k) (formatVM p 10 d a b 1 ew k)) ∧
    (∀ p d a b ew k, IsWord (.vstx p d a b ew k) (formatVM p 10 d a b 2 ew k)) ∧
    (∀ p d a b ew k, IsWord (.vstxa p d a b ew k) (formatVM p 10 d a b 3 ew k)) ∧
    (∀ p d a b ew k, IsWord (.vstxf p d a b ew k) (formatVM p 10 d a b 4 ew k)) := by
  and_intros <;> intros <;>
    exact ⟨by simp [formatVM]; rfl, formatVM_lt .., by simp [decodeWord, decodeVst, fields_formatVM]⟩

/-- The words of major 11 (R31). -/
theorem tile_words :
    (∀ p t c, IsWord (.tileZero p t c) (formatT p 11 t c 0 0 0 0 0)) ∧
    (∀ p t c a b y, IsWord (.tileLd p t c a b y) (formatT p 11 t c 0 a b 1 y)) ∧
    (∀ p t c a b y, IsWord (.tileSt p t c a b y) (formatT p 11 t c 0 a b 2 y)) ∧
    (∀ p t c a b y, IsWord (.tileLdx p t c a b y) (formatT p 11 t c 0 a b 3 y)) ∧
    (∀ p t c a b y, IsWord (.tileStx p t c a b y) (formatT p 11 t c 0 a b 4 y)) ∧
    (∀ p t c a b y, IsWord (.tileStxa p t c a b y) (formatT p 11 t c 0 a b 5 y)) ∧
    (∀ p t c a b y, IsWord (.tileMma p t c a b y) (formatT p 11 t c 0 a b 6 y)) ∧
    (∀ p t c a b y, IsWord (.tileMmax p t c a b y) (formatT p 11 t c 0 a b 7 y)) ∧
    (∀ p t c a b y, IsWord (.tileGmma p t c a b y) (formatT p 11 t c 0 a b 8 y)) ∧
    (∀ p t c a v y, IsWord (.tileRowv p t c a v y) (formatT p 11 t c 0 a v 9 y)) ∧
    (∀ p t c a v y, IsWord (.tileVrow p t c a v y) (formatT p 11 t c 0 a v 10 y)) ∧
    (∀ p t c a b y, IsWord (.tileQ p t c a b y) (formatT p 11 t c 0 a b 11 y)) ∧
    (∀ p t c, IsWord (.tileChol p t c) (formatT p 11 t c 0 0 0 12 0)) ∧
    (∀ p t c ts, IsWord (.tileTrsm p t c ts) (formatT p 11 t c ts 0 0 13 0)) ∧
    (∀ p, IsWord (.tileRel p) (formatR p 11 0 0 0 14 0)) := by
  and_intros <;> intros <;>
    exact ⟨by simp [formatR, formatT]; rfl, by simp only [formatR_lt, formatT_lt],
      by simp [decodeWord, decodeTile, fields_formatR, fields_formatT]⟩

/-- The words of major 12 (R31). -/
theorem ctr_words :
    (∀ p a b sc, IsWord (.ctrAdd p a b sc) (formatK p 12 0 a b 0 0 sc)) ∧
    (∀ p d a b la sc, IsWord (.ctrFadd p d a b la sc) (formatK p 12 d a b 1 la sc)) ∧
    (∀ p a b sc, IsWord (.ctrWait p a b sc) (formatK p 12 0 a b 2 0 sc)) ∧
    (∀ p d a b la sc, IsWord (.ctrTest p d a b la sc) (formatK p 12 d a b 3 la sc)) ∧
    (∀ p d a la, IsWord (.ctrRead p d a la) (formatK p 12 d a 0 4 la 0)) ∧
    (∀ p k a sc, IsWord (.ctrArrive p k a sc) (formatK p 12 k a 0 5 0 sc)) ∧
    (∀ p k a b sc, IsWord (.ctrAw p k a b sc) (formatK p 12 k a b 6 0 sc)) ∧
    (∀ p a sc, IsWord (.ctrReset p a sc) (formatK p 12 0 a 0 7 0 sc)) := by
  and_intros <;> intros <;>
    exact ⟨by simp [formatK]; rfl, formatK_lt .., by simp [decodeWord, decodeCtr, fields_formatK]⟩

/-- The words of major 13 (R31). -/
theorem ctrx_words :
    (∀ p k a b sc, IsWord (.ctrVadd p k a b sc) (formatK p 13 k a b 0 0 sc)) ∧
    (∀ p d a b, IsWord (.ctrArm p d a b) (formatK p 13 d a b 1 0 0)) ∧
    (∀ p d a b la, IsWord (.ctrHome p d a b la) (formatK p 13 d a b 2 la 0)) := by
  and_intros <;> intros <;>
    exact ⟨by simp [formatK]; rfl, formatK_lt .., by simp [decodeWord, decodeCtrx, fields_formatK]⟩

/-- The words of major 14 (R31). -/
theorem grp_words :
    (∀ p d a, IsWord (.grpNew p d a) (formatR p 14 d a 0 0 0)) ∧
    (∀ p d a b, IsWord (.grpJoin p d a b) (formatR p 14 d a b 1 0)) ∧
    (∀ p d, IsWord (.grpLeave p d) (formatR p 14 d 0 0 2 0)) ∧
    (∀ p d a, IsWord (.grpSize p d a) (formatR p 14 d a 0 3 0)) ∧
    (∀ p d, IsWord (.grpRank p d) (formatR p 14 d 0 0 4 0)) ∧
    (∀ p d a, IsWord (.grpPin p d a) (formatR p 14 d a 0 5 0)) ∧
    (∀ p d a, IsWord (.grpUnpin p d a) (formatR p 14 d a 0 6 0)) ∧
    (∀ p d a b, IsWord (.grpMcast p d a b) (formatR p 14 d a b 7 0)) ∧
    (∀ p d a b, IsWord (.grpStop p d a b) (formatR p 14 d a b 8 0)) ∧
    (∀ p d a, IsWord (.grpGo p d a) (formatR p 14 d a 0 9 0)) ∧
    (∀ p d a, IsWord (.grpKill p d a) (formatR p 14 d a 0 10 0)) := by
  and_intros <;> intros <;>
    exact ⟨by simp [formatR]; rfl, formatR_lt .., by simp [decodeWord, decodeGrp, fields_formatR]⟩

/-- The words of major 15 (R31). -/
theorem thr_words :
    (∀ p d a b, IsWord (.thrSpawn p d a b) (formatR p 15 d a b 0 0)) ∧
    (∀ p, IsWord (.thrEnd p) (formatR p 15 0 0 0 1 0)) ∧
    (∀ p d, IsWord (.thrSelf p d) (formatR p 15 d 0 0 2 0)) ∧
    (∀ p d a, IsWord (.thrStop p d a) (formatR p 15 d a 0 3 0)) ∧
    (∀ p d a, IsWord (.thrGo p d a) (formatR p 15 d a 0 4 0)) ∧
    (∀ p d a b, IsWord (.thrSave p d a b) (formatR p 15 d a b 5 0)) ∧
    (∀ p d a b, IsWord (.thrLoad p d a b) (formatR p 15 d a b 6 0)) := by
  and_intros <;> intros <;>
    exact ⟨by simp [formatR]; rfl, formatR_lt .., by simp [decodeWord, decodeThr, fields_formatR]⟩

/-- The words of major 16 (R31). -/
theorem xfer_words :
    (∀ p d a b, IsWord (.xferCopy p d a b) (formatR p 16 d a b 0 0)) ∧
    (∀ p d a b, IsWord (.xferTensor p d a b) (formatR p 16 d a b 1 0)) ∧
    (∀ p d a b, IsWord (.xferMcast p d a b) (formatR p 16 d a b 2 0)) ∧
    (∀ p d a b, IsWord (.xferFill p d a b) (formatR p 16 d a b 3 0)) ∧
    (∀ p d a b, IsWord (.xferSend p d a b) (formatR p 16 d a b 4 0)) := by
  and_intros <;> intros <;>
    exact ⟨by simp [formatR]; rfl, formatR_lt .., by simp [decodeWord, decodeXfer, fields_formatR]⟩

/-- The words of major 17 (R31). -/
theorem que_words :
    (∀ p d a b, IsWord (.qLaunch p d a b) (formatR p 17 d a b 0 0)) ∧
    (∀ p d a b, IsWord (.qCall p d a b) (formatR p 17 d a b 1 0)) ∧
    (∀ p d a b, IsWord (.qTake p d a b) (formatR p 17 d a b 2 0)) ∧
    (∀ p d a b, IsWord (.qDone p d a b) (formatR p 17 d a b 3 0)) := by
  and_intros <;> intros <;>
    exact ⟨by simp [formatR]; rfl, formatR_lt .., by simp [decodeWord, decodeQue, fields_formatR]⟩

/-- The words of major 18 (R31). -/
theorem amo_words :
    (∀ p d a b q, IsWord (.amoAdd p d a b q) (formatR p 18 d a b 0 q)) ∧
    (∀ p d a b q, IsWord (.amoAnd p d a b q) (formatR p 18 d a b 1 q)) ∧
    (∀ p d a b q, IsWord (.amoOr p d a b q) (formatR p 18 d a b 2 q)) ∧
    (∀ p d a b q, IsWord (.amoXor p d a b q) (formatR p 18 d a b 3 q)) ∧
    (∀ p d a b q, IsWord (.amoMin p d a b q) (formatR p 18 d a b 4 q)) ∧
    (∀ p d a b q, IsWord (.amoMax p d a b q) (formatR p 18 d a b 5 q)) ∧
    (∀ p d a b q, IsWord (.amoMinu p d a b q) (formatR p 18 d a b 6 q)) ∧
    (∀ p d a b q, IsWord (.amoMaxu p d a b q) (formatR p 18 d a b 7 q)) ∧
    (∀ p d a b q, IsWord (.amoSwap p d a b q) (formatR p 18 d a b 8 q)) ∧
    (∀ p d a b q, IsWord (.amoCas p d a b q) (formatR p 18 d a b 9 q)) ∧
    (∀ p d a b q, IsWord (.amoFadd p d a b q) (formatR p 18 d a b 10 q)) ∧
    (∀ p a b q, IsWord (.redAdd p a b q) (formatR p 18 0 a b 11 q)) ∧
    (∀ p a b q, IsWord (.redFadd p a b q) (formatR p 18 0 a b 12 q)) ∧
    (∀ p a b q, IsWord (.redMin p a b q) (formatR p 18 0 a b 13 q)) ∧
    (∀ p a b q, IsWord (.redMax p a b q) (formatR p 18 0 a b 14 q)) := by
  and_intros <;> intros <;>
    exact ⟨by simp [formatR]; rfl, formatR_lt .., by simp [decodeWord, decodeAmo, fields_formatR]⟩

/-- The words of major 19 (R31). -/
theorem mem_words :
    (∀ p b, IsWord (.fence p b) (formatR p 19 0 0 b 0 0)) ∧
    (∀ p, IsWord (.stDrain p) (formatR p 19 0 0 0 1 0)) ∧
    (∀ p a b, IsWord (.lineInv p a b) (formatR p 19 0 a b 2 0)) ∧
    (∀ p a b, IsWord (.lineWb p a b) (formatR p 19 0 a b 3 0)) ∧
    (∀ p a b, IsWord (.pref p a b) (formatR p 19 0 a b 4 0)) ∧
    (∀ p d a, IsWord (.haloDecl p d a) (formatR p 19 d a 0 5 0)) ∧
    (∀ p a, IsWord (.haloDrop p a) (formatR p 19 0 a 0 6 0)) ∧
    (∀ p a, IsWord (.haloPush p a) (formatR p 19 0 a 0 7 0)) := by
  and_intros <;> intros <;>
    exact ⟨by simp [formatR]; rfl, formatR_lt .., by simp [decodeWord, decodeMem, fields_formatR]⟩

/-- The words of major 20 (R31). -/
theorem xlat_words :
    (∀ p, IsWord (.vmFence p) (formatR p 20 0 0 0 0 0)) ∧
    (∀ p a b, IsWord (.vmInv p a b) (formatR p 20 0 a b 1 0)) ∧
    (∀ p a b, IsWord (.vmGinv p a b) (formatR p 20 0 a b 2 0)) ∧
    (∀ p d a b, IsWord (.vmProbe p d a b) (formatR p 20 d a b 3 0)) := by
  and_intros <;> intros <;>
    exact ⟨by simp [formatR]; rfl, formatR_lt .., by simp [decodeWord, decodeXlat, fields_formatR]⟩

/-- The words of major 21 (R31). -/
theorem ctx_words :
    (∀ p d a, IsWord (.ctxSeal p d a) (formatR p 21 d a 0 0 0)) ∧
    (∀ p d a, IsWord (.ctxUnseal p d a) (formatR p 21 d a 0 1 0)) ∧
    (∀ p d a b, IsWord (.ctxExtend p d a b) (formatR p 21 d a b 2 0)) ∧
    (∀ p d a b, IsWord (.ctxQuote p d a b) (formatR p 21 d a b 3 0)) := by
  and_intros <;> intros <;>
    exact ⟨by simp [formatR]; rfl, formatR_lt .., by simp [decodeWord, decodeCtx, fields_formatR]⟩

/-- The words of major 32 (R32). -/
theorem ialu_words :
    (∀ d a b, IsWord (.add d a b) (formatR 0 32 d a b 0 0)) ∧
    (∀ d a b, IsWord (.sub d a b) (formatR 0 32 d a b 1 0)) ∧
    (∀ d a b, IsWord (.and d a b) (formatR 0 32 d a b 2 0)) ∧
    (∀ d a b, IsWord (.or d a b) (formatR 0 32 d a b 3 0)) ∧
    (∀ d a b, IsWord (.xor d a b) (formatR 0 32 d a b 4 0)) ∧
    (∀ d a b, IsWord (.andn d a b) (formatR 0 32 d a b 5 0)) ∧
    (∀ d a b, IsWord (.orn d a b) (formatR 0 32 d a b 6 0)) ∧
    (∀ d a b, IsWord (.sll d a b) (formatR 0 32 d a b 7 0)) ∧
    (∀ d a b, IsWord (.srl d a b) (formatR 0 32 d a b 8 0)) ∧
    (∀ d a b, IsWord (.sra d a b) (formatR 0 32 d a b 9 0)) ∧
    (∀ d a b, IsWord (.slt d a b) (formatR 0 32 d a b 10 0)) ∧
    (∀ d a b, IsWord (.sltu d a b) (formatR 0 32 d a b 11 0)) ∧
    (∀ d a b, IsWord (.min d a b) (formatR 0 32 d a b 12 0)) ∧
    (∀ d a b, IsWord (.max d a b) (formatR 0 32 d a b 13 0)) ∧
    (∀ d a b, IsWord (.minu d a b) (formatR 0 32 d a b 14 0)) ∧
    (∀ d a b, IsWord (.maxu d a b) (formatR 0 32 d a b 15 0)) ∧
    (∀ d a b, IsWord (.mul d a b) (formatR 0 32 d a b 16 0)) ∧
    (∀ d a b q, IsWord (.mulh d a b q) (formatR 0 32 d a b 17 q)) ∧
    (∀ d a b q, IsWord (.mulhu d a b q) (formatR 0 32 d a b 18 q)) ∧
    (∀ d a b q, IsWord (.div d a b q) (formatR 0 32 d a b 19 q)) ∧
    (∀ d a b q, IsWord (.divu d a b q) (formatR 0 32 d a b 20 q)) ∧
    (∀ d a b q, IsWord (.rem d a b q) (formatR 0 32 d a b 21 q)) ∧
    (∀ d a b q, IsWord (.remu d a b q) (formatR 0 32 d a b 22 q)) ∧
    (∀ d a b, IsWord (.addw d a b) (formatR 0 32 d a b 23 0)) ∧
    (∀ d a b, IsWord (.subw d a b) (formatR 0 32 d a b 24 0)) ∧
    (∀ d a, IsWord (.clz d a) (formatR 0 32 d a 0 25 0)) ∧
    (∀ d a, IsWord (.ctz d a) (formatR 0 32 d a 0 26 0)) ∧
    (∀ d a, IsWord (.cpop d a) (formatR 0 32 d a 0 27 0)) ∧
    (∀ d a b, IsWord (.rol d a b) (formatR 0 32 d a b 28 0)) ∧
    (∀ d a b, IsWord (.ror d a b) (formatR 0 32 d a b 29 0)) := by
  and_intros <;> intros <;>
    exact ⟨by simp [formatR]; rfl, formatR_lt .., by simp [decodeWord, decodeIalu, fields_formatR]⟩

/-- The words of major 33 (R32). -/
theorem ialui_words :
    (∀ d a imm, IsWord (.addi d a imm) (formatI 0 33 d a 0 imm)) ∧
    (∀ d a imm, IsWord (.slti d a imm) (formatI 0 33 d a 1 imm)) ∧
    (∀ d a imm, IsWord (.sltiu d a imm) (formatI 0 33 d a 2 imm)) ∧
    (∀ d a imm, IsWord (.xori d a imm) (formatI 0 33 d a 3 imm)) ∧
    (∀ d a imm, IsWord (.ori d a imm) (formatI 0 33 d a 4 imm)) ∧
    (∀ d a imm, IsWord (.andi d a imm) (formatI 0 33 d a 5 imm)) ∧
    (∀ d a sh, IsWord (.slli d a sh) (formatS 0 33 d a 6 0 sh)) ∧
    (∀ d a sh, IsWord (.srli d a sh) (formatS 0 33 d a 6 1 sh)) ∧
    (∀ d a sh, IsWord (.srai d a sh) (formatS 0 33 d a 6 2 sh)) ∧
    (∀ d a imm, IsWord (.addiw d a imm) (formatI 0 33 d a 7 imm)) := by
  and_intros <;> intros <;>
    exact ⟨by simp [formatI, formatS]; rfl, by simp only [formatI_lt, formatS_lt],
      by simp [decodeWord, decodeIalui, fields_formatI, fields_formatS]⟩

/-- The words of major 34 (R32). -/
theorem ldhi_words :
    ∀ d imm, IsWord (.ldhi d imm) (formatU 0 34 d imm) := by
  intros
  exact ⟨by simp [formatU]; rfl, formatU_lt .., by simp [decodeWord, decodeLdhi, fields_formatU]⟩

/-- The words of major 35 (R33). -/
theorem fp_words :
    (∀ d a b, IsWord (.faddS d a b) (formatR 0 35 d a b 0 0)) ∧
    (∀ d a b, IsWord (.fsubS d a b) (formatR 0 35 d a b 1 0)) ∧
    (∀ d a b, IsWord (.fmulS d a b) (formatR 0 35 d a b 2 0)) ∧
    (∀ d a b q, IsWord (.fdivS d a b q) (formatR 0 35 d a b 3 q)) ∧
    (∀ d a q, IsWord (.fsqrtS d a q) (formatR 0 35 d a 0 4 q)) ∧
    (∀ d a b, IsWord (.fminS d a b) (formatR 0 35 d a b 5 0)) ∧
    (∀ d a b, IsWord (.fmaxS d a b) (formatR 0 35 d a b 6 0)) ∧
    (∀ d a b, IsWord (.fmaddS d a b) (formatR 0 35 d a b 7 0)) ∧
    (∀ d a b, IsWord (.feqS d a b) (formatR 0 35 d a b 8 0)) ∧
    (∀ d a b, IsWord (.fltS d a b) (formatR 0 35 d a b 9 0)) ∧
    (∀ d a b, IsWord (.fleS d a b) (formatR 0 35 d a b 10 0)) ∧
    (∀ d a, IsWord (.fclassS d a) (formatR 0 35 d a 0 11 0)) ∧
    (∀ d a, IsWord (.fcvtSd d a) (formatR 0 35 d a 0 12 0)) ∧
    (∀ d a, IsWord (.fcvtDs d a) (formatR 0 35 d a 0 13 0)) ∧
    (∀ d a, IsWord (.fcvtSl d a) (formatR 0 35 d a 0 14 0)) ∧
    (∀ d a, IsWord (.fcvtLs d a) (formatR 0 35 d a 0 15 0)) ∧
    (∀ d a, IsWord (.fcvtDl d a) (formatR 0 35 d a 0 16 0)) ∧
    (∀ d a, IsWord (.fcvtLd d a) (formatR 0 35 d a 0 17 0)) ∧
    (∀ d a b, IsWord (.faddD d a b) (formatR 0 35 d a b 32 0)) ∧
    (∀ d a b, IsWord (.fsubD d a b) (formatR 0 35 d a b 33 0)) ∧
    (∀ d a b, IsWord (.fmulD d a b) (formatR 0 35 d a b 34 0)) ∧
    (∀ d a b q, IsWord (.fdivD d a b q) (formatR 0 35 d a b 35 q)) ∧
    (∀ d a q, IsWord (.fsqrtD d a q) (formatR 0 35 d a 0 36 q)) ∧
    (∀ d a b, IsWord (.fminD d a b) (formatR 0 35 d a b 37 0)) ∧
    (∀ d a b, IsWord (.fmaxD d a b) (formatR 0 35 d a b 38 0)) ∧
    (∀ d a b, IsWord (.fmaddD d a b) (formatR 0 35 d a b 39 0)) ∧
    (∀ d a b, IsWord (.feqD d a b) (formatR 0 35 d a b 40 0)) ∧
    (∀ d a b, IsWord (.fltD d a b) (formatR 0 35 d a b 41 0)) ∧
    (∀ d a b, IsWord (.fleD d a b) (formatR 0 35 d a b 42 0)) ∧
    (∀ d a, IsWord (.fclassD d a) (formatR 0 35 d a 0 43 0)) := by
  and_intros <;> intros <;>
    exact ⟨by simp [formatR]; rfl, formatR_lt .., by simp [decodeWord, decodeFp, fields_formatR]⟩

/-- The words of major 36 (R32). -/
theorem vint_words :
    (∀ d a b k sb, IsWord (.vadd d a b k sb) (formatV 0 36 d a b 0 k sb)) ∧
    (∀ d a b k sb, IsWord (.vsub d a b k sb) (formatV 0 36 d a b 1 k sb)) ∧
    (∀ d a b k sb, IsWord (.vmul d a b k sb) (formatV 0 36 d a b 2 k sb)) ∧
    (∀ d a b k sb, IsWord (.vmulh d a b k sb) (formatV 0 36 d a b 3 k sb)) ∧
    (∀ d a b k sb, IsWord (.vmin d a b k sb) (formatV 0 36 d a b 4 k sb)) ∧
    (∀ d a b k sb, IsWord (.vmax d a b k sb) (formatV 0 36 d a b 5 k sb)) ∧
    (∀ d a b k sb, IsWord (.vminu d a b k sb) (formatV 0 36 d a b 6 k sb)) ∧
    (∀ d a b k sb, IsWord (.vmaxu d a b k sb) (formatV 0 36 d a b 7 k sb)) ∧
    (∀ d a b k sb, IsWord (.vand d a b k sb) (formatV 0 36 d a b 8 k sb)) ∧
    (∀ d a b k sb, IsWord (.vor d a b k sb) (formatV 0 36 d a b 9 k sb)) ∧
    (∀ d a b k sb, IsWord (.vxor d a b k sb) (formatV 0 36 d a b 10 k sb)) ∧
    (∀ d a b k sb, IsWord (.vsll d a b k sb) (formatV 0 36 d a b 11 k sb)) ∧
    (∀ d a b k sb, IsWord (.vsrl d a b k sb) (formatV 0 36 d a b 12 k sb)) ∧
    (∀ d a b k sb, IsWord (.vsra d a b k sb) (formatV 0 36 d a b 13 k sb)) ∧
    (∀ d a b k sb, IsWord (.vsadd d a b k sb) (formatV 0 36 d a b 14 k sb)) ∧
    (∀ d a b k sb, IsWord (.vssub d a b k sb) (formatV 0 36 d a b 15 k sb)) ∧
    (∀ d a b k sb, IsWord (.vmacc d a b k sb) (formatV 0 36 d a b 16 k sb)) ∧
    (∀ d a b k sb, IsWord (.vdot4 d a b k sb) (formatV 0 36 d a b 17 k sb)) := by
  and_intros <;> intros <;>
    exact ⟨by simp [formatV]; rfl, formatV_lt .., by simp [decodeWord, decodeVint, fields_formatV]⟩

/-- The words of major 37 (R32). -/
theorem vfp_words :
    (∀ d a b k sb, IsWord (.vfadd d a b k sb) (formatV 0 37 d a b 0 k sb)) ∧
    (∀ d a b k sb, IsWord (.vfsub d a b k sb) (formatV 0 37 d a b 1 k sb)) ∧
    (∀ d a b k sb, IsWord (.vfmul d a b k sb) (formatV 0 37 d a b 2 k sb)) ∧
    (∀ d a b k sb, IsWord (.vfdiv d a b k sb) (formatV 0 37 d a b 3 k sb)) ∧
    (∀ d a k, IsWord (.vfsqrt d a k) (formatV 0 37 d a 0 4 k 0)) ∧
    (∀ d a b k sb, IsWord (.vfmin d a b k sb) (formatV 0 37 d a b 5 k sb)) ∧
    (∀ d a b k sb, IsWord (.vfmax d a b k sb) (formatV 0 37 d a b 6 k sb)) ∧
    (∀ d a b k sb, IsWord (.vfma d a b k sb) (formatV 0 37 d a b 7 k sb)) ∧
    (∀ d a b k sb, IsWord (.vfnma d a b k sb) (formatV 0 37 d a b 8 k sb)) ∧
    (∀ d a k, IsWord (.vfabs d a k) (formatV 0 37 d a 0 9 k 0)) ∧
    (∀ d a k, IsWord (.vfneg d a k) (formatV 0 37 d a 0 10 k 0)) := by
  and_intros <;> intros <;>
    exact ⟨by simp [formatV]; rfl, formatV_lt .., by simp [decodeWord, decodeVfp, fields_formatV]⟩

/-- The words of major 38 (R32). -/
theorem vcmp_words :
    (∀ d a b k sb, IsWord (.vceq d a b k sb) (formatV 0 38 d a b 0 k sb)) ∧
    (∀ d a b k sb, IsWord (.vcne d a b k sb) (formatV 0 38 d a b 1 k sb)) ∧
    (∀ d a b k sb, IsWord (.vclt d a b k sb) (formatV 0 38 d a b 2 k sb)) ∧
    (∀ d a b k sb, IsWord (.vcle d a b k sb) (formatV 0 38 d a b 3 k sb)) ∧
    (∀ d a b k sb, IsWord (.vcltu d a b k sb) (formatV 0 38 d a b 4 k sb)) ∧
    (∀ d a b k sb, IsWord (.vcleu d a b k sb) (formatV 0 38 d a b 5 k sb)) ∧
    (∀ d a b k sb, IsWord (.vfceq d a b k sb) (formatV 0 38 d a b 6 k sb)) ∧
    (∀ d a b k sb, IsWord (.vfclt d a b k sb) (formatV 0 38 d a b 7 k sb)) ∧
    (∀ d a b k sb, IsWord (.vfcle d a b k sb) (formatV 0 38 d a b 8 k sb)) ∧
    (∀ d a b k sb, IsWord (.vfcun d a b k sb) (formatV 0 38 d a b 9 k sb)) := by
  and_intros <;> intros <;>
    exact ⟨by simp [formatV]; rfl, formatV_lt .., by simp [decodeWord, decodeVcmp, fields_formatV]⟩

/-- The words of major 39 (R32). -/
theorem vmsk_words :
    (∀ d a b, IsWord (.mand d a b) (formatR 0 39 d a b 0 0)) ∧
    (∀ d a b, IsWord (.mor d a b) (formatR 0 39 d a b 1 0)) ∧
    (∀ d a b, IsWord (.mxor d a b) (formatR 0 39 d a b 2 0)) ∧
    (∀ d a b, IsWord (.mandn d a b) (formatR 0 39 d a b 3 0)) ∧
    (∀ d a, IsWord (.mnot d a) (formatR 0 39 d a 0 4 0)) ∧
    (∀ d a k, IsWord (.mpop d a k) (formatV 0 39 d a 0 5 k 0)) ∧
    (∀ d a k, IsWord (.mfirst d a k) (formatV 0 39 d a 0 6 k 0)) ∧
    (∀ d a k, IsWord (.miota d a k) (formatV 0 39 d a 0 7 k 0)) ∧
    (∀ d a, IsWord (.mset d a) (formatR 0 39 d a 0 8 0)) := by
  and_intros <;> intros <;>
    exact ⟨by simp [formatR, formatV]; rfl, by simp only [formatR_lt, formatV_lt],
      by simp [decodeWord, decodeVmsk, fields_formatR, fields_formatV]⟩

/-- The words of major 40 (R32). -/
theorem vred_words :
    (∀ d a b k sb, IsWord (.vredsum d a b k sb) (formatV 0 40 d a b 0 k sb)) ∧
    (∀ d a b k sb, IsWord (.vredmin d a b k sb) (formatV 0 40 d a b 1 k sb)) ∧
    (∀ d a b k sb, IsWord (.vredmax d a b k sb) (formatV 0 40 d a b 2 k sb)) ∧
    (∀ d a b k sb, IsWord (.vfredo d a b k sb) (formatV 0 40 d a b 3 k sb)) ∧
    (∀ d a b k sb, IsWord (.vfredt d a b k sb) (formatV 0 40 d a b 4 k sb)) ∧
    (∀ d a b k sb, IsWord (.vfredmin d a b k sb) (formatV 0 40 d a b 5 k sb)) ∧
    (∀ d a b k sb, IsWord (.vfredmax d a b k sb) (formatV 0 40 d a b 6 k sb)) := by
  and_intros <;> intros <;>
    exact ⟨by simp [formatV]; rfl, formatV_lt .., by simp [decodeWord, decodeVred, fields_formatV]⟩

/-- The words of major 41 (R32) but those that name a general register by S = 1. -/
theorem vperm_words :
    (∀ d a b k, IsWord (.vrgather d a b k) (formatV 0 41 d a b 2 k 0)) ∧
    (∀ d a k, IsWord (.vcompress d a k) (formatV 0 41 d a 0 3 k 0)) ∧
    (∀ d a b, IsWord (.vmvgv d a b) (formatR 0 41 d a b 5 0)) ∧
    (∀ d a b, IsWord (.vmvvg d a b) (formatR 0 41 d a b 6 0)) ∧
    (∀ d k, IsWord (.vid d k) (formatV 0 41 d 0 0 7 k 0)) ∧
    (∀ d a b k sb, IsWord (.vmerge d a b k sb) (formatV 0 41 d a b 8 k sb)) ∧
    (∀ d b k sb, IsWord (.vmv d b k sb) (formatV 0 41 d 0 b 9 k sb)) := by
  and_intros <;> intros <;>
    exact ⟨by simp [formatR, formatV]; rfl, by simp only [formatR_lt, formatV_lt],
      by simp [decodeWord, decodeVperm, fields_formatR, fields_formatV]⟩

/-- The words of major 41 (R32) that name a general register by S = 1. -/
theorem slide_words :
    (∀ d a b k, IsWord (.vslup d a b k) (formatV 0 41 d a b 0 k 1)) ∧
    (∀ d a b k, IsWord (.vsldn d a b k) (formatV 0 41 d a b 1 k 1)) ∧
    (∀ d a b k, IsWord (.vbcast d a b k) (formatV 0 41 d a b 4 k 1)) := by
  and_intros <;> intros <;>
    exact ⟨congrArg some (by simp [wordVslup, wordVsldn, wordVbcast, formatV]; omega), formatV_lt ..,
      by simp [decodeWord, decodeVperm, fields_formatV]⟩

/-- The words of major 42 (R32). -/
theorem vcvt_words :
    (∀ d a t k, IsWord (.vcvtN d a t k) (formatV 0 42 d a t 0 k 0)) ∧
    (∀ d a t k, IsWord (.vcvtW d a t k) (formatV 0 42 d a t 1 k 0)) ∧
    (∀ d a t k, IsWord (.vcvtFi d a t k) (formatV 0 42 d a t 2 k 0)) ∧
    (∀ d a t k, IsWord (.vcvtIf d a t k) (formatV 0 42 d a t 3 k 0)) ∧
    (∀ d a b, IsWord (.vcvtQ4 d a b) (formatR 0 42 d a b 4 0)) ∧
    (∀ d a b, IsWord (.vcvtQ8 d a b) (formatR 0 42 d a b 5 0)) := by
  and_intros <;> intros <;>
    exact ⟨by simp [formatR, formatV]; rfl, by simp only [formatR_lt, formatV_lt],
      by simp [decodeWord, decodeVcvt, fields_formatR, fields_formatV]⟩

/-! ### Decode of encode -/

/-- Settles O54: an instruction that has a word stands in the table of its major opcode; an event has none. -/
theorem encodeDecode : Obligations.EncodeDecode := by
  unfold Obligations.EncodeDecode
  intro i w _
  revert w
  cases i with
  | svc | brk | tret | pause =>
    simp only [sys_words, Option.some.injEq, forall_eq', and_self]
  | sread | swrite | sset | sclr =>
    simp only [sreg_words, Option.some.injEq, forall_eq', and_self]
  | beq | bne | blt | bge | bltu | bgeu =>
    simp only [br_words, Option.some.injEq, forall_eq', and_self]
  | jal =>
    simp only [jal_words, Option.some.injEq, forall_eq', and_self]
  | jalr =>
    simp only [jalr_words, Option.some.injEq, forall_eq', and_self]
  | ldb | ldh | ldw | ldd | ldbu | ldhu | ldwu =>
    simp only [ld_words, Option.some.injEq, forall_eq', and_self]
  | stb | sth | stw | std =>
    simp only [st_words, Option.some.injEq, forall_eq', and_self]
  | pcadd =>
    simp only [pcadd_words, Option.some.injEq, forall_eq', and_self]
  | vset | vsetmt =>
    simp only [vcfg_words, Option.some.injEq, forall_eq', and_self]
  | vld | vlds | vldx | vldff | vldg | vldb =>
    simp only [vld_words, Option.some.injEq, forall_eq', and_self]
  | vst | vsts | vstx | vstxa | vstxf =>
    simp only [vst_words, Option.some.injEq, forall_eq', and_self]
  | tileZero | tileLd | tileSt | tileLdx | tileStx | tileStxa | tileMma | tileMmax | tileGmma | tileRowv | tileVrow |
    tileQ | tileChol | tileTrsm | tileRel =>
    simp only [tile_words, Option.some.injEq, forall_eq', and_self]
  | ctrAdd | ctrFadd | ctrWait | ctrTest | ctrRead | ctrArrive | ctrAw | ctrReset =>
    simp only [ctr_words, Option.some.injEq, forall_eq', and_self]
  | ctrVadd | ctrArm | ctrHome =>
    simp only [ctrx_words, Option.some.injEq, forall_eq', and_self]
  | grpNew | grpJoin | grpLeave | grpSize | grpRank | grpPin | grpUnpin | grpMcast | grpStop | grpGo | grpKill =>
    simp only [grp_words, Option.some.injEq, forall_eq', and_self]
  | thrSpawn | thrEnd | thrSelf | thrStop | thrGo | thrSave | thrLoad =>
    simp only [thr_words, Option.some.injEq, forall_eq', and_self]
  | xferCopy | xferTensor | xferMcast | xferFill | xferSend =>
    simp only [xfer_words, Option.some.injEq, forall_eq', and_self]
  | qLaunch | qCall | qTake | qDone =>
    simp only [que_words, Option.some.injEq, forall_eq', and_self]
  | amoAdd | amoAnd | amoOr | amoXor | amoMin | amoMax | amoMinu | amoMaxu | amoSwap | amoCas | amoFadd | redAdd |
    redFadd | redMin | redMax =>
    simp only [amo_words, Option.some.injEq, forall_eq', and_self]
  | fence | stDrain | lineInv | lineWb | pref | haloDecl | haloDrop | haloPush =>
    simp only [mem_words, Option.some.injEq, forall_eq', and_self]
  | vmFence | vmInv | vmGinv | vmProbe =>
    simp only [xlat_words, Option.some.injEq, forall_eq', and_self]
  | ctxSeal | ctxUnseal | ctxExtend | ctxQuote =>
    simp only [ctx_words, Option.some.injEq, forall_eq', and_self]
  | add | sub | and | or | xor | andn | orn | sll | srl | sra | slt | sltu | min | max | minu | maxu | mul | mulh |
    mulhu | div | divu | rem | remu | addw | subw | clz | ctz | cpop | rol | ror =>
    simp only [ialu_words, Option.some.injEq, forall_eq', and_self]
  | addi | slti | sltiu | xori | ori | andi | slli | srli | srai | addiw =>
    simp only [ialui_words, Option.some.injEq, forall_eq', and_self]
  | ldhi =>
    simp only [ldhi_words, Option.some.injEq, forall_eq', and_self]
  | faddS | fsubS | fmulS | fdivS | fsqrtS | fminS | fmaxS | fmaddS | feqS | fltS | fleS | fclassS | fcvtSd | fcvtDs |
    fcvtSl | fcvtLs | fcvtDl | fcvtLd | faddD | fsubD | fmulD | fdivD | fsqrtD | fminD | fmaxD | fmaddD | feqD | fltD
    | fleD | fclassD =>
    simp only [fp_words, Option.some.injEq, forall_eq', and_self]
  | vadd | vsub | vmul | vmulh | vmin | vmax | vminu | vmaxu | vand | vor | vxor | vsll | vsrl | vsra | vsadd | vssub
    | vmacc | vdot4 =>
    simp only [vint_words, Option.some.injEq, forall_eq', and_self]
  | vfadd | vfsub | vfmul | vfdiv | vfsqrt | vfmin | vfmax | vfma | vfnma | vfabs | vfneg =>
    simp only [vfp_words, Option.some.injEq, forall_eq', and_self]
  | vceq | vcne | vclt | vcle | vcltu | vcleu | vfceq | vfclt | vfcle | vfcun =>
    simp only [vcmp_words, Option.some.injEq, forall_eq', and_self]
  | mand | mor | mxor | mandn | mnot | mpop | mfirst | miota | mset =>
    simp only [vmsk_words, Option.some.injEq, forall_eq', and_self]
  | vredsum | vredmin | vredmax | vfredo | vfredt | vfredmin | vfredmax =>
    simp only [vred_words, Option.some.injEq, forall_eq', and_self]
  | vrgather | vcompress | vmvgv | vmvvg | vid | vmerge | vmv =>
    simp only [vperm_words, Option.some.injEq, forall_eq', and_self]
  | vslup | vsldn | vbcast =>
    simp only [slide_words, Option.some.injEq, forall_eq', and_self]
  | vcvtN | vcvtW | vcvtFi | vcvtIf | vcvtQ4 | vcvtQ8 =>
    simp only [vcvt_words, Option.some.injEq, forall_eq', and_self]
  | _ => exact fun w h => nomatch h

/-- Refutes O55: the decoder leaves the pair bit of `shi` unread, so the word 0xC2006000, a `slli` with P = 1, decodes to
the `slli` whose own word is 0x42006000. -/
theorem not_decodeEncode : ¬ Obligations.DecodeEncode := by
  unfold Obligations.DecodeEncode
  intro h
  have hd : decodeWord 0xC2006000 = .ok (.slli 0 0 0) := by rfl
  have he : encode (.slli 0 0 0) = some 0x42006000 := by rfl
  exact absurd (he.symm.trans (h _ _ (by decide) hd)) (by decide)

end Sys2Proof
end

section
/-! PROOFS. The words that the spec writes out, and the machine after reset. -/

namespace Sys2Proof

open Machine

/-- Settles O56, each word by the decoder. -/
theorem spelledWords : Obligations.SpelledWords := by
  unfold Obligations.SpelledWords
  simp only [List.forall_mem_cons, List.not_mem_nil, false_implies, implies_true, and_true]
  and_intros <;> rfl

/-! ### The reset columns of the register maps -/

/-- The machine after reset, as thread `x` reads it. -/
def resetAt (x : Nat) : State := { State.reset with cur := x }

/-! The six whose value the model computes from several fields: -/

/-- `MVL` (R114). -/
theorem sregRead_reset_mvl (x : Nat) : sregRead (resetAt x) 0x106 = some 0 := by
  change some (BitVec.ofNat 64 (mvlOf 0 0)) = some 0
  decide

/-- `TSTAT` (R148). -/
theorem sregRead_reset_tstat (x : Nat) : sregRead (resetAt x) 0x188 = some 0 := by
  change some (BitVec.ofNat 64 (0 * 256 + 0)) = some 0
  decide

/-- `XSTAT` (R266). -/
theorem sregRead_reset_xstat (x : Nat) : sregRead (resetAt x) 0x2C1 = some 0 := by
  change some (BitVec.ofNat 64 (0 * 2 ^ 32 + b2n false * 16 + 0)) = some 0
  decide

/-- `SIR` (R81): the compare value is all ones, so the timer is not pending. -/
theorem sregRead_reset_sir (x : Nat) : sregRead (resetAt x) 0x807 = some 0 := by
  have hpend : pendOf (resetAt x) x = 0 := by
    change (0 &&& 0b11101#5) ||| (if decide ((BitVec.allOnes 64).toNat ≤ 0 - 0) then 0b00010#5 else 0) = 0
    decide
  change some (BitVec.ofNat 64 ((0 : BitVec 5).toNat * 2 ^ 16 + (pendOf (resetAt x) x).toNat)) = some 0
  rw [hpend]
  decide

/-- `HPQC` (R285). -/
theorem sregRead_reset_hpqc (x : Nat) : sregRead (resetAt x) 0xC83 = some 0 := by
  change some (BitVec.ofNat 64 (b2n false * 2 ^ 16 + 0)) = some 0
  decide

/-- `PSTAT` (R352). -/
theorem sregRead_reset_pstat (x : Nat) : sregRead (resetAt x) 0xCC2 = some 0 := by
  change some (BitVec.ofNat 64 (b2n false * 2 ^ 63 + (0 : Word).toNat)) = some 0
  decide

/-- The thread and core registers that read 0 (R81). -/
theorem sregRead_reset_thread (x : Nat) : ∀ i ∈ [0x000, 0x001, 0x002, 0x003, 0x004, 0x005, 0x008, 0x009, 0x00A, 0x00B, 0x00C,
    0x00D], sregRead (resetAt x) i = some 0 := by
  simp only [List.forall_mem_cons, List.not_mem_nil, false_implies, implies_true, and_true]
  and_intros <;> rfl

/-- The vector registers (R114): no depth rows, so no elements. -/
theorem sregRead_reset_vector (x : Nat) : ∀ i ∈ [0x100, 0x101, 0x102, 0x103, 0x104, 0x105, 0x106, 0x107, 0x108],
    sregRead (resetAt x) i = some 0 := by
  simp only [List.forall_mem_cons, List.not_mem_nil, false_implies, implies_true, and_true, true_and,
    sregRead_reset_mvl]
  and_intros <;> rfl

/-- The tile registers that read 0 (R148): no hold, no command queued. -/
theorem sregRead_reset_tile (x : Nat) : ∀ i ∈ [0x183, 0x184, 0x185, 0x186, 0x187, 0x188, 0x189],
    sregRead (resetAt x) i = some 0 := by
  simp only [List.forall_mem_cons, List.not_mem_nil, false_implies, implies_true, and_true, true_and,
    sregRead_reset_tstat]
  and_intros <;> rfl

/-- The counter, group, copy-channel and coherence registers that read 0 (R178, R207, R266, R263). -/
theorem sregRead_reset_exchange (x : Nat) : ∀ i ∈ [0x200, 0x201, 0x202, 0x280, 0x2C0, 0x2C1, 0x300, 0x301],
    sregRead (resetAt x) i = some 0 := by
  simp only [List.forall_mem_cons, List.not_mem_nil, false_implies, implies_true, and_true, true_and,
    sregRead_reset_xstat]
  and_intros <;> rfl

/-- The supervisor's registers that read 0 (R81, R285, R338). -/
theorem sregRead_reset_supervisor (x : Nat) : ∀ i ∈ [0x800, 0x801, 0x802, 0x803, 0x804, 0x805, 0x806, 0x807, 0x880, 0x881,
    0x883, 0x884, 0x8C1, 0x8C3], sregRead (resetAt x) i = some 0 := by
  simp only [List.forall_mem_cons, List.not_mem_nil, false_implies, implies_true, and_true, true_and,
    sregRead_reset_sir]
  and_intros <;> rfl

/-- The hypervisor's registers that read 0 (R81, R285, R352). -/
theorem sregRead_reset_hypervisor (x : Nat) : ∀ i ∈ [0xC00, 0xC01, 0xC02, 0xC03, 0xC04, 0xC05, 0xC06, 0xC07, 0xC80, 0xC81,
    0xC82, 0xC83, 0xCC1, 0xCC2, 0xCC3], sregRead (resetAt x) i = some 0 := by
  simp only [List.forall_mem_cons, List.not_mem_nil, false_implies, implies_true, and_true, true_and,
    sregRead_reset_hpqc, sregRead_reset_pstat]
  and_intros <;> rfl

/-- The registers with a reset value of their own: the slot, the tile sizes, the rank of a thread without a group, the
compare value of the timer, and the sizes of two rings. -/
theorem sregRead_reset_values (x : Nat) : ∀ e ∈ [(0x006, BitVec.ofNat 64 (x % 16)), (0x180, 128), (0x181, 64), (0x182, 32),
    (0x281, BitVec.allOnes 64), (0x808, BitVec.allOnes 64), (0x882, 16), (0x8C2, 16)],
    sregRead (resetAt x) e.1 = some e.2 := by
  simp only [List.forall_mem_cons, List.not_mem_nil, false_implies, implies_true, and_true]
  and_intros <;> rfl

/-- Partition 0 alone is Active (R350). -/
theorem partState_reset (p : Nat) :
    tget State.reset.parts.state p .unused = if p = 0 then .active else .unused := by
  change (if 0 = p then PState.active else .unused) = _
  simp only [eq_comm]

/-- Settles O59: register map by register map; an empty table reads as its default. -/
theorem resetState : Obligations.ResetState := by
  unfold Obligations.ResetState
  refine ⟨MemoriesWf.reset, fun x _ => ⟨rfl, ?_, sregRead_reset_values x, fun _ => rfl, fun _ => rfl, partState_reset,
    fun _ => rfl, fun _ => rfl, fun _ => rfl, rfl, rfl⟩⟩
  have hzero := List.forall_mem_append.2 ⟨sregRead_reset_thread x, List.forall_mem_append.2 ⟨sregRead_reset_vector x,
    List.forall_mem_append.2 ⟨sregRead_reset_tile x, List.forall_mem_append.2 ⟨sregRead_reset_exchange x,
    List.forall_mem_append.2 ⟨sregRead_reset_supervisor x, sregRead_reset_hypervisor x⟩⟩⟩⟩⟩
  exact hzero

end Sys2Proof
end

section
/-! PROOFS. One step and the bundle at the pc: both statements fail for a Ready thread that is in the middle of a bundle
whose words it keeps. -/

namespace Sys2Proof

open Machine

/-- Thread 0 issues next at address 0. Its wait is satisfied, so it first completes the bundle in whose middle it is; the
words kept of that bundle are those of a lone `svc`, whatever memory `m` holds now (R53, R54). -/
def midSvc (m : Memory) : State :=
  let s := State.reset.withFetchWord 32 0
  { s with mem := m, threads := tput s.threads 0 { th s 0 with waitMet := true, unit := some (0, 0) } }

/-- Memory that holds `add g3, g4, g5` at address 0. -/
def memAdd : Memory := mputs [] 0 (natBytes 4 0x40321400)

/-- Memory that holds the pair `sread g5, 1` and `add g3, g4, g5` at address 0. -/
def memPair : Memory := mputs [] 0 (natBytes 4 0x82500001 ++ natBytes 4 0x40321400)

/-- How the word of a step ended, when the step goes on. -/
def endOf : Out → Option Ended
  | .next t => some t.last
  | _ => none

/-- No interrupt qualifies for a thread that enables none (R82). -/
theorem not_qualifies_of_en_eq_zero {s : State} {x : Nat} (h : (th s x).sr.en = 0) (code : Nat) :
    ¬Qualifies s x code := by
  rintro ⟨_, _, hen, _⟩
  simp [h] at hen

/-- A kept bundle is not among what `LoneIssue` excludes. -/
theorem loneIssue_midSvc (m : Memory) : LoneIssue (midSvc m) 0 0 0 [] := by
  have hint : ∀ code, ¬Qualifies (issued (midSvc m) 0 0 []) 0 code := not_qualifies_of_en_eq_zero rfl
  have hpkg : (midSvc m).pkg = 0 := rfl
  have hpc : (th (midSvc m) 0).pc.toNat = (midSvc m).pkg * 2 ^ 40 + 0 := by rw [hpkg, Nat.zero_mul]; rfl
  have hstuck : ∀ y ∈ (midSvc m).stuck, y.tid ≠ 0 := List.forall_mem_nil _
  have hbase : (co (midSvc m) (0 / 16)).base = 0 := rfl
  have hcycle : (midSvc m).cycle = 0 := rfl
  have hvrs : (th (midSvc m) 0).v.vrs = 0 := rfl
  refine ⟨rfl, by decide, rfl, by simp [hbase, hcycle], by simp [hcycle], by simp [hcycle], by simp [hbase], rfl, rfl, rfl, rfl,
    by simp [hvrs], rfl, rfl, rfl, rfl, rfl, rfl, hint, hstuck, rfl, rfl, by simp [hpkg], hpc, by decide, rfl, rfl⟩

/-- An issue keeps the note of how its word ended. -/
theorem AfterIssue.last_eq {t u : State} (h : AfterIssue t u) : u.last = t.last := by
  obtain ⟨_, _, _, _, hrest⟩ := h
  rw [← hrest]

/-- A step that ends in a trap is not the issue of a word that takes its effect. -/
theorem no_afterIssue_of_trapped {s t : State} {c : Nat} {v : Word} (hs : endOf (step s) = some (.trapped c v))
    (ht : t.last = .done) : ¬∃ u, step s = .next u ∧ AfterIssue t u := by
  rintro ⟨u, hstep, hafter⟩
  rw [hstep] at hs
  simp [endOf, hafter.last_eq, ht] at hs

/-- Refutes O57: memory holds `add g3, g4, g5`, and the step performs the kept `svc`, which traps with cause 17. -/
theorem not_stepRunsWord : ¬ Obligations.StepRunsWord := by
  unfold Obligations.StepRunsWord
  intro h
  have htrap : endOf (step (midSvc memAdd)) = some (.trapped 17 0) := rfl
  obtain ⟨hword, _⟩ := h (midSvc memAdd) 0 0 0 0x40321400 [] (loneIssue_midSvc memAdd) rfl (by decide) (by decide)
  exact no_afterIssue_of_trapped htrap rfl (hword (.add 3 4 5) rfl)

/-- Refutes O58: memory holds the pair `sread g5, 1` and `add g3, g4, g5`, and the step performs the kept `svc`, which
traps with cause 17. -/
theorem not_stepRunsPair : ¬ Obligations.StepRunsPair := by
  unfold Obligations.StepRunsPair
  intro h
  have htrap : endOf (step (midSvc memPair)) = some (.trapped 17 0) := rfl
  obtain ⟨_, hpair⟩ := h (midSvc memPair) _ 0 0 0 0x82500001 0x40321400 (.sread 1 5 1) (.add 3 4 5) []
    (loneIssue_midSvc memPair)
    rfl rfl rfl (by decide) (by decide) (by decide) (by decide) (by decide) rfl rfl (.inr (by decide)) rfl
  obtain ⟨hdone, _⟩ := hpair _ rfl rfl
  exact no_afterIssue_of_trapped htrap rfl (hdone rfl)

end Sys2Proof
end

section
/-! PROOFS. Integer words (R65-R68): the value that each word of the model computes is the one that the rules write. -/

namespace Sys2Proof

open Machine

/-! ### The end of a word that writes a register -/

theorem gives_alu {i : Instr} {s : State} {d : BitVec 5} {v w : Word} (h : exec i s = alu s d v) (e : v = w) :
    ∃ t, exec i s = .next t ∧ RegWord s t 0 d w := ⟨_, h, e ▸ regWord_finish s 0 d v⟩

theorem gives_aluLong {i : Instr} {s : State} {d : BitVec 5} {q : BitVec 4} {v w : Word} (h : exec i s = aluLong s d q v)
    (e : v = w) : ∃ t, exec i s = .next t ∧ LongWord s t 0 d q w := ⟨_, h, e ▸ longWord_finish s 0 d q v⟩

/-! ### Operands and values -/

theorem imm20_eq (i : BitVec 20) : imm20 i = BitVec.ofInt 64 (i.toInt * 2 ^ 12) := by
  rw [imm20, BitVec.shiftLeft_eq_mul_twoPow, BitVec.signExtend, BitVec.ofInt_mul]
  rfl

theorem ofBool_slt (a b : Word) : ofBool (a.slt b) = if a.toInt < b.toInt then 1 else 0 := by
  simp [ofBool, BitVec.slt]

theorem ofBool_ult (a b : Word) : ofBool (a.ult b) = if a.toNat < b.toNat then 1 else 0 := by
  simp [ofBool, BitVec.ult]

theorem toInt_imm12 (i : BitVec 12) : (imm12 i).toInt = i.toInt := BitVec.toInt_signExtend_of_le (by decide)

/-- Between words that differ the order is strict; equal words are interchangeable. -/
theorem ite_slt_eq_ite_le {α : Type} (a b : Word) (f : Word → Word → α) (h : a = b → f a b = f b a) :
    (if a.slt b then f a b else f b a) = if a.toInt ≤ b.toInt then f a b else f b a := by
  by_cases e : a = b
  · simp [h e]
  · have : a.toInt ≠ b.toInt := fun k => e (BitVec.eq_of_toInt_eq k)
    simp [BitVec.slt, show a.toInt ≤ b.toInt ↔ a.toInt < b.toInt by omega]

theorem ite_ult_eq_ite_le {α : Type} (a b : Word) (f : Word → Word → α) (h : a = b → f a b = f b a) :
    (if a.ult b then f a b else f b a) = if a.toNat ≤ b.toNat then f a b else f b a := by
  by_cases e : a = b
  · simp [h e]
  · have : a.toNat ≠ b.toNat := fun k => e (BitVec.eq_of_toNat_eq k)
    simp [BitVec.ult, show a.toNat ≤ b.toNat ↔ a.toNat < b.toNat by omega]

theorem mul_eq_ofInt (a b : Word) : a * b = BitVec.ofInt 64 (a.toInt * b.toInt) := by
  rw [BitVec.ofInt_mul, BitVec.ofInt_toInt, BitVec.ofInt_toInt]

/-- The low 32 bits of a number that stands for `n` are those of `n`. -/
theorem sext32_ofInt (n : Int) : sext32 (BitVec.ofInt 64 n) = BitVec.ofInt 64 (BitVec.ofInt 32 n).toInt := by
  have : (BitVec.ofInt 64 n).truncate 32 = BitVec.ofInt 32 n := by
    apply BitVec.eq_of_toNat_eq
    simp [BitVec.toNat_ofInt]
    omega
  rw [sext32, this, BitVec.signExtend]

theorem sext32_add (a b : Word) : sext32 (a + b) = BitVec.ofInt 64 (BitVec.ofInt 32 (a.toInt + b.toInt)).toInt := by
  rw [← sext32_ofInt, BitVec.ofInt_add, BitVec.ofInt_toInt, BitVec.ofInt_toInt]

theorem sext32_sub (a b : Word) : sext32 (a - b) = BitVec.ofInt 64 (BitVec.ofInt 32 (a.toInt - b.toInt)).toInt := by
  rw [← sext32_ofInt, Int.sub_eq_add_neg, BitVec.ofInt_add, BitVec.ofInt_neg, BitVec.ofInt_toInt, BitVec.ofInt_toInt,
    BitVec.sub_eq_add_neg]

theorem rotateLeft_shAmt (a b : Word) :
    a.rotateLeft (shAmt b) = a <<< (b.toNat % 64) ||| a >>> (64 - b.toNat % 64) := by
  rw [BitVec.rotateLeft_def, shAmt, Nat.mod_mod]

theorem rotateRight_shAmt (a b : Word) :
    a.rotateRight (shAmt b) = a >>> (b.toNat % 64) ||| a <<< (64 - b.toNat % 64) := by
  rw [BitVec.rotateRight_def, shAmt, Nat.mod_mod]

/-! ### Bit counts -/

theorem leadingZeros_clz64 (a : Word) : LeadingZeros a (clz64 a) := by
  unfold clz64
  split
  case isTrue h => subst h; exact ⟨le_rfl, fun k _ => by simp, fun h => absurd h (by decide)⟩
  case isFalse h =>
    have h0 : a.toNat ≠ 0 := fun e => h (BitVec.eq_of_toNat_eq e)
    have hl : a.toNat.log2 < 64 := (Nat.log2_lt h0).mpr a.isLt
    refine ⟨by omega, fun k hk => ?_, fun _ => ?_⟩
    · have : a.toNat < 2 ^ (63 - k) := (Nat.log2_lt h0).mp (by omega)
      rw [BitVec.getMsbD_eq_getLsbD, BitVec.getLsbD, Nat.testBit_lt_two_pow (by simpa using this), Bool.and_false]
    · rw [BitVec.getMsbD_eq_getLsbD, BitVec.getLsbD, show 64 - 1 - (63 - a.toNat.log2) = a.toNat.log2 by omega,
        Nat.testBit_log2 h0]
      simpa using by omega

/-- What the search for the least number finds. -/
theorem leastFrom_eq_some {p : Nat → Bool} {k n r : Nat} :
    leastFrom p k n = some r ↔ k ≤ r ∧ r < k + n ∧ p r = true ∧ ∀ i, k ≤ i → i < r → p i = false := by
  induction n generalizing k with
  | zero => simp only [leastFrom]; exact ⟨nofun, fun h => by omega⟩
  | succ n ih =>
    rw [leastFrom]
    split
    next h =>
      simp only [Option.some.injEq]
      refine ⟨fun e => e ▸ ⟨le_rfl, by omega, h, fun i h1 h2 => by omega⟩, fun ⟨h1, h2, h3, h4⟩ => ?_⟩
      by_contra hne
      simp [h4 k le_rfl (by omega)] at h
    next h =>
      rw [ih]
      have step : ∀ i, k ≤ i ↔ i = k ∨ k + 1 ≤ i := fun i => by omega
      constructor
      · rintro ⟨h1, h2, h3, h4⟩
        refine ⟨by omega, by omega, h3, fun i hi hr => ?_⟩
        rcases (step i).mp hi with rfl | hi
        · simpa using h
        · exact h4 i hi hr
      · rintro ⟨h1, h2, h3, h4⟩
        have : r ≠ k := fun e => h (e ▸ h3)
        exact ⟨by omega, by omega, h3, fun i hi hr => h4 i (by omega) hr⟩

theorem leastFrom_eq_none {p : Nat → Bool} {k n : Nat} :
    leastFrom p k n = none ↔ ∀ i, k ≤ i → i < k + n → p i = false := by
  induction n generalizing k with
  | zero => simp only [leastFrom, true_iff]; omega
  | succ n ih =>
    rw [leastFrom]
    split
    next h => exact ⟨nofun, fun e => by simp [e k le_rfl (by omega)] at h⟩
    next h =>
      rw [ih]
      refine ⟨fun e i hi hn => ?_, fun e i hi hn => e i (by omega) (by omega)⟩
      rcases Nat.eq_or_lt_of_le hi with rfl | hi
      · simpa using h
      · exact e i hi (by omega)

theorem trailingZeros_ctz64 (a : Word) : TrailingZeros a (ctz64 a) := by
  unfold ctz64
  cases h : leastFrom (fun k => a.getLsbD k) 0 64 with
  | none =>
    exact ⟨le_rfl, fun k hk => leastFrom_eq_none.mp h k (Nat.zero_le k) (by simpa using hk), fun h => absurd h (by decide)⟩
  | some n =>
    obtain ⟨_, hn, hp, hb⟩ := leastFrom_eq_some.mp h
    exact ⟨by simpa using by omega, fun k hk => hb k (by omega) hk, fun _ => hp⟩

/-! ### Division -/

theorem sdiv64_eq (a b : Word) :
    sdiv64 a b = if b = 0 then BitVec.allOnes 64 else BitVec.ofInt 64 (a.toInt.tdiv b.toInt) := by
  have : a.sdiv b = BitVec.ofInt 64 (a.toInt.tdiv b.toInt) :=
    BitVec.eq_of_toInt_eq (by rw [BitVec.toInt_sdiv, BitVec.toInt_ofInt])
  rw [sdiv64, this]

theorem srem64_eq (a b : Word) : srem64 a b = if b = 0 then a else BitVec.ofInt 64 (a.toInt.tmod b.toInt) := by
  rw [srem64, ← BitVec.toInt_srem, BitVec.ofInt_toInt]

theorem udiv64_eq (a b : Word) :
    udiv64 a b = if b = 0 then BitVec.allOnes 64 else BitVec.ofNat 64 (a.toNat / b.toNat) := by
  rw [udiv64, ← BitVec.toNat_udiv, BitVec.ofNat_toNat, BitVec.setWidth_eq]

theorem urem64_eq (a b : Word) : urem64 a b = if b = 0 then a else BitVec.ofNat 64 (a.toNat % b.toNat) := by
  rw [urem64, ← BitVec.toNat_umod, BitVec.ofNat_toNat, BitVec.setWidth_eq]

/-- Settles O1: each word ends by writing one register, and its value is the rules'. -/
theorem integerResults : Obligations.IntegerResults := by
  refine ⟨fun s d a b => ?_, fun s d a imm sh up p => ?_⟩
  · exact ⟨gives_alu rfl rfl, gives_alu rfl rfl, gives_alu rfl rfl, gives_alu rfl rfl, gives_alu rfl rfl, gives_alu rfl rfl,
      gives_alu rfl rfl, gives_alu rfl rfl, gives_alu rfl rfl, gives_alu rfl rfl, gives_alu rfl (ofBool_slt _ _),
      gives_alu rfl (ofBool_ult _ _), gives_alu rfl (ite_slt_eq_ite_le _ _ (fun x _ => x) id),
      gives_alu rfl (ite_slt_eq_ite_le _ _ (fun _ y => y) Eq.symm), gives_alu rfl (ite_ult_eq_ite_le _ _ (fun x _ => x) id),
      gives_alu rfl (ite_ult_eq_ite_le _ _ (fun _ y => y) Eq.symm), gives_alu rfl (mul_eq_ofInt _ _),
      gives_alu rfl (sext32_add _ _), gives_alu rfl (sext32_sub _ _), ⟨_, leadingZeros_clz64 _, gives_alu rfl rfl⟩,
      ⟨_, trailingZeros_ctz64 _, gives_alu rfl rfl⟩, gives_alu rfl (by rw [cpop64, List.countP_eq_length_filter]),
      gives_alu rfl (rotateLeft_shAmt _ _), gives_alu rfl (rotateRight_shAmt _ _)⟩
  · have hslt := ofBool_slt (rd s a) (imm12 imm)
    have hadd := sext32_add (rd s a) (imm12 imm)
    rw [toInt_imm12] at hslt hadd
    exact ⟨gives_alu rfl rfl, gives_alu rfl hslt, gives_alu rfl (ofBool_ult _ _), gives_alu rfl rfl, gives_alu rfl rfl,
      gives_alu rfl rfl, gives_alu rfl rfl, gives_alu rfl rfl, gives_alu rfl rfl, gives_alu rfl hadd,
      gives_alu rfl (imm20_eq up), _, rfl, imm20_eq up ▸ regWord_finish s p d _⟩

/-- Settles O2: the values of division are those of the model's `sdiv64` and its companions. -/
theorem longIntegerResults : Obligations.LongIntegerResults := by
  refine ⟨fun s d a b q => ?_, fun s d a b q => ⟨fun hb => ?_, fun ha hb => ?_⟩⟩
  · exact ⟨gives_aluLong rfl rfl, gives_aluLong rfl rfl, gives_aluLong rfl (sdiv64_eq _ _), gives_aluLong rfl (udiv64_eq _ _),
      gives_aluLong rfl (srem64_eq _ _), gives_aluLong rfl (urem64_eq _ _)⟩
  · exact ⟨gives_aluLong rfl (if_pos hb), gives_aluLong rfl (if_pos hb), gives_aluLong rfl (if_pos hb),
      gives_aluLong rfl (if_pos hb)⟩
  · refine ⟨gives_aluLong rfl ?_, gives_aluLong rfl ?_⟩
    · rw [ha, hb]; decide
    · rw [ha, hb]; decide

end Sys2Proof
end

section
/-! PROOFS. Branches, jumps, `tret` and `pause` (R25, R60, R62, R63, R82). -/

namespace Sys2Proof

open Machine

/-! ### A change of the running thread, and the end of the word -/

theorem me_goto_setMe (s : State) (x : Thread) (pc : Word) (f : Option Word) :
    me (goto (setMe s x) pc f) = if s.slot = 0 then { x with pc := pc, hold := none, waitMet := false, from_ := f } else x := by
  rw [me_goto, me_setMe, setMe_slot]

theorem th_goto_setMe_ne (s : State) (x : Thread) (pc : Word) (f : Option Word) {k : Nat} (h : k ≠ s.cur) :
    th (goto (setMe s x) pc f) k = th s k := by
  rw [th_goto_ne _ _ _ (by rwa [setMe_cur]), th_setMe_ne _ _ h]

theorem goto_setMe_outside (s : State) (x : Thread) (pc : Word) (f : Option Word) : SameOutside s (goto (setMe s x) pc f) :=
  (setMe_outside s x).trans (goto_outside _ pc f)

theorem keeps_goto_setMe {m : Thread → Thread → Thread} {s : State} {x : Thread} {pc : Word} {f : Option Word}
    (h : m (me (goto (setMe s x) pc f)) (me s) = me s) : Keeps m s (goto (setMe s x) pc f) :=
  Keeps.of (goto_setMe_outside s x pc f) (fun _ k => th_goto_setMe_ne s x pc f k) h

/-! ### Jumps -/

theorem branchTo_eq (s : State) (off : BitVec 12) : branchTo s off = (me s).pc + BitVec.ofInt 64 (4 * off.toInt) := by
  rw [branchTo, Int.mul_comm, BitVec.ofInt_mul]
  rfl

theorem jumpTo_eq (s : State) (off : BitVec 20) : jumpTo s off = (me s).pc + BitVec.ofInt 64 (4 * off.toInt) := by
  rw [jumpTo, Int.mul_comm, BitVec.ofInt_mul]
  rfl

theorem me_goto_wr (s : State) (d : BitVec 5) (v pc : Word) (f : Option Word) :
    regMask (me (goto (wr s d v) pc f)) (me s) = me s := by
  rw [me_goto, me_wr]
  split <;> split <;> rfl

/-- A link written, and the way to the target. -/
theorem jumpWord_goto (s : State) (d : BitVec 5) (link target : Word) (f : Option Word) :
    JumpWord s (goto (wr s d link) target f) d link target := by
  refine ⟨goto_last .., ?_, ⟨?_, fun r h => ?_⟩, Keeps.of ((wr_outside s d link).trans (goto_outside ..)) (fun k h => ?_)
    (me_goto_wr ..)⟩
  · rw [me_goto, wr_slot]
    split
    · rfl
    · exact wr_pc ..
  · rw [reg_goto, reg_wr_same]
  · rw [reg_goto, reg_wr_ne _ _ h]
  · rw [th_goto_ne _ _ _ (by rwa [wr_cur]), th_wr_ne _ _ _ h]

/-- A branch writes no register: that is a write of g0. -/
theorem goes_branch {i : Instr} {s : State} {p : BitVec 1} {c : Bool} {off : BitVec 12} {taken : Prop}
    (h : exec i s = branch s p c off) (hc : c = true ↔ taken) : ∃ t, exec i s = .next t ∧
      (taken → JumpWord s t 0 0 ((me s).pc + BitVec.ofInt 64 (4 * off.toInt))) ∧ (¬taken → RegWord s t p 0 0) := by
  refine ⟨_, h, fun k => ?_, fun k => ?_⟩
  · rw [if_pos (hc.mpr k), ← branchTo_eq]
    exact jumpWord_goto s 0 0 _ _
  · rw [if_neg fun e => k (hc.mp e)]
    exact regWord_finish s p 0 0

/-- Settles O3: a transfer of control writes its link, if any, and goes to its target. -/
theorem controlTransfers : Obligations.ControlTransfers := by
  refine ⟨fun s p a b off => ?_,
    fun s p d a off imm => ⟨⟨_, rfl, ?_⟩, fun h => ⟨_, rfl, ?_⟩, fun h q => ⟨_, rfl, ?_⟩⟩⟩
  · exact ⟨goes_branch rfl beq_iff_eq, goes_branch rfl bne_iff_ne, goes_branch rfl (by simp [BitVec.slt]),
      goes_branch rfl (by simp [BitVec.slt]), goes_branch rfl (by simp [BitVec.ult]), goes_branch rfl (by simp [BitVec.ult])⟩
  · rw [jumpTo_eq]
    exact jumpWord_goto ..
  · rw [if_neg (not_not.mpr (show (rd s a + imm12 imm).toNat % 4 = 0 from h))]
    exact jumpWord_goto ..
  · rw [if_pos (show (rd s a + imm12 imm).toNat % 4 ≠ 0 from h)]
    exact trapTo_raise q 5 _

/-! ### The return from a trap -/

/-- The status that a return leaves: bit 0 is the old bit 1, and bit 1 is set. -/
theorem returnStatus_bits (hi : Nat) (h : hi % 4 = 0) (b : Bool) :
    (BitVec.ofNat 64 (hi + 2 + b2n b)).getLsbD 0 = b ∧ (BitVec.ofNat 64 (hi + 2 + b2n b)).getLsbD 1 = true := by
  have h0 : (hi + 2 + b2n b) % 4 = 2 + b2n b := by cases b <;> simp [b2n] <;> omega
  have bitOf : ∀ k < 2, (BitVec.ofNat 64 (hi + 2 + b2n b)).getLsbD k = (2 + b2n b).testBit k := by
    intro k hk
    rw [BitVec.getLsbD_ofNat, ← h0, Nat.testBit_mod_two_pow (j := 2)]
    simp [hk, show k < 64 by omega]
  rw [bitOf 0 (by decide), bitOf 1 (by decide)]
  cases b <;> decide

theorem ppl_eq (w : Word) :
    (match bits w 9 8 with | 0 => Priv.user | 2 => Priv.sup | _ => Priv.hyp) =
      if w.extractLsb' 8 2 = 0 then .user else if w.extractLsb' 8 2 = 2 then .sup else .hyp := by
  have e : bits w 9 8 = (w.extractLsb' 8 2).toNat := by
    rw [bits, fld, BitVec.extractLsb'_toNat, Nat.shiftRight_eq_div_pow]
  rw [e]
  generalize w.extractLsb' 8 2 = x
  decide +revert

/-- `tret` at supervisor privilege. -/
theorem exec_tret_sup {s : State} (hs : s.slot = 0) (hp : (me s).priv = .sup) (ha : (me s).sr.epc.toNat % 4 = 0) :
    ∃ t, exec .tret s = .next t ∧ t.last = .done ∧
    Keeps (fun n o => { pcMask n o with priv := o.priv, sr := o.sr }) s t ∧ (me t).pc = (me s).sr.epc ∧
    (me t).priv = (if (me s).sr.status.getLsbD 8 then .sup else .user) ∧
    (me t).sr = { (me s).sr with status := (me t).sr.status } ∧
    (me t).sr.status.getLsbD 0 = (me s).sr.status.getLsbD 1 ∧ (me t).sr.status.getLsbD 1 = true := by
  refine ⟨trapReturn s wordTret, rfl, ?_⟩
  simp only [trapReturn, hp, ha, ne_eq, not_true_eq_false, if_false]
  refine ⟨goto_last .., keeps_goto_setMe ?_, ?_⟩ <;> simp only [me_goto_setMe, hs, if_true]
  · rfl
  · exact ⟨trivial, rfl, trivial, returnStatus_bits _ (by omega) _⟩

/-- `tret` at hypervisor privilege. -/
theorem exec_tret_hyp {s : State} (hs : s.slot = 0) (hp : (me s).priv = .hyp) (ha : (me s).hr.epc.toNat % 4 = 0) :
    ∃ t, exec .tret s = .next t ∧ t.last = .done ∧
    Keeps (fun n o => { pcMask n o with priv := o.priv, hr := o.hr }) s t ∧ (me t).pc = (me s).hr.epc ∧
    (me t).priv = (if (me s).hr.status.extractLsb' 8 2 = 0 then .user
      else if (me s).hr.status.extractLsb' 8 2 = 2 then .sup else .hyp) ∧
    (me t).hr = { (me s).hr with status := (me t).hr.status } ∧
    (me t).hr.status.getLsbD 0 = (me s).hr.status.getLsbD 1 ∧ (me t).hr.status.getLsbD 1 = true := by
  refine ⟨trapReturn s wordTret, rfl, ?_⟩
  simp only [trapReturn, hp, ha, ne_eq, not_true_eq_false, if_false]
  refine ⟨goto_last .., keeps_goto_setMe ?_, ?_⟩ <;> simp only [me_goto_setMe, hs, if_true]
  · rfl
  · exact ⟨trivial, ppl_eq _, trivial, returnStatus_bits _ (by omega) _⟩

/-- `tret` that may not return raises its trap. -/
theorem exec_tret_trap {s : State} (h : Quiet s) {c : Nat} {v : Word} (e : trapReturn s wordTret = raise s c v) :
    ∃ t, exec .tret s = .next t ∧ TrapTo s t c v := ⟨_, congrArg Host.Outcome.next e, trapTo_raise h c v⟩

/-! ### `pause` -/

theorem pauseCount_eq (v : Word) : pauseCount v = if v = 0 then 1 else if v.toNat ≤ 1024 then v.toNat else 1024 := by
  rw [pauseCount, Nat.min_def]

theorem exec_pause (s : State) (a : BitVec 5) : ∃ t n, exec (.pause a) s = .next t ∧ Behind s t 0 ∧
    Keeps (fun n o => { pcMask n o with pauseUntil := o.pauseUntil }) s t ∧
    (me t).pauseUntil = some (s.cycle + 16 * (n + 1)) ∧
    n = (if rd s a = 0 then 1 else if (rd s a).toNat ≤ 1024 then (rd s a).toNat else 1024) := by
  refine ⟨_, _, rfl, behind_finish 0 rfl (by rw [me_setMe]), keeps_goto_setMe ?_, ?_, pauseCount_eq (rd s a)⟩
  · rw [me_goto_setMe]
    split <;> rfl
  · rw [me_finish, me_setMe]
    split <;> rfl

theorem exec_pauseExpiry (s : State) (tid c : Nat) (h : (th s tid).pauseUntil = some c) :
    ∃ t, exec (.pauseExpiry tid) s = .next t ∧ th t tid = { th s tid with pauseUntil := none } ∧
    (∀ k, k ≠ tid → th t k = th s k) ∧ c ≤ t.cycle ∧ { t with threads := s.threads, cycle := s.cycle } = s := by
  have e : execPauseExpiry tid s =
      .next (setTh { s with cycle := max s.cycle c } tid { th s tid with pauseUntil := none }) := by
    simp only [execPauseExpiry, h]
  exact ⟨_, e, th_setTh .., fun k hk => th_setTh_ne _ _ hk, Nat.le_max_right .., rfl⟩

/-- Settles O4: the traps are `raise`, and `tret` takes the branch of its privilege. -/
theorem trapsAndPauses : Obligations.TrapsAndPauses := by
  refine ⟨fun s q => ⟨⟨_, rfl, trapTo_raise q 17 0⟩, _, rfl, trapTo_raise q 18 0⟩, fun s hs => ?_, exec_pause, exec_pauseExpiry⟩
  refine ⟨exec_tret_sup hs, exec_tret_hyp hs, fun q hp ha => exec_tret_trap q ?_, fun q hp ha => exec_tret_trap q ?_,
    fun q hp => exec_tret_trap q ?_⟩
  · simp only [trapReturn, hp, if_pos ha]
  · simp only [trapReturn, hp, if_pos ha]
  · simp only [trapReturn, hp]
    rfl

end Sys2Proof
end

section
/-! PROOFS. Scalar floating-point words (R69): each ends with its result and its flags. -/

namespace Sys2Proof

open Machine

theorem gives_fp {i : Instr} {s : State} {d : BitVec 5} {r : Nat × BitVec 5} (h : exec i s = fp s d r) :
    ∃ t, exec i s = .next t ∧ FpWord s t d r.1 r.2 := ⟨_, h, fpWord_finish s d r⟩

theorem gives_fpBool {i : Instr} {s : State} {d : BitVec 5} {r : Bool × BitVec 5} (h : exec i s = fpBool s d r) :
    ∃ t, exec i s = .next t ∧ FpWord s t d (if r.1 then 1 else 0) r.2 :=
  ⟨_, h, fpWord_finish s d (b2n r.1, r.2)⟩

/-- A known long result, flags, and the end of the word. -/
theorem gives_fpLong {i : Instr} {s : State} {d : BitVec 5} {q : BitVec 4} {r : Nat × BitVec 5} (h : exec i s = fpLong s d q r) :
    ∃ t, exec i s = .next t ∧ Behind s t 0 ∧
      Keeps (fun n o => { longMask n o with u := { n.u with flags := o.u.flags } }) s t ∧
      (me t).u.flags = (me s).u.flags ||| r.2 ∧
      (me t).longs = (me s).longs ++ (if d = 0 then []
        else [{ d := d.toNat, left := q.toNat, res := .ready (BitVec.ofNat 64 r.1), pc := (me s).pc }]) := by
  refine ⟨_, h, ?_⟩
  set l := longResult s d q (.ready (BitVec.ofNat 64 r.1)) with hl
  have ho : SameOutside s l := longResult_outside ..
  have hm : me (orFlags l s.cur r.2) = { me l with u := { (me l).u with flags := (me l).u.flags ||| r.2 } } := by
    rw [← ho.cur]
    exact me_orFlags l r.2
  have hf : SameOutside s (orFlags l s.cur r.2) := ho.trans (orFlags_outside ..)
  refine ⟨behind_finish 0 hf.slot ?_, Keeps.of (hf.trans (finish_outside _ 0)) (fun k hk => ?_) ?_, ?_, ?_⟩
  · rw [hm, hl, me_longResult_ready]
    split <;> rfl
  · rw [th_finish_ne _ _ (by rwa [hf.cur]), th_orFlags_ne _ _ _ hk, th_longResult_ne _ _ _ _ hk]
  all_goals
    rw [me_finish, hm, hl, me_longResult_ready]
    split <;> split <;> simp [longMask, pcMask]

/-- Settles O5: the words are `fp`, `fpBool` and `fpLong` of their results. -/
theorem floatResults : Obligations.FloatResults := by
  refine ⟨fun s d a b => ?_, fun s d a b q => ?_⟩
  · exact ⟨gives_fp rfl, gives_fp rfl, gives_fp rfl, gives_fp rfl, gives_fp rfl, gives_fp rfl, gives_fpBool rfl, gives_fpBool rfl,
      gives_fpBool rfl, gives_fp rfl, gives_fp rfl, gives_fp rfl, gives_fp rfl, gives_fp rfl, gives_fp rfl, gives_fp rfl,
      gives_fpBool rfl, gives_fpBool rfl, gives_fpBool rfl, gives_fp rfl, gives_fp rfl, gives_fp rfl, gives_fp rfl, gives_fp rfl,
      gives_fp rfl, gives_fp rfl⟩
  · exact ⟨gives_fpLong rfl, gives_fpLong rfl, gives_fpLong rfl, gives_fpLong rfl⟩

end Sys2Proof
end

section
/-! PROOFS. Numbers and their bytes (R3), and lists with one element replaced or taken out. -/

namespace Sys2Proof

open Machine

theorem bytesNat_lt (bs : List Byte) : bytesNat bs < 256 ^ bs.length := by
  induction bs with
  | nil => simp [bytesNat]
  | cons b bs ih =>
    have := b.isLt
    simp only [bytesNat, List.length_cons, pow_succ]
    omega

theorem bytesNat_append (as bs : List Byte) : bytesNat (as ++ bs) = bytesNat as + 256 ^ as.length * bytesNat bs := by
  induction as with
  | nil => simp [bytesNat]
  | cons a as ih =>
    simp only [List.cons_append, bytesNat, ih, List.length_cons, pow_succ]
    ring

/-- The bytes of a number, the least significant first, give the number modulo what they hold. -/
theorem bytesNat_digits (v n : Nat) :
    bytesNat ((List.range n).map fun i => BitVec.ofNat 8 (v / 2 ^ (8 * i))) = v % 2 ^ (8 * n) := by
  induction n with
  | zero => simp [bytesNat, Nat.mod_one]
  | succ n ih =>
    rw [List.range_succ, List.map_append, bytesNat_append, ih, List.length_map, List.length_range,
      show 8 * (n + 1) = 8 * n + 8 by ring, pow_add 2 (8 * n) 8, Nat.mod_mul, show 256 ^ n = 2 ^ (8 * n) by rw [pow_mul]; norm_num]
    simp [bytesNat]

@[simp] theorem natBytes_length (n v : Nat) : (natBytes n v).length = n := by
  induction n generalizing v with
  | zero => rfl
  | succ n ih => simp [natBytes, ih]

theorem bytesNat_natBytes (n v : Nat) : bytesNat (natBytes n v) = v % 256 ^ n := by
  induction n generalizing v with
  | zero => simp [natBytes, bytesNat, Nat.mod_one]
  | succ n ih => rw [natBytes, bytesNat, ih, BitVec.toNat_ofNat, pow_succ' 256, Nat.mod_mul (b := 256 ^ n)]

@[simp] theorem mbytes_length (m : Memory) (a n : Nat) : (mbytes m a n).length = n := by
  induction n generalizing a with
  | zero => rfl
  | succ n ih => simp [mbytes, ih]

theorem bytesNat_mbytes (m : Memory) (a n : Nat) : bytesNat (mbytes m a n) = mrd m a n := by
  induction n generalizing a with
  | zero => rfl
  | succ n ih => rw [mbytes, bytesNat, ih, mrd]

theorem mrd_lt (m : Memory) (a n : Nat) : mrd m a n < 256 ^ n := by
  have := bytesNat_lt (mbytes m a n)
  rwa [bytesNat_mbytes, mbytes_length] at this

theorem mrd_mod (m : Memory) (a n : Nat) : mrd m a n % 2 ^ (8 * n) = mrd m a n := by
  rw [pow_mul]
  exact Nat.mod_eq_of_lt (mrd_lt m a n)

theorem mbytes_append (m : Memory) (a j k : Nat) : mbytes m a (j + k) = mbytes m a j ++ mbytes m (a + j) k := by
  induction j generalizing a with
  | zero => simp [mbytes]
  | succ j ih => rw [Nat.succ_add, mbytes, ih, mbytes, List.cons_append, Nat.add_right_comm, ← Nat.add_assoc]

theorem natBytes_mrd (m : Memory) (a n : Nat) : natBytes n (mrd m a n) = mbytes m a n := by
  induction n generalizing a with
  | zero => rfl
  | succ n ih =>
    have h := (mget m a).isLt
    rw [natBytes, mrd, mbytes, show ((mget m a).toNat + 256 * mrd m (a + 1) n) / 256 = mrd m (a + 1) n by omega, ih]
    congr 1
    apply BitVec.eq_of_toNat_eq
    rw [BitVec.toNat_ofNat]
    omega

theorem lput_eq_set {α : Type} (l : List α) (n : Nat) (v : α) : lput l n v = l.set n v := by
  induction l generalizing n with
  | nil => cases n <;> rfl
  | cons x l ih => cases n <;> simp [lput, ih]

theorem ldel_eq_eraseIdx {α : Type} (l : List α) (n : Nat) : ldel l n = l.eraseIdx n := by
  induction l generalizing n with
  | nil => cases n <;> rfl
  | cons x l ih => cases n <;> simp [ldel, ih]

end Sys2Proof
end

section
/-! PROOFS. Where an access goes: the windows, device memory by physical addresses (R64, R176, R283, R364). -/

namespace Sys2Proof

open Machine

/-! ### The windows -/

/-- An offset modulo 2^64 from an aligned base is small exactly in the base's block, and then it is the offset there. -/
theorem sub_base_lt_iff (ea : Word) {w k : Nat} (hk : k ≤ 64) (hw : w < 2 ^ 64) :
    (ea - BitVec.ofNat 64 (w / 2 ^ k * 2 ^ k)).toNat < 2 ^ k ↔ ea.toNat / 2 ^ k = w / 2 ^ k := by
  obtain ⟨c, hc⟩ := Nat.pow_dvd_pow 2 hk
  have hB : 0 < 2 ^ k := by positivity
  have hb : w / 2 ^ k * 2 ^ k < 2 ^ k * c := by
    have := Nat.div_mul_le_self w (2 ^ k)
    omega
  have hq : w / 2 ^ k + 1 ≤ c := by
    rw [Nat.mul_comm (w / 2 ^ k)] at hb
    exact Nat.lt_of_mul_lt_mul_left hb
  have htop : w / 2 ^ k * 2 ^ k + 2 ^ k ≤ 2 ^ 64 := by
    have := Nat.mul_le_mul_right (2 ^ k) hq
    rw [Nat.add_mul, Nat.one_mul, Nat.mul_comm c] at this
    omega
  have hea := ea.isLt
  rw [Nat.div_eq_iff hB, BitVec.toNat_sub, BitVec.toNat_ofNat, Nat.mod_eq_of_lt (by omega : w / 2 ^ k * 2 ^ k < 2 ^ 64)]
  generalize 2 ^ k = B at *
  generalize w / B * B = b at *
  omega

theorem sub_base_eq (ea : Word) {w k : Nat} (h : ea.toNat / 2 ^ k = w / 2 ^ k) :
    (ea - BitVec.ofNat 64 (w / 2 ^ k * 2 ^ k)).toNat = ea.toNat % 2 ^ k := by
  have hea := ea.isLt
  have hm := Nat.div_add_mod ea.toNat (2 ^ k)
  have hr := Nat.div_mul_le_self ea.toNat (2 ^ k)
  rw [← h, BitVec.toNat_sub, BitVec.toNat_ofNat, Nat.mod_eq_of_lt (by omega : ea.toNat / 2 ^ k * 2 ^ k < 2 ^ 64)]
  rw [Nat.mul_comm] at hm
  omega

/-- An address is in the scratchpad window at the offset in its 512 KiB block, if the block is the window's (R64). -/
theorem lwbAt_eq (s : State) (tid : Nat) (ea : Word) :
    lwbAt s tid ea = if (th s tid).u.lwb.getLsbD 0 = true ∧ ea.toNat / 2 ^ 19 = (th s tid).u.lwb.toNat / 2 ^ 19
      then some (ea.toNat % 2 ^ 19) else none := by
  have hi := sub_base_lt_iff ea (k := 19) (by decide) (th s tid).u.lwb.isLt
  simp only [lwbAt, bit, show (0x80000 : Nat) = 2 ^ 19 from rfl, hi]
  split
  next h => rw [sub_base_eq ea h.2]
  next h => rfl

theorem lwbAt_of_inScratch {s : State} {ea : Word} {size off : Nat} (h : InScratch s ea size off) :
    lwbAt s s.cur ea = some off := by
  obtain ⟨hb, he, ho, _⟩ := h
  rw [lwbAt_eq, if_pos ⟨hb, by rw [he]; show _ = (me s).u.lwb.toNat / 2 ^ 19; omega⟩, he]
  congr 1
  omega

theorem nearAt_eq_none {s : State} {core : Nat} {ea : Word} (h : NoWindowAt s core ea) : nearAt s core ea = none := by
  have hi := sub_base_lt_iff ea (k := 21) (by decide) (co s core).ncbase.isLt
  simp only [nearAt, bit, hi]
  exact if_neg fun ⟨a, b⟩ => h.elim (fun k => Bool.false_ne_true (k.symm.trans a)) (fun k => k b)

theorem lwbAt_of_noWindow {s : State} {ea : Word} (h : NoWindow s ea) : lwbAt s s.cur ea = none := by
  rw [lwbAt_eq, if_neg]
  exact fun ⟨a, b⟩ => h.1.elim (fun k => Bool.false_ne_true (k.symm.trans a)) (fun k => k b)

theorem nearAt_of_noWindow {s : State} {ea : Word} (h : NoWindow s ea) : nearAt s (s.cur / 16) ea = none := nearAt_eq_none h.2

theorem placeOf_of_inScratch {s : State} {ea : Word} {size off : Nat} (h : InScratch s ea size off) :
    placeOf s s.cur ea size = .spad off := by
  rw [placeOf, lwbAt_of_inScratch h]
  exact if_pos h.2.2.2

theorem placeOf_of_noWindow {s : State} {ea : Word} (h : NoWindow s ea) (size : Nat) : placeOf s s.cur ea size = .global := by
  rw [placeOf, lwbAt_of_noWindow h]
  simp only [coreOf, nearAt_of_noWindow h]

/-- Beyond the scratchpad part of the array (R64). -/
theorem placeOf_of_beyond {s : State} {ea : Word} {size : Nat} (hb : (me s).u.lwb.getLsbD 0 = true)
    (hw : ea.toNat / 2 ^ 19 = (me s).u.lwb.toNat / 2 ^ 19) (ho : (co s (s.cur / 16)).sp * 0x10000 < ea.toNat % 2 ^ 19 + size) :
    placeOf s s.cur ea size = .out := by
  rw [placeOf, lwbAt_eq, if_pos ⟨hb, hw⟩]
  exact if_neg (by rw [spSize, coreOf]; omega)

/-! ### Physical addresses -/

theorem physOf_own {s : State} {k : Nat} (hp : s.pkg < 256) (hk : k < 2 ^ 40) : physOf s (s.pkg * 2 ^ 40 + k) = .mem k := by
  have h1 : ¬2 ^ 56 ≤ s.pkg * 2 ^ 40 + k := by omega
  have h2 : ¬(s.pkg * 2 ^ 40 + k) / 2 ^ 55 = 1 := by omega
  have h3 : (s.pkg * 2 ^ 40 + k) / 2 ^ 48 % 16 = 0 := by omega
  have h4 : (s.pkg * 2 ^ 40 + k) / 2 ^ 52 % 8 = 0 := by omega
  have h5 : (s.pkg * 2 ^ 40 + k) / 2 ^ 40 % 256 = s.pkg := by omega
  have h6 : (s.pkg * 2 ^ 40 + k) % 2 ^ 40 = k := by omega
  simp only [physOf, h1, h2, h3, h4, h5, h6, if_false, if_true, ne_eq, not_true_eq_false]

theorem isOwn_of_lt {k : Nat} (hk : k < 2 ^ 40) : isOwn k = true := decide_eq_true hk

/-- The partition's check lets an access through to its own granule (R283, R351). -/
theorem physCheck_own {s : State} {w : Who} {k : Nat} (hp : s.pkg < 256) (hk : k < 2 ^ 40)
    (hg : (granule s (k / 2 ^ 30)).part = (cx s w.ctx).part) (two : Bool) (gpa : Word) (pbmt : Nat) :
    physCheck s w two gpa (s.pkg * 2 ^ 40 + k) pbmt = .ok (.mem k) (s.pkg * 2 ^ 40 + k) pbmt := by
  have ho : partOwns s (cx s w.ctx).part k = true := by rw [partOwns, isOwn_of_lt hk, if_pos rfl, hg, beq_self_eq_true]
  rw [physCheck, physOf_own hp hk]
  exact if_pos ho

/-- Both stages of a context permit every access and leave its address: the modes are Bare (R284). -/
def BareCtx (c : Ctx) : Prop := c.sxlat.toNat / 2 ^ 60 = 0 ∧ c.hgxlat.toNat / 2 ^ 60 = 0 ∧ c.hostpt = false

theorem stage1_bare {s : State} {w : Who} (h : (cx s w.ctx).sxlat.toNat / 2 ^ 60 = 0) (va : Word) (k : Acc) (upd : Bool) :
    stage1 s w va k upd = (.leaf va.toNat 0xDE 0 [] [], s) := by
  simp only [stage1, h, if_true]

theorem gStage_bare {c : Ctx} (h : c.hgxlat.toNat / 2 ^ 60 = 0) (s : State) (b : Option Nat) (g : Nat) (k : Acc) (imp upd : Bool) :
    gStage s b c g k imp upd = (.ok g 0 [] [], s) := by
  simp only [gStage, h, if_true]

theorem walk_bare {s : State} {w : Who} (hw : w.priv ≠ .hyp) (h : BareCtx (cx s w.ctx)) (va : Word) (k : Acc) (upd : Bool) :
    walk s w va k upd = (physCheck s w false va va.toNat 0, none, s) := by
  obtain ⟨h1, h2, h3⟩ := h
  simp only [walk, hw, stage1_bare h1, gStage_bare h2, h1, h2, h3, show pbmtOf 0xDE 0 = 0 by decide, if_false, if_true, ne_eq,
    not_true_eq_false, decide_false, and_self, BitVec.ofNat_toNat, BitVec.setWidth_eq, Bool.false_eq_true]

theorem tMatch_bare {c : Ctx} (h : BareCtx c) (u : TUse) (w : Who) (va : Word) (k : Acc) (e : TEntry) : tMatch u c w va k e = false := by
  obtain ⟨h1, h2, _⟩ := h
  simp only [tMatch, h1, h2]
  by_cases a : e.mode1 = 0 <;> by_cases b : e.mode2 = 0 <;> simp [a, b]

/-- An access with physical addresses is checked and goes where its address says (R283). -/
theorem xlateBy_physical {s : State} {w : Who} (h : w.priv = .hyp ∨ BareCtx (cx s w.ctx)) (u : TUse) (va : Word) (k : Acc) :
    ∃ g, xlateBy u s w va k = (physCheck s w false g va.toNat 0, s) := by
  by_cases hw : w.priv = .hyp
  · exact ⟨0, by simp only [xlateBy, hw, if_true]⟩
  · have hb := h.resolve_left hw
    refine ⟨va, ?_⟩
    have hn : s.tlb.find? (tMatch u (cx s w.ctx) w va k) = none :=
      List.find?_eq_none.mpr fun e _ => by simp [tMatch_bare hb]
    simp only [xlateBy, hw, if_false, hn, walk_bare hw hb]

theorem xlate_inMemory {s : State} {ea : Word} {size k : Nat} (h : InMemory s ea size k) (hs : 0 < size) (a : Acc) :
    xlate s (whoOf s s.cur) ea a = (.ok (.mem k) ea.toNat 0, s) := by
  obtain ⟨hp, _, hpkg, he, hk, hg⟩ := h
  obtain ⟨g, hx⟩ := xlateBy_physical (w := whoOf s s.cur) hp .core ea a
  rw [xlate, hx, he, physCheck_own hpkg (by omega) hg]

end Sys2Proof
end

section
/-! PROOFS. Scalar loads (R58, R64, R228, R235). -/

namespace Sys2Proof

open Machine

/-! ### What stands in an access's way -/

theorem ownStores_of_nothingPosted {s : State} {tid : Nat} (h : NothingPosted s tid) : ownStores s tid = [] := by
  obtain ⟨h1, h2, _, _⟩ := h
  simp [ownStores, h1, h2]

theorem unstick_of_nothingPosted {s : State} {tid : Nat} (h : ∀ x ∈ s.stuck, x.tid ≠ tid) (kind : Nat) (addr : Word) (seq : Nat) :
    unstick s tid kind addr seq = s := by
  have : s.stuck.filter (fun x => !(x.tid == tid && x.kind == kind && x.seq == seq && x.addr == addr)) = s.stuck :=
    List.filter_eq_self.mpr fun x hx => by simp [h x hx]
  rw [unstick, this]

theorem mustWait_of_posts {s : State} {tid : Nat} (h : ∀ p ∈ s.posts, p.tid ≠ tid) (ea : Word) (l : Loc) (n : Nat) :
    mustWait s tid [] ea l n 0 = false := by
  have : (s.posts.any fun p => p.tid == tid && (p.kind == .test || clash p.loc 8 l n)) = false :=
    List.any_eq_false.mpr fun p hp => by simp [h p hp]
  simp only [mustWait, this, List.any_nil, Bool.or_false]
  rfl

/-- A load of a thread with nothing on its way finds what stands at the place (R64, R228). -/
theorem readLoc_of_nothingPosted {s : State} {tid : Nat} (h : NothingPosted s tid) {l : Loc} {n v : Nat} (ea : Word)
    (hp : homeReach s l = true) (hd : homeDenied s (partOf s tid) l = false) (hv : viewOf s tid l n 0 = some v)
    (hb : v % 2 ^ (8 * n) = v) (hf : (fillFor s tid l 0).stuck = s.stuck) :
    readLoc s tid ea l n 0 = .value v (fillFor s tid l 0) := by
  have hu : unstick (fillFor s tid l 0) tid 0 ea 0 = fillFor s tid l 0 :=
    unstick_of_nothingPosted (by rw [hf]; exact h.2.2.2) 0 ea 0
  simp only [readLoc, ownStores_of_nothingPosted h, mustWait_of_posts h.2.2.1, hd, hu, hv, lastStore, List.foldl_nil, pathFor, hp,
    bytesNat_digits, hb]
  rfl

/-! ### The bytes of a place -/

theorem viewOf_spad {s : State} {c o n : Nat} (h : poisoned s (.spad c o) n = false) (tid : Nat) :
    viewOf s tid (.spad c o) n 0 = some (mrd s.spads (c * 0x80000 + o) n) := by
  simp only [viewOf, h, rdLoc, spKey]
  rfl

theorem haloAt_nil {s : State} (h : s.halos = []) (k : Nat) : haloAt s k = none := by simp only [haloAt, h, List.findSome?_nil]

theorem l1Copy_of_absent {c : Core} {line : Nat} (h : ∀ e ∈ c.l1, e.1 ≠ line) : l1Copy c line = none := by
  have : (c.l1.find? fun e => e.1 = line) = none := List.find?_eq_none.mpr fun e he => by simp [h e he]
  simp only [l1Copy, this]

theorem isPeer_of_own {k : Nat} (h : k < 2 ^ 40) : isPeer k = false := by
  rw [isPeer, decide_eq_false (by omega : ¬2 ^ 48 ≤ k), Bool.false_and]

theorem isHost_of_own {k : Nat} (h : k < 2 ^ 40) : isHost k = false := decide_eq_false (by omega)

/-- A byte of own device memory with no copy in the core's array is read at its home (R228). -/
theorem viewOf_own {s : State} {tid k n : Nat} (hk : k < 2 ^ 40) (hp : s.poison = []) (hh : s.halos = []) (hd : s.haloDirty = [])
    (hr : s.haloRep = []) (hl : ∀ e ∈ (co s (tid / 16)).l1, e.1 ≠ k / 128) :
    viewOf s tid (.mem k) n 0 = some (mrd s.mem k n) := by
  have hb : ∀ i, haloByte s tid i = none := fun i => by simp [haloByte, hd, hr]
  simp only [viewOf, coreOf, l1Copy_of_absent hl, haloAt_nil hh, poisoned, hp, List.any_nil, l2rd, isPeer_of_own hk, isHost_of_own hk,
    hb, Option.getD_none, Bool.false_eq_true, or_self, if_false, Option.isNone_none, and_self, if_true, Option.map_some,
    bytesNat_digits, mrd_mod]

/-- The fill of a line of own device memory changes at most the L1 part of the core's array (R228, R230). -/
theorem fillFor_own {s : State} {tid k : Nat} (hk : k < 2 ^ 40) :
    fillFor s tid (.mem k) 0 = s ∨ ∃ l, fillFor s tid (.mem k) 0 = setCo s (tid / 16) { co s (tid / 16) with l1 := l } := by
  have hline : k / 128 * 128 < 2 ^ 40 := by omega
  have h2 : l2fill s (k / 128) = s := by
    simp only [l2fill, isPeer_of_own hline, isHost_of_own hline, Bool.false_eq_true, if_false]
  simp only [fillFor, h2, l1fill, coreOf]
  split
  · exact .inl rfl
  · split
    · exact .inl rfl
    · split
      · exact .inr ⟨_, rfl⟩
      · exact .inl rfl

/-! ### The words -/

theorem memAddr_eq (s : State) (a : BitVec 5) (imm : BitVec 8) (size : Nat) : memAddr s a imm size = accessAddr s a imm size := by
  rw [memAddr, accessAddr, imm8, BitVec.signExtend, BitVec.ofInt_mul, BitVec.ofInt_natCast]

theorem vstPending_nil {t : Thread} (h : t.v.queue = []) : vstPending t = false := by rw [vstPending, h]; rfl

/-- What a load is, for each of the seven forms. -/
theorem exec_of_loadForms {p : BitVec 1} {d a : BitVec 5} {la : BitVec 4} {imm : BitVec 8} {f : Instr × Nat × Bool}
    (h : f ∈ loadForms p d a la imm) (s : State) :
    exec f.1 s = load s p d a la imm f.2.1 f.2.2 ∧ f.2.1 ∈ [1, 2, 4, 8] ∧ (f.2.2 = false → f.2.1 ≠ 8) := by
  simp only [loadForms, List.mem_cons, List.not_mem_nil, or_false] at h
  rcases h with rfl | rfl | rfl | rfl | rfl | rfl | rfl <;> exact ⟨rfl, by simp, by simp⟩

theorem extend_eq_loaded {n v : Nat} (hn : n ∈ [1, 2, 4, 8]) (b : Bool) : extend n b v = loaded n b v := by
  cases b
  · rfl
  · simp only [List.mem_cons, List.not_mem_nil, or_false] at hn
    rcases hn with rfl | rfl | rfl | rfl
    · rfl
    · rfl
    · rfl
    · exact (BitVec.ofInt_toInt (x := BitVec.ofNat 64 v)).symm

/-- A load that finds its value. -/
theorem load_of_value {s s1 : State} {p : BitVec 1} {d a : BitVec 5} {la : BitVec 4} {imm : BitVec 8} {n v : Nat} {b : Bool}
    (hq : (me s).v.queue = []) (hn : n ∈ [1, 2, 4, 8]) (h : loadAt s (accessAddr s a imm n) n = .value v s1) :
    load s p d a la imm n b = .next (finish (longResult s1 d la (.ready (loaded n b v))) p) := by
  simp only [load, vstPending_nil hq, memAddr_eq, h, extend_eq_loaded hn, Bool.false_eq_true, if_false]

/-- A load that ends in a trap. -/
theorem load_of_ends {s s1 : State} {p : BitVec 1} {d a : BitVec 5} {la : BitVec 4} {imm : BitVec 8} {n : Nat} {b : Bool}
    (hq : (me s).v.queue = []) (h : loadAt s (accessAddr s a imm n) n = .ends s1) : load s p d a la imm n b = .next s1 := by
  simp only [load, vstPending_nil hq, memAddr_eq, h, Bool.false_eq_true, if_false]

theorem loadAt_of_spad {s : State} {ea : Word} {n off : Nat} (ha : ea.toNat % n = 0) (h : placeOf s s.cur ea n = .spad off) :
    loadAt s ea n = readLoc s s.cur ea (.spad (s.cur / 16) off) n 0 := by
  simp only [loadAt, ha, h, ne_eq, not_true_eq_false, if_false, coreOf]

theorem loadAt_of_out {s : State} {ea : Word} {n : Nat} (ha : ea.toNat % n = 0) (h : placeOf s s.cur ea n = .out) :
    loadAt s ea n = .ends (raise s 6 ea) := by
  simp only [loadAt, ha, h, ne_eq, not_true_eq_false, if_false]

theorem loadAt_of_global {s s1 : State} {ea : Word} {n pa pb : Nat} {l : Loc} (ha : ea.toNat % n = 0)
    (h : placeOf s s.cur ea n = .global) (hx : xlate s (whoOf s s.cur) ea .load = (.ok l pa pb, s1)) :
    loadAt s ea n = readLoc s1 s1.cur ea l n pb := by
  simp only [loadAt, ha, h, hx, ne_eq, not_true_eq_false, if_false]

/-- Settles O11: the two precise faults come before anything is read. -/
theorem loadFaults : Obligations.LoadFaults := by
  intro s p d a la imm f hf ea q
  obtain ⟨he, _, _⟩ := exec_of_loadForms hf s
  refine ⟨fun h => ⟨_, he.trans (load_of_ends q.2 (if_pos h)), trapTo_raise q 5 _⟩, fun h hb hw ho =>
    ⟨_, he.trans (load_of_ends q.2 ?_), trapTo_raise q 6 _⟩⟩
  exact loadAt_of_out h (placeOf_of_beyond hb hw ho)

/-! ### Loads of the scratchpad and of device memory -/

theorem loadAt_inScratch {s : State} {ea : Word} {n off : Nat} (ha : ea.toNat % n = 0) (hi : InScratch s ea n off)
    (hp : NothingPosted s s.cur) (he : poisoned s (.spad (s.cur / 16) off) n = false) :
    loadAt s ea n = .value (mrd s.spads (s.cur / 16 * 0x80000 + off) n) s := by
  rw [loadAt_of_spad ha (placeOf_of_inScratch hi)]
  exact readLoc_of_nothingPosted hp ea rfl rfl (viewOf_spad he s.cur) (mrd_mod ..) rfl

theorem loadAt_inMemory {s : State} {ea : Word} {n k : Nat} (ha : ea.toNat % n = 0) (hn : 0 < n) (hi : InMemory s ea n k)
    (hp : NothingPosted s s.cur) (he : s.poison = []) (hh : s.halos = []) (hd : s.haloDirty = []) (hr : s.haloRep = [])
    (hl : ∀ e ∈ (co s (s.cur / 16)).l1, e.1 ≠ k / 128) :
    loadAt s ea n = .value (mrd s.mem k n) (fillFor s s.cur (.mem k) 0) := by
  obtain ⟨_, hnw, _, _, hk, _⟩ := id hi
  have hk : k < 2 ^ 40 := by omega
  rw [loadAt_of_global ha (placeOf_of_noWindow hnw n) (xlate_inMemory hi hn .load)]
  refine readLoc_of_nothingPosted hp ea ?_ ?_ (viewOf_own hk he hh hd hr hl) (mrd_mod ..) ?_
  · rw [homeReach, isPeer_of_own hk]; rfl
  · rw [homeDenied, isPeer_of_own hk]; rfl
  · rcases fillFor_own (s := s) (tid := s.cur) hk with h | ⟨l, h⟩
    · rw [h]
    · rw [h]; rfl

/-! ### A store of the thread that is still queued -/

theorem me_pushStore (s : State) (x : Store) :
    me (pushStore s s.cur x) = { me s with stores := (me s).stores ++ [{ x with seq := s.order }] } := th_setTh ..

theorem entriesAfter_le (a : Store) (run : Nat) (l : List Store) : entriesAfter a run l ≤ l.length := by
  induction l generalizing a run with
  | nil => exact le_rfl
  | cons b l ih =>
    rw [entriesAfter, List.length_cons]
    split
    · exact (ih _ _).trans (Nat.le_succ _)
    · have := ih b b.nelem
      omega

/-- A store queue has no more entries than stores (R244). -/
theorem entriesOf_le (l : List Store) : entriesOf l ≤ l.length := by
  cases l with
  | nil => exact le_rfl
  | cons a l =>
    have := entriesAfter_le a a.nelem l
    rw [entriesOf, List.length_cons]
    omega

theorem storeFull_eq_false {t : Thread} (h : t.stores.length < 64) : storeFull t = false :=
  decide_eq_false (by have := entriesOf_le t.stores; omega)

/-- A misaligned store raises its trap (R64). -/
theorem store_of_misaligned {s : State} {p : BitVec 1} {d a : BitVec 5} {imm : BitVec 8} {n : Nat}
    (ha : (accessAddr s a imm n).toNat % n ≠ 0) (w : Nat) :
    store s p d a imm n w = .next (raise s 5 (accessAddr s a imm n)) := by
  simp only [store, memAddr_eq, if_pos ha]

/-- An aligned store with room in the queue enters it (R244). -/
theorem store_of_room {s : State} {p : BitVec 1} {d a : BitVec 5} {imm : BitVec 8} {n w : Nat}
    (ha : (accessAddr s a imm n).toNat % n = 0) (hq : (me s).v.queue = []) (hs : (me s).stores.length < 64) :
    store s p d a imm n w = .next (finish (pushStore s s.cur (storeOf s (accessAddr s a imm n) n (rd s d) w)) p) := by
  simp only [store, memAddr_eq, ha, vstPending_nil hq, storeFull_eq_false hs, ne_eq, not_true_eq_false, if_false, Bool.false_eq_true,
    or_self]

theorem storeOf_inScratch {s : State} {ea : Word} {n off : Nat} (h : InScratch s ea n off) (v : Word) (w : Nat) :
    (storeOf s ea n v w).space = .scratch ∧ (storeOf s ea n v w).off = off := by
  simp only [storeOf, lwbAt_of_inScratch h, and_self]

theorem storeOf_noWindow {s : State} {ea : Word} (h : NoWindow s ea) (n : Nat) (v : Word) (w : Nat) :
    (storeOf s ea n v w).space = .global := by
  simp only [storeOf, lwbAt_of_noWindow h, coreOf, nearAt_of_noWindow h]

/-- What a store keeps of its word, whatever window its address is in. -/
theorem storeOf_fields (s : State) (ea : Word) (n : Nat) (v : Word) (w : Nat) :
    (storeOf s ea n v w).addr = ea ∧ (storeOf s ea n v w).width = n ∧
    (storeOf s ea n v w).data = BitVec.ofNat 64 (v.toNat % 2 ^ (8 * n)) ∧ (storeOf s ea n v w).op = .put ∧
    (storeOf s ea n v w).pc = (me s).pc ∧ (storeOf s ea n v w).slot = s.slot ∧ (storeOf s ea n v w).priv = (me s).priv ∧
    (storeOf s ea n v w).elem = 0 ∧ (storeOf s ea n v w).word = w ∧ (storeOf s ea n v w).pbmt = 0 := by
  simp only [storeOf]
  split
  · simp only [and_self]
  · split <;> simp only [and_self]

/-- What a store is, for each of the four forms. -/
theorem exec_of_storeForms {p : BitVec 1} {d a : BitVec 5} {imm : BitVec 8} {f : Instr × Nat} (h : f ∈ storeForms p d a imm)
    (s : State) : ∃ w, encode f.1 = some w ∧ exec f.1 s = store s p d a imm f.2 w := by
  simp only [storeForms, List.mem_cons, List.not_mem_nil, or_false] at h
  rcases h with rfl | rfl | rfl | rfl <;> exact ⟨_, rfl, rfl⟩

/-- A word that queues a store leaves the rest of its thread, the other threads and the state. -/
theorem storeMask_finish_pushStore (s : State) (x : Store) (p : BitVec 1) :
    storeMask (me (finish (pushStore s s.cur x) p)) (me s) = me s := by
  have hm := me_pushStore s x
  rw [me_finish, hm]
  split <;> rfl

theorem stores_finish_pushStore (s : State) (x : Store) (p : BitVec 1) :
    (me (finish (pushStore s s.cur x) p)).stores = (me s).stores ++ [{ x with seq := s.order }] := by
  rw [me_finish, me_pushStore]
  split <;> rfl

theorem th_finish_pushStore_ne (s : State) (x : Store) (p : BitVec 1) {k : Nat} (h : k ≠ s.cur) :
    th (finish (pushStore s s.cur x) p) k = th s k :=
  (th_finish_ne (pushStore s s.cur x) p h).trans (th_setTh_ne s _ h)

theorem finish_pushStore_sameButOrder (s : State) (x : Store) (p : BitVec 1) : SameButOrder s (finish (pushStore s s.cur x) p) := by
  rw [SameButOrder, finish, goto]
  split <;> rfl

/-- Settles O12: past the check of its alignment, a store is queued as it was issued. -/
theorem stores : Obligations.Stores := by
  intro s p d a imm f hf ea
  obtain ⟨w, hw, he⟩ := exec_of_storeForms hf s
  refine ⟨fun ha hq hs => ?_, fun ha q => ⟨_, he.trans (store_of_misaligned ha w), trapTo_raise q 5 _⟩⟩
  · obtain ⟨h1, h2, h3, h4, h5, h6, h7, h8, h9, _⟩ := storeOf_fields s ea f.2 (rd s d) w
    exact ⟨_, { storeOf s ea f.2 (rd s d) w with seq := s.order }, he.trans (store_of_room ha hq hs),
      behind_finish p rfl (by rw [me_pushStore]), stores_finish_pushStore .., h1, h2, h3, h4, h5, h6, h7, h8, rfl, by rw [hw]; exact congrArg some h9,
      fun off hi => storeOf_inScratch hi _ _, fun hn => storeOf_noWindow hn _ _ _, storeMask_finish_pushStore ..,
      fun k hk => th_finish_pushStore_ne s _ p hk, finish_pushStore_sameButOrder .., fun b => by rw [finish, goto]; split <;> rfl⟩

/-! ### A load of the bytes of a queued store -/

theorem lastStore_single {x : Store} {l : Loc} {i : Nat} (k : Nat) (h : within l x.width l i = some k) :
    lastStore [(x, some l)] l i = some (x, k) := by
  simp only [lastStore, List.foldl_cons, List.foldl_nil, h]

theorem within_spad {c o n i : Nat} (h : i < n) : within (.spad c o) n (.spad c o) i = some i := by
  simp only [within, true_and]
  rw [if_pos (by omega)]
  congr 1
  omega

/-- The queue holds one plain store, into the own scratchpad: a load of its bytes is given its data (R235). -/
theorem readLoc_of_queued {s : State} {tid o n : Nat} {x : Store} (hs : (th s tid).stores = [x]) (hsent : (th s tid).sent = [])
    (hsp : x.space = .scratch) (ho : x.off = o) (hw : x.width = n) (hop : x.op = .put) (hpb : x.pbmt = 0) (ha : o % n = 0)
    (hr : o + n ≤ (co s (tid / 16)).sp * 0x10000) (hp : ∀ p ∈ s.posts, p.tid ≠ tid) (hk : ∀ k ∈ s.stuck, k.tid ≠ tid) (ea : Word) :
    readLoc s tid ea (.spad (tid / 16) o) n 0 = .value (x.data.toNat % 2 ^ (8 * n)) s := by
  have hc : (checkStore s tid x).1 = .ok (.spad (tid / 16) o) 0 := by
    simp only [checkStore, hsp, ho, hw, ha, spSize, coreOf, hr, ne_eq, not_true_eq_false, and_false, false_and, if_false, if_true]
  have hown : ownStores s tid = [(x, some (.spad (tid / 16) o))] := by
    simp only [ownStores, hs, hsent, List.map_nil, List.nil_append, List.filterMap_cons, hc, List.filterMap_nil]
  have hposts : (s.posts.any fun p => p.tid == tid && (p.kind == .test || clash p.loc 8 (.spad (tid / 16) o) n)) = false :=
    List.any_eq_false.mpr fun p h => by simp [hp p h]
  have hmust : mustWait s tid [(x, some (.spad (tid / 16) o))] ea (.spad (tid / 16) o) n 0 = false := by
    simp only [mustWait, hposts, List.any_cons, List.any_nil, hop, hpb]
    rfl
  have hlast : ∀ i < n, lastStore [(x, some (.spad (tid / 16) o))] (.spad (tid / 16) o) i = some (x, i) := fun i hi =>
    lastStore_single i (by rw [hw]; exact within_spad hi)
  have hfind : (List.range n).map (lastStore [(x, some (.spad (tid / 16) o))] (.spad (tid / 16) o)) =
      (List.range n).map fun i => some (x, i) := List.map_congr_left fun i hi => hlast i (List.mem_range.mp hi)
  have hu : unstick s tid 0 ea 0 = s := unstick_of_nothingPosted hk 0 ea 0
  have hbytes : ∀ g : Nat → Byte, (∀ i < n, g i = BitVec.ofNat 8 (x.data.toNat / 2 ^ (8 * i))) →
      bytesNat ((List.range n).map g) = x.data.toNat % 2 ^ (8 * n) := fun g hg => by
    rw [← bytesNat_digits, List.map_congr_left fun i hi => hg i (List.mem_range.mp hi)]
  simp only [readLoc, hown, hmust, pathFor, homeReach, homeDenied, fillFor, hu, Bool.false_eq_true, if_false, Bool.true_or, Bool.not_true,
    false_and]
  split
  next v _ => rw [hbytes _ fun i hi => by rw [hlast i hi]]
  next _ =>
    rw [hfind, if_pos (by simp), List.map_map]
    exact congrArg (Ld.value · s) (hbytes _ fun i _ => rfl)

/-! ### The statement -/

/-- A load of own device memory: beside its thread, only the L1 part of its core's array may change. -/
theorem load_inMemory_frame {s s1 : State} (h : s1 = s ∨ ∃ l, s1 = setCo s (s.cur / 16) { co s (s.cur / 16) with l1 := l })
    (p : BitVec 1) (d : BitVec 5) (la : BitVec 4) (v : Word) :
    let t := finish (longResult s1 d la (.ready v)) p
    Behind s t p ∧
      (me t).longs = (me s).longs ++ (if d = 0 then []
        else [{ d := d.toNat, left := la.toNat, res := .ready v, pc := (me s).pc }]) ∧
      longMask (me t) (me s) = me s ∧ OthersSame s t s.cur ∧
      { t with threads := s.threads, last := s.last, cores := s.cores } = s ∧
      (∀ c, c ≠ s.cur / 16 → co t c = co s c) ∧ { co t (s.cur / 16) with l1 := (co s (s.cur / 16)).l1 } = co s (s.cur / 16) ∧
      ∀ b, mget t.mem b = mget s.mem b := by
  intro t
  obtain ⟨hbeh, ⟨hout, hoth, hmask, hmem⟩, hlongs⟩ := longWord_finish s1 p d la v
  have hcores : t.cores = s1.cores := hout.cores
  have hco : ∀ c, co t c = co s1 c := fun c => by rw [co, hcores]; rfl
  rcases h with rfl | ⟨l, rfl⟩
  · exact ⟨hbeh, hlongs, hmask, hoth, by
      have := congrArg (fun x : State => { x with cores := s1.cores }) hout
      exact this, fun c _ => hco c, by rw [hco], hmem⟩
  · refine ⟨hbeh, hlongs, hmask, hoth, ?_, fun c hc => ?_, ?_, hmem⟩
    · exact congrArg (fun x : State => { x with cores := s.cores }) hout
    · rw [hco]; exact co_setCo_ne s _ hc
    · rw [hco, co_setCo]

/-- After a store to the scratchpad alone in the queue, a load of the same bytes is given its data. -/
theorem loadAt_after_store {s : State} {ea : Word} {off : Nat} (ha : ea.toNat % 8 = 0) (hi : InScratch s ea 8 off)
    (hp : NothingPosted s s.cur) (p : BitVec 1) (v : Word) (w : Nat) :
    let t := finish (pushStore s s.cur (storeOf s ea 8 v w)) p
    loadAt t ea 8 = .value v.toNat t ∧ ((me s).v.queue = [] → (me t).v.queue = []) := by
  intro t
  obtain ⟨hst, hsent, hposts, hstuck⟩ := hp
  have hmask : storeMask (me t) (me s) = me s := storeMask_finish_pushStore ..
  have hout : SameButOrder s t := finish_pushStore_sameButOrder ..
  have hcur : t.cur = s.cur := by have := congrArg State.cur hout; exact this
  have hcores : t.cores = s.cores := by have := congrArg State.cores hout; exact this
  have hpos : t.posts = s.posts := by have := congrArg State.posts hout; exact this
  have hstk : t.stuck = s.stuck := by have := congrArg State.stuck hout; exact this
  have hu : (me t).u = (me s).u := by have := congrArg Thread.u hmask; exact this
  have hv : (me t).v = (me s).v := by have := congrArg Thread.v hmask; exact this
  have hse : (me t).sent = (me s).sent := by have := congrArg Thread.sent hmask; exact this
  have hstores : (me t).stores = [{ storeOf s ea 8 v w with seq := s.order }] :=
    (stores_finish_pushStore ..).trans (by rw [show (me s).stores = [] from hst, List.nil_append])
  obtain ⟨_, hw, hd, hop, _, _, _, _, _, hpb⟩ := storeOf_fields s ea 8 v w
  obtain ⟨hspace, hoff⟩ := storeOf_inScratch hi v w
  have hi' : InScratch t ea 8 off := by rw [InScratch, co, hcur, hcores, hu]; exact hi
  have hal : off % 8 = 0 := by
    obtain ⟨_, he, _, _⟩ := hi
    omega
  refine ⟨?_, fun hq => by rw [hv, hq]⟩
  rw [loadAt_of_spad ha (placeOf_of_inScratch hi'), readLoc_of_queued hstores (hse.trans hsent) hspace hoff hw hop hpb hal hi'.2.2.2
    (by rw [hpos, hcur]; exact hposts) (by rw [hstk, hcur]; exact hstuck)]
  have := v.isLt
  rw [hd, BitVec.toNat_ofNat]
  congr 1
  omega

/-- Settles O10: a load is given what `readLoc` finds, and its result waits under the lookahead count. -/
theorem loads : Obligations.Loads := by
  refine ⟨?_, ?_, ?_⟩
  · intro s p d a la imm off f hf ea ha hi hq hp he
    obtain ⟨hx, hn, _⟩ := exec_of_loadForms hf s
    exact ⟨_, hx.trans (load_of_value hq hn (loadAt_inScratch ha hi hp he)), longWord_finish ..⟩
  · intro s p d a la imm k f hf ea ha hi hq hp he hh hd hr hl
    obtain ⟨hx, hn, _⟩ := exec_of_loadForms hf s
    have hpos : 0 < f.2.1 := by
      simp only [List.mem_cons, List.not_mem_nil, or_false] at hn
      omega
    have hk : k < 2 ^ 40 := by
      obtain ⟨_, _, _, _, hk, _⟩ := hi
      omega
    exact ⟨_, hx.trans (load_of_value hq hn (loadAt_inMemory ha hpos hi hp he hh hd hr hl)),
      load_inMemory_frame (fillFor_own hk) p d la _⟩
  · intro s t p q d e a b la imm off ea _ ha hi hq hp ht hb
    have hroom : (me s).stores.length < 64 := by rw [show (me s).stores = [] from hp.1]; decide
    have hstore : exec (.std p d a imm) s = _ := store_of_room (w := wordStd p d a imm) ha hq hroom
    obtain rfl := Host.Outcome.next.inj (hstore.symm.trans ht)
    obtain ⟨hl, hq'⟩ := loadAt_after_store ha hi hp p (rd s d) (wordStd p d a imm)
    have hload : exec (.ldd q e b la imm) _ = _ := load_of_value (hq' hq) (by decide) (by rw [hb]; exact hl)
    refine ⟨_, hload, ?_⟩
    have hv : loaded 8 true (rd s d).toNat = rd s d := by
      rw [loaded, if_pos rfl, BitVec.ofNat_toNat, BitVec.ofInt_toInt, BitVec.setWidth_eq]
    rw [hv]
    exact longWord_finish ..

/-- Settles O14: the n-th entry, whose value is known, writes its register. -/
theorem longResultArrives : Obligations.LongResultArrives := by
  intro s tid n l v hl hr _
  have hx : exec (.longResultWrite tid n) s = .next (setTh (wrOf s tid l.d v) tid { th (wrOf s tid l.d v) tid with
      longs := if l.left = 0 then ldel (th (wrOf s tid l.d v) tid).longs n
        else lput (th (wrOf s tid l.d v) tid).longs n { l with res := .written } }) := by
    show execLongResultWrite tid n s = _
    simp only [execLongResultWrite, hl, hr]
  refine ⟨_, hx, ?_⟩
  by_cases hd : l.d = 0
  · have hw : wrOf s tid l.d v = s := if_pos hd
    rw [hw, th_setTh]
    exact ⟨rfl, fun k hk => th_setTh_ne s _ hk, fun h => absurd hd h, fun _ _ => rfl, rfl, rfl⟩
  · have hw : wrOf s tid l.d v = setTh s tid { th s tid with g := tput (th s tid).g l.d v } := if_neg hd
    rw [hw, th_setTh]
    refine ⟨rfl, fun k hk => (th_setTh_ne _ _ hk).trans (th_setTh_ne s _ hk), fun _ => ?_, fun r h => ?_, ?_, ?_⟩
    all_goals rw [th_setTh]
    · exact tget_tput_same ..
    · exact tget_tput_ne _ _ _ (h.resolve_right hd)

end Sys2Proof
end

section
/-! PROOFS. The system registers: the checks of an access, and what each reads (R36, R61, R81, R114, R145-R148). -/

namespace Sys2Proof

open Machine

/-! ### The checks of an access -/

/-- Step 1: the reserved band (R36). -/
theorem sregGate_reserved {s : State} {idx : Nat} (w : Nat) (h : idx / 1024 = 1) : sregGate s idx w = some (illegal s w) := if_pos h

/-- Step 2 from user privilege. -/
theorem sregGate_user {s : State} {idx : Nat} (w : Nat) (h : idx / 1024 = 2 ∨ idx / 1024 = 3) (hp : (me s).priv = .user) :
    sregGate s idx w = some (raise s 3 (BitVec.ofNat 64 w)) := by
  rw [sregGate, if_neg (by omega), if_pos ⟨hp, by omega⟩]

/-- Step 2 from supervisor privilege. -/
theorem sregGate_sup {s : State} {idx : Nat} (w : Nat) (h : idx / 1024 = 3) (hp : (me s).priv = .sup) :
    sregGate s idx w = some (raise s 4 (BitVec.ofNat 64 w)) := by
  rw [sregGate, if_neg (by omega), if_neg (by simp [hp]), if_pos ⟨hp, h⟩]

/-- The thread's privilege reaches a register's band, which is not the reserved one. -/
def Reaches (s : State) (idx : Nat) : Prop :=
  idx / 1024 ≠ 1 ∧ ((me s).priv = .user → idx / 1024 = 0) ∧ ((me s).priv = .sup → idx / 1024 ≠ 3)

theorem reaches_user {s : State} {idx : Nat} (h : idx / 1024 = 0) : Reaches s idx := ⟨by omega, fun _ => h, fun _ => by omega⟩

theorem reaches_sup {s : State} {idx : Nat} (h : idx / 1024 = 2) (hp : (me s).priv ≠ .user) : Reaches s idx :=
  ⟨by omega, fun k => absurd k hp, fun _ => by omega⟩

theorem reaches_hyp {s : State} {idx : Nat} (h : idx / 1024 ≠ 1) (hp : (me s).priv = .hyp) : Reaches s idx :=
  ⟨h, fun k => absurd (hp.symm.trans k) (by decide), fun k => absurd (hp.symm.trans k) (by decide)⟩

/-- Step 3, past the privilege: whether the register exists, and the gate of the tile registers (R36, R145, R146). -/
theorem sregGate_reaches {s : State} {idx : Nat} (w : Nat) (h : Reaches s idx) : sregGate s idx w =
    if (sregRead s idx).isNone then some (illegal s w) else if 0x180 ≤ idx ∧ idx ≤ 0x187 then tileGate s w false else none := by
  obtain ⟨h1, hu, hs⟩ := h
  rw [sregGate, if_neg h1, if_neg fun k => k.2 (hu k.1), if_neg fun k => hs k.1 k.2]

theorem sregGate_missing {s : State} {idx : Nat} (w : Nat) (h : Reaches s idx) (hr : sregRead s idx = none) :
    sregGate s idx w = some (illegal s w) := by
  rw [sregGate_reaches w h, if_pos (by rw [hr]; rfl)]

theorem sregGate_open {s : State} {idx : Nat} {v : Word} (w : Nat) (h : Reaches s idx) (hr : sregRead s idx = some v)
    (ht : 0x180 ≤ idx ∧ idx ≤ 0x187 → tileGate s w false = none) : sregGate s idx w = none := by
  rw [sregGate_reaches w h, if_neg (by rw [hr]; exact Bool.false_ne_true)]
  split
  next k => exact ht k
  next _ => rfl

/-! ### An access in steps -/

/-- An access that a check stops (R36). -/
theorem sregWord_stopped {s t : State} {idx w : Nat} (h : sregGate s idx w = some t) (p : BitVec 1) (d : BitVec 5)
    (f : Word → Option Word) : sregWord s p d idx w f = t := by
  simp only [sregWord, h]

theorem stageOf_fresh {s : State} (h : Fresh s) : stageOf s = 0 := by
  rw [Fresh] at h
  simp only [stageOf, h]

/-- An access that makes no write gives the value of the register (R61). -/
theorem sregWord_reads {s : State} {idx w : Nat} {f : Word → Option Word} {v : Word} (hg : sregGate s idx w = none)
    (hw : sregWaits s idx = false) (hf : Fresh s) (hr : sregRead s idx = some v) (hn : f v = none) (p : BitVec 1) (d : BitVec 5) :
    sregWord s p d idx w f = finish (wr s d v) p := by
  simp only [sregWord, hg, hw, stageOf_fresh hf, hr, Option.getD_some, hn, Bool.false_eq_true, if_false, Nat.zero_ne_one]

/-- An access that makes a write gives the old value (R61). -/
theorem sregWord_writes {s t : State} {idx w : Nat} {f : Word → Option Word} {v n : Word} (hg : sregGate s idx w = none)
    (hw : sregWaits s idx = false) (hf : Fresh s) (hr : sregRead s idx = some v) (hn : f v = some n)
    (ho : sregWrite s idx n w = .ok t) (p : BitVec 1) (d : BitVec 5) : sregWord s p d idx w f = finish (wr t d v) p := by
  simp only [sregWord, hg, hw, stageOf_fresh hf, hr, Option.getD_some, hn, ho, Bool.false_eq_true, if_false, Nat.zero_ne_one]

/-- An access whose write is illegal (R36 step 4). -/
theorem sregWord_illegal {s : State} {idx w : Nat} {f : Word → Option Word} {v n : Word} (hg : sregGate s idx w = none)
    (hw : sregWaits s idx = false) (hf : Fresh s) (hr : sregRead s idx = some v) (hn : f v = some n)
    (ho : sregWrite s idx n w = .bad) (p : BitVec 1) (d : BitVec 5) : sregWord s p d idx w f = illegal s w := by
  simp only [sregWord, hg, hw, stageOf_fresh hf, hr, Option.getD_some, hn, ho, Bool.false_eq_true, if_false, Nat.zero_ne_one]

/-- The four words are accesses. -/
theorem exec_sread (s : State) (p : BitVec 1) (d : BitVec 5) (idx : BitVec 12) :
    exec (.sread p d idx) s = .next (sregWord s p d idx.toNat (wordSread p d idx) fun _ => none) := rfl

theorem exec_swrite (s : State) (p : BitVec 1) (d a : BitVec 5) (idx : BitVec 12) :
    exec (.swrite p d a idx) s = .next (sregWord s p d idx.toNat (wordSwrite p d a idx) fun _ => some (rd s a)) := rfl

theorem exec_sset (s : State) (p : BitVec 1) (d a : BitVec 5) (idx : BitVec 12) :
    exec (.sset p d a idx) s =
      .next (sregWord s p d idx.toNat (wordSset p d a idx) fun old => if a = 0 then none else some (old ||| rd s a)) := rfl

theorem exec_sclr (s : State) (p : BitVec 1) (d a : BitVec 5) (idx : BitVec 12) :
    exec (.sclr p d a idx) s =
      .next (sregWord s p d idx.toNat (wordSclr p d a idx) fun old => if a = 0 then none else some (old &&& ~~~rd s a)) := rfl

/-! ### The values -/

theorem sregWaits_of_ne {s : State} {idx : Nat} (h : idx ≠ 0x103 ∧ idx ≠ 0x104) : sregWaits s idx = false := by
  simp [sregWaits, h.1, h.2]

theorem sregWaits_of_nil {s : State} (h : (me s).v.queue = []) (idx : Nat) : sregWaits s idx = false := by
  rw [sregWaits, h]
  exact Bool.and_false _

/-- A read of a register that the thread reaches, behind no queue and no tile gate. -/
theorem reads_of {s : State} {idx : BitVec 12} {v : Word} (hf : Fresh s) (hr : Reaches s idx.toNat)
    (hw : sregWaits s idx.toNat = false) (ht : ∀ w, 0x180 ≤ idx.toNat ∧ idx.toNat ≤ 0x187 → tileGate s w false = none)
    (hv : sregRead s idx.toNat = some v) (p : BitVec 1) (d : BitVec 5) :
    ∃ t, exec (.sread p d idx) s = .next t ∧ RegWord s t p d v :=
  ⟨_, (exec_sread s p d idx).trans (congrArg _ (sregWord_reads (sregGate_open _ hr hv (ht _)) hw hf hv rfl p d)), regWord_finish s p d v⟩

/-- The indexes that neither the vector queue nor the tile gate holds up. -/
abbrev PlainIndex (idx : Nat) : Prop := (idx ≠ 0x103 ∧ idx ≠ 0x104) ∧ ¬(0x180 ≤ idx ∧ idx ≤ 0x187)

theorem reads_plain {s : State} {idx : BitVec 12} {v : Word} (hf : Fresh s) (hi : PlainIndex idx.toNat)
    (hr : Reaches s idx.toNat) (hv : sregRead s idx.toNat = some v) (p : BitVec 1) (d : BitVec 5) :
    ∃ t, exec (.sread p d idx) s = .next t ∧ RegWord s t p d v :=
  reads_of hf hr (sregWaits_of_ne hi.1) (fun _ k => absurd k hi.2) hv p d

theorem tstatWord_eq (s : State) : tstatWord s s.cur =
    ((tq s (s.cur / 16)).countP fun c => c.tid = s.cur ∧ !c.orphan) * 256 + (me s).ts := by
  rw [tstatWord, List.countP_eq_length_filter]
  rfl

theorem townWord_of_free {s : State} (h : (co s (s.cur / 16)).town.hv = false) : townWord s s.cur = 0 := by
  rw [townWord, coreOf, h]
  rfl

theorem townWord_of_held {s : State} (h : (co s (s.cur / 16)).town.hv = true) : townWord s s.cur =
    (co s (s.cur / 16)).town.hts * 256 +
      (if (co s (s.cur / 16)).town.vmid = (cx s (me s).ctx).vmid then 0 else 32) + 16 + (co s (s.cur / 16)).town.hold := by
  rw [townWord, coreOf, if_pos h, tileXc, coreOf, me]
  congr 3
  by_cases e : (co s (s.cur / 16)).town.vmid = (cx s (th s s.cur).ctx).vmid <;> simp [e, h, b2n]

theorem sirOf_eq (s : State) : sirOf s s.cur = (me s).sr.en.toNat * 2 ^ 16 + (pendOf s s.cur).toNat := rfl

/-! ### Registers that are read bit by bit -/

/-- A sum of distinct powers of two has the bits of its powers. -/
theorem testBit_upto_pow (f : Nat → Bool) (n : Nat) :
    upto n (fun p m => if f p then m + 2 ^ p else m) 0 < 2 ^ n ∧
    ∀ k, (upto n (fun p m => if f p then m + 2 ^ p else m) 0).testBit k = decide (k < n ∧ f k = true) := by
  induction n with
  | zero => simp [upto]
  | succ n ih =>
    obtain ⟨hl, hb⟩ := ih
    rw [upto]
    generalize upto n (fun p m => if f p then m + 2 ^ p else m) 0 = m at hl hb
    cases hf : f n
    · refine ⟨by simp only [Bool.false_eq_true, if_false]; omega, fun k => ?_⟩
      rw [if_neg Bool.false_ne_true, hb]
      congr 1
      rw [eq_iff_iff]
      refine and_congr_left fun hk => ⟨fun h => by omega, fun h => ?_⟩
      have : k ≠ n := fun e => by rw [e, hf] at hk; exact nomatch hk
      omega
    · refine ⟨by simp only [if_true]; omega, fun k => ?_⟩
      rw [if_pos rfl, Nat.add_comm]
      rcases Nat.lt_trichotomy k n with h | rfl | h
      · rw [Nat.testBit_two_pow_add_gt h, hb]
        simp [h, show k < n + 1 by omega]
      · rw [Nat.testBit_two_pow_add_eq, hb]
        simp [hf]
      · rw [Nat.testBit_lt_two_pow (i := k)]
        · simp [show ¬k < n + 1 by omega]
        · have := Nat.pow_le_pow_right (n := 2) (by decide) (show n + 1 ≤ k by omega)
          omega

/-- `PADM` names the partitions that the core's own administers (R352). -/
theorem padm_bits (s : State) (core k : Nat) : (BitVec.ofNat 64 (padm s core)).getLsbD k =
    decide (k < 24 ∧ tget s.parts.adm k 0 = partOfCore s core ∧ partOfCore s core < 24) := by
  have h : (padm s core).testBit k = _ := (testBit_upto_pow (administers s core) 24).2 k
  rw [BitVec.getLsbD_ofNat, h]
  by_cases hk : k < 24
  · simp [administers, hk, show k < 64 by omega]
  · simp [hk]

/-- What is pending for the thread: what was raised, but bit 1 by `SCMP` (R81). -/
theorem pendOf_bits (s : State) {k : Nat} (hk : k < 5) : (pendOf s s.cur).getLsbD k =
    (if k = 1 then decide ((me s).sr.cmp.toNat ≤ s.cycle - (co s (s.cur / 16)).base) else (me s).sr.pend.getLsbD k) := by
  have ht : timerPending s s.cur = decide ((me s).sr.cmp.toNat ≤ s.cycle - (co s (s.cur / 16)).base) := rfl
  have hx : pendOf s s.cur = ((me s).sr.pend &&& 0b11101#5) ||| (if timerPending s s.cur then 0b00010#5 else 0) := rfl
  rw [hx, ← ht]
  rcases timerPending s s.cur <;> interval_cases k <;> simp

/-- `SIR`: the enables above bit 16, below them what is pending, bit 1 by `SCMP` (R81). -/
theorem sir_fields (s : State) :
    let v := BitVec.ofNat 64 (sirOf s s.cur)
    v.toNat / 2 ^ 16 = (me s).sr.en.toNat ∧ v.toNat % 2 ^ 16 < 32 ∧ ∀ k < 5, v.getLsbD k =
      (if k = 1 then decide ((me s).sr.cmp.toNat ≤ s.cycle - (co s (s.cur / 16)).base) else (me s).sr.pend.getLsbD k) := by
  intro v
  have he := (me s).sr.en.isLt
  have hp := (pendOf s s.cur).isLt
  have hv : v.toNat = (me s).sr.en.toNat * 2 ^ 16 + (pendOf s s.cur).toNat := by
    rw [BitVec.toNat_ofNat, sirOf_eq, Nat.mod_eq_of_lt (by omega)]
  refine ⟨by omega, by omega, fun k hk => ?_⟩
  have hb : v.getLsbD k = (pendOf s s.cur).getLsbD k := by
    have hm : v.toNat % 2 ^ 16 = (pendOf s s.cur).toNat := by omega
    rw [BitVec.getLsbD, BitVec.getLsbD, ← hm, Nat.testBit_mod_two_pow, decide_eq_true (show k < 16 by omega), Bool.true_and]
  rw [hb, pendOf_bits s hk]

/-! ### The registers of a band -/

section Reads

variable {s : State} (hf : Fresh s) (p : BitVec 1) (d : BitVec 5) {idx : BitVec 12} {v : Word}

include hf

/-- A plain register of the user band. -/
theorem reads_userBand (hi : PlainIndex idx.toNat ∧ idx.toNat / 1024 = 0) (hv : sregRead s idx.toNat = some v) :
    ∃ t, exec (.sread p d idx) s = .next t ∧ RegWord s t p d v :=
  reads_plain hf hi.1 (reaches_user hi.2) hv p d

/-- A register of the supervisor's band. -/
theorem reads_supBand (hp : (me s).priv ≠ .user) (hi : PlainIndex idx.toNat ∧ idx.toNat / 1024 = 2)
    (hv : sregRead s idx.toNat = some v) : ∃ t, exec (.sread p d idx) s = .next t ∧ RegWord s t p d v :=
  reads_plain hf hi.1 (reaches_sup hi.2 hp) hv p d

/-- A register of the hypervisor's band. -/
theorem reads_hypBand (hp : (me s).priv = .hyp) (hi : PlainIndex idx.toNat ∧ idx.toNat / 1024 ≠ 1)
    (hv : sregRead s idx.toNat = some v) : ∃ t, exec (.sread p d idx) s = .next t ∧ RegWord s t p d v :=
  reads_plain hf hi.1 (reaches_hyp hi.2 hp) hv p d

/-- A register behind the vector queue, once that is empty (R114). -/
theorem reads_behindQueue (hq : (me s).v.queue = []) (hi : ¬(0x180 ≤ idx.toNat ∧ idx.toNat ≤ 0x187) ∧ idx.toNat / 1024 = 0)
    (hv : sregRead s idx.toNat = some v) : ∃ t, exec (.sread p d idx) s = .next t ∧ RegWord s t p d v :=
  reads_of hf (reaches_user hi.2) (sregWaits_of_nil hq _) (fun _ k => absurd k hi.1) hv p d

/-- A tile register behind its gate (R145, R146). -/
theorem reads_behindGate (hg : ∀ w, tileGate s w false = none) (hi : (idx.toNat ≠ 0x103 ∧ idx.toNat ≠ 0x104) ∧ idx.toNat / 1024 = 0)
    (hv : sregRead s idx.toNat = some v) : ∃ t, exec (.sread p d idx) s = .next t ∧ RegWord s t p d v :=
  reads_of hf (reaches_user hi.2) (sregWaits_of_ne hi.1) (fun w _ => hg w) hv p d

end Reads

/-- The tile gate is open to a thread that is not Off and to which the tile hold is not foreign (R145, R146). -/
theorem tileGate_open {s : State} (hu : (me s).priv = .user → (me s).ts ≠ 0) (hs : (me s).priv = .sup →
    (co s (s.cur / 16)).town.hv = false ∨ (co s (s.cur / 16)).town.vmid = (cx s (me s).ctx).vmid) (w : Nat) :
    tileGate s w false = none := by
  rw [tileGate]
  cases hp : (me s).priv with
  | user => exact if_neg fun k => hu hp k.1
  | sup =>
    refine if_neg fun k => ?_
    rw [tileXc, Bool.and_eq_true, bne_iff_ne] at k
    rcases hs hp with h | h
    · exact absurd (h.symm.trans k.1) Bool.false_ne_true
    · exact k.2 h
  | hyp => rfl

/-- An access to `VRS` or `VDM` holds the thread while a vector word is queued (R114). -/
theorem sregWord_queued {s : State} {idx w : Nat} {v : Word} {f : Word → Option Word} (hi : idx = 0x103 ∨ idx = 0x104)
    (hq : (me s).v.queue ≠ []) (hv : sregRead s idx = some v) (p : BitVec 1) (d : BitVec 5) : sregWord s p d idx w f = held s := by
  have hg := sregGate_open w (reaches_user (s := s) (idx := idx) (by omega)) hv (by omega)
  have hw : sregWaits s idx = true := by
    rw [sregWaits, Bool.and_eq_true]
    exact ⟨by rcases hi with rfl | rfl <;> rfl, by simpa using hq⟩
  simp only [sregWord, hg, hw, if_true]

theorem some_ofNat_toNat {n : Nat} (x : BitVec n) : some (BitVec.ofNat 64 x.toNat) = some (x.setWidth 64) :=
  congrArg some (BitVec.ofNat_toNat 64 x)

theorem some_ofNat_b2n (b : Bool) : some (BitVec.ofNat 64 (b2n b)) = some (if b then 1 else 0 : Word) := by cases b <;> rfl

theorem some_ofNat_b2n_mul (b : Bool) (n m : Nat) :
    some (BitVec.ofNat 64 (b2n b * n + m)) = some (BitVec.ofNat 64 ((if b then n else 0) + m)) := by
  cases b <;> simp [b2n]

/-- The words of an access, one for each of the four (R36). -/
theorem traps_of_gate {s : State} {idx : BitVec 12} {c : Nat} (hq : Quiet s)
    (h : ∀ w, sregGate s idx.toNat w = some (raise s c (BitVec.ofNat 64 w))) (p : BitVec 1) (d a : BitVec 5) :
    let traps (i : Instr) : Prop := ∀ w, encode i = some w → ∃ t, exec i s = .next t ∧ TrapTo s t c (BitVec.ofNat 64 w)
    traps (.sread p d idx) ∧ traps (.swrite p d a idx) ∧ traps (.sset p d a idx) ∧ traps (.sclr p d a idx) := by
  have stops {i : Instr} {w : Nat} {f : Word → Option Word} (he : exec i s = .next (sregWord s p d idx.toNat w f)) :
      ∃ t, exec i s = .next t ∧ TrapTo s t c (BitVec.ofNat 64 w) :=
    ⟨_, he.trans (congrArg _ (sregWord_stopped (h w) p d f)), trapTo_raise hq c _⟩
  refine ⟨fun w e => ?_, fun w e => ?_, fun w e => ?_, fun w e => ?_⟩
  · exact Option.some.inj e ▸ stops (exec_sread s p d idx)
  · exact Option.some.inj e ▸ stops (exec_swrite s p d a idx)
  · exact Option.some.inj e ▸ stops (exec_sset s p d a idx)
  · exact Option.some.inj e ▸ stops (exec_sclr s p d a idx)

/-- The tile gate stops a read of the tile registers that lies behind it (R145, R146). -/
theorem sread_gated {s : State} {idx : BitVec 12} {c : Nat} (hi : 0x180 ≤ idx.toNat ∧ idx.toNat ≤ 0x187) (hq : Quiet s) (p : BitVec 1)
    (d : BitVec 5) (hg : ∀ w, tileGate s w false = some (raise s c (BitVec.ofNat 64 w))) :
    ∃ t, exec (.sread p d idx) s = .next t ∧ TrapTo s t c (BitVec.ofNat 64 (wordSread p d idx)) := by
  have hr : (sregRead s idx.toNat).isNone = false := by
    obtain ⟨hl, hh⟩ := hi
    interval_cases idx.toNat <;> rfl
  have h (w : Nat) : sregGate s idx.toNat w = some (raise s c (BitVec.ofNat 64 w)) := by
    rw [sregGate_reaches w (reaches_user (by omega)), hr, if_neg Bool.false_ne_true, if_pos hi, hg w]
  exact (traps_of_gate hq h p d 0).1 _ rfl

theorem grpid_of_none {s : State} {tid : Nat} (h : memberOf s tid = none) : grpid s tid = 0 := by rw [grpid, h]

theorem grpid_of_some {s : State} {tid k r : Nat} (h : memberOf s tid = some (k, r)) :
    grpid s tid = gidOf (k / 4096) (k % 4096) (gr s k).gen := by rw [grpid, h]

/-- `GRANK`: the rank, or all ones outside a group (R207). -/
theorem sregRead_rank (s : State) : sregRead s 0x281 = match memberOf s s.cur with
    | some (_, r) => some (BitVec.ofNat 64 r)
    | none => some (BitVec.allOnes 64) := rfl

/-- Settles O8. -/
theorem systemRegisterReads : Obligations.SystemRegisterReads := by
  unfold Obligations.SystemRegisterReads
  constructor
  · intro s p d hf T core C reads
    have u {idx : BitVec 12} {v : Word} : _ → _ → reads idx v := reads_userBand hf p d
    have qu {idx : BitVec 12} {v : Word} (hq : (me s).v.queue = []) : _ → _ → reads idx v := reads_behindQueue hf p d hq
    have ti {idx : BitVec 12} {v : Word} (hg : ∀ w, tileGate s w false = none) : _ → _ → reads idx v := reads_behindGate hf p d hg
    have su {idx : BitVec 12} {v : Word} (hp : (me s).priv ≠ .user) : _ → _ → reads idx v := reads_supBand hf p d hp
    have hy {idx : BitVec 12} {v : Word} (hp : (me s).priv = .hyp) : _ → _ → reads idx v := reads_hypBand hf p d hp
    refine ⟨?_, fun hq => ?_, fun hq => ?_, fun hp => ?_, fun hp => ?_, ?_, fun hu hs => ?_, fun idx hl hh hq => ?_, fun hp => ?_⟩
    · exact ⟨u (by decide) rfl, u (by decide) (some_ofNat_toNat _), u (by decide) rfl, u (by decide) rfl,
        u (by decide) (some_ofNat_toNat _), u (by decide) rfl, u (by decide) rfl, u (by decide) rfl, u (by decide) rfl,
        u (by decide) rfl, u (by decide) rfl, u (by decide) rfl, u (by decide) rfl, u (by decide) rfl, u (by decide) rfl,
        u (by decide) rfl, u (by decide) rfl, u (by decide) rfl, u (by decide) rfl, u (by decide) rfl, u (by decide) rfl,
        u (by decide) (some_ofNat_b2n _)⟩
    · exact ⟨qu hq (by decide) rfl, qu hq (by decide) (some_ofNat_toNat _)⟩
    · exact ⟨(exec_sread ..).trans (congrArg _ (sregWord_queued (.inl rfl) hq rfl p d)),
        (exec_sread ..).trans (congrArg _ (sregWord_queued (.inr rfl) hq rfl p d))⟩
    · exact ⟨su hp (by decide) rfl, su hp (by decide) rfl, su hp (by decide) rfl, su hp (by decide) rfl, su hp (by decide) rfl,
        su hp (by decide) rfl, su hp (by decide) rfl, su hp (by decide) rfl, su hp (by decide) rfl, su hp (by decide) rfl,
        su hp (by decide) rfl, su hp (by decide) rfl, su hp (by decide) rfl⟩
    · exact ⟨hy hp (by decide) rfl, hy hp (by decide) rfl, hy hp (by decide) rfl, hy hp (by decide) rfl, hy hp (by decide) rfl,
        hy hp (by decide) rfl, hy hp (by decide) rfl, hy hp (by decide) rfl, hy hp (by decide) rfl, hy hp (by decide) rfl,
        hy hp (by decide) rfl, hy hp (by decide) (some_ofNat_b2n_mul _ _ _),
        ⟨_, hy hp (by decide) rfl, padm_bits s core⟩, hy hp (by decide) rfl, hy hp (by decide) (some_ofNat_b2n_mul _ _ _),
        hy hp (by decide) rfl⟩
    · refine ⟨u (by decide) rfl, u (by decide) rfl, u (by decide) (congrArg (fun n => some (BitVec.ofNat 64 n)) (tstatWord_eq s)),
        fun h => ?_, fun h => ?_, fun h => ⟨?_, ?_⟩, fun k r h => ⟨?_, ?_⟩, u (by decide) rfl, u (by decide) ?_,
        u (by decide) rfl, u (by decide) rfl⟩
      · exact u (by decide) (congrArg (fun n => some (BitVec.ofNat 64 n)) (townWord_of_free h))
      · exact u (by decide) (congrArg (fun n => some (BitVec.ofNat 64 n)) (townWord_of_held h))
      · exact u (by decide) (congrArg (fun n => some (BitVec.ofNat 64 n)) (grpid_of_none h))
      · exact u (by decide) ((sregRead_rank s).trans (by rw [h]))
      · exact u (by decide) (congrArg (fun n => some (BitVec.ofNat 64 n)) (grpid_of_some h))
      · exact u (by decide) ((sregRead_rank s).trans (by rw [h]))
      · show some (BitVec.ofNat 64 (C.ch.done * 2 ^ 32 + b2n C.ch.sh * 16 + C.ch.state)) = _
        cases C.ch.sh <;> rfl
    · have g := tileGate_open hu hs
      exact ⟨ti g (by decide) rfl, ti g (by decide) rfl, ti g (by decide) rfl, ti g (by decide) rfl, ti g (by decide) rfl,
        ti g (by decide) rfl, ti g (by decide) rfl, ti g (by decide) rfl⟩
    · refine ⟨fun hp ht => sread_gated ⟨hl, hh⟩ hq p d fun w => ?_, fun hp hv hm => sread_gated ⟨hl, hh⟩ hq p d fun w => ?_⟩
      · rw [tileGate, hp]
        exact if_pos ⟨ht, rfl⟩
      · rw [tileGate, hp]
        exact if_pos (Bool.and_eq_true_iff.mpr ⟨hv, bne_iff_ne.mpr hm⟩)
    · exact ⟨su hp (by decide) rfl, su hp (by decide) rfl, su hp (by decide) rfl, su hp (by decide) rfl, _,
        su hp (by decide) rfl, sir_fields s⟩
  · intro s p d a idx hq traps all band
    have gates {c : Nat} (h : ∀ w, sregGate s idx.toNat w = some (raise s c (BitVec.ofNat 64 w))) : all c :=
      traps_of_gate hq h p d a
    refine ⟨fun h => gates fun w => sregGate_reserved w h, fun h hp => gates fun w => sregGate_user w h hp,
      fun h hp => gates fun w => sregGate_sup w h hp, fun h => ?_, fun h hp => ?_, fun h hp => ?_⟩
    · rcases h with rfl | rfl | rfl | rfl | rfl <;> exact gates fun w => sregGate_missing w (reaches_user rfl) rfl
    · rcases h with rfl | rfl | rfl <;> exact gates fun w => sregGate_missing w (reaches_sup rfl hp) rfl
    · rcases h with rfl | rfl | rfl <;> exact gates fun w => sregGate_missing w (reaches_hyp (by decide) hp) rfl

end Sys2Proof
end

section
/-! PROOFS. The system registers: what a write by a word does, and what it may not (R36, R38, R61, R81). -/

namespace Sys2Proof

open Machine

/-! ### The effect of a write -/

/-- A word that sets fields of its thread's registers and writes the old value to d. -/
theorem updates_finish {s : State} {n : Thread} {upd : Thread → Thread} (hu : n = upd (me s)) (hn : regMask n (me s) = n)
    (p : BitVec 1) (d : BitVec 5) (v : Word) : Updates s (finish (wr (setMe s n) d v) p) p d v upd := by
  have hm : me (setMe s n) = n := me_setMe s n
  have hg : n.g = (me s).g := (congrArg Thread.g hn).symm
  have hpc : n.pc = (me s).pc := (congrArg Thread.pc hn).symm
  refine ⟨behind_finish p ((wr_slot ..).trans (setMe_outside s n).slot) ?_, ⟨?_, fun r h => ?_⟩, ?_, fun k h => ?_, ?_⟩
  · rw [wr_pc, hm, hpc]
  · rw [reg_finish, reg_wr_same]
  · rw [reg_finish, reg_wr_ne _ _ h]
    exact reg_congr (by rw [hm, hg]) r
  · exact ((setMe_outside s n).trans (wr_outside _ d v)).trans (finish_outside _ p)
  · rw [th_finish_ne _ _ (by rwa [wr_cur]), th_wr_ne (setMe s n) _ _ h, th_setMe_ne _ _ h]
  · rw [← hu, me_finish, me_wr, hm]
    refine Eq.trans ?_ hn
    split <;> split <;> rfl

/-- A word that makes no write. -/
theorem updates_of_regWord {s t : State} {p : BitVec 1} {d : BitVec 5} {v : Word} {upd : Thread → Thread}
    (hu : upd (me s) = me s) (h : RegWord s t p d v) : Updates s t p d v upd := by
  obtain ⟨hb, hw, ho, hk, hm, -⟩ := h
  exact ⟨hb, hw, ho, hk, hm.trans hu.symm⟩

/-- A write through the checks of an access. -/
theorem updates_sregWord {s : State} {i : Instr} {idx w : Nat} {f : Word → Option Word} {old v : Word} {n : Thread}
    {upd : Thread → Thread} {p : BitVec 1} {d : BitVec 5} (he : exec i s = .next (sregWord s p d idx w f)) (hf : Fresh s)
    (hi : PlainIndex idx) (hr : Reaches s idx) (hv : sregRead s idx = some old) (hn : f old = some v)
    (ho : sregWrite s idx v w = .ok (setMe s n)) (hu : n = upd (me s)) (hm : regMask n (me s) = n) :
    ∃ t, exec i s = .next t ∧ Updates s t p d old upd :=
  ⟨_, he.trans (congrArg _ (sregWord_writes (sregGate_open _ hr hv fun k => absurd k hi.2) (sregWaits_of_ne hi.1) hf hv hn ho p d)),
    updates_finish hu hm p d old⟩

/-- An access that makes no write leaves every register but d alone. -/
theorem updates_unwritten {s : State} {i : Instr} {idx w : Nat} {f : Word → Option Word} {old : Word}
    {upd : Thread → Thread} {p : BitVec 1} {d : BitVec 5} (he : exec i s = .next (sregWord s p d idx w f)) (hf : Fresh s)
    (hi : PlainIndex idx) (hr : Reaches s idx) (hv : sregRead s idx = some old) (hn : f old = none) (hu : upd (me s) = me s) :
    ∃ t, exec i s = .next t ∧ Updates s t p d old upd :=
  ⟨_, he.trans (congrArg _ (sregWord_reads (sregGate_open _ hr hv fun k => absurd k hi.2) (sregWaits_of_ne hi.1) hf hv hn p d)),
    updates_of_regWord hu (regWord_finish s p d old)⟩

/-- A write that the register does not take. -/
theorem trapTo_swrite {s : State} {idx : BitVec 12} {a : BitVec 5} {old : Word} (hf : Fresh s) (hq : Quiet s)
    (hi : PlainIndex idx.toNat) (hr : Reaches s idx.toNat) (hv : sregRead s idx.toNat = some old)
    (ho : ∀ w, sregWrite s idx.toNat (rd s a) w = .bad) (p : BitVec 1) (d : BitVec 5) :
    ∃ t, exec (.swrite p d a idx) s = .next t ∧ TrapTo s t 0 (BitVec.ofNat 64 (wordSwrite p d a idx)) :=
  ⟨_, (exec_swrite ..).trans (congrArg _ (sregWord_illegal (n := rd s a) (sregGate_open _ hr hv fun k => absurd k hi.2)
    (sregWaits_of_ne hi.1) hf hv rfl (ho _) p d)), trapTo_raise hq 0 _⟩

/-! ### Fields of a written word -/

theorem bits_low (v : Word) (n : Nat) : bits v n 0 = v.toNat % 2 ^ (n + 1) := by
  simp [bits, fld]

theorem flags_set (f : BitVec 5) (v : Word) : BitVec.ofNat 5 (f.setWidth 64 ||| v).toNat = f ||| v.setWidth 5 := by
  rw [BitVec.ofNat_toNat, BitVec.setWidth_or, BitVec.setWidth_setWidth_of_le f (by decide), BitVec.setWidth_eq]

theorem flags_cleared (f : BitVec 5) (v : Word) : BitVec.ofNat 5 (f.setWidth 64 &&& ~~~v).toNat = f &&& ~~~v.setWidth 5 := by
  rw [BitVec.ofNat_toNat, BitVec.setWidth_and, BitVec.setWidth_setWidth_of_le f (by decide), BitVec.setWidth_eq,
    BitVec.setWidth_not (by decide)]

/-- Settles O9. -/
theorem systemRegisterWrites : Obligations.SystemRegisterWrites := by
  unfold Obligations.SystemRegisterWrites
  constructor
  · intro s p d a hf T v writes traps
    have w {idx : BitVec 12} {old : Word} {n : Thread} {upd : Thread → Thread} (hr : Reaches s idx.toNat)
        (hi : PlainIndex idx.toNat) (hv : sregRead s idx.toNat = some old) (ho : ∀ w, sregWrite s idx.toNat v w = .ok (setMe s n))
        (hu : n = upd (me s)) (hm : regMask n (me s) = n) : writes idx old upd :=
      updates_sregWord (exec_swrite ..) hf hi hr hv rfl (ho _) hu hm
    have b {idx : BitVec 12} {old : Word} (hr : Reaches s idx.toNat) (hi : PlainIndex idx.toNat)
        (hv : sregRead s idx.toNat = some old) (ho : ∀ w, sregWrite s idx.toNat v w = .bad) : traps idx :=
      fun hq => trapTo_swrite hf hq hi hr hv ho p d
    have u {idx : BitVec 12} (h : idx.toNat / 1024 = 0) : Reaches s idx.toNat := reaches_user h
    have hb : bits v 2 0 = v.toNat % 8 := bits_low v 2
    refine ⟨w (u rfl) (by decide) (some_ofNat_toNat _) (fun _ => rfl) ?_ rfl, fun h => ?_, fun h => ?_,
      w (u rfl) (by decide) rfl (fun _ => rfl) rfl rfl, fun h => ⟨?_, ?_⟩, fun h => ?_,
      w (u rfl) (by decide) rfl (fun _ => rfl) rfl rfl, w (u rfl) (by decide) rfl (fun _ => rfl) rfl rfl,
      w (u rfl) (by decide) rfl (fun _ => rfl) rfl rfl, b (u rfl) (by decide) rfl fun _ => rfl,
      b (u rfl) (by decide) rfl fun _ => rfl, b (u rfl) (by decide) rfl fun _ => rfl, b (u rfl) (by decide) rfl fun _ => rfl,
      b (u rfl) (by decide) rfl fun _ => rfl, fun hp => ?_, fun hp => ?_⟩
    · rw [BitVec.ofNat_toNat]
    · refine w (u rfl) (by decide) rfl (fun _ => if_neg ?_) (by rw [hb]) rfl
      omega
    · exact b (u rfl) (by decide) rfl fun _ => if_pos (by omega)
    · exact b (u rfl) (by decide) rfl fun _ => if_pos (.inl h)
    · exact b (u rfl) (by decide) rfl fun _ => if_pos h
    · exact w (u rfl) (by decide) rfl (fun _ => if_neg (h ▸ Bool.false_ne_true)) rfl rfl
    · have r {idx : BitVec 12} (h : idx.toNat / 1024 = 2) : Reaches s idx.toNat := reaches_sup h hp
      exact ⟨w (r rfl) (by decide) rfl (fun _ => rfl) rfl rfl, w (r rfl) (by decide) rfl (fun _ => rfl) rfl rfl,
        w (r rfl) (by decide) rfl (fun _ => rfl) rfl rfl, w (r rfl) (by decide) rfl (fun _ => rfl) rfl rfl,
        w (r rfl) (by decide) rfl (fun _ => rfl) rfl rfl, w (r rfl) (by decide) rfl (fun _ => rfl) rfl rfl,
        w (r rfl) (by decide) rfl (fun _ => rfl) rfl rfl⟩
    · have r {idx : BitVec 12} (h : idx.toNat / 1024 = 3) : Reaches s idx.toNat := reaches_hyp (by omega) hp
      exact ⟨w (r rfl) (by decide) rfl (fun _ => rfl) rfl rfl, w (r rfl) (by decide) rfl (fun _ => rfl) rfl rfl,
        w (r rfl) (by decide) rfl (fun _ => rfl) rfl rfl, w (r rfl) (by decide) rfl (fun _ => rfl) rfl rfl,
        w (r rfl) (by decide) rfl (fun _ => rfl) rfl rfl, w (r rfl) (by decide) rfl (fun _ => rfl) rfl rfl⟩
  · intro s p d a hf T v does
    have zero : a = 0 → v = 0#64 := fun h => (congrArg (rd s) h).trans (rd_zero s)
    have u {idx : BitVec 12} (h : idx.toNat / 1024 = 0) : Reaches s idx.toNat := reaches_user h
    have none_set {idx : BitVec 12} {old : Word} (hi : PlainIndex idx.toNat) (hr : Reaches s idx.toNat)
        (hv : sregRead s idx.toNat = some old) : does (.sset p d 0 idx) old id :=
      updates_unwritten (exec_sset ..) hf hi hr hv rfl rfl
    have none_clr {idx : BitVec 12} {old : Word} (hi : PlainIndex idx.toNat) (hr : Reaches s idx.toNat)
        (hv : sregRead s idx.toNat = some old) : does (.sclr p d 0 idx) old id :=
      updates_unwritten (exec_sclr ..) hf hi hr hv rfl rfl
    have sets {idx : BitVec 12} {old : Word} {n : Thread} {upd : Thread → Thread} (hi : PlainIndex idx.toNat)
        (hr : Reaches s idx.toNat) (hv : sregRead s idx.toNat = some old)
        (ho : ∀ w, sregWrite s idx.toNat (old ||| v) w = .ok (setMe s n)) (hu : n = upd (me s)) (hm : regMask n (me s) = n)
        (h0 : v = 0#64 → upd (me s) = me s) : does (.sset p d a idx) old upd := by
      by_cases h : a = 0
      · exact updates_unwritten (exec_sset ..) hf hi hr hv (if_pos h) (h0 (zero h))
      · exact updates_sregWord (exec_sset ..) hf hi hr hv (if_neg h) (ho _) hu hm
    have clears {idx : BitVec 12} {old : Word} {n : Thread} {upd : Thread → Thread} (hi : PlainIndex idx.toNat)
        (hr : Reaches s idx.toNat) (hv : sregRead s idx.toNat = some old)
        (ho : ∀ w, sregWrite s idx.toNat (old &&& ~~~v) w = .ok (setMe s n)) (hu : n = upd (me s)) (hm : regMask n (me s) = n)
        (h0 : v = 0#64 → upd (me s) = me s) : does (.sclr p d a idx) old upd := by
      by_cases h : a = 0
      · exact updates_unwritten (exec_sclr ..) hf hi hr hv (if_pos h) (h0 (zero h))
      · exact updates_sregWord (exec_sclr ..) hf hi hr hv (if_neg h) (ho _) hu hm
    refine ⟨sets (by decide) (u rfl) (some_ofNat_toNat _) (fun _ => rfl) (by rw [flags_set]) rfl fun h => ?_,
      clears (by decide) (u rfl) (some_ofNat_toNat _) (fun _ => rfl) (by rw [flags_cleared]) rfl fun h => ?_,
      sets (by decide) (u rfl) rfl (fun _ => rfl) rfl rfl fun h => ?_,
      clears (by decide) (u rfl) rfl (fun _ => rfl) rfl rfl fun h => ?_,
      none_set (by decide) (u rfl) rfl, none_clr (by decide) (u rfl) rfl,
      none_set (by decide) (u rfl) rfl, none_clr (by decide) (u rfl) rfl⟩
    · rw [h, BitVec.setWidth_zero, BitVec.or_zero]
    · rw [h, BitVec.setWidth_zero, BitVec.not_zero, BitVec.and_allOnes]
    · rw [h, BitVec.or_zero]
    · rw [h, BitVec.not_zero, BitVec.and_allOnes]

end Sys2Proof
end

section
/-! PROOFS. A write of `SPSZ` behind a queued Marver command (R81, R154). -/

namespace Sys2Proof

open Machine

/-- A Ready hypervisor thread of core 0, in whose command queue a `tile.zero` stands. -/
def tileQueued : State :=
  { threads := [(0, { state := .ready, priv := .hyp })],
    cores := [(0, { tq := [{ op := .tileZero, t := 0, tid := 0, pc := 0, ga := 0, gb := 0, cfg := {}, fmt := 0, scb := 0, vt := 0 }] })] }

/-- The write waits for the command queue to be empty: the event does nothing yet. -/
theorem spszWrite_tileQueued : exec (.spszWrite 1) tileQueued = .next tileQueued := rfl

/-- Refutes O48: its clause for `SPSZ` does not ask for an empty command queue, for which the write waits (R154). With a
`tile.zero` queued, a write of 1 leaves the size at 0. -/
theorem not_registerWriteEvents : ¬ Obligations.RegisterWriteEvents := by
  unfold Obligations.RegisterWriteEvents
  intro h
  obtain ⟨spsz, -⟩ := h tileQueued 1 (by decide) (by decide)
  obtain ⟨t, he, -, resized⟩ := spsz (by decide) rfl (by decide) (by decide) (by decide)
  obtain ⟨hc, -⟩ := resized (by decide)
  rw [spszWrite_tileQueued] at he
  rw [← Host.Outcome.next.inj he] at hc
  exact absurd (congrArg Core.sp hc) (by decide)

end Sys2Proof
end

section
/-! PROOFS. The fields and the values of the codes of a binary format, and the operations on special values
(R69, R70, R88, R89). -/

namespace Sys2Proof

open Machine

/-! ### Codes by their fields -/

/-- The code with sign `s`, exponent field `x` and fraction field `y`. -/
def packed (ew f s x y : Nat) : Nat := (s * 2 ^ ew + x) * 2 ^ f + y

section Fields

variable {ew f s x y : Nat} (hx : x < 2 ^ ew) (hy : y < 2 ^ f)

include hy

theorem packed_frac : packed ew f s x y % 2 ^ f = y := by
  rw [packed, Nat.mul_add_mod_self_right, Nat.mod_eq_of_lt hy]

theorem packed_div : packed ew f s x y / 2 ^ f = s * 2 ^ ew + x := by
  rw [packed, Nat.add_comm, Nat.add_mul_div_right _ _ (Nat.two_pow_pos f), Nat.div_eq_of_lt hy, Nat.zero_add]

include hx

theorem packed_exp : packed ew f s x y / 2 ^ f % 2 ^ ew = x := by
  rw [packed_div hy, Nat.mul_add_mod_self_right, Nat.mod_eq_of_lt hx]

theorem packed_sign : packed ew f s x y / 2 ^ (ew + f) = s := by
  rw [Nat.add_comm, Nat.pow_add, ← Nat.div_div_eq_div_mul, packed_div hy, Nat.add_comm,
    Nat.add_mul_div_right _ _ (Nat.two_pow_pos ew), Nat.div_eq_of_lt hx, Nat.zero_add]

theorem packed_mag : packed ew f s x y % 2 ^ (ew + f) = x * 2 ^ f + y := by
  have h : packed ew f s x y = s * 2 ^ (ew + f) + (x * 2 ^ f + y) := by rw [packed, Nat.pow_add]; ring
  have hl : x * 2 ^ f + y < 2 ^ (ew + f) := by
    rw [Nat.pow_add]
    calc x * 2 ^ f + y < (x + 1) * 2 ^ f := by rw [Nat.add_mul]; omega
      _ ≤ 2 ^ ew * 2 ^ f := Nat.mul_le_mul_right _ hx
  rw [h, Nat.mul_add_mod_self_right, Nat.mod_eq_of_lt hl]

theorem nanCode_packed : NaNCode ew f (packed ew f s x y) ↔ x = 2 ^ ew - 1 ∧ y ≠ 0 := by
  rw [NaNCode, packed_exp hx hy, packed_frac hy]

end Fields

/-- Every code of a format has its fields. -/
theorem exists_packed {ew f c : Nat} (h : c < 2 ^ (1 + ew + f)) :
    ∃ s x y, s < 2 ∧ x < 2 ^ ew ∧ y < 2 ^ f ∧ c = packed ew f s x y := by
  refine ⟨c / 2 ^ f / 2 ^ ew, c / 2 ^ f % 2 ^ ew, c % 2 ^ f, ?_, Nat.mod_lt _ (Nat.two_pow_pos ew),
    Nat.mod_lt _ (Nat.two_pow_pos f), ?_⟩
  · rw [Nat.div_div_eq_div_mul, Nat.div_lt_iff_lt_mul (by positivity)]
    calc c < 2 ^ (1 + ew + f) := h
      _ = 2 * (2 ^ f * 2 ^ ew) := by rw [Nat.pow_add, Nat.pow_add]; ring
  · rw [packed, Nat.div_add_mod', Nat.div_add_mod']

/-- A signalling NaN has a zero in the top bit of its fraction. -/
theorem signalling_packed {ew f s x y : Nat} (hx : x < 2 ^ ew) (hy : y < 2 ^ f) (hf : 0 < f) :
    SignallingCode ew f (packed ew f s x y) ↔ (x = 2 ^ ew - 1 ∧ y ≠ 0) ∧ y / 2 ^ (f - 1) % 2 = 0 := by
  obtain ⟨n, rfl⟩ := Nat.exists_eq_succ_of_ne_zero hf.ne'
  have h : packed ew (n + 1) s x y / 2 ^ n % 2 = y / 2 ^ n % 2 := by
    rw [packed, Nat.pow_succ, ← Nat.mul_assoc, Nat.mul_right_comm, Nat.add_comm, Nat.add_mul_div_right _ _ (Nat.two_pow_pos n),
      Nat.add_mul_mod_self_right]
  rw [SignallingCode, nanCode_packed hx hy, Nat.succ_sub_one, h]

/-- The value of a code of a binary format, by its fields. -/
theorem val_packed {m : Fmt} (hk : m.kind = .ieee) {s x y : Nat} (hs : s < 2) (hx : x < 2 ^ m.ew) (hy : y < 2 ^ m.f) :
    m.val (packed m.ew m.f s x y) =
      if x = 2 ^ m.ew - 1 then (if y = 0 then .inf (s == 1) else .nan (y / 2 ^ (m.f - 1) % 2 == 0))
      else if x = 0 then .fin (s == 1) y (1 - (m.bias : Int) - m.f)
      else .fin (s == 1) (2 ^ m.f + y) ((x : Int) - m.bias - m.f) := by
  rw [Fmt.val, Fmt.signBit, packed_sign hx hy, packed_exp hx hy, packed_frac hy, hk, Nat.mod_eq_of_lt hs]

/-! ### NaN operands (R70) -/

/-- The invalid flag, and no other, when `p` holds. -/
def Raises (p : Prop) (g : Flags) : Prop := (p → g = flNV) ∧ (¬p → g = 0)

theorem raises_or {p q : Prop} {g h : Flags} (hp : Raises p g) (hq : Raises q h) : Raises (p ∨ q) (g ||| h) := by
  obtain ⟨p1, p0⟩ := hp
  obtain ⟨q1, q0⟩ := hq
  by_cases a : p <;> by_cases b : q
  · exact ⟨fun _ => by rw [p1 a, q1 b]; rfl, fun n => absurd (.inl a) n⟩
  · exact ⟨fun _ => by rw [p1 a, q0 b]; rfl, fun n => absurd (.inl a) n⟩
  · exact ⟨fun _ => by rw [p0 a, q1 b]; rfl, fun n => absurd (.inr b) n⟩
  · exact ⟨fun n => absurd n (not_or.mpr ⟨a, b⟩), fun _ => by rw [p0 a, q0 b]; rfl⟩

section Operands

variable {m : Fmt} (hk : m.kind = .ieee) {a b : Nat} (ha : a < 2 ^ (1 + m.ew + m.f))

include hk ha

theorem isNan_val : (m.val a).isNan = true ↔ NaNCode m.ew m.f a := by
  obtain ⟨s, x, y, hs, hx, hy, rfl⟩ := exists_packed ha
  rw [nanCode_packed hx hy, val_packed hk hs hx hy]
  split
  next h =>
    split
    next h0 => exact ⟨nofun, fun k => absurd h0 k.2⟩
    next h0 => exact ⟨fun _ => ⟨h, h0⟩, fun _ => rfl⟩
  next h => split <;> exact ⟨nofun, fun k => absurd k.1 h⟩

theorem isNan_val_of_not (h : ¬NaNCode m.ew m.f a) : (m.val a).isNan = false :=
  Bool.eq_false_iff.mpr fun k => h ((isNan_val hk ha).mp k)

theorem raises_val (hf : 0 < m.f) : Raises (SignallingCode m.ew m.f a) (m.val a).nv := by
  obtain ⟨s, x, y, hs, hx, hy, rfl⟩ := exists_packed ha
  rw [Raises, signalling_packed hx hy hf, val_packed hk hs hx hy]
  split
  next h =>
    split
    next h0 => exact ⟨fun k => absurd h0 k.1.2, fun _ => rfl⟩
    next h0 =>
      cases hq : (y / 2 ^ (m.f - 1) % 2 == 0)
      · exact ⟨fun k => absurd (hq.symm.trans (beq_iff_eq.mpr k.2)) Bool.false_ne_true, fun _ => rfl⟩
      · exact ⟨fun _ => rfl, fun k => absurd ⟨⟨h, h0⟩, beq_iff_eq.mp hq⟩ k⟩
  next h => split <;> exact ⟨fun k => absurd k.1.1 h, fun _ => rfl⟩

end Operands

theorem nv_neg (v : FVal) : v.neg.nv = v.nv := by cases v <;> rfl

theorem isNan_neg (v : FVal) : v.neg.isNan = v.isNan := by cases v <;> rfl

theorem nv_of_not_nan {v : FVal} (h : v.isNan = false) : v.nv = 0 := by
  cases v with
  | nan s => exact nomatch h
  | inf s => rfl
  | fin s p e => rfl

theorem exists_nan {v : FVal} (h : v.isNan = true) : ∃ s, v = .nan s := by
  cases v with
  | nan s => exact ⟨s, rfl⟩
  | inf s => exact nomatch h
  | fin s p e => exact nomatch h

theorem sum_nan (d : Fmt) (rm : Rm) {x y : FVal} (h : x.isNan = true ∨ y.isNan = true) :
    d.sum rm x y = (d.nan, x.nv ||| y.nv) := by
  rcases h with h | h
  · obtain ⟨s, rfl⟩ := exists_nan h
    rfl
  · obtain ⟨s, rfl⟩ := exists_nan h
    cases x <;> rfl

theorem exactMul_nan {x y : FVal} (h : x.isNan = true ∨ y.isNan = true) : exactMul x y = (.nan false, x.nv ||| y.nv) := by
  rcases h with h | h
  · obtain ⟨s, rfl⟩ := exists_nan h
    rfl
  · obtain ⟨s, rfl⟩ := exists_nan h
    cases x <;> rfl

theorem mul_nan (m : Fmt) (rm : Rm) {a b : Nat} (h : (m.val a).isNan = true ∨ (m.val b).isNan = true) :
    m.mul rm a b = (m.nan, (m.val a).nv ||| (m.val b).nv) := by
  rw [Fmt.mul, exactMul_nan h]
  exact congrArg _ (BitVec.or_zero ..)

theorem div_nan (m : Fmt) (rm : Rm) {a b : Nat} (h : (m.val a).isNan = true ∨ (m.val b).isNan = true) :
    m.div rm a b = (m.nan, (m.val a).nv ||| (m.val b).nv) := by
  rw [Fmt.div]
  generalize m.val a = x at *
  generalize m.val b = y at *
  rcases h with h | h
  · obtain ⟨s, rfl⟩ := exists_nan h
    rfl
  · obtain ⟨s, rfl⟩ := exists_nan h
    cases x <;> rfl

theorem sqrt_nan (m : Fmt) (rm : Rm) {a : Nat} (h : (m.val a).isNan = true) : m.sqrt rm a = (m.nan, (m.val a).nv) := by
  rw [Fmt.sqrt]
  obtain ⟨s, hs⟩ := exists_nan h
  rw [hs]

/-! ### The codes of zeros and infinities -/

section Codes

variable {m : Fmt} (hk : m.kind = .ieee) (he : 2 ≤ m.ew)

include he in
theorem one_lt_maxExp : 1 < 2 ^ m.ew - 1 := by
  have := Nat.pow_le_pow_right (n := 2) (by decide) he
  omega

include hk he in
theorem val_zeroOf {s : Nat} (hs : s < 2) : m.val (s * 2 ^ (m.ew + m.f)) = .fin (s == 1) 0 (1 - (m.bias : Int) - m.f) := by
  have h := val_packed hk hs (Nat.two_pow_pos m.ew) (Nat.two_pow_pos m.f)
  have hp : packed m.ew m.f s 0 0 = s * 2 ^ (m.ew + m.f) := by rw [packed, Nat.pow_add]; ring
  have := one_lt_maxExp he
  rwa [hp, if_neg (by omega), if_pos rfl] at h

include hk in
theorem val_infOf {s : Nat} (hs : s < 2) : m.val (s * 2 ^ (m.ew + m.f) + (2 ^ m.ew - 1) * 2 ^ m.f) = .inf (s == 1) := by
  have h := val_packed hk hs (x := 2 ^ m.ew - 1) (Nat.sub_lt (Nat.two_pow_pos m.ew) Nat.one_pos) (Nat.two_pow_pos m.f)
  have hp : packed m.ew m.f s (2 ^ m.ew - 1) 0 = s * 2 ^ (m.ew + m.f) + (2 ^ m.ew - 1) * 2 ^ m.f := by
    rw [packed, Nat.pow_add]; ring
  rwa [hp, if_pos rfl, if_pos rfl] at h

include hk he in
theorem val_zero : m.val 0 = .fin false 0 (1 - (m.bias : Int) - m.f) := by
  have h := val_zeroOf hk he (show 0 < 2 by decide)
  rwa [Nat.zero_mul] at h

include hk he in
theorem val_neg : m.val (2 ^ (m.ew + m.f)) = .fin true 0 (1 - (m.bias : Int) - m.f) := by
  have h := val_zeroOf hk he (show 1 < 2 by decide)
  rwa [Nat.one_mul] at h

include hk in
theorem val_inf : m.val ((2 ^ m.ew - 1) * 2 ^ m.f) = .inf false := by
  have h := val_infOf hk (show 0 < 2 by decide)
  rwa [Nat.zero_mul, Nat.zero_add] at h

include hk in
theorem val_negInf : m.val (2 ^ (m.ew + m.f) + (2 ^ m.ew - 1) * 2 ^ m.f) = .inf true := by
  have h := val_infOf hk (show 1 < 2 by decide)
  rwa [Nat.one_mul] at h

include hk in
/-- The value of a code that is neither a zero nor special. -/
theorem val_nonzero {a : Nat} (ha : a < 2 ^ (1 + m.ew + m.f)) (hz : a % 2 ^ (m.ew + m.f) ≠ 0)
    (hi : a % 2 ^ (m.ew + m.f) < (2 ^ m.ew - 1) * 2 ^ m.f) :
    ∃ p e, p ≠ 0 ∧ m.val a = .fin (a / 2 ^ (m.ew + m.f) == 1) p e := by
  obtain ⟨s, x, y, hs, hx, hy, rfl⟩ := exists_packed ha
  rw [packed_mag hx hy] at hz hi
  have hlt : x ≠ 2 ^ m.ew - 1 := fun k => by rw [k] at hi; omega
  rw [packed_sign hx hy, val_packed hk hs hx hy, if_neg hlt]
  by_cases h0 : x = 0
  · exact ⟨y, _, by rwa [h0, Nat.zero_mul, Nat.zero_add] at hz, if_pos h0⟩
  · exact ⟨2 ^ m.f + y, _, by have := Nat.two_pow_pos m.f; omega, if_neg h0⟩

include hk in
/-- The value of a code below zero that is no NaN: an infinity or a finite one. -/
theorem val_below {a : Nat} (ha : a < 2 ^ (1 + m.ew + m.f)) (hn : 2 ^ (m.ew + m.f) < a) (h : ¬NaNCode m.ew m.f a) :
    m.val a = .inf true ∨ ∃ p e, p ≠ 0 ∧ m.val a = .fin true p e := by
  have hs : a / 2 ^ (m.ew + m.f) = 1 := by
    refine Nat.div_eq_of_lt_le (by omega) ?_
    calc a < 2 ^ (1 + m.ew + m.f) := ha
      _ = (1 + 1) * 2 ^ (m.ew + m.f) := by rw [Nat.add_assoc, Nat.pow_add, Nat.pow_one]
  have hd := Nat.div_add_mod a (2 ^ (m.ew + m.f))
  rw [hs, Nat.mul_one] at hd
  by_cases hi : a % 2 ^ (m.ew + m.f) < (2 ^ m.ew - 1) * 2 ^ m.f
  · have := val_nonzero hk ha (by omega) hi
    rw [hs] at this
    exact .inr this
  · refine .inl ?_
    obtain ⟨s, x, y, hs', hx, hy, rfl⟩ := exists_packed ha
    rw [packed_sign hx hy] at hs
    rw [packed_mag hx hy] at hi
    rw [nanCode_packed hx hy] at h
    have hmax : x = 2 ^ m.ew - 1 := by
      by_contra hne
      have := Nat.mul_le_mul_right (2 ^ m.f) (show x + 1 ≤ 2 ^ m.ew - 1 by omega)
      rw [Nat.add_mul] at this
      omega
    rw [val_packed hk hs' hx hy, if_pos hmax, if_pos (not_not.mp fun k => h ⟨hmax, k⟩), hs]
    rfl

end Codes

/-! ### The special values of the operations -/

section Special

variable {m : Fmt} (hk : m.kind = .ieee) (he : 2 ≤ m.ew) (hf : 0 < m.f) (rm : Rm)

include hk in
theorem inf_ieee (b : Bool) : m.inf b = ((if b then m.signBit else 0) + m.infCode, 0) := by rw [Fmt.inf, hk]

include hk in
theorem nan_ieee : m.nan = (2 ^ m.ew - 1) * 2 ^ m.f + 2 ^ (m.f - 1) := by rw [Fmt.nan, hk]

/-- A finite non-zero value over a zero (R70). -/
theorem div_by_zero {a b p : Nat} {x t : Bool} {e g : Int} (ha : m.val a = .fin x p e) (hp : p ≠ 0)
    (hb : m.val b = .fin t 0 g) :
    m.div rm a b = ((m.inf (x != t)).1, flDZ) := by
  rw [Fmt.div, ha, hb]
  simp only [if_true, if_neg hp]

theorem add_opposite_inf {a b : Nat} {x y : Bool} (ha : m.val a = .inf x) (hb : m.val b = .inf y) (h : x ≠ y) :
    m.add rm a b = (m.nan, flNV) := by
  rw [Fmt.add, ha, hb]
  exact if_neg h

theorem sub_same_inf {a b : Nat} {x : Bool} (ha : m.val a = .inf x) (hb : m.val b = .inf x) : m.sub rm a b = (m.nan, flNV) := by
  rw [Fmt.sub, ha, hb]
  exact if_neg (Bool.self_ne_not x)

theorem exactMul_zero_inf (x y : Bool) (e : Int) : exactMul (.fin x 0 e) (.inf y) = (.nan false, flNV) := rfl

theorem exactMul_inf_zero (x y : Bool) (e : Int) : exactMul (.inf x) (.fin y 0 e) = (.nan false, flNV) := rfl

theorem mul_invalid {a b : Nat} (h : exactMul (m.val a) (m.val b) = (.nan false, flNV)) : m.mul rm a b = (m.nan, flNV) := by
  rw [Fmt.mul, h]
  rfl

theorem fma_invalid {a b c : Nat} (h : exactMul (m.val a) (m.val b) = (.nan false, flNV)) (hc : (m.val c).isNan = false) :
    m.fma rm a b c = (m.nan, flNV) := by
  rw [Fmt.fma, h]
  simp only [sum_nan m rm (.inl (show (FVal.nan false).isNan = true from rfl)), nv_of_not_nan hc]
  rfl

theorem sqrt_below {a : Nat} (h : m.val a = .inf true ∨ ∃ p e, p ≠ 0 ∧ m.val a = .fin true p e) :
    m.sqrt rm a = (m.nan, flNV) := by
  rcases h with h | ⟨p, e, hp, h⟩
  · rw [Fmt.sqrt, h]
    rfl
  · rw [Fmt.sqrt, h]
    exact (if_neg hp).trans (if_pos rfl)

include hk in
/-- A code up to the infinity is no NaN. -/
theorem isNan_of_le_inf {c : Nat} (h : c < 2 ^ (1 + m.ew + m.f)) (hc : c % 2 ^ (m.ew + m.f) ≤ (2 ^ m.ew - 1) * 2 ^ m.f) :
    (m.val c).isNan = false := by
  refine isNan_val_of_not hk h fun hn => ?_
  obtain ⟨s, x, y, hs, hx, hy, rfl⟩ := exists_packed h
  obtain ⟨rfl, h0⟩ := (nanCode_packed hx hy).mp hn
  rw [packed_mag hx hy] at hc
  omega

end Special

theorem sign_cases {ew f a : Nat} (ha : a < 2 ^ (1 + ew + f)) : a / 2 ^ (ew + f) = 0 ∨ a / 2 ^ (ew + f) = 1 := by
  have : a / 2 ^ (ew + f) < 2 := by
    rw [Nat.div_lt_iff_lt_mul (Nat.two_pow_pos _)]
    calc a < 2 ^ (1 + ew + f) := ha
      _ = 2 * 2 ^ (ew + f) := by rw [Nat.add_assoc, Nat.pow_add, Nat.pow_one]
  exact Nat.le_one_iff_eq_zero_or_eq_one.mp (Nat.lt_succ_iff.mp this)

/-! ### Picks and comparisons -/

section Picks

variable (m : Fmt) (hi : Bool) {a b : Nat}

theorem pick_nv (a b : Nat) : (m.pick hi a b).2 = (m.val a).nv ||| (m.val b).nv := by
  rw [Fmt.pick]
  cases (m.val a).isNan <;> cases (m.val b).isNan <;> rfl

theorem pick_nan_left (ha : (m.val a).isNan = true) (hb : (m.val b).isNan = false) : (m.pick hi a b).1 = b := by
  rw [Fmt.pick, ha, hb]
  rfl

theorem pick_nan_right (ha : (m.val a).isNan = false) (hb : (m.val b).isNan = true) : (m.pick hi a b).1 = a := by
  rw [Fmt.pick, ha, hb]
  rfl

theorem pick_nans (ha : (m.val a).isNan = true) (hb : (m.val b).isNan = true) : (m.pick hi a b).1 = m.nan := by
  rw [Fmt.pick, ha, hb]
  rfl

/-- The order of two zeros of opposite signs. -/
theorem zeros_lt (x y : Bool) (e : Int) : (FVal.fin x 0 e).lt (.fin y 0 e) = false := by
  cases x <;> cases y <;> simp [FVal.lt, sint]

theorem feq_nan (h : (m.val a).isNan = true ∨ (m.val b).isNan = true) : (m.feq a b).1 = false := by
  rcases h with h | h <;> simp [Fmt.feq, FVal.eq, h]

theorem fltle_nan (h : (m.val a).isNan = true ∨ (m.val b).isNan = true) : m.fltle hi a b = (false, flNV) := by
  rcases h with h | h <;> simp [Fmt.fltle, h]

theorem fltle_ordered (ha : (m.val a).isNan = false) (hb : (m.val b).isNan = false) :
    m.fltle hi a b = (if hi then !((m.val b).lt (m.val a)) else (m.val a).lt (m.val b), 0) := by
  rw [Fmt.fltle, ha, hb]
  rfl

end Picks


/-! ### Conversions to 64 bits and classes -/

theorem roundInt_one (rm : Rm) (neg : Bool) (n : Nat) : roundInt rm neg n 1 = (n, false) := by
  cases rm <;> simp [roundInt, Nat.mod_one]

theorem scale2_of_nonneg (n : Nat) {e : Int} (he : 0 ≤ e) : scale2 n e = (n * 2 ^ e.toNat, 1) := if_pos he

theorem toInt_nan (m : Fmt) (rm : Rm) {a : Nat} (h : (m.val a).isNan = true) : m.toInt rm 64 a = (2 ^ 63 - 1, flNV) := by
  obtain ⟨s, hs⟩ := exists_nan h
  rw [Fmt.toInt, hs]
  rfl

/-- A whole number that 64 bits do not hold. -/
theorem toInt_out {m : Fmt} (rm : Rm) {a p : Nat} {e : Int} {s : Bool} (hv : m.val a = .fin s p e) (he : 0 ≤ e)
    (hp : (if s then 2 ^ 63 + 1 else 2 ^ 63) ≤ p * 2 ^ e.toNat) :
    m.toInt rm 64 a = (if s then 2 ^ 63 else 2 ^ 63 - 1, flNV) := by
  rw [Fmt.toInt, hv]
  simp only [scale2_of_nonneg p he, roundInt_one]
  generalize p * 2 ^ e.toNat = n at hp
  cases s
  · rw [if_pos (by simp [sint] at hp ⊢; omega)]
    rfl
  · rw [if_neg (by simp [sint]), if_pos (by simp [sint] at hp ⊢; omega)]
    rfl

/-- An exponent of 63 or more is out of the range of 64 bits, but for the lower end itself. -/
theorem toInt_large {m : Fmt} (hk : m.kind = .ieee) (hf : m.f ≤ 63) (rm : Rm) {s x y : Nat} (hs : s < 2) (hx : x < 2 ^ m.ew)
    (hy : y < 2 ^ m.f) (hl : m.bias + 63 ≤ x) (hm : x = 2 ^ m.ew - 1 → y = 0) (hn : s = 1 → x = m.bias + 63 → y ≠ 0) :
    m.toInt rm 64 (packed m.ew m.f s x y) = (if s == 1 then 2 ^ 63 else 2 ^ 63 - 1, flNV) := by
  have hv := val_packed hk hs hx hy
  by_cases h : x = 2 ^ m.ew - 1
  · rw [if_pos h, if_pos (hm h)] at hv
    rw [Fmt.toInt, hv]
    cases hb : s == 1 <;> rfl
  · rw [if_neg h, if_neg (by omega)] at hv
    refine toInt_out rm hv (by omega) ?_
    obtain ⟨k, hk⟩ : ∃ k, x = m.bias + 63 + k := ⟨_, (Nat.add_sub_cancel' hl).symm⟩
    have he : ((x : Int) - m.bias - m.f).toNat = 63 - m.f + k := by omega
    have hp : (2 ^ m.f + y) * 2 ^ (63 - m.f + k) = 2 ^ 63 * 2 ^ k + y * 2 ^ (63 - m.f + k) := by
      rw [Nat.add_mul, ← Nat.pow_add, ← Nat.pow_add]
      congr 2
      omega
    have h1 := Nat.one_le_two_pow (n := k)
    rw [he, hp]
    split
    next hb =>
      have h2 : 1 < 2 ^ k ∨ 0 < y * 2 ^ (63 - m.f + k) := by
        rcases Nat.eq_zero_or_pos k with h0 | h0
        · exact .inr (Nat.mul_pos (Nat.pos_of_ne_zero (hn (beq_iff_eq.mp hb) (by omega))) (Nat.two_pow_pos _))
        · exact .inl (Nat.one_lt_two_pow h0.ne')
      generalize y * 2 ^ (63 - m.f + k) = z at h2 ⊢
      generalize 2 ^ k = w at *
      omega
    next hb =>
      generalize 2 ^ k = w at *
      omega

/-- Where a code lies, by its exponent field. -/
theorem packed_bounds {ew f s x y : Nat} (hx : x < 2 ^ ew) :
    packed ew f s x y = s * 2 ^ (ew + f) + (x * 2 ^ f + y) ∧ 2 ^ (ew + f) = (2 ^ ew - 1) * 2 ^ f + 2 ^ f ∧
    (x = 0 → x * 2 ^ f = 0) ∧ (x ≠ 0 → 2 ^ f ≤ x * 2 ^ f) ∧
    (x ≠ 2 ^ ew - 1 → x * 2 ^ f + 2 ^ f ≤ (2 ^ ew - 1) * 2 ^ f) := by
  refine ⟨?_, ?_, fun h => by rw [h, Nat.zero_mul], fun h => Nat.le_mul_of_pos_left _ (Nat.pos_of_ne_zero h), fun h => ?_⟩
  · rw [packed, Nat.pow_add]
    ring
  · rw [← Nat.succ_mul, Nat.pow_add, Nat.succ_eq_add_one, Nat.sub_add_cancel (Nat.two_pow_pos ew)]
  · rw [← Nat.succ_mul]
    exact Nat.mul_le_mul_right _ (by omega)

/-- The classes of a value (R69), by its fields. -/
theorem classify_packed {m : Fmt} (hk : m.kind = .ieee) {s x y : Nat} (hs : s < 2) (hx : x < 2 ^ m.ew)
    (hy : y < 2 ^ m.f) : m.classify (packed m.ew m.f s x y) =
      if x = 2 ^ m.ew - 1 then
        if y = 0 then (if s = 1 then 2 ^ 0 else 2 ^ 7) else (if y / 2 ^ (m.f - 1) % 2 = 0 then 2 ^ 8 else 2 ^ 9)
      else if x = 0 then
        if y = 0 then (if s = 1 then 2 ^ 3 else 2 ^ 4) else (if s = 1 then 2 ^ 2 else 2 ^ 5)
      else (if s = 1 then 2 ^ 1 else 2 ^ 6) := by
  rw [Fmt.classify, val_packed hk hs hx hy, packed_exp hx hy]
  have := Nat.two_pow_pos m.f
  have hs' : s = 0 ∨ s = 1 := by omega
  by_cases h : x = 2 ^ m.ew - 1
  · rw [if_pos h, if_pos h]
    by_cases h0 : y = 0
    · rw [if_pos h0, if_pos h0]
      rcases hs' with rfl | rfl <;> rfl
    · rw [if_neg h0, if_neg h0]
      simp only [beq_iff_eq]
      rfl
  · rw [if_neg h, if_neg h]
    by_cases h0 : x = 0
    · subst h0
      by_cases hy0 : y = 0
      · subst hy0
        rcases hs' with rfl | rfl <;> rfl
      · rcases hs' with rfl | rfl <;> simp [hy0]
    · rw [if_neg h0, if_neg h0]
      rcases hs' with rfl | rfl <;> simp [h0]

/-- Settles O6. -/
theorem floatSpecialValues : Obligations.FloatSpecialValues := by
  unfold Obligations.FloatSpecialValues
  refine ⟨fun rm a b c => ?_, fun hi a b => ?_, fun rm a ha => ?_, fun a => ?_⟩
  · intro special
    have key (m : Fmt) (hk : m.kind = .ieee) (he : 2 ≤ m.ew) (hf : 0 < m.f) : special m m.ew m.f := by
      intro ha hb hc
      have hnan := nan_ieee hk
      refine ⟨fun h => ?_, fun h => ?_, ?_, ?_, ?_, ?_, ?_, ?_, ?_, fun hn h => ?_, ?_, fun hz hi => ⟨?_, ?_⟩⟩
      · have hn : (m.val a).isNan = true ∨ (m.val b).isNan = true := h.imp (isNan_val hk ha).mpr (isNan_val hk hb).mpr
        have hn' : (m.val a).isNan = true ∨ (m.val b).neg.isNan = true := by rwa [isNan_neg]
        have hg := raises_or (raises_val hk ha hf) (raises_val hk hb hf)
        rw [Fmt.add, Fmt.sub, sum_nan m rm hn, sum_nan m rm hn', nv_neg, mul_nan m rm hn, div_nan m rm hn]
        exact ⟨hnan, hg, hnan, hg, hnan, hg, hnan, hg⟩
      · rw [sqrt_nan m rm ((isNan_val hk ha).mpr h)]
        exact ⟨hnan, raises_val hk ha hf⟩
      · exact hnan ▸ add_opposite_inf rm (val_inf hk) (val_negInf hk) nofun
      · exact hnan ▸ sub_same_inf rm (val_inf hk) (val_inf hk)
      · exact hnan ▸ mul_invalid rm (by rw [val_zero hk he, val_inf hk]; rfl)
      · exact hnan ▸ mul_invalid rm (by rw [val_neg hk he, val_inf hk]; rfl)
      · rw [← hnan, Fmt.div, val_zero hk he]
        rfl
      · rw [← hnan, Fmt.div, val_inf hk]
        rfl
      · refine hnan ▸ fma_invalid rm (by rw [val_zero hk he, val_inf hk]; rfl) ?_
        split
        next h => exact isNan_of_le_inf hk hc h
        next h => rw [val_zero hk he]; rfl
      · exact hnan ▸ sqrt_below rm (val_below hk ha hn h)
      · rw [Fmt.sqrt, val_neg hk he]
        rfl
      · obtain ⟨p, e, hp, hv⟩ := val_nonzero hk ha hz hi
        rw [div_by_zero rm hv hp (val_zero hk he), inf_ieee hk, Nat.add_comm]
        rcases sign_cases ha with h | h <;> rw [h]
        · rw [Nat.zero_mul]
          rfl
        · rw [Nat.one_mul]
          rfl
      · obtain ⟨p, e, hp, hv⟩ := val_nonzero hk ha hz hi
        rw [div_by_zero rm hv hp (val_neg hk he), inf_ieee hk, Nat.add_comm]
        rcases sign_cases ha with h | h <;> rw [h]
        · rw [Nat.sub_zero, Nat.one_mul]
          rfl
        · rw [Nat.sub_self, Nat.zero_mul]
          rfl
    exact ⟨key fp32 rfl (by decide) (by decide), key fp64 rfl (by decide) (by decide), key bf16 rfl (by decide) (by decide),
      key fp16 rfl (by decide) (by decide)⟩
  · intro picks
    have key (m : Fmt) (hk : m.kind = .ieee) (he : 2 ≤ m.ew) (hf : 0 < m.f) : picks m m.ew m.f := by
      intro ha hb
      have na := (isNan_val hk ha).mpr
      have nb := (isNan_val hk hb).mpr
      have oa := isNan_val_of_not hk ha
      have ob := isNan_val_of_not hk hb
      have hg := raises_or (raises_val hk ha hf) (raises_val hk hb hf)
      have ho : Raises (NaNCode m.ew m.f a ∨ NaNCode m.ew m.f b) (m.fltle hi a b).2 := by
        refine ⟨fun h => ?_, fun h => ?_⟩
        · rw [fltle_nan m hi (h.imp na nb)]
        · rw [fltle_ordered m hi (oa fun k => h (.inl k)) (ob fun k => h (.inr k))]
      refine ⟨fun h k => pick_nan_left m hi (na h) (ob k), fun h k => pick_nan_right m hi (oa h) (nb k),
        fun h k => (pick_nans m hi (na h) (nb k)).trans (nan_ieee hk), pick_nv m hi a b ▸ hg, ?_, ?_, ?_, ?_,
        fun h => ⟨feq_nan m (h.imp na nb), congrArg Prod.fst (fltle_nan m hi (h.imp na nb))⟩, hg, ho, ?_, ?_, ?_⟩
      · simp only [Fmt.pick, val_zero hk he, val_neg hk he, zeros_lt]; rfl
      · simp only [Fmt.pick, val_zero hk he, val_neg hk he, zeros_lt]; rfl
      · simp only [Fmt.pick, val_zero hk he, val_neg hk he, zeros_lt]; rfl
      · simp only [Fmt.pick, val_zero hk he, val_neg hk he, zeros_lt]; rfl
      · simp [Fmt.feq, FVal.eq, val_zero hk he, val_neg hk he, zeros_lt, FVal.isNan, FVal.nv]
      · simp only [Fmt.fltle, val_zero hk he, val_neg hk he, zeros_lt]; rfl
      · simp only [Fmt.fltle, val_zero hk he, val_neg hk he, zeros_lt]; rfl
    exact ⟨key fp32 rfl (by decide) (by decide), key fp64 rfl (by decide) (by decide), key bf16 rfl (by decide) (by decide),
      key fp16 rfl (by decide) (by decide)⟩
  · have wide {s x y : Nat} (hs : s < 2) (hx : x < 2 ^ 11) (hy : y < 2 ^ 52) (hl : 1086 ≤ x) (hm : x = 2047 → y = 0)
        (hn : s = 1 → x = 1086 → y ≠ 0) :
        fp64.toInt rm 64 (packed 11 52 s x y) = (if s == 1 then 2 ^ 63 else 2 ^ 63 - 1, 16) :=
      toInt_large rfl (by decide) rm hs hx hy hl hm hn
    have narrow {s x y : Nat} (hs : s < 2) (hx : x < 2 ^ 8) (hy : y < 2 ^ 23) (hl : 190 ≤ x) (hm : x = 255 → y = 0)
        (hn : s = 1 → x = 190 → y ≠ 0) :
        fp32.toInt rm 64 (packed 8 23 s x y) = (if s == 1 then 2 ^ 63 else 2 ^ 63 - 1, 16) :=
      toInt_large rfl (by decide) rm hs hx hy hl hm hn
    refine ⟨fun h => toInt_nan fp64 rm ((isNan_val rfl ha).mpr h), fun hl hh => ?_, fun hl hh => ?_, ?_, ?_, fun ha =>
      ⟨fun h => toInt_nan fp32 rm ((isNan_val rfl ha).mpr h), fun hl hh => ?_, fun hl hh => ?_⟩⟩
    · obtain ⟨s, x, y, hs, hx, hy, rfl⟩ := exists_packed (ew := 11) (f := 52) ha
      simp only [packed] at hl hh
      obtain rfl : s = 0 := by omega
      exact wide hs hx hy (by omega) (by omega) (by omega)
    · obtain ⟨s, x, y, hs, hx, hy, rfl⟩ := exists_packed (ew := 11) (f := 52) ha
      simp only [packed] at hl hh
      obtain rfl : s = 1 := by omega
      exact wide hs hx hy (by omega) (by omega) (by omega)
    · cases rm <;> rfl
    · cases rm <;> rfl
    · obtain ⟨s, x, y, hs, hx, hy, rfl⟩ := exists_packed (ew := 8) (f := 23) ha
      simp only [packed] at hl hh
      obtain rfl : s = 0 := by omega
      exact narrow hs hx hy (by omega) (by omega) (by omega)
    · obtain ⟨s, x, y, hs, hx, hy, rfl⟩ := exists_packed (ew := 8) (f := 23) ha
      simp only [packed] at hl hh
      obtain rfl : s = 1 := by omega
      exact narrow hs hx hy (by omega) (by omega) (by omega)
  · intro classes
    have key (m : Fmt) (hk : m.kind = .ieee) (he : 2 ≤ m.ew) (hf : 0 < m.f) : classes m m.ew m.f := by
      intro ha
      obtain ⟨s, x, y, hs, hx, hy, rfl⟩ := exists_packed (ew := m.ew) (f := m.f)
        (by rwa [Nat.add_assoc, Nat.pow_add, Nat.pow_one])
      have hs' : s = 0 ∨ s = 1 := by omega
      rw [classify_packed hk hs hx hy, packed_frac hy]
      obtain ⟨hv, hN, h0, hl, hh⟩ := packed_bounds (f := m.f) (s := s) (y := y) hx
      have hI : (2 ^ m.ew - 1) * 2 ^ m.f = (2 ^ m.ew - 2) * 2 ^ m.f + 2 ^ m.f := by
        have := one_lt_maxExp he
        rw [← Nat.succ_mul]
        congr 1
        omega
      have hq : y / 2 ^ (m.f - 1) % 2 = 0 ↔ y < 2 ^ (m.f - 1) := by
        obtain ⟨n, hn⟩ := Nat.exists_eq_succ_of_ne_zero hf.ne'
        rw [hn, Nat.pow_succ] at hy
        rw [hn, Nat.succ_sub_one, Nat.mod_eq_of_lt (Nat.div_lt_of_lt_mul hy), Nat.div_eq_zero_iff]
        have := Nat.two_pow_pos n
        omega
      by_cases hx1 : x = 2 ^ m.ew - 1
      · rw [if_pos hx1]
        have hX : x * 2 ^ m.f = (2 ^ m.ew - 1) * 2 ^ m.f := by rw [hx1]
        by_cases hy0 : y = 0
        · rcases hs' with rfl | rfl
          · rw [if_pos hy0, if_neg Nat.zero_ne_one, if_neg (by omega), if_neg (by omega), if_neg (by omega),
              if_neg (by omega), if_neg (by omega), if_neg (by omega), if_neg (by omega), if_pos (by omega)]
          · rw [if_pos hy0, if_pos rfl, if_pos (by omega)]
        · rw [if_neg hy0]
          refine (if_congr hq rfl rfl).trans (Eq.symm ?_)
          rcases hs' with rfl | rfl <;>
            rw [if_neg (by omega), if_neg (by omega), if_neg (by omega), if_neg (by omega), if_neg (by omega),
              if_neg (by omega), if_neg (by omega), if_neg (by omega)]
      · rw [if_neg hx1]
        have hX := hh hx1
        by_cases hx0 : x = 0
        · have hX0 := h0 hx0
          rw [if_pos hx0]
          by_cases hy0 : y = 0
          · rcases hs' with rfl | rfl
            · rw [if_pos hy0, if_neg Nat.zero_ne_one, if_neg (by omega), if_neg (by omega), if_neg (by omega),
                if_neg (by omega), if_pos (by omega)]
            · rw [if_pos hy0, if_pos rfl, if_neg (by omega), if_neg (by omega), if_neg (by omega), if_pos (by omega)]
          · rcases hs' with rfl | rfl
            · rw [if_neg hy0, if_neg Nat.zero_ne_one, if_neg (by omega), if_neg (by omega), if_neg (by omega),
                if_neg (by omega), if_neg (by omega), if_pos (by omega)]
            · rw [if_neg hy0, if_pos rfl, if_neg (by omega), if_neg (by omega), if_pos (by omega)]
        · have hX0 := hl hx0
          rcases hs' with rfl | rfl
          · rw [if_neg hx0, if_neg Nat.zero_ne_one, if_neg (by omega), if_neg (by omega), if_neg (by omega),
              if_neg (by omega), if_neg (by omega), if_neg (by omega), if_pos (by omega)]
          · rw [if_neg hx0, if_pos rfl, if_neg (by omega), if_pos (by omega)]
    exact ⟨key fp32 rfl (by decide) (by decide), key fp64 rfl (by decide) (by decide)⟩

end Sys2Proof
end

section
/-! PROOFS. Parked threads: the wake message, the re-read, the poll, the eviction and the limit (R53, R54, R194-R198, R225). -/

namespace Sys2Proof

open Machine

/-! ### An acquire with no copy of a peer line -/

theorem backPeers_nil {s : State} (h : s.peerLines = []) (p : PeerLine → Bool) : backPeers s p = s := by rw [backPeers, h]; rfl

theorem bumpDomain_nil {s : State} (h : s.peerLines = []) : bumpDomain s = { s with dv := (s.dv + 1) % 16 } := by
  have hf (f : Nat × PeerLine → Bool) : s.peerLines.filter f = s.peerLines := by rw [h]; rfl
  rw [bumpDomain, backPeers_nil h]
  exact congrArg (fun l => { s with dv := (s.dv + 1) % 16, peerLines := l }) (hf _)

/-- An acquire without copies of peer lines changes no more than the versions and a core's array (R230, R233). -/
theorem acquire_nil {s : State} (h : s.peerLines = []) (core scope : Nat) :
    { acquire s core scope with dv := s.dv, cores := s.cores } = s := by
  have hd : { (if 5 ≤ scope then bumpDomain s else s) with dv := s.dv } = s := by
    split
    · rw [bumpDomain_nil h]
    · rfl
  rw [acquire]
  generalize (if 5 ≤ scope then bumpDomain s else s) = u at hd
  split
  · exact congrArg (fun x => { x with cores := s.cores }) hd
  · exact congrArg (fun x => { x with cores := s.cores }) hd

theorem th_acquire {s : State} (h : s.peerLines = []) (core scope k : Nat) : th (acquire s core scope) k = th s k := by
  have ht : (acquire s core scope).threads = s.threads :=
    (congrArg State.threads (acquire_nil h core scope) :)
  rw [th, th, ht]

/-! ### The home of a waited counter -/

section Home

variable {s : State} {l : Loc} (h : HereAt l)

include h

theorem toHome_hereAt : toHome s l = s := by
  rcases h with ⟨k, rfl, hk⟩ | ⟨c, o, rfl, -⟩ | ⟨c, e, rfl, -⟩
  · have hp : isPeer k = false := by simp [isPeer]; omega
    have hh : isHost k = false := by simp [isHost]; omega
    rw [toHome, hp, hh]
    rfl
  · rfl
  · rfl

theorem homeReach_hereAt : homeReach s l = true := by
  rcases h with ⟨k, rfl, hk⟩ | ⟨c, o, rfl, -⟩ | ⟨c, e, rfl, -⟩
  · have hp : isPeer k = false := by simp [isPeer]; omega
    rw [homeReach, hp]
    rfl
  · rfl
  · rfl

theorem homeDenied_hereAt (part : Nat) : homeDenied s part l = false := by
  rcases h with ⟨k, rfl, hk⟩ | ⟨c, o, rfl, -⟩ | ⟨c, e, rfl, -⟩
  · have hp : isPeer k = false := by simp [isPeer]; omega
    rw [homeDenied, hp]
    rfl
  · rfl
  · rfl

omit h in
theorem homeGone_of_served (hw : s.lehr.withdrawn = []) : homeGone s l = false := by
  cases l <;> simp [homeGone, hw]

end Home

theorem met_iff (v t : Word) : met v t = true ↔ 0 ≤ (v - t).toInt := by
  rw [met, Bool.not_eq_true', BitVec.msb_eq_toInt, decide_eq_false_iff_not, Int.not_lt]

theorem met_eq_false {v t : Word} (h : (v - t).toInt < 0) : met v t = false :=
  Bool.eq_false_iff.mpr fun k => absurd ((met_iff v t).mp k) (Int.not_le.mpr h)

/-! ### How a wait ends -/

theorem th_unpark (s : State) (tid : Nat) : th (unpark s tid) tid = { th s tid with state := .ready, wait := none } := th_setTh ..

theorem th_unpark_ne (s : State) {tid k : Nat} (h : k ≠ tid) : th (unpark s tid) k = th s k := th_setTh_ne _ _ h

/-- A wait without a guard that is met: its bundle completes, or waits to be reissued (R53, R188, R195). -/
theorem completeWait_met {s : State} (hp : s.peerLines = []) {tid : Nat} {w : Wait} (hg : w.guard = false) :
    let t := completeWait s tid w
    (th t tid).state = .ready ∧ (th t tid).wait = none ∧ (∀ e ∈ t.waiters, e.1 ≠ tid) ∧
    (w.how = 2 → (th t tid).pc = (th s tid).pc ∧ (th t tid).waitMet = true) ∧
    (w.how ≠ 2 → (th t tid).pc = (th s tid).pc + 4 ∧ (w.how = 1 → (th t tid).u.arr = false)) ∧
    (th t tid).u.wval = (th s tid).u.wval ∧ (th t tid).g = (th s tid).g ∧ OthersSame s t tid ∧ t.mem = s.mem ∧
    t.cycle = s.cycle := by
  intro t
  have hu : (unpark s tid).peerLines = [] := hp
  have hth (k : Nat) := th_acquire hu (coreOf tid) w.scope k
  have hframe := acquire_nil hu (coreOf tid) w.scope
  have hmem : (acquire (unpark s tid) (coreOf tid) w.scope).mem = s.mem := (congrArg State.mem hframe :)
  have hcycle : (acquire (unpark s tid) (coreOf tid) w.scope).cycle = s.cycle := (congrArg State.cycle hframe :)
  have hwait : ∀ e ∈ (acquire (unpark s tid) (coreOf tid) w.scope).waiters, e.1 ≠ tid := by
    rw [show (acquire (unpark s tid) (coreOf tid) w.scope).waiters = _ from (congrArg State.waiters hframe :)]
    exact fun e he => of_decide_eq_true (List.mem_filter.mp he).2
  have ht : t = completeWait s tid w := rfl
  simp only [completeWait, hg, Bool.false_eq_true, if_false, hth, th_unpark] at ht
  by_cases hh : w.how = 2
  · rw [if_pos hh] at ht
    rw [ht, th_setTh]
    exact ⟨rfl, rfl, hwait, fun _ => ⟨rfl, rfl⟩, fun n => absurd hh n, rfl, rfl,
      fun k hk => by rw [th_setTh_ne _ _ hk, hth, th_unpark_ne _ hk], hmem, hcycle⟩
  · rw [if_neg hh] at ht
    rw [ht, th_setTh]
    refine ⟨rfl, rfl, hwait, fun n => absurd n hh, fun _ => ⟨rfl, fun h1 => ?_⟩, ?_, rfl,
      fun k hk => by rw [th_setTh_ne _ _ hk, hth, th_unpark_ne _ hk], hmem, hcycle⟩
    · rw [if_pos h1]
    · split <;> rfl

theorem asThread_me (s : State) (tid : Nat) : me (asThread s tid) = th s tid := rfl

/-- The trap of a parked thread at its limit (R54, R198). -/
theorem waitTrap_met {s : State} {tid cause : Nat} {w : Wait} {v : Word} (hl : ∀ l ∈ (th s tid).longs, l.res = .written)
    (hq : (th s tid).v.queue = []) :
    let t := waitTrap s tid cause w v
    let T := th s tid
    (th t tid).state = .ready ∧ (th t tid).wait = none ∧ (th t tid).u = { T.u with wval := v } ∧
    Handler T (th t tid) (goesToHyp T cause) (BitVec.ofNat 64 cause) T.pc w.addr ∧ (th t tid).g = T.g ∧ OthersSame s t tid ∧
    t.mem = s.mem ∧ t.cycle = s.cycle := by
  intro t T
  let u := setMe (asThread (unpark s tid) tid) { T with state := .ready, wait := none, u := { T.u with wval := v } }
  have hme : me u = { T with state := .ready, wait := none, u := { T.u with wval := v } } := me_setMe ..
  have hu : t = raise u cause w.addr := by
    show waitTrap s tid cause w v = _
    rw [waitTrap, asThread_me, th_unpark]
  have hquiet : Quiet u := by
    rw [Quiet, hme]
    exact ⟨hl, hq⟩
  obtain ⟨-, ⟨hout, hother, hmask, -⟩, hhandler⟩ := trapTo_raise hquiet cause w.addr
  rw [← hu] at hout hother hmask hhandler
  have hcur : t.cur = tid := hout.cur
  have hm : th t tid = me t := by rw [me, hcur]
  rw [hm]
  rw [hme] at hmask hhandler
  have hcause : (if u.slot = 1 then 2 ^ 62 else 0) + cause = cause := Nat.zero_add _
  rw [hcause] at hhandler
  refine ⟨(congrArg Thread.state hmask :), (congrArg Thread.wait hmask :), (congrArg Thread.u hmask :), hhandler,
    (congrArg Thread.g hmask :), fun k hk => ?_, hout.mem, hout.cycle⟩
  rw [hother k hk]
  exact (th_setTh_ne _ _ hk).trans (th_unpark_ne s hk)

/-! ### The events -/

theorem waitReread_home {s : State} {tid : Nat} {w : Wait} (hw : (th s tid).wait = some w) (hp : (th s tid).state = .parked)
    (hk : w.woken = true) (hl : HereAt w.loc) (hpo : s.poison = []) (hwd : s.lehr.withdrawn = []) (hst : s.stuck = []) :
    exec (.waitReread tid) s = .next (if met (counterAt s w.loc) w.thr then completeWait s tid w
      else
        let s := unlist s tid
        let room := !(tableFull s w.loc)
        let x := { w with woken := false, listed := room, poll := s.cycle + 1024, seen := counterAt s w.loc }
        { setTh s tid { th s tid with wait := some x } with
          waiters := if room then s.waiters ++ [(tid, w.loc)] else s.waiters }) := by
  have hu : unstick s tid 0 w.addr 0 = s := by
    rw [unstick, hst]
    exact congrArg (fun l => { s with stuck := l }) hst.symm
  have hpo : poisoned s w.loc 8 = false := by rw [poisoned, hpo]; rfl
  have hr : ¬((th s tid).state ≠ .parked ∨ (!w.woken) = true) := by simp [hp, hk]
  have hh : ¬(!(homeReach s w.loc)) = true := by simp [homeReach_hereAt hl]
  have hd : ¬homeDenied s (partOf s tid) w.loc = true := by simp [homeDenied_hereAt hl]
  have hg : ¬homeGone s w.loc = true := by simp [homeGone_of_served hwd]
  show execWaitReread tid s = _
  rw [execWaitReread, hw]
  refine congrArg Host.Outcome.next ?_
  rw [if_neg hr, if_neg hh, if_neg hd, if_neg hg, if_neg (Bool.eq_false_iff.mp hpo), hu, toHome_hereAt hl]
  rfl

theorem waiterEvict_listed {s : State} {n : Nat} {w : Nat × Loc} (hw : s.waiters[n]? = some w) : exec (.waiterEvict n) s =
    .next { s with waiters := ldel s.waiters n, wakes := s.wakes ++ [{ tid := w.1, loc := w.2 }] } := by
  show execWaiterEvict n s = _
  rw [execWaiterEvict, hw]

/-- A wake message for a thread that waits on its counter marks it (R195). -/
theorem wakeMessage_waiting {s : State} {n : Nat} {k : Wake} {w : Wait} (hk : s.wakes[n]? = some k)
    (hw : (th s k.tid).wait = some w) (hp : (th s k.tid).state = .parked) (hl : w.loc = k.loc) : exec (.wakeMessage n) s =
    .next (setTh { s with wakes := ldel s.wakes n } k.tid
      { th s k.tid with wait := some { w with woken := true, listed := false } }) := by
  have hw' : (th { s with wakes := ldel s.wakes n } k.tid).wait = some w := hw
  show execWakeMessage n s = _
  rw [execWakeMessage, hk]
  refine congrArg Host.Outcome.next ?_
  rw [hw']
  exact if_pos ⟨hp, hl⟩

/-- A wake message for any other is discarded. -/
theorem wakeMessage_other {s : State} {n : Nat} {k : Wake} (hk : s.wakes[n]? = some k)
    (h : ¬∃ w, (th s k.tid).wait = some w ∧ (th s k.tid).state = .parked ∧ w.loc = k.loc) :
    exec (.wakeMessage n) s = .next { s with wakes := ldel s.wakes n } := by
  show execWakeMessage n s = _
  rw [execWakeMessage, hk]
  refine congrArg Host.Outcome.next ?_
  show (match (th s k.tid).wait with | some w => _ | none => _) = _
  cases hw : (th s k.tid).wait with
  | none => rfl
  | some w => exact if_neg fun c => h ⟨w, hw, c⟩

theorem waiterPoll_unlisted {s : State} {tid : Nat} {w : Wait} (hw : (th s tid).wait = some w) (hp : (th s tid).state = .parked)
    (hl : w.listed = false) (hk : w.woken = false) : exec (.waiterPoll tid) s =
    .next (setTh { s with cycle := max s.cycle w.poll } tid { th s tid with wait := some { w with woken := true } }) := by
  show execWaiterPoll tid s = _
  rw [execWaiterPoll, hw]
  exact congrArg Host.Outcome.next (if_pos ⟨hp, by rw [hl]; rfl, by rw [hk]; rfl⟩)

/-- The limit of a parked thread is exceeded, and the value meets the threshold by then (R225). -/
theorem waitTimeout_met {s : State} {tid c : Nat} {w : Wait} (hw : (th s tid).wait = some w) (hp : (th s tid).state = .parked)
    (hc : w.due = some c) (hl : HereAt w.loc) (hpo : s.poison = []) (hwd : s.lehr.withdrawn = [])
    (hm : met (counterAt s w.loc) w.thr = true) :
    exec (.waitTimeout tid) s = .next (completeWait { s with cycle := max s.cycle (c + 1) } tid w) := by
  show execWaitTimeout tid s = _
  have hv : counterAt (toHome s w.loc) w.loc = counterAt s w.loc := by rw [toHome_hereAt hl]
  rw [← hv] at hm
  rw [execWaitTimeout, hw]
  dsimp only
  rw [hc]
  refine congrArg Host.Outcome.next ((if_neg (not_not.mpr hp)).trans ((if_pos ?_).trans ?_))
  · have hd : poisoned s w.loc 8 = false := by rw [poisoned, hpo]; rfl
    have hg : homeGone { s with cycle := max s.cycle (c + 1) } w.loc = false := homeGone_of_served hwd
    exact ⟨homeReach_hereAt hl, congrArg not (homeDenied_hereAt hl _), congrArg not hg, congrArg not hd, hm⟩
  · rw [toHome_hereAt hl]

/-- The limit of a parked thread is exceeded below its threshold (R198). -/
theorem waitTimeout_unmet {s : State} {tid c : Nat} {w : Wait} (hw : (th s tid).wait = some w) (hp : (th s tid).state = .parked)
    (hc : w.due = some c) (hl : HereAt w.loc) (hm : met (counterAt s w.loc) w.thr = false) :
    exec (.waitTimeout tid) s = .next (waitTrap { s with cycle := max s.cycle (c + 1) } tid 10 w w.seen) := by
  show execWaitTimeout tid s = _
  have hv : counterAt (toHome s w.loc) w.loc = counterAt s w.loc := by rw [toHome_hereAt hl]
  rw [← hv] at hm
  rw [execWaitTimeout, hw]
  dsimp only
  rw [hc]
  refine congrArg Host.Outcome.next ((if_neg (not_not.mpr hp)).trans (if_neg fun k => ?_))
  exact absurd (hm.symm.trans k.2.2.2.2) Bool.false_ne_true

theorem append_ite {α : Type} (b : Bool) (l k : List α) :
    (l ++ if b = true then k else []) = if b = true then l ++ k else l := by
  cases b
  · exact List.append_nil l
  · rfl

/-- Settles O27. -/
theorem waitEvents : Obligations.WaitEvents := by
  unfold Obligations.WaitEvents
  refine ⟨fun s n k hk => ?_,
    fun s tid w hw hp => ⟨fun hk hl hpo hwd hst hn => ⟨fun hm hg => ?_, fun hm => ?_⟩, fun hl hk => ?_,
    fun c hc hl hpo hwd hn hm hg => ?_, fun c hc hl hn hm hlo hq => ?_⟩,
    fun s n w hw => ⟨_, waiterEvict_listed hw, rfl, rfl, rfl⟩⟩
  · by_cases h : ∃ w, (th s k.tid).wait = some w ∧ (th s k.tid).state = .parked ∧ w.loc = k.loc
    · obtain ⟨w, hw, hp, hl⟩ := h
      refine ⟨_, wakeMessage_waiting hk hw hp hl, rfl, rfl, fun j hj => th_setTh_ne _ _ hj, fun x hx _ _ => ?_,
        fun n => absurd hp n⟩
      obtain rfl : w = x := Option.some.inj (hw.symm.trans hx)
      exact th_setTh ..
    · exact ⟨_, wakeMessage_other hk h, rfl, rfl, fun _ _ => rfl,
        fun w hw hp hl => absurd ⟨w, hw, hp, hl⟩ h, fun _ => rfl⟩
  · obtain ⟨hst', hwait, hlist, h2, h12, -, hg', hoth, hmem, -⟩ := completeWait_met (s := s) (tid := tid) hn.1 hg
    refine ⟨_, (waitReread_home hw hp hk hl hpo hwd hst).trans (congrArg _ (if_pos ((met_iff _ _).mpr hm))), ?_⟩
    exact ⟨hst', hwait, hlist, h2, h12, hg', hoth, hmem⟩
  · refine ⟨_, _, (waitReread_home hw hp hk hl hpo hwd hst).trans
      (congrArg _ (if_neg (Bool.eq_false_iff.mp (met_eq_false hm)))), th_setTh .., rfl, ?_, fun j hj => th_setTh_ne _ _ hj, rfl⟩
    exact (append_ite ..).symm
  · exact ⟨_, waiterPoll_unlisted hw hp hl hk, th_setTh .., Nat.le_max_right .., fun j hj => th_setTh_ne _ _ hj, rfl⟩
  · obtain ⟨hst', hwait, -, -, -, hu, hg', hoth, hmem, hcy⟩ :=
      completeWait_met (s := { s with cycle := max s.cycle (c + 1) }) (tid := tid) hn.1 hg
    refine ⟨_, waitTimeout_met hw hp hc hl hpo hwd ((met_iff _ _).mpr hm), hst', hwait, ?_, hu, hg', hoth, hmem⟩
    rw [hcy]
    exact Nat.le_max_right ..
  · obtain ⟨hst', hwait, hu, hh, hg', hoth, hmem, hcy⟩ := waitTrap_met (s := { s with cycle := max s.cycle (c + 1) })
      (cause := 10) (w := w) (v := w.seen) hlo hq
    refine ⟨_, waitTimeout_unmet hw hp hc hl (met_eq_false hm), hst', hwait, ?_, hu, hh, hg', hoth, hmem⟩
    rw [hcy]
    exact Nat.le_max_right ..

end Sys2Proof
end

section
/-! PROOFS. An asynchronous fault of a thread that is held in a `grp.kill` (R54, R84). -/

namespace Sys2Proof

open Machine

/-- A Ready thread that is held in a `grp.kill` whose kills are made, and whose copy fault is reported. -/
def killerFaulted : State :=
  { threads := [(0, { state := .ready, hold := some { pc := 0, stage := killStage }, asyncDue := some 15 })] }

/-- No trap enters while the thread is held in the word: the event does nothing yet. -/
theorem asyncFaultTrap_killerFaulted : exec (.asyncFaultTrap 0) killerFaulted = .next killerFaulted := rfl

theorem atBoundary_killerFaulted : AtBoundary killerFaulted 0 := by
  rw [AtBoundary, Idle]
  decide

/-- Refutes O38: `AtBoundary` does not ask that the thread is held in no word, and a trap does not enter between the kills of
a `grp.kill` and its completion. There a reported copy fault stays due. -/
theorem not_asynchronousTraps : ¬ Obligations.AsynchronousTraps := by
  unfold Obligations.AsynchronousTraps
  intro h
  obtain ⟨-, -, async, -⟩ := h killerFaulted 0
  obtain ⟨t, he, -, -, hdue, -⟩ := async 15 rfl (.inl rfl) atBoundary_killerFaulted
  rw [asyncFaultTrap_killerFaulted] at he
  rw [← Host.Outcome.next.inj he] at hdue
  exact absurd hdue (by decide)

end Sys2Proof
end

section
/-! PROOFS. A host read of no bytes at the end of device memory (R234). -/

namespace Sys2Proof

open Machine

/-- The address behind this package's device memory is the next package's, and the read is not this package's to answer. -/
theorem hostCxlMemAccess_behind : exec (.hostCxlMemAccess (2 ^ 40) false []) {} = .next {} := rfl

/-- Refutes O28: its clause for a host access of device memory bounds the end of the bytes alone, so that a read of no bytes
may start behind the memory, at offset 2^40; it is answered by no completion. -/
theorem not_linesAndCopies : ¬ Obligations.LinesAndCopies := by
  unfold Obligations.LinesAndCopies
  intro h
  obtain ⟨-, -, -, access⟩ := h
  obtain ⟨-, hread⟩ := access {} (2 ^ 40) (2 ^ 40) [] (by decide) rfl (by decide) rfl rfl rfl rfl
  rw [hostCxlMemAccess_behind] at hread
  exact absurd (congrArg (fun t => t.out.cxl.length) (Host.Outcome.next.inj hread)) (by decide)

end Sys2Proof
end

section
/-! PROOFS. A spawn that sets the near counters of its kernel, on one of which another thread has an arm (R191, R322). -/

namespace Sys2Proof

open Machine

/-- A thread of core 0 and of kernel 1, which has one near counter, of index 0; thread 5 has armed that counter of core 0. The
scratchpad is zero, so that its first 32 bytes are a spawn block for core 0. -/
def spawnArmed : State :=
  { threads := [(0, { state := .ready, kernel := 1, u := { lwb := 1 } })], cores := [(0, { sp := 1 })],
    kernels := [(1, { q := 0, src := .thread 0 0, rec_ := [], state := .running, ncounters := 1 })],
    arms := [{ loc := .near 0 0, thr := 0, tid := some 5 }] }

/-- The interrupts raised at a thread, after an instruction. -/
def pendAfter (i : Instr) (s : State) (k : Nat) : Option (BitVec 5) :=
  match exec i s with
  | .next t => some (th t k).sr.pend
  | _ => none

/-- The spawn sets the counter to 0, which fires the arm: an interrupt is raised at thread 5. -/
theorem pendAfter_spawnArmed : pendAfter (.thrSpawn 0 0 0 0) spawnArmed 5 = some 4 := rfl

/-- Refutes O35: a spawned thread's kernel takes its near counters on the core and sets them to 0 (R322), which fires an arm on
one of them: a thread that is neither the issuer nor the new one changes. -/
theorem not_threadLife : ¬ Obligations.ThreadLife := by
  unfold Obligations.ThreadLife
  intro h
  obtain ⟨-, spawn, -⟩ := h spawnArmed 0 0 0 0
  obtain ⟨-, placed⟩ := spawn 0 rfl rfl (by rw [InScratch]; decide) rfl (by rw [NothingPosted]; decide) rfl
  obtain ⟨-, inPart⟩ := placed (by decide) (by decide) (by decide) (by decide)
  obtain ⟨-, -, makes⟩ := inPart (by decide) (by decide)
  obtain ⟨t, he, -, -, hN⟩ := makes 0 0 1 (.inl ⟨rfl, rfl, by decide⟩) (by decide) (by decide) rfl rfl rfl
  obtain ⟨-, -, -, -, -, -, -, -, -, -, -, -, -, -, -, -, -, -, -, -, -, -, -, others, -⟩ := hN
  have hp := pendAfter_spawnArmed
  rw [pendAfter, he] at hp
  have hsame : (th t 5).sr.pend = 0 := congrArg (fun T => T.sr.pend) (others 5 (by decide) (by decide))
  exact absurd ((congrArg some hsame).symm.trans hp) (by decide)

end Sys2Proof
end

section
/-! PROOFS. A load into a slot in whose name a holding TILE word of an ended thread still runs (R80, R174). -/

namespace Sys2Proof

open Machine

/-- A run of loads in the own scratchpad gives the bytes that stand there (R64, R71). -/
theorem loadRun_inScratch {s : State} (hp : NothingPosted s s.cur) (he : s.poison = []) (n : Nat) {ea : Word} {off : Nat}
    (ha : ea.toNat % 8 = 0) (hi : InScratch s ea (8 * n) off) (hn : off + 8 * n ≤ 2 ^ 19) :
    loadRun s ea n = (mbytes s.spads (s.cur / 16 * 0x80000 + off) (8 * n), .value 0 s) := by
  induction n generalizing ea off with
  | zero => rfl
  | succ n ih =>
    obtain ⟨hb, hea, ho, hr⟩ := hi
    have hlwb := (me s).u.lwb.isLt
    have hv := loadAt_inScratch (n := 8) ha ⟨hb, hea, ho, by omega⟩ hp (by rw [poisoned, he]; rfl)
    rw [loadRun, hv]
    dsimp only
    by_cases h0 : n = 0
    · subst h0
      rw [loadRun, natBytes_mrd, List.append_nil]
    · have hnext : (ea + 8).toNat = ea.toNat + 8 := by
        rw [BitVec.toNat_add, Nat.mod_eq_of_lt]
        · rfl
        · show ea.toNat + 8 < _
          omega
      rw [ih (off := off + 8) (by omega) ⟨hb, by omega, by omega, by omega⟩ (by omega)]
      dsimp only
      rw [natBytes_mrd, ← Nat.add_assoc, ← mbytes_append, show 8 * (n + 1) = 8 + 8 * n by omega]

/-- What a run of 1,024 loads gives, a save area (R79, R80). -/
theorem loadRun_area {s : State} (hp : NothingPosted s s.cur) (he : s.poison = []) {ea : Word} {off : Nat}
    (ha : ea.toNat % 8 = 0) (hi : InScratch s ea 8192 off) (hn : off + 8192 ≤ 2 ^ 19) :
    loadRun s ea 1024 = (mbytes s.spads (s.cur / 16 * 0x80000 + off) 8192, .value 0 s) :=
  loadRun_inScratch hp he 1024 ha hi hn

/-- A supervisor thread of core 0, whose scratchpad begins with an area of a Ready thread; slot 1 is Free, but a holding TILE
word of the thread that it held last still runs. -/
def loadBehindTile : State :=
  { threads := [(0, { state := .ready, priv := .sup, g := [(1, 1)], u := { lwb := 1 } })],
    cores := [(0, { sp := 1, tq := [{ op := .tileRowv, t := 0, tid := 1, pc := 0, ga := 0, gb := 0, cfg := {}, fmt := 0, scb := 0,
                                      vt := 0, orphan := true }] })],
    spads := [(0, 1), (4, 1)] }

/-- The area at the start of the scratchpad. -/
def areaBehindTile : List Byte := mbytes loadBehindTile.spads (loadBehindTile.cur / 16 * 0x80000 + 0) 8192

theorem areaOk_behindTile : areaOk loadBehindTile 1 areaBehindTile = true := by decide +kernel

theorem loadRun_behindTile : loadRun loadBehindTile 0 1024 = (areaBehindTile, .value 0 loadBehindTile) :=
  loadRun_area (by rw [NothingPosted]; decide) rfl rfl (by rw [InScratch]; decide) (by decide)

theorem rows_behindTile : areaRows areaBehindTile = 0 := by decide +kernel

theorem vectors_behindTile : field areaBehindTile 4 4 = 1 := by decide +kernel

/-- The load waits until the word has ended. -/
theorem thrLoad_behindTile : exec (.thrLoad 0 0 1 0) loadBehindTile = .next (held loadBehindTile) := by
  show execThrLoad 0 0 1 0 loadBehindTile = _
  refine congrArg Host.Outcome.next ?_
  split
  next t h => exact nomatch (show Target.ok 1 = .ends t from h)
  next h => exact nomatch (show Target.ok 1 = .none_ from h)
  next x h =>
    obtain rfl : 1 = x := Target.ok.inj (show Target.ok 1 = .ok x from h)
    rw [show loadCtx loadBehindTile (rd loadBehindTile 1) = some 0 from rfl]
    refine (if_neg (by decide)).trans ((if_neg (by decide)).trans ?_)
    rw [show rd loadBehindTile 0 = 0 from rfl, loadRun_behindTile]
    dsimp only
    rw [vectors_behindTile, rows_behindTile]
    rw [if_neg (by decide), loadRegs]
    dsimp only
    rw [areaOk_behindTile]
    exact (if_neg Bool.false_ne_true).trans ((if_neg (Nat.not_lt_zero _)).trans (if_pos (.inr rfl)))

/-- Refutes O37: its clause for a load into a Free slot does not ask that no holding TILE word of the slot's last thread still
runs; the load waits for its end (R174). -/
theorem not_threadSaves : ¬ Obligations.ThreadSaves := by
  unfold Obligations.ThreadSaves
  intro h
  obtain ⟨-, load⟩ := h loadBehindTile 0 0 1 0 1 (by rw [Targets]; decide)
  obtain ⟨-, free⟩ := load 0 0 (.inl (by decide))
  obtain ⟨-, place⟩ := free rfl rfl (by rw [InScratch]; decide) rfl (by rw [NothingPosted]; decide) rfl
  obtain ⟨t, he, ⟨hlast, -⟩, -⟩ := place areaOk_behindTile (by decide +kernel) (by decide) rfl rfl rfl
  rw [thrLoad_behindTile] at he
  rw [← Host.Outcome.next.inj he] at hlast
  exact absurd hlast (by decide)

end Sys2Proof
end

section
/-! PROOFS. The end of a kernel whose status page was refused (R329, R330). -/

namespace Sys2Proof

open Machine

/-- A Draining kernel with its status word at address 8, the page request of which was refused. -/
def drainingRefused : State :=
  { kernels := [(1, { q := 0, src := .host 0, rec_ := List.replicate 24 0 ++ [8], state := .draining, dead := [8] })],
    ctxs := [(0, { state := .running })] }

/-- The 8 bytes at an address of this package's memory, after an instruction. -/
def wordAfter (i : Instr) (s : State) (a : Nat) : Option Nat :=
  match exec i s with
  | .next t => some (mrd t.mem a 8)
  | _ => none

/-- The store of the status word goes to the error log. -/
theorem wordAfter_drainingRefused : wordAfter (.kernelEndSequence 1) drainingRefused 8 = some 0 := rfl

/-- Refutes O44: its clause for a kernel's end does not ask that the page request of the status word was not refused, which the
kernel notes; then the store is logged as an error in its place (R330). -/
theorem not_kernelLife : ¬ Obligations.KernelLife := by
  unfold Obligations.KernelLife
  intro h
  obtain ⟨-, -, -, ends⟩ := h drainingRefused 1 rfl (by rw [CalmCounters]; decide) (by rw [NoCopies]; decide) rfl rfl rfl
  obtain ⟨t, he, -, hmem, -⟩ := ends 8 0 rfl (by decide) rfl rfl rfl (by decide) (by rw [Bare]; decide) (by decide) (by decide)
    (by rw [OwnAddr]; decide) (by decide) (by decide)
  have hw := wordAfter_drainingRefused
  rw [wordAfter, he] at hw
  exact absurd (hmem.symm.trans (Option.some.inj hw)) (by decide)

end Sys2Proof
end

section
/-! PROOFS. The real values of the magnitude codes of a format, and the grid they form (R88). -/

namespace Sys2Proof

open Machine

/-! ### The grid of the magnitude codes -/

/-- The exponent of the distance of the least magnitudes of a format. -/
def gridExp (ew f : Nat) : Int := 2 - 2 ^ (ew - 1) - f

/-- From `d` binades up, or from 0, the codes stand for equally spaced values. -/
theorem magValue_grid {ew f d t : Nat} (h : d = 0 ∨ 2 ^ f ≤ t) (ht : t ≤ 2 ^ (f + 1)) :
    magValue ew f (d * 2 ^ f + t) = t * (2 : ℝ) ^ ((d : Int) + gridExp ew f) := by
  have hpos := Nat.two_pow_pos f
  rw [Nat.pow_succ] at ht
  rcases Nat.lt_or_ge t (2 ^ f) with hlt | hge
  · obtain rfl : d = 0 := by omega
    rw [magValue, Nat.zero_mul, Nat.zero_add, if_pos (Nat.div_eq_of_lt hlt), gridExp, Nat.cast_zero, zero_add]
  · rcases Nat.lt_or_ge t (2 * 2 ^ f) with hlt | hge2
    · have hc : d * 2 ^ f + t = (d + 1) * 2 ^ f + (t - 2 ^ f) := by rw [Nat.add_mul]; omega
      have hdiv : (d * 2 ^ f + t) / 2 ^ f = d + 1 := by
        rw [hc, Nat.add_comm, Nat.add_mul_div_right _ _ hpos, Nat.div_eq_of_lt (by omega), Nat.zero_add]
      have hmod : (d * 2 ^ f + t) % 2 ^ f = t - 2 ^ f := by
        rw [hc, Nat.mul_add_mod_self_right, Nat.mod_eq_of_lt (by omega)]
      rw [magValue, hdiv, hmod, if_neg (Nat.succ_ne_zero d), Nat.add_sub_cancel' hge, gridExp]
      congr 2
      push_cast
      ring
    · obtain rfl : t = 2 * 2 ^ f := by omega
      have hc : d * 2 ^ f + 2 * 2 ^ f = (d + 2) * 2 ^ f := by ring
      have hdiv : (d * 2 ^ f + 2 * 2 ^ f) / 2 ^ f = d + 2 := by rw [hc, Nat.mul_div_cancel _ hpos]
      have hmod : (d * 2 ^ f + 2 * 2 ^ f) % 2 ^ f = 0 := by rw [hc, Nat.mul_mod_left]
      have he : ((d + 2 : Nat) : Int) - (2 ^ (ew - 1) - 1) - f = (d + gridExp ew f) + 1 := by
        rw [gridExp]
        push_cast
        ring
      rw [magValue, hdiv, hmod, if_neg (Nat.succ_ne_zero (d + 1)), he, zpow_add_one₀ two_ne_zero]
      push_cast
      ring

/-- Every code has its place on the grid. -/
theorem exists_grid (f c : Nat) : ∃ d t, c = d * 2 ^ f + t ∧ (d = 0 ∨ 2 ^ f ≤ t) ∧ t < 2 ^ (f + 1) := by
  have hm := Nat.mod_lt c (Nat.two_pow_pos f)
  have hd := Nat.div_add_mod' c (2 ^ f)
  rw [Nat.pow_succ]
  rcases Nat.eq_zero_or_pos (c / 2 ^ f) with h | h
  · exact ⟨0, c, by omega, .inl rfl, by rw [h] at hd; omega⟩
  · obtain ⟨n, hn⟩ := Nat.exists_eq_succ_of_ne_zero h.ne'
    rw [hn, Nat.succ_mul] at hd
    exact ⟨n, 2 ^ f + c % 2 ^ f, by omega, .inr (by omega), by omega⟩

theorem magValue_zero (ew f : Nat) : magValue ew f 0 = 0 := by
  have h := magValue_grid (ew := ew) (f := f) (d := 0) (t := 0) (.inl rfl) (Nat.zero_le _)
  rwa [Nat.zero_mul, Nat.cast_zero, zero_mul] at h

/-- The values of the codes increase. -/
theorem magValue_strictMono (ew f : Nat) : StrictMono (magValue ew f) := by
  refine strictMono_nat_of_lt_succ fun c => ?_
  obtain ⟨d, t, rfl, h, ht⟩ := exists_grid f c
  rw [magValue_grid h ht.le, Nat.add_assoc, magValue_grid (h.imp_right fun k => by omega) ht]
  exact mul_lt_mul_of_pos_right (by exact_mod_cast Nat.lt_succ_self t) (zpow_pos two_pos _)

end Sys2Proof
end

section
/-! PROOFS. The rounding of a quotient to an integer, and where its leading bit stands, over the reals (R95). -/

namespace Sys2Proof

open Machine

/-! ### The two directed modes of a signed number, seen from its magnitude -/

/-- The mode takes the magnitude of a number of this sign down. -/
def toward (rm : Rm) (neg : Bool) : Bool :=
  match rm with
  | .rtz => true
  | .rup => neg
  | .rdn => !neg
  | _ => false

/-- The mode takes the magnitude of a number of this sign up. -/
def away (rm : Rm) (neg : Bool) : Bool :=
  match rm with
  | .rup => !neg
  | .rdn => neg
  | _ => false

/-- A directed mode goes one way. -/
theorem away_of_toward {rm : Rm} {neg : Bool} (h : toward rm neg = true) : away rm neg = false := by
  cases rm <;> cases neg <;> simp_all [toward, away]

/-- A mode of neither direction takes the nearest. -/
theorem nearest_mode {rm : Rm} {neg : Bool} (ht : toward rm neg = false) (ha : away rm neg = false) : rm = .rne ∨ rm = .rmm := by
  cases rm <;> cases neg <;> simp_all [toward, away]

/-- `n` is the magnitude `y` of a number of sign `neg` rounded to an integer. -/
structure RoundsNat (rm : Rm) (neg : Bool) (y : ℝ) (n : Nat) : Prop where
  down : toward rm neg = true → (n : ℝ) ≤ y ∧ y < n + 1
  up : away rm neg = true → (n : ℝ) < y + 1 ∧ y ≤ n
  near : toward rm neg = false → away rm neg = false → (n : ℝ) ≤ y + 1 / 2 ∧ y ≤ n + 1 / 2 ∧
    ((n : ℝ) = y + 1 / 2 → rm = .rne → n % 2 = 0) ∧ (y = n + 1 / 2 → rm = .rne ∧ n % 2 = 0)

section
variable {rm : Rm} {neg : Bool} {y : ℝ} {n M : Nat}

/-- Rounding does not pass an integer above. -/
theorem RoundsNat.le_of_le (h : RoundsNat rm neg y n) (hy : y ≤ M) : n ≤ M := by
  suffices (n : ℝ) < (M + 1 : Nat) from Nat.lt_succ_iff.1 (Nat.cast_lt.1 this)
  push_cast
  rcases ht : toward rm neg with _ | _
  · rcases ha : away rm neg with _ | _
    · linarith [(h.near ht ha).1]
    · linarith [(h.up ha).1]
  · linarith [(h.down ht).1]

/-- Rounding does not pass an integer below. -/
theorem RoundsNat.le_of_ge (h : RoundsNat rm neg y n) (hy : M ≤ y) : M ≤ n := by
  suffices (M : ℝ) < (n + 1 : Nat) from Nat.lt_succ_iff.1 (Nat.cast_lt.1 this)
  push_cast
  rcases ht : toward rm neg with _ | _
  · rcases ha : away rm neg with _ | _
    · linarith [(h.near ht ha).2.1]
    · linarith [(h.up ha).2]
  · linarith [(h.down ht).2]

/-- An integer is rounded to itself. -/
theorem RoundsNat.eq_of_natCast {a : Nat} (h : RoundsNat rm neg a n) : n = a :=
  le_antisymm (h.le_of_le le_rfl) (h.le_of_ge le_rfl)

/-- Two numbers that no integer and no half of an odd one separates. -/
def SameHalves (y z : ℝ) : Prop := ∀ N : Nat, ((N : ℝ) / 2 ≤ y ↔ (N : ℝ) / 2 ≤ z) ∧ (y ≤ (N : ℝ) / 2 ↔ z ≤ (N : ℝ) / 2)

theorem SameHalves.refl (y : ℝ) : SameHalves y y := fun _ => ⟨Iff.rfl, Iff.rfl⟩

/-- Such numbers stand on the same sides of an integer. -/
theorem SameHalves.natCast {z : ℝ} (h : SameHalves y z) (n : Nat) : ((n : ℝ) ≤ y ↔ (n : ℝ) ≤ z) ∧ (y ≤ n ↔ z ≤ n) := by
  have h2 := h (2 * n)
  rwa [Nat.cast_mul, Nat.cast_two, mul_div_cancel_left₀ _ two_ne_zero] at h2

/-- Such numbers stand on the same sides of the half above an integer. -/
theorem SameHalves.half {z : ℝ} (h : SameHalves y z) (n : Nat) :
    ((n : ℝ) + 1 / 2 ≤ y ↔ (n : ℝ) + 1 / 2 ≤ z) ∧ (y ≤ n + 1 / 2 ↔ z ≤ n + 1 / 2) := by
  have h2 := h (2 * n + 1)
  rwa [show ((2 * n + 1 : Nat) : ℝ) / 2 = n + 1 / 2 by push_cast; ring] at h2

/-- Such numbers are rounded to the same integer. -/
theorem RoundsNat.congr {z : ℝ} (h : RoundsNat rm neg y n) (hs : SameHalves y z) (hy : 0 ≤ y) : RoundsNat rm neg z n := by
  have hz : (0 : ℝ) ≤ z := by simpa using (hs.natCast 0).1.1 (by simpa using hy)
  constructor
  · intro ht
    obtain ⟨h1, h2⟩ := h.down ht
    have h3 := (hs.natCast (n + 1)).1
    push_cast at h3
    exact ⟨(hs.natCast n).1.1 h1, not_le.1 fun h => h2.not_ge (h3.2 h)⟩
  · intro ha
    obtain ⟨h1, h2⟩ := h.up ha
    refine ⟨?_, (hs.natCast n).2.1 h2⟩
    cases n with
    | zero => push_cast; linarith
    | succ k =>
      push_cast at h1 ⊢
      have : ¬z ≤ k := fun h => by linarith [(hs.natCast k).2.2 h]
      linarith
  · intro ht ha
    obtain ⟨h1, h2, h3, h4⟩ := h.near ht ha
    have hhalf (k : Nat) : z = k + 1 / 2 → y = k + 1 / 2 := fun h =>
      le_antisymm ((hs.half k).2.2 h.le) ((hs.half k).1.2 h.ge)
    refine ⟨?_, (hs.half n).2.1 h2, fun he => ?_, fun he => h4 (hhalf n he)⟩
    · cases n with
      | zero => push_cast; linarith
      | succ k =>
        push_cast at h1 ⊢
        linarith [(hs.half k).1.1 (by linarith)]
    · cases n with
      | zero => exact fun _ => rfl
      | succ k =>
        push_cast at he h3
        have := hhalf k (by linarith)
        exact h3 (by linarith)

end

/-! ### Quotients -/

/-- The remainder of a division of naturals, over the reals. -/
theorem natCast_divMod (num den : Nat) (hd : 0 < den) : (num : ℝ) / den = (num / den : Nat) + (num % den : Nat) / den := by
  have hden : (den : ℝ) ≠ 0 := by exact_mod_cast hd.ne'
  have h : (den : ℝ) * (num / den : Nat) + (num % den : Nat) = num := by exact_mod_cast Nat.div_add_mod num den
  rw [div_eq_iff hden, add_mul, div_mul_cancel₀ _ hden, mul_comm, h]

/-- A quotient rounded in a directed mode. -/
theorem roundInt_directed (rm : Rm) (neg : Bool) (num den : Nat) (h : toward rm neg = true ∨ away rm neg = true) :
    (roundInt rm neg num den).1 = if away rm neg = true ∧ num % den ≠ 0 then num / den + 1 else num / den := by
  cases rm <;> cases neg <;> simp_all [toward, away, roundInt]

/-- A quotient rounded to the nearest integer: below, at and above the half. -/
theorem roundInt_nearest {rm : Rm} (h : rm = .rne ∨ rm = .rmm) (neg : Bool) (num den : Nat) :
    (2 * (num % den) < den → (roundInt rm neg num den).1 = num / den) ∧
    (den < 2 * (num % den) → (roundInt rm neg num den).1 = num / den + 1) ∧
    (2 * (num % den) = den → (roundInt rm neg num den).1 =
      if rm = .rmm ∨ num / den % 2 = 1 then num / den + 1 else num / den) := by
  rcases h with rfl | rfl
  · refine ⟨fun h => ?_, fun h => ?_, fun h => ?_⟩
    · simp [roundInt, h.not_gt, h.ne]
    · simp [roundInt, h]
    · simp [roundInt, h]
  · refine ⟨fun h => ?_, fun h => ?_, fun h => ?_⟩
    · simp [roundInt, h.not_ge]
    · simp [roundInt, h.le]
    · simp [roundInt, h]

/-- The part of a quotient of naturals that its floor leaves. -/
noncomputable def fracPart (num den : Nat) : ℝ := (num % den : Nat) / den

section
variable {num den : Nat} (hd : 0 < den)
include hd

theorem fracPart_nonneg : 0 ≤ fracPart num den := by
  rw [fracPart]
  positivity

theorem fracPart_lt_one : fracPart num den < 1 := by
  rw [fracPart, div_lt_one (by exact_mod_cast hd)]
  exact_mod_cast Nat.mod_lt _ hd

theorem fracPart_pos : 0 < fracPart num den ↔ num % den ≠ 0 := by
  rw [fracPart, lt_div_iff₀ (by exact_mod_cast hd), zero_mul, Nat.cast_pos, Nat.pos_iff_ne_zero]

theorem fracPart_lt_half : fracPart num den < 1 / 2 ↔ 2 * (num % den) < den := by
  rw [fracPart, div_lt_div_iff₀ (by exact_mod_cast hd) two_pos, one_mul, mul_comm]
  exact_mod_cast Iff.rfl

theorem half_lt_fracPart : 1 / 2 < fracPart num den ↔ den < 2 * (num % den) := by
  rw [fracPart, div_lt_div_iff₀ two_pos (by exact_mod_cast hd), one_mul, mul_comm]
  exact_mod_cast Iff.rfl

/-- What the model rounds a quotient to. -/
theorem roundsNat_roundInt (rm : Rm) (neg : Bool) : RoundsNat rm neg ((num : ℝ) / den) (roundInt rm neg num den).1 := by
  have h0 := fracPart_nonneg (num := num) hd
  have h1 := fracPart_lt_one (num := num) hd
  rw [natCast_divMod num den hd]
  change RoundsNat rm neg ((num / den : Nat) + fracPart num den) _
  constructor
  · intro ht
    rw [roundInt_directed rm neg _ _ (.inl ht), if_neg (by simp [away_of_toward ht])]
    constructor <;> linarith
  · intro ha
    rw [roundInt_directed rm neg _ _ (.inr ha)]
    split
    case isTrue h =>
      have := (fracPart_pos hd).2 h.2
      push_cast
      constructor <;> linarith
    case isFalse h =>
      have : fracPart num den ≤ 0 := not_lt.1 fun hp => h ⟨ha, (fracPart_pos hd).1 hp⟩
      constructor <;> linarith
  · intro ht ha
    obtain ⟨hlt, hgt, heq⟩ := roundInt_nearest (nearest_mode ht ha) neg num den
    rcases lt_trichotomy (2 * (num % den)) den with h | h | h
    · have := (fracPart_lt_half hd).2 h
      rw [hlt h]
      exact ⟨by linarith, by linarith, fun _ => by linarith, fun _ => by linarith⟩
    · have hz : fracPart num den = 1 / 2 :=
        le_antisymm (not_lt.1 fun hp => h.not_gt ((half_lt_fracPart hd).1 hp))
          (not_lt.1 fun hp => h.not_lt ((fracPart_lt_half hd).1 hp))
      rw [heq h, hz]
      split
      case isTrue h =>
        push_cast
        refine ⟨by linarith, by linarith, fun _ hr => ?_, fun _ => by linarith⟩
        have : num / den % 2 = 1 := h.resolve_left (by rw [hr]; decide)
        omega
      case isFalse h =>
        refine ⟨by linarith, by linarith, fun _ => by linarith, fun _ => ?_⟩
        exact ⟨(nearest_mode ht ha).resolve_right fun hr => h (.inl hr), by omega⟩
    · have := (half_lt_fracPart hd).2 h
      rw [hgt h]
      push_cast
      exact ⟨by linarith, by linarith, fun _ => by linarith, fun _ => by linarith⟩

/-- Rounding is inexact when it changes the value. -/
theorem roundInt_inexact (rm : Rm) (neg : Bool) :
    (roundInt rm neg num den).2 = true ↔ ((roundInt rm neg num den).1 : ℝ) ≠ num / den := by
  have h1 := fracPart_lt_one (num := num) hd
  have hflag : (roundInt rm neg num den).2 = true ↔ num % den ≠ 0 := bne_iff_ne
  rw [hflag, ← fracPart_pos hd, natCast_divMod num den hd]
  change _ ↔ _ ≠ _ + fracPart num den
  rcases (fracPart_nonneg (num := num) hd).eq_or_lt with h | h
  · have hn := roundsNat_roundInt (num := num) hd rm neg
    rw [natCast_divMod num den hd] at hn
    change RoundsNat rm neg (_ + fracPart num den) _ at hn
    rw [← h, add_zero] at hn ⊢
    refine iff_of_false (lt_irrefl _) (not_not.2 ?_)
    exact_mod_cast hn.eq_of_natCast
  · refine iff_of_true h fun he => ?_
    have hlo : ((num / den : Nat) : ℝ) < (roundInt rm neg num den).1 := by linarith
    have hhi : ((roundInt rm neg num den).1 : ℝ) < ((num / den + 1 : Nat) : ℝ) := by push_cast; linarith
    have h2 := Nat.cast_lt.1 hlo
    have h3 := Nat.cast_lt.1 hhi
    omega
end

/-! ### Powers of two -/

/-- The pair of naturals stands for `n · 2^k`. -/
theorem scale2_eq (n : Nat) (k : Int) : ((scale2 n k).1 : ℝ) / (scale2 n k).2 = n * 2 ^ k := by
  rw [scale2]
  split
  case isTrue h =>
    push_cast
    rw [div_one, ← zpow_natCast, Int.toNat_of_nonneg h]
  case isFalse h =>
    push_cast
    rw [← zpow_natCast, Int.toNat_of_nonneg (by omega), zpow_neg, div_inv_eq_mul]

theorem scale2_pos (n : Nat) (k : Int) : 0 < (scale2 n k).2 := by
  rw [scale2]
  split
  · exact Nat.one_pos
  · exact Nat.two_pow_pos _

/-- The leading bit of a natural, over the reals. -/
theorem log2_bounds {n : Nat} (h : 0 < n) : (2 : ℝ) ^ (n.log2 : Int) ≤ n ∧ (n : ℝ) < 2 ^ ((n.log2 : Int) + 1) := by
  constructor
  · exact_mod_cast Nat.log2_self_le h.ne'
  · exact_mod_cast Nat.lt_log2_self (n := n)

/-- The leading bit of a quotient. -/
theorem leadExp_spec {num den : Nat} (hn : 0 < num) (hd : 0 < den) :
    (2 : ℝ) ^ leadExp num den ≤ num / den ∧ (num : ℝ) / den < 2 ^ (leadExp num den + 1) := by
  obtain ⟨hn1, hn2⟩ := log2_bounds hn
  obtain ⟨hd1, hd2⟩ := log2_bounds hd
  have hden : (0 : ℝ) < den := by exact_mod_cast hd
  have hpow (a b : Int) : (2 : ℝ) ^ (a + b) = 2 ^ a * 2 ^ b := zpow_add₀ two_ne_zero a b
  set l : Int := (num.log2 : Int) - den.log2 with hl
  have hlow : (2 : ℝ) ^ (l - 1) ≤ num / den := by
    rw [le_div_iff₀ hden]
    calc (2 : ℝ) ^ (l - 1) * den ≤ 2 ^ (l - 1) * 2 ^ ((den.log2 : Int) + 1) := by gcongr
      _ = 2 ^ (num.log2 : Int) := by rw [← hpow, hl]; congr 1; ring
      _ ≤ num := hn1
  have hhigh : (num : ℝ) / den < 2 ^ (l + 1) := by
    rw [div_lt_iff₀ hden]
    calc (num : ℝ) < 2 ^ ((num.log2 : Int) + 1) := hn2
      _ = 2 ^ (l + 1) * 2 ^ (den.log2 : Int) := by rw [← hpow, hl]; congr 1; ring
      _ ≤ 2 ^ (l + 1) * den := by gcongr
  have hcut : den * (scale2 num (-l)).2 ≤ (scale2 num (-l)).1 ↔ (2 : ℝ) ^ l ≤ num / den := by
    have hb : (0 : ℝ) < (scale2 num (-l)).2 := by exact_mod_cast scale2_pos num (-l)
    have hs := scale2_eq num (-l)
    rw [div_eq_iff hb.ne', zpow_neg] at hs
    rw [← Nat.cast_le (α := ℝ), hs, Nat.cast_mul, mul_le_mul_iff_left₀ hb, le_div_iff₀ hden, ← div_eq_mul_inv,
      le_div_iff₀ (by positivity), mul_comm]
  change (2 : ℝ) ^ (if _ ≤ _ then l else l - 1) ≤ _ ∧ _ < (2 : ℝ) ^ ((if _ ≤ _ then l else l - 1) + 1)
  split
  case isTrue h => exact ⟨hcut.1 h, hhigh⟩
  case isFalse h =>
    rw [sub_add_cancel]
    exact ⟨hlow, not_le.1 fun hp => h (hcut.2 hp)⟩

end Sys2Proof
end

section
/-! PROOFS. A quotient rounded to the magnitude codes of a format: its code, and the flags of the rounding (R95, R97). -/

namespace Sys2Proof

open Machine

/-! ### Codes next to a real number -/

/-- `k` is the magnitude code to which `X` is rounded, as though the exponent had no end. -/
structure RoundsCode (rm : Rm) (neg : Bool) (ew f : Nat) (X : ℝ) (k : Nat) : Prop where
  down : toward rm neg = true → magValue ew f k ≤ X ∧ X < magValue ew f (k + 1)
  up : away rm neg = true → 0 < k ∧ magValue ew f (k - 1) < X ∧ X ≤ magValue ew f k
  near : toward rm neg = false → away rm neg = false → ∀ j, j ≠ k → |X - magValue ew f k| < |X - magValue ew f j| ∨
    (|X - magValue ew f k| = |X - magValue ew f j| ∧ (rm = .rne → k % 2 = 0) ∧ (rm = .rmm → magValue ew f j < magValue ew f k))

/-- A value below the rounded one is not nearer, and as near only from the middle. -/
theorem nearest_below {y n u v : ℝ} (hu : 0 < u) (hn : n ≤ y + 1 / 2) (hv : v < n * u) (hg : v ≤ (n - 1) * u ∨ n ≤ y) :
    |y * u - n * u| < |y * u - v| ∨ |y * u - n * u| = |y * u - v| ∧ n = y + 1 / 2 := by
  rcases le_or_gt n y with h | h
  · have : n * u ≤ y * u := by gcongr
    left
    rw [abs_of_nonneg (by linarith), abs_of_nonneg (by linarith)]
    linarith
  · have hv := hg.resolve_right h.not_ge
    have h1 : |y * u - n * u| = (n - y) * u := by
      rw [← sub_mul, abs_mul, abs_of_pos hu, abs_sub_comm, abs_of_pos (by linarith)]
    have h2 : (y - (n - 1)) * u ≤ |y * u - v| := le_trans (by linarith) (le_abs_self _)
    rw [h1]
    rcases hn.lt_or_eq with hn | hn
    · exact .inl ((mul_lt_mul_of_pos_right (by linarith) hu).trans_le h2)
    · rw [show y - (n - 1) = n - y by linarith] at h2
      exact h2.lt_or_eq.imp_right fun h => ⟨h, hn⟩

/-- A value above the rounded one is not nearer, and as near only from the middle. -/
theorem nearest_above {y n u v : ℝ} (hu : 0 < u) (hn : y ≤ n + 1 / 2) (hv : n * u < v) (hg : (n + 1) * u ≤ v ∨ y < n) :
    |y * u - n * u| < |y * u - v| ∨ |y * u - n * u| = |y * u - v| ∧ y = n + 1 / 2 := by
  rcases lt_or_ge y n with h | h
  · have : y * u < n * u := by gcongr
    left
    rw [abs_of_neg (by linarith), abs_of_neg (by linarith)]
    linarith
  · have hv := hg.resolve_right h.not_gt
    have h1 : |y * u - n * u| = (y - n) * u := by
      rw [← sub_mul, abs_mul, abs_of_pos hu, abs_of_nonneg (by linarith)]
    have h2 : (n + 1 - y) * u ≤ |y * u - v| := by
      rw [abs_sub_comm]
      exact le_trans (by linarith) (le_abs_self _)
    rw [h1]
    rcases hn.lt_or_eq with hn | hn
    · exact .inl ((mul_lt_mul_of_pos_right (by linarith) hu).trans_le h2)
    · rw [show n + 1 - y = y - n by linarith] at h2
      exact h2.lt_or_eq.imp_right fun h => ⟨h, hn⟩

section
variable {rm : Rm} {neg : Bool} {ew f d n : Nat} {y : ℝ}

/-- The code below one on the grid: the neighbour on the grid, unless the number is the code's own value. -/
theorem magValue_grid_pred (hd : d = 0 ∨ (2 ^ f : Nat) ≤ y) (hn : n ≤ 2 ^ (f + 1)) (hn0 : 0 < n) (hg : d = 0 ∨ 2 ^ f ≤ n) :
    magValue ew f (d * 2 ^ f + n - 1) = (n - 1) * (2 : ℝ) ^ ((d : Int) + gridExp ew f) ∨ (n : ℝ) ≤ y := by
  rcases hd with rfl | hd
  · left
    rw [Nat.add_sub_assoc hn0, magValue_grid (.inl rfl) (by omega), Nat.cast_sub hn0, Nat.cast_one]
  · rcases Nat.lt_or_ge (2 ^ f) n with h | h
    · left
      rw [Nat.add_sub_assoc hn0, magValue_grid (.inr (by omega)) (by omega), Nat.cast_sub hn0, Nat.cast_one]
    · exact .inr (le_trans (by exact_mod_cast h) hd)

/-- A number between two codes of the grid is rounded to the code of its place there. -/
theorem roundsCode_of_grid (hf : 0 < f) (hd : d = 0 ∨ (2 ^ f : Nat) ≤ y) (hy0 : 0 < y) (hy : y < (2 ^ (f + 1) : Nat))
    (h : RoundsNat rm neg y n) : RoundsCode rm neg ew f (y * (2 : ℝ) ^ ((d : Int) + gridExp ew f)) (d * 2 ^ f + n) := by
  have hn : n ≤ 2 ^ (f + 1) := h.le_of_le hy.le
  have hg : d = 0 ∨ 2 ^ f ≤ n := hd.imp_right h.le_of_ge
  have hk := magValue_grid (ew := ew) hg hn
  have hpred (h0 : 0 < n) := magValue_grid_pred (ew := ew) hd hn h0 hg
  have hsucc (h1 : n < 2 ^ (f + 1)) : magValue ew f (d * 2 ^ f + n + 1) = (n + 1) * (2 : ℝ) ^ ((d : Int) + gridExp ew f) := by
    rw [Nat.add_assoc, magValue_grid (hg.imp_right fun h => by omega) h1, Nat.cast_succ]
  have hlt (h1 : 2 ^ (f + 1) ≤ n) : y < n := hy.trans_le (by exact_mod_cast h1)
  have hmono := magValue_strictMono ew f
  set u : ℝ := (2 : ℝ) ^ ((d : Int) + gridExp ew f) with hu
  have hu0 : 0 < u := zpow_pos two_pos _
  have heven : (d * 2 ^ f + n) % 2 = n % 2 := by
    rw [← Nat.succ_pred hf.ne', Nat.pow_succ, ← Nat.mul_assoc, Nat.mul_add_mod_self_right]
  constructor
  · intro ht
    obtain ⟨h1, h2⟩ := h.down ht
    rw [hk, hsucc (by exact_mod_cast h1.trans_lt hy)]
    constructor <;> gcongr
  · intro ha
    obtain ⟨h1, h2⟩ := h.up ha
    have hn0 : 0 < n := by exact_mod_cast hy0.trans_le h2
    refine ⟨by omega, ?_, by rw [hk]; gcongr⟩
    rcases hpred hn0 with h | h
    · rw [h]
      gcongr
      linarith
    · calc magValue ew f (d * 2 ^ f + n - 1) < magValue ew f (d * 2 ^ f + n) := hmono (by omega)
        _ ≤ y * u := by rw [hk]; gcongr
  · intro ht ha j hj
    obtain ⟨h1, h2, h3, h4⟩ := h.near ht ha
    rw [hk, heven]
    rcases Nat.lt_or_gt_of_ne hj with hj | hj
    · have hv := hmono hj
      refine (nearest_below hu0 h1 (by rwa [← hk]) ?_).imp_right fun ⟨he, hm⟩ => ⟨he, h3 hm, fun _ => by rwa [← hk]⟩
      rcases Nat.eq_zero_or_pos n with rfl | hn0
      · exact .inr (by push_cast; linarith)
      · exact (hpred hn0).imp_left fun h => by rw [← h]; exact hmono.monotone (by omega)
    · have hv := hmono hj
      refine (nearest_above hu0 h2 (by rwa [← hk]) ?_).imp_right fun ⟨he, hm⟩ => ?_
      · rcases Nat.lt_or_ge n (2 ^ (f + 1)) with h | h
        · exact .inl (by rw [← hsucc h]; exact hmono.monotone hj)
        · exact .inr (hlt h)
      · obtain ⟨rfl, h5⟩ := h4 hm
        exact ⟨he, fun _ => h5, fun h => absurd h (by decide)⟩
end

/-! ### Underflow -/

/-- An inexact result that underflows: below the smallest normal value with the exponent unbounded. -/
def Underflows (rm : Rm) (neg : Bool) (ew f : Nat) (X : ℝ) : Prop :=
  (toward rm neg = true → X < magValue ew f (2 ^ f)) ∧
  (away rm neg = true → X ≤ magValue ew f (2 ^ f) - magValue ew f 1 / 2) ∧
  (toward rm neg = false → away rm neg = false → X < magValue ew f (2 ^ f) - magValue ew f 1 / 4)

theorem magValue_one (ew f : Nat) : magValue ew f 1 = (2 : ℝ) ^ gridExp ew f := by
  have h := magValue_grid (ew := ew) (f := f) (d := 0) (t := 1) (.inl rfl) Nat.one_le_two_pow
  simpa using h

theorem magValue_normal (ew f : Nat) : magValue ew f (2 ^ f) = 2 ^ f * (2 : ℝ) ^ gridExp ew f := by
  have h := magValue_grid (ew := ew) (f := f) (d := 0) (t := 2 ^ f) (.inl rfl) (Nat.pow_le_pow_right two_pos (Nat.le_succ f))
  simpa using h

section
variable {rm : Rm} {neg : Bool} {ew f n : Nat} {y : ℝ}

/-- What is at least the smallest normal value does not underflow. -/
theorem not_underflows {X : ℝ} (h : magValue ew f (2 ^ f) ≤ X) : ¬Underflows rm neg ew f X := by
  have h1 : 0 < magValue ew f 1 := by
    rw [magValue_one]
    positivity
  rintro ⟨ht, ha, hn⟩
  rcases ht' : toward rm neg with _ | _
  · rcases ha' : away rm neg with _ | _
    · linarith [hn ht' ha']
    · linarith [ha ha']
  · linarith [ht ht']

/-- What is below half the smallest normal value underflows. -/
theorem underflows_of_le {X : ℝ} (h : X < magValue ew f (2 ^ f) - magValue ew f 1 / 2) : Underflows rm neg ew f X := by
  have h1 : 0 < magValue ew f 1 := by
    rw [magValue_one]
    positivity
  exact ⟨fun _ => by linarith, fun _ => by linarith, fun _ _ => by linarith⟩

/-- A number in the binade below the smallest normal value underflows when it is not rounded up to it with one bit more. -/
theorem underflows_below (h : RoundsNat rm neg y n) (hy : y < (2 ^ (f + 1) : Nat)) :
    Underflows rm neg ew f (y * (2 : ℝ) ^ (gridExp ew f - 1)) ↔ n < 2 ^ (f + 1) := by
  set v : ℝ := 2 ^ (gridExp ew f - 1) with hv
  have hv0 : 0 < v := by positivity
  have h1 : magValue ew f 1 = 2 * v := by
    rw [magValue_one, hv, zpow_sub_one₀ two_ne_zero]
    ring
  have hf : magValue ew f (2 ^ f) = ((2 ^ (f + 1) : Nat) : ℝ) * v := by
    rw [magValue_normal, ← magValue_one (ew := ew), h1]
    push_cast
    ring
  have hlt (z : ℝ) : y * v < z * v ↔ y < z := mul_lt_mul_iff_left₀ hv0
  have hle (z : ℝ) : y * v ≤ z * v ↔ y ≤ z := mul_le_mul_iff_left₀ hv0
  have hpos : 0 < 2 ^ (f + 1) := Nat.two_pow_pos _
  have heven : 2 ^ (f + 1) % 2 = 0 := by rw [Nat.pow_succ, Nat.mul_mod_left]
  rw [Underflows, hf, h1]
  generalize 2 ^ (f + 1) = M at *
  rw [show (M : ℝ) * v - 2 * v / 2 = ((M - 1 : Nat) : ℝ) * v by rw [Nat.cast_pred hpos]; ring,
    show (M : ℝ) * v - 2 * v / 4 = ((M - 1 : Nat) + 1 / 2 : ℝ) * v by rw [Nat.cast_pred hpos]; ring, hlt, hlt, hle]
  constructor
  · rintro ⟨-, ha, hn⟩
    rcases ht' : toward rm neg with _ | _
    · suffices n ≤ M - 1 by omega
      rcases ha' : away rm neg with _ | _
      · have h1 := (h.near ht' ha').1
        have h2 := hn ht' ha'
        have : (n : ℝ) < (M - 1 : Nat) + 1 := by linarith
        have : n < M - 1 + 1 := by exact_mod_cast this
        omega
      · exact h.le_of_le (ha ha')
    · exact_mod_cast (h.down ht').1.trans_lt hy
  · intro hn
    have hn' : (n : ℝ) ≤ (M - 1 : Nat) := by exact_mod_cast (by omega : n ≤ M - 1)
    refine ⟨fun _ => hy, fun ha => (h.up ha).2.trans hn', fun ht ha => ?_⟩
    obtain ⟨-, h2, -, h4⟩ := h.near ht ha
    refine lt_of_le_of_ne (h2.trans (by linarith)) fun he => ?_
    have hnM : (n : ℝ) = (M - 1 : Nat) := by linarith
    obtain ⟨-, h5⟩ := h4 (by rw [he, hnM])
    have : n = M - 1 := by exact_mod_cast hnM
    omega
end

/-! ### Rounding a quotient -/

/-- Two numbers that no multiple of a power of two from `2^lo` up separates. -/
def SameCuts (lo : Int) (x y : ℝ) : Prop :=
  ∀ (N : Nat) (j : Int), lo ≤ j → (N * (2 : ℝ) ^ j ≤ x ↔ N * (2 : ℝ) ^ j ≤ y) ∧ (x ≤ N * (2 : ℝ) ^ j ↔ y ≤ N * (2 : ℝ) ^ j)

theorem SameCuts.refl (lo : Int) (x : ℝ) : SameCuts lo x x := fun _ _ _ => ⟨Iff.rfl, Iff.rfl⟩

/-- Measured by a unit, no half separates such numbers. -/
theorem SameCuts.sameHalves {lo q : Int} {x y : ℝ} (h : SameCuts lo x y) (hq : lo ≤ q - 1) :
    SameHalves (x / 2 ^ q) (y / 2 ^ q) := by
  intro N
  have hu : (0 : ℝ) < 2 ^ q := by positivity
  have he : (N : ℝ) / 2 * 2 ^ q = N * 2 ^ (q - 1) := by
    rw [zpow_sub_one₀ two_ne_zero]
    ring
  rw [le_div_iff₀ hu, le_div_iff₀ hu, div_le_iff₀ hu, div_le_iff₀ hu, he]
  exact h N (q - 1) hq

/-- The quotient `num / den · 2^e` rounded to a multiple of `2^q`. -/
def roundAt (rm : Rm) (neg : Bool) (num den : Nat) (e q : Int) : Nat × Bool :=
  roundInt rm neg (scale2 num (e - q)).1 (den * (scale2 num (e - q)).2)

section
variable {rm : Rm} {neg : Bool} {num den : Nat} {e : Int} {X : ℝ}

theorem roundAt_quotient (num den : Nat) (e q : Int) :
    (((scale2 num (e - q)).1 : Nat) : ℝ) / ((den * (scale2 num (e - q)).2 : Nat) : ℝ) = num / den * 2 ^ e / 2 ^ q := by
  rw [Nat.cast_mul, mul_comm, ← div_div, scale2_eq, zpow_sub₀ two_ne_zero]
  ring

/-- The number that stands for the quotient is rounded alike. -/
theorem roundsNat_roundAt (hd : 0 < den) {lo q : Int} (hX : SameCuts lo (num / den * 2 ^ e) X) (hq : lo ≤ q - 1) :
    RoundsNat rm neg (X / 2 ^ q) (roundAt rm neg num den e q).1 := by
  have h := roundsNat_roundInt (num := (scale2 num (e - q)).1) (Nat.mul_pos hd (scale2_pos num (e - q))) rm neg
  rw [roundAt_quotient] at h
  exact h.congr (hX.sameHalves hq) (by positivity)

/-- It is rounded exactly when it is on the grid. -/
theorem roundAt_inexact (hd : 0 < den) {lo q : Int} (hX : SameCuts lo (num / den * 2 ^ e) X) (hq : lo ≤ q - 1) :
    (roundAt rm neg num den e q).2 = true ↔ ((roundAt rm neg num den e q).1 : ℝ) ≠ X / 2 ^ q := by
  rw [roundAt, roundInt_inexact (Nat.mul_pos hd (scale2_pos num (e - q))), roundAt_quotient]
  obtain ⟨h1, h2⟩ := (hX.sameHalves hq).natCast (roundAt rm neg num den e q).1
  rw [not_iff_not, le_antisymm_iff, le_antisymm_iff]
  exact and_congr h1 h2

/-- The exponent of the leading bit of `num / den · 2^e`. -/
def topExp (num den : Nat) (e : Int) : Int := leadExp num den + e

/-- The exponent of the grid on which a quotient is rounded. -/
def gridOf (m : Fmt) (num den : Nat) (e : Int) : Int := max (topExp num den e - m.f) (1 - (m.bias : Int) - m.f)

/-- The model's test for an underflow. -/
def tinyAt (m : Fmt) (rm : Rm) (neg : Bool) (num den : Nat) (e : Int) : Bool :=
  topExp num den e < 1 - (m.bias : Int) &&
    (decide ((roundAt rm neg num den e (topExp num den e - m.f)).1 < 2 ^ (m.f + 1)) ||
      decide (topExp num den e + 1 < 1 - (m.bias : Int)))

/-- The magnitude code that the model's rounding comes to, with the exponent unbounded above. -/
def codeAt (m : Fmt) (rm : Rm) (neg : Bool) (num den : Nat) (e : Int) : Nat :=
  let q := gridOf m num den e
  let t := (roundAt rm neg num den e q).1
  if t < 2 ^ m.f then t else ((q + m.f + m.bias).toNat - 1) * 2 ^ m.f + t

/-- The model's rounding, by its parts. -/
theorem roundQ_eq (m : Fmt) (rm : Rm) (neg : Bool) (num den : Nat) (e : Int) : m.roundQ rm neg num den e =
    if m.maxCode < codeAt m rm neg num den e then ((if neg then m.signBit else 0) + m.overflow rm neg, flOF ||| flNX)
    else ((if neg then m.signBit else 0) + codeAt m rm neg num den e,
      if (roundAt rm neg num den e (gridOf m num den e)).2 then
        (if tinyAt m rm neg num den e then flUF ||| flNX else flNX) else 0) := rfl

end

/-- A format whose bias is the one of its exponent width, with a fraction. -/
structure Biased (m : Fmt) : Prop where
  bias : m.bias + 1 = 2 ^ (m.ew - 1)
  frac : 0 < m.f

section
variable {m : Fmt} (hm : Biased m) {rm : Rm} {neg : Bool} {num den : Nat} {e : Int} {X : ℝ} (hn : 0 < num) (hd : 0 < den)
  (hX : SameCuts (topExp num den e - m.f - 1) (num / den * 2 ^ e) X)

include hm in
theorem gridExp_biased : gridExp m.ew m.f = 1 - (m.bias : Int) - m.f := by
  have h : (m.bias : Int) + 1 = 2 ^ (m.ew - 1) := by exact_mod_cast hm.bias
  rw [gridExp, ← h]
  ring

include hn hd hX

theorem topExp_bounds : (2 : ℝ) ^ topExp num den e ≤ X ∧ X < 2 ^ (topExp num den e + 1) := by
  obtain ⟨h1, h2⟩ := leadExp_spec hn hd
  have hpow (a b : Int) : (2 : ℝ) ^ (a + b) = 2 ^ a * 2 ^ b := zpow_add₀ two_ne_zero a b
  have hlo := (hX 1 (topExp num den e) (by omega)).1
  have hhi := (hX 1 (topExp num den e + 1) (by omega)).1
  rw [Nat.cast_one, one_mul] at hlo hhi
  refine ⟨hlo.1 ?_, not_le.1 fun h => (hhi.2 h).not_gt ?_⟩
  · rw [topExp, hpow]
    gcongr
  · rw [topExp, add_right_comm, hpow]
    gcongr

theorem pos_of_sameCuts : 0 < X := lt_of_lt_of_le (by positivity) (topExp_bounds hn hd hX).1

include hm

/-- Where a quotient stands on its grid. -/
theorem gridOf_spec : ∃ d : Nat, gridOf m num den e = d + gridExp m.ew m.f ∧
    (d = 0 ∨ (2 ^ m.f : Nat) ≤ X / 2 ^ gridOf m num den e) ∧
    X / 2 ^ gridOf m num den e < (2 ^ (m.f + 1) : Nat) := by
  obtain ⟨h1, h2⟩ := topExp_bounds hn hd hX
  have hg := gridExp_biased hm
  set q := gridOf m num den e with hq
  rw [gridOf] at hq
  have hu : (0 : ℝ) < 2 ^ q := by positivity
  refine ⟨(q - gridExp m.ew m.f).toNat, by omega, ?_, ?_⟩
  · rcases lt_or_ge (gridExp m.ew m.f) q with h | h
    · right
      rw [le_div_iff₀ hu]
      refine le_of_eq_of_le ?_ h1
      rw [Nat.cast_pow, ← zpow_natCast, Nat.cast_two, ← zpow_add₀ two_ne_zero]
      congr 1
      omega
    · left
      omega
  · rw [div_lt_iff₀ hu]
    refine h2.trans_le ?_
    push_cast
    rw [← zpow_natCast, ← zpow_add₀ two_ne_zero]
    exact zpow_le_zpow_right₀ one_le_two (by push_cast; omega)

/-- The model's code is the number's. -/
theorem codeAt_spec : RoundsCode rm neg m.ew m.f X (codeAt m rm neg num den e) ∧
    ((roundAt rm neg num den e (gridOf m num den e)).2 = true ↔ magValue m.ew m.f (codeAt m rm neg num den e) ≠ X) := by
  obtain ⟨d, hq, hdy, hy⟩ := gridOf_spec hm hn hd hX
  have hg := gridExp_biased hm
  have hlo : topExp num den e - m.f - 1 ≤ gridOf m num den e - 1 := sub_le_sub_right (le_max_left _ _) 1
  have ht := roundsNat_roundAt (rm := rm) (neg := neg) hd hX hlo
  have hin := roundAt_inexact (rm := rm) (neg := neg) hd hX hlo
  have hcode : codeAt m rm neg num den e = d * 2 ^ m.f + (roundAt rm neg num den e (gridOf m num den e)).1 := by
    rw [codeAt]
    split
    case isTrue h =>
      rcases hdy with rfl | hdy
      · rw [Nat.zero_mul, Nat.zero_add]
      · exact absurd (ht.le_of_ge hdy) h.not_ge
    case isFalse h =>
      rw [show (gridOf m num den e + m.f + m.bias).toNat - 1 = d by omega]
  have hpos : 0 < X / 2 ^ gridOf m num den e := div_pos (pos_of_sameCuts hn hd hX) (by positivity)
  have hmul : X / 2 ^ gridOf m num den e * (2 : ℝ) ^ ((d : Int) + gridExp m.ew m.f) = X := by
    rw [hq, div_mul_cancel₀ _ (by positivity)]
  constructor
  · have h := roundsCode_of_grid (ew := m.ew) hm.frac hdy hpos hy ht
    rwa [hmul, ← hcode] at h
  · rw [hin, hcode, magValue_grid (hdy.imp_right ht.le_of_ge) (ht.le_of_le hy.le), ← hq, Ne, Ne,
      eq_div_iff (by positivity)]

/-- The model's test for an underflow is the one of the rules. -/
theorem tinyAt_iff : tinyAt m rm neg num den e = true ↔ Underflows rm neg m.ew m.f X := by
  obtain ⟨h1, h2⟩ := topExp_bounds hn hd hX
  have hg := gridExp_biased hm
  have ht := roundsNat_roundAt (rm := rm) (neg := neg) hd hX le_rfl
  have hpow (a b : Int) : (2 : ℝ) ^ (a + b) = 2 ^ a * 2 ^ b := zpow_add₀ two_ne_zero a b
  have hmin : magValue m.ew m.f (2 ^ m.f) = 2 ^ (1 - m.bias : Int) := by
    rw [magValue_normal, ← zpow_natCast, ← hpow, hg]
    congr 1
    ring
  rw [tinyAt, Bool.and_eq_true, Bool.or_eq_true, decide_eq_true_iff, decide_eq_true_iff, decide_eq_true_iff]
  rcases lt_trichotomy (topExp num den e + 1) (1 - m.bias : Int) with h | h | h
  · refine iff_of_true ⟨by omega, .inr h⟩ (underflows_of_le ?_)
    have hX2 : X < 2 ^ (1 - m.bias - 1 : Int) := h2.trans_le (zpow_le_zpow_right₀ one_le_two (by omega))
    have h1' : magValue m.ew m.f 1 ≤ 2 ^ (1 - m.bias : Int) := by
      rw [magValue_one, hg]
      exact zpow_le_zpow_right₀ one_le_two (by omega)
    rw [zpow_sub_one₀ two_ne_zero] at hX2
    linarith
  · have hq : topExp num den e - m.f = gridExp m.ew m.f - 1 := by omega
    have hy : X / 2 ^ (topExp num den e - m.f) < (2 ^ (m.f + 1) : Nat) := by
      rw [div_lt_iff₀ (by positivity), Nat.cast_pow, ← zpow_natCast, Nat.cast_two, ← hpow]
      refine lt_of_lt_of_eq h2 ?_
      congr 1
      push_cast
      ring
    have hu := underflows_below (ew := m.ew) ht hy
    rw [← hq, div_mul_cancel₀ _ (by positivity)] at hu
    rw [hu]
    constructor
    · rintro ⟨-, h3 | h3⟩
      · exact h3
      · omega
    · exact fun h3 => ⟨by omega, .inl h3⟩
  · refine iff_of_false (fun hh => ?_) (not_underflows ?_)
    · omega
    · rw [hmin]
      exact le_trans (zpow_le_zpow_right₀ one_le_two (by omega)) h1

end

end Sys2Proof
end

section
/-! PROOFS. A result rounded to a binary format is the exact value rounded once, with its flags (R95, R97). -/

namespace Sys2Proof

open Machine

/-- A number by its sign and magnitude. -/
def signed (neg : Bool) (X : ℝ) : ℝ := if neg then -X else X

theorem abs_signed (neg : Bool) {X : ℝ} (h : 0 ≤ X) : |signed neg X| = X := by
  cases neg
  · exact abs_of_nonneg h
  · rw [signed, if_pos rfl, abs_neg, abs_of_nonneg h]

/-- The magnitude code of an infinity. -/
def infOf (ew f : Nat) : Nat := (2 ^ ew - 1) * 2 ^ f

theorem infOf_lt (ew f : Nat) : infOf ew f < 2 ^ (ew + f) := by
  rw [infOf, Nat.pow_add]
  exact Nat.mul_lt_mul_of_pos_right (Nat.sub_lt (Nat.two_pow_pos ew) one_pos) (Nat.two_pow_pos f)

section
variable {rm : Rm} {neg : Bool} {ew f k : Nat} {X : ℝ} {r : Nat × BitVec 5} (hX : 0 < X)
include hX

theorem toward_iff : (rm = .rtz ∨ (rm = .rup ∧ signed neg X < 0) ∨ (rm = .rdn ∧ 0 < signed neg X)) ↔ toward rm neg = true := by
  cases rm <;> cases neg <;> simp [signed, toward, hX, hX.le]

theorem away_iff : ((rm = .rup ∧ 0 < signed neg X) ∨ (rm = .rdn ∧ signed neg X < 0)) ↔ away rm neg = true := by
  cases rm <;> cases neg <;> simp [signed, away, hX, hX.le]

/-- A rounded result, from its sign and its magnitude code. -/
theorem rounds_signed (hr : r.1 = (if neg then 2 ^ (ew + f) else 0) + k) (hk : k ≤ infOf ew f)
    (hdown : toward rm neg = true → k < infOf ew f ∧ magValue ew f k ≤ X ∧ (X < magValue ew f (k + 1) ∨ k + 1 = infOf ew f))
    (hup : away rm neg = true → 0 < k ∧ magValue ew f (k - 1) < X ∧ (X ≤ magValue ew f k ∨ k = infOf ew f))
    (hnear : toward rm neg = false → away rm neg = false → ∀ j, j ≤ infOf ew f → j ≠ k →
      |X - magValue ew f k| < |X - magValue ew f j| ∨ (|X - magValue ew f k| = |X - magValue ew f j| ∧
        (rm = .rne → k % 2 = 0) ∧ (rm = .rmm → magValue ew f j < magValue ew f k)))
    (hbig : k = infOf ew f ∨ (toward rm neg = true ∧ magValue ew f (infOf ew f) ≤ X) → r.2 = 5)
    (hflags : ¬(k = infOf ew f ∨ (toward rm neg = true ∧ magValue ew f (infOf ew f) ≤ X)) →
      (magValue ew f k = X → r.2 = 0) ∧ (magValue ew f k ≠ X → Underflows rm neg ew f X → r.2 = 3) ∧
      (magValue ew f k ≠ X → ¬Underflows rm neg ew f X → r.2 = 1)) :
    Rounds rm ew f (signed neg X) r := by
  have hmod : r.1 % 2 ^ (ew + f) = k := by
    have := hk.trans_lt (infOf_lt ew f)
    rw [hr]
    cases neg
    · rw [if_neg Bool.false_ne_true, Nat.zero_add, Nat.mod_eq_of_lt this]
    · rw [if_pos rfl, Nat.add_mod_left, Nat.mod_eq_of_lt this]
  have hne : signed neg X ≠ 0 := by
    rw [← abs_pos, abs_signed neg hX.le]
    exact hX
  simp only [Rounds, toward_iff hX, away_iff hX, abs_signed neg hX.le, hmod, Bool.not_eq_true]
  change (_ → _) ∧ (_ → _ ∧ _ ∧ (_ → k < infOf ew f ∧ _) ∧ _)
  refine ⟨fun h => absurd h hne, fun _ => ⟨fun h => ?_, fun h => ?_, hdown, fun h => ?_, fun h1 h2 => ⟨hk, hnear h1 h2⟩, hbig,
    fun h => (hflags h).1, fun h => (hflags h).2.1, fun h => (hflags h).2.2⟩⟩
  · cases neg
    · exact absurd h (by simp [signed, hX.le])
    · exact hr
  · cases neg
    · simpa using hr
    · exact absurd h (by simp [signed, hX.le])
  · obtain ⟨h1, h2, h3⟩ := hup h
    exact ⟨h1, hk, h2, h3⟩
end

/-! ### Beyond the largest finite value -/

section
variable {rm : Rm} {neg : Bool} {ew f k : Nat} {X : ℝ} (h : RoundsCode rm neg ew f X k)
include h

/-- A number rounded to a code below `M` does not overflow at `M`. -/
theorem RoundsCode.not_big {M : Nat} (hk : k < M) : ¬(k = M ∨ (toward rm neg = true ∧ magValue ew f M ≤ X)) := by
  rintro (rfl | ⟨ht, hM⟩)
  · exact hk.false
  · exact absurd ((magValue_strictMono ew f).monotone hk) (((h.down ht).2.trans_le' hM).not_ge)

/-- A number rounded to a code from `M` up has `M` for the nearest of the codes up to `M`. -/
theorem RoundsCode.nearest_of_le {M : Nat} (hM : M ≤ k) (ht : toward rm neg = false) (ha : away rm neg = false) (hpar : M % 2 = 0)
    {j : Nat} (hj : j ≤ M) (hne : j ≠ M) : |X - magValue ew f M| < |X - magValue ew f j| ∨
      (|X - magValue ew f M| = |X - magValue ew f j| ∧ (rm = .rne → M % 2 = 0) ∧
        (rm = .rmm → magValue ew f j < magValue ew f M)) := by
  have hmono := magValue_strictMono ew f
  have hjM : magValue ew f j < magValue ew f M := hmono (by omega)
  rcases le_or_gt (magValue ew f M) X with hX | hX
  · left
    rw [abs_of_nonneg (by linarith), abs_of_pos (by linarith)]
    linarith
  · have hkM : k = M := by
      by_contra hne
      have hk : magValue ew f M < magValue ew f k := hmono (by omega)
      have hle : |X - magValue ew f k| ≤ |X - magValue ew f M| := by
        rcases h.near ht ha M (Ne.symm hne) with h1 | ⟨h1, -⟩
        · exact h1.le
        · exact h1.le
      rw [abs_of_neg (by linarith), abs_of_neg (by linarith)] at hle
      linarith
    subst hkM
    exact h.near ht ha j hne

end

/-- What an overflow gives: the largest finite value toward zero, else the infinity. -/
theorem overflow_ieee {m : Fmt} (hk : m.kind = .ieee) (rm : Rm) (neg : Bool) :
    m.overflow rm neg = if toward rm neg then infOf m.ew m.f - 1 else infOf m.ew m.f := by
  simp only [Fmt.overflow, Fmt.maxCode, Fmt.infCode, hk, infOf]
  cases rm <;> cases neg <;> rfl

theorem maxCode_ieee {m : Fmt} (hk : m.kind = .ieee) : m.maxCode = infOf m.ew m.f - 1 := by
  rw [Fmt.maxCode, hk, infOf]

theorem infOf_pos {ew f : Nat} (h : 0 < ew) : 0 < infOf ew f :=
  Nat.mul_pos (Nat.sub_pos_of_lt (Nat.one_lt_two_pow h.ne')) (Nat.two_pow_pos f)

theorem infOf_even {ew f : Nat} (h : 0 < f) : infOf ew f % 2 = 0 := by
  rw [infOf, ← Nat.succ_pred h.ne', Nat.pow_succ, ← Nat.mul_assoc, Nat.mul_mod_left]

/-- A binary format with an infinity, whose bias is the one of its exponent width. -/
structure Binary (m : Fmt) : Prop extends Biased m where
  kind : m.kind = .ieee
  expWidth : 2 ≤ m.ew

section
variable {m : Fmt} (hm : Binary m) {rm : Rm} {neg : Bool} {num den : Nat} {e : Int} {X : ℝ} (hn : 0 < num) (hd : 0 < den)
  (hX : SameCuts (topExp num den e - m.f - 1) (num / den * 2 ^ e) X)
include hm hn hd hX

/-- The model's rounding is the rounding of the rules, of every number that no cut of its grid separates from the quotient. -/
theorem rounds_roundQ_sameCuts : Rounds rm m.ew m.f (signed neg X) (m.roundQ rm neg num den e) := by
  obtain ⟨hcode, hexact⟩ := codeAt_spec hm.toBiased (rm := rm) (neg := neg) hn hd hX
  have htiny := tinyAt_iff hm.toBiased (rm := rm) (neg := neg) hn hd hX
  have hpos := infOf_pos (f := m.f) (zero_lt_two.trans_le hm.expWidth)
  have heven := infOf_even (ew := m.ew) hm.frac
  have hX0 := pos_of_sameCuts hn hd hX
  have hmono := magValue_strictMono m.ew m.f
  rw [roundQ_eq, maxCode_ieee hm.kind, overflow_ieee hm.kind]
  set k := codeAt m rm neg num den e
  split
  case isTrue hbig =>
    have hbig : infOf m.ew m.f ≤ k := by omega
    refine rounds_signed hX0 rfl ?_ (fun ht => ?_) (fun ha => ?_) (fun ht ha j hj hne => ?_) (fun _ => rfl) fun hnb => ?_
    · split <;> omega
    · rw [if_pos ht]
      refine ⟨by omega, le_trans (hmono.monotone (by omega)) (hcode.down ht).1, .inr (by omega)⟩
    · obtain ⟨-, h1, -⟩ := hcode.up ha
      rw [if_neg fun ht => by simp [away_of_toward ht] at ha]
      exact ⟨hpos, lt_of_le_of_lt (hmono.monotone (by omega)) h1, .inr rfl⟩
    · rw [if_neg (by simp [ht])] at hne ⊢
      exact hcode.nearest_of_le hbig ht ha heven hj hne
    · rcases ht : toward rm neg with _ | _
      · exact absurd (.inl (by rw [if_neg (by simp [ht])])) hnb
      · exact absurd (.inr ⟨ht, le_trans (hmono.monotone hbig) (hcode.down ht).1⟩) hnb
  case isFalse hfit =>
    have hfit : k < infOf m.ew m.f := by omega
    refine rounds_signed hX0 rfl hfit.le (fun ht => ?_) (fun ha => ?_) (fun ht ha j _ hne => hcode.near ht ha j hne)
      (fun hb => absurd hb (hcode.not_big hfit)) fun _ => ⟨fun he => ?_, fun he hu => ?_, fun he hu => ?_⟩
    · exact ⟨hfit, (hcode.down ht).1, .inl (hcode.down ht).2⟩
    · obtain ⟨h1, h2, h3⟩ := hcode.up ha
      exact ⟨h1, h2, .inl h3⟩
    · exact if_neg fun h => hexact.1 h he
    · rw [if_pos (hexact.2 he), if_pos (htiny.2 hu)]
      rfl
    · rw [if_pos (hexact.2 he), if_neg fun h => hu (htiny.1 h)]
      rfl

end

/-- The model's rounding of a quotient is the rounding of the rules. -/
theorem rounds_roundQ {m : Fmt} (hm : Binary m) (rm : Rm) (neg : Bool) {num den : Nat} (e : Int) (hn : 0 < num) (hd : 0 < den) :
    Rounds rm m.ew m.f (signed neg (num / den * 2 ^ e)) (m.roundQ rm neg num den e) :=
  rounds_roundQ_sameCuts hm hn hd (SameCuts.refl _ _)

/-- Zero is rounded to a zero of either sign. -/
theorem rounds_zero (rm : Rm) {m : Fmt} (z : Bool) : Rounds rm m.ew m.f 0 (if z then m.signBit else 0, 0) := by
  refine ⟨fun _ => ⟨?_, rfl⟩, fun h => absurd rfl h⟩
  cases z
  · exact Nat.zero_mod _
  · exact Nat.mod_self _

/-- An exact value rounded to a format. -/
theorem rounds_roundEx {m : Fmt} (hm : Binary m) (rm : Rm) (n e : Int) (z : Bool) :
    Rounds rm m.ew m.f (n * 2 ^ e) (m.roundEx rm n e z) := by
  rw [Fmt.roundEx]
  split
  case isTrue h =>
    rw [h, Int.cast_zero, zero_mul]
    exact rounds_zero rm z
  case isFalse h =>
    convert rounds_roundQ hm rm (n < 0) e (Int.natAbs_pos.2 h) one_pos using 1
    rw [Nat.cast_one, div_one, Nat.cast_natAbs, Int.cast_abs]
    rcases lt_or_ge n 0 with hlt | hge
    · have : (n : ℝ) < 0 := by exact_mod_cast hlt
      rw [signed, if_pos (by simpa using hlt), abs_of_neg this, neg_mul, neg_neg]
    · have : (0 : ℝ) ≤ n := by exact_mod_cast hge
      rw [signed, if_neg (by simpa using hge), abs_of_nonneg this]

end Sys2Proof
end

section
/-! PROOFS. The operations of a binary format on finite operands: the exact result, rounded once (R69, R95, R135, R141). -/

namespace Sys2Proof

open Machine

/-! ### The real values of finite codes -/

/-- The significand of a finite code. -/
def sigOf (m : Fmt) (c : Nat) : Nat := if c / 2 ^ m.f % 2 ^ m.ew = 0 then c % 2 ^ m.f else 2 ^ m.f + c % 2 ^ m.f

/-- The exponent of the significand's last bit. -/
def sigExp (m : Fmt) (c : Nat) : Int :=
  if c / 2 ^ m.f % 2 ^ m.ew = 0 then 1 - (m.bias : Int) - m.f else ((c / 2 ^ m.f % 2 ^ m.ew : Nat) : Int) - m.bias - m.f

/-- The sign of a code. -/
def negOf (m : Fmt) (c : Nat) : Bool := c / m.signBit % 2 == 1

/-- What a finite code stands for. -/
def finVal (m : Fmt) (c : Nat) : FVal := .fin (negOf m c) (sigOf m c) (sigExp m c)

/-- The real number of a finite value. -/
noncomputable def realOf (v : FVal) : ℝ :=
  match v with
  | .fin s p e => sint s p * 2 ^ e
  | _ => 0

theorem sint_signed (s : Bool) (p : Nat) : (sint s p : ℝ) = signed s p := by
  cases s
  · exact Int.cast_natCast p
  · rw [sint, signed, if_pos rfl, if_pos rfl, Int.cast_neg, Int.cast_natCast]

theorem signed_mul (s : Bool) (X Y : ℝ) : signed s X * Y = signed s (X * Y) := by
  cases s
  · rfl
  · exact neg_mul X Y

theorem realOf_fin (s : Bool) (p : Nat) (e : Int) : realOf (.fin s p e) = signed s (p * 2 ^ e) := by
  rw [realOf, sint_signed, signed_mul]

theorem realOf_neg (v : FVal) : realOf v.neg = -realOf v := by
  cases v with
  | nan s => exact neg_zero.symm
  | inf s => exact neg_zero.symm
  | fin s p e =>
    rw [FVal.neg, realOf_fin, realOf_fin]
    cases s <;> simp [signed]

section
variable {m : Fmt}

/-- The magnitude of a code by its significand. -/
theorem magValue_sigOf (hm : Biased m) (c : Nat) : magValue m.ew m.f (c % 2 ^ (m.ew + m.f)) = sigOf m c * 2 ^ sigExp m c := by
  have hg := gridExp_biased hm
  have hdiv : c % 2 ^ (m.ew + m.f) / 2 ^ m.f = c / 2 ^ m.f % 2 ^ m.ew := by rw [Nat.pow_add, Nat.mod_mul_left_div_self]
  have hmod : c % 2 ^ (m.ew + m.f) % 2 ^ m.f = c % 2 ^ m.f := Nat.mod_mod_of_dvd c ⟨2 ^ m.ew, by rw [Nat.pow_add, Nat.mul_comm]⟩
  have hbias : (2 : Int) ^ (m.ew - 1) = m.bias + 1 := by exact_mod_cast hm.bias.symm
  have hsum := Nat.div_add_mod (c % 2 ^ (m.ew + m.f)) (2 ^ m.f)
  rw [hdiv, hmod] at hsum
  rw [magValue, hdiv, hmod, sigOf, sigExp, hbias]
  split
  case isTrue h =>
    rw [h, Nat.mul_zero, Nat.zero_add] at hsum
    rw [← hsum]
    congr 2
    ring
  case isFalse h =>
    congr 2
    ring

theorem realOf_finVal (hm : Biased m) (c : Nat) : realOf (finVal m c) = codeValue m.ew m.f c := by
  simp only [finVal, realOf_fin, ← magValue_sigOf hm, codeValue, negOf, signed, Fmt.signBit, beq_iff_eq]
  split
  · rw [neg_one_mul]
  · rw [one_mul]

/-- A finite code has a finite value. -/
theorem val_finite (hk : m.kind = .ieee) {c : Nat} (h : FiniteCode m.ew m.f c) : m.val c = finVal m c := by
  have hex : c / 2 ^ m.f % 2 ^ m.ew ≠ 2 ^ m.ew - 1 := by
    have h2 := h.2
    rw [Nat.pow_add, Nat.mul_comm (2 ^ m.ew), ← Nat.div_lt_iff_lt_mul (Nat.two_pow_pos _), Nat.mod_mul_right_div_self] at h2
    exact h2.ne
  rw [Fmt.val, hk]
  simp only [if_neg hex, finVal, sigOf, sigExp, negOf]
  split <;> rfl

/-- A zero magnitude. -/
theorem sigOf_eq_zero {c : Nat} : sigOf m c = 0 ↔ c % 2 ^ (m.ew + m.f) = 0 := by
  rw [sigOf, Nat.pow_add, Nat.mul_comm, Nat.mod_mul, Nat.add_eq_zero_iff, Nat.mul_eq_zero]
  have := Nat.two_pow_pos m.f
  split <;> omega

end

/-! ### Exact sums and products -/

theorem exactAdd_real (a ea b eb : Int) :
    ((exactAdd a ea b eb).1 : ℝ) * 2 ^ (exactAdd a ea b eb).2 = a * 2 ^ ea + b * 2 ^ eb := by
  have hpart (k : Int) (h : min ea eb ≤ k) : (2 : ℝ) ^ (k - min ea eb).toNat * 2 ^ min ea eb = 2 ^ k := by
    rw [← zpow_natCast, Int.toNat_of_nonneg (by omega), ← zpow_add₀ two_ne_zero, sub_add_cancel]
  rw [exactAdd]
  push_cast
  rw [add_mul, mul_assoc, mul_assoc, hpart ea (min_le_left _ _), hpart eb (min_le_right _ _)]

theorem signed_mul_signed (s t : Bool) (X Y : ℝ) : signed s X * signed t Y = signed (s != t) (X * Y) := by
  cases s <;> cases t <;> simp [signed]

theorem signed_div_signed (s t : Bool) (X Y : ℝ) : signed s X / signed t Y = signed (s != t) (X / Y) := by
  cases s <;> cases t <;> simp [signed, neg_div, div_neg]

theorem signed_zero (s : Bool) : signed s 0 = 0 := by
  cases s <;> simp [signed]

/-- A value that is neither an infinity nor a NaN. -/
def IsFin (v : FVal) : Prop := ∃ s p e, v = .fin s p e

theorem isFin_fin (s : Bool) (p : Nat) (e : Int) : IsFin (.fin s p e) := ⟨s, p, e, rfl⟩

theorem IsFin.neg {v : FVal} (h : IsFin v) : IsFin v.neg := by
  obtain ⟨s, p, e, rfl⟩ := h
  exact ⟨!s, p, e, rfl⟩

/-- The product of finite values is exact and raises no flag. -/
theorem exactMul_fin {x y : FVal} (hx : IsFin x) (hy : IsFin y) :
    (exactMul x y).2 = 0 ∧ IsFin (exactMul x y).1 ∧ realOf (exactMul x y).1 = realOf x * realOf y := by
  obtain ⟨s, p, e, rfl⟩ := hx
  obtain ⟨t, q, g, rfl⟩ := hy
  refine ⟨rfl, isFin_fin _ _ _, ?_⟩
  rw [exactMul, realOf_fin, realOf_fin, realOf_fin, signed_mul_signed, zpow_add₀ two_ne_zero]
  congr 1
  push_cast
  ring

/-! ### The operations -/

section
variable {m : Fmt} (hm : Binary m) (rm : Rm)
include hm

theorem rounds_sum {x y : FVal} (hx : IsFin x) (hy : IsFin y) :
    Rounds rm m.ew m.f (realOf x + realOf y) (m.sum rm x y) := by
  obtain ⟨s, p, e, rfl⟩ := hx
  obtain ⟨t, q, g, rfl⟩ := hy
  rw [realOf, realOf, ← exactAdd_real]
  exact rounds_roundEx hm rm _ _ _

theorem rounds_ofVal {x : FVal} (hx : IsFin x) : Rounds rm m.ew m.f (realOf x) (m.ofVal rm x) := by
  obtain ⟨s, p, e, rfl⟩ := hx
  exact rounds_roundEx hm rm _ _ _

section
variable {a b c : Nat} (ha : FiniteCode m.ew m.f a) (hb : FiniteCode m.ew m.f b) (hc : FiniteCode m.ew m.f c)

include ha in
theorem isFin_val : IsFin (m.val a) := by
  rw [val_finite hm.kind ha]
  exact isFin_fin _ _ _

include ha in
theorem realOf_val : realOf (m.val a) = codeValue m.ew m.f a := by
  rw [val_finite hm.kind ha, realOf_finVal hm.toBiased]

include ha hb

theorem rounds_add : Rounds rm m.ew m.f (codeValue m.ew m.f a + codeValue m.ew m.f b) (m.add rm a b) := by
  rw [← realOf_val hm ha, ← realOf_val hm hb]
  exact rounds_sum hm rm (isFin_val hm ha) (isFin_val hm hb)

theorem rounds_sub : Rounds rm m.ew m.f (codeValue m.ew m.f a - codeValue m.ew m.f b) (m.sub rm a b) := by
  rw [← realOf_val hm ha, ← realOf_val hm hb, sub_eq_add_neg, ← realOf_neg]
  exact rounds_sum hm rm (isFin_val hm ha) (isFin_val hm hb).neg

theorem mul_finite : m.mul rm a b = m.ofVal rm (exactMul (m.val a) (m.val b)).1 := by
  obtain ⟨hf, -, -⟩ := exactMul_fin (isFin_val hm ha) (isFin_val hm hb)
  change (_, (exactMul (m.val a) (m.val b)).2 ||| _) = _
  rw [hf]
  exact Prod.ext rfl BitVec.zero_or

theorem rounds_mul : Rounds rm m.ew m.f (codeValue m.ew m.f a * codeValue m.ew m.f b) (m.mul rm a b) := by
  obtain ⟨-, hfin, hval⟩ := exactMul_fin (isFin_val hm ha) (isFin_val hm hb)
  rw [mul_finite hm rm ha hb, ← realOf_val hm ha, ← realOf_val hm hb, ← hval]
  exact rounds_ofVal hm rm hfin

include hc in
theorem rounds_fma :
    Rounds rm m.ew m.f (codeValue m.ew m.f a * codeValue m.ew m.f b + codeValue m.ew m.f c) (m.fma rm a b c) := by
  obtain ⟨hf, hfin, hval⟩ := exactMul_fin (isFin_val hm ha) (isFin_val hm hb)
  have hfma : m.fma rm a b c = m.sum rm (exactMul (m.val a) (m.val b)).1 (m.val c) := by
    change (_, (exactMul (m.val a) (m.val b)).2 ||| _) = _
    rw [hf]
    exact Prod.ext rfl BitVec.zero_or
  rw [hfma, ← realOf_val hm ha, ← realOf_val hm hb, ← realOf_val hm hc, ← hval]
  exact rounds_sum hm rm hfin (isFin_val hm hc)

/-- A quotient of finite codes: a zero by a number that is not zero, else one rounding. -/
theorem div_finite (hq : b % 2 ^ (m.ew + m.f) ≠ 0) : m.div rm a b =
    if sigOf m a = 0 then (if negOf m a != negOf m b then m.signBit else 0, 0)
    else m.roundQ rm (negOf m a != negOf m b) (sigOf m a) (sigOf m b) (sigExp m a - sigExp m b) := by
  rw [Fmt.div, val_finite hm.kind ha, val_finite hm.kind hb]
  exact if_neg (sigOf_eq_zero.not.2 hq)

theorem rounds_div (hq : b % 2 ^ (m.ew + m.f) ≠ 0) :
    Rounds rm m.ew m.f (codeValue m.ew m.f a / codeValue m.ew m.f b) (m.div rm a b) := by
  rw [div_finite hm rm ha hb hq, ← realOf_finVal hm.toBiased, ← realOf_finVal hm.toBiased, finVal, finVal, realOf_fin, realOf_fin,
    signed_div_signed]
  split
  case isTrue h =>
    rw [h, Nat.cast_zero, zero_mul, zero_div, signed_zero]
    exact rounds_zero rm _
  case isFalse h =>
    have hround := rounds_roundQ hm rm (negOf m a != negOf m b) (sigExp m a - sigExp m b) (Nat.pos_of_ne_zero h)
      (Nat.pos_of_ne_zero (sigOf_eq_zero.not.2 hq))
    rwa [zpow_sub₀ two_ne_zero, div_mul_div_comm] at hround

omit hm in
/-- The sign of a product or quotient. -/
theorem sign_ne : (if negOf m a != negOf m b then m.signBit else 0) =
    if a / 2 ^ (m.ew + m.f) = b / 2 ^ (m.ew + m.f) then 0 else 2 ^ (m.ew + m.f) := by
  have hlt {c : Nat} (h : c < 2 ^ (1 + m.ew + m.f)) : c / 2 ^ (m.ew + m.f) < 2 := by
    rw [Nat.div_lt_iff_lt_mul (Nat.two_pow_pos _), ← Nat.pow_succ', Nat.succ_eq_one_add, ← Nat.add_assoc]
    exact h
  have h1 := hlt ha.1
  have h2 := hlt hb.1
  rw [negOf, negOf, Fmt.signBit]
  generalize a / 2 ^ (m.ew + m.f) = s at *
  generalize b / 2 ^ (m.ew + m.f) = t at *
  interval_cases s <;> interval_cases t <;> rfl

/-- A zero factor gives a zero of the product of the signs. -/
theorem mul_zero_left (h : a % 2 ^ (m.ew + m.f) = 0) : m.mul rm a b =
    (if a / 2 ^ (m.ew + m.f) = b / 2 ^ (m.ew + m.f) then 0 else 2 ^ (m.ew + m.f), 0) := by
  rw [mul_finite hm rm ha hb, val_finite hm.kind ha, val_finite hm.kind hb, ← sign_ne ha hb]
  change m.roundEx rm (sint _ (sigOf m a * sigOf m b)) _ _ = _
  rw [sigOf_eq_zero.2 h, Nat.zero_mul]
  exact if_pos (by cases (negOf m a != negOf m b) <;> rfl)

/-- A zero dividend gives a zero of the product of the signs. -/
theorem div_zero_left (h : a % 2 ^ (m.ew + m.f) = 0) (hq : b % 2 ^ (m.ew + m.f) ≠ 0) : m.div rm a b =
    (if a / 2 ^ (m.ew + m.f) = b / 2 ^ (m.ew + m.f) then 0 else 2 ^ (m.ew + m.f), 0) := by
  rw [div_finite hm rm ha hb hq, if_pos (sigOf_eq_zero.2 h), sign_ne ha hb]

end

/-! ### Conversions -/

theorem rounds_convert {src : Fmt} (hs : Binary src) {a : Nat} (ha : FiniteCode src.ew src.f a) :
    Rounds rm m.ew m.f (codeValue src.ew src.f a) (src.convert m rm a) := by
  rw [← realOf_val hs ha]
  exact rounds_ofVal hm rm (isFin_val hs ha)

theorem rounds_ofInt (n : Int) : Rounds rm m.ew m.f n (m.ofInt rm n) := by
  have h := rounds_roundEx hm rm n 0 false
  rwa [zpow_zero, mul_one] at h

end

end Sys2Proof
end

section
/-! PROOFS. The square root, and the conversion to an integer, of finite codes (R69, R70, R97). -/

namespace Sys2Proof

open Machine

/-! ### The integer square root -/

/-- The search by bits keeps the root between its bounds. -/
theorem isqrtFrom_spec (n : Nat) : ∀ k r : Nat, r * r ≤ n → n < (r + 2 ^ k) * (r + 2 ^ k) →
    isqrtFrom n k r * isqrtFrom n k r ≤ n ∧ n < (isqrtFrom n k r + 1) * (isqrtFrom n k r + 1)
  | 0, _, h1, h2 => ⟨h1, h2⟩
  | k + 1, r, h1, h2 => by
    rw [Nat.pow_succ, Nat.mul_two, ← Nat.add_assoc] at h2
    rw [isqrtFrom]
    split
    case isTrue h => exact isqrtFrom_spec n k _ h h2
    case isFalse h => exact isqrtFrom_spec n k _ h1 (Nat.lt_of_not_le h)

/-- An integer below twice a root that carries a last bit for its rest, and the root itself, have the same even numbers on
each side. -/
theorem sticky_cuts {n r : Nat} (h1 : r * r ≤ n) (h2 : n < (r + 1) * (r + 1)) (M : Nat) :
    (2 * M ≤ 2 * r + (if r * r = n then 0 else 1) ↔ (M : ℝ) ≤ Real.sqrt n) ∧
    (2 * r + (if r * r = n then 0 else 1) ≤ 2 * M ↔ Real.sqrt n ≤ M) := by
  have hle : (M : ℝ) ≤ Real.sqrt n ↔ M * M ≤ n := by
    rw [Real.le_sqrt (Nat.cast_nonneg M) (Nat.cast_nonneg n), sq]
    exact_mod_cast Iff.rfl
  have hge : Real.sqrt n ≤ M ↔ n ≤ M * M := by
    rw [Real.sqrt_le_left (Nat.cast_nonneg M), sq]
    exact_mod_cast Iff.rfl
  have hMr : M * M ≤ n ↔ M ≤ r :=
    ⟨fun h => Nat.lt_succ_iff.1 (Nat.mul_self_lt_mul_self_iff.1 (h.trans_lt h2)), fun h => (Nat.mul_self_le_mul_self h).trans h1⟩
  have hrM : n < M * M ↔ r < M :=
    ⟨fun h => Nat.mul_self_lt_mul_self_iff.1 (h1.trans_lt h), fun h => h2.trans_le (Nat.mul_self_le_mul_self h)⟩
  rw [hle, hge, hMr]
  split
  case isTrue h =>
    refine ⟨by omega, ?_⟩
    rw [← h, Nat.mul_self_le_mul_self_iff]
    omega
  case isFalse h =>
    have hne : n = M * M → r = M := fun he => le_antisymm
      (Nat.mul_self_le_mul_self_iff.1 (he ▸ h1)) (hMr.1 he.ge)
    have hne' : n ≠ M * M := fun he => h (by rw [he, hne he])
    refine ⟨by omega, ?_⟩
    rw [le_iff_lt_or_eq (a := n), hrM, or_iff_left hne']
    omega

/-! ### The square root -/

/-- A root's exponent is made even. -/
theorem sqrt_even (x : ℝ) (h : Int) : Real.sqrt (x * 2 ^ (2 * h)) = Real.sqrt x * 2 ^ h := by
  rw [two_mul, zpow_add₀ two_ne_zero, Real.sqrt_mul' x (mul_self_nonneg _), Real.sqrt_mul_self (by positivity)]

section
variable {m : Fmt} (hm : Binary m) (hf : m.f ≤ 52) (rm : Rm) {p : Nat} (hp : 0 < p) (hlt : p < 2 ^ (m.f + 1))
include hm hf hp hlt

/-- The model's root of a number with an even exponent, brought up by 128 bits or more. -/
theorem rounds_root (k : Nat) (hk : 128 ≤ k) (hk' : k ≤ 129) (h : Int) :
    Rounds rm m.ew m.f (Real.sqrt (p * 2 ^ k : Nat) * 2 ^ h)
      (m.roundQ rm false (2 * isqrtFrom (p * 2 ^ k) 96 0 +
        (if isqrtFrom (p * 2 ^ k) 96 0 * isqrtFrom (p * 2 ^ k) 96 0 = p * 2 ^ k then 0 else 1)) 1 (h - 1)) := by
  have hn : 2 ^ 128 ≤ p * 2 ^ k := Nat.le_trans (Nat.pow_le_pow_right two_pos hk) (Nat.le_mul_of_pos_left _ hp)
  have hn' : p * 2 ^ k < 2 ^ 192 := by
    calc p * 2 ^ k < 2 ^ (m.f + 1) * 2 ^ k := Nat.mul_lt_mul_of_pos_right hlt (Nat.two_pow_pos k)
      _ = 2 ^ (m.f + 1 + k) := (Nat.pow_add _ _ _).symm
      _ ≤ 2 ^ 192 := Nat.pow_le_pow_right two_pos (by omega)
  generalize p * 2 ^ k = n at *
  obtain ⟨h1, h2⟩ := isqrtFrom_spec n 96 0 (Nat.zero_le _) (by omega)
  generalize isqrtFrom n 96 0 = r at *
  have hcut := sticky_cuts h1 h2
  have hr : 2 ^ 64 ≤ r := by
    by_contra hlt
    have : (r + 1) * (r + 1) ≤ 2 ^ 64 * 2 ^ 64 := Nat.mul_self_le_mul_self (by omega)
    omega
  have hlast : 2 ^ 65 ≤ 2 * r + (if r * r = n then 0 else 1) := by omega
  generalize 2 * r + (if r * r = n then 0 else 1) = t at *
  have ht : 0 < t := by omega
  have hlead : 65 ≤ leadExp t 1 := by
    have h3 := (leadExp_spec ht one_pos).2
    have h4 : (2 : ℝ) ^ (65 : Int) ≤ t := by exact_mod_cast hlast
    rw [Nat.cast_one, div_one] at h3
    have := (zpow_lt_zpow_iff_right₀ (one_lt_two (α := ℝ))).1 (h4.trans_lt h3)
    omega
  have hcuts : SameCuts (topExp t 1 (h - 1) - m.f - 1) (t / (1 : Nat) * 2 ^ (h - 1)) (Real.sqrt n * 2 ^ h) := by
    intro N j hj
    rw [topExp] at hj
    obtain ⟨h3, h4⟩ := hcut (N * 2 ^ (j - h).toNat)
    have hu : (0 : ℝ) < 2 ^ (h - 1) := by positivity
    have hu' : (0 : ℝ) < 2 ^ h := by positivity
    have hj' : (N : ℝ) * 2 ^ j = ((N * 2 ^ (j - h).toNat : Nat) : ℝ) * 2 ^ h := by
      push_cast
      rw [← zpow_natCast, Int.toNat_of_nonneg (by omega), mul_assoc, ← zpow_add₀ two_ne_zero, sub_add_cancel]
    have hj2 : (N : ℝ) * 2 ^ j = ((2 * (N * 2 ^ (j - h).toNat) : Nat) : ℝ) * 2 ^ (h - 1) := by
      rw [hj', zpow_sub_one₀ two_ne_zero]
      push_cast
      ring
    generalize N * 2 ^ (j - h).toNat = M at *
    rw [Nat.cast_one, div_one]
    constructor
    · rw [hj2, mul_le_mul_iff_left₀ hu, Nat.cast_le, h3, ← hj2, hj', mul_le_mul_iff_left₀ hu']
    · rw [hj2, mul_le_mul_iff_left₀ hu, Nat.cast_le, h4, ← hj2, hj', mul_le_mul_iff_left₀ hu']
  exact rounds_roundQ_sameCuts (neg := false) hm ht one_pos hcuts

end

section
variable {m : Fmt} (hm : Binary m) (hf : m.f ≤ 52) (rm : Rm) {a : Nat} (ha : FiniteCode m.ew m.f a)

theorem sigOf_lt (m : Fmt) (c : Nat) : sigOf m c < 2 ^ (m.f + 1) := by
  have := Nat.mod_lt c (Nat.two_pow_pos m.f)
  rw [sigOf, Nat.pow_succ]
  split <;> omega

include hm hf ha

theorem rounds_sqrt (hneg : a < 2 ^ (m.ew + m.f)) : Rounds rm m.ew m.f (Real.sqrt (codeValue m.ew m.f a)) (m.sqrt rm a) := by
  have hs : negOf m a = false := by
    rw [negOf, Fmt.signBit, Nat.div_eq_of_lt hneg]
    rfl
  rw [← realOf_finVal hm.toBiased, Fmt.sqrt, val_finite hm.kind ha, finVal, realOf_fin, hs]
  dsimp only
  change Rounds _ _ _ (Real.sqrt (_ * _)) _
  split
  case isTrue h =>
    rw [h, Nat.cast_zero, zero_mul, Real.sqrt_zero]
    exact rounds_zero rm false
  case isFalse h =>
    have hpar : (128 ≤ (if sigExp m a % 2 = 0 then 128 else 129) ∧ (if sigExp m a % 2 = 0 then 128 else 129) ≤ 129) ∧
        2 * ((sigExp m a - ((if sigExp m a % 2 = 0 then 128 else 129 : Nat) : Int)) / 2) =
          sigExp m a - ((if sigExp m a % 2 = 0 then 128 else 129 : Nat) : Int) := by
      split <;> omega
    generalize (if sigExp m a % 2 = 0 then 128 else 129 : Nat) = k at *
    obtain ⟨⟨hk, hk'⟩, hh⟩ := hpar
    rw [if_neg Bool.false_ne_true]
    have h := rounds_root hm hf rm (Nat.pos_of_ne_zero h) (sigOf_lt m a) k hk hk' ((sigExp m a - k) / 2)
    rw [← sqrt_even, hh, zpow_sub₀ two_ne_zero] at h
    convert h using 2
    push_cast
    rw [zpow_natCast]
    field_simp

end

/-! ### Conversions to an integer -/

theorem sint_cast (s : Bool) (n : Nat) : ((sint s n : Int) : ℝ) = signed s n := sint_signed s n

theorem signed_sub (s : Bool) (X Y : ℝ) : signed s X - signed s Y = signed s (X - Y) := by
  cases s <;> simp [signed, neg_add_eq_sub]

theorem abs_signed_eq (s : Bool) (X : ℝ) : |signed s X| = |X| := by
  cases s
  · rfl
  · exact abs_neg X

theorem signed_inj {s : Bool} {X Y : ℝ} : signed s X = signed s Y ↔ X = Y := by
  cases s
  · exact Iff.rfl
  · exact neg_inj

section
variable {rm : Rm} {s : Bool} {y : ℝ} {n : Nat} (h : RoundsNat rm s y n)
include h

theorem RoundsNat.floor_eq (ht : toward rm s = true) : ⌊y⌋ = n := by
  obtain ⟨h1, h2⟩ := h.down ht
  exact Int.floor_eq_iff.2 ⟨by exact_mod_cast h1, by exact_mod_cast h2⟩

theorem RoundsNat.ceil_eq (ha : away rm s = true) : ⌈y⌉ = n := by
  obtain ⟨h1, h2⟩ := h.up ha
  refine Int.ceil_eq_iff.2 ⟨?_, by exact_mod_cast h2⟩
  push_cast
  linarith

/-- To the nearest: never more than a half away, and a half only from an even number or one of larger magnitude. -/
theorem RoundsNat.abs_sub_le (ht : toward rm s = false) (ha : away rm s = false) : |y - n| ≤ 1 / 2 ∧
    (|y - n| = 1 / 2 → (rm = .rne → n % 2 = 0) ∧ (rm = .rmm → y < n)) := by
  obtain ⟨h1, h2, h3, h4⟩ := h.near ht ha
  refine ⟨abs_sub_le_iff.2 ⟨by linarith, by linarith⟩, fun he => ?_⟩
  rcases (abs_eq (by norm_num)).1 he with he | he
  · obtain ⟨rfl, h5⟩ := h4 (by linarith)
    exact ⟨fun _ => h5, fun h => absurd h (by decide)⟩
  · exact ⟨h3 (by linarith), fun _ => by linarith⟩

/-- The magnitude rounded is the number rounded. -/
theorem RoundsNat.roundsInt (hy : 0 ≤ y) : RoundsInt rm (signed s y) (sint s n) := by
  have hdist : |signed s y - (sint s n : Int)| = |y - n| := by rw [sint_cast, signed_sub, abs_signed_eq]
  cases rm with
  | rne =>
    obtain ⟨h1, h2⟩ := h.abs_sub_le rfl rfl
    change |_| ≤ _ ∧ (|_| = _ → _)
    rw [hdist]
    refine ⟨h1, fun he => ?_⟩
    have := (h2 he).1 rfl
    cases s
    · change (n : Int) % 2 = 0
      omega
    · change -(n : Int) % 2 = 0
      omega
  | rmm =>
    obtain ⟨h1, h2⟩ := h.abs_sub_le rfl rfl
    change |_| ≤ _ ∧ (|_| = _ → |_| < |_|)
    rw [hdist, sint_cast, abs_signed s hy, abs_signed s (Nat.cast_nonneg n)]
    exact ⟨h1, fun he => (h2 he).2 rfl⟩
  | rtz =>
    have hfl := h.floor_eq rfl
    change sint s n = if 0 ≤ signed s y then _ else _
    cases s
    · exact hfl.symm.trans (if_pos hy).symm
    · change -(n : Int) = if 0 ≤ -y then ⌊-y⌋ else ⌈-y⌉
      rw [Int.ceil_neg, Int.floor_neg, hfl]
      split
      case isTrue h0 =>
        obtain rfl : y = 0 := by linarith
        rw [← hfl, Int.floor_zero, Int.ceil_zero]
      case isFalse => rfl
  | rdn =>
    change sint s n = ⌊signed s y⌋
    cases s
    · exact (h.floor_eq rfl).symm
    · change -(n : Int) = ⌊-y⌋
      rw [Int.floor_neg, h.ceil_eq rfl]
  | rup =>
    change sint s n = ⌈signed s y⌉
    cases s
    · exact (h.ceil_eq rfl).symm
    · change -(n : Int) = ⌈-y⌉
      rw [Int.ceil_neg, h.floor_eq rfl]

end

/-- The ends of the range of a width, in two's complement. -/
theorem range_ends : ∀ w ∈ [8, 16, 32, 64], ((2 ^ (w - 1) - 1 : Int) % 2 ^ w).toNat = 2 ^ (w - 1) - 1 ∧
    (-(2 ^ (w - 1) : Int) % 2 ^ w).toNat = 2 ^ (w - 1) := by
  decide

section
variable {m : Fmt} (hm : Binary m) (rm : Rm) {a : Nat} (ha : FiniteCode m.ew m.f a)

/-- The magnitude of a finite code rounded to an integer, and whether that was inexact. -/
def magInt (m : Fmt) (rm : Rm) (a : Nat) : Nat × Bool :=
  roundInt rm (negOf m a) (scale2 (sigOf m a) (sigExp m a)).1 (scale2 (sigOf m a) (sigExp m a)).2

include hm ha

/-- A finite code is converted by its rounded integer, brought into the range. -/
theorem toInt_finite {w : Nat} (hw : w ∈ [8, 16, 32, 64]) : m.toInt rm w a =
    if 2 ^ (w - 1) - 1 < sint (negOf m a) (magInt m rm a).1 then (2 ^ (w - 1) - 1, 16)
    else if sint (negOf m a) (magInt m rm a).1 < -(2 ^ (w - 1)) then (2 ^ (w - 1), 16)
    else ((BitVec.ofInt w (sint (negOf m a) (magInt m rm a).1)).toNat, if (magInt m rm a).2 then 1 else 0) := by
  obtain ⟨h1, h2⟩ := range_ends w hw
  rw [Fmt.toInt, val_finite hm.kind ha, BitVec.toNat_ofInt]
  simp only [finVal, h1, h2]
  push_cast
  rfl

/-- The conversion of a finite code to an integer. -/
theorem roundsInt_toInt {w : Nat} (hw : w ∈ [8, 16, 32, 64]) : ∃ n, RoundsInt rm (codeValue m.ew m.f a) n ∧
    (2 ^ (w - 1) - 1 < n → m.toInt rm w a = (2 ^ (w - 1) - 1, 16)) ∧
    (n < -(2 ^ (w - 1)) → m.toInt rm w a = (2 ^ (w - 1), 16)) ∧
    (-(2 ^ (w - 1)) ≤ n → n ≤ 2 ^ (w - 1) - 1 → (m.toInt rm w a).1 = (BitVec.ofInt w n).toNat ∧
      (codeValue m.ew m.f a = n → (m.toInt rm w a).2 = 0) ∧ (codeValue m.ew m.f a ≠ n → (m.toInt rm w a).2 = 1)) := by
  have hpos := scale2_pos (sigOf m a) (sigExp m a)
  have hq := scale2_eq (sigOf m a) (sigExp m a)
  have hround := roundsNat_roundInt (num := (scale2 (sigOf m a) (sigExp m a)).1) hpos rm (negOf m a)
  have hexact := roundInt_inexact (num := (scale2 (sigOf m a) (sigExp m a)).1) hpos rm (negOf m a)
  rw [hq] at hround hexact
  change RoundsNat rm _ _ (magInt m rm a).1 at hround
  change (magInt m rm a).2 = true ↔ ((magInt m rm a).1 : ℝ) ≠ _ at hexact
  rw [← realOf_finVal hm.toBiased, finVal, realOf_fin, toInt_finite hm rm ha hw]
  refine ⟨sint (negOf m a) (magInt m rm a).1, hround.roundsInt (by positivity), fun h => if_pos h, fun h => ?_, fun h1 h2 => ?_⟩
  · rw [if_neg, if_pos h]
    have : (0 : Int) < 2 ^ (w - 1) := by positivity
    omega
  · rw [if_neg h2.not_gt, if_neg h1.not_gt]
    refine ⟨rfl, fun he => if_neg ?_, fun he => if_pos ?_⟩
    · rw [hexact, not_not]
      rw [sint_cast, signed_inj] at he
      exact he.symm
    · rw [hexact]
      rw [sint_cast, Ne, signed_inj] at he
      exact Ne.symm he

end

end Sys2Proof
end

section
/-! PROOFS. The cells of a matrix product: the exact sum of the products of finite elements, added and rounded
once (R101-R103). -/

namespace Sys2Proof

open Machine

/-! ### The values of elements -/

theorem binary_fp32 : Binary fp32 := ⟨⟨rfl, by decide⟩, rfl, by decide⟩
theorem binary_fp64 : Binary fp64 := ⟨⟨rfl, by decide⟩, rfl, by decide⟩
theorem binary_bf16 : Binary bf16 := ⟨⟨rfl, by decide⟩, rfl, by decide⟩
theorem binary_fp16 : Binary fp16 := ⟨⟨rfl, by decide⟩, rfl, by decide⟩
theorem binary_e5m2 : Binary fmtE5m2 := ⟨⟨rfl, by decide⟩, rfl, by decide⟩
theorem biased_e4m3 : Biased fmtE4m3 := ⟨rfl, by decide⟩
theorem biased_e2m1 : Biased fmtE2m1 := ⟨rfl, by decide⟩
theorem biased_scale : Biased fmtScale := ⟨rfl, by decide⟩

/-- What a finite code stands for, by its exponent field. -/
theorem finVal_eq (m : Fmt) (c : Nat) : finVal m c =
    if c / 2 ^ m.f % 2 ^ m.ew = 0 then .fin (c / m.signBit % 2 == 1) (c % 2 ^ m.f) (1 - (m.bias : Int) - m.f)
    else .fin (c / m.signBit % 2 == 1) (2 ^ m.f + c % 2 ^ m.f) (((c / 2 ^ m.f % 2 ^ m.ew : Nat) : Int) - m.bias - m.f) := by
  rw [finVal, sigOf, sigExp, negOf]
  split <;> rfl

theorem val_e4m3 {m : Fmt} (hk : m.kind = .e4m3) {c : Nat} (h : c % m.signBit ≠ m.signBit - 1) : m.val c = finVal m c := by
  rw [Fmt.val, hk, finVal_eq]
  exact if_neg h

theorem val_e2m1 {m : Fmt} (hk : m.kind = .e2m1) (c : Nat) : m.val c = finVal m c := by
  rw [Fmt.val, hk, finVal_eq]

/-- A number of eight bits in two's complement. -/
theorem sgn_eq_toInt_8 (v : Nat) : sgn 8 v = (BitVec.ofNat 8 v).toInt := by
  rw [BitVec.toInt_eq_toNat_cond, BitVec.toNat_ofNat, sgn]
  norm_num
  split <;> split <;> omega

/-- A number of 32 bits in two's complement. -/
theorem sgn_eq_toInt_32 (v : Nat) : sgn 32 v = (BitVec.ofNat 32 v).toInt := by
  rw [BitVec.toInt_eq_toNat_cond, BitVec.toNat_ofNat, sgn]
  norm_num
  split <;> split <;> omega

theorem sint_natAbs (n : Int) : sint (n < 0) n.natAbs = n := by
  rw [sint]
  split
  case isTrue h =>
    have := of_decide_eq_true h
    omega
  case isFalse h =>
    have := mt decide_eq_true h
    omega

/-- An integer stands for itself. -/
theorem realOf_int (n : Int) : realOf (.fin (n < 0) n.natAbs 0) = n := by
  rw [realOf, sint_natAbs, zpow_zero, mul_one]

/-- A finite element: its real value, and no flag. -/
theorem elemVal_finite {ty v : Nat} (hty : ty < 8) (h : FiniteElem ty v) :
    (elemVal ty v).2 = 0 ∧ IsFin (elemVal ty v).1 ∧ realOf (elemVal ty v).1 = elemReal ty v := by
  obtain ⟨hw, h0, h1, h2, h3, h4, h7⟩ := h
  have hieee {m : Fmt} (hm : Binary m) (hf : FiniteCode m.ew m.f v) :
      IsFin (m.val v) ∧ realOf (m.val v) = codeValue m.ew m.f v := ⟨isFin_val hm hf, realOf_val hm hf⟩
  interval_cases ty
  · exact ⟨rfl, hieee binary_fp32 (h0 rfl)⟩
  · exact ⟨rfl, hieee binary_bf16 (h1 rfl)⟩
  · exact ⟨rfl, hieee binary_fp16 (h2 rfl)⟩
  · refine ⟨rfl, ?_⟩
    change IsFin (fmtE4m3.val v) ∧ realOf (fmtE4m3.val v) = codeValue fmtE4m3.ew fmtE4m3.f v
    rw [val_e4m3 rfl (h3 rfl), realOf_finVal biased_e4m3]
    exact ⟨isFin_fin _ _ _, rfl⟩
  · exact ⟨rfl, hieee binary_e5m2 (h4 rfl)⟩
  · refine ⟨rfl, ?_⟩
    change IsFin (fmtE2m1.val v) ∧ realOf (fmtE2m1.val v) = codeValue fmtE2m1.ew fmtE2m1.f v
    rw [val_e2m1 rfl, realOf_finVal biased_e2m1]
    exact ⟨isFin_fin _ _ _, rfl⟩
  · refine ⟨rfl, isFin_fin _ _ _, ?_⟩
    change realOf (.fin (sgn 8 v < 0) (sgn 8 v).natAbs 0) = _
    rw [realOf_int, sgn_eq_toInt_8]
    rfl
  · have hv : v = 0 ∨ v = 1 ∨ v = 3 := by
      have := h7 rfl
      change v < 4 at hw
      omega
    rcases hv with rfl | rfl | rfl <;> exact ⟨rfl, isFin_fin _ _ _, by norm_num [elemVal, elemReal, realOf, sint]⟩

/-! ### Exact sums -/

/-- One more finite value in the exact sum. -/
def addFin (x : Int × Int) (v : FVal) : Int × Int :=
  match v with
  | .fin n m e => exactAdd x.1 x.2 (sint n m) e
  | _ => x

theorem addFin_real (x : Int × Int) {v : FVal} (h : IsFin v) :
    ((addFin x v).1 : ℝ) * 2 ^ (addFin x v).2 = x.1 * 2 ^ x.2 + realOf v := by
  obtain ⟨s, p, e, rfl⟩ := h
  exact exactAdd_real _ _ _ _

theorem foldl_addFin (vs : List FVal) (h : ∀ v ∈ vs, IsFin v) (x : Int × Int) :
    ((vs.foldl addFin x).1 : ℝ) * 2 ^ (vs.foldl addFin x).2 = x.1 * 2 ^ x.2 + (vs.map realOf).sum := by
  induction vs generalizing x with
  | nil => rw [List.foldl_nil, List.map_nil, List.sum_nil, add_zero]
  | cons v vs ih =>
    rw [List.foldl_cons, ih (fun v hv => h v (List.mem_cons_of_mem _ hv)), addFin_real x (h v List.mem_cons_self), List.map_cons,
      List.sum_cons, add_assoc]

/-- Integers have an integer for their sum. -/
theorem foldl_addFin_int (vs : List FVal) (h : ∀ v ∈ vs, ∃ s p, v = .fin s p 0) (x : Int × Int) (hx : x.2 = 0) :
    (vs.foldl addFin x).2 = 0 := by
  induction vs generalizing x with
  | nil => exact hx
  | cons v vs ih =>
    obtain ⟨s, p, rfl⟩ := h v List.mem_cons_self
    refine ih (fun v hv => h v (List.mem_cons_of_mem _ hv)) _ ?_
    change min x.2 0 = 0
    rw [hx, min_self]

theorem foldl_or_zero {α : Type} (g : α → Flags) (l : List α) (h : ∀ x ∈ l, g x = 0) :
    l.foldl (fun f x => f ||| g x) 0 = 0 := by
  induction l with
  | nil => rfl
  | cons a l ih =>
    rw [List.foldl_cons, h a List.mem_cons_self]
    exact ih fun x hx => h x (List.mem_cons_of_mem _ hx)

theorem IsFin.nv {v : FVal} (h : IsFin v) : v.nv = 0 := by
  obtain ⟨s, p, e, rfl⟩ := h
  rfl

theorem not_any_of_fin {vs : List FVal} (h : ∀ v ∈ vs, IsFin v) {g : FVal → Bool} (hg : ∀ s p e, g (.fin s p e) = false) :
    vs.any g = false := by
  rw [List.any_eq_false]
  intro v hv
  obtain ⟨s, p, e, rfl⟩ := h v hv
  rw [hg]
  exact Bool.false_ne_true

/-- The exact sum of finite values is finite, and raises no flag. -/
theorem exactSum_fin (vs : List FVal) (h : ∀ v ∈ vs, IsFin v) : (exactSum vs).2 = 0 ∧
    ∃ s, (exactSum vs).1 = .fin s (vs.foldl addFin (0, 0)).1.natAbs (vs.foldl addFin (0, 0)).2 ∧
      sint s (vs.foldl addFin (0, 0)).1.natAbs = (vs.foldl addFin (0, 0)).1 := by
  have hnv := foldl_or_zero FVal.nv vs fun v hv => (h v hv).nv
  have heq : exactSum vs = (.fin (if (vs.foldl addFin (0, 0)).1 = 0 then vs.all FVal.sign && !vs.isEmpty
      else (vs.foldl addFin (0, 0)).1 < 0) (vs.foldl addFin (0, 0)).1.natAbs (vs.foldl addFin (0, 0)).2, 0) := by
    rw [exactSum, not_any_of_fin h fun _ _ _ => rfl, not_any_of_fin h fun _ _ _ => rfl, not_any_of_fin h fun _ _ _ => rfl, hnv]
    rfl
  rw [heq]
  refine ⟨rfl, _, rfl, ?_⟩
  split
  case isTrue h0 =>
    rw [h0, sint]
    split <;> rfl
  case isFalse => exact sint_natAbs _

theorem exactSum_real (vs : List FVal) (h : ∀ v ∈ vs, IsFin v) :
    (exactSum vs).2 = 0 ∧ IsFin (exactSum vs).1 ∧ realOf (exactSum vs).1 = (vs.map realOf).sum := by
  obtain ⟨h1, s, h2, h3⟩ := exactSum_fin vs h
  rw [h2]
  refine ⟨h1, isFin_fin _ _ _, ?_⟩
  rw [realOf, h3, foldl_addFin vs h, Int.cast_zero, zero_mul, zero_add]

/-- No flag is added. -/
theorem or_no_flags (r : Nat × Flags) : (r.1, r.2 ||| 0) = r := Prod.ext rfl BitVec.or_zero

/-! ### Sums of products -/

/-- The product of two elements, with its flags. -/
def elemProd (ta tb : Nat) (e : Nat × Nat) : FVal × Flags :=
  ((exactMul (elemVal ta e.1).1 (elemVal tb e.2).1).1,
    (elemVal ta e.1).2 ||| (elemVal tb e.2).2 ||| (exactMul (elemVal ta e.1).1 (elemVal tb e.2).1).2)

theorem dotSum_eq (ta tb : Nat) (as bs : List Nat) : dotSum ta tb as bs =
    ((exactSum (((as.zip bs).map (elemProd ta tb)).map (·.1))).1,
      ((as.zip bs).map (elemProd ta tb)).foldl (fun f p => f ||| p.2)
        (exactSum (((as.zip bs).map (elemProd ta tb)).map (·.1))).2) :=
  rfl

theorem elemProd_finite {ta tb : Nat} (hta : ta < 8) (htb : tb < 8) {e : Nat × Nat} (ha : FiniteElem ta e.1)
    (hb : FiniteElem tb e.2) : (elemProd ta tb e).2 = 0 ∧ IsFin (elemProd ta tb e).1 ∧
      realOf (elemProd ta tb e).1 = elemReal ta e.1 * elemReal tb e.2 := by
  obtain ⟨h1, h2, h3⟩ := elemVal_finite hta ha
  obtain ⟨h4, h5, h6⟩ := elemVal_finite htb hb
  obtain ⟨h7, h8, h9⟩ := exactMul_fin h2 h5
  rw [elemProd, h1, h4, h7, h9, h3, h6]
  exact ⟨rfl, h8, rfl⟩

section
variable {ta tb : Nat} (hta : ta < 8) (htb : tb < 8) {xs ys : List Nat} (hx : ∀ x ∈ xs, FiniteElem ta x)
  (hy : ∀ y ∈ ys, FiniteElem tb y)
include hta htb hx hy

theorem elemProd_of_mem {e : Nat × Nat} (he : e ∈ xs.zip ys) : (elemProd ta tb e).2 = 0 ∧ IsFin (elemProd ta tb e).1 ∧
    realOf (elemProd ta tb e).1 = elemReal ta e.1 * elemReal tb e.2 :=
  elemProd_finite hta htb (hx _ (List.of_mem_zip he).1) (hy _ (List.of_mem_zip he).2)

/-- The sum of the products of finite elements is exact. -/
theorem dotSum_finite : (dotSum ta tb xs ys).2 = 0 ∧ IsFin (dotSum ta tb xs ys).1 ∧
    realOf (dotSum ta tb xs ys).1 = ((xs.zip ys).map fun e => elemReal ta e.1 * elemReal tb e.2).sum := by
  have hprod (e) (he : e ∈ xs.zip ys) := elemProd_of_mem hta htb hx hy he
  obtain ⟨h1, h2, h3⟩ := exactSum_real (((xs.zip ys).map (elemProd ta tb)).map (·.1)) (by
    simp only [List.map_map, List.mem_map, Function.comp]
    rintro v ⟨e, he, rfl⟩
    exact (hprod e he).2.1)
  rw [dotSum_eq]
  refine ⟨?_, h2, h3.trans ?_⟩
  · rw [h1]
    refine foldl_or_zero _ _ fun p hp => ?_
    obtain ⟨e, he, rfl⟩ := List.mem_map.1 hp
    exact (hprod e he).1
  · rw [List.map_map, List.map_map]
    exact congrArg List.sum (List.map_congr_left fun e he => (hprod e he).2.2)

/-- A cell of an unscaled product. -/
theorem rounds_accPlain {a : Nat} (ha : FiniteCode 8 23 a) :
    Rounds .rne 8 23 (codeValue 8 23 a + ((xs.zip ys).map fun e => elemReal ta e.1 * elemReal tb e.2).sum)
      (accPlain a (dotSum ta tb xs ys)) := by
  obtain ⟨h1, h2, h3⟩ := dotSum_finite hta htb hx hy
  have h := rounds_sum binary_fp32 .rne (isFin_val binary_fp32 ha) h2
  rw [realOf_val binary_fp32 ha, h3] at h
  rw [accPlain, h1]
  change Rounds .rne fp32.ew fp32.f _ ((fp32.sum _ _ _).1, (fp32.sum _ _ _).2 ||| 0)
  rw [or_no_flags]
  exact h

end

/-- A block scale that is not the NaN scale. -/
theorem scaleVal_finite {c : Nat} (h : c < 0xFF000) : scaleVal c = some (sigOf fmtScale c, sigExp fmtScale c) := by
  have hne : c / 4096 % 256 ≠ 255 := by omega
  rw [scaleVal, if_neg hne]
  change _ = some (if c / 4096 % 256 = 0 then _ else _,
    if c / 4096 % 256 = 0 then _ else ((c / 4096 % 256 : Nat) : Int) - 127 - 12)
  split
  case isTrue => rfl
  case isFalse =>
    rw [sub_sub]
    rfl

theorem scaleVal_real {c : Nat} (h : c < 0xFF000) : (sigOf fmtScale c : ℝ) * 2 ^ sigExp fmtScale c = magValue 8 12 c := by
  rw [← magValue_sigOf biased_scale]
  exact congrArg (magValue 8 12) (Nat.mod_eq_of_lt (h.trans (by decide)))

/-- A finite value times two scales; a zero takes the sign plus. -/
theorem realOf_scaled (s : Bool) (x : Nat) (g : Int) (p q : Nat) (e f : Int) :
    realOf (.fin (s && x != 0) (x * p * q) (g + e + f)) = p * 2 ^ e * (q * 2 ^ f) * realOf (.fin s x g) := by
  have hs : signed (s && x != 0) ((x : ℝ) * 2 ^ g) = signed s (x * 2 ^ g) := by
    rcases Nat.eq_zero_or_pos x with rfl | hx
    · rw [Nat.cast_zero, zero_mul, signed_zero, signed_zero]
    · rw [bne_iff_ne.2 hx.ne', Bool.and_true]
  rw [realOf_fin, realOf_fin, ← hs, mul_comm ((p : ℝ) * 2 ^ e * (q * 2 ^ f)), signed_mul,
    zpow_add₀ two_ne_zero, zpow_add₀ two_ne_zero]
  congr 1
  push_cast
  ring

section
variable {ta tb : Nat} (hta : ta < 8) (htb : tb < 8) {xs ys : List Nat} (hx : ∀ x ∈ xs, FiniteElem ta x)
  (hy : ∀ y ∈ ys, FiniteElem tb y)
include hta htb hx hy

/-- A cell of a scaled product. -/
theorem rounds_accScaled {a sa sb : Nat} (ha : FiniteCode 8 23 a) (hsa : sa < 0xFF000) (hsb : sb < 0xFF000) :
    Rounds .rne 8 23 (codeValue 8 23 a + magValue 8 12 sa * magValue 8 12 sb *
      ((xs.zip ys).map fun e => elemReal ta e.1 * elemReal tb e.2).sum) (accScaled a (dotSum ta tb xs ys) sa sb) := by
  obtain ⟨h1, ⟨s, x, g, h2⟩, h3⟩ := dotSum_finite hta htb hx hy
  have hprod := realOf_scaled s x g (sigOf fmtScale sa) (sigOf fmtScale sb) (sigExp fmtScale sa) (sigExp fmtScale sb)
  have h := rounds_sum binary_fp32 .rne (isFin_val binary_fp32 ha) (isFin_fin (s && x != 0)
    (x * sigOf fmtScale sa * sigOf fmtScale sb) (g + sigExp fmtScale sa + sigExp fmtScale sb))
  rw [realOf_val binary_fp32 ha, hprod, scaleVal_real hsa, scaleVal_real hsb, ← h2, h3] at h
  rw [accScaled, scaleVal_finite hsa, scaleVal_finite hsb, h1, h2]
  change Rounds .rne fp32.ew fp32.f _ ((fp32.sum _ _ _).1, (fp32.sum _ _ _).2 ||| 0)
  rw [or_no_flags]
  exact h

end

/-! ### Sums of integers -/

/-- The code of an integer element is an integer. -/
theorem elemVal_int {ty : Nat} (h : ty = 6 ∨ ty = 7) (v : Nat) : ∃ s p, (elemVal ty v).1 = .fin s p 0 := by
  rcases h with rfl | rfl
  · exact ⟨_, _, rfl⟩
  · match v with
    | 0 => exact ⟨_, _, rfl⟩
    | 1 => exact ⟨_, _, rfl⟩
    | 2 => exact ⟨_, _, rfl⟩
    | 3 => exact ⟨_, _, rfl⟩
    | _ + 4 => exact ⟨_, _, rfl⟩

/-- The products of integer elements are integers. -/
theorem elemProd_int {ta tb : Nat} (hta : ta = 6 ∨ ta = 7) (htb : tb = 6 ∨ tb = 7) (e : Nat × Nat) :
    ∃ s p, (elemProd ta tb e).1 = .fin s p 0 := by
  obtain ⟨s, p, h1⟩ := elemVal_int hta e.1
  obtain ⟨t, q, h2⟩ := elemVal_int htb e.2
  rw [elemProd, h1, h2]
  exact ⟨_, _, rfl⟩

/-- The sum of the products of integer elements is an integer. -/
theorem dotSum_int {ta tb : Nat} (hta : ta = 6 ∨ ta = 7) (htb : tb = 6 ∨ tb = 7) (xs ys : List Nat) :
    ∃ s p, (dotSum ta tb xs ys).1 = .fin s p 0 := by
  have hint (v) (hv : v ∈ ((xs.zip ys).map (elemProd ta tb)).map (·.1)) : ∃ s p, v = FVal.fin s p 0 := by
    rw [List.map_map, List.mem_map] at hv
    obtain ⟨e, -, rfl⟩ := hv
    exact elemProd_int hta htb e
  obtain ⟨-, s, h, -⟩ := exactSum_fin _ fun v hv => by
    obtain ⟨s, p, rfl⟩ := hint v hv
    exact isFin_fin _ _ _
  rw [foldl_addFin_int _ hint (0, 0) rfl] at h
  exact ⟨_, _, h⟩

/-- A cell with 32-bit integers: the sum, or the nearer end of the range with the overflow flag. -/
theorem accInt_spec {ta tb : Nat} (hta : ta = 6 ∨ ta = 7) (htb : tb = 6 ∨ tb = 7) {xs ys : List Nat}
    (hx : ∀ x ∈ xs, FiniteElem ta x) (hy : ∀ y ∈ ys, FiniteElem tb y) {a : Nat} {n : Int}
    (hn : (n : ℝ) = (BitVec.ofNat 32 a).toInt + ((xs.zip ys).map fun e => elemReal ta e.1 * elemReal tb e.2).sum) :
    accInt a (dotSum ta tb xs ys) = if 2 ^ 31 ≤ n then (2 ^ 31 - 1, 4) else if n < -(2 ^ 31) then (2 ^ 31, 4)
      else ((BitVec.ofInt 32 n).toNat, 0) := by
  obtain ⟨h1, -, h3⟩ := dotSum_finite (by omega) (by omega) hx hy
  obtain ⟨s, p, h⟩ := dotSum_int hta htb xs ys
  have hsum : sgn 32 a + sint s p = n := by
    rw [h, realOf, zpow_zero, mul_one] at h3
    rw [← h3, ← sgn_eq_toInt_32] at hn
    exact_mod_cast hn.symm
  rw [accInt, h, h1]
  dsimp only
  rw [hsum, clamp, BitVec.toNat_ofInt]
  split
  case isTrue h31 =>
    rw [decide_eq_true (by norm_num; omega)]
    rfl
  case isFalse h31 =>
    split
    case isTrue h31 =>
      rw [decide_eq_true (by norm_num; omega)]
      rfl
    case isFalse h31 =>
      rw [decide_eq_false (not_not.2 rfl)]
      rfl

end Sys2Proof
end

section
/-! PROOFS. The quantisers: the scale of a block and the codes of its elements (R93, R98, R99). -/

namespace Sys2Proof

open Machine

/-! ### Magnitudes -/

/-- The real number of a magnitude. -/
noncomputable def magReal (a : Nat × Int) : ℝ := a.1 * 2 ^ a.2

theorem magReal_nonneg (a : Nat × Int) : 0 ≤ magReal a := by
  rw [magReal]
  positivity

/-- The comparison of two magnitudes on their common exponent. -/
theorem magReal_lt (a b : Nat × Int) :
    a.1 * 2 ^ (a.2 - min a.2 b.2).toNat < b.1 * 2 ^ (b.2 - min a.2 b.2).toNat ↔ magReal a < magReal b := by
  have hpart (c : Nat × Int) (h : min a.2 b.2 ≤ c.2) :
      ((c.1 * 2 ^ (c.2 - min a.2 b.2).toNat : Nat) : ℝ) * 2 ^ min a.2 b.2 = magReal c := by
    push_cast
    rw [magReal, ← zpow_natCast, Int.toNat_of_nonneg (by omega), mul_assoc, ← zpow_add₀ two_ne_zero, sub_add_cancel]
  rw [← hpart a (min_le_left _ _), ← hpart b (min_le_right _ _), mul_lt_mul_iff_left₀ (by positivity), Nat.cast_lt]

/-- The larger of two magnitudes is one of them, and at least both. -/
theorem maxMag_spec (a b : Nat × Int) :
    (maxMag a b = a ∨ maxMag a b = b) ∧ magReal a ≤ magReal (maxMag a b) ∧ magReal b ≤ magReal (maxMag a b) := by
  have h := magReal_lt a b
  rw [maxMag]
  split
  case isTrue hlt => exact ⟨.inr rfl, (h.1 hlt).le, le_rfl⟩
  case isFalse hlt => exact ⟨.inl rfl, le_rfl, not_lt.1 (h.not.1 hlt)⟩

/-- The largest magnitude of a list, from one on. -/
theorem foldl_maxMag (l : List (Nat × Int)) (a : Nat × Int) :
    (l.foldl maxMag a = a ∨ l.foldl maxMag a ∈ l) ∧ magReal a ≤ magReal (l.foldl maxMag a) ∧
    ∀ b ∈ l, magReal b ≤ magReal (l.foldl maxMag a) := by
  induction l generalizing a with
  | nil => exact ⟨.inl rfl, le_rfl, fun _ h => absurd h List.not_mem_nil⟩
  | cons c l ih =>
    obtain ⟨h1, h2, h3⟩ := maxMag_spec a c
    obtain ⟨h4, h5, h6⟩ := ih (maxMag a c)
    rw [List.foldl_cons]
    refine ⟨?_, h2.trans h5, fun b hb => ?_⟩
    · rcases h4 with h4 | h4
      · rw [h4]
        exact h1.imp_right fun h => by rw [h]; exact List.mem_cons_self
      · exact .inr (List.mem_cons_of_mem _ h4)
    · rcases List.mem_cons.1 hb with rfl | hb
      · exact h3.trans h5
      · exact h6 b hb

/-! ### The codes of a block -/

/-- The significand and exponent of an fp32 code. -/
def magOf (x : Nat) : Nat × Int := (sigOf fp32 x, sigExp fp32 x)

theorem magReal_magOf (x : Nat) : magReal (magOf x) = |codeValue 8 23 x| := by
  have h := realOf_finVal binary_fp32.toBiased x
  rw [finVal, realOf_fin] at h
  change _ = |codeValue fp32.ew fp32.f x|
  rw [← h, abs_signed_eq, abs_of_nonneg (by positivity)]
  rfl

theorem mag_val_special {m : Fmt} (hk : m.kind = .ieee) {c : Nat} (h : c / 2 ^ m.f % 2 ^ m.ew = 2 ^ m.ew - 1) :
    (m.val c).mag = none := by
  rw [Fmt.val, hk]
  simp only [if_pos h]
  split <;> rfl

/-- A code of 32 bits without a finite value is an infinity or a NaN. -/
theorem mag_val {x : Nat} (hx : x < 2 ^ 32) :
    (FiniteCode 8 23 x → fp32.val x = finVal fp32 x) ∧ (¬FiniteCode 8 23 x → (fp32.val x).mag = none) := by
  refine ⟨fun h => val_finite rfl h, fun h => ?_⟩
  have hex : x / 2 ^ 23 % 2 ^ 8 = 2 ^ 8 - 1 := by
    have h' : ¬x % 2 ^ 31 < (2 ^ 8 - 1) * 2 ^ 23 := fun hlt => h ⟨hx, hlt⟩
    omega
  exact mag_val_special rfl hex

/-- The largest magnitude of a block. -/
def blockMax (xs : List Nat) : Nat × Int := (xs.map magOf).foldl maxMag (0, 0)

/-- One element of a block over the scale `sm · 2^se`. -/
def quantElem (m : Fmt) (sm : Nat) (se : Int) (x : Nat) : Nat × Flags :=
  let r := if sigOf fp32 x = 0 then (if negOf fp32 x then m.signBit else 0, (0 : Flags))
    else m.roundQ .rne (negOf fp32 x) (sigOf fp32 x) sm (sigExp fp32 x - se)
  (r.1, if m.kind = .e2m1 then r.2 &&& 0b11101#5 else r.2)

/-- A block with an infinity or a NaN. -/
theorem quantise_nan (m : Fmt) (k : Nat) {xs : List Nat} (hx : ∀ x ∈ xs, x < 2 ^ 32) (h : ∃ x ∈ xs, ¬FiniteCode 8 23 x) :
    quantise m k xs = (0xFF000, xs.map fun _ => 0, 16) := by
  obtain ⟨x, hxs, hnf⟩ := h
  have hany : ((xs.map fp32.val).any fun v => v.mag.isNone) = true := by
    refine List.any_eq_true.2 ⟨fp32.val x, List.mem_map_of_mem hxs, ?_⟩
    rw [(mag_val (hx x hxs)).2 hnf]
    rfl
  have hflags (l : List Nat) (f : Flags) : (l.map fun _ => ((0 : Nat), (0 : Flags))).foldl (fun f x => f ||| x.2) f = f := by
    induction l generalizing f with
    | nil => rfl
    | cons a l ih => exact (ih _).trans BitVec.or_zero
  rw [quantise, quantiseEach, if_pos hany, hflags, List.map_map]
  rfl

/-- A block of finite codes: its scale, and each of its elements over the scale. -/
theorem quantise_finite (m : Fmt) (k : Nat) {xs : List Nat} (hx : ∀ x ∈ xs, x < 2 ^ 32) (h : ∀ x ∈ xs, FiniteCode 8 23 x)
    {sm : Nat} {se : Int} (hs : scaleVal (blockScale (blockMax xs) k) = some (sm, se)) :
    quantise m k xs = (blockScale (blockMax xs) k, xs.map fun x => (quantElem m sm se x).1,
      xs.foldl (fun f x => f ||| (quantElem m sm se x).2) 0) := by
  have hval : xs.map fp32.val = xs.map (finVal fp32) :=
    List.map_congr_left fun x hxs => (mag_val (hx x hxs)).1 (h x hxs)
  have hany : ¬((xs.map (finVal fp32)).any fun v => v.mag.isNone) = true := by
    rw [List.any_eq_true]
    rintro ⟨v, hv, hn⟩
    obtain ⟨x, -, rfl⟩ := List.mem_map.1 hv
    exact Bool.false_ne_true hn
  have hmags : (xs.map (finVal fp32)).filterMap FVal.mag = xs.map magOf := by
    rw [List.filterMap_map]
    exact congrFun (List.filterMap_eq_map (f := magOf)) xs
  have hfold (l : List Nat) (f : Flags) : (l.map (quantElem m sm se)).foldl (fun f x => f ||| x.2) f =
      l.foldl (fun f x => f ||| (quantElem m sm se x).2) f := List.foldl_map
  rw [quantise, quantiseEach, hval, if_neg hany, hmags]
  dsimp only
  rw [← blockMax, hs]
  simp only [List.map_map]
  exact Prod.ext rfl (Prod.ext rfl (hfold xs 0))

/-! ### The scale of a block -/

/-- A quotient rounded to a format of any kind, when its code is a finite one. -/
theorem roundQ_fits {m : Fmt} {rm : Rm} {neg : Bool} {num den : Nat} {e : Int} (h : codeAt m rm neg num den e ≤ m.maxCode) :
    m.roundQ rm neg num den e = ((if neg then m.signBit else 0) + codeAt m rm neg num den e,
      if (roundAt rm neg num den e (gridOf m num den e)).2 then
        (if tinyAt m rm neg num den e then flUF ||| flNX else flNX) else 0) := by
  rw [roundQ_eq, if_neg h.not_gt]

theorem magValue_scale_high : magValue 8 12 (254 * 4096) = 2 ^ (127 : Int) := by
  rw [magValue]
  norm_num

/-- The scale of a block: the smallest one that is at least the magnitude's part. -/
theorem blockScale_spec {am : Nat × Int} {k : Nat} (hk : 2 ≤ k) (h : magReal am < 2 ^ (128 : Int)) :
    blockScale am k < 0xFF000 ∧ magReal am / k ≤ magValue 8 12 (blockScale am k) ∧
    (blockScale am k ≠ 0 → magValue 8 12 (blockScale am k - 1) < magReal am / k) := by
  rw [blockScale]
  split
  case isTrue h0 =>
    rw [magReal, h0, Nat.cast_zero, zero_mul, zero_div, magValue_zero]
    exact ⟨by decide, le_rfl, fun h => absurd rfl h⟩
  case isFalse h0 =>
    have hk0 : (2 : ℝ) ≤ k := by exact_mod_cast hk
    have hX := SameCuts.refl (topExp am.1 k am.2 - fmtScale.f - 1) (am.1 / k * 2 ^ am.2)
    have hcode := (codeAt_spec biased_scale (rm := .rup) (neg := false) (Nat.pos_of_ne_zero h0) (by omega) hX).1
    rw [div_mul_eq_mul_div] at hcode
    change RoundsCode .rup false 8 12 (magReal am / k) _ at hcode
    obtain ⟨h1, h2, h3⟩ := hcode.up rfl
    have hfit : codeAt fmtScale .rup false am.1 k am.2 < 0xFF000 := by
      by_contra hge
      have h4 : magValue 8 12 (254 * 4096) ≤ magValue 8 12 (codeAt fmtScale .rup false am.1 k am.2 - 1) :=
        (magValue_strictMono 8 12).monotone (by omega)
      have h5 : magReal am / k ≤ 2 ^ (127 : Int) := by
        rw [div_le_iff₀ (by linarith)]
        calc magReal am ≤ 2 ^ (128 : Int) := h.le
          _ = 2 ^ (127 : Int) * 2 := by norm_num
          _ ≤ 2 ^ (127 : Int) * k := by gcongr
      rw [magValue_scale_high] at h4
      linarith
    rw [roundQ_fits (Nat.le_sub_one_of_lt hfit)]
    change 0 + _ < _ ∧ _ ≤ magValue 8 12 (0 + _) ∧ (0 + _ ≠ 0 → magValue 8 12 (0 + _ - 1) < _)
    rw [Nat.zero_add]
    exact ⟨hfit, h3, fun _ => h2⟩

/-- The largest magnitude of a block. -/
theorem blockMax_spec (xs : List Nat) : (∀ x ∈ xs, |codeValue 8 23 x| ≤ magReal (blockMax xs)) ∧
    (magReal (blockMax xs) = 0 ∨ ∃ x ∈ xs, magReal (blockMax xs) = |codeValue 8 23 x|) := by
  obtain ⟨h1, -, h3⟩ := foldl_maxMag (xs.map magOf) (0, 0)
  constructor
  · intro x hx
    rw [← magReal_magOf]
    exact h3 _ (List.mem_map_of_mem hx)
  · rcases h1 with h1 | h1
    · left
      rw [blockMax, h1, magReal, Nat.cast_zero, zero_mul]
    · obtain ⟨x, hx, he⟩ := List.mem_map.1 h1
      exact .inr ⟨x, hx, by rw [blockMax, ← he, magReal_magOf]⟩

/-- A finite value of single precision is below `2^128`. -/
theorem abs_codeValue_lt {x : Nat} (h : FiniteCode 8 23 x) : |codeValue 8 23 x| < 2 ^ (128 : Int) := by
  rw [← magReal_magOf, magReal, magOf]
  have h1 : sigOf fp32 x < 2 ^ 24 := sigOf_lt fp32 x
  have h2 : sigExp fp32 x ≤ 104 := by
    have h2 := h.2
    change (if x / 2 ^ 23 % 2 ^ 8 = 0 then (1 - 127 - 23 : Int) else ((x / 2 ^ 23 % 2 ^ 8 : Nat) : Int) - 127 - 23) ≤ 104
    split <;> omega
  calc (sigOf fp32 x : ℝ) * 2 ^ sigExp fp32 x ≤ (sigOf fp32 x : ℝ) * 2 ^ (104 : Int) := by
        gcongr
        · exact one_le_two
    _ < (2 : ℝ) ^ (24 : Int) * 2 ^ (104 : Int) := by
        gcongr
        exact_mod_cast h1
    _ = 2 ^ (128 : Int) := by norm_num

/-- The scale of a block of finite codes. -/
theorem scale_spec {xs : List Nat} {k : Nat} (hk : 2 ≤ k) (h : ∀ x ∈ xs, FiniteCode 8 23 x) :
    blockScale (blockMax xs) k < 0xFF000 ∧
    (∀ x ∈ xs, |codeValue 8 23 x| / k ≤ magValue 8 12 (blockScale (blockMax xs) k)) ∧
    (blockScale (blockMax xs) k ≠ 0 → ∃ x ∈ xs, magValue 8 12 (blockScale (blockMax xs) k - 1) < |codeValue 8 23 x| / k) := by
  obtain ⟨h1, h2⟩ := blockMax_spec xs
  have hlt : magReal (blockMax xs) < 2 ^ (128 : Int) := by
    rcases h2 with h2 | ⟨x, hx, h2⟩
    · rw [h2]
      positivity
    · rw [h2]
      exact abs_codeValue_lt (h x hx)
  obtain ⟨h3, h4, h5⟩ := blockScale_spec hk hlt
  refine ⟨h3, fun x hx => le_trans ?_ h4, fun h0 => ?_⟩
  · gcongr
    exact h1 x hx
  · have h6 := h5 h0
    rcases h2 with h2 | ⟨x, hx, h2⟩
    · have hnn := (magValue_strictMono 8 12).monotone (Nat.zero_le (blockScale (blockMax xs) k - 1))
      rw [magValue_zero] at hnn
      rw [h2, zero_div] at h6
      exact absurd h6 hnn.not_gt
    · exact ⟨x, hx, h2 ▸ h6⟩

end Sys2Proof
end

section
/-! PROOFS. The elements of a quantised block: each code and its flags (R93, R98, R99). -/

namespace Sys2Proof

open Machine

/-- A format of the quantisers, with the magnitude code `top` of its largest value `k`. -/
structure Quantiser (m : Fmt) (k top : Nat) : Prop extends Biased m where
  large : 2 ≤ k
  maxCode : m.maxCode = top
  topValue : magValue m.ew m.f top = k
  topLt : top < 2 ^ (m.ew + m.f)
  kind : m.kind = .e2m1 ↔ k ≠ 448

theorem quantiser_e2m1 : Quantiser fmtE2m1 6 7 :=
  ⟨biased_e2m1, by decide, rfl, by norm_num [magValue, fmtE2m1], by decide, by decide⟩

theorem quantiser_e4m3 : Quantiser fmtE4m3 448 126 :=
  ⟨biased_e4m3, by decide, rfl, by norm_num [magValue, fmtE4m3], by decide, by decide⟩

/-- The code `r.1` with sign `s` stands for the magnitude `X` in a quantiser's format, rounded to the nearest, with its flags. -/
structure Quantised (m : Fmt) (k top s : Nat) (X : ℝ) (r : Nat × Flags) : Prop where
  sign : r.1 / 2 ^ (m.ew + m.f) = s
  le_top : r.1 % 2 ^ (m.ew + m.f) ≤ top
  near : ∀ l ≤ top, l ≠ r.1 % 2 ^ (m.ew + m.f) →
    |X - magValue m.ew m.f (r.1 % 2 ^ (m.ew + m.f))| < |X - magValue m.ew m.f l| ∨
    (|X - magValue m.ew m.f (r.1 % 2 ^ (m.ew + m.f))| = |X - magValue m.ew m.f l| ∧ r.1 % 2 ^ (m.ew + m.f) % 2 = 0)
  inexact : r.2.getLsbD 0 = true ↔ X ≠ magValue m.ew m.f (r.1 % 2 ^ (m.ew + m.f))
  underflow : r.2.getLsbD 1 = true ↔ k = 448 ∧ X ≠ magValue m.ew m.f (r.1 % 2 ^ (m.ew + m.f)) ∧
    X < magValue m.ew m.f (2 ^ m.f) - magValue m.ew m.f 1 / 4
  flags : r.2.toNat < 4

/-- The flags of a rounding within the range, when underflow may be left out. -/
def maskedFlags (p : Prop) [Decidable p] (inexact tiny : Bool) : Flags :=
  if p then (if inexact then (if tiny then flUF ||| flNX else flNX) else 0) &&& 0b11101#5
  else if inexact then (if tiny then flUF ||| flNX else flNX) else 0

theorem maskedFlags_spec (p : Prop) [Decidable p] (inexact tiny : Bool) :
    ((maskedFlags p inexact tiny).getLsbD 0 = true ↔ inexact = true) ∧
    ((maskedFlags p inexact tiny).getLsbD 1 = true ↔ ¬p ∧ inexact = true ∧ tiny = true) ∧
    (maskedFlags p inexact tiny).toNat < 4 := by
  by_cases h : p
  · simp only [maskedFlags, h, if_true, not_true, false_and]
    revert inexact tiny
    decide
  · simp only [maskedFlags, h, if_false, not_false_iff, true_and]
    revert inexact tiny
    decide

/-- The parts of a code. -/
theorem signed_code {m : Fmt} {s c : Nat} (hc : c < 2 ^ (m.ew + m.f)) :
    (s * m.signBit + c) / 2 ^ (m.ew + m.f) = s ∧ (s * m.signBit + c) % 2 ^ (m.ew + m.f) = c := by
  rw [Fmt.signBit, Nat.mul_comm, Nat.mul_add_div (Nat.two_pow_pos _), Nat.div_eq_of_lt hc, Nat.mul_add_mod, Nat.mod_eq_of_lt hc]
  exact ⟨rfl, rfl⟩

/-- The sign of a code of 32 bits. -/
theorem negOf_fp32 {x : Nat} (hx : x < 2 ^ 32) : (negOf fp32 x).toNat = x / 2 ^ 31 := by
  have h : x / 2 ^ 31 = 0 ∨ x / 2 ^ 31 = 1 := by omega
  rw [negOf]
  change (x / 2 ^ 31 % 2 == 1).toNat = _
  rcases h with h | h <;> rw [h] <;> rfl

/-- Zero keeps its sign. -/
theorem quantised_zero (m : Fmt) (k top s : Nat) : Quantised m k top s 0 (s * m.signBit, 0) := by
  obtain ⟨h1, h2⟩ := signed_code (m := m) (s := s) (Nat.two_pow_pos _)
  rw [Nat.add_zero] at h1 h2
  have hz := magValue_zero m.ew m.f
  constructor <;> simp only [h1, h2, hz]
  · exact Nat.zero_le _
  · intro l _ hl
    left
    rw [sub_zero, abs_zero, abs_pos, sub_ne_zero]
    exact ((hz.symm.trans_lt (magValue_strictMono m.ew m.f (Nat.pos_of_ne_zero hl)))).ne
  · simp
  · simp
  · simp

section
variable {m : Fmt} {k top : Nat} (hm : Quantiser m k top)
include hm

/-- A magnitude up to the largest is rounded to a code up to the largest. -/
theorem RoundsCode.le_top {neg : Bool} {X : ℝ} {c : Nat} (h : RoundsCode .rne neg m.ew m.f X c) (hX : X ≤ k) : c ≤ top := by
  by_contra hc
  have hmono : magValue m.ew m.f top < magValue m.ew m.f c := magValue_strictMono m.ew m.f (Nat.lt_of_not_le hc)
  rw [hm.topValue] at hmono
  have hle : |X - magValue m.ew m.f c| ≤ |X - k| := by
    rcases h.near rfl rfl top (Nat.ne_of_lt (Nat.lt_of_not_le hc)) with h | h
    · rw [hm.topValue] at h
      exact h.le
    · rw [hm.topValue] at h
      exact h.1.le
  rw [abs_of_nonpos (by linarith), abs_of_nonpos (by linarith)] at hle
  linarith

/-- A quotient up to the largest value, quantised. -/
theorem quantised_roundQ (neg : Bool) {num den : Nat} (e : Int) (hn : 0 < num) (hd : 0 < den) (hX : (num : ℝ) / den * 2 ^ e ≤ k) :
    Quantised m k top neg.toNat (num / den * 2 ^ e) ((m.roundQ .rne neg num den e).1,
      if m.kind = .e2m1 then (m.roundQ .rne neg num den e).2 &&& 0b11101#5 else (m.roundQ .rne neg num den e).2) := by
  have hc := SameCuts.refl (topExp num den e - m.f - 1) ((num : ℝ) / den * 2 ^ e)
  obtain ⟨hcode, hexact⟩ := codeAt_spec hm.toBiased (rm := .rne) (neg := neg) hn hd hc
  have htiny := tinyAt_iff hm.toBiased (rm := .rne) (neg := neg) hn hd hc
  have htop := RoundsCode.le_top hm hcode hX
  have hunder : Underflows .rne neg m.ew m.f (num / den * 2 ^ e) ↔
      num / den * 2 ^ e < magValue m.ew m.f (2 ^ m.f) - magValue m.ew m.f 1 / 4 :=
    ⟨fun h => h.2.2 rfl rfl, fun h => ⟨fun h => absurd h Bool.false_ne_true, fun h => absurd h Bool.false_ne_true, fun _ _ => h⟩⟩
  have hs : (if neg then m.signBit else 0) = neg.toNat * m.signBit := by cases neg <;> simp
  obtain ⟨h1, h2⟩ := signed_code (m := m) (s := neg.toNat) (htop.trans_lt hm.topLt)
  rw [roundQ_fits (hm.maxCode ▸ htop), hs]
  generalize codeAt m .rne neg num den e = c at *
  generalize (num : ℝ) / den * 2 ^ e = X at *
  obtain ⟨h3, h4, h5⟩ := maskedFlags_spec (m.kind = .e2m1) (roundAt .rne neg num den e (gridOf m num den e)).2
    (tinyAt m .rne neg num den e)
  constructor <;> simp only [h1, h2]
  · exact htop
  · intro l _ hl
    exact (hcode.near rfl rfl l hl).imp_right fun h => ⟨h.1, h.2.1 rfl⟩
  · exact h3.trans (hexact.trans ne_comm)
  · rw [← hunder, ← htiny, ne_comm (a := X), ← hexact, ← not_not (a := k = 448), ← Ne, ← hm.kind]
    exact h4
  · exact h5

/-- An element of a block over a scale that its magnitude fits. -/
theorem quantised_quantElem {x sm : Nat} {se : Int} (hx : x < 2 ^ 32) (h : |codeValue 8 23 x| / k ≤ sm * 2 ^ se) :
    Quantised m k top (x / 2 ^ 31) (|codeValue 8 23 x| / (sm * 2 ^ se)) (quantElem m sm se x) := by
  have hk : (0 : ℝ) < k := by exact_mod_cast zero_lt_two.trans_le hm.large
  rw [← magReal_magOf, magReal, magOf] at h ⊢
  dsimp only at h ⊢
  rw [quantElem, ← negOf_fp32 hx]
  by_cases h0 : sigOf fp32 x = 0
  · have hz := quantised_zero m k top (negOf fp32 x).toNat
    rw [if_pos h0, h0, Nat.cast_zero, zero_mul, zero_div]
    convert hz using 2
    · cases negOf fp32 x <;> simp
    · by_cases hk : m.kind = .e2m1
      · rw [if_pos hk]
        exact BitVec.zero_and
      · rw [if_neg hk]
  · have hp : (0 : ℝ) < sigOf fp32 x := by exact_mod_cast Nat.pos_of_ne_zero h0
    have hscale : (0 : ℝ) < sm * 2 ^ se := lt_of_lt_of_le (by positivity) h
    have hsm : 0 < sm := by
      by_contra h0
      rw [Nat.eq_zero_of_not_pos h0, Nat.cast_zero, zero_mul] at hscale
      exact hscale.false
    have hquot : (sigOf fp32 x : ℝ) * 2 ^ sigExp fp32 x / (sm * 2 ^ se) = sigOf fp32 x / sm * 2 ^ (sigExp fp32 x - se) := by
      rw [zpow_sub₀ two_ne_zero, mul_div_mul_comm]
    have hle : (sigOf fp32 x : ℝ) * 2 ^ sigExp fp32 x / (sm * 2 ^ se) ≤ k := by
      rw [div_le_iff₀ hscale, mul_comm (k : ℝ)]
      exact (div_le_iff₀ hk).1 h
    rw [hquot] at hle ⊢
    rw [if_neg h0]
    exact quantised_roundQ hm _ _ (Nat.pos_of_ne_zero h0) hsm hle

end

end Sys2Proof
end

section
/-! PROOFS. How finite results, conversions, sums and blocks are rounded (R69, R70, R93-R103). -/

namespace Sys2Proof

open Machine

/-! ### Blocks -/

/-- The flags of a list of results, joined. -/
theorem foldl_or_getLsbD {α : Type} (g : α → Flags) (l : List α) (f : Flags) (i : Nat) :
    (l.foldl (fun f x => f ||| g x) f).getLsbD i = true ↔ f.getLsbD i = true ∨ ∃ x ∈ l, (g x).getLsbD i = true := by
  induction l generalizing f with
  | nil => simp
  | cons a l ih =>
    rw [List.foldl_cons, ih, BitVec.getLsbD_or, Bool.or_eq_true, or_assoc]
    simp only [List.mem_cons, exists_eq_or_imp]

theorem foldl_or_lt {α : Type} (g : α → Flags) (l : List α) (f : Flags) (hf : f.toNat < 4) (h : ∀ x ∈ l, (g x).toNat < 4) :
    (l.foldl (fun f x => f ||| g x) f).toNat < 4 := by
  induction l generalizing f with
  | nil => exact hf
  | cons a l ih =>
    refine ih _ ?_ fun x hx => h x (List.mem_cons_of_mem _ hx)
    rw [BitVec.toNat_or]
    exact Nat.or_lt_two_pow (n := 2) hf (h a List.mem_cons_self)

theorem getD_map_of_getElem? {α : Type} (g : α → Nat) {l : List α} {i : Nat} {x : α} (h : l[i]? = some x) :
    (l.map g).getD i 0 = g x := by
  rw [List.getD_eq_getElem?_getD, List.getElem?_map, h]
  rfl

/-- A property of the elements of a list and their images, by index and by element. -/
theorem exists_index_iff {α : Type} (g : α → Nat) (l : List α) (P : α → Nat → Prop) :
    (∃ i x, l[i]? = some x ∧ P x ((l.map g).getD i 0)) ↔ ∃ x ∈ l, P x (g x) := by
  constructor
  · rintro ⟨i, x, h, hp⟩
    rw [getD_map_of_getElem? g h] at hp
    exact ⟨x, List.mem_of_getElem? h, hp⟩
  · rintro ⟨x, hx, hp⟩
    obtain ⟨i, h⟩ := List.mem_iff_getElem?.1 hx
    exact ⟨i, x, h, by rwa [getD_map_of_getElem? g h]⟩

/-- A block of finite codes is quantised: its scale, its codes and its flags. -/
theorem quantise_spec {m : Fmt} {k top : Nat} (hm : Quantiser m k top) {xs : List Nat} (hx : ∀ x ∈ xs, x < 2 ^ 32)
    (h : ∀ x ∈ xs, FiniteCode 8 23 x) :
    let q := quantise m k xs
    let scale := magValue 8 12 q.1
    let neg := 2 ^ (m.ew + m.f)
    let val (j : Nat) := magValue m.ew m.f j
    let quot (x : Nat) := |codeValue 8 23 x| / scale
    q.1 < 0xFF000 ∧ (∀ x ∈ xs, |codeValue 8 23 x| / k ≤ scale) ∧
      (q.1 ≠ 0 → ∃ x ∈ xs, magValue 8 12 (q.1 - 1) < |codeValue 8 23 x| / k) ∧ q.2.1.length = xs.length ∧
      (∀ i x, xs[i]? = some x → q.2.1.getD i 0 / neg = x / 2 ^ 31 ∧
        let j := q.2.1.getD i 0 % neg
        j ≤ top ∧ ∀ l ≤ top, l ≠ j → |quot x - val j| < |quot x - val l| ∨ (|quot x - val j| = |quot x - val l| ∧ j % 2 = 0)) ∧
      (q.2.2.getLsbD 0 = true ↔ ∃ i x, xs[i]? = some x ∧ quot x ≠ val (q.2.1.getD i 0 % neg)) ∧
      (q.2.2.getLsbD 1 = true ↔ k = 448 ∧ ∃ i x, xs[i]? = some x ∧ quot x ≠ val (q.2.1.getD i 0 % neg) ∧
        quot x < val (2 ^ m.f) - val 1 / 4) ∧ q.2.2.toNat < 4 := by
  obtain ⟨h1, h2, h3⟩ := scale_spec hm.large h
  have hscale := scaleVal_real h1
  have helem (x) (hxs : x ∈ xs) := quantised_quantElem hm (se := sigExp fmtScale (blockScale (blockMax xs) k)) (hx x hxs)
    (hscale.symm ▸ h2 x hxs)
  rw [hscale] at helem
  rw [quantise_finite m k hx h (scaleVal_finite h1)]
  dsimp only
  generalize sigOf fmtScale (blockScale (blockMax xs) k) = sm at *
  generalize sigExp fmtScale (blockScale (blockMax xs) k) = se at *
  refine ⟨h1, h2, h3, List.length_map _, fun i x hi => ?_, ?_, ?_, ?_⟩
  · obtain ⟨h4, h5, h6, -, -, -⟩ := helem x (List.mem_of_getElem? hi)
    rw [getD_map_of_getElem? _ hi]
    exact ⟨h4, h5, h6⟩
  · have hidx := exists_index_iff (fun x => (quantElem m sm se x).1) xs fun x c =>
      |codeValue 8 23 x| / magValue 8 12 (blockScale (blockMax xs) k) ≠ magValue m.ew m.f (c % 2 ^ (m.ew + m.f))
    rw [foldl_or_getLsbD, or_iff_right (by decide), hidx]
    exact exists_congr fun x => and_congr_right fun hxs => (helem x hxs).inexact
  · have hidx := exists_index_iff (fun x => (quantElem m sm se x).1) xs fun x c =>
      |codeValue 8 23 x| / magValue 8 12 (blockScale (blockMax xs) k) ≠ magValue m.ew m.f (c % 2 ^ (m.ew + m.f)) ∧
        |codeValue 8 23 x| / magValue 8 12 (blockScale (blockMax xs) k) <
          magValue m.ew m.f (2 ^ m.f) - magValue m.ew m.f 1 / 4
    rw [foldl_or_getLsbD, or_iff_right (by decide), hidx, ← exists_and_left]
    refine exists_congr fun x => ?_
    rw [and_left_comm]
    exact and_congr_right fun hxs => (helem x hxs).underflow
  · exact foldl_or_lt _ _ _ (by decide) fun x hxs => (helem x hxs).flags

/-! ### The obligation -/

/-- The operations of a binary format on finite codes: one rounding of the exact result. -/
theorem rounds_ops {m : Fmt} (hm : Binary m) (hf : m.f ≤ 52) (rm : Rm) (a b c : Nat) (ha : FiniteCode m.ew m.f a)
    (hb : FiniteCode m.ew m.f b) (hc : FiniteCode m.ew m.f c) :
    let v := codeValue m.ew m.f
    let neg := 2 ^ (m.ew + m.f)
    let sign := (if a / neg = b / neg then 0 else neg)
    Rounds rm m.ew m.f (v a + v b) (m.add rm a b) ∧ Rounds rm m.ew m.f (v a - v b) (m.sub rm a b) ∧
    Rounds rm m.ew m.f (v a * v b) (m.mul rm a b) ∧ Rounds rm m.ew m.f (v a * v b + v c) (m.fma rm a b c) ∧
    (b % neg ≠ 0 → Rounds rm m.ew m.f (v a / v b) (m.div rm a b)) ∧
    (a < neg → Rounds rm m.ew m.f (Real.sqrt (v a)) (m.sqrt rm a)) ∧
    (a % neg = 0 → m.mul rm a b = (sign, 0)) ∧ (a % neg = 0 → b % neg ≠ 0 → m.div rm a b = (sign, 0)) ∧
    ∀ w ∈ [8, 16, 32, 64], ∃ n, RoundsInt rm (v a) n ∧
      (2 ^ (w - 1) - 1 < n → m.toInt rm w a = (2 ^ (w - 1) - 1, 16)) ∧
      (n < -(2 ^ (w - 1)) → m.toInt rm w a = (2 ^ (w - 1), 16)) ∧
      (-(2 ^ (w - 1)) ≤ n → n ≤ 2 ^ (w - 1) - 1 → (m.toInt rm w a).1 = (BitVec.ofInt w n).toNat ∧
        (v a = n → (m.toInt rm w a).2 = 0) ∧ (v a ≠ n → (m.toInt rm w a).2 = 1)) :=
  ⟨rounds_add hm rm ha hb, rounds_sub hm rm ha hb, rounds_mul hm rm ha hb, rounds_fma hm rm ha hb hc, rounds_div hm rm ha hb,
    rounds_sqrt hm hf rm ha, mul_zero_left hm rm ha hb, div_zero_left hm rm ha hb, fun _ hw => roundsInt_toInt hm rm ha hw⟩

/-- The element types of a pairing; those of the integer pairings. -/
theorem pairTypes_lt : ∀ y < 10, (pairTypes y).1 < 8 ∧ (pairTypes y).2 < 8 := by
  decide

theorem pairTypes_int {y : Nat} (h : y = 7 ∨ y = 8) :
    ((pairTypes y).1 = 6 ∨ (pairTypes y).1 = 7) ∧ ((pairTypes y).2 = 6 ∨ (pairTypes y).2 = 7) := by
  rcases h with rfl | rfl <;> decide

/-- Settles O7: each result is a quotient of naturals times a power of two (a root with a last bit for its rest), which the model
cuts on the grid of the codes where the rules cut the exact value. -/
theorem floatRounding : Obligations.FloatRounding := by
  unfold Obligations.FloatRounding
  intro rm a b c
  refine ⟨rounds_ops binary_fp32 (by decide) rm a b c, rounds_ops binary_fp64 (by decide) rm a b c,
    rounds_ops binary_bf16 (by decide) rm a b c, rounds_ops binary_fp16 (by decide) rm a b c,
    rounds_convert binary_fp32 rm binary_fp64, fun ha => ⟨rounds_convert binary_fp64 rm binary_fp32 ha,
      rounds_convert binary_bf16 rm binary_fp32 ha, rounds_convert binary_fp16 rm binary_fp32 ha⟩,
    rounds_convert binary_fp32 rm binary_bf16, rounds_convert binary_fp32 rm binary_fp16,
    fun n => ⟨fun _ _ => ⟨rounds_ofInt binary_fp32 rm n, rounds_ofInt binary_fp64 rm n⟩,
      fun _ _ => ⟨rounds_ofInt binary_bf16 rm n, rounds_ofInt binary_fp16 rm n⟩⟩,
    fun y sa sb xs ys hy _ _ hx hy' => ?_, fun xs m k top hm hx => ?_⟩
  · obtain ⟨hta, htb⟩ := pairTypes_lt y hy
    refine ⟨fun ha => ⟨rounds_accPlain hta htb hx hy' ha, rounds_accScaled hta htb hx hy' ha⟩, fun hint n hn => ?_⟩
    obtain ⟨hta, htb⟩ := pairTypes_int hint
    exact accInt_spec hta htb hx hy' hn
  · have hq : Quantiser m k top := by
      rcases List.mem_cons.1 hm with h | h
      · obtain ⟨rfl, rfl, rfl⟩ : m = fmtE2m1 ∧ k = 6 ∧ top = 7 := by simpa using h
        exact quantiser_e2m1
      · obtain ⟨rfl, rfl, rfl⟩ : m = fmtE4m3 ∧ k = 448 ∧ top = 126 := by simpa using h
        exact quantiser_e4m3
    exact ⟨quantise_nan m k hx, quantise_spec hq hx⟩

end Sys2Proof
end

section
/-! PROOFS. A `vfcun` on elements of a type that has numbers where the IEEE formats have their NaNs (R89, R136). -/

namespace Sys2Proof

open Machine

/-- A `vfcun` of length 1 of type e4m3 into m1, the last beat of which is due: it compares element 0 of v0 with the code 0x79, the
number 288. -/
def unorderedE4m3 : VEntry :=
  { op := .vfcun, d := 1, a := 0, b := 0, k := 0, sb := true, gb := 0x79, vl := 1, vt := 3, pc := 0, slot := 0, vmt := 0, frm := 0,
    wbase := 0, wctr := 0, ga := 0, elem := 0, priv := .user, word := 0 }

/-- A Ready thread with that instruction in its queue, and zero in its vector registers. -/
def comparesE4m3 : State := { threads := [(0, { state := .ready, v := { queue := [unorderedE4m3] } })] }

/-- Bit 0 of mask register m1 of thread 0, after an instruction. -/
def maskBitAfter (i : Instr) (s : State) : Option Bool :=
  match exec i s with
  | .next t => some ((tget (th t 0).v.masks 1 0).getLsbD 0)
  | _ => none

/-- Two numbers are ordered: the beat writes 0. -/
theorem maskBitAfter_comparesE4m3 : maskBitAfter (.laneBeat 0) comparesE4m3 = some false := by decide +kernel

theorem laneHolds_comparesE4m3 : LaneHolds comparesE4m3 0 0 unorderedE4m3 := by
  rw [LaneHolds]
  decide

/-- Refutes O18: its clause for `vfcun` does not ask for a type of the class FLT and takes every code above that of an IEEE infinity
as a NaN. Of e4m3 only the last of these is one (R89): on 0x79 the mask bit is 0. -/
theorem not_vectorExecution : ¬ Obligations.VectorExecution := by
  unfold Obligations.VectorExecution
  intro h
  obtain ⟨-, -, compares, -⟩ := h
  obtain ⟨-, -, -, -, -, -, -, -, -, unordered, -⟩ :=
    compares comparesE4m3 0 0 unorderedE4m3 laneHolds_comparesE4m3 (by decide) (by decide)
  obtain ⟨t, he, -, -, written, -⟩ := unordered rfl
  have hw := maskBitAfter_comparesE4m3
  rw [maskBitAfter, he] at hw
  have hbit := (written (by decide) 0 (by decide)).symm.trans (Option.some.inj hw)
  exact absurd hbit (by decide)

end Sys2Proof
end

section
/-! PROOFS. `vset` and `vsetmt` (R125, R126). -/

namespace Sys2Proof

open Machine

variable {s : State} {p : BitVec 1} {d a : BitVec 5}

theorem isAnyType_of {t : BitVec 4} (hl : t.toNat < 12) (hn : t ≠ 7) : isAnyType t.toNat = true := by
  have h7 : t.toNat ≠ 7 := fun e => hn (BitVec.eq_of_toNat_eq e)
  simp [isAnyType, hl, h7]

/-- A word that changes the vector registers of its thread, and writes d. -/
theorem updates_finish_setV (f : VecRegs → VecRegs) (s : State) (p : BitVec 1) (d : BitVec 5) (v : Word) :
    Updates s (finish (wr (setV s s.cur (f (me s).v)) d v) p) p d v fun o => { o with v := f o.v } :=
  updates_finish (n := { me s with v := f (me s).v }) rfl rfl p d v

/-- Without depth rows both words raise cause 13 (R125). -/
theorem exec_vset_of_noRows (h : (me s).v.rows = 0) (p : BitVec 1) (d a : BitVec 5) (t : BitVec 4) :
    exec (.vset p d a t) s = .next (raise s 13 (BitVec.ofNat 64 (wordVset p d a t))) :=
  congrArg Host.Outcome.next (if_pos h)

theorem exec_vsetmt_of_noRows (h : (me s).v.rows = 0) (p : BitVec 1) (d : BitVec 5) (t : BitVec 3) :
    exec (.vsetmt p d t) s = .next (raise s 13 (BitVec.ofNat 64 (wordVsetmt p d t))) :=
  congrArg Host.Outcome.next (if_pos h)

/-- `vset` of a known type, with depth rows and room in the queue (R126). -/
theorem exec_vset_updates {t : BitVec 4} (hr : (me s).v.rows ≠ 0) (hq : (me s).v.queue.length < 8)
    (ht : isAnyType t.toNat = true) :
    let vl := min (if a = 0 then (me s).v.vl else (rd s a).toNat) ((me s).v.rows * 1024 / typeWidth t.toNat)
    ∃ u, exec (.vset p d a t) s = .next u ∧
      Updates s u p d (BitVec.ofNat 64 vl) fun o => { o with v := { o.v with vt := t.toNat, vl := vl } } := by
  have hk : ¬(!isAnyType t.toNat) = true := by rw [ht]; decide
  exact ⟨_, congrArg Host.Outcome.next ((if_neg hr).trans ((if_neg hk).trans (if_neg (Nat.not_le.mpr hq)))),
    updates_finish_setV (fun v => { v with vt := t.toNat, vl := _ }) s p d _⟩

/-- `vsetmt` of a known memory type, with depth rows and room in the queue (R126). -/
theorem exec_vsetmt_updates {t : BitVec 3} (hr : (me s).v.rows ≠ 0) (hq : (me s).v.queue.length < 8) (ht : t.toNat < 3) :
    ∃ u, exec (.vsetmt p d t) s = .next u ∧
      Updates s u p d (BitVec.ofNat 64 (me s).v.vmt) fun o => { o with v := { o.v with vmt := t.toNat } } := by
  have hk : ¬3 ≤ t.toNat := Nat.not_le.mpr ht
  exact ⟨_, congrArg Host.Outcome.next ((if_neg hr).trans ((if_neg hk).trans (if_neg (Nat.not_le.mpr hq)))),
    updates_finish_setV (fun v => { v with vmt := t.toNat }) s p d _⟩

/-- Settles O17: each word takes the branch of its checks. -/
theorem vectorConfiguration : Obligations.VectorConfiguration := by
  unfold Obligations.VectorConfiguration
  intro s p d a ty mt
  refine ⟨fun hr hq hl hn => exec_vset_updates hr hq (isAnyType_of hl hn), exec_vsetmt_updates, fun hr hq => ?_⟩
  exact ⟨_, _, _, _, rfl, exec_vset_of_noRows hr p d a ty, trapTo_raise hq 13 _,
    rfl, exec_vsetmt_of_noRows hr p d mt, trapTo_raise hq 13 _⟩

end Sys2Proof
end

section
/-! PROOFS. Vector words behind a write of `SDEPTH` in one bundle: the checks take the depth rows held before the bundle (R22),
of which the statements' length limits do not speak. -/

namespace Sys2Proof

open Machine

/-- The state in which the partner of a control word is performed (R22). -/
def partnerState (control : Instr) (s : State) : State :=
  match exec control s with
  | .next t => forPartner s t false false
  | _ => s

/-- A Ready hypervisor thread with one depth row and the 64 elements of type bf16 that it holds. -/
def oneRow : State :=
  { threads := [(0, { state := .ready, priv := .hyp, g := [(1, 2)], v := { rows := 1, vt := 1, vl := 64 } })] }

/-- Its control word has written 2 to `SDEPTH`: the thread has two rows, and the partner reads one row with 64 elements. -/
def besideSdepth : State := partnerState (.swrite 1 0 1 0x806) oneRow

theorem queueRoom_besideSdepth : QueueRoom besideSdepth := by
  rw [QueueRoom]
  decide

/-- A word that traps does not enter the queue. -/
theorem not_enters_of_trapped {s : State} {i : Instr} {c : Nat} {v : Word} (h : endOf (exec i s) = some (.trapped c v))
    (p : BitVec 1) (o : VOp) (d a b : BitVec 5) (k : BitVec 3) (sb : BitVec 1) (ew : BitVec 2) (ga gb : Word) :
    ¬Enters s i p o d a b k sb ew ga gb := by
  rintro ⟨t, e, w, he, -, ⟨hdone, -⟩, -⟩
  rw [he, endOf, hdone] at h
  cases h

/-- 64 elements are more than the 32 indexes of one row. -/
theorem vldx_besideSdepth : endOf (exec (.vldx 0 2 0 3 1 0) besideSdepth) =
    some (.trapped 0 (BitVec.ofNat 64 (wordVldx 0 2 0 3 1 0))) := rfl

/-- 64 elements are more than the 32 of type fp32 in one row. -/
theorem vcvtW_besideSdepth : endOf (exec (.vcvtW 2 3 0 0) besideSdepth) =
    some (.trapped 0 (BitVec.ofNat 64 (wordVcvtW 2 3 0 0))) := rfl

/-- Refutes O15: it bounds `VL` by the thread's rows, the check by those that the word reads. Behind the snapshot of a control
word that took the rows from 1 to 2, an indexed load of 64 elements is illegal. No memory word is a partner
(R22), but the statement admits every snapshot. -/
theorem not_vectorMemoryWords : ¬ Obligations.VectorMemoryWords := by
  unfold Obligations.VectorMemoryWords
  intro h
  obtain ⟨-, words⟩ := h besideSdepth 0 2 0 3 1 0 queueRoom_besideSdepth (by rw [SomeType]; decide)
  obtain ⟨-, -, -, indexed, -⟩ := words (by decide)
  obtain ⟨enters, -⟩ := indexed (by decide) (by decide)
  exact not_enters_of_trapped vldx_besideSdepth _ _ _ _ _ _ _ _ _ _ enters

/-- Refutes O16: it bounds `VL` by the thread's rows, the check by those before the bundle (R22). The partner of a control word
that took the rows from 1 to 2 is a conversion of 64 elements from bf16 to fp32, which is illegal. -/
theorem not_vectorLaneWords : ¬ Obligations.VectorLaneWords := by
  unfold Obligations.VectorLaneWords
  intro h
  obtain ⟨-, words⟩ := h
  obtain ⟨-, -, -, -, -, -, -, -, -, conversions, -⟩ := words besideSdepth 2 3 0 0 queueRoom_besideSdepth
  obtain ⟨-, widening⟩ := conversions (by decide) (by decide)
  exact not_enters_of_trapped vcvtW_besideSdepth _ _ _ _ _ _ _ _ _ _ (widening (by decide))

end Sys2Proof
end

section
/-! PROOFS. Streaming TILE words enter the command queue of their core (R149, R151, R158). -/

namespace Sys2Proof

open Machine

variable {s : State}

/-! ### The checks -/

theorem vstPending_noStore {t : Thread} (h : ∀ e ∈ t.v.queue, e.op.isStore = false) : vstPending t = false := by
  rw [vstPending, List.any_eq_false]
  exact fun e he => Bool.eq_false_iff.mp (h e he)

/-- The pairings as the statement lists them (R41). -/
theorem pairTypes_eq_getD : ∀ y : BitVec 4, y.toNat < 10 →
    [(1, 1), (2, 2), (3, 3), (3, 4), (4, 3), (4, 4), (5, 5), (6, 6), (7, 6), (0, 0)].getD y.toNat (0, 0) = pairTypes y.toNat := by
  decide

/-- The `FMT` rules of a product, on the value of `FMT` (R166). -/
theorem fmtOk_of {c : TileCmd} (hout : c.fmt.toNat / 256 = 0 ∨ (c.fmt.toNat / 256 = 8 ∧ (c.y = 7 ∨ c.y = 8)))
    (hin : c.fmt.toNat % 256 = 0 ∨ (c.fmt.toNat % 16, c.fmt.toNat / 16 % 16) = pairTypes c.y) : fmtOk c = true := by
  have hlt := c.fmt.isLt
  have hA : fld c.fmt.toNat 3 0 = c.fmt.toNat % 16 := by simp [fld]
  have hB : fld c.fmt.toNat 7 4 = c.fmt.toNat / 16 % 16 := rfl
  have hO : fld c.fmt.toNat 11 8 = c.fmt.toNat / 256 := Nat.mod_eq_of_lt (by omega)
  have hin' : (c.fmt.toNat % 16 = 0 ∧ c.fmt.toNat / 16 % 16 = 0) ∨
      (c.fmt.toNat % 16, c.fmt.toNat / 16 % 16) = pairTypes c.y := hin.imp_left fun h => by omega
  simp only [fmtOk, hA, hB, hO, Bool.and_eq_true, Bool.or_eq_true, beq_iff_eq, bne_iff_ne]
  exact ⟨by omega, hin'⟩

theorem gmmaGang_none {k r : Nat} (hm : memberOf s s.cur = some (k, r)) (hg : isGang (gr s k) = true)
    (hn : (gr s k).members.length ≤ 64) : gmmaGang s = none := by
  rw [gmmaGang, hm]
  exact if_pos ⟨hg, hn⟩

/-- A product that passes its checks comes to its entry (R166, R167). -/
theorem tileProduct_eq {p : BitVec 1} {c : TileCmd} (hy : c.y < 10) (ho : TileOpen s) (hf : fmtOk c = true)
    (hg : c.op = .tileGmma → gmmaGang s = none) (ha : c.ga.toNat % 4 = 0) (hb : c.gb.toNat % 4 = 0) :
    tileProduct s p c = .next (tileEnter s p c) := by
  have hgang : (if c.op = .tileGmma then gmmaGang s else none) = none := ite_eq_right_iff.mpr hg
  simp [tileProduct, Nat.not_le.mpr hy, tileGate_open ho.1 ho.2, hf, hgang, ha, hb]

/-! ### The entry -/

theorem co_finish (s : State) (p : BitVec 1) (k : Nat) : co (finish s p) k = co s k := by
  rw [co, co, (finish_outside s p).cores]

section Entry

variable (hv : ∀ e ∈ (me s).v.queue, e.op.isStore = false) (hq : (co s (s.cur / 16)).tq.length < 16)

include hv hq

/-- With room in the queue and no vector store before it a streaming word enters (R118, R149, R160). -/
theorem tileEnter_eq (p : BitVec 1) (c : TileCmd) :
    tileEnter s p c = finish (setTq s (s.cur / 16) ((co s (s.cur / 16)).tq ++ [c])) p := by
  refine if_neg ?_
  rw [vstPending_noStore hv]
  exact not_or.mpr ⟨Bool.false_ne_true, Nat.not_le.mpr hq⟩

/-- A word that comes to its entry is queued with what it captures. -/
theorem queues_of_tileEnter {i : Instr} {p : BitVec 1} {o : TOp} {t : BitVec 2} {c : BitVec 1} {a b : BitVec 5} {y : BitVec 4}
    {ra w : Nat} (he : encode i = some w)
    (hx : exec i s = .next (tileEnter s p { tileCmdOf s o t c a b y w with a := ra })) : Queues s i p o t c a b y ra := by
  rw [tileEnter_eq hv hq] at hx
  refine ⟨_, w, he, hx, behind_finish p rfl rfl, ?_, ?_, fun k hk => ?_, ?_, fun k hk => ?_, ?_⟩
  · rw [co_finish, setTq, co_setCo]
    rfl
  · rw [co_finish, setTq, co_setCo]
  · rw [co_finish, setTq, co_setCo_ne _ _ hk]
  · rw [pcMask_finish]
    rfl
  · exact th_finish_ne _ p hk
  · exact congrArg (fun u : State => { u with cores := s.cores }) (finish_outside _ p)

end Entry

/-- Settles O19: each word passes its checks and enters. -/
theorem tileStreamingWords : Obligations.TileStreamingWords := by
  unfold Obligations.TileStreamingWords
  intro s p t ts c a b y g F pair even product ho hv hq
  have gate (w : Nat) : tileGate s w false = none := tileGate_open ho.1 ho.2 w
  have enters {i : Instr} {o : TOp} {a b : BitVec 5} {y : BitVec 4} {ra w : Nat} :=
    @queues_of_tileEnter s hv hq i p o t c a b y ra w
  have multiplies {i : Instr} {o : TOp} {w : Nat} (hp : product) (he : encode i = some w)
      (hx : exec i s = tileProduct s p (tileCmdOf s o t c a b y w)) (hg : o = .tileGmma → gmmaGang s = none) :
      Queues s i p o t c a b y a.toNat := by
    obtain ⟨hy, ⟨ha, hb⟩, hout, hin⟩ := hp
    refine enters he (hx.trans (tileProduct_eq hy ho (fmtOk_of ?_ ?_) hg ha hb))
    · exact hout.imp_right fun ⟨h, k⟩ => ⟨h, k.imp (congrArg BitVec.toNat) (congrArg BitVec.toNat)⟩
    · exact hin.imp_right fun h => h.trans (pairTypes_eq_getD y hy)
  refine ⟨enters rfl ?_, fun hp => ⟨multiplies hp rfl rfl nofun, multiplies hp rfl rfl nofun⟩, ?_, ?_, ?_, ?_⟩
  · refine congrArg Host.Outcome.next ?_
    rw [gate]
    rfl
  · rintro hp ⟨k, r, hm, hg, hn⟩
    exact multiplies hp rfl rfl fun _ => gmmaGang_none hm hg hn
  · rintro ⟨ha, hb⟩ hy
    refine enters rfl (congrArg Host.Outcome.next ?_)
    rw [if_neg (not_and_or.mpr (hy.imp not_not.mpr not_not.mpr)), gate]
    exact (if_neg (not_not.mpr ha)).trans (if_neg (not_not.mpr hb))
  · intro hmn hn
    refine enters rfl (congrArg Host.Outcome.next ?_)
    rw [gate]
    exact if_neg (not_or.mpr ⟨not_not.mpr hmn, Nat.not_lt.mpr hn⟩)
  · intro hn hts
    refine enters rfl (congrArg Host.Outcome.next ?_)
    rw [gate]
    exact if_neg (not_or.mpr ⟨Nat.not_lt.mpr hn, hts⟩)

end Sys2Proof
end

section
/-! PROOFS. The completion add of a TILE command whose core and whose counter are of two partitions (R161, R350). -/

namespace Sys2Proof

open Machine

/-- Near counter 0 of core 2, after an instruction. -/
def nearAfter (i : Instr) (s : State) : Option Word :=
  match exec i s with
  | .next t => some (tget t.near 512 0)
  | _ => none

/-- A word that leaves the counter that `TCC` names as it was has not counted. -/
theorem not_countsOne_of_kept {i : Instr} {s t : State} {core : Nat} (hn : NearAddr s core 0x1000 2 0)
    (hk : nearAfter i s = some (tget s.near 512 0)) (he : exec i s = .next t) : ¬CountsOne s t core true 0x1000 := by
  rintro ⟨-, adds⟩
  obtain ⟨hadd, -⟩ := adds rfl 2 0 hn
  rw [nearAfter, he, Option.some.injEq] at hk
  have hsame := hk.symm.trans hadd
  simp at hsame

/-- A user thread on core 0, of partition 0, whose context is of partition 1. It holds the tile state with a window of one cell and
has a depth row; `TCC` names near counter 0 of core 2, a core of partition 1. -/
def acrossPartitions : State :=
  { threads := [(0, { state := .ready, ts := 1, u := { lwb := 1 }, v := { rows := 1 } })],
    cores := [(0, { sp := 1, ncbase := 1, cfg := { tm := 1, tn := 1, tcc := 0x1000 }, town := { hv := true } })],
    ctxs := [(0, { part := 1 })], parts := { bench := [(1, 1)] } }

theorem nearAddr_acrossPartitions : NearAddr acrossPartitions 0 0x1000 2 0 := by
  rw [NearAddr]
  decide

/-- The statements ask that the counter is of the context's partition. -/
theorem countReady_acrossPartitions : CountReady acrossPartitions 0 0 true 0x1000 :=
  fun _ => ⟨2, 0, nearAddr_acrossPartitions, rfl⟩

theorem calmCounters_acrossPartitions : CalmCounters acrossPartitions := ⟨rfl, rfl, rfl, rfl, rfl⟩

theorem holdsTiles_acrossPartitions : HoldsTiles acrossPartitions := ⟨by decide, rfl, rfl⟩

theorem tileReady_acrossPartitions : TileReady acrossPartitions false 0 0 4 := by
  rw [TileReady, TileOpen, NothingPosted]
  decide

theorem marverFree_acrossPartitions : MarverFree acrossPartitions 0 :=
  ⟨rfl, by decide, 0, by decide, rfl, by decide⟩

/-- The one element that the window takes stands at offset 0 of the scratchpad. -/
theorem inScratch_acrossPartitions {i j : Nat} {r : Word} (hi : i < 1) (hj : j < 1)
    (hr : tileRows acrossPartitions false 0 0 i = some r) : InScratch acrossPartitions (r + BitVec.ofNat 64 (j * 4)) 4 0 := by
  obtain rfl := Nat.lt_one_iff.mp hi
  obtain rfl := Nat.lt_one_iff.mp hj
  obtain rfl := Option.some.inj hr
  rw [InScratch]
  decide

/-- Neither word's completion adds: the mesh carries no packet between the two cores (R350). -/
theorem nearAfter_tileLd : nearAfter (.tileLd 0 0 1 0 0 0) acrossPartitions = some 0 := by decide +kernel

theorem nearAfter_tileVrow : nearAfter (.tileVrow 0 0 1 0 0 0) acrossPartitions = some 0 := by decide +kernel

/-- Refutes O20: it asks that the completion counter is of the partition of the thread's context, not that the thread's core is.
From a core of another partition the mesh refuses the add (R350): the load ends in a tile fault, and the counter keeps its value. -/
theorem not_tileMemoryWords : ¬ Obligations.TileMemoryWords := by
  unfold Obligations.TileMemoryWords
  rintro ⟨loads, -⟩
  obtain ⟨u, he, -, -, -, -, -, -, -, -, hcount, -⟩ := loads acrossPartitions 0 0 1 0 0 0 false (.inl rfl)
    tileReady_acrossPartitions holdsTiles_acrossPartitions calmCounters_acrossPartitions (by decide) (by decide)
    countReady_acrossPartitions fun i hi j hj r hr => ⟨0, inScratch_acrossPartitions hi hj hr⟩
  exact not_countsOne_of_kept nearAddr_acrossPartitions nearAfter_tileLd he hcount

/-- Refutes O21: it asks no more of the counter than O20 does. A row copied on a core of another partition than the counter's is
not counted. -/
theorem not_tileRows : ¬ Obligations.TileRows := by
  unfold Obligations.TileRows
  intro h
  obtain ⟨open_, -⟩ := tileReady_acrossPartitions
  obtain ⟨rows, -⟩ := h acrossPartitions 0 0 1 0 0 0 open_ rfl rfl rfl rfl rfl
    holdsTiles_acrossPartitions calmCounters_acrossPartitions rfl
  obtain ⟨-, u, he, -, -, -, -, -, -, hcount, -⟩ := rows (.inl rfl) (by decide) (by decide) rfl (by decide) (by decide)
    (by decide) countReady_acrossPartitions marverFree_acrossPartitions
  exact not_countsOne_of_kept nearAddr_acrossPartitions nearAfter_tileVrow he hcount

end Sys2Proof
end

section
/-! PROOFS. A `tile.q` that writes a scratchpad word on which a thread waits (R169, R181, R194). -/

namespace Sys2Proof

open Machine

/-- The second step of a `tile.q` of one cell to e2m1: its code goes to offset 0, its scale to offset 8. -/
def quantisesCell : TileCmd :=
  { op := .tileQ, t := 0, y := 5, tid := 0, pc := 0, ga := 0, gb := 8, cfg := { tm := 1, tn := 1 }, fmt := 0, scb := 0, vt := 0,
    step := 1, started := true }

/-- Waits until the word at offset 0 of the scratchpad of core 0 is 1. -/
def spadWaiter : Thread :=
  { state := .parked, wait := some { addr := 0, thr := 1, scope := 0, loc := .spad 0 0, due := none, listed := true } }

/-- The command runs on core 0, and a thread of that core waits. -/
def quantisesWaited : State :=
  { threads := [(0, { state := .ready }), (1, spadWaiter)],
    cores := [(0, { sp := 1, tq := [quantisesCell] })], benches := [(0, { last := 0, running := some 0 })],
    waiters := [(1, .spad 0 0)] }

/-- The threads to which wake messages are under way, after an instruction. -/
def wokenAfter (i : Instr) (s : State) : Option (List Nat) :=
  match exec i s with
  | .next t => some (t.wakes.map (·.tid))
  | _ => none

/-- The step stores the code's byte, and the waiter gets its message (R194). -/
theorem wokenAfter_quantisesWaited : wokenAfter (.marverStep 0) quantisesWaited = some [1] := by decide +kernel

theorem sp_quantisesWaited (k : Nat) : (co quantisesWaited k).sp ≤ 8 := by
  rcases Nat.eq_zero_or_pos k with rfl | h
  · decide
  · simp [co, quantisesWaited, tget, Nat.ne_of_lt h]

/-- Refutes O22: its clause for a step of `tile.q` that writes a row does not ask that no thread waits on the bytes written, and
says that outside the cores and the scratchpads nothing changes. A store to a word wakes its waiters (R181, R194): a wake
message is on its way. -/
theorem not_marverEvents : ¬ Obligations.MarverEvents := by
  unfold Obligations.MarverEvents
  intro h
  obtain ⟨-, runs⟩ := h quantisesWaited 0 0 quantisesCell [] (by decide) rfl rfl rfl
  obtain ⟨-, steps, -⟩ := runs rfl rfl rfl
  obtain ⟨-, quantises, -⟩ := steps (by decide) (by decide) (by decide) rfl sp_quantisesWaited
  obtain ⟨-, writes⟩ := quantises rfl (.inr rfl) (by decide)
  obtain ⟨t, f, he, -, -, -, -, -, -, -, hout⟩ := writes rfl rfl (by decide) (by decide) (.inl (by decide))
  have hw := wokenAfter_quantisesWaited
  have hnone : t.wakes = [] := (congrArg State.wakes hout :)
  rw [wokenAfter, he] at hw
  have hone : t.wakes.map (·.tid) = [1] := Option.some.inj hw
  rw [hnone] at hone
  exact absurd hone (by decide)

end Sys2Proof
end

section
/-! PROOFS. Counter words of a thread whose core and whose counter are of two partitions (R177, R350). -/

namespace Sys2Proof

open Machine

/-- Control does not stand behind a word that trapped. -/
theorem not_behind_of_trapped {i : Instr} {s t : State} {p : BitVec 1} {c : Nat} {v : Word}
    (htrap : endOf (exec i s) = some (.trapped c v)) (he : exec i s = .next t) : ¬Behind s t p := by
  rintro ⟨hdone, -⟩
  simp [he, endOf, hdone] at htrap

/-- The thread of `acrossPartitions`, with the address of its near counter, entry 0 of core 2, in g1. -/
def countsAcross : State :=
  { acrossPartitions with threads := [(0, { state := .ready, g := [(1, 0x1000)] })] }

/-- The statements ask that the counter is of the context's partition. -/
theorem namesCounter_countsAcross : NamesCounter countsAcross (rd countsAcross 1) (.near 2 0) := by
  have haddr : NearAddr countsAcross 0 0x1000 2 0 := by
    rw [NearAddr]
    decide
  exact ⟨by decide, rfl, .inl ⟨2, 0, rfl, haddr, rfl⟩⟩

theorem settled_countsAcross : Settled countsAcross := by
  rw [Settled, NothingPosted]
  decide

/-- Neither word finishes: from core 0 the counter is outside the partition, reason 2 of R177. -/
theorem endOf_ctrAdd_countsAcross : endOf (exec (.ctrAdd 0 1 0 0) countsAcross) = some (.trapped 11 0x1000) := by decide +kernel

theorem endOf_ctrWait_countsAcross : endOf (exec (.ctrWait 0 1 0 0) countsAcross) = some (.trapped 11 0x1000) := by decide +kernel

/-- Refutes O23: it asks that the near counter is of the partition of the thread's context, not that the thread's core is. From a
core of another partition the mesh carries no packet to the counter (R350): `ctr.add` is a counter fault, and posts nothing. -/
theorem not_counterWords : ¬ Obligations.CounterWords := by
  unfold Obligations.CounterWords
  intro h
  obtain ⟨named, -⟩ := h countsAcross 0 0 1 0 0 0 0 (.near 2 0) (by decide)
  obtain ⟨adds, -⟩ := named namesCounter_countsAcross
  obtain ⟨⟨t, he, hbehind, -⟩, -⟩ := adds (by decide) (by rw [NoVectorStore]; decide)
  exact not_behind_of_trapped endOf_ctrAdd_countsAcross he hbehind

/-- Refutes O25: it names the counter as O23 does. `ctr.wait` with a threshold that the counter meets does not complete, but is a
counter fault. -/
theorem not_counterHoldingWords : ¬ Obligations.CounterHoldingWords := by
  unfold Obligations.CounterHoldingWords
  intro h
  obtain ⟨-, named⟩ := h countsAcross 0 0 1 0 0 0 0 (.near 2 0) (by decide)
  obtain ⟨waits, -⟩ :=
    named namesCounter_countsAcross settled_countsAcross rfl rfl rfl ⟨rfl, rfl, rfl, rfl, rfl⟩ rfl
  obtain ⟨t, he, hbehind, -⟩ := waits (by decide)
  exact not_behind_of_trapped endOf_ctrWait_countsAcross he hbehind

end Sys2Proof
end

section
/-! PROOFS. A reduction that reaches its home while a vector store of its thread is still in the queue (R118, R133, R235). -/

namespace Sys2Proof

open Machine

/-- The counter at a place, after an instruction. -/
def counterAfter (i : Instr) (s : State) (l : Loc) : Option Word :=
  match exec i s with
  | .next t => some (counterAt t l)
  | _ => none

/-- A scatter-add of two 64-bit integers whose first element has been sent. -/
def scatterAdd : VEntry :=
  { op := .vstxa, d := 1, a := 0, b := 2, k := 0, ew := 3, pc := 0, slot := 0, vl := 2, vt := 11, vmt := 0, frm := 0, wbase := 0,
    wctr := 0, ga := 0, gb := 0, elem := 1, priv := .hyp, word := 0, seq := 0 }

/-- The update of that element: 1 added to the word at offset 0 of device memory. -/
def scatteredAdd : Store :=
  { seq := 1, op := .add, addr := 0, width := 8, data := 1, nelem := 1, vec := true, gather := true, priv := .hyp,
    loc := some (.mem 0) }

/-- Thread 0 has sent the first update of its scatter-add; the second is still to enter the store queue. -/
def scattersOn : State :=
  { threads := [(0, { state := .ready, priv := .hyp, v := { rows := 4, queue := [scatterAdd] }, sent := [scatteredAdd] })] }

/-- The update waits for the rest of its instruction. -/
theorem counterAfter_scattersOn : counterAfter (.redAtHome 0 0) scattersOn (.mem 0) = some 0 := by decide +kernel

/-- Refutes O26: its clause for a sent RED asks for no queued store and no posted operation of the thread, but not for an empty
vector queue. While a vector store whose elements may name the same bytes stands there, the update waits (R118, R235). -/
theorem not_operationsAtHome : ¬ Obligations.OperationsAtHome := by
  unfold Obligations.OperationsAtHome
  rintro ⟨-, reduces⟩
  obtain ⟨t, he, hcount, -⟩ := reduces scattersOn 0 scatteredAdd (.mem 0) .add 1 rfl rfl (by decide) rfl
    (.inl ⟨0, rfl, by decide⟩) rfl rfl rfl rfl rfl ⟨rfl, rfl, rfl, rfl, rfl⟩ rfl rfl rfl (by decide)
  have hkept := counterAfter_scattersOn
  simp [counterAfter, he, hcount] at hkept

end Sys2Proof
end

section
/-! PROOFS. A counter-window write to a word in a line of page-table entries (R203, R292, R373). -/

namespace Sys2Proof

open Machine

/-- The walk-cache entries, after an instruction. -/
def walksAfter (i : Instr) (s : State) : Option (List WEntry) :=
  match exec i s with
  | .next t => some t.wcache
  | _ => none

/-- A table of bench 0's walk cache, found by an entry in line 0 of device memory. -/
def walkedLine : WEntry :=
  { bench := 0, second := false, vmid := 0, mode1 := 10, mode2 := 0, lvl := 1, tag := 0, base := 0x1000, lines := [0] }

/-- Entry 0 of the counter table of virtual function 0 names the word at offset 0 of device memory. -/
def windowWord : Word := BitVec.ofNat 64 (2 ^ 62)

/-- Virtual function 0 is bound to context 0; its counter stands in a line that a walk has read. -/
def windowOnTable : State :=
  { ctxs := [(0, { state := .running, vf := some 0 })], vfs := [(0, { table := [(0, windowWord)] })], wcache := [walkedLine] }

theorem boundVf_windowOnTable : BoundVf windowOnTable 0 0 := by
  rw [BoundVf]
  decide

theorem tableValue_windowOnTable :
    TableValue windowOnTable (cx windowOnTable 0).part (tget (vfn windowOnTable 0).table 0 0) (.mem 0) :=
  ⟨by decide, by decide, .inr ⟨0, rfl, by decide, rfl, by decide, rfl⟩⟩

/-- The add writes the line, and the walk cache forgets what was found there (R292). -/
theorem walksAfter_windowOnTable : walksAfter (.hostCounterWindowWrite 0 0 1) windowOnTable = some [] := by decide +kernel

/-- Refutes O50: by its clause for a counter-window write only memory, near counters and the translation cache change. Where the
counter's line holds page-table entries, walk-cache entries built from them go too (R292). -/
theorem not_hostWindows : ¬ Obligations.HostWindows := by
  unfold Obligations.HostWindows
  intro h
  obtain ⟨-, -, -, window, -⟩ := h windowOnTable 0 0 0 1 (by decide) (by decide)
  obtain ⟨adds, -⟩ :=
    window (.mem 0) boundVf_windowOnTable tableValue_windowOnTable ⟨rfl, rfl, rfl, rfl, rfl⟩ rfl
  obtain ⟨t, he, -, -, hrest⟩ := adds (by decide)
  have hkept : t.wcache = [walkedLine] := (congrArg State.wcache hrest :)
  have hgone := walksAfter_windowOnTable
  rw [walksAfter, he] at hgone
  exact List.cons_ne_nil _ _ (hkept.symm.trans (Option.some.inj hgone))

end Sys2Proof
end

section
/-! PROOFS. The ends of the GRP words: the register, the group table and the members (R205, R206, R208). -/

namespace Sys2Proof

open Machine

variable {s u : State} {i : Instr} {p : BitVec 1} {d a b : BitVec 5} {k r : Nat} {g : Group}

/-! ### Words that end after a change of the state -/

/-- A word that has left its own thread alone and ends by writing d. -/
theorem wrote_finish_of_me (hc : u.cur = s.cur) (hs : u.slot = s.slot) (hm : me u = me s) (p : BitVec 1) (d : BitVec 5) (v : Word) :
    Behind s (finish (wr u d v) p) p ∧ Wrote s (finish (wr u d v) p) d v ∧ regMask (me (finish (wr u d v) p)) (me s) = me s ∧
    (∀ j, j ≠ s.cur → th (finish (wr u d v) p) j = th u j) ∧ SameOutside u (finish (wr u d v) p) := by
  obtain ⟨-, ⟨hd, hr⟩, ho, hj, hk, -⟩ := regWord_finish u p d v
  rw [hm] at hk
  refine ⟨behind_finish p ((wr_slot ..).trans hs) ((wr_pc ..).trans (by rw [hm])), ⟨hd, fun r h => (hr r h).trans ?_⟩, hk,
    fun j h => hj j (hc ▸ h), ho⟩
  exact reg_congr (by rw [hm]) r

/-- Entry `k` of the group table is `g`, the threads of `ms` are changed by `upd`, and nothing else is changed. -/
def Regrouped (s u : State) (k : Nat) (g : Group) (ms : List Nat) (upd : Thread → Thread) : Prop :=
  gr u k = g ∧ (∀ j, j ≠ k → gr u j = gr s j) ∧ (∀ x ∈ ms, th u x = upd (th s x)) ∧ (∀ x, x ∉ ms → th u x = th s x) ∧
  { u with threads := s.threads, groups := s.groups } = s

/-- The threads of `ms` are changed by `upd`, and nothing else is changed. -/
def Rethreaded (s u : State) (ms : List Nat) (upd : Thread → Thread) : Prop :=
  (∀ x ∈ ms, th u x = upd (th s x)) ∧ (∀ x, x ∉ ms → th u x = th s x) ∧ { u with threads := s.threads } = s

theorem regrouped_setGr (s : State) (k : Nat) (g : Group) : Regrouped s (setGr s k g) k g [] id :=
  ⟨gr_setGr .., fun _ h => gr_setGr_ne _ _ h, nofun, fun _ _ => rfl, rfl⟩

theorem regrouped_refl (s : State) (k : Nat) : Regrouped s s k (gr s k) [] id := ⟨rfl, fun _ _ => rfl, nofun, fun _ _ => rfl, rfl⟩

/-- The table first, then the threads. -/
theorem Regrouped.rethreaded {t : State} {ms : List Nat} {upd : Thread → Thread} (h : Regrouped s u k g [] id)
    (ht : Rethreaded u t ms upd) : Regrouped s t k g ms upd := by
  obtain ⟨hk, hj, -, hth, ho⟩ := h
  obtain ⟨hin, hout, hrest⟩ := ht
  have hgr (j : Nat) : gr t j = gr u j := by
    rw [gr, gr, show t.groups = u.groups from (congrArg State.groups hrest :)]
  refine ⟨(hgr k).trans hk, fun j n => (hgr j).trans (hj j n), fun x n => ?_, fun x n => ?_, ?_⟩
  · rw [hin x n, hth x List.not_mem_nil]
  · rw [hout x n, hth x List.not_mem_nil]
  · exact (congrArg (fun x : State => { x with threads := s.threads, groups := s.groups }) hrest).trans ho

/-- The end of a word that has changed a group and the threads of `ms`, its own not among them. -/
theorem Regrouped.finish {ms : List Nat} {upd : Thread → Thread} (h : Regrouped s u k g ms upd) (hms : s.cur ∉ ms) (p : BitVec 1)
    (d : BitVec 5) (v : Word) :
    let t := finish (wr u d v) p
    Behind s t p ∧ Wrote s t d v ∧ gr t k = g ∧ (∀ j, j ≠ k → gr t j = gr s j) ∧ (∀ x ∈ ms, th t x = upd (th s x)) ∧
    regMask (me t) (me s) = me s ∧ (∀ j, j ≠ s.cur → j ∉ ms → th t j = th s j) ∧
    { t with threads := s.threads, last := s.last, groups := s.groups } = s := by
  intro t
  obtain ⟨hk, hj, hin, hout, ho⟩ := h
  have hcur : u.cur = s.cur := (congrArg State.cur ho :)
  have hme : me u = me s := by rw [me, hcur, hout _ hms]; rfl
  obtain ⟨hb, hw, hm, hth, hrest⟩ := wrote_finish_of_me hcur (congrArg State.slot ho :) hme p d v
  have hgr (j : Nat) : gr t j = gr u j := by rw [gr, gr, hrest.groups]
  refine ⟨hb, hw, (hgr k).trans hk, fun j n => (hgr j).trans (hj j n), fun x n => ?_, hm, fun j n n' => ?_, ?_⟩
  · rw [hth x fun e => hms (e ▸ n), hin x n]
  · rw [hth j n, hout j n']
  · have hlast : u.last = s.last := (congrArg State.last ho :)
    refine Eq.trans ?_ ho
    rw [← hlast]
    exact congrArg (fun x : State => { x with threads := s.threads, groups := s.groups }) hrest

/-- The end of a word that has changed a group alone. -/
theorem groupWord_setGr (s : State) (p : BitVec 1) (d : BitVec 5) (v : Word) (k : Nat) (g : Group) :
    GroupWord s (finish (wr (setGr s k g) d v) p) p d v k g := by
  obtain ⟨hb, hw, hk, hj, -, hm, hth, ho⟩ := (regrouped_setGr s k g).finish List.not_mem_nil p d v
  exact ⟨hb, hw, hk, hj, hm, fun j n => hth j n List.not_mem_nil, ho⟩

/-! ### Changes of threads, one after another -/

theorem rethreaded_setTh (s : State) (x : Nat) (upd : Thread → Thread) : Rethreaded s (setTh s x (upd (th s x))) [x] upd := by
  refine ⟨fun y hy => ?_, fun y hy => th_setTh_ne _ _ fun e => hy (e ▸ List.mem_singleton_self x), rfl⟩
  rw [List.mem_singleton.mp hy, th_setTh]

theorem rethreaded_nil (s : State) (upd : Thread → Thread) : Rethreaded s s [] upd := ⟨nofun, fun _ _ => rfl, rfl⟩

theorem Rethreaded.cons {t : State} {x : Nat} {ms : List Nat} {upd : Thread → Thread} (hupd : ∀ T, upd (upd T) = upd T)
    (h : Rethreaded s u [x] upd) (h' : Rethreaded u t ms upd) : Rethreaded s t (x :: ms) upd := by
  obtain ⟨hx, hne, ho⟩ := h
  obtain ⟨hin, hout, ho'⟩ := h'
  have hxx := hx x (List.mem_singleton_self x)
  have hyy (y : Nat) (hy : y ≠ x) := hne y fun e => hy (List.mem_singleton.mp e)
  refine ⟨fun y hy => ?_, fun y hy => ?_, (congrArg (fun u : State => { u with threads := s.threads }) ho').trans ho⟩
  · by_cases hm : y ∈ ms
    · rw [hin y hm]
      by_cases e : y = x
      · rw [e, hxx, hupd]
      · rw [hyy y e]
    · rw [hout y hm, (List.mem_cons.mp hy).resolve_right hm, hxx]
  · obtain ⟨e, hm⟩ := not_or.mp (mt List.mem_cons.mpr hy)
    rw [hout y hm, hyy y e]

/-- A fold over threads each of which is changed by `upd`; a thread that is listed twice is changed once. -/
theorem rethreaded_foldl {f : State → Nat → State} {upd : Thread → Thread} {ok : Nat → Thread → Prop}
    (hf : ∀ u x, ok x (th u x) → Rethreaded u (f u x) [x] upd) (hupd : ∀ T, upd (upd T) = upd T)
    (hok : ∀ x T, ok x T → ok x (upd T)) : ∀ (ms : List Nat) (s : State), (∀ x ∈ ms, ok x (th s x)) →
    Rethreaded s (ms.foldl f s) ms upd
  | [], s, _ => rethreaded_nil s upd
  | x :: ms, s, h => by
    have hx := hf s x (h x List.mem_cons_self)
    obtain ⟨hin, hne, -⟩ := id hx
    refine hx.cons hupd (rethreaded_foldl hf hupd hok ms (f s x) fun y hy => ?_)
    have hy' := h y (List.mem_cons_of_mem x hy)
    by_cases e : y ∈ [x]
    · rw [hin y e]
      exact hok y _ hy'
    · rwa [hne y e]

/-! ### Statuses -/

theorem statusOf_natCast (n : Nat) : statusOf (n : Int) = BitVec.ofNat 64 n := BitVec.ofInt_natCast ..

/-- A GRP word that gives a status and changes nothing. -/
theorem status_of_grpEnd {n : Int} (h : exec i s = .next (grpEnd s p d n)) : ∃ t, exec i s = .next t ∧ Status s t p d n :=
  ⟨_, h, regWord_finish s p d (statusOf n)⟩

/-- A GRP word that gives a number and changes nothing. -/
theorem regWord_of_grpEnd {n : Nat} (h : exec i s = .next (grpEnd s p d n)) :
    ∃ t, exec i s = .next t ∧ RegWord s t p d (BitVec.ofNat 64 n) :=
  ⟨_, h, statusOf_natCast n ▸ regWord_finish s p d (statusOf n)⟩

/-- A GRP word that gives a number and changes one group. -/
theorem groupWord_of_grpEnd {n : Nat} (h : exec i s = .next (grpEnd (setGr s k g) p d n)) :
    ∃ t, exec i s = .next t ∧ GroupWord s t p d (BitVec.ofNat 64 n) k g :=
  ⟨_, h, statusOf_natCast n ▸ groupWord_setGr s p d (statusOf n) k g⟩

/-- A GRP word that traps with its own word. -/
theorem trapTo_of_raise {w c : Nat} (hq : Quiet s) (he : encode i = some w) (h : exec i s = .next (raise s c (BitVec.ofNat 64 w))) :
    ∃ t w, encode i = some w ∧ exec i s = .next t ∧ TrapTo s t c (BitVec.ofNat 64 w) := ⟨_, w, he, h, trapTo_raise hq c _⟩

theorem holds_held (s : State) : Holds s (held s) := ⟨rfl, rfl, fun _ _ => rfl, rfl⟩

/-! ### The group that an identifier names -/

theorem grpNamed_inr {A : Word} (h : NamesGroup s A k) : grpNamed s A = .inr k := by
  obtain ⟨hk, hc⟩ := h
  rw [grpNamed, hk]
  exact if_pos hc

theorem grpNamed_unknown {A : Word} (h : groupKey s A.toNat = none) : grpNamed s A = .inl (-7) := by rw [grpNamed, h]

theorem grpNamed_foreign {A : Word} (h : groupKey s A.toNat = some k) (hc : (gr s k).ctx ≠ (me s).ctx) :
    grpNamed s A = .inl (-2) := by
  rw [grpNamed, h]
  exact if_neg hc

theorem used_of_namesGroup {A : Word} (h : NamesGroup s A k) : (gr s k).used = true := by
  obtain ⟨hk, -⟩ := h
  rw [groupKey] at hk
  split at hk
  next c => exact Option.some.inj hk ▸ c.2.2.2.1
  next => exact absurd hk nofun

theorem memberHere_iff : memberHere s k = true ↔ ∃ m ∈ (gr s k).members, m.2 = s.cur := by simp [memberHere]

/-! ### Without halo regions -/

theorem haloPush_noHalos (h : NoHalos s) (tid : Nat) (only : Option Nat) : haloPush s tid only = s := by
  obtain ⟨hh, hd⟩ := h
  have hmine (e : Nat × Byte) : haloMine s tid only (e.1 % 2 ^ 57) = false := by simp [haloMine, haloAt, hh]
  have hdirty : haloDirtyOf { s with haloRep := s.haloRep } tid = [] := by simp [haloDirtyOf, hd]
  simp only [haloPush, hmine, Bool.not_false, List.filter_true, hdirty, List.foldl_nil]

theorem haloBack_noHalos (h : NoHalos s) (tid : Nat) (only : Option Nat) : haloBack s tid only = s := by
  have hdirty : haloDirtyOf s tid = [] := by simp [haloDirtyOf, h.2]
  rw [haloBack, hdirty]
  rfl

theorem haloEndGang_noHalos (h : NoHalos s) (gid : Nat) : haloEndGang s gid = s := by
  rw [haloEndGang, h.1]
  rfl

theorem dissolve_noHalos (h : NoHalos s) (k : Nat) : dissolve s k = setGr s k (freed (gr s k)) := by
  rw [dissolve, haloEndGang_noHalos h]
  rfl

/-- The last member leaves (R206, R211). -/
theorem leaveGroup_last {tid : Nat} (h : NoHalos s) (hm : memberOf s tid = some (k, r)) (hl : (gr s k).members.length ≤ 1) :
    leaveGroup s tid = setGr s k (freed (gr s k)) := by
  rw [leaveGroup, hm]
  simp only [haloPush_noHalos h, haloBack_noHalos h, if_pos hl, dissolve_noHalos h]

theorem settleStop_of_ne (h : (gr s k).state ≠ .stopping) : settleStop s k = s := if_neg fun c => h c.2.1

/-- A member leaves others behind (R205, R211). -/
theorem leaveGroup_others {tid : Nat} (h : NoHalos s) (hm : memberOf s tid = some (k, r)) (hl : 2 ≤ (gr s k).members.length)
    (hs : (gr s k).state ≠ .stopping) :
    leaveGroup s tid = setGr s k { gr s k with members := (gr s k).members.filter fun m => m.2 ≠ tid } := by
  have hset := settleStop_of_ne (s := setGr s k { gr s k with members := (gr s k).members.filter fun m => m.2 ≠ tid }) (k := k)
    (by rwa [gr_setGr])
  rw [leaveGroup, hm]
  simp only [haloPush_noHalos h, haloBack_noHalos h, if_neg (show ¬(gr s k).members.length ≤ 1 by omega), hset]

end Sys2Proof
end

section
/-! PROOFS. Membership of groups (R204, R205, R209-R212). -/

namespace Sys2Proof

open Machine

variable {s : State} {p : BitVec 1} {d a b : BitVec 5} {k r : Nat} {g : Group} {A : Word}

/-! ### Free entries and free ranks -/

theorem freeGroup_eq_some (h : FreeEntry s k) : freeGroup s (partOf s s.cur) = some k := by
  obtain ⟨i, hi, rfl, hfree, hused⟩ := h
  have hleast : leastFrom (fun i => !(gr s (partOf s s.cur * 4096 + i)).used) 0 4096 = some i :=
    leastFrom_eq_some.mpr ⟨Nat.zero_le i, by simpa using hi, congrArg not hfree, fun j _ hj => congrArg not (hused j hj)⟩
  rw [freeGroup, hleast]
  rfl

theorem freeGroup_eq_none (h : ∀ j, ¬FreeEntry s j) : freeGroup s (partOf s s.cur) = none := by
  rw [freeGroup, Option.map_eq_none_iff]
  by_contra hne
  obtain ⟨i, hi⟩ := Option.ne_none_iff_exists'.mp hne
  obtain ⟨-, hlt, hfree, hused⟩ := leastFrom_eq_some.mp hi
  exact h _ ⟨i, by simpa using hlt, rfl, (Bool.not_eq_true' _).mp hfree,
    fun j hj => (Bool.not_eq_false' _).mp (hused j (Nat.zero_le j) hj)⟩

theorem freeRank_iff : FreeRank g r ↔ r ≤ 4095 ∧ rankThread g r = none := by simp [FreeRank, rankThread]

theorem freeRank_of_le (h : freeRank g ≤ 4095) : FreeRank g (freeRank g) := by
  refine freeRank_iff.mpr ⟨h, ?_⟩
  rw [freeRank] at h ⊢
  split at h
  next q hq => exact Option.isNone_iff_eq_none.mp (leastFrom_eq_some.mp hq).2.2.1
  next => exact absurd h (by decide)

theorem freeRank_eq (h : FreeRank g r) (hl : ∀ q < r, ¬FreeRank g q) : freeRank g = r := by
  obtain ⟨hr, hnone⟩ := freeRank_iff.mp h
  have hleast : leastFrom (fun r => (rankThread g r).isNone) 0 4097 = some r := by
    refine leastFrom_eq_some.mpr ⟨Nat.zero_le r, by omega, Option.isNone_iff_eq_none.mpr hnone, fun q _ hq => ?_⟩
    refine Bool.eq_false_iff.mpr fun hn => hl q hq (freeRank_iff.mpr ⟨by omega, Option.isNone_iff_eq_none.mp hn⟩)
  rw [freeRank, hleast]

theorem mem_insertMember {l : List (Nat × Nat)} {x : Nat} {m : Nat × Nat} : m ∈ insertMember l r x ↔ m = (r, x) ∨ m ∈ l := by
  induction l with
  | nil => simp [insertMember]
  | cons e l ih =>
    rw [insertMember]
    split
    · exact List.mem_cons
    · simp only [List.mem_cons, ih]
      exact or_left_comm

/-! ### A join to a group that is no gang -/

section Join

variable (hn : NamesGroup s A k) (hg : isGang (gr s k) = false) {o : Option Nat}

include hn hg

/-- The rank that is asked for, or else the lowest free one, is free. -/
theorem joinRefused_eq_none (h : FreeRank (gr s k) (o.getD (freeRank (gr s k)))) :
    joinRefused s A.toNat (me s).ctx o = none := by
  obtain ⟨hk, hc⟩ := hn
  obtain ⟨hle, hnone⟩ := freeRank_iff.mp h
  cases o with
  | none => simpa [joinRefused, hk, hc, hg] using hle
  | some q =>
    have hq : ¬4095 < q := Nat.not_lt.mpr hle
    have hthread : rankThread (gr s k) q = none := hnone
    simp [joinRefused, hk, hc, hg, hq, hthread]

theorem joinRefused_eq_taken (h : ¬FreeRank (gr s k) (o.getD (freeRank (gr s k)))) :
    joinRefused s A.toNat (me s).ctx o = some (-6) := by
  obtain ⟨hk, hc⟩ := hn
  cases o with
  | none =>
    have hfull : 4095 < freeRank (gr s k) := Nat.lt_of_not_le fun hle => h (freeRank_of_le hle)
    simp [joinRefused, hk, hc, hg, hfull]
  | some q =>
    have htaken : 4095 < q ∨ (rankThread (gr s k) q).isSome = true := by
      by_contra hne
      obtain ⟨hle, hnone⟩ := not_or.mp hne
      exact h (freeRank_iff.mpr ⟨Nat.not_lt.mp hle, Option.not_isSome_iff_eq_none.mp hnone⟩)
    simp [joinRefused, hk, hc, hg, htaken]

theorem state_eq_empty_or_opened : (gr s k).state = .empty ∨ (gr s k).state = .opened := by
  rw [isGang, used_of_namesGroup hn] at hg
  cases h : (gr s k).state <;> simp [h] at hg ⊢

theorem joinGroup_eq (x : Nat) (h : o.getD (freeRank (gr s k)) = r) : joinGroup s k x o =
    (setGr s k { gr s k with state := .opened, members := insertMember (gr s k).members r x }, r) := by
  have hstate : (if (gr s k).state = .empty then GroupState.opened else (gr s k).state) = .opened := by
    rcases state_eq_empty_or_opened hn hg with h | h
    · rw [h, if_pos rfl]
    · rw [h, if_neg (by decide)]
  rw [joinGroup, hstate, h]

end Join

/-! ### The operand of `grp.join` (R210) -/

/-- g[b] has the fields TGT, RK, RANK and THREAD, and zero where zero is required. -/
def JoinOperand (v : Word) (tgt rk : Bool) (rank who : Nat) : Prop :=
  bit v 63 = tgt ∧ bit v 62 = rk ∧ bits v 27 16 = rank ∧ bits v 13 0 = who ∧ bits v 61 28 = 0 ∧ bits v 15 14 = 0 ∧
  (tgt = false → who = 0) ∧ (rk = false → rank = 0)

theorem bit_eq_decide (v : Word) (n : Nat) : bit v n = decide (v.toNat / 2 ^ n % 2 = 1) := Nat.testBit_eq_decide_div_mod_eq

theorem joinOperand_of_toNat {v : Word} {tgt rk : Bool} {rank who : Nat} (hrank : rank < 4096) (hwho : who < 16384)
    (ht : tgt = false → who = 0) (hk : rk = false → rank = 0)
    (hv : v.toNat = tgt.toNat * 2 ^ 63 + rk.toNat * 2 ^ 62 + rank * 2 ^ 16 + who) : JoinOperand v tgt rk rank who := by
  have htgt := Bool.toNat_le tgt
  have hrk := Bool.toNat_le rk
  have hdecide (c : Bool) : decide (c.toNat = 1) = c := by cases c <;> rfl
  refine ⟨?_, ?_, ?_, ?_, ?_, ?_, ht, hk⟩
  · rw [bit_eq_decide, hv]
    exact (decide_eq_decide.mpr (by omega)).trans (hdecide tgt)
  · rw [bit_eq_decide, hv]
    exact (decide_eq_decide.mpr (by omega)).trans (hdecide rk)
  all_goals
    rw [bits, fld, hv]
    omega

/-- No bit is set where zero is required. -/
theorem JoinOperand.inOrder {v : Word} {tgt rk : Bool} {rank who : Nat} (h : JoinOperand v tgt rk rank who) :
    ¬(bits v 61 28 ≠ 0 ∨ bits v 15 14 ≠ 0 ∨ ((!(bit v 63)) = true ∧ bits v 13 0 ≠ 0) ∨
      ((!(bit v 62)) = true ∧ bits v 27 16 ≠ 0)) := by
  obtain ⟨rfl, rfl, rfl, rfl, hhigh, hmid, ht, hk⟩ := h
  simp only [hhigh, hmid, ne_eq, not_true_eq_false, false_or, Bool.not_eq_true', not_or, not_and, not_not]
  exact ⟨ht, hk⟩

/-! ### `grp.join` -/

/-- The checks and the effect of `grp.join` for the thread `x` and the rank `o`, once its operand is in order. -/
def joinEnd (s : State) (p : BitVec 1) (d : BitVec 5) (gid : Word) (tgt : Bool) (x : Nat) (o : Option Nat) : State :=
  match grpNamed s gid with
  | .inl n => grpEnd s p d n
  | .inr k =>
    if tgt ∧ (!(stoppedHere s x) ∨ (th s x).ctx ≠ (me s).ctx) then grpEnd s p d (-9)
    else if isGang (gr s k) then grpEnd s p d (-3)
    else if (memberOf s x).isSome then grpEnd s p d (-8)
    else
      match joinRefused s gid.toNat (me s).ctx o with
      | some n => grpEnd s p d n
      | none => grpEnd (joinGroup s k x o).1 p d (joinGroup s k x o).2

section Operand

variable {tgt rk : Bool} {rank who : Nat} (ho : JoinOperand (rd s b) tgt rk rank who)

include ho

theorem exec_grpJoin_of_user (ht : tgt = true) (hp : (me s).priv = .user) :
    exec (.grpJoin p d a b) s = .next (raise s 3 (BitVec.ofNat 64 (wordGrpJoin p d a b))) := by
  have hin := ho.inOrder
  obtain ⟨h63, -⟩ := ho
  exact congrArg Host.Outcome.next ((if_neg hin).trans (if_pos ⟨h63.trans ht, hp⟩))

theorem exec_grpJoin_of_operand (hp : tgt = true → (me s).priv ≠ .user) :
    exec (.grpJoin p d a b) s =
      .next (joinEnd s p d (rd s a) tgt (if tgt then who else s.cur) (if rk then some rank else none)) := by
  have hin := ho.inOrder
  obtain ⟨rfl, rfl, rfl, rfl, -⟩ := ho
  exact congrArg Host.Outcome.next ((if_neg hin).trans (if_neg fun c => hp c.1 c.2))

end Operand

section JoinEnd

variable {gid : Word} {tgt : Bool} {x : Nat} {o : Option Nat}

theorem joinEnd_unnamed {n : Int} (h : grpNamed s gid = .inl n) : joinEnd s p d gid tgt x o = grpEnd s p d n := by
  rw [joinEnd, h]

/-- The target is one that may join. -/
theorem not_noTarget (hx : tgt = true → (th s x).state = .stopped ∧ (th s x).ctx = (me s).ctx) :
    ¬(tgt = true ∧ ((!(stoppedHere s x)) = true ∨ (th s x).ctx ≠ (me s).ctx)) := by
  rintro ⟨ht, h⟩
  obtain ⟨hs, hc⟩ := hx ht
  exact h.elim (fun h => by simp [stoppedHere, hs] at h) fun h => h hc

variable (hn : NamesGroup s gid k)

include hn

theorem joinEnd_noTarget (ht : tgt = true) (hx : (th s x).state ≠ .stopped ∨ (th s x).ctx ≠ (me s).ctx) :
    joinEnd s p d gid tgt x o = grpEnd s p d (-9) := by
  rw [joinEnd, grpNamed_inr hn]
  exact if_pos ⟨ht, hx.imp_left fun h => by simpa [stoppedHere] using h⟩

variable (hx : tgt = true → (th s x).state = .stopped ∧ (th s x).ctx = (me s).ctx)

include hx

theorem joinEnd_gang (hg : isGang (gr s k) = true) : joinEnd s p d gid tgt x o = grpEnd s p d (-3) := by
  rw [joinEnd, grpNamed_inr hn]
  exact (if_neg (not_noTarget hx)).trans (if_pos hg)

variable (hg : isGang (gr s k) = false)

include hg

theorem joinEnd_member (hm : memberOf s x ≠ none) : joinEnd s p d gid tgt x o = grpEnd s p d (-8) := by
  rw [joinEnd, grpNamed_inr hn]
  exact ((if_neg (not_noTarget hx)).trans (if_neg (Bool.eq_false_iff.mp hg))).trans
    (if_pos (Option.isSome_iff_ne_none.mpr hm))

variable (hm : memberOf s x = none)

include hm

theorem joinEnd_taken (h : ¬FreeRank (gr s k) (o.getD (freeRank (gr s k)))) :
    joinEnd s p d gid tgt x o = grpEnd s p d (-6) := by
  rw [joinEnd, grpNamed_inr hn, joinRefused_eq_taken hn hg h, hm]
  exact (if_neg (not_noTarget hx)).trans (if_neg (Bool.eq_false_iff.mp hg))

theorem joinEnd_joins (h : FreeRank (gr s k) r) (hr : o.getD (freeRank (gr s k)) = r) : joinEnd s p d gid tgt x o =
    grpEnd (setGr s k { gr s k with state := .opened, members := insertMember (gr s k).members r x }) p d r := by
  rw [joinEnd, grpNamed_inr hn, joinRefused_eq_none hn hg (hr ▸ h), hm]
  refine (if_neg (not_noTarget hx)).trans ((if_neg (Bool.eq_false_iff.mp hg)).trans ?_)
  show grpEnd (joinGroup s k x o).1 p d (joinGroup s k x o).2 = _
  rw [joinGroup_eq hn hg x hr]

end JoinEnd

/-! ### `grp.new`, `grp.leave`, `grp.size` and `grp.rank` -/

/-- A group written twice holds what was written last. -/
theorem tput_tput {α : Type} (t : Tab α) (k : Nat) (v w : α) : tput (tput t k v) k w = tput t k w := by
  induction t with
  | nil => simp [tput]
  | cons e t ih =>
    obtain ⟨i, x⟩ := e
    simp only [tput]
    split
    · simp [tput]
    · split
      · simp [tput]
      · simp [tput, *]

theorem setGr_setGr (s : State) (k : Nat) (g h : Group) : setGr (setGr s k g) k h = setGr s k h :=
  congrArg (fun t => { s with groups := t }) (tput_tput s.groups k g h)

theorem exec_grpNew_empty (hf : FreeEntry s k) (h : rd s a = 0) : exec (.grpNew p d a) s =
    .next (finish (wr (setGr s k
      { gen := (gr s k).gen, used := true, state := .empty, ctx := (me s).ctx, members := [] }) d
      (BitVec.ofNat 64 (groupId s k))) p) := by
  show execGrpNew p d a s = _
  simp [execGrpNew, h, freeGroup_eq_some hf, newGroup, groupId, gidOf]

theorem exec_grpNew_joined (hf : FreeEntry s k) (h : rd s a = 1) (hm : memberOf s s.cur = none) : exec (.grpNew p d a) s =
    .next (finish (wr (setGr s k
      { gen := (gr s k).gen, used := true, state := .opened, ctx := (me s).ctx, members := [(0, s.cur)] }) d
      (BitVec.ofNat 64 (groupId s k))) p) := by
  show execGrpNew p d a s = _
  simp [execGrpNew, h, hm, freeGroup_eq_some hf, newGroup, joinGroup, insertMember, setGr_setGr, groupId, gidOf]

theorem exec_grpNew_member (h : rd s a = 1) (hm : memberOf s s.cur ≠ none) :
    exec (.grpNew p d a) s = .next (grpEnd s p d (-8)) := by
  show execGrpNew p d a s = _
  simp [execGrpNew, h, Option.isSome_iff_ne_none.mpr hm]

theorem exec_grpNew_full (h : rd s a = 0 ∨ (rd s a = 1 ∧ memberOf s s.cur = none)) (hf : ∀ j, ¬FreeEntry s j) :
    exec (.grpNew p d a) s = .next (grpEnd s p d (-1)) := by
  show execGrpNew p d a s = _
  rcases h with h | ⟨h, hm⟩
  · simp [execGrpNew, h, freeGroup_eq_none hf]
  · simp [execGrpNew, h, hm, freeGroup_eq_none hf]

theorem exec_grpSize_named (h : rd s a ≠ 0) (hn : NamesGroup s (rd s a) k) :
    exec (.grpSize p d a) s = .next (grpEnd s p d (gr s k).members.length) := by
  refine congrArg Host.Outcome.next ((if_neg h).trans ?_)
  rw [grpNamed_inr hn]

theorem exec_grpSize_unnamed {n : Int} (h : rd s a ≠ 0) (hn : grpNamed s (rd s a) = .inl n) :
    exec (.grpSize p d a) s = .next (grpEnd s p d n) := by
  refine congrArg Host.Outcome.next ((if_neg h).trans ?_)
  rw [hn]

section Member

variable (hm : memberOf s s.cur = some (k, r))

include hm

theorem exec_grpLeave_member : exec (.grpLeave p d) s = .next (grpEnd (leaveGroup s s.cur) p d r) := by
  refine congrArg Host.Outcome.next ?_
  rw [hm]

theorem exec_grpRank_member : exec (.grpRank p d) s = .next (grpEnd s p d r) := by
  refine congrArg Host.Outcome.next ?_
  rw [hm]

theorem exec_grpSize_member (h : rd s a = 0) : exec (.grpSize p d a) s = .next (grpEnd s p d (gr s k).members.length) := by
  refine congrArg Host.Outcome.next ((if_pos h).trans ?_)
  rw [hm]

end Member

section Alone

variable (hm : memberOf s s.cur = none)

include hm

theorem exec_grpLeave_alone : exec (.grpLeave p d) s = .next (grpEnd s p d (-10)) := by
  refine congrArg Host.Outcome.next ?_
  rw [hm]

theorem exec_grpRank_alone : exec (.grpRank p d) s = .next (grpEnd s p d (-10)) := by
  refine congrArg Host.Outcome.next ?_
  rw [hm]

theorem exec_grpSize_alone (h : rd s a = 0) : exec (.grpSize p d a) s = .next (grpEnd s p d (-10)) := by
  refine congrArg Host.Outcome.next ((if_pos h).trans ?_)
  rw [hm]

end Alone

/-- Settles O32: each word ends in the case that its hypotheses name. -/
theorem groupMembership : Obligations.GroupMembership := by
  unfold Obligations.GroupMembership
  intro s p d a b k r A g
  refine ⟨fun hf => ⟨fun h => ?_, fun h hm => ?_⟩, fun h hm => ?_, fun h hf => ?_, fun h hq => ?_,
    fun tgt rk rank who hrank hwho ht hk hv => ?_, fun hm => ⟨fun hh hs => ⟨fun hl => ?_, fun hl => ?_⟩, ?_, fun h => ?_⟩,
    fun hm => ⟨?_, ?_, fun h => ?_⟩, fun h => ⟨fun hn => ?_, fun hn => ?_, fun hn hc => ?_⟩⟩
  · exact ⟨_, exec_grpNew_empty hf h, groupWord_setGr ..⟩
  · exact ⟨_, exec_grpNew_joined hf h hm, groupWord_setGr ..⟩
  · exact status_of_grpEnd (exec_grpNew_member h hm)
  · exact status_of_grpEnd (exec_grpNew_full h hf)
  · exact trapTo_of_raise hq rfl (congrArg Host.Outcome.next (if_pos h))
  · have ho := joinOperand_of_toNat hrank hwho ht hk hv
    intro x
    refine ⟨fun h hp hq => trapTo_of_raise hq rfl (exec_grpJoin_of_user ho h hp), fun hp => ?_⟩
    have he : exec (.grpJoin p d a b) s = .next (joinEnd s p d A tgt x (if rk then some rank else none)) :=
      exec_grpJoin_of_operand ho hp
    refine ⟨fun hn => ?_, fun hn hc => ?_, fun hn => ⟨fun h hx => ?_, fun hx => ?_⟩⟩
    · exact status_of_grpEnd (he.trans (congrArg _ (joinEnd_unnamed (grpNamed_unknown hn))))
    · exact status_of_grpEnd (he.trans (congrArg _ (joinEnd_unnamed (grpNamed_foreign hn hc))))
    · have hxw : x = who := if_pos h
      exact status_of_grpEnd (he.trans (congrArg _ (joinEnd_noTarget hn h (hxw ▸ hx))))
    · replace hx : tgt = true → (th s x).state = .stopped ∧ (th s x).ctx = (me s).ctx := fun h => by
        rw [show x = who from if_pos h]
        exact hx h
      refine ⟨fun hg => status_of_grpEnd (he.trans (congrArg _ (joinEnd_gang hn hx hg))), fun hg => ⟨fun hm => ?_, fun hm => ?_⟩⟩
      · exact status_of_grpEnd (he.trans (congrArg _ (joinEnd_member hn hx hg hm)))
      · refine ⟨fun htaken => status_of_grpEnd (he.trans (congrArg _ (joinEnd_taken hn hx hg hm fun hfree => ?_))),
          fun hfree hleast => ⟨_, _, he.trans (congrArg _ (joinEnd_joins hn hx hg hm hfree ?_)), fun m => mem_insertMember, ?_⟩⟩
        · cases rk with
          | true => exact htaken hfree
          | false => exact htaken _ (Nat.lt_succ_of_le hfree.1) hfree
        · cases rk with
          | true => exact hleast.symm
          | false => exact freeRank_eq hfree hleast
        · rw [← statusOf_natCast]
          exact groupWord_setGr ..
  · exact groupWord_of_grpEnd (by rw [exec_grpLeave_member hm, leaveGroup_others hh hm hl hs])
  · exact groupWord_of_grpEnd (by rw [exec_grpLeave_member hm, leaveGroup_last hh hm hl.le])
  · exact regWord_of_grpEnd (exec_grpRank_member hm)
  · exact regWord_of_grpEnd (exec_grpSize_member hm h)
  · exact status_of_grpEnd (exec_grpLeave_alone hm)
  · exact status_of_grpEnd (exec_grpRank_alone hm)
  · exact status_of_grpEnd (exec_grpSize_alone hm h)
  · exact regWord_of_grpEnd (exec_grpSize_named h hn)
  · exact status_of_grpEnd (exec_grpSize_unnamed h (grpNamed_unknown hn))
  · exact status_of_grpEnd (exec_grpSize_unnamed h (grpNamed_foreign hn hc))

end Sys2Proof
end

section
/-! PROOFS. Gangs: pinning, stop and go (R206, R208, R213, R215, R216). -/

namespace Sys2Proof

open Machine

variable {s u : State} {i : Instr} {p : BitVec 1} {d a b : BitVec 5} {k : Nat} {g : Group} {A : Word}

/-! ### `grp.pin` and `grp.unpin` -/

section Pin

variable (hn : NamesGroup s (rd s a) k) (hu : (me s).priv = .user → ∃ m ∈ (gr s k).members, m.2 = s.cur)

include hn hu

theorem grpPinNamed_inr : grpPinNamed s (rd s a) = .inr k := by
  rw [grpPinNamed, grpNamed_inr hn]
  refine if_neg fun ⟨h, h'⟩ => ?_
  rw [memberHere_iff.mpr (hu h)] at h'
  exact absurd h' (by decide)

theorem exec_grpPin_gang (hg : isGang (gr s k) = true) : exec (.grpPin p d a) s = .next (grpEnd s p d (0 : Nat)) := by
  refine congrArg Host.Outcome.next ?_
  rw [grpPinNamed_inr hn hu]
  exact if_pos hg

/-- Without a gang `grp.pin` looks at the members. -/
theorem exec_grpPin_open (hg : isGang (gr s k) = false) : exec (.grpPin p d a) s = .next (
    if (gr s k).members.isEmpty then grpEnd s p d (-3)
    else if (gr s k).members.all fun m => stoppedHere s m.2 then grpEnd (setGr s k { gr s k with state := .held }) p d (0 : Nat)
    else if (gr s k).members.any fun m => stoppedHere s m.2 then grpEnd s p d (-4)
    else grpEnd (setGr s k { gr s k with state := .pinned }) p d (0 : Nat)) := by
  refine congrArg Host.Outcome.next ?_
  rw [grpPinNamed_inr hn hu]
  exact if_neg (Bool.eq_false_iff.mp hg)

section Members

variable (hg : isGang (gr s k) = false)

include hg

/-- No member is Stopped. -/
theorem exec_grpPin_running (hne : (gr s k).members ≠ []) (h : ∀ m ∈ (gr s k).members, ¬(th s m.2).state = .stopped) :
    exec (.grpPin p d a) s = .next (grpEnd (setGr s k { gr s k with state := .pinned }) p d (0 : Nat)) := by
  have hany : ¬((gr s k).members.any fun m => stoppedHere s m.2) = true := fun c =>
    let ⟨m, hm, hs⟩ := List.any_eq_true.mp c
    h m hm (beq_iff_eq.mp hs)
  have hall : ¬((gr s k).members.all fun m => stoppedHere s m.2) = true := fun c =>
    let ⟨m, hm⟩ := List.exists_mem_of_ne_nil _ hne
    h m hm (beq_iff_eq.mp (List.all_eq_true.mp c m hm))
  rw [exec_grpPin_open hn hu hg, if_neg (mt List.isEmpty_iff.mp hne), if_neg hall, if_neg hany]

/-- Every member is Stopped. -/
theorem exec_grpPin_stopped (hne : (gr s k).members ≠ []) (h : ∀ m ∈ (gr s k).members, (th s m.2).state = .stopped) :
    exec (.grpPin p d a) s = .next (grpEnd (setGr s k { gr s k with state := .held }) p d (0 : Nat)) := by
  have hall : ((gr s k).members.all fun m => stoppedHere s m.2) = true :=
    List.all_eq_true.mpr fun m hm => beq_iff_eq.mpr (h m hm)
  rw [exec_grpPin_open hn hu hg, if_neg (mt List.isEmpty_iff.mp hne), if_pos hall]

/-- Some members are Stopped and some are not. -/
theorem exec_grpPin_mixed (h : ∃ m ∈ (gr s k).members, (th s m.2).state = .stopped)
    (h' : ∃ m ∈ (gr s k).members, ¬(th s m.2).state = .stopped) : exec (.grpPin p d a) s = .next (grpEnd s p d (-4)) := by
  obtain ⟨m, hm, hs⟩ := h
  obtain ⟨m', hm', hs'⟩ := h'
  have hall : ¬((gr s k).members.all fun m => stoppedHere s m.2) = true := fun c =>
    hs' (beq_iff_eq.mp (List.all_eq_true.mp c m' hm'))
  have hany : ((gr s k).members.any fun m => stoppedHere s m.2) = true := List.any_eq_true.mpr ⟨m, hm, beq_iff_eq.mpr hs⟩
  rw [exec_grpPin_open hn hu hg, if_neg (mt List.isEmpty_iff.mp (List.ne_nil_of_mem hm)), if_neg hall, if_pos hany]

end Members

theorem exec_grpUnpin_stopping (hs : (gr s k).state = .stopping) : exec (.grpUnpin p d a) s = .next (held s) := by
  refine congrArg Host.Outcome.next ?_
  rw [grpPinNamed_inr hn hu]
  exact if_pos hs

variable (hs : (gr s k).state ≠ .stopping)

include hs

theorem exec_grpUnpin_open (hg : isGang (gr s k) = false) : exec (.grpUnpin p d a) s = .next (grpEnd s p d (0 : Nat)) := by
  refine congrArg Host.Outcome.next ?_
  rw [grpPinNamed_inr hn hu]
  exact (if_neg hs).trans (if_neg (Bool.eq_false_iff.mp hg))

theorem exec_grpUnpin_gang (hg : isGang (gr s k) = true) (hh : NoHalos s) :
    exec (.grpUnpin p d a) s = .next (grpEnd (setGr s k { gr s k with state := .opened }) p d (0 : Nat)) := by
  refine congrArg Host.Outcome.next ?_
  rw [grpPinNamed_inr hn hu]
  refine (if_neg hs).trans ((if_pos hg).trans ?_)
  rw [haloEndGang_noHalos hh]
  rfl

end Pin

/-! ### The members of a group that the issuer is not in -/

/-- A word that changes a group and its members, and gives their number. -/
theorem Regrouped.members {l : List (Nat × Nat)} {upd : Thread → Thread} (h : Regrouped s u k g (l.map (·.2)) upd)
    (hl : ∀ m ∈ l, m.2 ≠ s.cur) (he : exec i s = .next (grpEnd u p d l.length)) : ∃ t, exec i s = .next t ∧ Behind s t p ∧
    Wrote s t d (BitVec.ofNat 64 l.length) ∧ gr t k = g ∧ (∀ j, j ≠ k → gr t j = gr s j) ∧
    (∀ m ∈ l, th t m.2 = upd (th s m.2)) ∧ regMask (me t) (me s) = me s ∧
    (∀ j, j ≠ s.cur → (∀ m ∈ l, m.2 ≠ j) → th t j = th s j) ∧
    { t with threads := s.threads, last := s.last, groups := s.groups } = s := by
  have hcur : s.cur ∉ l.map (·.2) := fun c =>
    let ⟨m, hm, e⟩ := List.mem_map.mp c
    hl m hm e
  obtain ⟨hb, hw, hk, hj, hin, hm, hout, ho⟩ := h.finish hcur p d (statusOf l.length)
  rw [statusOf_natCast] at hw
  refine ⟨_, he, hb, hw, hk, hj, fun m n => hin _ (List.mem_map_of_mem n), hm, fun j n n' => hout j n fun c => ?_, ho⟩
  obtain ⟨m, hm, e⟩ := List.mem_map.mp c
  exact n' m hm e

/-- A group in state `x` goes to state `y`, any other stays. -/
theorem regrouped_state (s : State) (k : Nat) (x y : GroupState) :
    Regrouped s (if (gr s k).state = x then setGr s k { gr s k with state := y } else s) k
      { gr s k with state := if (gr s k).state = x then y else (gr s k).state } [] id := by
  split
  · exact regrouped_setGr ..
  · exact regrouped_refl ..

theorem memberHere_eq_false (h : ∀ m ∈ (gr s k).members, m.2 ≠ s.cur) : memberHere s k = false :=
  Bool.eq_false_iff.mpr fun c => let ⟨m, hm, e⟩ := memberHere_iff.mp c; h m hm e

/-! ### `grp.stop` -/

/-- A thread marked for stopping (R215). -/
def stopMarked (ctr : Option Loc) (addr : Word) (T : Thread) : Thread := { T with stop := some { ctr := ctr, addr := addr } }

theorem rethreaded_grpMark (s : State) (ctr : Option Loc) (addr : Word) (ms : List Nat) :
    Rethreaded s (ms.foldl (fun s t => grpMark s ctr addr t) s) ms (stopMarked ctr addr) :=
  rethreaded_foldl (ok := fun _ _ => True) (fun u x _ => rethreaded_setTh u x (stopMarked ctr addr)) (fun _ => rfl)
    (fun _ _ _ => trivial) ms s fun _ _ => trivial

/-- A Ready thread does not stop before its next boundary (R215). -/
theorem foldl_grpHalt_ready {ms : List Nat} (h : ∀ x ∈ ms, (th s x).state = .ready) : ms.foldl grpHalt s = s := by
  induction ms with
  | nil => rfl
  | cons x ms ih =>
    have hx : grpHalt s x = s := by rw [grpHalt, h x List.mem_cons_self]
    rw [List.foldl_cons, hx, ih fun y hy => h y (List.mem_cons_of_mem x hy)]

/-- A stop is in progress while a member is marked (R206). -/
theorem settleStop_of_marked {m : Nat × Nat} (hm : m ∈ (gr s k).members) (h : (th s m.2).stop.isSome = true) :
    settleStop s k = s := by
  refine if_neg fun c => ?_
  have hany : ((gr s k).members.any fun m => (th s m.2).stop.isSome) = true := List.any_eq_true.mpr ⟨m, hm, h⟩
  rw [hany] at c
  exact absurd c.2.2 (by decide)

/-- Ready members are marked, and none stops at once. -/
theorem grpStopAll_ready (ctr : Option Loc) (addr : Word) (hne : (gr s k).members ≠ [])
    (h : ∀ m ∈ (gr s k).members, (th s m.2).state = .ready ∧ (th s m.2).stop = none) :
    ∃ u, grpStopAll s k ctr addr = (u, (gr s k).members.length) ∧
      Regrouped s u k { gr s k with state := if (gr s k).state = .pinned then .stopping else (gr s k).state }
        ((gr s k).members.map (·.2)) (stopMarked ctr addr) := by
  have hall : (((gr s k).members.map (·.2)).filter fun t => !(stoppedHere s t) && (th s t).stop.isNone) =
      (gr s k).members.map (·.2) := by
    refine List.filter_eq_self.mpr fun x hx => ?_
    obtain ⟨m, hm, rfl⟩ := List.mem_map.mp hx
    obtain ⟨hready, hstop⟩ := h m hm
    simp [stoppedHere, hready, hstop]
  have hu := (regrouped_state s k .pinned .stopping).rethreaded (rethreaded_grpMark _ ctr addr ((gr s k).members.map (·.2)))
  refine ⟨_, ?_, hu⟩
  obtain ⟨hk, -, hin, -, -⟩ := hu
  have hmarked (m : Nat × Nat) (hm : m ∈ (gr s k).members) := hin m.2 (List.mem_map_of_mem hm)
  obtain ⟨m, hm⟩ := List.exists_mem_of_ne_nil _ hne
  rw [grpStopAll, hall]
  refine Prod.ext ?_ (List.length_map ..)
  dsimp only
  rw [foldl_grpHalt_ready fun x hx => ?_, settleStop_of_marked (m := m) (by rw [hk]; exact hm) (by rw [hmarked m hm]; rfl)]
  obtain ⟨m, hm, rfl⟩ := List.mem_map.mp hx
  rw [hmarked m hm]
  exact (h m hm).1

theorem exec_grpStop_outside (hp : (me s).priv ≠ .user) (hn : NamesGroup s (rd s a) k)
    (hl : ∀ m ∈ (gr s k).members, m.2 ≠ s.cur) (hb : rd s b = 0) {n : Nat} (h : grpStopAll s k none 0 = (u, n)) :
    exec (.grpStop p d a b) s = .next (grpEnd u p d n) := by
  refine congrArg Host.Outcome.next ((if_neg hp).trans ?_)
  rw [grpNamed_inr hn]
  refine (if_neg (Bool.eq_false_iff.mp (memberHere_eq_false hl))).trans ((if_pos hb).trans ?_)
  rw [h]

theorem exec_grpStop_member (hp : (me s).priv ≠ .user) (hn : NamesGroup s (rd s a) k)
    (hl : ∃ m ∈ (gr s k).members, m.2 = s.cur) : exec (.grpStop p d a b) s = .next (raise s 21 (rd s a)) := by
  refine congrArg Host.Outcome.next ((if_neg hp).trans ?_)
  rw [grpNamed_inr hn]
  exact if_pos (memberHere_iff.mpr hl)

/-! ### `grp.go` -/

/-- A thread after `grp.go`: a Stopped one that was not parked is Ready, to issue its bundle anew (R53, R216). -/
def resumed (T : Thread) : Thread := if T.state = .stopped then { T with state := .ready, saved := none, reissue := false } else T

theorem resumed_of_stopped {T : Thread} (h : T.state = .stopped) :
    resumed T = { T with state := .ready, saved := none, reissue := false } := if_pos h

theorem resumed_resumed (T : Thread) : resumed (resumed T) = resumed T := by
  by_cases h : T.state = .stopped
  · rw [resumed_of_stopped h]
    exact if_neg (c := SlotState.ready = .stopped) (by decide)
  · have hsame : resumed T = T := if_neg h
    rw [hsame, hsame]

theorem resumed_prior (T : Thread) : (resumed T).prior = T.prior := by
  rw [resumed]
  split <;> rfl

theorem rethreaded_resume {x : Nat} (hp : (th s x).prior ≠ .parked) (hx : x % 16 ≠ 15) : Rethreaded s (resume s x) [x] resumed := by
  have hset : resume s x = setTh s x (resumed (th s x)) ∨ ((th s x).state ≠ .stopped ∧ resume s x = s) := by
    by_cases h : (th s x).state = .stopped
    · left
      rw [resume, if_neg (not_not.mpr h), resumed_of_stopped h]
      dsimp only
      rw [if_neg fun c => hx c.1]
      split
      next w e _ => exact absurd e hp
      next => rfl
    · exact .inr ⟨h, if_pos h⟩
  rcases hset with h | ⟨hs, h⟩
  · rw [h]
    exact rethreaded_setTh s x resumed
  · rw [h]
    refine ⟨fun y hy => ?_, fun _ _ => rfl, rfl⟩
    rw [List.mem_singleton.mp hy, resumed, if_neg hs]

theorem rethreaded_foldl_resume {ms : List Nat} (h : ∀ x ∈ ms, (th s x).prior ≠ .parked ∧ x % 16 ≠ 15) :
    Rethreaded s (ms.foldl resume s) ms resumed :=
  rethreaded_foldl (ok := fun x T => T.prior ≠ .parked ∧ x % 16 ≠ 15) (fun _ _ c => rethreaded_resume c.1 c.2) resumed_resumed
    (fun _ T c => ⟨by rw [resumed_prior]; exact c.1, c.2⟩) ms s h

/-- The members of a group are resumed; a Held gang is Pinned. -/
theorem regrouped_go (h : ∀ m ∈ (gr s k).members,
    (th s m.2).state = .stopped ∧ (th s m.2).stop = none ∧ (th s m.2).prior ≠ .parked ∧ m.2 % 16 ≠ 15) :
    Regrouped s (((gr s k).members.map (·.2)).foldl resume
        (if (gr s k).state = .held then setGr s k { gr s k with state := .pinned } else s)) k
      { gr s k with state := if (gr s k).state = .held then .pinned else (gr s k).state } ((gr s k).members.map (·.2)) resumed := by
  have hstate := regrouped_state s k .held .pinned
  refine hstate.rethreaded (rethreaded_foldl_resume fun x hx => ?_)
  obtain ⟨m, hm, rfl⟩ := List.mem_map.mp hx
  obtain ⟨-, -, hprior, hslot⟩ := h m hm
  obtain ⟨-, -, -, hth, -⟩ := hstate
  rw [hth m.2 List.not_mem_nil]
  exact ⟨hprior, hslot⟩

section Go

variable (hp : (me s).priv ≠ .user) (hn : NamesGroup s (rd s a) k)

include hp hn

theorem exec_grpGo_holds (h : ∃ m ∈ (gr s k).members, (th s m.2).stop ≠ none) : exec (.grpGo p d a) s = .next (held s) := by
  refine congrArg Host.Outcome.next ((if_neg hp).trans ?_)
  rw [grpNamed_inr hn]
  refine if_pos (List.any_eq_true.mpr ?_)
  obtain ⟨m, hm, hs⟩ := h
  exact ⟨m, hm, Option.isSome_iff_ne_none.mpr hs⟩

theorem exec_grpGo_stopped (h : ∀ m ∈ (gr s k).members, (th s m.2).state = .stopped ∧ (th s m.2).stop = none) :
    exec (.grpGo p d a) s = .next (grpEnd (((gr s k).members.map (·.2)).foldl resume
      (if (gr s k).state = .held then setGr s k { gr s k with state := .pinned } else s)) p d (gr s k).members.length) := by
  have hall : ((gr s k).members.map (·.2)).filter (stoppedHere s) = (gr s k).members.map (·.2) := by
    refine List.filter_eq_self.mpr fun x hx => ?_
    obtain ⟨m, hm, rfl⟩ := List.mem_map.mp hx
    simp [stoppedHere, (h m hm).1]
  have hnone : ((gr s k).members.any fun m => (th s m.2).stop.isSome) = false :=
    List.any_eq_false.mpr fun m hm => by simp [(h m hm).2]
  refine congrArg Host.Outcome.next ((if_neg hp).trans ?_)
  rw [grpNamed_inr hn]
  refine (if_neg (Bool.eq_false_iff.mp hnone)).trans ?_
  rw [hall]
  exact congrArg (fun n : Nat => grpEnd _ p d n) (List.length_map ..)

end Go

end Sys2Proof
end

section
/-! PROOFS. The end of a group's members in `grp.kill`, where no core has a tile command (R206, R217). -/

namespace Sys2Proof

open Machine

variable {s u : State} {p : BitVec 1} {d a : BitVec 5} {k r x : Nat}

/-! ### Cores without tile commands -/

theorem forall_mem_tput {α : Type} {P : α → Prop} {t : Tab α} {n : Nat} {v : α} (hv : P v) (h : ∀ e ∈ t, P e.2) :
    ∀ e ∈ tput t n v, P e.2 := by
  induction t with
  | nil => simpa [tput] using hv
  | cons e t ih =>
    obtain ⟨he, ht⟩ := List.forall_mem_cons.mp h
    rw [tput]
    split
    · exact List.forall_mem_cons.mpr ⟨hv, h⟩
    · split
      · exact List.forall_mem_cons.mpr ⟨hv, ht⟩
      · exact List.forall_mem_cons.mpr ⟨he, ih ht⟩

theorem tget_of_forall_mem {α : Type} {P : α → Prop} {t : Tab α} {z : α} (hz : P z) (h : ∀ e ∈ t, P e.2) (n : Nat) :
    P (tget t n z) := by
  induction t with
  | nil => exact hz
  | cons e t ih =>
    obtain ⟨he, ht⟩ := List.forall_mem_cons.mp h
    rw [tget]
    split
    · exact he
    · exact ih ht

/-- No core has a tile command, or tile state of an ended thread to release. -/
def NoTiles (s : State) : Prop := ∀ e ∈ s.cores, e.2.tq = [] ∧ e.2.relPending = false

theorem NoTiles.co (h : NoTiles s) (n : Nat) : (co s n).tq = [] ∧ (co s n).relPending = false :=
  tget_of_forall_mem (P := fun c : Core => c.tq = [] ∧ c.relPending = false) ⟨rfl, rfl⟩ h n

theorem NoTiles.setCo (h : NoTiles s) (n : Nat) {c : Core} (hq : c.tq = []) (hr : c.relPending = false) :
    NoTiles (setCo s n c) :=
  forall_mem_tput (P := fun c : Core => c.tq = [] ∧ c.relPending = false) ⟨hq, hr⟩ h

theorem NoTiles.tileEnding (h : NoTiles s) : tileEnding s = false :=
  List.any_eq_false.mpr fun e he => by simp [(h e he).1]

/-- What the tile units do without a command: cores, benches and the table of threads may be written, but no core gets a command
and no thread changes. -/
structure TilesOnly (s u : State) : Prop where
  noTiles : NoTiles u
  th : ∀ j, th u j = th s j
  rest : { u with threads := s.threads, cores := s.cores, benches := s.benches } = s

namespace TilesOnly

theorem groups (h : TilesOnly s u) : u.groups = s.groups := (congrArg State.groups h.rest :)
theorem kernels (h : TilesOnly s u) : u.kernels = s.kernels := (congrArg State.kernels h.rest :)
theorem waiters (h : TilesOnly s u) : u.waiters = s.waiters := (congrArg State.waiters h.rest :)
theorem arms (h : TilesOnly s u) : u.arms = s.arms := (congrArg State.arms h.rest :)
theorem mem (h : TilesOnly s u) : u.mem = s.mem := (congrArg State.mem h.rest :)
theorem cur (h : TilesOnly s u) : u.cur = s.cur := (congrArg State.cur h.rest :)
theorem slot (h : TilesOnly s u) : u.slot = s.slot := (congrArg State.slot h.rest :)

theorem trans {t : State} (h : TilesOnly s u) (h' : TilesOnly u t) : TilesOnly s t where
  noTiles := h'.noTiles
  th j := (h'.th j).trans (h.th j)
  rest := (congrArg (fun x : State => { x with threads := s.threads, cores := s.cores, benches := s.benches }) h'.rest).trans h.rest

theorem noHalos (h : TilesOnly s u) (hh : NoHalos s) : NoHalos u :=
  ⟨(congrArg State.halos h.rest :).trans hh.1, (congrArg State.haloDirty h.rest :).trans hh.2⟩

theorem memberOf (h : TilesOnly s u) (x : Nat) : memberOf u x = memberOf s x := by
  rw [Machine.memberOf, Machine.memberOf, h.groups]

theorem gr (h : TilesOnly s u) (j : Nat) : gr u j = gr s j := by rw [Machine.gr, Machine.gr, h.groups]

theorem kn (h : TilesOnly s u) (j : Nat) : kn u j = kn s j := by rw [Machine.kn, Machine.kn, h.kernels]

end TilesOnly

theorem tilesOnly_setTq (h : NoTiles s) (n : Nat) : TilesOnly s (setTq s n []) :=
  ⟨h.setCo n rfl (h.co n).2, fun _ => rfl, rfl⟩

theorem tilesOnly_tilePeers (h : NoTiles s) (x : Nat) : TilesOnly s (tilePeers s x) := by
  have hq : tq s (coreOf x) = [] := (h.co _).1
  rw [tilePeers, hq]
  exact tilesOnly_setTq h _

theorem tilesOnly_tileSettle (h : NoTiles s) (n : Nat) : TilesOnly s (tileSettle s n) := by
  have hr (b : Tab Bench) : (Machine.co { s with benches := b } n).relPending = false := (h.co n).2
  rw [tileSettle]
  split
  · exact ⟨h, fun _ => rfl, rfl⟩
  · dsimp only
    split
    · rw [hr, if_neg Bool.false_ne_true]
      exact ⟨h, fun _ => rfl, rfl⟩
    · rw [(h.co n).2, if_neg Bool.false_ne_true]
      exact ⟨h, fun _ => rfl, rfl⟩

theorem orphanRun_noTiles (h : NoTiles s) (n : Nat) : orphanRun s n = s := by
  have hq : tq s n = [] := (h.co n).1
  rw [orphanRun, hq]
  rfl

/-- The queue cut, and the tile hold given up by a thread that has none. -/
theorem tilesOnly_giveUp (h : NoTiles s) (n : Nat) {q : List TileCmd} (hq : q = []) (hts : (th s x).ts = 0) :
    TilesOnly s (setTh (setTq s n q) x { th s x with ts := 0 }) := by
  subst hq
  refine ⟨(tilesOnly_setTq h n).noTiles, fun j => ?_, rfl⟩
  by_cases e : j = x
  · rw [e, th_setTh, ← hts]
  · exact th_setTh_ne _ _ e

/-- A core without commands is settled. -/
theorem tilesOnly_settled (h : NoTiles s) (n : Nat) {c : Core} (hq : c.tq = []) (hr : c.relPending = false) :
    TilesOnly s (tileSettle (orphanRun (setCo s n c) n) n) := by
  have hc := h.setCo n hq hr
  rw [orphanRun_noTiles hc]
  exact TilesOnly.trans ⟨hc, fun _ => rfl, rfl⟩ (tilesOnly_tileSettle hc n)

/-- A thread without tile state leaves nothing behind in a core without commands (R174). -/
theorem tilesOnly_tileEnd (h : NoTiles s) (hts : (th s x).ts = 0) : TilesOnly s (tileEnd s x) := by
  have hpeers := tilesOnly_tilePeers h x
  have hq : tq (tilePeers s x) (coreOf x) = [] := (hpeers.noTiles.co _).1
  have hts' : (th (tilePeers s x) x).ts = 0 := by rw [hpeers.th, hts]
  have hgive := tilesOnly_giveUp hpeers.noTiles (coreOf x)
    (q := ((tq (tilePeers s x) (coreOf x)).filter fun c => c.tid ≠ x ∨ c.started).map fun c =>
      if c.tid = x then { c with orphan := true } else c) (by rw [hq]; rfl) hts'
  obtain ⟨hcq, hcr⟩ := hgive.noTiles.co (coreOf x)
  exact hpeers.trans (hgive.trans (tilesOnly_settled hgive.noTiles (coreOf x) hcq
    (Bool.or_eq_false_iff.mpr ⟨hcr, decide_eq_false (not_not.mpr hts')⟩)))

theorem tilesOnly_tileKilled (h : NoTiles s) (ms : List Nat) : TilesOnly s (tileKilled s ms) := by
  refine ⟨fun e he => ?_, fun _ => rfl, rfl⟩
  obtain ⟨e', he', rfl⟩ := List.mem_map.mp he
  obtain ⟨hq, hr⟩ := h e' he'
  exact ⟨List.map_eq_nil_iff.mpr hq, hr⟩

/-! ### The kernel's count -/

theorem countEnd_outside (s : State) (x : Nat) (killed : Bool) : { countEnd s x killed with kernels := s.kernels } = s := by
  rw [countEnd]
  dsimp only
  split <;> rfl

theorem kn_countEnd_killed (h : (th s x).kernel ≠ 0) : let K := kn s (th s x).kernel
    let K' := kn (countEnd s x true) (th s x).kernel
    K'.ended = K.ended + 1 ∧ K'.killed = K.killed + 1 ∧ K'.flags = K.flags ||| (th s x).u.flags := by
  have he : kn (countEnd s x true) (th s x).kernel = _ :=
    (congrArg (fun u => kn u _) (if_neg h : countEnd s x true = _)).trans (kn_setKn ..)
  rw [he]
  exact ⟨rfl, rfl, rfl⟩

/-! ### The end of the last member of a group -/

/-- Of the threads only `x` is changed, and the word in hand is the same. -/
def OnlyThread (s t : State) (x : Nat) : Prop := (∀ j, j ≠ x → th t j = th s j) ∧ t.cur = s.cur ∧ t.slot = s.slot

theorem OnlyThread.trans {t : State} (h : OnlyThread s u x) (h' : OnlyThread u t x) : OnlyThread s t x :=
  ⟨fun j n => (h'.1 j n).trans (h.1 j n), h'.2.1.trans h.2.1, h'.2.2.trans h.2.2⟩

theorem TilesOnly.onlyThread (h : TilesOnly s u) (x : Nat) : OnlyThread s u x :=
  ⟨fun j _ => h.th j, h.cur, h.slot⟩

/-- `t` has what is left of `s` after the end of the thread `x`, the last member of group `k` (R217). -/
structure Ended (s t : State) (k x : Nat) : Prop where
  group : gr t k = freed (gr s k)
  groups : ∀ j, j ≠ k → gr t j = gr s j
  free : (th t x).state = .free
  rows : (th t x).v.rows = 0
  queue : (th t x).v.queue = []
  stores : (th t x).stores = (th s x).stores
  sent : (th t x).sent = (th s x).sent
  kernel : (th s x).kernel ≠ 0 → (kn t (th s x).kernel).ended = (kn s (th s x).kernel).ended + 1 ∧
    (kn t (th s x).kernel).killed = (kn s (th s x).kernel).killed + 1 ∧
    (kn t (th s x).kernel).flags = (kn s (th s x).kernel).flags ||| (th s x).u.flags
  waiters : ∀ w ∈ t.waiters, w.1 ≠ x
  arms : ∀ e ∈ t.arms, e.tid ≠ some x
  mem : t.mem = s.mem

/-- Of the state afterwards only the thread and five tables count. -/
theorem Ended.congr_after {t : State} (h : Ended s u k x) (hth : th t x = th u x) (hg : t.groups = u.groups)
    (hk : t.kernels = u.kernels) (hw : t.waiters = u.waiters) (ha : t.arms = u.arms) (hm : t.mem = u.mem) : Ended s t k x := by
  have hgr (j : Nat) : gr t j = gr u j := by rw [gr, gr, hg]
  have hkn (j : Nat) : kn t j = kn u j := by rw [kn, kn, hk]
  obtain ⟨h1, h2, h3, h4, h5, h6, h7, h8, h9, h10, h11⟩ := h
  constructor <;> simp only [hth, hgr, hkn, hw, ha, hm] <;> assumption

/-- Of the state before only the thread and three tables count. -/
theorem Ended.congr_before {t : State} (h : Ended u t k x) (hth : th u x = th s x) (hg : u.groups = s.groups)
    (hk : u.kernels = s.kernels) (hm : u.mem = s.mem) : Ended s t k x := by
  have hgr (j : Nat) : gr u j = gr s j := by rw [gr, gr, hg]
  have hkn (j : Nat) : kn u j = kn s j := by rw [kn, kn, hk]
  obtain ⟨h1, h2, h3, h4, h5, h6, h7, h8, h9, h10, h11⟩ := h
  constructor <;> simp only [hth, hgr, hkn, hm] at * <;> assumption

/-- The end of a word of another thread that has ended `x`. -/
theorem Ended.finish (h : Ended s u k x) (ho : OnlyThread s u x) (hx : x ≠ s.cur) (p : BitVec 1) (d : BitVec 5) (v : Word) :
    let t := finish (wr u d v) p
    Behind s t p ∧ Wrote s t d v ∧ Ended s t k x ∧ regMask (me t) (me s) = me s ∧
    ∀ j, j ≠ s.cur → j ≠ x → th t j = th s j := by
  intro t
  obtain ⟨hothers, hcur, hslot⟩ := ho
  have hme : me u = me s := (congrArg (th u) hcur).trans (hothers s.cur hx.symm)
  obtain ⟨hb, hw, hm, hth, hout⟩ := wrote_finish_of_me hcur hslot hme p d v
  exact ⟨hb, hw, h.congr_after (hth x hx) hout.groups hout.kernels hout.waiters hout.arms hout.mem, hm,
    fun j n n' => (hth j n).trans (hothers j n')⟩

theorem killThreads_singleton (s : State) (x : Nat) : killThreads s [x] = killThread (tilePeers s x) x := by
  rw [killThreads, List.foldl_cons, List.foldl_nil, List.foldl_cons, List.foldl_nil]

section Kill

variable (ht : NoTiles s) (hh : NoHalos s) (hm : memberOf s x = some (k, r)) (hl : (gr s k).members.length ≤ 1)
  (hstop : (th s x).stop = none) (hts : (th s x).ts = 0) (hx : x % 16 ≠ 15)

include ht hh hm hl hstop hts hx

/-- The last member is killed: each part of what it has elsewhere goes, and then its slot is free. -/
theorem killThread_last : ∃ v, TilesOnly (dropEntries s x) v ∧
    killThread s x = freeSlot (countEnd (returnCalls (setGr v k (freed (gr s k))) x) x true) x := by
  have hd : TilesOnly (dropEntries s x) (tileEnd (dropEntries s x) x) := tilesOnly_tileEnd (s := dropEntries s x) ht hts
  have hkill : killThread s x =
      freeSlot (countEnd (returnCalls (leaveGroup (stopAdd (tileEnd (dropEntries s x) x) x) x) x) x true) x := by
    rw [killThread, channelEnd]
    dsimp only
    rw [if_neg fun c => hx c.1]
  refine ⟨_, hd, ?_⟩
  rw [hkill]
  generalize tileEnd (dropEntries s x) x = v at hd
  have hgr : gr v k = gr s k := hd.gr k
  have hadd : stopAdd v x = v := by rw [stopAdd, show (th v x).stop = none from (congrArg Thread.stop (hd.th x)).trans hstop]
  rw [hadd, leaveGroup_last (hd.noHalos hh) ((hd.memberOf x).trans hm) (by rw [hgr]; exact hl), hgr]

theorem ended_killThread : NoTiles (killThread s x) ∧ OnlyThread s (killThread s x) x ∧ Ended s (killThread s x) k x := by
  obtain ⟨v, hd, hkill⟩ := killThread_last ht hh hm hl hstop hts hx
  have hcount := countEnd_outside (returnCalls (setGr v k (freed (gr s k))) x) x true
  have hkernel := kn_countEnd_killed (s := returnCalls (setGr v k (freed (gr s k))) x) (x := x)
  generalize countEnd (returnCalls (setGr v k (freed (gr s k))) x) x true = c at hkill hcount hkernel
  have hcores : c.cores = v.cores := (congrArg State.cores hcount :)
  have hgroups : c.groups = (setGr v k (freed (gr s k))).groups := (congrArg State.groups hcount :)
  have hthreads : c.threads = v.threads := (congrArg State.threads hcount :)
  have hwaiters : c.waiters = (dropEntries s x).waiters := (congrArg State.waiters hcount :).trans hd.waiters
  have harms : c.arms = (dropEntries s x).arms := (congrArg State.arms hcount :).trans hd.arms
  have hmem : c.mem = s.mem := (congrArg State.mem hcount :).trans hd.mem
  have hcur : c.cur = s.cur := (congrArg State.cur hcount :).trans hd.cur
  have hslot : c.slot = s.slot := (congrArg State.slot hcount :).trans hd.slot
  have hgr (j : Nat) : gr (freeSlot c x) j = gr (setGr v k (freed (gr s k))) j := by rw [gr, gr, ← hgroups]; rfl
  have hth (j : Nat) : th c j = th s j := by rw [th, hthreads]; exact hd.th j
  have hown : th (freeSlot c x) x = _ := th_setTh ..
  rw [hkill]
  refine ⟨fun e he => hd.noTiles e (hcores ▸ he), ⟨fun j n => (th_setTh_ne _ _ n).trans (hth j), hcur, hslot⟩, ?_⟩
  constructor
  case group => rw [hgr, gr_setGr]
  case groups => exact fun j n => by rw [hgr, gr_setGr_ne _ _ n]; exact hd.gr j
  case free => rw [hown]
  case rows => rw [hown]
  case queue => rw [hown]
  case stores => rw [hown, hth]
  case sent => rw [hown, hth]
  case kernel =>
    have hv : th (returnCalls (setGr v k (freed (gr s k))) x) x = th s x := hd.th x
    have hk (j : Nat) : kn (returnCalls (setGr v k (freed (gr s k))) x) j = kn s j := hd.kn j
    simp only [hv, hk] at hkernel
    exact hkernel
  case waiters =>
    intro w h
    have hw : w ∈ (dropEntries s x).waiters := hwaiters ▸ h
    exact of_decide_eq_true (List.mem_filter.mp hw).2
  case arms =>
    intro e h
    have he : e ∈ (dropEntries s x).arms := harms ▸ h
    exact of_decide_eq_true (List.mem_filter.mp he).2
  case mem => exact hmem

theorem ended_killThreads {t : State} (e : tileKilled (killThreads s [x]) [x] = t) :
    NoTiles t ∧ OnlyThread s t x ∧ Ended s t k x := by
  rw [killThreads_singleton] at e
  subst e
  have hp := tilesOnly_tilePeers ht x
  obtain ⟨hn, ho, h⟩ := ended_killThread hp.noTiles (hp.noHalos hh) ((hp.memberOf x).trans hm) (by rw [hp.gr]; exact hl)
    (by rw [hp.th]; exact hstop) (by rw [hp.th]; exact hts) hx
  generalize killThread (tilePeers s x) x = v at hn ho h
  have hk := tilesOnly_tileKilled hn [x]
  exact ⟨hk.noTiles, ((hp.onlyThread x).trans ho).trans (hk.onlyThread x),
    (h.congr_before (hp.th x) hp.groups hp.kernels hp.mem).congr_after (hk.th x) hk.groups hk.kernels hk.waiters hk.arms hk.mem⟩

end Kill

/-! ### `grp.kill` -/

section Word

variable (hp : (me s).priv ≠ .user) (hf : Fresh s) (hn : NamesGroup s (rd s a) k)

include hp hf hn

theorem exec_grpKill_member (hl : ∃ m ∈ (gr s k).members, m.2 = s.cur) :
    exec (.grpKill p d a) s = .next (raise s 21 (rd s a)) := by
  have hstage : stageOf s ≠ killStage := by
    rw [stageOf, hf]
    exact Nat.zero_ne_add_one 11
  refine congrArg Host.Outcome.next ((if_neg hp).trans ((if_neg hstage).trans ?_))
  rw [grpNamed_inr hn]
  exact if_pos (memberHere_iff.mpr hl)

variable (hl : ∀ m ∈ (gr s k).members, m.2 ≠ s.cur)

include hl

/-- The kills, and the end of the word where no tile command of the members runs on. -/
theorem exec_grpKill_outside {ms : List Nat} (hms : (gr s k).members.map (·.2) = ms)
    (hu : (if ms.isEmpty then dissolve s k else tileKilled (killThreads s ms) ms) = u) (ht : tileEnding u = false) :
    exec (.grpKill p d a) s = .next (grpEnd u p d ms.length) := by
  have hstage : stageOf s ≠ killStage := by
    rw [stageOf, hf]
    exact Nat.zero_ne_add_one 11
  subst hms hu
  refine congrArg Host.Outcome.next ((if_neg hp).trans ((if_neg hstage).trans ?_))
  rw [grpNamed_inr hn]
  exact (if_neg (Bool.eq_false_iff.mp (memberHere_eq_false hl))).trans (if_neg (Bool.eq_false_iff.mp ht))

end Word

/-- Settles O33: each word ends in the case that its hypotheses name. -/
theorem gangWords : Obligations.GangWords := by
  unfold Obligations.GangWords
  intro s p d a b k A g stopped
  refine ⟨fun hn hu => ⟨fun hg => ⟨fun he => ?_, fun hne => ⟨fun hno => ?_, fun hall => ?_, fun hsome hnot => ?_⟩, fun hs => ?_⟩,
      fun hg => ⟨?_, fun hs hh => ?_, fun hs => ?_⟩⟩,
    fun hp hq => ⟨trapTo_of_raise hq rfl (congrArg Host.Outcome.next (if_pos hp)),
      trapTo_of_raise hq rfl (congrArg Host.Outcome.next (if_pos hp)),
      trapTo_of_raise hq rfl (congrArg Host.Outcome.next (if_pos hp))⟩,
    fun hp hn => ⟨fun hl hq hf => ⟨⟨_, exec_grpStop_member hp hn hl, trapTo_raise hq 21 A⟩,
        _, exec_grpKill_member hp hf hn hl, trapTo_raise hq 21 A⟩,
      fun hl => ⟨fun hb hne h => ?_, fun h => ?_, fun h => ⟨_, exec_grpGo_holds hp hn h, holds_held s⟩,
        fun hf hh ht => ⟨fun he => ?_, fun r m hm hmem hstop hts hx => ?_⟩⟩⟩⟩
  · exact status_of_grpEnd ((exec_grpPin_open hn hu hg).trans (congrArg _ (if_pos (List.isEmpty_iff.mpr he))))
  · exact groupWord_of_grpEnd (exec_grpPin_running hn hu hg hne hno)
  · exact groupWord_of_grpEnd (exec_grpPin_stopped hn hu hg hne hall)
  · exact status_of_grpEnd (exec_grpPin_mixed hn hu hg hsome hnot)
  · exact regWord_of_grpEnd (exec_grpUnpin_open hn hu hs hg)
  · exact regWord_of_grpEnd (exec_grpPin_gang hn hu hg)
  · exact groupWord_of_grpEnd (exec_grpUnpin_gang hn hu hs hg hh)
  · exact ⟨_, exec_grpUnpin_stopping hn hu hs, holds_held s⟩
  · obtain ⟨u, hstop, hu⟩ := grpStopAll_ready none 0 hne h
    exact hu.members hl (exec_grpStop_outside hp hn hl hb hstop)
  · have hstopped := fun m hm => (h m hm).1
    obtain ⟨t, he, hb, hw, hk, hj, hth, hrest⟩ := (regrouped_go h).members hl
      (exec_grpGo_stopped hp hn fun m hm => ⟨(h m hm).1, (h m hm).2.1⟩)
    exact ⟨t, he, hb, hw, hk, hj, fun m hm => (hth m hm).trans (resumed_of_stopped (hstopped m hm)), hrest⟩
  · exact groupWord_of_grpEnd (exec_grpKill_outside hp hf hn hl (congrArg _ he) (dissolve_noHalos hh k)
      (NoTiles.tileEnding (s := setGr s k _) ht))
  · have hmc : m ≠ s.cur := hl (r, m) (by rw [hm]; exact List.mem_singleton_self _)
    obtain ⟨hnt, ho, h⟩ := ended_killThreads ht hh hmem (by rw [hm]; exact le_rfl) hstop hts hx rfl
    obtain ⟨hb, hw, h, hreg, hothers⟩ := h.finish ho hmc p d (statusOf (1 : Nat))
    exact ⟨_, exec_grpKill_outside hp hf hn hl (congrArg _ hm) rfl hnt.tileEnding, hb, hw, h.group, h.groups, h.free, h.rows,
      h.queue, h.stores, h.sent, h.kernel, h.waiters, h.arms, hreg, hothers, fun y => congrArg (mget · y) h.mem⟩

end Sys2Proof
end

section
/-! PROOFS. A `grp.mcast` in a gang whose members stand on cores of two partitions (R214, R350). -/

namespace Sys2Proof

open Machine

/-- The receivers of the accepted multicasts, after an instruction. -/
def receiversAfter (i : Instr) (s : State) : Option (List (List Nat)) :=
  match exec i s with
  | .next t => some (t.mcasts.map (·.left))
  | _ => none

/-- A panel of one row of four bytes at scratchpad offset 0x100, for the member of rank 1. -/
def toRankOne : List Byte :=
  natBytes 4 0x100 ++ natBytes 4 0x200 ++ natBytes 2 1 ++ natBytes 2 4 ++ natBytes 4 4 ++ natBytes 4 4 ++ natBytes 4 0 ++ natBytes 8 2

/-- Threads 0 and 32, on core 0 of partition 0 and core 2 of partition 1, are the members of a Pinned group; g1 of thread 0 has the
offset of the descriptor. -/
def gangAcross : State :=
  { threads := [(0, { state := .ready, g := [(1, 0x80)] }), (32, { state := .ready })], cores := [(0, { sp := 1 }), (2, { sp := 1 })],
    groups := [(1, { used := true, state := .pinned, members := [(0, 0), (1, 32)] })], spads := mputs [] 0x80 toRankOne,
    parts := { bench := [(1, 1)] } }

/-- The statement counts thread 32 among the receivers. -/
theorem receives_gangAcross : Receives gangAcross (mcastDesc (mbytes gangAcross.spads 0x80 32)) 1 2 :=
  ⟨by decide, by decide, 1, 0, 32, by decide, by decide, by decide, by decide, by decide⟩

/-- From core 0 the mesh carries no packet to core 2: the bit of rank 1 is skipped. -/
theorem receiversAfter_gangAcross : receiversAfter (.grpMcast 0 0 1 0) gangAcross = some [[]] := by decide +kernel

/-- Refutes O34: by its first clause every other member that the mask names, and whose scratchpad holds the destination, receives.
A member on a core of another partition does not: the mesh carries no packet to it (R350), and its bit is skipped. -/
theorem not_multicasts : ¬ Obligations.Multicasts := by
  unfold Obligations.Multicasts
  rintro ⟨h, -⟩
  obtain ⟨-, accepted⟩ := h gangAcross 0 0 1 0 1 0 none
  obtain ⟨t, m, v, he, -, -, hmcasts, -, hleft, -⟩ := accepted (by rw [InGang]; decide) (by rw [NoVectorStore]; decide)
    (by rw [NothingPosted]; decide) rfl (by decide) (by decide) (by decide) (by decide) (by decide) (by decide) (.inl ⟨rfl, rfl⟩)
  have hreceives : 2 ∈ m.left := (hleft 2).mpr ⟨1, by decide, receives_gangAcross⟩
  have hafter := receiversAfter_gangAcross
  rw [receiversAfter, he] at hafter
  have hnone : m.left = [] := by simpa [hmcasts, gangAcross] using hafter
  rw [hnone] at hreceives
  exact absurd hreceives List.not_mem_nil

end Sys2Proof
end

section
/-! PROOFS. An AMO on a near counter, and the progress add of a copy channel, where the core and the counter are of two
partitions (R176, R269, R350). -/

namespace Sys2Proof

open Machine

/-- From core 0 the mesh carries no packet to core 2 (R350): the access is refused with cause 6. -/
theorem endOf_amoAdd_countsAcross : endOf (exec (.amoAdd 0 0 1 0 0) countsAcross) = some (.trapped 6 0x1000) := by decide +kernel

/-- Refutes O24: it names the near counter as O23 does, by the partition of the thread's context alone. From a core of another
partition `amo.add` traps, and nothing leaves for the counter. -/
theorem not_atomicWords : ¬ Obligations.AtomicWords := by
  unfold Obligations.AtomicWords
  intro h
  obtain ⟨amos, -⟩ :=
    h countsAcross 0 0 1 0 0 (.near 2 0) (by decide) rfl (.inl ⟨namesCounter_countsAcross, .inr ⟨2, 0, rfl⟩⟩)
  obtain ⟨t, he, hbehind, -⟩ := amos _ List.mem_cons_self
  exact not_behind_of_trapped endOf_amoAdd_countsAcross he hbehind

/-- A fill of one byte at offset 0 of the scratchpad with 0xAB; its progress counter is near counter 0 of core 2. -/
def fillsByte : XReq :=
  { kind := .fill, desc := natBytes 8 0xAB ++ natBytes 8 0 ++ natBytes 4 1 ++ natBytes 1 4 ++ natBytes 11 0, pc := 0, word := 0,
    ga := 0, gb := 0x1000, gd := 0, scope := 0, ctx := 0, priv := .user, tid := 15 }

/-- The channel of core 0, of partition 0, runs the fill for a context of partition 1. -/
def fillsAcross : State :=
  { acrossPartitions with
    threads := [(15, { state := .ready })],
    cores := [(0, { sp := 1, ncbase := 1, ch := { en := true, state := 2, req := some fillsByte } })] }

theorem channelRuns_fillsAcross : ChannelRuns fillsAcross 0 fillsByte := by
  rw [ChannelRuns]
  decide

theorem still_fillsAcross : Still fillsAcross := ⟨⟨rfl, rfl, rfl, rfl, rfl⟩, ⟨rfl, rfl, rfl, rfl, rfl⟩, rfl, rfl, rfl⟩

theorem sp_fillsAcross (c : Nat) : (co fillsAcross c).sp ≤ 8 := by
  rcases Nat.eq_zero_or_pos c with rfl | h
  · decide
  · simp [co, fillsAcross, tget, Nat.ne_of_lt h]

/-- The statement asks that the counter is of the context's partition. -/
theorem nearAddr_fillsAcross : NearAddr fillsAcross 0 fillsByte.gb 2 0 := by
  rw [NearAddr]
  decide

/-- The add is refused, and the request ends in a fault. -/
theorem nearAfter_fillsAcross : nearAfter (.copyChunk 0) fillsAcross = some 0 := by decide +kernel

/-- Refutes O40: it asks that the progress counter is of the partition of the request's context, not that the channel's core is.
From a core of another partition the mesh refuses the add after a chunk (R350): the counter keeps its value. -/
theorem not_copyChunks : ¬ Obligations.CopyChunks := by
  unfold Obligations.CopyChunks
  rintro ⟨chunks, -⟩
  obtain ⟨t, he, -, -, -, hadds, -⟩ := chunks fillsAcross 0 fillsByte 0 1 (.mem 0) (.spad 0 0) channelRuns_fillsAcross rfl rfl
    still_fillsAcross (.inr (.inl rfl)) (by decide) sp_fillsAcross (fun hfill => absurd rfl hfill)
    (.inl ⟨by decide, by decide, rfl⟩) (by rw [ChunkOf]; decide) (.inr ⟨2, 0, nearAddr_fillsAcross, rfl⟩)
  obtain ⟨hadd, -⟩ := hadds 2 0 (by decide) nearAddr_fillsAcross
  have hkept := nearAfter_fillsAcross
  rw [nearAfter, he, Option.some.injEq, hadd] at hkept
  exact absurd hkept (by decide)

end Sys2Proof
end

section
/-! PROOFS. Queued stores: the check, and the store performed at its home (R181, R229, R244, R245, R247). -/

namespace Sys2Proof

open Machine

variable {s : State} {tid : Nat} {x : Store} {rest : List Store} {l : Loc}

/-! ### The check of the oldest store -/

theorem storeWaits_of_noPages (hp : s.pages = []) (hw : s.pageWaits = []) : storeWaits s tid = false := by
  simp only [storeWaits, hp, hw, List.any_nil, Bool.or_self]

section Check

variable (hst : (th s tid).stores = x :: rest) (hpr : (th s tid).precs = []) (hw : storeWaits s tid = false)
include hst hpr hw

/-- A store whose checks hold is sent (R244). -/
theorem exec_storeCheck_of_ok (hc : checkStore s tid x = (.ok l 0, s)) :
    exec (.storeCheck tid) s = .next (sendStore s tid x rest l 0) := by
  show execStoreCheck tid s = _
  simp only [execStoreCheck, hst, hpr, hw, hc, List.isEmpty_nil, Bool.not_true, Bool.false_eq_true, or_self, if_false]

/-- A store that fails its checks is taken off the queue and recorded (R245). -/
theorem exec_storeCheck_of_fail {c : Nat} {g : Word} (hc : checkStore s tid x = (.fail c g, s)) :
    exec (.storeCheck tid) s = .next (recordFault (setTh s tid { th s tid with stores := rest }) tid x c g) := by
  show execStoreCheck tid s = _
  simp only [execStoreCheck, hst, hpr, hw, hc, List.isEmpty_nil, Bool.not_true, Bool.false_eq_true, or_self, if_false]

end Check

/-- A store to the scratchpad takes no translation with it, and at hypervisor privilege there is none to take. -/
theorem sendStore_untranslated (h : x.space = .scratch ∨ x.priv = .hyp) :
    sendStore s tid x rest l 0 =
      setTh s tid { th s tid with stores := rest, sent := (th s tid).sent ++ [{ x with loc := some l, pbmt := 0 }] } := by
  rcases h with h | h <;> simp [sendStore, noteUse, h]

theorem checkStore_scratch (hs : x.space = .scratch) (ha : x.off % x.width = 0) :
    checkStore s tid x =
      if x.off + x.width ≤ (co s (tid / 16)).sp * 0x10000 then (.ok (.spad (tid / 16) x.off) 0, s) else (.fail 6 0, s) := by
  simp only [checkStore, hs, ha, spSize, coreOf, ne_eq, not_true_eq_false, and_false, false_and, if_false]
  rfl

theorem checkStore_physical {k : Nat} (hs : x.space = .global) (ha : x.addr.toNat % x.width = 0) (hp : x.priv = .hyp)
    (hpkg : s.pkg < 256) (hk : x.addr.toNat = s.pkg * 2 ^ 40 + k) (hlt : k < 2 ^ 40)
    (hg : (granule s (k / 2 ^ 30)).part = (cx s (th s tid).ctx).part) (hh : s.halos = []) :
    checkStore s tid x = (.ok (.mem k) 0, s) := by
  obtain ⟨g, hx⟩ := xlateBy_physical (s := s) (w := { ctx := (th s tid).ctx, priv := x.priv, core := coreOf tid, tid := tid })
    (.inl hp) (if x.gather then .gather else .core) x.addr .store
  rw [hk, physCheck_own hpkg hlt hg] at hx
  simp only [checkStore, ha, hs, hx, chkHalo, haloBad, haloAt_nil hh, ne_eq, not_true_eq_false, false_and, if_false,
    Bool.false_eq_true]

/-- Without a store-fault ring the thread is told that there is none (R247). -/
theorem recordFault_noRing (hpr : (th s tid).precs = []) (hr : (cx s (th s tid).ctx).sfqb = 0) (c : Nat) (g : Word) :
    recordFault s tid x c g = setTh s tid { th s tid with sfNone := true } := by
  simp [recordFault, ringWrite, ringPut, hpr, hr]

/-! ### The store at its home -/

section Alone

variable (hs : (th s tid).sent = [x]) (hp : ∀ p ∈ s.posts, p.tid ≠ tid) (hq : ∀ y ∈ (th s tid).stores, x.seq ≤ y.seq)
include hs hp hq

theorem scalarBefore_of_alone : scalarBefore s tid x.seq = false := by
  have hstores : ((th s tid).stores.any fun y => !y.vec && y.seq < x.seq) = false :=
    List.any_eq_false.mpr fun y hy => by simp [Nat.not_lt.mpr (hq y hy)]
  simp only [scalarBefore, hstores, hs, List.any_cons, List.any_nil, Nat.lt_irrefl, decide_false, Bool.and_false, Bool.or_self,
    Bool.false_or]
  exact List.any_eq_false.mpr fun p h => by simp [hp p h]

theorem ioBefore_of_alone : ioBefore s tid x.seq = false := by
  have hstores : ((th s tid).stores.any fun y => y.seq < x.seq && y.space == .global) = false :=
    List.any_eq_false.mpr fun y hy => by simp [Nat.not_lt.mpr (hq y hy)]
  have hposts : (s.posts.any fun p => p.tid == tid && p.seq < x.seq && p.pbmt == 2) = false :=
    List.any_eq_false.mpr fun p h => by simp [hp p h]
  simp only [ioBefore, hstores, hposts, hs, List.any_cons, List.any_nil, Nat.lt_irrefl, decide_false, Bool.false_and, Bool.or_self]

/-- The only sent store of a thread with nothing older under way may be performed (R118, R235, R287). -/
theorem arriveOk_of_alone : arriveOk s tid 0 x l = true := by
  have hposts : (s.posts.any fun p => p.tid == tid && p.seq < x.seq && (p.kind == .test || clash p.loc 8 l x.width)) = false :=
    List.any_eq_false.mpr fun p h => by simp [hp p h]
  simp [arriveOk, scalarBefore_of_alone hs hp hq, ioBefore_of_alone hs hp hq, hposts]

end Alone

/-! ### Bytes written at a home -/

/-- Where nobody waits or is armed, no operation at a home wakes anyone (R181, R194). -/
theorem touched_of_unwatched (hw : s.waiters = []) (ha : s.arms = []) (n : Nat) : touched s l n = s := by
  simp [touched, hw, ha]

/-- The `n` low bytes of `v` stand at a home; beside them only the notes of errors and the cached translations may have
changed (R181, R292). -/
def StoredAt (s t : State) (l : Loc) (n v : Nat) : Prop :=
  { t with tlb := s.tlb, wcache := s.wcache, uses := s.uses, poison := s.poison } = pokeLoc s l n v

/-- What a store performed at a home that nobody watches does. -/
theorem storedAt_storeAt (hw : s.waiters = []) (ha : s.arms = []) (n v : Nat) : StoredAt s (storeAt s l n v) l n v := by
  rw [storeAt, touched_of_unwatched]
  · cases l <;> by_cases hn : n = 8 <;> simp only [hn, if_true, if_false] <;> rfl
  · cases l <;> by_cases hn : n = 8 <;> simp only [hn, if_true, if_false] <;> exact hw
  · cases l <;> by_cases hn : n = 8 <;> simp only [hn, if_true, if_false] <;> exact ha

theorem StoredAt.th {t : State} {n v : Nat} (h : StoredAt s t l n v) (k : Nat) : th t k = th s k := by
  have ht : t.threads = s.threads := (congrArg State.threads h :).trans (by cases l <;> rfl)
  rw [Machine.th, ht, Machine.th]

theorem StoredAt.spad {t : State} {c o n v : Nat} (h : StoredAt s t (.spad c o) n v) :
    t.spads = mwr s.spads (c * 0x80000 + o) n v ∧ t.mem = s.mem :=
  ⟨(congrArg State.spads h :), (congrArg State.mem h :)⟩

theorem StoredAt.mem {t : State} {k n v : Nat} (h : StoredAt s t (.mem k) n v) : t.mem = mwr s.mem k n v ∧ t.spads = s.spads :=
  ⟨(congrArg State.mem h :), (congrArg State.spads h :)⟩

theorem l2store_own {k : Nat} (hk : k < 2 ^ 40) (n v c : Nat) : l2store s (.mem k) n v c = storeAt s (.mem k) n v := by
  have hline : k / 128 * 128 < 2 ^ 40 := by omega
  simp only [l2store, l2fill, isPeer_of_own hk, isHost_of_own hk, isPeer_of_own hline, isHost_of_own hline, Bool.false_eq_true,
    if_false]

/-- A core that holds no copy of a line keeps its array as a store to it passes (R228). -/
theorem l1pass_of_absent {core k : Nat} (h : ∀ e ∈ (co s core).l1, e.1 ≠ k / 128) (n v : Nat) : l1pass s core (.mem k) n v = s := by
  have hf : ((co s core).l1.find? fun e => e.1 = k / 128) = none := List.find?_eq_none.mpr fun e he => by simp [h e he]
  simp only [l1pass, hf]

/-- Outside halo regions a store to a line of device memory that the core holds no copy of is performed at its home. -/
theorem performStore_own {k : Nat} (hk : k < 2 ^ 40) (hh : s.halos = []) (hp : x.pbmt = 0) (hw : s.waiters = []) (ha : s.arms = [])
    (hl : ∀ e ∈ (co s (tid / 16)).l1, e.1 ≠ k / 128) :
    performStore s tid x (.mem k) = storeAt s (.mem k) x.width x.data.toNat := by
  have hc : (storeAt s (.mem k) x.width x.data.toNat).cores = s.cores := (congrArg State.cores (storedAt_storeAt hw ha _ _) :)
  simp only [performStore, haloAt_nil hh, hp, if_true, l2store_own hk, coreOf]
  exact l1pass_of_absent (by rw [co, hc]; exact hl) _ _

/-- The bytes of a number written to a memory, and the others (R3). -/
theorem mget_mwr {m : Memory} (h : m.wf = true) (a n v : Nat) :
    (∀ i < n, mget (mwr m a n v) (a + i) = BitVec.ofNat 8 (v / 256 ^ i)) ∧
    ∀ b, b < a ∨ a + n ≤ b → mget (mwr m a n v) b = mget m b :=
  ⟨fun _ hi => mget_mwr_in h a n v hi, fun _ hb => mget_mwr_out h a n v hb⟩

/-- The state once the thread's sent stores have left it. -/
def noneSent (s : State) (tid : Nat) : State := setTh s tid { th s tid with sent := [] }

/-- The only sent store of a thread, with nothing older under way, whose home is in this package: it is performed there. -/
theorem exec_storeArriveHome_of_alone (hs : (th s tid).sent = [x]) (hp : ∀ p ∈ s.posts, p.tid ≠ tid)
    (hq : ∀ y ∈ (th s tid).stores, x.seq ≤ y.seq) (ho : x.op = .put) (hl : x.loc = some l) (hk : s.stuck = [])
    (hw : s.waiters = []) (ha : s.arms = []) (hr : homeReach s l = true) (hd : homeDenied s (partOf s tid) l = false)
    (hat : performStore (noneSent s tid) tid x l = storeAt (noneSent s tid) l x.width x.data.toNat) :
    ∃ t, exec (.storeArriveHome tid 0) s = .next t ∧ StoredAt (noneSent s tid) t l x.width x.data.toNat := by
  refine ⟨_, ?_, storedAt_storeAt (s := noneSent s tid) hw ha _ _⟩
  have hu : unstick (noneSent s tid) tid 2 x.addr x.seq = noneSent s tid :=
    unstick_of_nothingPosted (by rw [noneSent, setTh_stuck, hk]; exact List.forall_mem_nil _) _ _ _
  show execStoreArriveHome tid 0 s = _
  rw [← hat, ← hu]
  simp [execStoreArriveHome, hs, hl, ho, arriveOk_of_alone hs hp hq, pathFor, hr, hd, ldel, noneSent]

/-- A performed store is no longer among those sent, and no other field and no other thread has changed. -/
theorem StoredAt.gone {t : State} {n v : Nat} (h : StoredAt (noneSent s tid) t l n v) :
    (Machine.th t tid).sent = [] ∧ OthersSame s t tid ∧ { Machine.th t tid with sent := (Machine.th s tid).sent } = Machine.th s tid := by
  refine ⟨?_, fun k hk => (h.th k).trans (th_setTh_ne s _ hk), ?_⟩ <;> rw [h.th, noneSent, th_setTh]

/-- Settles O13: a store whose checks hold is sent as it stands, and what is performed at its home writes its own bytes. -/
theorem storesPerformed : Obligations.StoresPerformed := by
  refine ⟨?_, ?_⟩
  · intro s tid x rest hst hpr hpg hpw T
    have hw : storeWaits s tid = false := storeWaits_of_noPages hpg hpw
    refine ⟨fun hs ha hr => ?_, fun hs ha hp hpkg k hk hlt hg hh => ?_, fun hs ha hr hring => ?_⟩
    · have hc := (checkStore_scratch (s := s) (tid := tid) hs ha).trans (if_pos hr)
      refine ⟨_, exec_storeCheck_of_ok hst hpr hw hc, ?_⟩
      rw [sendStore_untranslated (.inl hs)]
      exact ⟨rfl, fun k hk => th_setTh_ne s _ hk, th_setTh ..⟩
    · refine ⟨_, exec_storeCheck_of_ok hst hpr hw (checkStore_physical hs ha hp hpkg hk hlt hg hh), ?_⟩
      rw [sendStore_untranslated (.inr hp)]
      exact ⟨rfl, fun k hk => th_setTh_ne s _ hk, th_setTh ..⟩
    · have hc := (checkStore_scratch (s := s) (tid := tid) hs ha).trans (if_neg (Nat.not_le.mpr hr))
      refine ⟨_, exec_storeCheck_of_fail hst hpr hw hc, ?_⟩
      rw [recordFault_noRing (by rw [th_setTh]; exact hpr) (by rw [th_setTh]; exact hring), th_setTh]
      exact ⟨rfl, fun k hk => (th_setTh_ne _ _ hk).trans (th_setTh_ne s _ hk), th_setTh ..⟩
  · intro s tid x hs ho hp hq hk hh hwt har hm hsp
    refine ⟨fun c o hl => ?_, fun k hl hlt hpb hl1 => ?_⟩
    · obtain ⟨t, hx, hat⟩ := exec_storeArriveHome_of_alone hs hp hq ho hl hk hwt har rfl rfl rfl
      obtain ⟨hsent, hoth, hth⟩ := hat.gone
      obtain ⟨hspads, hmem⟩ := hat.spad
      obtain ⟨hin, hout⟩ := mget_mwr hsp (c * 0x80000 + o) x.width x.data.toNat
      exact ⟨t, hx, hsent, fun i hi => hspads ▸ hin i hi, fun b hb => hspads ▸ hout b hb, fun b => by rw [hmem]; rfl, hoth, hth⟩
    · have hreach : homeReach s (.mem k) = true := by rw [homeReach, isPeer_of_own hlt]; rfl
      have hdenied : homeDenied s (partOf s tid) (.mem k) = false := by rw [homeDenied, isPeer_of_own hlt]; rfl
      obtain ⟨t, hx, hat⟩ := exec_storeArriveHome_of_alone hs hp hq ho hl hk hwt har hreach hdenied
        (performStore_own hlt hh hpb hwt har hl1)
      obtain ⟨hsent, hoth, hth⟩ := hat.gone
      obtain ⟨hmem, hspads⟩ := hat.mem
      obtain ⟨hin, hout⟩ := mget_mwr hm k x.width x.data.toNat
      exact ⟨t, hx, hsent, fun i hi => hmem ▸ hin i hi, fun b hb => hmem ▸ hout b hb, fun b => by rw [hspads]; rfl, hoth, hth⟩

end Sys2Proof
end

section
/-! PROOFS. `halo.decl` (R249, R250, R262). -/

namespace Sys2Proof

open Machine

variable {s u : State} {p : BitVec 1} {d a : BitVec 5} {k r : Nat}

/-! ### Words that end after a change outside their thread -/

/-- A word that has left its own thread alone and ends: beside the pc and the notes of the bundle nothing more changes. -/
theorem behind_finish_of_me (hc : u.cur = s.cur) (hs : u.slot = s.slot) (hm : me u = me s) (p : BitVec 1) :
    Behind s (finish u p) p ∧ pcMask (me (finish u p)) (me s) = me s ∧ (∀ j, j ≠ s.cur → th (finish u p) j = th u j) ∧
    SameOutside u (finish u p) := by
  refine ⟨behind_finish p hs (by rw [hm]), ?_, fun j h => th_finish_ne u p (hc ▸ h), finish_outside u p⟩
  rw [pcMask_finish, hm]
  rfl

/-! ### The checks of the descriptor -/

theorem groupId_eq (s : State) (k : Nat) : gidOf (k / 4096) (k % 4096) (gr s k).gen = groupId s k := rfl

/-- The number within this package's memory of the physical page `v` (R364). -/
def pageHere (s : State) (v : Nat) : Nat := v - s.pkg * 2 ^ 28

/-- The pages of a region in this package's memory, with their places there. -/
def ownPages (s : State) (vs : List Nat) : List (Nat × Nat) := vs.map fun v => (v, pageHere s v)

/-- A virtual page number that is, as a physical one, of this package's memory and of the running thread's partition. -/
def OwnPage (s : State) (v : Nat) : Prop :=
  ∃ m, v * 4096 = s.pkg * 2 ^ 40 + m ∧ m < 2 ^ 40 ∧ (granule s (m / 2 ^ 30)).part = (cx s (me s).ctx).part

/-- Physical pages of the partition in this package's memory translate to themselves (R249, R283). -/
theorem haloXlate_own (hp : Physical s) (hpkg : s.pkg < 256) {vs : List Nat} (hv : ∀ v ∈ vs, OwnPage s v) (acc : List (Nat × Nat)) :
    haloXlate s vs acc = .ok (acc.reverse ++ ownPages s vs) s := by
  induction vs generalizing acc with
  | nil =>
    rw [ownPages, List.map_nil, List.append_nil]
    rfl
  | cons v vs ih =>
    obtain ⟨m, hm, hlt, hg⟩ := hv v List.mem_cons_self
    have hva : (BitVec.ofNat 64 (v * 4096)).toNat = s.pkg * 2 ^ 40 + m := by
      rw [BitVec.toNat_ofNat, Nat.mod_eq_of_lt (by omega), hm]
    have hx : xlate s (whoOf s s.cur) (BitVec.ofNat 64 (v * 4096)) .load = (.ok (.mem m) (s.pkg * 2 ^ 40 + m) 0, s) := by
      obtain ⟨g, hx⟩ := xlateBy_physical (w := whoOf s s.cur) hp .core (BitVec.ofNat 64 (v * 4096)) .load
      rw [xlate, hx, hva, physCheck_own hpkg hlt hg]
    have hplace : m / 4096 = pageHere s v := by
      rw [pageHere]
      omega
    simp only [haloXlate_cons, hx, isOwn_of_lt hlt, if_true, ih (fun w hw => hv w (List.mem_cons_of_mem _ hw)), hplace]
    rw [List.reverse_cons, List.append_assoc, List.singleton_append, ownPages, ownPages, List.map_cons]

theorem ownPages_spec {vs : List Nat} (hv : ∀ v ∈ vs, OwnPage s v) :
    (ownPages s vs).map (·.1) = vs ∧ ∀ e ∈ ownPages s vs, e.1 * 4096 = s.pkg * 2 ^ 40 + e.2 * 4096 := by
  refine ⟨by rw [ownPages, List.map_map]; exact List.map_id vs, fun e he => ?_⟩
  obtain ⟨v, hmem, rfl⟩ := List.mem_map.mp he
  obtain ⟨m, hm, -, -⟩ := hv v hmem
  rw [pageHere]
  omega

/-- A member with nothing queued has no store on its way to a region (R262). -/
theorem haloBusy_of_nothing {h : Halo} {tid : Nat} (hm : (th s tid).stores = [] ∧ (th s tid).sent = [] ∧ (th s tid).precs = [] ∧
    (th s tid).v.queue = []) : haloBusy s h tid = false := by
  obtain ⟨hst, hse, hpr, hq⟩ := hm
  simp [haloBusy, vstPending_nil hq, hst, hse, hpr]

/-! ### The word -/

/-- The descriptor is read from the scratchpad (R249). -/
theorem exec_haloDecl_inScratch {off : Nat} (ha : (rd s a).toNat % 64 = 0) (hi : InScratch s (rd s a) 64 off) (hs : Settled s)
    (he : s.poison = []) :
    exec (.haloDecl p d a) s = .next (haloDecl s p d (mbytes s.spads (s.cur / 16 * 0x80000 + off) 64)) := by
  obtain ⟨hq, -, hp⟩ := hs
  have hoff : off + 8 * 8 ≤ 2 ^ 19 := by
    obtain ⟨-, hea, hlt, -⟩ := hi
    omega
  have hl : loadRun s (rd s a) 8 = (mbytes s.spads (s.cur / 16 * 0x80000 + off) 64, .value 0 s) :=
    loadRun_inScratch hp he 8 (by omega) hi hoff
  show execHaloDecl p d a s = _
  simp only [execHaloDecl, ha, vstPending_nil hq, hl, ne_eq, not_true_eq_false, if_false, Bool.false_eq_true]

theorem haloDecl_noMember (h : memberOf s s.cur = none) (bs : List Byte) : haloDecl s p d bs = finish (wr s d (BitVec.ofInt 64 (-2))) p := by
  simp only [haloDecl, h, statusOf]

/-- The first region of a gang, whose pages stand in this package's memory, takes handle 0 (R249, R250, R262). -/
theorem haloDecl_first {bs : List Byte} {h : Halo} (hg : InGang s k r) (hh : s.halos = []) (hp : Physical s) (hpkg : s.pkg < 256)
    (he : haloOf bs (groupId s k) (me s).ctx 0 = h) (hok : haloOk bs h = true) (hranks : haloRanks (gr s k) h = true)
    (hfits : haloFits s h = true) (hv : ∀ v ∈ haloPages h, OwnPage s v)
    (hidle : ∀ m ∈ (gr s k).members, (th s m.2).stores = [] ∧ (th s m.2).sent = [] ∧ (th s m.2).precs = [] ∧ (th s m.2).v.queue = []) :
    haloDecl s p d bs = finish (wr (haloPut s { h with pages := ownPages s (haloPages h) }) d (BitVec.ofNat 64 h.handle)) p := by
  obtain ⟨hm, hgang⟩ := hg
  have hhd : haloHandle s (groupId s k) = some 0 := by
    rw [haloHandle, hh]
    rfl
  have hfits' (ps : List (Nat × Nat)) : haloFits s { h with pages := ps } = true := hfits
  have hbusy (g : Halo) : ((gr s k).members.any fun m => haloBusy s g m.2) = false :=
    List.any_eq_false.mpr fun m hmem => by simp [haloBusy_of_nothing (hidle m hmem)]
  simp only [haloDecl, hm, hgang, groupId_eq, hhd, Option.getD_some, he, hok, hranks, haloXlate_own hp hpkg hv, hfits', hbusy, hh,
    List.any_nil, Bool.not_true, Bool.false_eq_true, or_self, if_false, Option.isNone_some, List.reverse_nil, List.nil_append]

end Sys2Proof
end

section
/-! PROOFS. `halo.push` (R251, R262). -/

namespace Sys2Proof

open Machine

variable {s : State} {tid k v : Nat} {h : Halo} {only : Option Nat}

/-! ### Keys of halo bytes -/

theorem haloKey_mod (t : Nat) (hk : k < 2 ^ 57) : haloKey t k % 2 ^ 57 = k := by
  rw [haloKey]
  omega

theorem haloKey_split {key : Nat} (hk : key / 2 ^ 57 = tid) : haloKey tid (key % 2 ^ 57) = key := by
  rw [haloKey, ← hk, Nat.div_add_mod']

theorem haloKey_ne {t c j : Nat} (hj : j < 2 ^ 57) (hk : k < 2 ^ 57) (hn : j ≠ k) : haloKey t j ≠ haloKey c k := by
  intro he
  exact hn (by rw [← haloKey_mod t hj, he, haloKey_mod c hk])

/-- Where all dirty bytes are one thread's, its list is the whole table. -/
theorem haloDirtyOf_all (ho : ∀ e ∈ s.haloDirty, e.1 / 2 ^ 57 = tid) :
    haloDirtyOf s tid = s.haloDirty.map fun e => (e.1 % 2 ^ 57, e.2) := by
  rw [haloDirtyOf, List.filter_eq_self.mpr fun e he => decide_eq_true (ho e he)]

/-- Two dirty bytes of one thread that stand at one place are the same entry. -/
theorem dirty_eq_of_mod {D : Tab Byte} {e x : Nat × Byte} (hn : (D.map (·.1)).Nodup) (he : e ∈ D) (hx : x ∈ D)
    (hex : e.1 / 2 ^ 57 = x.1 / 2 ^ 57) (hm : e.1 % 2 ^ 57 = x.1 % 2 ^ 57) : e = x := by
  refine List.inj_on_of_nodup_map hn he hx ?_
  rw [← Nat.div_add_mod e.1 (2 ^ 57), hex, hm, Nat.div_add_mod]

/-! ### A byte put into replicas -/

/-- The replicas after the byte `b` of a place is put into those of the threads `ts`. -/
def repPut (m : Tab Byte) (ts : List Nat) (k : Nat) (b : Byte) : Tab Byte := ts.foldl (fun m t => tput m (haloKey t k) b) m

theorem mem_tput {m : Tab Byte} {j : Nat} {b : Byte} {e : Nat × Byte} (h : e ∈ tput m j b) : e = (j, b) ∨ e ∈ m := by
  induction m with
  | nil => exact .inl (List.mem_singleton.mp h)
  | cons x m ih =>
    obtain ⟨i, c⟩ := x
    rw [tput] at h
    split at h
    · exact List.mem_cons.mp h
    · split at h
      · exact (List.mem_cons.mp h).imp_right (List.mem_cons_of_mem _)
      · rcases List.mem_cons.mp h with rfl | h
        · exact .inr List.mem_cons_self
        · exact (ih h).imp_right (List.mem_cons_of_mem _)

theorem mem_repPut {m : Tab Byte} {ts : List Nat} {b : Byte} {e : Nat × Byte} (h : e ∈ repPut m ts k b) :
    e ∈ m ∨ ∃ t, e = (haloKey t k, b) := by
  induction ts generalizing m with
  | nil => exact .inl h
  | cons t ts ih =>
    rcases ih (m := tput m (haloKey t k) b) h with h | h
    · exact (mem_tput h).symm.imp_right fun h => ⟨t, h⟩
    · exact .inr h

theorem tget_repPut_ne {m : Tab Byte} {ts : List Nat} {b : Byte} {c j : Nat} (hj : j < 2 ^ 57) (hk : k < 2 ^ 57) (hn : j ≠ k) :
    tget (repPut m ts k b) (haloKey c j) 0 = tget m (haloKey c j) 0 := by
  induction ts generalizing m with
  | nil => rfl
  | cons t ts ih => exact (ih (m := tput m (haloKey t k) b)).trans (tget_tput_ne _ _ _ (haloKey_ne hj hk hn))

theorem tget_repPut_of_put {m : Tab Byte} {ts : List Nat} {b : Byte} {c : Nat}
    (h : c ∈ ts ∨ tget m (haloKey c k) 0 = b) : tget (repPut m ts k b) (haloKey c k) 0 = b := by
  induction ts generalizing m with
  | nil => exact h.resolve_left List.not_mem_nil
  | cons t ts ih =>
    refine ih (m := tput m (haloKey t k) b) ?_
    by_cases hct : haloKey c k = haloKey t k
    · rw [hct, tget_tput_same]
      exact .inr rfl
    · rw [tget_tput_ne _ _ _ hct]
      exact h.imp_left fun h => (List.mem_cons.mp h).resolve_left fun he => hct (by rw [he])

/-! ### The push -/

/-- The state with other replicas. -/
def withRep (s : State) (m : Tab Byte) : State := { s with haloRep := m }

theorem foldl_put_withRep (ts : List Nat) (k : Nat) (b : Byte) (m : Tab Byte) :
    ts.foldl (fun s t => { s with haloRep := tput s.haloRep (haloKey t k) b }) (withRep s m) = withRep s (repPut m ts k b) := by
  induction ts generalizing m with
  | nil => rfl
  | cons t ts ih => exact ih _

/-- The push of one dirty byte. -/
def pushStep (only : Option Nat) (s : State) (e : Nat × Byte) : State :=
  match haloAt s e.1 with
  | some (h, r, c) =>
    if only = none ∨ only = some h.handle then
      (haloHolders s h r c).foldl (fun s t => { s with haloRep := tput s.haloRep (haloKey t e.1) e.2 }) s
    else s
  | none => s

/-- The replicas after the push of one dirty byte. -/
def repPush (s : State) (only : Option Nat) (m : Tab Byte) (e : Nat × Byte) : Tab Byte :=
  match haloAt s e.1 with
  | some (h, r, c) => if only = none ∨ only = some h.handle then repPut m (haloHolders s h r c) e.1 e.2 else m
  | none => m

theorem pushStep_withRep (only : Option Nat) (m : Tab Byte) (e : Nat × Byte) :
    pushStep only (withRep s m) e = withRep s (repPush s only m e) := by
  rw [pushStep, repPush, show haloAt (withRep s m) e.1 = haloAt s e.1 from rfl]
  cases haloAt s e.1 with
  | none => rfl
  | some x =>
    obtain ⟨h, r, c⟩ := x
    by_cases ho : only = none ∨ only = some h.handle
    · simp only [if_pos ho]
      exact foldl_put_withRep ..
    · simp only [if_neg ho]

/-- The replicas that a push leaves before it puts its bytes: none of the thread's own interior. -/
def repKept (s : State) (tid : Nat) (only : Option Nat) : Tab Byte :=
  s.haloRep.filter fun e => !(haloMine s tid only (e.1 % 2 ^ 57))

/-- A push changes the replicas alone. -/
theorem haloPush_eq (s : State) (tid : Nat) (only : Option Nat) :
    haloPush s tid only = withRep s ((haloDirtyOf s tid).foldl (repPush s only) (repKept s tid only)) := by
  have hall (es : List (Nat × Byte)) (m : Tab Byte) :
      es.foldl (pushStep only) (withRep s m) = withRep s (es.foldl (repPush s only) m) := by
    induction es generalizing m with
    | nil => rfl
    | cons e es ih => rw [List.foldl_cons, List.foldl_cons, pushStep_withRep, ih]
  exact hall _ _

theorem mem_foldl_repPush {es : List (Nat × Byte)} {m : Tab Byte} {e : Nat × Byte} (h : e ∈ es.foldl (repPush s only) m) :
    e ∈ m ∨ ∃ x ∈ es, ∃ t, e = (haloKey t x.1, x.2) := by
  induction es generalizing m with
  | nil => exact .inl h
  | cons x es ih =>
    rcases ih h with h | ⟨y, hy, ht⟩
    · rw [repPush] at h
      split at h
      · split at h
        · exact (mem_repPut h).imp_right fun ht => ⟨x, List.mem_cons_self, ht⟩
        · exact .inl h
      · exact .inl h
    · exact .inr ⟨y, List.mem_cons_of_mem _ hy, ht⟩

theorem tget_repPush_ne {m : Tab Byte} {e : Nat × Byte} {c j : Nat} (hj : j < 2 ^ 57) (he : e.1 < 2 ^ 57) (hn : j ≠ e.1) :
    tget (repPush s only m e) (haloKey c j) 0 = tget m (haloKey c j) 0 := by
  rw [repPush]
  split
  · split
    · exact tget_repPut_ne hj he hn
    · rfl
  · rfl

/-- Bytes of other places leave the replicas of a place. -/
theorem tget_foldl_repPush_ne {es : List (Nat × Byte)} {m : Tab Byte} {c j : Nat} (hj : j < 2 ^ 57)
    (he : ∀ e ∈ es, e.1 < 2 ^ 57 ∧ j ≠ e.1) : tget (es.foldl (repPush s only) m) (haloKey c j) 0 = tget m (haloKey c j) 0 := by
  induction es generalizing m with
  | nil => rfl
  | cons e es ih =>
    obtain ⟨hlt, hn⟩ := he e List.mem_cons_self
    exact (ih fun x hx => he x (List.mem_cons_of_mem _ hx)).trans (tget_repPush_ne hj hlt hn)

/-- Every holder of a replica of a pushed byte has it (R251). -/
theorem tget_foldl_repPush {es : List (Nat × Byte)} {m : Tab Byte} {e : Nat × Byte} {i j c : Nat} (hn : (es.map (·.1)).Nodup)
    (hlt : ∀ e ∈ es, e.1 < 2 ^ 57) (he : e ∈ es) (ha : haloAt s e.1 = some (h, i, j)) (ho : only = some h.handle)
    (hc : c ∈ haloHolders s h i j) : tget (es.foldl (repPush s only) m) (haloKey c e.1) 0 = e.2 := by
  induction es generalizing m with
  | nil => exact absurd he List.not_mem_nil
  | cons x es ih =>
    obtain ⟨hx, hn⟩ := List.nodup_cons.mp (List.map_cons ▸ hn)
    rw [List.foldl_cons]
    rcases List.mem_cons.mp he with rfl | he
    · have hput : tget (repPush s only m e) (haloKey c e.1) 0 = e.2 := by
        simp only [repPush, ha, ho, or_true, if_true]
        exact tget_repPut_of_put (.inl hc)
      rw [tget_foldl_repPush_ne (hlt e List.mem_cons_self) fun y hy => ⟨hlt y (List.mem_cons_of_mem _ hy), ?_⟩, hput]
      exact fun hy' => hx (hy' ▸ List.mem_map_of_mem hy)
    · exact ih hn (fun y hy => hlt y (List.mem_cons_of_mem _ hy)) he

/-- A push puts every dirty byte of its thread into the replicas of its holders (R251). -/
theorem tget_haloPush {e : Nat × Byte} {i j c : Nat} (ho : ∀ e ∈ s.haloDirty, e.1 / 2 ^ 57 = tid)
    (hn : (s.haloDirty.map (·.1)).Nodup) (he : e ∈ s.haloDirty) (hat : haloAt s (e.1 % 2 ^ 57) = some (h, i, j))
    (hc : c ∈ haloHolders s h i j) :
    tget (haloPush s tid (some h.handle)).haloRep (haloKey c (e.1 % 2 ^ 57)) 0 = e.2 := by
  have hplaces : ((s.haloDirty.map fun e => (e.1 % 2 ^ 57, e.2)).map (·.1)).Nodup := by
    rw [List.map_map]
    exact (List.Nodup.of_map _ hn).map_on fun x hx y hy hxy => dirty_eq_of_mod hn hx hy ((ho x hx).trans (ho y hy).symm) hxy
  rw [haloPush_eq, haloDirtyOf_all ho]
  refine tget_foldl_repPush (e := (e.1 % 2 ^ 57, e.2)) hplaces (fun x hx => ?_) (List.mem_map_of_mem he) hat rfl hc
  obtain ⟨y, -, rfl⟩ := List.mem_map.mp hx
  exact Nat.mod_lt _ (by decide)

/-- After a push the replicas of the thread's own interior have its dirty bytes alone. -/
theorem mem_haloPush_mine {e : Nat × Byte} (he : e ∈ (haloPush s tid only).haloRep)
    (hmine : haloMine s tid only (e.1 % 2 ^ 57) = true) : ∃ d ∈ s.haloDirty, e.1 % 2 ^ 57 = d.1 % 2 ^ 57 ∧ e.2 = d.2 := by
  rw [haloPush_eq] at he
  rcases mem_foldl_repPush he with he | ⟨x, hx, t, rfl⟩
  · have hkept := (List.mem_filter.mp he).2
    rw [hmine] at hkept
    exact absurd hkept (by decide)
  · obtain ⟨d, hd, rfl⟩ := List.mem_map.mp hx
    exact ⟨d, List.mem_of_mem_filter hd, haloKey_mod t (Nat.mod_lt _ (by decide)), rfl⟩

/-! ### The word -/

section Word

variable {k r : Nat} {a : BitVec 5} {p : BitVec 1} (hg : InGang s k r) (hh : s.halos = [h]) (hid : h.gid = groupId s k)
include hg hh hid

/-- A handle names the gang's region that has it (R262). -/
theorem haloNamed_eq (w : Word) : haloNamed s w = if w.toNat = h.handle then some h else none := by
  obtain ⟨hm, hgang⟩ := hg
  simp only [haloNamed, hm, hgang, if_true, hh, groupId_eq, List.find?_cons, List.find?_nil, hid, true_and]
  by_cases hw : h.handle = w.toNat
  · simp [hw]
  · simp [hw, Ne.symm hw]

theorem exec_haloPush_named (hw : (rd s a).toNat = h.handle) :
    exec (.haloPush p a) s = .next (finish (haloPush s s.cur (some h.handle)) p) := by
  show execHaloPush p a s = _
  simp only [execHaloPush, haloNamed_eq hg hh hid, hw, if_true]

theorem exec_haloDrop_named (hw : (rd s a).toNat = h.handle) : exec (.haloDrop p a) s = .next (finish (haloEnd s h) p) := by
  show execHaloDrop p a s = _
  simp only [execHaloDrop, haloNamed_eq hg hh hid, hw, if_true]

/-- A handle of no region is a group fault (R262). -/
theorem exec_halo_unnamed (hw : (rd s a).toNat ≠ h.handle) :
    exec (.haloPush p a) s = .next (raise s 21 (rd s a)) ∧ exec (.haloDrop p a) s = .next (raise s 21 (rd s a)) := by
  refine ⟨show execHaloPush p a s = _ from ?_, show execHaloDrop p a s = _ from ?_⟩
  · simp only [execHaloPush, haloNamed_eq hg hh hid, hw, if_false]
  · simp only [execHaloDrop, haloNamed_eq hg hh hid, hw, if_false]

end Word

end Sys2Proof
end

section
/-! PROOFS. `halo.drop` (R251, R253, R262), and the statement about the three words. -/

namespace Sys2Proof

open Machine

variable {s u : State} {tid k r : Nat} {h : Halo}

/-! ### The end of a region -/

/-- The parts of the state that the write-backs of a region may change: memory, halo bytes, the notes of errors and the cached
translations. -/
def haloMask (u s : State) : State :=
  { u with mem := s.mem, haloRep := s.haloRep, haloDirty := s.haloDirty, tlb := s.tlb, wcache := s.wcache, uses := s.uses,
           poison := s.poison }

/-- Some of the dirty bytes of `s` have gone home in `u`: each is still dirty or stands at its home, and no other byte of memory
has changed. -/
structure HomeBound (s u : State) : Prop where
  only : haloMask u s = s
  wf : u.mem.wf = true
  sub : ∀ e ∈ u.haloDirty, e ∈ s.haloDirty
  home : ∀ e ∈ s.haloDirty, e ∈ u.haloDirty ∨ mget u.mem (e.1 % 2 ^ 57) = e.2
  rest : ∀ b, (∀ e ∈ s.haloDirty, e.1 % 2 ^ 57 ≠ b) → mget u.mem b = mget s.mem b

theorem HomeBound.refl (hm : s.mem.wf = true) : HomeBound s s := ⟨rfl, hm, fun _ h => h, fun _ h => .inl h, fun _ _ => rfl⟩

theorem haloAt_of_homeBound (h : HomeBound s u) (key : Nat) : haloAt u key = haloAt s key := by
  have hh : u.halos = s.halos := (congrArg State.halos h.only :)
  rw [haloAt, hh, haloAt]

theorem homeBound_withRep (h : HomeBound s u) (m : Tab Byte) : HomeBound s (withRep u m) :=
  ⟨h.only, h.wf, h.sub, h.home, h.rest⟩

theorem homeBound_haloPush (h : HomeBound s u) (tid : Nat) (only : Option Nat) : HomeBound s (haloPush u tid only) := by
  rw [haloPush_eq]
  exact homeBound_withRep h _

/-- The replicas that keep a value of the home change, and nothing else (R251). -/
theorem haloKeep_eq (s : State) (key : Nat) : ∃ m, haloKeep s key = withRep s m := by
  have hall (ts : List Nat) (m : Tab Byte) : ∃ m', ts.foldl (fun s t =>
      if s.haloRep.any fun e => e.1 = haloKey t key then s
      else { s with haloRep := tput s.haloRep (haloKey t key) (mget s.mem key) }) (withRep s m) = withRep s m' := by
    induction ts generalizing m with
    | nil => exact ⟨m, rfl⟩
    | cons t ts ih =>
      rw [List.foldl_cons]
      split
      · exact ih m
      · exact ih _
  rw [haloKeep]
  split
  · exact hall _ _
  · exact ⟨_, rfl⟩

/-- The state in which a byte is no longer dirty, with other replicas. -/
def undirtied (s : State) (m : Tab Byte) (key : Nat) : State := { s with haloRep := m, haloDirty := tdel s.haloDirty key }

theorem haloByteBack_eq (s : State) (tid key : Nat) (b : Byte) :
    ∃ m, haloByteBack s tid (key, b) = storeAt (undirtied s m (haloKey tid key)) (.mem key) 1 b.toNat := by
  obtain ⟨m, hm⟩ := haloKeep_eq s key
  refine ⟨m, ?_⟩
  rw [haloByteBack, hm]
  rfl

section Back

variable (hw : s.waiters = []) (ha : s.arms = []) (ho : ∀ e ∈ s.haloDirty, e.1 / 2 ^ 57 = tid)
  (hn : (s.haloDirty.map (·.1)).Nodup)
include hw ha ho hn

/-- A dirty byte written home: it is no longer dirty, and the others stay where they are (R251). -/
theorem homeBound_haloByteBack (h : HomeBound s u) {e : Nat × Byte} (he : e ∈ s.haloDirty) :
    HomeBound s (haloByteBack u tid (e.1 % 2 ^ 57, e.2)) ∧
    (haloByteBack u tid (e.1 % 2 ^ 57, e.2)).haloDirty = tdel u.haloDirty e.1 := by
  obtain ⟨m, hm⟩ := haloByteBack_eq u tid (e.1 % 2 ^ 57) e.2
  rw [haloKey_split (ho e he)] at hm
  have hat := storedAt_storeAt (s := undirtied u m e.1) (l := .mem (e.1 % 2 ^ 57)) ((congrArg State.waiters h.only :).trans hw)
    ((congrArg State.arms h.only :).trans ha) 1 e.2.toNat
  rw [← hm] at hat
  generalize haloByteBack u tid (e.1 % 2 ^ 57, e.2) = t at hat ⊢
  have hmem : t.mem = mwr u.mem (e.1 % 2 ^ 57) 1 e.2.toNat := hat.mem.1
  have hdirty : t.haloDirty = tdel u.haloDirty e.1 := (congrArg State.haloDirty hat :)
  have honly : haloMask t s = s := (congrArg (haloMask · s) hat :).trans h.only
  have hhere : mget t.mem (e.1 % 2 ^ 57) = e.2 := by
    have hbyte := mget_mwr_in h.wf (e.1 % 2 ^ 57) 1 e.2.toNat (k := 0) Nat.one_pos
    rwa [Nat.add_zero, Nat.pow_zero, Nat.div_one, BitVec.ofNat_toNat, BitVec.setWidth_eq, ← hmem] at hbyte
  have hother (b : Nat) (hb : b ≠ e.1 % 2 ^ 57) : mget t.mem b = mget u.mem b := by
    rw [hmem]
    exact mget_mwr_out h.wf _ _ _ (by omega)
  refine ⟨⟨honly, hmem ▸ mwr_wf h.wf _ _ _, fun x hx => h.sub x ?_, fun x hx => ?_, fun b hb => ?_⟩, hdirty⟩
  · rw [hdirty] at hx
    exact List.mem_of_mem_filter hx
  · by_cases hxe : x.1 % 2 ^ 57 = e.1 % 2 ^ 57
    · rw [dirty_eq_of_mod hn hx he ((ho x hx).trans (ho e he).symm) hxe]
      exact .inr hhere
    · rw [hdirty, hother _ hxe]
      refine (h.home x hx).imp_left fun hux => List.mem_filter.mpr ⟨hux, ?_⟩
      exact decide_eq_true fun hk => hxe (by rw [hk])
  · rw [hother b (hb e he).symm]
    exact h.rest b hb

/-- The write-back of one dirty byte, of a region with the handle when one is given. -/
def backStep (tid : Nat) (only : Option Nat) (s : State) (e : Nat × Byte) : State :=
  match haloAt s e.1 with
  | some (h, _, _) => if only = none ∨ only = some h.handle then haloByteBack s tid e else s
  | none => haloByteBack s tid e

variable (hr : ∀ e ∈ s.haloDirty, ∃ i j, haloAt s (e.1 % 2 ^ 57) = some (h, i, j))
include hr

/-- Dirty bytes of the region written home. -/
theorem homeBound_foldl_backStep (hb : HomeBound s u) {es : List (Nat × Byte)} (hes : ∀ e ∈ es, e ∈ s.haloDirty) :
    let t := (es.map fun e => (e.1 % 2 ^ 57, e.2)).foldl (backStep tid (some h.handle)) u
    HomeBound s t ∧ ∀ x ∈ t.haloDirty, x ∈ u.haloDirty ∧ ∀ e ∈ es, x.1 ≠ e.1 := by
  induction es generalizing u with
  | nil => exact ⟨hb, fun x hx => ⟨hx, nofun⟩⟩
  | cons e es ih =>
    have he : e ∈ s.haloDirty := hes e List.mem_cons_self
    obtain ⟨i, j, hat⟩ := hr e he
    have hstep : backStep tid (some h.handle) u (e.1 % 2 ^ 57, e.2) = haloByteBack u tid (e.1 % 2 ^ 57, e.2) := by
      simp only [backStep, haloAt_of_homeBound hb, hat, or_true, if_true]
    obtain ⟨hb', hd⟩ := homeBound_haloByteBack hw ha ho hn hb he
    rw [List.map_cons, List.foldl_cons, hstep]
    obtain ⟨ht, hx⟩ := ih hb' fun y hy => hes y (List.mem_cons_of_mem _ hy)
    refine ⟨ht, fun x hxt => ?_⟩
    obtain ⟨hxu, hxes⟩ := hx x hxt
    rw [hd] at hxu
    obtain ⟨hxu, hxe⟩ := List.mem_filter.mp hxu
    exact ⟨hxu, List.forall_mem_cons.mpr ⟨of_decide_eq_true hxe, hxes⟩⟩

/-- An owner's push and write-back: the bytes that stay dirty were dirty, and the owner is not the thread whose they are. -/
theorem homeBound_owner (hb : HomeBound s u) (t : Nat) :
    let v := haloBack (haloPush u t (some h.handle)) t (some h.handle)
    HomeBound s v ∧ ∀ x ∈ v.haloDirty, x ∈ u.haloDirty ∧ t ≠ tid := by
  have hp : HomeBound s (haloPush u t (some h.handle)) := homeBound_haloPush hb t _
  have hd : (haloPush u t (some h.handle)).haloDirty = u.haloDirty := by
    rw [haloPush_eq]
    rfl
  generalize haloPush u t (some h.handle) = w at hp hd ⊢
  by_cases ht : t = tid
  · subst ht
    have hall : haloDirtyOf w t = w.haloDirty.map fun e => (e.1 % 2 ^ 57, e.2) :=
      haloDirtyOf_all fun e he => ho e (hp.sub e he)
    obtain ⟨hv, hx⟩ := homeBound_foldl_backStep hw ha ho hn hr hp hp.sub
    rw [← hall] at hv hx
    exact ⟨hv, fun x hxv => absurd rfl ((hx x hxv).2 x (hx x hxv).1)⟩
  · have hnone : haloDirtyOf w t = [] := by
      rw [haloDirtyOf, List.filter_eq_nil_iff.mpr fun e he => ?_, List.map_nil]
      exact fun h => ht ((of_decide_eq_true h).symm.trans (ho e (hp.sub e he)))
    have hkept : haloBack w t (some h.handle) = w := by
      rw [haloBack, hnone]
      rfl
    rw [hkept]
    exact ⟨hp, fun x hx => ⟨hd ▸ hx, ht⟩⟩

/-- Every owner's push and write-back in turn. -/
theorem homeBound_owners (hb : HomeBound s u) (ts : List Nat) :
    let v := ts.foldl (fun u t => haloBack (haloPush u t (some h.handle)) t (some h.handle)) u
    HomeBound s v ∧ ∀ x ∈ v.haloDirty, x ∈ u.haloDirty ∧ tid ∉ ts := by
  induction ts generalizing u with
  | nil => exact ⟨hb, fun x hx => ⟨hx, List.not_mem_nil⟩⟩
  | cons t ts ih =>
    obtain ⟨hb', h1⟩ := homeBound_owner hw ha ho hn hr hb t
    obtain ⟨hv, h2⟩ := ih hb'
    refine ⟨hv, fun x hx => ?_⟩
    obtain ⟨hx', hts⟩ := h2 x hx
    obtain ⟨hxu, ht⟩ := h1 x hx'
    exact ⟨hxu, fun hm => (List.mem_cons.mp hm).elim (fun e => ht e.symm) hts⟩

end Back

/-- The threads that own a strip of a region (R250). -/
def haloOwners (s : State) (h : Halo) : List Nat :=
  (List.range (h.gx * h.gy)).filterMap fun n => (groupKey s h.gid).bind fun k => rankThread (gr s k) (h.rbase + n)

theorem mem_haloOwners {n : Nat} (hk : groupKey s h.gid = some k) (hn : n < h.gx * h.gy)
    (ht : rankThread (gr s k) (h.rbase + n) = some tid) : tid ∈ haloOwners s h :=
  List.mem_filterMap.mpr ⟨n, List.mem_range.mpr hn, by rw [hk, Option.bind_some, ht]⟩

/-- The owners of a region have pushed and written back, one after another (R253). -/
def ownersBack (s : State) (h : Halo) : State :=
  (haloOwners s h).foldl (fun u t => haloBack (haloPush u t (some h.handle)) t (some h.handle)) s

/-- A region and its halo bytes are no more (R253). -/
def regionFreed (s : State) (h : Halo) : State :=
  let keep (e : Nat × Byte) : Bool := ((haloVa h (e.1 % 2 ^ 57)).bind (haloElem h)).isNone
  { s with halos := s.halos.filter (· ≠ h), haloRep := s.haloRep.filter keep, haloDirty := s.haloDirty.filter keep }

theorem haloEnd_eq (s : State) (h : Halo) : haloEnd s h = regionFreed (ownersBack s h) h := rfl

/-- The only region ends, and one of its owners has all the dirty bytes: they stand at their homes, no other byte of memory has
changed, and no region and no dirty byte is left (R253). -/
theorem haloEnd_home (hh : s.halos = [h]) (hm : s.mem.wf = true) (hw : s.waiters = []) (ha : s.arms = [])
    (ho : ∀ e ∈ s.haloDirty, e.1 / 2 ^ 57 = tid) (hn : (s.haloDirty.map (·.1)).Nodup)
    (hr : ∀ e ∈ s.haloDirty, ∃ i j, haloAt s (e.1 % 2 ^ 57) = some (h, i, j)) (ht : tid ∈ haloOwners s h) :
    let t := haloEnd s h
    t.halos = [] ∧ t.haloDirty = [] ∧ (∀ e ∈ s.haloDirty, mget t.mem (e.1 % 2 ^ 57) = e.2) ∧
    (∀ b, (∀ e ∈ s.haloDirty, e.1 % 2 ^ 57 ≠ b) → mget t.mem b = mget s.mem b) ∧
    t.cur = s.cur ∧ t.slot = s.slot ∧ ∀ k, th t k = th s k := by
  obtain ⟨hv, hx⟩ := homeBound_owners hw ha ho hn hr (HomeBound.refl hm) (haloOwners s h)
  rw [haloEnd_eq]
  change HomeBound s (ownersBack s h) at hv
  change ∀ x ∈ (ownersBack s h).haloDirty, _ at hx
  generalize ownersBack s h = v at hv hx
  have hnone : v.haloDirty = [] := List.eq_nil_iff_forall_not_mem.mpr fun x hxv => (hx x hxv).2 ht
  have hhalos : v.halos = [h] := (congrArg State.halos hv.only :).trans hh
  have hthreads : v.threads = s.threads := (congrArg State.threads hv.only :)
  refine ⟨?_, ?_, fun e he => ?_, hv.rest, (congrArg State.cur hv.only :), (congrArg State.slot hv.only :), fun k => ?_⟩
  · simp [regionFreed, hhalos]
  · simp [regionFreed, hnone]
  · exact (hv.home e he).resolve_left (hnone ▸ List.not_mem_nil)
  · exact congrArg (tget · k {}) hthreads

/-! ### The statement -/

/-- Settles O29: a first region is declared on its pages' own places; a push changes replicas alone, and puts each dirty byte into
those that hold it; a drop takes each dirty byte home. -/
theorem haloWords : Obligations.HaloWords := by
  intro s p d a k r A core
  refine ⟨?_, fun h hg hh hid => ⟨fun hA hm hw ha ho hn hr => ⟨?_, ?_⟩, fun hA hq => ?_⟩⟩
  · intro off hal hi hs he bs
    refine ⟨fun hm => ?_, ?_⟩
    · refine ⟨_, exec_haloDecl_inScratch hal hi hs he, ?_⟩
      rw [haloDecl_noMember hm]
      exact regWord_finish ..
    · intro hg hh hp hpkg h hok hranks hfits hv hidle
      obtain ⟨hpages, hplaces⟩ := ownPages_spec hv
      have hx := exec_haloDecl_inScratch (p := p) (d := d) hal hi hs he
      rw [haloDecl_first hg hh hp hpkg rfl hok hranks hfits hv hidle] at hx
      obtain ⟨hbeh, hwrote, hreg, hoth, hout⟩ :=
        wrote_finish_of_me (s := s) (u := haloPut s { h with pages := ownPages s (haloPages h) }) rfl rfl rfl p d (BitVec.ofNat 64 h.handle)
      refine ⟨_, { h with pages := ownPages s (haloPages h) }, hx, hbeh, hwrote, ?_, rfl, hpages, hplaces, hreg, hoth, ?_⟩
      · rw [hout.halos]
        exact congrArg (· ++ _) hh
      · exact (congrArg (fun x : State => { x with threads := s.threads, last := s.last, cores := s.cores, halos := s.halos }) hout :)
  · obtain ⟨hbeh, hpc, hoth, hout⟩ :=
      behind_finish_of_me (s := s) (u := haloPush s s.cur (some h.handle)) (by rw [haloPush_eq]; rfl) (by rw [haloPush_eq]; rfl)
        (by rw [haloPush_eq]; rfl) p
    have hth (j : Nat) : th (haloPush s s.cur (some h.handle)) j = th s j := by
      rw [haloPush_eq]
      rfl
    refine ⟨_, exec_haloPush_named hg hh hid hA, hbeh, fun e he i j hat c hc => ?_, fun e he hmine => ?_, hpc,
      fun j hj => (hoth j hj).trans (hth j), ?_⟩
    · rw [hout.haloRep]
      exact tget_haloPush ho hn he hat hc
    · rw [hout.haloRep] at he
      exact mem_haloPush_mine he hmine
    · rw [haloPush_eq] at hout ⊢
      exact (congrArg (fun x : State => { x with threads := s.threads, last := s.last, haloRep := s.haloRep }) hout :)
  · rintro ⟨n, hlt, hrank⟩ hkey
    obtain ⟨hhalos, hdirty, hhome, hrest, hcur, hslot, hth⟩ := haloEnd_home hh hm hw ha ho hn hr (mem_haloOwners hkey hlt hrank)
    obtain ⟨hbeh, hpc, hoth, hout⟩ := behind_finish_of_me (s := s) hcur hslot (by rw [me, me, hcur]; exact hth _) p
    exact ⟨_, exec_haloDrop_named hg hh hid hA, hbeh, hout.halos.trans hhalos, fun e he => by rw [hout.mem]; exact hhome e he,
      fun b hb => by rw [hout.mem]; exact hrest b hb, hout.haloDirty.trans hdirty, hpc, fun j hj => (hoth j hj).trans (hth j)⟩
  · obtain ⟨hpush, hdrop⟩ := exec_halo_unnamed (a := a) (p := p) hg hh hid hA
    exact ⟨_, _, hpush, trapTo_raise hq 21 _, hdrop, trapTo_raise hq 21 _⟩

end Sys2Proof
end

section
/-! PROOFS. A copy word with a progress counter, of a movement thread whose core and whose counter are of two partitions (R177,
R268, R350). -/

namespace Sys2Proof

open Machine

/-- The movement thread of core 0, of partition 0, runs in a context of partition 1. Its channel is Idle, the descriptor of the
fill of one byte stands at offset 0 of its scratchpad window, whose address is in g2, and g1 names near counter 0 of core 2. -/
def copiesAcross : State :=
  { acrossPartitions with
    cur := 15,
    threads := [(15, { state := .ready, u := { lwb := 0x200001 }, g := [(1, 0x1000), (2, 0x200000)] })],
    cores := [(0, { sp := 1, ncbase := 1, ch := { en := true, state := 1 } })],
    spads := mputs [] 0 fillsByte.desc }

theorem movementThread_copiesAcross : MovementThread copiesAcross 1 := ⟨by decide, rfl, rfl⟩

theorem inScratch_copiesAcross : InScratch copiesAcross (rd copiesAcross 2) 32 0 := by
  rw [InScratch]
  decide

theorem nothingPosted_copiesAcross : NothingPosted copiesAcross copiesAcross.cur := by
  rw [NothingPosted]
  decide

/-- The statement asks that the counter is of the context's partition. -/
theorem namesCounter_copiesAcross : NamesCounter copiesAcross (rd copiesAcross 1) (.near 2 0) := by
  have haddr : NearAddr copiesAcross 0 0x1000 2 0 := by
    rw [NearAddr]
    decide
  exact ⟨by decide, rfl, .inl ⟨2, 0, rfl, haddr, rfl⟩⟩

/-- The fill keeps its limits, so that an Idle channel would capture it. -/
theorem descOk_copiesAcross : descOk .fill (mbytes copiesAcross.spads 0 32) = true := by decide +kernel

/-- The fill is not captured: from core 0 the counter is outside the partition, reason 2 of R177. -/
theorem endOf_xferFill_copiesAcross : endOf (exec (.xferFill 0 0 2 1) copiesAcross) = some (.trapped 11 0x1000) := by
  decide +kernel

/-- Refutes O39: it asks that the counter is of the partition of the thread's context, not that the thread's core is. On a core of
another partition the mesh carries no packet to the counter (R350): the word is a counter fault, and no request is captured. -/
theorem not_copyWords : ¬ Obligations.CopyWords := by
  unfold Obligations.CopyWords
  intro h
  obtain ⟨-, moves⟩ := h copiesAcross 0 0 2 1 0 (.xferFill 0 0 2 1, .fill, 32) (by simp)
  obtain ⟨-, reads⟩ := moves 1 movementThread_copiesAcross
  obtain ⟨-, -, accepts⟩ := reads (by decide) inScratch_copiesAcross (by rw [NoVectorStore]; decide)
    nothingPosted_copiesAcross rfl (.inr ⟨_, namesCounter_copiesAcross⟩)
  obtain ⟨-, captures⟩ := accepts rfl descOk_copiesAcross
  obtain ⟨t, r, v, w, -, he, hbehind, -⟩ := captures fun hmcast => absurd hmcast (by decide)
  exact not_behind_of_trapped endOf_xferFill_copiesAcross he hbehind

end Sys2Proof
end
